-- ==== Sys2Proof/Word.lean ====
section
/-! DEFINITION. The word types of the Z960 and their plainest arithmetic (R6: bit 0 is the least significant bit,
multi-byte values are little-endian). -/

namespace Sys2Proof

/-- A 32-bit word: a lane register lane, a group register, an instruction word. -/
abbrev Word := BitVec 32

/-- A 64-bit value: an address, a pair of registers (R43). -/
abbrev DWord := BitVec 64

/-- One byte of memory. -/
abbrev Byte := BitVec 8

/-- The scope bit S of an instruction word (R171). -/
inductive Scope where
  | lane
  | group
  deriving DecidableEq, Repr

/-- A set of the 32 logical lanes of a sheaf: bit i belongs to lane i (R13). -/
abbrev Mask := BitVec 32

/-- The mask with every lane set. -/
abbrev Mask.full : Mask := 0xFFFFFFFF#32

/-- The logical lanes 0 to 31 in ascending order (R5). -/
def lanes : List Nat :=
  [0, 1, 2, 3, 4, 5, 6, 7, 8, 9, 10, 11, 12, 13, 14, 15, 16, 17, 18, 19, 20, 21, 22, 23, 24, 25, 26, 27, 28, 29, 30, 31]

/-- Bits [hi:lo] of a value, as a number (R6). -/
def bits (x hi lo : Nat) : Nat := x / 2 ^ lo % 2 ^ (hi + 1 - lo)

end Sys2Proof
end

