-- ==== Sys2Proof/Syntax.lean ====
section
/-! DEFINITION. The instructions and events of the Z960: one constructor per row of spec/opcode_table.json.
An instruction's arguments are the fields its encoding gives it (chapters 7 to 11), raw, in the order of the table;
`sc` is the scope bit S (R171).  An event's arguments name the part of the package it happens at. -/

namespace Sys2Proof

/-- Every step of the package: 219 instructions and 92 events, in the order of the opcode table. -/
inductive Instr where
  /-- ADD (R189): Adds two registers modulo 2^32, per active lane or once in group scope. -/
  | add (sc : Scope) (d : BitVec 7) (a : BitVec 7) (b : BitVec 7)
  /-- SUB (R189): Subtracts two registers modulo 2^32. -/
  | sub (sc : Scope) (d : BitVec 7) (a : BitVec 7) (b : BitVec 7)
  /-- MUL (R189): Writes the low 32 bits of the product. -/
  | mul (sc : Scope) (d : BitVec 7) (a : BitVec 7) (b : BitVec 7)
  /-- MULH (R189): Writes the high 32 bits of the signed 64-bit product. -/
  | mulh (sc : Scope) (d : BitVec 7) (a : BitVec 7) (b : BitVec 7)
  /-- MULHU (R189): Writes the high 32 bits of the unsigned 64-bit product. -/
  | mulhu (sc : Scope) (d : BitVec 7) (a : BitVec 7) (b : BitVec 7)
  /-- MIN (R189): Writes the signed minimum. -/
  | min (sc : Scope) (d : BitVec 7) (a : BitVec 7) (b : BitVec 7)
  /-- MAX (R189): Writes the signed maximum. -/
  | max (sc : Scope) (d : BitVec 7) (a : BitVec 7) (b : BitVec 7)
  /-- MINU (R189): Writes the unsigned minimum. -/
  | minu (sc : Scope) (d : BitVec 7) (a : BitVec 7) (b : BitVec 7)
  /-- MAXU (R189): Writes the unsigned maximum. -/
  | maxu (sc : Scope) (d : BitVec 7) (a : BitVec 7) (b : BitVec 7)
  /-- AND (R189): Bitwise AND. -/
  | and (sc : Scope) (d : BitVec 7) (a : BitVec 7) (b : BitVec 7)
  /-- OR (R189): Bitwise OR. -/
  | or (sc : Scope) (d : BitVec 7) (a : BitVec 7) (b : BitVec 7)
  /-- XOR (R189): Bitwise XOR. -/
  | xor (sc : Scope) (d : BitVec 7) (a : BitVec 7) (b : BitVec 7)
  /-- ANDN (R189): Writes a AND NOT b. -/
  | andn (sc : Scope) (d : BitVec 7) (a : BitVec 7) (b : BitVec 7)
  /-- SHL (R189): Shifts left by b[7:0], giving 0 for amounts of 32 or more. -/
  | shl (sc : Scope) (d : BitVec 7) (a : BitVec 7) (b : BitVec 7)
  /-- SHR (R189): Logical right shift by b[7:0]. -/
  | shr (sc : Scope) (d : BitVec 7) (a : BitVec 7) (b : BitVec 7)
  /-- SRA (R189): Arithmetic right shift by b[7:0]. -/
  | sra (sc : Scope) (d : BitVec 7) (a : BitVec 7) (b : BitVec 7)
  /-- ROL (R190): Rotates left by b[4:0]. -/
  | rol (sc : Scope) (d : BitVec 7) (a : BitVec 7) (b : BitVec 7)
  /-- ROR (R190): Rotates right by b[4:0]. -/
  | ror (sc : Scope) (d : BitVec 7) (a : BitVec 7) (b : BitVec 7)
  /-- CLZ (R190): Counts leading zeros. -/
  | clz (sc : Scope) (d : BitVec 7) (a : BitVec 7)
  /-- POPC (R190): Counts set bits. -/
  | popc (sc : Scope) (d : BitVec 7) (a : BitVec 7)
  /-- BREV (R190): Reverses the bit order. -/
  | brev (sc : Scope) (d : BitVec 7) (a : BitVec 7)
  /-- ABS (R190): Signed absolute value modulo 2^32. -/
  | abs (sc : Scope) (d : BitVec 7) (a : BitVec 7)
  /-- NEG (R190): Negates modulo 2^32. -/
  | neg (sc : Scope) (d : BitVec 7) (a : BitVec 7)
  /-- MADD (R190): Adds a times b to the old destination. -/
  | madd (sc : Scope) (d : BitVec 7) (a : BitVec 7) (b : BitVec 7)
  /-- MSUB (R190): Subtracts a times b from the old destination. -/
  | msub (sc : Scope) (d : BitVec 7) (a : BitVec 7) (b : BitVec 7)
  /-- LEA1 (R190): Writes a + (b << 1). -/
  | lea1 (sc : Scope) (d : BitVec 7) (a : BitVec 7) (b : BitVec 7)
  /-- LEA2 (R190): Writes a + (b << 2). -/
  | lea2 (sc : Scope) (d : BitVec 7) (a : BitVec 7) (b : BitVec 7)
  /-- LEA3 (R190): Writes a + (b << 3). -/
  | lea3 (sc : Scope) (d : BitVec 7) (a : BitVec 7) (b : BitVec 7)
  /-- ADDSAT (R190): Signed saturating addition. -/
  | addsat (sc : Scope) (d : BitVec 7) (a : BitVec 7) (b : BitVec 7)
  /-- SUBSAT (R190): Signed saturating subtraction. -/
  | subsat (sc : Scope) (d : BitVec 7) (a : BitVec 7) (b : BitVec 7)
  /-- ADDI (R191): Adds a sign-extended immediate. -/
  | addi (sc : Scope) (d : BitVec 7) (a : BitVec 7) (i : BitVec 11)
  /-- MULI (R191): Multiplies by a sign-extended immediate. -/
  | muli (sc : Scope) (d : BitVec 7) (a : BitVec 7) (i : BitVec 11)
  /-- ANDI (R191): ANDs with a zero-extended immediate. -/
  | andi (sc : Scope) (d : BitVec 7) (a : BitVec 7) (i : BitVec 11)
  /-- ORI (R191): ORs with a zero-extended immediate. -/
  | ori (sc : Scope) (d : BitVec 7) (a : BitVec 7) (i : BitVec 11)
  /-- XORI (R191): XORs with a zero-extended immediate. -/
  | xori (sc : Scope) (d : BitVec 7) (a : BitVec 7) (i : BitVec 11)
  /-- SHLI (R192): Shifts left by a constant. -/
  | shli (sc : Scope) (d : BitVec 7) (a : BitVec 7) (n : BitVec 5)
  /-- SHRI (R192): Logical right shift by a constant. -/
  | shri (sc : Scope) (d : BitVec 7) (a : BitVec 7) (n : BitVec 5)
  /-- SRAI (R192): Arithmetic right shift by a constant. -/
  | srai (sc : Scope) (d : BitVec 7) (a : BitVec 7) (n : BitVec 5)
  /-- ROLI (R192): Rotates left by a constant. -/
  | roli (sc : Scope) (d : BitVec 7) (a : BitVec 7) (n : BitVec 5)
  /-- LI (R193): Loads an immediate into every active lane or a group register. -/
  | li (sc : Scope) (d : BitVec 7) (i : BitVec 18)
  /-- CMP (R196): Compares two registers and writes the active lanes' condition bits into a group mask. -/
  | cmp (sc : Scope) (d : BitVec 7) (a : BitVec 7) (b : BitVec 7) (c : BitVec 4)
  /-- CMPI (R196): Compares with a signed 7-bit immediate and writes condition bits into a group mask. -/
  | cmpi (sc : Scope) (d : BitVec 7) (a : BitVec 7) (c : BitVec 4) (i : BitVec 7)
  /-- MOV (R198): Copies a register, keeping its tag in lane form. -/
  | mov (sc : Scope) (d : BitVec 7) (a : BitVec 7)
  /-- MOVGV (R198): Copies a group register into every active lane. -/
  | movgv (d : BitVec 7) (a : BitVec 7)
  /-- MOVVG (R198): Copies the lowest active lane into a group register. -/
  | movvg (d : BitVec 7) (a : BitVec 7)
  /-- LANEID (R198): Writes each lane's logical number. -/
  | laneid (d : BitVec 7)
  /-- TAG (R49): Writes the shape tag of a lane register to a group register. -/
  | tag (d : BitVec 7) (a : BitVec 7)
  /-- GEN (R49): Rewrites a lane register in G form without changing values. -/
  | gen (d : BitVec 7)
  /-- SEL (R198): Bitwise select between two sources under the old destination. -/
  | sel (d : BitVec 7) (a : BitVec 7) (b : BitVec 7)
  /-- PACK2 (R198): Packs two halfwords. -/
  | pack2 (d : BitVec 7) (a : BitVec 7) (b : BitVec 7)
  /-- PACK4 (R198): Packs two bytes above the old destination's upper half. -/
  | pack4 (d : BitVec 7) (a : BitVec 7) (b : BitVec 7)
  /-- UNPK (R198): Extracts a byte or halfword selected by the control value. -/
  | unpk (d : BitVec 7) (a : BitVec 7) (b : BitVec 7)
  /-- MOVJ (R199): Copies E or A of a rejoin register into a group register. -/
  | movj (d : BitVec 7) (k : BitVec 4) (e : BitVec 1)
  /-- MPOP (R197): Counts the set bits of a mask. -/
  | mpop (d : BitVec 7) (a : BitVec 7)
  /-- MFFS (R197): Finds the lowest set bit of a mask. -/
  | mffs (d : BitVec 7) (a : BitVec 7)
  /-- MFLS (R197): Finds the highest set bit of a mask. -/
  | mfls (d : BitVec 7) (a : BitVec 7)
  /-- MNTH (R197): Finds the index of the n-th set bit of a mask. -/
  | mnth (d : BitVec 7) (a : BitVec 7) (b : BitVec 7)
  /-- FADD (R221): FP32 addition rounded once under RNE. -/
  | fadd (sc : Scope) (d : BitVec 7) (a : BitVec 7) (b : BitVec 7)
  /-- FSUB (R221): FP32 subtraction. -/
  | fsub (sc : Scope) (d : BitVec 7) (a : BitVec 7) (b : BitVec 7)
  /-- FMUL (R221): FP32 multiplication. -/
  | fmul (sc : Scope) (d : BitVec 7) (a : BitVec 7) (b : BitVec 7)
  /-- FFMA (R221): Fused multiply-add into the old destination. -/
  | ffma (sc : Scope) (d : BitVec 7) (a : BitVec 7) (b : BitVec 7)
  /-- FFMS (R221): Fused multiply-subtract from the old destination. -/
  | ffms (sc : Scope) (d : BitVec 7) (a : BitVec 7) (b : BitVec 7)
  /-- FMIN (R221): FP32 minimum with canonical NaN. -/
  | fmin (sc : Scope) (d : BitVec 7) (a : BitVec 7) (b : BitVec 7)
  /-- FMAX (R221): FP32 maximum with canonical NaN. -/
  | fmax (sc : Scope) (d : BitVec 7) (a : BitVec 7) (b : BitVec 7)
  /-- FABS (R221): Clears the sign bit. -/
  | fabs (sc : Scope) (d : BitVec 7) (a : BitVec 7)
  /-- FNEG (R221): Flips the sign bit. -/
  | fneg (sc : Scope) (d : BitVec 7) (a : BitVec 7)
  /-- FCPYS (R221): Copies the sign of b onto a. -/
  | fcpys (sc : Scope) (d : BitVec 7) (a : BitVec 7) (b : BitVec 7)
  /-- FCLASS (R222): Writes the one-hot class word of an FP32 value. -/
  | fclass (sc : Scope) (d : BitVec 7) (a : BitVec 7)
  /-- FCMP (R223): Compares FP32 values and writes condition bits into a group mask. -/
  | fcmp (sc : Scope) (d : BitVec 7) (a : BitVec 7) (b : BitVec 7) (c : BitVec 4)
  /-- CVT (R224): Converts between formats with a rounding mode and saturate bit. -/
  | cvt (sc : Scope) (d : BitVec 7) (a : BitVec 7) (t : BitVec 4) (u : BitVec 4) (r : BitVec 2) (x : BitVec 1)
  /-- HADD2 (R225): Adds two FP16 halves. -/
  | hadd2 (d : BitVec 7) (a : BitVec 7) (b : BitVec 7)
  /-- HSUB2 (R225): Subtracts two FP16 halves. -/
  | hsub2 (d : BitVec 7) (a : BitVec 7) (b : BitVec 7)
  /-- HMUL2 (R225): Multiplies two FP16 halves. -/
  | hmul2 (d : BitVec 7) (a : BitVec 7) (b : BitVec 7)
  /-- HFMA2 (R225): Fused multiply-add on two FP16 halves. -/
  | hfma2 (d : BitVec 7) (a : BitVec 7) (b : BitVec 7)
  /-- HMIN2 (R225): FP16 minimum per half. -/
  | hmin2 (d : BitVec 7) (a : BitVec 7) (b : BitVec 7)
  /-- HMAX2 (R225): FP16 maximum per half. -/
  | hmax2 (d : BitVec 7) (a : BitVec 7) (b : BitVec 7)
  /-- BADD2 (R225): Adds two BF16 halves. -/
  | badd2 (d : BitVec 7) (a : BitVec 7) (b : BitVec 7)
  /-- BMUL2 (R225): Multiplies two BF16 halves. -/
  | bmul2 (d : BitVec 7) (a : BitVec 7) (b : BitVec 7)
  /-- BFMA2 (R225): Fused multiply-add on two BF16 halves. -/
  | bfma2 (d : BitVec 7) (a : BitVec 7) (b : BitVec 7)
  /-- DADD (R226): FP64 addition on register pairs. -/
  | dadd (d : BitVec 7) (a : BitVec 7) (b : BitVec 7)
  /-- DSUB (R226): FP64 subtraction. -/
  | dsub (d : BitVec 7) (a : BitVec 7) (b : BitVec 7)
  /-- DMUL (R226): FP64 multiplication. -/
  | dmul (d : BitVec 7) (a : BitVec 7) (b : BitVec 7)
  /-- DFMA (R226): FP64 fused multiply-add. -/
  | dfma (d : BitVec 7) (a : BitVec 7) (b : BitVec 7)
  /-- DMIN (R226): FP64 minimum. -/
  | dmin (d : BitVec 7) (a : BitVec 7) (b : BitVec 7)
  /-- DMAX (R226): FP64 maximum. -/
  | dmax (d : BitVec 7) (a : BitVec 7) (b : BitVec 7)
  /-- EX2 (R227): Base-2 exponential. -/
  | ex2 (d : BitVec 7) (a : BitVec 7)
  /-- LG2 (R227): Base-2 logarithm. -/
  | lg2 (d : BitVec 7) (a : BitVec 7)
  /-- RCP (R227): Reciprocal. -/
  | rcp (d : BitVec 7) (a : BitVec 7)
  /-- RSQ (R227): Reciprocal square root. -/
  | rsq (d : BitVec 7) (a : BitVec 7)
  /-- SQRT (R227): Correctly rounded square root. -/
  | sqrt (d : BitVec 7) (a : BitVec 7)
  /-- SIN (R227): Sine in radians. -/
  | sin (d : BitVec 7) (a : BitVec 7)
  /-- COS (R227): Cosine in radians. -/
  | cos (d : BitVec 7) (a : BitVec 7)
  /-- TANH (R227): Hyperbolic tangent. -/
  | tanh (d : BitVec 7) (a : BitVec 7)
  /-- EX2H (R227): Base-2 exponential on two FP16 halves. -/
  | ex2h (d : BitVec 7) (a : BitVec 7)
  /-- SHFL (R230): Reads the lane named by the control value. -/
  | shfl (d : BitVec 7) (a : BitVec 7) (b : BitVec 7)
  /-- SHFLX (R230): Reads lane i XOR the control value. -/
  | shflx (d : BitVec 7) (a : BitVec 7) (b : BitVec 7)
  /-- SHFLUP (R230): Reads lane i minus n, or its own lane. -/
  | shflup (d : BitVec 7) (a : BitVec 7) (b : BitVec 7)
  /-- SHFLDN (R230): Reads lane i plus n, or its own lane. -/
  | shfldn (d : BitVec 7) (a : BitVec 7) (b : BitVec 7)
  /-- BCAST (R230): Broadcasts one lane chosen by the lowest active lane's index. -/
  | bcast (d : BitVec 7) (a : BitVec 7) (b : BitVec 7)
  /-- REDADD (R231): Integer sum of the active lanes. -/
  | redadd (d : BitVec 7) (a : BitVec 7)
  /-- REDFADD (R231): Exact FP32 sum of the active lanes rounded once. -/
  | redfadd (d : BitVec 7) (a : BitVec 7)
  /-- REDMIN (R231): Signed minimum over active lanes. -/
  | redmin (d : BitVec 7) (a : BitVec 7)
  /-- REDMAX (R231): Signed maximum over active lanes. -/
  | redmax (d : BitVec 7) (a : BitVec 7)
  /-- REDFMIN (R231): FP32 minimum over active lanes. -/
  | redfmin (d : BitVec 7) (a : BitVec 7)
  /-- REDFMAX (R231): FP32 maximum over active lanes. -/
  | redfmax (d : BitVec 7) (a : BitVec 7)
  /-- REDAND (R231): Bitwise AND over active lanes. -/
  | redand (d : BitVec 7) (a : BitVec 7)
  /-- REDOR (R231): Bitwise OR over active lanes. -/
  | redor (d : BitVec 7) (a : BitVec 7)
  /-- SCANADD (R231): Inclusive integer prefix sum over active lanes. -/
  | scanadd (d : BitVec 7) (a : BitVec 7)
  /-- SCANFADD (R231): Inclusive exact FP32 prefix sum rounded once per lane. -/
  | scanfadd (d : BitVec 7) (a : BitVec 7)
  /-- ARGMAX (R234): Index of the active lane with the largest signed value. -/
  | argmax (d : BitVec 7) (a : BitVec 7)
  /-- ARGMIN (R234): Index of the active lane with the smallest signed value. -/
  | argmin (d : BitVec 7) (a : BitVec 7)
  /-- FARGMAX (R234): Index of the active lane with the largest FP32 value. -/
  | fargmax (d : BitVec 7) (a : BitVec 7)
  /-- FARGMIN (R234): Index of the active lane with the smallest FP32 value. -/
  | fargmin (d : BitVec 7) (a : BitVec 7)
  /-- SORT32 (R235): Sorts the active lanes' entries under the selection order. -/
  | sort32 (d : BitVec 7) (a : BitVec 7)
  /-- TOPK (R235): Writes the best k entries and fills the rest. -/
  | topk (d : BitVec 7) (a : BitVec 7) (b : BitVec 7)
  /-- MERGEK (R236): Sorts 64 entries of two pairs into four registers. -/
  | mergek (d : BitVec 7) (a : BitVec 7) (b : BitVec 7)
  /-- DP4A (R228): Adds a four-way INT8 dot product to the accumulator. -/
  | dp4a (d : BitVec 7) (a : BitVec 7) (b : BitVec 7)
  /-- DP4AU (R228): Adds a four-way UINT8 dot product to the accumulator. -/
  | dp4au (d : BitVec 7) (a : BitVec 7) (b : BitVec 7)
  /-- DP2H (R228): Adds a two-way FP16 dot product to an FP32 accumulator. -/
  | dp2h (d : BitVec 7) (a : BitVec 7) (b : BitVec 7)
  /-- DP4Q (R228): Adds a four-way E4M3 dot product to an FP32 accumulator. -/
  | dp4q (d : BitVec 7) (a : BitVec 7) (b : BitVec 7)
  /-- DP4QE (R228): Adds a four-way E5M2 dot product to an FP32 accumulator. -/
  | dp4qe (d : BitVec 7) (a : BitVec 7) (b : BitVec 7)
  /-- DIV (R194): Signed division with defined results for zero and overflow. -/
  | div (sc : Scope) (d : BitVec 7) (a : BitVec 7) (b : BitVec 7) (l : BitVec 4)
  /-- DIVU (R194): Unsigned division. -/
  | divu (sc : Scope) (d : BitVec 7) (a : BitVec 7) (b : BitVec 7) (l : BitVec 4)
  /-- REM (R194): Signed remainder. -/
  | rem (sc : Scope) (d : BitVec 7) (a : BitVec 7) (b : BitVec 7) (l : BitVec 4)
  /-- REMU (R194): Unsigned remainder. -/
  | remu (sc : Scope) (d : BitVec 7) (a : BitVec 7) (b : BitVec 7) (l : BitVec 4)
  /-- LD (R242): Lane load of a word, doubleword or quadword from global memory. -/
  | ld (d : BitVec 7) (a : BitVec 7) (m : BitVec 2) (o : BitVec 5) (l : BitVec 4)
  /-- LDX (R242): Lane load of a byte or halfword, sign- or zero-extended. -/
  | ldx (d : BitVec 7) (a : BitVec 7) (m : BitVec 2) (o : BitVec 5) (l : BitVec 4)
  /-- ST (R242): Lane store of 1 to 8 bytes to global memory. -/
  | st (d : BitVec 7) (a : BitVec 7) (m : BitVec 2) (o : BitVec 5)
  /-- STQ (R242): Lane store of 16 bytes to global memory. -/
  | stq (d : BitVec 7) (a : BitVec 7) (o : BitVec 5)
  /-- LDS (R242): Lane load from scratch. -/
  | lds (d : BitVec 7) (a : BitVec 7) (m : BitVec 2) (o : BitVec 5) (l : BitVec 4)
  /-- STS (R242): Lane store to scratch. -/
  | sts (d : BitVec 7) (a : BitVec 7) (m : BitVec 2) (o : BitVec 5)
  /-- LDC (R244): Reads the B-store at the lowest active lane's address into every active lane. -/
  | ldc (d : BitVec 7) (a : BitVec 7) (m : BitVec 2) (o : BitVec 5) (l : BitVec 4)
  /-- LDA (R246): Acquire load at a named scope. -/
  | lda (d : BitVec 7) (a : BitVec 7) (m : BitVec 2) (c : BitVec 3) (l : BitVec 4)
  /-- STL (R246): Release store at a named scope. -/
  | stl (d : BitVec 7) (a : BitVec 7) (m : BitVec 2) (c : BitVec 3)
  /-- ATOM (R248): 32-bit global atomic read-modify-write per active lane or once for the group. -/
  | atom (sc : Scope) (d : BitVec 7) (a : BitVec 7) (m : BitVec 2) (k : BitVec 5) (l : BitVec 4)
  /-- ATOM64 (R248): 64-bit global atomic read-modify-write per active lane. -/
  | atom64 (d : BitVec 7) (a : BitVec 7) (m : BitVec 2) (k : BitVec 5) (l : BitVec 4)
  /-- ATOMS (R248): Scratch atomic read-modify-write in the owning bank. -/
  | atoms (d : BitVec 7) (a : BitVec 7) (m : BitVec 2) (k : BitVec 5) (l : BitVec 4)
  /-- FENCE (R247): Acquire, release, both or sequentially consistent fence at a scope. -/
  | fence (sc : Scope) (c : BitVec 3) (k : BitVec 2)
  /-- LDT (R243): Load with a transient hint that does not allocate on a miss. -/
  | ldt (d : BitVec 7) (a : BitVec 7) (m : BitVec 2) (o : BitVec 5) (l : BitVec 4)
  /-- LDU (R245): One global load for the PC group into group registers. -/
  | ldu (d : BitVec 7) (a : BitVec 7) (m : BitVec 2) (o : BitVec 5) (l : BitVec 4)
  /-- STU (R245): One global store for the PC group from group registers. -/
  | stu (d : BitVec 7) (a : BitVec 7) (m : BitVec 2) (o : BitVec 5)
  /-- LDSU (R245): One scratch load for the PC group. -/
  | ldsu (d : BitVec 7) (a : BitVec 7) (m : BitVec 2) (o : BitVec 5) (l : BitVec 4)
  /-- STSU (R245): One scratch store for the PC group. -/
  | stsu (d : BitVec 7) (a : BitVec 7) (m : BitVec 2) (o : BitVec 5)
  /-- QMM (R272): Dense quarter matrix multiply-accumulate into an accumulator tile. -/
  | qmm (d : BitVec 3) (a : BitVec 7) (b : BitVec 7) (l : BitVec 4)
  /-- QMMS (R273): 2:4 sparse quarter matrix multiply-accumulate. -/
  | qmms (d : BitVec 3) (a : BitVec 7) (b : BitVec 7) (l : BitVec 4)
  /-- MVT (R276): Per-thread matrix-vector product with weights from the B-store. -/
  | mvt (d : BitVec 7) (a : BitVec 7) (b : BitVec 7) (l : BitVec 4)
  /-- NMCALL (R283): Calls a near-profile routine once per active thread and parks the threads in POOL. -/
  | nmcall (d : BitVec 7) (a : BitVec 7) (b : BitVec 7)
  /-- MREAD (R275): Reads accumulator tile rows into lane registers. -/
  | mread (d : BitVec 7) (t : BitVec 3)
  /-- MWRITE (R275): Writes lane registers into accumulator tile rows. -/
  | mwrite (t : BitVec 3) (a : BitVec 7)
  /-- MZERO (R275): Zeroes accumulator tile rows. -/
  | mzero (t : BitVec 3)
  /-- BR (R200): Branches the threads whose mask bit is set. -/
  | br (m : BitVec 7) (j : BitVec 18)
  /-- BRN (R200): Branches the threads whose mask bit is clear. -/
  | brn (m : BitVec 7) (j : BitVec 18)
  /-- BRA (R200): Unconditional branch. -/
  | bra (j : BitVec 25)
  /-- CALL (R201): Writes the link into v127 and jumps. -/
  | call (j : BitVec 25)
  /-- JMPR (R202): Jumps to a per-lane register target within the 4 GiB region. -/
  | jmpr (a : BitVec 7)
  /-- EXIT (R23): Leaves every rejoin set and puts the threads in DONE. -/
  | exit
  /-- YIELD (R37): Moves on and makes the sheaf yield its slot. -/
  | yield
  /-- NOP (R203): Does nothing but advance the PC. -/
  | nop
  /-- BKPT (R205): Raises a breakpoint trap. -/
  | bkpt
  /-- PRED (R12): Sets the ON bits of the control set from a mask. -/
  | pred (m : BitVec 7)
  /-- UNPRED (R12): Sets the ON bits of the control set to 1. -/
  | unpred
  /-- SETJ (R21): Arms a rejoin register with the control set, or traps on overflow. -/
  | setj (k : BitVec 4)
  /-- JOIN (R22): Parks expected threads on a rejoin register. -/
  | join (k : BitVec 4)
  /-- JLEAVE (R23): Removes the control set from a rejoin register's expected set. -/
  | jleave (k : BitVec 4)
  /-- REGION (R204): Records the region entry PC and counts a region. -/
  | region
  /-- TRAP (R205): Raises a TRAP-instruction trap carrying n. -/
  | trap (n : BitVec 7)
  /-- HRET (R346): Applies the trap record and leaves handler mode, kills, stops or delivers the next pending record. -/
  | hret
  /-- WBASE (R212): Sets the window base absolutely. -/
  | wbase (n : BitVec 5)
  /-- WBASE_REL (R212): Moves the window base by a signed multiple of 16. -/
  | wbaseRel (r : BitVec 6)
  /-- SRD (R213): Reads a special register; an RC read clears at the gate. -/
  | srd (sc : Scope) (d : BitVec 7) (x : BitVec 10)
  /-- SWR (R213): Writes the RW fields of a special register at the commit gate. -/
  | swr (sc : Scope) (a : BitVec 7) (x : BitVec 10)
  /-- EXT (R176): Prefix that widens the immediate or offset of the following extensible word. -/
  | ext (sc : Scope) (i : BitVec 25) (next : BitVec 32)
  /-- COPY (R261): Starts a copy-engine transfer of a tensor window into a tile, the B-store or a buffer. -/
  | copy (d : BitVec 7) (a : BitVec 7) (b : BitVec 7) (l : BitVec 4)
  /-- COPYOUT (R261): Starts a transfer of a READY tile out to a tensor window. -/
  | copyout (a : BitVec 7) (b : BitVec 7)
  /-- TMM (R277): Starts a sequencer matrix multiply over scratch tiles. -/
  | tmm (d : BitVec 7) (a : BitVec 7) (b : BitVec 7) (l : BitVec 4)
  /-- NMSEARCH (R284): Sends a search card and barrier to the search controller. -/
  | nmsearch (a : BitVec 7) (b : BitVec 7)
  /-- NMCOMMIT (R285): Releases at system scope and asks to commit the next index version. -/
  | nmcommit (d : BitVec 7) (a : BitVec 7) (b : BitVec 7) (l : BitVec 4)
  /-- COLLFIRE (R286): Releases and fires one chunk of a collective binding. -/
  | collfire (a : BitVec 7) (b : BitVec 7)
  /-- BINIT (R253): Initialises a barrier object unless it is busy. -/
  | binit (d : BitVec 7) (a : BitVec 7) (b : BitVec 7)
  /-- BARRIVE (R254): Releases and arrives once on a barrier. -/
  | barrive (d : BitVec 7) (a : BitVec 7) (b : BitVec 7)
  /-- BARRIVEN (R254): Releases and arrives n times on a barrier. -/
  | barriven (d : BitVec 7) (a : BitVec 7) (b : BitVec 7)
  /-- BTEST (R257): Reads a barrier's generation or its counts and status. -/
  | btest (d : BitVec 7) (a : BitVec 7) (e : BitVec 1)
  /-- WAITB (R256): Registers and parks until the barrier's generation moves on. -/
  | waitb (d : BitVec 7) (a : BitVec 7) (b : BitVec 7)
  /-- TSTATE (R259): Reads a tile's state and poison bit. -/
  | tstate (d : BitVec 7) (a : BitVec 7)
  /-- TREL (R259): Moves a READY tile to EMPTY. -/
  | trel (a : BitVec 7)
  /-- TWAIT (R259): Parks until a tile is READY, then acquires at plot scope. -/
  | twait (a : BitVec 7)
  /-- TCLAIM (R93): Binds a tile handle to a scratch region. -/
  | tclaim (a : BitVec 7) (b : BitVec 7)
  /-- QINIT (R260): Checks and writes a queue control word with empty counts. -/
  | qinit (a : BitVec 7) (b : BitVec 7)
  /-- QPUSH (R101): Pushes one element onto a queue, or parks while it is full. -/
  | qpush (d : BitVec 7) (a : BitVec 7) (e : BitVec 1)
  /-- QPOP (R101): Pops one element from a queue, or parks while it is empty. -/
  | qpop (d : BitVec 7) (a : BitVec 7) (e : BitVec 1)
  /-- QCOUNT (R260): Reads the number of elements in a queue. -/
  | qcount (d : BitVec 7) (a : BitVec 7)
  /-- MTOK_TAKE (R29): Takes the matrix token or parks at the end of its list. -/
  | mtokTake
  /-- MTOK_PASS (R29): Hands the matrix token to the first waiter or frees it. -/
  | mtokPass
  /-- MTOK_TEST (R280): Reads the token state and waiting count. -/
  | mtokTest (d : BitVec 7)
  /-- MDRAIN (R282): Stores the frozen accumulator block and sequencer state. -/
  | mdrain (a : BitVec 7)
  /-- MFILL (R282): Loads the accumulator block and sequencer state, installing a stopped TMM. -/
  | mfill (a : BitVec 7)
  /-- TNEXT (R32): Takes the next grain of the range task, or asks for a split. -/
  | tnext (d : BitVec 7)
  /-- TDONE (R34): Empties the bed's task interval. -/
  | tdone
  /-- TGRAIN (R215): Reads the grain g. -/
  | tgrain (d : BitVec 7)
  /-- BEXIT (R40): Puts every thread of the bed in DONE. -/
  | bexit
  /-- JSPILL (R209): Stores a live rejoin register to memory, clears it and counts the spill. -/
  | jspill (k : BitVec 4) (a : BitVec 7)
  /-- JFILL (R210): Reloads a spilled rejoin level and applies the release test. -/
  | jfill (k : BitVec 4) (a : BitVec 7)
  /-- YIELD_G (R216): Group-class yield that issues alone. -/
  | yieldG
  /-- BANKCFG (R217): Switches a cluster bank to a mode and returns OK or BUSY. -/
  | bankcfg (d : BitVec 7) (a : BitVec 7) (b : BitVec 7)
  /-- LDB (R288): Near-profile load of 8 or 64 bytes from device memory or the bank-local grant. -/
  | ldb (d : BitVec 7) (a : BitVec 7) (m : BitVec 2) (o : BitVec 5)
  /-- STB (R288): Near-profile store held until the batch commits. -/
  | stb (d : BitVec 7) (a : BitVec 7) (m : BitVec 2) (o : BitVec 5)
  /-- DIST (R289): Computes one distance between the query and a stored vector. -/
  | dist (d : BitVec 7) (a : BitVec 7) (b : BitVec 7) (c : BitVec 4)
  /-- HPUSH (R290): Pushes a key and identifier into a heap chain. -/
  | hpush (h : BitVec 7) (k : BitVec 7) (i : BitVec 7)
  /-- HPOP (R290): Pops the best unexpanded heap entry. -/
  | hpop (d : BitVec 7) (h : BitVec 7)
  /-- HTOP (R290): Reads the heap entry of a given rank. -/
  | htop (d : BitVec 7) (h : BitVec 7) (r : BitVec 7)
  /-- HCHAIN (R290): Chains free heaps into a handle, or frees a chain. -/
  | hchain (d : BitVec 7) (n : BitVec 7)
  /-- MSG_SEND (R291): Sends an 80-byte engine message. -/
  | msgSend (h : BitVec 7) (a : BitVec 7)
  /-- MSG_RECV (R291): Blocks until a message is routed to the context, then writes it. -/
  | msgRecv (h : BitVec 7) (a : BitVec 7)
  /-- WHOP (R292): Sends the walker record to another engine and ends the context. -/
  | whop (a : BitVec 7) (e : BitVec 7)
  /-- WSPAWN (R292): Sends a SPAWN message and continues. -/
  | wspawn (a : BitVec 7) (e : BitVec 7)
  /-- WEND (R292): Ends the context; in an NMCALL context it ends the batch. -/
  | wend
  /-- NMRET (R293): Replies to one call of the batch, held until commit. -/
  | nmret (a : BitVec 7) (t : BitVec 7)
  /-- NEAR_QPUSH (R294): Pushes onto the pair's forward or return queue, blocking while full. -/
  | nearQpush (d : BitVec 7) (q : BitVec 1) (e : BitVec 1)
  /-- NEAR_QPOP (R294): Pops from the pair's forward or return queue, blocking while empty. -/
  | nearQpop (d : BitVec 7) (q : BitVec 1) (e : BitVec 1)
  /-- INSTRUCTION_COMPLETION (R307): A long-latency instruction forms and writes its results, testing non-finite conditions and raising late traps. -/
  | instructionCompletion (bed : Nat) (sheaf : Nat) (op : Nat)
  /-- ATTEMPT_REPLAY (R370): A discarded attempt runs again four cycles later from its held sources. -/
  | attemptReplay (core : Nat) (slot : Nat)
  /-- LATE_TRANSITION (R370): A shadow-latch check finds a late transition and discards the attempt. -/
  | lateTransition (core : Nat) (slot : Nat) (path : BitVec 3)
  /-- COMMIT_GATE_PASS (R376): A gated operation's side effect leaves the core after its last check passes. -/
  | commitGatePass (core : Nat)
  /-- TAKE_TRAP (R341): The sheaf stops, drains issued instructions, freezes matrix units, writes the record and enters the handler. -/
  | takeTrap (bed : Nat) (sheaf : Nat) (cause : BitVec 5) (pc : BitVec 64) (tmask : BitVec 32) (detail : BitVec 32)
  /-- WATCHDOG_TRAP (R38): The sheaf's starvation counter reaches 2^WDEXP and a watchdog trap is raised at its next issue. -/
  | watchdogTrap (bed : Nat) (sheaf : Nat)
  /-- NMCALL_REPLY (R25): A committed reply writes a thread's registers and returns it to RUN. -/
  | nmcallReply (batch : Nat) (call : Nat)
  /-- BARRIER_WAKE (R256): Waiters of an ended phase wake, acquire at the object's scope and write status. -/
  | barrierWake (bed : Nat) (sheaf : Nat)
  /-- TILE_WAKE (R95): Threads waiting on a tile wake in the cycle after it enters READY. -/
  | tileWake (bed : Nat) (sheaf : Nat)
  /-- QUEUE_WAKE (R101): A parked QPUSH or QPOP waiter wakes for a freed or filled element. -/
  | queueWake (plot : Nat) (addr : BitVec 32)
  /-- SPLIT_GRANT (R33): A split takes half of a victim's remaining grains for the requesting bed and completes its TNEXT. -/
  | splitGrant (bed : Nat)
  /-- PAGE_FAULT (R351): A faulting access enters the operand log and posts a fault-queue entry. -/
  | pageFault (bed : Nat) (sheaf : Nat) (entry : Nat)
  /-- FETCH_PAGE_FAULT (R351): An instruction fetch meets an invalid page; the PC group waits and a fetch entry is posted. -/
  | fetchPageFault (bed : Nat) (sheaf : Nat) (va : BitVec 64)
  /-- PROTECTION_VIOLATION (R240): Translation finds a protection violation and the access raises an access-violation trap. -/
  | protectionViolation (bed : Nat) (sheaf : Nat) (entry : Nat)
  /-- RESUME_RETRY (R354): The RESUME register with code 0 retranslates the logged lanes. -/
  | resumeRetry (fn : Nat) (token : BitVec 32)
  /-- RESUME_FAIL (R354): The RESUME register with code 1 makes the logged instruction trap. -/
  | resumeFail (fn : Nat) (token : BitVec 32)
  /-- SNAPSHOT_COPY (R359): The first write to a SNAP page copies it to the snapshot pool before the write. -/
  | snapshotCopy (asid : BitVec 16) (va : BitVec 64)
  /-- REGISTER_LINE_FILL (R51): A register-cache line is filled from the bed image. -/
  | registerLineFill (bed : Nat) (sheaf : Nat) (reg : Nat)
  /-- LINE_DROWSY (R50): The idle policy lowers a line's retention voltage. -/
  | lineDrowsy (bed : Nat) (sheaf : Nat) (reg : Nat)
  /-- LINE_WAKE (R50): A drowsy line wakes on access and becomes present. -/
  | lineWake (bed : Nat) (sheaf : Nat) (reg : Nat)
  /-- COPY_COMPLETION (R263): A COPY or COPYOUT ends: bytes written, locks released, tile state changed, arrival and status. -/
  | copyCompletion (copy : Nat)
  /-- COPY_TRANSFER_FAILURE (R264): A protection violation or host error ends a transfer with FAILED and poison marks. -/
  | copyTransferFailure (copy : Nat) (hostError : Bool)
  /-- COPY_PAGE_FAULT (R264): A transfer suspends at a faulting element until RESUME. -/
  | copyPageFault (copy : Nat)
  /-- TMM_K_STEP (R278): One K step of a running TMM accumulates into m7, with non-finite tests and stops. -/
  | tmmKStep (core : Nat)
  /-- TMM_COMPLETION (R278): A TMM releases its locks, arrives and writes its status. -/
  | tmmCompletion (core : Nat)
  /-- BANK_SWITCH_COMPLETION (R86): A bank mode switch ends after write-back and BANKCFG's status is written. -/
  | bankSwitchCompletion (bed : Nat) (sheaf : Nat) (op : Nat) (bank : BitVec 9) (mode : BitVec 2)
  /-- BARRIER_ARRIVAL (R254): An arrival is applied at the barrier object, ending the phase when LEFT is reached. -/
  | barrierArrival (asid : BitVec 16) (plot : Nat) (ref : BitVec 64) (count : BitVec 16) (status : BitVec 8)
  /-- BED_EXIT (R39): After outstanding work completes, the bed releases, fires chunks, frees resources and counts down. -/
  | bedExit (bed : Nat)
  /-- WAVE_START (R36): A later wave of a bed's sheaves starts when earlier sheaves end. -/
  | waveStart (bed : Nat)
  /-- PREEMPTION (R349): A bed is moved into its image and its resources are released. -/
  | preemption (bed : Nat)
  /-- BED_RESUME (R349): A pre-empted bed is placed again and issues from its image. -/
  | bedResume (bed : Nat)
  /-- LAUNCH_KILL (R360): A launch is stopped, its engine work ended, beds removed and regions restored. -/
  | launchKill (launch : Nat) (cause : BitVec 5)
  /-- LAUNCH_REPLAY (R362): A killed launch is replayed from its queue entry. -/
  | launchReplay (launch : Nat)
  /-- DOORBELL (R408): A write of a new tail makes queue entries visible or is discarded. -/
  | doorbell (fn : Nat) (q : BitVec 16) (tail : BitVec 64)
  /-- QCMD_ENABLE (R407): Reads a queue descriptor and enables the queue. -/
  | qcmdEnable (fn : Nat) (q : BitVec 16)
  /-- QCMD_DISABLE (R408): Stops picks from a queue. -/
  | qcmdDisable (fn : Nat) (q : BitVec 16)
  /-- ARBITER_PICK (R331): The arbiter picks a queue head, assigns an identifier and reads and checks the launch record. -/
  | arbiterPick
  /-- DEPENDENCE_SATISFIED (R330): All dependences hold; semaphore takes are made and the launch leaves the pool. -/
  | dependenceSatisfied (launch : Nat)
  /-- BED_PLACEMENT (R334): The dispatcher places a bed or group on a core and starts it. -/
  | bedPlacement (launch : Nat)
  /-- LAUNCH_COMPLETION (R338): Frees the launch's resources, writes the completion word, arrives on CBAR and notifies the host. -/
  | launchCompletion (launch : Nat)
  /-- INVAL (R357): Drops TLB entries and writes back and invalidates cached lines for an ASID range. -/
  | inval (asid : BitVec 16) (va : BitVec 64) (pages : BitVec 32)
  /-- BAR4_ACCESS (R135): A host access through BAR4 is performed at the home cache. -/
  | bar4Access (fn : Nat) (off : BitVec 64) (size : Nat) (wdata : Option (List (BitVec 8)))
  /-- REGISTER_WRITE (R404): A write to a register that has no row of its own updates its writable fields. -/
  | registerWrite (fn : Nat) (off : BitVec 16) (value : BitVec 64)
  /-- ARBPOL_WRITE (R333): Sets the pre-emption threshold and starvation guard, ignoring out-of-range fields. -/
  | arbpolWrite (value : BitVec 32)
  /-- DEBUG_FLUSH (R366): A debugger read request makes the core flush a register line to the image. -/
  | debugFlush (bed : Nat) (sheaf : Nat) (reg : Nat)
  /-- DEBUGGER_RELEASE (R364): The debugger releases a stopped sheaf or bed. -/
  | debuggerRelease (bed : Nat) (sheaf : Option Nat)
  /-- WINDOW_BOUNDARY (R368): A margin window ends; counters reset and the step may lower by one. -/
  | windowBoundary (core : Nat)
  /-- AUTOMATIC_RAISE (R372): Replays reach RTHR in a window and the margin rises one step or the core is quarantined. -/
  | automaticRaise (core : Nat)
  /-- QUARANTINE (R373): A core is marked unavailable, its beds pre-empted and its step set to 0. -/
  | quarantine (core : Nat) (why : BitVec 2)
  /-- QUARANTINE_COMMAND (R373): The management processor commands quarantine of a core. -/
  | quarantineCommand (core : Nat)
  /-- RELEASE (R415): Self-tests a quarantined core and returns it to service or refuses. -/
  | release (core : Nat)
  /-- MARGIN_PROFILE (R414): Selects a core's margin profile through the mailbox. -/
  | marginProfile (core : Nat) (code : BitVec 8)
  /-- POWER_BUDGET (R416): Divides the plane power budgets, refused whole if out of limits. -/
  | powerBudget (matrix : Nat) (near : Nat) (links : Nat)
  /-- LREMAP_WRITE (R418): Writes a slot's lane-remap register while the core is quarantined. -/
  | lremapWrite (core : Nat) (slot : Nat) (value : BitVec 32)
  /-- PDTEST_WRITE (R397): Arms a test eviction of a side block at a die port processor. -/
  | pdtestWrite (port : Nat) (value : BitVec 64)
  /-- IMAGE_LOAD (R411): Checks a Salnor image, measures it and activates it or rejects it. -/
  | imageLoad (image : List (BitVec 8))
  /-- SVN_MINIMUM_RAISE (R411): Raises a KIND's fused SVN minimum to the active SVN. -/
  | svnMinimumRaise (kind : BitVec 8)
  /-- ATTESTATION (R413): Returns measurements, SVN minima and serial signed by the identity key. -/
  | attestation (nonce : BitVec 512)
  /-- AMSAN_KEY_INSTALL (R399): Installs a new key for one direction of an Amsan port. -/
  | amsanKeyInstall (port : Nat) (out : Bool) (key : BitVec 256) (salt : BitVec 32)
  /-- AMSAN_FRAME (R399): A received frame is authenticated and decrypted, or dropped and logged. -/
  | amsanFrame (port : Nat) (frame : List (BitVec 8))
  /-- PEER_GROUP_REGISTRATION (R398): The driver registers a peer group with the port firmware. -/
  | peerGroupRegistration (handle : BitVec 16) (ranks : List (BitVec 8)) (ports : BitVec 8) (mcast : BitVec 32) (inSwitch : Bool) (endToEnd : Bool)
  /-- INDEX_REGISTRATION (R150): The driver registers an index descriptor and receives a handle. -/
  | indexRegistration (asid : BitVec 16) (va : BitVec 64)
  /-- SEARCH_REGISTRATION (R154): The descriptor stack's controller checks the card and registers the snapshot. -/
  | searchRegistration (qid : Nat)
  /-- SEARCH_SETUP (R159): The home controller places a heap chain, clears the bitmap, loads the query and starts the setup routine. -/
  | searchSetup (qid : Nat)
  /-- SPAWN (R161): A SPAWN message starts a walker context at the walker routine's entries. -/
  | spawn (engine : Nat)
  /-- WALKER (R160): A WALKER message restarts the walker at its hop entry on the new engine. -/
  | walker (engine : Nat)
  /-- CANDS (R163): The heap unit filters candidates through the visited bitmap and pushes them. -/
  | cands (engine : Nat)
  /-- POPREQ (R164): The heap unit hands out a node, stops the walker or holds the request. -/
  | popreq (engine : Nat)
  /-- POPREP (R291): A pop reply is routed to the waiting walker context. -/
  | poprep (engine : Nat)
  /-- DREQ (R163): A context serves distance requests and answers HOME with CANDS. -/
  | dreq (engine : Nat)
  /-- ENDW (R164): The home controller records a walker's end and its outstanding DREQ count. -/
  | endw (engine : Nat)
  /-- VERSION_COMMIT (R153): The descriptor stack's controller increments COMMITTED if it matches. -/
  | versionCommit (bed : Nat) (sheaf : Nat) (op : Nat) (handle : BitVec 32) (expected : BitVec 32)
  /-- QUEUE_DEADLOCK_FAULT (R139): Both threads of a pair block for 4,096 cycles and the context faults. -/
  | queueDeadlockFault (engine : Nat) (ctx : Nat)
  /-- ENGINE_FAULT (R169): A faulted context is ended; the controller logs it and sends its owed messages or fails the batch. -/
  | engineFault (engine : Nat) (ctx : Nat) (code : BitVec 8)
  /-- COLLECTIVE_FIRE (R387): A chunk fire reaches the fire record and is marked or discarded. -/
  | collectiveFire (launch : Nat) (binding : Nat) (index : BitVec 32) (bed : Nat) (sheaf : Option Nat)
  /-- STEP_START (R388): A collective step starts when its fires are present and side blocks are pinned. -/
  | stepStart (coll : Nat)
  /-- PACKET_FORMING (R393): The coding switch groups a step's blocks into DATA and CODED packets. -/
  | packetForming (coll : Nat)
  /-- DATA (R388): A receiver writes a block and returns an ACK. -/
  | data (pkt : Nat)
  /-- CODED (R396): A receiver decodes its block from a CODED packet, or records a miss and NACKs. -/
  | coded (pkt : Nat) (port : Nat)
  /-- ACK (R388): A sender records a block as acknowledged; the step ends when all are. -/
  | ack (pkt : Nat)
  /-- NACK (R396): The source resends the named block as DATA. -/
  | nack (pkt : Nat)
  /-- STEP_TIMEOUT (R388): A step's timeout expires; unacknowledged blocks resend or the collective fails. -/
  | stepTimeout (coll : Nat)
  /-- DIE_RESET (R85): A die resets banks to CACHE, counters to zero and event numbering. -/
  | dieReset (die : Nat)
  /-- PACKAGE_RESET (R425): The package resets and the launch identifier counter returns to 0. -/
  | packageReset
  /-- POWER_ON (R412): Measurement registers clear and the boot ROM measures and boots images. -/
  | powerOn (rom : BitVec 512)
  /-- NMCALL_BATCH (R166): The calls of one NMCALL that reach one bank engine arrive as a batch and a context starts at the routine's entries with g1 holding the call count. -/
  | nmcallBatch (batch : Nat)
  /-- REGULATOR_SETTLED (R368): The core's regulator finishes moving to a new step and RAMP returns to 0. -/
  | regulatorSettled (core : Nat)
  /-- MANAGEMENT_RESTART (R412): The management processor restarts, and a newly activated KIND 2 image takes effect. -/
  | managementRestart
  /-- POWER_OFF (R409): The package loses power, and no part of the device stays powered. -/
  | powerOff
  /-- DAMAGED_FLIT (R383): A flit damaged on a trellis hop is detected and resent by that hop's link layer. -/
  | damagedFlit (pkt : Nat)
  /-- PLANE_BUDGET_REACHED (R416): A plane's power reaches its budget and the plane is paced, or falls back below it and pacing stops. -/
  | planeBudgetReached (plane : Nat) (reached : Bool)
  /-- READ_AND_CLEAR (R374): The management processor reads a margin register with RC fields and clears what it read. -/
  | readAndClear (core : Nat) (index : BitVec 10)
  deriving DecidableEq, Repr

end Sys2Proof
end

