-- ==== Sys2Proof/WellFormed.lean ====
section
/-! DEFINITION. Which instructions are well formed: the field rules of an instruction word, for a core (R172, R173, R177
and the entry of each instruction in chapters 8 to 11) and for a bank engine (R140, R141, R287, R294).
A word whose fields break them is no instruction: on a core it raises an illegal-instruction trap, on an engine it is the
illegal-instruction fault (code 1).  Bits that an instruction does not use are no argument of it; the decoder requires
them to be zero. -/

namespace Sys2Proof


/-- The number names the even register of a pair (R43). -/
def isEvenReg (r : BitVec 7) : Bool := r.toNat % 2 == 0

/-- The number names the first of four registers (R242). -/
def isQuadReg (r : BitVec 7) : Bool := r.toNat % 4 == 0

/-- The number names the first of sixteen registers (R275). -/
def isHexReg (r : BitVec 7) : Bool := r.toNat % 16 == 0

/-- A format code of Table 3.1 that is not reserved: 14 and 15 are (R64). -/
def isFormatCode (t : BitVec 4) : Bool := t.toNat < 14

/-- An atomic kind that ATOM64 has (Table 10.3). -/
def isKind64 (k : BitVec 5) : Bool := k.toNat ≤ 9 || (12 ≤ k.toNat && k.toNat ≤ 14)

/-- The register of a load or store whose size is m: 0 one register, 1 a pair, 2 four registers, 3 reserved (R242, R245). -/
def fitsLoad (d : BitVec 7) (m : BitVec 2) : Bool :=
  match m.toNat with
  | 0 => true
  | 1 => isEvenReg d
  | 2 => isQuadReg d
  | _ => false

/-- A g register of a bank engine: g0 to g31 (R140). -/
def isNearG (r : BitVec 7) : Bool := r.toNat ≤ 31

/-- A v register of a bank engine: v0 to v15 (R140). -/
def isNearV (r : BitVec 7) : Bool := r.toNat ≤ 15

/-- A register of a bank engine in the file that the scope bit names (R140). -/
def isNearReg (r : BitVec 7) : Scope → Bool
  | .lane => isNearV r
  | .group => isNearG r

/-- The forms of LDB and STB that name a vector register: m 1 and 3 (Table 11.7). -/
def isVectorForm (m : BitVec 2) : Bool := m.toNat % 2 == 1

/-- The element register of a near-profile queue word: queue q, form e (Table 11.8). -/
def fitsNearQueue (d : BitVec 7) (q e : BitVec 1) : Bool :=
  match q.toNat, e.toNat with
  | 0, 0 => d.toNat == 0 || d.toNat == 8 || d.toNat == 16
  | 0, _ => isNearV d
  | _, 0 => isEvenReg d && d.toNat ≤ 28
  | _, _ => false

/-- The instruction keeps the field rules of a core's instruction word (R172, R177).  An event has no word (false), and the
words that only bank engines run are illegal on a core (R141). -/
def Instr.wf : Instr → Bool
  | .add _ _ _ _ => true
  | .sub _ _ _ _ => true
  | .mul _ _ _ _ => true
  | .mulh _ _ _ _ => true
  | .mulhu _ _ _ _ => true
  | .min _ _ _ _ => true
  | .max _ _ _ _ => true
  | .minu _ _ _ _ => true
  | .maxu _ _ _ _ => true
  | .and _ _ _ _ => true
  | .or _ _ _ _ => true
  | .xor _ _ _ _ => true
  | .andn _ _ _ _ => true
  | .shl _ _ _ _ => true
  | .shr _ _ _ _ => true
  | .sra _ _ _ _ => true
  | .rol _ _ _ _ => true
  | .ror _ _ _ _ => true
  | .clz _ _ _ => true
  | .popc _ _ _ => true
  | .brev _ _ _ => true
  | .abs _ _ _ => true
  | .neg _ _ _ => true
  | .madd _ _ _ _ => true
  | .msub _ _ _ _ => true
  | .lea1 _ _ _ _ => true
  | .lea2 _ _ _ _ => true
  | .lea3 _ _ _ _ => true
  | .addsat _ _ _ _ => true
  | .subsat _ _ _ _ => true
  | .addi _ _ _ _ => true
  | .muli _ _ _ _ => true
  | .andi _ _ _ _ => true
  | .ori _ _ _ _ => true
  | .xori _ _ _ _ => true
  | .shli _ _ _ _ => true
  | .shri _ _ _ _ => true
  | .srai _ _ _ _ => true
  | .roli _ _ _ _ => true
  | .li _ _ _ => true
  | .cmp _ _ _ _ c => c.toNat ≤ 11
  | .cmpi _ _ _ c _ => c.toNat ≤ 11
  | .mov _ _ _ => true
  | .movgv _ _ => true
  | .movvg _ _ => true
  | .laneid _ => true
  | .tag _ _ => true
  | .gen _ => true
  | .sel _ _ _ => true
  | .pack2 _ _ _ => true
  | .pack4 _ _ _ => true
  | .unpk _ _ _ => true
  | .movj _ _ _ => true
  | .mpop _ _ => true
  | .mffs _ _ => true
  | .mfls _ _ => true
  | .mnth _ _ _ => true
  | .fadd _ _ _ _ => true
  | .fsub _ _ _ _ => true
  | .fmul _ _ _ _ => true
  | .ffma _ _ _ _ => true
  | .ffms _ _ _ _ => true
  | .fmin _ _ _ _ => true
  | .fmax _ _ _ _ => true
  | .fabs _ _ _ => true
  | .fneg _ _ _ => true
  | .fcpys _ _ _ _ => true
  | .fclass _ _ _ => true
  | .fcmp _ _ _ _ c => c.toNat ≤ 11
  | .cvt _ d a t u _ _ => isFormatCode t && isFormatCode u && (t != 12#4 || isEvenReg d) && (u != 12#4 || isEvenReg a)
  | .hadd2 _ _ _ => true
  | .hsub2 _ _ _ => true
  | .hmul2 _ _ _ => true
  | .hfma2 _ _ _ => true
  | .hmin2 _ _ _ => true
  | .hmax2 _ _ _ => true
  | .badd2 _ _ _ => true
  | .bmul2 _ _ _ => true
  | .bfma2 _ _ _ => true
  | .dadd d a b => isEvenReg d && isEvenReg a && isEvenReg b
  | .dsub d a b => isEvenReg d && isEvenReg a && isEvenReg b
  | .dmul d a b => isEvenReg d && isEvenReg a && isEvenReg b
  | .dfma d a b => isEvenReg d && isEvenReg a && isEvenReg b
  | .dmin d a b => isEvenReg d && isEvenReg a && isEvenReg b
  | .dmax d a b => isEvenReg d && isEvenReg a && isEvenReg b
  | .ex2 _ _ => true
  | .lg2 _ _ => true
  | .rcp _ _ => true
  | .rsq _ _ => true
  | .sqrt _ _ => true
  | .sin _ _ => true
  | .cos _ _ => true
  | .tanh _ _ => true
  | .ex2h _ _ => true
  | .shfl _ _ _ => true
  | .shflx _ _ _ => true
  | .shflup _ _ _ => true
  | .shfldn _ _ _ => true
  | .bcast _ _ _ => true
  | .redadd _ _ => true
  | .redfadd _ _ => true
  | .redmin _ _ => true
  | .redmax _ _ => true
  | .redfmin _ _ => true
  | .redfmax _ _ => true
  | .redand _ _ => true
  | .redor _ _ => true
  | .scanadd _ _ => true
  | .scanfadd _ _ => true
  | .argmax _ _ => true
  | .argmin _ _ => true
  | .fargmax _ _ => true
  | .fargmin _ _ => true
  | .sort32 d a => isEvenReg d && isEvenReg a
  | .topk d a _ => isEvenReg d && isEvenReg a
  | .mergek d a b => isQuadReg d && isEvenReg a && isEvenReg b
  | .dp4a _ _ _ => true
  | .dp4au _ _ _ => true
  | .dp2h _ _ _ => true
  | .dp4q _ _ _ => true
  | .dp4qe _ _ _ => true
  | .div _ _ _ _ _ => true
  | .divu _ _ _ _ _ => true
  | .rem _ _ _ _ _ => true
  | .remu _ _ _ _ _ => true
  | .ld d a m _ _ => isEvenReg a && fitsLoad d m
  | .ldx _ a _ _ _ => isEvenReg a
  | .st d a m _ => isEvenReg a && (m != 3#2 || isEvenReg d)
  | .stq d a _ => isEvenReg a && isQuadReg d
  | .lds d _ m _ _ => (m != 3#2 || isEvenReg d)
  | .sts d _ m _ => (m != 3#2 || isEvenReg d)
  | .ldc d _ m _ _ => fitsLoad d m
  | .lda d a m c _ => isEvenReg a && m.toNat ≤ 1 && (m != 1#2 || isEvenReg d) && c.toNat ≤ 5
  | .stl d a m c => isEvenReg a && m.toNat ≤ 1 && (m != 1#2 || isEvenReg d) && c.toNat ≤ 5
  | .atom _ d a _ k _ => isEvenReg a && k.toNat ≤ 16 && (k != 9#5 || isEvenReg d)
  | .atom64 d a _ k _ => isEvenReg a && isKind64 k && isEvenReg d && (k != 9#5 || isQuadReg d)
  | .atoms d _ _ k _ => k.toNat ≤ 16 && (k != 9#5 || isEvenReg d)
  | .fence _ c _ => c.toNat ≤ 5
  | .ldt d a m _ _ => isEvenReg a && fitsLoad d m
  | .ldu d a m _ _ => isEvenReg a && fitsLoad d m
  | .stu d a m _ => isEvenReg a && fitsLoad d m
  | .ldsu d _ m _ _ => fitsLoad d m
  | .stsu d _ m _ => fitsLoad d m
  | .qmm _ a b _ => isQuadReg a && isEvenReg b
  | .qmms _ a b _ => isQuadReg a && isEvenReg b
  | .mvt _ _ _ _ => true
  | .nmcall _ a _ => isEvenReg a
  | .mread d _ => isHexReg d
  | .mwrite _ a => isHexReg a
  | .mzero _ => true
  | .br _ _ => true
  | .brn _ _ => true
  | .bra _ => true
  | .call _ => true
  | .jmpr _ => true
  | .exit => true
  | .yield => true
  | .nop => true
  | .bkpt => true
  | .pred _ => true
  | .unpred => true
  | .setj _ => true
  | .join _ => true
  | .jleave _ => true
  | .region => true
  | .trap _ => true
  | .hret => true
  | .wbase n => n.toNat ≤ 24
  | .wbaseRel _ => true
  | .srd _ _ _ => true
  | .swr _ _ _ => true
  | .ext _ _ _ => true
  | .copy _ a b _ => a.toNat ≤ 104 && isQuadReg b
  | .copyout a b => a.toNat ≤ 104 && isQuadReg b
  | .tmm _ a b _ => a.toNat ≤ 125 && isEvenReg b
  | .nmsearch a b => isEvenReg a && isEvenReg b
  | .nmcommit _ _ _ _ => true
  | .collfire _ _ => true
  | .binit _ a _ => isEvenReg a
  | .barrive _ a _ => isEvenReg a
  | .barriven _ a _ => isEvenReg a
  | .btest _ a _ => isEvenReg a
  | .waitb _ a _ => isEvenReg a
  | .tstate _ _ => true
  | .trel _ => true
  | .twait _ => true
  | .tclaim _ b => isEvenReg b
  | .qinit _ _ => true
  | .qpush _ _ _ => true
  | .qpop _ _ _ => true
  | .qcount _ _ => true
  | .mtokTake => true
  | .mtokPass => true
  | .mtokTest _ => true
  | .mdrain a => isEvenReg a
  | .mfill a => isEvenReg a
  | .tnext d => isEvenReg d && d.toNat ≥ 2
  | .tdone => true
  | .tgrain _ => true
  | .bexit => true
  | .jspill _ a => isEvenReg a
  | .jfill _ a => isEvenReg a
  | .yieldG => true
  | .bankcfg _ _ _ => true
  | .ldb _ _ _ _ => false
  | .stb _ _ _ _ => false
  | .dist _ _ _ _ => false
  | .hpush _ _ _ => false
  | .hpop _ _ => false
  | .htop _ _ _ => false
  | .hchain _ _ => false
  | .msgSend _ _ => false
  | .msgRecv _ _ => false
  | .whop _ _ => false
  | .wspawn _ _ => false
  | .wend => false
  | .nmret _ _ => false
  | .nearQpush _ _ _ => false
  | .nearQpop _ _ _ => false
  | .instructionCompletion _ _ _ => false
  | .attemptReplay _ _ => false
  | .lateTransition _ _ _ => false
  | .commitGatePass _ => false
  | .takeTrap _ _ _ _ _ _ => false
  | .watchdogTrap _ _ => false
  | .nmcallReply _ _ => false
  | .barrierWake _ _ => false
  | .tileWake _ _ => false
  | .queueWake _ _ => false
  | .splitGrant _ => false
  | .pageFault _ _ _ => false
  | .fetchPageFault _ _ _ => false
  | .protectionViolation _ _ _ => false
  | .resumeRetry _ _ => false
  | .resumeFail _ _ => false
  | .snapshotCopy _ _ => false
  | .registerLineFill _ _ _ => false
  | .lineDrowsy _ _ _ => false
  | .lineWake _ _ _ => false
  | .copyCompletion _ => false
  | .copyTransferFailure _ _ => false
  | .copyPageFault _ => false
  | .tmmKStep _ => false
  | .tmmCompletion _ => false
  | .bankSwitchCompletion _ _ _ _ _ => false
  | .barrierArrival _ _ _ _ _ => false
  | .bedExit _ => false
  | .waveStart _ => false
  | .preemption _ => false
  | .bedResume _ => false
  | .launchKill _ _ => false
  | .launchReplay _ => false
  | .doorbell _ _ _ => false
  | .qcmdEnable _ _ => false
  | .qcmdDisable _ _ => false
  | .arbiterPick => false
  | .dependenceSatisfied _ => false
  | .bedPlacement _ => false
  | .launchCompletion _ => false
  | .inval _ _ _ => false
  | .bar4Access _ _ _ _ => false
  | .registerWrite _ _ _ => false
  | .arbpolWrite _ => false
  | .debugFlush _ _ _ => false
  | .debuggerRelease _ _ => false
  | .windowBoundary _ => false
  | .automaticRaise _ => false
  | .quarantine _ _ => false
  | .quarantineCommand _ => false
  | .release _ => false
  | .marginProfile _ _ => false
  | .powerBudget _ _ _ => false
  | .lremapWrite _ _ _ => false
  | .pdtestWrite _ _ => false
  | .imageLoad _ => false
  | .svnMinimumRaise _ => false
  | .attestation _ => false
  | .amsanKeyInstall _ _ _ _ => false
  | .amsanFrame _ _ => false
  | .peerGroupRegistration _ _ _ _ _ _ => false
  | .indexRegistration _ _ => false
  | .searchRegistration _ => false
  | .searchSetup _ => false
  | .spawn _ => false
  | .walker _ => false
  | .cands _ => false
  | .popreq _ => false
  | .poprep _ => false
  | .dreq _ => false
  | .endw _ => false
  | .versionCommit _ _ _ _ _ => false
  | .queueDeadlockFault _ _ => false
  | .engineFault _ _ _ => false
  | .collectiveFire _ _ _ _ _ => false
  | .stepStart _ => false
  | .packetForming _ => false
  | .data _ => false
  | .coded _ _ => false
  | .ack _ => false
  | .nack _ => false
  | .stepTimeout _ => false
  | .dieReset _ => false
  | .packageReset => false
  | .powerOn _ => false
  | .nmcallBatch _ => false
  | .regulatorSettled _ => false
  | .managementRestart => false
  | .powerOff => false
  | .damagedFlit _ => false
  | .planeBudgetReached _ _ => false
  | .readAndClear _ _ => false

/-- The instruction is one of the near profile (Table 6.1, Table 11.7) and keeps the field rules of a bank engine (R140). -/
def Instr.nearWf : Instr → Bool
  | .add sc d a b => isNearReg d sc && isNearReg a sc && isNearReg b sc
  | .sub sc d a b => isNearReg d sc && isNearReg a sc && isNearReg b sc
  | .mul sc d a b => isNearReg d sc && isNearReg a sc && isNearReg b sc
  | .mulh sc d a b => isNearReg d sc && isNearReg a sc && isNearReg b sc
  | .mulhu sc d a b => isNearReg d sc && isNearReg a sc && isNearReg b sc
  | .min sc d a b => isNearReg d sc && isNearReg a sc && isNearReg b sc
  | .max sc d a b => isNearReg d sc && isNearReg a sc && isNearReg b sc
  | .minu sc d a b => isNearReg d sc && isNearReg a sc && isNearReg b sc
  | .maxu sc d a b => isNearReg d sc && isNearReg a sc && isNearReg b sc
  | .and sc d a b => isNearReg d sc && isNearReg a sc && isNearReg b sc
  | .or sc d a b => isNearReg d sc && isNearReg a sc && isNearReg b sc
  | .xor sc d a b => isNearReg d sc && isNearReg a sc && isNearReg b sc
  | .andn sc d a b => isNearReg d sc && isNearReg a sc && isNearReg b sc
  | .shl sc d a b => isNearReg d sc && isNearReg a sc && isNearReg b sc
  | .shr sc d a b => isNearReg d sc && isNearReg a sc && isNearReg b sc
  | .sra sc d a b => isNearReg d sc && isNearReg a sc && isNearReg b sc
  | .rol sc d a b => isNearReg d sc && isNearReg a sc && isNearReg b sc
  | .ror sc d a b => isNearReg d sc && isNearReg a sc && isNearReg b sc
  | .clz sc d a => isNearReg d sc && isNearReg a sc
  | .popc sc d a => isNearReg d sc && isNearReg a sc
  | .brev sc d a => isNearReg d sc && isNearReg a sc
  | .abs sc d a => isNearReg d sc && isNearReg a sc
  | .neg sc d a => isNearReg d sc && isNearReg a sc
  | .madd sc d a b => isNearReg d sc && isNearReg a sc && isNearReg b sc
  | .msub sc d a b => isNearReg d sc && isNearReg a sc && isNearReg b sc
  | .lea1 sc d a b => isNearReg d sc && isNearReg a sc && isNearReg b sc
  | .lea2 sc d a b => isNearReg d sc && isNearReg a sc && isNearReg b sc
  | .lea3 sc d a b => isNearReg d sc && isNearReg a sc && isNearReg b sc
  | .addsat sc d a b => isNearReg d sc && isNearReg a sc && isNearReg b sc
  | .subsat sc d a b => isNearReg d sc && isNearReg a sc && isNearReg b sc
  | .addi sc d a _ => sc == .group && isNearG d && isNearG a
  | .muli sc d a _ => sc == .group && isNearG d && isNearG a
  | .andi sc d a _ => sc == .group && isNearG d && isNearG a
  | .ori sc d a _ => sc == .group && isNearG d && isNearG a
  | .xori sc d a _ => sc == .group && isNearG d && isNearG a
  | .shli sc d a _ => sc == .group && isNearG d && isNearG a
  | .shri sc d a _ => sc == .group && isNearG d && isNearG a
  | .srai sc d a _ => sc == .group && isNearG d && isNearG a
  | .roli sc d a _ => sc == .group && isNearG d && isNearG a
  | .li sc d _ => sc == .group && isNearG d
  | .cmp sc d a b c => sc == .group && isNearG d && isNearG a && isNearG b && c.toNat ≤ 11
  | .cmpi _ _ _ _ _ => false
  | .mov _ _ _ => false
  | .movgv _ _ => false
  | .movvg _ _ => false
  | .laneid _ => false
  | .tag _ _ => false
  | .gen _ => false
  | .sel _ _ _ => false
  | .pack2 _ _ _ => false
  | .pack4 _ _ _ => false
  | .unpk _ _ _ => false
  | .movj _ _ _ => false
  | .mpop _ _ => false
  | .mffs _ _ => false
  | .mfls _ _ => false
  | .mnth _ _ _ => false
  | .fadd sc d a b => sc == .lane && isNearV d && isNearV a && isNearV b
  | .fsub sc d a b => sc == .lane && isNearV d && isNearV a && isNearV b
  | .fmul sc d a b => sc == .lane && isNearV d && isNearV a && isNearV b
  | .ffma sc d a b => sc == .lane && isNearV d && isNearV a && isNearV b
  | .ffms sc d a b => sc == .lane && isNearV d && isNearV a && isNearV b
  | .fmin sc d a b => sc == .lane && isNearV d && isNearV a && isNearV b
  | .fmax sc d a b => sc == .lane && isNearV d && isNearV a && isNearV b
  | .fabs sc d a => sc == .lane && isNearV d && isNearV a
  | .fneg sc d a => sc == .lane && isNearV d && isNearV a
  | .fcpys sc d a b => sc == .lane && isNearV d && isNearV a && isNearV b
  | .fclass sc d a => sc == .lane && isNearV d && isNearV a
  | .fcmp _ _ _ _ _ => false
  | .cvt sc d a t u _ _ => sc == .lane && isNearV d && isNearV a && isFormatCode t && isFormatCode u && (t != 12#4 || isEvenReg d) && (u != 12#4 || isEvenReg a)
  | .hadd2 _ _ _ => false
  | .hsub2 _ _ _ => false
  | .hmul2 _ _ _ => false
  | .hfma2 _ _ _ => false
  | .hmin2 _ _ _ => false
  | .hmax2 _ _ _ => false
  | .badd2 _ _ _ => false
  | .bmul2 _ _ _ => false
  | .bfma2 _ _ _ => false
  | .dadd _ _ _ => false
  | .dsub _ _ _ => false
  | .dmul _ _ _ => false
  | .dfma _ _ _ => false
  | .dmin _ _ _ => false
  | .dmax _ _ _ => false
  | .ex2 _ _ => false
  | .lg2 _ _ => false
  | .rcp _ _ => false
  | .rsq _ _ => false
  | .sqrt _ _ => false
  | .sin _ _ => false
  | .cos _ _ => false
  | .tanh _ _ => false
  | .ex2h _ _ => false
  | .shfl _ _ _ => false
  | .shflx _ _ _ => false
  | .shflup _ _ _ => false
  | .shfldn _ _ _ => false
  | .bcast _ _ _ => false
  | .redadd _ _ => false
  | .redfadd _ _ => false
  | .redmin _ _ => false
  | .redmax _ _ => false
  | .redfmin _ _ => false
  | .redfmax _ _ => false
  | .redand _ _ => false
  | .redor _ _ => false
  | .scanadd _ _ => false
  | .scanfadd _ _ => false
  | .argmax _ _ => false
  | .argmin _ _ => false
  | .fargmax _ _ => false
  | .fargmin _ _ => false
  | .sort32 _ _ => false
  | .topk _ _ _ => false
  | .mergek _ _ _ => false
  | .dp4a _ _ _ => false
  | .dp4au _ _ _ => false
  | .dp2h _ _ _ => false
  | .dp4q _ _ _ => false
  | .dp4qe _ _ _ => false
  | .div sc d a b l => sc == .group && isNearG d && isNearG a && isNearG b && l == 0#4
  | .divu sc d a b l => sc == .group && isNearG d && isNearG a && isNearG b && l == 0#4
  | .rem sc d a b l => sc == .group && isNearG d && isNearG a && isNearG b && l == 0#4
  | .remu sc d a b l => sc == .group && isNearG d && isNearG a && isNearG b && l == 0#4
  | .ld _ _ _ _ _ => false
  | .ldx _ _ _ _ _ => false
  | .st _ _ _ _ => false
  | .stq _ _ _ => false
  | .lds _ _ _ _ _ => false
  | .sts _ _ _ _ => false
  | .ldc _ _ _ _ _ => false
  | .lda _ _ _ _ _ => false
  | .stl _ _ _ _ => false
  | .atom _ _ _ _ _ _ => false
  | .atom64 _ _ _ _ _ => false
  | .atoms _ _ _ _ _ => false
  | .fence _ _ _ => false
  | .ldt _ _ _ _ _ => false
  | .ldu _ _ _ _ _ => false
  | .stu _ _ _ _ => false
  | .ldsu _ _ _ _ _ => false
  | .stsu _ _ _ _ => false
  | .qmm _ _ _ _ => false
  | .qmms _ _ _ _ => false
  | .mvt _ _ _ _ => false
  | .nmcall _ _ _ => false
  | .mread _ _ => false
  | .mwrite _ _ => false
  | .mzero _ => false
  | .br m _ => isNearG m
  | .brn m _ => isNearG m
  | .bra _ => true
  | .call _ => true
  | .jmpr a => isNearG a
  | .exit => false
  | .yield => false
  | .nop => false
  | .bkpt => false
  | .pred _ => false
  | .unpred => false
  | .setj _ => false
  | .join _ => false
  | .jleave _ => false
  | .region => false
  | .trap _ => false
  | .hret => false
  | .wbase _ => false
  | .wbaseRel _ => false
  | .srd _ _ _ => false
  | .swr _ _ _ => false
  | .ext _ _ _ => false
  | .copy _ _ _ _ => false
  | .copyout _ _ => false
  | .tmm _ _ _ _ => false
  | .nmsearch _ _ => false
  | .nmcommit _ _ _ _ => false
  | .collfire _ _ => false
  | .binit _ _ _ => false
  | .barrive _ _ _ => false
  | .barriven _ _ _ => false
  | .btest _ _ _ => false
  | .waitb _ _ _ => false
  | .tstate _ _ => false
  | .trel _ => false
  | .twait _ => false
  | .tclaim _ _ => false
  | .qinit _ _ => false
  | .qpush _ _ _ => false
  | .qpop _ _ _ => false
  | .qcount _ _ => false
  | .mtokTake => false
  | .mtokPass => false
  | .mtokTest _ => false
  | .mdrain _ => false
  | .mfill _ => false
  | .tnext _ => false
  | .tdone => false
  | .tgrain _ => false
  | .bexit => false
  | .jspill _ _ => false
  | .jfill _ _ => false
  | .yieldG => false
  | .bankcfg _ _ _ => false
  | .ldb d a m _ => isNearG a && (if isVectorForm m then isNearV d else isNearG d)
  | .stb d a m _ => isNearG a && (if isVectorForm m then isNearV d else isNearG d)
  | .dist d a b c => isNearG d && isNearG a && isNearG b && c.toNat ≤ 4
  | .hpush h k i => isNearG h && isNearG k && isNearG i
  | .hpop d h => isNearG d && isEvenReg d && isNearG h
  | .htop d h r => isNearG d && isEvenReg d && isNearG h && isNearG r
  | .hchain d n => isNearG d && isNearG n
  | .msgSend h a => isNearG h && isEvenReg h && isNearV a
  | .msgRecv h a => isNearG h && isEvenReg h && isNearV a
  | .whop a e => isNearV a && isNearG e
  | .wspawn a e => isNearV a && isNearG e
  | .wend => true
  | .nmret a t => isNearV a && isNearG t
  | .nearQpush d q e => fitsNearQueue d q e
  | .nearQpop d q e => fitsNearQueue d q e
  | .instructionCompletion _ _ _ => false
  | .attemptReplay _ _ => false
  | .lateTransition _ _ _ => false
  | .commitGatePass _ => false
  | .takeTrap _ _ _ _ _ _ => false
  | .watchdogTrap _ _ => false
  | .nmcallReply _ _ => false
  | .barrierWake _ _ => false
  | .tileWake _ _ => false
  | .queueWake _ _ => false
  | .splitGrant _ => false
  | .pageFault _ _ _ => false
  | .fetchPageFault _ _ _ => false
  | .protectionViolation _ _ _ => false
  | .resumeRetry _ _ => false
  | .resumeFail _ _ => false
  | .snapshotCopy _ _ => false
  | .registerLineFill _ _ _ => false
  | .lineDrowsy _ _ _ => false
  | .lineWake _ _ _ => false
  | .copyCompletion _ => false
  | .copyTransferFailure _ _ => false
  | .copyPageFault _ => false
  | .tmmKStep _ => false
  | .tmmCompletion _ => false
  | .bankSwitchCompletion _ _ _ _ _ => false
  | .barrierArrival _ _ _ _ _ => false
  | .bedExit _ => false
  | .waveStart _ => false
  | .preemption _ => false
  | .bedResume _ => false
  | .launchKill _ _ => false
  | .launchReplay _ => false
  | .doorbell _ _ _ => false
  | .qcmdEnable _ _ => false
  | .qcmdDisable _ _ => false
  | .arbiterPick => false
  | .dependenceSatisfied _ => false
  | .bedPlacement _ => false
  | .launchCompletion _ => false
  | .inval _ _ _ => false
  | .bar4Access _ _ _ _ => false
  | .registerWrite _ _ _ => false
  | .arbpolWrite _ => false
  | .debugFlush _ _ _ => false
  | .debuggerRelease _ _ => false
  | .windowBoundary _ => false
  | .automaticRaise _ => false
  | .quarantine _ _ => false
  | .quarantineCommand _ => false
  | .release _ => false
  | .marginProfile _ _ => false
  | .powerBudget _ _ _ => false
  | .lremapWrite _ _ _ => false
  | .pdtestWrite _ _ => false
  | .imageLoad _ => false
  | .svnMinimumRaise _ => false
  | .attestation _ => false
  | .amsanKeyInstall _ _ _ _ => false
  | .amsanFrame _ _ => false
  | .peerGroupRegistration _ _ _ _ _ _ => false
  | .indexRegistration _ _ => false
  | .searchRegistration _ => false
  | .searchSetup _ => false
  | .spawn _ => false
  | .walker _ => false
  | .cands _ => false
  | .popreq _ => false
  | .poprep _ => false
  | .dreq _ => false
  | .endw _ => false
  | .versionCommit _ _ _ _ _ => false
  | .queueDeadlockFault _ _ => false
  | .engineFault _ _ _ => false
  | .collectiveFire _ _ _ _ _ => false
  | .stepStart _ => false
  | .packetForming _ => false
  | .data _ => false
  | .coded _ _ => false
  | .ack _ => false
  | .nack _ => false
  | .stepTimeout _ => false
  | .dieReset _ => false
  | .packageReset => false
  | .powerOn _ => false
  | .nmcallBatch _ => false
  | .regulatorSettled _ => false
  | .managementRestart => false
  | .powerOff => false
  | .damagedFlit _ => false
  | .planeBudgetReached _ _ => false
  | .readAndClear _ _ => false

end Sys2Proof
end

