-- ==== Sys2Proof/Decode.lean ====
section
/-! DEFINITION. The decoder and the encoder of the Z960's instruction words (chapter 7, Tables 7.1 to 7.3; Tables 6.1, 11.7
and 11.8 for the near profile).
Decoding reads the opcode fields and the argument fields of a word, then requires that every bit the instruction does not
use is zero (R172) and that its fields keep the rules of WellFormed.  A word that decodes to nothing is rejected by name. -/

namespace Sys2Proof

/-- Why a word is no instruction (R177, item 1). -/
inductive DecodeError where
  /-- The major is reserved at the word's scope. -/
  | reservedMajor
  /-- The function or kind code is reserved. -/
  | reservedFunction
  /-- A bit that the instruction does not use is set (R172). -/
  | mustBeZero
  /-- A field is outside the range its instruction allows (R172 and the instruction's entry). -/
  | badField
  /-- The word is one of the near profile only, on a core (R141). -/
  | nearOnly
  /-- The word is not one of the near profile, on a bank engine (R141). -/
  | notNear
  deriving DecidableEq, Repr

/-- k bits of a word from bit lo up. -/
def fld (k lo w : Nat) : BitVec k := BitVec.ofNat k (w / 2 ^ lo)

/-- The scope bit of a word (R171). -/
def scopeOf (w : Nat) : Scope := if w / 2 ^ 31 % 2 = 0 then .lane else .group

/-- The scope bit as bit 31 of a word (R171). -/
def Scope.bit : Scope → Nat
  | .lane => 0
  | .group => 0x80000000

/-- A field placed at bit lo of a word. -/
def put {k : Nat} (lo : Nat) (x : BitVec k) : Nat := x.toNat * 2 ^ lo

/-- The four bytes of a word, lowest address first (R170). -/
def wordBytes (w : Word) : List Byte :=
  [BitVec.ofNat 8 w.toNat, BitVec.ofNat 8 (w.toNat / 2 ^ 8), BitVec.ofNat 8 (w.toNat / 2 ^ 16), BitVec.ofNat 8 (w.toNat / 2 ^ 24)]

/-- The word at the front of a list of bytes, and the rest (R170). -/
def takeWord : List Byte → Option (Word × List Byte)
  | a :: b :: c :: d :: rest =>
    some (BitVec.ofNat 32 (a.toNat + b.toNat * 2 ^ 8 + c.toNat * 2 ^ 16 + d.toNat * 2 ^ 24), rest)
  | _ => none

/-- The major opcode of a word (R171). -/
def majorOf (w : Nat) : Nat := w / 2 ^ 25 % 64

/-- The majors of lane scope (Table 7.2); `next` is the word that follows, which an EXT takes (R176). -/
def parseLane (next : Word) (w : Nat) : Except DecodeError Instr :=
  match majorOf w with
  | 0x00 =>
    match w % 16 with
    | 0 => .ok (.add .lane (fld 7 18 w) (fld 7 11 w) (fld 7 4 w))
    | 1 => .ok (.sub .lane (fld 7 18 w) (fld 7 11 w) (fld 7 4 w))
    | 2 => .ok (.mul .lane (fld 7 18 w) (fld 7 11 w) (fld 7 4 w))
    | 3 => .ok (.mulh .lane (fld 7 18 w) (fld 7 11 w) (fld 7 4 w))
    | 4 => .ok (.mulhu .lane (fld 7 18 w) (fld 7 11 w) (fld 7 4 w))
    | 5 => .ok (.min .lane (fld 7 18 w) (fld 7 11 w) (fld 7 4 w))
    | 6 => .ok (.max .lane (fld 7 18 w) (fld 7 11 w) (fld 7 4 w))
    | 7 => .ok (.minu .lane (fld 7 18 w) (fld 7 11 w) (fld 7 4 w))
    | 8 => .ok (.maxu .lane (fld 7 18 w) (fld 7 11 w) (fld 7 4 w))
    | 9 => .ok (.and .lane (fld 7 18 w) (fld 7 11 w) (fld 7 4 w))
    | 10 => .ok (.or .lane (fld 7 18 w) (fld 7 11 w) (fld 7 4 w))
    | 11 => .ok (.xor .lane (fld 7 18 w) (fld 7 11 w) (fld 7 4 w))
    | 12 => .ok (.andn .lane (fld 7 18 w) (fld 7 11 w) (fld 7 4 w))
    | 13 => .ok (.shl .lane (fld 7 18 w) (fld 7 11 w) (fld 7 4 w))
    | 14 => .ok (.shr .lane (fld 7 18 w) (fld 7 11 w) (fld 7 4 w))
    | 15 => .ok (.sra .lane (fld 7 18 w) (fld 7 11 w) (fld 7 4 w))
    | _ => .error .reservedFunction
  | 0x01 =>
    match w % 16 with
    | 0 => .ok (.rol .lane (fld 7 18 w) (fld 7 11 w) (fld 7 4 w))
    | 1 => .ok (.ror .lane (fld 7 18 w) (fld 7 11 w) (fld 7 4 w))
    | 2 => .ok (.clz .lane (fld 7 18 w) (fld 7 11 w))
    | 3 => .ok (.popc .lane (fld 7 18 w) (fld 7 11 w))
    | 4 => .ok (.brev .lane (fld 7 18 w) (fld 7 11 w))
    | 5 => .ok (.abs .lane (fld 7 18 w) (fld 7 11 w))
    | 6 => .ok (.neg .lane (fld 7 18 w) (fld 7 11 w))
    | 7 => .ok (.madd .lane (fld 7 18 w) (fld 7 11 w) (fld 7 4 w))
    | 8 => .ok (.msub .lane (fld 7 18 w) (fld 7 11 w) (fld 7 4 w))
    | 9 => .ok (.lea1 .lane (fld 7 18 w) (fld 7 11 w) (fld 7 4 w))
    | 10 => .ok (.lea2 .lane (fld 7 18 w) (fld 7 11 w) (fld 7 4 w))
    | 11 => .ok (.lea3 .lane (fld 7 18 w) (fld 7 11 w) (fld 7 4 w))
    | 12 => .ok (.addsat .lane (fld 7 18 w) (fld 7 11 w) (fld 7 4 w))
    | 13 => .ok (.subsat .lane (fld 7 18 w) (fld 7 11 w) (fld 7 4 w))
    | _ => .error .reservedFunction
  | 0x02 => .ok (.addi .lane (fld 7 18 w) (fld 7 11 w) (fld 11 0 w))
  | 0x03 => .ok (.muli .lane (fld 7 18 w) (fld 7 11 w) (fld 11 0 w))
  | 0x04 => .ok (.andi .lane (fld 7 18 w) (fld 7 11 w) (fld 11 0 w))
  | 0x05 => .ok (.ori .lane (fld 7 18 w) (fld 7 11 w) (fld 11 0 w))
  | 0x06 => .ok (.xori .lane (fld 7 18 w) (fld 7 11 w) (fld 11 0 w))
  | 0x07 =>
    match w / 2 ^ 5 % 4 with
    | 0 => .ok (.shli .lane (fld 7 18 w) (fld 7 11 w) (fld 5 0 w))
    | 1 => .ok (.shri .lane (fld 7 18 w) (fld 7 11 w) (fld 5 0 w))
    | 2 => .ok (.srai .lane (fld 7 18 w) (fld 7 11 w) (fld 5 0 w))
    | 3 => .ok (.roli .lane (fld 7 18 w) (fld 7 11 w) (fld 5 0 w))
    | _ => .error .reservedFunction
  | 0x08 => .ok (.li .lane (fld 7 18 w) (fld 18 0 w))
  | 0x09 => .ok (.cmp .lane (fld 7 18 w) (fld 7 11 w) (fld 7 4 w) (fld 4 0 w))
  | 0x0A => .ok (.cmpi .lane (fld 7 18 w) (fld 7 11 w) (fld 4 7 w) (fld 7 0 w))
  | 0x0B =>
    match w % 16 with
    | 0 => .ok (.mov .lane (fld 7 18 w) (fld 7 11 w))
    | 1 => .ok (.movgv (fld 7 18 w) (fld 7 11 w))
    | 2 => .ok (.movvg (fld 7 18 w) (fld 7 11 w))
    | 3 => .ok (.laneid (fld 7 18 w))
    | 4 => .ok (.tag (fld 7 18 w) (fld 7 11 w))
    | 5 => .ok (.gen (fld 7 18 w))
    | 6 => .ok (.sel (fld 7 18 w) (fld 7 11 w) (fld 7 4 w))
    | 7 => .ok (.pack2 (fld 7 18 w) (fld 7 11 w) (fld 7 4 w))
    | 8 => .ok (.pack4 (fld 7 18 w) (fld 7 11 w) (fld 7 4 w))
    | 9 => .ok (.unpk (fld 7 18 w) (fld 7 11 w) (fld 7 4 w))
    | _ => .error .reservedFunction
  | 0x0C =>
    match w % 16 with
    | 0 => .ok (.fadd .lane (fld 7 18 w) (fld 7 11 w) (fld 7 4 w))
    | 1 => .ok (.fsub .lane (fld 7 18 w) (fld 7 11 w) (fld 7 4 w))
    | 2 => .ok (.fmul .lane (fld 7 18 w) (fld 7 11 w) (fld 7 4 w))
    | 3 => .ok (.ffma .lane (fld 7 18 w) (fld 7 11 w) (fld 7 4 w))
    | 4 => .ok (.ffms .lane (fld 7 18 w) (fld 7 11 w) (fld 7 4 w))
    | 5 => .ok (.fmin .lane (fld 7 18 w) (fld 7 11 w) (fld 7 4 w))
    | 6 => .ok (.fmax .lane (fld 7 18 w) (fld 7 11 w) (fld 7 4 w))
    | 7 => .ok (.fabs .lane (fld 7 18 w) (fld 7 11 w))
    | 8 => .ok (.fneg .lane (fld 7 18 w) (fld 7 11 w))
    | 9 => .ok (.fcpys .lane (fld 7 18 w) (fld 7 11 w) (fld 7 4 w))
    | 10 => .ok (.fclass .lane (fld 7 18 w) (fld 7 11 w))
    | _ => .error .reservedFunction
  | 0x0D => .ok (.fcmp .lane (fld 7 18 w) (fld 7 11 w) (fld 7 4 w) (fld 4 0 w))
  | 0x0E => .ok (.cvt .lane (fld 7 18 w) (fld 7 11 w) (fld 4 7 w) (fld 4 3 w) (fld 2 1 w) (fld 1 0 w))
  | 0x0F =>
    match w % 16 with
    | 0 => .ok (.hadd2 (fld 7 18 w) (fld 7 11 w) (fld 7 4 w))
    | 1 => .ok (.hsub2 (fld 7 18 w) (fld 7 11 w) (fld 7 4 w))
    | 2 => .ok (.hmul2 (fld 7 18 w) (fld 7 11 w) (fld 7 4 w))
    | 3 => .ok (.hfma2 (fld 7 18 w) (fld 7 11 w) (fld 7 4 w))
    | 4 => .ok (.hmin2 (fld 7 18 w) (fld 7 11 w) (fld 7 4 w))
    | 5 => .ok (.hmax2 (fld 7 18 w) (fld 7 11 w) (fld 7 4 w))
    | 6 => .ok (.badd2 (fld 7 18 w) (fld 7 11 w) (fld 7 4 w))
    | 7 => .ok (.bmul2 (fld 7 18 w) (fld 7 11 w) (fld 7 4 w))
    | 8 => .ok (.bfma2 (fld 7 18 w) (fld 7 11 w) (fld 7 4 w))
    | _ => .error .reservedFunction
  | 0x10 =>
    match w % 16 with
    | 0 => .ok (.dadd (fld 7 18 w) (fld 7 11 w) (fld 7 4 w))
    | 1 => .ok (.dsub (fld 7 18 w) (fld 7 11 w) (fld 7 4 w))
    | 2 => .ok (.dmul (fld 7 18 w) (fld 7 11 w) (fld 7 4 w))
    | 3 => .ok (.dfma (fld 7 18 w) (fld 7 11 w) (fld 7 4 w))
    | 4 => .ok (.dmin (fld 7 18 w) (fld 7 11 w) (fld 7 4 w))
    | 5 => .ok (.dmax (fld 7 18 w) (fld 7 11 w) (fld 7 4 w))
    | _ => .error .reservedFunction
  | 0x11 =>
    match w % 16 with
    | 0 => .ok (.ex2 (fld 7 18 w) (fld 7 11 w))
    | 1 => .ok (.lg2 (fld 7 18 w) (fld 7 11 w))
    | 2 => .ok (.rcp (fld 7 18 w) (fld 7 11 w))
    | 3 => .ok (.rsq (fld 7 18 w) (fld 7 11 w))
    | 4 => .ok (.sqrt (fld 7 18 w) (fld 7 11 w))
    | 5 => .ok (.sin (fld 7 18 w) (fld 7 11 w))
    | 6 => .ok (.cos (fld 7 18 w) (fld 7 11 w))
    | 7 => .ok (.tanh (fld 7 18 w) (fld 7 11 w))
    | 8 => .ok (.ex2h (fld 7 18 w) (fld 7 11 w))
    | _ => .error .reservedFunction
  | 0x12 =>
    match w % 16 with
    | 0 => .ok (.shfl (fld 7 18 w) (fld 7 11 w) (fld 7 4 w))
    | 1 => .ok (.shflx (fld 7 18 w) (fld 7 11 w) (fld 7 4 w))
    | 2 => .ok (.shflup (fld 7 18 w) (fld 7 11 w) (fld 7 4 w))
    | 3 => .ok (.shfldn (fld 7 18 w) (fld 7 11 w) (fld 7 4 w))
    | 4 => .ok (.bcast (fld 7 18 w) (fld 7 11 w) (fld 7 4 w))
    | _ => .error .reservedFunction
  | 0x13 =>
    match w % 16 with
    | 0 => .ok (.redadd (fld 7 18 w) (fld 7 11 w))
    | 1 => .ok (.redfadd (fld 7 18 w) (fld 7 11 w))
    | 2 => .ok (.redmin (fld 7 18 w) (fld 7 11 w))
    | 3 => .ok (.redmax (fld 7 18 w) (fld 7 11 w))
    | 4 => .ok (.redfmin (fld 7 18 w) (fld 7 11 w))
    | 5 => .ok (.redfmax (fld 7 18 w) (fld 7 11 w))
    | 6 => .ok (.redand (fld 7 18 w) (fld 7 11 w))
    | 7 => .ok (.redor (fld 7 18 w) (fld 7 11 w))
    | 8 => .ok (.scanadd (fld 7 18 w) (fld 7 11 w))
    | 9 => .ok (.scanfadd (fld 7 18 w) (fld 7 11 w))
    | _ => .error .reservedFunction
  | 0x14 =>
    match w % 16 with
    | 0 => .ok (.argmax (fld 7 18 w) (fld 7 11 w))
    | 1 => .ok (.argmin (fld 7 18 w) (fld 7 11 w))
    | 2 => .ok (.fargmax (fld 7 18 w) (fld 7 11 w))
    | 3 => .ok (.fargmin (fld 7 18 w) (fld 7 11 w))
    | 4 => .ok (.sort32 (fld 7 18 w) (fld 7 11 w))
    | 5 => .ok (.topk (fld 7 18 w) (fld 7 11 w) (fld 7 4 w))
    | 6 => .ok (.mergek (fld 7 18 w) (fld 7 11 w) (fld 7 4 w))
    | _ => .error .reservedFunction
  | 0x15 =>
    match w % 16 with
    | 0 => .ok (.dp4a (fld 7 18 w) (fld 7 11 w) (fld 7 4 w))
    | 1 => .ok (.dp4au (fld 7 18 w) (fld 7 11 w) (fld 7 4 w))
    | 2 => .ok (.dp2h (fld 7 18 w) (fld 7 11 w) (fld 7 4 w))
    | 3 => .ok (.dp4q (fld 7 18 w) (fld 7 11 w) (fld 7 4 w))
    | 4 => .ok (.dp4qe (fld 7 18 w) (fld 7 11 w) (fld 7 4 w))
    | _ => .error .reservedFunction
  | 0x16 => .ok (.div .lane (fld 7 18 w) (fld 7 11 w) (fld 7 4 w) (fld 4 0 w))
  | 0x17 => .ok (.divu .lane (fld 7 18 w) (fld 7 11 w) (fld 7 4 w) (fld 4 0 w))
  | 0x18 => .ok (.rem .lane (fld 7 18 w) (fld 7 11 w) (fld 7 4 w) (fld 4 0 w))
  | 0x19 => .ok (.remu .lane (fld 7 18 w) (fld 7 11 w) (fld 7 4 w) (fld 4 0 w))
  | 0x1A => .ok (.ld (fld 7 18 w) (fld 7 11 w) (fld 2 9 w) (fld 5 4 w) (fld 4 0 w))
  | 0x1B => .ok (.ldx (fld 7 18 w) (fld 7 11 w) (fld 2 9 w) (fld 5 4 w) (fld 4 0 w))
  | 0x1C => .ok (.st (fld 7 18 w) (fld 7 11 w) (fld 2 9 w) (fld 5 4 w))
  | 0x1D => .ok (.stq (fld 7 18 w) (fld 7 11 w) (fld 5 4 w))
  | 0x1E => .ok (.lds (fld 7 18 w) (fld 7 11 w) (fld 2 9 w) (fld 5 4 w) (fld 4 0 w))
  | 0x1F => .ok (.sts (fld 7 18 w) (fld 7 11 w) (fld 2 9 w) (fld 5 4 w))
  | 0x20 => .ok (.ldc (fld 7 18 w) (fld 7 11 w) (fld 2 9 w) (fld 5 4 w) (fld 4 0 w))
  | 0x21 => .ok (.lda (fld 7 18 w) (fld 7 11 w) (fld 2 9 w) (fld 3 4 w) (fld 4 0 w))
  | 0x22 => .ok (.stl (fld 7 18 w) (fld 7 11 w) (fld 2 9 w) (fld 3 4 w))
  | 0x23 => .ok (.atom .lane (fld 7 18 w) (fld 7 11 w) (fld 2 9 w) (fld 5 4 w) (fld 4 0 w))
  | 0x24 => .ok (.atom64 (fld 7 18 w) (fld 7 11 w) (fld 2 9 w) (fld 5 4 w) (fld 4 0 w))
  | 0x25 => .ok (.atoms (fld 7 18 w) (fld 7 11 w) (fld 2 9 w) (fld 5 4 w) (fld 4 0 w))
  | 0x26 => .ok (.fence .lane (fld 3 2 w) (fld 2 0 w))
  | 0x27 => .ok (.ldt (fld 7 18 w) (fld 7 11 w) (fld 2 9 w) (fld 5 4 w) (fld 4 0 w))
  | 0x28 => .ok (.qmm (fld 3 18 w) (fld 7 11 w) (fld 7 4 w) (fld 4 0 w))
  | 0x29 => .ok (.qmms (fld 3 18 w) (fld 7 11 w) (fld 7 4 w) (fld 4 0 w))
  | 0x2A => .ok (.mvt (fld 7 18 w) (fld 7 11 w) (fld 7 4 w) (fld 4 0 w))
  | 0x2B => .ok (.nmcall (fld 7 18 w) (fld 7 11 w) (fld 7 4 w))
  | 0x2C =>
    match w % 16 with
    | 0 => .ok (.mread (fld 7 18 w) (fld 3 11 w))
    | 1 => .ok (.mwrite (fld 3 18 w) (fld 7 11 w))
    | 2 => .ok (.mzero (fld 3 18 w))
    | _ => .error .reservedFunction
  | 0x30 => .ok (.br (fld 7 18 w) (fld 18 0 w))
  | 0x31 => .ok (.brn (fld 7 18 w) (fld 18 0 w))
  | 0x32 => .ok (.bra (fld 25 0 w))
  | 0x33 => .ok (.call (fld 25 0 w))
  | 0x34 =>
    match w % 16 with
    | 0 => .ok (.jmpr (fld 7 11 w))
    | _ => .error .reservedFunction
  | 0x35 =>
    match w % 16 with
    | 0 => .ok (.exit)
    | 1 => .ok (.yield)
    | 2 => .ok (.nop)
    | 3 => .ok (.bkpt)
    | 4 => .ok (.pred (fld 7 11 w))
    | 5 => .ok (.unpred)
    | 6 => .ok (.setj (fld 4 18 w))
    | 7 => .ok (.join (fld 4 18 w))
    | 8 => .ok (.jleave (fld 4 18 w))
    | 9 => .ok (.region)
    | 10 => .ok (.trap (fld 7 18 w))
    | 11 => .ok (.hret)
    | _ => .error .reservedFunction
  | 0x36 =>
    match w / 2 ^ 10 % 2 with
    | 0 => .ok (.wbase (fld 5 0 w))
    | 1 => .ok (.wbaseRel (fld 6 0 w))
    | _ => .error .reservedFunction
  | 0x37 =>
    match w / 2 ^ 10 % 2 with
    | 0 => .ok (.srd .lane (fld 7 18 w) (fld 10 0 w))
    | 1 => .ok (.swr .lane (fld 7 11 w) (fld 10 0 w))
    | _ => .error .reservedFunction
  | 0x38 => .ok (.ext .lane (fld 25 0 w) next)
  | 0x2D => .error .nearOnly
  | 0x2E => .error .nearOnly
  | 0x2F => .error .nearOnly
  | 0x39 => .error .nearOnly
  | 0x3A => .error .nearOnly
  | 0x3B => .error .nearOnly
  | 0x3C => .error .nearOnly
  | 0x3D => .error .nearOnly
  | 0x3E => .error .nearOnly
  | _ => .error .reservedMajor

/-- The majors of group scope (Table 7.3). -/
def parseGroup (next : Word) (w : Nat) : Except DecodeError Instr :=
  match majorOf w with
  | 0x00 =>
    match w % 16 with
    | 0 => .ok (.add .group (fld 7 18 w) (fld 7 11 w) (fld 7 4 w))
    | 1 => .ok (.sub .group (fld 7 18 w) (fld 7 11 w) (fld 7 4 w))
    | 2 => .ok (.mul .group (fld 7 18 w) (fld 7 11 w) (fld 7 4 w))
    | 3 => .ok (.mulh .group (fld 7 18 w) (fld 7 11 w) (fld 7 4 w))
    | 4 => .ok (.mulhu .group (fld 7 18 w) (fld 7 11 w) (fld 7 4 w))
    | 5 => .ok (.min .group (fld 7 18 w) (fld 7 11 w) (fld 7 4 w))
    | 6 => .ok (.max .group (fld 7 18 w) (fld 7 11 w) (fld 7 4 w))
    | 7 => .ok (.minu .group (fld 7 18 w) (fld 7 11 w) (fld 7 4 w))
    | 8 => .ok (.maxu .group (fld 7 18 w) (fld 7 11 w) (fld 7 4 w))
    | 9 => .ok (.and .group (fld 7 18 w) (fld 7 11 w) (fld 7 4 w))
    | 10 => .ok (.or .group (fld 7 18 w) (fld 7 11 w) (fld 7 4 w))
    | 11 => .ok (.xor .group (fld 7 18 w) (fld 7 11 w) (fld 7 4 w))
    | 12 => .ok (.andn .group (fld 7 18 w) (fld 7 11 w) (fld 7 4 w))
    | 13 => .ok (.shl .group (fld 7 18 w) (fld 7 11 w) (fld 7 4 w))
    | 14 => .ok (.shr .group (fld 7 18 w) (fld 7 11 w) (fld 7 4 w))
    | 15 => .ok (.sra .group (fld 7 18 w) (fld 7 11 w) (fld 7 4 w))
    | _ => .error .reservedFunction
  | 0x01 =>
    match w % 16 with
    | 0 => .ok (.rol .group (fld 7 18 w) (fld 7 11 w) (fld 7 4 w))
    | 1 => .ok (.ror .group (fld 7 18 w) (fld 7 11 w) (fld 7 4 w))
    | 2 => .ok (.clz .group (fld 7 18 w) (fld 7 11 w))
    | 3 => .ok (.popc .group (fld 7 18 w) (fld 7 11 w))
    | 4 => .ok (.brev .group (fld 7 18 w) (fld 7 11 w))
    | 5 => .ok (.abs .group (fld 7 18 w) (fld 7 11 w))
    | 6 => .ok (.neg .group (fld 7 18 w) (fld 7 11 w))
    | 7 => .ok (.madd .group (fld 7 18 w) (fld 7 11 w) (fld 7 4 w))
    | 8 => .ok (.msub .group (fld 7 18 w) (fld 7 11 w) (fld 7 4 w))
    | 9 => .ok (.lea1 .group (fld 7 18 w) (fld 7 11 w) (fld 7 4 w))
    | 10 => .ok (.lea2 .group (fld 7 18 w) (fld 7 11 w) (fld 7 4 w))
    | 11 => .ok (.lea3 .group (fld 7 18 w) (fld 7 11 w) (fld 7 4 w))
    | 12 => .ok (.addsat .group (fld 7 18 w) (fld 7 11 w) (fld 7 4 w))
    | 13 => .ok (.subsat .group (fld 7 18 w) (fld 7 11 w) (fld 7 4 w))
    | _ => .error .reservedFunction
  | 0x02 => .ok (.addi .group (fld 7 18 w) (fld 7 11 w) (fld 11 0 w))
  | 0x03 => .ok (.muli .group (fld 7 18 w) (fld 7 11 w) (fld 11 0 w))
  | 0x04 => .ok (.andi .group (fld 7 18 w) (fld 7 11 w) (fld 11 0 w))
  | 0x05 => .ok (.ori .group (fld 7 18 w) (fld 7 11 w) (fld 11 0 w))
  | 0x06 => .ok (.xori .group (fld 7 18 w) (fld 7 11 w) (fld 11 0 w))
  | 0x07 =>
    match w / 2 ^ 5 % 4 with
    | 0 => .ok (.shli .group (fld 7 18 w) (fld 7 11 w) (fld 5 0 w))
    | 1 => .ok (.shri .group (fld 7 18 w) (fld 7 11 w) (fld 5 0 w))
    | 2 => .ok (.srai .group (fld 7 18 w) (fld 7 11 w) (fld 5 0 w))
    | 3 => .ok (.roli .group (fld 7 18 w) (fld 7 11 w) (fld 5 0 w))
    | _ => .error .reservedFunction
  | 0x08 => .ok (.li .group (fld 7 18 w) (fld 18 0 w))
  | 0x09 => .ok (.cmp .group (fld 7 18 w) (fld 7 11 w) (fld 7 4 w) (fld 4 0 w))
  | 0x0A => .ok (.cmpi .group (fld 7 18 w) (fld 7 11 w) (fld 4 7 w) (fld 7 0 w))
  | 0x0B =>
    match w % 16 with
    | 0 => .ok (.mov .group (fld 7 18 w) (fld 7 11 w))
    | 1 => .ok (.movj (fld 7 18 w) (fld 4 11 w) (fld 1 4 w))
    | _ => .error .reservedFunction
  | 0x0C =>
    match w % 16 with
    | 0 => .ok (.fadd .group (fld 7 18 w) (fld 7 11 w) (fld 7 4 w))
    | 1 => .ok (.fsub .group (fld 7 18 w) (fld 7 11 w) (fld 7 4 w))
    | 2 => .ok (.fmul .group (fld 7 18 w) (fld 7 11 w) (fld 7 4 w))
    | 3 => .ok (.ffma .group (fld 7 18 w) (fld 7 11 w) (fld 7 4 w))
    | 4 => .ok (.ffms .group (fld 7 18 w) (fld 7 11 w) (fld 7 4 w))
    | 5 => .ok (.fmin .group (fld 7 18 w) (fld 7 11 w) (fld 7 4 w))
    | 6 => .ok (.fmax .group (fld 7 18 w) (fld 7 11 w) (fld 7 4 w))
    | 7 => .ok (.fabs .group (fld 7 18 w) (fld 7 11 w))
    | 8 => .ok (.fneg .group (fld 7 18 w) (fld 7 11 w))
    | 9 => .ok (.fcpys .group (fld 7 18 w) (fld 7 11 w) (fld 7 4 w))
    | 10 => .ok (.fclass .group (fld 7 18 w) (fld 7 11 w))
    | _ => .error .reservedFunction
  | 0x0D => .ok (.fcmp .group (fld 7 18 w) (fld 7 11 w) (fld 7 4 w) (fld 4 0 w))
  | 0x0E => .ok (.cvt .group (fld 7 18 w) (fld 7 11 w) (fld 4 7 w) (fld 4 3 w) (fld 2 1 w) (fld 1 0 w))
  | 0x0F =>
    match w % 16 with
    | 0 => .ok (.mpop (fld 7 18 w) (fld 7 11 w))
    | 1 => .ok (.mffs (fld 7 18 w) (fld 7 11 w))
    | 2 => .ok (.mfls (fld 7 18 w) (fld 7 11 w))
    | 3 => .ok (.mnth (fld 7 18 w) (fld 7 11 w) (fld 7 4 w))
    | _ => .error .reservedFunction
  | 0x16 => .ok (.div .group (fld 7 18 w) (fld 7 11 w) (fld 7 4 w) (fld 4 0 w))
  | 0x17 => .ok (.divu .group (fld 7 18 w) (fld 7 11 w) (fld 7 4 w) (fld 4 0 w))
  | 0x18 => .ok (.rem .group (fld 7 18 w) (fld 7 11 w) (fld 7 4 w) (fld 4 0 w))
  | 0x19 => .ok (.remu .group (fld 7 18 w) (fld 7 11 w) (fld 7 4 w) (fld 4 0 w))
  | 0x1A => .ok (.ldu (fld 7 18 w) (fld 7 11 w) (fld 2 9 w) (fld 5 4 w) (fld 4 0 w))
  | 0x1B => .ok (.stu (fld 7 18 w) (fld 7 11 w) (fld 2 9 w) (fld 5 4 w))
  | 0x1E => .ok (.ldsu (fld 7 18 w) (fld 7 11 w) (fld 2 9 w) (fld 5 4 w) (fld 4 0 w))
  | 0x1F => .ok (.stsu (fld 7 18 w) (fld 7 11 w) (fld 2 9 w) (fld 5 4 w))
  | 0x23 => .ok (.atom .group (fld 7 18 w) (fld 7 11 w) (fld 2 9 w) (fld 5 4 w) (fld 4 0 w))
  | 0x26 => .ok (.fence .group (fld 3 2 w) (fld 2 0 w))
  | 0x28 => .ok (.copy (fld 7 18 w) (fld 7 11 w) (fld 7 4 w) (fld 4 0 w))
  | 0x29 => .ok (.copyout (fld 7 11 w) (fld 7 4 w))
  | 0x2A => .ok (.tmm (fld 7 18 w) (fld 7 11 w) (fld 7 4 w) (fld 4 0 w))
  | 0x2B => .ok (.nmsearch (fld 7 11 w) (fld 7 4 w))
  | 0x2C => .ok (.nmcommit (fld 7 18 w) (fld 7 11 w) (fld 7 4 w) (fld 4 0 w))
  | 0x2D =>
    match w % 16 with
    | 0 => .ok (.collfire (fld 7 11 w) (fld 7 4 w))
    | _ => .error .reservedFunction
  | 0x2E =>
    match w % 16 with
    | 0 => .ok (.binit (fld 7 18 w) (fld 7 11 w) (fld 7 4 w))
    | 1 => .ok (.barrive (fld 7 18 w) (fld 7 11 w) (fld 7 4 w))
    | 2 => .ok (.barriven (fld 7 18 w) (fld 7 11 w) (fld 7 4 w))
    | 3 => .ok (.btest (fld 7 18 w) (fld 7 11 w) (fld 1 4 w))
    | _ => .error .reservedFunction
  | 0x2F =>
    match w % 16 with
    | 0 => .ok (.waitb (fld 7 18 w) (fld 7 11 w) (fld 7 4 w))
    | _ => .error .reservedFunction
  | 0x30 =>
    match w % 16 with
    | 0 => .ok (.tstate (fld 7 18 w) (fld 7 11 w))
    | 1 => .ok (.trel (fld 7 11 w))
    | 2 => .ok (.twait (fld 7 11 w))
    | 3 => .ok (.tclaim (fld 7 11 w) (fld 7 4 w))
    | _ => .error .reservedFunction
  | 0x31 =>
    match w % 16 with
    | 0 => .ok (.qinit (fld 7 11 w) (fld 7 4 w))
    | 1 => .ok (.qpush (fld 7 18 w) (fld 7 11 w) (fld 1 4 w))
    | 2 => .ok (.qpop (fld 7 18 w) (fld 7 11 w) (fld 1 4 w))
    | 3 => .ok (.qcount (fld 7 18 w) (fld 7 11 w))
    | _ => .error .reservedFunction
  | 0x32 =>
    match w % 16 with
    | 0 => .ok (.mtokTake)
    | 1 => .ok (.mtokPass)
    | 2 => .ok (.mtokTest (fld 7 18 w))
    | _ => .error .reservedFunction
  | 0x33 =>
    match w % 16 with
    | 0 => .ok (.mdrain (fld 7 11 w))
    | 1 => .ok (.mfill (fld 7 11 w))
    | _ => .error .reservedFunction
  | 0x34 =>
    match w % 16 with
    | 0 => .ok (.tnext (fld 7 18 w))
    | 1 => .ok (.tdone)
    | 2 => .ok (.tgrain (fld 7 18 w))
    | _ => .error .reservedFunction
  | 0x35 =>
    match w % 16 with
    | 0 => .ok (.bexit)
    | 1 => .ok (.jspill (fld 4 18 w) (fld 7 11 w))
    | 2 => .ok (.jfill (fld 4 18 w) (fld 7 11 w))
    | 3 => .ok (.yieldG)
    | _ => .error .reservedFunction
  | 0x36 =>
    match w % 16 with
    | 0 => .ok (.bankcfg (fld 7 18 w) (fld 7 11 w) (fld 7 4 w))
    | _ => .error .reservedFunction
  | 0x37 =>
    match w / 2 ^ 10 % 2 with
    | 0 => .ok (.srd .group (fld 7 18 w) (fld 10 0 w))
    | 1 => .ok (.swr .group (fld 7 11 w) (fld 10 0 w))
    | _ => .error .reservedFunction
  | 0x38 => .ok (.ext .group (fld 25 0 w) next)
  | _ => .error .reservedMajor

/-- The near profile in lane scope (Table 6.1, Table 11.7). -/
def parseNearLane (w : Nat) : Except DecodeError Instr :=
  match majorOf w with
  | 0x00 =>
    match w % 16 with
    | 0 => .ok (.add .lane (fld 7 18 w) (fld 7 11 w) (fld 7 4 w))
    | 1 => .ok (.sub .lane (fld 7 18 w) (fld 7 11 w) (fld 7 4 w))
    | 2 => .ok (.mul .lane (fld 7 18 w) (fld 7 11 w) (fld 7 4 w))
    | 3 => .ok (.mulh .lane (fld 7 18 w) (fld 7 11 w) (fld 7 4 w))
    | 4 => .ok (.mulhu .lane (fld 7 18 w) (fld 7 11 w) (fld 7 4 w))
    | 5 => .ok (.min .lane (fld 7 18 w) (fld 7 11 w) (fld 7 4 w))
    | 6 => .ok (.max .lane (fld 7 18 w) (fld 7 11 w) (fld 7 4 w))
    | 7 => .ok (.minu .lane (fld 7 18 w) (fld 7 11 w) (fld 7 4 w))
    | 8 => .ok (.maxu .lane (fld 7 18 w) (fld 7 11 w) (fld 7 4 w))
    | 9 => .ok (.and .lane (fld 7 18 w) (fld 7 11 w) (fld 7 4 w))
    | 10 => .ok (.or .lane (fld 7 18 w) (fld 7 11 w) (fld 7 4 w))
    | 11 => .ok (.xor .lane (fld 7 18 w) (fld 7 11 w) (fld 7 4 w))
    | 12 => .ok (.andn .lane (fld 7 18 w) (fld 7 11 w) (fld 7 4 w))
    | 13 => .ok (.shl .lane (fld 7 18 w) (fld 7 11 w) (fld 7 4 w))
    | 14 => .ok (.shr .lane (fld 7 18 w) (fld 7 11 w) (fld 7 4 w))
    | 15 => .ok (.sra .lane (fld 7 18 w) (fld 7 11 w) (fld 7 4 w))
    | _ => .error .reservedFunction
  | 0x01 =>
    match w % 16 with
    | 0 => .ok (.rol .lane (fld 7 18 w) (fld 7 11 w) (fld 7 4 w))
    | 1 => .ok (.ror .lane (fld 7 18 w) (fld 7 11 w) (fld 7 4 w))
    | 2 => .ok (.clz .lane (fld 7 18 w) (fld 7 11 w))
    | 3 => .ok (.popc .lane (fld 7 18 w) (fld 7 11 w))
    | 4 => .ok (.brev .lane (fld 7 18 w) (fld 7 11 w))
    | 5 => .ok (.abs .lane (fld 7 18 w) (fld 7 11 w))
    | 6 => .ok (.neg .lane (fld 7 18 w) (fld 7 11 w))
    | 7 => .ok (.madd .lane (fld 7 18 w) (fld 7 11 w) (fld 7 4 w))
    | 8 => .ok (.msub .lane (fld 7 18 w) (fld 7 11 w) (fld 7 4 w))
    | 9 => .ok (.lea1 .lane (fld 7 18 w) (fld 7 11 w) (fld 7 4 w))
    | 10 => .ok (.lea2 .lane (fld 7 18 w) (fld 7 11 w) (fld 7 4 w))
    | 11 => .ok (.lea3 .lane (fld 7 18 w) (fld 7 11 w) (fld 7 4 w))
    | 12 => .ok (.addsat .lane (fld 7 18 w) (fld 7 11 w) (fld 7 4 w))
    | 13 => .ok (.subsat .lane (fld 7 18 w) (fld 7 11 w) (fld 7 4 w))
    | _ => .error .reservedFunction
  | 0x0C =>
    match w % 16 with
    | 0 => .ok (.fadd .lane (fld 7 18 w) (fld 7 11 w) (fld 7 4 w))
    | 1 => .ok (.fsub .lane (fld 7 18 w) (fld 7 11 w) (fld 7 4 w))
    | 2 => .ok (.fmul .lane (fld 7 18 w) (fld 7 11 w) (fld 7 4 w))
    | 3 => .ok (.ffma .lane (fld 7 18 w) (fld 7 11 w) (fld 7 4 w))
    | 4 => .ok (.ffms .lane (fld 7 18 w) (fld 7 11 w) (fld 7 4 w))
    | 5 => .ok (.fmin .lane (fld 7 18 w) (fld 7 11 w) (fld 7 4 w))
    | 6 => .ok (.fmax .lane (fld 7 18 w) (fld 7 11 w) (fld 7 4 w))
    | 7 => .ok (.fabs .lane (fld 7 18 w) (fld 7 11 w))
    | 8 => .ok (.fneg .lane (fld 7 18 w) (fld 7 11 w))
    | 9 => .ok (.fcpys .lane (fld 7 18 w) (fld 7 11 w) (fld 7 4 w))
    | 10 => .ok (.fclass .lane (fld 7 18 w) (fld 7 11 w))
    | _ => .error .reservedFunction
  | 0x0E => .ok (.cvt .lane (fld 7 18 w) (fld 7 11 w) (fld 4 7 w) (fld 4 3 w) (fld 2 1 w) (fld 1 0 w))
  | 0x2D => .ok (.ldb (fld 7 18 w) (fld 7 11 w) (fld 2 9 w) (fld 5 4 w))
  | 0x2E => .ok (.stb (fld 7 18 w) (fld 7 11 w) (fld 2 9 w) (fld 5 4 w))
  | 0x2F => .ok (.dist (fld 7 18 w) (fld 7 11 w) (fld 7 4 w) (fld 4 0 w))
  | 0x30 => .ok (.br (fld 7 18 w) (fld 18 0 w))
  | 0x31 => .ok (.brn (fld 7 18 w) (fld 18 0 w))
  | 0x32 => .ok (.bra (fld 25 0 w))
  | 0x33 => .ok (.call (fld 25 0 w))
  | 0x34 =>
    match w % 16 with
    | 0 => .ok (.jmpr (fld 7 11 w))
    | _ => .error .reservedFunction
  | 0x39 =>
    match w % 16 with
    | 0 => .ok (.hpush (fld 7 18 w) (fld 7 11 w) (fld 7 4 w))
    | 1 => .ok (.hpop (fld 7 18 w) (fld 7 11 w))
    | 2 => .ok (.htop (fld 7 18 w) (fld 7 11 w) (fld 7 4 w))
    | 3 => .ok (.hchain (fld 7 18 w) (fld 7 11 w))
    | _ => .error .reservedFunction
  | 0x3A =>
    match w % 16 with
    | 0 => .ok (.msgSend (fld 7 18 w) (fld 7 11 w))
    | 1 => .ok (.msgRecv (fld 7 18 w) (fld 7 11 w))
    | _ => .error .reservedFunction
  | 0x3B =>
    match w % 16 with
    | 0 => .ok (.whop (fld 7 11 w) (fld 7 4 w))
    | _ => .error .reservedFunction
  | 0x3C =>
    match w % 16 with
    | 0 => .ok (.wspawn (fld 7 11 w) (fld 7 4 w))
    | _ => .error .reservedFunction
  | 0x3D =>
    match w % 16 with
    | 0 => .ok (.wend)
    | _ => .error .reservedFunction
  | 0x3E =>
    match w % 16 with
    | 0 => .ok (.nmret (fld 7 11 w) (fld 7 4 w))
    | _ => .error .reservedFunction
  | _ => .error .notNear

/-- The near profile in group scope (Table 6.1, R294). -/
def parseNearGroup (w : Nat) : Except DecodeError Instr :=
  match majorOf w with
  | 0x00 =>
    match w % 16 with
    | 0 => .ok (.add .group (fld 7 18 w) (fld 7 11 w) (fld 7 4 w))
    | 1 => .ok (.sub .group (fld 7 18 w) (fld 7 11 w) (fld 7 4 w))
    | 2 => .ok (.mul .group (fld 7 18 w) (fld 7 11 w) (fld 7 4 w))
    | 3 => .ok (.mulh .group (fld 7 18 w) (fld 7 11 w) (fld 7 4 w))
    | 4 => .ok (.mulhu .group (fld 7 18 w) (fld 7 11 w) (fld 7 4 w))
    | 5 => .ok (.min .group (fld 7 18 w) (fld 7 11 w) (fld 7 4 w))
    | 6 => .ok (.max .group (fld 7 18 w) (fld 7 11 w) (fld 7 4 w))
    | 7 => .ok (.minu .group (fld 7 18 w) (fld 7 11 w) (fld 7 4 w))
    | 8 => .ok (.maxu .group (fld 7 18 w) (fld 7 11 w) (fld 7 4 w))
    | 9 => .ok (.and .group (fld 7 18 w) (fld 7 11 w) (fld 7 4 w))
    | 10 => .ok (.or .group (fld 7 18 w) (fld 7 11 w) (fld 7 4 w))
    | 11 => .ok (.xor .group (fld 7 18 w) (fld 7 11 w) (fld 7 4 w))
    | 12 => .ok (.andn .group (fld 7 18 w) (fld 7 11 w) (fld 7 4 w))
    | 13 => .ok (.shl .group (fld 7 18 w) (fld 7 11 w) (fld 7 4 w))
    | 14 => .ok (.shr .group (fld 7 18 w) (fld 7 11 w) (fld 7 4 w))
    | 15 => .ok (.sra .group (fld 7 18 w) (fld 7 11 w) (fld 7 4 w))
    | _ => .error .reservedFunction
  | 0x01 =>
    match w % 16 with
    | 0 => .ok (.rol .group (fld 7 18 w) (fld 7 11 w) (fld 7 4 w))
    | 1 => .ok (.ror .group (fld 7 18 w) (fld 7 11 w) (fld 7 4 w))
    | 2 => .ok (.clz .group (fld 7 18 w) (fld 7 11 w))
    | 3 => .ok (.popc .group (fld 7 18 w) (fld 7 11 w))
    | 4 => .ok (.brev .group (fld 7 18 w) (fld 7 11 w))
    | 5 => .ok (.abs .group (fld 7 18 w) (fld 7 11 w))
    | 6 => .ok (.neg .group (fld 7 18 w) (fld 7 11 w))
    | 7 => .ok (.madd .group (fld 7 18 w) (fld 7 11 w) (fld 7 4 w))
    | 8 => .ok (.msub .group (fld 7 18 w) (fld 7 11 w) (fld 7 4 w))
    | 9 => .ok (.lea1 .group (fld 7 18 w) (fld 7 11 w) (fld 7 4 w))
    | 10 => .ok (.lea2 .group (fld 7 18 w) (fld 7 11 w) (fld 7 4 w))
    | 11 => .ok (.lea3 .group (fld 7 18 w) (fld 7 11 w) (fld 7 4 w))
    | 12 => .ok (.addsat .group (fld 7 18 w) (fld 7 11 w) (fld 7 4 w))
    | 13 => .ok (.subsat .group (fld 7 18 w) (fld 7 11 w) (fld 7 4 w))
    | _ => .error .reservedFunction
  | 0x02 => .ok (.addi .group (fld 7 18 w) (fld 7 11 w) (fld 11 0 w))
  | 0x03 => .ok (.muli .group (fld 7 18 w) (fld 7 11 w) (fld 11 0 w))
  | 0x04 => .ok (.andi .group (fld 7 18 w) (fld 7 11 w) (fld 11 0 w))
  | 0x05 => .ok (.ori .group (fld 7 18 w) (fld 7 11 w) (fld 11 0 w))
  | 0x06 => .ok (.xori .group (fld 7 18 w) (fld 7 11 w) (fld 11 0 w))
  | 0x07 =>
    match w / 2 ^ 5 % 4 with
    | 0 => .ok (.shli .group (fld 7 18 w) (fld 7 11 w) (fld 5 0 w))
    | 1 => .ok (.shri .group (fld 7 18 w) (fld 7 11 w) (fld 5 0 w))
    | 2 => .ok (.srai .group (fld 7 18 w) (fld 7 11 w) (fld 5 0 w))
    | 3 => .ok (.roli .group (fld 7 18 w) (fld 7 11 w) (fld 5 0 w))
    | _ => .error .reservedFunction
  | 0x08 => .ok (.li .group (fld 7 18 w) (fld 18 0 w))
  | 0x09 => .ok (.cmp .group (fld 7 18 w) (fld 7 11 w) (fld 7 4 w) (fld 4 0 w))
  | 0x16 => .ok (.div .group (fld 7 18 w) (fld 7 11 w) (fld 7 4 w) (fld 4 0 w))
  | 0x17 => .ok (.divu .group (fld 7 18 w) (fld 7 11 w) (fld 7 4 w) (fld 4 0 w))
  | 0x18 => .ok (.rem .group (fld 7 18 w) (fld 7 11 w) (fld 7 4 w) (fld 4 0 w))
  | 0x19 => .ok (.remu .group (fld 7 18 w) (fld 7 11 w) (fld 7 4 w) (fld 4 0 w))
  | 0x31 =>
    match w % 16 with
    | 1 => .ok (.nearQpush (fld 7 18 w) (fld 1 11 w) (fld 1 4 w))
    | 2 => .ok (.nearQpop (fld 7 18 w) (fld 1 11 w) (fld 1 4 w))
    | _ => .error .reservedFunction
  | _ => .error .notNear


/-- The word of an instruction, from its base word and fields (Table 7.1 and the base words of chapters 8 to 11); 0 for an event. -/
def encodeNat : Instr → Nat
  | .add sc d a b => 0x00000000 + sc.bit + put 18 d + put 11 a + put 4 b
  | .sub sc d a b => 0x00000001 + sc.bit + put 18 d + put 11 a + put 4 b
  | .mul sc d a b => 0x00000002 + sc.bit + put 18 d + put 11 a + put 4 b
  | .mulh sc d a b => 0x00000003 + sc.bit + put 18 d + put 11 a + put 4 b
  | .mulhu sc d a b => 0x00000004 + sc.bit + put 18 d + put 11 a + put 4 b
  | .min sc d a b => 0x00000005 + sc.bit + put 18 d + put 11 a + put 4 b
  | .max sc d a b => 0x00000006 + sc.bit + put 18 d + put 11 a + put 4 b
  | .minu sc d a b => 0x00000007 + sc.bit + put 18 d + put 11 a + put 4 b
  | .maxu sc d a b => 0x00000008 + sc.bit + put 18 d + put 11 a + put 4 b
  | .and sc d a b => 0x00000009 + sc.bit + put 18 d + put 11 a + put 4 b
  | .or sc d a b => 0x0000000A + sc.bit + put 18 d + put 11 a + put 4 b
  | .xor sc d a b => 0x0000000B + sc.bit + put 18 d + put 11 a + put 4 b
  | .andn sc d a b => 0x0000000C + sc.bit + put 18 d + put 11 a + put 4 b
  | .shl sc d a b => 0x0000000D + sc.bit + put 18 d + put 11 a + put 4 b
  | .shr sc d a b => 0x0000000E + sc.bit + put 18 d + put 11 a + put 4 b
  | .sra sc d a b => 0x0000000F + sc.bit + put 18 d + put 11 a + put 4 b
  | .rol sc d a b => 0x02000000 + sc.bit + put 18 d + put 11 a + put 4 b
  | .ror sc d a b => 0x02000001 + sc.bit + put 18 d + put 11 a + put 4 b
  | .clz sc d a => 0x02000002 + sc.bit + put 18 d + put 11 a
  | .popc sc d a => 0x02000003 + sc.bit + put 18 d + put 11 a
  | .brev sc d a => 0x02000004 + sc.bit + put 18 d + put 11 a
  | .abs sc d a => 0x02000005 + sc.bit + put 18 d + put 11 a
  | .neg sc d a => 0x02000006 + sc.bit + put 18 d + put 11 a
  | .madd sc d a b => 0x02000007 + sc.bit + put 18 d + put 11 a + put 4 b
  | .msub sc d a b => 0x02000008 + sc.bit + put 18 d + put 11 a + put 4 b
  | .lea1 sc d a b => 0x02000009 + sc.bit + put 18 d + put 11 a + put 4 b
  | .lea2 sc d a b => 0x0200000A + sc.bit + put 18 d + put 11 a + put 4 b
  | .lea3 sc d a b => 0x0200000B + sc.bit + put 18 d + put 11 a + put 4 b
  | .addsat sc d a b => 0x0200000C + sc.bit + put 18 d + put 11 a + put 4 b
  | .subsat sc d a b => 0x0200000D + sc.bit + put 18 d + put 11 a + put 4 b
  | .addi sc d a i => 0x04000000 + sc.bit + put 18 d + put 11 a + put 0 i
  | .muli sc d a i => 0x06000000 + sc.bit + put 18 d + put 11 a + put 0 i
  | .andi sc d a i => 0x08000000 + sc.bit + put 18 d + put 11 a + put 0 i
  | .ori sc d a i => 0x0A000000 + sc.bit + put 18 d + put 11 a + put 0 i
  | .xori sc d a i => 0x0C000000 + sc.bit + put 18 d + put 11 a + put 0 i
  | .shli sc d a n => 0x0E000000 + sc.bit + put 18 d + put 11 a + put 0 n
  | .shri sc d a n => 0x0E000020 + sc.bit + put 18 d + put 11 a + put 0 n
  | .srai sc d a n => 0x0E000040 + sc.bit + put 18 d + put 11 a + put 0 n
  | .roli sc d a n => 0x0E000060 + sc.bit + put 18 d + put 11 a + put 0 n
  | .li sc d i => 0x10000000 + sc.bit + put 18 d + put 0 i
  | .cmp sc d a b c => 0x12000000 + sc.bit + put 18 d + put 11 a + put 4 b + put 0 c
  | .cmpi sc d a c i => 0x14000000 + sc.bit + put 18 d + put 11 a + put 7 c + put 0 i
  | .mov sc d a => 0x16000000 + sc.bit + put 18 d + put 11 a
  | .movgv d a => 0x16000001 + put 18 d + put 11 a
  | .movvg d a => 0x16000002 + put 18 d + put 11 a
  | .laneid d => 0x16000003 + put 18 d
  | .tag d a => 0x16000004 + put 18 d + put 11 a
  | .gen d => 0x16000005 + put 18 d
  | .sel d a b => 0x16000006 + put 18 d + put 11 a + put 4 b
  | .pack2 d a b => 0x16000007 + put 18 d + put 11 a + put 4 b
  | .pack4 d a b => 0x16000008 + put 18 d + put 11 a + put 4 b
  | .unpk d a b => 0x16000009 + put 18 d + put 11 a + put 4 b
  | .movj d k e => 0x96000001 + put 18 d + put 11 k + put 4 e
  | .mpop d a => 0x9E000000 + put 18 d + put 11 a
  | .mffs d a => 0x9E000001 + put 18 d + put 11 a
  | .mfls d a => 0x9E000002 + put 18 d + put 11 a
  | .mnth d a b => 0x9E000003 + put 18 d + put 11 a + put 4 b
  | .fadd sc d a b => 0x18000000 + sc.bit + put 18 d + put 11 a + put 4 b
  | .fsub sc d a b => 0x18000001 + sc.bit + put 18 d + put 11 a + put 4 b
  | .fmul sc d a b => 0x18000002 + sc.bit + put 18 d + put 11 a + put 4 b
  | .ffma sc d a b => 0x18000003 + sc.bit + put 18 d + put 11 a + put 4 b
  | .ffms sc d a b => 0x18000004 + sc.bit + put 18 d + put 11 a + put 4 b
  | .fmin sc d a b => 0x18000005 + sc.bit + put 18 d + put 11 a + put 4 b
  | .fmax sc d a b => 0x18000006 + sc.bit + put 18 d + put 11 a + put 4 b
  | .fabs sc d a => 0x18000007 + sc.bit + put 18 d + put 11 a
  | .fneg sc d a => 0x18000008 + sc.bit + put 18 d + put 11 a
  | .fcpys sc d a b => 0x18000009 + sc.bit + put 18 d + put 11 a + put 4 b
  | .fclass sc d a => 0x1800000A + sc.bit + put 18 d + put 11 a
  | .fcmp sc d a b c => 0x1A000000 + sc.bit + put 18 d + put 11 a + put 4 b + put 0 c
  | .cvt sc d a t u r x => 0x1C000000 + sc.bit + put 18 d + put 11 a + put 7 t + put 3 u + put 1 r + put 0 x
  | .hadd2 d a b => 0x1E000000 + put 18 d + put 11 a + put 4 b
  | .hsub2 d a b => 0x1E000001 + put 18 d + put 11 a + put 4 b
  | .hmul2 d a b => 0x1E000002 + put 18 d + put 11 a + put 4 b
  | .hfma2 d a b => 0x1E000003 + put 18 d + put 11 a + put 4 b
  | .hmin2 d a b => 0x1E000004 + put 18 d + put 11 a + put 4 b
  | .hmax2 d a b => 0x1E000005 + put 18 d + put 11 a + put 4 b
  | .badd2 d a b => 0x1E000006 + put 18 d + put 11 a + put 4 b
  | .bmul2 d a b => 0x1E000007 + put 18 d + put 11 a + put 4 b
  | .bfma2 d a b => 0x1E000008 + put 18 d + put 11 a + put 4 b
  | .dadd d a b => 0x20000000 + put 18 d + put 11 a + put 4 b
  | .dsub d a b => 0x20000001 + put 18 d + put 11 a + put 4 b
  | .dmul d a b => 0x20000002 + put 18 d + put 11 a + put 4 b
  | .dfma d a b => 0x20000003 + put 18 d + put 11 a + put 4 b
  | .dmin d a b => 0x20000004 + put 18 d + put 11 a + put 4 b
  | .dmax d a b => 0x20000005 + put 18 d + put 11 a + put 4 b
  | .ex2 d a => 0x22000000 + put 18 d + put 11 a
  | .lg2 d a => 0x22000001 + put 18 d + put 11 a
  | .rcp d a => 0x22000002 + put 18 d + put 11 a
  | .rsq d a => 0x22000003 + put 18 d + put 11 a
  | .sqrt d a => 0x22000004 + put 18 d + put 11 a
  | .sin d a => 0x22000005 + put 18 d + put 11 a
  | .cos d a => 0x22000006 + put 18 d + put 11 a
  | .tanh d a => 0x22000007 + put 18 d + put 11 a
  | .ex2h d a => 0x22000008 + put 18 d + put 11 a
  | .shfl d a b => 0x24000000 + put 18 d + put 11 a + put 4 b
  | .shflx d a b => 0x24000001 + put 18 d + put 11 a + put 4 b
  | .shflup d a b => 0x24000002 + put 18 d + put 11 a + put 4 b
  | .shfldn d a b => 0x24000003 + put 18 d + put 11 a + put 4 b
  | .bcast d a b => 0x24000004 + put 18 d + put 11 a + put 4 b
  | .redadd d a => 0x26000000 + put 18 d + put 11 a
  | .redfadd d a => 0x26000001 + put 18 d + put 11 a
  | .redmin d a => 0x26000002 + put 18 d + put 11 a
  | .redmax d a => 0x26000003 + put 18 d + put 11 a
  | .redfmin d a => 0x26000004 + put 18 d + put 11 a
  | .redfmax d a => 0x26000005 + put 18 d + put 11 a
  | .redand d a => 0x26000006 + put 18 d + put 11 a
  | .redor d a => 0x26000007 + put 18 d + put 11 a
  | .scanadd d a => 0x26000008 + put 18 d + put 11 a
  | .scanfadd d a => 0x26000009 + put 18 d + put 11 a
  | .argmax d a => 0x28000000 + put 18 d + put 11 a
  | .argmin d a => 0x28000001 + put 18 d + put 11 a
  | .fargmax d a => 0x28000002 + put 18 d + put 11 a
  | .fargmin d a => 0x28000003 + put 18 d + put 11 a
  | .sort32 d a => 0x28000004 + put 18 d + put 11 a
  | .topk d a b => 0x28000005 + put 18 d + put 11 a + put 4 b
  | .mergek d a b => 0x28000006 + put 18 d + put 11 a + put 4 b
  | .dp4a d a b => 0x2A000000 + put 18 d + put 11 a + put 4 b
  | .dp4au d a b => 0x2A000001 + put 18 d + put 11 a + put 4 b
  | .dp2h d a b => 0x2A000002 + put 18 d + put 11 a + put 4 b
  | .dp4q d a b => 0x2A000003 + put 18 d + put 11 a + put 4 b
  | .dp4qe d a b => 0x2A000004 + put 18 d + put 11 a + put 4 b
  | .div sc d a b l => 0x2C000000 + sc.bit + put 18 d + put 11 a + put 4 b + put 0 l
  | .divu sc d a b l => 0x2E000000 + sc.bit + put 18 d + put 11 a + put 4 b + put 0 l
  | .rem sc d a b l => 0x30000000 + sc.bit + put 18 d + put 11 a + put 4 b + put 0 l
  | .remu sc d a b l => 0x32000000 + sc.bit + put 18 d + put 11 a + put 4 b + put 0 l
  | .ld d a m o l => 0x34000000 + put 18 d + put 11 a + put 9 m + put 4 o + put 0 l
  | .ldx d a m o l => 0x36000000 + put 18 d + put 11 a + put 9 m + put 4 o + put 0 l
  | .st d a m o => 0x38000000 + put 18 d + put 11 a + put 9 m + put 4 o
  | .stq d a o => 0x3A000000 + put 18 d + put 11 a + put 4 o
  | .lds d a m o l => 0x3C000000 + put 18 d + put 11 a + put 9 m + put 4 o + put 0 l
  | .sts d a m o => 0x3E000000 + put 18 d + put 11 a + put 9 m + put 4 o
  | .ldc d a m o l => 0x40000000 + put 18 d + put 11 a + put 9 m + put 4 o + put 0 l
  | .lda d a m c l => 0x42000000 + put 18 d + put 11 a + put 9 m + put 4 c + put 0 l
  | .stl d a m c => 0x44000000 + put 18 d + put 11 a + put 9 m + put 4 c
  | .atom sc d a m k l => 0x46000000 + sc.bit + put 18 d + put 11 a + put 9 m + put 4 k + put 0 l
  | .atom64 d a m k l => 0x48000000 + put 18 d + put 11 a + put 9 m + put 4 k + put 0 l
  | .atoms d a m k l => 0x4A000000 + put 18 d + put 11 a + put 9 m + put 4 k + put 0 l
  | .fence sc c k => 0x4C000000 + sc.bit + put 2 c + put 0 k
  | .ldt d a m o l => 0x4E000000 + put 18 d + put 11 a + put 9 m + put 4 o + put 0 l
  | .ldu d a m o l => 0xB4000000 + put 18 d + put 11 a + put 9 m + put 4 o + put 0 l
  | .stu d a m o => 0xB6000000 + put 18 d + put 11 a + put 9 m + put 4 o
  | .ldsu d a m o l => 0xBC000000 + put 18 d + put 11 a + put 9 m + put 4 o + put 0 l
  | .stsu d a m o => 0xBE000000 + put 18 d + put 11 a + put 9 m + put 4 o
  | .qmm d a b l => 0x50000000 + put 18 d + put 11 a + put 4 b + put 0 l
  | .qmms d a b l => 0x52000000 + put 18 d + put 11 a + put 4 b + put 0 l
  | .mvt d a b l => 0x54000000 + put 18 d + put 11 a + put 4 b + put 0 l
  | .nmcall d a b => 0x56000000 + put 18 d + put 11 a + put 4 b
  | .mread d t => 0x58000000 + put 18 d + put 11 t
  | .mwrite t a => 0x58000001 + put 18 t + put 11 a
  | .mzero t => 0x58000002 + put 18 t
  | .br m j => 0x60000000 + put 18 m + put 0 j
  | .brn m j => 0x62000000 + put 18 m + put 0 j
  | .bra j => 0x64000000 + put 0 j
  | .call j => 0x66000000 + put 0 j
  | .jmpr a => 0x68000000 + put 11 a
  | .exit => 0x6A000000
  | .yield => 0x6A000001
  | .nop => 0x6A000002
  | .bkpt => 0x6A000003
  | .pred m => 0x6A000004 + put 11 m
  | .unpred => 0x6A000005
  | .setj k => 0x6A000006 + put 18 k
  | .join k => 0x6A000007 + put 18 k
  | .jleave k => 0x6A000008 + put 18 k
  | .region => 0x6A000009
  | .trap n => 0x6A00000A + put 18 n
  | .hret => 0x6A00000B
  | .wbase n => 0x6C000000 + put 0 n
  | .wbaseRel r => 0x6C000400 + put 0 r
  | .srd sc d x => 0x6E000000 + sc.bit + put 18 d + put 0 x
  | .swr sc a x => 0x6E000400 + sc.bit + put 11 a + put 0 x
  | .ext sc i _ => 0x70000000 + sc.bit + put 0 i
  | .copy d a b l => 0xD0000000 + put 18 d + put 11 a + put 4 b + put 0 l
  | .copyout a b => 0xD2000000 + put 11 a + put 4 b
  | .tmm d a b l => 0xD4000000 + put 18 d + put 11 a + put 4 b + put 0 l
  | .nmsearch a b => 0xD6000000 + put 11 a + put 4 b
  | .nmcommit d a b l => 0xD8000000 + put 18 d + put 11 a + put 4 b + put 0 l
  | .collfire a b => 0xDA000000 + put 11 a + put 4 b
  | .binit d a b => 0xDC000000 + put 18 d + put 11 a + put 4 b
  | .barrive d a b => 0xDC000001 + put 18 d + put 11 a + put 4 b
  | .barriven d a b => 0xDC000002 + put 18 d + put 11 a + put 4 b
  | .btest d a e => 0xDC000003 + put 18 d + put 11 a + put 4 e
  | .waitb d a b => 0xDE000000 + put 18 d + put 11 a + put 4 b
  | .tstate d a => 0xE0000000 + put 18 d + put 11 a
  | .trel a => 0xE0000001 + put 11 a
  | .twait a => 0xE0000002 + put 11 a
  | .tclaim a b => 0xE0000003 + put 11 a + put 4 b
  | .qinit a b => 0xE2000000 + put 11 a + put 4 b
  | .qpush d a e => 0xE2000001 + put 18 d + put 11 a + put 4 e
  | .qpop d a e => 0xE2000002 + put 18 d + put 11 a + put 4 e
  | .qcount d a => 0xE2000003 + put 18 d + put 11 a
  | .mtokTake => 0xE4000000
  | .mtokPass => 0xE4000001
  | .mtokTest d => 0xE4000002 + put 18 d
  | .mdrain a => 0xE6000000 + put 11 a
  | .mfill a => 0xE6000001 + put 11 a
  | .tnext d => 0xE8000000 + put 18 d
  | .tdone => 0xE8000001
  | .tgrain d => 0xE8000002 + put 18 d
  | .bexit => 0xEA000000
  | .jspill k a => 0xEA000001 + put 18 k + put 11 a
  | .jfill k a => 0xEA000002 + put 18 k + put 11 a
  | .yieldG => 0xEA000003
  | .bankcfg d a b => 0xEC000000 + put 18 d + put 11 a + put 4 b
  | .ldb d a m o => 0x5A000000 + put 18 d + put 11 a + put 9 m + put 4 o
  | .stb d a m o => 0x5C000000 + put 18 d + put 11 a + put 9 m + put 4 o
  | .dist d a b c => 0x5E000000 + put 18 d + put 11 a + put 4 b + put 0 c
  | .hpush h k i => 0x72000000 + put 18 h + put 11 k + put 4 i
  | .hpop d h => 0x72000001 + put 18 d + put 11 h
  | .htop d h r => 0x72000002 + put 18 d + put 11 h + put 4 r
  | .hchain d n => 0x72000003 + put 18 d + put 11 n
  | .msgSend h a => 0x74000000 + put 18 h + put 11 a
  | .msgRecv h a => 0x74000001 + put 18 h + put 11 a
  | .whop a e => 0x76000000 + put 11 a + put 4 e
  | .wspawn a e => 0x78000000 + put 11 a + put 4 e
  | .wend => 0x7A000000
  | .nmret a t => 0x7C000000 + put 11 a + put 4 t
  | .nearQpush d q e => 0xE2000001 + put 18 d + put 11 q + put 4 e
  | .nearQpop d q e => 0xE2000002 + put 18 d + put 11 q + put 4 e
  | .instructionCompletion _ _ _ => 0
  | .attemptReplay _ _ => 0
  | .lateTransition _ _ _ => 0
  | .commitGatePass _ => 0
  | .takeTrap _ _ _ _ _ _ => 0
  | .watchdogTrap _ _ => 0
  | .nmcallReply _ _ => 0
  | .barrierWake _ _ => 0
  | .tileWake _ _ => 0
  | .queueWake _ _ => 0
  | .splitGrant _ => 0
  | .pageFault _ _ _ => 0
  | .fetchPageFault _ _ _ => 0
  | .protectionViolation _ _ _ => 0
  | .resumeRetry _ _ => 0
  | .resumeFail _ _ => 0
  | .snapshotCopy _ _ => 0
  | .registerLineFill _ _ _ => 0
  | .lineDrowsy _ _ _ => 0
  | .lineWake _ _ _ => 0
  | .copyCompletion _ => 0
  | .copyTransferFailure _ _ => 0
  | .copyPageFault _ => 0
  | .tmmKStep _ => 0
  | .tmmCompletion _ => 0
  | .bankSwitchCompletion _ _ _ _ _ => 0
  | .barrierArrival _ _ _ _ _ => 0
  | .bedExit _ => 0
  | .waveStart _ => 0
  | .preemption _ => 0
  | .bedResume _ => 0
  | .launchKill _ _ => 0
  | .launchReplay _ => 0
  | .doorbell _ _ _ => 0
  | .qcmdEnable _ _ => 0
  | .qcmdDisable _ _ => 0
  | .arbiterPick => 0
  | .dependenceSatisfied _ => 0
  | .bedPlacement _ => 0
  | .launchCompletion _ => 0
  | .inval _ _ _ => 0
  | .bar4Access _ _ _ _ => 0
  | .registerWrite _ _ _ => 0
  | .arbpolWrite _ => 0
  | .debugFlush _ _ _ => 0
  | .debuggerRelease _ _ => 0
  | .windowBoundary _ => 0
  | .automaticRaise _ => 0
  | .quarantine _ _ => 0
  | .quarantineCommand _ => 0
  | .release _ => 0
  | .marginProfile _ _ => 0
  | .powerBudget _ _ _ => 0
  | .lremapWrite _ _ _ => 0
  | .pdtestWrite _ _ => 0
  | .imageLoad _ => 0
  | .svnMinimumRaise _ => 0
  | .attestation _ => 0
  | .amsanKeyInstall _ _ _ _ => 0
  | .amsanFrame _ _ => 0
  | .peerGroupRegistration _ _ _ _ _ _ => 0
  | .indexRegistration _ _ => 0
  | .searchRegistration _ => 0
  | .searchSetup _ => 0
  | .spawn _ => 0
  | .walker _ => 0
  | .cands _ => 0
  | .popreq _ => 0
  | .poprep _ => 0
  | .dreq _ => 0
  | .endw _ => 0
  | .versionCommit _ _ _ _ _ => 0
  | .queueDeadlockFault _ _ => 0
  | .engineFault _ _ _ => 0
  | .collectiveFire _ _ _ _ _ => 0
  | .stepStart _ => 0
  | .packetForming _ => 0
  | .data _ => 0
  | .coded _ _ => 0
  | .ack _ => 0
  | .nack _ => 0
  | .stepTimeout _ => 0
  | .dieReset _ => 0
  | .packageReset => 0
  | .powerOn _ => 0
  | .nmcallBatch _ => 0
  | .regulatorSettled _ => 0
  | .managementRestart => 0
  | .powerOff => 0
  | .damagedFlit _ => 0
  | .planeBudgetReached _ _ => 0
  | .readAndClear _ _ => 0

/-- The word of an instruction. -/
def encodeWord (i : Instr) : Word := BitVec.ofNat 32 (encodeNat i)

/-- The bytes of an instruction as memory holds them, lowest address first (R170): four, eight for an EXT and the word
it widens (R176), none for an event, which has no word. -/
def encode (i : Instr) : List Byte :=
  match i with
  | .ext _ _ next => wordBytes (encodeWord i) ++ wordBytes next
  | _ => if encodeNat i = 0 && !i.wf then [] else wordBytes (encodeWord i)

/-- The checks that follow the reading of the opcode: every unused bit is zero, and the fields keep their rules. -/
def checked (ok : Instr → Bool) (w : Nat) (r : Except DecodeError Instr) : Except DecodeError Instr :=
  match r with
  | .error e => .error e
  | .ok i => if encodeNat i = w then (if ok i then .ok i else .error .badField) else .error .mustBeZero

/-- The instruction of a core's word w, where `next` is the word after it (R177, item 1). -/
def decodeWord (w next : Word) : Except DecodeError Instr :=
  checked Instr.wf w.toNat
    (match scopeOf w.toNat with
     | .lane => parseLane next w.toNat
     | .group => parseGroup next w.toNat)

/-- The instruction of a bank engine's word (R141). -/
def decodeNear (w : Word) : Except DecodeError Instr :=
  checked Instr.nearWf w.toNat
    (match scopeOf w.toNat with
     | .lane => parseNearLane w.toNat
     | .group => parseNearGroup w.toNat)

/-- The word is an EXT at either scope (R176). -/
def isExtWord (w : Word) : Bool := majorOf w.toNat == 0x38

/-- A core's instruction at the front of a list of bytes, and the bytes after it; an EXT takes the word that follows it.
None where the bytes are too few. -/
def decodeBytes (bs : List Byte) : Option (Except DecodeError Instr × List Byte) :=
  match takeWord bs with
  | none => none
  | some (w, rest) =>
    if isExtWord w then
      match takeWord rest with
      | none => none
      | some (next, rest') => some (decodeWord w next, rest')
    else some (decodeWord w 0#32, rest)

/-- The instruction that the host's table word stands for: the words of a core are tried first, then those of a bank engine,
whose QPUSH and QPOP share their words with the core's (R260, R294).  Bits above nbits are zero. -/
def decodeTableWord (nbits w : Nat) : Option Instr :=
  let v := w % 2 ^ nbits
  match decodeBytes (wordBytes (BitVec.ofNat 32 v) ++ wordBytes (BitVec.ofNat 32 (v / 2 ^ 32))) with
  | some (.ok i, _) => some i
  | _ =>
    match decodeNear (BitVec.ofNat 32 v) with
    | .ok i => some i
    | .error _ => none

end Sys2Proof
end

