-- ==== Sys2Proof/Config.lean ====
section
/-! DEFINITION. What one Z960 fixes and the spec leaves open, and the free values: constants without a body, of which no
proof can know more than their type.  Each is named in the assumption log. -/

namespace Sys2Proof.Config

/-! ## Figures the spec gives (R2) -/

/-- Cores of the package (R2). -/
def numCores : Nat := 256

/-- Bank engines of the package (R2). -/
def numEngines : Nat := 768

/-- 128-byte lines of a terrace's L2 slice, and of a stack's home caches: 16 MiB (R2). -/
def sliceLines : Nat := 131072

/-- Stacks of the package (R2). -/
def numStacks : Nat := 12

/-- Bytes of device memory: 768 GiB (R2, R424). -/
def deviceBytes : Nat := 768 * 2 ^ 30

/-- Where host bus addresses begin in the model's one memory list; device addresses lie below. -/
def hostBase : Nat := 2 ^ 60

/-- Entries of the event log's ring (R421). -/
def eventRing : Nat := 65536

/-! ## Constants of one package -/

/-- The fused floor of a core's voltage step (MRGSTAT.FLOOR, R367, R374). -/
opaque floor : Nat → BitVec 4

/-- LREMAP of a core's issue slot as fused: its bits [6:0] (Table 21.3, R417). -/
opaque remapFuse : Nat → Nat → Word

/-- The fused minimum SVN of an image kind (R411). -/
opaque svnFuse : Nat → Word

/-- The package's serial number, 64 bytes of the attestation reply (R413). -/
opaque serial : BitVec 128

/-- The boot ROM's measurement (R412). -/
opaque romMeasure : BitVec 512

/-- The identity certificate chain (R413). -/
opaque certChain : List Byte

/-- The ECDSA P-521 signature check of an image's header bytes 0 to 87 (R411). -/
opaque imageSigned : List Byte → Bool

/-- The device identity key's signature of a digest (R413). -/
opaque identitySign : BitVec 512 → List Byte

/-- The result of a core's self-test image (R415). -/
opaque selfTest : Nat → Nat → Bool

/-- Whether the host serves PCIe atomic operations of a size (R123). -/
opaque hostAtomics : Nat → Bool

/-- The four hashes of a granule in a batch signature (R167). -/
opaque signatureHash : Nat → Nat → Nat

/-- FQBASE names host memory rather than device memory; no rule says which (R353, Table 20.2). -/
opaque faultRingHost : Bool

/-- DETAIL of an event of kind 12 from the BAR and the function; no rule gives its layout (Table 21.6). -/
opaque refusedDetail : Nat → Nat → Word

/-- Bytes of the mailbox capability beyond its header; the spec does not list its registers (R404). -/
opaque mailboxLength : Nat

/-- The group register that a near-profile CALL links through; no rule names it (R141, R201). -/
opaque nearLink : Nat

/-! ## Results the spec bounds or leaves open, as functions of the operands -/

/-- The result of an SFU function (R75): function code of R227 and FP32 input. -/
opaque sfu : Nat → Word → Word

/-- EX2H of one FP16 half (R75). -/
opaque ex2h : BitVec 16 → BitVec 16

/-! ## Free values, drawn by a counter of State -/

/-- A free word. -/
opaque freeWord : Nat → Word

/-- A free choice between two. -/
opaque freeBool : Nat → Bool

/-- A free number, for a choice among several. -/
opaque freeNat : Nat → Nat

/-- Which of several parts of the package that can act takes the next step. -/
opaque turn : Nat → Nat

/-- Core cycles that pass before a read of a die's cycle counter (R60). -/
opaque elapsed : Nat → DWord

end Sys2Proof.Config
end

