-- ==== Sys2Proof/Machine/Sparse.lean ====
section
/-! DEFINITION. Sparse data by number: a list of pairs with rising keys, read with the value an unlisted key has.
Memory is such a list of bytes in canonical form: no entry holds the value of an unlisted address. -/

namespace Sys2Proof.Machine

/-- Values by number, in rising order of the number. -/
abbrev Map (α : Type) := List (Nat × α)

/-- The value of key k; d where k is not listed. -/
def mget {α : Type} : Map α → Nat → α → α
  | [], _, d => d
  | (i, v) :: r, k, d => if i = k then v else mget r k d

/-- The value of key k, if listed. -/
def mfind {α : Type} : Map α → Nat → Option α
  | [], _ => none
  | (i, v) :: r, k => if i = k then some v else mfind r k

/-- The map with key k holding v. -/
def mset {α : Type} : Map α → Nat → α → Map α
  | [], k, v => [(k, v)]
  | (i, w) :: r, k, v =>
    if k < i then (k, v) :: (i, w) :: r
    else if i = k then (k, v) :: r
    else (i, w) :: mset r k v

/-- The map without key k. -/
def mdel {α : Type} : Map α → Nat → Map α
  | [], _ => []
  | (i, w) :: r, k => if i = k then mdel r k else (i, w) :: mdel r k

/-- The keys rise strictly. -/
def msorted {α : Type} : Map α → Bool
  | [] => true
  | [_] => true
  | (i, _) :: (j, w) :: r => decide (i < j) && msorted ((j, w) :: r)

/-- A map with value d removed rather than listed: the canonical form of a map whose unlisted keys hold d. -/
def mput {α : Type} [DecidableEq α] (m : Map α) (k : Nat) (v d : α) : Map α :=
  if v = d then mdel m k else mset m k v

/-- The canonical form: rising keys, and no entry that holds d. -/
def mcanon {α : Type} [DecidableEq α] (d : α) (m : Map α) : Bool :=
  msorted m && m.all (fun p => decide (p.2 ≠ d))

/-- Element n of a list, or d. -/
def lget {α : Type} : List α → Nat → α → α
  | [], _, d => d
  | a :: _, 0, _ => a
  | _ :: r, n + 1, d => lget r n d

/-- The list with element n replaced; unchanged where it has none. -/
def lset {α : Type} : List α → Nat → α → List α
  | [], _, _ => []
  | _ :: r, 0, v => v :: r
  | a :: r, n + 1, v => a :: lset r n v

/-- n copies of a value. -/
def copies {α : Type} : Nat → α → List α
  | 0, _ => []
  | n + 1, a => a :: copies n a

/-- The numbers a, a + 1, … (n of them), in order. -/
def upFrom : Nat → Nat → List Nat
  | _, 0 => []
  | a, n + 1 => a :: upFrom (a + 1) n

/-- The numbers below n, in order. -/
def below (n : Nat) : List Nat := upFrom 0 n

/-- A function applied n times. -/
def times {α : Type} : Nat → (α → α) → α → α
  | 0, _, a => a
  | n + 1, f, a => times n f (f a)

/-- The least number of a list, if any. -/
def leastOf : List Nat → Option Nat
  | [] => none
  | a :: r => some (r.foldl (fun m x => if x < m then x else m) a)

/-- Numbers without repeats, in order of first appearance. -/
def dedup (xs : List Nat) : List Nat := xs.foldl (fun acc x => if acc.contains x then acc else acc ++ [x]) []

end Sys2Proof.Machine
end

