-- ==== Sys2Proof/Machine/Float.lean ====
section
/-! DEFINITION. Number formats and exact arithmetic (chapter 3): values are exact until the one rounding of R68.
A floating value is NaN, an infinity, or (−1)^s × m × 2^e with whole m and e; m = 0 is a zero that keeps its sign. -/

namespace Sys2Proof.Machine

/-- An exact floating value. -/
inductive Val where
  | nan
  | inf (neg : Bool)
  | fin (neg : Bool) (m : Nat) (e : Int)
  deriving DecidableEq, Repr

/-- How a format spends its top codes (Table 3.2). -/
inductive Specials where
  /-- infinities and NaNs in the top exponent -/
  | ieee
  /-- no infinity; NaN is all ones below the sign (E4M3) -/
  | nanOnly
  /-- neither (E2M1) -/
  | none
  deriving DecidableEq, Repr

/-- A floating format (Table 3.2): width, mantissa bits, bias. -/
structure Fmt where
  width : Nat
  man : Nat
  bias : Nat
  special : Specials
  deriving DecidableEq, Repr

/-- FP32 (Table 3.2). -/
def fp32 : Fmt := { width := 32, man := 23, bias := 127, special := .ieee }
/-- FP16 (Table 3.2). -/
def fp16 : Fmt := { width := 16, man := 10, bias := 15, special := .ieee }
/-- BF16 (Table 3.2). -/
def bf16 : Fmt := { width := 16, man := 7, bias := 127, special := .ieee }
/-- FP8 E4M3 (Table 3.2). -/
def e4m3 : Fmt := { width := 8, man := 3, bias := 7, special := .nanOnly }
/-- FP8 E5M2 (Table 3.2). -/
def e5m2 : Fmt := { width := 8, man := 2, bias := 15, special := .ieee }
/-- FP4 E2M1 (Table 3.2). -/
def e2m1 : Fmt := { width := 4, man := 1, bias := 1, special := .none }
/-- FP64 (Table 3.2). -/
def fp64 : Fmt := { width := 64, man := 52, bias := 1023, special := .ieee }

/-- The sign position of a format. -/
def Fmt.signBit (f : Fmt) : Nat := 2 ^ (f.width - 1)

/-- The code of +∞, the first code of the top exponent field (formats with infinities). -/
def Fmt.infCode (f : Fmt) : Nat := 2 ^ (f.width - 1) - 2 ^ f.man

/-- The code of the largest finite value (Table 3.2). -/
def Fmt.maxCode (f : Fmt) : Nat :=
  match f.special with
  | .ieee => f.infCode - 1
  | .nanOnly => 2 ^ (f.width - 1) - 2
  | .none => 2 ^ (f.width - 1) - 1

/-- The canonical NaN (Table 3.2, R67); E2M1 has none and gives +0 (Table 3.5). -/
def Fmt.nanCode (f : Fmt) : Nat :=
  match f.special with
  | .ieee => f.infCode + 2 ^ (f.man - 1)
  | .nanOnly => 2 ^ (f.width - 1) - 1
  | .none => 0

/-- The exponent of the last place of a subnormal. -/
def Fmt.emin (f : Fmt) : Int := 1 - (f.bias : Int) - (f.man : Int)

/-- The value of a code (R66). -/
def fdec (f : Fmt) (x : Nat) : Val :=
  let neg := decide (x / f.signBit % 2 = 1)
  let mag := x % f.signBit
  match f.special, decide (f.maxCode < mag) with
  | .ieee, true => if mag = f.infCode then .inf neg else .nan
  | .nanOnly, true => .nan
  | _, _ =>
    let e := mag / 2 ^ f.man
    let m := mag % 2 ^ f.man
    if e = 0 then .fin neg m f.emin else .fin neg (2 ^ f.man + m) (f.emin + (e : Int) - 1)

/-- The value of a scale code (E8M0, R66). -/
def e8m0 (c : Nat) : Val := if c % 256 = 255 then .nan else .fin false 1 ((c % 256 : Int) - 127)

/-- A signed number as a value. -/
def ofInt (n : Int) : Val := .fin (decide (n < 0)) n.natAbs 0

/-- NaN or infinite (R78). -/
def Val.nonfinite : Val → Bool
  | .nan => true
  | .inf _ => true
  | .fin _ _ _ => false

/-- Whether the truncated significand goes up, given its last bit, the half and the rest below it (R68). -/
def roundsUp (mode : Nat) (neg : Bool) (odd half rest : Bool) : Bool :=
  match mode with
  | 0 => half && (rest || odd)
  | 1 => false
  | 2 => neg && (half || rest)
  | _ => !neg && (half || rest)

/-- The magnitude code of m × 2^e rounded once under the mode, with an unbounded exponent above (R68): codes of finite
values count up by ulps, so a code above the largest finite one has overflowed. -/
def roundMag (f : Fmt) (mode : Nat) (neg : Bool) (m : Nat) (e : Int) : Nat :=
  if m = 0 then 0
  else
    let len : Int := (Nat.log2 m : Int) + 1
    let lead : Int := e + len - ((f.man : Int) + 1)
    let q : Int := if lead < f.emin then f.emin else lead
    if q ≤ e then (q - f.emin).toNat * 2 ^ f.man + m * 2 ^ (e - q).toNat
    else
      let d := (q - e).toNat
      let hi := m / 2 ^ d
      let lo := m % 2 ^ d
      let half := decide (2 ^ (d - 1) ≤ lo)
      let rest := decide (lo % 2 ^ (d - 1) ≠ 0)
      let up := roundsUp mode neg (decide (hi % 2 = 1)) half rest
      (q - f.emin).toNat * 2 ^ f.man + hi + (if up then 1 else 0)

/-- A sign and a magnitude code. -/
def withSign (f : Fmt) (neg : Bool) (mag : Nat) : Nat := if neg then f.signBit + mag else mag

/-- The result of an overflow (Table 3.4). -/
def overflowCode (f : Fmt) (mode : Nat) (neg sat : Bool) : Nat :=
  let toMax := sat || (match mode with
    | 0 => false
    | 1 => true
    | 2 => !neg
    | _ => neg)
  if toMax then withSign f neg f.maxCode
  else
    match f.special with
    | .ieee => withSign f neg f.infCode
    | .nanOnly => f.nanCode
    | .none => withSign f neg f.maxCode

/-- The code of an infinity (Table 3.5). -/
def infinityCode (f : Fmt) (neg sat : Bool) : Nat :=
  match f.special with
  | .ieee => withSign f neg (if sat then f.maxCode else f.infCode)
  | .nanOnly => if sat then withSign f neg f.maxCode else f.nanCode
  | .none => withSign f neg f.maxCode

/-- Round(v, f, mode), saturating where asked (R68, R69, R70). -/
def fenc (f : Fmt) (mode : Nat) (sat : Bool) : Val → Nat
  | .nan => f.nanCode
  | .inf neg => infinityCode f neg sat
  | .fin neg m e =>
    let c := roundMag f mode neg m e
    if f.maxCode < c then overflowCode f mode neg sat else withSign f neg c

/-- Round(v, f, RNE). -/
def fround (f : Fmt) (v : Val) : Nat := fenc f 0 false v

/-- −v; the NaN stays. -/
def Val.neg : Val → Val
  | .nan => .nan
  | .inf s => .inf (!s)
  | .fin s m e => .fin (!s) m e

/-- The exact product; NaN for a NaN factor or 0 × ∞ (R74). -/
def Val.mul : Val → Val → Val
  | .nan, _ => .nan
  | _, .nan => .nan
  | .inf s, .inf t => .inf (s != t)
  | .inf s, .fin t m _ => if m = 0 then .nan else .inf (s != t)
  | .fin s m _, .inf t => if m = 0 then .nan else .inf (s != t)
  | .fin s m e, .fin t n d => .fin (s != t) (m * n) (e + d)

/-- A finite value as a whole number of 2^e, for e at or below its exponent. -/
def scaledInt (neg : Bool) (m : Nat) (d e : Int) : Int :=
  let k : Int := ((m * 2 ^ (d - e).toNat : Nat) : Int)
  if neg then -k else k

/-- The exact sum.  A zero sum is −0 only when both terms are −0 (R67). -/
def Val.add : Val → Val → Val
  | .nan, _ => .nan
  | _, .nan => .nan
  | .inf s, .inf t => if s = t then .inf s else .nan
  | .inf s, .fin _ _ _ => .inf s
  | .fin _ _ _, .inf t => .inf t
  | .fin s m e, .fin t n d =>
    let b : Int := if e < d then e else d
    let k := scaledInt s m e b + scaledInt t n d b
    if k = 0 then .fin (s && t && decide (m = 0) && decide (n = 0)) 0 0
    else .fin (decide (k < 0)) k.natAbs b

/-- The exact sum of a list of terms (R72, R74, R231); an empty sum is the −0 that adds nothing. -/
def sumVals (ts : List Val) : Val := ts.foldl Val.add (.fin true 0 0)

/-- How two values that are no NaN compare; −0 equals +0 (R223). -/
def Val.cmp (a b : Val) : Ordering :=
  match a, b with
  | .inf s, .inf t => if s = t then .eq else if s then .lt else .gt
  | .inf s, _ => if s then .lt else .gt
  | _, .inf t => if t then .gt else .lt
  | .fin s m e, .fin t n d =>
    let c : Int := if e < d then e else d
    compare (scaledInt s m e c) (scaledInt t n d c)
  | _, _ => .eq

/-- Whether a value is NaN. -/
def Val.isNan : Val → Bool
  | .nan => true
  | _ => false

/-- Whether the sign bit of a value that is no NaN is set. -/
def Val.isNeg : Val → Bool
  | .nan => false
  | .inf s => s
  | .fin s _ _ => s

/-- Whether a value is a zero. -/
def Val.isZero : Val → Bool
  | .fin _ m _ => m == 0
  | _ => false

/-- FMIN of two codes of one format: the smaller, the canonical NaN if either is NaN, −0 below +0 (Table 9.2). -/
def fminCode (f : Fmt) (a b : Nat) : Nat :=
  let x := fdec f a
  let y := fdec f b
  if x.isNan || y.isNan then f.nanCode
  else
    match x.cmp y with
    | .lt => a
    | .gt => b
    | .eq => if x.isNeg then a else b

/-- FMAX of two codes of one format (Table 9.2). -/
def fmaxCode (f : Fmt) (a b : Nat) : Nat :=
  let x := fdec f a
  let y := fdec f b
  if x.isNan || y.isNan then f.nanCode
  else
    match x.cmp y with
    | .lt => b
    | .gt => a
    | .eq => if x.isNeg then b else a

/-- A code is NaN or infinite in its format (R78). -/
def badCode (f : Fmt) (x : Nat) : Bool := (fdec f x).nonfinite

/-! ## Quotients and roots, rounded once -/

/-- The whole square root of n, one bit at a time from bit k down. -/
def isqrtFrom : Nat → Nat → Nat → Nat
  | 0, _, r => r
  | k + 1, n, r => isqrtFrom k n (if (r + 2 ^ k) * (r + 2 ^ k) ≤ n then r + 2 ^ k else r)

/-- The whole square root of n. -/
def isqrt (n : Nat) : Nat := isqrtFrom (Nat.log2 n / 2 + 1) n 0

/-- A value whose rounding equals the rounding of the true square root: 64 places more than any format keeps, and a bit
below them for the rest.  NaN for a negative value. -/
def Val.sqrt : Val → Val
  | .nan => .nan
  | .inf s => if s then .nan else .inf false
  | .fin s m e =>
    if m = 0 then .fin s 0 0
    else if s then .nan
    else
      let e' : Int := if e % 2 = 0 then e else e - 1
      let m' := if e % 2 = 0 then m else 2 * m
      let n := m' * 2 ^ 256
      let r := isqrt n
      .fin false (2 * r + (if r * r = n then 0 else 1)) ((e' - 256) / 2 - 1)

/-- A value whose rounding equals the rounding of the true quotient. -/
def Val.div : Val → Val → Val
  | .nan, _ => .nan
  | _, .nan => .nan
  | .inf _, .inf _ => .nan
  | .inf s, .fin t _ _ => .inf (s != t)
  | .fin s _ _, .inf t => .fin (s != t) 0 0
  | .fin s m e, .fin t n d =>
    if n = 0 then (if m = 0 then .nan else .inf (s != t))
    else
      let k := 128 + Nat.log2 n
      let p := m * 2 ^ k
      .fin (s != t) (2 * (p / n) + (if p % n = 0 then 0 else 1)) (e - d - (k : Int) - 1)

/-! ## Conversions (R65, R70) -/

/-- The floating format of a code of Table 3.1, where it has one. -/
def fmtOfCode : Nat → Option Fmt
  | 0 => some fp32
  | 1 => some fp16
  | 2 => some bf16
  | 3 => some e4m3
  | 4 => some e5m2
  | 5 => some e2m1
  | 12 => some fp64
  | _ => none

/-- The width of a format code (Table 3.1). -/
def widthOfCode : Nat → Nat
  | 0 => 32
  | 1 => 16
  | 2 => 16
  | 3 => 8
  | 4 => 8
  | 5 => 4
  | 6 => 32
  | 7 => 32
  | 8 => 16
  | 9 => 8
  | 10 => 8
  | 11 => 4
  | 12 => 64
  | _ => 8

/-- Whether a code of Table 3.1 is a signed integer format, an unsigned one, or none. -/
def intKind : Nat → Option Bool
  | 6 => some true
  | 7 => some false
  | 8 => some true
  | 9 => some true
  | 10 => some false
  | 11 => some true
  | _ => none

/-- The low w bits of x, read as two's complement when signed. -/
def readInt (signed : Bool) (w x : Nat) : Int :=
  let u := x % 2 ^ w
  if signed && decide (2 ^ (w - 1) ≤ u) then (u : Int) - (2 ^ w : Nat) else (u : Int)

/-- The least number of an integer format of width w. -/
def intMin (signed : Bool) (w : Nat) : Int := if signed then -((2 ^ (w - 1) : Nat) : Int) else 0

/-- The greatest number of an integer format of width w. -/
def intMax (signed : Bool) (w : Nat) : Int := if signed then ((2 ^ (w - 1) : Nat) : Int) - 1 else ((2 ^ w : Nat) : Int) - 1

/-- A number clamped to a range. -/
def clampInt (lo hi n : Int) : Int := if n < lo then lo else if hi < n then hi else n

/-- Low bits of a number as CVT writes them: sign-extended to 32 for a signed format, zero-extended otherwise (R65). -/
def writeInt (signed : Bool) (w : Nat) (n : Int) : Nat :=
  let u := (n % ((2 ^ w : Nat) : Int)).toNat
  if signed && decide (2 ^ (w - 1) ≤ u) then 2 ^ 32 - 2 ^ w + u else u

/-- A finite value rounded to a whole number under the mode (R70). -/
def roundInt (mode : Nat) (neg : Bool) (m : Nat) (e : Int) : Int :=
  let mag : Nat :=
    if 0 ≤ e then m * 2 ^ e.toNat
    else
      let d := (-e).toNat
      let hi := m / 2 ^ d
      let lo := m % 2 ^ d
      let up := roundsUp mode neg (decide (hi % 2 = 1)) (decide (2 ^ (d - 1) ≤ lo)) (decide (lo % 2 ^ (d - 1) ≠ 0))
      hi + (if up then 1 else 0)
  if neg then -(mag : Int) else (mag : Int)

/-- Float to integer (R70, Table 3.5); 32 bits as CVT writes them. -/
def toInt (signed : Bool) (w mode : Nat) (sat : Bool) (v : Val) : Nat :=
  let lo := intMin signed w
  let hi := intMax signed w
  let indef := if signed then lo else hi
  let out (n : Int) : Nat := writeInt signed w n
  match v with
  | .nan => if sat then 0 else out indef
  | .inf neg => if sat then out (if neg then lo else hi) else out indef
  | .fin neg m e =>
    let n := roundInt mode neg m e
    if lo ≤ n ∧ n ≤ hi then out n
    else if sat then out (clampInt lo hi n)
    else out indef

/-- A value to E8M0 (R70): its code. -/
def toScale (mode : Nat) (sat : Bool) (v : Val) : Nat :=
  match v with
  | .nan => 255
  | .inf _ => if sat then 254 else 255
  | .fin _ m e =>
    if m = 0 then 0
    else
      let k := Nat.log2 m
      let exact := decide (m = 2 ^ k)
      let up := match mode with
        | 0 => decide (3 * 2 ^ k ≤ 2 * m)
        | 3 => !exact
        | _ => false
      let p : Int := e + (k : Int) + (if up then 1 else 0)
      if p < -127 then 0
      else if 127 < p then (if sat then 254 else 255)
      else (p + 127).toNat

/-- What CVT makes of a source (R70, R224): the result, and the two conditions of R78. -/
structure CvtResult where
  val : Nat
  nfin : Bool
  nfout : Bool
  deriving DecidableEq, Repr

/-- The source of a conversion: a number of an integer format or a floating value. -/
def cvtSource (u x : Nat) : Int ⊕ Val :=
  match intKind u with
  | some signed => .inl (readInt signed (widthOfCode u) x)
  | none =>
    match fmtOfCode u with
    | some f => .inr (fdec f (x % 2 ^ f.width))
    | none => .inr (e8m0 x)

/-- CVT: destination format t, source format u, mode r, saturate x (R70, R224). -/
def cvt (t u r : Nat) (sat : Bool) (x : Nat) : CvtResult :=
  match intKind t, cvtSource u x with
  | some signed, .inl n =>
    let w := widthOfCode t
    let v := if sat then clampInt (intMin signed w) (intMax signed w) n else n
    { val := writeInt signed w v, nfin := false, nfout := false }
  | some signed, .inr v =>
    { val := toInt signed (widthOfCode t) r sat v, nfin := v.nonfinite, nfout := false }
  | none, src =>
    let v : Val := match src with
      | .inl n => ofInt n
      | .inr v => v
    match fmtOfCode t with
    | some f =>
      let c := fenc f r sat v
      { val := c, nfin := v.nonfinite, nfout := !v.nonfinite && badCode f c }
    | none =>
      let c := toScale r sat v
      { val := c, nfin := v.nonfinite, nfout := !v.nonfinite && c == 255 }

/-! ## Dot products (R72 to R74) -/

/-- One group: acc + the exact sum of the products, rounded once to FP32. -/
def accGroup (acc : Nat) (ps : List Val) : Nat := fround fp32 ((fdec fp32 acc).add (sumVals ps))

/-- The first n elements of a list. -/
def firstN {α : Type} : Nat → List α → List α
  | 0, _ => []
  | _, [] => []
  | n + 1, a :: r => a :: firstN n r

/-- The list without its first n elements. -/
def afterN {α : Type} : Nat → List α → List α
  | 0, l => l
  | _, [] => []
  | n + 1, _ :: r => afterN n r

/-- DotAcc in groups of w (R72); `fuel` bounds the groups. -/
def dotAcc : Nat → Nat → Nat → List Val → Nat
  | 0, _, acc, _ => acc
  | _ + 1, _, acc, [] => acc
  | fuel + 1, w, acc, ps => dotAcc fuel w (accGroup acc (firstN w ps)) (afterN w ps)

/-- The products of two lists of values. -/
def products (as bs : List Val) : List Val := List.zipWith Val.mul as bs

/-! ## The special-function unit (R75, R76) -/

/-! ### The bounds of Table 3.8

EX2, LG2, SIN, COS and TANH are computed in fixed point with 512 fraction bits, by series whose rest is below 2^-480; a free result
counts where it lies within its bound of the value so found (log 21). -/

/-- One, with 512 fraction bits. -/
def fxOne : Int := 2 ^ 512

/-- The product of two such numbers. -/
def fxMul (a b : Int) : Int := a * b / fxOne

/-- Their quotient. -/
def fxDiv (a b : Int) : Int := a * fxOne / b

/-- m × 2^e as such a number. -/
def fxOf (neg : Bool) (m : Nat) (e : Int) : Int :=
  let n : Int := if 0 ≤ e + 512 then (m : Int) * 2 ^ (e + 512).toNat else (m : Int) / 2 ^ (-(e + 512)).toNat
  if neg then -n else n

/-- Such a number as a value. -/
def fxVal (a : Int) : Val := .fin (decide (a < 0)) a.natAbs (-512)

/-- The sum of n terms from term t, each made from the one before. -/
def fxSeries (next : Nat → Int → Int) : Nat → Nat → Int → Int
  | 0, _, _ => 0
  | n + 1, k, t => t + fxSeries next n (k + 1) (next k t)

/-- Σ p × q^k ÷ (2k + 1), n terms. -/
def fxOdd (q : Int) : Nat → Nat → Int → Int
  | 0, _, _ => 0
  | n + 1, k, p => p / (2 * (k : Int) + 1) + fxOdd q n (k + 1) (fxMul p q)

/-- The area tangent of z, for |z| ≤ 1/3. -/
def fxAtanh (z : Int) : Int := fxOdd (fxMul z z) 165 0 z

/-- ln 2. -/
def fxLn2 : Int := 2 * fxAtanh (fxOne / 3)

/-- 2π, by Machin's formula. -/
def fxTwoPi : Int := 32 * fxOdd (-(fxOne / 25)) 115 0 (fxOne / 5) - 8 * fxOdd (-(fxOne / 57121)) 35 0 (fxOne / 239)

/-- 2^x as a × 2^n with a in [1, 2). -/
def fxExp2 (x : Int) : Int × Int :=
  let y := fxMul (x % fxOne) fxLn2
  (fxSeries (fun k t => fxMul t y / ((k : Int) + 1)) 100 0 fxOne, x / fxOne)

/-- log2 of m × 2^e, for m not 0. -/
def fxLog2 (m : Nat) (e : Int) : Int :=
  let k := Nat.log2 m
  let u := fxOf false m (-(k : Int))
  (e + (k : Int)) * fxOne + fxDiv (2 * fxAtanh (fxDiv (u - fxOne) (u + fxOne))) fxLn2

/-- sin x, or cos x. -/
def fxSin (cos : Bool) (x : Int) : Int :=
  let y := x % fxTwoPi
  let z := fxMul y y
  if cos then fxSeries (fun k t => -(fxMul t z / ((2 * (k : Int) + 1) * (2 * (k : Int) + 2)))) 90 0 fxOne
  else fxSeries (fun k t => -(fxMul t z / ((2 * (k : Int) + 2) * (2 * (k : Int) + 3)))) 90 0 y

/-- tanh x, for 0 ≤ x < 9. -/
def fxTanh (x : Int) : Int :=
  let e := fxExp2 (fxDiv (2 * x) fxLn2)
  let w := e.1 * 2 ^ e.2.toNat
  fxDiv (w - fxOne) (w + fxOne)

/-- The ulp of a finite value in a format, with subnormal spacing below the smallest normal (R75). -/
def ulpOf (f : Fmt) (v : Val) : Val :=
  match v with
  | .fin _ m e =>
    let lead : Int := e + (Nat.log2 m : Int) - (f.man : Int)
    .fin false 1 (if lead < f.emin then f.emin else lead)
  | _ => .fin false 1 f.emin

/-- A value lies within a distance of another. -/
def withinOf (c x lim : Val) : Bool :=
  match c.add x.neg with
  | .fin _ m e => ((Val.fin false m e).cmp lim) != .gt
  | _ => false

/-- An open result with a bound: the free code where it is finite and within `lim` of the exact value, else the exact value rounded. -/
def bounded (f : Fmt) (free : Nat) (exact lim : Val) : Nat :=
  if !badCode f free && withinOf (fdec f free) exact lim then free else fround f exact

/-- n halves of an ulp. -/
def halfUlps (f : Fmt) (n : Nat) (v : Val) : Val := (ulpOf f v).mul (.fin false n (-1))

/-- The distance of c from a value's reciprocal is at most 1 ulp of the exact result (R75, RCP). -/
def rcpBound (c : Val) (x : Val) (ulp : Val) : Bool :=
  let err := (c.mul x).add (.fin true 1 0)
  let lim := ulp.mul x
  match err, lim with
  | .fin _ m e, .fin _ n d => ((Val.fin false m e).cmp (.fin false n d)) != .gt
  | _, _ => false

/-- RCP of a finite, non-zero value: the free result where it meets its bound, else the correctly rounded one. -/
def rcpFinite (free : Nat) (x : Val) : Nat :=
  let exact := Val.div (.fin false 1 0) x
  let best := fround fp32 exact
  let big := match x with
    | .fin _ m e => ((Val.fin false m e).cmp (.fin false 1 126)) == .gt
    | _ => false
  if !big && !badCode fp32 free && rcpBound (fdec fp32 free) x (ulpOf fp32 exact) then free else best

/-- RSQ of a positive finite value: the free result where it is within 2 ulp, else the correctly rounded one. -/
def rsqFinite (free : Nat) (x : Val) : Nat :=
  let root := Val.sqrt x
  let exact := Val.div (.fin false 1 0) root
  let best := fround fp32 exact
  let u := (ulpOf fp32 exact).mul (.fin false 2 0)
  let c := fdec fp32 free
  let lo := c.add u.neg
  let hi := c.add u
  let one : Val := .fin false 1 0
  let ok := !badCode fp32 free && !c.isNeg && !lo.isNeg &&
    (((lo.mul lo).mul x).cmp one) != .gt && (((hi.mul hi).mul x).cmp one) != .lt
  if ok then free else best

/-- 2^n for a whole n in the range of R76. -/
def exp2Code (f : Fmt) (n : Int) : Nat := fround f (.fin false 1 n)

/-- EX2 on the range of a format: inputs up to lo give 0, from hi up give ∞, and whole ones are exact (R76); between them the result is
within n2 halves of an ulp (R75). -/
def ex2 (f : Fmt) (lo hi : Int) (n2 : Nat) (free : Nat) (v : Val) : Nat :=
  match v with
  | .nan => f.nanCode
  | .inf true => 0
  | .inf false => f.infCode
  | .fin neg m e =>
    if m = 0 then exp2Code f 0
    else if (Val.cmp v (ofInt lo)) != .gt then 0
    else if (Val.cmp v (ofInt hi)) != .lt then f.infCode
    else
      let n := roundInt 1 neg m e
      if (Val.cmp v (ofInt n)) == .eq then exp2Code f n
      else
        let r := fxExp2 (fxOf neg m e)
        let exact : Val := .fin false r.1.natAbs (r.2 - 512)
        bounded f free exact (halfUlps f n2 exact)

/-- The whole logarithm of a power of two, if the value is one. -/
def powerOfTwo (m : Nat) (e : Int) : Option Int :=
  let k := Nat.log2 m
  if m = 2 ^ k then some (e + (k : Int)) else none

/-- An SFU function of one FP32 input, function codes of R227 (R75, R76, Table 3.8). -/
def sfu32 (fn x : Nat) : Nat :=
  let v := fdec fp32 x
  let free := (Config.sfu fn (BitVec.ofNat 32 x)).toNat
  let nan := fp32.nanCode
  match fn with
  | 0 => ex2 fp32 (-150) 128 3 free v
  | 1 =>
    match v with
    | .nan => nan
    | .inf s => if s then nan else fp32.infCode
    | .fin s m e =>
      if m = 0 then withSign fp32 true fp32.infCode
      else if s then nan
      else
        match powerOfTwo m e with
        | some n => fround fp32 (ofInt n)
        | none =>
          let exact := fxVal (fxLog2 m e)
          let near := (v.cmp (.fin false 1 (-1))) != .lt && (v.cmp (.fin false 2 0)) == .lt
          bounded fp32 free exact (if near then .fin false 1 (-22) else halfUlps fp32 4 exact)
  | 2 =>
    match v with
    | .nan => nan
    | .inf s => withSign fp32 s 0
    | .fin s m _ => if m = 0 then withSign fp32 s fp32.infCode else rcpFinite free v
  | 3 =>
    match v with
    | .nan => nan
    | .inf s => if s then nan else 0
    | .fin s m _ => if m = 0 then withSign fp32 s fp32.infCode else if s then nan else rsqFinite free v
  | 4 => fround fp32 v.sqrt
  | 5 =>
    match v with
    | .fin s m e => if m = 0 then withSign fp32 s 0 else bounded fp32 free (fxVal (fxSin false (fxOf s m e))) (.fin false 1 (-21))
    | _ => nan
  | 6 =>
    match v with
    | .fin s m e => if m = 0 then exp2Code fp32 0 else bounded fp32 free (fxVal (fxSin true (fxOf s m e))) (.fin false 1 (-21))
    | _ => nan
  | _ =>
    match v with
    | .nan => nan
    | .inf s => withSign fp32 s (exp2Code fp32 0)
    | .fin s m e =>
      if m = 0 then withSign fp32 s 0
      else if ((Val.fin false m e).cmp (ofInt 9)) != .lt then withSign fp32 s (exp2Code fp32 0)
      else
        let y := fxTanh (fxOf false m e)
        let exact := fxVal (if s then -y else y)
        let small := ((Val.fin false m e).cmp (.fin false 1 (-4))) == .lt
        bounded fp32 free exact (if small then .fin false 1 (-24) else halfUlps fp32 4 exact)

/-- EX2H of one half (R75, R76). -/
def ex2hHalf (x : Nat) : Nat := ex2 fp16 (-25) 16 2 (Config.ex2h (BitVec.ofNat 16 x)).toNat (fdec fp16 x)

end Sys2Proof.Machine
end

