-- ==== Sys2Proof/Machine/Event.lean ====
section
/-! DEFINITION. The events of the Z960 as the state keeps them while they are due or have arrived: one constructor per event
row of spec/opcode_table.json, with the arguments of the constructor of Instr that has the same name.  (A type of its own,
because Lean compiles no constructor that stands after about 244 others, and the state must be able to hold these.) -/

namespace Sys2Proof.Machine

/-- An event that is due, or an input that has arrived. -/
inductive Event where
  /-- INSTRUCTION_COMPLETION (R307) -/
  | instructionCompletion (bed : Nat) (sheaf : Nat) (op : Nat)
  /-- ATTEMPT_REPLAY (R370) -/
  | attemptReplay (core : Nat) (slot : Nat)
  /-- LATE_TRANSITION (R370) -/
  | lateTransition (core : Nat) (slot : Nat) (path : BitVec 3)
  /-- COMMIT_GATE_PASS (R376) -/
  | commitGatePass (core : Nat)
  /-- TAKE_TRAP (R341) -/
  | takeTrap (bed : Nat) (sheaf : Nat) (cause : BitVec 5) (pc : BitVec 64) (tmask : BitVec 32) (detail : BitVec 32)
  /-- WATCHDOG_TRAP (R38) -/
  | watchdogTrap (bed : Nat) (sheaf : Nat)
  /-- NMCALL_REPLY (R25) -/
  | nmcallReply (batch : Nat) (call : Nat)
  /-- BARRIER_WAKE (R256) -/
  | barrierWake (bed : Nat) (sheaf : Nat)
  /-- TILE_WAKE (R95) -/
  | tileWake (bed : Nat) (sheaf : Nat)
  /-- QUEUE_WAKE (R101) -/
  | queueWake (plot : Nat) (addr : BitVec 32)
  /-- SPLIT_GRANT (R33) -/
  | splitGrant (bed : Nat)
  /-- PAGE_FAULT (R351) -/
  | pageFault (bed : Nat) (sheaf : Nat) (entry : Nat)
  /-- FETCH_PAGE_FAULT (R351) -/
  | fetchPageFault (bed : Nat) (sheaf : Nat) (va : BitVec 64)
  /-- PROTECTION_VIOLATION (R240) -/
  | protectionViolation (bed : Nat) (sheaf : Nat) (entry : Nat)
  /-- RESUME_RETRY (R354) -/
  | resumeRetry (fn : Nat) (token : BitVec 32)
  /-- RESUME_FAIL (R354) -/
  | resumeFail (fn : Nat) (token : BitVec 32)
  /-- SNAPSHOT_COPY (R359) -/
  | snapshotCopy (asid : BitVec 16) (va : BitVec 64)
  /-- REGISTER_LINE_FILL (R51) -/
  | registerLineFill (bed : Nat) (sheaf : Nat) (reg : Nat)
  /-- LINE_DROWSY (R50) -/
  | lineDrowsy (bed : Nat) (sheaf : Nat) (reg : Nat)
  /-- LINE_WAKE (R50) -/
  | lineWake (bed : Nat) (sheaf : Nat) (reg : Nat)
  /-- COPY_COMPLETION (R263) -/
  | copyCompletion (copy : Nat)
  /-- COPY_TRANSFER_FAILURE (R264) -/
  | copyTransferFailure (copy : Nat) (hostError : Bool)
  /-- COPY_PAGE_FAULT (R264) -/
  | copyPageFault (copy : Nat)
  /-- TMM_K_STEP (R278) -/
  | tmmKStep (core : Nat)
  /-- TMM_COMPLETION (R278) -/
  | tmmCompletion (core : Nat)
  /-- BANK_SWITCH_COMPLETION (R86) -/
  | bankSwitchCompletion (bed : Nat) (sheaf : Nat) (op : Nat) (bank : BitVec 9) (mode : BitVec 2)
  /-- BARRIER_ARRIVAL (R254) -/
  | barrierArrival (asid : BitVec 16) (plot : Nat) (ref : BitVec 64) (count : BitVec 16) (status : BitVec 8)
  /-- BED_EXIT (R39) -/
  | bedExit (bed : Nat)
  /-- WAVE_START (R36) -/
  | waveStart (bed : Nat)
  /-- PREEMPTION (R349) -/
  | preemption (bed : Nat)
  /-- BED_RESUME (R349) -/
  | bedResume (bed : Nat)
  /-- LAUNCH_KILL (R360) -/
  | launchKill (launch : Nat) (cause : BitVec 5)
  /-- LAUNCH_REPLAY (R362) -/
  | launchReplay (launch : Nat)
  /-- DOORBELL (R408) -/
  | doorbell (fn : Nat) (q : BitVec 16) (tail : BitVec 64)
  /-- QCMD_ENABLE (R407) -/
  | qcmdEnable (fn : Nat) (q : BitVec 16)
  /-- QCMD_DISABLE (R408) -/
  | qcmdDisable (fn : Nat) (q : BitVec 16)
  /-- ARBITER_PICK (R331) -/
  | arbiterPick
  /-- DEPENDENCE_SATISFIED (R330) -/
  | dependenceSatisfied (launch : Nat)
  /-- BED_PLACEMENT (R334) -/
  | bedPlacement (launch : Nat)
  /-- LAUNCH_COMPLETION (R338) -/
  | launchCompletion (launch : Nat)
  /-- INVAL (R357) -/
  | inval (asid : BitVec 16) (va : BitVec 64) (pages : BitVec 32)
  /-- BAR4_ACCESS (R135) -/
  | bar4Access (fn : Nat) (off : BitVec 64) (size : Nat) (wdata : Option (List (BitVec 8)))
  /-- REGISTER_WRITE (R404) -/
  | registerWrite (fn : Nat) (off : BitVec 16) (value : BitVec 64)
  /-- ARBPOL_WRITE (R333) -/
  | arbpolWrite (value : BitVec 32)
  /-- DEBUG_FLUSH (R366) -/
  | debugFlush (bed : Nat) (sheaf : Nat) (reg : Nat)
  /-- DEBUGGER_RELEASE (R364) -/
  | debuggerRelease (bed : Nat) (sheaf : Option Nat)
  /-- WINDOW_BOUNDARY (R368) -/
  | windowBoundary (core : Nat)
  /-- AUTOMATIC_RAISE (R372) -/
  | automaticRaise (core : Nat)
  /-- QUARANTINE (R373) -/
  | quarantine (core : Nat) (why : BitVec 2)
  /-- QUARANTINE_COMMAND (R373) -/
  | quarantineCommand (core : Nat)
  /-- RELEASE (R415) -/
  | release (core : Nat)
  /-- MARGIN_PROFILE (R414) -/
  | marginProfile (core : Nat) (code : BitVec 8)
  /-- POWER_BUDGET (R416) -/
  | powerBudget (matrix : Nat) (near : Nat) (links : Nat)
  /-- LREMAP_WRITE (R418) -/
  | lremapWrite (core : Nat) (slot : Nat) (value : BitVec 32)
  /-- PDTEST_WRITE (R397) -/
  | pdtestWrite (port : Nat) (value : BitVec 64)
  /-- IMAGE_LOAD (R411) -/
  | imageLoad (image : List (BitVec 8))
  /-- SVN_MINIMUM_RAISE (R411) -/
  | svnMinimumRaise (kind : BitVec 8)
  /-- ATTESTATION (R413) -/
  | attestation (nonce : BitVec 512)
  /-- AMSAN_KEY_INSTALL (R399) -/
  | amsanKeyInstall (port : Nat) (out : Bool) (key : BitVec 256) (salt : BitVec 32)
  /-- AMSAN_FRAME (R399) -/
  | amsanFrame (port : Nat) (frame : List (BitVec 8))
  /-- PEER_GROUP_REGISTRATION (R398) -/
  | peerGroupRegistration (handle : BitVec 16) (ranks : List (BitVec 8)) (ports : BitVec 8) (mcast : BitVec 32) (inSwitch : Bool) (endToEnd : Bool)
  /-- INDEX_REGISTRATION (R150) -/
  | indexRegistration (asid : BitVec 16) (va : BitVec 64)
  /-- SEARCH_REGISTRATION (R154) -/
  | searchRegistration (qid : Nat)
  /-- SEARCH_SETUP (R159) -/
  | searchSetup (qid : Nat)
  /-- SPAWN (R161) -/
  | spawn (engine : Nat)
  /-- WALKER (R160) -/
  | walker (engine : Nat)
  /-- CANDS (R163) -/
  | cands (engine : Nat)
  /-- POPREQ (R164) -/
  | popreq (engine : Nat)
  /-- POPREP (R291) -/
  | poprep (engine : Nat)
  /-- DREQ (R163) -/
  | dreq (engine : Nat)
  /-- ENDW (R164) -/
  | endw (engine : Nat)
  /-- VERSION_COMMIT (R153) -/
  | versionCommit (bed : Nat) (sheaf : Nat) (op : Nat) (handle : BitVec 32) (expected : BitVec 32)
  /-- QUEUE_DEADLOCK_FAULT (R139) -/
  | queueDeadlockFault (engine : Nat) (ctx : Nat)
  /-- ENGINE_FAULT (R169) -/
  | engineFault (engine : Nat) (ctx : Nat) (code : BitVec 8)
  /-- COLLECTIVE_FIRE (R387) -/
  | collectiveFire (launch : Nat) (binding : Nat) (index : BitVec 32) (bed : Nat) (sheaf : Option Nat)
  /-- STEP_START (R388) -/
  | stepStart (coll : Nat)
  /-- PACKET_FORMING (R393) -/
  | packetForming (coll : Nat)
  /-- DATA (R388) -/
  | data (pkt : Nat)
  /-- CODED (R396) -/
  | coded (pkt : Nat) (port : Nat)
  /-- ACK (R388) -/
  | ack (pkt : Nat)
  /-- NACK (R396) -/
  | nack (pkt : Nat)
  /-- STEP_TIMEOUT (R388) -/
  | stepTimeout (coll : Nat)
  /-- DIE_RESET (R85) -/
  | dieReset (die : Nat)
  /-- PACKAGE_RESET (R425) -/
  | packageReset
  /-- POWER_ON (R412) -/
  | powerOn (rom : BitVec 512)
  /-- NMCALL_BATCH (R166) -/
  | nmcallBatch (batch : Nat)
  /-- REGULATOR_SETTLED (R368) -/
  | regulatorSettled (core : Nat)
  /-- MANAGEMENT_RESTART (R412) -/
  | managementRestart
  /-- POWER_OFF (R409) -/
  | powerOff
  /-- DAMAGED_FLIT (R383) -/
  | damagedFlit (pkt : Nat)
  /-- PLANE_BUDGET_REACHED (R416) -/
  | planeBudgetReached (plane : Nat) (reached : Bool)
  /-- READ_AND_CLEAR (R374) -/
  | readAndClear (core : Nat) (index : BitVec 10)
  /-- the management processor writes a margin register (R374); no row of the table -/
  | marginWrite (core : Nat) (index : BitVec 10) (value : BitVec 32)
  /-- the host reads BAR0 or BAR2 (R403, R404); no row of the table -/
  | barRead (fn : Nat) (bar : Nat) (off : BitVec 64) (size : Nat)
  /-- the host sets or clears Memory Space Enable of a function (R406); no row of the table -/
  | memorySpace (fn : Nat) (on : Bool)
  /-- the host masks or unmasks a vector of a function (R408); no row of the table -/
  | vectorMask (fn : Nat) (vector : Nat) (on : Bool)
  /-- the host writes its own memory (R135); no row of the table -/
  | hostWrite (addr : BitVec 64) (bytes : List (BitVec 8))
  /-- an ordered access whose release an exclusive batch held back is made (R168); no row of the table -/
  | heldAccess (bed : Nat) (sheaf : Nat) (entry : Nat)
  /-- a message of an engine's hardware that waited for room is sent (R162); no row of the table -/
  | messageSend (engine : Nat)
  /-- a distance request sends its next answer (R163); no row of the table -/
  | requestAnswer (engine : Nat) (ctx : Nat)
  deriving DecidableEq, Repr

end Sys2Proof.Machine
end

