-- ==== Sys2Proof/Machine/State.lean ====
section
/-! DEFINITION. The state of a Z960 package as plain data, its reset, and why a step may stop.
Each structure names the rules that give its fields; INVENTORY.md lists every piece with its width and reset value. -/

namespace Sys2Proof.Machine

/-! ## Sheaves (chapters 1, 2, 7 and 17) -/

/-- The form a lane register's tag selects (R46): one value, a base and a stride, or 32 values. -/
inductive Form where
  | u (x : Word)
  | a (b s : Word)
  | g (vals : List Word)
  deriving DecidableEq, Repr

/-- The state of a register's line in the register cache (Table 2.3, R50). -/
inductive LineState where
  | present
  | drowsy
  | absent
  deriving DecidableEq, Repr

/-- A lane register: its tagged form, a poison bit for each lane (R55) and its line. -/
structure VReg where
  form : Form
  poison : Mask
  line : LineState
  /-- the narrow line that it shares while its tag is U or A, and that an eviction took with it (R50); 0 where it holds a line of its own, or
  none yet -/
  row : Nat
  /-- when it was last used (R52, R311) -/
  used : Nat
  deriving DecidableEq, Repr

/-- A lane register at bed start: 0, tag U, no poison (R41), in a line that was never filled (Table 2.3). -/
def VReg.reset : VReg := { form := .u 0#32, poison := 0#32, line := .absent, row := 0, used := 0 }

/-- What a thread in WAIT waits for (Table 1.1). -/
inductive WaitFor where
  /-- the phase of a barrier object (WAITB, R256) -/
  | barrier
  /-- a tile to be READY (R95) -/
  | tile (handle : Nat)
  /-- room in the queue at a scratch address (R101) -/
  | push (addr : Nat)
  /-- an element in the queue at a scratch address (R101) -/
  | pop (addr : Nat)
  /-- the matrix token (R29) -/
  | token
  /-- a split of another bed's interval, by a TNEXT that writes gD (R32); the threads of one TNEXT share a name -/
  | split (d : Nat) (group : Nat)
  deriving DecidableEq, Repr

/-- The park state of a thread (R8, Table 1.1); STOP is the overlay `Sheaf.stopM` and `Sheaf.bedStop`. -/
inductive Park where
  | run
  | join (k : BitVec 4)
  | pool
  | wait (w : WaitFor)
  | done
  deriving DecidableEq, Repr

/-- A trap record (Table 17.2). -/
structure TrapRec where
  cause : Word
  tpc : DWord
  trpc : DWord
  prec : Bool
  restart : Bool
  keep : Bool
  handler : Bool
  paired : Bool
  lost : Bool
  hact : BitVec 2
  treg : DWord
  tregcnt : Word
  tmask : Mask
  tlanes : Mask
  tlanes2 : Mask
  tdetail : Word
  taddr : DWord
  tinst0 : Word
  tinst1 : Word
  deriving DecidableEq, Repr

/-- The record with every field at its reset value (Table 17.2). -/
def TrapRec.reset : TrapRec :=
  { cause := 0#32, tpc := 0#64, trpc := 0#64, prec := false, restart := false, keep := false, handler := false,
    paired := false, lost := false, hact := 0#2, treg := 0#64, tregcnt := 0#32, tmask := 0#32, tlanes := 0#32,
    tlanes2 := 0#32, tdetail := 0#32, taddr := 0#64, tinst0 := 0#32, tinst1 := 0#32 }

/-- A result that a long-latency instruction has formed and not yet written (R180). -/
inductive PWrite where
  /-- lanes of `mask` of the physical lane register that each lane's window names -/
  | lanes (phys : List Nat) (mask : Mask) (vals : List Word) (poison : Mask)
  /-- a group register -/
  | group (n : Nat) (val : Word) (poison : Bool)
  /-- one row of a tile of a quarter unit -/
  | row (unit tile row : Nat) (vals : List Word)
  deriving DecidableEq, Repr

/-- A trap that an instruction raises after issue (R220, R240). -/
structure LateTrap where
  cause : Nat
  lanes : Mask
  lanes2 : Mask
  detail : Word
  addr : DWord
  deriving DecidableEq, Repr

/-- An issued long-latency instruction whose results are not written (R180, R348). -/
structure LongOp where
  id : Nat
  /-- its instruction: the part that waits in the operand log shares it with the part that does not (R351) -/
  instr : Nat
  pc : DWord
  ctl : Mask
  exm : Mask
  inst0 : Word
  inst1 : Word
  writes : List PWrite
  seenIn : Bool
  seenOut : Bool
  trap : Option LateTrap
  /-- its results are formed; false while an engine or a logged lane still owes them -/
  ready : Bool
  /-- a thread of its control set has issued a younger instruction (R220) -/
  younger : Bool
  /-- it tests the non-finite conditions (R78) -/
  tested : Bool
  handler : Bool
  /-- instructions left in the lookahead span of each thread (R180) -/
  spans : List Nat
  /-- replays of its unit operation (R371) -/
  replays : Nat
  /-- the trap enables when a TMM issued, which it keeps through MDRAIN and MFILL (R80) -/
  nfin : Bool := false
  nfout : Bool := false
  deriving DecidableEq, Repr

/-- The operation of a memory access. -/
inductive AccOp where
  | load (signed : Bool)
  | store
  | atomic (kind : BitVec 5)
  /-- an instruction held whole that issues again once its page is served (R351); whether it needs W -/
  | reissue (write : Bool)
  deriving DecidableEq, Repr

/-- A global access with the addresses and data its lanes read at issue (R238, R351). -/
structure Access where
  op : AccOp
  sc : Scope
  /-- bytes of one lane's access -/
  size : Nat
  addrs : List DWord
  data : List (List Word)
  poisonAddr : Mask
  /-- the scope of an ordered access, or where an atomic runs (Table 5.1) -/
  scope : Nat
  acquire : Bool
  release : Bool
  transient : Bool
  deriving DecidableEq, Repr

/-- An entry of a sheaf's operand log (R351, R352). -/
structure LogEnt where
  acc : Access
  pc : DWord
  ctl : Mask
  inst0 : Word
  inst1 : Word
  mask : Mask
  token : Word
  /-- the long-latency instruction whose results it owes, if any -/
  op : Option Nat
  /-- a thread of its control set has issued a younger instruction (R240) -/
  younger : Bool
  handler : Bool
  /-- the fault-queue kind of its lowest faulting lane (Table 17.6) -/
  kind : Nat
  /-- a RESUME code that arrived while the bed was pre-empted (R354) -/
  resumed : Option (BitVec 2)
  deriving DecidableEq, Repr

/-- Where the dispatcher placed a sheaf (R27, R60, R334). -/
structure Place where
  core : Nat
  slot : Nat
  pos : Nat
  index : Nat
  roleCode : BitVec 8
  roleEntry : Nat
  budget : Nat
  deriving DecidableEq, Repr

/-- A sheaf: 32 threads and the registers they share (R8, R41, R344). -/
structure Sheaf where
  pcs : List DWord
  on : Mask
  park : List Park
  stopM : Mask
  wb : List Nat
  regionPc : List DWord
  skip : List Nat
  /-- physical lane registers 0 to 511; 512 to 543 are the handler lane registers (R343) -/
  v : Map VReg
  /-- g0 to g127; 128 to 159 are the handler group registers (R343) -/
  g : Map Word
  gp : Map Bool
  je : Map Word
  ja : Map Word
  spc : Map Byte
  regionCnt : Word
  nfin : Bool
  nfout : Bool
  precfp : Bool
  seenin : Bool
  seenout : Bool
  cychi : Word
  handler : Bool
  hpc : DWord
  /-- the trap-handler image it runs in handler mode (Table 20.7) -/
  himg : Nat
  record : TrapRec
  pend : List TrapRec
  tdrop : Word
  sstep : Bool
  stopBed : Bool
  bpen : BitVec 4
  bp : Map DWord
  /-- the threads of a single step in progress (R365), and the PC they stepped from -/
  stepping : Option (Mask × DWord)
  long : List LongOp
  oplog : Map LogEnt
  place : Place
  wdcnt : Nat
  wdDue : Bool
  lastIssue : Nat
  /-- sheaves of the slot, as bed and sheaf, that go first after a yield (R37) -/
  yieldFor : List (Nat × Nat)
  /-- the token was held at pre-emption (R30) -/
  tokSaved : Bool
  /-- what a debugger's flush of the stopped sheaf left in the image: key 2n the value and 2n + 1 the poison word of group register
  n, 4096 + o the word at offset o of the slot state; what the debugger changes there is filled again (R366) -/
  flushed : Map Word
  /-- another sheaf's STOPBED holds it in STOP (R364) -/
  bedStop : Bool
  /-- the lanes whose replies an NMCALL of the handler awaits (R283, R343) -/
  hpool : Mask
  /-- the image gave it the tag vector of no sheaf: its first issue traps (R62) -/
  badTags : Bool
  /-- instructions left to each thread in the spans of long-latency instructions that are complete (R307) -/
  span : List Nat
  /-- the release that a FENCE.rel or FENCE.ar of each thread has yet to make before the thread's next store: the scope code plus 1, or 0
  (R114, R122) -/
  owed : List Nat
  deriving DecidableEq, Repr

/-! ## Beds, cores and plots (chapters 1, 4, 5, 11 and 18) -/

/-- How far a bed has come (R36, R39, R349). -/
inductive BedStage where
  | resident
  | preempted
  | exited
  deriving DecidableEq, Repr

/-- The TMM in a core's sequencer (Table 11.5, R278). -/
structure Tmm where
  bed : Nat
  sheaf : Nat
  slot : Nat
  pos : Nat
  hdrA : Word
  hdrB : Word
  hdrC : Word
  d : BitVec 7
  ref : DWord
  pc : DWord
  step : Nat
  block : Nat
  /-- m7 holds the rows of the block in progress -/
  loaded : Bool
  /-- its range-lock entries in the plot -/
  locks : List Nat
  op : Option Nat
  replays : Nat
  /-- attempts of its first step still to come that an injector makes late (R375) -/
  late : Nat
  /-- the trap enables when it issued (R80) -/
  nfin : Bool
  nfout : Bool
  /-- conditions met so far, of a TMM whose pending result is not known: SEENIN and SEENOUT follow at its end (R79) -/
  seenIn : Bool := false
  seenOut : Bool := false
  deriving DecidableEq, Repr

/-- A bed of a launch (R31, R334, R349). -/
structure Bed where
  launch : Nat
  linear : Nat
  x : Nat
  y : Nat
  z : Nat
  core : Nat
  posn : Nat
  lo : Word
  hi : Word
  total : Nat
  sheaves : Map Sheaf
  stage : BedStage
  /-- device physical address of its image (R350), once it has one -/
  image : Option Nat
  /-- BEXIT has been issued: no wave starts (R36, R40) -/
  bexit : Bool
  /-- the role entries that watchers boost, one list for each watcher (R335) -/
  boosts : Map (List Nat)
  /-- the sheaf that stopped the whole bed (R364) -/
  stopper : Option Nat
  /-- its image holds the plot block of its launch's beds on the plot while they are pre-empted (R89) -/
  savedPlot : Bool
  /-- the name of the group that it was pre-empted with (R89) -/
  group : Nat
  /-- the banks the dispatcher gave it, with their modes (R88) -/
  banks : List (Nat × BitVec 2)
  /-- the stopped TMM of a pre-empted bed that held the matrix claim (R281) -/
  tmm : Option Tmm
  /-- it held the matrix claim when it was pre-empted -/
  claimed : Bool
  deriving DecidableEq, Repr

/-- A tile-table entry (Table 4.4). -/
structure Tile where
  state : BitVec 2
  poison : Bool
  bound : Bool
  bed : BitVec 2
  handle : BitVec 5
  base : BitVec 14
  sizem1 : BitVec 14
  lock : BitVec 5
  lockv : Bool
  deriving DecidableEq, Repr

/-- An unbound tile-table entry (Table 4.4). -/
def Tile.reset : Tile :=
  { state := 0#2, poison := false, bound := false, bed := 0#2, handle := 0#5, base := 0#14, sizem1 := 0#14, lock := 0#5,
    lockv := false }

/-- A range-lock entry (Table 5.5). -/
structure Lock where
  valid : Bool
  dest : Bool
  space : BitVec 2
  bed : BitVec 2
  engine : BitVec 2
  core : BitVec 2
  asid : BitVec 16
  lo : Nat
  hi : Nat
  deriving DecidableEq, Repr

/-- A free range-lock entry (Table 5.5). -/
def Lock.reset : Lock :=
  { valid := false, dest := false, space := 0#2, bed := 0#2, engine := 0#2, core := 0#2, asid := 0#16, lo := 0, hi := 0 }

/-- A cached word: its value, its poison and the bytes that are dirty; a word with a dirty byte is owned (R121). -/
structure CWord where
  data : Word
  poison : Bool
  dirty : BitVec 4
  deriving DecidableEq, Repr

/-- Threads parked at a queue, in order (R101). -/
structure QWait where
  addr : Nat
  push : Bool
  bed : Nat
  sheaf : Nat
  pc : DWord
  mask : Mask
  /-- the element's register, and whether it is a lane register -/
  d : BitVec 7
  lane : Bool
  deriving DecidableEq, Repr

/-- A plot: the SRAM, tile table and range locks of one cluster (R83, R85, R92, R126). -/
structure Plot where
  bankMode : Map (BitVec 2)
  /-- the owning bed of each owned bank -/
  bankOwner : Map Nat
  /-- bytes of the SCRATCH and FIFO banks by scratch address; an unlisted byte is 0 (R86) -/
  scratch : List Host.Cell
  /-- poison marks of 32-byte granules (R97) -/
  marks : Map Bool
  tiles : Map Tile
  locks : Map Lock
  l1 : Map CWord
  qwait : List QWait
  deriving DecidableEq, Repr

/-- A plot after reset: every bank in CACHE mode and unowned (R85). -/
def Plot.reset : Plot :=
  { bankMode := [], bankOwner := [], scratch := [], marks := [], tiles := [], locks := [], l1 := [], qwait := [] }

/-- The margin registers of a core (Table 18.3). -/
structure Margin where
  target : BitVec 4
  rlim : BitVec 3
  wexp : BitVec 4
  rthr : BitVec 12
  qlim : BitVec 4
  cur : BitVec 4
  ramp : Bool
  repl : BitVec 16
  mtrap : BitVec 8
  raise : BitVec 8
  wrepl : BitVec 16
  wtrap : BitVec 4
  inj0 : Word
  inj1 : Word
  quar : Bool
  qwhy : BitVec 2
  injen : Bool
  qcnt : Byte
  /-- an automatic raise or a margin trap has fallen in the current window (R368) -/
  raised : Bool
  deriving DecidableEq, Repr

/-- The margin registers after reset (Table 18.3). -/
def Margin.reset : Margin :=
  { target := 0#4, rlim := 3#3, wexp := 6#4, rthr := 256#12, qlim := 4#4, cur := 0#4, ramp := false, repl := 0#16,
    mtrap := 0#8, raise := 0#8, wrepl := 0#16, wtrap := 0#4, inj0 := 0#32, inj1 := 0#32, quar := false, qwhy := 0#2,
    injen := false, qcnt := 0#8, raised := false }

/-- The PC group that issues (R10): its sheaf, the PC, the control set and the fetched words. -/
structure Cur where
  bed : Nat
  sheaf : Nat
  pc : DWord
  ctl : Mask
  /-- 4, or 8 for an EXT pair -/
  len : Nat
  inst0 : Word
  inst1 : Word
  /-- the sheaf before the first pick's writes, for the second pick of a pair (R19), or the held sources of a replay (R370) -/
  before : Option Sheaf
  deriving DecidableEq, Repr

/-- An instruction or unit operation whose attempt met a late transition (R370). -/
structure Attempt where
  /-- the PC group and its words as it issued; `before` holds the register values its first attempt read -/
  cur : Cur
  slot : Nat
  replays : Nat
  /-- attempts still to come that an injector makes late (R375) -/
  late : Nat
  /-- its next attempt may start -/
  ready : Bool
  /-- the pending result whose unit operation runs again, for one that is late after issue -/
  op : Option Nat
  /-- group registers that a second pick wrote beside a first pick that runs again, and the bits: they remain (R19) -/
  left : List (Nat × Mask)
  deriving DecidableEq, Repr

/-- An operation that waits at a core's commit gate (R376). -/
inductive GateOp where
  /-- the fire of a collective binding at a bed's exit (R39) -/
  | fire (launch binding index bed : Nat)
  deriving DecidableEq, Repr

/-- A core (R5, R29, R45, R61, R84, R374, R417). -/
structure Core where
  bstore : List Host.Cell
  /-- poison marks of 64-byte units of the B-store (R244) -/
  bsPoison : Map Bool
  /-- the launches whose B-store range this core holds (R84, R338) -/
  bsOwn : List Nat
  /-- accumulator rows: key (unit × 8 + tile) × 8 + row, sixteen words; an unlisted row is +0.0 (R41, R45) -/
  acc : Map (List Word)
  /-- the bed that holds the matrix claim (R45) -/
  claim : Option Nat
  token : Option (Nat × Nat)
  tokQ : List (Nat × Nat)
  frozen : Bool
  tmm : Option Tmm
  margin : Margin
  perf : Map Word
  gate : List GateOp
  attempts : Map Attempt
  /-- the path of a late transition that the next attempt of a slot meets (R369), by slot -/
  lateNext : Map Nat
  lremap : Map Word
  /-- issue slots that the management plane marked unavailable (R418) -/
  slotDead : List Nat
  /-- lane remaps that RELEASE applies (R415) -/
  pendingRemap : Map Word
  profile : Byte
  raiseN : Nat
  /-- issue credits: key slot × 16 + role entry of the launch that has the slot's credit table, by launch (R336) -/
  credits : Map (Map Nat)
  /-- the self-test of RELEASE met a margin event (R415) -/
  testEvent : Bool
  deriving DecidableEq, Repr

/-- A core after reset (Table 2.7, Table 18.3, R85); MRGSTAT.FLOOR is a fuse, a constant of Config. -/
def Core.reset : Core :=
  { bstore := [], bsPoison := [], bsOwn := [], acc := [], claim := none, token := none, tokQ := [], frozen := false, tmm := none,
    margin := Margin.reset, perf := [], gate := [], attempts := [], lateNext := [], lremap := [], slotDead := [], pendingRemap := [],
    profile := 0#8, raiseN := 1, credits := [], testEvent := false }

/-- A die: its core-cycle counter (R60) and the number of its next event (R421). -/
structure Die where
  cycle : DWord
  seq : Word
  deriving DecidableEq, Repr

/-- A COPY or COPYOUT in flight (R261 to R264). -/
structure CopyOp where
  bed : Nat
  sheaf : Nat
  launch : Nat
  core : Nat
  posn : Nat
  out : Bool
  /-- w0 to w23 of the layout record -/
  record : List Word
  /-- the packed side: tile handle, B-store address or VA (R261) -/
  packed : DWord
  /-- the tile-table entry of a KIND 0 copy -/
  tile : Option Nat
  ref : DWord
  op : Option Nat
  locks : List Nat
  /-- suspended at a page fault until RESUME names the token (R264) -/
  stalled : Option Word
  /-- the driver failed its page fault (R354) -/
  failed : Bool
  deriving DecidableEq, Repr

/-- Threads parked at a barrier object (WAITQ, R250, R256): the object's location, the waiter and its instruction. -/
structure BWait where
  /-- true for a scratch object -/
  scratch : Bool
  plot : Nat
  /-- physical address of a global object, scratch address of a scratch object -/
  loc : Nat
  asid : BitVec 16
  bed : Nat
  sheaf : Nat
  pc : DWord
  mask : Mask
  d : BitVec 7
  /-- its phase has ended and its wake is due -/
  woken : Bool
  deriving DecidableEq, Repr

/-! ## Launches (chapter 16) -/

/-- How far a launch has come (R329, R334, R338). -/
inductive LaunchStage where
  | pool
  | placing
  | running
  | completing
  /-- killed, with its replay due (R362) -/
  | killed
  | done
  deriving DecidableEq, Repr

/-- A launch (R328, R338, R359 to R362, R425). -/
structure Launch where
  record : BitVec 2048
  pins : List (BitVec 128)
  regions : List (BitVec 128)
  binds : List (BitVec 512)
  fn : Nat
  queue : Nat
  level : Nat
  asid : BitVec 16
  tag : Word
  ident : DWord
  lrva : DWord
  attempts : Nat
  stage : LaunchStage
  nextBed : Nat
  exited : Nat
  dropped : Bool
  touched : List DWord
  /-- pages saved before their first write: page number and pool page number (R359) -/
  snaps : List (Nat × Nat)
  /-- fired chunks of each binding: key binding × 2^32 + index (R286) -/
  fired : Map Bool
  collFail : Option (Nat × Nat)
  /-- the status and detail of a launch that completes without running -/
  early : Option (Nat × Nat)
  /-- the die of the core whose trap asks for a kill (R421) -/
  killDie : Option Nat
  /-- that core (R360), and the number of the log entry of the cause, where it was logged (R421) -/
  killCore : Option Nat := none
  killSeq : Option Word := none
  /-- the KIND 1 image whose arbiter picked it (Table 20.7) -/
  pickImage : Nat := 0
  /-- cores whose matrix claim its exited beds hold until it completes (R338) -/
  claims : List Nat
  slotHeld : Bool
  order : Nat
  /-- it has left the arbiter for the dispatcher, which lets its queue's next entry be picked (R332) -/
  left : Bool
  /-- every dependence has held at one moment since it entered the pool (R329) -/
  met : Bool
  /-- when its last bed was placed (R337) -/
  placed : Nat
  deriving DecidableEq, Repr

/-! ## Search in the memory stacks (chapter 6) -/

/-- What blocks a thread of a pair (R137, R138, R162). -/
inductive NWait where
  | ready
  | push (q : Nat)
  | pop (q : Nat)
  | send
  /-- the registers of its MSG.RECV: header and body -/
  | recv (h a : Nat)
  | ended
  deriving DecidableEq, Repr

/-- One thread of a pair (R136, R140). -/
structure NThr where
  pc : Nat
  g : Map DWord
  v : Map (List Word)
  wait : NWait
  deriving DecidableEq, Repr

/-- What a context holds (R136). -/
inductive CtxKind where
  | setup (qid : Nat)
  | walker (qid : Nat)
  | nmcall (batch : Nat)
  /-- a distance request of a search: it runs no pair thread -/
  | request (qid : Nat)
  deriving DecidableEq, Repr

/-- A context of a bank engine: a pair of threads and its queues (R136, R138). -/
structure Ctx where
  kind : CtxKind
  /-- the near-profile library it runs (Table 20.7) -/
  lib : Nat
  fetch : NThr
  math : NThr
  fwd : List (List Word)
  ret : List (BitVec 128)
  grant : Map Byte
  grantSize : Nat
  /-- g31, the context status register (R287) -/
  status : DWord
  /-- it holds a node that a POPREP handed out (R164) -/
  holds : Bool
  /-- DREQs sent and not yet reported (R163) -/
  dreqs : Nat
  /-- it has sent its ENDW -/
  endSent : Bool
  /-- the DRAM bytes that it has written in its batch (R166) -/
  wrote : Map Bool
  /-- candidates, each a key and an identifier, of the CANDS that a distance request has yet to send, message by message (R163) -/
  answers : List (List (Word × Nat))
  deriving DecidableEq, Repr

/-- A heap entry (R148). -/
structure HeapEnt where
  key : Word
  ident : Nat
  expanded : Bool
  deriving DecidableEq, Repr

/-- A chain of heaps and the context or search that owns it (R148, R290). -/
structure Chain where
  first : Nat
  heaps : Nat
  ctx : Option Nat
  qid : Option Nat
  ents : List HeapEnt
  deriving DecidableEq, Repr

/-- A message between engines (R161). -/
structure Msg where
  header : BitVec 128
  body : BitVec 512
  /-- what its sender, a walker, still held and owed: a node, and DREQs not yet reported (R164, R169) -/
  holds : Bool
  dreqs : Nat
  deriving DecidableEq, Repr

/-- A bank engine (R136). -/
structure Engine where
  ctxs : Map Ctx
  /-- query-buffer bytes: 16 slots of 4 KiB -/
  qbuf : Map Byte
  chains : List Chain
  rx : List Msg
  /-- spawns, hops and distance requests that wait for a context, in order of arrival, outside the receive queue (R159, R162) -/
  waits : List Msg := []
  /-- the search whose query stands in a slot of the query buffer -/
  qslot : Map Nat
  seq : BitVec 16
  /-- messages that the engine's hardware sends once their destinations have room, in order (R162) -/
  tx : List Msg
  /-- the contexts whose fetch thread and math thread issued last (R137) -/
  lastFetch : Nat
  lastMath : Nat
  deriving DecidableEq, Repr

/-- An engine after reset. -/
def Engine.reset : Engine :=
  { ctxs := [], qbuf := [], chains := [], rx := [], qslot := [], seq := 0#16, tx := [], lastFetch := 15, lastMath := 15 }

/-- What a batch holds until it commits (R166 to R168). -/
structure Hold where
  writes : Map Byte
  reads : List Nat
  wgran : List Nat
  /-- granules that core write-backs put into the home caches during its life -/
  wbs : List Nat
  rerun : Nat
  excl : Bool
  deriving DecidableEq, Repr

/-- A batch that has touched nothing. -/
def Hold.reset : Hold := { writes := [], reads := [], wgran := [], wbs := [], rerun := 0, excl := false }

/-- One call of an NMCALL batch (R283, R293). -/
structure NCall where
  lane : Nat
  arg : DWord
  reply : Option (List Word × Bool)
  deriving DecidableEq, Repr

/-- The calls of one NMCALL that reach one engine (R166). -/
structure Batch where
  engine : Nat
  launch : Nat
  bed : Nat
  sheaf : Nat
  pc : DWord
  inst0 : Word
  d : Nat
  routine : Nat
  count : Nat
  calls : List NCall
  asid : BitVec 16
  started : Bool
  replied : Bool
  hold : Hold
  /-- its NMCALL was an instruction of the handler (R343) -/
  handler : Bool
  /-- the KIND 3 image under which it registered (Table 20.7) -/
  ctl : Nat := 0
  deriving DecidableEq, Repr

/-- How far a search has come (R154, R159, R164). -/
inductive SearchStage where
  | sent
  | registered
  | waiting
  | running
  | ended
  deriving DecidableEq, Repr

/-- A search (R156 to R165). -/
structure Search where
  launch : Nat
  asid : BitVec 16
  /-- the issuing sheaf's plot, where a scratch barrier stands -/
  plot : Nat
  cardVa : DWord
  ref : DWord
  card : BitVec 512
  desc : BitVec 1024
  descPa : Nat
  snap : Word
  stage : SearchStage
  /-- the near-profile library its contexts run -/
  lib : Nat
  home : Nat
  heap0 : Nat
  heapn : Nat
  visited : Map Bool
  entries : List Nat
  spawned : Nat
  endedW : Nat
  handed : Nat
  /-- DREQs reported less answers served; an answer may be served before its report (R164) -/
  dreqs : Int
  /-- POPREQs that wait, as engine and context (R164) -/
  waiters : List (Nat × Nat)
  /-- walkers that hold a node -/
  holding : Nat
  /-- the query block -/
  query : List Byte
  /-- the KIND 3 image whose controllers run it (Table 20.7), and the step in which its command reached the home controller (R159) -/
  ctl : Nat := 0
  arrived : Nat := 0
  /-- physical addresses of the pages of the query block and of the result list, as translated at registration (R156) -/
  qpages : List Nat
  rpages : List Nat
  spent : Bool
  poison : Bool
  engFault : Bool
  hold : Hold
  deriving DecidableEq, Repr

/-- A registered index: its descriptor and the snapshots registered on it (R150, R154). -/
structure Index where
  descPa : Nat
  asid : BitVec 16
  snaps : List Word
  deriving DecidableEq, Repr

/-! ## Collectives (chapter 19) -/

/-- One block of a collective step: source rank, block of the source slice, destination rank, and its bytes (R388, R391). -/
structure Block where
  rank : Nat
  block : Nat
  dest : Nat
  data : List Byte
  acked : Bool
  deriving DecidableEq, Repr

/-- An operand that a receiver holds in staging until its chunk's other operands are there (R386, R388). -/
structure Staged where
  dest : Nat
  rank : Nat
  block : Nat
  data : List Byte
  /-- it lies in the staging SRAM of its port; otherwise it waits at its destination (R384, R388) -/
  room : Bool
  deriving DecidableEq, Repr

/-- How the blocks of a collective travel (R388, R393, R398, R400). -/
inductive CollMode where
  /-- every block goes to its receivers, which reduce -/
  | endpoint
  /-- through the coding switch -/
  | coded
  /-- through an external tree that reduces -/
  | inSwitch
  deriving DecidableEq, Repr

/-- An armed collective (R385 to R397). -/
structure Coll where
  launch : Nat
  binding : Nat
  entry : BitVec 512
  asid : BitVec 16
  level : Nat
  version : Nat
  /-- the port id of each rank: a die port, or the Amsan port that leads to its package (R382, R385, R398) -/
  ranks : List Nat
  /-- the die port of each rank in its own package -/
  dies : List Nat
  mode : CollMode
  /-- the KIND 4 image under which it was armed (Table 20.7) -/
  image : Nat := 0
  /-- the ports of the Amsan links to use, and the external multicast group (R398) -/
  links : List Nat
  mcast : Word
  stepNo : Nat
  running : Bool
  /-- the packets of the step in progress have been formed -/
  formed : Bool
  blocks : List Block
  tries : Nat
  /-- blocks that their receivers accepted in this step: rank, block, destination rank -/
  accepted : List (Nat × Nat × Nat)
  staged : List Staged
  /-- destination writes, oldest first: no core sees one before the collective's arrival (R384, R389) -/
  writes : List (DWord × List Byte)
  /-- side-information entries: rank, block, holder and copy address (R392) -/
  sides : List (Nat × Nat × Nat × DWord)
  missLim : Nat
  misses : Nat
  resends : Nat
  cpkt : Nat
  upkt : Nat
  down : Bool
  downgraded : Bool
  deriving DecidableEq, Repr

/-- A collective packet in flight (R394), with the ports it still has to reach. -/
structure Pkt where
  header : BitVec 512
  payload : List Byte
  dst : List Nat
  deriving DecidableEq, Repr

/-- A pinned block of a decode buffer (R395). -/
structure Pin where
  port : Nat
  coll : Nat
  rank : Nat
  block : Nat
  side : Bool
  data : List Byte
  deriving DecidableEq, Repr

/-- One direction of an Amsan port (R399). -/
structure Amsan where
  keyed : Bool
  key : BitVec 256
  salt : Word
  counter : DWord
  stopped : Bool
  /-- frames that failed authentication -/
  failed : Nat
  deriving DecidableEq, Repr

/-- An Amsan direction after reset: no key. -/
def Amsan.reset : Amsan := { keyed := false, key := 0#256, salt := 0#32, counter := 0#64, stopped := false, failed := 0 }

/-- A registered peer group (R398). -/
structure Peers where
  ranks : List Byte
  ports : Byte
  mcast : Word
  inSwitch : Bool
  endToEnd : Bool
  deriving DecidableEq, Repr

/-! ## Host interface and management (chapters 20 and 21) -/

/-- A work queue (R407, R408). -/
structure HQueue where
  desc : BitVec 256
  enabled : Bool
  head : Word
  tail : Word
  credit : Nat
  /-- the launch of its last entry, while that launch holds the next entry back (R332) -/
  busy : Option Nat
  /-- entries as they stood when a doorbell made them visible, by index: the arbiter may read those of one that the host has since
  written again (R408) -/
  seen : Map (BitVec 512)
  deriving DecidableEq, Repr

/-- A queue that was never enabled. -/
def HQueue.reset : HQueue := { desc := 0#256, enabled := false, head := 0#32, tail := 0#32, credit := 0, busy := none, seen := [] }

/-- The registers of one function (Table 20.2, R405, R406). -/
structure HostFn where
  qstat : BitVec 2
  fqbase : DWord
  fqlog : Nat
  fqtail : Word
  fqhead : Word
  /-- the function-table word as last read, and Memory Space Enable -/
  word : Word
  mse : Bool
  deriving DecidableEq, Repr

/-- A function after reset (Table 20.2). -/
def HostFn.reset : HostFn :=
  { qstat := 0#2, fqbase := 0#64, fqlog := 5, fqtail := 0#32, fqhead := 0#32, word := 0#32, mse := false }

/-- What a RESUME token stands for (R354, R264, R351, R359). -/
inductive Ticket where
  | log (bed sheaf entry : Nat)
  /-- the threads of a sheaf at a PC wait for their fetch -/
  | fetch (bed sheaf : Nat) (pc : DWord)
  /-- such a fetch that the driver failed while its bed was pre-empted: the trap is taken on the resume (R354) -/
  | fetchFail (bed sheaf : Nat) (pc : DWord)
  | copy (id : Nat)
  /-- a write of an engine or the control plane waits for a page of the snapshot pool (R359) -/
  | snap (asid : BitVec 16) (page : DWord)
  deriving DecidableEq, Repr

/-- The host interface and the arbiter (chapter 20, R331, R333). -/
structure HostIf where
  queues : Map HQueue
  fns : Map HostFn
  qdtva : DWord
  asidtab : DWord
  invalva : DWord
  /-- ASID and pages of INVALCMD as last written -/
  invalcmd : DWord
  fntab : DWord
  ctxbase : DWord
  ctxsize : DWord
  prethr : BitVec 4
  starve : BitVec 13
  curQ : Map Nat
  passed : Map Nat
  lifted : Map Bool
  /-- fault entries held at the home while a ring is full (R405) -/
  backlog : List (Nat × BitVec 256)
  tickets : Map Ticket
  nextToken : Word
  /-- completion messages sent: queue and vector (R408) -/
  notices : List (Nat × Nat)
  /-- masked vectors, each with its function (R408) -/
  masked : List (Nat × Nat)
  /-- completions of host accesses, oldest first: whether with Unsupported Request, and the data of a read (R403) -/
  out : List (Bool × List Byte)
  /-- the event-log entry that capability 7 shows (R404, R421) -/
  logIndex : DWord := 0#64
  deriving DecidableEq, Repr

/-- The host interface after reset (Table 20.2, Table 16.5). -/
def HostIf.reset : HostIf :=
  { queues := [], fns := [], qdtva := 0#64, asidtab := 0#64, invalva := 0#64, invalcmd := 0#64, fntab := 0#64, ctxbase := 0#64,
    ctxsize := 0#64, prethr := 2#4, starve := 4096#13, curQ := [], passed := [], lifted := [], backlog := [],
    tickets := [], nextToken := 1#32, notices := [], masked := [], out := [] }

/-- The management plane (R410 to R422). -/
structure Mgmt where
  /-- every image activated, by its number: header and payload -/
  images : Map (List Byte)
  /-- the number of the active image of each kind; an unlisted kind has none -/
  active : Map Nat
  meas : Map (BitVec 512)
  svnMin : Map Word
  /-- a KIND 2 image that takes effect at the next management restart (Table 20.7) -/
  next2 : Option Nat
  budgetMatrix : Nat
  budgetNear : Nat
  budgetLinks : Nat
  paced : List Nat
  mailboxOnly : Bool
  /-- attestation replies and other mailbox answers, oldest first -/
  replies : List (List Byte)
  deriving DecidableEq, Repr

/-- The management plane after reset (Table 21.2, R412): a package that is on has booted, so MEAS0 holds the boot ROM's measurement. -/
def Mgmt.reset : Mgmt :=
  { images := [], active := [], meas := [(0, Config.romMeasure)], svnMin := [], next2 := none, budgetMatrix := 1650, budgetNear := 950, budgetLinks := 400,
    paced := [], mailboxOnly := true, replies := [] }

/-! ## Who acts -/

/-- The pair thread that issues (R137). -/
structure NCur where
  engine : Nat
  ctx : Nat
  math : Bool
  deriving DecidableEq, Repr

/-- Who runs the next instruction. -/
inductive Agent where
  | idle
  | sheaf (c : Cur)
  | pair (n : NCur)
  deriving DecidableEq, Repr

/-- What stood in an aligned 8 bytes before another sheaf, an engine or the host wrote there: a plain load of a sheaf that no acquire orders may
still take it, as if it had been made before the loads that precede it (R112, R116, R120). -/
structure Early where
  core : Nat
  bed : Nat
  sheaf : Nat
  scratch : Bool
  pair : Nat
  lo : Word × Bool
  hi : Word × Bool
  deriving DecidableEq, Repr

/-- The state of the package. -/
structure State where
  /-- device memory, and host memory from 2^60 up; an unlisted byte is 0 (log 1) -/
  mem : List Host.Cell
  /-- poisoned words of memory, by address ÷ 4 (R55) -/
  memPoison : Map Bool
  /-- dirty words of the home caches, and the terrace of the last write-back (R122, R423) -/
  home : Map (CWord × Nat)
  l2 : Map (Map CWord)
  /-- translation entries by core, ASID and page (R357): the page-table entry and its level -/
  tlb : Map (BitVec 64 × Nat)
  /-- page frames that translations gave before their entry changed, by ASID and page, until an INVAL names the page (R357) -/
  oldFrames : List (Nat × Nat)
  /-- values that plain loads may still take (R120) -/
  early : List Early
  /-- words as they stood before running launches wrote them, by address ÷ 4: an instruction fetch may still read them (R170) -/
  oldCode : Map Word
  plots : Map Plot
  cores : Map Core
  dies : Map Die
  beds : Map Bed
  launches : Map Launch
  copies : Map CopyOp
  bwait : List BWait
  engines : Map Engine
  searches : Map Search
  batches : Map Batch
  indexes : Map Index
  /-- the search controllers' SRAMs: byte stack × 2^19 + offset (R2) -/
  ctlSram : Map Byte
  colls : Map Coll
  /-- collectives that ended well, by COLL until it is given again: their receivers acknowledge a block that is sent again (R388) -/
  endedColls : Map Coll
  pkts : Map Pkt
  pins : List Pin
  pdtest : Map DWord
  amsan : Map Amsan
  groups : Map Peers
  sideUsed : Map Nat
  /-- sequence number of each port's next collective packet (Table 19.6) -/
  portSeq : Map Word
  /-- frames sent on Amsan ports, each with its external multicast group, 0 for none, oldest first (R398, R399) -/
  frames : List (Nat × Word × List Byte)
  /-- packets that wait for a new key of their Amsan port, with their groups (R399) -/
  held : List (Nat × Word × List Byte)
  hostIf : HostIf
  mgmt : Mgmt
  evlog : List (BitVec 256)
  evlost : Nat
  /-- the failing core of each kill in the event log: the entry's SEQ, and the core (R360) -/
  killCores : List (Word × Nat)
  nextLaunch : DWord
  /-- pages of the context pool in use, by page number (R350, R359) -/
  poolUsed : List Nat
  /-- the model's own: a write by an engine or the control plane has met an empty pool, so its step waits (R359) -/
  snapStall : Option (BitVec 16 × DWord)
  /-- the model's own: the release of the instruction that runs meets a write-back which an exclusive batch holds back, so it waits in the
  operand log (R168) -/
  holdRelease : Bool
  powered : Bool
  /-- the model's own: events that are due and inputs that have arrived (log 3) -/
  agenda : List Event
  /-- the model's own: who runs the next instruction -/
  agent : Agent
  /-- the model's own: free values drawn so far (log 4) -/
  ticks : Nat
  /-- the model's own: the next unused name of a bed, copy, search, batch, collective or packet -/
  nextKey : Nat
  deriving DecidableEq, Repr

/-- Why the machine stops with a fault. -/
inductive Fault where
  /-- An instruction was to run and no sheaf or pair issues it.  Raised by the shared reads of the issuing sheaf; `step`
  never asks for this. Safe: nothing runs. -/
  | noIssuer
  /-- A physical address that the package does not have (R424): raised by an access whose page-table entry names it.
  Safe: the machine stops. -/
  | noSuchAddress
  deriving DecidableEq, Repr

/-- Why an instruction has no meaning here. -/
inductive Refusal where
  /-- The instruction is not modelled. Safe: the machine stops. -/
  | notModelled (mnemonic : String)
  deriving DecidableEq, Repr

/-- The package after reset: nothing resident, no image active, no host queue enabled (R85, R374, R412, R421, R425). -/
def State.reset : State :=
  { mem := [], memPoison := [], home := [], l2 := [], tlb := [], oldFrames := [], early := [], oldCode := [], plots := [], cores := [], dies := [], beds := [],
    launches := [], copies := [], bwait := [], engines := [], searches := [], batches := [], indexes := [], ctlSram := [], colls := [], endedColls := [],
    pkts := [], pins := [], pdtest := [], amsan := [], groups := [], sideUsed := [], portSeq := [], frames := [], held := [], hostIf := HostIf.reset,
    mgmt := Mgmt.reset, evlog := [], evlost := 0, killCores := [], nextLaunch := 0#64, poolUsed := [], snapStall := none, holdRelease := false, powered := true, agenda := [],
    agent := .idle, ticks := 0, nextKey := 0 }

end Sys2Proof.Machine
end

