-- ==== Sys2Proof/Machine/Regs.lean ====
section
/-! DEFINITION. Reading and writing the parts of the state and the registers of a sheaf: windows (R42), tags (R46, R47),
poison (R55), the handler registers (R343), pending results and their lookahead spans (R180). -/

namespace Sys2Proof.Machine

/-- What a meaning answers. -/
abbrev Out := Host.Outcome State Fault Refusal

/-- The rest of a meaning, where the first part answers a next state. -/
def Out.andThen (o : Out) (k : State → Out) : Out :=
  match o with
  | .next s => k s
  | .fault r => .fault r
  | .refused r => .refused r

/-! ## Parts of the package -/

/-- The plot of a cluster, 0 to 63. -/
def getPlot (s : State) (p : Nat) : Plot := mget s.plots p Plot.reset

/-- The state with a plot changed. -/
def modPlot (s : State) (p : Nat) (f : Plot → Plot) : State := { s with plots := mset s.plots p (f (getPlot s p)) }

/-- A core, 0 to 255. -/
def getCore (s : State) (k : Nat) : Core := mget s.cores k Core.reset

/-- The state with a core changed. -/
def modCore (s : State) (k : Nat) (f : Core → Core) : State := { s with cores := mset s.cores k (f (getCore s k)) }

/-- A bank engine, 0 to 767. -/
def getEngine (s : State) (e : Nat) : Engine := mget s.engines e Engine.reset

/-- The state with a bank engine changed. -/
def modEngine (s : State) (e : Nat) (f : Engine → Engine) : State :=
  { s with engines := mset s.engines e (f (getEngine s e)) }

/-- A bed, if it exists. -/
def getBed (s : State) (b : Nat) : Option Bed := mfind s.beds b

/-- The state with a bed changed; unchanged where there is none. -/
def modBed (s : State) (b : Nat) (f : Bed → Bed) : State :=
  match getBed s b with
  | some bd => { s with beds := mset s.beds b (f bd) }
  | none => s

/-- A launch, if it exists. -/
def getLaunch (s : State) (l : Nat) : Option Launch := mfind s.launches l

/-- The state with a launch changed; unchanged where there is none. -/
def modLaunch (s : State) (l : Nat) (f : Launch → Launch) : State :=
  match getLaunch s l with
  | some x => { s with launches := mset s.launches l (f x) }
  | none => s

/-- A sheaf of a bed, if it has started. -/
def getSheaf (s : State) (b w : Nat) : Option Sheaf :=
  match getBed s b with
  | some bd => mfind bd.sheaves w
  | none => none

/-- The state with a sheaf replaced. -/
def setSheaf (s : State) (b w : Nat) (sh : Sheaf) : State :=
  modBed s b (fun bd => { bd with sheaves := mset bd.sheaves w sh })

/-- The state with a sheaf changed; unchanged where there is none. -/
def modSheaf (s : State) (b w : Nat) (f : Sheaf → Sheaf) : State :=
  match getSheaf s b w with
  | some sh => setSheaf s b w (f sh)
  | none => s

/-- The cluster of a core (R5). -/
def plotOf (core : Nat) : Nat := core / 4

/-- The terrace of a core (R3). -/
def terraceOf (core : Nat) : Nat := core / 16

/-- The die of a core (R5). -/
def dieOf (core : Nat) : Nat := core / 64

/-- A number that differs from step to step and from use to use within a step, for free values (log 4). -/
def salt (s : State) (n : Nat) : Nat := s.ticks * 2 ^ 24 + n

/-- The sheaf issues the instruction that runs. -/
def isIssuer (s : State) (b w : Nat) : Bool :=
  match s.agent with
  | .sheaf c => c.bed == b && c.sheaf == w
  | _ => false

/-! ## Masks -/

/-- Bit i of a mask. -/
def bit (m : Mask) (i : Nat) : Bool := m.getLsbD i

/-- The mask with the bits where p holds. -/
def maskOf (p : Nat → Bool) : Mask :=
  lanes.foldl (fun m i => if p i then m ||| (1#32 <<< i) else m) 0#32

/-- The lowest lane of a mask. -/
def lowest (m : Mask) : Option Nat := lanes.find? (fun i => bit m i)

/-- The lowest lane of a mask, or 0. -/
def lowestD (m : Mask) : Nat := (lowest m).getD 0

/-- The highest lane of a mask. -/
def highest (m : Mask) : Option Nat := lanes.reverse.find? (fun i => bit m i)

/-- The lanes of a mask, rising. -/
def lanesOf (m : Mask) : List Nat := lanes.filter (fun i => bit m i)

/-- The number of lanes in a mask. -/
def countLanes (m : Mask) : Nat := (lanesOf m).length

/-! ## The issuing sheaf -/

/-- The execute mask: the control set's threads that are ON (R10); every lane in handler mode (R343). -/
def exm (c : Cur) (sh : Sheaf) : Mask := if sh.handler then Mask.full else c.ctl &&& sh.on

/-- The sheaf whose registers are read: the one before the first pick's writes where there is one (R19, R370). -/
def src (c : Cur) (sh : Sheaf) : Sheaf := c.before.getD sh

/-- Runs a meaning for the sheaf that issues. -/
def onSheaf (s : State) (k : Cur → Sheaf → Out) : Out :=
  match s.agent with
  | .sheaf c =>
    match getSheaf s c.bed c.sheaf with
    | some sh => k c sh
    | none => .fault .noIssuer
  | _ => .fault .noIssuer

/-- The state with the issuing sheaf replaced. -/
def putSheaf (s : State) (c : Cur) (sh : Sheaf) : State := setSheaf s c.bed c.sheaf sh

/-! ## Lane registers -/

/-- The value a lane reads from a form (R46). -/
def formLane : Form → Nat → Word
  | .u x, _ => x
  | .a b t, i => b + BitVec.ofNat 32 i * t
  | .g vs, i => lget vs i 0#32

/-- The 32 values of a form. -/
def formVals (f : Form) : List Word := lanes.map (formLane f)

/-- The physical register that vN names in lane i: the window of the lane's own thread (R42); v96 to v127 are the handler
lane registers in handler mode, kept at 512 and up (R343). -/
def phys (sh : Sheaf) (i n : Nat) : Nat :=
  if sh.handler && decide (96 ≤ n) then 512 + (n - 96) else lget sh.wb i 0 * 16 + n

/-- vN is a name of the window (R42), and its physical index lies in the thread's budget (R27); handler registers have
none (R343). -/
def inBudget (sh : Sheaf) (i n : Nat) : Bool :=
  decide (n < 128) && ((sh.handler && decide (96 ≤ n)) || decide (lget sh.wb i 0 * 16 + n < sh.place.budget))

/-- A register as it stands in the file. -/
def vreg (sh : Sheaf) (p : Nat) : VReg := mget sh.v p VReg.reset

/-- A pending write holds lane i of physical register p. -/
def PWrite.holds (w : PWrite) (p i : Nat) : Bool :=
  match w with
  | .lanes ph m _ _ => bit m i && lget ph i 1024 == p
  | _ => false

/-- The pending value and poison of lane i. -/
def PWrite.laneVal (w : PWrite) (i : Nat) : Word × Bool :=
  match w with
  | .lanes _ _ vs q => (lget vs i 0#32, bit q i)
  | _ => (0#32, false)

/-- The thread of lane i is inside a span: nothing that it issues is checked (R307). -/
def inSpan (sh : Sheaf) (i : Nat) : Bool :=
  decide (0 < lget sh.span i 0) || sh.long.any (fun op => decide (0 < lget op.spans i 0))

/-- The scoreboard does not check what the thread of lane i issues: it is inside a span, or has no pending result (R307). -/
def unchecked (sh : Sheaf) (i : Nat) : Bool := inSpan sh i || sh.long.all (fun op => !bit op.ctl i)

/-- A lane's value and poison: the file's, then the results of earlier long-latency instructions in order.  A reader
inside a span may see the value before one (R180, R307): that choice is free. -/
def laneView (t : Nat) (sh : Sheaf) (i n : Nat) : Word × Bool :=
  let p := phys sh i n
  let r := vreg sh p
  sh.long.foldl
    (fun acc op =>
      op.writes.foldl
        (fun acc w =>
          if op.ready && op.trap.isNone && w.holds p i then
            (if inSpan sh i && Config.freeBool (t + op.id * 4096 + i * 128 + n) then acc else w.laneVal i)
          else acc) acc)
    (formLane r.form i, bit r.poison i)

/-- A lane's value. -/
def laneVal (t : Nat) (sh : Sheaf) (i n : Nat) : Word := (laneView t sh i n).1

/-- A lane's poison bit. -/
def lanePoison (t : Nat) (sh : Sheaf) (i n : Nat) : Bool := (laneView t sh i n).2

/-- Any pending write touches physical register p. -/
def pendingOn (sh : Sheaf) (p : Nat) : Bool :=
  sh.long.any (fun op => op.writes.any (fun w => lanes.any (fun i => w.holds p i)))

/-- All lanes of a mask name one physical register by vN. -/
def oneWindow (sh : Sheaf) (m : Mask) (n : Nat) : Bool :=
  match lowest m with
  | none => true
  | some l => lanes.all (fun i => !bit m i || phys sh i n == phys sh l n)

/-- Lane i of vN reads what the file holds: nothing pending on it is seen. -/
def readsFile (t : Nat) (sh : Sheaf) (i n : Nat) : Bool :=
  sh.long.all (fun op => op.writes.all (fun w =>
    !(op.ready && op.trap.isNone && w.holds (phys sh i n) i) ||
      (inSpan sh i && Config.freeBool (t + op.id * 4096 + i * 128 + n))))

/-- The stored form of a source: its tag's form where every lane names one register and reads what the file holds, 32 values
otherwise (R47, R180). -/
def sourceForm (t : Nat) (sh : Sheaf) (n : Nat) : Form :=
  let p := phys sh 0 n
  if oneWindow sh Mask.full n && lanes.all (fun i => readsFile t sh i n) then (vreg sh p).form
  else .g (lanes.map (fun i => laneVal t sh i n))

/-- The tag code of a form: 0 U, 1 A, 2 G (R49). -/
def formCode : Form → Nat
  | .u _ => 0
  | .a _ _ => 1
  | .g _ => 2

/-- Lane i of a register replaced; the register becomes G, in a line of its own (R47, R51). -/
def setLane (r : VReg) (i : Nat) (x : Word) (q : Bool) : VReg :=
  { form := .g (lset (formVals r.form) i x),
    poison := if q then r.poison ||| (1#32 <<< i) else r.poison &&& ~~~(1#32 <<< i),
    line := .present, row := 0, used := r.used }

/-- Registers that a narrow line of a form holds (R50). -/
def rowRoom : Form → Nat
  | .u _ => 32
  | .a _ _ => 16
  | .g _ => 0

/-- The registers of a sheaf that share a narrow line. -/
def rowMates (sh : Sheaf) (row : Nat) : List (Nat × VReg) :=
  if row = 0 then [] else sh.v.filter (fun r => r.2.row == row && r.2.line != .absent)

/-- A narrow line that no register of a sheaf names. -/
def newRow (sh : Sheaf) : Nat := 1 + sh.v.foldl (fun m r => Nat.max m r.2.row) 0

/-- The narrow line of a sheaf that a register of a form goes to: the first of its kind with room, or a new one. -/
def freeRow (sh : Sheaf) (f : Form) : Nat :=
  match sh.v.find? (fun r => r.2.row != 0 && r.2.line == .present && formCode r.2.form == formCode f &&
      decide ((rowMates sh r.2.row).length < rowRoom f)) with
  | some r => r.2.row
  | none => newRow sh

/-- The line state of a register: a handler register is no line of the register cache, and always there (R343). -/
def lineState (sh : Sheaf) (p : Nat) : LineState := if 512 ≤ p then .present else (vreg sh p).line

/-- The narrow line of register p when it takes a form: none for a G form or a handler register, its own where the tag stays (R51). -/
def rowOf (sh : Sheaf) (p : Nat) (f : Form) : Nat :=
  match f with
  | .g _ => 0
  | _ =>
    let r := vreg sh p
    if 512 ≤ p then 0
    else if r.row != 0 && r.line != .absent && formCode r.form == formCode f then r.row else freeRow sh f

/-- A pending write without the lanes of a younger write to the same register (R180: the younger write remains). -/
def PWrite.without (w : PWrite) (ph : List Nat) (m : Mask) : PWrite :=
  match w with
  | .lanes p k vs q => .lanes p (maskOf (fun i => bit k i && !(bit m i && lget ph i 1024 == lget p i 1024))) vs q
  | _ => w

/-- Pending results superseded by a younger write of lanes. -/
def supersede (ops : List LongOp) (ph : List Nat) (m : Mask) : List LongOp :=
  ops.map (fun op => { op with writes := op.writes.map (fun w => w.without ph m) })

/-- Writes lanes of given physical registers, one by one. -/
def writePhys (sh : Sheaf) (ph : List Nat) (m : Mask) (vals : List Word) (q : Mask) : Sheaf :=
  { sh with
    v := lanes.foldl
      (fun v i =>
        if bit m i then
          let p := lget ph i 0
          mset v p (setLane (mget v p VReg.reset) i (lget vals i 0#32) (bit q i))
        else v) sh.v }

/-- The physical registers that vN names, lane by lane. -/
def physList (sh : Sheaf) (n : Nat) : List Nat := lanes.map (fun i => phys sh i n)

/-- Older pending results of the lanes that a write of vN covers are superseded (R180). -/
def dropOlder (sh : Sheaf) (n : Nat) (m : Mask) : Sheaf := { sh with long := supersede sh.long (physList sh n) m }

/-- A physical register takes a form and a poison mask. -/
def putForm (sh : Sheaf) (p : Nat) (f : Form) (q : Mask) : Sheaf :=
  { sh with v := mset sh.v p { form := f, poison := q, line := .present, row := rowOf sh p f, used := (vreg sh p).used } }

/-- Writes vN in the lanes of a mask.  Where every lane is written in one register, the register takes the given form;
otherwise each lane is written and the register is G (R47, R51). -/
def writeLanes (sh : Sheaf) (n : Nat) (m : Mask) (f : Form) (q : Mask) : Sheaf :=
  if m = 0#32 then sh
  else if m = Mask.full ∧ oneWindow sh Mask.full n = true then putForm (dropOlder sh n m) (phys sh 0 n) f q
  else writePhys (dropOlder sh n m) (physList sh n) m (formVals f) q

/-! ## Group registers -/

/-- Where gN lives: g96 to g127 are the handler group registers in handler mode, kept at 128 and up (R343). -/
def gidx (sh : Sheaf) (n : Nat) : Nat := if sh.handler && decide (96 ≤ n) then 128 + (n - 96) else n

/-- A pending write of group register index k. -/
def PWrite.group? (w : PWrite) (k : Nat) : Option (Word × Bool) :=
  match w with
  | .group n v q => if n = k then some (v, q) else none
  | _ => none

/-- A group register's value and poison, g0 reading zero (R44), with the pending results of earlier instructions; a reader
none of whose threads is checked may see the value before (R180, R307). -/
def groupView (t : Nat) (ctl : Mask) (sh : Sheaf) (n : Nat) : Word × Bool :=
  if n = 0 then (0#32, false)
  else
    let k := gidx sh n
    sh.long.foldl
      (fun acc op =>
        op.writes.foldl
          (fun acc w =>
            match (if op.ready && op.trap.isNone then w.group? k else none) with
            | some x =>
              if (lanesOf ctl).all (unchecked sh) && decide (ctl ≠ 0#32) &&
                Config.freeBool (t + op.id * 4096 + 4000 + n) then acc else x
            | none => acc) acc)
      (mget sh.g k 0#32, mget sh.gp k false)

/-- Pending results superseded by a younger write of a group register. -/
def supersedeGroup (ops : List LongOp) (k : Nat) : List LongOp :=
  ops.map (fun op => { op with writes := op.writes.filter (fun w => (w.group? k).isNone) })

/-- Writes gN; a write of g0 is discarded (R44). -/
def writeGroup (sh : Sheaf) (n : Nat) (x : Word) (q : Bool) : Sheaf :=
  if n = 0 then sh
  else
    let k := gidx sh n
    { sh with g := mput sh.g k x 0#32, gp := mput sh.gp k q false, long := supersedeGroup sh.long k }

/-! ## What the issuing PC group reads -/

/-- The value of lane i of vN as the issuing instruction reads it. -/
def rdV (s : State) (c : Cur) (sh : Sheaf) (i n : Nat) : Word := laneVal (salt s 0) (src c sh) i n

/-- Its poison bit. -/
def rdVP (s : State) (c : Cur) (sh : Sheaf) (i n : Nat) : Bool := lanePoison (salt s 0) (src c sh) i n

/-- The value of gN as the issuing instruction reads it. -/
def rdG (s : State) (c : Cur) (sh : Sheaf) (n : Nat) : Word := (groupView (salt s 0) c.ctl (src c sh) n).1

/-- Its poison bit. -/
def rdGP (s : State) (c : Cur) (sh : Sheaf) (n : Nat) : Bool := (groupView (salt s 0) c.ctl (src c sh) n).2

/-- The stored form of vN as the issuing instruction reads it. -/
def rdForm (s : State) (c : Cur) (sh : Sheaf) (n : Nat) : Form := sourceForm (salt s 0) (src c sh) n

/-- Two group registers as one 64-bit value, the even one low (R43). -/
def rdG64 (s : State) (c : Cur) (sh : Sheaf) (n : Nat) : DWord := rdG s c sh (n + 1) ++ rdG s c sh n

/-- Two lane registers as one 64-bit value (R43). -/
def rdV64 (s : State) (c : Cur) (sh : Sheaf) (i n : Nat) : DWord := rdV s c sh i (n + 1) ++ rdV s c sh i n

/-- The poisoned lanes of vN. -/
def poisonMask (s : State) (c : Cur) (sh : Sheaf) (n : Nat) : Mask := maskOf (fun i => rdVP s c sh i n)

/-! ## Moving on -/

/-- The threads of the control set move to an address; the handler's own stream does in handler mode. -/
def goto (c : Cur) (sh : Sheaf) (target : DWord) : Sheaf :=
  if sh.handler then { sh with hpc := target }
  else { sh with pcs := lanes.map (fun i => if bit c.ctl i then target else lget sh.pcs i 0#64) }

/-- The control set moves to the next sequential instruction (R11). -/
def advance (c : Cur) (sh : Sheaf) : Sheaf := goto c sh (c.pc + BitVec.ofNat 64 c.len)

/-- The lookahead spans of a set of threads end (R180). -/
def endSpans (sh : Sheaf) (m : Mask) : Sheaf :=
  { sh with
    long := sh.long.map (fun op => { op with spans := lanes.map (fun i => if bit m i then 0 else lget op.spans i 0) }),
    span := lanes.map (fun i => if bit m i then 0 else lget sh.span i 0) }

/-- The answer of an instruction that leaves the sheaf as given and moves its control set on. -/
def done (s : State) (c : Cur) (sh : Sheaf) : Out := .next (putSheaf s c (advance c sh))

end Sys2Proof.Machine
end

