-- ==== Sys2Proof/Machine/Flags.lean ====
section
/-! DEFINITION. What instructions compute beside their values: conditions (Tables 8.4 and 9.4), result tags (Table 2.2),
poison (R55, R196) and the non-finite conditions (R78, R79). -/

namespace Sys2Proof.Machine

/-! ## Integer functions (Tables 8.2 and 8.3), for 32-bit registers and 64-bit near scalars -/

/-- The functions of ALU and ALU2. -/
inductive AluOp where
  | add | sub | mul | mulh | mulhu | min | max | minu | maxu | and | or | xor | andn | shl | shr | sra
  | rol | ror | clz | popc | brev | abs | neg | madd | msub | lea1 | lea2 | lea3 | addsat | subsat
  deriving DecidableEq, Repr

/-- Set bits of a value. -/
def popcount {w : Nat} (a : BitVec w) : Nat := ((below w).filter (fun i => a.getLsbD i)).length

/-- Leading zeros of a value. -/
def leadingZeros {w : Nat} (a : BitVec w) : Nat := if a.toNat = 0 then w else w - 1 - Nat.log2 a.toNat

/-- The value with its bits in the other order. -/
def bitReverse {w : Nat} (a : BitVec w) : BitVec w :=
  (below w).foldl (fun r i => if a.getLsbD i then r ||| (1#w <<< (w - 1 - i)) else r) 0#w

/-- A number clamped to the signed range of w bits (R190). -/
def saturate (w : Nat) (n : Int) : BitVec w :=
  BitVec.ofInt w (clampInt (-((2 ^ (w - 1) : Nat) : Int)) (((2 ^ (w - 1) : Nat) : Int) - 1) n)

/-- r of Tables 8.2 and 8.3 from a, b and the old d. -/
def alu {w : Nat} (op : AluOp) (a b d : BitVec w) : BitVec w :=
  match op with
  | .add => a + b
  | .sub => a - b
  | .mul => a * b
  | .mulh => BitVec.ofInt w (a.toInt * b.toInt / ((2 ^ w : Nat) : Int))
  | .mulhu => BitVec.ofNat w (a.toNat * b.toNat / 2 ^ w)
  | .min => if a.toInt ≤ b.toInt then a else b
  | .max => if a.toInt ≤ b.toInt then b else a
  | .minu => if a.toNat ≤ b.toNat then a else b
  | .maxu => if a.toNat ≤ b.toNat then b else a
  | .and => a &&& b
  | .or => a ||| b
  | .xor => a ^^^ b
  | .andn => a &&& ~~~b
  | .shl => if b.toNat % 256 < w then a <<< (b.toNat % 256) else 0#w
  | .shr => if b.toNat % 256 < w then a >>> (b.toNat % 256) else 0#w
  | .sra => if b.toNat % 256 < w then BitVec.sshiftRight a (b.toNat % 256) else BitVec.sshiftRight a (w - 1)
  | .rol => a.rotateLeft (b.toNat % w)
  | .ror => a.rotateRight (b.toNat % w)
  | .clz => BitVec.ofNat w (leadingZeros a)
  | .popc => BitVec.ofNat w (popcount a)
  | .brev => bitReverse a
  | .abs => if a.msb then 0#w - a else a
  | .neg => 0#w - a
  | .madd => d + a * b
  | .msub => d - a * b
  | .lea1 => a + (b <<< 1)
  | .lea2 => a + (b <<< 2)
  | .lea3 => a + (b <<< 3)
  | .addsat => saturate w (a.toInt + b.toInt)
  | .subsat => saturate w (a.toInt - b.toInt)

/-- The functions that read the old destination (R190). -/
def AluOp.readsD : AluOp → Bool
  | .madd => true
  | .msub => true
  | _ => false

/-- The functions of A alone, whose B field is zero (R190). -/
def AluOp.unary : AluOp → Bool
  | .clz => true
  | .popc => true
  | .brev => true
  | .abs => true
  | .neg => true
  | _ => false

/-- Division (R194). -/
inductive DivOp where
  | div | divu | rem | remu
  deriving DecidableEq, Repr

/-- q or r of R194. -/
def divide {w : Nat} (op : DivOp) (a b : BitVec w) : BitVec w :=
  match op with
  | .div => if b = 0#w then BitVec.allOnes w else BitVec.ofInt w (Int.tdiv a.toInt b.toInt)
  | .rem => if b = 0#w then a else BitVec.ofInt w (Int.tmod a.toInt b.toInt)
  | .divu => if b = 0#w then BitVec.allOnes w else a / b
  | .remu => if b = 0#w then a else a % b

/-! ## Conditions -/

/-- The integer condition of a code (Table 8.4); codes 12 to 15 are no instruction. -/
def intCond {w : Nat} (c : Nat) (a b : BitVec w) : Bool :=
  match c with
  | 0 => a == b
  | 1 => a != b
  | 2 => decide (a.toInt < b.toInt)
  | 3 => decide (b.toInt ≤ a.toInt)
  | 4 => decide (a.toInt ≤ b.toInt)
  | 5 => decide (b.toInt < a.toInt)
  | 6 => decide (a.toNat < b.toNat)
  | 7 => decide (b.toNat ≤ a.toNat)
  | 8 => decide (a.toNat ≤ b.toNat)
  | 9 => decide (b.toNat < a.toNat)
  | 10 => (a &&& b) != 0#w
  | _ => (a &&& b) == 0#w

/-- The floating condition of a code on FP32 (Table 9.4). -/
def floatCond (c : Nat) (a b : Word) : Bool :=
  let x := fdec fp32 a.toNat
  let y := fdec fp32 b.toNat
  let un := x.isNan || y.isNan
  let o := x.cmp y
  match c with
  | 0 => !un && o == .eq
  | 1 => un || o != .eq
  | 2 => !un && o == .lt
  | 3 => !un && o != .lt
  | 4 => !un && o != .gt
  | 5 => !un && o == .gt
  | 6 => un || o == .lt
  | 7 => un || o != .lt
  | 8 => un || o != .gt
  | 9 => un || o == .gt
  | 10 => un
  | _ => !un

/-! ## Result tags (Table 2.2) -/

/-- The result form of an ALU or ALU2 function with every lane active, from the forms of a, b and d (R47). -/
def aluForm (op : AluOp) (fa fb fd : Form) : Form :=
  let each := Form.g (lanes.map (fun i => alu op (formLane fa i) (formLane fb i) (formLane fd i)))
  let lin (x : Word) (f : Word → Word) (st : Word) : Form := .a (f x) st
  match op, fa, fb with
  | .add, .a b s, .u y => .a (b + y) s
  | .add, .u x, .a b s => .a (x + b) s
  | .add, .a b s, .a c t => .a (b + c) (s + t)
  | .sub, .a b s, .u y => .a (b - y) s
  | .sub, .u x, .a b s => .a (x - b) (0#32 - s)
  | .sub, .a b s, .a c t => .a (b - c) (s - t)
  | .neg, .a b s, _ => .a (0#32 - b) (0#32 - s)
  | .mul, .a b s, .u y => .a (b * y) (s * y)
  | .mul, .u x, .a b s => .a (b * x) (s * x)
  | .shl, .a b s, .u y => .a (alu .shl b y 0#32) (alu .shl s y 0#32)
  | .lea1, .a b s, .u y => lin b (fun x => x + (y <<< 1)) s
  | .lea1, .u x, .a c t => .a (x + (c <<< 1)) (t <<< 1)
  | .lea1, .a b s, .a c t => .a (b + (c <<< 1)) (s + (t <<< 1))
  | .lea2, .a b s, .u y => lin b (fun x => x + (y <<< 2)) s
  | .lea2, .u x, .a c t => .a (x + (c <<< 2)) (t <<< 2)
  | .lea2, .a b s, .a c t => .a (b + (c <<< 2)) (s + (t <<< 2))
  | .lea3, .a b s, .u y => lin b (fun x => x + (y <<< 3)) s
  | .lea3, .u x, .a c t => .a (x + (c <<< 3)) (t <<< 3)
  | .lea3, .a b s, .a c t => .a (b + (c <<< 3)) (s + (t <<< 3))
  | _, .u x, .u y =>
    match op.readsD, fd with
    | false, _ => .u (alu op x y 0#32)
    | true, .u z => .u (alu op x y z)
    | true, _ => each
  | _, .u x, _ => if op.unary then .u (alu op x 0#32 0#32) else each
  | _, _, _ => each

/-- The result form of a per-lane function whose result is U when every register source is U, G otherwise (R47). -/
def mapForm (f : Word → Word → Word → Word) (fa fb fd : Form) : Form :=
  match fa, fb, fd with
  | .u x, .u y, .u z => .u (f x y z)
  | _, _, _ => .g (lanes.map (fun i => f (formLane fa i) (formLane fb i) (formLane fd i)))

/-! ## Masks that compares write (R13, R196) -/

/-- G[D] with the bits of the active lanes replaced. -/
def mergeMask (old : Word) (m : Mask) (res : Mask) : Word := (old &&& ~~~m) ||| (res &&& m)

/-- The poison bit of a compare's G[D] (R196). -/
def maskPoison (srcPoison oldPoison : Bool) (m : Mask) : Bool := srcPoison || (oldPoison && m != Mask.full)

/-! ## Non-finite conditions (R78, R79) -/

/-- What an instruction's tests found: lanes that met NF-IN and NF-OUT. -/
structure NfMasks where
  inp : Mask
  out : Mask
  deriving DecidableEq, Repr

/-- An enabled condition was met (R79). -/
def nfTraps (sh : Sheaf) (n : NfMasks) : Bool := (sh.nfin && n.inp != 0#32) || (sh.nfout && n.out != 0#32)

/-- The FP non-finite trap with its masks (Table 17.3). -/
def nfTrap (n : NfMasks) (detail : Word) : LateTrap :=
  { cause := 7, lanes := n.inp, lanes2 := n.out, detail := detail, addr := 0#64 }

/-- SEENIN and SEENOUT after an instruction that completes (R79). -/
def seeNf (sh : Sheaf) (n : NfMasks) : Sheaf :=
  { sh with seenin := sh.seenin || n.inp != 0#32, seenout := sh.seenout || n.out != 0#32 }

end Sys2Proof.Machine
end

