-- ==== Sys2Proof/Machine/Mem.lean ====
section
/-! DEFINITION. Memory: DRAM and host bytes, the home caches, the terrace L2 slices and the plot L1s word by word
(R110, R121 to R125, R423), releases and acquires (Table 5.3), and address translation (R355 to R359).
A read that no order binds may return what its own caches hold, or a newer value (R116, R120): which is free, since a cache may give up
a clean copy, and an owner write its word back, at any time.  A later read then never goes back (R112). -/

namespace Sys2Proof.Machine

/-! ## Names of cached words (R87, R357, R406) -/

/-- The tag of a VA in an address space: its page and the ASID. -/
def vaTag (asid : BitVec 16) (va : DWord) : Nat := asid.toNat * 2 ^ 37 + va.toNat / 2 ^ 12 % 2 ^ 37

/-- The name of a word in the L1s and the L2 slices: the word, under the tag that it was reached by. -/
def tagged (tag w : Nat) : Nat := tag * 2 ^ 60 + w

/-- The name by which an access to a VA finds its word: a word of a page that carries SYN has no other place than its home (R125). -/
def nameOf (asid : BitVec 16) (va : DWord) (pa : Nat) : Nat := tagged (vaTag asid va) (pa / 4)

/-- The word that a name is of. -/
def untag (k : Nat) : Nat := k % 2 ^ 60

/-! ## Bytes and words of DRAM -/

/-- A byte of memory (log 1). -/
def memByte (m : List Host.Cell) (a : Nat) : Byte := mget m a 0#8

/-- Memory with one byte written, in canonical form. -/
def setByte (m : List Host.Cell) (a : Nat) (x : Byte) : List Host.Cell := mput m a x 0#8

/-- The canonical form of memory: rising addresses, no byte equal to an unlisted one's. -/
abbrev Memory.wf (m : List Host.Cell) : Prop := mcanon 0#8 m = true

/-- Byte k of a word. -/
def byteOf (x : Word) (k : Nat) : Byte := BitVec.ofNat 8 (x.toNat / 2 ^ (8 * k))

/-- The word at four bytes, lowest first (R6). -/
def wordOf (a b c d : Byte) : Word := d ++ c ++ b ++ a

/-- Word w of memory, at address 4w. -/
def memWord (m : List Host.Cell) (w : Nat) : Word :=
  wordOf (memByte m (4 * w)) (memByte m (4 * w + 1)) (memByte m (4 * w + 2)) (memByte m (4 * w + 3))

/-- Memory with word w written. -/
def setWord (m : List Host.Cell) (w : Nat) (x : Word) : List Host.Cell :=
  setByte (setByte (setByte (setByte m (4 * w) (byteOf x 0)) (4 * w + 1) (byteOf x 1)) (4 * w + 2) (byteOf x 2))
    (4 * w + 3) (byteOf x 3)

/-- The bytes of `be` taken from the new word, the others from the old one. -/
def mergeBytes (old new : Word) (be : BitVec 4) : Word :=
  wordOf (if be.getLsbD 0 then byteOf new 0 else byteOf old 0) (if be.getLsbD 1 then byteOf new 1 else byteOf old 1)
    (if be.getLsbD 2 then byteOf new 2 else byteOf old 2) (if be.getLsbD 3 then byteOf new 3 else byteOf old 3)

/-- A word with poison. -/
abbrev PWord := Word × Bool

/-- A word of DRAM or host memory, with its poison mark. -/
def dramWord (s : State) (w : Nat) : PWord := (memWord s.mem w, mget s.memPoison w false)

/-- DRAM or host memory with a word and its poison mark written. -/
def setDram (s : State) (w : Nat) (x : PWord) : State :=
  { s with mem := setWord s.mem w x.1, memPoison := mput s.memPoison w x.2 false }

/-! ## The home caches -/

/-- The word as its home cache holds it: a dirty word, or DRAM (R423); host memory for a host word. -/
def homeWord (s : State) (w : Nat) : PWord :=
  match mfind s.home w with
  | some (c, _) => (c.data, c.poison)
  | none => dramWord s w

/-- A write performed at a home cache and written through: the line is clean after it (R423). -/
def homeThrough (s : State) (w : Nat) (be : BitVec 4) (x : PWord) : State :=
  let old := homeWord s w
  let s' := setDram s w (mergeBytes old.1 x.1 be, if be = 15#4 then x.2 else x.2 || old.2)
  { s' with home := mdel s'.home w }

/-- A live batch notes a granule that a core write-back puts into a home cache (R167). -/
def noteWb (s : State) (w : Nat) : State :=
  { s with
    batches := s.batches.map (fun p => (p.1, { p.2 with hold := { p.2.hold with wbs := (w / 16) :: p.2.hold.wbs } })),
    searches := s.searches.map (fun p => (p.1, { p.2 with hold := { p.2.hold with wbs := (w / 16) :: p.2.hold.wbs } })) }

/-- A core write-back reaches the home cache, or host memory for a host word (R122, R125). -/
def homeBack (s : State) (terrace w : Nat) (be : BitVec 4) (x : PWord) : State :=
  let old := homeWord s w
  let y : PWord := (mergeBytes old.1 x.1 be, if be = 15#4 then x.2 else x.2 || old.2)
  if Config.hostBase / 4 ≤ w then setDram s w y
  else noteWb { s with home := mset s.home w ({ data := y.1, poison := y.2, dirty := 15#4 }, terrace) } w

/-- A dirty home word written to DRAM. -/
def homeFlush (s : State) (w : Nat) : State :=
  match mfind s.home w with
  | some (c, _) => { setDram s w (c.data, c.poison) with home := mdel s.home w }
  | none => s

/-! ## L2 slices and L1s -/

/-- The words of a terrace's L2 slice. -/
def l2Of (s : State) (t : Nat) : Map CWord := mget s.l2 t []

/-- The state with a terrace's L2 slice replaced. -/
def setL2 (s : State) (t : Nat) (m : Map CWord) : State := { s with l2 := mset s.l2 t m }

/-- The state with a plot's L1 replaced. -/
def setL1 (s : State) (p : Nat) (m : Map CWord) : State := modPlot s p (fun x => { x with l1 := m })

/-- A word's bytes that a cache of some words owns. -/
def dirtyOf (m : Map CWord) (w : Nat) : BitVec 4 :=
  match mfind m w with
  | some c => c.dirty
  | none => 0#4

/-- A cache of some words lists a word without owning it. -/
def cleanOf (m : Map CWord) (w : Nat) : Bool :=
  match mfind m w with
  | some c => c.dirty == 0#4
  | none => false

/-- A cache of some words without a word that it does not own. -/
def dropWord (m : Map CWord) (w : Nat) : Map CWord := if cleanOf m w then mdel m w else m

/-- A cache of some words takes a word that it does not list. -/
def takeWord (m : Map CWord) (w : Nat) (x : PWord) : Map CWord :=
  if (mfind m w).isSome then m else mset m w { data := x.1, poison := x.2, dirty := 0#4 }

/-- The plot has a CACHE bank (R87): one of its 512 banks is not listed with another mode. -/
def hasCache (s : State) (p : Nat) : Bool :=
  decide (((getPlot s p).bankMode.filter (fun b => b.2 != 0#2)).length < 512)

/-- A cached word takes dirty bytes over what it held. -/
def mergeC (old : PWord) (d : BitVec 4) (be : BitVec 4) (x : PWord) : CWord :=
  { data := mergeBytes old.1 x.1 be, poison := if be = 15#4 then x.2 else x.2 || old.2, dirty := d ||| be }

/-- The word as the level above a terrace's L1s holds it. -/
def l2View (s : State) (t w : Nat) : PWord :=
  match mfind (l2Of s t) w with
  | some c => (c.data, c.poison)
  | none => homeWord s (untag w)

/-- The words that share an aligned 8 bytes with a word, which move between caches together: an 8-byte access is single-copy atomic
(R110). -/
def pairWords (w : Nat) : List Nat := [2 * (w / 2), 2 * (w / 2) + 1]

/-- A plot's L1 writes a dirty word to the L2 slice; the L1 word stays, clean (R121).  The word it holds is the newest: it took the
bytes it did not write when it became the owner. -/
def l1BackWord (s : State) (p w : Nat) : State :=
  match mfind (getPlot s p).l1 w with
  | some c =>
    if c.dirty = 0#4 then s
    else
      let t := p / 4
      let s1 := setL2 s t (mset (l2Of s t) w { c with dirty := dirtyOf (l2Of s t) w ||| c.dirty })
      setL1 s1 p (mset (getPlot s1 p).l1 w { c with dirty := 0#4 })
  | none => s

/-- The plot's L1 owns a word of the pair. -/
def l1Owns (s : State) (p w : Nat) : Bool := (pairWords w).any (fun v => dirtyOf (getPlot s p).l1 v != 0#4)

/-- A slice takes the words of a pair that it does not list. -/
def fillL2 (s : State) (t w : Nat) : State :=
  setL2 s t ((pairWords w).foldl (fun m v => takeWord m v (homeWord s (untag v))) (l2Of s t))

/-- A plot's L1 takes the words of a pair that it does not list. -/
def fillL1 (s : State) (p w : Nat) : State :=
  setL1 s p ((pairWords w).foldl (fun m v => takeWord m v (l2View s (p / 4) v)) (getPlot s p).l1)

/-- A plot's L1 writes the dirty words of a pair back; where it owned one, slice and L1 then list the pair as it stands (R110). -/
def l1Back (s : State) (p w : Nat) : State :=
  if l1Owns s p w then fillL1 (fillL2 ((pairWords w).foldl (fun s v => l1BackWord s p v) s) (p / 4) w) p w else s

/-- Dirty bytes of an L2 word move to the home cache; the L2 word stays clean (R121). -/
def l2BackWord (s : State) (t w : Nat) : State :=
  match mfind (l2Of s t) w with
  | some c =>
    if c.dirty = 0#4 then s
    else
      let s1 := homeBack s t (untag w) c.dirty (c.data, c.poison)
      setL2 s1 t (mset (l2Of s1 t) w { c with dirty := 0#4 })
  | none => s

/-- The slice owns a word of the pair. -/
def l2Owns (s : State) (t w : Nat) : Bool := (pairWords w).any (fun v => dirtyOf (l2Of s t) v != 0#4)

/-- A slice writes the dirty words of a pair back; where it owned one, it then lists the pair as it stands (R110). -/
def l2Back (s : State) (t w : Nat) : State :=
  if l2Owns s t w then fillL2 ((pairWords w).foldl (fun s v => l2BackWord s t v) s) t w else s

/-- The plot's L1 lists a word of the pair without owning it. -/
def l1Clean (s : State) (p w : Nat) : Bool := (pairWords w).any (fun v => cleanOf (getPlot s p).l1 v)

/-- The terrace's slice lists a word of the pair without owning it. -/
def l2Clean (s : State) (t w : Nat) : Bool := (pairWords w).any (fun v => cleanOf (l2Of s t) v)

/-- Clean copies of a pair leave a plot's L1. -/
def dropL1 (s : State) (p w : Nat) : State :=
  if l1Clean s p w then setL1 s p ((pairWords w).foldl dropWord (getPlot s p).l1) else s

/-- Clean copies of a pair leave a terrace's slice. -/
def dropL2 (s : State) (t w : Nat) : State :=
  if l2Clean s t w then setL2 s t ((pairWords w).foldl dropWord (l2Of s t)) else s

/-- A plot's L1 writes its dirty words of a pair back and drops the pair (R121: revoked). -/
def l1Revoke (s : State) (p w : Nat) : State := dropL1 (l1Back s p w) p w

/-- A terrace gives a pair up: its L1s, then its slice, write back and drop it (R121). -/
def terraceRevoke (s : State) (t w : Nat) : State :=
  let s1 := (below 4).foldl (fun s k => l1Revoke s (4 * t + k) w) s
  dropL2 (l2Back s1 t w) t w

/-- The terrace owns a word of the pair, in its slice or in one of its L1s. -/
def terraceOwns (s : State) (t w : Nat) : Bool := l2Owns s t w || (below 4).any (fun k => l1Owns s (4 * t + k) w)

/-- The names under which a cache of some words owns a word of a word's pair. -/
def ownNames (m : Map CWord) (w : Nat) : List Nat :=
  (m.filter (fun x => x.2.dirty != 0#4 && (untag x.1) / 2 == w / 2)).map (fun x => x.1)

/-- The names under which a terrace owns a word of a word's pair. -/
def terraceNames (s : State) (t w : Nat) : List Nat :=
  dedup (ownNames (l2Of s t) w ++ (below 4).flatMap (fun k => ownNames (getPlot s (4 * t + k)).l1 w))

/-- A terrace gives a word up, whatever the name under which it owns it. -/
def terraceGive (s : State) (t w : Nat) : State := (terraceNames s t w).foldl (fun s n => terraceRevoke s t n) s

/-- Every other owner of a word gives it up before plot p, or terrace t alone, becomes the owner (R121): the other terraces, which the
home cache knows by the word, and the other L1s of the terrace, which its slice knows by the name. -/
def revokeOthers (s : State) (t : Nat) (p : Option Nat) (w : Nat) : State :=
  let s1 := (below 16).foldl (fun s u => if u != t then terraceGive s u (untag w) else s) s
  (below 4).foldl (fun s k => if some (4 * t + k) != p && l1Owns s (4 * t + k) w then l1Revoke s (4 * t + k) w else s) s1

/-- Every owner of a word gives it up (R123). -/
def revokeAll (s : State) (w : Nat) : State := (below 16).foldl (fun s u => terraceGive s u (untag w)) s

/-! ## One word read, written and changed by a core -/

/-- One of several values: the first where they are all equal, else a free one; with its place in the list. -/
def choose (t : Nat) (xs : List PWord) : Nat :=
  match xs with
  | [] => 0
  | x :: r => if r.all (fun y => decide (y = x)) then 0 else Config.freeNat t % (r.length + 1)

/-- The values of a word that a cache of some words owns. -/
def ownValues (m : Map CWord) (w : Nat) : List PWord :=
  (m.filter (fun x => x.2.dirty != 0#4 && untag x.1 == w)).map (fun x => (x.2.data, x.2.poison))

/-- The values of a word that its owners hold in the caches of the package. -/
def ownedViews (s : State) (w : Nat) : List PWord :=
  (below 16).flatMap (fun t =>
    ownValues (l2Of s t) w ++ (below 4).flatMap (fun k => ownValues (getPlot s (4 * t + k)).l1 w))

/-- Another cache than the L1 of p, or the slice of terrace t, owns the word. -/
def ownedElsewhere (s : State) (t : Nat) (p : Option Nat) (w : Nat) : Bool :=
  (below 16).any (fun u => u != t && !(terraceNames s u (untag w)).isEmpty) || (below 4).any (fun k => some (4 * t + k) != p && l1Owns s (4 * t + k) w)

/-- What may have happened to a pair before a plain read (R120): its owner elsewhere wrote it back, and the reader's caches gave up clean
copies. -/
def beforeRead (s : State) (t p : Nat) (cache : Bool) (w n : Nat) : State :=
  let q := if cache then some p else none
  let s1 := if ownedElsewhere s t q w && Config.freeBool n then revokeOthers s t q w else s
  let s2 := if l1Clean s1 p w && Config.freeBool (n + 1) then dropL1 s1 p w else s1
  if l2Clean s2 t w && !l1Clean s2 p w && Config.freeBool (n + 2) then dropL2 s2 t w else s2

/-- The caches of a core's path take the pair of a word that they do not list. -/
def fillPath (s : State) (p : Nat) (cache : Bool) (w : Nat) : State :=
  let s1 := fillL2 s (p / 4) w
  if cache then fillL1 s1 p w else s1

/-- A core reads a word.  SYN words are read at the home (R125), others in the L1, the slice or the home, whichever first lists the word;
the caches of the path take the value (`alloc`: not for a transient miss).  What may have happened before is taken with the first word of
an access that lies in the pair (`first`). -/
def readWord (s0 : State) (core w : Nat) (syn alloc first : Bool) (t : Nat) : PWord × State :=
  if syn then (homeWord s0 (untag w), s0)
  else
    let p := plotOf core
    let ter := terraceOf core
    let cache := hasCache s0 p
    let s := if first then beforeRead s0 ter p cache w (t * 4) else s0
    match (if cache then mfind (getPlot s p).l1 w else none) with
    | some c => ((c.data, c.poison), s)
    | none => (l2View s ter w, if alloc then fillPath s p cache w else s)

/-- The newest value of a word on the path of a writer, once every other owner has given it up: its L1's or slice's where they own it,
the home's otherwise (R117, R121: a clean copy may be older). -/
def freshView (s : State) (t : Nat) (p : Option Nat) (w : Nat) : PWord :=
  match p.bind (fun q => (mfind (getPlot s q).l1 w).filter (fun c => c.dirty != 0#4)) with
  | some c => (c.data, c.poison)
  | none =>
    match (mfind (l2Of s t) w).filter (fun c => c.dirty != 0#4) with
    | some c => (c.data, c.poison)
    | none => homeWord s (untag w)

/-- Clean copies of a word leave the path of a core, which may be older than the word's last write. -/
def dropStale (s : State) (core w : Nat) : State := dropL2 (dropL1 s (plotOf core) w) (terraceOf core) w

/-- Every other owner of a word gives it up, and the core's path keeps no clean copy of it (R121). -/
def register (s : State) (core w : Nat) : State :=
  let p := plotOf core
  dropStale (revokeOthers s (terraceOf core) (if hasCache s p then some p else none) w) core w

/-! ### Values that loads may have taken early (R112, R116, R120) -/

/-- The sheaves on cores, other than the one that issues, as core, bed and sheaf. -/
def otherSheaves (s : State) : List (Nat × Nat × Nat) :=
  s.beds.flatMap (fun b =>
    if b.2.stage = .resident then
      (b.2.sheaves.filter (fun w => !isIssuer s b.1 w.1)).map (fun w => (w.2.place.core, b.1, w.1))
    else [])

/-- The issuing sheaf has seen what stands at a pair now: it keeps no older value. -/
def seePair (s : State) (scratch : Bool) (pair : Nat) : State :=
  { s with early := s.early.filter (fun e => !(isIssuer s e.bed e.sheaf && e.scratch == scratch && e.pair == pair)) }

/-- A pair is about to change: a plain load of another sheaf may already have taken what stands there, and keeps the oldest such value
until an acquire, or until it sees a newer one.  A scratch pair is one of the plot's, which only its own cores read. -/
def noteOld (s : State) (plot : Option Nat) (pair : Nat) (lo hi : Word × Bool) : State :=
  let scratch := plot.isSome
  let here := fun (c : Nat) => plot.all (fun p => decide (plotOf c = p))
  let news := (otherSheaves s).filterMap (fun x =>
    if here x.1 && !s.early.any (fun e => e.bed == x.2.1 && e.sheaf == x.2.2 && e.scratch == scratch && e.pair == pair) then
      some { core := x.1, bed := x.2.1, sheaf := x.2.2, scratch := scratch, pair := pair, lo := lo, hi := hi }
    else none)
  seePair { s with early := s.early ++ news } scratch pair

/-- A memory word is about to change, whose pair stands as `view` gives it: other sheaves' loads, and any instruction fetch, may still take
what stood there (R120, R170). -/
def noteWord (s : State) (w : Nat) (view : Nat → PWord) : State :=
  let s1 := noteOld s none (untag w / 2) (view (2 * (w / 2))) (view (2 * (w / 2) + 1))
  { s1 with oldCode := if (mfind s1.oldCode (untag w)).isSome then s1.oldCode else mset s1.oldCode (untag w) (view w).1 }

/-- The same before a write at the home by the host or an engine, for a word of memory. -/
def noteHome (s : State) (w : Nat) : State := noteWord s w (homeWord s)

/-- A core writes bytes of a word: at the home for a SYN word, else in the plot's L1, or in the slice of a plot with no
CACHE bank, which then list its pair; every other owner is revoked first (R110, R121, R125). -/
def writeWord (s : State) (core w : Nat) (syn : Bool) (be : BitVec 4) (x : PWord) : State :=
  if syn then homeThrough (noteWord s w (fun v => homeWord s (untag v))) (untag w) be x
  else
    let p := plotOf core
    let ter := terraceOf core
    let cache := hasCache s p
    let q := if cache then some p else none
    let s0 := register s core w
    let s1 := noteWord s0 w (freshView s0 ter q)
    if cache then
      setL1 s1 p ((pairWords w).foldl (fun m v => takeWord m v (freshView s1 ter q v))
        (mset (getPlot s1 p).l1 w (mergeC (freshView s1 ter q w) (dirtyOf (getPlot s1 p).l1 w) be x)))
    else
      setL2 s1 ter ((pairWords w).foldl (fun m v => takeWord m v (freshView s1 ter q v))
        (mset (l2Of s1 ter) w (mergeC (freshView s1 ter q w) (dirtyOf (l2Of s1 ter) w) be x)))

/-- The word from which an atomic takes its old value, after the owners that its place requires have given it up: the
L1 or slice at plot scope, the home cache otherwise, with no older copy left on the core's path (R112, Table 5.4). -/
def atomicView (s : State) (core w : Nat) (syn plot : Bool) : PWord × State :=
  if plot && !syn then
    let p := plotOf core
    let s1 := register s core w
    (freshView s1 (terraceOf core) (if hasCache s p then some p else none) w, seePair s1 false (untag w / 2))
  else
    let s1 := if syn then s else dropStale (revokeAll s w) core w
    (homeWord s1 (untag w), seePair s1 false (untag w / 2))

/-- The write of an atomic: in the L1 or slice at plot scope, else through the home cache with no lower copy (Table 5.4, R423). -/
def atomicWrite (s : State) (core w : Nat) (syn plot : Bool) (x : PWord) : State :=
  if plot && !syn then writeWord s core w syn 15#4 x
  else homeThrough (noteWord s w (fun v => homeWord s (untag v))) (untag w) 15#4 x

/-! ## Releases and acquires (Table 5.3) -/

/-- Words of an L1 that it owns. -/
def dirtyWords (m : Map CWord) : List Nat := (m.filter (fun p => p.2.dirty != 0#4)).map (fun p => p.1)

/-- A word of host memory, whose coherence point is host memory at every scope (Table 5.1). -/
def hostWord (w : Nat) : Bool := decide (Config.hostBase / 4 ≤ untag w)

/-- The host words that a terrace's slice, or a plot's L1, owns go to host memory (Table 5.1). -/
def releaseHost (s : State) (p : Nat) : State :=
  let t := p / 4
  let s1 := ((dirtyWords (getPlot s p).l1).filter hostWord).foldl (fun s w => l1Back s p w) s
  ((dirtyWords (l2Of s1 t)).filter hostWord).foldl (fun s w => l2Back s t w) s1

/-- The write-backs of a release at a scope code of Table 5.1 by a core (Table 5.3); host words always go to host memory. -/
def releaseAt (s0 : State) (core scope : Nat) : State :=
  let p := plotOf core
  let t := terraceOf core
  let s := releaseHost s0 p
  if scope < 3 then s
  else
    let s1 := (dirtyWords (getPlot s p).l1).foldl (fun s w => l1Back s p w) s
    if scope < 4 then s1
    else
      let s2 := (dirtyWords (l2Of s1 t)).foldl (fun s w => l2Back s t w) s1
      if scope < 5 then s2
      else ((s2.home.filter (fun h => h.2.2 == t)).map (fun h => h.1)).foldl homeFlush s2

/-- The words of a cache that an acquire keeps: the owned ones, and, where it names none of a kind, those. -/
def keepWords (m : Map CWord) (all : Bool) : Map CWord := m.filter (fun x => x.2.dirty != 0#4 || !(all || hostWord x.1))

/-- No load of a core's sheaves keeps a value that it may have taken early. -/
def forgetEarly (s : State) (core : Nat) : State := { s with early := s.early.filter (fun e => e.core != core) }

/-- The invalidations of an acquire at a scope code by a core (Table 5.3); copies of host words always go.  Loads after it take no value
that they might have taken before it (R114). -/
def acquireAt (s0 : State) (core scope : Nat) : State :=
  let s := forgetEarly s0 core
  let p := plotOf core
  let t := terraceOf core
  let l1 := keepWords (getPlot s p).l1 (decide (3 ≤ scope))
  let s1 := if l1.length = (getPlot s p).l1.length then s else setL1 s p l1
  let l2 := keepWords (l2Of s1 t) (decide (4 ≤ scope))
  if l2.length = (l2Of s1 t).length then s1 else setL2 s1 t l2

/-! ## Room in the caches (R2, R87, R423) -/

/-- The 128-byte lines of some words. -/
def linesOf (m : Map CWord) : List Nat := dedup (m.map (fun x => x.1 / 32))

/-- The cache banks of a plot: the ways of its L1 (R87). -/
def waysOf (s : State) (p : Nat) : Nat := 512 - ((getPlot s p).bankMode.filter (fun b => b.2 != 0#2)).length

/-- n of some lines, free which. -/
def victims (t : Nat) : Nat → List Nat → List Nat
  | 0, _ => []
  | _, [] => []
  | n + 1, x :: r =>
    let v := lget (x :: r) (Config.freeNat (t + n) % (r.length + 1)) x
    v :: victims t n ((x :: r).filter (fun y => y != v))

/-- A line leaves a plot's L1. -/
def evictL1 (s : State) (p line : Nat) : State := (upFrom (32 * line) 32).foldl (fun s w => l1Revoke s p w) s

/-- A line that a cache gives up although it has room, if any: free whether, and which (R132, R133: a line may leave at any time). -/
def idleLine (t : Nat) (lines : List Nat) : List Nat := 
  if lines.isEmpty then [] else if Config.freeBool t then victims (t + 1) 1 lines else []

/-- A plot's L1 holds in each of its 32 sets as many lines as it has ways. -/
def trimL1 (s : State) (p : Nat) : State :=
  let lines := linesOf (getPlot s p).l1
  let full := (below 32).flatMap (fun k =>
    let mine := lines.filter (fun x => x % 32 == k)
    victims (salt s (9100 + k)) (mine.length - waysOf s p) mine)
  (full ++ idleLine (salt s (9400 + 2 * p)) lines).foldl (fun s x => evictL1 s p x) s

/-- A slice holds its 16 MiB (R2). -/
def trimL2 (s : State) (t : Nat) : State :=
  let lines := linesOf (l2Of s t)
  (victims (salt s 9200) (lines.length - Config.sliceLines) lines ++ idleLine (salt s (9600 + 2 * t)) lines).foldl (fun s x =>
    (upFrom (32 * x) 32).foldl (fun s w => dropL2 (l2Back s t w) t w) s) s

/-- The stack of a device address (R424). -/
def stackOf (pa : Nat) : Nat := pa / 2 ^ 36 % 16

/-- The home caches of a stack hold their 16 MiB (R2): dirty lines leave for DRAM (R423). -/
def trimHome (s : State) : State :=
  (below Config.numStacks).foldl (fun s k =>
    let mine := dedup ((s.home.map (fun x => x.1 / 32)).filter (fun x => stackOf (128 * x) == k))
    (victims (salt s (9300 + k)) (mine.length - Config.sliceLines) mine ++ idleLine (salt s (9700 + 2 * k)) mine).foldl
      (fun s x => (upFrom (32 * x) 32).foldl homeFlush s) s) s

/-- Lines leave every cache that holds more than it has room for, and others at no set time. -/
def trimCaches (s : State) : State :=
  let s1 := (s.plots.filter (fun x => !x.2.l1.isEmpty)).foldl (fun s x => trimL1 s x.1) s
  let s2 := (s1.l2.filter (fun x => !x.2.isEmpty)).foldl (fun s x => trimL2 s x.1) s1
  if s2.home.isEmpty then s2 else trimHome s2

/-- A word as an engine of the memory stacks reads it: DRAM's.  A newer value that a cache holds reaches it by a system-scope release, or
where its line leaves the caches, which `trimCaches` does at no set time (R132, R133). -/
def engineWord (s : State) (w : Nat) : PWord := dramWord s w

/-! ## Bytes through the home cache (the host, the control plane, engines) -/

/-- A byte at its home cache. -/
def homeByte (s : State) (a : Nat) : Byte := byteOf (homeWord s (a / 4)).1 (a % 4)

/-- n bytes at their home caches. -/
def homeBytes (s : State) (a n : Nat) : List Byte := (upFrom a n).map (homeByte s)

/-- A word written through its home cache (R423), after any owner has given it up (R121). -/
def putHome (s : State) (w : Nat) (be : BitVec 4) (x : PWord) : State := homeThrough (revokeAll s w) w be x

/-- One byte written through a home cache. -/
def homePut (s : State) (a : Nat) (x : Byte) : State :=
  putHome s (a / 4) (1#4 <<< (a % 4)) (BitVec.ofNat 32 (x.toNat * 2 ^ (8 * (a % 4))), false)

/-- Bytes written through their home caches. -/
def homePuts (s : State) : Nat → List Byte → State
  | _, [] => s
  | a, x :: r => homePuts (homePut s a x) (a + 1) r

/-- A little-endian number from bytes. -/
def leNat : List Byte → Nat
  | [] => 0
  | b :: r => b.toNat + 256 * leNat r

/-- n bytes of a number, lowest first. -/
def natLe : Nat → Nat → List Byte
  | 0, _ => []
  | n + 1, x => BitVec.ofNat 8 x :: natLe n (x / 256)

/-- Any of the words that hold n bytes at a is poisoned at its home. -/
def homePoison (s : State) (a n : Nat) : Bool :=
  (upFrom (a / 4) ((a % 4 + n + 3) / 4)).any (fun w => (homeWord s w).2)

/-- A 64-bit value at its home cache. -/
def homeDWord (s : State) (a : Nat) : DWord := (homeWord s (a / 4 + 1)).1 ++ (homeWord s (a / 4)).1

/-- A 64-bit value written through its home cache. -/
def setHomeDWord (s : State) (a : Nat) (x : DWord) : State :=
  putHome (putHome s (a / 4) 15#4 (BitVec.ofNat 32 x.toNat, false)) (a / 4 + 1) 15#4 (BitVec.ofNat 32 (x.toNat / 2 ^ 32), false)

/-! ## Translation (R355 to R359) -/

/-- What an access is for. -/
inductive AccKind where
  | read
  | write
  | fetch
  deriving DecidableEq, Repr

/-- What a translation gives. -/
inductive Trans where
  /-- the physical address, and whether the page carries SYN -/
  | ok (pa : Nat) (syn : Bool)
  /-- an entry on the way is not valid (R355) -/
  | fault
  /-- a protection violation (R355) -/
  | violation
  /-- a write through a SNAP page (R359): the page, with its entry's address, base and size, must be saved first -/
  | snap (pte base size : Nat)
  /-- the entry names an address the package does not have (R424) -/
  | hole
  deriving DecidableEq, Repr

/-- A VA is canonical: bits [63:49] equal bit 48 (R82). -/
def canonical (va : DWord) : Bool :=
  let hi := va.toNat / 2 ^ 48
  hi == 0 || hi == 2 ^ 16 - 1

/-- The page-table entry of a VA: the entry, its level and the addresses of the entries that led to it, or how the walk
failed (R355). -/
inductive Walk where
  | leaf (pte : BitVec 64) (level : Nat) (path : List Nat)
  | fault
  | violation
  deriving DecidableEq, Repr

/-- Bit k of a page-table entry (Table 17.7). -/
def pteBit (e : BitVec 64) (k : Nat) : Bool := e.getLsbD k

/-- The address field of a page-table entry (Table 17.7). -/
def ptePa (e : BitVec 64) : Nat := e.toNat / 2 ^ 12 % 2 ^ 40 * 2 ^ 12

/-- The index of a VA at a level (R355). -/
def vaIndex (va : DWord) (level : Nat) : Nat :=
  match level with
  | 0 => va.toNat / 2 ^ 39 % 1024
  | 1 => va.toNat / 2 ^ 30 % 512
  | 2 => va.toNat / 2 ^ 21 % 512
  | _ => va.toNat / 2 ^ 12 % 512

/-- Bytes that a leaf of a level maps (R355). -/
def leafBytes (level : Nat) (c64 : Bool) : Nat :=
  match level with
  | 1 => 2 ^ 30
  | 2 => 2 ^ 21
  | _ => if c64 then 2 ^ 16 else 2 ^ 12

/-- One level of the walk; `fuel` counts the levels left. -/
def walkFrom (s : State) (va : DWord) : Nat → Nat → Nat → List Nat → Walk
  | 0, _, _, _ => .fault
  | fuel + 1, level, table, path =>
    let a := table + 8 * vaIndex va level
    let e := homeDWord s a
    if !pteBit e 0 then .fault
    else if e.toNat / 2 ^ 52 ≠ 0 || e.toNat / 2 ^ 10 % 4 ≠ 0 then .violation
    else
      let leaf := pteBit e 1
      if (level = 0 && leaf) || (level = 3 && !leaf) then .violation
      else if leaf then
        if ptePa e % leafBytes level (pteBit e 7 && level == 3) ≠ 0 then .violation else .leaf e level (a :: path)
      else walkFrom s va fuel (level + 1) ((if pteBit e 8 then Config.hostBase else 0) + ptePa e) (a :: path)

/-- The walk of a VA in an address space (R355, R406). -/
def walk (s : State) (asid : BitVec 16) (va : DWord) : Walk :=
  let root := (homeDWord s (s.hostIf.asidtab.toNat + 8 * asid.toNat)).toNat
  walkFrom s va 4 0 root []

/-- The key of a translation entry (R357). -/
def tlbKey (core : Nat) (asid : BitVec 16) (va : DWord) : Nat := (core * 2 ^ 16 + asid.toNat) * 2 ^ 37 + va.toNat / 2 ^ 12 % 2 ^ 37

/-- The entry an access uses: the walk's, or an older one still in the core's TLB where they differ (R357).  A write through an older
one with D clear, or with SNAP set, walks again, because its swap fails (R356, R359). -/
def tlbPick (s : State) (core : Nat) (asid : BitVec 16) (va : DWord) (write : Bool) (w : Walk) : Walk :=
  match mfind s.tlb (tlbKey core asid va) with
  | some (e, level) =>
    let old : Walk := if (write && (!pteBit e 5 || pteBit e 9)) || Config.freeBool (salt s (va.toNat / 2 ^ 12)) then w else .leaf e level []
    match w with
    | .leaf f l _ => if e = f ∧ level = l then w else old
    | _ => old
  | none => w

/-- The frame that a translation entry gives for a page. -/
def tlbFrame (vpn : Nat) (e : BitVec 64 × Nat) : Nat :=
  let size := leafBytes e.2 (pteBit e.1 7 && e.2 == 3)
  ((if pteBit e.1 8 then Config.hostBase else 0) + ptePa e.1 + vpn * 4096 % size) / 4096

/-- A translation entry leaves a core: its frame is noted, since lines may still be cached under it (R357). -/
def noteFrame (s : State) (key : Nat) (e : BitVec 64 × Nat) : State :=
  let x := (key % 2 ^ 53, tlbFrame (key % 2 ^ 37) e)
  if s.oldFrames.contains x then s else { s with oldFrames := x :: s.oldFrames }

/-- A translation entry enters a core's TLB. -/
def putTlb (s : State) (key : Nat) (e : BitVec 64 × Nat) : State :=
  let s1 := match mfind s.tlb key with
    | some o => if tlbFrame (key % 2 ^ 37) o = tlbFrame (key % 2 ^ 37) e then s else noteFrame s key o
    | none => s
  { s1 with tlb := mset s1.tlb key e }

/-- A bit set in a page-table entry in memory, as the walker's compare-and-swap does (R356). -/
def setPteBit (s : State) (a k : Nat) : State :=
  let e := homeDWord s a
  if pteBit e k then s else setHomeDWord s a (e ||| (1#64 <<< k))

/-- A translation for a core (R355 to R359): sets A on the way, and D before the first write. -/
def translate (s : State) (core : Nat) (asid : BitVec 16) (va : DWord) (kind : AccKind) : Trans × State :=
  match tlbPick s core asid va (decide (kind = .write)) (walk s asid va) with
  | .fault => (.fault, s)
  | .violation => (.violation, s)
  | .leaf e level path =>
    let write := decide (kind = .write)
    if (write && !pteBit e 2) || (decide (kind = .fetch) && !pteBit e 3) then (.violation, s)
    else
      let s1 := path.foldl (fun s a => setPteBit s a 4) s
      let s2 := putTlb s1 (tlbKey core asid va) (e ||| (if write && !pteBit e 9 then 0x30#64 else 0x10#64), level)
      let host := pteBit e 8
      let size := leafBytes level (pteBit e 7 && level == 3)
      let pa := ptePa e + va.toNat % size
      let a := if host then Config.hostBase + pa else pa
      if !host && decide (Config.deviceBytes ≤ pa) then (.hole, s2)
      else
        match path with
        | leafAt :: _ =>
          if write && pteBit e 9 then (.snap leafAt (a - va.toNat % size) size, s2)
          else (.ok a (pteBit e 6), if write then setPteBit s2 leafAt 5 else s2)
        | [] => (.ok a (pteBit e 6), s2)

/-- The walk of a write by an engine or the control plane sets A on its way, and D at the leaf (R356). -/
def markWrite (s : State) (asid : BitVec 16) (va : DWord) : State :=
  match walk s asid va with
  | .leaf _ _ (leafAt :: path) =>
    setPteBit ((leafAt :: path).foldl (fun s a => setPteBit s a 4) s) leafAt 5
  | _ => s

/-- A translation by the control plane or an engine, which keeps no entry: the page must allow the access. -/
def translateAt (s : State) (asid : BitVec 16) (va : DWord) (write : Bool) : Option (Nat × Bool) :=
  match walk s asid va with
  | .leaf e level _ =>
    if write && !pteBit e 2 then none
    else
      let size := leafBytes level (pteBit e 7 && level == 3)
      let pa := ptePa e + va.toNat % size
      if pteBit e 8 then some (Config.hostBase + pa, true)
      else if Config.deviceBytes ≤ pa then none
      else some (pa, false)
  | _ => none

/-- n bytes of an address space read at the home caches, page by page; none where a page does not translate. -/
def vaBytes (s : State) (asid : BitVec 16) : Nat → DWord → Option (List Byte)
  | 0, _ => some []
  | n + 1, va =>
    match translateAt s asid va false, vaBytes s asid n (va + 1#64) with
    | some (a, _), some r => some (homeByte s a :: r)
    | _, _ => none

/-! ## Scratch (R83, R97, R124) -/

/-- The bank of a scratch address is in a mode and owned by a bed of a launch (R83). -/
def bankOk (s : State) (p : Nat) (launch : Nat) (mode : BitVec 2) (bank : Nat) : Bool :=
  let pl := getPlot s p
  mget pl.bankMode bank 0#2 == mode &&
    (match mfind pl.bankOwner bank with
     | some b =>
       match getBed s b with
       | some bd => bd.launch == launch && bd.stage != .preempted
       | none => false
     | none => false)

/-- A scratch access of n bytes is legal for a launch on a plot (R83). -/
def scratchOk (s : State) (p launch a n : Nat) : Bool :=
  decide (a + n ≤ 0x200000) &&
    (upFrom (a / 4096) ((a % 4096 + n + 4095) / 4096)).all (fun b => bankOk s p launch 1#2 b)

/-- A scratch word: its bytes, and the mark of its granule (R97). -/
def scratchWord (s : State) (p w : Nat) : PWord :=
  (memWord (getPlot s p).scratch w, mget (getPlot s p).marks (w / 8) false)

/-- Bytes of a scratch word written, without touching its granule's mark. -/
def setScratch (s : State) (p w : Nat) (be : BitVec 4) (x : Word) : State :=
  modPlot s p (fun pl => { pl with scratch := setWord pl.scratch w (mergeBytes (memWord pl.scratch w) x be) })

/-- The mark of a scratch granule set or cleared (R97). -/
def setMark (s : State) (p gran : Nat) (q : Bool) : State :=
  modPlot s p (fun pl => { pl with marks := mput pl.marks gran q false })

/-- n scratch bytes. -/
def scratchBytes (s : State) (p a n : Nat) : List Byte := (upFrom a n).map (fun k => memByte (getPlot s p).scratch k)

/-- Scratch bytes written. -/
def scratchPuts (s : State) (p : Nat) : Nat → List Byte → State
  | _, [] => s
  | a, x :: r => scratchPuts (modPlot s p (fun pl => { pl with scratch := setByte pl.scratch a x })) p (a + 1) r

end Sys2Proof.Machine
end

