-- ==== Sys2Proof/Machine/Layout.lean ====
section
/-! DEFINITION. The launch of a bed and its record's fields, roles (R27, R334), the layout of a bed image (Table 17.4, Table 2.6), and
how a line of the register cache is filled from it (R50, R51). -/

namespace Sys2Proof.Machine

/-! ## Launches and beds -/

/-- The launch of a bed. -/
def launchOf (s : State) (b : Nat) : Option Launch :=
  match getBed s b with
  | some bd => getLaunch s bd.launch
  | none => none

/-- The address space of a bed (R406). -/
def asidOf (s : State) (b : Nat) : BitVec 16 :=
  match launchOf s b with
  | some l => l.asid
  | none => 0#16

/-- The launch name of a bed, or a name that no launch has. -/
def launchKey (s : State) (b : Nat) : Nat :=
  match getBed s b with
  | some bd => bd.launch
  | none => 2 ^ 70

/-- A field of a launch record, bits [hi:lo] (Table 16.2). -/
def recField (r : BitVec 2048) (hi lo : Nat) : Nat := bits r.toNat hi lo

/-! ## Roles (R27, R334) -/

/-- Role entry e of a launch record (Table 16.2). -/
def roleWord (r : BitVec 2048) (e : Nat) : Nat := recField r (415 + 32 * e) (384 + 32 * e)

/-- The launch declares no roles. -/
def noRoles (r : BitVec 2048) : Bool := (below 4).all (fun e => roleWord r e == 0)

/-- The role entry of sheaf k, its code and its budget in registers. -/
def roleOf (r : BitVec 2048) (k : Nat) : Nat × Nat × Nat :=
  if noRoles r then (0, 0, 16 * recField r 343 336)
  else
    let upTo := fun e => (below e).foldl (fun n x => n + bits (roleWord r x) 31 16) 0
    match (below 4).find? (fun e => decide (k < upTo (e + 1))) with
    | some e => (e, bits (roleWord r e) 7 0, 16 * bits (roleWord r e) 15 8)
    | none => (0, 0, 16)

/-! ## Layout (Table 17.4, Table 2.6) -/

/-- A size rounded up to whole pages. -/
def wholePages (n : Nat) : Nat := (n + 4095) / 4096 * 4096

/-- Bytes of a lane block. -/
def laneBlockSize (budget : Nat) : Nat := 0x80 + 140 * budget

/-- Offsets of a bed image. -/
structure ImgLay where
  n : Nat
  /-- lane blocks, by sheaf -/
  lanes : List Nat
  budgets : List Nat
  acc : Nat
  plot : Nat
  bs : Nat
  size : Nat
  deriving DecidableEq, Repr

/-- SCRATCH and FIFO banks that a bed declares. -/
def banksPerBed (r : BitVec 2048) : Nat := recField r 527 512 + recField r 543 528

/-- Bytes kept for a plot block: the banks of four beds at most. -/
def plotBlockRoom (r : BitVec 2048) : Nat := 64 + 2048 + 4112 * Nat.min 512 (4 * banksPerBed r)

/-- The layout of the images of a launch's beds. -/
def imgLay (r : BitVec 2048) : ImgLay :=
  let n := recField r 127 112
  let start := wholePages (0x1000 + 0x3400 * n)
  let x := (below n).foldl (fun (a : List Nat × List Nat × Nat) k =>
    let b := (roleOf r k).2.2
    (a.1 ++ [a.2.2], a.2.1 ++ [b], a.2.2 + wholePages (laneBlockSize b))) ([], [], start)
  let plot := x.2.2 + wholePages 0x10100
  let bs := plot + wholePages (plotBlockRoom r)
  { n := n, lanes := x.1, budgets := x.2.1, acc := x.2.2, plot := plot, bs := bs, size := bs + wholePages (recField r 639 608) }

/-- The layout of a bed's image. -/
def layOf (s : State) (b : Nat) : ImgLay :=
  match launchOf s b with
  | some l => imgLay l.record
  | none => { n := 0, lanes := [], budgets := [], acc := 0, plot := 0, bs := 0, size := 0 }

/-! ## Registers in the image -/

/-- A word of device memory. -/
def imgRead (s : State) (a : Nat) : Word := (homeWord s (a / 4)).1

/-- One register as a lane block holds it; none where its tag code is 3. -/
def loadReg (s : State) (lb budget p : Nat) : Option VReg :=
  let code := (imgRead s (lb + 4 * (p / 16))).toNat / 4 ^ (p % 16) % 4
  let na := lb + 0x80 + 4 * budget + 8 * p
  let ga := lb + 0x80 + 12 * budget + 128 * p
  let form := match code with
    | 0 => some (Form.u (imgRead s na))
    | 1 => some (Form.a (imgRead s na) (imgRead s (na + 4)))
    | 2 => some (Form.g ((below 32).map (fun i => imgRead s (ga + 4 * i))))
    | _ => none
  form.map (fun f => { form := f, poison := imgRead s (lb + 0x80 + 4 * p), line := .present, row := 0, used := 0 })

/-- The lane block of a sheaf in a bed's image. -/
def laneBlock (s : State) (b w img : Nat) : Nat := img + lget (layOf s b).lanes w 0

/-! ## Lines of the register cache (R50, R51) -/

/-- The line keys of a sheaf's registers in the register cache, each once. -/
def lineKeys (sh : Sheaf) : List Nat :=
  dedup ((sh.v.filter (fun r => decide (r.1 < 512) && r.2.line != .absent)).map (fun r => if r.2.row = 0 then 2 ^ 20 + r.1 else r.2.row))

/-- The absent registers of a line: those of a narrow line that was evicted; a register that was never filled comes in one line with the
others of its aligned 32 that never were (DESIGN CHOICE, log 14). -/
def absentMates (sh : Sheaf) (p : Nat) : List Nat :=
  let row := (vreg sh p).row
  if row ≠ 0 then (sh.v.filter (fun r => r.2.row == row && r.2.line == .absent)).map (fun r => r.1)
  else if (mfind sh.v p).isSome then [p]
  else (upFrom (p / 32 * 32) 32).filter (fun q => (mfind sh.v q).isNone && decide (q < sh.place.budget))

/-- An absent register as its bed's image holds it; where the bed has no image, or the tag is that of no register, as it stands. -/
def fillReg (s : State) (b w p : Nat) (sh : Sheaf) : VReg :=
  let old := { vreg sh p with line := .present }
  match (getBed s b).bind (fun bd => bd.image) with
  | some img => (loadReg s (laneBlock s b w img) sh.place.budget p).getD old
  | none => old

/-- A filled register stands in the line that it had, in line `own` where it had none, or, with another tag, where its new form goes. -/
def placeFilled (own now : Nat) (sh : Sheaf) (p : Nat) (r : VReg) : Sheaf :=
  let o := vreg sh p
  let row := match r.form with
    | .g _ => 0
    | f => if formCode o.form = formCode f then (if o.row = 0 then own else o.row) else freeRow sh f
  { sh with v := mset sh.v p { r with row := row, used := now } }

/-- The sheaf with a register's line filled. -/
def bringLine (s : State) (b w p : Nat) (sh : Sheaf) : Sheaf :=
  let own := newRow sh
  (absentMates sh p).foldl (fun x q => placeFilled own s.ticks x q (fillReg s b w q sh)) sh

end Sys2Proof.Machine
end

