-- ==== Sys2Proof/Machine/Ops.lean ====
section
/-! DEFINITION. The shared operations: the event log, pending results, taking a trap and returning from one (R340 to R347),
the matrix freeze (R281), rejoin releases and sheaf ends (R22, R39), yields, and the due events a step leaves behind. -/

namespace Sys2Proof.Machine

/-! ## Due events and the event log -/

/-- The state with an event due. -/
def due (s : State) (i : Event) : State := { s with agenda := s.agenda ++ [i] }

/-- A die as it stands. -/
def getDie (s : State) (d : Nat) : Die := mget s.dies d { cycle := 0#64, seq := 0#32 }

/-- An event-log entry (Table 21.5). -/
def eventEntry (kind die : Nat) (cause : Option (Nat × Word)) (seq detail : Word) (cycle subject : DWord) : BitVec 256 :=
  let cz := match cause with
    | some (d, q) => 2 ^ 18 + d % 4 * 2 ^ 19 + q.toNat * 2 ^ 64
    | none => 0
  BitVec.ofNat 256 (kind % 2 ^ 16 + die % 4 * 2 ^ 16 + cz + seq.toNat * 2 ^ 32 + detail.toNat * 2 ^ 96 +
    cycle.toNat * 2 ^ 128 + subject.toNat * 2 ^ 192)

/-- An event is logged: numbered by its die; a full ring loses its oldest entry (R421). -/
def logEvent (s : State) (kind die : Nat) (cause : Option (Nat × Word)) (detail : Word) (subject : Nat) : State :=
  let d := getDie s die
  let e := eventEntry kind die cause d.seq detail d.cycle (BitVec.ofNat 64 subject)
  let full := decide (Config.eventRing ≤ s.evlog.length)
  { s with
    dies := mset s.dies die { d with seq := d.seq + 1#32 },
    evlog := (if full then s.evlog.drop 1 else s.evlog) ++ [e],
    evlost := if full then s.evlost + 1 else s.evlost }

/-- A performance counter of a core counts (R61). -/
def count (s : State) (core k n : Nat) : State :=
  modCore s core (fun c => { c with perf := mset c.perf k (mget c.perf k 0#32 + BitVec.ofNat 32 n) })

/-- A new name for a bed, copy, search, batch, collective, packet or pending result. -/
def fresh (s : State) : Nat × State := (s.nextKey, { s with nextKey := s.nextKey + 1 })

/-! ## Images (R410, Table 20.7) -/

/-- The number of the active image of a kind; 0 where none is. -/
def activeImage (s : State) (kind : Nat) : Nat := mget s.mgmt.active kind 0

/-- The bytes of an image. -/
def imageOf (s : State) (n : Nat) : List Byte := mget s.mgmt.images n []

/-- A word of an image's payload, which follows its 256-byte header. -/
def payloadWord (img : List Byte) (off : Nat) : Word :=
  let b := fun k => lget img (256 + off + k) 0#8
  wordOf (b 0) (b 1) (b 2) (b 3)

/-! ## Launches and beds -/

/-- The bed holds its core's matrix claim (R45). -/
def holdsClaim (s : State) (b core : Nat) : Bool := (getCore s core).claim == some b

/-- A sheaf of the bed is in handler mode. -/
def handlerInBed (s : State) (b : Nat) : Bool :=
  match getBed s b with
  | some bd => bd.sheaves.any (fun w => w.2.handler)
  | none => false

/-! ## Pending results (R180, R341) -/

/-- The accumulator row key of a core (R45). -/
def accKey (unit tile row : Nat) : Nat := (unit * 8 + tile) * 8 + row

/-- A row of +0.0 (R41). -/
def zeroRow : List Word := copies 16 0#32

/-- The sheaves that a core's claiming bed runs. -/
def claimSheaves (s : State) (core : Nat) : List Sheaf :=
  match (getCore s core).claim with
  | some b =>
    match getBed s b with
    | some bd => bd.sheaves.map (fun w => w.2)
    | none => []
  | none => []

/-- A pending row write. -/
def PWrite.row? (w : PWrite) (unit tile row : Nat) : Option (List Word) :=
  match w with
  | .row u t r vs => if u = unit ∧ t = tile ∧ r = row then some vs else none
  | _ => none

/-- The latest pending value of a row with its instruction's name, over a sheaf's pending results. -/
def pendingRow (ops : List LongOp) (unit tile row : Nat) (best : Nat × List Word) : Nat × List Word :=
  ops.foldl (fun acc op => op.writes.foldl (fun acc w =>
    match w.row? unit tile row with
    | some vs => if op.ready && op.trap.isNone && decide (acc.1 ≤ op.id + 1) then (op.id + 1, vs) else acc
    | none => acc) acc) best

/-- A row of a tile of a quarter unit with every issued accumulation in it (R266: issue order). -/
def accRow (s : State) (core unit tile row : Nat) : List Word :=
  let base := mget (getCore s core).acc (accKey unit tile row) zeroRow
  ((claimSheaves s core).foldl (fun acc sh => pendingRow sh.long unit tile row acc) (0, base)).2

/-- Rows older than instruction `id` no longer wait to be written (R266). -/
def dropRow (ops : List LongOp) (id unit tile row : Nat) : List LongOp :=
  ops.map (fun op =>
    if op.id < id then { op with writes := op.writes.filter (fun w => (w.row? unit tile row).isNone) } else op)

/-- A row written now: older pending writes of it are superseded. -/
def setRow (s : State) (core id unit tile row : Nat) (vs : List Word) : State :=
  let s1 := modCore s core (fun c => { c with acc := mput c.acc (accKey unit tile row) vs zeroRow })
  match (getCore s core).claim with
  | some b => modBed s1 b (fun bd =>
      { bd with sheaves := bd.sheaves.map (fun w => (w.1, { w.2 with long := dropRow w.2.long id unit tile row })) })
  | none => s1

/-! ### Lines of the register cache (R50) -/

/-- The name of a register's line: its narrow line, or one of its own. -/
def lineKey (p : Nat) (r : VReg) : Nat := if r.row = 0 then 2 ^ 20 + p else r.row

/-- The line of a register of a sheaf. -/
def lineOf (sh : Sheaf) (p : Nat) : Nat := lineKey p (vreg sh p)

/-- Every register of some lines of a sheaf changed. -/
def modLines (sh : Sheaf) (keys : List Nat) (f : VReg → VReg) : Sheaf :=
  { sh with v := sh.v.map (fun r => (r.1, if r.2.line != .absent && keys.contains (lineKey r.1 r.2) then f r.2 else r.2)) }

/-- The drowsy lines among those of some registers. -/
def drowsyLines (sh : Sheaf) (regs : List Nat) : List Nat :=
  dedup ((regs.filter (fun p => (vreg sh p).line == .drowsy)).map (lineOf sh))

/-- Registers are used now, and so are their lines (R52, R311). -/
def useRegs (now : Nat) (regs : List Nat) (sh : Sheaf) : Sheaf :=
  { sh with v := sh.v.map (fun r => (r.1, if regs.contains r.1 then { r.2 with used := now } else r.2)) }

/-- The drowsy lines of some registers wake on an access, and are counted (Table 2.3, R61). -/
def wakeLines (s : State) (b w : Nat) (regs : List Nat) : State :=
  match getSheaf s b w with
  | none => s
  | some sh =>
    let keys := drowsyLines sh regs
    if keys.isEmpty then s
    else count (setSheaf s b w (modLines sh keys (fun r => { r with line := .present }))) sh.place.core 9 keys.length

/-- A register's line is filled (R51): every absent register of it returns, and the lines filled are counted (R61). -/
def fillLine (s : State) (b w p : Nat) : State :=
  match getSheaf s b w with
  | none => s
  | some sh =>
    let x := bringLine s b w p sh
    count (setSheaf s b w x) sh.place.core 7 ((lineKeys x).length - (lineKeys sh).length)

/-- The absent lines of some registers are filled. -/
def fillLines (s : State) (b w : Nat) (ps : List Nat) : State :=
  ps.foldl (fun s p =>
    match getSheaf s b w with
    | some sh => if lineState sh p = .absent then fillLine s b w p else s
    | none => s) s

/-- One pending result written: a write of some lanes of an absent register fills its line first (R51). -/
def applyWrite (s : State) (b w core id : Nat) (p : PWrite) : State :=
  match p with
  | .lanes ph m vs q =>
    let regs := (lanesOf m).map (fun i => lget ph i 0)
    if m = 0#32 then s
    else if m = Mask.full ∧ ph.all (fun x => x == lget ph 0 0) = true then
      modSheaf (wakeLines s b w regs) b w (fun sh => useRegs s.ticks [lget ph 0 0] (putForm sh (lget ph 0 0) (.g vs) q))
    else modSheaf (fillLines (wakeLines s b w regs) b w (dedup regs)) b w (fun sh => useRegs s.ticks regs (writePhys sh ph m vs q))
  | .group n x q => if n = 0 then s else modSheaf s b w (fun sh => { sh with g := mput sh.g n x 0#32, gp := mput sh.gp n q false })
  | .row u t r vs => setRow s core id u t r vs

/-- A pending instruction without the results that a younger one's results cover (R180: the younger write remains). -/
def underWrites (o : LongOp) (ws : List PWrite) : LongOp :=
  { o with writes := ws.foldl (fun k w =>
      match w with
      | .lanes ph m _ _ => k.map (fun x => x.without ph m)
      | .group n _ _ => k.filter (fun x => (x.group? n).isNone)
      | .row _ _ _ _ => k) o.writes }

/-- The pending instructions once instruction `id` has written its results: the ones issued before it yield to them. -/
def supersedeBefore : List LongOp → Nat → List PWrite → List LongOp
  | [], _, _ => []
  | o :: r, id, ws => if o.id = id then o :: r else underWrites o ws :: supersedeBefore r id ws

/-- A one-hot cause word (R340). -/
def causeBit (n : Nat) : Word := 1#32 <<< n

/-- The record of a trap (Table 17.2): its place, its precision (R342) and its detail (Table 17.3). -/
def trapRecord (sh : Sheaf) (t : LateTrap) (pc resume : DWord) (ctl : Mask) (inst0 inst1 : Word) (precise keep handler : Bool) :
    TrapRec :=
  { cause := causeBit t.cause, tpc := pc, trpc := resume, prec := precise, restart := !precise, keep := keep,
    handler := handler, paired := false, lost := false, hact := 0#2,
    treg := match lowest ctl with
      | some l => lget sh.regionPc l 0#64
      | none => 0#64,
    tregcnt := sh.regionCnt, tmask := if handler then 0#32 else ctl, tlanes := t.lanes, tlanes2 := t.lanes2,
    tdetail := t.detail, taddr := t.addr, tinst0 := inst0, tinst1 := inst1 }

/-- A record joins the pending queue, or is dropped where the queue is full (R347). -/
def pendRecord (sh : Sheaf) (r : TrapRec) : Sheaf :=
  if sh.pend.length < 8 then { sh with pend := sh.pend ++ [r] }
  else { sh with record := { sh.record with lost := true }, tdrop := sh.tdrop ||| r.cause }

/-- The late trap of an issued instruction as a record: precise if nothing younger issued (R220). -/
def lateRecord (sh : Sheaf) (op : LongOp) (t : LateTrap) : TrapRec :=
  trapRecord sh t op.pc op.pc op.ctl op.inst0 op.inst1 (!op.younger) false op.handler

/-- An instruction is no longer pending; what is left of its span still counts (R307). -/
def removeOp (sh : Sheaf) (op : LongOp) : Sheaf :=
  { sh with
    long := sh.long.filter (fun o => o.id != op.id),
    span := lanes.map (fun i => Nat.max (lget sh.span i 0) (lget op.spans i 0)) }

/-- The results of one issued instruction are written (R180, R79), and it is no longer pending. -/
def finishOp (s : State) (b w : Nat) (op : LongOp) : State :=
  match getSheaf s b w with
  | none => s
  | some sh =>
    let core := sh.place.core
    let s1 := op.writes.foldl (fun s p => applyWrite s b w core op.id p) s
    modSheaf s1 b w (fun sh =>
      { removeOp { sh with long := supersedeBefore sh.long op.id op.writes } op with
        seenin := sh.seenin || op.seenIn, seenout := sh.seenout || op.seenOut })

/-- Every formed result of a sheaf is written; the traps of those that trap join the pending queue (R341, step 2). -/
def drain (s : State) (b w : Nat) : State :=
  match getSheaf s b w with
  | none => s
  | some sh =>
    (sh.long.filter (fun o => o.ready)).foldl
      (fun s op =>
        match op.trap with
        | some t => modSheaf s b w (fun sh =>
            pendRecord (removeOp sh op) (lateRecord sh op t))
        | none => finishOp s b w op) s

/-! ### Unit operations that run again (R281, R341, R349) -/

/-- The unit operations of a sheaf that run again after a late transition (R371). -/
def replayedOps (s : State) (b w core : Nat) : List Nat :=
  (getCore s core).attempts.filterMap (fun a => if a.2.cur.bed = b ∧ a.2.cur.sheaf = w then a.2.op else none)

/-- Pending results of some names are formed. -/
def readyOps (ids : List Nat) (sh : Sheaf) : Sheaf :=
  { sh with long := sh.long.map (fun o => if ids.contains o.id then { o with ready := true } else o) }

/-- Issued unit operations of a sheaf that run again complete: nothing of the sheaf goes on before they have (R341, step 2; R349). -/
def endReplays (s : State) (b w core : Nat) : State :=
  let ids := replayedOps s b w core
  if ids.isEmpty then s
  else
    modCore (modSheaf s b w (readyOps ids)) core (fun c =>
      { c with attempts := c.attempts.filter (fun a => !(a.2.cur.bed == b && a.2.cur.sheaf == w && a.2.op.isSome)) })

/-- The same for every sheaf of a bed (R281, step 1). -/
def endBedReplays (s : State) (b core : Nat) : State :=
  match getBed s b with
  | some bd => bd.sheaves.foldl (fun s w => endReplays s b w.1 core) s
  | none => s

/-! ## Taking a trap (R341) -/

/-- Every thread's lookahead span ends (R180). -/
def endAllSpans (sh : Sheaf) : Sheaf := endSpans sh Mask.full

/-- The matrix units of a core freeze where the bed holds the claim: quarter operations already issued complete first (R281). -/
def freezeFor (s : State) (b core : Nat) : State :=
  if holdsClaim s b core then modCore (endBedReplays s b core) core (fun c => { c with frozen := true }) else s

/-- The units thaw when no sheaf of the claiming bed is in handler mode (R281). -/
def thawFor (s : State) (b core : Nat) : State :=
  if holdsClaim s b core && !handlerInBed s b then modCore s core (fun c => { c with frozen := false }) else s

/-- Every other sheaf of a bed whose stop-bed bit is set stops (R364). -/
def stopBed (s : State) (b w : Nat) : State :=
  modBed s b (fun bd =>
    { bd with
      stopper := some w,
      sheaves := bd.sheaves.map (fun x => if x.1 = w then x else (x.1, { x.2 with bedStop := true })) })

/-- Threads that a single step held go on (R365). -/
def endStep (sh : Sheaf) : Sheaf :=
  match sh.stepping with
  | some _ => { sh with stepping := none, stopM := 0#32 }
  | none => sh

/-- The other sheaves of the bed stop where the record is a breakpoint's or TRAP's and the sheaf's stop-bed bit is set (R205, R364). -/
def stopAsked (s : State) (b w : Nat) (sh : Sheaf) (r : TrapRec) : State :=
  if sh.stopBed && (r.cause == causeBit 16 || r.cause == causeBit 15) then stopBed s b w else s

/-- TAKING A TRAP (R341 to R347): a sheaf in handler mode keeps the record pending; otherwise issued instructions complete,
the units freeze, the record is written and the handler starts at offset 0.  No thread's state changes. -/
def takeTrap (s : State) (b w : Nat) (r : TrapRec) : State :=
  match getSheaf s b w with
  | none => s
  | some sh0 =>
    if sh0.handler then modSheaf s b w (fun sh => pendRecord sh r)
    else
      let core := sh0.place.core
      let s1 := drain (endReplays (setSheaf s b w { sh0 with record := { sh0.record with lost := false } }) b w core) b w
      let s2 := modSheaf s1 b w (fun sh =>
        { endStep (endAllSpans sh) with handler := true, hpc := 0#64, himg := activeImage s 5, record := { r with lost := sh.record.lost } })
      stopAsked (freezeFor s2 b core) b w sh0 r

/-- The record of an instruction-precise trap of the issuing instruction. -/
def curRecord (c : Cur) (sh : Sheaf) (t : LateTrap) (resume : DWord) (keep : Bool) : TrapRec :=
  trapRecord sh t c.pc resume c.ctl c.inst0 c.inst1 true keep sh.handler

/-- The issuing instruction traps and takes no effect; in handler mode the handler goes on at its next instruction (R347). -/
def trapWith (s : State) (c : Cur) (sh : Sheaf) (t : LateTrap) (resume : DWord) (keep : Bool) : Out :=
  let s1 := if sh.handler then putSheaf s c (advance c sh) else s
  .next (takeTrap s1 c.bed c.sheaf (curRecord c sh t resume keep))

/-- A cause with no detail. -/
def plainTrap (cause : Nat) : LateTrap := { cause := cause, lanes := 0#32, lanes2 := 0#32, detail := 0#32, addr := 0#64 }

/-- A cause with its TDETAIL. -/
def detailTrap (cause detail : Nat) : LateTrap := { plainTrap cause with detail := BitVec.ofNat 32 detail }

/-- An instruction-precise trap that resumes at its own PC (R342). -/
def trap (s : State) (c : Cur) (sh : Sheaf) (t : LateTrap) : Out := trapWith s c sh t c.pc false

/-- Illegal instruction (Table 17.1, bit 0). -/
def illegal (s : State) (c : Cur) (sh : Sheaf) : Out := trap s c sh (plainTrap 0)

/-- Privilege (bit 2). -/
def privilege (s : State) (c : Cur) (sh : Sheaf) : Out := trap s c sh (plainTrap 2)

/-- Misalignment (bit 3) of a lane at an address: the lanes without effect and the lowest failing one (Table 17.3). -/
def misaligned (s : State) (c : Cur) (sh : Sheaf) (m : Mask) (lane : Nat) (addr : DWord) : Out :=
  trap s c sh { cause := 3, lanes := m, lanes2 := 0#32, detail := BitVec.ofNat 32 lane, addr := addr }

/-- Access violation (bit 4). -/
def violation (s : State) (c : Cur) (sh : Sheaf) (m : Mask) (lane : Nat) (addr : DWord) : Out :=
  trap s c sh { cause := 4, lanes := m, lanes2 := 0#32, detail := BitVec.ofNat 32 lane, addr := addr }

/-- Range lock (bit 5): the first trapping lane and the entry (Table 17.3). -/
def rangeTrap (s : State) (c : Cur) (sh : Sheaf) (lane entry : Nat) (addr : DWord) : Out :=
  trap s c sh { cause := 5, lanes := 0#32, lanes2 := 0#32, detail := BitVec.ofNat 32 (lane + entry * 256), addr := addr }

/-- Poison use (bit 6) of the lanes consumed (R56). -/
def poisonUse (s : State) (c : Cur) (sh : Sheaf) (m : Mask) : Out :=
  trap s c sh { plainTrap 6 with lanes := m }

/-- Tile state (bit 11) of a handle. -/
def tileTrap (s : State) (c : Cur) (sh : Sheaf) (handle : Nat) : Out := trap s c sh (detailTrap 11 (handle % 32))

/-- Queue fault (bit 12). -/
def queueFault (s : State) (c : Cur) (sh : Sheaf) : Out := trap s c sh (plainTrap 12)

/-- Rejoin overflow (bit 13) of jK by SETJ, JOIN, JLEAVE or JFILL (Table 17.3). -/
def rejoinOverflow (s : State) (c : Cur) (sh : Sheaf) (k op : Nat) : Out := trap s c sh (detailTrap 13 (k + op * 16))

/-! ## Leaving the handler (R346) -/

/-- The event is a kill of a launch. -/
def isKillOf (l : Nat) (e : Event) : Bool :=
  match e with
  | .launchKill k _ => k == l
  | _ => false

/-- A launch is to be killed for a cause (R360), once: the kill is due. -/
def killLaunch (s : State) (l cause : Nat) (die : Option Nat) : State :=
  if s.agenda.any (isKillOf l) then s
  else due (modLaunch s l (fun x => { x with killDie := die })) (.launchKill l (BitVec.ofNat 5 cause))

/-- An event-log entry of a margin trap of a core (Table 21.6, kind 2; R380). -/
def isMarginEntry (core : Nat) (e : BitVec 256) : Bool := bits e.toNat 15 0 == 2 && bits e.toNat 255 192 == core

/-- The number of the log entry of the trap for which a core asks for a kill: its margin trap's; other causes are not logged (R421). -/
def causeSeq (s : State) (core cause : Nat) : Option Word :=
  if cause = 19 then (s.evlog.reverse.find? (isMarginEntry core)).map (fun e => BitVec.ofNat 32 (bits e.toNat 63 32)) else none

/-- A bed's core asks for the kill of its launch: the core, and the log entry of its cause, are kept for the log (R360, R421). -/
def requestKill (s : State) (b cause : Nat) : State :=
  let l := launchKey s b
  match getBed s b with
  | none => killLaunch s l cause none
  | some bd =>
    if s.agenda.any (isKillOf l) then s
    else modLaunch (killLaunch s l cause (some (dieOf bd.core))) l (fun x =>
      { x with killCore := some bd.core, killSeq := causeSeq s bd.core cause })

/-- The cause number of a one-hot word. -/
def causeOf (x : Word) : Nat := lowestD x

/-- The threads of the record go where it says (R346); a PC's bits [1:0] are zero (R8). -/
def resumeThreads (sh : Sheaf) : Sheaf :=
  if sh.record.keep then sh
  else
    { sh with pcs := lanes.map (fun i =>
        if bit sh.record.tmask i then (if sh.record.restart then lget sh.regionPc i 0#64 else sh.record.trpc &&& ~~~(3#64))
        else lget sh.pcs i 0#64) }

/-- Other sheaves of the bed that a stop-bed breakpoint stopped go on (R364). -/
def releaseBed (s : State) (b w : Nat) : State :=
  modBed s b (fun bd =>
    if bd.stopper = some w then
      { bd with stopper := none, sheaves := bd.sheaves.map (fun x => if x.1 = w then x else (x.1, { x.2 with bedStop := false })) }
    else bd)

/-- Only the threads of the record issue, one instruction, after an HRET with SSTEP set (R365). -/
def startStep (sh : Sheaf) : Sheaf :=
  if sh.sstep then
    let l := lowestD sh.record.tmask
    { sh with stepping := some (sh.record.tmask, lget sh.pcs l 0#64), stopM := ~~~sh.record.tmask }
  else sh

/-- RETURN FROM A TRAP (R346): kill, stop for the debugger, deliver the oldest pending record, or leave handler mode. -/
def leaveHandler (s : State) (b w : Nat) : State :=
  match getSheaf s b w with
  | none => s
  | some sh =>
    let core := sh.place.core
    let kill := sh.record.hact == 1#2 || sh.record.cause == causeBit 6 || sh.record.cause == causeBit 20
    if kill then requestKill s b (causeOf sh.record.cause)
    else
      let sh1 := resumeThreads sh
      if sh.record.hact = 2#2 then
        thawFor (setSheaf s b w { sh1 with handler := false, stopM := Mask.full }) b core
      else
        match sh1.pend with
        | r :: rest =>
          stopAsked (setSheaf s b w { sh1 with pend := rest, hpc := 0#64, himg := activeImage s 5, record := r }) b w sh1 r
        | [] => thawFor (releaseBed (setSheaf s b w (startStep { sh1 with handler := false })) b w) b core

/-- A sheaf that is not in handler mode delivers its oldest pending record before it issues (R349, R364). -/
def deliverPending (s : State) (b w : Nat) : State :=
  match getSheaf s b w with
  | none => s
  | some sh =>
    match sh.handler, sh.pend with
    | false, r :: rest =>
      stopAsked (freezeFor (setSheaf s b w
        { endAllSpans sh with handler := true, pend := rest, hpc := 0#64, himg := activeImage s 5, record := r }) b sh.place.core) b w sh r
    | _, _ => s

/-! ## Threads, rejoin registers and yields -/

/-- A thread's park state. -/
def parkOf (sh : Sheaf) (i : Nat) : Park := lget sh.park i .done

/-- Threads of a mask take a park state. -/
def setPark (sh : Sheaf) (m : Mask) (p : Park) : Sheaf :=
  { sh with park := lanes.map (fun i => if bit m i then p else parkOf sh i) }

/-- The threads in RUN that no stop holds (R8, R364). -/
def runMask (sh : Sheaf) : Mask := if sh.bedStop then 0#32 else maskOf (fun i => parkOf sh i == .run) &&& ~~~sh.stopM

/-- The threads in DONE. -/
def doneMask (sh : Sheaf) : Mask := maskOf (fun i => parkOf sh i == .done)

/-- The threads parked on jK. -/
def joinMask (sh : Sheaf) (k : BitVec 4) : Mask := maskOf (fun i => parkOf sh i == .join k)

/-- The threads parked in a wait that satisfies p. -/
def waitMask (sh : Sheaf) (p : WaitFor → Bool) : Mask :=
  maskOf (fun i => match parkOf sh i with
    | .wait w => p w
    | _ => false)

/-- E of jK (R20). -/
def jE (sh : Sheaf) (k : Nat) : Word := mget sh.je k 0#32

/-- A of jK (R20). -/
def jA (sh : Sheaf) (k : Nat) : Word := mget sh.ja k 0#32

/-- jK replaced. -/
def setJ (sh : Sheaf) (k : Nat) (e a : Word) : Sheaf := { sh with je := mput sh.je k e 0#32, ja := mput sh.ja k a 0#32 }

/-- The release test of jK (R22, R23): every expected thread has arrived, so those parked with their bit in A return to RUN;
or E has become zero with no thread parked on it (R208: counted in A), so A is cleared. -/
def releaseJ (sh : Sheaf) (k : Nat) : Sheaf :=
  let e := jE sh k
  let a := jA sh k
  if e ≠ 0#32 ∧ e &&& ~~~a = 0#32 then
    setPark (setJ sh k 0#32 0#32) (joinMask sh (BitVec.ofNat 4 k) &&& a) .run
  else if e = 0#32 ∧ joinMask sh (BitVec.ofNat 4 k) &&& a = 0#32 then setJ sh k 0#32 0#32
  else sh

/-- Threads leave E of jK, and the release test follows (R23). -/
def leaveJ (sh : Sheaf) (k : Nat) (m : Mask) : Sheaf := releaseJ (setJ sh k (jE sh k &&& ~~~m) (jA sh k)) k

/-- Threads end (R23): they leave every rejoin register and enter DONE. -/
def endThreads (sh : Sheaf) (m : Mask) : Sheaf :=
  (below 16).foldl (fun sh k => if jE sh k = 0#32 then sh else leaveJ sh k m) (setPark (endSpans sh m) m .done)

/-- All 32 threads are in DONE (R39). -/
def sheafEnded (sh : Sheaf) : Bool := decide (doneMask sh = Mask.full)

/-- The matrix token goes to the first waiting taker, which unparks, or is freed (R29, R30); the cycles it waited are counted (R61). -/
def passToken (s : State) (core : Nat) : State :=
  match (getCore s core).tokQ with
  | t :: rest =>
    let s1 := modCore (count s core 15 (Config.freeNat (salt s 5203))) core (fun c => { c with token := some t, tokQ := rest.filter (fun u => u != t) })
    modSheaf s1 t.1 t.2 (fun sh =>
      let m := waitMask sh (fun x => x == .token)
      { setPark sh m .run with
        pcs := lanes.map (fun i => if bit m i then lget sh.pcs i 0#64 + 4#64 else lget sh.pcs i 0#64) })
  | [] => modCore s core (fun c => { c with token := none })

/-- The token leaves a sheaf that no longer can hold it (R30); the cycles of a wait that so ends are counted (R61). -/
def dropToken (s : State) (core b w : Nat) : State :=
  let s0 := if (getCore s core).tokQ.contains (b, w) then count s core 15 (Config.freeNat (salt s 5204)) else s
  let s1 := modCore s0 core (fun c => { c with tokQ := c.tokQ.filter (fun t => t != (b, w)) })
  if (getCore s1 core).token = some (b, w) then passToken s1 core else s1

/-- Every sheaf of the bed has ended, and no later wave will start (R39, R40). -/
def bedEnded (bd : Bed) : Bool :=
  bd.sheaves.all (fun w => sheafEnded w.2) && (bd.bexit || decide (bd.total ≤ bd.sheaves.length))

/-- A sheaf may have ended: its token goes on, a wave may start, or the bed's exit is due (R30, R36, R39). -/
def afterEnd (s : State) (b w : Nat) : State :=
  match getSheaf s b w with
  | none => s
  | some sh =>
    if sheafEnded sh then
      let s1 := dropToken s sh.place.core b w
      match getBed s1 b with
      | none => s1
      | some bd =>
        if bd.stage ≠ .resident then s1
        else if bedEnded bd then due s1 (.bedExit b)
        else if decide (bd.sheaves.length < bd.total) && !bd.bexit then due s1 (.waveStart b)
        else s1
    else s

/-- A thread is unparked in a sheaf that is not stopped; or, in handler mode, the handler's stream awaits no reply (R343). -/
def hasRunnable (sh : Sheaf) : Bool := if sh.handler then sh.hpool == 0#32 else decide (runMask sh ≠ 0#32)

/-- The sheaves on an issue slot of a core, as bed, sheaf and the sheaf itself. -/
def slotSheaves (s : State) (core slot : Nat) : List (Nat × Nat × Sheaf) :=
  (s.beds.filter (fun b => b.2.stage == .resident && b.2.core == core)).flatMap (fun b =>
    (b.2.sheaves.filter (fun w => w.2.place.slot == slot)).map (fun w => (b.1, w.1, w.2)))

/-- The level of a bed's launch (R327). -/
def levelOf (s : State) (b : Nat) : Nat :=
  match launchOf s b with
  | some l => l.level
  | none => 12

/-- The other sheaves of the sheaf's slot that are runnable and of no lower priority: they go first after it yields (R37). -/
def yieldOthers (s : State) (b w : Nat) (sh : Sheaf) : List (Nat × Nat) :=
  ((slotSheaves s sh.place.core sh.place.slot).filter (fun x =>
    (x.1, x.2.1) != (b, w) && hasRunnable x.2.2 && decide (levelOf s x.1 ≤ levelOf s b))).map (fun x => (x.1, x.2.1))

/-- A sheaf yields (R37): the slot's other runnable sheaves of no lower priority go first; its watchdog counter restarts. -/
def yieldSheaf (s : State) (b w : Nat) : State :=
  match getSheaf s b w with
  | none => s
  | some sh =>
    count (setSheaf s b w { sh with yieldFor := yieldOthers s b w sh, wdcnt := 0 }) sh.place.core 14 1

/-- A change that hardware makes for the sheaf's threads: registers are named as in normal mode, also while the handler runs (R343). -/
def forThreads (sh : Sheaf) (f : Sheaf → Sheaf) : Sheaf := { f { sh with handler := false } with handler := sh.handler }

/-- Parked threads of a mask run on at the instruction after the one at an address. -/
def resumeAfter (sh : Sheaf) (m : Mask) (pc : DWord) : Sheaf :=
  { setPark sh m .run with pcs := lanes.map (fun i => if bit m i then pc + 4#64 else lget sh.pcs i 0#64) }

/-- The EXM's threads take a park state where they stand, and those that are off move on (R14). -/
def parkHere (c : Cur) (sh : Sheaf) (p : Park) : Sheaf :=
  let m := exm c sh
  { setPark (endSpans sh c.ctl) m p with pcs := lanes.map (fun i =>
      if bit c.ctl i && !bit m i then c.pc + BitVec.ofNat 64 c.len else lget sh.pcs i 0#64) }

/-- The EXM's threads park in WAIT where they stand, those that are off move on, and the sheaf yields (R14, R37).  The handler's
stream, which changes no thread (R343), stands at its instruction and issues it again. -/
def parkWait (s : State) (c : Cur) (sh : Sheaf) (w : WaitFor) : State :=
  yieldSheaf (if sh.handler then s else putSheaf s c (parkHere c sh (.wait w))) c.bed c.sheaf

/-! ## Issuing a long-latency instruction (R180) -/

/-- The pending entry of the issuing instruction, with its lookahead span for each thread of its control set.  The
handler's stream has no threads, so LA opens no span there (DEDUCED, log 13). -/
def longOp (c : Cur) (sh : Sheaf) (id : Nat) (la : Nat) (ws : List PWrite) : LongOp :=
  { id := id, instr := id, pc := c.pc, ctl := c.ctl, exm := exm c sh, inst0 := c.inst0, inst1 := c.inst1, writes := ws, seenIn := false,
    seenOut := false, trap := none, ready := true, younger := false, tested := false, handler := sh.handler,
    spans := lanes.map (fun i => if bit c.ctl i then la else 0), replays := 0 }

/-- The span of an instruction that tests the non-finite conditions: none in precise-FP mode (R180, R317). -/
def testedSpan (sh : Sheaf) (la : Nat) : Nat := if sh.precfp then 0 else la

/-- The results of a long-latency instruction wait to be written (R180).  The control set moves on. -/
def issueLong (s : State) (c : Cur) (sh : Sheaf) (op : LongOp) : Out := done s c { sh with long := sh.long ++ [op] }

end Sys2Proof.Machine
end

