-- ==== Sys2Proof/Machine/Operands.lean ====
section
/-! DEFINITION. Operand forms: what every lane form and every group form has in common (R11, R14, R27, R187), register
pairs (R43), immediates and offsets (R173, R174, R191), and the registers of a bank engine's pair (R140). -/

namespace Sys2Proof.Machine

/-! ## What every core form has in common -/

/-- A lane that names a physical register at or above its thread's budget by one of some registers, the lowest one (R27). -/
def overBudget (c : Cur) (sh : Sheaf) (m : Mask) (regs : List Nat) : Option Nat :=
  lowest (maskOf (fun i => bit m i && regs.any (fun n => !inBudget (src c sh) i n)))

/-- A form that runs only with a thread switched on: its threads move on where the execute mask is zero (R11, R14). -/
def whenActive (s : State) (k : Cur → Sheaf → Mask → Out) : Out :=
  onSheaf s (fun c sh => if exm c sh = 0#32 then done s c sh else k c sh (exm c sh))

/-- A form that accesses lane registers in some lanes: the access-violation trap of R27 where one is beyond the budget. -/
def withBudget (s : State) (c : Cur) (sh : Sheaf) (m : Mask) (regs : List Nat) (k : Out) : Out :=
  match overBudget c sh m regs with
  | some l => violation s c sh (exm c sh) l 0#64
  | none => k

/-- A lane form (S = 0) that names some lane registers in each active lane. -/
def laneOp (s : State) (regs : List Nat) (k : Cur → Sheaf → Mask → Out) : Out :=
  whenActive s (fun c sh m => withBudget s c sh m regs (k c sh m))

/-- A group form (S = 1). -/
def groupOp (s : State) (k : Cur → Sheaf → Mask → Out) : Out := whenActive s k

/-- A register number. -/
abbrev rn (r : BitVec 7) : Nat := r.toNat

/-- Poison of several lane registers (R55). -/
def poisonOf (s : State) (c : Cur) (sh : Sheaf) (regs : List Nat) : Mask :=
  regs.foldl (fun m n => m ||| poisonMask s c sh n) 0#32

/-- Poison of several group registers (R55). -/
def poisonG (s : State) (c : Cur) (sh : Sheaf) (regs : List Nat) : Bool := regs.any (rdGP s c sh)

/-- The 32 values of a function of the lanes. -/
def perLane (f : Nat → Word) : List Word := lanes.map f

/-- A tested instruction of class A completes, or traps where an enabled condition is met (R79); the enables are those that its sheaf
had before both picks, or before a replay (R80). -/
def testedDone (s : State) (c : Cur) (sh : Sheaf) (n : NfMasks) (after : Sheaf) : Out :=
  if nfTraps (src c sh) n then trap s c sh (nfTrap n 0#32) else done s c (seeNf after n)

/-- The lowest active lane (R42). -/
def firstLane (m : Mask) : Nat := lowestD m

/-! ## Two and three operand forms -/

/-- A lane function of two sources and the old destination; `form` gives the stored form for a full mask (R47). -/
def laneForm3 (s : State) (d a b : BitVec 7) (readsD : Bool) (form : Form → Form → Form → Form) : Out :=
  laneOp s [rn d, rn a, rn b] (fun c sh m =>
    done s c (writeLanes sh (rn d) m (form (rdForm s c sh (rn a)) (rdForm s c sh (rn b)) (rdForm s c sh (rn d)))
      (poisonOf s c sh ([rn a, rn b] ++ if readsD then [rn d] else []))))

/-- A lane function of one source. -/
def laneForm1 (s : State) (d a : BitVec 7) (form : Form → Form) : Out :=
  laneOp s [rn d, rn a] (fun c sh m =>
    done s c (writeLanes sh (rn d) m (form (rdForm s c sh (rn a))) (poisonOf s c sh [rn a])))

/-- A group function of two sources and the old destination. -/
def groupForm3 (s : State) (d a b : BitVec 7) (readsD : Bool) (f : Word → Word → Word → Word) : Out :=
  groupOp s (fun c sh _ =>
    done s c (writeGroup sh (rn d) (f (rdG s c sh (rn a)) (rdG s c sh (rn b)) (rdG s c sh (rn d)))
      (poisonG s c sh ([rn a, rn b] ++ if readsD then [rn d] else []))))

/-- A group function of one source. -/
def groupForm1 (s : State) (d a : BitVec 7) (f : Word → Word) : Out :=
  groupOp s (fun c sh _ => done s c (writeGroup sh (rn d) (f (rdG s c sh (rn a))) (poisonG s c sh [rn a])))

/-! ## Immediates and offsets (R173, R174) -/

/-- An 11-bit immediate read as signed (ADDI, MULI), for a 32-bit operation. -/
def signedImm (i : BitVec 11) : Word := i.signExtend 32

/-- An 11-bit immediate read as unsigned (ANDI, ORI, XORI). -/
def unsignedImm (i : BitVec 11) : Word := i.setWidth 32

/-- The 36-bit immediate of an EXT pair: the prefix above the low 11 bits (R173). -/
def extImm (hi : BitVec 25) (lo : BitVec 11) : BitVec 36 := hi ++ lo

/-- A 36-bit immediate fits a 32-bit operation: bits [35:32] are zero, or all equal bit 31 (R173). -/
def fits32 (x : BitVec 36) : Bool := x.toNat / 2 ^ 32 == 0 || x.toNat / 2 ^ 31 == 31

/-- Bits [31:0] of an immediate. -/
def low32 (x : BitVec 36) : Word := x.setWidth 32

/-- The byte offset of a short offset index for an access of z bytes (R174). -/
def shortOffset (o : BitVec 5) (z : Nat) : DWord := o.signExtend 64 * BitVec.ofNat 64 z

/-- The byte offset of an EXT pair's index (R174). -/
def extOffset (hi : BitVec 25) (o : BitVec 5) (z : Nat) : DWord :=
  (extImm hi (o.setWidth 11)).signExtend 64 * BitVec.ofNat 64 z

/-! ## The registers of a pair (R140) -/

/-- The context of a pair thread. -/
def ctxOf (s : State) (n : NCur) : Option Ctx := mfind (getEngine s n.engine).ctxs n.ctx

/-- The thread of a pair that issues; its g31 is the context's status register (R287). -/
def thrOf (n : NCur) (x : Ctx) : NThr :=
  let t := if n.math then x.math else x.fetch
  { t with g := mput t.g 31 x.status 0#64 }

/-- Runs a meaning for the pair thread that issues. -/
def onPair (s : State) (k : NCur → Ctx → NThr → Out) : Out :=
  match s.agent with
  | .pair n =>
    match ctxOf s n with
    | some x => k n x (thrOf n x)
    | none => .fault .noIssuer
  | _ => .fault .noIssuer

/-- The state with a context changed. -/
def modCtx (s : State) (e x : Nat) (f : Ctx → Ctx) : State :=
  modEngine s e (fun en =>
    match mfind en.ctxs x with
    | some cx => { en with ctxs := mset en.ctxs x (f cx) }
    | none => en)

/-- The context with the issuing thread replaced. -/
def putThr (s : State) (n : NCur) (t : NThr) : State :=
  let u := { t with g := mdel t.g 31 }
  modCtx s n.engine n.ctx (fun x =>
    if n.math then { x with math := u, status := mget t.g 31 0#64 } else { x with fetch := u, status := mget t.g 31 0#64 })

/-- gN of a pair thread; g0 reads zero. -/
def nearG (t : NThr) (r : Nat) : DWord := if r = 0 then 0#64 else mget t.g r 0#64

/-- gN written; a write of g0 is discarded. -/
def nearPutG (t : NThr) (r : Nat) (x : DWord) : NThr := if r = 0 then t else { t with g := mput t.g r x 0#64 }

/-- A vector of sixteen zeros. -/
def zeroVec : List Word := copies 16 0#32

/-- vN of a pair thread: sixteen elements. -/
def nearV (t : NThr) (r : Nat) : List Word := mget t.v r zeroVec

/-- vN written. -/
def nearPutV (t : NThr) (r : Nat) (x : List Word) : NThr := { t with v := mput t.v r x zeroVec }

/-- The pair thread moves to the next instruction. -/
def nearDone (s : State) (n : NCur) (t : NThr) : Out := .next (putThr s n { t with pc := t.pc + 4 })

/-- A scalar function of a pair thread (R140). -/
def nearScalar (s : State) (d a b : BitVec 7) (f : DWord → DWord → DWord → DWord) : Out :=
  onPair s (fun n _ t => nearDone s n (nearPutG t (rn d) (f (nearG t (rn a)) (nearG t (rn b)) (nearG t (rn d)))))

/-- A function of each element of vectors (R140). -/
def nearVector (s : State) (d a b : BitVec 7) (f : Word → Word → Word → Word) : Out :=
  onPair s (fun n _ t =>
    nearDone s n (nearPutV t (rn d) ((below 16).map (fun i =>
      f (lget (nearV t (rn a)) i 0#32) (lget (nearV t (rn b)) i 0#32) (lget (nearV t (rn d)) i 0#32)))))

/-- The instruction issues on a bank engine. -/
def onEngine (s : State) : Bool :=
  match s.agent with
  | .pair _ => true
  | _ => false

end Sys2Proof.Machine
end

