-- ==== Sys2Proof/Machine/Access.lean ====
section
/-! DEFINITION. Accesses to memory by cores: the checks at issue (R238, R239), range locks (R126 to R129), the B-store (R84),
one lane's access (R242, R246, R248), pages saved before their first write (R359), and the operand log (R240, R351 to R354). -/

namespace Sys2Proof.Machine

/-! ## Range locks (R128) -/

/-- A range-lock entry of a plot. -/
def lockAt (p : Plot) (k : Nat) : Lock := mget p.locks k Lock.reset

/-- The entries of a plot's table, in order. -/
def lockList : List Nat := below 32

/-- The lowest entry that an access of n bytes traps on: a valid destination range, or a source range for a write. -/
def lockHit (s : State) (core : Nat) (write : Bool) (space : Nat) (asid : BitVec 16) (a n : Nat) : Option Nat :=
  lockList.find? (fun k =>
    let l := lockAt (getPlot s (plotOf core)) k
    l.valid && (l.dest || write) && l.space.toNat == space &&
      (if space = 0 then l.asid == asid else if space = 2 then l.core.toNat == core % 4 else true) &&
      decide (l.lo < a + n) && decide (a < l.hi))

/-- The first of some lanes whose access of n bytes traps, and the entry. -/
def lockLane (s : State) (core : Nat) (write : Bool) (space : Nat) (asid : BitVec 16) (n : Nat) (addr : Nat → Nat) :
    List Nat → Option (Nat × Nat)
  | [] => none
  | i :: r =>
    match lockHit s core write space asid (addr i) n with
    | some k => some (i, k)
    | none => lockLane s core write space asid n addr r

/-! ## The B-store (R84) -/

/-- First byte and size of a launch's B-store range (Table 16.2). -/
def bsRange (l : Launch) : Nat × Nat := (recField l.record 607 576, recField l.record 639 608)

/-- n bytes at a lie in the B-store range of a bed's launch. -/
def bsOk (s : State) (b a n : Nat) : Bool :=
  match launchOf s b with
  | some l => decide ((bsRange l).1 ≤ a) && decide (a + n ≤ (bsRange l).1 + (bsRange l).2)
  | none => false

/-- A word of a core's B-store, poisoned with its 64-byte unit (R244). -/
def bsWord (s : State) (core w : Nat) : PWord :=
  (memWord (getCore s core).bstore w, mget (getCore s core).bsPoison (w / 16) false)

/-! ## Saving a page before its first write (R359) -/

/-- Pages of the context pool that the driver registered. -/
def poolPages (s : State) : Nat := s.hostIf.ctxsize.toNat / 4096

/-- A page of the pool that is free, as a device page number. -/
def freePoolPage (s : State) : Option Nat :=
  (upFrom (s.hostIf.ctxbase.toNat / 4096) (poolPages s)).find? (fun p => !s.poolUsed.contains p)

/-- One device page copied to another, as their homes hold it, and written through (R423). -/
def copyPage (s : State) (from_ dst : Nat) : State :=
  (below 1024).foldl (fun s k =>
    let x := homeWord s (from_ * 1024 + k)
    let s1 := setDram s (dst * 1024 + k) x
    { s1 with home := mdel s1.home (dst * 1024 + k) }) s

/-- The VA lies in a region of the launch (R359). -/
def inRegion (l : Launch) (va : Nat) : Bool :=
  l.regions.any (fun r =>
    decide (r.toNat % 2 ^ 64 ≤ va) && decide (va < r.toNat % 2 ^ 64 + 4096 * (r.toNat / 2 ^ 64 % 2 ^ 32)))

/-- A launch's pages are marked: it has left the dependence pool, and is not over. -/
def marksPages (l : Launch) : Bool := l.stage != .done && l.stage != .pool && l.stage != .killed

/-- A region of the launch meets n bytes of its address space. -/
def regionMeets (l : Launch) (lo n : Nat) : Bool :=
  l.regions.any (fun r =>
    decide (r.toNat % 2 ^ 64 < lo + n) && decide (lo < r.toNat % 2 ^ 64 + 4096 * (r.toNat / 2 ^ 64 % 2 ^ 32)))

/-- The running launches of an address space that a page's leaf was marked for. -/
def snapOwners (s : State) (asid : BitVec 16) (va : DWord) (size : Nat) : List Nat :=
  (s.launches.filter (fun l => l.2.asid == asid && marksPages l.2 && regionMeets l.2 (va.toNat - va.toNat % size) size)).map (fun l => l.1)

/-- Pages saved for a launch, each to a free pool page, unless already saved; none where the pool runs out. -/
def savePages (s : State) (owner : Nat) : List Nat → Option State
  | [] => some s
  | p :: r =>
    match getLaunch s owner with
    | none => some s
    | some l =>
      if l.snaps.any (fun x => x.1 == p) then savePages s owner r
      else
        match freePoolPage s with
        | none => none
        | some q =>
          savePages (modLaunch { copyPage s p q with poolUsed := q :: s.poolUsed } owner
            (fun l => { l with snaps := l.snaps ++ [(p, q)] })) owner r

/-- SNAP cleared in an entry, as the home's compare-and-swap does. -/
def clearSnap (s : State) (pte : Nat) : State := setHomeDWord s pte (homeDWord s pte &&& ~~~(0x200#64))

/-- A launch has saved some pages. -/
def savedBy (s : State) (k : Nat) (pages : List Nat) : Bool :=
  match getLaunch s k with
  | some l => pages.all (fun p => l.snaps.any (fun x => x.1 == p))
  | none => true

/-- The steps of R359 before a write through a SNAP page by a launch, or by an engine or the control plane, which writes for every launch
whose regions the leaf's page meets: the writer's page is saved; SNAP is cleared once every such launch has saved it, so that each keeps
the page as it stood at its own first write.  None where the pool is empty. -/
def snapshotPage (s : State) (asid : BitVec 16) (va : DWord) (pte base size : Nat) (writer : Option Nat) : Option State :=
  let owners := snapOwners s asid va size
  let pages := upFrom (base / 4096) (size / 4096)
  let todo := owners.filter (fun k => writer.all (fun w => w == k || !owners.contains w))
  (todo.foldl (fun o k => o.bind (fun s => savePages s k pages)) (some s)).map (fun s =>
    if owners.all (fun k => savedBy s k pages) then clearSnap s pte else s)

/-- The launch whose sheaf issues. -/
def issuerLaunch (s : State) : Option Nat :=
  match s.agent with
  | .sheaf c => (getBed s c.bed).map (fun bd => bd.launch)
  | _ => none

/-- The page of a VA before a write to it by an engine or the control plane: A and D set (R356), and the page saved where it is the first
(R359); with an empty pool the step waits. -/
def unsnap (s0 : State) (asid : BitVec 16) (va : DWord) : State :=
  match walk s0 asid va with
  | .leaf e level (leafAt :: _) =>
    if !pteBit e 2 then s0
    else
      let s := markWrite s0 asid va
      if pteBit e 9 then
        match snapshotPage s asid va leafAt ((if pteBit e 8 then Config.hostBase else 0) + ptePa e)
            (leafBytes level (pteBit e 7 && level == 3)) none with
        | some s1 => s1
        | none => { s with snapStall := some (asid, va) }
      else s
  | _ => s0

/-! ## Atomics (Table 10.3) -/

/-- The new value of an atomic from the old one, the operand and CAS's new value; none where nothing is written. -/
def atomicNew {w : Nat} (f : Fmt) (kind : Nat) (o x n : BitVec w) : Option (BitVec w) :=
  let pair (h : Fmt) : BitVec w :=
    BitVec.ofNat w (fround h ((fdec h (o.toNat % 2 ^ 16)).add (fdec h (x.toNat % 2 ^ 16))) +
      2 ^ 16 * fround h ((fdec h (o.toNat / 2 ^ 16)).add (fdec h (x.toNat / 2 ^ 16))))
  match kind with
  | 0 => some (o + x)
  | 1 => some (o &&& x)
  | 2 => some (o ||| x)
  | 3 => some (o ^^^ x)
  | 4 => some (alu .min o x o)
  | 5 => some (alu .max o x o)
  | 6 => some (alu .minu o x o)
  | 7 => some (alu .maxu o x o)
  | 8 => some x
  | 9 => if o = x then some n else none
  | 10 => some (if x.toNat ≤ o.toNat then 0#w else o + 1#w)
  | 11 => some (if o.toNat = 0 ∨ x.toNat < o.toNat then x else o - 1#w)
  | 12 => some (BitVec.ofNat w (fround f ((fdec f o.toNat).add (fdec f x.toNat))))
  | 13 => some (BitVec.ofNat w (fminCode f o.toNat x.toNat))
  | 14 => some (BitVec.ofNat w (fmaxCode f o.toNat x.toNat))
  | 15 => some (pair bf16)
  | _ => some (pair fp16)

/-- The words an atomic writes from the old words and the operand words; none where it writes nothing. -/
def atomicWords (kind : Nat) (size : Nat) (old ops : List Word) : Option (List Word) :=
  let g := fun (l : List Word) k => lget l k 0#32
  if size = 8 then
    match atomicNew fp64 kind (g old 1 ++ g old 0) (g ops 1 ++ g ops 0) (g ops 3 ++ g ops 2) with
    | some v => some [BitVec.ofNat 32 v.toNat, BitVec.ofNat 32 (v.toNat / 2 ^ 32)]
    | none => none
  else
    match atomicNew fp32 kind (g old 0) (g ops 0) (g ops 1) with
    | some v => some [v]
    | none => none

/-- Poison of a word that an atomic writes: an exchange replaces it, every other kind computes from the old word (R55). -/
def atomicPoison (kind : Nat) (old : Bool) : Bool := if kind = 8 then false else old

/-! ## One lane of a global access -/

/-- What came of one lane's access. -/
inductive LaneRes where
  | done (ws : List PWord)
  | fault (kind : Nat)
  | violation
  | hole
  deriving DecidableEq, Repr

/-- The value of a load narrower than a word, extended (R242). -/
def narrow (size : Nat) (signed : Bool) (x : Word) (off : Nat) : Word :=
  match size with
  | 1 => let b := byteOf x off; if signed then b.signExtend 32 else b.setWidth 32
  | 2 => let h : BitVec 16 := BitVec.ofNat 16 (x.toNat / 2 ^ (8 * off)); if signed then h.signExtend 32 else h.setWidth 32
  | _ => x

/-- The bytes of a word that a store of some size at an offset writes. -/
def byteMask (size off : Nat) : BitVec 4 :=
  match size with
  | 1 => 1#4 <<< off
  | 2 => 3#4 <<< off
  | _ => 15#4

/-- Words that an access of some bytes touches: one for narrow ones. -/
def wordCount (size : Nat) : Nat := if size ≤ 4 then 1 else size / 4

/-- A word in a terrace's slice where it owns it, or lists it and the slice is the coherence point; else at the home. -/
def sliceWord (s : State) (t w : Nat) (here : Bool) : PWord :=
  match mfind (l2Of s t) w with
  | some e => if here || e.dirty != 0#4 then (e.data, e.poison) else homeWord s (untag w)
  | none => homeWord s (untag w)

/-- A word as an acquire load at a scope reads it: at the scope's coherence point, unless a cache on the path owns it (R122).  Host words
have theirs in host memory at every scope (Table 5.1). -/
def acquireWord (s : State) (core w : Nat) (syn : Bool) (scope : Nat) (first : Bool) (t : Nat) : PWord × State :=
  if syn || (decide (scope < 3) && !hostWord w) then readWord s core w syn true first t
  else
    match mfind (getPlot s (plotOf core)).l1 w with
    | some e =>
      if e.dirty != 0#4 then ((e.data, e.poison), s) else (sliceWord s (terraceOf core) w (decide (scope = 3) && !hostWord w), s)
    | none => (sliceWord s (terraceOf core) w (decide (scope = 3) && !hostWord w), s)

/-- Words read one after another. -/
def readWords (rd : State → Nat → PWord × State) (s : State) : List Nat → List PWord × State
  | [] => ([], s)
  | w :: r =>
    let x := rd s w
    let y := readWords rd x.2 r
    (x.1 :: y.1, y.2)

/-- The access of lane i at a physical address. -/
def performAt (s : State) (core : Nat) (asid : BitVec 16) (acc : Access) (i pa : Nat) (syn : Bool) : LaneRes × State :=
  let w := nameOf asid (lget acc.addrs i 0#64) pa
  let ws := upFrom w (wordCount acc.size)
  let ops := lget acc.data i []
  match acc.op with
  | .load signed =>
    let rd := fun s k =>
      let first := k == w || k % 2 == 0
      if acc.acquire then acquireWord s core k syn acc.scope first (salt s (6000 + i * 8 + k % 8))
      else readWord s core k syn (!acc.transient) first (salt s (6000 + i * 8 + k % 8))
    let r := readWords rd s ws
    (.done (if acc.size < 4 then r.1.map (fun x => (narrow acc.size signed x.1 (pa % 4), x.2)) else r.1), r.2)
  | .atomic kind =>
    let host := decide (Config.hostBase ≤ pa)
    if host && !Config.hostAtomics acc.size then (.violation, s)
    else
      let plot := decide (acc.scope = 2) && !host
      let r := readWords (fun s k => atomicView s core k syn plot) s ws
      match atomicWords kind.toNat acc.size (r.1.map (fun x => x.1)) ops with
      | none => (.done r.1, r.2)
      | some new =>
        let q := atomicPoison kind.toNat (r.1.any (fun x => x.2))
        (.done r.1, (below new.length).foldl (fun s k => atomicWrite s core (w + k) syn plot (lget new k 0#32, q)) r.2)
  | _ =>
    if acc.size < 4 then
      (.done [], writeWord s core w syn (byteMask acc.size (pa % 4))
        (BitVec.ofNat 32 ((lget ops 0 0#32).toNat * 2 ^ (8 * (pa % 4))), false))
    else
      (.done [], (below ws.length).foldl (fun s k => writeWord s core (w + k) syn 15#4 (lget ops k 0#32, false)) s)

/-- What translation an operation needs: stores and atomics need W (R355). -/
def accKind (op : AccOp) : AccKind :=
  match op with
  | .load _ => .read
  | .reissue w => if w then .write else .read
  | _ => .write

/-- The fault-queue kind of an access (Table 17.6). -/
def faultKind (op : AccOp) : Nat :=
  match op with
  | .atomic _ => 2
  | _ => if accKind op = .read then 0 else 1

/-- A translation that saves a SNAP page first (R359); the fault-queue kind where it cannot pass.  A page that another launch has still to
save keeps SNAP, and the writer goes on. -/
def translateSaving (s : State) (core : Nat) (asid : BitVec 16) (va : DWord) (op : AccOp) : (Trans ⊕ Nat) × State :=
  match translate s core asid va (accKind op) with
  | (.snap pte base size, s1) =>
    match snapshotPage s1 asid va pte base size (issuerLaunch s1) with
    | none => (.inr 4, s1)
    | some s2 =>
      match translate { s2 with tlb := mdel s2.tlb (tlbKey core asid va) } core asid va (accKind op) with
      | (.fault, s3) => (.inr (faultKind op), s3)
      | (.snap _ _ _, s3) => (.inl (.ok (base + va.toNat % size) (pteBit (homeDWord s3 pte) 6)), setPteBit s3 pte 5)
      | (t, s3) => (.inl t, s3)
  | (.fault, s1) => (.inr (faultKind op), s1)
  | (t, s1) => (.inl t, s1)

/-- One lane's access: translation, then the access. -/
def performLane (s : State) (core : Nat) (asid : BitVec 16) (acc : Access) (i : Nat) : LaneRes × State :=
  match translateSaving s core asid (lget acc.addrs i 0#64) acc.op with
  | (.inr k, s1) => (.fault k, s1)
  | (.inl (.ok pa syn), s1) => performAt s1 core asid acc i pa syn
  | (.inl .hole, s1) => (.hole, s1)
  | (.inl _, s1) => (.violation, s1)

/-- What came of the lanes of an access. -/
structure Got where
  st : State
  results : List (Nat × List PWord)
  faulted : Mask
  violated : Mask
  hole : Bool
  kind : Nat
  deriving DecidableEq, Repr

/-- The lanes of an access, in ascending order (R111). -/
def performLanes (s : State) (core : Nat) (asid : BitVec 16) (acc : Access) (m : Mask) : Got :=
  (lanesOf m).foldl (fun g i =>
    match performLane g.st core asid acc i with
    | (.done ws, s1) => { g with st := s1, results := g.results ++ [(i, ws)] }
    | (.fault k, s1) =>
      { g with st := s1, faulted := g.faulted ||| (1#32 <<< i), kind := if g.faulted = 0#32 then k else g.kind }
    | (.violation, s1) => { g with st := s1, violated := g.violated ||| (1#32 <<< i) }
    | (.hole, s1) => { g with st := s1, hole := true })
    { st := s, results := [], faulted := 0#32, violated := 0#32, hole := false, kind := 0 }

/-- The lanes that the L1 serves: every word of theirs is in it (R61). -/
def l1Serves (s : State) (core : Nat) (asid : BitVec 16) (acc : Access) (m : Mask) : Bool :=
  (lanesOf m).all (fun i =>
    match translateAt s asid (lget acc.addrs i 0#64) false with
    | some (pa, _) => (mfind (getPlot s (plotOf core)).l1 (nameOf asid (lget acc.addrs i 0#64) pa)).isSome
    | none => false)

/-- The lanes an access runs as: each lane for itself, or lane 0 for the whole group (R111). -/
def accLanes (acc : Access) (m : Mask) : Mask :=
  match acc.sc with
  | .lane => m
  | .group => 1#32

/-- Runs an access with the order it implies (R122): an acquire invalidates first; a release writes back before and, so that
its own store is performed at its scope, after. -/
def runAccess (s : State) (core : Nat) (asid : BitVec 16) (acc : Access) (m : Mask) : Got :=
  let s1 := if acc.acquire then acquireAt s core acc.scope else s
  let s2 := if acc.release then releaseAt s1 core acc.scope else s1
  let s3 := count s2 core (if l1Serves s2 core asid acc m then 10 else 11) 1
  let g := performLanes s3 core asid acc m
  if acc.release then { g with st := releaseAt g.st core acc.scope } else g

/-! ## Results of a load or an atomic -/

/-- The words of lane i among the results. -/
def resultOf (rs : List (Nat × List PWord)) (i : Nat) : List PWord :=
  match rs.find? (fun r => r.1 == i) with
  | some r => r.2
  | none => []

/-- The lanes among the results. -/
def resultMask (rs : List (Nat × List PWord)) : Mask := maskOf (fun i => rs.any (fun r => r.1 == i))

/-- The k-th destination register with the results of some lanes, or of the group, filled in. -/
def fillWrite (k : Nat) (rs : List (Nat × List PWord)) (m : Mask) (w : PWrite) : PWrite :=
  match w with
  | .lanes ph wm _ _ =>
    .lanes ph (wm &&& m) (lanes.map (fun i => (lget (resultOf rs i) k (0#32, false)).1))
      (maskOf (fun i => (lget (resultOf rs i) k (0#32, false)).2))
  | .group n _ _ => .group n (lget (resultOf rs 0) k (0#32, false)).1 (lget (resultOf rs 0) k (0#32, false)).2
  | _ => w

/-- Destinations in order, the k-th taking word k. -/
def fillWrites (rs : List (Nat × List PWord)) (m : Mask) : Nat → List PWrite → List PWrite
  | _, [] => []
  | k, w :: r => fillWrite k rs m w :: fillWrites rs m (k + 1) r

/-- Destinations kept for some lanes only. -/
def keepLanes (m : Mask) (w : PWrite) : PWrite :=
  match w with
  | .lanes ph wm vs q => .lanes ph (wm &&& m) vs q
  | _ => w

/-- The access-violation trap of an access (R240): the lanes without effect and the lowest of them. -/
def accessTrap (acc : Access) (m : Mask) : LateTrap :=
  { cause := 4, lanes := m, lanes2 := 0#32, detail := BitVec.ofNat 32 (lowestD m),
    addr := lget acc.addrs (match acc.sc with
      | .lane => lowestD m
      | .group => 0) 0#64 }

/-! ### Values that a load may have taken early (R112, R116, R120) -/

/-- What a sheaf's load takes of a pair that has changed since an acquire last ordered its loads: the older value, or what stands there;
free which. -/
def takesEarly (s : State) (c : Cur) (scratch : Bool) (pair : Nat) : Option Early :=
  (s.early.find? (fun e => e.bed == c.bed && e.sheaf == c.sheaf && e.scratch == scratch && e.pair == pair)).filter
    (fun _ => Config.freeBool (salt s (5000000 + pair % 1000000)))

/-- The words of a load from word w on, each as it stands or as it may have been taken early. -/
def earlyWords (s : State) (c : Cur) (scratch : Bool) (narrowed : PWord → PWord) : Nat → List PWord → List PWord
  | _, [] => []
  | w, x :: r =>
    (match takesEarly s c scratch (w / 2) with
     | some e => narrowed (if w % 2 = 0 then e.lo else e.hi)
     | none => x) :: earlyWords s c scratch narrowed (w + 1) r

/-- A load has seen some words: an older value of a pair that it saw as it stands is gone, and so are those of a scratch bank in which it
saw one, since accesses to one bank keep their order (R112, R124). -/
def settleEarly (s : State) (c : Cur) (scratch : Bool) (ws : List Nat) : State :=
  let seen := (ws.map (fun w => w / 2)).filter (fun p => (takesEarly s c scratch p).isNone)
  { s with early := s.early.filter (fun e =>
      !(e.bed == c.bed && e.sheaf == c.sheaf && e.scratch == scratch &&
        seen.any (fun p => if scratch then p / 512 == e.pair / 512 else p == e.pair))) }

/-- The words of memory that a lane's access touches. -/
def laneWords (s : State) (asid : BitVec 16) (acc : Access) (i : Nat) : List Nat :=
  match translateAt s asid (lget acc.addrs i 0#64) false with
  | some (pa, _) => upFrom (pa / 4) (wordCount acc.size)
  | none => []

/-- A plain load: an access that no acquire orders. -/
def isPlainLoad (acc : Access) : Bool :=
  match acc.op with
  | .load _ => !acc.acquire
  | _ => false

/-- The result of a lane, or of the group, with the words that its load may have taken early. -/
def earlyLane (s : State) (c : Cur) (asid : BitVec 16) (acc : Access) (r : Nat × List PWord) : Nat × List PWord :=
  let narrowed := fun (x : PWord) =>
    match acc.op with
    | .load signed => (if acc.size < 4 then narrow acc.size signed x.1 ((lget acc.addrs r.1 0#64).toNat % 4) else x.1, x.2)
    | _ => x
  match laneWords s asid acc r.1 with
  | [] => r
  | w :: _ => (r.1, earlyWords s c false narrowed w r.2)

/-- What came of a plain load, where values may have been taken early (R120). -/
def withEarly (s : State) (c : Cur) (asid : BitVec 16) (acc : Access) (g : Got) : Got :=
  if s.early.isEmpty || !isPlainLoad acc then g
  else
    { g with
      results := g.results.map (earlyLane s c asid acc),
      st := settleEarly g.st c false (g.results.flatMap (fun r => laneWords s asid acc r.1)) }

/-! ## The operand log (R351) -/

/-- A free entry of a sheaf's operand log. -/
def freeLog (sh : Sheaf) : Nat := ((below 4).find? (fun k => (mfind sh.oplog k).isNone)).getD 4

/-- An access enters the operand log with its faulting lanes; posting its fault is due. -/
def enterLog (s : State) (c : Cur) (core : Nat) (acc : Access) (m : Mask) (op : Option Nat) (kind : Nat) : State :=
  match getSheaf s c.bed c.sheaf with
  | none => s
  | some sh =>
    let k := freeLog sh
    let e : LogEnt := { acc := acc, pc := c.pc, ctl := c.ctl, inst0 := c.inst0, inst1 := c.inst1, mask := m, token := 0#32,
                        op := op, younger := false, handler := sh.handler, kind := kind, resumed := none }
    count (due (setSheaf s c.bed c.sheaf { sh with oplog := mset sh.oplog k e }) (.pageFault c.bed c.sheaf k)) core 12 1

/-- An ordered access whose release meets a write-back that an exclusive batch holds back waits in the operand log, under no token and with
no fault posted; kind 8 is the model's own (R168). -/
def logHeld (s : State) (c : Cur) (acc : Access) (m : Mask) : State :=
  modSheaf s c.bed c.sheaf (fun sh =>
    let e : LogEnt := { acc := acc, pc := c.pc, ctl := c.ctl, inst0 := c.inst0, inst1 := c.inst1, mask := m, token := 0#32,
                        op := none, younger := false, handler := sh.handler, kind := 8, resumed := none }
    { sh with oplog := mset sh.oplog (freeLog sh) e })

/-- The issuing instruction is held whole at its PC: it has done nothing, and issues again when its page is served (R351). -/
def holdWhole (s : State) (c : Cur) (sh : Sheaf) (va : DWord) (write : Bool) (m : Mask) (kind : Nat) : Out :=
  .next (enterLog s c sh.place.core
    { op := .reissue write, sc := .group, size := 8, addrs := [va], data := [], poisonAddr := 0#32, scope := 0,
      acquire := false, release := false, transient := false } m none kind)

/-- Runs the rest of an instruction with the physical address of a VA, or holds it, or traps (R240, R351). -/
def withPage (s : State) (c : Cur) (sh : Sheaf) (m : Mask) (va : DWord) (write : Bool) (k : State → Nat → Bool → Out) : Out :=
  match translateSaving s sh.place.core (asidOf s c.bed) va (.reissue write) with
  | (.inr kind, s1) => holdWhole s1 c sh va write m kind
  | (.inl (.ok pa syn), s1) => k s1 pa syn
  | (.inl .hole, _) => .fault .noSuchAddress
  | (.inl _, s1) => violation s1 c sh m (firstLane m) va

/-! ## A whole access instruction -/

/-- A store or another access without a register result (R241, R351): faulting lanes are logged, violations trap. -/
def storeAccess (s : State) (c : Cur) (sh : Sheaf) (acc : Access) (m : Mask) : Out :=
  let core := sh.place.core
  let g := runAccess s core (asidOf s c.bed) acc (accLanes acc m)
  if s.holdRelease && acc.release then (done s c sh).andThen (fun s1 => .next (logHeld s1 c acc m))
  else if g.hole then .fault .noSuchAddress
  else if g.violated ≠ 0#32 then
    trap g.st c sh (accessTrap acc (match acc.sc with
      | .lane => g.violated ||| g.faulted
      | .group => m))
  else if g.faulted ≠ 0#32 then
    let lg := match acc.sc with
      | .lane => g.faulted
      | .group => m
    (done g.st c sh).andThen (fun s1 => .next (enterLog s1 c core acc lg none g.kind))
  else done g.st c sh

/-- A load or an atomic (R240, R351): results are pending for the lanes that passed, and for those in the log. -/
def loadAccess (s : State) (c : Cur) (sh : Sheaf) (acc : Access) (m : Mask) (la : Nat) (dest : List PWrite) : Out :=
  let core := sh.place.core
  let run := accLanes acc m &&& ~~~acc.poisonAddr
  let g := if run = 0#32 then { st := s, results := [], faulted := 0#32, violated := 0#32, hole := false, kind := 0 }
    else withEarly s c (asidOf s c.bed) acc (runAccess s core (asidOf s c.bed) acc run)
  if g.hole then .fault .noSuchAddress
  else
    let free := (lanesOf (accLanes acc m &&& acc.poisonAddr)).map (fun i =>
      (i, (below 4).map (fun k => (Config.freeWord (salt s (7000 + i * 4 + k)), true))))
    let rs := g.results ++ free
    let id := (fresh g.st).1
    let s1 := (fresh g.st).2
    if g.violated ≠ 0#32 then
      let t := accessTrap acc (match acc.sc with
        | .lane => g.violated ||| g.faulted
        | .group => m)
      issueLong s1 c sh { longOp c sh id la dest with trap := some t }
    else if g.faulted = 0#32 then issueLong s1 c sh (longOp c sh id la (fillWrites rs m 0 dest))
    else
      let id2 := (fresh s1).1
      let s2 := (fresh s1).2
      let okm := match acc.sc with
        | .lane => m &&& ~~~g.faulted
        | .group => 0#32
      let lg := match acc.sc with
        | .lane => g.faulted
        | .group => m
      let op1 := longOp c sh id la (match acc.sc with
        | .lane => fillWrites rs okm 0 dest
        | .group => [])
      let op2 := { longOp c sh id2 la (dest.map (keepLanes lg)) with instr := id, ready := false }
      match issueLong s2 c sh op1 with
      | .next s3 =>
        let s4 := modSheaf s3 c.bed c.sheaf (fun sh => { sh with long := sh.long ++ [op2] })
        .next (enterLog s4 c core acc lg (some id2) g.kind)
      | o => o

end Sys2Proof.Machine
end

