-- ==== Sys2Proof/Machine/Integer.lean ====
section
/-! DEFINITION. Integer arithmetic, immediates, division, compares and masks (chapter 8, R187 to R197), on cores and, where
Table 6.1 lists the major, on the pairs of bank engines. -/

namespace Sys2Proof.Machine

/-! ## Shared forms -/

/-- A function of ALU or ALU2 on registers (R189, R190). -/
def aluReg (op : AluOp) (sc : Scope) (d a b : BitVec 7) (s : State) : Out :=
  match sc, onEngine s with
  | .lane, false => laneForm3 s d a b op.readsD (aluForm op)
  | .group, false => groupForm3 s d a b op.readsD (alu op)
  | .lane, true => nearVector s d a b (alu op)
  | .group, true => nearScalar s d a b (alu op)

/-- A function of ALU or ALU2 of a register and an immediate, given for 32 and for 64 bits (R191, R192). -/
def aluImm (op : AluOp) (sc : Scope) (d a : BitVec 7) (x : Word) (y : DWord) (s : State) : Out :=
  match sc, onEngine s with
  | .lane, false => laneForm1 s d a (fun f => aluForm op f (.u x) (.u 0#32))
  | .group, false => groupForm1 s d a (fun v => alu op v x 0#32)
  | .lane, true => nearVector s d a a (fun v _ _ => alu op v x 0#32)
  | .group, true => nearScalar s d a a (fun v _ _ => alu op v y 0#64)

/-- LI (R193): an immediate in every active lane or in a group register. -/
def loadImm (sc : Scope) (d : BitVec 7) (x : Word) (y : DWord) (s : State) : Out :=
  match sc, onEngine s with
  | .lane, false => laneOp s [rn d] (fun c sh m => done s c (writeLanes sh (rn d) m (.u x) 0#32))
  | .group, false => groupOp s (fun c sh _ => done s c (writeGroup sh (rn d) x false))
  | _, true => onPair s (fun n _ t => nearDone s n (nearPutG t (rn d) y))

/-- Issues a long-latency instruction with its lookahead and its results (R180). -/
def startLong (s : State) (c : Cur) (sh : Sheaf) (la : Nat) (ws : List PWrite) : Out :=
  issueLong (fresh s).2 c sh (longOp c sh (fresh s).1 la ws)

/-- Division and remainder (R194). -/
def divReg (op : DivOp) (sc : Scope) (d a b : BitVec 7) (l : BitVec 4) (s : State) : Out :=
  match sc, onEngine s with
  | .lane, false =>
    laneOp s [rn d, rn a, rn b] (fun c sh m =>
      startLong s c sh l.toNat [.lanes (physList sh (rn d)) m
        (perLane (fun i => divide op (rdV s c sh i (rn a)) (rdV s c sh i (rn b)))) (poisonOf s c sh [rn a, rn b])])
  | .group, false =>
    groupOp s (fun c sh _ =>
      startLong s c sh l.toNat [.group (gidx sh (rn d)) (divide op (rdG s c sh (rn a)) (rdG s c sh (rn b)))
        (poisonG s c sh [rn a, rn b])])
  | _, true => nearScalar s d a b (fun x y _ => divide op x y)

/-- G[D] as a compare finds it: the value the first pick of a pair has just written (R19). -/
def oldGroup (s : State) (c : Cur) (sh : Sheaf) (n : Nat) : Word × Bool := groupView (salt s 0) c.ctl sh n

/-- A compare writes the bits of the active lanes of a mask (R196). -/
def writeMask (s : State) (c : Cur) (sh : Sheaf) (m : Mask) (d : BitVec 7) (res : Mask) (q : Bool) : Sheaf :=
  let old := oldGroup s c sh (rn d)
  writeGroup sh (rn d) (mergeMask old.1 m res) (maskPoison q old.2 m)

/-- A compare of each active lane, lane i's operands being a and b of it (R196). -/
def cmpLane (s : State) (d : BitVec 7) (regs : List Nat) (cond : Cur → Sheaf → Nat → Bool) : Out :=
  laneOp s regs (fun c sh m =>
    done s c (writeMask s c sh m d (maskOf (cond c sh)) (decide (poisonOf s c sh regs &&& m ≠ 0#32))))

/-- A compare done once (R196): every active lane's bit takes the result. -/
def cmpGroup (s : State) (d : BitVec 7) (regs : List Nat) (cond : Cur → Sheaf → Bool) : Out :=
  groupOp s (fun c sh m =>
    done s c (writeMask s c sh m d (if cond c sh then Mask.full else 0#32) (poisonG s c sh regs)))

/-- Integer compare of registers (R195, R196); a pair writes 0 or 1 (Table 6.1). -/
def cmpReg (sc : Scope) (d a b : BitVec 7) (k : BitVec 4) (s : State) : Out :=
  match sc, onEngine s with
  | .lane, false =>
    cmpLane s d [rn a, rn b] (fun c sh i => intCond k.toNat (rdV s c sh i (rn a)) (rdV s c sh i (rn b)))
  | .group, false => cmpGroup s d [rn a, rn b] (fun c sh => intCond k.toNat (rdG s c sh (rn a)) (rdG s c sh (rn b)))
  | _, true => nearScalar s d a b (fun x y _ => if intCond k.toNat x y then 1#64 else 0#64)

/-- Integer compare with the signed 7-bit immediate (R196). -/
def cmpImm (sc : Scope) (d a : BitVec 7) (k : BitVec 4) (i : BitVec 7) (s : State) : Out :=
  match sc with
  | .lane => cmpLane s d [rn a] (fun c sh l => intCond k.toNat (rdV s c sh l (rn a)) (i.signExtend 32))
  | .group => cmpGroup s d [rn a] (fun c sh => intCond k.toNat (rdG s c sh (rn a)) (i.signExtend 32))

/-- The index of set bit number n of a mask, or 32 (MNTH, R197). -/
def nthSet (x : Word) (n : Nat) : Nat := lget (lanesOf x) n 32

/-! ## ALU and ALU2 (Tables 8.2 and 8.3) -/

/-- ADD (R189). -/
def execAdd (sc : Scope) (d a b : BitVec 7) (s : State) : Out := aluReg .add sc d a b s

/-- SUB (R189). -/
def execSub (sc : Scope) (d a b : BitVec 7) (s : State) : Out := aluReg .sub sc d a b s

/-- MUL (R189). -/
def execMul (sc : Scope) (d a b : BitVec 7) (s : State) : Out := aluReg .mul sc d a b s

/-- MULH (R189). -/
def execMulh (sc : Scope) (d a b : BitVec 7) (s : State) : Out := aluReg .mulh sc d a b s

/-- MULHU (R189). -/
def execMulhu (sc : Scope) (d a b : BitVec 7) (s : State) : Out := aluReg .mulhu sc d a b s

/-- MIN (R189). -/
def execMin (sc : Scope) (d a b : BitVec 7) (s : State) : Out := aluReg .min sc d a b s

/-- MAX (R189). -/
def execMax (sc : Scope) (d a b : BitVec 7) (s : State) : Out := aluReg .max sc d a b s

/-- MINU (R189). -/
def execMinu (sc : Scope) (d a b : BitVec 7) (s : State) : Out := aluReg .minu sc d a b s

/-- MAXU (R189). -/
def execMaxu (sc : Scope) (d a b : BitVec 7) (s : State) : Out := aluReg .maxu sc d a b s

/-- AND (R189). -/
def execAnd (sc : Scope) (d a b : BitVec 7) (s : State) : Out := aluReg .and sc d a b s

/-- OR (R189). -/
def execOr (sc : Scope) (d a b : BitVec 7) (s : State) : Out := aluReg .or sc d a b s

/-- XOR (R189). -/
def execXor (sc : Scope) (d a b : BitVec 7) (s : State) : Out := aluReg .xor sc d a b s

/-- ANDN (R189). -/
def execAndn (sc : Scope) (d a b : BitVec 7) (s : State) : Out := aluReg .andn sc d a b s

/-- SHL (R189). -/
def execShl (sc : Scope) (d a b : BitVec 7) (s : State) : Out := aluReg .shl sc d a b s

/-- SHR (R189). -/
def execShr (sc : Scope) (d a b : BitVec 7) (s : State) : Out := aluReg .shr sc d a b s

/-- SRA (R189). -/
def execSra (sc : Scope) (d a b : BitVec 7) (s : State) : Out := aluReg .sra sc d a b s

/-- ROL (R190). -/
def execRol (sc : Scope) (d a b : BitVec 7) (s : State) : Out := aluReg .rol sc d a b s

/-- ROR (R190). -/
def execRor (sc : Scope) (d a b : BitVec 7) (s : State) : Out := aluReg .ror sc d a b s

/-- CLZ (R190). -/
def execClz (sc : Scope) (d a : BitVec 7) (s : State) : Out := aluReg .clz sc d a a s

/-- POPC (R190). -/
def execPopc (sc : Scope) (d a : BitVec 7) (s : State) : Out := aluReg .popc sc d a a s

/-- BREV (R190). -/
def execBrev (sc : Scope) (d a : BitVec 7) (s : State) : Out := aluReg .brev sc d a a s

/-- ABS (R190). -/
def execAbs (sc : Scope) (d a : BitVec 7) (s : State) : Out := aluReg .abs sc d a a s

/-- NEG (R190). -/
def execNeg (sc : Scope) (d a : BitVec 7) (s : State) : Out := aluReg .neg sc d a a s

/-- MADD (R190). -/
def execMadd (sc : Scope) (d a b : BitVec 7) (s : State) : Out := aluReg .madd sc d a b s

/-- MSUB (R190). -/
def execMsub (sc : Scope) (d a b : BitVec 7) (s : State) : Out := aluReg .msub sc d a b s

/-- LEA1 (R190). -/
def execLea1 (sc : Scope) (d a b : BitVec 7) (s : State) : Out := aluReg .lea1 sc d a b s

/-- LEA2 (R190). -/
def execLea2 (sc : Scope) (d a b : BitVec 7) (s : State) : Out := aluReg .lea2 sc d a b s

/-- LEA3 (R190). -/
def execLea3 (sc : Scope) (d a b : BitVec 7) (s : State) : Out := aluReg .lea3 sc d a b s

/-- ADDSAT (R190). -/
def execAddsat (sc : Scope) (d a b : BitVec 7) (s : State) : Out := aluReg .addsat sc d a b s

/-- SUBSAT (R190). -/
def execSubsat (sc : Scope) (d a b : BitVec 7) (s : State) : Out := aluReg .subsat sc d a b s

/-! ## Immediates (R191 to R193) -/

/-- ADDI (R191). -/
def execAddi (sc : Scope) (d a : BitVec 7) (i : BitVec 11) (s : State) : Out :=
  aluImm .add sc d a (signedImm i) (i.signExtend 64) s

/-- MULI (R191). -/
def execMuli (sc : Scope) (d a : BitVec 7) (i : BitVec 11) (s : State) : Out :=
  aluImm .mul sc d a (signedImm i) (i.signExtend 64) s

/-- ANDI (R191). -/
def execAndi (sc : Scope) (d a : BitVec 7) (i : BitVec 11) (s : State) : Out :=
  aluImm .and sc d a (unsignedImm i) (i.setWidth 64) s

/-- ORI (R191). -/
def execOri (sc : Scope) (d a : BitVec 7) (i : BitVec 11) (s : State) : Out :=
  aluImm .or sc d a (unsignedImm i) (i.setWidth 64) s

/-- XORI (R191). -/
def execXori (sc : Scope) (d a : BitVec 7) (i : BitVec 11) (s : State) : Out :=
  aluImm .xor sc d a (unsignedImm i) (i.setWidth 64) s

/-- SHLI (R192). -/
def execShli (sc : Scope) (d a : BitVec 7) (n : BitVec 5) (s : State) : Out :=
  aluImm .shl sc d a (n.setWidth 32) (n.setWidth 64) s

/-- SHRI (R192). -/
def execShri (sc : Scope) (d a : BitVec 7) (n : BitVec 5) (s : State) : Out :=
  aluImm .shr sc d a (n.setWidth 32) (n.setWidth 64) s

/-- SRAI (R192). -/
def execSrai (sc : Scope) (d a : BitVec 7) (n : BitVec 5) (s : State) : Out :=
  aluImm .sra sc d a (n.setWidth 32) (n.setWidth 64) s

/-- ROLI (R192). -/
def execRoli (sc : Scope) (d a : BitVec 7) (n : BitVec 5) (s : State) : Out :=
  aluImm .rol sc d a (n.setWidth 32) (n.setWidth 64) s

/-- LI (R193). -/
def execLi (sc : Scope) (d : BitVec 7) (i : BitVec 18) (s : State) : Out :=
  loadImm sc d (i.signExtend 32) (i.signExtend 64) s

/-! ## Compares and masks (R195 to R197) -/

/-- CMP (R196). -/
def execCmp (sc : Scope) (d a b : BitVec 7) (k : BitVec 4) (s : State) : Out := cmpReg sc d a b k s

/-- CMPI (R196). -/
def execCmpi (sc : Scope) (d a : BitVec 7) (k : BitVec 4) (i : BitVec 7) (s : State) : Out := cmpImm sc d a k i s

/-- MPOP (R197). -/
def execMpop (d a : BitVec 7) (s : State) : Out := groupForm1 s d a (fun x => BitVec.ofNat 32 (countLanes x))

/-- MFFS (R197). -/
def execMffs (d a : BitVec 7) (s : State) : Out := groupForm1 s d a (fun x => BitVec.ofNat 32 ((lowest x).getD 32))

/-- MFLS (R197). -/
def execMfls (d a : BitVec 7) (s : State) : Out := groupForm1 s d a (fun x => BitVec.ofNat 32 ((highest x).getD 32))

/-- MNTH (R197). -/
def execMnth (d a b : BitVec 7) (s : State) : Out :=
  groupForm3 s d a b false (fun x y _ => BitVec.ofNat 32 (nthSet x y.toNat))

/-! ## Division (R194) -/

/-- DIV (R194). -/
def execDiv (sc : Scope) (d a b : BitVec 7) (l : BitVec 4) (s : State) : Out := divReg .div sc d a b l s

/-- DIVU (R194). -/
def execDivu (sc : Scope) (d a b : BitVec 7) (l : BitVec 4) (s : State) : Out := divReg .divu sc d a b l s

/-- REM (R194). -/
def execRem (sc : Scope) (d a b : BitVec 7) (l : BitVec 4) (s : State) : Out := divReg .rem sc d a b l s

/-- REMU (R194). -/
def execRemu (sc : Scope) (d a b : BitVec 7) (l : BitVec 4) (s : State) : Out := divReg .remu sc d a b l s

/-! ## Moves and packing (R198, R199) -/

/-- MOV (R198, R199): keeps the source's tag. -/
def execMov (sc : Scope) (d a : BitVec 7) (s : State) : Out :=
  match sc with
  | .lane => laneForm1 s d a (fun f => f)
  | .group => groupForm1 s d a (fun x => x)

/-- MOVGV (R198): a group register to every active lane. -/
def execMovgv (d a : BitVec 7) (s : State) : Out :=
  laneOp s [rn d] (fun c sh m =>
    done s c (writeLanes sh (rn d) m (.u (rdG s c sh (rn a))) (if rdGP s c sh (rn a) then Mask.full else 0#32)))

/-- MOVVG (R198): the lowest active lane's value to a group register. -/
def execMovvg (d a : BitVec 7) (s : State) : Out :=
  whenActive s (fun c sh m =>
    withBudget s c sh (1#32 <<< firstLane m) [rn a]
      (done s c (writeGroup sh (rn d) (rdV s c sh (firstLane m) (rn a)) (rdVP s c sh (firstLane m) (rn a)))))

/-- LANEID (R198): the logical lane number, tag A. -/
def execLaneid (d : BitVec 7) (s : State) : Out :=
  laneOp s [rn d] (fun c sh m => done s c (writeLanes sh (rn d) m (.a 0#32 1#32) 0#32))

/-- The tag that TAG reads of a physical register (R49); inside the span of an instruction whose results are pending, the old
tag or G (R180). -/
def tagOf (s : State) (sh : Sheaf) (p : Nat) : Nat :=
  if pendingOn sh p && Config.freeBool (salt s 5000) then 2 else formCode (vreg sh p).form

/-- TAG (R49), in the window of the lowest active lane (R42). -/
def execTag (d a : BitVec 7) (s : State) : Out :=
  whenActive s (fun c sh m =>
    withBudget s c sh (1#32 <<< firstLane m) [rn a]
      (done s c (writeGroup sh (rn d)
        (BitVec.ofNat 32 (tagOf s (src c sh) (phys (src c sh) (firstLane m) (rn a)))) false)))

/-- GEN (R49): every register that an active lane's window names is written again in G form, with the values and poison it has. -/
def execGen (d : BitVec 7) (s : State) : Out :=
  laneOp s [rn d] (fun c sh m =>
    done s c (writeLanes sh (rn d) m (.g (perLane (fun i => rdV s c sh i (rn d)))) (poisonOf s c sh [rn d])))

/-- SEL (R198): the bits of a where the old destination has ones, of b elsewhere. -/
def execSel (d a b : BitVec 7) (s : State) : Out :=
  laneForm3 s d a b true (mapForm (fun x y z => (x &&& z) ||| (y &&& ~~~z)))

/-- PACK2 (R198). -/
def execPack2 (d a b : BitVec 7) (s : State) : Out :=
  laneForm3 s d a b false (fun fa fb _ => mapForm (fun x y _ => (y <<< 16) ||| (x &&& 0xFFFF#32)) fa fb fa)

/-- PACK4 (R198): two bytes above the old destination's upper half. -/
def execPack4 (d a b : BitVec 7) (s : State) : Out :=
  laneForm3 s d a b true
    (mapForm (fun x y z => (y <<< 24) ||| ((x &&& 0xFF#32) <<< 16) ||| (z >>> 16)))

/-- The byte or halfword that UNPK's control value names (R198). -/
def unpack (x k : Word) : Word :=
  if k.getLsbD 2 then
    let h : BitVec 16 := BitVec.ofNat 16 (x.toNat / 2 ^ (16 * (k.toNat % 2)))
    if k.getLsbD 3 then h.signExtend 32 else h.setWidth 32
  else
    let b := byteOf x (k.toNat % 4)
    if k.getLsbD 3 then b.signExtend 32 else b.setWidth 32

/-- UNPK (R198). -/
def execUnpk (d a b : BitVec 7) (s : State) : Out :=
  laneForm3 s d a b false (fun fa fb _ => mapForm (fun x y _ => unpack x y) fa fb fa)

/-- MOVJ (R199): E or A of a rejoin register, never poisoned. -/
def execMovj (d : BitVec 7) (k : BitVec 4) (e : BitVec 1) (s : State) : Out :=
  groupOp s (fun c sh _ =>
    done s c (writeGroup sh (rn d) (if e = 0#1 then jE (src c sh) k.toNat else jA (src c sh) k.toNat) false))

end Sys2Proof.Machine
end

