-- ==== Sys2Proof/Machine/FloatInstr.lean ====
section
/-! DEFINITION. Floating point on lanes and groups (chapter 9, R218 to R228): FALU, FCMP, CVT, HALU, DALU, SFU and DOT, and
FALU and CVT on the vectors of bank engines (Table 6.1). -/

namespace Sys2Proof.Machine

/-! ## Functions of floating codes -/

/-- The tested functions of FALU, HALU and DALU (Tables 9.2 and 9.6, R226). -/
inductive FOp where
  | add | sub | mul | fma | fms | min | max
  deriving DecidableEq, Repr

/-- The function reads the old destination. -/
def FOp.readsD : FOp → Bool
  | .fma => true
  | .fms => true
  | _ => false

/-- The result code of a function in a format, rounded once under RNE (R221). -/
def fop (f : Fmt) (op : FOp) (a b d : Nat) : Nat :=
  let x := fdec f a
  let y := fdec f b
  match op with
  | .add => fround f (x.add y)
  | .sub => fround f (x.add y.neg)
  | .mul => fround f (x.mul y)
  | .fma => fround f ((x.mul y).add (fdec f d))
  | .fms => fround f ((fdec f d).add (x.mul y).neg)
  | .min => fminCode f a b
  | .max => fmaxCode f a b

/-- NF-IN and NF-OUT of one application of a function (R78). -/
def fopTest (f : Fmt) (op : FOp) (a b d : Nat) : Bool × Bool :=
  let inp := badCode f a || badCode f b || (op.readsD && badCode f d)
  (inp, !inp && badCode f (fop f op a b d))

/-- A function on the two 16-bit halves of a word (R225). -/
def halves (g : Nat → Nat → Nat → Nat) (a b d : Word) : Word :=
  BitVec.ofNat 32 (g (a.toNat % 2 ^ 16) (b.toNat % 2 ^ 16) (d.toNat % 2 ^ 16) +
    2 ^ 16 * g (a.toNat / 2 ^ 16) (b.toNat / 2 ^ 16) (d.toNat / 2 ^ 16))

/-- The conditions of both halves: either half sets the lane's bit (R78). -/
def halvesTest (g : Nat → Nat → Nat → Bool × Bool) (a b d : Word) : Bool × Bool :=
  let lo := g (a.toNat % 2 ^ 16) (b.toNat % 2 ^ 16) (d.toNat % 2 ^ 16)
  let hi := g (a.toNat / 2 ^ 16) (b.toNat / 2 ^ 16) (d.toNat / 2 ^ 16)
  (lo.1 || hi.1, lo.2 || hi.2)

/-- A function of FP32 words. -/
def fop32 (op : FOp) (a b d : Word) : Word := BitVec.ofNat 32 (fop fp32 op a.toNat b.toNat d.toNat)

/-- Its conditions. -/
def fop32Test (op : FOp) (a b d : Word) : Bool × Bool := fopTest fp32 op a.toNat b.toNat d.toNat

/-- The class word of an FP32 value (Table 9.3). -/
def classWord (x : Word) : Word :=
  let v := fdec fp32 x.toNat
  let e := x.toNat / 2 ^ 23 % 256
  match v with
  | .nan => 256#32
  | .inf s => if s then 1#32 else 128#32
  | .fin s m _ =>
    if m = 0 then (if s then 8#32 else 16#32)
    else if e = 0 then (if s then 4#32 else 32#32)
    else if s then 2#32 else 64#32

/-! ## Shared forms -/

/-- The condition masks of the active lanes. -/
def nfOf (m : Mask) (test : Nat → Bool × Bool) : NfMasks :=
  { inp := maskOf (fun i => bit m i && (test i).1), out := maskOf (fun i => bit m i && (test i).2) }

/-- The condition masks of a group form: the EXM where it meets one (R218). -/
def nfGroup (m : Mask) (t : Bool × Bool) : NfMasks := { inp := if t.1 then m else 0#32, out := if t.2 then m else 0#32 }

/-- A tested function of class A on lanes (R218, R221). -/
def testedLane (s : State) (d a b : BitVec 7) (readsD : Bool) (f : Word → Word → Word → Word)
    (test : Word → Word → Word → Bool × Bool) : Out :=
  laneOp s [rn d, rn a, rn b] (fun c sh m =>
    let fa := rdForm s c sh (rn a)
    let fb := rdForm s c sh (rn b)
    let fd := rdForm s c sh (rn d)
    testedDone s c sh (nfOf m (fun i => test (formLane fa i) (formLane fb i) (formLane fd i)))
      (writeLanes sh (rn d) m (if readsD then mapForm f fa fb fd else mapForm (fun x y _ => f x y x) fa fb fa)
        (poisonOf s c sh ([rn a, rn b] ++ if readsD then [rn d] else []))))

/-- A tested function of class A on group registers. -/
def testedGroup (s : State) (d a b : BitVec 7) (readsD : Bool) (f : Word → Word → Word → Word)
    (test : Word → Word → Word → Bool × Bool) : Out :=
  groupOp s (fun c sh m =>
    let x := rdG s c sh (rn a)
    let y := rdG s c sh (rn b)
    let z := rdG s c sh (rn d)
    testedDone s c sh (nfGroup m (test x y z))
      (writeGroup sh (rn d) (f x y z) (poisonG s c sh ([rn a, rn b] ++ if readsD then [rn d] else []))))

/-- A tested function of FALU (R221), and on an engine's vectors. -/
def faluReg (op : FOp) (sc : Scope) (d a b : BitVec 7) (s : State) : Out :=
  match sc, onEngine s with
  | .lane, false => testedLane s d a b op.readsD (fop32 op) (fop32Test op)
  | .group, false => testedGroup s d a b op.readsD (fop32 op) (fop32Test op)
  | _, true => nearVector s d a b (fop32 op)

/-- A function of FALU that tests nothing (R221): bit operations and classes. -/
def faluBits (f : Word → Word → Word) (sc : Scope) (d a b : BitVec 7) (s : State) : Out :=
  match sc, onEngine s with
  | .lane, false => laneForm3 s d a b false (fun fa fb _ => mapForm (fun x y _ => f x y) fa fb fa)
  | .group, false => groupForm3 s d a b false (fun x y _ => f x y)
  | _, true => nearVector s d a b (fun x y _ => f x y)

/-- A function of HALU (R225). -/
def haluReg (f : Fmt) (op : FOp) (d a b : BitVec 7) (s : State) : Out :=
  testedLane s d a b op.readsD (halves (fop f op)) (halvesTest (fopTest f op))

/-- Issues a tested long-latency instruction with its conditions: it will trap, or set the SEEN bits (R79, R220). -/
def startTested (s : State) (c : Cur) (sh : Sheaf) (la : Nat) (n : NfMasks) (ws : List PWrite) : Out :=
  let op := longOp c sh (fresh s).1 (testedSpan sh la) ws
  issueLong (fresh s).2 c sh
    { op with
      seenIn := n.inp != 0#32, seenOut := n.out != 0#32, tested := true,
      trap := if nfTraps (src c sh) n then some (nfTrap n 0#32) else none }

/-- The FP64 value of a pair in lane i (R43). -/
def laneDouble (s : State) (c : Cur) (sh : Sheaf) (i n : Nat) : Nat := (rdV64 s c sh i n).toNat

/-- A function of DALU (R226): both registers of the pair take tag G. -/
def daluReg (op : FOp) (d a b : BitVec 7) (s : State) : Out :=
  laneOp s [rn d, rn d + 1, rn a, rn a + 1, rn b, rn b + 1] (fun c sh m =>
    let f := fun (g : Nat → Nat → Nat → Nat) (i : Nat) =>
      g (laneDouble s c sh i (rn a)) (laneDouble s c sh i (rn b)) (laneDouble s c sh i (rn d))
    let q := poisonOf s c sh ([rn a, rn a + 1, rn b, rn b + 1] ++ if op.readsD then [rn d, rn d + 1] else [])
    startTested s c sh 0
      (nfOf m (fun i => fopTest fp64 op (laneDouble s c sh i (rn a)) (laneDouble s c sh i (rn b)) (laneDouble s c sh i (rn d))))
      [.lanes (physList sh (rn d)) m (perLane (fun i => BitVec.ofNat 32 (f (fop fp64 op) i))) q,
       .lanes (physList sh (rn d + 1)) m (perLane (fun i => BitVec.ofNat 32 (f (fop fp64 op) i / 2 ^ 32))) q])

/-- A function of SFU (R227): function code, and its result on one word. -/
def sfuReg (g : Word → Word) (test : Word → Bool × Bool) (d a : BitVec 7) (s : State) : Out :=
  laneOp s [rn d, rn a] (fun c sh m =>
    startTested s c sh 0 (nfOf m (fun i => test (rdV s c sh i (rn a))))
      [.lanes (physList sh (rn d)) m (perLane (fun i => g (rdV s c sh i (rn a)))) (poisonOf s c sh [rn a])])

/-- An FP32 function of the SFU by its code. -/
def sfuWord (fn : Nat) (x : Word) : Word := BitVec.ofNat 32 (sfu32 fn x.toNat)

/-- Its conditions: a non-finite input, or a finite input with a non-finite result. -/
def sfuTest (fn : Nat) (x : Word) : Bool × Bool :=
  (badCode fp32 x.toNat, !badCode fp32 x.toNat && badCode fp32 (sfu32 fn x.toNat))

/-- EX2H's conditions on one half. -/
def ex2hTest (x _ _ : Nat) : Bool × Bool := (badCode fp16 x, !badCode fp16 x && badCode fp16 (ex2hHalf x))

/-- Element k of a word of elements of w bits. -/
def element (w : Nat) (x : Word) (k : Nat) : Nat := x.toNat / 2 ^ (w * k) % 2 ^ w

/-- DP4A and DP4AU (R228, R73). -/
def dotInt (signed : Bool) (a b d : Word) : Word :=
  (below 4).foldl (fun acc k => acc + BitVec.ofInt 32 (readInt signed 8 (element 8 a k) * readInt signed 8 (element 8 b k))) d

/-- The floating forms of DOT: one group of R72. -/
def dotFloat (f : Fmt) (n : Nat) (a b d : Word) : Word :=
  BitVec.ofNat 32 (accGroup d.toNat
    ((below n).map (fun k => (fdec f (element f.width a k)).mul (fdec f (element f.width b k)))))

/-- Their conditions: any element or the accumulator (R228). -/
def dotTest (f : Fmt) (n : Nat) (a b d : Word) : Bool × Bool :=
  let inp := badCode fp32 d.toNat ||
    (below n).any (fun k => badCode f (element f.width a k) || badCode f (element f.width b k))
  (inp, !inp && badCode fp32 (dotFloat f n a b d).toNat)

/-- An integer form of DOT. -/
def dotIntReg (signed : Bool) (d a b : BitVec 7) (s : State) : Out :=
  laneOp s [rn d, rn a, rn b] (fun c sh m =>
    startLong s c sh 0 [.lanes (physList sh (rn d)) m
      (perLane (fun i => dotInt signed (rdV s c sh i (rn a)) (rdV s c sh i (rn b)) (rdV s c sh i (rn d))))
      (poisonOf s c sh [rn a, rn b, rn d])])

/-- A floating form of DOT. -/
def dotReg (f : Fmt) (n : Nat) (d a b : BitVec 7) (s : State) : Out :=
  laneOp s [rn d, rn a, rn b] (fun c sh m =>
    startTested s c sh 0
      (nfOf m (fun i => dotTest f n (rdV s c sh i (rn a)) (rdV s c sh i (rn b)) (rdV s c sh i (rn d))))
      [.lanes (physList sh (rn d)) m
        (perLane (fun i => dotFloat f n (rdV s c sh i (rn a)) (rdV s c sh i (rn b)) (rdV s c sh i (rn d))))
        (poisonOf s c sh [rn a, rn b, rn d])])

/-! ## FALU (Table 9.2) -/

/-- FADD (R221). -/
def execFadd (sc : Scope) (d a b : BitVec 7) (s : State) : Out := faluReg .add sc d a b s

/-- FSUB (R221). -/
def execFsub (sc : Scope) (d a b : BitVec 7) (s : State) : Out := faluReg .sub sc d a b s

/-- FMUL (R221). -/
def execFmul (sc : Scope) (d a b : BitVec 7) (s : State) : Out := faluReg .mul sc d a b s

/-- FFMA (R221). -/
def execFfma (sc : Scope) (d a b : BitVec 7) (s : State) : Out := faluReg .fma sc d a b s

/-- FFMS (R221). -/
def execFfms (sc : Scope) (d a b : BitVec 7) (s : State) : Out := faluReg .fms sc d a b s

/-- FMIN (R221). -/
def execFmin (sc : Scope) (d a b : BitVec 7) (s : State) : Out := faluReg .min sc d a b s

/-- FMAX (R221). -/
def execFmax (sc : Scope) (d a b : BitVec 7) (s : State) : Out := faluReg .max sc d a b s

/-- FABS (R221). -/
def execFabs (sc : Scope) (d a : BitVec 7) (s : State) : Out := faluBits (fun x _ => x &&& 0x7FFFFFFF#32) sc d a a s

/-- FNEG (R221). -/
def execFneg (sc : Scope) (d a : BitVec 7) (s : State) : Out := faluBits (fun x _ => x ^^^ 0x80000000#32) sc d a a s

/-- FCPYS (R221). -/
def execFcpys (sc : Scope) (d a b : BitVec 7) (s : State) : Out :=
  faluBits (fun x y => (x &&& 0x7FFFFFFF#32) ||| (y &&& 0x80000000#32)) sc d a b s

/-- FCLASS (R222). -/
def execFclass (sc : Scope) (d a : BitVec 7) (s : State) : Out := faluBits (fun x _ => classWord x) sc d a a s

/-- FCMP (R223): NF-IN is tested; a trapping compare writes nothing. -/
def execFcmp (sc : Scope) (d a b : BitVec 7) (k : BitVec 4) (s : State) : Out :=
  match sc with
  | .lane =>
    laneOp s [rn a, rn b] (fun c sh m =>
      let x := fun i => rdV s c sh i (rn a)
      let y := fun i => rdV s c sh i (rn b)
      testedDone s c sh (nfOf m (fun i => (badCode fp32 (x i).toNat || badCode fp32 (y i).toNat, false)))
        (writeMask s c sh m d (maskOf (fun i => floatCond k.toNat (x i) (y i)))
          (decide (poisonOf s c sh [rn a, rn b] &&& m ≠ 0#32))))
  | .group =>
    groupOp s (fun c sh m =>
      let x := rdG s c sh (rn a)
      let y := rdG s c sh (rn b)
      testedDone s c sh (nfGroup m (badCode fp32 x.toNat || badCode fp32 y.toNat, false))
        (writeMask s c sh m d (if floatCond k.toNat x y then Mask.full else 0#32) (poisonG s c sh [rn a, rn b])))

/-! ## CVT (R224) -/

/-- The registers of a CVT operand: a pair for FP64 (R43). -/
def cvtRegs (r : BitVec 7) (code : BitVec 4) : List Nat := if code = 12#4 then [rn r, rn r + 1] else [rn r]

/-- The source number of a CVT from its low and high registers. -/
def cvtIn (u : BitVec 4) (lo hi : Word) : Nat := if u = 12#4 then (hi ++ lo).toNat else lo.toNat

/-- CVT of one source. -/
def cvtOne (t u : BitVec 4) (r : BitVec 2) (x : BitVec 1) (lo hi : Word) : CvtResult :=
  cvt t.toNat u.toNat r.toNat (x == 1#1) (cvtIn u lo hi)

/-- CVT on lanes: a pair's second register is read and written only for FP64. -/
def cvtLane (d a : BitVec 7) (t u : BitVec 4) (r : BitVec 2) (x : BitVec 1) (s : State) : Out :=
  laneOp s (cvtRegs d t ++ cvtRegs a u) (fun c sh m =>
    let flo := rdForm s c sh (rn a)
    let fhi := if u = 12#4 then rdForm s c sh (rn a + 1) else .u 0#32
    let one := fun i => cvtOne t u r x (formLane flo i) (formLane fhi i)
    let q := poisonOf s c sh (cvtRegs a u)
    let part := fun k => mapForm (fun lo hi _ => BitVec.ofNat 32 ((cvtOne t u r x lo hi).val / 2 ^ k)) flo fhi flo
    let sh1 := writeLanes sh (rn d) m (part 0) q
    testedDone s c sh (nfOf m (fun i => ((one i).nfin, (one i).nfout)))
      (if t = 12#4 then writeLanes sh1 (rn d + 1) m (part 32) q else sh1))

/-- CVT on group registers. -/
def cvtGroup (d a : BitVec 7) (t u : BitVec 4) (r : BitVec 2) (x : BitVec 1) (s : State) : Out :=
  groupOp s (fun c sh m =>
    let res := cvtOne t u r x (rdG s c sh (rn a)) (rdG s c sh (rn a + 1))
    let q := poisonG s c sh (cvtRegs a u)
    let sh1 := writeGroup sh (rn d) (BitVec.ofNat 32 res.val) q
    testedDone s c sh (nfGroup m (res.nfin, res.nfout))
      (if t = 12#4 then writeGroup sh1 (rn d + 1) (BitVec.ofNat 32 (res.val / 2 ^ 32)) q else sh1))

/-- CVT on the elements of an engine's vectors; FP64 elements take the element of a second vector as their high half. -/
def cvtNear (d a : BitVec 7) (t u : BitVec 4) (r : BitVec 2) (x : BitVec 1) (s : State) : Out :=
  onPair s (fun n _ th =>
    let res := (below 16).map (fun i =>
      (cvtOne t u r x (lget (nearV th (rn a)) i 0#32) (lget (nearV th (rn a + 1)) i 0#32)).val)
    let t1 := nearPutV th (rn d) (res.map (fun v => BitVec.ofNat 32 v))
    nearDone s n (if t = 12#4 then nearPutV t1 (rn d + 1) (res.map (fun v => BitVec.ofNat 32 (v / 2 ^ 32))) else t1))

/-- CVT (R224). -/
def execCvt (sc : Scope) (d a : BitVec 7) (t u : BitVec 4) (r : BitVec 2) (x : BitVec 1) (s : State) : Out :=
  match sc, onEngine s with
  | .lane, false => cvtLane d a t u r x s
  | .group, false => cvtGroup d a t u r x s
  | _, true => cvtNear d a t u r x s

/-! ## HALU, DALU, SFU and DOT -/

/-- HADD2 (R225). -/
def execHadd2 (d a b : BitVec 7) (s : State) : Out := haluReg fp16 .add d a b s

/-- HSUB2 (R225). -/
def execHsub2 (d a b : BitVec 7) (s : State) : Out := haluReg fp16 .sub d a b s

/-- HMUL2 (R225). -/
def execHmul2 (d a b : BitVec 7) (s : State) : Out := haluReg fp16 .mul d a b s

/-- HFMA2 (R225). -/
def execHfma2 (d a b : BitVec 7) (s : State) : Out := haluReg fp16 .fma d a b s

/-- HMIN2 (R225). -/
def execHmin2 (d a b : BitVec 7) (s : State) : Out := haluReg fp16 .min d a b s

/-- HMAX2 (R225). -/
def execHmax2 (d a b : BitVec 7) (s : State) : Out := haluReg fp16 .max d a b s

/-- BADD2 (R225). -/
def execBadd2 (d a b : BitVec 7) (s : State) : Out := haluReg bf16 .add d a b s

/-- BMUL2 (R225). -/
def execBmul2 (d a b : BitVec 7) (s : State) : Out := haluReg bf16 .mul d a b s

/-- BFMA2 (R225). -/
def execBfma2 (d a b : BitVec 7) (s : State) : Out := haluReg bf16 .fma d a b s

/-- DADD (R226). -/
def execDadd (d a b : BitVec 7) (s : State) : Out := daluReg .add d a b s

/-- DSUB (R226). -/
def execDsub (d a b : BitVec 7) (s : State) : Out := daluReg .sub d a b s

/-- DMUL (R226). -/
def execDmul (d a b : BitVec 7) (s : State) : Out := daluReg .mul d a b s

/-- DFMA (R226). -/
def execDfma (d a b : BitVec 7) (s : State) : Out := daluReg .fma d a b s

/-- DMIN (R226). -/
def execDmin (d a b : BitVec 7) (s : State) : Out := daluReg .min d a b s

/-- DMAX (R226). -/
def execDmax (d a b : BitVec 7) (s : State) : Out := daluReg .max d a b s

/-- EX2 (R227). -/
def execEx2 (d a : BitVec 7) (s : State) : Out := sfuReg (sfuWord 0) (sfuTest 0) d a s

/-- LG2 (R227). -/
def execLg2 (d a : BitVec 7) (s : State) : Out := sfuReg (sfuWord 1) (sfuTest 1) d a s

/-- RCP (R227). -/
def execRcp (d a : BitVec 7) (s : State) : Out := sfuReg (sfuWord 2) (sfuTest 2) d a s

/-- RSQ (R227). -/
def execRsq (d a : BitVec 7) (s : State) : Out := sfuReg (sfuWord 3) (sfuTest 3) d a s

/-- SQRT (R227). -/
def execSqrt (d a : BitVec 7) (s : State) : Out := sfuReg (sfuWord 4) (sfuTest 4) d a s

/-- SIN (R227). -/
def execSin (d a : BitVec 7) (s : State) : Out := sfuReg (sfuWord 5) (sfuTest 5) d a s

/-- COS (R227). -/
def execCos (d a : BitVec 7) (s : State) : Out := sfuReg (sfuWord 6) (sfuTest 6) d a s

/-- TANH (R227). -/
def execTanh (d a : BitVec 7) (s : State) : Out := sfuReg (sfuWord 7) (sfuTest 7) d a s

/-- EX2H (R227): each FP16 half. -/
def execEx2h (d a : BitVec 7) (s : State) : Out :=
  sfuReg (fun x => halves (fun h _ _ => ex2hHalf h) x x x) (fun x => halvesTest ex2hTest x x x) d a s

/-- DP4A (R228). -/
def execDp4a (d a b : BitVec 7) (s : State) : Out := dotIntReg true d a b s

/-- DP4AU (R228). -/
def execDp4au (d a b : BitVec 7) (s : State) : Out := dotIntReg false d a b s

/-- DP2H (R228). -/
def execDp2h (d a b : BitVec 7) (s : State) : Out := dotReg fp16 2 d a b s

/-- DP4Q (R228). -/
def execDp4q (d a b : BitVec 7) (s : State) : Out := dotReg e4m3 4 d a b s

/-- DP4QE (R228). -/
def execDp4qe (d a b : BitVec 7) (s : State) : Out := dotReg e5m2 4 d a b s

end Sys2Proof.Machine
end

