-- ==== Sys2Proof/Machine/Lanes.lean ====
section
/-! DEFINITION. Instructions of class W: cross-lane reads, reductions and scans, and selection (R229 to R237).  All lanes
are read before any is written; results have tag G. -/

namespace Sys2Proof.Machine

/-! ## Cross-lane reads (R230) -/

/-- The lanes whose register the budget forbids: the active lanes for their own registers, and every lane read (R42). -/
def overReads (c : Cur) (sh : Sheaf) (m : Mask) (own : List Nat) (reads : List (Nat × Nat)) : Option Nat :=
  lowest (maskOf (fun i => (bit m i && own.any (fun n => !inBudget (src c sh) i n)) ||
    reads.any (fun r => r.1 == i && !inBudget (src c sh) i r.2)))

/-- A cross-lane form: `from_` gives, for each active lane, the lane of vA it reads and the lane of vB that chose it. -/
def crossLane (d a b : BitVec 7) (pick : (Nat → Word) → Mask → Nat → Nat × Nat) (s : State) : Out :=
  whenActive s (fun c sh m =>
    let p := pick (fun i => rdV s c sh i (rn b)) m
    let reads := (lanesOf m).flatMap (fun i => [((p i).1, rn a), ((p i).2, rn b)])
    match overReads c sh m [rn d] reads with
    | some l => violation s c sh m l 0#64
    | none =>
      done s c (writeLanes sh (rn d) m (.g (perLane (fun i => rdV s c sh (p i).1 (rn a))))
        (maskOf (fun i => rdVP s c sh (p i).1 (rn a) || rdVP s c sh (p i).2 (rn b)))))

/-- SHFL (R230). -/
def execShfl (d a b : BitVec 7) (s : State) : Out := crossLane d a b (fun v _ i => ((v i).toNat % 32, i)) s

/-- SHFLX (R230). -/
def execShflx (d a b : BitVec 7) (s : State) : Out :=
  crossLane d a b (fun v _ i => (Nat.xor i ((v i).toNat % 32), i)) s

/-- SHFLUP (R230). -/
def execShflup (d a b : BitVec 7) (s : State) : Out :=
  crossLane d a b (fun v _ i => (if i < (v i).toNat % 64 then i else i - (v i).toNat % 64, i)) s

/-- SHFLDN (R230). -/
def execShfldn (d a b : BitVec 7) (s : State) : Out :=
  crossLane d a b (fun v _ i => (if 31 < i + (v i).toNat % 64 then i else i + (v i).toNat % 64, i)) s

/-- BCAST (R230): every lane reads the lane that the lowest active lane names. -/
def execBcast (d a b : BitVec 7) (s : State) : Out :=
  crossLane d a b (fun v m _ => ((v (firstLane m)).toNat % 32, firstLane m)) s

/-! ## Reductions and scans (R231, R232) -/

/-- The values of some active lanes. -/
def valuesOf (s : State) (c : Cur) (sh : Sheaf) (ls : List Nat) (n : Nat) : List Word := ls.map (fun i => rdV s c sh i n)

/-- The exact sum of FP32 words rounded once (R231). -/
def sumFloat (xs : List Word) : Word := BitVec.ofNat 32 (fround fp32 (sumVals (xs.map (fun x => fdec fp32 x.toNat))))

/-- FMIN or FMAX over FP32 words. -/
def extremeFloat (f : Fmt → Nat → Nat → Nat) (xs : List Word) : Word :=
  match xs with
  | [] => 0#32
  | x :: _ => BitVec.ofNat 32 (xs.foldl (fun m y => f fp32 m y.toNat) x.toNat)

/-- An integer or bitwise function over words. -/
def fold1 (f : Word → Word → Word) (xs : List Word) : Word :=
  match xs with
  | [] => 0#32
  | x :: r => r.foldl f x

/-- The conditions of a reduction over words with a result (R232). -/
def foldTest (xs : List Word) (r : Word) : Bool × Bool :=
  let inp := xs.any (fun x => badCode fp32 x.toNat)
  (inp, !inp && badCode fp32 r.toNat)

/-- A reduction: every active lane takes f of all active values; a scan: lane i takes f of those up to lane i. -/
def reduce (scan tested : Bool) (f : List Word → Word) (d a : BitVec 7) (s : State) : Out :=
  laneOp s [rn d, rn a] (fun c sh m =>
    let set := fun i => if scan then (lanesOf m).filter (fun j => decide (j ≤ i)) else lanesOf m
    let q := poisonOf s c sh [rn a]
    let res := fun i => f (valuesOf s c sh (set i) (rn a))
    let after := writeLanes sh (rn d) m (.g (perLane res)) (maskOf (fun i => (set i).any (fun j => bit q j)))
    if tested then
      testedDone s c sh (nfOf m (fun i => foldTest (valuesOf s c sh (set i) (rn a)) (res i))) after
    else done s c after)

/-- REDADD (R231). -/
def execRedadd (d a : BitVec 7) (s : State) : Out := reduce false false (fold1 (fun x y => x + y)) d a s

/-- REDFADD (R231). -/
def execRedfadd (d a : BitVec 7) (s : State) : Out := reduce false true sumFloat d a s

/-- REDMIN (R231). -/
def execRedmin (d a : BitVec 7) (s : State) : Out := reduce false false (fold1 (fun x y => alu .min x y 0#32)) d a s

/-- REDMAX (R231). -/
def execRedmax (d a : BitVec 7) (s : State) : Out := reduce false false (fold1 (fun x y => alu .max x y 0#32)) d a s

/-- REDFMIN (R231). -/
def execRedfmin (d a : BitVec 7) (s : State) : Out := reduce false true (extremeFloat fminCode) d a s

/-- REDFMAX (R231). -/
def execRedfmax (d a : BitVec 7) (s : State) : Out := reduce false true (extremeFloat fmaxCode) d a s

/-- REDAND (R231). -/
def execRedand (d a : BitVec 7) (s : State) : Out := reduce false false (fold1 (fun x y => x &&& y)) d a s

/-- REDOR (R231). -/
def execRedor (d a : BitVec 7) (s : State) : Out := reduce false false (fold1 (fun x y => x ||| y)) d a s

/-- SCANADD (R231). -/
def execScanadd (d a : BitVec 7) (s : State) : Out := reduce true false (fold1 (fun x y => x + y)) d a s

/-- SCANFADD (R231). -/
def execScanfadd (d a : BitVec 7) (s : State) : Out := reduce true true sumFloat d a s

/-! ## Selection (R233 to R237) -/

/-- The place of an FP32 key in the selection order: −∞, finite values, +∞, every NaN; the zeros are equal (R233). -/
def keyRank (x : Word) : Nat :=
  let mag := x.toNat % 2 ^ 31
  if 0x7F800000 < mag then 2 ^ 33 else if x.toNat < 2 ^ 31 then 2 ^ 31 + mag else 2 ^ 31 - mag

/-- The rank by which FARGMAX compares: a NaN counts below −∞ (R234). -/
def maxRank (x : Word) : Nat := if keyRank x = 2 ^ 33 then 0 else keyRank x

/-- The rank of a signed word. -/
def signedRank (x : Word) : Nat := (x + 0x80000000#32).toNat

/-- The first lane of a list whose rank no other exceeds. -/
def argMost (rank : Nat → Nat) : List Nat → Nat
  | [] => 0
  | l :: r => r.foldl (fun best i => if rank best < rank i then i else best) l

/-- The first lane of a list whose rank no other is below. -/
def argLeast (rank : Nat → Nat) : List Nat → Nat
  | [] => 0
  | l :: r => r.foldl (fun best i => if rank i < rank best then i else best) l

/-- ARGMAX and its kin (R234). -/
def argOp (float most : Bool) (rank : Word → Nat) (d a : BitVec 7) (s : State) : Out :=
  laneOp s [rn d, rn a] (fun c sh m =>
    let r := fun i => rank (rdV s c sh i (rn a))
    let l := if most then argMost r (lanesOf m) else argLeast r (lanesOf m)
    let q := decide (poisonOf s c sh [rn a] &&& m ≠ 0#32)
    let after := writeLanes sh (rn d) m (.g (perLane (fun _ => BitVec.ofNat 32 l))) (if q then Mask.full else 0#32)
    if float then
      testedDone s c sh (nfOf m (fun _ => ((foldTest (valuesOf s c sh (lanesOf m) (rn a)) 0#32).1, false))) after
    else done s c after)

/-- ARGMAX (R234). -/
def execArgmax (d a : BitVec 7) (s : State) : Out := argOp false true signedRank d a s

/-- ARGMIN (R234). -/
def execArgmin (d a : BitVec 7) (s : State) : Out := argOp false false signedRank d a s

/-- FARGMAX (R234). -/
def execFargmax (d a : BitVec 7) (s : State) : Out := argOp true true maxRank d a s

/-- FARGMIN (R234). -/
def execFargmin (d a : BitVec 7) (s : State) : Out := argOp true false keyRank d a s

/-- An entry of a selection: key, payload, and the payload's poison. -/
structure Entry where
  key : Word
  payload : Word
  poison : Bool
  deriving DecidableEq, Repr

/-- The entry comes before another in the selection order, by key and payload (R233). -/
def Entry.before (x y : Entry) : Bool :=
  decide (keyRank x.key < keyRank y.key) ||
    (decide (keyRank x.key = keyRank y.key) && decide (x.payload.toNat < y.payload.toNat))

/-- An entry put in its place, after every entry equal to it. -/
def insertEntry (x : Entry) : List Entry → List Entry
  | [] => [x]
  | y :: r => if x.before y then x :: y :: r else y :: insertEntry x r

/-- Entries sorted in the selection order; equal ones stay in source order (R233). -/
def sortEntries (xs : List Entry) : List Entry := xs.foldl (fun acc x => insertEntry x acc) []

/-- The entries that some lanes hold in a pair. -/
def entriesOf (s : State) (c : Cur) (sh : Sheaf) (ls : List Nat) (n : Nat) : List Entry :=
  ls.map (fun i => { key := rdV s c sh i n, payload := rdV s c sh i (n + 1), poison := rdVP s c sh i (n + 1) })

/-- TOPK's fill (R235). -/
def fillEntry : Entry := { key := 0x7F800000#32, payload := 0xFFFFFFFF#32, poison := false }

/-- A sorted list written to the active lanes of a pair: the r-th active lane takes entry `at r` (R235, R237). -/
def writeEntries (sh : Sheaf) (n : Nat) (m : Mask) (entry : Nat → Entry) (all : Bool) : Sheaf :=
  let f := fun i => entry i
  let sh1 := writeLanes sh n m (.g (perLane (fun i => (f i).key))) (if all then Mask.full else 0#32)
  writeLanes sh1 (n + 1) m (.g (perLane (fun i => (f i).payload))) (if all then Mask.full else maskOf (fun i => (f i).poison))

/-- The place of a lane among the active lanes. -/
def rankIn (m : Mask) (i : Nat) : Nat := ((lanesOf m).filter (fun j => decide (j < i))).length

/-- SORT32 (R235). -/
def execSort32 (d a : BitVec 7) (s : State) : Out :=
  laneOp s [rn d, rn d + 1, rn a, rn a + 1] (fun c sh m =>
    let es := sortEntries (entriesOf s c sh (lanesOf m) (rn a))
    done s c (writeEntries sh (rn d) m (fun i => lget es (rankIn m i) fillEntry)
      (decide (poisonOf s c sh [rn a] &&& m ≠ 0#32))))

/-- TOPK (R235): the lowest active lane's vB gives k. -/
def execTopk (d a b : BitVec 7) (s : State) : Out :=
  whenActive s (fun c sh m =>
    let f := firstLane m
    match overReads c sh m [rn d, rn d + 1, rn a, rn a + 1] [(f, rn b)] with
    | some l => violation s c sh m l 0#64
    | none =>
      let es := sortEntries (entriesOf s c sh (lanesOf m) (rn a))
      let k := (rdV s c sh f (rn b)).toNat
      done s c (writeEntries sh (rn d) m
        (fun i => if rankIn m i < k then lget es (rankIn m i) fillEntry else fillEntry)
        (decide (poisonOf s c sh [rn a] &&& m ≠ 0#32) || rdVP s c sh f (rn b))))

/-- MERGEK (R236): all 32 lanes of both pairs are read, and written only where active. -/
def execMergek (d a b : BitVec 7) (s : State) : Out :=
  whenActive s (fun c sh m =>
    let reads := lanes.flatMap (fun i => [(i, rn a), (i, rn a + 1), (i, rn b), (i, rn b + 1)])
    match overReads c sh m [rn d, rn d + 1, rn d + 2, rn d + 3] reads with
    | some l => violation s c sh m l 0#64
    | none =>
      let es := sortEntries (entriesOf s c sh lanes (rn a) ++ entriesOf s c sh lanes (rn b))
      let all := decide (poisonOf s c sh [rn a, rn b] ≠ 0#32)
      let sh1 := writeEntries sh (rn d) m (fun i => lget es i fillEntry) all
      done s c (writeEntries sh1 (rn d + 2) m (fun i => lget es (32 + i) fillEntry) all))

end Sys2Proof.Machine
end

