-- ==== Sys2Proof/Machine/LoadStore.lean ====
section
/-! DEFINITION. Loads, stores, ordered accesses, fences and atomics of lanes and groups (R238 to R248).  Each entry has a shared
operation that takes the offset index already formed, for the short word and for its EXT pair (R174). -/

namespace Sys2Proof.Machine

/-! ## Checks at issue (R239) -/

/-- Steps 2 to 5 of R239: poison consumed, alignment, legality, range locks.  `live` are the lanes that access. -/
def accessChecks (s : State) (c : Cur) (sh : Sheaf) (m consumed live : Mask) (size : Nat) (addr : Nat → Int)
    (legal : Nat → Bool) (write : Bool) (space : Nat) (k : Out) : Out :=
  if consumed ≠ 0#32 then poisonUse s c sh consumed
  else
    match lowest (maskOf (fun i => bit live i && decide (addr i % (size : Int) ≠ 0))) with
    | some l => misaligned s c sh m l (BitVec.ofInt 64 (addr l))
    | none =>
      match lowest (maskOf (fun i => bit live i && !legal i)) with
      | some l => violation s c sh m l (BitVec.ofInt 64 (addr l))
      | none =>
        match lockLane s sh.place.core write space (asidOf s c.bed) size (fun i => (addr i).toNat) (lanesOf live) with
        | some (l, e) => rangeTrap s c sh l e (BitVec.ofInt 64 (addr l))
        | none => k

/-- The global address of a lane (R238). -/
def laneVa (s : State) (c : Cur) (sh : Sheaf) (a : BitVec 7) (off : DWord) (i : Nat) : DWord := rdV64 s c sh i (rn a) + off

/-- The global address of a group access (R238). -/
def groupVa (s : State) (c : Cur) (sh : Sheaf) (a : BitVec 7) (off : DWord) : DWord := rdG64 s c sh (rn a) + off

/-- A 32-bit address of a lane: the sum does not wrap (R238). -/
def laneAddr (s : State) (c : Cur) (sh : Sheaf) (a : BitVec 7) (off : DWord) (i : Nat) : Int :=
  ((rdV s c sh i (rn a)).toNat : Int) + off.toInt

/-- A 32-bit address of a group. -/
def groupAddr (s : State) (c : Cur) (sh : Sheaf) (a : BitVec 7) (off : DWord) : Int :=
  ((rdG s c sh (rn a)).toNat : Int) + off.toInt

/-- A scratch address is legal for n bytes (R83). -/
def scratchLegal (s : State) (c : Cur) (sh : Sheaf) (a : Int) (n : Nat) : Bool :=
  decide (0 ≤ a) && scratchOk s (plotOf sh.place.core) (launchKey s c.bed) a.toNat n

/-- Destination registers of a lane load: n registers from vD. -/
def laneDest (sh : Sheaf) (m : Mask) (d n : Nat) : List PWrite :=
  (upFrom d n).map (fun r => .lanes (physList sh r) m [] 0#32)

/-- Destination registers of a group load: n registers from gD. -/
def groupDest (sh : Sheaf) (d n : Nat) : List PWrite := (upFrom d n).map (fun r => .group (gidx sh r) 0#32 false)

/-- The data words of each lane: n registers from vD. -/
def laneData (s : State) (c : Cur) (sh : Sheaf) (d n : Nat) : List (List Word) :=
  lanes.map (fun i => (upFrom d n).map (fun r => rdV s c sh i r))

/-- The data words of a group access: n registers from gD. -/
def groupData (s : State) (c : Cur) (sh : Sheaf) (d n : Nat) : List (List Word) :=
  [(upFrom d n).map (fun r => rdG s c sh r)]

/-- A plain access. -/
def plainAccess (op : AccOp) (sc : Scope) (size : Nat) (addrs : List DWord) (data : List (List Word)) (q : Mask) : Access :=
  { op := op, sc := sc, size := size, addrs := addrs, data := data, poisonAddr := q, scope := 0, acquire := false,
    release := false, transient := false }

/-! ## Global loads and stores of lanes -/

/-- A lane load (R242, R243, R246): `how` sets the order and the hint. -/
def globalLoad (d a : BitVec 7) (size : Nat) (signed : Bool) (idx : DWord) (la : Nat) (how : Access → Access) (s : State) : Out :=
  let n := wordCount size
  laneOp s ([rn a, rn a + 1] ++ upFrom (rn d) n) (fun c sh m =>
    let off := idx * BitVec.ofNat 64 size
    let va := laneVa s c sh a off
    let q := poisonOf s c sh [rn a, rn a + 1] &&& m
    accessChecks s c sh m 0#32 (m &&& ~~~q) size (fun i => ((va i).toNat : Int)) (fun i => canonical (va i)) false 0
      (loadAccess s c sh (how (plainAccess (.load signed) .lane size (lanes.map va) [] q)) m la (laneDest sh m (rn d) n)))

/-- A lane store (R242, R246). -/
def globalStore (d a : BitVec 7) (size : Nat) (idx : DWord) (how : Access → Access) (s : State) : Out :=
  let n := wordCount size
  laneOp s ([rn a, rn a + 1] ++ upFrom (rn d) n) (fun c sh m =>
    let off := idx * BitVec.ofNat 64 size
    let va := laneVa s c sh a off
    accessChecks s c sh m (poisonOf s c sh ([rn a, rn a + 1] ++ upFrom (rn d) n) &&& m) m size
      (fun i => ((va i).toNat : Int)) (fun i => canonical (va i)) true 0
      (storeAccess s c sh (how (plainAccess .store .lane size (lanes.map va) (laneData s c sh (rn d) n) 0#32)) m))

/-- Bytes of the size codes of LD, LDT, LDC, LDU and their kin: 0 W, 1 D, 2 Q. -/
def sizeWdq (m : BitVec 2) : Nat := 4 * 2 ^ m.toNat

/-- Bytes of the size codes of ST, LDS and STS: 0 B, 1 H, 2 W, 3 D. -/
def sizeBhwd (m : BitVec 2) : Nat := 2 ^ m.toNat

/-- A short offset index (R174). -/
def shortIdx (o : BitVec 5) : DWord := o.signExtend 64

/-- LD with an offset index. -/
def loadOp (d a : BitVec 7) (m : BitVec 2) (idx : DWord) (l : BitVec 4) (s : State) : Out :=
  globalLoad d a (sizeWdq m) false idx l.toNat (fun x => x) s

/-- LDX with an offset index. -/
def loadNarrowOp (d a : BitVec 7) (m : BitVec 2) (idx : DWord) (l : BitVec 4) (s : State) : Out :=
  globalLoad d a (if m.toNat < 2 then 1 else 2) (m.toNat % 2 == 0) idx l.toNat (fun x => x) s

/-- ST with an offset index. -/
def storeOp (d a : BitVec 7) (m : BitVec 2) (idx : DWord) (s : State) : Out := globalStore d a (sizeBhwd m) idx (fun x => x) s

/-- STQ with an offset index. -/
def storeQuadOp (d a : BitVec 7) (idx : DWord) (s : State) : Out := globalStore d a 16 idx (fun x => x) s

/-- LDT with an offset index (R243). -/
def loadTransientOp (d a : BitVec 7) (m : BitVec 2) (idx : DWord) (l : BitVec 4) (s : State) : Out :=
  globalLoad d a (sizeWdq m) false idx l.toNat (fun x => { x with transient := true }) s

/-- LD (R242). -/
def execLd (d a : BitVec 7) (m : BitVec 2) (o : BitVec 5) (l : BitVec 4) (s : State) : Out := loadOp d a m (shortIdx o) l s

/-- LDX (R242). -/
def execLdx (d a : BitVec 7) (m : BitVec 2) (o : BitVec 5) (l : BitVec 4) (s : State) : Out :=
  loadNarrowOp d a m (shortIdx o) l s

/-- ST (R242). -/
def execSt (d a : BitVec 7) (m : BitVec 2) (o : BitVec 5) (s : State) : Out := storeOp d a m (shortIdx o) s

/-- STQ (R242). -/
def execStq (d a : BitVec 7) (o : BitVec 5) (s : State) : Out := storeQuadOp d a (shortIdx o) s

/-- LDT (R243). -/
def execLdt (d a : BitVec 7) (m : BitVec 2) (o : BitVec 5) (l : BitVec 4) (s : State) : Out :=
  loadTransientOp d a m (shortIdx o) l s

/-- LDA (R246): an acquire load at a scope. -/
def execLda (d a : BitVec 7) (m : BitVec 2) (k : BitVec 3) (l : BitVec 4) (s : State) : Out :=
  globalLoad d a (sizeWdq m) false 0#64 l.toNat (fun x => { x with acquire := true, scope := k.toNat }) s

/-- STL (R246): a release store at a scope. -/
def execStl (d a : BitVec 7) (m : BitVec 2) (k : BitVec 3) (s : State) : Out :=
  globalStore d a (sizeWdq m) 0#64 (fun x => { x with release := true, scope := k.toNat }) s

/-! ## Scratch loads and stores (R242, R97) -/

/-- The words of a scratch read, narrow ones zero-extended. -/
def scratchRead (s : State) (p a size : Nat) : List PWord :=
  let ws := (upFrom (a / 4) (wordCount size)).map (scratchWord s p)
  if size < 4 then ws.map (fun x => (narrow size false x.1 (a % 4), x.2)) else ws

/-- A scratch write is about to change some bytes: other sheaves' loads may still take what stands there, and the writer's own older values
of the bank are gone (R112, R124). -/
def noteScratch (s : State) (p a size : Nat) : State :=
  let bank := a / 4096
  let s1 := { s with early := s.early.filter (fun e => !(isIssuer s e.bed e.sheaf && e.scratch && e.pair / 512 == bank)) }
  (upFrom (a / 8) ((a % 8 + size + 7) / 8)).foldl (fun s k =>
    noteOld s (some p) k (scratchWord s p (2 * k)) (scratchWord s p (2 * k + 1))) s1

/-- The words of a scratch load, with those that it may have taken early: accesses of a thread to different banks have no order (R124). -/
def scratchLoad (s : State) (c : Cur) (p a size : Nat) : List PWord :=
  earlyWords s c true (fun x => (if size < 4 then narrow size false x.1 (a % 4) else x.1, x.2)) (a / 4) (scratchRead s p a size)

/-- A scratch load has seen the words at some addresses. -/
def scratchSeen (s : State) (c : Cur) (size : Nat) (as : List Nat) : State :=
  if s.early.isEmpty then s else settleEarly s c true (as.flatMap (fun a => upFrom (a / 4) (wordCount size)))

/-- The bytes of a scratch write; its granules' marks are settled afterwards. -/
def scratchWrite (s0 : State) (p a size : Nat) (ws : List Word) : State :=
  let s := noteScratch s0 p a size
  if size < 4 then
    setScratch s p (a / 4) (byteMask size (a % 4)) (BitVec.ofNat 32 ((lget ws 0 0#32).toNat * 2 ^ (8 * (a % 4))))
  else (below (wordCount size)).foldl (fun s k => setScratch s p (a / 4 + k) 15#4 (lget ws k 0#32)) s

/-- The marks after one instruction stored unpoisoned data at some places of a size: a granule written whole is clear (R97). -/
def settleMarks (s : State) (p size : Nat) (as : List Nat) : State :=
  (as.map (fun a => a / 32)).foldl (fun s g =>
    if (upFrom (32 * g) 32).all (fun b => as.any (fun a => decide (a ≤ b) && decide (b < a + size))) then setMark s p g false
    else s) s

/-- LDS with an offset index. -/
def scratchLoadOp (d a : BitVec 7) (m : BitVec 2) (idx : DWord) (l : BitVec 4) (s : State) : Out :=
  let size := sizeBhwd m
  let n := wordCount size
  laneOp s (rn a :: upFrom (rn d) n) (fun c sh em =>
    let off := idx * BitVec.ofNat 64 size
    let q := poisonOf s c sh [rn a] &&& em
    let p := plotOf sh.place.core
    let ad := laneAddr s c sh a off
    accessChecks s c sh em 0#32 (em &&& ~~~q) size ad (fun i => scratchLegal s c sh (ad i) size) false 1
      (let rs := (lanesOf em).map (fun i =>
        (i, if bit q i then (below n).map (fun k => (Config.freeWord (salt s (7000 + i * 4 + k)), true))
            else scratchLoad s c p (ad i).toNat size))
       startLong (scratchSeen s c size ((lanesOf (em &&& ~~~q)).map (fun i => (ad i).toNat))) c sh l.toNat (fillWrites rs em 0 (laneDest sh em (rn d) n))))

/-- STS with an offset index. -/
def scratchStoreOp (d a : BitVec 7) (m : BitVec 2) (idx : DWord) (s : State) : Out :=
  let size := sizeBhwd m
  let n := wordCount size
  laneOp s (rn a :: upFrom (rn d) n) (fun c sh em =>
    let off := idx * BitVec.ofNat 64 size
    let p := plotOf sh.place.core
    let ad := laneAddr s c sh a off
    accessChecks s c sh em (poisonOf s c sh (rn a :: upFrom (rn d) n) &&& em) em size ad
      (fun i => scratchLegal s c sh (ad i) size) true 1
      (let s1 := (lanesOf em).foldl (fun st i =>
        scratchWrite st p (ad i).toNat size (lget (laneData s c sh (rn d) n) i [])) s
       done (settleMarks s1 p size ((lanesOf em).map (fun i => (ad i).toNat))) c sh))

/-- LDS (R242). -/
def execLds (d a : BitVec 7) (m : BitVec 2) (o : BitVec 5) (l : BitVec 4) (s : State) : Out :=
  scratchLoadOp d a m (shortIdx o) l s

/-- STS (R242). -/
def execSts (d a : BitVec 7) (m : BitVec 2) (o : BitVec 5) (s : State) : Out := scratchStoreOp d a m (shortIdx o) s

/-! ## The B-store (R244) -/

/-- LDC with an offset index: the address of the lowest active lane, the same bytes for every active lane. -/
def constLoadOp (d a : BitVec 7) (m : BitVec 2) (idx : DWord) (l : BitVec 4) (s : State) : Out :=
  let size := sizeWdq m
  let n := wordCount size
  whenActive s (fun c sh em =>
    let f := firstLane em
    match overReads c sh em (upFrom (rn d) n) [(f, rn a)] with
    | some x => violation s c sh em x 0#64
    | none =>
      let q := rdVP s c sh f (rn a)
      let ad := laneAddr s c sh a (idx * BitVec.ofNat 64 size) f
      let live := if q then 0#32 else 1#32 <<< f
      accessChecks s c sh em 0#32 live size (fun _ => ad)
        (fun _ => decide (0 ≤ ad) && bsOk s c.bed ad.toNat size) false 2
        (let ws := (below n).map (fun k =>
          if q then (Config.freeWord (salt s (7000 + k)), true) else bsWord s sh.place.core (ad.toNat / 4 + k))
         startLong s c sh l.toNat (fillWrites ((lanesOf em).map (fun i => (i, ws))) em 0 (laneDest sh em (rn d) n))))

/-- LDC (R244). -/
def execLdc (d a : BitVec 7) (m : BitVec 2) (o : BitVec 5) (l : BitVec 4) (s : State) : Out :=
  constLoadOp d a m (shortIdx o) l s

/-! ## Group loads and stores (R245) -/

/-- A mask of poison for a group operand: the whole EXM (Table 17.3). -/
def groupPoison (m : Mask) (q : Bool) : Mask := if q then m else 0#32

/-- The lane that a group access is checked as: the lowest active one. -/
def oneLane (m : Mask) : Mask := 1#32 <<< firstLane m

/-- LDU with an offset index. -/
def groupLoadOp (d a : BitVec 7) (m : BitVec 2) (idx : DWord) (l : BitVec 4) (s : State) : Out :=
  let size := sizeWdq m
  groupOp s (fun c sh em =>
    let va := groupVa s c sh a (idx * BitVec.ofNat 64 size)
    let q := poisonG s c sh [rn a, rn a + 1]
    accessChecks s c sh em 0#32 (if q then 0#32 else oneLane em) size (fun _ => (va.toNat : Int)) (fun _ => canonical va)
      false 0
      (loadAccess s c sh (plainAccess (.load false) .group size [va] [] (if q then 1#32 else 0#32)) em l.toNat
        (groupDest sh (rn d) (wordCount size))))

/-- STU with an offset index. -/
def groupStoreOp (d a : BitVec 7) (m : BitVec 2) (idx : DWord) (s : State) : Out :=
  let size := sizeWdq m
  let n := wordCount size
  groupOp s (fun c sh em =>
    let va := groupVa s c sh a (idx * BitVec.ofNat 64 size)
    accessChecks s c sh em (groupPoison em (poisonG s c sh ([rn a, rn a + 1] ++ upFrom (rn d) n))) (oneLane em) size
      (fun _ => (va.toNat : Int)) (fun _ => canonical va) true 0
      (storeAccess s c sh (plainAccess .store .group size [va] (groupData s c sh (rn d) n) 0#32) em))

/-- LDSU with an offset index. -/
def groupScratchLoadOp (d a : BitVec 7) (m : BitVec 2) (idx : DWord) (l : BitVec 4) (s : State) : Out :=
  let size := sizeWdq m
  let n := wordCount size
  groupOp s (fun c sh em =>
    let ad := groupAddr s c sh a (idx * BitVec.ofNat 64 size)
    let q := rdGP s c sh (rn a)
    accessChecks s c sh em 0#32 (if q then 0#32 else oneLane em) size (fun _ => ad)
      (fun _ => scratchLegal s c sh ad size) false 1
      (let ws := if q then (below n).map (fun k => (Config.freeWord (salt s (7000 + k)), true))
         else scratchLoad s c (plotOf sh.place.core) ad.toNat size
       startLong (scratchSeen s c size (if q then [] else [ad.toNat])) c sh l.toNat (fillWrites [(0, ws)] em 0 (groupDest sh (rn d) n))))

/-- STSU with an offset index. -/
def groupScratchStoreOp (d a : BitVec 7) (m : BitVec 2) (idx : DWord) (s : State) : Out :=
  let size := sizeWdq m
  let n := wordCount size
  groupOp s (fun c sh em =>
    let ad := groupAddr s c sh a (idx * BitVec.ofNat 64 size)
    accessChecks s c sh em (groupPoison em (poisonG s c sh (rn a :: upFrom (rn d) n))) (oneLane em) size (fun _ => ad)
      (fun _ => scratchLegal s c sh ad size) true 1
      (done (scratchWrite s (plotOf sh.place.core) ad.toNat size (lget (groupData s c sh (rn d) n) 0 [])) c sh))

/-- LDU (R245). -/
def execLdu (d a : BitVec 7) (m : BitVec 2) (o : BitVec 5) (l : BitVec 4) (s : State) : Out := groupLoadOp d a m (shortIdx o) l s

/-- STU (R245). -/
def execStu (d a : BitVec 7) (m : BitVec 2) (o : BitVec 5) (s : State) : Out := groupStoreOp d a m (shortIdx o) s

/-- LDSU (R245). -/
def execLdsu (d a : BitVec 7) (m : BitVec 2) (o : BitVec 5) (l : BitVec 4) (s : State) : Out :=
  groupScratchLoadOp d a m (shortIdx o) l s

/-- STSU (R245). -/
def execStsu (d a : BitVec 7) (m : BitVec 2) (o : BitVec 5) (s : State) : Out := groupScratchStoreOp d a m (shortIdx o) s

/-! ## Fences (R247) -/

/-- A sheaf whose threads of a mask owe a release at a scope before their next store. -/
def oweRelease (scope : Nat) (m : Mask) (sh : Sheaf) : Sheaf :=
  { sh with owed := lanes.map (fun i => if bit m i then Nat.max (lget sh.owed i 0) (scope + 1) else lget sh.owed i 0) }

/-- What stands in the operand log for a FENCE.sc whose release waits (R168): later accesses of its threads wait for it. -/
def fenceAccess (scope : Nat) : Access :=
  { op := .reissue false, sc := .group, size := 0, addrs := [], data := [], poisonAddr := 0#32, scope := scope, acquire := true,
    release := true, transient := false }

/-- FENCE (R247, R122): kinds 0 acq, 1 rel, 2 ar, 3 sc.  FENCE.sc releases at once; rel and ar hold only later stores: their release is
made before the next of them (R114). -/
def execFence (_ : Scope) (k : BitVec 3) (kind : BitVec 2) (s : State) : Out :=
  whenActive s (fun c sh em =>
    let core := sh.place.core
    let s1 := if kind = 3#2 then releaseAt s core k.toNat else s
    let s2 := if kind = 1#2 then s1 else acquireAt s1 core k.toNat
    if s.holdRelease && kind == 3#2 then (done s c sh).andThen (fun t => .next (logHeld t c (fenceAccess k.toNat) em)) else
    done s2 c (if kind = 1#2 || kind = 2#2 then oweRelease k.toNat em sh else sh))

/-! ## Atomics (R248) -/

/-- Registers of an atomic's operands and of its results: CAS reads a compare and a new value. -/
def atomRegs (kind : BitVec 5) (wide : Bool) (d : Nat) : List Nat :=
  upFrom d ((if wide then 2 else 1) * (if kind = 9#5 then 2 else 1))

/-- The scope code of an atomic's m field (R108). -/
def atomScope (m : BitVec 2) : Nat := m.toNat + 2

/-- A lane global atomic of 4 or 8 bytes. -/
def globalAtomic (wide : Bool) (d a : BitVec 7) (m : BitVec 2) (kind : BitVec 5) (l : BitVec 4) (s : State) : Out :=
  let size := if wide then 8 else 4
  let regs := atomRegs kind wide (rn d)
  laneOp s ([rn a, rn a + 1] ++ regs) (fun c sh em =>
    let va := laneVa s c sh a 0#64
    accessChecks s c sh em (poisonOf s c sh ([rn a, rn a + 1] ++ regs) &&& em) em size
      (fun i => ((va i).toNat : Int)) (fun i => canonical (va i)) true 0
      (loadAccess s c sh { plainAccess (.atomic kind) .lane size (lanes.map va) (laneData s c sh (rn d) regs.length) 0#32 with
          scope := atomScope m } em l.toNat (laneDest sh em (rn d) (size / 4))))

/-- ATOM (R248), on lanes or once for the group. -/
def execAtom (sc : Scope) (d a : BitVec 7) (m : BitVec 2) (k : BitVec 5) (l : BitVec 4) (s : State) : Out :=
  match sc with
  | .lane => globalAtomic false d a m k l s
  | .group =>
    groupOp s (fun c sh em =>
      let va := groupVa s c sh a 0#64
      let regs := atomRegs k false (rn d)
      accessChecks s c sh em (groupPoison em (poisonG s c sh ([rn a, rn a + 1] ++ regs))) (oneLane em) 4
        (fun _ => (va.toNat : Int)) (fun _ => canonical va) true 0
        (loadAccess s c sh { plainAccess (.atomic k) .group 4 [va] (groupData s c sh (rn d) regs.length) 0#32 with
            scope := atomScope m } em l.toNat (groupDest sh (rn d) 1)))

/-- ATOM64 (R248). -/
def execAtom64 (d a : BitVec 7) (m : BitVec 2) (k : BitVec 5) (l : BitVec 4) (s : State) : Out :=
  globalAtomic true d a m k l s

/-- One lane's scratch atomic: the old word with its mark, and the state after. -/
def scratchAtomic (s0 : State) (p a : Nat) (kind : BitVec 5) (ops : List Word) : PWord × State :=
  let s := noteScratch s0 p a 4
  let old := scratchWord s p (a / 4)
  match atomicWords kind.toNat 4 [old.1] ops with
  | some new => (old, setScratch s p (a / 4) 15#4 (lget new 0 0#32))
  | none => (old, s)

/-- Scratch atomics of some lanes, in ascending order (R111). -/
def scratchAtomics (p : Nat) (kind : BitVec 5) (ad : Nat → Nat) (ops : Nat → List Word) (s : State) :
    List Nat → List (Nat × List PWord) × State
  | [] => ([], s)
  | i :: r =>
    let x := scratchAtomic s p (ad i) kind (ops i)
    let y := scratchAtomics p kind ad ops x.2 r
    ((i, [x.1]) :: y.1, y.2)

/-- ATOMS (R248): in the owning bank, whatever scope it names (R123). -/
def execAtoms (d a : BitVec 7) (_m : BitVec 2) (k : BitVec 5) (l : BitVec 4) (s : State) : Out :=
  let regs := atomRegs k false (rn d)
  laneOp s (rn a :: regs) (fun c sh em =>
    let ad := laneAddr s c sh a 0#64
    accessChecks s c sh em (poisonOf s c sh (rn a :: regs) &&& em) em 4 ad (fun i => scratchLegal s c sh (ad i) 4) true 1
      (let data := laneData s c sh (rn d) regs.length
       let x := scratchAtomics (plotOf sh.place.core) k (fun i => (ad i).toNat) (fun i => lget data i []) s (lanesOf em)
       startLong x.2 c sh l.toNat (fillWrites x.1 em 0 (laneDest sh em (rn d) 1))))

end Sys2Proof.Machine
end

