-- ==== Sys2Proof/Machine/Control.lean ====
section
/-! DEFINITION. Branches and calls (R200 to R202), control words (R203 to R211), the window base (R212) and the EXT prefix (R176).
In handler mode no thread stands at the handler's PC, so the control set that R11 names is empty, and a branch moves the
handler's own stream (R343). -/

namespace Sys2Proof.Machine

/-! ## Branches (R200, R201, R202) -/

/-- The target of a branch at P by a displacement in words (R175). -/
def branchTo {k : Nat} (p : DWord) (j : BitVec k) : DWord := p + j.signExtend 64 * 4#64

/-- The threads of a mask go to their targets, the others of the control set to the next instruction (R11, R200). -/
def moveThreads (c : Cur) (sh : Sheaf) (m : Mask) (target : Nat → DWord) : Sheaf :=
  { sh with pcs := lanes.map (fun i =>
      if bit c.ctl i then (if bit m i then target i else c.pc + BitVec.ofNat 64 c.len) else lget sh.pcs i 0#64) }

/-- The lane whose choice the handler's stream follows: any where all lanes agree, a free one otherwise. -/
def handlerLane (s : State) : Nat := Config.freeNat (salt s 5100) % 32

/-- The lanes of a mask jump. -/
def jump (s : State) (c : Cur) (sh : Sheaf) (m : Mask) (target : Nat → DWord) : Out :=
  if sh.handler then
    let all := decide (m = Mask.full)
    let take := all || (m != 0#32 && Config.freeBool (salt s 5101))
    let t0 := target 0
    let t := if lanes.all (fun i => target i == t0) then t0 else target (handlerLane s)
    .next (putSheaf s c { sh with hpc := if take then t else c.pc + BitVec.ofNat 64 c.len })
  else .next (putSheaf s c (moveThreads c sh m target))

/-- The target of a near-profile branch (R175), a 64-bit offset: one before the code's first word lies outside the code. -/
def nearTarget (pc : Nat) (disp : Int) : Nat := (((pc : Int) + 4 * disp) % 2 ^ 64).toNat

/-- A near-profile branch: the thread takes it where the condition holds (R141). -/
def nearBranch (s : State) (cond : NThr → Bool) (disp : Int) : Out :=
  onPair s (fun n _ t =>
    .next (putThr s n { t with pc := if cond t then nearTarget t.pc disp else t.pc + 4 }))

/-- A branch by a group mask: BR where the bit is set, BRN where it is clear (R200); a poisoned mask traps (R56). -/
def branchMask (m : BitVec 7) (j : BitVec 18) (sense : Bool) (s : State) : Out :=
  if onEngine s then nearBranch s (fun t => (nearG t (rn m) != 0#64) == sense) j.toInt
  else
    onSheaf s (fun c sh =>
      let x := exm c sh
      if x ≠ 0#32 ∧ rdGP s c sh (rn m) = true then poisonUse s c sh x
      else
        let g := rdG s c sh (rn m)
        jump s c sh (x &&& (if sense then g else ~~~g)) (fun _ => branchTo c.pc j))

/-- BR (R200). -/
def execBr (m : BitVec 7) (j : BitVec 18) (s : State) : Out := branchMask m j true s

/-- BRN (R200). -/
def execBrn (m : BitVec 7) (j : BitVec 18) (s : State) : Out := branchMask m j false s

/-- BRA (R200). -/
def execBra (j : BitVec 25) (s : State) : Out :=
  if onEngine s then nearBranch s (fun _ => true) j.toInt
  else onSheaf s (fun c sh => jump s c sh (exm c sh) (fun _ => branchTo c.pc j))

/-- CALL (R201): the link goes to v127 of each active thread; on an engine, to the register that Config names (log 11). -/
def execCall (j : BitVec 25) (s : State) : Out :=
  if onEngine s then
    onPair s (fun n _ t =>
      .next (putThr s n { nearPutG t (Config.nearLink % 32) (BitVec.ofNat 64 (t.pc + 4)) with
        pc := nearTarget t.pc j.toInt }))
  else
    onSheaf s (fun c sh =>
      let m := exm c sh
      withBudget s c sh m [127]
        (jump s c (writeLanes sh 127 m (.g (copies 32 (BitVec.ofNat 32 (c.pc.toNat + c.len)))) 0#32) m (fun _ => branchTo c.pc j)))

/-- JMPR (R202): poison is checked before alignment. -/
def execJmpr (a : BitVec 7) (s : State) : Out :=
  if onEngine s then
    onPair s (fun n _ t => .next (putThr s n { t with pc := (nearG t (rn a)).toNat }))
  else
    onSheaf s (fun c sh =>
      let m := exm c sh
      withBudget s c sh m [rn a]
        (let t := fun i => (BitVec.ofNat 32 (c.pc.toNat / 2 ^ 32) ++ rdV s c sh i (rn a) : DWord)
         let q := poisonOf s c sh [rn a] &&& m
         if q ≠ 0#32 then poisonUse s c sh q
         else
           match lowest (maskOf (fun i => bit m i && decide ((t i).toNat % 4 ≠ 0))) with
           | some l => misaligned s c sh m l (t l)
           | none => jump s c sh m t))

/-! ## Control words (Table 8.7) -/

/-- EXIT (R23): the control set leaves every rejoin register and ends. -/
def execExit (s : State) : Out :=
  onSheaf s (fun c sh =>
    if sh.handler then done s c sh
    else .next (afterEnd (putSheaf s c (endThreads sh c.ctl)) c.bed c.sheaf))

/-- The threads move on and the sheaf yields (R37); their lookahead spans end (R180). -/
def yieldOp (s : State) : Out :=
  onSheaf s (fun c sh => (done s c (endSpans sh c.ctl)).andThen (fun s1 => .next (yieldSheaf s1 c.bed c.sheaf)))

/-- YIELD (R203). -/
def execYield (s : State) : Out := yieldOp s

/-- YIELD.g (R216). -/
def execYieldG (s : State) : Out := yieldOp s

/-- NOP (R203). -/
def execNop (s : State) : Out := onSheaf s (fun c sh => done s c sh)

/-- BKPT (R205): a breakpoint trap at P. -/
def execBkpt (s : State) : Out := onSheaf s (fun c sh => trap s c sh (plainTrap 16))

/-- TRAP n (R205): the record carries n and offers P + 4. -/
def execTrap (n : BitVec 7) (s : State) : Out :=
  onSheaf s (fun c sh => trapWith s c sh (detailTrap 15 n.toNat) (c.pc + BitVec.ofNat 64 c.len) false)

/-- PRED (R12): the ON bits of the control set from a mask. -/
def execPred (m : BitVec 7) (s : State) : Out :=
  onSheaf s (fun c sh =>
    if c.ctl ≠ 0#32 ∧ rdGP s c sh (rn m) = true then poisonUse s c sh c.ctl
    else done s c { sh with on := mergeMask sh.on c.ctl (rdG s c sh (rn m)) })

/-- UNPRED (R12). -/
def execUnpred (s : State) : Out := onSheaf s (fun c sh => done s c { sh with on := sh.on ||| c.ctl })

/-- SPC of jK (R208). -/
def spill (sh : Sheaf) (k : Nat) : Nat := (mget sh.spc k 0#8).toNat

/-- SETJ (R21). -/
def execSetj (k : BitVec 4) (s : State) : Out :=
  onSheaf s (fun c sh =>
    if jE sh k.toNat ≠ 0#32 then rejoinOverflow s c sh k.toNat 0 else done s c (setJ sh k.toNat c.ctl 0#32))

/-- JOIN (R22, R211): expected threads arrive and park; with spilled levels, the others are held. The sheaf yields where no
thread of it is left to run (R24). -/
def execJoin (k : BitVec 4) (s : State) : Out :=
  onSheaf s (fun c sh =>
    let e := jE sh k.toNat
    let sp := decide (0 < spill sh k.toNat)
    if sp ∧ e = 0#32 then rejoinOverflow s c sh k.toNat 1
    else
      let arrive := c.ctl &&& e
      let parked := if sp then c.ctl else arrive
      let sh1 := advance c (endSpans sh parked)
      let sh2 := releaseJ (setPark (setJ sh1 k.toNat e (jA sh1 k.toNat ||| arrive)) parked (.join k)) k.toNat
      let s1 := putSheaf s c sh2
      .next (if parked ≠ 0#32 ∧ runMask sh2 = 0#32 then yieldSheaf s1 c.bed c.sheaf else s1))

/-- JLEAVE (R23, R211). -/
def execJleave (k : BitVec 4) (s : State) : Out :=
  onSheaf s (fun c sh =>
    let e := jE sh k.toNat
    if 0 < spill sh k.toNat ∧ (e = 0#32 ∨ c.ctl &&& ~~~e ≠ 0#32) then rejoinOverflow s c sh k.toNat 2
    else done s c (leaveJ sh k.toNat c.ctl))

/-- REGION (R204). -/
def execRegion (s : State) : Out :=
  onSheaf s (fun c sh =>
    done s c { sh with
      regionPc := lanes.map (fun i => if bit c.ctl i then c.pc else lget sh.regionPc i 0#64),
      regionCnt := sh.regionCnt + 1#32 })

/-- HRET (R206, R346): a privilege trap in normal mode. -/
def execHret (s : State) : Out :=
  onSheaf s (fun c sh => if sh.handler then .next (leaveHandler s c.bed c.sheaf) else privilege s c sh)

/-! ## Window base (R212) -/

/-- The window bases of the control set, in units of 16 registers, set by a function that fails outside 0 to 24. -/
def setWindows (s : State) (f : Nat → Int) : Out :=
  onSheaf s (fun c sh =>
    let new := fun i => f (lget sh.wb i 0)
    match lowest (maskOf (fun i => bit c.ctl i && (decide (new i < 0) || decide (24 < new i)))) with
    | some l => violation s c sh c.ctl l 0#64
    | none => done s c { sh with wb := lanes.map (fun i => if bit c.ctl i then (new i).toNat else lget sh.wb i 0) })

/-- WBASE n (R212). -/
def execWbase (n : BitVec 5) (s : State) : Out := setWindows s (fun _ => n.toNat)

/-- WBASE.rel d (R212). -/
def execWbaseRel (r : BitVec 6) (s : State) : Out := setWindows s (fun w => (w : Int) + r.toInt)

/-! ## The EXT prefix (R173, R174, R176) -/

/-- An offset index with the prefix above it (R174). -/
def extIdx (i : BitVec 25) (o : BitVec 5) : DWord := (extImm i (o.setWidth 11)).signExtend 64

/-- Orphan prefix (Table 17.1, bit 1). -/
def orphan (s : State) : Out := onSheaf s (fun c sh => trap s c sh (plainTrap 1))

/-- An immediate of an EXT pair with a 32-bit operation; one that does not fit is illegal (R173). -/
def extAlu (op : AluOp) (sc : Scope) (d a : BitVec 7) (x : BitVec 36) (s : State) : Out :=
  if fits32 x then aluImm op sc d a (low32 x) 0#64 s else onSheaf s (illegal s)

/-- EXT and the word that follows it (R176). -/
def execExt (sc : Scope) (i : BitVec 25) (next : BitVec 32) (s : State) : Out :=
  let same := fun (t : Scope) (k : Out) => if t = sc then k else orphan s
  match decodeWord next 0#32 with
  | .error _ => onSheaf s (illegal s)
  | .ok (.addi t d a x) => same t (extAlu .add t d a (extImm i x) s)
  | .ok (.muli t d a x) => same t (extAlu .mul t d a (extImm i x) s)
  | .ok (.andi t d a x) => same t (extAlu .and t d a (extImm i x) s)
  | .ok (.ori t d a x) => same t (extAlu .or t d a (extImm i x) s)
  | .ok (.xori t d a x) => same t (extAlu .xor t d a (extImm i x) s)
  | .ok (.li t d x) =>
    same t (let y := extImm i (x.setWidth 11)
            if x.toNat < 2 ^ 11 ∧ fits32 y = true then loadImm t d (low32 y) 0#64 s else onSheaf s (illegal s))
  | .ok (.ld d a m o l) => same .lane (loadOp d a m (extIdx i o) l s)
  | .ok (.ldx d a m o l) => same .lane (loadNarrowOp d a m (extIdx i o) l s)
  | .ok (.st d a m o) => same .lane (storeOp d a m (extIdx i o) s)
  | .ok (.stq d a o) => same .lane (storeQuadOp d a (extIdx i o) s)
  | .ok (.lds d a m o l) => same .lane (scratchLoadOp d a m (extIdx i o) l s)
  | .ok (.sts d a m o) => same .lane (scratchStoreOp d a m (extIdx i o) s)
  | .ok (.ldc d a m o l) => same .lane (constLoadOp d a m (extIdx i o) l s)
  | .ok (.ldt d a m o l) => same .lane (loadTransientOp d a m (extIdx i o) l s)
  | .ok (.ldu d a m o l) => same .group (groupLoadOp d a m (extIdx i o) l s)
  | .ok (.stu d a m o) => same .group (groupStoreOp d a m (extIdx i o) s)
  | .ok (.ldsu d a m o l) => same .group (groupScratchLoadOp d a m (extIdx i o) l s)
  | .ok (.stsu d a m o) => same .group (groupScratchStoreOp d a m (extIdx i o) s)
  | .ok _ => orphan s

end Sys2Proof.Machine
end

