-- ==== Sys2Proof/Machine/System.lean ====
section
/-! DEFINITION. Special registers (R58 to R61, R213, R214; Tables 2.5, 2.7, 17.2, 17.9 and 18.3): which accesses are illegal or
privileged, what each register reads, and what a write or a read-and-clear changes. -/

namespace Sys2Proof.Machine

/-! ## The index map (Tables 2.4, 2.5, 2.7, 17.2, 17.9, 18.3) -/

/-- The index belongs to a range that normal mode may not reach (Table 2.4). -/
def handlerOnly (x : Nat) : Bool := (decide (0x60 ≤ x) && decide (x < 0x140)) || (decide (0x1C0 ≤ x) && decide (x < 0x240))

/-- The index names a register. -/
def listedReg (x : Nat) : Bool :=
  decide (x ≤ 0xC) || x == 0x20 || x == 0x21 || x == 0x30 || x == 0x31 || x == 0x40 || x == 0x41 ||
  (decide (0x60 ≤ x) && decide (x ≤ 0x73)) || (decide (0x78 ≤ x) && decide (x ≤ 0x7B)) ||
  (decide (0x100 ≤ x) && decide (x ≤ 0x106)) || (decide (0x140 ≤ x) && decide (x ≤ 0x14F)) ||
  x == 0x1C0 || (decide (0x1C2 ≤ x) && decide (x ≤ 0x1C9))

/-- The index names a register with a field that SWR writes (R59). -/
def writableReg (x : Nat) : Bool :=
  x == 0x40 || x == 0x61 || x == 0x64 || x == 0x65 || x == 0x66 || x == 0x73 ||
  (decide (0x78 ≤ x) && decide (x ≤ 0x7B)) || x == 0x100 || x == 0x104 || x == 0x105 || x == 0x1C0 ||
  (decide (0x1C2 ≤ x) && decide (x ≤ 0x1C9))

/-- The values of lane registers, not of a sheaf: lane SRD only (Table 2.4). -/
def perThreadReg (x : Nat) : Bool := decide (0x20 ≤ x) && decide (x ≤ 0x2F)

/-- The cause of the trap that a special-register access raises before anything else: 0 illegal, 2 privilege (R58, R59, R374). -/
def sysFault (s : State) (sh : Sheaf) (sc : Scope) (write : Bool) (x : Nat) : Option Nat :=
  if handlerOnly x && !sh.handler then some 2
  else if !listedReg x then some 0
  else if write && !writableReg x then some 0
  else if !write && perThreadReg x && sc == .group then some 0
  else if write && (x == 0x104 || x == 0x105) && !(getCore s sh.place.core).margin.injen then some 2
  else none

/-! ## Reading -/

/-- A bit as a word. -/
def bitWord (b : Bool) (k : Nat) : Word := if b then 1#32 <<< k else 0#32

/-- Causes held in the pending queue (TPEND). -/
def pendCauses (sh : Sheaf) : Word := sh.pend.foldl (fun m r => m ||| r.cause) 0#32

/-- TFLAGS of a record (index 0x066). -/
def flagsWord (r : TrapRec) : Word :=
  bitWord r.prec 0 ||| bitWord r.restart 1 ||| bitWord r.keep 2 ||| bitWord r.handler 3 ||| bitWord r.paired 4 |||
    bitWord r.lost 5 ||| (r.hact.setWidth 32 <<< 8)

/-- Low and high half of a 64-bit field. -/
def half (x : DWord) (hi : Bool) : Word := BitVec.ofNat 32 (if hi then x.toNat / 2 ^ 32 else x.toNat)

/-- A register of the trap record and handler state (Table 17.2). -/
def trapReg (sh : Sheaf) (x : Nat) : Word :=
  let r := sh.record
  match x with
  | 0x60 => r.cause
  | 0x61 => pendCauses sh
  | 0x62 => half r.tpc false
  | 0x63 => half r.tpc true
  | 0x64 => half r.trpc false
  | 0x65 => half r.trpc true
  | 0x66 => flagsWord r
  | 0x67 => half r.treg false
  | 0x68 => half r.treg true
  | 0x69 => r.tregcnt
  | 0x6A => r.tmask
  | 0x6B => r.tlanes
  | 0x6C => r.tlanes2
  | 0x6D => r.tdetail
  | 0x6E => half r.taddr false
  | 0x6F => half r.taddr true
  | 0x70 => r.tinst0
  | 0x71 => r.tinst1
  | 0x72 => BitVec.ofNat 32 sh.pend.length
  | 0x73 => sh.tdrop
  | _ => wordOf (mget sh.spc (4 * (x - 0x78)) 0#8) (mget sh.spc (4 * (x - 0x78) + 1) 0#8)
      (mget sh.spc (4 * (x - 0x78) + 2) 0#8) (mget sh.spc (4 * (x - 0x78) + 3) 0#8)

/-- A margin register of a core (Table 18.3); FLOOR is the core's fuse. -/
def marginReg (s : State) (core x : Nat) : Word :=
  let g := (getCore s core).margin
  match x with
  | 0x100 => BitVec.ofNat 32 (g.target.toNat + g.rlim.toNat * 2 ^ 4 + g.wexp.toNat * 2 ^ 8 + g.rthr.toNat * 2 ^ 12 +
      g.qlim.toNat * 2 ^ 24)
  | 0x101 => BitVec.ofNat 32 (g.cur.toNat + (Config.floor core).toNat * 2 ^ 4) ||| bitWord g.ramp 8 ||| bitWord g.quar 9
  | 0x102 => BitVec.ofNat 32 (g.repl.toNat + g.mtrap.toNat * 2 ^ 16 + g.raise.toNat * 2 ^ 24)
  | 0x103 => BitVec.ofNat 32 (g.wrepl.toNat + g.wtrap.toNat * 2 ^ 16)
  | 0x104 => g.inj0
  | 0x105 => g.inj1
  | _ => bitWord g.quar 0 ||| BitVec.ofNat 32 (g.qwhy.toNat * 2) ||| bitWord g.injen 3 ||| BitVec.ofNat 32 (g.qcnt.toNat * 2 ^ 8)

/-- A debug register (Table 17.9). -/
def debugReg (sh : Sheaf) (x : Nat) : Word :=
  if x = 0x1C0 then bitWord sh.sstep 0 ||| bitWord sh.stopBed 1 ||| BitVec.ofNat 32 (sh.bpen.toNat * 4)
  else half (mget sh.bp ((x - 0x1C2) / 2) 0#64) (x % 2 == 1)

/-- The grid extent or coordinate registers and the launch's own (Table 2.5). -/
def identityReg (s : State) (c : Cur) (sh : Sheaf) (x : Nat) : Word :=
  let rec_ := match launchOf s c.bed with
    | some l => l.record
    | none => 0#2048
  let bd := getBed s c.bed
  match x with
  | 0 => BitVec.ofNat 32 sh.place.core
  | 1 => BitVec.ofNat 32 (sh.place.slot + sh.place.pos * 4)
  | 2 => BitVec.ofNat 32 sh.place.index
  | 3 => BitVec.ofNat 32 (recField rec_ 127 112)
  | 4 => BitVec.ofNat 32 ((bd.map (fun b => b.x)).getD 0)
  | 5 => BitVec.ofNat 32 ((bd.map (fun b => b.y)).getD 0)
  | 6 => BitVec.ofNat 32 ((bd.map (fun b => b.z)).getD 0)
  | 7 => BitVec.ofNat 32 (recField rec_ 79 64 + 1)
  | 8 => BitVec.ofNat 32 (recField rec_ 95 80 + 1)
  | 9 => BitVec.ofNat 32 (recField rec_ 103 96 + 1)
  | 0xA => half ((launchOf s c.bed).map (fun l => l.ident) |>.getD 0#64) false
  | 0xB => half ((launchOf s c.bed).map (fun l => l.ident) |>.getD 0#64) true
  | _ => BitVec.ofNat 32 (sh.place.roleCode.toNat % 4 + sh.place.budget / 16 * 2 ^ 8)

/-- The floating-point registers (Table 2.5). -/
def floatReg (sh : Sheaf) (x : Nat) : Word :=
  if x = 0x40 then bitWord sh.nfin 0 ||| bitWord sh.nfout 1 ||| bitWord sh.precfp 2
  else bitWord sh.seenin 0 ||| bitWord sh.seenout 1

/-- The value an SRD delivers, per-thread registers apart.  One that runs again, or issues beside another, sees the bits of 0x041 as they
stood when it issued (R79). -/
def specialReg (s : State) (c : Cur) (sh : Sheaf) (x : Nat) : Word :=
  if x ≤ 0xC then identityReg s c sh x
  else if x = 0x30 then half (getDie s (dieOf sh.place.core)).cycle false
  else if x = 0x31 then sh.cychi
  else if x = 0x40 ∨ x = 0x41 then floatReg (src c sh) x
  else if x < 0x100 then trapReg sh x
  else if x < 0x140 then marginReg s sh.place.core x
  else if x < 0x1C0 then mget (getCore s sh.place.core).perf (x - 0x140) 0#32
  else debugReg sh x

/-- A per-thread register of a lane (Table 2.5): WINB, and PARKSTATE, which reads as RUN. -/
def threadReg (sh : Sheaf) (x i : Nat) : Word := if x = 0x20 then BitVec.ofNat 32 (lget sh.wb i 0) else 0#32

/-- Time passes before a counter of cycles is read: the die's counter (R60), and the cycles of sheaves that wait for the
token now (R61). -/
def tickCounters (s : State) (sh : Sheaf) (x : Nat) : State :=
  if x = 0x30 then
    let d := dieOf sh.place.core
    let e := Config.elapsed (salt s 5200) &&& 0xFFFFFFFF#64
    { s with dies := mset s.dies d { getDie s d with cycle := (getDie s d).cycle + e } }
  else if x = 0x14F ∧ (getCore s sh.place.core).tokQ ≠ [] then count s sh.place.core 15 (Config.freeNat (salt s 5201))
  else s

/-- What a read changes: CYCLO latches CYCHI (R214); a register of RC fields clears what it delivered, no bit that has been
set since (R377). -/
def afterRead (s : State) (held sh : Sheaf) (x : Nat) : State × Sheaf :=
  if x = 0x30 then (s, { sh with cychi := half (getDie s (dieOf sh.place.core)).cycle true })
  else if x = 0x41 then (s, { sh with seenin := sh.seenin && !held.seenin, seenout := sh.seenout && !held.seenout })
  else if x = 0x102 then
    (modCore s sh.place.core (fun k => { k with margin := { k.margin with repl := 0#16, mtrap := 0#8, raise := 0#8 } }), sh)
  else (s, sh)

/-- SRD (R213). -/
def execSrd (sc : Scope) (d : BitVec 7) (x : BitVec 10) (s : State) : Out :=
  onSheaf s (fun c sh =>
    match sysFault s sh sc false x.toNat with
    | some k => trap s c sh (plainTrap k)
    | none =>
      if exm c sh = 0#32 then done s c sh
      else
        let m := exm c sh
        let s1 := tickCounters s sh x.toNat
        let v := specialReg s1 c sh x.toNat
        match sc with
        | .group =>
          let r := afterRead s1 (src c sh) sh x.toNat
          done r.1 c (writeGroup r.2 (rn d) v false)
        | .lane =>
          withBudget s c sh m [rn d]
            (if perThreadReg x.toNat then
              done s c (writeLanes sh (rn d) m (.g (perLane (threadReg sh x.toNat))) 0#32)
             else
              let r := afterRead s1 (src c sh) sh x.toNat
              done r.1 c (writeLanes r.2 (rn d) m (.u v) 0#32)))

/-! ## Writing -/

/-- TARGET of a core changes (Table 18.3, R368): no deeper than FLOOR, ignored while quarantined; a raise takes effect at once. -/
def setTarget (s : State) (core n : Nat) : State :=
  let g := (getCore s core).margin
  if g.quar then s
  else
    let t := Nat.min n (Config.floor core).toNat
    let raise := decide (t < g.cur.toNat)
    let s1 := modCore s core (fun k => { k with margin := { k.margin with
      target := BitVec.ofNat 4 t, cur := if raise then BitVec.ofNat 4 t else k.margin.cur,
      ramp := k.margin.ramp || raise } })
    if raise then due s1 (.regulatorSettled core) else s1

/-- A write of MRGCTL: a field out of its range stays (R374). -/
def writeMargin (s : State) (core : Nat) (v : Word) : State :=
  let f := fun hi lo => bits v.toNat hi lo
  let s1 := modCore s core (fun k => { k with margin := { k.margin with
    rlim := if f 6 4 = 0 then k.margin.rlim else BitVec.ofNat 3 (f 6 4),
    wexp := BitVec.ofNat 4 (f 11 8),
    rthr := if f 23 12 = 0 then k.margin.rthr else BitVec.ofNat 12 (f 23 12),
    qlim := if f 27 24 = 0 then k.margin.qlim else BitVec.ofNat 4 (f 27 24) } })
  setTarget s1 core (f 3 0)

/-- The RW bits of an injector (Table 18.3). -/
def injBits : Word := 0x00FFFF77#32

/-- One half of a 64-bit register replaced. -/
def setHalf (x : DWord) (hi : Bool) (v : Word) : DWord := if hi then v ++ BitVec.ofNat 32 x.toNat else half x true ++ v

/-- What an SWR changes (R59): only RW and write-one-to-clear fields. -/
def writeSpecial (s : State) (sh : Sheaf) (x : Nat) (v : Word) : State × Sheaf :=
  let r := sh.record
  match x with
  | 0x40 => (s, { sh with nfin := v.getLsbD 0, nfout := v.getLsbD 1 })
  | 0x61 => (s, { sh with pend := sh.pend.filter (fun p => p.cause &&& v = 0#32) })
  | 0x64 => (s, { sh with record := { r with trpc := setHalf r.trpc false v } })
  | 0x65 => (s, { sh with record := { r with trpc := setHalf r.trpc true v } })
  | 0x66 => (s, { sh with record := { r with
      restart := v.getLsbD 1, keep := v.getLsbD 2,
      hact := if bits v.toNat 9 8 = 3 then r.hact else BitVec.ofNat 2 (bits v.toNat 9 8) } })
  | 0x73 => (s, { sh with tdrop := sh.tdrop &&& ~~~v })
  | 0x100 => (writeMargin s sh.place.core v, sh)
  | 0x104 => (modCore s sh.place.core (fun k => { k with margin := { k.margin with inj0 := v &&& injBits } }), sh)
  | 0x105 => (modCore s sh.place.core (fun k => { k with margin := { k.margin with inj1 := v &&& injBits } }), sh)
  | 0x1C0 => (s, { sh with sstep := v.getLsbD 0, stopBed := v.getLsbD 1, bpen := BitVec.ofNat 4 (bits v.toNat 5 2) })
  | _ =>
    if x < 0x100 then
      (s, { sh with spc := (below 4).foldl (fun m b => mput m (4 * (x - 0x78) + b) (byteOf v b) 0#8) sh.spc })
    else
      let b := (x - 0x1C2) / 2
      (s, { sh with bp := mput sh.bp b (setHalf (mget sh.bp b 0#64) (x % 2 == 1) v) 0#64 })

/-- SWR (R213): the lowest active lane's value, or the group register's; a poisoned one traps (R56). -/
def execSwr (sc : Scope) (a : BitVec 7) (x : BitVec 10) (s : State) : Out :=
  onSheaf s (fun c sh =>
    match sysFault s sh sc true x.toNat with
    | some k => trap s c sh (plainTrap k)
    | none =>
      if exm c sh = 0#32 then done s c sh
      else
        let m := exm c sh
        let f := firstLane m
        let write := fun v =>
          let r := writeSpecial s sh x.toNat v
          done r.1 c r.2
        match sc with
        | .group => if rdGP s c sh (rn a) then poisonUse s c sh m else write (rdG s c sh (rn a))
        | .lane =>
          withBudget s c sh (1#32 <<< f) [rn a]
            (if rdVP s c sh f (rn a) then poisonUse s c sh (1#32 <<< f) else write (rdV s c sh f (rn a))))

end Sys2Proof.Machine
end

