-- ==== Sys2Proof/Machine/BarrierOps.lean ====
section
/-! DEFINITION. Barrier objects (R249 to R258): references, the object's words at its location, arrivals, and the engine arrivals
of R255. -/

namespace Sys2Proof.Machine

/-! ## References and locations (R249) -/

/-- The space code of a barrier reference. -/
def refSpace (ref : DWord) : Nat := ref.toNat % 4

/-- The reference's form is sound for the space it names; `none_` allows space 2.  R249 gives no trap to a scratch reference whose bits
[63:32] are not zero: DESIGN CHOICE, the queue fault of the other bits (log 129). -/
def refOk (ref : DWord) (none_ : Bool) : Bool :=
  ref.toNat / 4 % 4 == 0 &&
    (match refSpace ref with
     | 0 => true
     | 1 => decide (ref.toNat < 2 ^ 32)
     | 2 => none_
     | _ => false)

/-- The VA of a global object. -/
def refVa (ref : DWord) : DWord := ref &&& ~~~(15#64)

/-- The scratch address of a scratch object. -/
def refScratch (ref : DWord) : Nat := ref.toNat / 16 * 16

/-- The checks that COPY, COPYOUT and TMM make of their barrier reference at issue (R249): its form, then its address (R239): a
canonical VA, or scratch that the launch may access (R83). -/
def withRef (s : State) (c : Cur) (sh : Sheaf) (m : Mask) (ref : DWord) (k : Out) : Out :=
  if !refOk ref true then queueFault s c sh
  else if (refSpace ref == 0 && !canonical (refVa ref)) ||
      (refSpace ref == 1 && !scratchOk s (plotOf sh.place.core) (launchKey s c.bed) (refScratch ref) 16) then
    violation s c sh m (lowestD m) (refVa ref)
  else k

/-- Where an object stands: in a plot's scratch, or in memory at a physical address. -/
structure BarLoc where
  scratch : Bool
  plot : Nat
  loc : Nat
  deriving DecidableEq, Repr

/-! ## The object (Table 10.4) -/

/-- Word k of an object at its location (R250).  After an ordinary store to an object a barrier operation may see each word old or new
(R251): DESIGN CHOICE, it sees what stands at the bank or the home (log 128). -/
def barWord (s : State) (l : BarLoc) (k : Nat) : Word :=
  if l.scratch then (scratchWord s l.plot (l.loc / 4 + k)).1 else (homeWord s (l.loc / 4 + k)).1

/-- A word of an object written at its location; a home write goes through (R423). -/
def setBarWord (s : State) (l : BarLoc) (k : Nat) (x : Word) : State :=
  if l.scratch then setScratch s l.plot (l.loc / 4 + k) 15#4 x else putHome s (l.loc / 4 + k) 15#4 (x, false)

/-- The fields of a barrier object. -/
structure Bar where
  gen : Word
  expect : Nat
  left : Nat
  scope : Nat
  status : Nat
  pend : Nat
  reservedZero : Bool
  deriving DecidableEq, Repr

/-- The object at a location. -/
def barAt (s : State) (l : BarLoc) : Bar :=
  let w1 := (barWord s l 1).toNat
  let w2 := (barWord s l 2).toNat
  { gen := barWord s l 0, expect := bits w1 15 0, left := bits w1 31 16, scope := bits w2 2 0, status := bits w2 15 8,
    pend := bits w2 23 16, reservedZero := bits w2 7 3 == 0 && bits w2 31 24 == 0 }

/-- The object written; WAITQ means something to hardware only: zero with no waiter, open otherwise (R250). -/
def setBar (s : State) (l : BarLoc) (b : Bar) (waiters : Bool) : State :=
  let s0 := setBarWord s l 0 b.gen
  let s1 := setBarWord s0 l 1 (BitVec.ofNat 32 (b.expect + b.left * 2 ^ 16))
  let s2 := setBarWord s1 l 2 (BitVec.ofNat 32 (b.scope + b.status * 2 ^ 8 + b.pend * 2 ^ 16))
  setBarWord s2 l 3 (if waiters then Config.freeWord (salt s 5300) else 0#32)

/-- The object is valid (R250). -/
def Bar.valid (b : Bar) : Bool :=
  decide (1 ≤ b.expect) && decide (b.left ≤ b.expect) && decide (b.scope ≤ 5) && b.reservedZero

/-- The waiter stands at the location. -/
def BWait.isAt (w : BWait) (l : BarLoc) : Bool :=
  w.scratch == l.scratch && w.loc == l.loc && (!l.scratch || w.plot == l.plot)

/-- Waiters are registered at the location. -/
def hasWaiters (s : State) (l : BarLoc) : Bool := s.bwait.any (fun w => w.isAt l && !w.woken)

/-- Waking the waiters of a location is due (R256). -/
def wakeWaiters (s : State) (l : BarLoc) : State :=
  (s.bwait.filter (fun w => w.isAt l && !w.woken)).foldl (fun s w => due s (.barrierWake w.bed w.sheaf))
    { s with bwait := s.bwait.map (fun w => if w.isAt l then { w with woken := true } else w) }

/-- An arrival with a count and status bits on a valid object (R254): the object after it, and whether the phase ended. -/
def arrival (b : Bar) (n st : Nat) : Bar × Bool :=
  let pend := Nat.lor b.pend st
  if b.left ≤ n then
    let p := if b.left < n then Nat.lor pend 64 else pend
    ({ b with status := p, pend := 0, left := b.expect, gen := b.gen + 1#32 }, true)
  else ({ b with pend := pend, left := b.left - n }, false)

/-- The arrival at a location; nothing where the object is invalid. -/
def arriveAt (s : State) (l : BarLoc) (n st : Nat) : Option State :=
  let b := barAt s l
  if b.valid then
    let r := arrival b n st
    let s1 := setBar s l r.1 (!r.2 && hasWaiters s l)
    some (if r.2 then wakeWaiters s1 l else s1)
  else none

/-! ## Naming an object (R361) -/

/-- A launch names a global object: it enters the touched list, up to 64; a 65th is logged. -/
def touch (s : State) (launch : Nat) (ref : DWord) (die core : Nat) : State :=
  if refSpace ref ≠ 0 then s
  else
    match getLaunch s launch with
    | none => s
    | some l =>
      if l.touched.contains (refVa ref) then s
      else if l.touched.length < 64 then modLaunch s launch (fun l => { l with touched := l.touched ++ [refVa ref] })
      else logEvent s 13 die none 0xFFFFFFFF#32 (if core < 256 then core else l.ident.toNat)

/-- The bed names an object. -/
def touchBy (s : State) (bed core : Nat) (ref : DWord) : State := touch s (launchKey s bed) ref (dieOf core) core

/-! ## Engine arrivals (R254, R255) -/

/-- The location of a reference for an engine, which needs W on a global page; none where there is none. -/
def engineLoc (s : State) (asid : BitVec 16) (plot : Nat) (ref : DWord) : Option BarLoc :=
  match refSpace ref with
  | 0 =>
    match translateAt s asid (refVa ref) true with
    | some (pa, _) => some { scratch := false, plot := 0, loc := pa }
    | none => none
  | 1 => if refScratch ref < 0x200000 then some { scratch := true, plot := plot, loc := refScratch ref } else none
  | _ => none

/-- Bits [27:4] of an object's address, as an event of kind 15 gives them (R255). -/
def refTag (ref : DWord) : Nat :=
  (if refSpace ref = 0 then (refVa ref).toNat else refScratch ref) / 16 % 2 ^ 24

/-- An engine's arrival: space 2 makes none; on an invalid object it is logged, and the answer is false (R255). -/
def engineArrive (s : State) (asid : BitVec 16) (plot : Nat) (ref : DWord) (n st engine die ident : Nat) : State × Bool :=
  if refSpace ref = 2 then (s, true)
  else
    match engineLoc s asid plot ref with
    | some l =>
      match arriveAt (if refSpace ref = 0 then unsnap s asid (refVa ref) else s) l n st with
      | some s1 => (s1, true)
      | none => (logEvent s 15 die none (BitVec.ofNat 32 (engine + refTag ref * 256)) ident, false)
    | none => (logEvent s 15 die none (BitVec.ofNat 32 (engine + refTag ref * 256)) ident, false)

end Sys2Proof.Machine
end

