-- ==== Sys2Proof/Machine/Barrier.lean ====
section
/-! DEFINITION. The barrier instructions (R252 to R258) and the events of barriers: arrivals and wakes. -/

namespace Sys2Proof.Machine

/-- The checks of a barrier instruction and the location of its object (R239, R249, R250): poison, operand layout, the
reference, alignment being implied, the address, range locks, and translation. -/
def withBarrier (s : State) (c : Cur) (sh : Sheaf) (m : Mask) (a : BitVec 7) (poisoned layout write : Bool)
    (k : State → BarLoc → Out) : Out :=
  let ref := rdG64 s c sh (rn a)
  let core := sh.place.core
  if poisoned || poisonG s c sh [rn a, rn a + 1] then poisonUse s c sh m
  else if !layout || !refOk ref false then queueFault s c sh
  else if refSpace ref = 1 then
    let p := plotOf core
    accessChecks s c sh m 0#32 (oneLane m) 16 (fun _ => (refScratch ref : Int))
      (fun _ => scratchLegal s c sh (refScratch ref) 16) write 1
      (k (touchBy s c.bed core ref) { scratch := true, plot := p, loc := refScratch ref })
  else
    accessChecks s c sh m 0#32 (oneLane m) 16 (fun _ => ((refVa ref).toNat : Int)) (fun _ => canonical (refVa ref)) write 0
      (withPage s c sh m (refVa ref) write (fun s1 pa _ =>
        k (if write then touchBy s1 c.bed core ref else s1) { scratch := false, plot := 0, loc := pa }))

/-- BINIT's operand word: EXPECT not zero, SCOPE at most 5, the rest zero (R252, R253). -/
def binitOk (w : Word) : Bool := decide (1 ≤ bits w.toNat 15 0) && decide (bits w.toNat 18 16 ≤ 5) && bits w.toNat 31 19 == 0

/-- BINIT (R253): BUSY where waiters are registered or a phase has begun. -/
def execBinit (d a b : BitVec 7) (s : State) : Out :=
  groupOp s (fun c sh m =>
    let w := rdG s c sh (rn b)
    withBarrier s c sh m a (rdGP s c sh (rn b)) (binitOk w) true (fun s1 l =>
      let o := barAt s1 l
      if hasWaiters s1 l || (decide (0 < o.left) && decide (o.left < o.expect)) then
        done s1 c (writeGroup sh (rn d) 1#32 false)
      else
        done (setBar s1 l { gen := 0#32, expect := bits w.toNat 15 0, left := bits w.toNat 15 0, scope := bits w.toNat 18 16,
                            status := 0, pend := 0, reservedZero := true } false) c (writeGroup sh (rn d) 0#32 false)))

/-- The operand word of an arrival (Table 10.6): a scope, status bits, and for BARRIVEN a count. -/
def arriveOk (w : Word) (counted : Bool) : Bool :=
  decide (bits w.toNat 2 0 ≤ 5) && bits w.toNat 7 3 == 0 && bits w.toNat 15 14 == 0 &&
    (if counted then bits w.toNat 31 16 != 0 else bits w.toNat 31 16 == 0)

/-- An arrival by a sheaf (R254): a release, then the arrival; an invalid object is a queue fault. -/
def arriveOp (counted : Bool) (d a b : BitVec 7) (s : State) : Out :=
  groupOp s (fun c sh m =>
    let w := rdG s c sh (rn b)
    withBarrier s c sh m a (rdGP s c sh (rn b)) (arriveOk w counted) true (fun s1 l =>
      let s2 := releaseAt s1 sh.place.core (bits w.toNat 2 0)
      let gen := (barAt s2 l).gen
      match arriveAt s2 l (if counted then bits w.toNat 31 16 else 1) (bits w.toNat 13 8) with
      | some s3 => done s3 c (writeGroup sh (rn d) gen false)
      | none => queueFault s2 c sh))

/-- BARRIVE (R254). -/
def execBarrive (d a b : BitVec 7) (s : State) : Out := arriveOp false d a b s

/-- BARRIVEN (R254). -/
def execBarriven (d a b : BitVec 7) (s : State) : Out := arriveOp true d a b s

/-- BTEST (R257): one indivisible read of the object. -/
def execBtest (d a : BitVec 7) (e : BitVec 1) (s : State) : Out :=
  groupOp s (fun c sh m =>
    withBarrier s c sh m a false true false (fun s1 l =>
      let o := barAt s1 l
      if o.valid then
        done s1 c (writeGroup sh (rn d)
          (if e = 0#1 then o.gen else BitVec.ofNat 32 (o.left + o.status * 2 ^ 16 + o.pend * 2 ^ 24)) false)
      else queueFault s1 c sh))

/-- What WAITB writes when it completes (R256). -/
def waitbResult (o : Bar) : Word := BitVec.ofNat 32 (o.status + o.gen.toNat % 2 ^ 24 * 2 ^ 8)

/-- WAITB (R256): registers and parks while the generation stands; otherwise acquires at the object's scope and completes.  The
handler's stream registers nothing: it tests the object anew each time (R343). -/
def execWaitb (d a b : BitVec 7) (s : State) : Out :=
  groupOp s (fun c sh m =>
    withBarrier s c sh m a (rdGP s c sh (rn b)) true true (fun s1 l =>
      let o := barAt s1 l
      if !o.valid then queueFault s1 c sh
      else if o.gen = rdG s c sh (rn b) then
        let w : BWait := { scratch := l.scratch, plot := l.plot, loc := l.loc, asid := asidOf s c.bed, bed := c.bed,
                           sheaf := c.sheaf, pc := c.pc, mask := m, d := d, woken := false }
        let s2 := { s1 with bwait := s1.bwait.filter (fun x => !(x.bed == c.bed && x.sheaf == c.sheaf && x.mask == m)) ++ [w] }
        .next (parkWait (if sh.handler then s1 else setBar s2 l o true) c sh .barrier)
      else
        (done (acquireAt s1 sh.place.core o.scope) c (writeGroup (endSpans sh c.ctl) (rn d) (waitbResult o) false)).andThen
          (fun s2 => .next (yieldSheaf s2 c.bed c.sheaf))))

/-- BARRIER_WAKE (R256): a waiter whose phase has ended wakes, acquires at the object's scope and takes its status. -/
def execBarrierWake (bed sheaf : Nat) (s : State) : Out :=
  match s.bwait.find? (fun w => w.bed == bed && w.sheaf == sheaf && w.woken) with
  | none => .next s
  | some w =>
    let o := barAt s { scratch := w.scratch, plot := w.plot, loc := w.loc }
    let s1 := { s with bwait := s.bwait.filter (fun x => x != w) }
    match getSheaf s1 bed sheaf with
    | none => .next s1
    | some sh =>
      let m := waitMask sh (fun x => x == .barrier) &&& w.mask
      let s2 := acquireAt s1 sh.place.core o.scope
      .next (setSheaf s2 bed sheaf (forThreads (resumeAfter sh m w.pc) (fun sh => writeGroup sh (rn w.d) (waitbResult o) false)))

/-- BARRIER_ARRIVAL (R254, R255): an arrival that an engine owes reaches the object.  The event names no engine, launch or die: those
fields of the entry for an object that is not valid are free (log 35). -/
def execBarrierArrival (asid : BitVec 16) (plot : Nat) (ref : BitVec 64) (count : BitVec 16) (status : BitVec 8) (s : State) : Out :=
  .next (engineArrive s asid plot ref count.toNat status.toNat (Config.freeNat (salt s 5500) % 6) (Config.freeNat (salt s 5501) % 4)
    (Config.freeWord (salt s 5502)).toNat).1

end Sys2Proof.Machine
end

