-- ==== Sys2Proof/Machine/Amsan.lean ====
section
/-! DEFINITION. AES-256-GCM, the cipher of every Amsan frame (R399): the block cipher of FIPS 197 and the mode of SP 800-38D with
no additional data, a 12-byte nonce and a 16-byte tag. -/

namespace Sys2Proof.Machine

/-! ## AES-256 -/

/-- Multiplication by x in the field of AES. -/
def aesTwice (a : Byte) : Byte := (a <<< 1) ^^^ (if a.msb then 0x1B#8 else 0#8)

/-- Multiplication in the field of AES; `n` counts the bits of the second factor. -/
def aesMul : Nat → Byte → Byte → Byte
  | 0, _, _ => 0#8
  | n + 1, a, b => (if b.getLsbD 0 then a else 0#8) ^^^ aesMul n (aesTwice a) (b >>> 1)

/-- The power 2^n − 2 in the field of AES, which inverts for n = 8. -/
def aesInverse : Nat → Byte → Byte
  | 0, _ => 1#8
  | n + 1, a =>
    let r := aesInverse n a
    if n = 0 then 1#8 else aesMul 8 (aesMul 8 r a) (aesMul 8 r a)

/-- The S-box. -/
def aesSub (a : Byte) : Byte :=
  let b := aesInverse 8 a
  b ^^^ b.rotateLeft 1 ^^^ b.rotateLeft 2 ^^^ b.rotateLeft 3 ^^^ b.rotateLeft 4 ^^^ 0x63#8

/-- The XOR of two byte strings. -/
def xorBytes (xs ys : List Byte) : List Byte := List.zipWith (fun x y => x ^^^ y) xs ys

/-- ShiftRows on the 16 bytes of a state, column by column. -/
def aesShift (x : List Byte) : List Byte := (below 16).map (fun k => lget x ((k + 4 * (k % 4)) % 16) 0#8)

/-- MixColumns. -/
def aesMix (x : List Byte) : List Byte :=
  (below 16).map (fun k =>
    let at_ := fun r => lget x (4 * (k / 4) + (k + r) % 4) 0#8
    aesTwice (at_ 0) ^^^ aesTwice (at_ 1) ^^^ at_ 1 ^^^ at_ 2 ^^^ at_ 3)

/-- The word of the key schedule that follows the words `w`, newest first; `i` is its number and `rc` the round constant. -/
def aesNextWord (i : Nat) (rc : Byte) (w : List (List Byte)) : List Byte :=
  let last := lget w 0 []
  let t :=
    if i % 8 = 0 then xorBytes ((afterN 1 last ++ firstN 1 last).map aesSub) [rc, 0#8, 0#8, 0#8]
    else if i % 8 = 4 then last.map aesSub
    else last
  xorBytes (lget w 7 []) t

/-- The key schedule, newest word first: `n` words are still to come. -/
def aesWords : Nat → Nat → Byte → List (List Byte) → List (List Byte)
  | 0, _, _, w => w
  | n + 1, i, rc, w => aesWords n (i + 1) (if i % 8 = 0 then aesTwice rc else rc) (aesNextWord i rc w :: w)

/-- The fifteen round keys of a 32-byte key. -/
def aesKeys (key : List Byte) : List (List Byte) :=
  let w := (aesWords 52 8 1#8 ((below 8).map (fun k => firstN 4 (afterN (4 * k) key))).reverse).reverse
  (below 15).map (fun r => (firstN 4 (afterN (4 * r) w)).flatten)

/-- AddRoundKey on the 16 bytes of a state. -/
def aesAdd (x k : List Byte) : List Byte := (below 16).map (fun i => lget x i 0#8 ^^^ lget k i 0#8)

/-- The rounds after the first key: each but the last mixes columns. -/
def aesRounds : List (List Byte) → List Byte → List Byte
  | [], x => x
  | [k], x => aesAdd (aesShift (x.map aesSub)) k
  | k :: r, x => aesRounds r (aesAdd (aesMix (aesShift (x.map aesSub))) k)

/-- AES-256 of one block under its round keys. -/
def aesBlock (keys : List (List Byte)) (x : List Byte) : List Byte := aesRounds (afterN 1 keys) (aesAdd x (lget keys 0 []))

/-! ## The Galois/counter mode -/

/-- n bytes, the highest first. -/
def natBe (n x : Nat) : List Byte := (natLe n x).reverse

/-- The product of GHASH; `n` bits of the first factor are still to come, the highest first. -/
def ghashMul : Nat → BitVec 128 → BitVec 128 → BitVec 128
  | 0, _, _ => 0#128
  | n + 1, x, v =>
    (if x.msb then v else 0#128) ^^^
      ghashMul n (x <<< 1) ((v >>> 1) ^^^ (if v.getLsbD 0 then 0xE1#128 <<< 120 else 0#128))

/-- n bytes of zeros. -/
def zeros (n : Nat) : List Byte := List.replicate n 0#8

/-- The 16-byte blocks of a byte string, the last filled with zeros; `n` is their number. -/
def blocksOf (n : Nat) (x : List Byte) : List (List Byte) :=
  (below n).map (fun k => firstN 16 (firstN 16 (afterN (16 * k) x) ++ zeros 16))

/-- GHASH of blocks under H. -/
def ghash (h : BitVec 128) (bs : List (List Byte)) : BitVec 128 :=
  bs.foldl (fun y b => ghashMul 128 (y ^^^ BitVec.ofNat 128 (leNat b.reverse)) h) 0#128

/-- Blocks that bytes fill. -/
def gcmBlocks (x : List Byte) : Nat := (x.length + 15) / 16

/-- The counter mode of a nonce, from counter 2: ciphering and deciphering alike. -/
def gcmStream (keys : List (List Byte)) (nonce : List Byte) (x : List Byte) : List Byte :=
  xorBytes x ((below (gcmBlocks x)).flatMap (fun k => aesBlock keys (nonce ++ natBe 4 ((2 + k) % 2 ^ 32))))

/-- The tag of a ciphertext. -/
def gcmTag (keys : List (List Byte)) (nonce c : List Byte) : List Byte :=
  let h := BitVec.ofNat 128 (leNat (aesBlock keys (zeros 16)).reverse)
  let s := ghash h (blocksOf (gcmBlocks c) c ++ [natBe 8 0 ++ natBe 8 (8 * c.length)])
  xorBytes (natBe 16 s.toNat) (aesBlock keys (nonce ++ natBe 4 1))

/-! ## Frames (R399) -/

/-- The nonce: the 32-bit salt followed by the 64-bit frame counter, each little-endian as R6 has it (log 115). -/
def amsanNonce (salt : Word) (counter : DWord) : List Byte := natLe 4 salt.toNat ++ natLe 8 counter.toNat

/-- The frame of a packet: its ciphertext and the 16-byte tag. -/
def amsanSeal (key : BitVec 256) (salt : Word) (counter : DWord) (packet : List Byte) : List Byte :=
  let keys := aesKeys (natLe 32 key.toNat)
  let c := gcmStream keys (amsanNonce salt counter) packet
  c ++ gcmTag keys (amsanNonce salt counter) c

/-- The packet of a frame; none where it fails authentication. -/
def amsanOpen (key : BitVec 256) (salt : Word) (counter : DWord) (frame : List Byte) : Option (List Byte) :=
  let keys := aesKeys (natLe 32 key.toNat)
  let c := firstN (frame.length - 16) frame
  if frame.length < 16 ∨ gcmTag keys (amsanNonce salt counter) c ≠ afterN (frame.length - 16) frame then none
  else some (gcmStream keys (amsanNonce salt counter) c)

end Sys2Proof.Machine
end

