-- ==== Sys2Proof/Machine/MarginOps.lean ====
section
/-! DEFINITION. Replays, margin traps and injectors (R370 to R372, R375, Table 18.2): what they count, and what that makes due. -/

namespace Sys2Proof.Machine

/-- The margin registers of a core changed. -/
def modMargin (s : State) (core : Nat) (f : Margin → Margin) : State := modCore s core (fun c => { c with margin := f c.margin })

/-- A counter of a width that saturates. -/
def satInc {w : Nat} (x : BitVec w) : BitVec w := if x = BitVec.allOnes w then x else x + 1#w

/-- A replay is counted; the one with which WREPL reaches RTHR makes an automatic raise due (R372). -/
def countReplay (s : State) (core : Nat) : State :=
  let g := (getCore s core).margin
  let s1 := modMargin s core (fun g => { g with repl := satInc g.repl, wrepl := satInc g.wrepl })
  if (satInc g.wrepl).toNat = g.rthr.toNat then due s1 (.automaticRaise core) else s1

/-- A margin trap is counted and logged; the one with which WTRAP reaches QLIM makes a quarantine due (R373, R380). -/
def countMarginTrap (s : State) (core : Nat) (detail : Word) : State :=
  let g := (getCore s core).margin
  let s1 := modMargin s core (fun g => { g with mtrap := satInc g.mtrap, wtrap := satInc g.wtrap, raised := true })
  let s2 := logEvent s1 2 (dieOf core) none detail core
  if (satInc g.wtrap).toNat = g.qlim.toNat then due s2 (.quarantine core 1#2) else s2

/-- TDETAIL of a margin trap (Table 18.2); `at_` holds a TMM's step and block. -/
def marginDetail (s : State) (core path : Nat) (inj : Bool) (at_ : Nat) : Word :=
  BitVec.ofNat 32 (path % 8 + (if inj then 8 else 0) + (getCore s core).margin.cur.toNat * 16 + at_ * 256)

/-- A margin trap (bit 19). -/
def marginTrap (detail : Word) : LateTrap := { plainTrap 19 with detail := detail }

/-! ## Injectors (R375) -/

/-- One injector counts an instruction of its class: the register after it, and the attempts it makes late. -/
def injectOne (x : Word) (class_ : Nat) : Word × Nat :=
  let f := fun hi lo => bits x.toNat hi lo
  if f 2 0 = 0 || f 2 0 != class_ || f 6 4 = 0 then (x, 0)
  else if f 15 8 ≠ 0 then (x - 0x100#32, 0)
  else if f 23 16 ≠ 0 then (x - 0x10000#32, f 6 4)
  else (x, 0)

/-- Both injectors of a core count a normal-mode instruction of a class. -/
def inject (s : State) (core class_ : Nat) : State × Nat :=
  let g := (getCore s core).margin
  let a := injectOne g.inj0 class_
  let b := injectOne g.inj1 class_
  if a.1 = g.inj0 ∧ b.1 = g.inj1 then (s, 0)
  else (modMargin s core (fun g => { g with inj0 := a.1, inj1 := b.1 }), a.2 + b.2)

end Sys2Proof.Machine
end

