-- ==== Sys2Proof/Machine/TileQueue.lean ====
section
/-! DEFINITION. Tiles (R92 to R95, R259) and queues in scratch (R99 to R102, R260), with their wakes. -/

namespace Sys2Proof.Machine

/-! ## The tile table -/

/-- The entry that a bed's handle is bound to: its index and the entry (R92). -/
def tileOf (p : Plot) (posn handle : Nat) : Option (Nat × Tile) :=
  p.tiles.find? (fun t => t.2.bound && t.2.bed.toNat == posn && t.2.handle.toNat == handle)

/-- The plot position of a bed. -/
def posnOf (s : State) (b : Nat) : Nat :=
  match getBed s b with
  | some bd => bd.posn
  | none => 4

/-- Tiles that a bed's launch record declares (Table 16.2). -/
def tilesDeclared (s : State) (b : Nat) : Nat :=
  match launchOf s b with
  | some l => recField l.record 551 544
  | none => 0

/-- A tile-table entry changed. -/
def setTile (s : State) (p k : Nat) (t : Tile) : State := modPlot s p (fun pl => { pl with tiles := mset pl.tiles k t })

/-- The tile that an instruction names by the handle in a word: out of range or unbound is a tile-state trap (R95, R259). -/
def withTile (s : State) (c : Cur) (sh : Sheaf) (h : Nat) (k : Nat → Nat → Tile → Out) : Out :=
  let p := plotOf sh.place.core
  if 32 ≤ h ∨ tilesDeclared s c.bed ≤ h then tileTrap s c sh h
  else
    match tileOf (getPlot s p) (posnOf s c.bed) h with
    | some (e, t) => k p e t
    | none => tileTrap s c sh h

/-- The threads of a sheaf that wait for a tile. -/
def tileWaiters (sh : Sheaf) : Mask :=
  waitMask sh (fun x => match x with
    | .tile _ => true
    | _ => false)

/-- Waking the sheaves of a bed that wait for tiles is due (R95). -/
def wakeTiles (s : State) (b : Nat) : State :=
  match getBed s b with
  | none => s
  | some bd =>
    (bd.sheaves.filter (fun w => tileWaiters w.2 != 0#32)).foldl (fun s w => due s (.tileWake b w.1)) s

/-- TILE_WAKE (R95): threads that wait for a tile that is READY run again, and issue their instruction anew. -/
def execTileWake (bed sheaf : Nat) (s : State) : Out :=
  match getSheaf s bed sheaf with
  | none => .next s
  | some sh =>
    let p := plotOf sh.place.core
    let ready := fun (w : WaitFor) => match w with
      | .tile h =>
        (match tileOf (getPlot s p) (posnOf s bed) h with
         | some (_, t) => t.state == 2#2
         | none => true)
      | _ => false
    .next (setSheaf s bed sheaf (setPark sh (waitMask sh ready) .run))

/-! ## TILE (Table 10.7) -/

/-- TSTATE (R259). -/
def execTstate (d a : BitVec 7) (s : State) : Out :=
  groupOp s (fun c sh m =>
    if rdGP s c sh (rn a) then poisonUse s c sh m
    else withTile s c sh (rdG s c sh (rn a)).toNat (fun _ _ t =>
      done s c (writeGroup sh (rn d) (t.state.setWidth 32 ||| bitWord t.poison 2) false)))

/-- TREL (R94, R259): READY to EMPTY. -/
def execTrel (a : BitVec 7) (s : State) : Out :=
  groupOp s (fun c sh m =>
    let h := (rdG s c sh (rn a)).toNat
    if rdGP s c sh (rn a) then poisonUse s c sh m
    else withTile s c sh h (fun p e t =>
      if t.state = 2#2 then done (setTile s p e { t with state := 0#2, poison := false }) c sh else tileTrap s c sh h))

/-- TWAIT (R95, R259): parks until READY, then acquires at plot scope; it always yields. -/
def execTwait (a : BitVec 7) (s : State) : Out :=
  groupOp s (fun c sh m =>
    let h := (rdG s c sh (rn a)).toNat
    if rdGP s c sh (rn a) then poisonUse s c sh m
    else withTile s c sh h (fun _ _ t =>
      if t.state = 2#2 then
        (done (acquireAt s sh.place.core 2) c (endSpans sh c.ctl)).andThen (fun s1 => .next (yieldSheaf s1 c.bed c.sheaf))
      else .next (parkWait s c sh (.tile h))))

/-- First byte and the byte after the last of a tile's region. -/
def tileRange (t : Tile) : Nat × Nat := (t.base.toNat * 128, t.base.toNat * 128 + (t.sizem1.toNat + 1) * 128)

/-- The lowest entry of a plot's table that is not bound. -/
def freeTile (p : Plot) : Option Nat := (below 256).find? (fun k => !(mget p.tiles k Tile.reset).bound)

/-- TCLAIM (R93): binds a handle to a region of scratch. -/
def execTclaim (a b : BitVec 7) (s : State) : Out :=
  groupOp s (fun c sh m =>
    let h := (rdG s c sh (rn a)).toNat
    let base := (rdG s c sh (rn b)).toNat
    let size := (rdG s c sh (rn b + 1)).toNat
    let p := plotOf sh.place.core
    let pl := getPlot s p
    if poisonG s c sh [rn a, rn b, rn b + 1] then poisonUse s c sh m
    else if 32 ≤ h ∨ tilesDeclared s c.bed ≤ h then tileTrap s c sh h
    else if base % 128 ≠ 0 then misaligned s c sh m (firstLane m) (BitVec.ofNat 64 base)
    else if size = 0 ∨ size % 128 ≠ 0 ∨ scratchOk s p (launchKey s c.bed) base size = false then
      violation s c sh m (firstLane m) (BitVec.ofNat 64 base)
    else
      let mine := tileOf pl (posnOf s c.bed) h
      let own := match mine with
        | some (e, _) => e
        | none => 256
      let clash := pl.tiles.any (fun t =>
        t.1 != own && t.2.bound && decide ((tileRange t.2).1 < base + size) && decide (base < (tileRange t.2).2))
      let busy := match mine with
        | some (_, t) => t.state != 0#2
        | none => false
      let slot := match mine with
        | some (e, _) => some e
        | none => freeTile pl
      if clash || busy then tileTrap s c sh h
      else
        match slot with
        | none => tileTrap s c sh h
        | some e =>
          done (setTile s p e { Tile.reset with
            bound := true, bed := BitVec.ofNat 2 (posnOf s c.bed), handle := BitVec.ofNat 5 h,
            base := BitVec.ofNat 14 (base / 128), sizem1 := BitVec.ofNat 14 (size / 128 - 1) }) c sh)

/-! ## Queues -/

/-- The fields of a queue's control word (Table 4.7). -/
structure Queue where
  base : Nat
  /-- element bytes -/
  size : Nat
  depth : Nat
  head : Nat
  tail : Nat
  deriving DecidableEq, Repr

/-- M of R100: the counts run modulo it. -/
def Queue.modulus (q : Queue) : Nat := q.depth * (2 ^ 32 / q.depth)

/-- Elements held (R100). -/
def Queue.held (q : Queue) : Nat := (q.tail + q.modulus - q.head) % q.modulus

/-- The FIFO banks of a queue (R100). -/
def Queue.banks (q : Queue) : List Nat := upFrom q.base ((q.depth * q.size + 4095) / 4096)

/-- Scratch address of the element of a count (R100). -/
def Queue.slotAt (q : Queue) (j : Nat) : Nat := q.base * 4096 + j % q.depth * q.size

/-- The control word's first word is sound for a launch on a plot (R100). -/
def queueWordOk (s : State) (p launch : Nat) (w : Word) : Bool :=
  let esize := bits w.toNat 10 9
  let depth := bits w.toNat 31 16
  let q : Queue := { base := bits w.toNat 8 0, size := 32 * 2 ^ esize, depth := depth, head := 0, tail := 0 }
  esize != 3 && bits w.toNat 15 11 == 0 && depth != 0 && decide (depth * q.size ≤ 0x10000) &&
    q.banks.all (fun b => decide (b < 512) && bankOk s p launch 2#2 b)

/-- The control word at a scratch address.  Where another store wrote it, a queue instruction sees the new contents, one of the two that
R99 allows (DESIGN CHOICE, log 118). -/
def queueAt (s : State) (p a : Nat) : Queue :=
  let w := (scratchWord s p (a / 4)).1
  { base := bits w.toNat 8 0, size := 32 * 2 ^ bits w.toNat 10 9, depth := bits w.toNat 31 16,
    head := (scratchWord s p (a / 4 + 1)).1.toNat, tail := (scratchWord s p (a / 4 + 2)).1.toNat }

/-- A queue instruction's checks: poison of its operands, alignment, the control word's place, range locks, R100. -/
def withQueue (s : State) (c : Cur) (sh : Sheaf) (m : Mask) (a : BitVec 7) (poisoned write init : Bool)
    (k : Nat → Nat → Out) : Out :=
  let ad := (rdG s c sh (rn a)).toNat
  let p := plotOf sh.place.core
  if poisoned || rdGP s c sh (rn a) then poisonUse s c sh m
  else if ad % 32 ≠ 0 then misaligned s c sh m (firstLane m) (BitVec.ofNat 64 ad)
  else if scratchOk s p (launchKey s c.bed) ad 32 = false then queueFault s c sh
  else if !init && !queueWordOk s p (launchKey s c.bed) (scratchWord s p (ad / 4)).1 then queueFault s c sh
  else
    match lockHit s sh.place.core write 1 0#16 ad 32 with
    | some e => rangeTrap s c sh (firstLane m) e (BitVec.ofNat 64 ad)
    | none => k p ad

/-- Waiters of a kind at a queue, in order. -/
def queueWaiters (s : State) (p a : Nat) (push : Bool) : List QWait :=
  (getPlot s p).qwait.filter (fun w => w.addr == a && w.push == push)

/-- QINIT (R260): a sound word, and no waiter parked. -/
def execQinit (a b : BitVec 7) (s : State) : Out :=
  groupOp s (fun c sh m =>
    let w := rdG s c sh (rn b)
    withQueue s c sh m a (rdGP s c sh (rn b)) true true (fun p ad =>
      if !queueWordOk s p (launchKey s c.bed) w || !(queueWaiters s p ad true).isEmpty || !(queueWaiters s p ad false).isEmpty then
        queueFault s c sh
      else
        done (setMark ((below 8).foldl (fun s k => setScratch s p (ad / 4 + k) 15#4 (if k = 0 then w else 0#32)) s) p (ad / 32) false)
          c sh))

/-- The words of an element with their poison, as a queue holds them. -/
def elementAt (s : State) (p a size : Nat) : List PWord := (upFrom (a / 4) (size / 4)).map (scratchWord s p)

/-- An element written: a granule is marked where any of its words is poisoned (R260). -/
def putElement (s : State) (p a : Nat) (ws : List PWord) : State :=
  let s1 := (below ws.length).foldl (fun s k => setScratch s p (a / 4 + k) 15#4 (lget ws k (0#32, false)).1) s
  (below (ws.length / 8)).foldl (fun s g =>
    setMark s p (a / 32 + g) ((upFrom (8 * g) 8).any (fun k => (lget ws k (0#32, false)).2))) s1

/-- A sheaf that has acted on a queue keeps no older value of scratch (R112, R124). -/
def forgetScratch (s : State) (p : Nat → Nat → Bool) : State :=
  { s with early := s.early.filter (fun e => !(p e.bed e.sheaf && e.scratch)) }

/-- A count of a control word written: word 1 is HEAD, word 2 TAIL. -/
def setCount (s : State) (p a k n : Nat) : State := setScratch (forgetScratch s (isIssuer s)) p (a / 4 + k) 15#4 (BitVec.ofNat 32 n)

/-- The element a sheaf pushes: registers from gD, or the lanes of vD. -/
def pushData (t : Nat) (sh : Sheaf) (ctl : Mask) (lane : Bool) (d n : Nat) : List PWord :=
  if lane then lanes.map (fun i => laneView t sh i d) else (upFrom d n).map (fun r => groupView t ctl sh r)

/-- The registers an element is popped to (R260). -/
def popData (sh : Sheaf) (lane : Bool) (d : Nat) (m : Mask) (ws : List PWord) : Sheaf :=
  if lane then writeLanes sh d m (.g (ws.map (fun w => w.1))) (maskOf (fun i => (lget ws i (0#32, false)).2))
  else (below ws.length).foldl (fun sh k => writeGroup sh (d + k) (lget ws k (0#32, false)).1 (lget ws k (0#32, false)).2) sh

/-- The absent lines that an element popped to some lanes needs are filled (R51). -/
def fillPop (s : State) (b w : Nat) (sh : Sheaf) (lane : Bool) (d : Nat) (m : Mask) : State :=
  let x := { sh with handler := false }
  if !lane || (m == Mask.full && oneWindow x Mask.full d) then s
  else fillLines s b w (dedup ((lanesOf m).map (fun i => phys x i d)))

/-- Waking a waiter of a kind is due where one waits (R101). -/
def wakeQueue (s : State) (p a : Nat) (push : Bool) : State :=
  if (queueWaiters s p a push).isEmpty then s else due s (.queueWake p (BitVec.ofNat 32 a))

/-- One element pushed. -/
def pushElement (s : State) (p a : Nat) (ws : List PWord) : State :=
  let q := queueAt s p a
  wakeQueue (setCount (putElement s p (q.slotAt q.tail) ws) p a 2 ((q.tail + 1) % q.modulus)) p a false

/-- One element popped. -/
def popElement (s : State) (p a : Nat) : List PWord × State :=
  let q := queueAt s p a
  (elementAt s p (q.slotAt q.head) q.size, wakeQueue (setCount s p a 1 ((q.head + 1) % q.modulus)) p a true)

/-- The form fits the queue: a lane register needs 128-byte elements, a group element ends at g127 (R101, R260). -/
def formFits (q : Queue) (lane : Bool) (d : Nat) : Bool :=
  if lane then q.size == 128 else decide (d + q.size / 4 ≤ 128)

/-- The waiter state of a control word, bits [255:96] (Table 4.7): hardware's own while threads are parked at the queue, else 0. -/
def setWaitBits (s : State) (p a : Nat) : State :=
  let none_ := (queueWaiters s p a true).isEmpty && (queueWaiters s p a false).isEmpty
  (upFrom 3 5).foldl (fun s k =>
    setScratch s p (a / 4 + k) 15#4 (if none_ then 0#32 else Config.freeWord (salt s (5400 + k)))) s

/-- The threads park in the queue's order (R101); the handler's stream tries again (R343). -/
def parkQueue (s : State) (c : Cur) (sh : Sheaf) (m : Mask) (p a : Nat) (push lane : Bool) (d : BitVec 7) : Out :=
  let w : QWait := { addr := a, push := push, bed := c.bed, sheaf := c.sheaf, pc := c.pc, mask := m, d := d, lane := lane }
  let s1 := if sh.handler then s else setWaitBits (modPlot s p (fun pl => { pl with qwait := pl.qwait ++ [w] })) p a
  .next (parkWait s1 c sh (if push then .push a else .pop a))

/-- The role entries that a watcher boosts after a sample of n elements (R335). -/
def watcherBoost (w n : Nat) : List Nat :=
  if n ≤ bits w 39 24 then [bits w 17 16] else if bits w 55 40 ≤ n then [bits w 19 18] else []

/-- A bed samples its watchers of a queue word after a push or a pop of its own (R335). -/
def sampleQueue (s : State) (b p a : Nat) : State :=
  match launchOf s b with
  | none => s
  | some l =>
    (below 2).foldl (fun s k =>
      let w := recField l.record (1599 + 64 * k) (1536 + 64 * k)
      if bits w 63 63 = 1 ∧ bits w 15 0 * 32 = a then
        modBed s b (fun bd => { bd with boosts := mset bd.boosts k (watcherBoost w (queueAt s p a).held) })
      else s) s

/-- QPUSH on a core (R101): elements that are free go to the waiters before it first. -/
def execQpush (d a : BitVec 7) (e : BitVec 1) (s : State) : Out :=
  groupOp s (fun c sh m =>
    let lane := e == 1#1
    withBudget s c sh (if lane then Mask.full else 0#32) [rn d]
      (withQueue s c sh m a false true false (fun p ad =>
        let q := queueAt s p ad
        if !formFits q lane (rn d) then queueFault s c sh
        else if q.held + (queueWaiters s p ad true).length < q.depth then
          done (sampleQueue (pushElement s p ad (pushData (salt s 0) (src c sh) c.ctl lane (rn d) (q.size / 4))) c.bed p ad) c sh
        else parkQueue s c sh m p ad true lane d)))

/-- QPOP on a core (R101). -/
def execQpop (d a : BitVec 7) (e : BitVec 1) (s : State) : Out :=
  groupOp s (fun c sh m =>
    let lane := e == 1#1
    withBudget s c sh (if lane then m else 0#32) [rn d]
      (withQueue s c sh m a false true false (fun p ad =>
        let q := queueAt s p ad
        if !formFits q lane (rn d) then queueFault s c sh
        else if (queueWaiters s p ad false).length < q.held then
          let r := popElement s p ad
          done (sampleQueue r.2 c.bed p ad) c (popData sh lane (rn d) m r.1)
        else parkQueue s c sh m p ad false lane d)))

/-- QCOUNT (R260). -/
def execQcount (d a : BitVec 7) (s : State) : Out :=
  groupOp s (fun c sh m =>
    withQueue s c sh m a false false false (fun p ad =>
      done s c (writeGroup sh (rn d) (BitVec.ofNat 32 (queueAt s p ad).held) false)))

/-- The first waiter of a kind whose turn has come completes its instruction (R101). -/
def serveWaiter (s : State) (p a : Nat) (push : Bool) : State :=
  let q := queueAt s p a
  if (if push then q.held < q.depth else 0 < q.held) then
    match queueWaiters s p a push with
    | [] => s
    | w :: _ =>
      let s0 := forgetScratch s (fun b v => b == w.bed && v == w.sheaf)
      let s1 := setWaitBits (modPlot s0 p (fun pl => { pl with qwait := pl.qwait.erase w })) p a
      match getSheaf s1 w.bed w.sheaf with
      | none => s1
      | some sh =>
        let m := waitMask sh (fun x => x == (if push then .push a else .pop a)) &&& w.mask
        if push then
          setSheaf (sampleQueue (pushElement s1 p a
            (pushData (salt s 0) { sh with handler := false } m w.lane (rn w.d) (q.size / 4))) w.bed p a) w.bed w.sheaf (resumeAfter sh m w.pc)
        else
          let r := popElement (fillPop s1 w.bed w.sheaf sh w.lane (rn w.d) m) p a
          modSheaf (sampleQueue r.2 w.bed p a) w.bed w.sheaf (fun sh =>
            forThreads (resumeAfter sh m w.pc) (fun sh => popData sh w.lane (rn w.d) m r.1))
  else s

/-- QUEUE_WAKE (R101): a pop waiter takes a filled element, a push waiter a freed one. -/
def execQueueWake (plot : Nat) (addr : BitVec 32) (s : State) : Out :=
  .next (serveWaiter (serveWaiter s plot addr.toNat false) plot addr.toNat true)

end Sys2Proof.Machine
end

