-- ==== Sys2Proof/Machine/Matrix.lean ====
section
/-! DEFINITION. The lane instructions of the matrix engine (R265 to R276): operand headers, B operands in the B-store, QMM, QMMS,
MVT and the moves of tile rows. -/

namespace Sys2Proof.Machine

/-! ## Operand headers (R268, R269) -/

/-- The fields of an operand header (Table 11.2); `top` is bits [31:30]. -/
structure Hdr where
  fmt : Nat
  scale : Nat
  sparse : Bool
  trans : Bool
  bbase : Nat
  kext : Nat
  sph : Nat
  top : Nat
  deriving DecidableEq, Repr

/-- A header read from a group register. -/
def hdrOf (x : Word) : Hdr :=
  let n := x.toNat
  { fmt := bits n 3 0, scale := bits n 5 4, sparse := x.getLsbD 6, trans := x.getLsbD 7, bbase := bits n 21 8,
    kext := bits n 27 22, sph := bits n 29 28, top := bits n 31 30 }

/-- A row of Table 11.3: step width, group width (Table 3.7), whether E8M0 scales and whether a sparse A are allowed. -/
structure PairRow where
  kw : Nat
  w : Nat
  e8 : Bool
  sparse : Bool
  deriving DecidableEq, Repr

/-- The row of a pair of format codes, if Table 11.3 has one. -/
def pairRow (a b : Nat) : Option PairRow :=
  if (a = 3 ∨ a = 4) ∧ (b = 3 ∨ b = 4) then some { kw := 16, w := 16, e8 := true, sparse := true }
  else if a = b then
    match a with
    | 5 => some { kw := 32, w := 32, e8 := true, sparse := true }
    | 9 => some { kw := 16, w := 16, e8 := true, sparse := true }
    | 2 => some { kw := 8, w := 8, e8 := false, sparse := false }
    | 1 => some { kw := 8, w := 8, e8 := false, sparse := false }
    | _ => none
  else none

/-- The pair of headers of QMM (not sparse, one step), QMMS (sparse, two steps) or TMM is sound; its row. -/
def headersOk (a b : Hdr) (sparse tmm : Bool) : Option PairRow :=
  match pairRow a.fmt b.fmt with
  | none => none
  | some r =>
    let scaleOk := fun (m : Nat) => m == 0 || m == 2 || (m == 1 && r.e8)
    if scaleOk a.scale && scaleOk b.scale && (a.sparse == sparse) && (!sparse || r.sparse) && !b.sparse &&
      (tmm || !a.trans) && !b.trans && a.bbase == 0 && a.sph == 0 && a.top == 0 && b.top == 0 && a.kext == b.kext &&
      (tmm || a.kext == (if sparse then 1 else 0)) then some r
    else none

/-- INT32 accumulation: INT8 operands without a scale (R269, R73). -/
def intMode (a b : Hdr) : Bool := a.fmt == 9 && a.scale == 0 && b.scale == 0

/-- The value of an element of a format code; an INT8 element is a whole number. -/
def elementVal (fmt x : Nat) : Val :=
  match fmtOfCode fmt with
  | some f => fdec f x
  | none => ofInt (readInt true 8 x)

/-- An element with its scale applied exactly; a scale that is not finite makes it NaN (R71). -/
def scaledVal (x : Val) (sc : Option Val) : Val :=
  match sc with
  | none => x
  | some v => if v.nonfinite then .nan else x.mul v

/-- An element or its scale is not finite (R78). -/
def badOperand (x : Val) (sc : Option Val) : Bool :=
  x.nonfinite || (match sc with
    | some v => v.nonfinite
    | none => false)

/-! ## B operands (R270) -/

/-- Steps and positions of a B operand: P of R270. -/
def bSteps (h : Hdr) : Nat := h.sph + h.kext + 1

/-- First byte of column c's elements of step s: sixteen bytes. -/
def bChunk (h : Hdr) (s c : Nat) : Nat := h.bbase * 64 + 1024 * ((h.sph + s) / 4) + 64 * c + 16 * ((h.sph + s) % 4)

/-- SB of R270. -/
def bScaleBase (h : Hdr) : Nat := h.bbase * 64 + 1024 * ((bSteps h + 3) / 4)

/-- The scale block of K index k, counted from position 0. -/
def bBlock (h : Hdr) (kw k : Nat) : Nat := (h.sph * kw + k) / 32

/-- The bytes that a B operand of K steps `steps` reads, as first byte and count. -/
def bRanges (h : Hdr) (kw : Nat) (steps : List Nat) : List (Nat × Nat) :=
  steps.flatMap (fun s => (below 16).map (fun c => (bChunk h s c, 16))) ++
    (match h.scale with
     | 1 => steps.flatMap (fun s =>
         (upFrom (bBlock h kw (s * kw)) (bBlock h kw (s * kw + kw - 1) + 1 - bBlock h kw (s * kw))).map (fun b =>
           (bScaleBase h + 16 * b, 16)))
     | 2 => [(bScaleBase h, 4)]
     | _ => [])

/-- The bits of B element (k, c). -/
def bBits (rd : Nat → Nat) (h : Hdr) (kw k c : Nat) : Nat :=
  let es := widthOfCode h.fmt
  let e := k % kw
  let a := bChunk h (k / kw) c + e * es / 8
  match es with
  | 16 => rd a + 256 * rd (a + 1)
  | 8 => rd a
  | _ => rd a / 16 ^ (e % 2) % 16

/-- Four bytes as a number. -/
def rd32 (rd : Nat → Nat) (a : Nat) : Nat := rd a + 256 * rd (a + 1) + 65536 * rd (a + 2) + 16777216 * rd (a + 3)

/-- The scale of B element (k, c). -/
def bScale (rd : Nat → Nat) (h : Hdr) (kw k c : Nat) : Option Val :=
  match h.scale with
  | 1 => some (e8m0 (rd (bScaleBase h + 16 * bBlock h kw k + c)))
  | 2 => some (fdec fp32 (rd32 rd (bScaleBase h)))
  | _ => none

/-- Step 7 of R265 for the bytes of a B operand: their range (R84), then the poison of their units. -/
def withBytes (s : State) (c : Cur) (sh : Sheaf) (m : Mask) (rs : List (Nat × Nat)) (k : Out) : Out :=
  match rs.find? (fun r => !bsOk s c.bed r.1 r.2) with
  | some r => violation s c sh m (firstLane m) (BitVec.ofNat 64 r.1)
  | none =>
    if rs.any (fun r => (upFrom (r.1 / 64) ((r.1 + r.2 - 1) / 64 + 1 - r.1 / 64)).any (fun u =>
        mget (getCore s sh.place.core).bsPoison u false))
    then poisonUse s c sh m
    else k

/-- Step 7 and 8 of R265 for the bytes of a B operand that a thread reads: range, poison, range locks (R128). -/
def withB (s : State) (c : Cur) (sh : Sheaf) (m : Mask) (rs : List (Nat × Nat)) (k : Out) : Out :=
  withBytes s c sh m rs
    (match rs.filterMap (fun r => (lockHit s sh.place.core false 2 0#16 r.1 r.2).map (fun e => (e, r.1))) with
     | [] => k
     | h :: t => let e := t.foldl (fun x y => if y.1 < x.1 then y else x) h
                 rangeTrap s c sh (firstLane m) e.1 (BitVec.ofNat 64 e.2))

/-- The bytes of a core's B-store. -/
def bsByte (s : State) (core a : Nat) : Nat := (memByte (getCore s core).bstore a).toNat

/-! ## One row of a tile -/

/-- One row of A: its element at K index k, none where the metadata leaves the position out; the element's scale. -/
structure ARow where
  elem : Nat → Option Nat
  scale : Nat → Option Val

/-- A and B of one step or instruction: headers, widths, K range and the byte source of B. -/
structure Dot where
  ha : Hdr
  hb : Hdr
  row : PairRow
  ks : List Nat
  rd : Nat → Nat

/-- The value of A at k. -/
def Dot.aVal (d : Dot) (a : ARow) (k : Nat) : Option Val :=
  (a.elem k).map (fun x => scaledVal (elementVal d.ha.fmt x) (a.scale k))

/-- The product at k in column c: a +0 where the position is left out (R72). -/
def Dot.product (d : Dot) (a : ARow) (k c : Nat) : Val :=
  match d.aVal a k with
  | none => .fin false 0 0
  | some x => x.mul (scaledVal (elementVal d.hb.fmt (bBits d.rd d.hb d.row.kw k c)) (bScale d.rd d.hb d.row.kw k c))

/-- The accumulator of column c after this K range (R72, R73). -/
def Dot.acc (d : Dot) (a : ARow) (c : Nat) (old : Word) : Word :=
  if intMode d.ha d.hb then
    old + BitVec.ofInt 32 ((d.ks.map (fun k =>
      match a.elem k with
      | none => 0
      | some x => readInt true 8 x * readInt true 8 (bBits d.rd d.hb d.row.kw k c))).foldl (fun x y => x + y) 0)
  else BitVec.ofNat 32 (dotAcc (d.ks.length + 1) d.row.w old.toNat (d.ks.map (fun k => d.product a k c)))

/-- The sixteen accumulators of a row after this K range. -/
def Dot.accs (d : Dot) (a : ARow) (old : List Word) : List Word := (below 16).map (fun c => d.acc a c (lget old c 0#32))

/-- NF-IN of a row: an element or scale that it reads is not finite (R78); positions left out are not read as values. -/
def Dot.nfIn (d : Dot) (a : ARow) : Bool :=
  !intMode d.ha d.hb && d.ks.any (fun k =>
    match a.elem k with
    | none => false
    | some x => badOperand (elementVal d.ha.fmt x) (a.scale k) ||
        (below 16).any (fun c => badOperand (elementVal d.hb.fmt (bBits d.rd d.hb d.row.kw k c)) (bScale d.rd d.hb d.row.kw k c)))

/-- A row of results holds a value that is not finite. -/
def rowBad (r : List Word) : Bool := r.any (fun x => badCode fp32 x.toNat)

/-! ## A operands of lanes (R271, R273) -/

/-- The A bits of lane i: vA to vA+3 as one little-endian bit string. -/
def aBits (s : State) (c : Cur) (sh : Sheaf) (a i : Nat) : Nat :=
  (below 4).foldl (fun n k => n + (rdV s c sh i (a + k)).toNat * 2 ^ (32 * k)) 0

/-- The metadata registers of a sparse A operand. -/
def metaRegs (fmt a : Nat) : List Nat := if fmt = 5 then [a + 4, a + 5] else [a + 4]

/-- The A scale register, for a header that has a scale (R271). -/
def aScaleRegs (h : Hdr) (sparse : Bool) (a : Nat) : List Nat :=
  if h.scale = 0 then [] else [if !sparse then a + 4 else if h.fmt = 5 then a + 6 else a + 5]

/-- idx[j] of lane i (R273). -/
def metaIdx (s : State) (c : Cur) (sh : Sheaf) (a i j : Nat) : Nat := (rdV s c sh i (a + 4 + j / 16)).toNat / 4 ^ (j % 16) % 4

/-- The lowest group of a lane whose indices do not rise. -/
def badGroup (s : State) (c : Cur) (sh : Sheaf) (a groups i : Nat) : Option Nat :=
  (below groups).find? (fun g => !decide (metaIdx s c sh a i (2 * g) < metaIdx s c sh a i (2 * g + 1)))

/-- The stored value that K position k takes in a sparse lane. -/
def sparsePlace (s : State) (c : Cur) (sh : Sheaf) (a i k : Nat) : Option Nat :=
  let g := k / 4
  if metaIdx s c sh a i (2 * g) = k % 4 then some (2 * g)
  else if metaIdx s c sh a i (2 * g + 1) = k % 4 then some (2 * g + 1)
  else none

/-- The A row of lane i.  Its scale block is R270's b, which counts from position 0 of the B operand's step phase (R271). -/
def laneRow (s : State) (c : Cur) (sh : Sheaf) (h hb : Hdr) (kw : Nat) (sparse : Bool) (a i : Nat) : ARow :=
  let es := widthOfCode h.fmt
  let all := aBits s c sh a i
  { elem := fun k =>
      (if sparse then sparsePlace s c sh a i k else some k).map (fun j => all / 2 ^ (j * es) % 2 ^ es),
    scale := fun k =>
      match aScaleRegs h sparse a with
      | [] => none
      | r :: _ => some (if h.scale = 1 then e8m0 ((rdV s c sh i r).toNat / 256 ^ (bBlock hb kw k % 4) % 256)
                        else fdec fp32 (rdV s c sh i r).toNat) }

/-- The quarter unit and row of a lane (R266). -/
def unitOf (sh : Sheaf) (i : Nat) : Nat := 4 * sh.place.slot + i / 8

/-- The quarters that act. -/
def actingQuarters (m : Mask) : Nat := ((below 4).filter (fun x => (upFrom (8 * x) 8).any (fun i => bit m i))).length

/-- The matrix claim of step 2 of R265. -/
def withClaim (s : State) (c : Cur) (sh : Sheaf) (m : Mask) (k : Out) : Out :=
  if holdsClaim s c.bed sh.place.core then k else violation s c sh m (firstLane m) 0#64

/-- Poison consumed by lanes or by the group (step 3 and 5 of R265). -/
def withClean (s : State) (c : Cur) (sh : Sheaf) (m : Mask) (regs groups : List Nat) (k : Out) : Out :=
  if poisonG s c sh groups then poisonUse s c sh m
  else if poisonOf s c sh regs &&& m ≠ 0#32 then poisonUse s c sh (poisonOf s c sh regs &&& m)
  else k

/-- A header fault (bit 9). -/
def headerFault (s : State) (c : Cur) (sh : Sheaf) : Out := trap s c sh (plainTrap 9)

/-! ## QMM and QMMS -/

/-- The rows a QMM or QMMS writes, and its conditions (R272). -/
def quarterRows (s : State) (sh : Sheaf) (m : Mask) (t : Nat) (d : Dot) (row : Nat → ARow) : List PWrite × NfMasks :=
  let core := sh.place.core
  let res := (lanesOf m).map (fun i => (i, d.accs (row i) (accRow s core (unitOf sh i) t (i % 8)), d.nfIn (row i)))
  (res.map (fun r => .row (unitOf sh r.1) t (r.1 % 8) r.2.1),
   { inp := maskOf (fun i => res.any (fun r => r.1 == i && r.2.2)),
     out := maskOf (fun i => res.any (fun r => r.1 == i && !r.2.2 && !intMode d.ha d.hb && rowBad r.2.1)) })

/-- The counters of R61 for one B read by a lane instruction in which some quarters act. -/
def countB (s : State) (core : Nat) (fused : Bool) : State := count (if fused then count s core 5 1 else s) core 6 1

/-- QMM and QMMS: the checks of R265 in order, then every acting quarter's rows. -/
def quarterOp (sparse : Bool) (t : BitVec 3) (a b : BitVec 7) (l : BitVec 4) (s : State) : Out :=
  let ra := upFrom (rn a) 4
  laneOp s ra (fun c sh m =>
    withClaim s c sh m
      (withClean s c sh m ra [rn b, rn b + 1]
        (let ha := hdrOf (rdG s c sh (rn b))
         let hb := hdrOf (rdG s c sh (rn b + 1))
         match headersOk ha hb sparse false with
         | none => headerFault s c sh
         | some row =>
           let more := (if sparse then metaRegs ha.fmt (rn a) else []) ++ aScaleRegs ha sparse (rn a)
           withBudget s c sh m more
             (withClean s c sh m more []
               (let ks := below (row.kw * (ha.kext + 1))
                match (if sparse then
                    (lanesOf m).findSome? (fun i => (badGroup s c sh (rn a) (ks.length / 4) i).map (fun g => (i, g)))
                  else none) with
                | some (i, g) => trap s c sh (detailTrap 8 (i + g * 256))
                | none =>
                  withB s c sh m (bRanges hb row.kw (below (hb.kext + 1)))
                    (let d : Dot := { ha := ha, hb := hb, row := row, ks := ks, rd := bsByte s sh.place.core }
                     let r := quarterRows s sh m t.toNat d (laneRow s c sh ha hb row.kw sparse (rn a))
                     startTested (countB s sh.place.core (decide (2 ≤ actingQuarters m))) c sh l.toNat r.2 r.1))))))

/-- QMM (R272). -/
def execQmm (d : BitVec 3) (a b : BitVec 7) (l : BitVec 4) (s : State) : Out := quarterOp false d a b l s

/-- QMMS (R273). -/
def execQmms (d : BitVec 3) (a b : BitVec 7) (l : BitVec 4) (s : State) : Out := quarterOp true d a b l s

/-! ## MVT (R276) -/

/-- K, N, element bytes and base of an MVT header, where it is sound. -/
def mvtHeader (x : Word) : Option (Nat × Nat × Nat × Nat) :=
  let h := hdrOf x
  if (h.fmt = 0 ∨ h.fmt = 2) ∧ h.scale = 0 ∧ h.sparse = false ∧ h.trans = false ∧ h.kext < 16 then
    some (h.kext + 1, bits x.toNat 31 28 + 1, if h.fmt = 0 then 4 else 2, h.bbase * 64)
  else none

/-- W element (k, n) or x element as a value. -/
def mvtVal (es x : Nat) : Val := if es = 4 then fdec fp32 x else fdec bf16 (x % 2 ^ 16)

/-- W element (k, n). -/
def mvtW (rd : Nat → Nat) (lo n es k j : Nat) : Val :=
  let a := lo + (k * n + j) * es
  mvtVal es (if es = 4 then rd32 rd a else rd a + 256 * rd (a + 1))

/-- MVT (R276). -/
def execMvt (d a b : BitVec 7) (l : BitVec 4) (s : State) : Out :=
  laneOp s [rn a, rn d] (fun c sh m =>
    withClaim s c sh m
      (withClean s c sh m [rn a] [rn b]
        (match mvtHeader (rdG s c sh (rn b)) with
         | none => headerFault s c sh
         | some (kk, nn, es, lo) =>
           let ins := upFrom (rn a) kk
           let outs := upFrom (rn d) nn
           withBudget s c sh m (ins ++ outs)
             (if rn a < rn d + nn ∧ rn d < rn a + kk then illegal s c sh
              else
                withClean s c sh m ins []
                  (withB s c sh m [(lo, kk * nn * es)]
                    (let rd := bsByte s sh.place.core
                     let x := fun i k => mvtVal es (rdV s c sh i (rn a + k)).toNat
                     let y := fun i j => dotAcc 3 8 0x80000000 ((below kk).map (fun k => (x i k).mul (mvtW rd lo nn es k j)))
                     let wbad := (below kk).any (fun k => (below nn).any (fun j => (mvtW rd lo nn es k j).nonfinite))
                     let inp := maskOf (fun i => bit m i && (wbad || (below kk).any (fun k => (x i k).nonfinite)))
                     let out := maskOf (fun i => bit m i && !bit inp i && (below nn).any (fun j => badCode fp32 (y i j)))
                     startTested (countB s sh.place.core false) c sh l.toNat { inp := inp, out := out }
                       ((below nn).map (fun j =>
                         .lanes (physList sh (rn d + j)) m (perLane (fun i => BitVec.ofNat 32 (y i j))) 0#32))))))))

/-! ## MACC (Table 11.4) -/

/-- The row that MREAD gives lane i: inside the span of an earlier instruction it may see the row before (R266, R180). -/
def rowSeen (s : State) (c : Cur) (sh : Sheaf) (t i : Nat) : List Word :=
  let core := sh.place.core
  let base := mget (getCore s core).acc (accKey (unitOf sh i) t (i % 8)) zeroRow
  match getBed s c.bed with
  | none => base
  | some bd =>
    (bd.sheaves.foldl (fun acc w =>
      pendingRow (if w.1 = c.sheaf then
          w.2.long.filter (fun op => !(inSpan w.2 i && Config.freeBool (salt s (op.id * 32 + i))))
        else w.2.long) (unitOf sh i) t (i % 8) acc) (0, base)).2

/-- MREAD (R275): sixteen registers with tag G, never poisoned. -/
def execMread (d : BitVec 7) (t : BitVec 3) (s : State) : Out :=
  laneOp s (upFrom (rn d) 16) (fun c sh m =>
    withClaim s c sh m
      (done s c ((below 16).foldl (fun x k =>
        writeLanes x (rn d + k) m (.g (perLane (fun i => lget (rowSeen s c sh t.toNat i) k 0#32))) 0#32) sh)))

/-- Rows written now, in issue order after every issued one (R266). -/
def putRows (s : State) (sh : Sheaf) (m : Mask) (t : Nat) (row : Nat → List Word) : State :=
  (lanesOf m).foldl (fun s i => setRow s sh.place.core s.nextKey (unitOf sh i) t (i % 8) (row i)) s

/-- The control set moves on after rows are written, which may have changed the sheaf's own pending results. -/
def rowsDone (s : State) (c : Cur) : Out :=
  match getSheaf s c.bed c.sheaf with
  | some sh => done s c sh
  | none => .fault .noIssuer

/-- MWRITE (R275). -/
def execMwrite (t : BitVec 3) (a : BitVec 7) (s : State) : Out :=
  laneOp s (upFrom (rn a) 16) (fun c sh m =>
    withClaim s c sh m
      (withClean s c sh m (upFrom (rn a) 16) []
        (rowsDone (putRows s sh m t.toNat (fun i => (upFrom (rn a) 16).map (fun r => rdV s c sh i r))) c)))

/-- MZERO (R275). -/
def execMzero (t : BitVec 3) (s : State) : Out :=
  laneOp s [] (fun c sh m => withClaim s c sh m (rowsDone (putRows s sh m t.toNat (fun _ => zeroRow)) c))

end Sys2Proof.Machine
end

