-- ==== Sys2Proof/Machine/Tmm.lean ====
section
/-! DEFINITION. Range-lock registration (R126, R127), the matrix token (R280), TMM and its sequencer (R277 to R279), and the
drain and fill of frozen matrix state (R281, R282, Table 11.5). -/

namespace Sys2Proof.Machine

/-! ## Registration of range locks (R127) -/

/-- A range that an engine operation locks. -/
structure LockReq where
  dest : Bool
  space : Nat
  asid : BitVec 16
  /-- the core's position in the cluster -/
  core : Nat
  lo : Nat
  hi : Nat
  deriving DecidableEq, Repr

/-- The range overlaps an entry that keeps it waiting: any entry for a destination, a destination entry for a source. -/
def lockClash (p : Plot) (r : LockReq) : Bool :=
  lockList.any (fun k =>
    let l := lockAt p k
    l.valid && (r.dest || l.dest) && l.space.toNat == r.space &&
      (if r.space = 0 then l.asid == r.asid else if r.space = 2 then l.core.toNat == r.core else true) &&
      decide (l.lo < r.hi) && decide (r.lo < l.hi))

/-- The entries an operation takes, each a free one, in order; none where it must wait. -/
def takeLocks (s : State) (p posn engine : Nat) (rs : List LockReq) : Option (List Nat × State) :=
  let pl := getPlot s p
  let free := lockList.filter (fun k => !(lockAt pl k).valid)
  if rs.any (lockClash pl) || decide (free.length < rs.length) then none
  else
    some (firstN rs.length free,
      modPlot s p (fun pl =>
        { pl with
          locks := (List.zip free rs).foldl (fun m x =>
            mset m x.1 { valid := true, dest := x.2.dest, space := BitVec.ofNat 2 x.2.space, bed := BitVec.ofNat 2 posn,
                         engine := BitVec.ofNat 2 engine, core := BitVec.ofNat 2 x.2.core, asid := x.2.asid,
                         lo := x.2.lo, hi := x.2.hi }) pl.locks }))

/-- A tile whose lock entry is gone: another entry of scratch that still covers it (a TMM and a COPYOUT may both read it) takes its
place, or LOCKV clears (Table 4.4). -/
def unlockTile (locks : Map Lock) (ks : List Nat) (t : Tile) : Tile :=
  if t.lockv && ks.contains t.lock.toNat then
    let lo := t.base.toNat * 128
    match locks.find? (fun x => x.2.valid && x.2.space == 1#2 && decide (x.2.lo < lo + (t.sizem1.toNat + 1) * 128) &&
        decide (lo < x.2.hi)) with
    | some x => { t with lock := BitVec.ofNat 5 x.1 }
    | none => { t with lockv := false, lock := 0#5 }
  else t

/-- Entries of a plot are released, and the tiles they covered are unlocked. -/
def freeLocks (s : State) (p : Nat) (ks : List Nat) : State :=
  modPlot s p (fun pl =>
    let left := ks.foldl mdel pl.locks
    { pl with locks := left, tiles := pl.tiles.map (fun t => (t.1, unlockTile left ks t.2)) })

/-- A tile-table entry covered by a lock entry. -/
def lockTile (s : State) (p e k : Nat) : State :=
  modPlot s p (fun pl => { pl with tiles := mset pl.tiles e { mget pl.tiles e Tile.reset with lock := BitVec.ofNat 5 k, lockv := true } })

/-- An operation that cannot take its entries is not eligible: nothing happens but the count of R61. -/
def waitLocks (s : State) (core : Nat) : Out := .next (count s core 13 1)

/-! ## The matrix token (R29, R280) -/

/-- A launch declares roles (Table 16.2): BUDG16 is zero. -/
def rolesDeclared (s : State) (b : Nat) : Bool :=
  match launchOf s b with
  | some l => recField l.record 343 336 == 0
  | none => false

/-- Roles keep TMM, TAKE and PASS to the matrix role (R28). -/
def roleBars (s : State) (b : Nat) (sh : Sheaf) : Bool := rolesDeclared s b && sh.place.roleCode != 2#8

/-- MTOK.TAKE. -/
def execMtokTake (s : State) : Out :=
  groupOp s (fun c sh _ =>
    let core := sh.place.core
    if roleBars s c.bed sh then illegal s c sh
    else
      match (getCore s core).token with
      | none => done (modCore s core (fun k => { k with token := some (c.bed, c.sheaf) })) c sh
      | some t =>
        if t = (c.bed, c.sheaf) then done s c sh
        else
          .next (parkWait (modCore s core (fun k =>
            { k with tokQ := if k.tokQ.contains (c.bed, c.sheaf) then k.tokQ else k.tokQ ++ [(c.bed, c.sheaf)] })) c sh .token))

/-- MTOK.PASS. -/
def execMtokPass (s : State) : Out :=
  groupOp s (fun c sh _ =>
    let core := sh.place.core
    if roleBars s c.bed sh then illegal s c sh
    else if (getCore s core).token = some (c.bed, c.sheaf) then
      (done s c sh).andThen (fun s1 => .next (passToken s1 core))
    else queueFault s c sh)

/-- MTOK.TEST (R280). -/
def execMtokTest (d : BitVec 7) (s : State) : Out :=
  groupOp s (fun c sh _ =>
    let k := getCore s sh.place.core
    let st := match k.token with
      | none => 0
      | some t => if t = (c.bed, c.sheaf) then 1 else 2
    done s c (writeGroup sh (rn d) (BitVec.ofNat 32 (st + k.tokQ.length % 256 * 256)) false))

/-! ## The operands of TMM (R277) -/

/-- A TMM's operands: its headers, the row of Table 11.3, its handles, M and N. -/
structure TmmArgs where
  ha : Hdr
  hb : Hdr
  row : PairRow
  ah : Nat
  ch : Nat
  m : Nat
  n : Nat
  deriving DecidableEq, Repr

/-- The operands read from G[A], G[A+1] and G[A+2], where they are sound. -/
def tmmArgs (a b x : Word) : Option TmmArgs :=
  let w := x.toNat
  let m := bits w 23 16
  match headersOk (hdrOf a) (hdrOf b) false true with
  | none => none
  | some row =>
    if bits w 7 5 = 0 ∧ bits w 15 13 = 0 ∧ bits w 31 26 = 0 ∧ m % 8 = 0 ∧ 8 ≤ m ∧ m ≤ 128 ∧ bits w 4 0 ≠ bits w 12 8 then
      some { ha := hdrOf a, hb := hdrOf b, row := row, ah := bits w 4 0, ch := bits w 12 8, m := m, n := 16 * (bits w 25 24 + 1) }
    else none

/-- K of a TMM. -/
def TmmArgs.k (t : TmmArgs) : Nat := t.row.kw * (t.ha.kext + 1)

/-- Bytes of the A data. -/
def TmmArgs.aData (t : TmmArgs) : Nat := t.m * t.k * widthOfCode t.ha.fmt / 8

/-- Bytes of the A tile: data, then scales. -/
def TmmArgs.aBytes (t : TmmArgs) : Nat :=
  t.aData + (match t.ha.scale with
    | 1 => t.m * ((t.k + 31) / 32)
    | 2 => 4
    | _ => 0)

/-- Bytes of the C tile. -/
def TmmArgs.cBytes (t : TmmArgs) : Nat := 4 * t.m * t.n

/-- The B header of column block j. -/
def TmmArgs.bHdr (t : TmmArgs) (j : Nat) : Hdr :=
  { t.hb with bbase := t.hb.bbase + 16 * ((bSteps t.hb + 3) / 4 + (if t.hb.scale = 0 then 0 else 1)) * j }

/-- Every byte of B that the TMM reads. -/
def TmmArgs.bAll (t : TmmArgs) : List (Nat × Nat) :=
  (below (t.n / 16)).flatMap (fun j => bRanges (t.bHdr j) t.row.kw (below (t.hb.kext + 1)))

/-- The smallest interval that holds some ranges. -/
def hull (rs : List (Nat × Nat)) : Nat × Nat :=
  match rs with
  | [] => (0, 0)
  | r :: t => t.foldl (fun x y => (if y.1 < x.1 then y.1 else x.1, if x.2 < y.1 + y.2 then y.1 + y.2 else x.2)) (r.1, r.1 + r.2)

/-- A byte of A in its tile at `base`, as a number. -/
def scratchByte (s : State) (p a : Nat) : Nat := (memByte (getPlot s p).scratch a).toNat

/-- Row r of A. -/
def TmmArgs.aRow (t : TmmArgs) (rd : Nat → Nat) (r : Nat) : ARow :=
  let es := widthOfCode t.ha.fmt
  { elem := fun k =>
      let i := if t.ha.trans then k * t.m + r else r * t.k + k
      let a := i * es / 8
      some (match es with
        | 16 => rd a + 256 * rd (a + 1)
        | 8 => rd a
        | _ => rd a / 16 ^ (i % 2) % 16),
    scale := fun k =>
      match t.ha.scale with
      | 1 => some (e8m0 (rd (t.aData + r * ((t.k + 31) / 32) + k / 32)))
      | 2 => some (fdec fp32 (rd32 rd t.aData))
      | _ => none }

/-- The range locks a TMM takes: tile A, the B-store range, tile C. -/
def tmmLocks (core : Nat) (t : TmmArgs) (abase cbase : Nat) : List LockReq :=
  let b := hull t.bAll
  [{ dest := false, space := 1, asid := 0#16, core := core % 4, lo := abase, hi := abase + t.aBytes },
   { dest := false, space := 2, asid := 0#16, core := core % 4, lo := b.1, hi := b.2 },
   { dest := true, space := 1, asid := 0#16, core := core % 4, lo := cbase, hi := cbase + t.cBytes }]

/-- Bytes of a tile (Table 4.4). -/
def tileBytes (t : Tile) : Nat := (t.sizem1.toNat + 1) * 128

/-- Its scratch address. -/
def tileBase (t : Tile) : Nat := t.base.toNat * 128

/-- Registers a TMM's locks in the plot and marks its tiles; none where it must wait. -/
def lockTmm (s : State) (core posn : Nat) (t : TmmArgs) (ae ce : Nat × Tile) : Option (List Nat × State) :=
  let p := plotOf core
  match takeLocks s p posn 2 (tmmLocks core t (tileBase ae.2) (tileBase ce.2)) with
  | none => none
  | some (ks, s1) => some (ks, lockTile (lockTile s1 p ae.1 (lget ks 0 0)) p ce.1 (lget ks 2 0))

/-- The tiles' bytes are scratch that the launch may access (R83, R265 step 7). -/
def withScratch (s : State) (c : Cur) (sh : Sheaf) (m : Mask) (rs : List (Nat × Nat)) (k : Out) : Out :=
  match rs.find? (fun r => !scratchOk s (plotOf sh.place.core) (launchKey s c.bed) r.1 r.2) with
  | some r => violation s c sh m (firstLane m) (BitVec.ofNat 64 r.1)
  | none => k

/-- TMM (R277, R278): the checks of R265, the wait for its tiles, its locks, then the sequencer runs it.  It reads B as an engine
does: where a range that it needs overlaps an entry it waits (R127). -/
def execTmm (d a b : BitVec 7) (l : BitVec 4) (s : State) : Out :=
  groupOp s (fun c sh m =>
    let core := sh.place.core
    let ref := rdG64 s c sh (rn b)
    if roleBars s c.bed sh then illegal s c sh
    else
      withClaim s c sh m
        (withClean s c sh m [] [rn a, rn a + 1, rn a + 2, rn b, rn b + 1]
          (match tmmArgs (rdG s c sh (rn a)) (rdG s c sh (rn a + 1)) (rdG s c sh (rn a + 2)) with
           | none => headerFault s c sh
           | some t =>
             withTile s c sh t.ah (fun _ ai at_ =>
               withTile s c sh t.ch (fun _ ci ct =>
                 if tileBytes at_ < t.aBytes ∨ tileBytes ct < t.cBytes then headerFault s c sh
                 else if at_.state ≠ 2#2 then .next (parkWait s c sh (.tile t.ah))
                 else if ct.state ≠ 2#2 then .next (parkWait s c sh (.tile t.ch))
                 else withRef s c sh m ref (withScratch s c sh m [(tileBase at_, t.aBytes), (tileBase ct, t.cBytes)]
                   (withBytes s c sh m t.bAll
                     (if at_.poison || ct.poison then poisonUse s c sh m
                      else
                        match lockTmm s core (posnOf s c.bed) t (ai, at_) (ci, ct) with
                        | none => waitLocks s core
                        | some (ks, s1) =>
                          let op := longOp c sh (fresh s1).1 (testedSpan sh l.toNat) [.group (gidx sh (rn d)) 0#32 false]
                          let s2 := touchBy (fresh s1).2 c.bed core ref
                          let s3 := modCore s2 core (fun k =>
                            { k with tmm := some {
                                bed := c.bed, sheaf := c.sheaf, slot := sh.place.slot, pos := sh.place.pos,
                                hdrA := rdG s c sh (rn a), hdrB := rdG s c sh (rn a + 1), hdrC := rdG s c sh (rn a + 2), d := d,
                                ref := ref, pc := c.pc, step := 0, block := 0, loaded := false, locks := ks,
                                op := some op.id, replays := 0, late := 0,
                                nfin := (src c sh).nfin, nfout := (src c sh).nfout } })
                          issueLong s3 c sh { op with ready := false, tested := true,
                                                      nfin := (src c sh).nfin, nfout := (src c sh).nfout }))))))))

/-! ## The sequencer (R278, R279) -/

/-- The tile of a running TMM by its handle, with its entry. -/
def tmmTile (s : State) (core : Nat) (t : Tmm) (h : Nat) : Nat × Tile :=
  (tileOf (getPlot s (plotOf core)) (posnOf s t.bed) h).getD (256, Tile.reset)

/-- Row r of C in column block j. -/
def cRow (s : State) (p base n j r : Nat) : List Word :=
  (below 16).map (fun c => (scratchWord s p ((base + 4 * (r * n + 16 * j)) / 4 + c)).1)

/-- Row r of C in column block j written; its granules lose their marks (R97). -/
def putCRow (s : State) (p base n j r : Nat) (vs : List Word) : State :=
  let a := base + 4 * (r * n + 16 * j)
  let s1 := (below 16).foldl (fun s c => setScratch s p (a / 4 + c) 15#4 (lget vs c 0#32)) s
  setMark (setMark s1 p (a / 32) false) p (a / 32 + 1) false

/-- Row r (of M) of a column block in m7 (R278). -/
def m7Row (s : State) (core r : Nat) : List Word := accRow s core (r / 8) 7 (r % 8)

/-- It written. -/
def putM7 (s : State) (core r : Nat) (vs : List Word) : State := setRow s core s.nextKey (r / 8) 7 (r % 8) vs

/-- The issuing sheaf of a TMM sets SEENIN or SEENOUT when its results are written (R79): noted until then on its pending result, or on
the TMM where that is not known. -/
def noteSeen (s : State) (t : Tmm) (inp out : Bool) : State :=
  match t.op with
  | some k => modSheaf s t.bed t.sheaf (fun sh => { sh with long := sh.long.map (fun o =>
      if o.id == k then { o with seenIn := o.seenIn || inp, seenOut := o.seenOut || out } else o) })
  | none => s

/-- A running TMM with the conditions that a step met noted on it, where it has no pending result. -/
def Tmm.met (t : Tmm) (inp out : Bool) : Tmm :=
  if t.op.isSome then t else { t with seenIn := t.seenIn || inp, seenOut := t.seenOut || out }

/-- A TMM ends (R278, R279): locks, arrival, then the status of its destination; with a trap where a condition was met. -/
def endTmm (s : State) (core : Nat) (t : Tmm) (trap_ : Option LateTrap) : State :=
  let p := plotOf core
  let s1 := modCore (freeLocks s p t.locks) core (fun k => { k with tmm := none })
  let st := if trap_.isSome then 32 else 0
  let ident := match launchOf s t.bed with
    | some l => l.ident.toNat
    | none => 0
  let r := engineArrive s1 (asidOf s t.bed) p t.ref 1 st 2 (dieOf core) ident
  let val := BitVec.ofNat 32 (st + if r.2 then 0 else 128)
  modSheaf r.1 t.bed t.sheaf (fun sh =>
    match t.op with
    | none =>
      let sh1 := writeGroup sh (rn t.d) val false
      match trap_ with
      | some x =>
        if sheafEnded sh then sh1
        else pendRecord sh1 (trapRecord sh1 x t.pc t.pc Mask.full 0#32 0#32 false false false)
      | none => { sh1 with seenin := sh1.seenin || t.seenIn, seenout := sh1.seenout || t.seenOut }
    | some k =>
      { sh with long := sh.long.map (fun o =>
          if o.id == k then
            { o with ready := true, writes := o.writes.map (fun w => match w with
                | .group n _ _ => .group n val false
                | x => x) }
          else o) })

/-- An FP non-finite condition stops a TMM: its status is written, and its trap is raised unless its sheaf has ended (R39, R279).
A TMM acts for its whole PC group, so the mask of the condition is the group's EXM (DEDUCED, log 42). -/
def failTmm (s : State) (core : Nat) (t : Tmm) (inp out : Bool) : State :=
  let m := match t.op, getSheaf s t.bed t.sheaf with
    | some k, some sh =>
      (match sh.long.find? (fun o => o.id == k) with
       | some o => o.exm
       | none => Mask.full)
    | _, _ => Mask.full
  let x : LateTrap := { cause := 7, lanes := if inp then m else 0#32, lanes2 := if out then m else 0#32,
                        detail := BitVec.ofNat 32 (t.step + t.block * 64), addr := 0#64 }
  let s1 := endTmm s core t (some x)
  match t.op, getSheaf s1 t.bed t.sheaf with
  | some k, some sh =>
    (match sh.long.find? (fun o => o.id == k) with
     | some o =>
       let s2 := finishOp s1 t.bed t.sheaf { o with seenIn := false, seenOut := false }
       if sheafEnded sh then s2 else takeTrap s2 t.bed t.sheaf (lateRecord sh o x)
     | none => s1)
  | _, _ => s1

/-- One K step of a running TMM, with the write of its block after the last one (R278, R279). -/
def tmmStep (s : State) (core : Nat) (t : Tmm) (g : TmmArgs) : State :=
  let p := plotOf core
  let abase := tileBase (tmmTile s core t g.ah).2
  let cbase := tileBase (tmmTile s core t g.ch).2
  let rows := below g.m
  let s1 := if t.loaded then s
    else rows.foldl (fun s r => putM7 s core r (cRow s p cbase g.n t.block r)) s
  let d : Dot := { ha := g.ha, hb := g.bHdr t.block, row := g.row, ks := upFrom (t.step * g.row.kw) g.row.kw,
                   rd := bsByte s core }
  let ar := g.aRow (fun a => scratchByte s p (abase + a))
  let inp := rows.any (fun r => d.nfIn (ar r))
  let s2 := count (rows.foldl (fun s r => putM7 s core r (d.accs (ar r) (m7Row s core r))) s1) core 6 1
  if inp && t.nfin then failTmm s2 core t true false
  else
    let s3 := noteSeen s2 t inp false
    if t.step < g.ha.kext then
      modCore s3 core (fun k => { k with tmm := some { t.met inp false with step := t.step + 1, loaded := true } })
    else
      let all : Dot := { d with ks := below g.k }
      let out := !intMode g.ha g.hb && rows.any (fun r => rowBad (m7Row s3 core r) && !all.nfIn (ar r))
      if out && t.nfout then failTmm s3 core t false true
      else
        let s4 := noteSeen (rows.foldl (fun s r => putCRow s p cbase g.n t.block r (m7Row s core r)) s3) t false out
        modCore s4 core (fun k => { k with tmm := some { t.met inp out with step := 0, block := t.block + 1, loaded := false } })

/-- The operands that a running TMM holds. -/
def tmmHeld (t : Tmm) : Option TmmArgs := tmmArgs t.hdrA t.hdrB t.hdrC

/-- A running TMM whose last block is written. -/
def tmmOver (t : Tmm) : Bool :=
  match tmmHeld t with
  | some g => decide (g.n / 16 ≤ t.block)
  | none => true

/-- A restored TMM registers its locks again before it resumes (R127, R282); none where it must wait. -/
def relockTmm (s : State) (core : Nat) (t : Tmm) (g : TmmArgs) : Option (State × Tmm) :=
  if t.locks.isEmpty then
    match lockTmm s core (posnOf s t.bed) g (tmmTile s core t g.ah) (tmmTile s core t g.ch) with
    | none => none
    | some (ks, s1) => some (s1, { t with locks := ks })
  else some (s, t)

/-- The record of a margin trap of a TMM, with KEEP set (R379); after an MFILL that found no pending result, without an instruction. -/
def tmmTrapRecord (sh : Sheaf) (t : Tmm) (detail : Word) : TrapRec :=
  match sh.long.find? (fun o => t.op == some o.id) with
  | some o => trapRecord sh (marginTrap detail) o.pc o.pc o.ctl o.inst0 o.inst1 (!o.younger) true o.handler
  | none => trapRecord sh (marginTrap detail) t.pc t.pc 0#32 0#32 0#32 true true false

/-- A TMM step is late (R379): it is discarded and runs again; after RLIM replays its sheaf takes a margin trap, and the TMM goes on
with that step at the thaw.  A sheaf that has ended takes none. -/
def lateTmm (s : State) (core : Nat) (t : Tmm) (inj : Bool) : State :=
  let t1 := { t with late := t.late - 1 }
  let put := fun (s : State) (t : Tmm) => modCore s core (fun c => { c with tmm := some t })
  if t.replays < (getCore s core).margin.rlim.toNat then put (countReplay s core) { t1 with replays := t.replays + 1 }
  else
    let detail := marginDetail s core 4 inj (t.step + t.block * 64)
    let s1 := countMarginTrap (put s { t1 with replays := 0 }) core detail
    match getSheaf s1 t.bed t.sheaf with
    | none => s1
    | some sh => if sheafEnded sh then s1 else takeTrap s1 t.bed t.sheaf (tmmTrapRecord sh t detail)

/-- TMM_K_STEP (R278): the sequencer of a core whose units are not frozen runs its TMM's next step. -/
def execTmmKStep (core : Nat) (s : State) : Out :=
  match (getCore s core).tmm with
  | none => .next s
  | some t =>
    if (getCore s core).frozen || tmmOver t then .next s
    else
      match tmmHeld t with
      | none => .next s
      | some g =>
        match relockTmm s core t g with
        | none => waitLocks s core
        | some (s1, t1) =>
          if 0 < t1.late then .next (lateTmm s1 core t1 true)
          else .next (tmmStep s1 core { t1 with replays := 0 } g)

/-- TMM_COMPLETION (R278): a freeze stops a TMM only before a K step, so one whose last block is written ends all the same. -/
def execTmmCompletion (core : Nat) (s : State) : Out :=
  match (getCore s core).tmm with
  | none => .next s
  | some t => if tmmOver t then .next (endTmm s core t none) else .next s

/-! ## MDRAIN and MFILL (R282) -/

/-- Bytes of an accumulator block and of both parts. -/
def accBytes : Nat := 65536

/-- The accumulator block of a core as words (R63). -/
def accWords (s : State) (core : Nat) : List Word :=
  (below 128).flatMap (fun ut => (below 8).flatMap (fun r => accRow s core (ut / 8) (ut % 8) r))

/-- The sequencer state of a core (Table 11.5). -/
def seqWords (s : State) (core : Nat) : List Word :=
  match (getCore s core).tmm with
  | none => copies 64 0#32
  | some t =>
    [1#32, BitVec.ofNat 32 (t.step + t.block * 64), t.hdrA, t.hdrB, t.hdrC, t.d.setWidth 32, half t.ref false, half t.ref true,
     half t.pc false, half t.pc true, BitVec.ofNat 32 (t.slot + t.pos * 4)] ++ copies 53 0#32

/-- The checks of MDRAIN and MFILL before they translate: frozen units, the claim, poison, and R239 on 65,792 bytes.  A TMM
whose last block is written ends first.  R282 gives the trap of units that are not frozen no step of R265: DESIGN CHOICE, it comes
before the claim's access violation (log 121). -/
def frozenOp (s : State) (a : BitVec 7) (write : Bool) (k : Cur → Sheaf → Mask → DWord → Out) : Out :=
  onSheaf s (fun c sh =>
    let m := exm c sh
    let va := rdG64 s c sh (rn a)
    let n := accBytes + 256
    if !sh.handler then privilege s c sh
    else if !(getCore s sh.place.core).frozen then illegal s c sh
    else if (match (getCore s sh.place.core).tmm with
        | some t => tmmOver t
        | none => false) then execTmmCompletion sh.place.core s
    else
      withClaim s c sh m
        (withClean s c sh m [] [rn a, rn a + 1]
          (if va.toNat % 256 ≠ 0 then misaligned s c sh m (firstLane m) va
           else if !canonical va || !canonical (va + BitVec.ofNat 64 (n - 1)) then violation s c sh m (firstLane m) va
           else
             match lockHit s sh.place.core write 0 (asidOf s c.bed) va.toNat n with
             | some e => rangeTrap s c sh (firstLane m) e va
             | none => k c sh m va)))

/-- Translates each 4 KiB page of a range; then the rest runs with the pages' physical addresses. -/
def withPages (s : State) (c : Cur) (sh : Sheaf) (m : Mask) (write : Bool) (k : State → List (Nat × Bool) → Out) :
    List DWord → List (Nat × Bool) → Out
  | [], ps => k s ps
  | va :: r, ps =>
    match translateSaving s sh.place.core (asidOf s c.bed) va (.reissue write) with
    | (.inr kind, s1) => holdWhole s1 c sh va write m kind
    | (.inl (.ok pa syn), s1) => withPages s1 c sh m write k r (ps ++ [(pa, syn)])
    | (.inl .hole, _) => .fault .noSuchAddress
    | (.inl _, s1) => violation s1 c sh m (firstLane m) va

/-- The first byte of each page part of a range. -/
def pageStarts (va : DWord) (n : Nat) : List DWord :=
  let off := va.toNat % 4096
  va :: (upFrom 1 ((off + n + 4095) / 4096 - 1)).map (fun j => va + BitVec.ofNat 64 (4096 * j - off))

/-- The name of the word at byte o of a range of an address space that starts at `va`, and whether its page carries SYN. -/
def pageWord (asid : BitVec 16) (ps : List (Nat × Bool)) (va : DWord) (o : Nat) : Nat × Bool :=
  let off := va.toNat % 4096
  let j := (off + o) / 4096
  let x := lget ps j (0, false)
  (nameOf asid (va + BitVec.ofNat 64 o) (if j = 0 then x.1 + o else x.1 + (off + o) % 4096), x.2)

/-- MDRAIN (R282): the block and the sequencer state are stored at bed scope. -/
def execMdrain (a : BitVec 7) (s : State) : Out :=
  frozenOp s a true (fun c sh m va =>
    withPages s c sh m true (fun s1 ps =>
      let ws := accWords s sh.place.core ++ seqWords s sh.place.core
      done ((below ws.length).foldl (fun s k =>
        let x := pageWord (asidOf s c.bed) ps va (4 * k)
        writeWord s sh.place.core x.1 x.2 15#4 (lget ws k 0#32, false)) s1) c sh) (pageStarts va (accBytes + 256)) [])

/-- The bits of a sequencer state that must be zero are zero (Table 11.5). -/
def seqOk (ws : List Word) : Bool :=
  let w := fun k => (lget ws k 0#32).toNat
  decide (w 0 < 2) && decide (w 1 < 256) && decide (w 5 < 128) && decide (w 10 < 256) && (upFrom 11 53).all (fun k => w k == 0)

/-- The TMM that a sequencer state stands for, of the sheaf that issued it, with the enables that its pending result keeps from its
issue (R80).  Where no pending result is its own, Table 11.5 holds no enables: DESIGN CHOICE, those of that sheaf at the MFILL
(log 110). -/
def seqTmm (s : State) (bed : Nat) (ws : List Word) : Option Tmm :=
  let w := fun k => lget ws k 0#32
  let slot := (w 10).toNat % 4
  let pos := (w 10).toNat / 4
  match getBed s bed with
  | none => none
  | some bd =>
    match bd.sheaves.find? (fun x => x.2.place.slot == slot && x.2.place.pos == pos) with
    | none => none
    | some (k, sh) =>
      let pc := w 9 ++ w 8
      let o := sh.long.find? (fun o => !o.ready && o.pc == pc && o.tested)
      some { bed := bed, sheaf := k, slot := slot, pos := pos, hdrA := w 2, hdrB := w 3, hdrC := w 4,
             d := BitVec.ofNat 7 (w 5).toNat, ref := w 7 ++ w 6, pc := pc, step := (w 1).toNat % 64, block := (w 1).toNat / 64,
             loaded := decide ((w 1).toNat % 64 ≠ 0), locks := [],
             op := o.map (fun o => o.id), replays := 0, late := 0,
             nfin := (o.map (fun o => o.nfin)).getD sh.nfin, nfout := (o.map (fun o => o.nfout)).getD sh.nfout }

/-- MFILL (R282): the block is read back, and a valid sequencer state installs its TMM.  The spec is silent on a VALID state whose
header words break R277, or whose issuing sheaf the bed does not have: DESIGN CHOICE, a header fault, as for reserved bytes that are not
zero (log 43). -/
def execMfill (a : BitVec 7) (s : State) : Out :=
  frozenOp s a false (fun c sh m va =>
    withPages s c sh m false (fun s1 ps =>
      let core := sh.place.core
      let r := readWords (fun s k =>
        let x := pageWord (asidOf s c.bed) ps va (4 * k)
        readWord s core x.1 x.2 true (k % 2 == 0) (salt s (8000 + k))) s1 (below ((accBytes + 256) / 4))
      let ws := r.1.map (fun x => x.1)
      let seq := afterN (accBytes / 4) ws
      let s2 := r.2
      if r.1.any (fun x => x.2) then poisonUse s2 c sh m
      else if !seqOk seq then headerFault s2 c sh
      else
        let t := if (lget seq 0 0#32).getLsbD 0 then seqTmm s2 c.bed seq else none
        if (lget seq 0 0#32).getLsbD 0 && (match t with
            | some x => (tmmHeld x).isNone
            | none => true) then headerFault s2 c sh
        else
          let s3 := match (getCore s2 core).tmm with
            | some old => freeLocks s2 (plotOf core) old.locks
            | none => s2
          let s4 := modCore s3 core (fun k => { k with tmm := t })
          let s5 := (below 1024).foldl (fun s j =>
            setRow s core s.nextKey (j / 64) (j / 8 % 8) (j % 8) (firstN 16 (afterN (16 * j) ws))) s4
          rowsDone s5 c) (pageStarts va (accBytes + 256)) [])

end Sys2Proof.Machine
end

