-- ==== Sys2Proof/Machine/Task.lean ====
section
/-! DEFINITION. Range tasks (R31 to R34, R215), BEXIT (R40), rejoin spills (R208 to R211) and bank configuration (R86, R217). -/

namespace Sys2Proof.Machine

/-! ## Range tasks -/

/-- A range-task launch, with its grain g (Table 16.2). -/
def grainOf (s : State) (b : Nat) : Option Nat :=
  match launchOf s b with
  | some l => if l.record.getLsbD 109 then some (recField l.record 767 736) else none
  | none => none

/-- Runs the rest in a range-task launch; elsewhere the instruction is illegal (R215). -/
def inRange (s : State) (c : Cur) (sh : Sheaf) (k : Nat → Bed → Out) : Out :=
  match grainOf s c.bed, getBed s c.bed with
  | some g, some bd => k g bd
  | _, _ => illegal s c sh

/-- The end of the next grain of an interval. -/
def grainEnd (bd : Bed) (g : Nat) : Word := BitVec.ofNat 32 (if bd.lo.toNat + g < bd.hi.toNat then bd.lo.toNat + g else bd.hi.toNat)

/-- TDONE (R34): the interval is empty.  Whether a later TNEXT of the bed may still be granted a split is not said; here it may
(DESIGN CHOICE, log 109). -/
def execTdone (s : State) : Out :=
  groupOp s (fun c sh _ => inRange s c sh (fun _ _ => done (modBed s c.bed (fun bd => { bd with lo := bd.hi })) c sh))

/-- TGRAIN (R32). -/
def execTgrain (d : BitVec 7) (s : State) : Out :=
  groupOp s (fun c sh _ => inRange s c sh (fun g _ => done s c (writeGroup sh (rn d) (BitVec.ofNat 32 g) false)))

/-- Grains that an interval holds. -/
def grainsLeft (bd : Bed) (g : Nat) : Nat := (bd.hi.toNat - bd.lo.toNat + g - 1) / g

/-- The tier that two cores share: 0 plot, 1 terrace, 2 orchard, 3 estate (R3). -/
def tierBetween (a b : Nat) : Nat := if a / 4 = b / 4 then 0 else if a / 16 = b / 16 then 1 else if a / 64 = b / 64 then 2 else 3

/-- The order of victims: nearest tier, most grains, lowest core, lowest bed (R33). -/
def victimBefore (core g : Nat) (x y : Bed) : Bool :=
  let t := fun (b : Bed) => tierBetween core b.core
  if t x ≠ t y then decide (t x < t y)
  else if grainsLeft x g ≠ grainsLeft y g then decide (grainsLeft y g < grainsLeft x g)
  else if x.core ≠ y.core then decide (x.core < y.core)
  else decide (x.linear < y.linear)

/-- The victim of a split for a bed, if any bed of its launch holds two grains. -/
def victimOf (s : State) (bd : Bed) (g : Nat) : Option (Nat × Bed) :=
  (s.beds.filter (fun b => b.2.launch == bd.launch && b.2.stage != .exited && decide (2 ≤ grainsLeft b.2 g) &&
    decide (b.2.lo.toNat < b.2.hi.toNat))).foldl
    (fun best b => match best with
      | none => some b
      | some x => if victimBefore bd.core g b.2 x.2 then some b else some x) none

/-- The end of a bed's interval moves; where the bed is pre-empted, the task register in its image moves with it (R33, R350). -/
def cutInterval (s : State) (v : Nat) (x : Bed) (cut : Word) : State :=
  let s1 := modBed s v (fun y => { y with hi := cut })
  match x.stage, x.image with
  | .preempted, some img => homeThrough s1 ((img + 0x24) / 4) 15#4 (cut, false)
  | _, _ => s1

/-- A bed with an empty interval takes the upper part of its victim's (R33). -/
def splitFor (s : State) (b : Nat) : State :=
  match getBed s b, grainOf s b with
  | some bd, some g =>
    if bd.lo.toNat < bd.hi.toNat then s
    else
      match victimOf s bd g with
      | none => s
      | some (v, x) =>
        let cut := BitVec.ofNat 32 (x.lo.toNat + g * ((grainsLeft x g + 1) / 2))
        modBed (cutInterval s v x cut) b (fun y => { y with lo := cut, hi := x.hi })
  | _, _ => s

/-- A grain of a bed's interval for TNEXT: LO and the end of the grain go to a pair of group registers, and LO moves on; all ones
where the interval is empty (R32). -/
def takeGrain (s : State) (b d g : Nat) (sh : Sheaf) : State × Sheaf :=
  match getBed s b with
  | some bd =>
    if bd.lo.toNat < bd.hi.toNat then
      (modBed s b (fun bd => { bd with lo := grainEnd bd g }),
       writeGroup (writeGroup sh d bd.lo false) (d + 1) (grainEnd bd g) false)
    else (s, writeGroup (writeGroup sh d 0xFFFFFFFF#32 false) (d + 1) 0xFFFFFFFF#32 false)
  | none => (s, sh)

/-- The register and the name of a wait for a split. -/
def splitReg (p : Park) : Option (Nat × Nat) :=
  match p with
  | .wait (.split d k) => some (d, k)
  | _ => none

/-- The lowest thread of a sheaf that waits for a split, with its register and its TNEXT's name. -/
def splitWaiter (sh : Sheaf) : Option (Nat × Nat × Nat) := lanes.findSome? (fun i => (splitReg (parkOf sh i)).map (fun d => (i, d)))

/-- The sheaves of a bed that wait for a split, by issue slot and then by position (R215). -/
def splitSheaves (bd : Bed) : List (Nat × Sheaf) :=
  (below 4).flatMap (fun slot => (below 64).flatMap (fun pos =>
    bd.sheaves.filter (fun w => w.2.place.slot == slot && w.2.place.pos == pos && (splitWaiter w.2).isSome)))

/-- One waiting TNEXT completes, with a grain or with the end of the range (R32). -/
def serveSplit (s : State) (b w : Nat) : State :=
  let s1 := splitFor s b
  match getSheaf s1 b w, grainOf s1 b with
  | some sh, some g =>
    match splitWaiter sh with
    | none => s1
    | some (l, d, k) =>
      let pc := lget sh.pcs l 0#64
      let m := waitMask sh (fun x => x == .split d k)
      let r := takeGrain s1 b d g { resumeAfter sh m pc with handler := false }
      setSheaf r.1 b w { r.2 with handler := sh.handler }
  | _, _ => s1

/-- The bed that a split is granted first: of the resident beds of the launch that wait for a split from one victim, the one on the
lowest core (R33). -/
def firstAsker (s : State) (bed : Nat) (bd : Bed) : Nat :=
  match grainOf s bed with
  | none => bed
  | some g =>
    let asks := fun (b : Nat × Bed) => b.2.launch == bd.launch && b.2.stage == .resident && !(splitSheaves b.2).isEmpty &&
      !decide (b.2.lo.toNat < b.2.hi.toNat) && (victimOf s b.2 g).map (fun v => v.1) == (victimOf s bd g).map (fun v => v.1)
    ((s.beds.filter asks).foldl (fun (best : Nat × Bed) b => if b.2.core < best.2.core then b else best) (bed, bd)).1

/-- TNEXT (R32): a grain of the interval, or the threads park and ask for a split.  The handler's stream, which changes no thread (R343),
takes its split at once; it stands at its instruction, and yields, while a request of a lower core against the same victim waits (R33). -/
def execTnext (d : BitVec 7) (s : State) : Out :=
  groupOp s (fun c sh _ =>
    inRange s c sh (fun g bd =>
      if bd.lo.toNat < bd.hi.toNat then
        let r := takeGrain s c.bed (rn d) g sh
        done r.1 c r.2
      else if sh.handler then
        if firstAsker s c.bed bd ≠ c.bed then .next (yieldSheaf s c.bed c.sheaf)
        else
          let r := takeGrain (splitFor s c.bed) c.bed (rn d) g sh
          done r.1 c r.2
      else .next (due (parkWait (fresh s).2 c sh (.split (rn d) (fresh s).1)) (.splitGrant c.bed))))

/-- SPLIT_GRANT (R33): the waiting TNEXT that comes first is served; more of them ask again. -/
def execSplitGrant (bed : Nat) (s : State) : Out :=
  match getBed s bed with
  | none => .next s
  | some bd =>
    if bd.stage ≠ .resident || (splitSheaves bd).isEmpty then .next s
    else
      let first := firstAsker s bed bd
      match (getBed s first).map splitSheaves with
      | some (w :: _) =>
        let s1 := serveSplit s first w.1
        match getBed s1 bed with
        | some x => .next (if (splitSheaves x).isEmpty then s1 else due s1 (.splitGrant bed))
        | none => .next s1
      | _ => .next s

/-! ## BEXIT (R40) -/

/-- Nothing of some sheaves of a bed waits at a barrier, at a queue or for the token any longer. -/
def dropWaitersOf (s : State) (b core : Nat) (p : Nat → Bool) : State :=
  let gone := fun (bed w : Nat) => bed == b && p w
  let s1 := { s with bwait := s.bwait.filter (fun w => !gone w.bed w.sheaf) }
  let s2 := modPlot s1 (plotOf core) (fun x => { x with qwait := x.qwait.filter (fun w => !gone w.bed w.sheaf) })
  modCore s2 core (fun k => { k with tokQ := k.tokQ.filter (fun t => !gone t.1 t.2) })

/-- Nothing of a bed waits so any longer. -/
def dropWaiters (s : State) (b core : Nat) : State := dropWaitersOf s b core (fun _ => true)

/-- BEXIT: every thread of the bed is in DONE, and no later wave starts.  An instruction of the handler changes no thread of its own
sheaf (R343), and ends those of the bed's other sheaves (log 27). -/
def execBexit (s : State) : Out :=
  onSheaf s (fun c sh =>
    let mine := fun (w : Nat) => !(sh.handler && w == c.sheaf)
    let s1 := dropWaitersOf (putSheaf s c (advance c sh)) c.bed sh.place.core mine
    let s2 := modBed s1 c.bed (fun bd =>
      { bd with bexit := true, sheaves := bd.sheaves.map (fun w => (w.1, if mine w.1 then endThreads w.2 Mask.full else w.2)) })
    match getBed s2 c.bed with
    | some bd => .next (bd.sheaves.foldl (fun s w => afterEnd s c.bed w.1) s2)
    | none => .next s2)

/-! ## Rejoin spills (R208 to R211) -/

/-- SPC of jK set. -/
def setSpill (sh : Sheaf) (k n : Nat) : Sheaf := { sh with spc := mput sh.spc k (BitVec.ofNat 8 n) 0#8 }

/-- The checks on the address of JSPILL and JFILL. -/
def spillAt (s : State) (c : Cur) (sh : Sheaf) (a : BitVec 7) (write : Bool) (k : State → Nat → Bool → Out) : Out :=
  let m := exm c sh
  let va := rdG64 s c sh (rn a)
  if poisonG s c sh [rn a, rn a + 1] then poisonUse s c sh m
  else
    accessChecks s c sh m 0#32 (oneLane m) 8 (fun _ => (va.toNat : Int)) (fun _ => canonical va) write 0
      (withPage s c sh m va write k)

/-- JSPILL (R209).  A full SPC comes before the checks of R239 (DEDUCED, log 120). -/
def execJspill (k : BitVec 4) (a : BitVec 7) (s : State) : Out :=
  onSheaf s (fun c sh =>
    let kk := k.toNat
    if !sh.handler then privilege s c sh
    else if spill sh kk = 255 then illegal s c sh
    else
      spillAt s c sh a true (fun s1 pa syn =>
        let core := sh.place.core
        let w := nameOf (asidOf s c.bed) (rdG64 s c sh (rn a)) pa
        let s2 := writeWord (writeWord s1 core w syn 15#4 (jE sh kk, false)) core (w + 1) syn 15#4 (jA sh kk, false)
        done s2 c (setSpill (setJ sh kk 0#32 0#32) kk (spill sh kk + 1))))

/-- jK as JFILL loads it (R210): ended threads leave E, held threads that it expects count as arrived. -/
def filledJ (sh : Sheaf) (k : Nat) (e a : Word) : Sheaf :=
  let e1 := e &&& ~~~(doneMask sh)
  releaseJ (setJ sh k e1 (a ||| (joinMask sh (BitVec.ofNat 4 k) &&& e1))) k

/-- JFILL (R210).  Where several of its traps hold, the live jK comes first, then an empty SPC, then the checks of R239 (DEDUCED,
log 120). -/
def execJfill (k : BitVec 4) (a : BitVec 7) (s : State) : Out :=
  onSheaf s (fun c sh =>
    let kk := k.toNat
    if !sh.handler then privilege s c sh
    else if jE sh kk ≠ 0#32 then rejoinOverflow s c sh kk 3
    else if spill sh kk = 0 then illegal s c sh
    else
      spillAt s c sh a false (fun s1 pa syn =>
        let core := sh.place.core
        let w := nameOf (asidOf s c.bed) (rdG64 s c sh (rn a)) pa
        let e := readWord s1 core w syn true true (salt s1 8101)
        let x := readWord e.2 core (w + 1) syn true false (salt s1 8102)
        if e.1.2 || x.1.2 then poisonUse x.2 c sh (exm c sh)
        else done x.2 c (filledJ (setSpill sh kk (spill sh kk - 1)) kk e.1.1 x.1.1)))

/-! ## Bank modes (R85 to R87) -/

/-- A bank's mode. -/
def bankModeOf (s : State) (p bank : Nat) : BitVec 2 := mget (getPlot s p).bankMode bank 0#2

/-- A bank is owned by a bed that is resident or pre-empted. -/
def bankBusy (s : State) (p bank : Nat) : Bool :=
  match mfind (getPlot s p).bankOwner bank with
  | some b =>
    (match getBed s b with
     | some _ => true
     | none => false)
  | none => false

/-- The lines of a bank that leaves CACHE mode are written back and dropped.  Which lines the way holds is open: each line of
the plot's L1 may be one, and all of them are where no CACHE bank is left. -/
def emptyWay (s : State) (p bank : Nat) : State :=
  let last := !hasCache s p
  (((getPlot s p).l1.map (fun x => x.1)).filter (fun w =>
    last || Config.freeBool (salt s (9000 + bank * 16 + w / 32 * 8192)))).foldl (fun s w => l1Revoke s p w) s

/-- A bank takes a mode (R86): one that enters SCRATCH or FIFO reads as zero with no marks. -/
def switchBank (s : State) (p bank : Nat) (mode : BitVec 2) : State :=
  let old := bankModeOf s p bank
  if old = mode then s
  else
    let lo := bank * 4096
    let s1 := modPlot s p (fun pl => { pl with bankMode := mput pl.bankMode bank mode 0#2 })
    let s2 := if old = 0#2 then emptyWay s1 p bank else s1
    modPlot s2 p (fun pl =>
      { pl with
        scratch := pl.scratch.filter (fun x => decide (x.1 < lo) || decide (lo + 4096 ≤ x.1)),
        marks := pl.marks.filter (fun x => decide (x.1 < lo / 32) || decide (lo / 32 + 128 ≤ x.1)) })

/-- BANKCFG (R217): the switch is under way until its completion writes gD.  Where several of its traps hold, poison comes first, then the
bank's number, then the mode (DEDUCED, log 120). -/
def execBankcfg (d a b : BitVec 7) (s : State) : Out :=
  onSheaf s (fun c sh =>
    let m := exm c sh
    let bank := rdG s c sh (rn a)
    let mode := rdG s c sh (rn b)
    if !sh.handler then privilege s c sh
    else if poisonG s c sh [rn a, rn b] then poisonUse s c sh m
    else if 511 < bank.toNat then violation s c sh m (firstLane m) (bank.setWidth 64)
    else if 2 < mode.toNat then illegal s c sh
    else
      let id := (fresh s).1
      let s1 := due (fresh s).2 (.bankSwitchCompletion c.bed c.sheaf id (BitVec.ofNat 9 bank.toNat) (BitVec.ofNat 2 mode.toNat))
      issueLong s1 c sh { longOp c sh id 0 [.group (gidx sh (rn d)) 0#32 false] with ready := false })

/-- The pending result of an instruction is formed: its group register takes a value. -/
def formGroup (s : State) (b w op : Nat) (x : Word) : State :=
  modSheaf s b w (fun sh =>
    { sh with long := sh.long.map (fun o =>
        if o.id == op then
          { o with ready := true, writes := o.writes.map (fun p => match p with
              | .group n _ _ => .group n x false
              | y => y) }
        else o) })

/-- A bank switch ends (R86): an owned bank stays as it is and gives BUSY. -/
def endSwitch (s : State) (bed sheaf op bank : Nat) (mode : BitVec 2) : State :=
  match getBed s bed with
  | none => s
  | some bd =>
    let p := plotOf bd.core
    if bankBusy s p bank then formGroup s bed sheaf op 1#32 else formGroup (switchBank s p bank mode) bed sheaf op 0#32

/-- Where the sheaf of a bank switch that is under way stands: its plot, then core position and issue slot as one number (R217). -/
def switchSeat (s : State) (bed sheaf : Nat) : Nat × Nat :=
  match getSheaf s bed sheaf with
  | some sh => (plotOf sh.place.core, sh.place.core % 4 * 4 + sh.place.slot)
  | none => (0, 0)

/-- The place in the order of R217 of an event that ends a switch of a bank of a plot. -/
def switchKey (s : State) (p : Nat) (bank : BitVec 9) (e : Event) : Option Nat :=
  match e with
  | .bankSwitchCompletion b w _ k _ => if k = bank ∧ (switchSeat s b w).1 = p then some (switchSeat s b w).2 else none
  | _ => none

/-- The switch of a bank under way that comes first, if one comes before a place in that order. -/
def earlierSwitch (s : State) (p : Nat) (bank : BitVec 9) (key : Nat) : Option Event :=
  (s.agenda.foldl (fun (x : Nat × Option Event) e =>
    match switchKey s p bank e with
    | some k => if k < x.1 then (k, some e) else x
    | none => x) (key, none)).2

/-- BANK_SWITCH_COMPLETION (R86): switches of one bank end in order of core position, then issue slot (R217). -/
def execBankSwitchCompletion (bed sheaf op : Nat) (bank : BitVec 9) (mode : BitVec 2) (s : State) : Out :=
  let mine : Event := .bankSwitchCompletion bed sheaf op bank mode
  let seat := switchSeat s bed sheaf
  match earlierSwitch s seat.1 bank seat.2 with
  | some (.bankSwitchCompletion b w o k m) =>
    .next (endSwitch { s with agenda := s.agenda.erase (.bankSwitchCompletion b w o k m) ++ [mine] } b w o k.toNat m)
  | _ => .next (endSwitch s bed sheaf op bank.toNat mode)

/-- The switch of an event ends; every other event stays due. -/
def endSwitchOf (s : State) (e : Event) : State :=
  match e with
  | .bankSwitchCompletion b w o k m => endSwitch { s with agenda := s.agenda.erase e } b w o k.toNat m
  | _ => s

/-- The switch of an event ends, after those on its bank that R217 puts before it, at most n of them. -/
def endAfterEarlier : Nat → State → Event → State
  | 0, s, e => endSwitchOf s e
  | n + 1, s, e =>
    match e with
    | .bankSwitchCompletion b w _ k _ =>
      let seat := switchSeat s b w
      (match earlierSwitch s seat.1 k seat.2 with
       | some x => endAfterEarlier n (endSwitchOf s x) e
       | none => endSwitchOf s e)
    | _ => s

/-- An event ends a bank switch of a bed. -/
def isSwitchOf (b : Nat) (e : Event) : Bool :=
  match e with
  | .bankSwitchCompletion x _ _ _ _ => x == b
  | _ => false

/-- The bank switches of a bed that are under way end: an issued instruction completes before a pre-emption (R349), in the order of R217. -/
def endSwitches (s : State) (b : Nat) : State :=
  (s.agenda.filter (isSwitchOf b)).foldl (fun s e => if s.agenda.contains e then endAfterEarlier s.agenda.length s e else s) s

end Sys2Proof.Machine
end

