-- ==== Sys2Proof/Machine/Faults.lean ====
section
/-! DEFINITION. The fault queue (R353, R405), RESUME (R354), late results and traps (R180, R341), and the events of page faults,
protection violations and snapshot copies. -/

namespace Sys2Proof.Machine

/-! ## The fault queue (R353, R405) -/

/-- The registers of a function. -/
def getFn (s : State) (f : Nat) : HostFn := mget s.hostIf.fns f HostFn.reset

/-- The state with a function's registers changed. -/
def modFn (s : State) (f : Nat) (g : HostFn → HostFn) : State :=
  { s with hostIf := { s.hostIf with fns := mset s.hostIf.fns f (g (getFn s f)) } }

/-- Data sent back to the host. -/
def answer (s : State) (bs : List Byte) : State := { s with hostIf := { s.hostIf with out := s.hostIf.out ++ [(false, bs)] } }

/-- A discarded host access is logged (kind 12, R421). -/
def discard (s : State) (bar fn : Nat) : State := logEvent s 12 0 none (Config.refusedDetail bar fn) fn

/-- A refused host access of n bytes read, or 0 for a write, completes with Unsupported Request and is logged; a read returns all ones
(R403). -/
def refused (s : State) (bar fn n : Nat) : State :=
  let s1 := discard s bar fn
  { s1 with hostIf := { s1.hostIf with out := s1.hostIf.out ++ [(true, copies n 0xFF#8)] } }

/-- A refused write. -/
def refuse (s : State) (bar fn : Nat) : State := refused s bar fn 0

/-- The device offers its host registers: it has power, and an image of every kind (R409, R411). -/
def hostOpen (s : State) : Bool := s.powered && !s.mgmt.mailboxOnly

/-- A host access that the device does not offer is refused (R403): n bytes read, or 0 for a write. -/
def whenOpen (s : State) (bar fn n : Nat) (k : Out) : Out :=
  if hostOpen s then k else .next (if s.powered then refused s bar fn n else s)

/-- A fault entry enters its ring, or is held at the home while the ring is full. -/
def postEntry (s : State) (fn : Nat) (e : BitVec 256) : State :=
  let f := getFn s fn
  if (f.fqtail - f.fqhead).toNat < 2 ^ f.fqlog then
    let a := (if Config.faultRingHost then Config.hostBase else 0) + f.fqbase.toNat + 32 * (f.fqtail.toNat % 2 ^ f.fqlog)
    modFn (homePuts s a (natLe 32 e.toNat)) fn (fun f => { f with fqtail := f.fqtail + 1#32 })
  else { s with hostIf := { s.hostIf with backlog := s.hostIf.backlog ++ [(fn, e)] } }

/-- A fault-queue entry (Table 17.6). -/
def faultEntry (va : DWord) (asid : BitVec 16) (kind core slot pos log : Nat) (ident : DWord) (token : Word) : BitVec 256 :=
  BitVec.ofNat 256 (va.toNat + asid.toNat * 2 ^ 64 + kind % 8 * 2 ^ 80 + core % 256 * 2 ^ 96 + slot % 4 * 2 ^ 104 +
    pos % 64 * 2 ^ 106 + log % 4 * 2 ^ 112 + ident.toNat * 2 ^ 128 + token.toNat * 2 ^ 192)

/-- A new token for a ticket. -/
def newToken (s : State) (t : Ticket) : Word × State :=
  (s.hostIf.nextToken,
   { s with hostIf := { s.hostIf with
       nextToken := s.hostIf.nextToken + 1#32, tickets := mset s.hostIf.tickets s.hostIf.nextToken.toNat t } })

/-- A ticket is spent. -/
def dropTicket (s : State) (token : Word) : State :=
  { s with hostIf := { s.hostIf with tickets := mdel s.hostIf.tickets token.toNat } }

/-- The identifier and function of a bed's launch. -/
def bedIdent (s : State) (b : Nat) : DWord × Nat :=
  match launchOf s b with
  | some l => (l.ident, l.fn)
  | none => (0#64, 0)

/-- A fault of a sheaf is posted under a token. -/
def postFault (s : State) (b w : Nat) (va : DWord) (kind log : Nat) (t : Ticket) : Word × State :=
  match getSheaf s b w with
  | none => (0#32, s)
  | some sh =>
    let x := newToken s t
    let i := bedIdent s b
    (x.1, postEntry x.2 i.2 (faultEntry va (asidOf s b) kind sh.place.core sh.place.slot sh.place.pos log i.1 x.1))

/-! ## The operand log -/

/-- The bed is resident. -/
def isResident (s : State) (b : Nat) : Bool :=
  match getBed s b with
  | some bd => bd.stage == .resident
  | none => false

/-- A log entry. -/
def getLog (s : State) (b w k : Nat) : Option LogEnt :=
  match getSheaf s b w with
  | some sh => mfind sh.oplog k
  | none => none

/-- A log entry replaced. -/
def setLog (s : State) (b w k : Nat) (e : LogEnt) : State := modSheaf s b w (fun sh => { sh with oplog := mset sh.oplog k e })

/-- A log entry freed. -/
def freeLogAt (s : State) (b w k : Nat) : State := modSheaf s b w (fun sh => { sh with oplog := mdel sh.oplog k })

/-- The address a log entry's fault names: that of its lowest lane. -/
def logVa (e : LogEnt) : DWord :=
  lget e.acc.addrs (match e.acc.sc with
    | .lane => lowestD e.mask
    | .group => 0) 0#64

/-- PAGE_FAULT (R351, R353): the entry of a logged access that has not been posted yet is posted. -/
def execPageFault (bed sheaf entry : Nat) (s : State) : Out :=
  match getLog s bed sheaf entry with
  | none => .next s
  | some e =>
    if e.token ≠ 0#32 then .next s
    else
      let x := postFault s bed sheaf (logVa e) e.kind entry (.log bed sheaf entry)
      .next (setLog x.2 bed sheaf entry { e with token := x.1 })

/-- The trap of a logged instruction, precise where nothing younger issued (R240); no sheaf that has ended takes it. -/
def logTrap (s : State) (b w : Nat) (e : LogEnt) (t : LateTrap) : State :=
  match e.op with
  | some k =>
    modSheaf s b w (fun sh => { sh with long := sh.long.map (fun o =>
      if o.id == k then { o with trap := some t, ready := true, writes := [] } else o) })
  | none =>
    match getSheaf s b w with
    | none => s
    | some sh =>
      if sheafEnded sh then s
      else takeTrap s b w (trapRecord sh t e.pc e.pc e.ctl e.inst0 e.inst1 (!e.younger) false e.handler)

/-- The results of some logged lanes are formed; the others stay pending. -/
def formLogged (s : State) (b w : Nat) (k : Nat) (rs : List (Nat × List PWord)) (m rest : Mask) (all : Bool) : State :=
  let id := (fresh s).1
  modSheaf (fresh s).2 b w (fun sh =>
    { sh with long := sh.long.flatMap (fun o =>
        if o.id == k then
          let part := { o with writes := fillWrites rs m 0 o.writes, ready := true }
          if all then [part] else [{ part with id := id }, { o with writes := o.writes.map (keepLanes rest) }]
        else [o]) })

/-- The lanes of a logged access act, as accesses of its sheaf, whose loads then keep no older value (R112). -/
def logAccess (s : State) (b w core : Nat) (asid : BitVec 16) (e : LogEnt) (run : Mask) : Got :=
  let c : Cur := { bed := b, sheaf := w, pc := e.pc, ctl := e.ctl, len := 4, inst0 := e.inst0, inst1 := e.inst1, before := none }
  let g := runAccess { s with agent := .sheaf c } core asid e.acc run
  { g with st := { g.st with agent := s.agent, early := g.st.early.filter (fun x => !(x.bed == b && x.sheaf == w)) } }

/-- A logged access is tried again (R354): lanes that pass take effect; lanes that fault again are posted again; a violation
is left to PROTECTION_VIOLATION. -/
def retryLog (s : State) (b w k : Nat) : Out :=
  match getLog s b w k, getSheaf s b w with
  | some e, some sh =>
    let core := sh.place.core
    let asid := asidOf s b
    match e.acc.op with
    | .reissue _ => .next (freeLogAt s b w k)
    | op =>
      let run := accLanes e.acc e.mask
      match lockLane s core (op != .load false && op != .load true) 0 asid e.acc.size
          (fun i => (lget e.acc.addrs i 0#64).toNat) (lanesOf run) with
      | some (i, entry) =>
        .next (logTrap (freeLogAt s b w k) b w e
          { cause := 5, lanes := 0#32, lanes2 := 0#32, detail := BitVec.ofNat 32 (i + entry * 256),
            addr := lget e.acc.addrs i 0#64 })
      | none =>
        let g := logAccess s b w core asid e run
        if g.hole then .fault .noSuchAddress
        else
          let bad := g.violated ||| g.faulted
          let okm := match e.acc.sc with
            | .lane => e.mask &&& ~~~bad
            | .group => if bad = 0#32 then e.mask else 0#32
          let rest := match e.acc.sc with
            | .lane => bad
            | .group => if bad = 0#32 then 0#32 else e.mask
          let s1 := match e.op with
            | some id => formLogged g.st b w id g.results okm rest (decide (rest = 0#32))
            | none => g.st
          if rest = 0#32 then .next (freeLogAt s1 b w k)
          else if g.violated ≠ 0#32 then
            .next (due (setLog s1 b w k { e with mask := rest, resumed := some 0#2 }) (.protectionViolation b w k))
          else
            .next (due (setLog s1 b w k { e with mask := rest, token := 0#32, kind := g.kind, resumed := none })
              (.pageFault b w k))
  | _, _ => .next s

/-- PROTECTION_VIOLATION (R240): a logged access that has been tried again and met one raises its trap; for a bed that is
pre-empted it waits for the resume, which tries the access again. -/
def execProtectionViolation (bed sheaf entry : Nat) (s : State) : Out :=
  match getLog s bed sheaf entry with
  | none => .next s
  | some e =>
    if e.resumed = some 0#2 && isResident s bed then
      .next (logTrap (freeLogAt s bed sheaf entry) bed sheaf e (accessTrap e.acc e.mask))
    else .next s

/-- An ordered access whose release an exclusive batch held back is made (R168); a FENCE.sc's release, and then its acquire. -/
def makeHeld (bed sheaf entry : Nat) (s : State) : Out :=
  match getLog s bed sheaf entry, getSheaf s bed sheaf with
  | some e, some sh =>
    if e.kind ≠ 8 || !isResident s bed then .next s
    else
      match e.acc.op with
      | .reissue _ =>
        .next (freeLogAt (acquireAt (releaseAt s sh.place.core e.acc.scope) sh.place.core e.acc.scope) bed sheaf entry)
      | _ => retryLog s bed sheaf entry
  | _, _ => .next s

/-- The code of a RESUME reaches a logged access. -/
def resumeLog (s : State) (b w k : Nat) (fail : Bool) : Out :=
  match getLog s b w k with
  | none => .next s
  | some e =>
    if fail then .next (logTrap (freeLogAt s b w k) b w e (accessTrap e.acc e.mask)) else retryLog s b w k

/-- The identifier and function of the launch for which a page is saved. -/
def snapLaunch (s : State) (asid : BitVec 16) (page : DWord) : DWord × Nat :=
  match (snapOwners s asid page 4096).head? with
  | some k => (match getLaunch s k with
    | some l => (l.ident, l.fn)
    | none => (0#64, 0))
  | none => (0#64, 0)

/-- A write by an engine or the control plane waits for a page of the pool under an entry of kind 4 (R359); which core, slot, position
and log entry the fields name is open. -/
def waitSnap (s : State) (asid : BitVec 16) (va : DWord) : State :=
  let t : Ticket := .snap asid (va &&& ~~~(0xFFF#64))
  if s.hostIf.tickets.any (fun x => x.2 == t) then s
  else
    let i := snapLaunch s asid va
    let x := newToken s t
    let n := fun k => Config.freeNat (salt s (5600 + k))
    postEntry x.2 i.2 (faultEntry va asid 4 (n 0) (n 1) (n 2) (n 3) i.1 x.1)

/-- The launch that a ticket belongs to. -/
def ticketFn (s : State) (t : Ticket) : Nat :=
  match t with
  | .log b _ _ => (bedIdent s b).2
  | .fetch b _ _ => (bedIdent s b).2
  | .fetchFail b _ _ => (bedIdent s b).2
  | .copy id =>
    (match mfind s.copies id with
     | some c => (match getLaunch s c.launch with
       | some l => l.fn
       | none => 0)
     | none => 0)
  | .snap asid page => (snapLaunch s asid page).2

/-- The trap of a fetch that the driver failed (R354). -/
def failFetch (s : State) (b w : Nat) (pc : DWord) : State :=
  match getSheaf s b w with
  | none => s
  | some sh =>
    let m := runMask sh &&& maskOf (fun i => lget sh.pcs i 0#64 == pc)
    takeTrap s b w (trapRecord sh
      { cause := 4, lanes := m, lanes2 := 0#32, detail := BitVec.ofNat 32 (lowestD m), addr := pc } pc pc m 0#32 0#32 true false false)

/-- The fetches of a bed that the driver failed while it was pre-empted trap on its resume (R354). -/
def failFetches (s : State) (b : Nat) : State :=
  s.hostIf.tickets.foldl (fun s t =>
    match t.2 with
    | .fetchFail x w pc => if x = b then failFetch (dropTicket s (BitVec.ofNat 32 t.1)) b w pc else s
    | _ => s) s

/-- RESUME (R354, R405): an unknown token is logged, one of another function refused; a token that a pre-empted bed waits for is
applied on its resume. -/
def resume (s : State) (fn : Nat) (token : Word) (fail : Bool) : Out :=
  match mfind s.hostIf.tickets token.toNat with
  | none => .next (discard s 0 fn)
  | some t =>
    if ticketFn s t ≠ fn then .next (refuse s 0 fn)
    else
      let s1 := dropTicket s token
      match t with
      | .log b w k =>
        if isResident s b then resumeLog s1 b w k fail
        else
          match getLog s1 b w k with
          | some e => .next (setLog s1 b w k { e with resumed := some (if fail then 1#2 else 0#2) })
          | none => .next s1
      | .fetch b w pc =>
        if !fail then .next s1
        else if isResident s b then .next (failFetch s1 b w pc)
        else .next { s with hostIf := { s.hostIf with tickets := mset s.hostIf.tickets token.toNat (.fetchFail b w pc) } }
      | .fetchFail .. => .next s
      | .snap .. => .next s1
      | .copy id =>
        match mfind s1.copies id with
        | none => .next s1
        | some c =>
          .next (due { s1 with copies := mset s1.copies id { c with stalled := none, failed := fail } }
            (if fail then .copyTransferFailure id false else .copyCompletion id))

/-- RESUME_RETRY (R354), a write of RESUME, which a device that offers only its mailbox refuses (R411). -/
def execResumeRetry (fn : Nat) (token : BitVec 32) (s : State) : Out := whenOpen s 0 fn 0 (resume s fn token false)

/-- RESUME_FAIL (R354). -/
def execResumeFail (fn : Nat) (token : BitVec 32) (s : State) : Out := whenOpen s 0 fn 0 (resume s fn token true)

/-- SNAPSHOT_COPY (R359): a page whose SNAP bit stands is saved and the bit cleared; an empty pool leaves it to its writer. -/
def execSnapshotCopy (asid : BitVec 16) (va : BitVec 64) (s : State) : Out :=
  match walk s asid va with
  | .leaf e level (leafAt :: _) =>
    if pteBit e 9 then
      let size := leafBytes level (pteBit e 7 && level == 3)
      .next ((snapshotPage s asid va leafAt ((if pteBit e 8 then Config.hostBase else 0) + ptePa e) size none).getD s)
    else .next s
  | _ => .next s

/-! ## Fetch (R170, R343, R351, R355) -/

/-- What a fetch gives. -/
inductive Fetched where
  /-- the instruction's word, the second word of an EXT pair or 0, and the length in bytes -/
  | word (inst0 inst1 : Word) (len : Nat)
  /-- a page fault at the address of a word -/
  | fault (va : DWord)
  /-- a protection violation (R355), with the EXT word where the second word of a pair meets it (Table 17.2) -/
  | violation (inst0 : Word)
  /-- an address that the package does not have (R424) -/
  | hole
  deriving DecidableEq, Repr

/-- A word of code in memory, by name: the home's value, another copy of it, or, where a running launch has written it, what stood there
before, old or new (R170).  Threads that stand at one address may differ in the choice: `part` tells two such parts of them apart. -/
def codeWord (s : State) (core part k : Nat) : Word :=
  let w := untag k
  let old := match mfind s.oldCode w with
    | some x => [(x, false)]
    | none => []
  let xs := l2View s (terraceOf core) k :: homeWord s w :: (ownedViews s w ++ old)
  (lget xs (choose (salt s (4000 + 32 * part + w % 16)) xs) (homeWord s w)).1

/-- One word at a VA. -/
def fetchWord (s : State) (core part : Nat) (asid : BitVec 16) (va : DWord) : (Fetched × State) :=
  if !canonical va then (.violation 0#32, s)
  else
    match translate s core asid va .fetch with
    | (.ok pa _, s1) => (.word (codeWord s1 core part (nameOf asid va pa)) 0#32 4, s1)
    | (.fault, s1) => (.fault va, s1)
    | (.hole, s1) => (.hole, s1)
    | (_, s1) => (.violation 0#32, s1)

/-- The instruction at a VA, with the second word of an EXT pair (R176), as one part of the threads there fetches it. -/
def fetchAt (s : State) (core part : Nat) (asid : BitVec 16) (pc : DWord) : (Fetched × State) :=
  match fetchWord s core part asid pc with
  | (.word w _ _, s1) =>
    if isExtWord w then
      match fetchWord s1 core part asid (pc + 4#64) with
      | (.word v _ _, s2) => (.word w v 8, s2)
      | (.violation _, s2) => (.violation w, s2)
      | r => r
    else (.word w 0#32 4, s1)
  | r => r

/-- A word of the trap-handler image at an offset (R343); beyond the payload's end anything. -/
def handlerWord (s : State) (img off : Nat) : Word :=
  if 256 + off + 4 ≤ (imageOf s img).length then payloadWord (imageOf s img) off else Config.freeWord (img * 2 ^ 64 + off)

/-- The handler's instruction at an offset. -/
def handlerFetch (s : State) (img off : Nat) : Fetched :=
  let w := handlerWord s img off
  if isExtWord w then .word w (handlerWord s img (off + 4)) 8 else .word w 0#32 4

/-- The words of the instruction at an address of a sheaf, as a trap record gives them (Table 17.2); zeros where none can be fetched. -/
def instrWords (s : State) (b : Nat) (sh : Sheaf) (pc : DWord) : Word × Word :=
  match (if sh.handler then handlerFetch s sh.himg pc.toNat else (fetchAt s sh.place.core 0 (asidOf s b) pc).1) with
  | .word x y _ => (x, y)
  | _ => (0#32, 0#32)

/-- The addresses at which a sheaf's threads wait for a word: the word's own, and that of an EXT whose second word it is (R351). -/
def fetchPcs (s : State) (bed : Nat) (sh : Sheaf) (va : DWord) : List DWord :=
  let at_ := fun (p : DWord) => (lanesOf (runMask sh)).any (fun i => lget sh.pcs i 0#64 == p)
  if at_ va then
    va :: (if at_ (va - 4#64) && (fetchAt s sh.place.core 0 (asidOf s bed) (va - 4#64)).1 == .fault va then [va - 4#64] else [])
  else if at_ (va - 4#64) then [va - 4#64] else []

/-- FETCH_PAGE_FAULT (R351): the threads that fetch this word, or whose EXT pair has it as second word, wait for a RESUME: each of two
such groups under an entry of its own. -/
def execFetchPageFault (bed sheaf : Nat) (va : BitVec 64) (s : State) : Out :=
  match getSheaf s bed sheaf with
  | none => .next s
  | some sh =>
    let pcs := fetchPcs s bed sh va
    let held := fun (p : DWord) => s.hostIf.tickets.any (fun t => t.2 == .fetch bed sheaf p)
    match (pcs.find? (fun p => !held p)).orElse (fun _ => pcs.head?) with
    | none => .next s
    | some p => .next (postFault s bed sheaf va 3 0 (.fetch bed sheaf p)).2

/-! ## Results and traps after issue -/

/-- INSTRUCTION_COMPLETION (R180, R307): formed results are written, or the trap found with them is taken; those of a pre-empted bed
wait for its resume. -/
def execInstructionCompletion (bed sheaf op : Nat) (s : State) : Out :=
  match getSheaf s bed sheaf with
  | none => .next s
  | some sh =>
    match sh.long.find? (fun o => o.id == op) with
    | none => .next s
    | some o =>
      if !o.ready || !isResident s bed then .next s
      else
        match o.trap with
        | none => .next (finishOp s bed sheaf o)
        | some t =>
          let s1 := modSheaf s bed sheaf (fun sh => { sh with long := sh.long.filter (fun x => x.id != op) })
          if sheafEnded sh then .next s1 else .next (takeTrap s1 bed sheaf (lateRecord sh o t))

/-- The causes whose record keeps the threads' PCs (Table 17.3). -/
def keepsPc (cause : Nat) : Bool := cause == 17 || cause == 18

/-- The commands, stores and atomics whose address and data a shadow's are compared with before the commit gate (Table 18.4, R420). -/
def isShadowed (i : Instr) : Bool :=
  match i with
  | .st .. | .stq .. | .sts .. | .stl .. | .stu .. | .stsu .. | .jspill .. | .mdrain .. => true
  | .atom .. | .atom64 .. | .atoms .. => true
  | .copy .. | .copyout .. | .tmm .. | .nmcall .. | .nmsearch .. | .nmcommit .. => true
  | _ => false

/-- A shadow mismatch can arise (R420): the launch is protected, and the threads stand at a gated store, atomic or engine command, which
takes no effect. -/
def shadowAt (s : State) (b : Nat) (sh : Sheaf) (pc : DWord) (m : Mask) : Bool :=
  let x := instrWords s b sh pc
  let word := if isExtWord x.1 then x.2 else x.1
  (match launchOf s b with
   | some l => l.record.getLsbD 111
   | none => false) && !sh.handler && m == runMask sh &&& maskOf (fun i => lget sh.pcs i 0#64 == pc) && m != 0#32 &&
  (match decodeWord word 0#32 with
   | .ok i => isShadowed i
   | .error _ => false)

/-- TAKE_TRAP (R341): a trap that no issuing instruction raises is taken, instruction-precise at a PC for some threads. -/
def execTakeTrap (bed sheaf : Nat) (cause : BitVec 5) (pc : BitVec 64) (tmask detail : BitVec 32) (s : State) : Out :=
  match getSheaf s bed sheaf with
  | none => .next s
  | some sh =>
    if cause = 20#5 && !shadowAt s bed sh pc tmask then .next s
    else
      let i := instrWords s bed { sh with handler := false } pc
      .next (takeTrap s bed sheaf
        (trapRecord sh { plainTrap cause.toNat with detail := detail } pc pc tmask i.1 i.2 true (keepsPc cause.toNat) false))

/-- The watchdog limit of a bed's launch (R38). -/
def watchdogLimit (s : State) (b : Nat) : Nat :=
  match launchOf s b with
  | some l => 2 ^ recField l.record 215 208
  | none => 2 ^ 31

/-- WATCHDOG_TRAP (R38): the counter has reached its limit; the trap is raised at the sheaf's next issue and the counter restarts. -/
def execWatchdogTrap (bed sheaf : Nat) (s : State) : Out :=
  match getSheaf s bed sheaf with
  | none => .next s
  | some sh =>
    if !(sh.wdDue || decide (watchdogLimit s bed ≤ sh.wdcnt)) then .next s
    else
      let s1 := setSheaf s bed sheaf { sh with wdDue := false, wdcnt := 0 }
      if sh.handler then
        let i := instrWords s bed sh sh.hpc
        .next (takeTrap s1 bed sheaf (trapRecord sh (plainTrap 18) sh.hpc sh.hpc 0#32 i.1 i.2 true true true))
      else
        let l := lowestD (runMask sh)
        let pc := lget sh.pcs l 0#64
        let m := runMask sh &&& maskOf (fun i => lget sh.pcs i 0#64 == pc)
        let i := instrWords s bed sh pc
        .next (takeTrap s1 bed sheaf (trapRecord sh (plainTrap 18) pc pc m i.1 i.2 true true false))

end Sys2Proof.Machine
end

