-- ==== Sys2Proof/Machine/Copy.lean ====
section
/-! DEFINITION. Tensor layout records (R103 to R107), COPY and COPYOUT (R261 to R264), their transfers, and where a transfer finds
the tiles of a bed that is pre-empted (R98). -/

namespace Sys2Proof.Machine

/-! ## Layout records (Table 4.8) -/

/-- A tensor layout record. -/
structure Layout where
  base : DWord
  fmt : Nat
  rank : Nat
  bound : Nat
  ilv : Nat
  kind : Nat
  top : Nat
  ext : List Nat
  str : List DWord
  win : List Nat
  ilvp : Nat
  org : List Int
  fill : Word
  deriving DecidableEq, Repr

/-- The record in words w0 to w23. -/
def layoutOf (ws : List Word) : Layout :=
  let w := fun k => lget ws k 0#32
  let n := fun k => (w k).toNat
  { base := w 1 ++ w 0, fmt := bits (n 2) 7 0, rank := bits (n 2) 10 8 + 1, bound := bits (n 2) 12 11, ilv := bits (n 2) 15 13,
    kind := bits (n 2) 17 16, top := bits (n 2) 31 18, ext := (upFrom 3 5).map n,
    str := (below 4).map (fun k => w (9 + 2 * k) ++ w (8 + 2 * k)),
    win := [bits (n 16) 15 0, bits (n 16) 31 16, bits (n 17) 15 0, bits (n 17) 31 16, bits (n 18) 15 0],
    ilvp := bits (n 18) 31 16,
    org := [(w 19).toInt, (w 20).toInt, (w 21).toInt, (BitVec.ofNat 16 (n 22)).toInt, (BitVec.ofNat 16 (n 22 / 2 ^ 16)).toInt],
    fill := w 23 }

/-- Bits of an element: the 4-bit formats have half a byte. -/
def Layout.ebits (l : Layout) : Nat := widthOfCode l.fmt

/-- Element bytes for alignment; 1 for 4-bit formats. -/
def Layout.esize (l : Layout) : Nat := if l.ebits < 8 then 1 else l.ebits / 8

/-- Extent of dimension d. -/
def Layout.extD (l : Layout) (d : Nat) : Nat := lget l.ext d 0

/-- Window of dimension d. -/
def Layout.winD (l : Layout) (d : Nat) : Nat := lget l.win d 0

/-- Origin of dimension d. -/
def Layout.orgD (l : Layout) (d : Nat) : Int := lget l.org d 0

/-- The window lies inside the tensor. -/
def Layout.inside (l : Layout) : Bool :=
  (below l.rank).all (fun d => decide (0 ≤ l.orgD d) && decide (l.orgD d + (l.winD d : Int) ≤ (l.extD d : Int)))

/-- Bytes of a row of the packed side: s of R106. -/
def Layout.rowBytes (l : Layout) : Nat := l.winD 0 * l.ebits / 8

/-- Rows of the packed side. -/
def Layout.rows (l : Layout) : Nat := (upFrom 1 (l.rank - 1)).foldl (fun n d => n * l.winD d) 1

/-- Row pitch (Table 4.9). -/
def Layout.pitch (l : Layout) : Nat := if l.ilv = 3 then l.rowBytes + 16 * l.ilvp else l.rowBytes

/-- Size of the packed window (R106). -/
def Layout.packed (l : Layout) : Nat := l.pitch * l.rows

/-- The end of a row in units of n bytes that are XOR-ed with the low `ilvp` bits of the row's number (Table 4.9); with a count of units
that is no power of 2 it may lie past the row's own bytes. -/
def Layout.xorEnd (l : Layout) (n : Nat) : Nat :=
  n * ((below (l.rowBytes / n)).foldl (fun e u => Nat.max e (Nat.xor u ((l.rows - 1) % 2 ^ l.ilvp) + 1)) 0)

/-- The bytes that a packed window really spans: the last row ends last. -/
def Layout.span (l : Layout) : Nat :=
  l.pitch * (l.rows - 1) + (match l.ilv with
    | 1 => l.xorEnd 16
    | 2 => l.xorEnd 32
    | _ => l.rowBytes)

/-- The interleave mode's checks (Table 4.9). -/
def Layout.ilvOk (l : Layout) : Bool :=
  let s := l.rowBytes
  match l.ilv with
  | 0 => l.ilvp == 0
  | 1 => decide (l.ilvp < 8) && s % 16 == 0 && decide (2 ^ l.ilvp ≤ s / 16)
  | 2 => decide (l.ilvp < 8) && s % 32 == 0 && decide (2 ^ l.ilvp ≤ s / 32)
  | 3 => decide (l.ilvp < 256)
  | _ => false

/-- The checks of R103 to R106 that the record alone decides. -/
def Layout.ok (l : Layout) : Bool :=
  let inR := fun d => decide (d < l.rank)
  canonical l.base && l.base.toNat % l.esize == 0 && decide (l.fmt ≤ 13) && decide (l.rank ≤ 5) && decide (l.bound ≤ 2) &&
    decide (l.kind ≤ 2) && l.top == 0 &&
    (below 5).all (fun d => if inR d then l.extD d != 0 && l.winD d != 0
      else l.extD d == 0 && l.winD d == 0 && l.orgD d == 0) &&
    (upFrom 1 4).all (fun d =>
      let st := lget l.str (d - 1) 0#64
      if inR d then st.toNat % l.esize == 0 else st == 0#64) &&
    (l.ebits != 4 || (l.orgD 0 % 2 == 0 && l.winD 0 % 2 == 0)) &&
    (decide (32 ≤ l.ebits) || l.fill.toNat / 2 ^ l.ebits == 0) && l.ilvOk && (l.bound != 2 || l.inside)

/-! ## Window elements (R104 to R106) -/

/-- The coordinates of window element n, the first dimension running fastest. -/
def Layout.coords (l : Layout) (n : Nat) : List Nat :=
  ((below l.rank).foldl (fun (acc : List Nat × Nat) d => (acc.1 ++ [acc.2 % l.winD d], acc.2 / l.winD d)) ([], n)).1

/-- Elements of the window. -/
def Layout.count (l : Layout) : Nat := (below l.rank).foldl (fun n d => n * l.winD d) 1

/-- Tensor coordinates of window coordinates. -/
def Layout.tensor (l : Layout) (ws : List Nat) : List Int := (below l.rank).map (fun d => l.orgD d + ((lget ws d 0 : Nat) : Int))

/-- The element is inside the tensor. -/
def Layout.elemIn (l : Layout) (xs : List Int) : Bool :=
  (below l.rank).all (fun d => decide (0 ≤ lget xs d 0) && decide (lget xs d 0 < (l.extD d : Int)))

/-- Coordinates clamped into the tensor (R105). -/
def Layout.clamped (l : Layout) (xs : List Int) : List Int :=
  (below l.rank).map (fun d => clampInt 0 ((l.extD d : Int) - 1) (lget xs d 0))

/-- The half-byte address of an element, exactly: twice its byte address, and 1 more for an odd 4-bit element. -/
def Layout.exact (l : Layout) (xs : List Int) : Int :=
  2 * (l.base.toNat : Int) + lget xs 0 0 * (if l.ebits = 4 then 1 else 2 * (l.esize : Int)) +
    (upFrom 1 (l.rank - 1)).foldl (fun a d => a + 2 * (lget xs d 0 * (lget l.str (d - 1) 0#64).toInt)) 0

/-- The byte address of an element, which wraps, and its half-byte. -/
def Layout.address (l : Layout) (xs : List Int) : DWord × Nat :=
  let h := l.exact xs
  (BitVec.ofInt 64 (h / 2), (h % 2).toNat)

/-- Where the packed side holds the element of window coordinates: byte offset and half-byte (Table 4.9). -/
def Layout.offset (l : Layout) (ws : List Nat) : Nat × Nat :=
  let h := lget ws 0 0 * l.ebits / 4
  let b := h / 2
  let y := ((upFrom 1 (l.rank - 1)).foldl (fun (acc : Nat × Nat) d => (acc.1 + acc.2 * lget ws d 0, acc.2 * l.winD d)) (0, 1)).1
  let x := fun (n : Nat) => n * (Nat.xor (b / n) (y % 2 ^ l.ilvp)) + b % n
  (y * l.pitch + (match l.ilv with
    | 1 => x 16
    | 2 => x 32
    | _ => b), h % 2)

/-- The range of a dimension's coordinates that touch memory: those inside, or the clamped ones. -/
def Layout.dimRange (l : Layout) (clamp : Bool) (d : Nat) : Option (Int × Int) :=
  let lo := l.orgD d
  let hi := l.orgD d + (l.winD d : Int) - 1
  let e := (l.extD d : Int) - 1
  if clamp then some (clampInt 0 e lo, clampInt 0 e hi)
  else
    let a := if lo < 0 then 0 else lo
    let b := if e < hi then e else hi
    if a ≤ b then some (a, b) else none

/-- The smallest byte interval of the elements that touch memory (R127), if there are any.  The spec does not say how LO and HI hold a
range whose addresses wrap past 2^64: DESIGN CHOICE, HI then exceeds 2^64, so the bytes after the wrap are not covered (log 122). -/
def Layout.hull (l : Layout) (clamp : Bool) : Option (Nat × Nat) :=
  let rs := (below l.rank).map (fun d => l.dimRange clamp d)
  if rs.any (fun r => r.isNone) then none
  else
    let at_ := fun (pick : Nat → Bool) => l.exact ((below l.rank).map (fun d =>
      match lget rs d none with
      | some (a, b) => if pick d then a else b
      | none => 0))
    let neg := fun d => d != 0 && (lget l.str (d - 1) 0#64).msb
    let lo := (at_ (fun d => !neg d)) / 2
    let hi := (at_ neg) / 2 + (l.esize : Int)
    let start := (BitVec.ofInt 64 lo).toNat
    some (start, start + (hi - lo).toNat)

/-! ## Issue (R261, R262) -/

/-- A layout-record fault (bit 10). -/
def layoutFault (s : State) (c : Cur) (sh : Sheaf) : Out := trap s c sh (plainTrap 10)

/-- A byte of a packed window in the B-store is pinned (R90). -/
def pinnedHit (s : State) (b a n : Nat) : Bool :=
  match launchOf s b with
  | some l => l.pins.any (fun p =>
      let lo := bits p.toNat 95 64
      decide (lo < a + n) && decide (a < lo + bits p.toNat 127 96))
  | none => false

/-- The packed side fits (R106, R107): `none` leaves the decision to the checks of step 3. -/
def packedFits (s : State) (c : Cur) (sh : Sheaf) (l : Layout) (q0 : Nat) : Bool :=
  match l.kind with
  | 0 =>
    (match (if q0 < 32 then tileOf (getPlot s (plotOf sh.place.core)) (posnOf s c.bed) q0 else none) with
     | some (_, t) => decide (l.packed ≤ tileBytes t)
     | none => true)
  | 1 =>
    (match launchOf s c.bed with
     | some x =>
       let r := bsRange x
       if r.1 ≤ q0 ∧ q0 < r.1 + r.2 then decide (q0 + l.packed ≤ r.1 + r.2) else true
     | none => true)
  | _ => true

/-- The locks of a copy (R127). -/
def copyLocks (s : State) (c : Cur) (sh : Sheaf) (l : Layout) (out : Bool) (q : DWord) (tile : Option Tile) : List LockReq :=
  let core := sh.place.core % 4
  let asid := asidOf s c.bed
  let mem := fun (dest : Bool) => (match l.hull (!out && l.bound == 1) with
    | some (lo, hi) => [({ dest := dest, space := 0, asid := asid, core := core, lo := lo, hi := hi } : LockReq)]
    | none => [])
  let pack := fun (dest : Bool) => match l.kind with
    | 0 =>
      let b := match tile with
        | some t => tileBase t
        | none => 0
      ({ dest := dest, space := 1, asid := 0#16, core := core, lo := b, hi := b + l.span } : LockReq)
    | 1 => { dest := dest, space := 2, asid := 0#16, core := core, lo := q.toNat, hi := q.toNat + l.span }
    | _ => { dest := dest, space := 0, asid := asid, core := core, lo := q.toNat, hi := q.toNat + l.span }
  if out then [pack false] ++ mem true else mem false ++ [pack true]

/-- Takes the locks and starts the transfer; the result, if any, is pending until it ends. -/
def startCopy (s : State) (c : Cur) (sh : Sheaf) (ws : List Word) (l : Layout) (out : Bool) (q ref : DWord)
    (tile : Option (Nat × Tile)) (d : BitVec 7) (la : Nat) : Out :=
  let core := sh.place.core
  let p := plotOf core
  match takeLocks s p (posnOf s c.bed) (if out then 1 else 0) (copyLocks s c sh l out q (tile.map (fun t => t.2))) with
  | none => waitLocks s core
  | some (ks, s1) =>
    let packLock := if out then lget ks 0 0 else lget ks (ks.length - 1) 0
    let s2 := match tile with
      | some (e, t) =>
        lockTile (setTile s1 p e (if out then { t with state := 3#2 } else { t with state := 1#2, poison := false })) p e packLock
      | none => s1
    let s3 := touchBy s2 c.bed core ref
    let id := (fresh s3).1
    let op := longOp c sh id la (if out then [] else [.group (gidx sh (rn d)) 0#32 false])
    let cp : CopyOp :=
      { bed := c.bed, sheaf := c.sheaf, launch := launchKey s c.bed, core := core, posn := posnOf s c.bed, out := out,
        record := ws, packed := q, tile := tile.map (fun t => t.1), ref := ref, op := if out then none else some id,
        locks := ks, stalled := none, failed := false }
    let s4 := due { (fresh s3).2 with copies := mset (fresh s3).2.copies id cp } (.copyCompletion id)
    if out then done s4 c sh else issueLong s4 c sh { op with ready := false }

/-- COPY and COPYOUT: the checks of R262 in order. -/
def copyOp (out : Bool) (d a b : BitVec 7) (la : Nat) (s : State) : Out :=
  groupOp s (fun c sh m =>
    let ws := (upFrom (rn a) 24).map (fun r => rdG s c sh r)
    let l := layoutOf ws
    let q0 := (rdG s c sh (rn b)).toNat
    let q1 := rdG s c sh (rn b + 1)
    let q := rdG64 s c sh (rn b)
    let ref := rdG64 s c sh (rn b + 2)
    let go := fun (tile : Option (Nat × Tile)) => withRef s c sh m ref (startCopy s c sh ws l out q ref tile d la)
    if poisonG s c sh (upFrom (rn a) 24 ++ upFrom (rn b) 4) then poisonUse s c sh m
    else if !l.ok || (out && l.kind != 0) || (l.kind != 2 && q1 != 0#32) || !packedFits s c sh l q0 then layoutFault s c sh
    else
      match l.kind with
      | 0 =>
        withTile s c sh q0 (fun _ e t =>
          if out then (if t.state = 2#2 then go (some (e, t)) else .next (parkWait s c sh (.tile q0)))
          else if t.state = 0#2 then go (some (e, t)) else tileTrap s c sh q0)
      | 1 =>
        if !bsOk s c.bed q0 l.packed || pinnedHit s c.bed q0 l.packed then violation s c sh m (firstLane m) q else go none
      | _ =>
        if q.toNat % l.esize ≠ 0 then misaligned s c sh m (firstLane m) q
        else if !canonical q then violation s c sh m (firstLane m) q
        else go none)

/-- COPY (R261). -/
def execCopy (d a b : BitVec 7) (l : BitVec 4) (s : State) : Out := copyOp false d a b l.toNat s

/-- COPYOUT (R261). -/
def execCopyout (a b : BitVec 7) (s : State) : Out := copyOp true 0#7 a b 0 s

/-! ## The tiles of a pre-empted bed (R89, R98, R350) -/

/-- A tile-table entry as 64 bits (Table 4.4). -/
def tileCode (t : Tile) : BitVec 64 :=
  BitVec.ofNat 64 (t.state.toNat + (if t.poison then 4 else 0) + (if t.bound then 8 else 0) + t.bed.toNat * 2 ^ 4 +
    t.handle.toNat * 2 ^ 6 + t.base.toNat * 2 ^ 16 + t.sizem1.toNat * 2 ^ 30 + t.lock.toNat * 2 ^ 44 +
    (if t.lockv then 2 ^ 49 else 0))

/-- A tile-table entry from 64 bits. -/
def tileDecode (x : BitVec 64) : Tile :=
  let n := x.toNat
  { state := BitVec.ofNat 2 n, poison := x.getLsbD 2, bound := x.getLsbD 3, bed := BitVec.ofNat 2 (n / 2 ^ 4),
    handle := BitVec.ofNat 5 (n / 2 ^ 6), base := BitVec.ofNat 14 (n / 2 ^ 16), sizem1 := BitVec.ofNat 14 (n / 2 ^ 30),
    lock := BitVec.ofNat 5 (n / 2 ^ 44), lockv := x.getLsbD 49 }

/-- A plot block in a bed image: its device address and its saved banks in order. -/
structure Backing where
  at_ : Nat
  banks : List Nat
  deriving DecidableEq, Repr

/-- The plot block that a pre-empted bed's image holds, if it does (Table 17.4). -/
def blockOf (s : State) (x : Bed) : Option Backing :=
  if x.stage ≠ .preempted || !x.savedPlot then none
  else
    x.image.map (fun img =>
      let a := img + (homeDWord s (img + 0x30)).toNat
      { at_ := a, banks := (below 512).filter (fun k => (homeByte s (a + k / 8)).getLsbD (k % 8)) })

/-- The plot block of the beds that were pre-empted together under a name. -/
def groupBacking (s : State) (g : Nat) : Option Backing :=
  s.beds.findSome? (fun x => if x.2.group == g then blockOf s x.2 else none)

/-- The plot block that holds a scratch address of a launch's beds pre-empted from a plot. -/
def launchBacking (s : State) (launch p a : Nat) : Option Backing :=
  (s.beds.findSome? (fun x => if x.2.launch == launch && plotOf x.2.core == p then
    (blockOf s x.2).filter (fun k => k.banks.contains (a / 4096)) else none))

/-- The plot block that holds the banks and tiles of a bed that is pre-empted. -/
def backingOf (s : State) (b : Nat) : Option Backing :=
  match getBed s b with
  | none => none
  | some bd => if bd.stage ≠ .preempted then none else groupBacking s bd.group

/-- Place of a bank among the saved ones. -/
def Backing.rank (k : Backing) (bank : Nat) : Nat := (k.banks.filter (fun x => decide (x < bank))).length

/-- Image address of a scratch byte. -/
def Backing.byte (k : Backing) (a : Nat) : Nat :=
  k.at_ + 64 + 2048 + 16 * k.banks.length + 4096 * k.rank (a / 4096) + a % 4096

/-- An engine's arrival for a launch: a scratch object of beds that are pre-empted stands in their plot block (R98). -/
def arriveFor (s : State) (launch : Nat) (asid : BitVec 16) (plot : Nat) (ref : DWord) (n st engine die ident : Nat) :
    State × Bool :=
  match refSpace ref, launchBacking s launch plot (refScratch ref) with
  | 1, some k =>
    (match arriveAt s { scratch := false, plot := 0, loc := k.byte (refScratch ref) } n st with
     | some s1 => (s1, true)
     | none => (logEvent s 15 die none (BitVec.ofNat 32 (engine + refTag ref * 256)) ident, false))
  | _, _ => engineArrive s asid plot ref n st engine die ident

/-- Image address of the mark byte of a granule. -/
def Backing.mark (k : Backing) (g : Nat) : Nat := k.at_ + 64 + 2048 + 16 * k.rank (g / 128) + g % 128 / 8

/-- Image address of a tile entry. -/
def Backing.tile (k : Backing) (e : Nat) : Nat := k.at_ + 64 + 8 * e

/-- A scratch byte of a copy's bed, in the plot or in the backing. -/
def packByte (s : State) (k : Option Backing) (p a : Nat) : Byte :=
  match k with
  | some x => homeByte s (x.byte a)
  | none => memByte (getPlot s p).scratch a

/-- Its poison mark. -/
def packMark (s : State) (k : Option Backing) (p a : Nat) : Bool :=
  match k with
  | some x => (homeByte s (x.mark (a / 32))).getLsbD (a / 32 % 8)
  | none => mget (getPlot s p).marks (a / 32) false

/-- A scratch byte written. -/
def putPackByte (s : State) (k : Option Backing) (p a : Nat) (x : Byte) : State :=
  match k with
  | some b => homePut s (b.byte a) x
  | none => modPlot s p (fun pl => { pl with scratch := setByte pl.scratch a x })

/-- A granule's mark written. -/
def putPackMark (s : State) (k : Option Backing) (p g : Nat) (q : Bool) : State :=
  match k with
  | some b =>
    let a := b.mark g
    let m : Byte := 1#8 <<< (g % 8)
    homePut s a (if q then homeByte s a ||| m else homeByte s a &&& ~~~m)
  | none => setMark s p g q

/-- The tile entry of a copy. -/
def copyTile (s : State) (k : Option Backing) (p e : Nat) : Tile :=
  match k with
  | some b => tileDecode (homeDWord s (b.tile e))
  | none => mget (getPlot s p).tiles e Tile.reset

/-- It written. -/
def putCopyTile (s : State) (k : Option Backing) (p e : Nat) (t : Tile) : State :=
  match k with
  | some b => setHomeDWord s (b.tile e) (tileCode t)
  | none => setTile s p e t

/-! ## The transfer (R263) -/

/-- A byte to write, by half-bytes: value, which halves, and poison. -/
structure Piece where
  val : Nat
  lo : Bool
  hi : Bool
  poison : Bool
  deriving DecidableEq, Repr

/-- A half or whole byte joins the bytes to write; where two elements name one half, either may remain (R104). -/
def addPiece (t : Nat) (m : Map Piece) (a nib val : Nat) (whole q : Bool) : Map Piece :=
  let old := mget m a { val := 0, lo := false, hi := false, poison := false }
  let lo := whole || nib == 0
  let hi := whole || nib == 1
  let keep := ((lo && old.lo) || (hi && old.hi)) && Config.freeBool (t + a)
  if keep then m
  else
    let x := if whole then val else if nib = 0 then old.val / 16 * 16 + val % 16 else old.val % 16 + val % 16 * 16
    mset m a { val := x, lo := old.lo || lo, hi := old.hi || hi, poison := (if whole then false else old.poison) || q }

/-- An element's bytes join the bytes to write. -/
def addElement (t : Nat) (m : Map Piece) (ebits a nib val : Nat) (q : Bool) : Map Piece :=
  if ebits = 4 then addPiece t m a nib val false q
  else (below (ebits / 8)).foldl (fun m k => addPiece t m (a + k) 0 (val / 256 ^ k % 256) true q) m

/-- What a transfer has gathered. -/
structure Xfer where
  st : State
  bytes : Map Piece
  fault : Option (DWord × Nat)
  violated : Bool
  host : Bool
  poison : Bool
  /-- elements left out after a violation, as packed offsets -/
  missed : List Nat
  deriving DecidableEq, Repr

/-- The VA of a copy's memory access, translated by its core: the name of its word, and whether its page carries SYN. -/
def copyTranslate (x : Xfer) (core : Nat) (asid : BitVec 16) (va : DWord) (op : AccOp) : Option (Nat × Bool) × Xfer :=
  match translateSaving x.st core asid va op with
  | (.inr kind, s1) => (none, { x with st := s1, fault := some (x.fault.getD (va, if kind = 4 then 4 else 5)) })
  | (.inl (.ok pa syn), s1) => (some (nameOf asid va pa, syn), { x with st := s1, host := x.host || decide (Config.hostBase ≤ pa) })
  | (.inl _, s1) => (none, { x with st := s1, violated := true })

/-- The value of an element in memory, at a byte of a word. -/
def readElement (s : State) (core : Nat) (ebits w off nib : Nat) (syn : Bool) (t : Nat) : Nat × Bool × State :=
  let r := readWord s core w syn true true t
  if ebits = 4 then ((byteOf r.1.1 off).toNat / 16 ^ nib % 16, r.1.2, r.2)
  else if ebits ≤ 32 then (r.1.1.toNat / 2 ^ (8 * off) % 2 ^ ebits, r.1.2, r.2)
  else
    let r2 := readWord r.2 core (w + 1) syn true (w % 2 == 1) (t + 1)
    (r.1.1.toNat + r2.1.1.toNat * 2 ^ 32, r.1.2 || r2.1.2, r2.2)

/-- One window element of a COPY gathered for the packed side. -/
def gatherIn (l : Layout) (core : Nat) (asid : BitVec 16) (x : Xfer) (n : Nat) : Xfer :=
  let ws := l.coords n
  let xs := l.tensor ws
  let o := l.offset ws
  let t := salt x.st (2 ^ 20 + 8 * n)
  if l.elemIn xs || l.bound == 1 then
    let a := l.address (l.clamped xs)
    match copyTranslate x core asid a.1 (.load false) with
    | (some (w, syn), y) =>
      let r := readElement y.st core l.ebits w (a.1.toNat % 4) a.2 syn t
      { y with st := r.2.2, bytes := addElement t y.bytes l.ebits o.1 o.2 r.1 r.2.1, poison := y.poison || r.2.1 }
    | (none, y) => { y with missed := o.1 :: y.missed }
  else { x with bytes := addElement t x.bytes l.ebits o.1 o.2 l.fill.toNat false }

/-- One window element of a COPYOUT gathered for memory: keyed by VA. -/
def gatherOut (l : Layout) (k : Option Backing) (p base : Nat) (x : Xfer) (n : Nat) : Xfer :=
  let ws := l.coords n
  let xs := l.tensor ws
  let o := l.offset ws
  if l.elemIn xs then
    let a := l.address xs
    let pb := fun j => (packByte x.st k p (base + o.1 + j)).toNat
    let v := if l.ebits = 4 then pb 0 / 16 ^ o.2 % 16
      else (below (l.ebits / 8)).foldl (fun v j => v + pb j * 256 ^ j) 0
    let q := (below (l.esize)).any (fun j => packMark x.st k p (base + o.1 + j))
    { x with bytes := addElement (salt x.st (2 ^ 21 + 8 * n)) x.bytes l.ebits a.1.toNat a.2 v q, poison := x.poison || q }
  else x

/-- The bytes of a piece over what a place holds. -/
def mergePiece (old : Byte) (b : Piece) : Byte :=
  BitVec.ofNat 8 ((if b.lo then b.val % 16 else old.toNat % 16) + 16 * (if b.hi then b.val / 16 % 16 else old.toNat / 16))

/-- Bytes written to scratch, with the marks of their granules (R97). -/
def putScratchBytes (s : State) (k : Option Backing) (p base : Nat) (m : Map Piece) : State :=
  let s1 := m.foldl (fun s x => putPackByte s k p (base + x.1) (mergePiece (packByte s k p (base + x.1)) x.2)) s
  (dedup (m.map (fun x => (base + x.1) / 32))).foldl (fun s g =>
    let here := m.filter (fun x => (base + x.1) / 32 == g)
    if here.any (fun x => x.2.poison) then putPackMark s k p g true
    else if here.length = 32 then putPackMark s k p g false else s) s1

/-- Device address that stands for byte 0 of the B-store of a pre-empted bed's core: the save area in the image of the lowest
of its launch's beds from that core (R91, Table 17.4). -/
def bsBacking (s : State) (b : Nat) : Option Int :=
  match getBed s b with
  | none => none
  | some bd =>
    if bd.stage ≠ .preempted then none
    else
      match (below 4).findSome? (fun k => s.beds.find? (fun x =>
          x.2.launch == bd.launch && x.2.stage == .preempted && x.2.core == bd.core && x.2.posn == k)) with
      | none => none
      | some (_, x) =>
        match x.image, getLaunch s bd.launch with
        | some img, some l => some (((img + (homeDWord s (img + 0x38)).toNat : Nat) : Int) - ((bsRange l).1 : Int))
        | _, _ => none

/-- Bytes of the B-store of a pre-empted bed written to its save area; a poisoned byte poisons its word. -/
def putBackedBytes (s : State) (zero : Int) (base : Nat) (m : Map Piece) : State :=
  m.foldl (fun s x =>
    let a := (zero + (base + x.1 : Nat)).toNat
    let b := mergePiece (homeByte s a) x.2
    putHome s (a / 4) (1#4 <<< (a % 4)) (BitVec.ofNat 32 (b.toNat * 2 ^ (8 * (a % 4))), x.2.poison)) s

/-- Bytes written to a core's B-store, with the marks of their units (R244). -/
def putBstoreBytes (s : State) (core base : Nat) (m : Map Piece) : State :=
  let s1 := modCore s core (fun c => { c with
    bstore := m.foldl (fun b x => setByte b (base + x.1) (mergePiece (memByte b (base + x.1)) x.2)) c.bstore })
  modCore s1 core (fun c => { c with
    bsPoison := (dedup (m.map (fun x => (base + x.1) / 64))).foldl (fun q u =>
      let here := m.filter (fun x => (base + x.1) / 64 == u)
      if here.any (fun x => x.2.poison) then mput q u true false
      else if here.length = 64 then mput q u false false else q) c.bsPoison })

/-- The words of memory that bytes keyed by VA fall in. -/
def vaWords (m : Map Piece) : List Nat := dedup (m.map (fun x => x.1 / 4))

/-- One word of memory written with its bytes, by the copy's core. -/
def putVaWord (core : Nat) (asid : BitVec 16) (m : Map Piece) (x : Xfer) (w : Nat) : Xfer :=
  let here := m.filter (fun b => b.1 / 4 == w)
  match copyTranslate x core asid (BitVec.ofNat 64 (4 * w)) .store with
  | (none, y) => y
  | (some (name, syn), y) =>
    let whole := here.all (fun b => b.2.lo && b.2.hi)
    let r := if whole then ((0#32, false), y.st) else readWord y.st core name syn true true (salt y.st (2 ^ 22 + w))
    let v := here.foldl (fun (v : Word) b =>
      let k := b.1 % 4
      mergeBytes v (BitVec.ofNat 32 ((mergePiece (byteOf r.1.1 k) b.2).toNat * 2 ^ (8 * k))) (1#4 <<< k)) r.1.1
    let be := here.foldl (fun (e : BitVec 4) b => e ||| (1#4 <<< (b.1 % 4))) 0#4
    { y with st := writeWord y.st core name syn be (v, here.any (fun b => b.2.poison)) }

/-- A transfer that has gathered nothing. -/
def Xfer.start (s : State) : Xfer :=
  { st := s, bytes := [], fault := none, violated := false, host := false, poison := false, missed := [] }

/-- Whether every word of memory that a copy writes translates; what the translation met otherwise. -/
def probeWords (core : Nat) (asid : BitVec 16) (x : Xfer) (ws : List Nat) : Xfer :=
  ws.foldl (fun x w => (copyTranslate x core asid (BitVec.ofNat 64 (4 * w)) .store).2) x

/-- The address space of a launch. -/
def launchAsid (s : State) (l : Nat) : BitVec 16 :=
  match getLaunch s l with
  | some x => x.asid
  | none => 0#16

/-- Everything a transfer reads, and the check of what it writes. -/
def gather (s : State) (c : CopyOp) : Xfer :=
  let l := layoutOf c.record
  let asid := launchAsid s c.launch
  let k := backingOf s c.bed
  let p := plotOf c.core
  if c.out then
    let base := tileBase (copyTile s k p (c.tile.getD 0))
    let x := (below l.count).foldl (gatherOut l k p base) (Xfer.start s)
    probeWords c.core asid x (vaWords x.bytes)
  else
    let x := (below l.count).foldl (gatherIn l c.core asid) (Xfer.start s)
    if l.kind = 2 then probeWords c.core asid x (vaWords (x.bytes.map (fun b => (b.1 + c.packed.toNat, b.2)))) else x

/-- The gathered bytes are written. -/
def deliver (x : Xfer) (c : CopyOp) : State :=
  let s := x.st
  let l := layoutOf c.record
  let asid := launchAsid s c.launch
  let k := backingOf s c.bed
  let p := plotOf c.core
  if c.out then ((vaWords x.bytes).foldl (putVaWord c.core asid x.bytes) { x with bytes := [] }).st
  else
    match l.kind with
    | 0 => putScratchBytes s k p (tileBase (copyTile s k p (c.tile.getD 0))) x.bytes
    | 1 => (match bsBacking s c.bed with
      | some z => putBackedBytes s z c.packed.toNat x.bytes
      | none => putBstoreBytes s c.core c.packed.toNat x.bytes)
    | _ =>
      let m := x.bytes.map (fun b => (b.1 + c.packed.toNat, b.2))
      ((vaWords m).foldl (putVaWord c.core asid m) { x with bytes := [] }).st

/-! ## The end of a copy (R263, R264) -/

/-- A scratch object of a pre-empted bed stands in its backing (R98). -/
def copyBarLoc (s : State) (c : CopyOp) : Option BarLoc :=
  match backingOf s c.bed with
  | some k =>
    if refSpace c.ref = 1 then some { scratch := false, plot := 0, loc := k.byte (refScratch c.ref) }
    else engineLoc s (launchAsid s c.launch) (plotOf c.core) c.ref
  | none => engineLoc s (launchAsid s c.launch) (plotOf c.core) c.ref

/-- The arrival of a copy (R255), a release at plot scope that covers what the copy wrote (R131): the state, and whether it was made or
none was due. -/
def copyArrive (s0 : State) (c : CopyOp) (st : Nat) : State × Bool :=
  if refSpace c.ref = 2 then (s0, true)
  else
    let s := releaseHost s0 (plotOf c.core)
    let ident := match getLaunch s c.launch with
      | some l => l.ident.toNat
      | none => 0
    let log := logEvent s 15 (dieOf c.core) none (BitVec.ofNat 32 ((if c.out then 1 else 0) + refTag c.ref * 256)) ident
    let s1 := if refSpace c.ref = 0 then unsnap s (launchAsid s c.launch) (refVa c.ref) else s
    match copyBarLoc s c with
    | some loc => (match arriveAt s1 loc 1 st with
      | some s1 => (s1, true)
      | none => (log, false))
    | none => (log, false)

/-- Locks, tile, arrival, status: the end of a copy, with FAILED where the transfer failed. -/
def endCopy (s : State) (id : Nat) (c : CopyOp) (poison failed : Bool) : State :=
  let p := plotOf c.core
  let k := backingOf s c.bed
  let s1 := freeLocks { s with copies := mdel s.copies id } p c.locks
  let s2 := match c.tile with
    | some e =>
      let t := copyTile s1 k p e
      let t := if k.isSome then { t with lockv := false, lock := 0#5 } else t
      let s2 := putCopyTile s1 k p e (if c.out then { t with state := 0#2 }
        else { t with state := 2#2, poison := t.poison || poison || failed })
      if c.out then s2 else wakeTiles s2 c.bed
    | none => s1
  let st := (if poison then 2 else 0) + (if failed then 32 else 0)
  let r := copyArrive s2 c st
  match c.op with
  | some op => formGroup r.1 c.bed c.sheaf op (BitVec.ofNat 32 (st + if r.2 then 0 else 128))
  | none => r.1

/-- A failed transfer (R264): what it moved before the failure is open; the granules or units of the rest are poisoned. -/
def failCopy (s : State) (id : Nat) (c : CopyOp) (x : Xfer) (hostError : Bool) : State :=
  let l := layoutOf c.record
  let moved := x.bytes.filter (fun b => Config.freeBool (salt x.st (2 ^ 23 + b.1 % 2 ^ 22)))
  let left := if c.out || l.kind == 2 then []
    else (below l.span).filter (fun o => (mfind moved o).isNone)
  let s1 := deliver { x with bytes := moved } c
  let k := backingOf s1 c.bed
  let p := plotOf c.core
  let s2 := match c.out, l.kind with
    | false, 0 =>
      let base := tileBase (copyTile s1 k p (c.tile.getD 0))
      (dedup (left.map (fun o => (base + o) / 32))).foldl (fun s g => putPackMark s k p g true) s1
    | false, 1 =>
      match bsBacking s1 c.bed with
      | some z => left.foldl (fun s o =>
          let a := (z + (c.packed.toNat + o : Nat)).toNat
          setDram s (a / 4) ((homeWord s (a / 4)).1, true)) s1
      | none => modCore s1 c.core (fun q => { q with
        bsPoison := (dedup (left.map (fun o => (c.packed.toNat + o) / 64))).foldl (fun m u => mput m u true false) q.bsPoison })
    | _, _ => s1
  let ident := match getLaunch s c.launch with
    | some l => l.ident.toNat
    | none => 0
  let s3 := logEvent s2 16 (dieOf c.core) none
    (BitVec.ofNat 32 ((if hostError then 1 else 0) + if c.out then 256 else 0)) ident
  endCopy s3 id c x.poison true

/-- A page fault suspends a transfer and is posted with kind 5 (R264, Table 17.6). -/
def stallCopy (id : Nat) (c : CopyOp) (x : Xfer) (va : DWord) (kind : Nat) : State :=
  let l := getLaunch x.st c.launch
  let i := match l with
    | some l => (l.ident, l.fn, l.asid)
    | none => (0#64, 0, 0#16)
  let place := match getSheaf x.st c.bed c.sheaf with
    | some sh => (sh.place.slot, sh.place.pos)
    | none => (0, 0)
  let t := newToken x.st (.copy id)
  let s1 := postEntry t.2 i.2.1 (faultEntry va i.2.2 kind c.core place.1 place.2 0 i.1 t.1)
  { s1 with copies := mset s1.copies id { c with stalled := some t.1 } }

/-- Runs a copy to its end, to a page fault, or to a failure. -/
def runCopy (s : State) (id : Nat) (c : CopyOp) : State :=
  let x := gather s c
  match x.violated, x.fault with
  | true, _ => due s (.copyTransferFailure id false)
  | false, some _ => due s (.copyPageFault id)
  | false, none => endCopy (deliver x c) id c x.poison false

/-- COPY_COMPLETION (R263). -/
def execCopyCompletion (copy : Nat) (s : State) : Out :=
  match mfind s.copies copy with
  | none => .next s
  | some c => if c.stalled.isSome then .next s else .next (runCopy s copy c)

/-- COPY_TRANSFER_FAILURE (R264): a protection violation, a page fault that the driver failed, or a host error; where there is
none of them by then, the transfer goes on. -/
def execCopyTransferFailure (copy : Nat) (hostError : Bool) (s : State) : Out :=
  match mfind s.copies copy with
  | none => .next s
  | some c =>
    let x := gather s c
    if (if hostError then x.host else c.failed || x.violated) then .next (failCopy s copy c x hostError)
    else .next (if hostError || c.stalled.isSome then s else due s (.copyCompletion copy))

/-- COPY_PAGE_FAULT (R264): where the page has become valid by then, the transfer goes on. -/
def execCopyPageFault (copy : Nat) (s : State) : Out :=
  match mfind s.copies copy with
  | none => .next s
  | some c =>
    if c.stalled.isSome || c.failed then .next s
    else
      let x := gather s c
      match x.fault with
      | some (va, kind) => .next (stallCopy copy c x va kind)
      | none => .next (due s (.copyCompletion copy))

end Sys2Proof.Machine
end

