-- ==== Sys2Proof/Machine/Image.lean ====
section
/-! DEFINITION. The bed image (R50 to R54, R62, R63, R349, R350): where it lies, and how registers, slot state, the accumulator block and
the plot block are written to it and read back. -/

namespace Sys2Proof.Machine

/-! ## Room in the context pool -/

/-- The first page of a run of n free pool pages. -/
def freeRun (s : State) (n : Nat) : Option Nat :=
  let lo := s.hostIf.ctxbase.toNat / 4096
  (upFrom lo (poolPages s)).find? (fun p =>
    decide (p + n ≤ lo + poolPages s) && (upFrom p n).all (fun q => !s.poolUsed.contains q))

/-- n bytes of device memory read as zero and carry no poison. -/
def zeroRange (s : State) (a n : Nat) : State :=
  let out := fun (k w : Nat) => decide ((k + 1) * w ≤ a) || decide (a + n ≤ k * w)
  { s with
    mem := s.mem.filter (fun c => out c.1 1), memPoison := s.memPoison.filter (fun c => out c.1 4),
    home := s.home.filter (fun c => out c.1 4) }

/-- A bed's image, taken from the context pool where it has none yet; none where the pool has no room. -/
def ensureImage (s : State) (b : Nat) : Option (Nat × State) :=
  match getBed s b with
  | none => none
  | some bd =>
    match bd.image with
    | some a => some (a, s)
    | none =>
      let n := (layOf s b).size / 4096
      match freeRun s n with
      | none => none
      | some p =>
        some (4096 * p, modBed (zeroRange { s with poolUsed := upFrom p n ++ s.poolUsed } (4096 * p) (4096 * n)) b
          (fun x => { x with image := some (4096 * p) }))

/-- A bed's image goes back to the pool. -/
def freeImage (s : State) (b : Nat) : State :=
  match getBed s b with
  | none => s
  | some bd =>
    match bd.image with
    | none => s
    | some a =>
      let n := (layOf s b).size / 4096
      modBed { s with poolUsed := s.poolUsed.filter (fun p => decide (p < a / 4096) || decide (a / 4096 + n ≤ p)) } b
        (fun x => { x with image := none })

/-! ## Words and registers in the image -/

/-- A word of device memory written, at a multiple of four. -/
def imgWord (s : State) (a : Nat) (x : Word) : State := homeThrough s (a / 4) 15#4 (x, false)

/-- Words written one after another. -/
def imgWords (s : State) (a : Nat) (xs : List Word) : State :=
  (below xs.length).foldl (fun s k => imgWord s (a + 4 * k) (lget xs k 0#32)) s

/-- A 64-bit value as two words. -/
def dwords (x : DWord) : List Word := [BitVec.ofNat 32 x.toNat, BitVec.ofNat 32 (x.toNat / 2 ^ 32)]

/-- Four bytes packed into each word. -/
def packBytes (xs : List Nat) : List Word :=
  (below (xs.length / 4)).map (fun k =>
    let b := fun j => BitVec.ofNat 8 (lget xs (4 * k + j) 0)
    wordOf (b 0) (b 1) (b 2) (b 3))

/-- The tag code of physical register p in an image: 3 beyond the budget (Table 2.6). -/
def tagCode (sh : Sheaf) (p : Nat) : Nat := if p < sh.place.budget then formCode (vreg sh p).form else 3

/-- The tag of register p in a lane block replaced. -/
def putTag (s : State) (lb p code : Nat) : State :=
  let a := lb + 4 * (p / 16)
  let x := (imgRead s a).toNat
  let k := 4 ^ (p % 16)
  imgWord s a (BitVec.ofNat 32 (x - x / k % 4 * k + code % 4 * k))

/-- The tags of a sheaf's registers written to its lane block, code 3 beyond its budget, and the poison of those whose lines are
not absent (R57). -/
def saveTags (s : State) (lb : Nat) (sh : Sheaf) : State :=
  let s1 := (below 512).foldl (fun s p =>
    if (vreg sh p).line = .absent ∧ p < sh.place.budget then s else putTag s lb p (tagCode sh p)) s
  (below sh.place.budget).foldl (fun s p =>
    if (vreg sh p).line = .absent then s else imgWord s (lb + 0x80 + 4 * p) (vreg sh p).poison) s1

/-- One register written to its slots, with its tag and poison; the slot that its tag does not select holds anything. -/
def saveReg (s : State) (lb : Nat) (sh : Sheaf) (p : Nat) : State :=
  let b := sh.place.budget
  let r := vreg sh p
  let free := fun (n : Nat) => (below n).map (fun k => Config.freeWord (salt s (2 ^ 23 + p * 64 + k)))
  let narrow := match r.form with
    | .u x => [x, 0#32]
    | .a x t => [x, t]
    | .g _ => free 2
  let wide := match r.form with
    | .g vs => vs
    | _ => free 32
  let s1 := imgWord (putTag s lb p (formCode r.form)) (lb + 0x80 + 4 * p) r.poison
  imgWords (imgWords s1 (lb + 0x80 + 4 * b + 8 * p) narrow) (lb + 0x80 + 12 * b + 128 * p) wide

/-- The registers of a sheaf that share a register's line, the register itself among them (R50). -/
def lineRegs (sh : Sheaf) (p : Nat) : List Nat :=
  match (rowMates sh (vreg sh p).row).map (fun r => r.1) with
  | [] => [p]
  | ps => ps

/-- A register's line written to its slots in the image (R52, R366). -/
def writeLine (s : State) (b w img p : Nat) : State :=
  match getSheaf s b w with
  | none => s
  | some sh => (lineRegs sh p).foldl (fun s k => saveReg s (laneBlock s b w img) sh k) s

/-- A register's line leaves the register cache for its slots in the image (R52). -/
def dropLine (s : State) (b w img p : Nat) : State :=
  match getSheaf s b w with
  | none => s
  | some sh =>
    modSheaf (writeLine s b w img p) b w (fun x =>
      { x with v := (lineRegs sh p).foldl (fun v k => mset v k { mget v k VReg.reset with line := .absent }) x.v })

/-- An eviction (R52), counted on the core whose register cache held the line (R61). -/
def evictReg (s : State) (b w img p core : Nat) : State := count (dropLine s b w img p) core 8 1

/-! ## Slot state and group block (Table 17.5, R63) -/

/-- A park state as its byte (R8); a stop of the debugger is an overlay of a thread that has not ended. -/
def parkCode (sh : Sheaf) (i : Nat) : Nat :=
  match parkOf sh i with
  | .done => 5
  | p =>
    if bit sh.stopM i || sh.bedStop then 4
    else
      match p with
      | .run => 0
      | .join k => 1 + 8 * k.toNat
      | .pool => 2
      | .wait _ => 3
      | .done => 5

/-- A record as the words of registers 0x060 to 0x073 in index order; the words of the queue belong to the current one. -/
def recordWords (sh : Sheaf) (r : TrapRec) (current : Bool) : List Word :=
  let own := fun x => x == 0x61 || x == 0x72 || x == 0x73
  (upFrom 0x60 20).map (fun x => if own x && !current then 0#32 else trapReg { sh with record := r } x) ++ copies 12 0#32

/-- The fault-queue form of a log entry (Table 17.6). -/
def logWords (s : State) (b k : Nat) (sh : Sheaf) (e : LogEnt) : List Word :=
  let x := faultEntry (logVa e) (asidOf s b) e.kind sh.place.core sh.place.slot sh.place.pos k (bedIdent s b).1 e.token
  (below 8).map (fun j => BitVec.ofNat 32 (x.toNat / 2 ^ (32 * j)))

/-- The slot state of a sheaf, as offsets and words. -/
def slotWords (s : State) (b : Nat) (sh : Sheaf) (token : Bool) : List (Nat × List Word) :=
  [(0x000, sh.pcs.flatMap dwords),
   (0x100, [sh.on, sh.regionCnt, floatReg sh 0x40, floatReg sh 0x41]),
   (0x110, (below 4).map (fun k => trapReg sh (0x78 + k))),
   (0x120, packBytes (lanes.map (parkCode sh))),
   (0x140, packBytes sh.wb),
   (0x160, packBytes sh.skip),
   (0x180, sh.regionPc.flatMap dwords),
   (0x280, [bitWord sh.handler 0 ||| bitWord token 1]),
   (0x288, dwords sh.hpc),
   (0x300, recordWords sh sh.record true)] ++
  (below 8).map (fun i => (0x380 + 128 * i, match lget (sh.pend.map some) i none with
    | some r => recordWords sh r false
    | none => copies 32 0#32)) ++
  (below 4).map (fun e => (0x800 + 1024 * e, match mfind sh.oplog e with
    | some x => logWords s b e sh x
    | none => copies 8 0#32)) ++
  [(0x1800, (below 32).map (fun r => (vreg sh (512 + r)).poison)),
   (0x1880, (below 32).flatMap (fun r => formVals (vreg sh (512 + r)).form)),
   (0x2880, (below 32).map (fun r => mget sh.g (128 + r) 0#32) ++
     [maskOf (fun r => mget sh.gp (128 + r) false)])]

/-- Where a sheaf's slot state and group block stand. -/
def slotAt (img w : Nat) : Nat := img + 0x1000 + 0x3000 * w

/-- Where a sheaf's group block stands. -/
def groupAt (s : State) (b img w : Nat) : Nat := img + 0x1000 + 0x3000 * (layOf s b).n + 0x400 * w

/-- A sheaf's slot state written. -/
def saveSlot (s : State) (b w img : Nat) (sh : Sheaf) (token : Bool) : State :=
  (slotWords s b sh token).foldl (fun s x => imgWords s (slotAt img w + x.1) x.2) s

/-- The group block of a sheaf (R63). -/
def groupWords (sh : Sheaf) : List Word :=
  (below 128).map (fun n => mget sh.g n 0#32) ++
    (below 4).map (fun k => maskOf (fun i => mget sh.gp (32 * k + i) false)) ++
    (below 16).flatMap (fun k => [jE sh k, jA sh k])

/-- A sheaf's group block written. -/
def saveGroup (s : State) (b w img : Nat) (sh : Sheaf) : State := imgWords s (groupAt s b img w) (groupWords sh)

/-- A group register and its poison as an image holds them. -/
def loadGroup (s : State) (b w img n : Nat) : Word × Bool :=
  let a := groupAt s b img w
  (imgRead s (a + 4 * n), (imgRead s (a + 0x200 + 4 * (n / 32))).getLsbD (n % 32))

/-- A reply to a thread of a pre-empted bed is written into its image (R26). -/
def saveReply (s : State) (b w : Nat) (regs : List Nat) : State :=
  match getBed s b, getSheaf s b w with
  | some bd, some sh =>
    (match bd.stage, bd.image with
     | .preempted, some img =>
       regs.foldl (fun s p => saveReg s (laneBlock s b w img) sh p)
         (imgWords (imgWords s (slotAt img w) (sh.pcs.flatMap dwords)) (slotAt img w + 0x120) (packBytes (lanes.map (parkCode sh))))
     | _, _ => s)
  | _, _ => s

/-- The head of an image (Table 17.4): `plot` and `bs` tell whether these blocks are there. -/
def saveHead (s : State) (b img : Nat) (acc plot : Bool) : State :=
  match getBed s b with
  | none => s
  | some bd =>
    let y := layOf s b
    let bsn := (match launchOf s b with
      | some l => recField l.record 639 608
      | none => 0)
    let at_ := fun (c : Bool) (o : Nat) => dwords (BitVec.ofNat 64 (if c then o else 0))
    imgWords (imgWords s img
      ([1#32, BitVec.ofNat 32 (y.n % 512) ||| bitWord acc 9 ||| bitWord plot 10] ++ dwords (bedIdent s b).1 ++
       [BitVec.ofNat 32 bd.x, BitVec.ofNat 32 bd.y, BitVec.ofNat 32 bd.z, 0#32, bd.lo, bd.hi] ++ at_ acc y.acc ++ at_ plot y.plot ++
       at_ (bsn != 0) y.bs ++ at_ true bsn)) (img + 0x800)
      (y.lanes.flatMap (fun o => dwords (BitVec.ofNat 64 o)))

end Sys2Proof.Machine
end

