-- ==== Sys2Proof/Machine/Coll.lean ====
section
/-! DEFINITION. Collectives (R384 to R401): bindings, arming, the fire record, packets and frames, what a received block does, and
how a collective ends or fails. -/

namespace Sys2Proof.Machine

/-! ## Bindings (Table 16.3) -/

/-- A field of a binding entry. -/
def bindField (e : BitVec 512) (hi lo : Nat) : Nat := bits e.toNat hi lo

/-- KIND of a binding. -/
def bindKind (e : BitVec 512) : Nat := bindField e 7 0

/-- CHUNKB in blocks of 4 KiB. -/
def chunkBlocks (e : BitVec 512) : Nat := bindField e 223 192 / 4096

/-- NCHUNK. -/
def chunkCount (e : BitVec 512) : Nat := bindField e 255 224

/-- Blocks of a source slice. -/
def sliceBlocks (e : BitVec 512) : Nat := chunkCount e * chunkBlocks e

/-- A coded shuffle (R393). -/
def isCoded (e : BitVec 512) : Bool := bindKind e == 3 && e.getLsbD 28

/-- BARREF of a binding. -/
def bindRef (e : BitVec 512) : DWord := BitVec.ofNat 64 (bindField e 447 384)

/-- The ports that lead to the members of a peer group: rank bytes hold the die in [1:0] and the package in [7:2], 0 for this
one; another package is reached through the lowest Amsan port of the group (R398). -/
def groupPorts (g : Peers) : List Nat :=
  g.ranks.map (fun r => if r.toNat / 4 = 0 then r.toNat % 4 else 4 + lowestD (g.ports.setWidth 32))

/-- The ports of a binding's ranks, in order of rank (R385, R398); none for an unknown or unreachable group. -/
def ranksOf (s : State) (e : BitVec 512) : Option (List Nat) :=
  if bindField e 63 48 = 0 then some ((below 4).filter (fun d => e.getLsbD (32 + d)))
  else
    match mfind s.groups (bindField e 63 48) with
    | some g => if g.ranks.any (fun r => r.toNat / 4 ≠ 0) && g.ports == 0#8 then none else some (groupPorts g)
    | none => none

/-- The die port of each rank in its own package. -/
def rankDies (s : State) (e : BitVec 512) (ranks : List Nat) : List Nat :=
  if bindField e 63 48 = 0 then ranks
  else
    match mfind s.groups (bindField e 63 48) with
    | some g => g.ranks.map (fun r => r.toNat % 4)
    | none => ranks

/-- The rank is a die of this package. -/
def isLocal (port : Nat) : Bool := decide (port < 4)

/-- OP, FMT and NCHUNK that Table 19.3 allows for a kind and a number of ranks. -/
def kindOk (e : BitVec 512) (p : Nat) : Bool :=
  let op := bindField e 15 8
  let fmt := bindField e 23 16
  let reduces := decide (op ≤ 2) && (fmt == 0 || fmt == 1 || fmt == 2 || fmt == 6 || fmt == 7)
  match bindKind e with
  | 0 => reduces
  | 1 => reduces && chunkCount e % p == 0
  | 3 => op == 0 && decide (fmt ≤ 13) && chunkCount e % p == 0
  | _ => op == 0 && decide (fmt ≤ 13)

/-- Source VA of a block of a rank (R385). -/
def srcVa (e : BitVec 512) (rank block : Nat) : DWord :=
  BitVec.ofNat 64 (bindField e 127 64 + (rank * sliceBlocks e + block) * 4096)

/-- VA of a block of a destination slice of a rank among p (R385). -/
def dstVa (e : BitVec 512) (p rank block : Nat) : DWord :=
  let d := if bindKind e = 2 then p * sliceBlocks e else sliceBlocks e
  BitVec.ofNat 64 (bindField e 191 128 + (rank * d + block) * 4096)

/-! ## Reading and writing blocks at the home caches (R384) -/

/-- n bytes of an address space and whether any is poisoned; none where a page does not translate. -/
def vaRead (s : State) (asid : BitVec 16) : Nat → DWord → Option (List Byte × Bool)
  | 0, _ => some ([], false)
  | n + 1, va =>
    match translateAt s asid va false, vaRead s asid n (va + 1#64) with
    | some (a, _), some r => some (homeByte s a :: r.1, (homeWord s (a / 4)).2 || r.2)
    | _, _ => none

/-- Bytes written to an address space; none where a page does not take a write. -/
def vaWrite (asid : BitVec 16) : State → DWord → List Byte → Option State
  | s, _, [] => some s
  | s, va, x :: r =>
    match translateAt s asid va true with
    | some (a, _) => vaWrite asid (homePut (noteHome (unsnap s asid va) (a / 4)) a x) (va + 1#64) r
    | none => none

/-! ## Side information (R392) -/

/-- A side entry: rank, block, holder and copy address; none where it breaks R392. -/
def sideEntry (e : BitVec 512) (p : Nat) (x : Nat) : Option (Nat × Nat × Nat × DWord) :=
  let q := bits x 7 0
  let b := bits x 31 8
  let h := bits x 39 32
  if bits x 63 40 ≠ 0 ∨ p ≤ q ∨ p ≤ h ∨ q = h ∨ sliceBlocks e ≤ b ∨ bits x 127 64 % 4096 ≠ 0 then none
  else some (q, b, h, BitVec.ofNat 64 (bits x 127 64))

/-- Entries from a list's bytes; none where one breaks R392 or two are alike. -/
def sideEntries (e : BitVec 512) (p : Nat) (bs : List Byte) : Nat → Option (List (Nat × Nat × Nat × DWord))
  | 0 => some []
  | n + 1 =>
    match sideEntries e p bs n, sideEntry e p (leNat (firstN 16 (afterN (16 * n) bs))) with
    | some xs, some x => if xs.any (fun y => y.1 == x.1 && y.2.1 == x.2.1 && y.2.2.1 == x.2.2.1) then none else some (xs ++ [x])
    | _, _ => none

/-- The side-information list of a coded shuffle: MISSLIM and the entries; none where it breaks R392 or cannot be read. -/
def sideList (s : State) (asid : BitVec 16) (e : BitVec 512) (p : Nat) : Option (Nat × List (Nat × Nat × Nat × DWord)) :=
  let va : DWord := BitVec.ofNat 64 (bindField e 383 320)
  if va = 0#64 ∨ va.toNat % 64 ≠ 0 then none
  else
    match vaBytes s asid 4 va with
    | none => none
    | some h =>
      let x := leNat h
      let n := bits x 15 0
      if n = 0 ∨ 4096 < n ∨ bits x 31 24 ≠ 0 then none
      else
        match vaBytes s asid (16 * n) (va + 64#64) with
        | none => none
        | some bs => (sideEntries e p bs n).map (fun xs => (bits x 23 16, xs))

/-- The status of a coded collective in its side-information header (Table 19.5). -/
def putSide (s : State) (c : Coll) : State :=
  let va : DWord := BitVec.ofNat 64 (bindField c.entry 383 320)
  (vaWrite c.asid s (va + 4#64)
    (natLe 4 c.misses ++ natLe 4 c.resends ++ natLe 4 c.cpkt ++ natLe 4 c.upkt ++ natLe 4 (if c.down then 1 else 0) ++
      natLe 40 0)).getD s

/-! ## Arming (R389, R393, R398, R400) -/

/-- A collective's coding switch: crossing switch 4 or 5 (R382). -/
def codingSwitch (id : Nat) : Nat := 4 + id % 2

/-- The identifier of a launch for the event log. -/
def identOf (s : State) (l : Nat) : Nat :=
  match getLaunch s l with
  | some x => x.ident.toNat
  | none => 0

/-- The die that numbers a collective's events: that of its first rank's port (R421). -/
def collDie (c : Coll) : Nat := let p := lget c.ranks 0 0
  if p < 4 then p else (p - 4) / 2

/-- One binding arms (R389, R393, R400); otherwise the reason of Table 19.4. -/
def armOne (s : State) (launch binding : Nat) (l : Launch) (e : BitVec 512) : Nat ⊕ State :=
  match ranksOf s e with
  | none => .inl 4
  | some ranks =>
    let p := ranks.length
    if p = 0 || !kindOk e p then .inl 5
    else
      let coded := isCoded e
      match (if coded then sideList s l.asid e p else some (0, [])) with
      | none => .inl 5
      | some (lim, sides) =>
        let tree := match mfind s.groups (bindField e 63 48) with
          | some g => bindField e 63 48 != 0 && g.inSwitch && (bindKind e == 0 || bindKind e == 1 || bindKind e == 4)
          | none => false
        let opaque_ := match mfind s.groups (bindField e 63 48) with
          | some g => g.endToEnd
          | none => false
        if tree && opaque_ && e.getLsbD 29 then .inl 1
        else
          let f := fresh s
          let id := (((below 65536).map (fun k => (f.1 + k) % 65536)).find? (fun k => (mfind s.colls k).isNone)).getD 0
          let used := mget s.sideUsed (codingSwitch id) 0
          let full := coded && decide (4096 < used + sides.length)
          let c : Coll :=
            { launch := launch, binding := binding, entry := e, asid := l.asid, level := l.level,
              version := (l.attempts - 1) % 65536, ranks := ranks, dies := rankDies s e ranks,
              mode := if coded && !full then .coded else if tree && !opaque_ then .inSwitch else .endpoint,
              links := match mfind s.groups (bindField e 63 48) with
                | some g => ((below 8).filter (fun k => g.ports.getLsbD k)).map (fun k => 4 + k)
                | none => [],
              mcast := match mfind s.groups (bindField e 63 48) with
                | some g => g.mcast
                | none => 0#32,
              stepNo := 0, running := false, formed := false, blocks := [], tries := 0, accepted := [], staged := [],
              writes := [], sides := if full then [] else sides, missLim := lim, misses := 0, resends := 0, cpkt := 0, upkt := 0, down := full,
              downgraded := full || (tree && opaque_), image := activeImage s 4 }
          let s1 := { f.2 with
            colls := mset s.colls id c, endedColls := mdel s.endedColls id,
            sideUsed := if full || !coded then s.sideUsed else mset s.sideUsed (codingSwitch id) (used + sides.length) }
          let s2 := if coded then putSide s1 c else s1
          let s3 := touch s2 launch (bindRef e) 0 256
          .inr (if c.downgraded then logEvent s3 8 (collDie c) none 0#32 l.ident.toNat else s3)

/-- The bindings of a launch arm in order; the first that does not gives its number and reason. -/
def armFrom (launch : Nat) (l : Launch) : State → Nat → List (BitVec 512) → (Nat × Nat) ⊕ State
  | s, _, [] => .inr s
  | s, k, e :: r =>
    match armOne s launch k l e with
    | .inl why => .inl (k, why)
    | .inr s1 => armFrom launch l s1 (k + 1) r

/-! ## Fields of a packet (Table 19.6) -/

/-- A field of a packet header. -/
def pktField (p : Pkt) (hi lo : Nat) : Nat := bits p.header.toNat hi lo

/-- Tag i of a packet: COLL, RANK, BLOCK and VERSION. -/
def pktTag (p : Pkt) (i : Nat) : Nat × Nat × Nat × Nat :=
  let t := pktField p (127 + 64 * i) (64 + 64 * i)
  (bits t 15 0, bits t 23 16, bits t 47 24, bits t 63 48)

/-- A packet carries a collective's blocks or an answer to one. -/
def carries (id : Nat) (p : Pkt) : Bool :=
  (below (pktField p 5 4 + 1)).any (fun k => (pktTag p k).1 == id)

/-- A packet's bytes, its header first, as a packet. -/
def pktOfBytes (bytes : List Byte) : Pkt :=
  { header := BitVec.ofNat 512 (leNat (firstN 64 bytes)), payload := afterN 64 bytes, dst := [] }

/-! ## The end of a collective (R389, R390) -/

/-- A collective. -/
def getColl (s : State) (id : Nat) : Option Coll := mfind s.colls id

/-- The state with a collective changed. -/
def modColl (s : State) (id : Nat) (f : Coll → Coll) : State :=
  match getColl s id with
  | some c => { s with colls := mset s.colls id (f c) }
  | none => s

/-- Pins and table entries of a collective are freed; its packets under way, which its receivers would discard, go with them
(R389, R390). -/
def freeColl (s : State) (id : Nat) : State :=
  match getColl s id with
  | none => s
  | some c =>
    let sw := codingSwitch id
    { s with
      colls := mdel s.colls id, pins := s.pins.filter (fun p => p.coll != id), pkts := s.pkts.filter (fun p => !carries id p.2),
      sideUsed := if c.sides.isEmpty then s.sideUsed else mset s.sideUsed sw (mget s.sideUsed sw 0 - c.sides.length) }

/-- A collective that fails or whose launch is killed stops sending: its packets that wait for a key go too (R389, R390). -/
def stopColl (s : State) (id : Nat) : State :=
  freeColl { s with held := s.held.filter (fun h => !carries id (pktOfBytes h.2.2)) } id

/-- The destination writes of a collective complete (R389). -/
def flushColl (s : State) (c : Coll) : State := c.writes.foldl (fun s x => (vaWrite c.asid s x.1 x.2).getD s) s

/-- The arrival of a collective, a release at system scope (R255). -/
def collArrive (s : State) (c : Coll) (st : Nat) : State :=
  (engineArrive s c.asid 0 (bindRef c.entry) 1 st 4 (collDie c) (identOf s c.launch)).1

/-- A collective succeeds: its writes complete, a coded one writes its status, and it arrives (R389). -/
def endColl (s : State) (id : Nat) : State :=
  match getColl s id with
  | none => s
  | some c =>
    let s1 := flushColl { freeColl s id with endedColls := mset s.endedColls id c } c
    collArrive (if isCoded c.entry then putSide s1 c else s1) c (if c.downgraded then 16 else 0)

/-- A collective fails for a reason of Table 19.4: it stops, and arrives with FAILED and TRUNCATED (R389). -/
def failColl (s : State) (id why : Nat) : State :=
  match getColl s id with
  | none => s
  | some c =>
    let s1 := logEvent (flushColl (stopColl s id) c) 9 (collDie c) none (BitVec.ofNat 32 why) (identOf s c.launch)
    collArrive (modLaunch s1 c.launch (fun l => { l with
      collFail := match l.collFail with
        | some x => some x
        | none => some (c.binding, why) })) c 33

/-- The collectives of a launch, by name. -/
def collsOf (s : State) (launch : Nat) : List Nat := (s.colls.filter (fun c => c.2.launch == launch)).map (fun c => c.1)

/-- A killed launch's collectives stop without an arrival (R390). -/
def stopColls (s : State) (launch : Nat) : State := (collsOf s launch).foldl stopColl s

/-- The armed collective of a binding. -/
def collOfBind (s : State) (launch binding : Nat) : Option (Nat × Coll) :=
  s.colls.find? (fun c => c.2.launch == launch && c.2.binding == binding)

/-! ## The fire record (R286, R387) -/

/-- Fire indices of a binding: P × NCHUNK. -/
def fireCount (s : State) (e : BitVec 512) : Nat :=
  match ranksOf s e with
  | some r => r.length * chunkCount e
  | none => 0

/-- The key of a fire index in a launch's fire record. -/
def fireKey (binding index : Nat) : Nat := binding * 2 ^ 32 + index

/-- The chunk has been fired by this attempt of the launch. -/
def isFired (l : Launch) (binding index : Nat) : Bool := mget l.fired (fireKey binding index) false

/-- A discarded fire is logged (R387). -/
def discardFire (s : State) (launch index : Nat) : State := logEvent s 13 0 none (BitVec.ofNat 32 index) (identOf s launch)

/-- A chunk is marked as fired; one whose source holds poison is a consuming use: it is not fired, and its launch is killed (R390). -/
def markFired (s : State) (launch binding index : Nat) (e : BitVec 512) : State :=
  let rank := index / chunkCount e
  let chunk := index % chunkCount e
  match getLaunch s launch with
  | none => s
  | some l =>
    match vaRead s l.asid (4096 * chunkBlocks e) (srcVa e rank (chunk * chunkBlocks e)) with
    | some (_, true) => killLaunch s launch 6 none
    | _ => modLaunch s launch (fun l => { l with fired := mset l.fired (fireKey binding index) true })

/-- A fire of a bed's exit reaches the fire record (R387, R286): a second fire of a chunk is skipped. -/
def fireAtExit (s : State) (launch binding index : Nat) : State :=
  match getLaunch s launch with
  | none => s
  | some l =>
    match lget (l.binds.map some) binding none with
    | none => s
    | some e =>
      if fireCount s e ≤ index then discardFire s launch index
      else if isFired l binding index then s
      else if (collOfBind s launch binding).isNone then discardFire s launch index
      else markFired s launch binding index e

/-- What becomes of a COLLFIRE at the fire record: refused, or a state (R286). -/
def fireByWord (s : State) (launch binding index : Nat) : Option State :=
  match getLaunch s launch with
  | none => none
  | some l =>
    match lget (l.binds.map some) binding none with
    | none => none
    | some e =>
      if fireCount s e ≤ index || isFired l binding index then none
      else if (collOfBind s launch binding).isNone then some (discardFire s launch index)
      else some (markFired s launch binding index e)

/-- The chunk of a binding that a bed's coordinates select (Table 16.3): its linear index, or the word of the chunk map. -/
def chunkOfBed (s : State) (l : Launch) (e : BitVec 512) (linear : Nat) : Nat :=
  let map := bindField e 319 256
  if map = 0 then linear
  else
    match vaBytes s l.asid 4 (BitVec.ofNat 64 (map + 4 * linear)) with
    | some bs => leNat bs
    | none => 0xFFFFFFFF

/-- A chunk of a local rank is not fired. -/
def firesMissing (s : State) (c : Coll) : Bool :=
  match getLaunch s c.launch with
  | none => false
  | some l => (below (c.ranks.length * chunkCount c.entry)).any (fun f =>
      isLocal (lget c.ranks (f / chunkCount c.entry) 4) && !isFired l c.binding f)

/-- The last bed has exited: collectives with fires missing fail (R389). -/
def failUnfired (s : State) (launch : Nat) : State :=
  (collsOf s launch).foldl (fun s id =>
    match getColl s id with
    | some c => if firesMissing s c then failColl s id 3 else s
    | none => s) s

/-! ## Blocks and steps (R388) -/

/-- The port of a rank. -/
def portOf (c : Coll) (r : Nat) : Nat := lget c.ranks r 31

/-- The ranks that receive a chunk (Table 19.3). -/
def receivers (c : Coll) (chunk : Nat) : List Nat :=
  let p := c.ranks.length
  if bindKind c.entry = 1 ∨ bindKind c.entry = 3 then [chunk % p] else below p

/-- All blocks of a collective, as source rank, block and destination rank, in the order the model's schedule carries them in every
package.  An external tree gets each rank's block, for the rank that receives the result: its own, where every rank does. -/
def everyBlock (c : Coll) : List (Nat × Nat × Nat) :=
  let every := below c.ranks.length
  (below (sliceBlocks c.entry)).flatMap (fun b =>
    let ds := receivers c (b / chunkBlocks c.entry)
    if c.mode = .inSwitch then every.map (fun q => (q, b, if bindKind c.entry = 1 then lget ds 0 0 else q))
    else ds.flatMap (fun d => every.map (fun q => (q, b, d))))

/-- The blocks of step n of every package: 1,024 at most. -/
def stepAll (c : Coll) (n : Nat) : List (Nat × Nat × Nat) := firstN 1024 (afterN (1024 * n) (everyBlock c))

/-- A block leaves or reaches a die of this package. -/
def isHere (c : Coll) (x : Nat × Nat × Nat) : Bool := isLocal (portOf c x.1) || (c.mode != .inSwitch && isLocal (portOf c x.2.2))

/-- The blocks of step n that leave or reach this package. -/
def stepBlocks (c : Coll) (n : Nat) : List (Nat × Nat × Nat) := (stepAll c n).filter (isHere c)

/-- The number of steps. -/
def stepCount (c : Coll) : Nat := Nat.max 1 (((everyBlock c).length + 1023) / 1024)

/-- The block is sent by this package. -/
def isSent (c : Coll) (b : Block) : Bool := isLocal (portOf c b.rank) && (b.rank != b.dest || c.mode == .inSwitch)

/-- The tag of a block (R391). -/
def blockTag (id : Nat) (c : Coll) (rank block : Nat) : Nat := id + rank * 2 ^ 16 + block * 2 ^ 24 + c.version * 2 ^ 48

/-! ## Packets and frames (R394, R399) -/

/-- A packet header (Table 19.6). -/
def header (kind srcp step seq : Nat) (tags dests : List Nat) (try_ : Nat) : BitVec 512 :=
  BitVec.ofNat 512 (kind + (tags.length - 1) * 2 ^ 4 + srcp * 2 ^ 8 + step % 2 ^ 16 * 2 ^ 16 + seq % 2 ^ 32 * 2 ^ 32 +
    (below 4).foldl (fun n k => n + lget tags k 0 * 2 ^ (64 + 64 * k) + lget dests k 0 % 32 * 2 ^ (320 + 5 * k)) 0 +
    try_ % 256 * 2 ^ 344)

/-- Destination port i of a packet. -/
def pktDest (p : Pkt) (i : Nat) : Nat := pktField p (324 + 5 * i) (320 + 5 * i)

/-- The header keeps to Table 19.6 for its payload; port ids 24 to 31 are reserved (R382). -/
def pktOk (p : Pkt) : Bool :=
  let k := pktField p 3 0
  let n := pktField p 5 4
  (k == 1 || k == 2 || k == 3 || k == 4) && (if k = 2 then n != 0 else n == 0) && pktField p 7 6 == 0 &&
    pktField p 15 13 == 0 && pktField p 343 340 == 0 && pktField p 511 352 == 0 &&
    decide (pktField p 12 8 < 24) &&
    (below 4).all (fun i => (decide (i ≤ n) || pktField p (127 + 64 * i) (64 + 64 * i) == 0) && decide (pktDest p i < 24)) &&
    p.payload.length == (if k = 1 ∨ k = 2 then 4096 else 0)

/-- The key of a direction of an Amsan port. -/
def amsanKey (port : Nat) (out : Bool) : Nat := 2 * port + if out then 1 else 0

/-- A direction of an Amsan port. -/
def getAmsan (s : State) (port : Nat) (out : Bool) : Amsan := mget s.amsan (amsanKey port out) Amsan.reset

/-- The counter of a direction moves on; where it would repeat, the direction stops and a rekey event is raised (R399). -/
def stepCounter (s : State) (port : Nat) (out : Bool) : State :=
  let a := getAmsan s port out
  let last := decide (a.counter = 0xFFFFFFFFFFFFFFFF#64)
  let s1 := { s with amsan := mset s.amsan (amsanKey port out) { a with counter := a.counter + 1#64, stopped := a.stopped || last } }
  if last then logEvent s1 14 (port / 2) none (BitVec.ofNat 32 port) (4 + port) else s1

/-- A packet's bytes leave on an Amsan port for an external multicast group or, with group 0, for one package; or they wait for a
key (R398, R399). -/
def sendFrame (s : State) (port : Nat) (group : Word) (bytes : List Byte) : State :=
  let a := getAmsan s port true
  if !a.keyed || a.stopped then { s with held := s.held ++ [(port, group, bytes)] }
  else stepCounter { s with frames := s.frames ++ [(port, group, amsanSeal a.key a.salt a.counter bytes)] } port true

/-- The Amsan port that a packet of a collective leaves by: any of those to use (R398). -/
def outPort (s : State) (c : Coll) : Nat := lget c.links (Config.freeNat (salt s 5970) % c.links.length) 4 - 4

/-- A packet of a collective is sent to ports: on the trellis to die ports, in one frame to other packages. -/
def sendPkt (s : State) (c : Coll) (h : BitVec 512) (payload : List Byte) (dst : List Nat) : State :=
  let near := dst.filter isLocal
  let f := fresh s
  let s1 := if near.isEmpty then s else { f.2 with pkts := mset f.2.pkts f.1 { header := h, payload := payload, dst := near } }
  if near.length = dst.length then s1
  else sendFrame s1 (outPort s c) (if dst.length = 1 then 0#32 else c.mcast) (natLe 64 h.toNat ++ payload)

/-- The next sequence number of a port. -/
def takeSeq (s : State) (port : Nat) : Nat × State :=
  let n := mget s.portSeq port 0#32
  (n.toNat, { s with portSeq := mset s.portSeq port (n + 1#32) })

/-- The external payload header of a block's part (Table 19.8). -/
def treeHeader (id : Nat) (c : Coll) (block part : Nat) : List Byte :=
  let e := c.entry
  let topk := bindKind e == 4
  let size := if topk then 8 else widthOfCode (bindField e 23 16) / 8
  natLe 32 ((if topk then 2 else 1) + bindField e 15 8 * 2 ^ 8 + bindField e 23 16 * 2 ^ 16 + 2048 / size * 2 ^ 32 +
    bindField e 63 48 * 2 ^ 64 + id * 2 ^ 80 + c.stepNo % 2 ^ 16 * 2 ^ 96 +
    (block % chunkBlocks e * 4096 + part * 2048) * 2 ^ 128)

/-- A block is sent as DATA from its source's port to its destination's; to an external tree in two payloads with their own
headers, filled up to the 4,096 bytes of a payload (R388, R394, R401). -/
def sendData (s : State) (id : Nat) (b : Block) : State :=
  match getColl s id with
  | none => s
  | some c =>
    let port := portOf c b.rank
    let one := fun (s : State) (payload : List Byte) (dst : Nat) =>
      let q := takeSeq s port
      sendPkt q.2 c (header 1 port c.stepNo q.1 [blockTag id c b.rank b.block] [lget c.dies b.dest 0] c.tries) payload [dst]
    if b.data.isEmpty then s
    else if c.mode = .inSwitch then
      (below 2).foldl (fun s k =>
        one s (treeHeader id c b.block k ++ firstN 2048 (afterN (2048 * k) b.data) ++ zeros 2016) 4) s
    else one s b.data (portOf c b.dest)

/-- ACK or NACK of a block of a step of a collective, from a port to another (R388, R396). -/
def answerOf (s : State) (id : Nat) (c : Coll) (step kind rank block from_ dst : Nat) : State :=
  let q := takeSeq s from_
  sendPkt q.2 c (header kind from_ step q.1 [blockTag id c rank block] [lget c.dies rank 0] c.tries) [] [dst]

/-- ACK or NACK of a block of the step in progress. -/
def sendAnswer (s : State) (id : Nat) (kind rank block from_ dst : Nat) : State :=
  match getColl s id with
  | none => s
  | some c => answerOf s id c c.stepNo kind rank block from_ dst

/-! ## What a received block does (R385, R386, R388) -/

/-- One element's reduction (R386). -/
def reduceElem (op fmt : Nat) (xs : List Nat) : Nat :=
  match fmtOfCode fmt with
  | some f =>
    let w := xs.map (fun x => fround fp32 (fdec f x))
    let g := fun a x => match op with
      | 0 => fround fp32 ((fdec fp32 a).add (fdec fp32 x))
      | 1 => fminCode fp32 a x
      | _ => fmaxCode fp32 a x
    fround f (fdec fp32 ((afterN 1 w).foldl g (lget w 0 0)))
  | none =>
    let sg := fmt == 6
    let g := fun a x => match op with
      | 0 => (a + x) % 2 ^ 32
      | 1 => if readInt sg 32 x < readInt sg 32 a then x else a
      | _ => if readInt sg 32 a < readInt sg 32 x then x else a
    (afterN 1 xs).foldl g (lget xs 0 0)

/-- The element-wise reduction of blocks of equal length. -/
def reduceBlocks (e : BitVec 512) (xs : List (List Byte)) : List Byte :=
  let fmt := bindField e 23 16
  let z := widthOfCode fmt / 8
  (below (4096 / z)).flatMap (fun k => natLe z (reduceElem (bindField e 15 8) fmt (xs.map (fun x => leNat (firstN z (afterN (z * k) x))))))

/-- Entries of top-k bytes. -/
def topkEntries (bs : List Byte) : List Entry :=
  (below (bs.length / 8)).map (fun k =>
    { key := BitVec.ofNat 32 (leNat (firstN 4 (afterN (8 * k) bs))),
      payload := BitVec.ofNat 32 (leNat (firstN 4 (afterN (8 * k + 4) bs))), poison := false })

/-- The merge of top-k chunks, one for each rank (Table 19.3). -/
def mergeTopk (xs : List (List Byte)) : List Byte :=
  let n := (lget xs 0 []).length / 8
  (firstN n (sortEntries (xs.flatMap topkEntries))).flatMap (fun e => natLe 4 e.key.toNat ++ natLe 4 e.payload.toNat)

/-- The operand that a receiver holds. -/
def stagedOf (c : Coll) (d q b : Nat) : Option (List Byte) :=
  (c.staged.find? (fun x => x.dest == d && x.rank == q && x.block == b)).map (fun x => x.data)

/-- All of a list of options, where none is missing. -/
def allSome {α : Type} : List (Option α) → Option (List α)
  | [] => some []
  | some a :: r => (allSome r).map (fun t => a :: t)
  | none :: _ => none

/-- A destination write of a collective, where its page takes one; it completes at the collective's end. -/
def destWrite (s : State) (id : Nat) (c : Coll) (va : DWord) (data : List Byte) : Option State :=
  (vaWrite c.asid s va data).map (fun _ => modColl s id (fun c => { c with writes := c.writes ++ [(va, data)] }))

/-- Operands leave staging once their result is formed. -/
def dropStaged (s : State) (id : Nat) (f : Staged → Bool) : State :=
  modColl s id (fun c => { c with staged := c.staged.filter (fun x => !f x) })

/-- Where a staged collective's operands are complete at a destination, its result is written. -/
def settleStaged (s : State) (id : Nat) (c : Coll) (d b : Nat) : Option State :=
  let p := c.ranks.length
  let n := chunkBlocks c.entry
  let chunk := b / n
  if bindKind c.entry = 4 then
    match allSome ((below p).map (fun q => (allSome ((below n).map (fun k => stagedOf c d q (chunk * n + k)))).map (fun xs => xs.flatten))) with
    | some xs => destWrite (dropStaged s id (fun x => x.dest == d && x.block / n == chunk)) id c (dstVa c.entry p d (chunk * n)) (mergeTopk xs)
    | none => some s
  else
    match allSome ((below p).map (fun q => stagedOf c d q b)) with
    | some xs => destWrite (dropStaged s id (fun x => x.dest == d && x.block == b)) id c (dstVa c.entry p d b) (reduceBlocks c.entry xs)
    | none => some s

/-- Blocks of 4 KiB that a port's staging holds: pins and operands (R384). -/
def stagingUsed (s : State) (port : Nat) : Nat :=
  (s.pins.filter (fun p => p.port == port)).length +
    (s.colls.flatMap (fun c => c.2.staged.filter (fun x => x.room && portOf c.2 x.dest == port))).length

/-- Room for one more block in a port's staging of 2,048 blocks: a side pin of a collective of a higher level number leaves for
it, the highest level first and the most recently pinned first (R384, R395). -/
def makeRoom (s : State) (port level : Nat) : Option State :=
  if stagingUsed s port < 2048 then some s
  else
    let lv := fun (p : Pin) => match getColl s p.coll with
      | some c => c.level
      | none => 0
    let victims := s.pins.filter (fun p => p.port == port && p.side && decide (level < lv p))
    let top := victims.foldl (fun n p => Nat.max n (lv p)) 0
    match (victims.filter (fun p => lv p == top)).reverse with
    | v :: _ => some { s with pins := (s.pins.reverse.erase v).reverse }
    | [] => none

/-- An operand is taken: to staging, or to its destination where staging has no room; those of a top-k merge, which waits for whole
chunks, go to their destination (R388). -/
def stageBlock (s : State) (id q b d : Nat) (data : List Byte) : State :=
  match getColl s id with
  | none => s
  | some c =>
    let r := if bindKind c.entry = 4 then none else makeRoom s (portOf c d) c.level
    modColl (r.getD s) id (fun c =>
      { c with staged := c.staged ++ [{ dest := d, rank := q, block := b, data := data, room := r.isSome }] })

/-- A block reaches its destination: moved there, or held with the other operands until their result is formed. -/
def placeBlock (s : State) (id q b d : Nat) (data : List Byte) : Option State :=
  match getColl s id with
  | none => none
  | some c =>
    let e := c.entry
    let p := c.ranks.length
    let n := chunkBlocks e
    if c.mode = .inSwitch then destWrite s id c (dstVa e p d b) data
    else
      match bindKind e with
      | 2 => destWrite s id c (dstVa e p d (q * sliceBlocks e + b)) data
      | 3 => destWrite s id c (dstVa e p d ((q * (chunkCount e / p) + b / n / p) * n + b % n)) data
      | _ =>
        let s1 := stageBlock s id q b d data
        match getColl s1 id with
        | some c1 => settleStaged s1 id c1 d b
        | none => none

/-- Blocks of a destination for which a source's packet still matters: those of the step in progress. -/
def inStep (c : Coll) (q b d : Nat) : Bool := c.running && c.blocks.any (fun x => x.rank == q && x.block == b && x.dest == d)

/-- The block is marked as acknowledged for a destination; a result of an external tree stands for every operand it took. -/
def ackBlock (s : State) (id q b d : Nat) : State :=
  modColl s id (fun c => { c with blocks := c.blocks.map (fun x =>
    if (x.rank == q || (c.mode == .inSwitch && isLocal (portOf c d))) && x.block == b && x.dest == d then { x with acked := true } else x) })

/-- A step whose blocks are all acknowledged ends; the last one ends the collective (R388, R389). -/
def checkStep (s : State) (id : Nat) : State :=
  match getColl s id with
  | none => s
  | some c =>
    if c.running && c.blocks.all (fun b => b.acked) then
      let s1 := modColl { s with pins := s.pins.filter (fun p => p.coll != id) } id (fun c =>
        { c with stepNo := c.stepNo + 1, running := false, formed := false, blocks := [], tries := 0, accepted := [] })
      if stepCount c ≤ c.stepNo + 1 then endColl s1 id else s1
    else s

/-- A receiver takes a block (R388): a tag already accepted is only acknowledged again; the sending port of another die, or the port by
which another package's block or the result of an external tree came, gets an ACK. -/
def acceptBlock (s : State) (id q b d back : Nat) (data : List Byte) : State :=
  match getColl s id with
  | none => s
  | some c =>
    if !inStep c q b d then s
    else
      let ack := fun (s : State) => sendAnswer s id 3 q b (portOf c d) back
      if c.accepted.contains (q, b, d) then ack s
      else
        match placeBlock s id q b d data with
        | none => s
        | some s1 =>
          let s2 := ack (modColl s1 id (fun c => { c with accepted := (q, b, d) :: c.accepted }))
          if isLocal (portOf c q) && c.mode != .inSwitch then s2 else checkStep (ackBlock s2 id q b d) id

/-- A block of a step that is over here, or of a collective that is, for a port of this package: another package that still sends it has
not had its ACK, and gets one again (R388). -/
def ackAgain (s : State) (id : Nat) (c : Coll) (done q b port step back : Nat) : State :=
  if (firstN (1024 * done) (everyBlock c)).any (fun x => x.2.1 == b && portOf c x.2.2 == port &&
      (x.1 == q || (c.mode == .inSwitch && x.2.2 == q))) then answerOf s id c step 3 q b port back
  else s

end Sys2Proof.Machine
end

