-- ==== Sys2Proof/Machine/Collective.lean ====
section
/-! DEFINITION. COLLFIRE (R286) and the events of collectives, coding, peer groups and Amsan links (R382 to R402). -/

namespace Sys2Proof.Machine

/-! ## Fires -/

/-- COLLFIRE (R286): a release at system scope, then the fire; one that the fire record refuses is a queue fault. -/
def execCollfire (a b : BitVec 7) (s : State) : Out :=
  groupOp s (fun c sh m =>
    if poisonG s c sh [rn a, rn b] then poisonUse s c sh m
    else
      let s1 := releaseAt s sh.place.core 5
      match fireByWord s1 (launchKey s c.bed) (rdG s c sh (rn a)).toNat (rdG s c sh (rn b)).toNat with
      | some s2 => done s2 c sh
      | none => queueFault s1 c sh)

/-- COLLECTIVE_FIRE (R387): a fire reaches the fire record; a refused one of a sheaf's COLLFIRE is its queue fault (R286). -/
def execCollectiveFire (launch binding : Nat) (index : BitVec 32) (bed : Nat) (sheaf : Option Nat) (s : State) : Out :=
  match sheaf with
  | none => .next (fireAtExit s launch binding index.toNat)
  | some w =>
    match fireByWord s launch binding index.toNat, getSheaf s bed w with
    | some s1, _ => .next s1
    | none, some sh =>
      let pc := lget sh.pcs (lowestD (runMask sh)) 0#64
      let m := runMask sh &&& maskOf (fun i => lget sh.pcs i 0#64 == pc)
      .next (takeTrap s bed w (trapRecord sh (plainTrap 12) pc pc m 0#32 0#32 true false false))
    | none, none => .next s

/-! ## Steps -/

/-- A block pinned at a port, where there is room. -/
def pinBlock (level : Nat) (s : State) (p : Pin) : Option State :=
  (makeRoom s p.port level).map (fun s1 => { s1 with pins := s1.pins ++ [p] })

/-- A block of a step with the bytes its sender keeps (R388), and whether they are poisoned. -/
def loadBlock (s : State) (c : Coll) (x : Nat × Nat × Nat) : Block × Bool :=
  let r := if isLocal (portOf c x.1) then vaRead s c.asid 4096 (srcVa c.entry x.1 x.2.1) else none
  ({ rank := x.1, block := x.2.1, dest := x.2.2, data := (r.map (fun y => y.1)).getD [], acked := false },
   (r.map (fun y => y.2)).getD false)

/-- Every fire that a step's blocks depend on has been made (R388). -/
def stepReady (s : State) (c : Coll) : Bool :=
  match getLaunch s c.launch with
  | none => false
  | some l => !c.running && decide (c.stepNo < stepCount c) &&
      (stepBlocks c c.stepNo).all (fun x =>
        !isLocal (portOf c x.1) || isFired l c.binding (x.1 * chunkCount c.entry + x.2.1 / chunkBlocks c.entry))

/-- The pins of a step: a rank's own sent blocks and the side blocks listed for it (R395), also those that two other packages exchange. -/
def pinStep (s : State) (id : Nat) (c : Coll) (bs : List Block) : Option State :=
  let own := dedup ((bs.filter (isSent c)).map (fun b => b.rank * 2 ^ 24 + b.block))
  let s1 := own.foldl (fun (s : Option State) k =>
    match s, bs.find? (fun b => b.rank * 2 ^ 24 + b.block == k) with
    | some s, some b => pinBlock c.level s { port := portOf c b.rank, coll := id, rank := b.rank, block := b.block, side := false, data := b.data }
    | _, _ => none) (some s)
  s1.map (fun s1 => c.sides.foldl (fun s x =>
    if isLocal (portOf c x.2.2.1) && (stepAll c c.stepNo).any (fun b => b.1 == x.1 && b.2.1 == x.2.1) then
      match vaRead s c.asid 4096 x.2.2.2 with
      | some (data, _) =>
        (pinBlock c.level s { port := portOf c x.2.2.1, coll := id, rank := x.1, block := x.2.1, side := true, data := data }).getD s
      | none => s
    else s) s1)

/-- The blocks of a step that stay on their die are copied by its port processor (R393). -/
def copyLocal (s : State) (id : Nat) (bs : List Block) : State :=
  bs.foldl (fun s b =>
    match getColl s id with
    | none => s
    | some c =>
      if b.rank == b.dest && c.mode != .inSwitch && isLocal (portOf c b.rank) && !b.data.isEmpty then
        match placeBlock s id b.rank b.block b.dest b.data with
        | some s1 => modColl (ackBlock s1 id b.rank b.block b.dest) id (fun c =>
            { c with accepted := (b.rank, b.block, b.dest) :: c.accepted })
        | none => s
      else s) s

/-- STEP_START (R388): sources are read, blocks are pinned, local blocks are copied, and uncoded blocks are sent. -/
def execStepStart (coll : Nat) (s : State) : Out :=
  match getColl s coll with
  | none => .next s
  | some c =>
    if !stepReady s c then .next s
    else
      let xs := (stepBlocks c c.stepNo).map (loadBlock s c)
      if xs.any (fun x => x.2) then .next (killLaunch s c.launch 6 none)
      else
        let bs := xs.map (fun x => x.1)
        match pinStep s coll c bs with
        | none => .next s
        | some s1 =>
          let coded := c.mode == .coded
          let s2 := modColl s1 coll (fun c => { c with running := true, formed := !coded, blocks := bs, accepted := [] })
          let s3 := copyLocal s2 coll bs
          let s4 := if coded then s3 else (bs.filter (isSent c)).foldl (fun s b => sendData s coll b) s3
          .next (checkStep s4 coll)

/-! ## Coding (R393, R396) -/

/-- A rank holds a block (R393). -/
def rankHolds (c : Coll) (h q b : Nat) : Bool := h == q || c.sides.any (fun x => x.1 == q && x.2.1 == b && x.2.2.1 == h)

/-- A block may join a group of a coded packet. -/
def joinsGroup (c : Coll) (group : List Block) (y : Block) : Bool :=
  decide (group.length < 4) && group.all (fun x =>
    x.dest != y.dest && rankHolds c y.dest x.rank x.block && rankHolds c x.dest y.rank y.block)

/-- The groups of R393, over blocks in ascending order; `fuel` is their number. -/
def groupsOf (c : Coll) : Nat → List Block → List (List Block)
  | 0, _ => []
  | _, [] => []
  | n + 1, x :: r =>
    let g := r.foldl (fun g y => if joinsGroup c g y then g ++ [y] else g) [x]
    g :: groupsOf c n (r.filter (fun y => !g.contains y))

/-- A block put in its place by rank and block number. -/
def insertBlock (x : Block) : List Block → List Block
  | [] => [x]
  | y :: r => if decide (x.rank < y.rank) || (x.rank == y.rank && decide (x.block < y.block)) then x :: y :: r else y :: insertBlock x r

/-- A group sent by the coding switch, or by the egress port: one DATA packet, or one CODED packet to the members' destinations. -/
def sendGroup (s : State) (id : Nat) (g : List Block) : State :=
  match getColl s id, g with
  | some c, [b] => modColl (sendData s id b) id (fun c' => { c' with upkt := c'.upkt + if isLocal (portOf c b.dest) then 1 else 0 })
  | some c, b :: r =>
    let port := portOf c b.rank
    let q := takeSeq s port
    let h := header 2 port c.stepNo q.1 (g.map (fun x => blockTag id c x.rank x.block)) (g.map (fun x => lget c.dies x.dest 0)) c.tries
    modColl (sendPkt q.2 c h (r.foldl (fun acc x => xorBytes acc x.data) b.data) (g.map (fun x => portOf c x.dest))) id
      (fun c => { c with cpkt := c.cpkt + 1 })
  | _, _ => s

/-- PACKET_FORMING (R393, R398): the coding switch groups a step's blocks for the dies of this package, the egress port those for
the external multicast group; after a downgrade each goes as DATA. -/
def execPacketForming (coll : Nat) (s : State) : Out :=
  match getColl s coll with
  | none => .next s
  | some c =>
    if !c.running || c.formed then .next s
    else
      let bs := (c.blocks.filter (fun b => isSent c b && !b.data.isEmpty)).foldl (fun acc x => insertBlock x acc) []
      let near := bs.filter (fun b => isLocal (portOf c b.dest))
      let far := bs.filter (fun b => !isLocal (portOf c b.dest))
      let gs := if c.down then bs.map (fun b => [b]) else groupsOf c near.length near ++ groupsOf c far.length far
      .next (gs.foldl (fun s g => sendGroup s coll g) (modColl s coll (fun c => { c with formed := true })))

/-! ## Packets that arrive -/

/-- The channel of a packet (Table 19.2). -/
def channelOf (p : Pkt) : Nat := if pktField p 3 0 ≤ 2 then 3 else 4

/-- Packets of one channel from one port to another arrive in order (R383): none before this one is under way. -/
def pktDue (s : State) (k port : Nat) (p : Pkt) : Bool :=
  !(s.pkts.any (fun x =>
    decide (x.1 < k) && pktField x.2 12 8 == pktField p 12 8 && x.2.dst.contains port && channelOf x.2 == channelOf p))

/-- A packet has reached one of its ports. -/
def pktReached (s : State) (k port : Nat) (p : Pkt) : State :=
  let left := p.dst.erase port
  { s with pkts := if left.isEmpty then mdel s.pkts k else mset s.pkts k { p with dst := left } }

/-- The armed collective that a tag names, at the tag's version (R390, R391). -/
def tagColl (s : State) (t : Nat × Nat × Nat × Nat) : Option Coll :=
  match getColl s t.1 with
  | some c => if c.version = t.2.2.2 then some c else none
  | none => none

/-- The destination rank of a block at a port, in the step in progress. -/
def destAt (c : Coll) (q b port : Nat) : Option Nat :=
  (c.blocks.find? (fun x => x.block == b && (x.rank == q || c.mode == .inSwitch) && portOf c x.dest == port)).map (fun x => x.dest)

/-- A tag names a block of the step in progress for a port of this package: dies of several packages may bear one number. -/
def awaits (s : State) (t : Nat × Nat × Nat × Nat) (port : Nat) : Bool :=
  match tagColl s t with
  | some c => (destAt c t.2.1 t.2.2.1 port).isSome
  | none => false

/-- DATA (R388): the receiver takes the block. -/
def execData (pkt : Nat) (s : State) : Out :=
  match mfind s.pkts pkt with
  | none => .next s
  | some p =>
    let port := lget p.dst 0 0
    if pktField p 3 0 ≠ 1 ∨ pktDue s pkt port p = false then .next s
    else
      let s1 := pktReached s pkt port p
      let t := pktTag p 0
      let back := pktField p 12 8
      match tagColl s1 t with
      | none =>
        (match mfind s1.endedColls t.1 with
         | some c =>
           .next (if c.version = t.2.2.2 then ackAgain s1 t.1 c (stepCount c) t.2.1 t.2.2.1 port (pktField p 31 16) back else s1)
         | none => .next s1)
      | some c =>
        match destAt c t.2.1 t.2.2.1 port with
        | none => .next (ackAgain s1 t.1 c c.stepNo t.2.1 t.2.2.1 port (pktField p 31 16) back)
        | some d =>
          .next (acceptBlock s1 t.1 (if c.mode = .inSwitch then d else t.2.1) t.2.2.1 d back p.payload)

/-- PDTEST of a port drops a side pin that a packet needs, and disarms (R397). -/
def testEviction (s : State) (id port : Nat) (c : Coll) (others : List (Nat × Nat × Nat × Nat)) : State :=
  let x := (mget s.pdtest port 0#64).toNat
  let q := bits x 7 0
  let b := bits x 31 8
  if bits x 32 32 = 1 && others.any (fun t => t.2.1 == q && t.2.2.1 == b) &&
      c.sides.any (fun e => e.1 == q && e.2.1 == b && portOf c e.2.2.1 == port) then
    { s with
      pins := s.pins.filter (fun p => !(p.port == port && p.coll == id && p.rank == q && p.block == b && p.side)),
      pdtest := mset s.pdtest port (BitVec.ofNat 64 (x % 2 ^ 32)) }
  else s

/-- A decode miss is counted; past the limit the collective runs uncoded (R393, R396). -/
def countMiss (s : State) (id : Nat) : State :=
  match getColl s id with
  | none => s
  | some c =>
    let tooMany := decide (c.missLim < c.misses + 1)
    let s1 := modColl s id (fun c => { c with misses := c.misses + 1, down := c.down || tooMany, downgraded := c.downgraded || tooMany })
    if tooMany && !c.down then logEvent s1 8 (collDie c) none (BitVec.ofNat 32 (c.misses + 1)) (identOf s c.launch) else s1

/-- CODED (R396): the receiver cancels the blocks it holds, or counts a miss and sends a NACK. -/
def execCoded (pkt port : Nat) (s : State) : Out :=
  match mfind s.pkts pkt with
  | none => .next s
  | some p =>
    if pktField p 3 0 ≠ 2 ∨ p.dst.contains port = false ∨ pktDue s pkt port p = false then .next s
    else
      let s1 := pktReached s pkt port p
      let n := pktField p 5 4 + 1
      match (below n).find? (fun i => pktDest p i == port && awaits s1 (pktTag p i) port) with
      | none => .next s1
      | some i =>
        let t := pktTag p i
        match tagColl s1 t with
        | none => .next s1
        | some c =>
          let others := ((below n).filter (fun j => j != i)).map (pktTag p)
          let s2 := testEviction s1 t.1 port c others
          let held := others.map (fun o => (s2.pins.find? (fun x => x.port == port && x.coll == t.1 && x.rank == o.2.1 && x.block == o.2.2.1)).map (fun x => x.data))
          match destAt c t.2.1 t.2.2.1 port with
          | none => .next s2
          | some d =>
            match allSome held with
            | some xs => .next (acceptBlock s2 t.1 t.2.1 t.2.2.1 d (portOf c t.2.1) (xs.foldl xorBytes p.payload))
            | none => .next (sendAnswer (countMiss s2 t.1) t.1 4 t.2.1 t.2.2.1 port (portOf c t.2.1))

/-- A rank's packets come from its die port, or by a link to its package. -/
def comesFrom (c : Coll) (r port : Nat) : Bool :=
  if isLocal (portOf c r) then portOf c r == port else c.links.contains port

/-- The collective and the block of a NACK: one not acknowledged yet, or else one that is, which the source sends again too (R396). -/
def asked (s : State) (p : Pkt) : Option (Nat × Coll × Block) :=
  let t := pktTag p 0
  match tagColl s t with
  | none => none
  | some c =>
    let mine : List Block := c.blocks.filter (fun b => b.rank == t.2.1 && b.block == t.2.2.1 && comesFrom c b.dest (pktField p 12 8))
    (match mine.find? (fun (b : Block) => !b.acked) with
     | some b => some b
     | none => mine.head?).map (fun b => (t.1, c, b))

/-- ACK: its collective and the block it names for its sender. -/
def answered (s : State) (p : Pkt) : Option (Nat × Coll × Block) :=
  let t := pktTag p 0
  match tagColl s t with
  | none => none
  | some c =>
    (c.blocks.find? (fun b => b.rank == t.2.1 && b.block == t.2.2.1 && comesFrom c b.dest (pktField p 12 8) && !b.acked)).map
      (fun b => (t.1, c, b))

/-- ACK (R388): the sender records the block; a step ends with its last one. -/
def execAck (pkt : Nat) (s : State) : Out :=
  match mfind s.pkts pkt with
  | none => .next s
  | some p =>
    let port := lget p.dst 0 0
    if pktField p 3 0 ≠ 3 ∨ pktDue s pkt port p = false then .next s
    else
      let s1 := pktReached s pkt port p
      match answered s1 p with
      | none => .next s1
      | some (id, _, b) => .next (checkStep (ackBlock s1 id b.rank b.block b.dest) id)

/-- NACK (R396): the source sends the block again as DATA. -/
def execNack (pkt : Nat) (s : State) : Out :=
  match mfind s.pkts pkt with
  | none => .next s
  | some p =>
    let port := lget p.dst 0 0
    if pktField p 3 0 ≠ 4 ∨ pktDue s pkt port p = false then .next s
    else
      let s1 := pktReached s pkt port p
      match asked s1 p with
      | none => .next s1
      | some (id, _, b) =>
        .next (modColl (sendData s1 id b) id (fun c =>
          { c with resends := c.resends + 1, upkt := c.upkt + if isLocal (portOf c b.dest) then 1 else 0 }))

/-- STEP_TIMEOUT (R388): every unacknowledged block is sent again uncoded, up to RETRY times; then the collective fails. -/
def execStepTimeout (coll : Nat) (s : State) : Out :=
  match getColl s coll with
  | none => .next s
  | some c =>
    if !c.running then .next s
    else if bindField c.entry 27 24 ≤ c.tries then .next (failColl s coll 2)
    else
      let again := c.blocks.filter (fun b => isSent c b && !b.acked)
      let near := again.filter (fun b => isLocal (portOf c b.dest))
      let s1 := modColl s coll (fun c =>
        { c with tries := c.tries + 1, formed := true, upkt := if c.mode = .coded then c.upkt + near.length else c.upkt })
      .next (checkStep (again.foldl (fun s b => sendData s coll b) (copyLocal s1 coll (c.blocks.filter (fun b => !b.acked)))) coll)

/-- DAMAGED_FLIT (R383): the hop's link layer sends the flit again, which affects only timing. -/
def execDamagedFlit (_pkt : Nat) (s : State) : Out := .next s

/-! ## Tests, peer groups and links -/

/-- PDTEST_WRITE (R397): the register of a die port; bits [63:33] are reserved. -/
def execPdtestWrite (port : Nat) (value : BitVec 64) (s : State) : Out :=
  if port < 4 then .next { s with pdtest := mset s.pdtest port (BitVec.ofNat 64 (value.toNat % 2 ^ 33)) } else .next s

/-- PEER_GROUP_REGISTRATION (R398): handle 0 means no group, and a group has 256 ranks at most.  While only the mailbox answers, nothing is
registered (R411; log 91). -/
def execPeerGroupRegistration (handle : BitVec 16) (ranks : List (BitVec 8)) (ports : BitVec 8) (mcast : BitVec 32)
    (inSwitch endToEnd : Bool) (s : State) : Out :=
  if !s.powered || s.mgmt.mailboxOnly then .next s
  else if handle = 0#16 ∨ ranks.isEmpty = true ∨ 256 < ranks.length then .next s
  else
    let g : Peers := { ranks := ranks, ports := ports, mcast := mcast, inSwitch := inSwitch, endToEnd := endToEnd }
    .next { s with groups := mset s.groups handle.toNat g }

/-- AMSAN_KEY_INSTALL (R399): a new key starts its counter at 0; what waited for it is sent. -/
def execAmsanKeyInstall (port : Nat) (out : Bool) (key : BitVec 256) (salt : BitVec 32) (s : State) : Out :=
  if 8 ≤ port then .next s
  else
    let a := { getAmsan s port out with keyed := true, key := key, salt := salt, counter := 0#64, stopped := false }
    let s1 := { s with amsan := mset s.amsan (amsanKey port out) a }
    if out then
      let mine := s1.held.filter (fun h => h.1 == port)
      .next (mine.foldl (fun s h => sendFrame s port h.2.1 h.2.2) { s1 with held := s1.held.filter (fun h => h.1 != port) })
    else .next s1

/-- A frame or a packet that an Amsan port drops is logged. -/
def dropFrame (s : State) (port : Nat) : State := logEvent s 14 (port / 2) none (BitVec.ofNat 32 port) (4 + port)

/-- AMSAN_FRAME (R399): a frame that fails authentication is dropped, counted and logged; otherwise its packet goes on. -/
def execAmsanFrame (port : Nat) (frame : List (BitVec 8)) (s : State) : Out :=
  if 8 ≤ port then .next s
  else
    let a := getAmsan s port false
    match (if a.keyed && !a.stopped then amsanOpen a.key a.salt a.counter frame else none) with
    | none =>
      let s1 := { s with amsan := mset s.amsan (amsanKey port false) { a with failed := a.failed + 1 } }
      .next (dropFrame (if a.keyed && !a.stopped then stepCounter s1 port false else s1) port)
    | some bytes =>
      let s1 := stepCounter s port false
      let p := pktOfBytes bytes
      let dst := ((below (pktField p 5 4 + 1)).map (pktDest p)).filter isLocal
      if !pktOk p || bytes.length < 64 then .next (dropFrame s1 port)
      else
        let n := p.header.toNat
        let q : Pkt := { p with header := BitVec.ofNat 512 (n - bits n 12 8 * 2 ^ 8 + (4 + port) * 2 ^ 8), dst := dst }
        let f := fresh s1
        .next (if dst.isEmpty then s1 else { f.2 with pkts := mset f.2.pkts f.1 q })

end Sys2Proof.Machine
end

