-- ==== Sys2Proof/Machine/NearOps.lean ====
section
/-! DEFINITION. What bank engines share (chapter 6): DRAM as a batch sees it (R132, R166, R167), the distance unit (R144 to R147),
heaps (R148, R149), messages (R161, R162), contexts and their faults (R142, R169), and the commit of a batch (R168). -/

namespace Sys2Proof.Machine

/-! ## Batches: what a context reads and writes (R166, R167) -/

/-- A search by its name. -/
def getSearch (s : State) (q : Nat) : Option Search := mfind s.searches q

/-- The state with a search changed; unchanged where there is none. -/
def modSearch (s : State) (q : Nat) (f : Search → Search) : State :=
  match getSearch s q with
  | some x => { s with searches := mset s.searches q (f x) }
  | none => s

/-- A batch of calls by its name. -/
def getBatch (s : State) (b : Nat) : Option Batch := mfind s.batches b

/-- The state with a batch of calls changed; unchanged where there is none. -/
def modBatch (s : State) (b : Nat) (f : Batch → Batch) : State :=
  match getBatch s b with
  | some x => { s with batches := mset s.batches b (f x) }
  | none => s

/-- The search that a context runs for. -/
def CtxKind.qid (k : CtxKind) : Option Nat :=
  match k with
  | .setup q => some q
  | .walker q => some q
  | .request q => some q
  | .nmcall _ => none

/-- What the batch of a context holds. -/
def holdOf (s : State) (k : CtxKind) : Hold :=
  match k with
  | .nmcall b => (match getBatch s b with
    | some x => x.hold
    | none => Hold.reset)
  | .setup q => (match getSearch s q with
    | some x => x.hold
    | none => Hold.reset)
  | .walker q => (match getSearch s q with
    | some x => x.hold
    | none => Hold.reset)
  | .request q => (match getSearch s q with
    | some x => x.hold
    | none => Hold.reset)

/-- The state with it changed. -/
def modHold (s : State) (k : CtxKind) (f : Hold → Hold) : State :=
  match k with
  | .nmcall b => modBatch s b (fun x => { x with hold := f x.hold })
  | .setup q => modSearch s q (fun x => { x with hold := f x.hold })
  | .walker q => modSearch s q (fun x => { x with hold := f x.hold })
  | .request q => modSearch s q (fun x => { x with hold := f x.hold })

/-- The address space of a batch (R288). -/
def ctxAsid (s : State) (k : CtxKind) : BitVec 16 :=
  match k with
  | .nmcall b => (match getBatch s b with
    | some x => x.asid
    | none => 0#16)
  | .setup q => (match getSearch s q with
    | some x => x.asid
    | none => 0#16)
  | .walker q => (match getSearch s q with
    | some x => x.asid
    | none => 0#16)
  | .request q => (match getSearch s q with
    | some x => x.asid
    | none => 0#16)

/-- A number joins a list without repeats. -/
def addOnce (x : Nat) (l : List Nat) : List Nat := if l.contains x then l else x :: l

/-- The granule of an address (R167). -/
def granuleOf (pa : Nat) : Nat := pa / 64

/-- The bank engine that serves an address (R424). -/
def engineOf (pa : Nat) : Nat := 64 * stackOf pa + pa / 2 ^ 12 % 64

/-- The die of a bank engine or a search controller (R421). -/
def dieOfEngine (e : Nat) : Nat := e / 64 / 3

/-- Physical addresses of n bytes of an address space in device memory; none where one does not translate, lies in host memory,
or may not be written. -/
def nearAddrs (s : State) (asid : BitVec 16) (write : Bool) : Nat → DWord → Option (List Nat)
  | 0, _ => some []
  | n + 1, va =>
    match translateAt s asid va write, nearAddrs s asid write n (va + 1#64) with
    | some (pa, false), some r => some (pa :: r)
    | _, _ => none

/-- A byte with its poison, as a batch sees it: its own held writes over what an engine reads (R132, R133). -/
def nearByte (s : State) (h : Hold) (pa : Nat) : Byte × Bool :=
  match mfind h.writes pa with
  | some x => (x, false)
  | none => let x := engineWord s (pa / 4)
    (byteOf x.1 (pa % 4), x.2)

/-- A batch reads n bytes: the bytes and whether any is poisoned; its read signature takes their granules (R167). -/
def nearRead (s : State) (k : CtxKind) (n : Nat) (va : DWord) : Option (List Byte × Bool) × State :=
  match nearAddrs s (ctxAsid s k) false n va with
  | none => (none, s)
  | some as =>
    let h := holdOf s k
    let bs := as.map (nearByte s h)
    (some (bs.map (fun x => x.1), bs.any (fun x => x.2)),
     modHold s k (fun h => { h with reads := as.foldl (fun l a => addOnce (granuleOf a) l) h.reads }))

/-- A batch writes bytes, held until it commits (R166). -/
def nearWrite (s : State) (k : CtxKind) (as : List Nat) (bs : List Byte) : State :=
  modHold s k (fun h =>
    { h with
      writes := (as.zip bs).foldl (fun m x => mset m x.1 x.2) h.writes,
      wgran := as.foldl (fun l a => addOnce (granuleOf a) l) h.wgran })

/-! ## The distance unit (R144 to R147) -/

/-- Bytes of a vector of n elements for a metric and a format code (Table 6.2). -/
def vectorBytes (metric fmt n : Nat) : Nat :=
  if metric = 3 then (n + 7) / 8 else if metric = 4 then n else n * widthOfCode fmt / 8

/-- Bytes of a query (R147, R156). -/
def queryBytes (metric fmt n : Nat) : Nat := if metric = 4 then 512 * n else vectorBytes metric fmt n

/-- Element i of a vector. -/
def vectorElement (fmt : Nat) (v : List Byte) (i : Nat) : Val :=
  let w := widthOfCode fmt / 8
  elementVal fmt (leNat ((below w).map (fun k => lget v (w * i + k) 0#8)))

/-- A sum under R72 with w = 32 from +0.0: its FP32 code, and whether a finite accumulator left FP32. -/
def distAcc : Nat → Nat → Bool → List Val → Nat × Bool
  | 0, acc, o, _ => (acc, o)
  | _ + 1, acc, o, [] => (acc, o)
  | n + 1, acc, o, ps =>
    let next := accGroup acc (firstN 32 ps)
    let grew := !badCode fp32 acc && !(sumVals (firstN 32 ps)).nonfinite && badCode fp32 next
    distAcc n next (o || grew) (afterN 32 ps)

/-- The sum of all terms of a list. -/
def distSum (ts : List Val) : Nat × Bool := distAcc (ts.length / 32 + 1) 0 false ts

/-- DIST's result: the FP32 code and the status EMPTY, ZERO-NORM, OVERFLOW, NONFINITE in bits 0 to 3 (R146). -/
structure Dist where
  code : Nat
  status : Nat
  deriving DecidableEq, Repr

/-- 1.0 in FP32. -/
def one32 : Nat := 0x3F800000

/-- The status bits of a sum. -/
def distStatus (overflow nonfinite : Bool) : Nat := (if overflow then 4 else 0) + (if nonfinite then 8 else 0)

/-- COS of three sums, each step rounded to FP32 (R145). -/
def cosine (ip qq xx : Nat) : Nat :=
  let f := fdec fp32
  let den := fround fp32 (f (fround fp32 ((f qq).mul (f xx)))).sqrt
  fround fp32 ((f one32).add (f (fround fp32 ((f ip).div (f den)))).neg)

/-- The distance of a query and a stored vector of n elements (R144 to R146): metric 0 L2, 1 IP, 2 COS, 3 HAM, 4 PQ.  Of PQ's
table only the entries that a code selects are looked at for NONFINITE, since Table 6.3 speaks of vectors alone (DEDUCED, log 58). -/
def distance (metric fmt n : Nat) (q x : List Byte) : Dist :=
  let idx := below n
  let qv := idx.map (vectorElement fmt q)
  let xv := idx.map (vectorElement fmt x)
  let bad := qv.any Val.nonfinite || xv.any Val.nonfinite
  match metric with
  | 0 =>
    let r := distSum ((qv.zip xv).map (fun p => let d := p.1.add p.2.neg; d.mul d))
    if n = 0 then { code := 0, status := 1 } else { code := r.1, status := distStatus r.2 bad }
  | 1 =>
    let r := distSum (products qv xv)
    if n = 0 then { code := 0, status := 1 } else { code := r.1, status := distStatus r.2 bad }
  | 2 =>
    let ip := distSum (products qv xv)
    let qq := distSum (products qv qv)
    let xx := distSum (products xv xv)
    let zero := (fdec fp32 qq.1).isZero || (fdec fp32 xx.1).isZero
    let st := distStatus (ip.2 || qq.2 || xx.2) bad + if zero then 2 else 0
    if n = 0 then { code := one32, status := 3 }
    else if bad then { code := fp32.nanCode, status := st }
    else if zero then { code := one32, status := st }
    else { code := cosine ip.1 qq.1 xx.1, status := st }
  | 3 =>
    let bitOf := fun (v : List Byte) (i : Nat) => (lget v (i / 8) 0#8).toNat / 2 ^ (i % 8) % 2
    let c := (idx.filter (fun i => bitOf q i != bitOf x i)).length
    { code := fround fp32 (ofInt c), status := if n = 0 then 1 else 0 }
  | _ =>
    let ts := idx.map (fun i => vectorElement 1 q (256 * i + (lget x i 0#8).toNat))
    let r := distSum ts
    if n = 0 then { code := 0, status := 1 } else { code := r.1, status := distStatus r.2 (ts.any Val.nonfinite) }

/-! ## Heaps (R148, R149) -/

/-- The identifier that stands for none (R149). -/
def noIdent : Nat := 0xFFFFFFFFFFFF

/-- Heap order: by key, then by the lower identifier. -/
def heapBefore (a b : HeapEnt) : Bool :=
  match (fdec fp32 a.key.toNat).cmp (fdec fp32 b.key.toNat) with
  | .lt => true
  | .gt => false
  | .eq => decide (a.ident < b.ident)

/-- An entry at its place in the order. -/
def heapInsert (e : HeapEnt) : List HeapEnt → List HeapEnt
  | [] => [e]
  | x :: r => if heapBefore e x then e :: x :: r else x :: heapInsert e r

/-- HPUSH on a chain of some capacity (R149). -/
def heapPush (cap : Nat) (ents : List HeapEnt) (key : Word) (ident : Nat) : List HeapEnt :=
  if (fdec fp32 key.toNat).isNan then ents
  else if ents.any (fun e => e.ident == ident) then ents
  else firstN cap (heapInsert { key := key, ident := ident, expanded := false } ents)

/-- +∞ in FP32. -/
def inf32 : Word := 0x7F800000#32

/-- HPOP on a chain (R149): the best unexpanded entry, now expanded. -/
def heapPop : List HeapEnt → (Nat × Word) × List HeapEnt
  | [] => ((noIdent, inf32), [])
  | e :: r =>
    if e.expanded then
      let x := heapPop r
      (x.1, e :: x.2)
    else ((e.ident, e.key), { e with expanded := true } :: r)

/-- HTOP (R149): the entry of a rank, counted from 0. -/
def heapTop (ents : List HeapEnt) (rank : Nat) : Nat × Word :=
  match firstN 1 (afterN rank ents) with
  | e :: _ => (e.ident, e.key)
  | [] => (noIdent, inf32)

/-- Entries a chain holds at most. -/
def Chain.capacity (c : Chain) : Nat := 256 * c.heaps

/-- Heap k of an engine belongs to a chain. -/
def heapUsed (en : Engine) (k : Nat) : Bool := en.chains.any (fun c => decide (c.first ≤ k) && decide (k < c.first + c.heaps))

/-- The first run of n free heaps of an engine. -/
def freeHeaps (en : Engine) (n : Nat) : Option Nat :=
  (below 4).find? (fun f => decide (f + n ≤ 4) && (upFrom f n).all (fun k => !heapUsed en k))

/-- A heap handle (R290). -/
def heapHandle (e first n : Nat) : DWord := BitVec.ofNat 64 (e + first * 2 ^ 10 + (n - 1) * 2 ^ 12)

/-- The chain of a search. -/
def chainOf (s : State) (q home : Nat) : Option Chain := (getEngine s home).chains.find? (fun c => c.qid == some q)

/-- The entries of a search's chain changed. -/
def modChain (s : State) (q home : Nat) (f : Chain → Chain) : State :=
  modEngine s home (fun en => { en with chains := en.chains.map (fun c => if c.qid = some q then f c else c) })

/-! ## Messages (R161, R162) -/

/-- A field of a message header (Table 6.9). -/
def headField (h : BitVec 128) (hi lo : Nat) : Nat := bits h.toNat hi lo

/-- KIND of a message. -/
def Msg.kind (m : Msg) : Nat := headField m.header 3 0

/-- A header (Table 6.9). -/
def msgHeader (kind dest src count : Nat) (last : Bool) (qid seq : Nat) (snap : Word) : BitVec 128 :=
  BitVec.ofNat 128 (kind % 16 + dest % 1024 * 2 ^ 4 + src % 1024 * 2 ^ 14 + count % 16 * 2 ^ 24 + (if last then 2 ^ 28 else 0) +
    qid % 65536 * 2 ^ 32 + seq % 65536 * 2 ^ 48 + snap.toNat * 2 ^ 64)

/-- Item k of eight bytes of a body. -/
def bodyItem (b : BitVec 512) (k : Nat) : Nat := b.toNat / 2 ^ (64 * k) % 2 ^ 64

/-- A body of items of eight bytes. -/
def bodyOf (items : List Nat) : BitVec 512 := BitVec.ofNat 512 ((items.map (fun x => x % 2 ^ 64)).foldr (fun x acc => x + acc * 2 ^ 64) 0)

/-- A receive queue has room (R136). -/
def hasRoom (s : State) (e : Nat) : Bool := decide ((getEngine s e).rx.length < 64)

/-- A message enters the receive queue of its engine; its source's sequence number moves on.  Messages of different sources arrive in the
order in which they are sent, which no rule asks for (R162: DESIGN CHOICE, log 56). -/
def deliverMsg (s : State) (src dest : Nat) (m : Msg) : State :=
  modEngine (modEngine s dest (fun en => { en with rx := en.rx ++ [m] })) src (fun en => { en with seq := en.seq + 1#16 })

/-- The hardware of an engine has messages to send to another, which go first (R162). -/
def owesMsg (s : State) (src dest : Nat) : Bool := (getEngine s src).tx.any (fun m => headField m.header 13 4 == dest)

/-- A message can be sent from one engine to another now. -/
def maySendNow (s : State) (src dest : Nat) : Bool := hasRoom s dest && !owesMsg s src dest

/-- A message of hardware (R163, R164, R169): it waits at its source while the destination has no room (R162). -/
def hardMsg (s : State) (src dest kind count : Nat) (last : Bool) (qid : Nat) (snap : Word) (items : List Nat) (holds : Bool)
    (dreqs : Nat) : State :=
  let m : Msg :=
    { header := msgHeader kind dest src count last qid (getEngine s src).seq.toNat snap, body := bodyOf items, holds := holds,
      dreqs := dreqs }
  if maySendNow s src dest then deliverMsg s src dest m
  else modEngine s src (fun en => { en with tx := en.tx ++ [m], seq := en.seq + 1#16 })

/-- The first waiting message of an engine whose destination has room. -/
def sendable (s : State) (src : Nat) : Option Msg :=
  (getEngine s src).tx.find? (fun m =>
    hasRoom s (headField m.header 13 4) &&
      (getEngine s src).tx.find? (fun x => headField x.header 13 4 == headField m.header 13 4) == some m)

/-- A message that waited at its source is sent (R162). -/
def sendWaiting (src : Nat) (s : State) : State :=
  match sendable s src with
  | none => s
  | some m =>
    modEngine (modEngine s src (fun en => { en with tx := en.tx.erase m })) (headField m.header 13 4) (fun en => { en with rx := en.rx ++ [m] })

/-- The first message of an engine that one of its servers takes: kinds 2 and 3 go to the heap unit, 1 and 6 to a context, the
others to servers of their own, each in order of arrival (R162). -/
def serverOf (kind : Nat) : Nat :=
  match kind with
  | 1 => 0
  | 6 => 0
  | 2 => 1
  | 3 => 1
  | k => k

/-- The message of a kind at the head of its server's line: those that wait for a context come before those in the receive queue. -/
def headMsg (s : State) (e kind : Nat) : Option Msg :=
  let en := getEngine s e
  match (en.waits ++ en.rx).find? (fun m => serverOf m.kind == serverOf kind) with
  | some m => if m.kind = kind then some m else none
  | none => none

/-- A message taken from where it waits at its engine. -/
def takeMsg (s : State) (e : Nat) (m : Msg) : State :=
  modEngine s e (fun en => if en.waits.contains m then { en with waits := en.waits.erase m } else { en with rx := en.rx.erase m })

/-- The messages of a kind's server leave the receive queue and wait for a context in their order, so that no chain of sends blocks on
them for ever (R159, R162). -/
def parkMsgs (s : State) (e kind : Nat) : State :=
  let mine := fun (m : Msg) => serverOf m.kind == serverOf kind
  modEngine s e (fun en => { en with waits := en.waits ++ en.rx.filter mine, rx := en.rx.filter (fun m => !mine m) })

/-- The live search that a query number names. -/
def searchOfQid (s : State) (qid : Nat) : Option Nat :=
  (s.searches.find? (fun x => x.1 % 65536 == qid && x.2.stage != .ended)).map (fun x => x.1)

/-! ## Contexts (R136, R143) -/

/-- A routine entry of a library (Table 6.13). -/
structure Routine where
  rkind : Nat
  grant : Nat
  fetch : Nat
  math : Nat
  hop : Nat
  deriving DecidableEq, Repr

/-- Routine i of a library (R143), if it has that many. -/
def routineAt (img : List Byte) (i : Nat) : Option Routine :=
  let a := (payloadWord img 8).toNat + 32 * i
  let w := fun k => (payloadWord img (a + k)).toNat
  if i < bits (payloadWord img 4).toNat 15 0 then
    some { rkind := bits (w 0) 1 0, grant := bits (w 0) 31 16, fetch := w 4, math := if w 8 = 0xFFFFFFFF then w 4 + 4 else w 8,
           hop := w 12 }
  else none

/-- A near-profile instruction word: four bytes of a library's code. -/
def libCode (img : List Byte) (pc : Nat) : Word := payloadWord img ((payloadWord img 12).toNat + pc)

/-- Bytes of a library's code. -/
def libSize (img : List Byte) : Nat := (payloadWord img 16).toNat

/-- The lowest free context of an engine. -/
def freeCtx (en : Engine) : Option Nat := (below 16).find? (fun k => (mfind en.ctxs k).isNone)

/-- A pair thread at an entry with some first registers. -/
def startThr (pc : Nat) (g : Map DWord) (v : Map (List Word)) : NThr := { pc := pc, g := g, v := v, wait := .ready }

/-- The sixteen elements of a 512-bit value. -/
def vecOf (x : BitVec 512) : List Word := (below 16).map (fun k => BitVec.ofNat 32 (x.toNat / 2 ^ (32 * k)))

/-- The 512-bit value of sixteen elements. -/
def ofVec (v : List Word) : BitVec 512 := BitVec.ofNat 512 ((below 16).foldl (fun n k => n + (lget v k 0#32).toNat * 2 ^ (32 * k)) 0)

/-- A pair that starts: its threads at two entries (R136, R143). -/
def startCtx (s : State) (e x : Nat) (kind : CtxKind) (lib : Nat) (r : Routine) (fetchPc mathPc : Nat) (g : Map DWord)
    (v : Map (List Word)) (grant : Map Byte) (holds : Bool) (dreqs : Nat) : State :=
  let c : Ctx :=
    { kind := kind, lib := lib, fetch := startThr fetchPc g v, math := startThr mathPc g v, fwd := [], ret := [],
      grant := grant, grantSize := r.grant * 4096, status := 0#64, holds := holds, dreqs := dreqs, endSent := false,
      wrote := [], answers := [] }
  modEngine s e (fun en => { en with ctxs := mset en.ctxs x c })

/-- A context ends: the chains it owns are free (R148). -/
def endCtx (s : State) (e x : Nat) : State :=
  modEngine s e (fun en => { en with ctxs := mdel en.ctxs x, chains := en.chains.filter (fun c => c.ctx != some x) })

/-! ## The end of a batch (R168) -/

/-- The bits that granules set in a signature (R167). -/
def signatureBits (gs : List Nat) : List Nat := gs.flatMap (fun g => (below 4).map (fun k => Config.signatureHash k g % 2048))

/-- The stack of a granule. -/
def granuleStack (g : Nat) : Nat := stackOf (64 * g)

/-- The stacks that a batch has touched. -/
def touchedStacks (h : Hold) : List Nat := dedup ((h.reads ++ h.wgran).map granuleStack)

/-- A batch's signatures share a bit with granules that core write-backs put into touched home caches. -/
def meetsSignature (h : Hold) (wbs : List Nat) : Bool :=
  let mine := signatureBits (h.reads ++ h.wgran)
  (signatureBits (wbs.filter (fun g => (touchedStacks h).contains (granuleStack g)))).any (fun b => mine.contains b)

/-- The 128-byte home line of an address holds a dirty word. -/
def homeLineDirty (s : State) (pa : Nat) : Bool := (upFrom (pa / 128 * 32) 32).any (fun w => (mfind s.home w).isSome)

/-- The batch conflicts at its end (R168); an exclusive run never does. -/
def conflicts (s : State) (h : Hold) : Bool :=
  !h.excl && (meetsSignature h h.wbs || h.writes.any (fun x => homeLineDirty s x.1))

/-- A home line written to DRAM and invalidated. -/
def homeLineFlush (s : State) (pa : Nat) : State :=
  (upFrom (pa / 128 * 32) 32).foldl (fun s w => homeFlush s w) s

/-- A held byte written to DRAM; a word all of whose bytes are written loses its poison. -/
def commitByte (h : Hold) (s : State) (x : Nat × Byte) : State :=
  let s1 := homeLineFlush (noteHome s (x.1 / 4)) x.1
  { s1 with
    mem := setByte s1.mem x.1 x.2,
    memPoison := if (upFrom (x.1 / 4 * 4) 4).all (fun a => (mfind h.writes a).isSome) then mput s1.memPoison (x.1 / 4) false false
      else s1.memPoison }

/-- The held writes of a batch go to DRAM and invalidate the home lines they match (R168). -/
def commitHold (s : State) (h : Hold) : State := h.writes.foldl (commitByte h) s

/-- What a batch holds when it runs again: nothing; the fourth run is exclusive (R168). -/
def rerunHold (h : Hold) : Hold := { Hold.reset with rerun := h.rerun + 1, excl := decide (3 ≤ h.rerun + 1) }

/-- What a batch holds when it outgrew its held writes (R166). -/
def overflowHold : Hold := { Hold.reset with rerun := 3, excl := true }

/-- An exclusive batch whose signatures a step's new core write-backs meet: the step must wait (R168). -/
def heldBack (before after : State) : Bool :=
  let news := fun (a b : Hold) => firstN (b.wbs.length - a.wbs.length) b.wbs
  before.batches.any (fun x => x.2.hold.excl && (match getBatch after x.1 with
    | some y => y.hold.excl && meetsSignature x.2.hold (news x.2.hold y.hold)
    | none => false)) ||
  before.searches.any (fun x => x.2.hold.excl && (match getSearch after x.1 with
    | some y => y.hold.excl && meetsSignature x.2.hold (news x.2.hold y.hold)
    | none => false))

end Sys2Proof.Machine
end

