-- ==== Sys2Proof/Machine/SearchOps.lean ====
section
/-! DEFINITION. How searches and batches begin again and end (R154, R157, R158, R164 to R169), and the fault of a context (R142). -/

namespace Sys2Proof.Machine

/-! ## Fields of cards and descriptors (Tables 6.4 and 6.5) -/

/-- A field of a search card. -/
def cardField (x : Search) (hi lo : Nat) : Nat := bits x.card.toNat hi lo

/-- K of a card. -/
def cardK (x : Search) : Nat := cardField x 47 32

/-- A field of an index descriptor. -/
def descField (d : BitVec 1024) (hi lo : Nat) : Nat := bits d.toNat hi lo

/-- Heaps of a search's chain (R159). -/
def chainHeaps (x : Search) : Nat := (cardField x 63 48 + 255) / 256

/-- Byte k of something that begins at a VA whose pages stand at given physical addresses. -/
def pagedByte (pages : List Nat) (va : DWord) (k : Nat) : Nat :=
  let o := va.toNat % 4096 + k
  lget pages (o / 4096) 0 + o % 4096

/-- Bytes written through their home caches, from byte k on (R423). -/
def putPaged (pages : List Nat) (va : DWord) : State → Nat → List Byte → State
  | s, _, [] => s
  | s, k, b :: r => putPaged pages va (homePut (noteHome s (pagedByte pages va k / 4)) (pagedByte pages va k) b) (k + 1) r

/-! ## Registered snapshots (R154) -/

/-- The committed version of an index, as an engine reads it (R132). -/
def committed (s : State) (i : Index) : Word := (engineWord s (i.descPa / 4)).1

/-- LOWWATER as the registered snapshots give it, written where it changes. -/
def settleLow (s : State) (h : Nat) : State :=
  match mfind s.indexes h with
  | none => s
  | some i =>
    let low := i.snaps.foldl (fun (m : Word) x => if x.toNat < m.toNat then x else m) (lget i.snaps 0 (committed s i))
    if (engineWord s (i.descPa / 4 + 1)).1 = low then s else putHome s (i.descPa / 4 + 1) 15#4 (low, false)

/-- A search registers its snapshot. -/
def registerSnap (s : State) (h : Nat) (snap : Word) : State :=
  match mfind s.indexes h with
  | none => s
  | some i => settleLow { s with indexes := mset s.indexes h { i with snaps := i.snaps ++ [snap] } } h

/-- A search deregisters. -/
def deregisterSnap (s : State) (h : Nat) (snap : Word) : State :=
  match mfind s.indexes h with
  | none => s
  | some i => settleLow { s with indexes := mset s.indexes h { i with snaps := i.snaps.erase snap } } h

/-! ## Ending and running again -/

/-- Everything of a search leaves an engine: contexts, messages, chains and query slots. -/
def purgeEngine (q : Nat) (en : Engine) : Engine :=
  let gone := (en.ctxs.filter (fun c => c.2.kind.qid == some q)).map (fun c => c.1)
  { en with
    ctxs := en.ctxs.filter (fun c => c.2.kind.qid != some q),
    chains := en.chains.filter (fun c => c.qid != some q && !(match c.ctx with
      | some x => gone.contains x
      | none => false)),
    rx := en.rx.filter (fun m => headField m.header 47 32 != q % 65536),
    waits := en.waits.filter (fun m => headField m.header 47 32 != q % 65536),
    tx := en.tx.filter (fun m => headField m.header 47 32 != q % 65536),
    qslot := en.qslot.filter (fun x => x.2 != q),
    qbuf := en.qbuf.filter (fun x => mfind en.qslot (x.1 / 4096) != some q) }

/-- Everything of a search leaves the engines. -/
def purgeSearch (s : State) (q : Nat) : State := { s with engines := s.engines.map (fun e => (e.1, purgeEngine q e.2)) }

/-- A search begins again from its start, registered as it was (R166, R168). -/
def restartSearch (s : State) (q : Nat) (h : Hold) : State :=
  modSearch (purgeSearch s q) q (fun x =>
    { x with stage := .registered, visited := [], spawned := 0, endedW := 0, handed := 0, dreqs := 0, waiters := [],
             holding := 0, spent := false, poison := false, engFault := false, hold := h })

/-- The header of a result list (Table 6.6). -/
def resultHeader (x : Search) (count stop : Nat) (truncated poison retired : Bool) : List Byte :=
  natLe 32 (count + (if truncated then 2 ^ 32 else 0) + (if poison then 2 ^ 33 else 0) + (if retired then 2 ^ 34 else 0) +
    stop * 2 ^ 40 + x.snap.toNat * 2 ^ 64 + x.handed * 2 ^ 96 + x.hold.rerun % 4 * 2 ^ 128 + (if x.hold.excl then 2 ^ 130 else 0))

/-- One entry of a result list (R157). -/
def resultEntry (e : HeapEnt) : List Byte := natLe 16 (e.key.toNat + e.ident * 2 ^ 64)

/-- Status bits of Table 10.5. -/
def searchStatus (truncated poison retired abandoned : Bool) : Nat :=
  (if truncated then 1 else 0) + (if poison then 2 else 0) + (if retired then 4 else 0) + (if abandoned then 8 else 0)

/-- How a search ends (Table 6.7). -/
structure Ending where
  entries : List HeapEnt
  stop : Nat
  truncated : Bool
  poison : Bool
  retired : Bool
  abandoned : Bool
  /-- the result list's header and entries are written -/
  write : Bool
  /-- it had registered its snapshot -/
  registered : Bool
  deriving DecidableEq, Repr

/-- A search ends: result list, deregistration, then the arrival as a release (R158, R255). -/
def endSearch (s : State) (q : Nat) (e : Ending) : State :=
  match getSearch s q with
  | none => s
  | some x =>
    let s1 := purgeSearch s q
    let rva : DWord := BitVec.ofNat 64 (cardField x 255 192)
    let s2 := if e.write then
        putPaged x.rpages rva ((below x.rpages.length).foldl (fun s k => unsnap s x.asid (rva + BitVec.ofNat 64 (4096 * k))) s1) 0
          (resultHeader x e.entries.length e.stop e.truncated e.poison e.retired ++ e.entries.flatMap resultEntry)
      else s1
    let s3 := if e.registered then deregisterSnap s2 (cardField x 31 0) x.snap else s2
    let ident := match getLaunch s3 x.launch with
      | some l => l.ident.toNat
      | none => 0
    (arriveFor { s3 with searches := mdel s3.searches q } x.launch x.asid x.plot x.ref 1
      (searchStatus e.truncated e.poison e.retired e.abandoned) 3 (dieOfEngine x.home) ident).1

/-- An ending without entries. -/
def emptyEnding (stop : Nat) : Ending :=
  { entries := [], stop := stop, truncated := false, poison := false, retired := false, abandoned := false, write := true,
    registered := true }

/-- Every walker of a search has ended, its setup routine too, and no DREQ is unanswered (R164). -/
def searchOver (s : State) (q : Nat) : Bool :=
  match getSearch s q with
  | none => false
  | some x =>
    x.stage == .running && x.endedW == x.spawned && decide (x.dreqs = 0) &&
      !(s.engines.any (fun e => e.2.ctxs.any (fun c => c.2.kind == .setup q)))

/-- A search that is over commits and ends, or conflicts and runs again (R164, R168).  Table 6.7 has a row for a spent budget and one for
a walker's engine fault: DESIGN CHOICE, STOP 3 where a search met both (log 127). -/
def checkSearch (s : State) (q : Nat) : State :=
  if !searchOver s q then s
  else
    match getSearch s q with
    | none => s
    | some x =>
      if conflicts s x.hold then restartSearch s q (rerunHold x.hold)
      else
        let ents := match chainOf s q x.home with
          | some c => firstN (cardK x) c.ents
          | none => []
        let s1 := commitHold s x.hold
        endSearch s1 q { emptyEnding (if x.engFault then 3 else if x.spent then 1 else 0) with
          entries := ents, truncated := x.spent || x.engFault, poison := x.poison }

/-- A killed launch's searches end with ABANDONED (R165). -/
def abandonSearches (s : State) (launch : Nat) : State :=
  (s.searches.filter (fun x => x.2.launch == launch)).foldl
    (fun s x => endSearch s x.1 { emptyEnding 0 with
      abandoned := true, write := false, registered := x.2.stage != .sent }) s

/-! ## Batches of calls (R166, R168, R169) -/

/-- The threads of a batch. -/
def batchMask (b : Batch) : Mask := maskOf (fun i => b.calls.any (fun c => c.lane == i))

/-- The threads of a batch, or the lanes of the handler's call, that still wait for its replies. -/
def batchWaiting (sh : Sheaf) (b : Batch) : Mask :=
  batchMask b &&&
    (if b.handler then (if sh.handler && sh.hpc == b.pc then sh.hpool else 0#32)
     else maskOf (fun i => parkOf sh i == .pool && lget sh.pcs i 0#64 == b.pc))

/-- Lanes of a call wait no longer: their threads run on after it; the handler's stream does once no lane waits (R25, R343). -/
def releaseCall (sh : Sheaf) (b : Batch) (m : Mask) : Sheaf :=
  if b.handler then
    let left := sh.hpool &&& ~~~m
    { sh with hpool := left, hpc := if left = 0#32 then b.pc + 4#64 else sh.hpc }
  else resumeAfter sh m b.pc

/-- A batch fails: each of its threads is released with an NM-fault trap at the NMCALL (R169). -/
def failBatch (s : State) (k code : Nat) : State :=
  match getBatch s k with
  | none => s
  | some b =>
    let s1 := { s with batches := mdel s.batches k }
    match getSheaf s1 b.bed b.sheaf with
    | none => s1
    | some sh =>
      let m := batchWaiting sh b
      let sh1 := if b.handler then releaseCall sh b m else setPark sh m .run
      if m = 0#32 then s1
      else
        takeTrap (setSheaf s1 b.bed b.sheaf sh1) b.bed b.sheaf
          (trapRecord sh1 { plainTrap 14 with lanes := m, detail := BitVec.ofNat 32 code } b.pc b.pc m b.inst0 0#32 true false
            b.handler)

/-- A batch runs again from its start. -/
def restartBatch (s : State) (k : Nat) (h : Hold) : State :=
  modBatch s k (fun b => { b with started := false, calls := b.calls.map (fun c => { c with reply := none }), hold := h })

/-- WEND of an NMCALL context: the batch commits and replies, or conflicts and runs again (R168). -/
def endBatch (s : State) (e x k : Nat) : State :=
  match getBatch s k with
  | none => endCtx s e x
  | some b =>
    let s1 := endCtx s e x
    if conflicts s b.hold then restartBatch s1 k (rerunHold b.hold)
    else
      let s2 := modBatch (commitHold s1 b.hold) k (fun b => { b with replied := true, hold := Hold.reset })
      (below b.calls.length).foldl (fun s i => due s (.nmcallReply k i)) s2

/-- A killed launch's batches are discarded, with their contexts (R360). -/
def discardBatches (s : State) (launch : Nat) : State :=
  let gone := (s.batches.filter (fun b => b.2.launch == launch)).map (fun b => b.1)
  let mine := fun (c : Ctx) => match c.kind with
    | .nmcall b => gone.contains b
    | _ => false
  { s with
    batches := s.batches.filter (fun b => b.2.launch != launch),
    engines := s.engines.map (fun e => (e.1, { e.2 with
      ctxs := e.2.ctxs.filter (fun c => !mine c.2),
      chains := e.2.chains.filter (fun c => match c.ctx with
        | some x => (match mfind e.2.ctxs x with
          | some cx => !mine cx
          | none => true)
        | none => true) })) }

/-! ## Faults (R142, R169) -/

/-- A context faults: it ends, the fault is logged, and its batch fails, or what its routine owed is sent (R169). -/
def faultCtx (s : State) (e x code : Nat) : State :=
  match mfind (getEngine s e).ctxs x with
  | none => s
  | some c =>
    let s1 := logEvent (endCtx s e x) 10 (dieOfEngine e) none (BitVec.ofNat 32 (code + 256 * x)) e
    match c.kind with
    | .nmcall b => failBatch s1 b code
    | .setup q => checkSearch (modSearch s1 q (fun y => { y with engFault := true })) q
    | .request q =>
      (match getSearch s1 q with
       | none => s1
       | some y => hardMsg (modSearch s1 q (fun y => { y with engFault := true })) e y.home 2 0 true q y.snap [] false 0)
    | .walker q =>
      let s2 := modSearch s1 q (fun y => { y with engFault := true, waiters := y.waiters.erase (e, x) })
      match getSearch s2 q with
      | none => s2
      | some y => if c.endSent then s2 else hardMsg s2 e y.home 7 2 false q y.snap [0, c.dreqs] c.holds c.dreqs

/-- The issuing pair thread's context faults. -/
def nearFault (s : State) (n : NCur) (code : Nat) : Out := .next (faultCtx s n.engine n.ctx code)

/-- ENGINE_FAULT (R142, R169). -/
def execEngineFault (engine ctx : Nat) (code : BitVec 8) (s : State) : Out := .next (faultCtx s engine ctx code.toNat)

/-- A thread of a pair is blocked on one of the pair's queues (R138). -/
def NWait.onQueue (w : NWait) : Bool :=
  match w with
  | .push _ => true
  | .pop _ => true
  | _ => false

/-- A thread blocked on a queue can go on (R138): the forward queue holds 16 elements, the return queue 8. -/
def queueReady (c : Ctx) (w : NWait) : Bool :=
  match w with
  | .push 0 => decide (c.fwd.length < 16)
  | .push _ => decide (c.ret.length < 8)
  | .pop 0 => !c.fwd.isEmpty
  | .pop _ => !c.ret.isEmpty
  | _ => false

/-- QUEUE_DEADLOCK_FAULT (R139): both threads of a pair stay blocked on their queues. -/
def execQueueDeadlockFault (engine ctx : Nat) (s : State) : Out :=
  match mfind (getEngine s engine).ctxs ctx with
  | none => .next s
  | some c =>
    if c.fetch.wait.onQueue && c.math.wait.onQueue && !queueReady c c.fetch.wait && !queueReady c c.math.wait then
      .next (faultCtx s engine ctx 3)
    else .next s

end Sys2Proof.Machine
end

