-- ==== Sys2Proof/Machine/Near.lean ====
section
/-! DEFINITION. The near-only instructions (R287 to R294).  On a core each is illegal; on an engine a breach of a rule is fault
code 1. -/

namespace Sys2Proof.Machine

/-- A near-only instruction: illegal on a core (R287). -/
def nearOnly (s : State) (k : NCur → Ctx → NThr → Out) : Out :=
  if onEngine s then onPair s k else onSheaf s (fun c sh => illegal s c sh)

/-! ## LDB and STB (R288) -/

/-- Bytes of an access: 8 for .D and .LD, 64 for .V and .LV. -/
def nearSize (m : BitVec 2) : Nat := if m.getLsbD 0 then 64 else 8

/-- Its address. -/
def nearAddr (t : NThr) (a : BitVec 7) (m : BitVec 2) (o : BitVec 5) : DWord := nearG t (rn a) + shortOffset o (nearSize m)

/-- A register takes the bytes of a load. -/
def nearLoaded (t : NThr) (d : BitVec 7) (m : BitVec 2) (bs : List Byte) : NThr :=
  if m.getLsbD 0 then
    nearPutV t (rn d) ((below 16).map (fun k =>
      wordOf (lget bs (4 * k) 0#8) (lget bs (4 * k + 1) 0#8) (lget bs (4 * k + 2) 0#8) (lget bs (4 * k + 3) 0#8)))
  else nearPutG t (rn d) (BitVec.ofNat 64 (leNat bs))

/-- The bytes of a register for a store. -/
def nearStored (t : NThr) (d : BitVec 7) (m : BitVec 2) : List Byte :=
  if m.getLsbD 0 then (nearV t (rn d)).flatMap (fun w => natLe 4 w.toNat) else natLe 8 (nearG t (rn d)).toNat

/-- POISONSEEN set in the thread's view of g31 (R287). -/
def seePoison (t : NThr) : NThr := nearPutG t 31 (nearG t 31 ||| 1#64)

/-- Poisoned data read in a context of a search goes on as POISON of its result (R152, R165). -/
def markPoison (s : State) (k : CtxKind) (q : Bool) : State :=
  match k.qid with
  | some x => if q then modSearch s x (fun y => { y with poison := true }) else s
  | none => s

/-- LDB (R288). -/
def execLdb (d a : BitVec 7) (m : BitVec 2) (o : BitVec 5) (s : State) : Out :=
  nearOnly s (fun n x t =>
    let size := nearSize m
    let ad := nearAddr t a m o
    if ad.toNat % size ≠ 0 then nearFault s n 1
    else if m.getLsbD 1 then
      if x.grantSize < ad.toNat + size then nearFault s n 2
      else nearDone s n (nearLoaded t d m ((upFrom ad.toNat size).map (fun k => mget x.grant k 0#8)))
    else
      match nearRead s x.kind size ad with
      | (none, _) => nearFault s n 2
      | (some (bs, q), s1) => nearDone (markPoison s1 x.kind q) n (nearLoaded (if q then seePoison t else t) d m bs))

/-- A context's held writes outgrow 16 KiB outside exclusive mode: its batch runs again in it at once (R166). -/
def outgrown (s : State) (n : NCur) (x : Ctx) : State :=
  match x.kind with
  | .nmcall b => restartBatch (endCtx s n.engine n.ctx) b overflowHold
  | .setup q => restartSearch s q overflowHold
  | .walker q => restartSearch s q overflowHold
  | .request q => restartSearch s q overflowHold

/-- STB (R288). -/
def execStb (d a : BitVec 7) (m : BitVec 2) (o : BitVec 5) (s : State) : Out :=
  nearOnly s (fun n x t =>
    let size := nearSize m
    let ad := nearAddr t a m o
    let bs := nearStored t d m
    if ad.toNat % size ≠ 0 then nearFault s n 1
    else if m.getLsbD 1 then
      if x.grantSize < ad.toNat + size then nearFault s n 2
      else
        (nearDone s n t).andThen (fun s1 => .next (modCtx s1 n.engine n.ctx (fun x =>
          { x with grant := (below size).foldl (fun g k => mput g (ad.toNat + k) (lget bs k 0#8) 0#8) x.grant })))
    else
      match nearAddrs s (ctxAsid s x.kind) true size ad with
      | none => nearFault s n 2
      | some as =>
        let s := unsnap s (ctxAsid s x.kind) ad
        let wrote := as.foldl (fun w k => mset w k true) x.wrote
        if !(holdOf s x.kind).excl && decide (16384 < wrote.length) then .next (outgrown s n x)
        else
          (nearDone (nearWrite s x.kind as bs) n t).andThen (fun s1 =>
            .next (modCtx s1 n.engine n.ctx (fun x => { x with wrote := wrote }))))

/-! ## DIST (R289) -/

/-- Bytes of a query as DIST finds them: a slot of the query buffer, zero where it holds no query (R289), or the whole query of a search
that streams (R147). -/
def queryAt (s : State) (n : NCur) (x : Ctx) (slot bytes : Nat) : List Byte :=
  let en := getEngine s n.engine
  let buf := (upFrom (4096 * slot) bytes).map (fun k => if (mfind en.qslot (k / 4096)).isSome then mget en.qbuf k 0#8 else 0#8)
  match x.kind.qid with
  | some q =>
    (match getSearch s q with
     | some y => if 16384 < y.query.length then firstN bytes (y.query ++ copies bytes 0#8) else buf
     | none => buf)
  | none => buf

/-- The operand word of DIST is sound for a metric. -/
def distOk (metric : Nat) (w : DWord) : Bool :=
  let fmt := bits w.toNat 23 20
  bits w.toNat 63 24 == 0 &&
    (metric == 3 || (if metric = 4 then fmt == 10 else fmt == 1 || fmt == 2 || fmt == 3 || fmt == 4 || fmt == 9))

/-- DIST (R289): a poisoned vector gives the canonical NaN with NONFINITE. -/
def execDist (d a b : BitVec 7) (c : BitVec 4) (s : State) : Out :=
  nearOnly s (fun n x t =>
    let metric := c.toNat
    let w := nearG t (rn b)
    let len := bits w.toNat 15 0
    let fmt := bits w.toNat 23 20
    if !distOk metric w then nearFault s n 1
    else
      match nearRead s x.kind (vectorBytes metric fmt len) (nearG t (rn a)) with
      | (none, _) => nearFault s n 2
      | (some (bs, q), s1) =>
        let r := if q then { code := fp32.nanCode, status := 8 }
          else distance metric fmt len (queryAt s n x (bits w.toNat 19 16) (queryBytes metric fmt len)) bs
        nearDone (markPoison s1 x.kind q) n
          (nearPutG (if q then seePoison t else t) (rn d) (BitVec.ofNat 64 (r.code + r.status * 2 ^ 32))))

/-! ## Heaps (R290) -/

/-- The context owns a chain: it made it, or it runs for the chain's search. -/
def ownsChain (n : NCur) (x : Ctx) (c : Chain) : Bool := c.ctx == some n.ctx || (c.qid.isSome && c.qid == x.kind.qid)

/-- The chain that a handle names, where the context owns it. -/
def chainAt (s : State) (n : NCur) (x : Ctx) (h : DWord) : Option Chain :=
  if bits h.toNat 9 0 = n.engine ∧ bits h.toNat 63 14 = 0 then
    (getEngine s n.engine).chains.find? (fun c =>
      c.first == bits h.toNat 11 10 && c.heaps == bits h.toNat 13 12 + 1 && ownsChain n x c)
  else none

/-- A chain replaced. -/
def putChain (s : State) (n : NCur) (c : Chain) (ents : List HeapEnt) : State :=
  modEngine s n.engine (fun en =>
    { en with chains := en.chains.map (fun x => if x.first = c.first then { x with ents := ents } else x) })

/-- A chain freed. -/
def dropChain (s : State) (n : NCur) (c : Chain) : State :=
  modEngine s n.engine (fun en => { en with chains := en.chains.filter (fun x => x.first != c.first) })

/-- Runs the rest on the chain that a handle names; fault code 4 where the context owns none. -/
def withChain (s : State) (n : NCur) (x : Ctx) (h : DWord) (k : Chain → Out) : Out :=
  match chainAt s n x h with
  | some c => k c
  | none => nearFault s n 4

/-- An identifier and a key in two registers. -/
def putEntry (t : NThr) (d : BitVec 7) (e : Nat × Word) : NThr :=
  nearPutG (nearPutG t (rn d) (BitVec.ofNat 64 e.1)) (rn d + 1) (e.2.setWidth 64)

/-- HPUSH (R290). -/
def execHpush (h k i : BitVec 7) (s : State) : Out :=
  nearOnly s (fun n x t =>
    withChain s n x (nearG t (rn h)) (fun c =>
      nearDone (putChain s n c (heapPush c.capacity c.ents ((nearG t (rn k)).setWidth 32) ((nearG t (rn i)).toNat % 2 ^ 48))) n t))

/-- HPOP (R290). -/
def execHpop (d h : BitVec 7) (s : State) : Out :=
  nearOnly s (fun n x t =>
    withChain s n x (nearG t (rn h)) (fun c =>
      let r := heapPop c.ents
      nearDone (putChain s n c r.2) n (putEntry t d r.1)))

/-- HTOP (R290). -/
def execHtop (d h r : BitVec 7) (s : State) : Out :=
  nearOnly s (fun n x t =>
    withChain s n x (nearG t (rn h)) (fun c => nearDone s n (putEntry t d (heapTop c.ents (nearG t (rn r)).toNat))))

/-- HCHAIN (R290). -/
def execHchain (d n : BitVec 7) (s : State) : Out :=
  nearOnly s (fun p x t =>
    let k := (nearG t (rn n)).toNat
    if 4 < k then nearFault s p 1
    else if k = 0 then
      withChain s p x (nearG t (rn d)) (fun c => nearDone (dropChain s p c) p (nearPutG t (rn d) 0#64))
    else
      match freeHeaps (getEngine s p.engine) k with
      | none => nearDone s p (nearPutG t (rn d) 0xFFFFFFFFFFFFFFFF#64)
      | some f =>
        nearDone (modEngine s p.engine (fun en =>
          { en with chains := en.chains ++ [{ first := f, heaps := k, ctx := some p.ctx, qid := none, ents := [] }] })) p
          (nearPutG t (rn d) (heapHandle p.engine f k)))

/-! ## Messages and walkers (R291, R292) -/

/-- The stack of a node's record, by the node table as DRAM holds it (R151). -/
def recordStack (s : State) (asid : BitVec 16) (nodetab : DWord) (j : Nat) : Option Nat :=
  match nearAddrs s asid false 8 (nodetab + BitVec.ofNat 64 (16 * j)) with
  | none => none
  | some as =>
    let va := leNat (as.map (memByte s.mem))
    if va = 0 then none else (translateAt s asid (BitVec.ofNat 64 va) false).map (fun x => stackOf x.1)

/-- A stack is one of the index's: its descriptor's, or that of one of its nodes (fault code 5 elsewhere). -/
def indexStack (s : State) (x : Search) (stack : Nat) : Bool :=
  stack == stackOf x.descPa ||
    (below (descField x.desc 239 192)).any (fun j =>
      recordStack s x.asid (BitVec.ofNat 64 (descField x.desc 191 128)) j == some stack)

/-- A context may send to an engine: one of the stacks of its search's index. -/
def maySend (s : State) (x : Ctx) (dest : Nat) : Bool :=
  match x.kind.qid with
  | some q =>
    (match getSearch s q with
     | some y => decide (dest < Config.numEngines) && indexStack s y (dest / 64)
     | none => false)
  | none => false

/-- The issuing thread blocks (R138, R162). -/
def block (s : State) (n : NCur) (t : NThr) (w : NWait) : Out := .next (putThr s n { t with wait := w })

/-- What a context has sent: a POPREQ or an ENDW reports its DREQs and gives up its node; a DREQ is one more (R163, R164). -/
def noteSent (x : Ctx) (kind : Nat) : Ctx :=
  match kind with
  | 3 => { x with dreqs := 0, holds := false }
  | 7 => { x with dreqs := 0, holds := false, endSent := true }
  | 5 => { x with dreqs := x.dreqs + 1 }
  | _ => x

/-- The fields of a header that a sender names: KIND, DEST, COUNT, QID and SNAP, and LAST of a CANDS (Table 6.9). -/
def sentHeader (h : BitVec 128) : BitVec 128 :=
  h &&& (if headField h 3 0 = 2 then 0x00000000FFFFFFFF0000FFFF1F003FFF#128 else 0x00000000FFFFFFFF0000FFFF0F003FFF#128)

/-- A context sends a message whose header is complete but for SRC and SEQ (R291); a full queue blocks the sender. -/
def sendMsg (s : State) (n : NCur) (x : Ctx) (t : NThr) (header : BitVec 128) (body : BitVec 512) (k : State → Out) : Out :=
  let dest := headField header 13 4
  if !maySend s x dest then nearFault s n 5
  else if !maySendNow s n.engine dest then block s n t .send
  else
    let h := sentHeader header ||| BitVec.ofNat 128 (n.engine * 2 ^ 14 + (getEngine s n.engine).seq.toNat * 2 ^ 48)
    k (modCtx (deliverMsg s n.engine dest { header := h, body := body, holds := x.holds, dreqs := x.dreqs }) n.engine n.ctx
      (fun x => noteSent x (headField header 3 0)))

/-- MSG.SEND (R291): a reserved kind, or a SRC or SEQ that is not zero, is fault code 1. -/
def execMsgSend (h a : BitVec 7) (s : State) : Out :=
  nearOnly s (fun n x t =>
    let header : BitVec 128 := nearG t (rn h + 1) ++ nearG t (rn h)
    let kind := headField header 3 0
    if kind = 0 ∨ 8 ≤ kind ∨ headField header 23 14 ≠ 0 ∨ headField header 63 48 ≠ 0 then nearFault s n 1
    else sendMsg s n x t header (ofVec (nearV t (rn a))) (fun s1 => nearDone s1 n { t with wait := .ready }))

/-- MSG.RECV (R291): blocks until a POPREP is routed to this context. -/
def execMsgRecv (h a : BitVec 7) (s : State) : Out := nearOnly s (fun n _ t => block s n t (.recv (rn h) (rn a)))

/-- The header of a walker message of a context's search. -/
def walkerHeader (s : State) (x : Ctx) (kind dest : Nat) : BitVec 128 :=
  match x.kind.qid with
  | some q =>
    (match getSearch s q with
     | some y => msgHeader kind dest 0 1 false q 0 y.snap
     | none => msgHeader kind dest 0 1 false 0 0 0#32)
  | none => msgHeader kind dest 0 1 false 0 0 0#32

/-- WHOP (R160, R292): the record goes on and the context ends. -/
def execWhop (a e : BitVec 7) (s : State) : Out :=
  nearOnly s (fun n x t =>
    sendMsg s n x t (walkerHeader s x 1 ((nearG t (rn e)).toNat % 1024)) (ofVec (nearV t (rn a)))
      (fun s1 => .next (endCtx s1 n.engine n.ctx)))

/-- WSPAWN (R292): a walker more for the search. -/
def execWspawn (a e : BitVec 7) (s : State) : Out :=
  nearOnly s (fun n x t =>
    sendMsg s n x t (walkerHeader s x 6 ((nearG t (rn e)).toNat % 1024)) (ofVec (nearV t (rn a)))
      (fun s1 =>
        let s2 := match x.kind.qid with
          | some q => modSearch s1 q (fun y => { y with spawned := y.spawned + 1 })
          | none => s1
        nearDone s2 n { t with wait := .ready }))

/-- WEND (R292): the context ends; in an NMCALL context the batch ends, and every call must have its reply. -/
def execWend (s : State) : Out :=
  nearOnly s (fun n x _ =>
    match x.kind with
    | .nmcall b =>
      (match getBatch s b with
       | none => .next (endCtx s n.engine n.ctx)
       | some y =>
         if y.calls.all (fun c => c.reply.isSome) then .next (endBatch s n.engine n.ctx b) else nearFault s n 1)
    | .setup q => .next (checkSearch (endCtx s n.engine n.ctx) q)
    | .walker q => .next (checkSearch (endCtx s n.engine n.ctx) q)
    | .request q => .next (checkSearch (endCtx s n.engine n.ctx) q))

/-- NMRET (R293). -/
def execNmret (a t : BitVec 7) (s : State) : Out :=
  nearOnly s (fun n x th =>
    let k := (nearG th (rn t)).toNat
    match x.kind with
    | .nmcall b =>
      (match getBatch s b with
       | none => nearFault s n 1
       | some y =>
         match firstN 1 (afterN k y.calls) with
         | [] => nearFault s n 1
         | c :: _ =>
           if c.reply.isSome then nearFault s n 1
           else
             let r : NCall := { c with reply := some (firstN y.count (nearV th (rn a)), (nearG th 31).getLsbD 0) }
             nearDone (modBatch s b (fun y => { y with calls := lset y.calls k r })) n th)
    | _ => nearFault s n 1)

/-! ## The queues of a pair (R138, R294) -/

/-- An element of the forward queue in eight scalar registers from gD. -/
def putForward (t : NThr) (d : Nat) (v : List Word) : NThr :=
  (below 8).foldl (fun t k => nearPutG t (d + k) (lget v (2 * k + 1) 0#32 ++ lget v (2 * k) 0#32)) t

/-- Eight scalar registers from gD as an element. -/
def getForward (t : NThr) (d : Nat) : List Word :=
  (below 8).flatMap (fun k => [(nearG t (d + k)).setWidth 32, BitVec.ofNat 32 ((nearG t (d + k)).toNat / 2 ^ 32)])

/-- Near QPUSH (R294): the fetch thread feeds queue 0, the math thread queue 1. -/
def execNearQpush (d : BitVec 7) (q e : BitVec 1) (s : State) : Out :=
  nearOnly s (fun n x t =>
    let fwd := q == 0#1
    let go := fun (f : Ctx → Ctx) => nearDone (modCtx s n.engine n.ctx f) n { t with wait := .ready }
    if fwd == n.math then nearFault s n 1
    else if fwd then
      if 16 ≤ x.fwd.length then block s n t (.push 0)
      else go (fun x => { x with fwd := x.fwd ++ [if e = 1#1 then nearV t (rn d) else getForward t (rn d)] })
    else if 8 ≤ x.ret.length then block s n t (.push 1)
    else go (fun x => { x with ret := x.ret ++ [nearG t (rn d + 1) ++ nearG t (rn d)] }))

/-- Near QPOP (R294): the math thread drains queue 0, the fetch thread queue 1. -/
def execNearQpop (d : BitVec 7) (q e : BitVec 1) (s : State) : Out :=
  nearOnly s (fun n x t =>
    let fwd := q == 0#1
    let t1 := { t with wait := .ready }
    if fwd != n.math then nearFault s n 1
    else if fwd then
      match x.fwd with
      | [] => block s n t (.pop 0)
      | v :: r =>
        nearDone (modCtx s n.engine n.ctx (fun x => { x with fwd := r })) n
          (if e = 1#1 then nearPutV t1 (rn d) v else putForward t1 (rn d) v)
    else
      match x.ret with
      | [] => block s n t (.pop 1)
      | v :: r =>
        nearDone (modCtx s n.engine n.ctx (fun x => { x with ret := r })) n
          (nearPutG (nearPutG t1 (rn d) (v.setWidth 64)) (rn d + 1) (BitVec.ofNat 64 (v.toNat / 2 ^ 64))))

end Sys2Proof.Machine
end

