-- ==== Sys2Proof/Machine/Nmcall.lean ====
section
/-! DEFINITION. NMCALL and its batches (R25, R166, R283, R293), NMCOMMIT (R153, R285), the registration of an index (R150). -/

namespace Sys2Proof.Machine

/-! ## NMCALL (R283) -/

/-- The lanes of an NMCALL with the physical address of each argument block, or how the instruction ends before its effect. -/
def argAddrs (s : State) (c : Cur) (sh : Sheaf) (m : Mask) (va : Nat → DWord) (k : State → List (Nat × Nat) → Out) :
    List Nat → List (Nat × Nat) → Out
  | [], acc => k s acc
  | i :: r, acc =>
    match translateSaving s sh.place.core (asidOf s c.bed) (va i) (.reissue false) with
    | (.inr kind, s1) => holdWhole s1 c sh (va i) false m kind
    | (.inl (.ok pa _), s1) =>
      if Config.hostBase ≤ pa then violation s1 c sh m i (va i) else argAddrs s1 c sh m va k r (acc ++ [(i, pa)])
    | (.inl .hole, _) => .fault .noSuchAddress
    | (.inl _, s1) => violation s1 c sh m i (va i)

/-- The EXM's threads park in POOL where they stand, those that are off move on, and the sheaf yields (R25).  The handler's stream
stands at its NMCALL until every lane has its reply (R343). -/
def parkPool (s : State) (c : Cur) (sh : Sheaf) : State :=
  yieldSheaf (putSheaf s c (if sh.handler then { sh with hpool := exm c sh } else parkHere c sh .pool)) c.bed c.sheaf

/-- The issuing sheaf is in handler mode. -/
def handlerHere (s : State) (c : Cur) : Bool :=
  match getSheaf s c.bed c.sheaf with
  | some sh => sh.handler
  | none => false

/-- The calls of one engine become a batch that waits for a context (R166). -/
def addBatch (s : State) (c : Cur) (d routine count : Nat) (va : Nat → DWord) (args : List (Nat × Nat)) (e : Nat) : State :=
  let b : Batch :=
    { engine := e, launch := launchKey s c.bed, bed := c.bed, sheaf := c.sheaf, pc := c.pc, inst0 := c.inst0, d := d,
      routine := routine, count := count,
      calls := (args.filter (fun x => engineOf x.2 == e)).map (fun x => { lane := x.1, arg := va x.1, reply := none }),
      asid := asidOf s c.bed, started := false, replied := false, hold := Hold.reset, handler := handlerHere s c,
      ctl := activeImage s 3 }
  let f := fresh s
  { f.2 with batches := mset f.2.batches f.1 b }

/-- NMCALL (R283): a batch for each bank engine, and the threads wait in POOL.  The checks follow R265: the budget of the registers that
the word alone fixes, poison, what G[B] names, then R239.  R283 gives the trap of a bad G[B] no step: DESIGN CHOICE, that of a header,
after the poison of vA:vA+1 (log 130). -/
def execNmcall (d a b : BitVec 7) (s : State) : Out :=
  whenActive s (fun c sh m =>
    let w := (rdG s c sh (rn b)).toNat
    let n := bits w 20 16
    let va := laneVa s c sh a 0#64
    let q := poisonOf s c sh [rn a, rn a + 1] &&& m
    withBudget s c sh m [rn a, rn a + 1, rn d]
      (if rdGP s c sh (rn b) then poisonUse s c sh m
      else if q ≠ 0#32 then poisonUse s c sh q
      else if n = 0 ∨ 16 < n ∨ bits w 31 21 ≠ 0 then illegal s c sh
      else
        withBudget s c sh m (upFrom (rn d) n)
          (accessChecks s c sh m 0#32 m 64 (fun i => ((va i).toNat : Int)) (fun i => canonical (va i)) false 0
            (argAddrs s c sh m va (fun s1 args =>
              let es := dedup (args.map (fun x => engineOf x.2))
              .next (parkPool (es.foldl (addBatch · c (rn d) (bits w 15 0) n va args) s1) c sh)) (lanesOf m) []))))

/-- The argument blocks of a batch at 64i of its bank-local memory, and whether any was poisoned (R293). -/
def batchArgs (k : Nat) : State → Nat → List NCall → Map Byte → Bool → Option (Map Byte × Bool) × State
  | s, _, [], g, q => (some (g, q), s)
  | s, i, c :: r, g, q =>
    match nearRead s (.nmcall k) 64 c.arg with
    | (none, s1) => (none, s1)
    | (some (bs, p), s1) =>
      batchArgs k s1 (i + 1) r ((below 64).foldl (fun g j => mput g (64 * i + j) (lget bs j 0#8) 0#8) g) (q || p)

/-- A batch that cannot begin fails, and the fault is logged (R142, R169). -/
def refuseBatch (s : State) (k e code : Nat) : State :=
  failBatch (logEvent s 10 (dieOfEngine e) none (BitVec.ofNat 32 code) e) k code

/-- NMCALL_BATCH (R166, R283, R293): a free context starts the routine with g1 holding the number of calls. -/
def execNmcallBatch (batch : Nat) (s : State) : Out :=
  match getBatch s batch with
  | none => .next s
  | some b =>
    if b.started then .next s
    else
      let lib := activeImage s 6
      let r := match routineAt (imageOf s lib) b.routine with
        | some r => if r.rkind = 0 then some r else none
        | none => none
      match r, freeCtx (getEngine s b.engine) with
      | none, _ => .next (refuseBatch s batch b.engine 1)
      | some _, none => .next s
      | some r, some x =>
        match batchArgs batch s 0 b.calls [] false with
        | (none, s1) => .next (refuseBatch s1 batch b.engine 2)
        | (some (g, q), s1) =>
          let s2 := startCtx s1 b.engine x (.nmcall batch) lib r r.fetch r.math [(1, BitVec.ofNat 64 b.calls.length)] [] g false 0
          let s3 := if q then modCtx s2 b.engine x (fun c => { c with status := 1#64 }) else s2
          .next (modBatch s3 batch (fun b => { b with started := true }))

/-- The physical register that vN names for a call: in its thread's window (R42), or as its handler names it (R343). -/
def callPhys (sh : Sheaf) (handler : Bool) (i n : Nat) : Nat := phys { sh with handler := handler } i n

/-- The registers of a call's lane take a reply, with tag G (R283). -/
def putReply (sh : Sheaf) (handler : Bool) (lane d : Nat) (ws : List Word) (q : Bool) : Sheaf :=
  (below ws.length).foldl (fun sh k =>
    let ph := lanes.map (fun i => callPhys sh handler i (d + k))
    let m : Mask := 1#32 <<< lane
    writePhys { sh with long := supersede sh.long ph m } ph m (copies 32 (lget ws k 0#32)) (if q then m else 0#32)) sh

/-- A reply reaches its registers: in a resident bed an absent line is filled first (R51); in a pre-empted one the reply goes to the image
too, and a line that was absent stays so (R26). -/
def writeReply (s : State) (b w : Nat) (sh : Sheaf) (regs : List Nat) (put : Sheaf → Sheaf) : State :=
  let s1 := wakeLines s b w regs
  if isResident s b then modSheaf (fillLines s1 b w regs) b w put
  else
    let gone := regs.filter (fun p => lineState sh p == .absent)
    let s2 := modSheaf s1 b w (fun x =>
      put { x with v := gone.foldl (fun v p => mset v p { fillReg s b w p sh with row := (vreg sh p).row }) x.v })
    modSheaf (saveReply s2 b w regs) b w (fun x =>
      { x with v := gone.foldl (fun v p => mset v p { mget v p VReg.reset with line := .absent }) x.v })

/-- NMCALL_REPLY (R25, R26): a committed reply is written, in the image too where the bed is pre-empted, and its thread runs on. -/
def execNmcallReply (batch call : Nat) (s : State) : Out :=
  match getBatch s batch with
  | none => .next s
  | some b =>
    match b.replied, lget (b.calls.map some) call none with
    | true, some c =>
      match c.reply with
      | none => .next s
      | some (ws, q) =>
        let calls := lset b.calls call { c with reply := none }
        let s1 := if calls.all (fun c => c.reply.isNone) then { s with batches := mdel s.batches batch }
          else modBatch s batch (fun b => { b with calls := calls })
        match getSheaf s1 b.bed b.sheaf with
        | none => .next s1
        | some sh =>
          let lane : Mask := 1#32 <<< c.lane
          if batchWaiting sh b &&& lane = 0#32 then .next s1
          else
            .next (writeReply s1 b.bed b.sheaf sh ((below ws.length).map (fun k => callPhys sh b.handler c.lane (b.d + k)))
              (fun sh => releaseCall (putReply sh b.handler c.lane b.d ws q) b lane))
    | _, _ => .next s

/-! ## Versions (R153, R285) -/

/-- NMCOMMIT (R285): a release at system scope; the controller's answer is owed. -/
def execNmcommit (d a b : BitVec 7) (l : BitVec 4) (s : State) : Out :=
  groupOp s (fun c sh m =>
    if poisonG s c sh [rn a, rn b] then poisonUse s c sh m
    else
      let f := fresh (releaseAt s sh.place.core 5)
      let s1 := due f.2 (.versionCommit c.bed c.sheaf f.1 (rdG s c sh (rn a)) (rdG s c sh (rn b)))
      issueLong s1 c sh { longOp c sh f.1 l.toNat [.group (gidx sh (rn d)) 0#32 false] with ready := false })

/-- VERSION_COMMIT (R153): COMMITTED goes from the expected value to the next, or nothing changes. -/
def execVersionCommit (bed sheaf op : Nat) (handle expected : BitVec 32) (s : State) : Out :=
  match mfind s.indexes handle.toNat with
  | none => .next (formGroup s bed sheaf op 2#32)
  | some i =>
    if 0xFFFFFFFE ≤ expected.toNat then .next (formGroup s bed sheaf op 3#32)
    else if committed s i ≠ expected then .next (formGroup s bed sheaf op 1#32)
    else
      .next (formGroup (settleLow (putHome s (i.descPa / 4) 15#4 (expected + 1#32, false)) handle.toNat) bed sheaf op 0#32)

/-- INDEX_REGISTRATION (R150): a descriptor in device memory, 128-byte aligned, gets the next handle.  Table 6.4 gives COMMITTED and
LOWWATER the reset value 0 and names no writer of it: DESIGN CHOICE, the registration leaves both words as they stand in memory (log 126).
While only the mailbox answers, nothing is registered (R411; log 91). -/
def execIndexRegistration (asid : BitVec 16) (va : BitVec 64) (s : State) : Out :=
  if !s.powered || s.mgmt.mailboxOnly then .next s
  else
  match translateAt s asid va false with
  | some (pa, false) =>
    if va.toNat % 128 ≠ 0 then .next (answer s [])
    else
      let h := s.indexes.length + 1
      .next (answer { s with indexes := mset s.indexes h { descPa := pa, asid := asid, snaps := [] } } (natLe 4 h))
  | _ => .next (answer s [])

end Sys2Proof.Machine
end

