-- ==== Sys2Proof/Machine/Placement.lean ====
section
/-! DEFINITION. The dispatcher (R31, R36, R88, R90, R318, R334): which core a bed goes to, what it takes there, its sheaves, their
waves, and the bed's exit (R39) with the commit gate of its fires (R376). -/

namespace Sys2Proof.Machine

/-! ## Resources (R88, R334) -/

/-- The beds that hold a place on a core: every one that is not pre-empted. -/
def coreBeds (s : State) (core : Nat) : List (Nat × Bed) := s.beds.filter (fun b => b.2.stage != .preempted && b.2.core == core)

/-- The beds that hold a position in a plot. -/
def plotBeds (s : State) (p : Nat) : List (Nat × Bed) := s.beds.filter (fun b => b.2.stage != .preempted && plotOf b.2.core == p)

/-- A field of the record of a bed's launch. -/
def bedField (s : State) (b : Bed) (hi lo : Nat) : Nat :=
  match getLaunch s b.launch with
  | some l => recField l.record hi lo
  | none => 0

/-- Sheaf positions in use on an issue slot: those of sheaves that have not ended. -/
def usedPositions (s : State) (core slot : Nat) : List Nat :=
  (coreBeds s core).flatMap (fun b =>
    (b.2.sheaves.filter (fun w => w.2.place.slot == slot && !sheafEnded w.2)).map (fun w => w.2.place.pos))

/-- Issue slots of a core that take sheaves (R418). -/
def liveSlots (s : State) (core : Nat) : List Nat := (below 4).filter (fun k => !(getCore s core).slotDead.contains k)

/-- Free sheaf positions of an issue slot. -/
def freeOnSlot (s : State) (core slot : Nat) : Nat := 64 - (usedPositions s core slot).length

/-- Free sheaf slots of a core. -/
def freeSheafSlots (s : State) (core : Nat) : Nat := ((liveSlots s core).map (freeOnSlot s core)).foldl (fun n k => n + k) 0

/-- A bank of a plot that no bed owns. -/
def unowned (s : State) (p bank : Nat) : Bool := (mfind (getPlot s p).bankOwner bank).isNone

/-- A bank that is still in the name of a pre-empted bed of a group, whose contents its image holds (R89): it counts as used (R86, R88),
until that group takes it back (DESIGN CHOICE, log 111). -/
def leftBank (s : State) (p bank group : Nat) : Bool :=
  match mfind (getPlot s p).bankOwner bank with
  | some b => (match getBed s b with
    | some x => x.stage == .preempted && x.group == group
    | none => false)
  | none => false

/-- Banks of a plot that the dispatcher may assign: the unowned ones (R88). -/
def freeBanks (s : State) (p : Nat) : List Nat := (below 512).filter (unowned s p)

/-- Two byte ranges, each with a first byte and a length, overlap. -/
def rangesMeet (a b : Nat × Nat) : Bool := a.2 != 0 && b.2 != 0 && decide (a.1 < b.1 + b.2) && decide (b.1 < a.1 + a.2)

/-- The launch's B-store range is free on a core, or its own already (R91). -/
def bstoreFree (s : State) (launch : Nat) (l : Launch) (core : Nat) : Bool :=
  (getCore s core).bsOwn.all (fun k => k == launch || (match getLaunch s k with
    | some x => !rangesMeet (bsRange l) (bsRange x)
    | none => true))

/-- Entries of a launch's pin list: image VA, B-store offset and size. -/
def pinParts (p : BitVec 128) : DWord × Nat × Nat := (BitVec.ofNat 64 p.toNat, bits p.toNat 95 64, bits p.toNat 127 96)

/-- Every pinned image of a launch can be read (R90). -/
def pinsReadable (s : State) (l : Launch) : Bool :=
  l.pins.all (fun p =>
    let x := pinParts p
    (pageStarts x.1 x.2.2).all (fun va => (translateAt s l.asid va false).isSome))

/-- A core qualifies for a bed of a launch, tiers apart (R334). -/
def coreFits (s : State) (launch : Nat) (l : Launch) (core : Nat) : Bool :=
  let r := l.record
  let c := getCore s core
  let here := coreBeds s core
  let plot := plotBeds s (plotOf core)
  let sum := fun (bs : List (Nat × Bed)) hi lo => (bs.map (fun b => bedField s b.2 hi lo)).foldl (fun n k => n + k) 0
  (recField r 355 352).testBit (dieOf core) && !c.margin.quar && decide (plot.length < 4) &&
    decide ((if recField r 105 104 = 2 then recField r 127 112 else 1) ≤ freeSheafSlots s core) &&
    decide (sum here 255 224 + recField r 255 224 ≤ 16384) &&
    decide (banksPerBed r ≤ (freeBanks s (plotOf core)).length) &&
    decide (sum plot 551 544 + recField r 551 544 ≤ 256) &&
    bstoreFree s launch l core &&
    (!r.getLsbD 110 || c.claim.isNone) && (!r.getLsbD 362 || here.all (fun b => b.2.launch != launch))

/-- The better of two cores: more free sheaf slots, then the lower number. -/
def betterCore (s : State) (a b : Nat) : Nat := if freeSheafSlots s a < freeSheafSlots s b then b else a

/-- The core that R334 chooses among some. -/
def bestOf (s : State) : List Nat → Option Nat
  | [] => none
  | a :: r => some (r.foldl (betterCore s) a)

/-! ## A bed's start (R31, R41, R318, R420) -/

/-- The raise count of R380 as the trap-handler firmware of a sheaf finds it: the management firmware writes it to handler group register
g125 (R414; the place is a DESIGN CHOICE, log 144). -/
def raiseTo (n : Nat) (sh : Sheaf) : Sheaf :=
  { sh with g := mput sh.g 157 (BitVec.ofNat 32 n) 0#32, gp := mput sh.gp 157 false false }

/-- A sheaf at its start.  Its handler finds the launch's HPOL in g124 and MARKVA in g126:g127 (R304, R328; the places are a DESIGN CHOICE,
log 144). -/
def newSheaf (l : Launch) (core slot pos index : Nat) : Sheaf :=
  let r := l.record
  let kpc : DWord := BitVec.ofNat 64 (recField r 63 0)
  let role := roleOf r index
  let arg := if recField r 207 192 = 0 then 0 else recField r 191 128
  let w := fun n => BitVec.ofNat 32 n
  let g := [(1, w arg), (2, w (arg / 2 ^ 32)), (3, w (recField r 287 256)), (4, w (recField r 319 288)),
    (5, w (16 * recField r 335 320)), (156, w (recField r 1703 1696)), (158, w (recField r 1791 1728)),
    (159, w (recField r 1791 1760))].foldl (fun (m : Map Word) x => mput m x.1 x.2 0#32) []
  { pcs := copies 32 kpc, on := Mask.full,
    park := lanes.map (fun i => if r.getLsbD 111 && decide (16 ≤ i) then .done else .run), stopM := 0#32, wb := copies 32 0,
    regionPc := copies 32 kpc, skip := copies 32 0, v := [], g := g, gp := [], je := [], ja := [], spc := [], regionCnt := 0#32,
    nfin := r.getLsbD 107, nfout := r.getLsbD 108, precfp := r.getLsbD 106, seenin := false, seenout := false, cychi := 0#32,
    handler := false, hpc := 0#64, himg := 0, record := TrapRec.reset, pend := [], tdrop := 0#32, sstep := false, stopBed := false,
    bpen := 0#4, bp := [], stepping := none, long := [], oplog := [],
    place := { core := core, slot := slot, pos := pos, index := index, roleCode := BitVec.ofNat 8 role.2.1, roleEntry := role.1,
               budget := role.2.2 },
    wdcnt := 0, wdDue := false, lastIssue := 0, yieldFor := [], tokSaved := false, flushed := [], bedStop := false, hpool := 0#32,
    badTags := false, span := [], owed := [] }

/-- The issue slot of a core for one more sheaf: the one with the fewest, the lower of equals; with its lowest free position. -/
def slotFor (s : State) (core : Nat) : Option (Nat × Nat) :=
  let ok := (liveSlots s core).filter (fun k => decide (0 < freeOnSlot s core k))
  match ok with
  | [] => none
  | a :: r =>
    let k := r.foldl (fun x y => if (usedPositions s core y).length < (usedPositions s core x).length then y else x) a
    ((below 64).find? (fun p => !(usedPositions s core k).contains p)).map (fun p => (k, p))

/-- Sheaves of a bed start in order while its core has free slots (R36, R334). -/
def startSheaves (s : State) (b : Nat) : State :=
  match getBed s b, launchOf s b with
  | some bd, some l =>
    (upFrom bd.sheaves.length (bd.total - bd.sheaves.length)).foldl (fun s k =>
      match slotFor s bd.core, getBed s b with
      | some (slot, pos), some x =>
        if x.sheaves.length = k then setSheaf s b k (raiseTo (getCore s bd.core).raiseN (newSheaf l bd.core slot pos k)) else s
      | _, _ => s) s
  | _, _ => s

/-- A bank becomes a bed's, in a mode and full of zeros (R88). -/
def takeBank (s : State) (p b bank : Nat) (mode : BitVec 2) : State :=
  let s1 := switchBank s p bank mode
  let lo := bank * 4096
  modBed (modPlot s1 p (fun pl =>
    { pl with
      bankOwner := mset pl.bankOwner bank b,
      scratch := pl.scratch.filter (fun x => decide (x.1 < lo) || decide (lo + 4096 ≤ x.1)),
      marks := pl.marks.filter (fun x => decide (x.1 < lo / 32) || decide (lo / 32 + 128 ≤ x.1)) })) b
    (fun bd => { bd with banks := bd.banks ++ [(bank, mode)] })

/-- The banks of a plot in the order in which the dispatcher takes them for a mode: the classes of R88, lowest number first in each. -/
def bankOrder (s : State) (p : Nat) (mode : BitVec 2) : List Nat :=
  let inMode := fun (m : BitVec 2) => (freeBanks s p).filter (fun k => bankModeOf s p k == m)
  inMode mode ++ inMode (3#2 - mode) ++ inMode 0#2

/-- A number of banks of a mode for a bed. -/
def takeBanks (s : State) (p b n : Nat) (mode : BitVec 2) : State :=
  (firstN n (bankOrder s p mode)).foldl (fun s k => takeBank s p b k mode) s

/-- A pinned image loaded, with the poison of its words on their units (R90, R244). -/
def loadPin (l : Launch) (core : Nat) (s : State) (p : BitVec 128) : State :=
  let x := pinParts p
  match vaRead s l.asid x.2.2 x.1 with
  | none => s
  | some (bs, _) =>
    let bad := (below (x.2.2 / 64)).filter (fun k =>
      match vaRead s l.asid 64 (x.1 + BitVec.ofNat 64 (64 * k)) with
      | some (_, q) => q
      | none => false)
    modCore s core (fun c => { c with
      bstore := (below bs.length).foldl (fun m k => setByte m (x.2.1 + k) (lget bs k 0#8)) c.bstore,
      bsPoison := bad.foldl (fun m k => mput m (x.2.1 / 64 + k) true false) c.bsPoison })

/-- A launch's B-store range on a core that does not hold it yet: zeros, and its pinned images (R90). -/
def loadBstore (s : State) (launch : Nat) (l : Launch) (core : Nat) : State :=
  if (getCore s core).bsOwn.contains launch then s
  else
    let r := bsRange l
    let s1 := modCore s core (fun c => { c with
      bsOwn := launch :: c.bsOwn,
      bstore := c.bstore.filter (fun x => decide (x.1 < r.1) || decide (r.1 + r.2 ≤ x.1)),
      bsPoison := c.bsPoison.filter (fun x => decide (x.1 < r.1 / 64) || decide ((r.1 + r.2) / 64 ≤ x.1)) })
    l.pins.foldl (loadPin l core) s1

/-- The interval that bed b of a range-task launch starts with (R31). -/
def startInterval (l : Launch) (b : Nat) : Word × Word :=
  let r := l.record
  if !r.getLsbD 109 then (0#32, 0#32)
  else
    let n := recField r 735 704
    let g := recField r 767 736
    let grains := (n + g - 1) / g
    let total := (recField r 79 64 + 1) * (recField r 95 80 + 1) * (recField r 103 96 + 1)
    let at_ := fun k => Nat.min n (grains * k / total * g)
    (BitVec.ofNat 32 (at_ b), BitVec.ofNat 32 (at_ (b + 1)))

/-- The lowest bed position that no bed of a plot holds. -/
def freePosn (s : State) (p : Nat) : Nat := ((below 4).find? (fun k => (plotBeds s p).all (fun b => b.2.posn != k))).getD 0

/-- A bed is placed on a core and starts (R334, R134).  Its SCRATCH banks are assigned before its FIFO banks: R88 orders the banks of one
mode only (DESIGN CHOICE, log 119). -/
def placeBed (s : State) (launch : Nat) (l : Launch) (core linear : Nat) : State :=
  let r := l.record
  let gx := recField r 79 64 + 1
  let gy := recField r 95 80 + 1
  let p := plotOf core
  let iv := startInterval l linear
  let f := fresh s
  let bd : Bed :=
    { launch := launch, linear := linear, x := linear % gx, y := linear / gx % gy, z := linear / gx / gy, core := core,
      posn := freePosn s p, lo := iv.1, hi := iv.2, total := recField r 127 112, sheaves := [], stage := .resident, image := none,
      bexit := false, boosts := [], stopper := none, savedPlot := false, group := 0, banks := [], tmm := none, claimed := false }
  let s1 := { f.2 with beds := mset f.2.beds f.1 bd }
  let s2 := takeBanks (takeBanks s1 p f.1 (recField r 527 512) 1#2) p f.1 (recField r 543 528) 2#2
  let s3 := loadBstore s2 launch l core
  let s4 := if r.getLsbD 110 then modCore s3 core (fun c => { c with claim := some f.1, acc := [] }) else s3
  startSheaves (acquireAt s4 core 5) f.1

/-! ## Which core (R334) -/

/-- The cores of a tier's instance: 4, 16 or 64 of them. -/
def tierWidth (t : Nat) : Nat :=
  match t with
  | 1 => 4
  | 2 => 16
  | _ => 64

/-- Beds i to i + n − 1 placed one after another on cores that satisfy a test; none where one does not fit. -/
def placeRun (launch : Nat) (l : Launch) (ok : Nat → Bool) : Nat → Nat → State → Option State
  | 0, _, s => some s
  | n + 1, i, s =>
    match bestOf s ((below Config.numCores).filter (fun c => ok c && coreFits s launch l c)) with
    | none => none
    | some c => placeRun launch l ok n (i + 1) (placeBed s launch l c i)

/-- The number of beds of a launch. -/
def bedCount (l : Launch) : Nat :=
  (recField l.record 79 64 + 1) * (recField l.record 95 80 + 1) * (recField l.record 103 96 + 1)

/-- Beds in the group of a launch's next bed. -/
def groupSize (l : Launch) : Nat :=
  if recField l.record 361 360 = 0 then 1 else Nat.min (recField l.record 383 368) (bedCount l - l.nextBed)

/-- The next bed, or group of beds, of a launch placed; none where it does not fit (R334). -/
def placeNext (s : State) (launch : Nat) (l : Launch) : Option State :=
  if !pinsReadable s l then none
  else
    let n := groupSize l
    let t := recField l.record 361 360
    if t = 0 then placeRun launch l (fun _ => true) n l.nextBed s
    else
      let w := tierWidth t
      let good := (below (Config.numCores / w)).filter (fun i => (placeRun launch l (fun c => c / w == i) n l.nextBed s).isSome)
      match bestOf s ((below Config.numCores).filter (fun c => good.contains (c / w) && coreFits s launch l c)) with
      | none => none
      | some c => placeRun launch l (fun x => x / w == c / w) (n - 1) (l.nextBed + 1) (placeBed s launch l c l.nextBed)

/-- A package that runs nothing: what NOFIT and NOGROUP are judged by. -/
def emptied (s : State) : State :=
  { s with
    beds := [], plots := [], copies := [],
    cores := s.cores.map (fun c => (c.1, { c.2 with claim := none, bsOwn := [] })) }

/-! ## Waves and exit (R36, R39) -/

/-- WAVE_START (R36): when sheaves of an earlier wave have ended, later sheaves of the bed start in the freed slots. -/
def execWaveStart (bed : Nat) (s : State) : Out :=
  match getBed s bed with
  | none => .next s
  | some bd =>
    if bd.stage ≠ .resident || bd.bexit || !(bd.sheaves.any (fun w => sheafEnded w.2)) then .next s
    else .next (startSheaves s bed)

/-- The gate of a core or a message still holds a fire of a bed's exit. -/
def firesUnderWay (s : State) (b core : Nat) : Bool :=
  (getCore s core).gate.any (fun g => match g with
    | .fire _ _ _ x => x == b) ||
  s.agenda.any (fun e => match e with
    | .collectiveFire _ _ _ x none => x == b
    | _ => false)

/-- A bed has ended and what R39 makes it wait for is complete: results, logged accesses, copies, its TMM and its calls. -/
def bedQuiet (s : State) (b : Nat) (bd : Bed) : Bool :=
  bedEnded bd &&
    bd.sheaves.all (fun w => w.2.long.isEmpty && w.2.oplog.isEmpty && !w.2.handler) &&
    s.copies.all (fun c => c.2.bed != b) && s.batches.all (fun x => x.2.bed != b) &&
    (match (getCore s bd.core).tmm with
     | some t => t.bed != b
     | none => true)

/-- Nothing of a bed is left on its plot and core: tiles, banks, token, position (R39, R88, R94). -/
def clearBed (s : State) (b : Nat) (bd : Bed) : State :=
  let p := plotOf bd.core
  let s1 := modPlot s p (fun pl =>
    { pl with
      tiles := pl.tiles.filter (fun t => !(t.2.bound && t.2.bed.toNat == bd.posn)),
      bankOwner := pl.bankOwner.filter (fun o => o.2 != b),
      qwait := pl.qwait.filter (fun w => w.bed != b) })
  bd.sheaves.foldl (fun s w => dropToken s bd.core b w.1) { s1 with bwait := s1.bwait.filter (fun w => w.bed != b) }

/-- The last steps of a bed's exit (R39, steps 4 and 5). -/
def finishBed (s : State) (b : Nat) (bd : Bed) : State :=
  let s1 := freeImage (clearBed s b bd) b
  let s2 := { s1 with beds := mdel s1.beds b }
  let s3 := modLaunch s2 bd.launch (fun l => { l with
    claims := if holdsClaim s b bd.core then bd.core :: l.claims else l.claims,
    exited := l.exited + 1, dropped := l.dropped || decide (bd.lo.toNat < bd.hi.toNat) })
  match getLaunch s3 bd.launch with
  | none => s3
  | some l =>
    if l.exited < bedCount l then s3
    else failUnfired (modLaunch s3 bd.launch (fun l => { l with stage := .completing })) bd.launch

/-- BED_EXIT (R39): a release at system scope, the fires of its bindings through the commit gate, then its place is freed. -/
def execBedExit (bed : Nat) (s : State) : Out :=
  match getBed s bed with
  | none => .next s
  | some bd =>
    match bd.stage with
    | .preempted => .next s
    | .exited => .next (if firesUnderWay s bed bd.core then s else finishBed s bed bd)
    | .resident =>
      if !bedQuiet s bed bd then .next s
      else
        let s1 := releaseAt s bd.core 5
        match getLaunch s1 bd.launch with
        | none => .next s1
        | some l =>
          if l.binds.isEmpty then .next (finishBed s1 bed bd)
          else
            let ops := (below l.binds.length).map (fun k => GateOp.fire bd.launch k (chunkOfBed s1 l (lget l.binds k 0#512) bd.linear) bed)
            .next (modBed (modCore s1 bd.core (fun c => { c with gate := c.gate ++ ops })) bed (fun x => { x with stage := .exited }))

/-- COMMIT_GATE_PASS (R376): the operation that waits at a core's gate passes, once.  A fire whose chunk map gives an index of 2^32 or more
is above every P × NCHUNK: it is discarded and logged, with the index's low 32 bits (R387). -/
def execCommitGatePass (core : Nat) (s : State) : Out :=
  match (getCore s core).gate with
  | [] => .next s
  | .fire launch k index bed :: rest =>
    let s1 := modCore s core (fun c => { c with gate := rest })
    .next (if 2 ^ 32 ≤ index then discardFire s1 launch index else due s1 (.collectiveFire launch k (BitVec.ofNat 32 index) bed none))

end Sys2Proof.Machine
end

