-- ==== Sys2Proof/Machine/Preempt.lean ====
section
/-! DEFINITION. Pre-emption of the beds of a launch on a plot into their images and their resume (R26, R30, R52, R57, R89, R91, R98,
R281, R349), the lines of the register cache (R50 to R53), and the debugger's flush and release (R364, R366). -/

namespace Sys2Proof.Machine

/-! ## Lines of the register cache (R50, R51) -/

/-- A line of the register cache, by its first register, and when it was last used. -/
structure Line where
  bed : Nat
  sheaf : Nat
  reg : Nat
  age : Nat
  deriving DecidableEq, Repr

/-- The lines that a sheaf's registers hold, present and drowsy ones (R50). -/
def sheafLines (b w : Nat) (sh : Sheaf) : List Line :=
  (sh.v.filter (fun r => decide (r.1 < 512) && r.2.line != .absent)).filterMap (fun r =>
    let mates := rowMates sh r.2.row
    if r.2.row ≠ 0 ∧ (mates.head?).map (fun x => x.1) ≠ some r.1 then none
    else some { bed := b, sheaf := w, reg := r.1, age := mates.foldl (fun n x => Nat.max n x.2.used) r.2.used })

/-- The lines of a bed. -/
def bedLines (b : Nat) (bd : Bed) : List Line := bd.sheaves.flatMap (fun w => sheafLines b w.1 w.2)

/-- The line used least recently. -/
def oldestLine : List Line → Option Line
  | [] => none
  | x :: r =>
    match oldestLine r with
    | some y => if y.age < x.age then some y else some x
    | none => some x

/-- A line goes to its bed's image (R52); it stays where the pool has no room for one. -/
def evictLine (s : State) (x : Line) : State :=
  match ensureImage s x.bed, getSheaf s x.bed x.sheaf with
  | some (img, s1), some sh => evictReg s1 x.bed x.sheaf img x.reg sh.place.core
  | _, _ => s

/-- Some lines give up n of theirs, the least recently used first. -/
def evictOldest : Nat → List Line → State → State
  | 0, _, s => s
  | n + 1, xs, s =>
    match oldestLine xs with
    | some x => evictOldest n (xs.filter (fun y => y != x)) (evictLine s x)
    | none => s

/-- The lines that a bed reserved (Table 16.2). -/
def reserved (s : State) (bd : Bed) : Nat := bedField s bd 255 224

/-- A bed keeps to its reservation less some lines (R311): it gives up lines that `spare` lets go. -/
def keepReserved (s : State) (b more : Nat) (spare : Line → Bool) : State :=
  match getBed s b with
  | none => s
  | some bd =>
    let xs := bedLines b bd
    if xs.length + more ≤ reserved s bd then s else evictOldest (xs.length + more - reserved s bd) (xs.filter spare) s

/-- Lines in a core's register cache: of the beds on the core, and of those that were pre-empted there. -/
def coreLines (s : State) (core : Nat) : List Line :=
  (s.beds.filter (fun b => b.2.core == core)).flatMap (fun b => bedLines b.1 b.2)

/-- A core's register cache keeps to its 16,384 lines: pre-empted beds give up theirs (R52). -/
def keepCapacity (s : State) (core more : Nat) : State :=
  let xs := coreLines s core
  if xs.length + more ≤ 16384 then s
  else
    let left := fun (x : Line) => match getBed s x.bed with
      | some bd => bd.stage == .preempted
      | none => false
    evictOldest (xs.length + more - 16384) (xs.filter left) s

/-- A register's line, and so every register in it, in another line state. -/
def setLine (s : State) (b w reg : Nat) (x : LineState) : State :=
  modSheaf s b w (fun sh => modLines sh [lineOf sh reg] (fun r => { r with line := x }))

/-- A line that the present instructions of its sheaf keep in use: used since the sheaf last issued. -/
def busyLine (s : State) (x : Line) : Bool :=
  match getSheaf s x.bed x.sheaf with
  | some sh => decide (sh.lastIssue < x.age)
  | none => false

/-- REGISTER_LINE_FILL (R51): an absent register of a resident bed is read from the bed image, with all of its line (R50), after a line has
made room for its own (R311, R52): the least recently used one of the bed, but none that a sheaf's present instructions keep in use (DESIGN
CHOICE, log 75: a reservation of too few lines stops no instruction). -/
def execRegisterLineFill (bed sheaf reg : Nat) (s : State) : Out :=
  match getBed s bed, getSheaf s bed sheaf with
  | some bd, some sh =>
    if bd.stage ≠ .resident || lineState sh reg ≠ .absent then .next s
    else
      let n := (lineKeys (bringLine s bed sheaf reg sh)).length - (lineKeys sh).length
      .next (fillLine (keepCapacity (keepReserved s bed n (fun x => !busyLine s x)) sh.place.core n) bed sheaf reg)
  | _, _ => .next s

/-- LINE_DROWSY (R50): the idle policy lowers the retention voltage of a present line. -/
def execLineDrowsy (bed sheaf reg : Nat) (s : State) : Out :=
  match getSheaf s bed sheaf with
  | none => .next s
  | some sh => .next (if decide (reg < 512) && (vreg sh reg).line == .present then setLine s bed sheaf reg .drowsy else s)

/-- LINE_WAKE (R50): a drowsy line becomes present. -/
def execLineWake (bed sheaf reg : Nat) (s : State) : Out :=
  match getSheaf s bed sheaf with
  | none => .next s
  | some sh =>
    if (vreg sh reg).line ≠ .drowsy then .next s
    else .next (count (setLine s bed sheaf reg .present) sh.place.core 9 1)

/-- Lines beyond a reservation or a register cache leave, after writes that allocated lines (R311, R52): a line used in this step, or since
its sheaf last issued, stays (log 75). -/
def trimLines (s : State) : State :=
  let beds := (s.beds.filter (fun b => b.2.stage == .resident)).map (fun b => (b.1, b.2.core))
  beds.foldl (fun s b => keepCapacity (keepReserved s b.1 0 (fun x => decide (x.age < s.ticks) && !busyLine s x)) b.2 0) s

/-! ## What a debugger reads and writes in an image (R366) -/

/-- The image of a bed. -/
def imageAt (s : State) (b : Nat) : Nat :=
  match getBed s b with
  | some bd => bd.image.getD 0
  | none => 0

/-- Two words at an offset as a 64-bit value. -/
def pairAt (rd : Nat → Word) (o : Nat) : DWord := rd (o + 4) ++ rd o

/-- A byte of words that are read by offset. -/
def byteAt (rd : Nat → Word) (o : Nat) : Nat := (rd (o / 4 * 4)).toNat / 256 ^ (o % 4) % 256

/-- A trap record from its words in a slot state (Table 17.2, Table 17.5). -/
def recordAt (rd : Nat → Word) (o : Nat) : TrapRec :=
  let r := fun x => rd (o + 4 * (x - 0x60))
  let fl := r 0x66
  { cause := r 0x60, tpc := pairAt rd (o + 8), trpc := pairAt rd (o + 16), prec := fl.getLsbD 0, restart := fl.getLsbD 1,
    keep := fl.getLsbD 2, handler := fl.getLsbD 3, paired := fl.getLsbD 4, lost := fl.getLsbD 5,
    hact := BitVec.ofNat 2 (bits fl.toNat 9 8), treg := pairAt rd (o + 28), tregcnt := r 0x69, tmask := r 0x6A, tlanes := r 0x6B,
    tlanes2 := r 0x6C, tdetail := r 0x6D, taddr := pairAt rd (o + 0x38), tinst0 := r 0x70, tinst1 := r 0x71 }

/-- The park state that a byte of a slot state gives a thread (R8): one that would wait issues again, as on a resume (R26). -/
def parkFrom (x : Nat) : Park :=
  match x % 8 with
  | 1 => .join (BitVec.ofNat 4 (x / 8))
  | 2 => .pool
  | 5 => .done
  | _ => .run

/-- A slot state by offset, as words of a sheaf. -/
def slotWord (s : State) (b : Nat) (sh : Sheaf) (token : Bool) (o : Nat) : Word :=
  ((slotWords s b sh token).findSome? (fun x =>
    if x.1 ≤ o ∧ o < x.1 + 4 * x.2.length then some (lget x.2 ((o - x.1) / 4) 0#32) else none)).getD 0#32

/-- A sheaf takes a slot state (Table 17.5): PCs, ON bits, counters, enables, spills, park states, windows, records and the handler's
registers.  Its operand log and the token stay as they are (DESIGN CHOICE, log 75). -/
def loadSlot (rd : Nat → Word) (park : List Park) (sh : Sheaf) : Sheaf :=
  let en := rd 0x108
  let seen := rd 0x10C
  { sh with
    pcs := lanes.map (fun i => pairAt rd (8 * i) &&& ~~~(3#64)), on := rd 0x100, park := park, regionCnt := rd 0x104,
    nfin := en.getLsbD 0, nfout := en.getLsbD 1, precfp := en.getLsbD 2, seenin := seen.getLsbD 0, seenout := seen.getLsbD 1,
    spc := (below 16).foldl (fun m k => mput m k (BitVec.ofNat 8 (byteAt rd (0x110 + k))) 0#8) [],
    wb := lanes.map (fun i => byteAt rd (0x140 + i) % 32), skip := lanes.map (fun i => byteAt rd (0x160 + i)),
    regionPc := lanes.map (fun i => pairAt rd (0x180 + 8 * i) &&& ~~~(3#64)), handler := (rd 0x280).getLsbD 0,
    hpc := pairAt rd 0x288, record := recordAt rd 0x300, tdrop := rd (0x300 + 4 * 0x13),
    pend := ((below 8).map (fun k => recordAt rd (0x380 + 128 * k))).filter (fun r => r.cause != 0#32),
    v := (below 32).foldl (fun m r => mset m (512 + r)
      { form := .g ((below 32).map (fun i => rd (0x1880 + 128 * r + 4 * i))), poison := rd (0x1800 + 4 * r), line := .present,
        row := 0, used := 0 }) sh.v,
    g := (below 32).foldl (fun m r => mput m (128 + r) (rd (0x2880 + 4 * r)) 0#32) sh.g,
    gp := (below 32).foldl (fun m r => mput m (128 + r) ((rd 0x2900).getLsbD r) false) sh.gp }

/-- Offsets of the words of a slot state that a flush keeps note of. -/
def slotOffsets : List Nat := (below (0x2904 / 4)).map (fun k => 4 * k)

/-- The debugger holds a sheaf: it issues nothing, its handler neither (R364). -/
def heldInStop (sh : Sheaf) : Bool := !sh.handler && sh.stepping.isNone && (sh.bedStop || sh.stopM != 0#32)

/-- Where a request's register stands in a group block, as two offsets: group register n with the poison word that holds its bit, and
rejoin register n − 128 as E and A (R63). -/
def groupSlots (n : Nat) : Nat × Nat := if n < 128 then (4 * n, 0x200 + 4 * (n / 32)) else (0x210 + 8 * (n - 128), 0x214 + 8 * (n - 128))

/-- The words there as a sheaf's registers give them. -/
def groupPair (sh : Sheaf) (n : Nat) : Word × Word :=
  if n < 128 then (mget sh.g n 0#32, maskOf (fun i => mget sh.gp (n / 32 * 32 + i) false)) else (jE sh (n - 128), jA sh (n - 128))

/-- A group or rejoin register, or, for 144 and up, the slot state, written to the image; what a stopped sheaf's flush left there is
noted. -/
def flushGroup (s : State) (b w img n : Nat) (sh : Sheaf) : State :=
  if n < 144 then
    let x := groupPair sh n
    let at_ := groupAt s b img w
    let s1 := imgWord (imgWord s (at_ + (groupSlots n).1) x.1) (at_ + (groupSlots n).2) x.2
    if heldInStop sh then modSheaf s1 b w (fun y => { y with flushed := mset (mset y.flushed (2 * n) x.1) (2 * n + 1) x.2 }) else s1
  else
    let s1 := saveSlot s b w img sh ((getCore s sh.place.core).token == some (b, w))
    if heldInStop sh then
      modSheaf s1 b w (fun x => { x with
        flushed := slotOffsets.foldl (fun m o => mset m (4096 + o) (imgRead s1 (slotAt img w + o))) x.flushed })
    else s1

/-- DEBUG_FLUSH (R366): a register's line is written to the image and the request acknowledged.  The request names a lane register
0 to 511, group register n as 512 + n with n below 128, rejoin register n as 640 + n with n below 16, or, at 656 and up, the slot state
with the handler's registers (log 76).  The line of a
lane register is filled again when it is next needed. -/
def execDebugFlush (bed sheaf reg : Nat) (s : State) : Out :=
  match getBed s bed, getSheaf s bed sheaf, ensureImage s bed with
  | some bd, some sh, some (img, s1) =>
    if bd.stage ≠ .resident then .next s
    else if reg < 512 then
      if sh.place.budget ≤ reg || (vreg sh reg).line == .absent then .next (answer s1 [])
      else .next (answer (dropLine s1 bed sheaf img reg) [])
    else .next (answer (flushGroup s1 bed sheaf img (reg - 512) sh) [])
  | _, _, _ => .next s

/-- A flushed group or rejoin register takes what the debugger wrote to its words in the image; another keeps its value. -/
def takeGroup (s : State) (b w img n : Nat) (sh : Sheaf) : Sheaf :=
  let at_ := groupAt s b img w
  let x := imgRead s (at_ + (groupSlots n).1)
  let y := imgRead s (at_ + (groupSlots n).2)
  let old := mget sh.flushed (2 * n) 0#32
  let old2 := mget sh.flushed (2 * n + 1) 0#32
  if n < 128 then
    let q := y.getLsbD (n % 32)
    { sh with
      g := if x = old ∨ n = 0 then sh.g else mput sh.g n x 0#32,
      gp := if q = old2.getLsbD (n % 32) ∨ n = 0 then sh.gp else mput sh.gp n q false }
  else setJ sh (n - 128) (if x = old then jE sh (n - 128) else x) (if y = old2 then jA sh (n - 128) else y)

/-- The slot state that a sheaf has after a debugger's writes: the words that the debugger changed, the sheaf's own elsewhere. -/
def takeSlot (s : State) (b w img : Nat) (sh : Sheaf) : Sheaf :=
  let now := fun o => imgRead s (slotAt img w + o)
  let old := fun o => mget sh.flushed (4096 + o) 0#32
  let rd := fun o => if now o = old o then slotWord s b sh false o else now o
  let park := lanes.map (fun i =>
    if byteAt now (0x120 + i) = byteAt old (0x120 + i) then parkOf sh i else parkFrom (byteAt now (0x120 + i)))
  if slotOffsets.all (fun o => now o == old o) then sh else loadSlot rd park sh

/-- What a debugger wrote to the image of a stopped sheaf takes effect before the sheaf issues (R366). -/
def refillFlushed (s : State) (b w : Nat) : State :=
  match getSheaf s b w with
  | none => s
  | some sh =>
    let img := imageAt s b
    let names := (below 144).filter (fun n => (mfind sh.flushed (2 * n)).isSome)
    let sh1 := names.foldl (fun x n => takeGroup s b w img n x) sh
    let sh2 := if (mfind sh.flushed 4096).isSome then takeSlot s b w img sh1 else sh1
    setSheaf s b w { sh2 with flushed := [] }

/-! ## Pre-emption (R349) -/

/-- The resident beds of a launch on a plot, which are pre-empted together (R89). -/
def groupOn (s : State) (launch p : Nat) : List (Nat × Bed) :=
  s.beds.filter (fun b => b.2.launch == launch && b.2.stage == .resident && plotOf b.2.core == p)

/-- The beds that were pre-empted together under a name, and are resumed together (R89). -/
def savedOn (s : State) (g : Nat) : List (Nat × Bed) := s.beds.filter (fun b => b.2.group == g && b.2.stage == .preempted)

/-- Every bed of a group has an image; none where the pool has no room. -/
def ensureImages : List (Nat × Bed) → State → Option State
  | [], s => some s
  | b :: r, s =>
    match ensureImage s b.1 with
    | some (_, s1) => ensureImages r s1
    | none => none

/-- A sheaf stops: what a debugger wrote to its image takes effect (R366), issued instructions complete, its slot state, group block, tags and poison are saved, the token goes on (R30). -/
def saveSheaf (b : Nat) (s : State) (w : Nat) : State :=
  let img := imageAt s b
  let core := (getBed s b).elim 0 (fun bd => bd.core)
  let s1 := drain (endReplays (refillFlushed s b w) b w core) b w
  match getSheaf s1 b w with
  | none => s1
  | some sh0 =>
    let tok := (getCore s1 core).token == some (b, w)
    let sh := { endAllSpans sh0 with tokSaved := tok }
    let s2 := saveSlot (setSheaf s1 b w sh) b w img sh tok
    dropToken (saveTags (saveGroup s2 b w img sh) (laneBlock s2 b w img) sh) core b w

/-- A TMM of a bed whose last block is written ends; an earlier one stops and gives up its locks (R130, R281). -/
def stopTmm (s : State) (b core : Nat) : State :=
  match (getCore s core).tmm with
  | none => s
  | some t =>
    if t.bed ≠ b then s
    else if tmmOver t then endTmm s core t none
    else modCore (freeLocks s (plotOf core) t.locks) core (fun c => { c with tmm := some { t with locks := [] } })

/-- The matrix units of a bed that holds the claim are saved, and the claim is free (R281). -/
def saveMatrix (s : State) (b core : Nat) : State :=
  if !holdsClaim s b core then s
  else
    let s1 := imgWords s (imageAt s b + (layOf s b).acc) (accWords s core ++ seqWords s core)
    let t := (getCore s core).tmm
    modCore (modBed s1 b (fun x => { x with tmm := t, claimed := true })) core (fun c =>
      { c with claim := none, tmm := none, frozen := false, acc := [] })

/-- The bytes of an image from its accumulator block on are zero before a pre-emption writes the blocks it has (R350). -/
def zeroBlocks (s : State) (b : Nat) : State :=
  let y := layOf s b
  zeroRange s (imageAt s b + y.acc) (y.size - y.acc)

/-- A bed stops and everything of its own is in its image. -/
def saveBed (s : State) (b : Nat) (bd : Bed) : State :=
  let owes := bd.sheaves.any (fun w => w.2.owed.any (fun x => x == 6))
  let s1 := zeroBlocks (releaseAt (endSwitches s b) bd.core (if owes then 5 else 4)) b
  let s2 := dropWaiters (stopTmm s1 b bd.core) b bd.core
  let s3 := (bd.sheaves.map (fun w => w.1)).foldl (saveSheaf b) s2
  let claimed := holdsClaim s3 b bd.core
  let s4 := modCore (saveMatrix s3 b bd.core) bd.core (fun c => { c with attempts := c.attempts.filter (fun a => a.2.cur.bed != b) })
  saveHead s4 b (imageAt s4 b) claimed false

/-- The bed of a group with the lowest position (R89, R334). -/
def lowestBed (bs : List (Nat × Bed)) : Option (Nat × Bed) := (below 4).findSome? (fun k => bs.find? (fun b => b.2.posn == k))

/-- A bank's marks and contents in an image. -/
def saveBank (p : Nat) (k : Backing) (s : State) (bank : Nat) : State :=
  let pl := getPlot s p
  let marks := (below 4).map (fun j => maskOf (fun i => mget pl.marks (bank * 128 + 32 * j + i) false))
  let words := (below 1024).map (fun j => memWord pl.scratch (bank * 1024 + j))
  imgWords (imgWords s (k.mark (bank * 128)) marks) (k.byte (bank * 4096)) words

/-- The banks, tiles and queue words of a group are saved in the image of its lowest bed (R89).  The banks stay in the beds' names, so
that BANKCFG finds them owned (R86). -/
def savePlot (s : State) (p : Nat) (bs : List (Nat × Bed)) : State :=
  match lowestBed bs with
  | none => s
  | some (b, _) =>
    let mine := fun (t : Tile) => t.bound && bs.any (fun x => x.2.posn == t.bed.toNat)
    let banks := (below 512).filter (fun k => match mfind (getPlot s p).bankOwner k with
      | some o => bs.any (fun x => x.1 == o)
      | none => false)
    let k : Backing := { at_ := imageAt s b + (layOf s b).plot, banks := banks }
    let map := (below 16).map (fun j => maskOf (fun i => banks.contains (32 * j + i)))
    let tiles := (below 256).flatMap (fun e =>
      let t := mget (getPlot s p).tiles e Tile.reset
      dwords (if mine t then tileCode t else 0#64))
    let s1 := banks.foldl (saveBank p k) (imgWords (imgWords s k.at_ map) (k.at_ + 64) tiles)
    let s2 := modPlot s1 p (fun pl => { pl with
      tiles := pl.tiles.filter (fun t => !mine t.2) })
    let s3 := modBed s2 b (fun x => { x with savedPlot := true })
    saveHead s3 b (imageAt s3 b) (match getBed s3 b with
      | some x => x.claimed
      | none => false) true

/-- A byte of the B-store is pinned for a launch. -/
def isPinned (l : Launch) (a : Nat) : Bool :=
  l.pins.any (fun p => decide ((pinParts p).2.1 ≤ a) && decide (a < (pinParts p).2.1 + (pinParts p).2.2))

/-- The unpinned words of a launch's B-store range. -/
def openWords (l : Launch) : List Nat := (upFrom ((bsRange l).1 / 4) ((bsRange l).2 / 4)).filter (fun w => !isPinned l (4 * w))

/-- The cores of a group, each with its lowest bed. -/
def groupCores (bs : List (Nat × Bed)) : List (Nat × Nat) :=
  (dedup (bs.map (fun b => b.2.core))).filterMap (fun c => (lowestBed (bs.filter (fun b => b.2.core == c))).map (fun b => (c, b.1)))

/-- The unpinned bytes of a core's B-store range are saved, and the launch no longer holds the range (R91). -/
def saveBstore (launch : Nat) (l : Launch) (s : State) (x : Nat × Nat) : State :=
  let origin := imageAt s x.2 + (layOf s x.2).bs
  let s1 := (openWords l).foldl (fun s w => homeThrough s ((origin + (4 * w - (bsRange l).1)) / 4) 15#4 (bsWord s x.1 w)) s
  modCore s1 x.1 (fun c => { c with bsOwn := c.bsOwn.filter (fun k => k != launch) })

/-- PREEMPTION (R349): the beds of a bed's launch on its plot are moved into their images together (R89).  Where the context pool
has no room for them, nothing happens. -/
def execPreemption (bed : Nat) (s : State) : Out :=
  match getBed s bed, launchOf s bed with
  | some bd, some l =>
    let p := plotOf bd.core
    let bs := groupOn s bd.launch p
    if bd.stage ≠ .resident then .next s
    else
      match ensureImages bs s with
      | none => .next s
      | some s0 =>
        let s1 := (fresh s0).2
        let s2 := bs.foldl (fun s b => saveBed s b.1 b.2) s1
        let s3 := savePlot s2 p bs
        let s4 := (groupCores bs).foldl (saveBstore bd.launch l) s3
        .next (bs.foldl (fun s b => modBed s b.1 (fun x => { x with stage := .preempted, group := (fresh s0).1 })) s4)
  | _, _ => .next s

/-! ## Where a group resumes (R334) -/

/-- Cores in the order in which the dispatcher would choose them. -/
def insertCore (s : State) (c : Nat) : List Nat → List Nat
  | [] => [c]
  | d :: r => if betterCore s d c = c ∧ d ≠ c then c :: d :: r else d :: insertCore s c r

/-- Some cores, best first. -/
def rankCores (s : State) (cs : List Nat) : List Nat := cs.foldl (fun acc c => insertCore s c acc) []

/-- The sheaf slots that a bed's sheaves need are free on a core: the same issue slots where it has matrix state (R45). -/
def slotsFit (s : State) (bd : Bed) (core : Nat) : Bool :=
  let live := bd.sheaves.filter (fun w => !sheafEnded w.2)
  if bd.claimed then
    (getCore s core).claim.isNone && (below 4).all (fun k =>
      let n := (live.filter (fun w => w.2.place.slot == k)).length
      n == 0 || ((liveSlots s core).contains k && decide (n ≤ freeOnSlot s core k)))
  else decide (live.length ≤ freeSheafSlots s core)

/-- The other beds of a bed's group that are on cores lie in this core's instance of the tier. -/
def tierFits (s : State) (l : Launch) (bd : Bed) (core : Nat) : Bool :=
  let t := recField l.record 361 360
  let n := recField l.record 383 368
  t = 0 || s.beds.all (fun b => b.2.launch != bd.launch || b.2.stage == .preempted || b.2.linear / n != bd.linear / n ||
    b.2.core / tierWidth t == core / tierWidth t)

/-- A core takes a pre-empted bed back: the conditions of R334, with the very banks that the bed had. -/
def resumeFits (s : State) (l : Launch) (bd : Bed) (core : Nat) : Bool :=
  let r := l.record
  let here := coreBeds s core
  let plot := plotBeds s (plotOf core)
  let sum := fun (bs : List (Nat × Bed)) hi lo => (bs.map (fun b => bedField s b.2 hi lo)).foldl (fun n k => n + k) 0
  (recField r 355 352).testBit (dieOf core) && !(getCore s core).margin.quar && decide (plot.length < 4) &&
    decide (sum here 255 224 + recField r 255 224 ≤ 16384) &&
    bd.banks.all (fun k => unowned s (plotOf core) k.1 || leftBank s (plotOf core) k.1 bd.group) &&
    decide (sum plot 551 544 + recField r 551 544 ≤ 256) && bstoreFree s bd.launch l core &&
    (!r.getLsbD 362 || here.all (fun b => b.2.launch != bd.launch)) && slotsFit s bd core && tierFits s l bd core

/-- A sheaf takes its place on a core: on the issue slot it had where that is asked for. -/
def replaceSheaf (b core : Nat) (same : Bool) (s : State) (x : Nat × Sheaf) : State :=
  let sh := x.2
  let at_ := if sheafEnded sh then some (sh.place.slot, sh.place.pos)
    else if same then ((below 64).find? (fun q => !(usedPositions s core sh.place.slot).contains q)).map (fun q => (sh.place.slot, q))
    else slotFor s core
  let y := at_.getD (sh.place.slot, sh.place.pos)
  setSheaf s b x.1 { sh with place := { sh.place with core := core, slot := y.1, pos := y.2 } }

/-- A pre-empted bed takes a core: its position, sheaf slots, banks, B-store range and claim. -/
def rehome (s : State) (l : Launch) (b : Nat) (bd : Bed) (core : Nat) : State :=
  let p := plotOf core
  let s1 := modBed s b (fun x => { x with stage := .resident, core := core, posn := freePosn s p, sheaves := [], banks := [] })
  let s2 := bd.sheaves.foldl (replaceSheaf b core bd.claimed) s1
  let own := modPlot s2 (plotOf bd.core) (fun pl => { pl with bankOwner := pl.bankOwner.filter (fun o => o.2 != b) })
  let s3 := bd.banks.foldl (fun s k => takeBank s p b k.1 k.2) own
  let s4 := loadBstore s3 bd.launch l core
  if bd.claimed then modCore s4 core (fun c => { c with claim := some b }) else s4

/-- The beds of a group take cores of a plot, those of one core going to one core; with the new core of each old one. -/
def rehomeAll (l : Launch) (p : Nat) : List (Nat × Bed) → Map Nat → State → Option (Map Nat × State)
  | [], m, s => some (m, s)
  | (b, bd) :: r, m, s =>
    match mfind m bd.core with
    | some c => if resumeFits s l bd c then rehomeAll l p r m (rehome s l b bd c) else none
    | none =>
      (rankCores s (upFrom (4 * p) 4)).findSome? (fun c =>
        if resumeFits s l bd c && ((bsRange l).2 == 0 || !(getCore s c).bsOwn.contains bd.launch) then
          rehomeAll l p r (mset m bd.core c) (rehome s l b bd c)
        else none)

/-- The beds in order of position. -/
def inPosition (bs : List (Nat × Bed)) : List (Nat × Bed) := (below 4).flatMap (fun k => bs.filter (fun b => b.2.posn == k))

/-- A plot where a group fits, the one with the core that R334 chooses for its first bed, and the group on it. -/
def findPlot (s : State) (l : Launch) (bs : List (Nat × Bed)) : Option (Nat × Map Nat × State) :=
  match inPosition bs with
  | [] => none
  | x :: r =>
    (dedup ((rankCores s ((below Config.numCores).filter (resumeFits s l x.2))).map plotOf)).findSome? (fun p =>
      (rehomeAll l p (x :: r) [] s).map (fun y => (p, y)))

/-! ## The resume (R349) -/

/-- A saved bank's marks and contents return to the bank. -/
def restoreBank (p : Nat) (k : Backing) (s : State) (bank : Nat) : State :=
  let marks := (below 128).filter (fun g => (homeByte s (k.mark (bank * 128 + g))).getLsbD (g % 8))
  modPlot s p (fun pl => { pl with
    scratch := (below 1024).foldl (fun m j => setWord m (bank * 1024 + j) (imgRead s (k.byte (bank * 4096 + 4 * j)))) pl.scratch,
    marks := marks.foldl (fun m g => mput m (bank * 128 + g) true false) pl.marks })

/-- The saved tile of a bed takes a free entry of the plot's table, under the bed's position now. -/
def restoreTile (p : Nat) (bs : List (Nat × Bed)) (s : State) (t : Tile) : State :=
  match bs.find? (fun b => t.bound && b.2.posn == t.bed.toNat) with
  | none => s
  | some (b, _) =>
    match (below 256).find? (fun e => (mfind (getPlot s p).tiles e).isNone) with
    | none => s
    | some e => setTile s p e { t with bed := BitVec.ofNat 2 (posnOf s b), lock := 0#5, lockv := false }

/-- The saved bytes of a B-store range return to the core that the beds of a core now run on. -/
def restoreBstore (l : Launch) (img : Nat → Nat) (s : State) (x : Nat × Nat) : State :=
  let origin := img x.2 + (layOf s x.2).bs
  match getBed s x.2 with
  | none => s
  | some bd =>
    let ws := (openWords l).map (fun w => (w, homeWord s ((origin + (4 * w - (bsRange l).1)) / 4)))
    modCore s bd.core (fun c => { c with
      bstore := ws.foldl (fun m w => setWord m w.1 w.2.1) c.bstore,
      bsPoison := ws.foldl (fun m w => if w.2.2 then mput m (w.1 / 16) true false else m) c.bsPoison })

/-- The matrix units take their saved state back: accumulators, and the TMM with its sheaf's place now. -/
def restoreMatrix (s : State) (b : Nat) : State :=
  match getBed s b with
  | none => s
  | some bd =>
    if !bd.claimed then s
    else
      let a := imageAt s b + (layOf s b).acc
      let rows := (below 1024).foldl (fun (m : Map (List Word)) j =>
        mput m j ((below 16).map (fun k => imgRead s (a + 64 * j + 4 * k))) zeroRow) []
      let t := bd.tmm.map (fun t => match mfind bd.sheaves t.sheaf with
        | some sh => { t with slot := sh.place.slot, pos := sh.place.pos }
        | none => t)
      modCore (modBed s b (fun x => { x with tmm := none, claimed := false })) bd.core (fun c =>
        { c with acc := rows, tmm := t, frozen := handlerInBed s b })

/-- A group register of a sheaf as the image holds it. -/
def refillGroup (s : State) (b w img n : Nat) : State :=
  let x := loadGroup s b w img n
  modSheaf s b w (fun sh => { sh with g := mput sh.g n (if n = 0 then 0#32 else x.1) 0#32, gp := mput sh.gp n x.2 false })

/-- The tag vector in an image is that of no sheaf: code 3 in the budget, or another code beyond it (R62). -/
def tagsBad (s : State) (lb budget : Nat) : Bool :=
  (below 512).any (fun p => ((imgRead s (lb + 4 * (p / 16))).toNat / 4 ^ (p % 16) % 4 == 3) == decide (p < budget))

/-- A sheaf of a resumed bed.  On the core it left, the lines that are still in the register cache are used as they stand, whatever
its image holds by then (R52; R54 allows the old value and the new: DESIGN CHOICE, log 75); on another core every line has left, with
an eviction on the old one.  Group registers and slot state return (R349), each value as it was (R54, log 75).  Waits issue again (R26,
R102, R215, R258); the token's holder waits for it (R30); a tag vector of no sheaf traps at the first issue (R62). -/
def resumeSheaf (b : Nat) (moved : Option Nat) (s : State) (w : Nat) : State :=
  match getSheaf s b w with
  | none => s
  | some sh0 =>
    let img := imageAt s b
    let lb := laneBlock s b w img
    let t := salt s (2 ^ 21)
    let bad := tagsBad s lb sh0.place.budget && !sheafEnded sh0
    let s1 := match moved with
      | some old => (sheafLines b w sh0).foldl (fun s x => evictReg s b w img x.reg old) s
      | none => s
    let s2 := (below 128).foldl (fun s n => if Config.freeBool (t + 1024 * w + 512 + n) then refillGroup s b w img n else s) s1
    let s3 := modSheaf s2 b w (fun sh =>
      { setPark sh (waitMask sh (fun _ => true)) .run with tokSaved := false, badTags := sh.badTags || bad })
    let core := sh0.place.core
    let s4 := modSheaf s3 b w (raiseTo (getCore s3 core).raiseN)
    if !sh0.tokSaved then s4
    else modCore s4 core (fun c =>
      if c.token.isNone then { c with token := some (b, w) } else { c with tokQ := c.tokQ ++ [(b, w)] })

/-- RESUMEs that came for a sheaf's logged accesses while its bed was away are applied (R354). -/
def resumeLogs (b : Nat) (o : Out) (w : Nat) : Out :=
  (below 4).foldl (fun o k => o.andThen (fun s =>
    match getLog s b w k with
    | some e => (match e.resumed with
      | some code => resumeLog s b w k (decide (code = 1#2))
      | none => .next s)
    | none => .next s)) o

/-- A resumed bed may start sheaves or exit. -/
def afterResume (s : State) (b : Nat) : State :=
  match getBed s b with
  | none => s
  | some bd =>
    if bedEnded bd then due s (.bedExit b)
    else if decide (bd.sheaves.length < bd.total) && bd.sheaves.any (fun w => sheafEnded w.2) then due s (.waveStart b)
    else s

/-- A reference names a scratch address in a plot block. -/
def inBlock (k : Option Backing) (ref : DWord) : Bool :=
  match k with
  | some x => refSpace ref == 1 && x.banks.contains (refScratch ref / 4096)
  | none => false

/-- Everything of a group that has taken cores returns from the images. -/
def restoreGroup (s : State) (l : Launch) (launch old p : Nat) (bs : List (Nat × Bed)) (k : Option Backing) : Out :=
  let tiles := match k with
    | some x => (below 256).map (fun e => tileDecode (homeDWord s (x.tile e)))
    | none => []
  let s1 := match k with
    | some x => x.banks.foldl (restoreBank p x) s
    | none => s
  let s2 := tiles.foldl (restoreTile p bs) s1
  let s3 := (groupCores bs).foldl (restoreBstore l (imageAt s2)) s2
  let s4 := { s3 with searches := s3.searches.map (fun q =>
    (q.1, if q.2.launch = launch ∧ q.2.plot = old ∧ inBlock k q.2.ref = true then { q.2 with plot := p } else q.2)) }
  let one := fun (o : Out) (b : Nat × Bed) => o.andThen (fun s =>
    let s1 := modBed (restoreMatrix s b.1) b.1 (fun x => { x with savedPlot := false })
    match getBed s1 b.1 with
    | none => .next s1
    | some bd =>
      let ws := bd.sheaves.map (fun w => w.1)
      let s2 := ws.foldl (resumeSheaf b.1 (if bd.core = b.2.core then none else some b.2.core)) (acquireAt s1 bd.core 4)
      (ws.foldl (resumeLogs b.1) (.next s2)).andThen (fun s3 => .next (afterResume (failFetches s3 b.1) b.1)))
  bs.foldl one (.next s4)

/-- A group that may resume: its launch, the plot it had, its beds, and where it fits.  A copy in flight of one of them ends
first, in the images (R98, R130). -/
def resumeSpot (s : State) (bed : Nat) : Option (Launch × List (Nat × Bed) × Nat × Map Nat × State) :=
  match getBed s bed, launchOf s bed with
  | some bd, some l =>
    if bd.stage ≠ .preempted then none
    else
      let bs := savedOn s bd.group
      if s.copies.any (fun c => bs.any (fun b => b.1 == c.2.bed)) then none
      else (findPlot s l bs).map (fun x => (l, bs, x))
  | _, _ => none

/-- BED_RESUME (R349): the beds of a group that were pre-empted together are placed again and go on from their images. -/
def execBedResume (bed : Nat) (s : State) : Out :=
  match getBed s bed, resumeSpot s bed with
  | some bd, some (l, bs, p, _, s1) => restoreGroup s1 l bd.launch (plotOf bd.core) p bs (groupBacking s bd.group)
  | _, _ => .next s

/-! ## The debugger (R364, R366) -/

/-- A stopped sheaf leaves STOP (R364). -/
def releaseSheaf (whole : Bool) (b : Nat) (s : State) (w : Nat) : State :=
  modSheaf s b w (fun sh =>
    { sh with stopM := if sh.stepping.isSome then sh.stopM else 0#32, bedStop := sh.bedStop && !whole })

/-- DEBUGGER_RELEASE (R364): a stopped sheaf, or every stopped sheaf of a bed, leaves STOP. -/
def execDebuggerRelease (bed : Nat) (sheaf : Option Nat) (s : State) : Out :=
  match getBed s bed, sheaf with
  | none, _ => .next s
  | some _, some w => .next (releaseSheaf false bed s w)
  | some bd, none =>
    .next ((bd.sheaves.map (fun w => w.1)).foldl (releaseSheaf true bed) (modBed s bed (fun x => { x with stopper := none })))

end Sys2Proof.Machine
end

