-- ==== Sys2Proof/Machine/Record.lean ====
section
/-! DEFINITION. Queue entries (R327), launch records and the lists they name, with every check of R328 in its order, and the
dependences of a launch (R329, R330). -/

namespace Sys2Proof.Machine

/-! ## Queue entries (Table 16.1) -/

/-- A queue entry keeps to Table 16.1. -/
def entryOk (e : BitVec 512) : Bool :=
  let n := e.toNat
  canonical (BitVec.ofNat 64 n) && n % 256 == 0 && decide (bits n 71 64 < 2) && bits n 95 72 == 0 && bits n 511 128 == 0

/-! ## The record (Table 16.2) -/

/-- Status codes of a rejected record: BADRECORD and PROGRESS (Table 16.6). -/
def badRecord : Nat := 0x11

/-- A role entry: all zero, or a code of Table 1.5, a budget of 1 to 32 and a count. -/
def roleEntryOk (w : Nat) : Bool := w == 0 || (decide (w % 256 ≤ 3) && decide (1 ≤ bits w 15 8) && decide (bits w 15 8 ≤ 32) && bits w 31 16 != 0)

/-- The sheaves that the role entries count. -/
def roleSum (r : BitVec 2048) : Nat := (below 4).foldl (fun n e => n + bits (roleWord r e) 31 16) 0

/-- A watcher keeps to R335; LOW and HIGH count where it is valid. -/
def watchOk (w : Nat) : Bool := bits w 23 20 == 0 && bits w 62 56 == 0 && (bits w 63 63 == 0 || decide (bits w 39 24 < bits w 55 40))

/-- RSHARE: a share for each used role entry, zero for the others; ignored without roles. -/
def sharesOk (r : BitVec 2048) : Bool :=
  noRoles r || (below 4).all (fun e => (roleWord r e == 0) == (recField r (1671 + 8 * e) (1664 + 8 * e) == 0))

/-- CBAR: a global reference, or space 2. -/
def cbarOk (ref : DWord) : Bool := refOk ref true && refSpace ref != 1

/-- The limits of GROUPN by tier. -/
def groupLimit (t : Nat) : Nat :=
  match t with
  | 1 => 4
  | 2 => 16
  | _ => 64

/-- The record's fields in order of offset, each with its check, the status a failure gives and its byte offset. -/
def recordChecks (r : BitVec 2048) (peers : Bool) : List (Bool × Nat × Nat) :=
  let f := recField r
  let bad := fun (o : Nat) (ok : Bool) => (ok, badRecord, o)
  let within := fun (n lo hi : Nat) => decide (lo ≤ n) && decide (n ≤ hi)
  let plain := noRoles r
  [bad 0 (canonical (BitVec.ofNat 64 (f 63 0)) && f 63 0 % 4 == 0), (f 105 104 != 3, 0x12, 13), bad 14 (within (f 127 112) 1 256),
   bad 16 (f 191 128 % 64 == 0 && (f 207 192 != 0 || f 191 128 == 0)), bad 24 (within (f 207 192) 0 4096), bad 26 (within (f 215 208) 12 31),
   bad 27 ((f 218 216 == 0 || !peers) && within (f 221 219) 0 4 && f 223 222 == 0), bad 28 (within (f 255 224) 1 16384),
   bad 32 (f 319 256 % 16 == 0), bad 42 (if plain then within (f 343 336) 1 32 else f 343 336 == 0),
   bad 43 (within (f 347 344) 0 8 && f 351 348 == 0), bad 44 (f 355 352 != 0 && f 359 356 == 0), bad 45 (f 367 363 == 0),
   bad 46 (if f 361 360 = 0 then f 383 368 == 0 else within (f 383 368) 1 (groupLimit (f 361 360))),
   bad 48 (roleEntryOk (roleWord r 0) && (plain || roleSum r == f 127 112)), bad 52 (roleEntryOk (roleWord r 1)),
   bad 56 (roleEntryOk (roleWord r 2)), bad 60 (roleEntryOk (roleWord r 3)), bad 68 (within (f 551 544) 0 32), bad 69 (f 559 552 == 0),
   bad 70 (within (f 575 560) 0 16), bad 72 (f 607 576 % 64 == 0), bad 76 (f 639 608 % 64 == 0 && within (f 607 576 + f 639 608) 0 0x100000),
   bad 80 (f 703 640 % 16 == 0), bad 88 (r.getLsbD 109 == (f 735 704 != 0)), bad 92 (r.getLsbD 109 == (f 767 736 != 0)),
   bad 96 (f 831 768 % 64 == 0), bad 104 (f 895 832 % 16 == 0), bad 112 (f 959 896 % 8 == 0),
   bad 120 (cbarOk (BitVec.ofNat 64 (f 1023 960))), bad 192 (watchOk (f 1599 1536)), bad 200 (watchOk (f 1663 1600)),
   bad 208 (sharesOk r), bad 212 (within (f 1703 1696) 0 1), bad 213 (f 1727 1704 == 0),
   bad 216 (if f 1703 1696 = 1 then f 1791 1728 % 4 == 0 else f 1791 1728 == 0), bad 224 (f 1855 1792 % 2048 == 0),
   bad 232 (f 2047 1856 == 0)]

/-- The first check that fails. -/
def firstFailure (cs : List (Bool × Nat × Nat)) : Option (Nat × Nat) := (cs.find? (fun c => !c.1)).map (fun c => c.2)

/-! ## The lists (R328) -/

/-- n entries of w bytes at a VA; none where they cannot be read. -/
def readList (s : State) (asid : BitVec 16) (va n w : Nat) : Option (List Nat) :=
  (vaBytes s asid (n * w) (BitVec.ofNat 64 va)).map (fun bs => (below n).map (fun k => leNat (firstN w (afterN (w * k) bs))))

/-- The pages of a region. -/
def regionPages (x : BitVec 128) : List DWord :=
  (below (bits x.toNat 95 64)).map (fun k => BitVec.ofNat 64 (bits x.toNat 63 0 + 4096 * k))

/-- The pages of a launch's regions. -/
def launchPages (l : Launch) : List DWord := l.regions.flatMap regionPages

/-- A VA's page has a leaf (R359). -/
def hasLeaf (s : State) (asid : BitVec 16) (va : DWord) : Bool :=
  match walk s asid va with
  | .leaf _ _ _ => true
  | _ => false

/-- A region-list entry: a page-aligned VA, one page or more, each of them valid (R359). -/
def regionOk (s : State) (asid : BitVec 16) (x : BitVec 128) : Bool :=
  bits x.toNat 63 0 % 4096 == 0 && bits x.toNat 95 64 != 0 && bits x.toNat 127 96 == 0 && (regionPages x).all (hasLeaf s asid)

/-- The checks of pin entry e with the earlier ones. -/
def pinChecks (r : BitVec 2048) (earlier : List (BitVec 128)) (e : Nat) (p : BitVec 128) : List (Bool × Nat × Nat) :=
  let lo := recField r 607 576
  let hi := lo + recField r 639 608
  let x := pinParts p
  let bad := fun (o : Nat) (ok : Bool) => (ok, 0x15, 16 * e + o)
  [bad 0 (x.1.toNat % 64 == 0),
   bad 8 (x.2.1 % 64 == 0 && decide (lo ≤ x.2.1) && earlier.all (fun q => !rangesMeet x.2 (pinParts q).2)),
   bad 12 (x.2.2 % 64 == 0 && decide (x.2.1 + x.2.2 ≤ hi))]

/-- The checks of a pin list. -/
def pinListChecks (r : BitVec 2048) (ps : List (BitVec 128)) : List (Bool × Nat × Nat) :=
  (below ps.length).flatMap (fun e => pinChecks r (firstN e ps) e (lget ps e 0#128))

/-- The checks of binding entry k (Table 16.3); those of Table 19.3 are made at arming (R389). -/
def bindChecks (k : Nat) (e : BitVec 512) : List (Bool × Nat × Nat) :=
  let f := bindField e
  let bad := fun (o : Nat) (ok : Bool) => (ok, 0x18, 64 * k + o)
  let ref : DWord := BitVec.ofNat 64 (f 447 384)
  [bad 0 (decide (f 7 0 ≤ 4)), bad 3 (f 31 30 == 0), bad 4 (f 47 36 == 0), bad 24 (f 223 192 != 0 && f 223 192 % 4096 == 0),
   bad 28 (f 255 224 != 0), bad 40 (e.getLsbD 28 || f 383 320 == 0), bad 48 (refOk ref false && refSpace ref == 0),
   bad 56 (f 511 448 == 0)]

/-- The checks of a binding table. -/
def bindListChecks (bs : List (BitVec 512)) : List (Bool × Nat × Nat) :=
  (below bs.length).flatMap (fun k => bindChecks k (lget bs k 0#512))

/-! ## Dependences (Table 16.4) -/

/-- Dependence k of a record. -/
def depOf (r : BitVec 2048) (k : Nat) : Nat := recField r (1151 + 128 * k) (1024 + 128 * k)

/-- KIND of a dependence. -/
def depKind (d : Nat) : Nat := bits d 98 96

/-- REF of a dependence. -/
def depRef (d : Nat) : DWord := BitVec.ofNat 64 (bits d 63 0)

/-- The dependences that a record uses. -/
def usedDeps (r : BitVec 2048) : List Nat := ((below 4).map (depOf r)).filter (fun d => depKind d != 0)

/-- The checks of the dependences; a KIND that is none of Table 16.4's sets no limit for REF. -/
def depChecks (r : BitVec 2048) : List (Bool × Nat × Nat) :=
  (below 4).flatMap (fun k =>
    let d := depOf r k
    let o := 128 + 16 * k
    [((match depKind d with
       | 0 => true
       | 1 => refOk (depRef d) false
       | 2 | 3 => (depRef d).toNat % 4 == 0
       | _ => true), 0x16, o),
     (decide (depKind d ≤ 3) && bits d 127 99 == 0, 0x16, o + 12)])

/-- A dependence holds; a scratch reference names no plot here, so that one never does. -/
def depHolds (s : State) (asid : BitVec 16) (d : Nat) : Bool :=
  let v := BitVec.ofNat 32 (bits d 95 64)
  match depKind d with
  | 0 => true
  | 1 =>
    refSpace (depRef d) == 0 && (match translateAt s asid (refVa (depRef d)) false with
      | some (pa, _) => (barAt s { scratch := false, plot := 0, loc := pa }).gen != v
      | none => false)
  | k =>
    match translateAt s asid (depRef d) (decide (k = 3)) with
    | some (pa, _) => decide (v.toNat ≤ (homeWord s (pa / 4)).1.toNat)
    | none => false

/-- A semaphore take: the word at its home is reduced; none where it no longer is large enough (R330). -/
def takeDep (asid : BitVec 16) (o : Option State) (d : Nat) : Option State :=
  match o with
  | none => none
  | some s0 =>
    if depKind d ≠ 3 then some s0
    else
      match translateAt s0 asid (depRef d) true with
      | none => none
      | some (pa, _) =>
        let s := revokeAll (unsnap s0 asid (depRef d)) (pa / 4)
        let x := (homeWord s (pa / 4)).1
        let v := BitVec.ofNat 32 (bits d 95 64)
        if x.toNat < v.toNat then none else some (homeThrough s (pa / 4) 15#4 (x - v, false))

/-- Every dependence of a launch holds, and its takes are made in one step; none otherwise (R330). -/
def takeDeps (s : State) (l : Launch) : Option State :=
  let ds := usedDeps l.record
  if ds.all (depHolds s l.asid) then ds.foldl (takeDep l.asid) (some s) else none

/-! ## Reading a record (R328) -/

/-- The record of a launch that has none: no completion word, and no completion barrier. -/
def blankRecord : BitVec 2048 := BitVec.ofNat 2048 (2 * 2 ^ 960)

/-- Some binding has peers outside the package. -/
def hasPeers (s : State) (asid : BitVec 16) (r : BitVec 2048) : Bool :=
  match readList s asid (recField r 831 768) (Nat.min 4 (recField r 221 219)) 64 with
  | some bs => bs.any (fun b => bits b 63 48 != 0)
  | none => false

/-- The launch with its record and lists as read, and the status and detail of the first failure, if any. -/
def readRecord (s : State) (l : Launch) : Launch × Option (Nat × Nat) :=
  match readList s l.asid l.lrva.toNat 1 256 with
  | none => ({ l with record := blankRecord, pins := [], regions := [], binds := [] }, some (0x17, 0))
  | some ns =>
    let r : BitVec 2048 := BitVec.ofNat 2048 (lget ns 0 0)
    let l0 : Launch := { l with record := r, pins := [], regions := [], binds := [] }
    match firstFailure (recordChecks r (hasPeers s l.asid r)) with
    | some x => (l0, some x)
    | none =>
      match readList s l.asid (recField r 895 832) (recField r 347 344) 16 with
      | none => (l0, some (0x17, 2))
      | some gs =>
        let regions : List (BitVec 128) := gs.map (BitVec.ofNat 128)
        if !regions.all (regionOk s l.asid) then (l0, some (badRecord, 0x68))
        else
          match readList s l.asid (recField r 703 640) (recField r 575 560) 16 with
          | none => (l0, some (0x17, 1))
          | some ps =>
            let pins : List (BitVec 128) := ps.map (BitVec.ofNat 128)
            match firstFailure (pinListChecks r pins) with
            | some x => (l0, some x)
            | none =>
              match readList s l.asid (recField r 831 768) (recField r 221 219) 64 with
              | none => (l0, some (0x17, 3))
              | some bs =>
                let binds : List (BitVec 512) := bs.map (BitVec.ofNat 512)
                match firstFailure (bindListChecks binds ++ depChecks r) with
                | some x => (l0, some x)
                | none => ({ l0 with pins := pins, regions := regions, binds := binds }, none)

end Sys2Proof.Machine
end

