-- ==== Sys2Proof/Machine/Launch.lean ====
section
/-! DEFINITION. Launches: the arbiter (R331 to R333, R425), the dependence pool (R329, R330), the dispatcher's placement and its
victims (R334, R337), completion (R338), kills (R360, R361) and replays (R362). -/

namespace Sys2Proof.Machine

/-! ## Queues (R331, R332) -/

/-- A field of a queue's descriptor (Table 20.3). -/
def queueField (q : HQueue) (hi lo : Nat) : Nat := bits q.desc.toNat hi lo

/-- Level of a queue. -/
def queueLevel (q : HQueue) : Nat := queueField q 73 70

/-- A work queue. -/
def getQueue (s : State) (k : Nat) : HQueue := mget s.hostIf.queues k HQueue.reset

/-- The state with a work queue changed. -/
def modQueue (s : State) (k : Nat) (f : HQueue → HQueue) : State :=
  { s with hostIf := { s.hostIf with queues := mset s.hostIf.queues k (f (getQueue s k)) } }

/-- The entry at an index of a queue's ring (R408). -/
def entryAt (s : State) (q : HQueue) (i : Word) : BitVec 512 :=
  let base := if q.desc.getLsbD 64 then Config.hostBase else 0
  BitVec.ofNat 512 (leNat (homeBytes s (base + queueField q 63 0 + 64 * (i.toNat % 2 ^ queueField q 69 65)) 64))

/-- The entry at a queue's head: as it stands, or, where the host has written it again since its doorbell, freely as it stood then
(R408). -/
def headEntry (s : State) (q : HQueue) : BitVec 512 :=
  let e := entryAt s q q.head
  match mfind q.seen (q.head.toNat % 2 ^ queueField q 69 65) with
  | some o => if o = e then e else if Config.freeBool (salt s (5700 + q.head.toNat % 64)) then e else o
  | none => e

/-- The previous entry holds the next one back: it has neither left the arbiter nor completed (R332). -/
def queueHeld (s : State) (q : HQueue) : Bool :=
  match q.busy with
  | none => false
  | some k =>
    match getLaunch s k with
    | some l => !l.left && l.stage != .done
    | none => false

/-- Launches in the dependence pool. -/
def poolCount (s : State) : Nat := (s.launches.filter (fun l => l.2.stage == .pool)).length

/-- The head entry of a queue names a record with a dependence; an entry that breaks Table 16.1 has no record to read (R327). -/
def headDepends (s : State) (q : HQueue) : Bool :=
  let e := (headEntry s q).toNat
  entryOk (headEntry s q) && bits e 71 64 == 1 && (match readList s (BitVec.ofNat 16 (queueField q 114 99)) (bits e 63 0) 1 256 with
    | some ns => !(usedDeps (BitVec.ofNat 2048 (lget ns 0 0))).isEmpty
    | none => false)

/-- A queue is ready (R331); with a full pool, not one whose head has a dependence (R329). -/
def queueReadyAt (s : State) (q : HQueue) : Bool :=
  q.enabled && q.head != q.tail && !queueHeld s q && !(decide (4096 ≤ poolCount s) && headDepends s q)

/-- The ready queues of a level, in queue-number order. -/
def readyQueues (s : State) (level : Nat) : List Nat :=
  (s.hostIf.queues.filter (fun q => queueLevel q.2 == level && queueReadyAt s q.2)).map (fun q => q.1)

/-- The levels that have a ready queue. -/
def readyLevels (s : State) : List Nat := (below 12).filter (fun l => !(readyQueues s l).isEmpty)

/-- The order of levels at a pick: a lifted level counts one lower, and goes before the native queues there. -/
def levelKey (s : State) (l : Nat) : Nat := if mget s.hostIf.lifted l false then 2 * (l - 1) else 2 * l + 1

/-- The level that a pick serves. -/
def pickLevel (s : State) : Option Nat :=
  match readyLevels s with
  | [] => none
  | l :: r => some (r.foldl (fun a b => if levelKey s b < levelKey s a then b else a) l)

/-- The next of some queues after a number, wrapping. -/
def nextQueue (qs : List Nat) (after : Option Nat) : Nat :=
  match after with
  | none => lget qs 0 0
  | some a => (qs.find? (fun q => decide (a < q))).getD (lget qs 0 0)

/-- The current queue of a level moves to the next ready one, with credit for its weight. -/
def moveCurrent (s : State) (level : Nat) (qs : List Nat) : State :=
  let k := nextQueue qs (mfind s.hostIf.curQ level)
  let s1 := modQueue s k (fun q => { q with credit := queueField q 81 74 })
  { s1 with hostIf := { s1.hostIf with curQ := mset s1.hostIf.curQ level k } }

/-- The current queue of a level is ready and has credit. -/
def currentQueue (s : State) (level : Nat) : State × Nat :=
  let qs := readyQueues s level
  let s1 := match mfind s.hostIf.curQ level with
    | some k => if qs.contains k && decide (0 < (getQueue s k).credit) then s else moveCurrent s level qs
    | none => moveCurrent s level qs
  (s1, mget s1.hostIf.curQ level 0)

/-- The levels that a pick passes over count it; one that reaches STARVE is lifted (R331). -/
def passOver (s : State) (picked : Nat) (others : List Nat) : State :=
  let h := s.hostIf
  let h1 := if mget h.lifted picked false then
      { h with lifted := mput h.lifted picked false false, passed := mput h.passed picked 0 0 }
    else h
  let h2 := others.foldl (fun (h : HostIf) l =>
    let n := mget h.passed l 0 + 1
    { h with passed := mput h.passed l n 0,
             lifted := if h.starve.toNat ≤ n && l != 0 then mput h.lifted l true false else h.lifted }) h1
  { s with hostIf := h2 }

/-- Launch slots in use (R331). -/
def slotsHeld (s : State) : Nat := (s.launches.filter (fun l => l.2.slotHeld)).length

/-! ## From the pick to the cores -/

/-- A launch completes without running, with a status and its detail. -/
def rejectLaunch (s : State) (k st detail : Nat) : State :=
  modLaunch s k (fun l => { l with early := some (st, detail), stage := .completing })

/-- SNAP set in the leaf of a page (R359). -/
def markPage (asid : BitVec 16) (s : State) (va : DWord) : State :=
  match walk s asid va with
  | .leaf e _ (leafAt :: _) => setHomeDWord s leafAt (e ||| 0x200#64)
  | _ => s

/-- The translations of some pages of an address space are dropped from every core. -/
def dropTlb (s : State) (asid : BitVec 16) (inRange : Nat → Bool) : State :=
  let gone := fun (e : Nat × (BitVec 64 × Nat)) => e.1 / 2 ^ 37 % 2 ^ 16 == asid.toNat && inRange (e.1 % 2 ^ 37)
  let s1 := (s.tlb.filter gone).foldl (fun s e => noteFrame s e.1 e.2) s
  { s1 with tlb := s.tlb.filter (fun e => !gone e) }

/-- The page number of a VA lies in a region of a launch. -/
def pageInRegion (l : Launch) (vpn : Nat) : Bool :=
  l.regions.any (fun r =>
    let first := bits r.toNat 63 0 / 4096
    (below (bits r.toNat 95 64)).any (fun k => (first + k) % 2 ^ 37 == vpn))

/-- SNAP set in the leaf of every page of a launch's regions. -/
def markRegions (s : State) (l : Launch) : State :=
  dropTlb ((launchPages l).foldl (markPage l.asid) s) l.asid (pageInRegion l)

/-- No core could hold a bed of a launch, or no instance of its tier a group: the status of Table 16.6. -/
def fitStatus (s : State) (k : Nat) (l : Launch) : Option Nat :=
  let s0 := emptied s
  let t := recField l.record 361 360
  let w := tierWidth t
  if !(below Config.numCores).any (coreFits s0 k l) then some 0x13
  else if t ≠ 0 && !((below (Config.numCores / w)).any (fun i =>
      (placeRun k l (fun c => c / w == i) (recField l.record 383 368) l.nextBed s0).isSome)) then some 0x14
  else none

/-- The words that a launch's semaphore takes name. -/
def takeWords (s : State) (l : Launch) : List Nat :=
  (usedDeps l.record).filterMap (fun d =>
    if depKind d = 3 then (translateAt s l.asid (depRef d) true).map (fun x => x.1 / 4) else none)

/-- A launch that came to the pool before takes from a word that this one takes from, and could now: it is served first (R330). -/
def earlierTaker (s : State) (k : Nat) (l : Launch) : Bool :=
  s.launches.any (fun x => x.1 != k && x.2.stage == .pool && decide (x.2.order < l.order) &&
    (takeWords s x.2).any (fun w => (takeWords s l).contains w) && (usedDeps x.2.record).all (depHolds s x.2.asid))

/-- A launch leaves the pool (R330): without takes once its dependences have held together, as their registration at the objects has
noticed (R329); with takes only where all hold now, in order of arrival. -/
def takeInTurn (s : State) (k : Nat) (l : Launch) : Option State :=
  if (usedDeps l.record).all (fun d => depKind d != 3) then
    if l.met || (usedDeps l.record).all (depHolds s l.asid) then some s else none
  else if earlierTaker s k l then none
  else takeDeps s l

/-- The registrations of the launches of the pool notice dependences that hold (R329). -/
def noteDeps (s : State) : State :=
  (s.launches.filter (fun x => x.2.stage == .pool && !x.2.met && (usedDeps x.2.record).all (depHolds s x.2.asid))).foldl
    (fun s x => modLaunch s x.1 (fun l => { l with met := true })) s

/-- The current queue of a level that has stopped being ready gives way to the next ready one, or loses its credit (R331). -/
def noteQueues (s : State) : State :=
  s.hostIf.curQ.foldl (fun s x =>
    if (mfind s.hostIf.queues x.2).isNone || queueReadyAt s (getQueue s x.2) then s
    else
      let qs := readyQueues s x.1
      if qs.isEmpty then modQueue s x.2 (fun q => { q with credit := 0 }) else moveCurrent s x.1 qs) s

/-- A launch that runs nothing gives up what arming took. -/
def rejectArmed (s : State) (k st : Nat) : State := rejectLaunch (stopColls s k) k st 0

/-- A launch whose record is in order: its bindings arm, it must fit somewhere, and it waits for its dependences or is placed;
a replay tests none (R389, R330, R362). -/
def enrol (s : State) (k : Nat) (l : Launch) (replay : Bool) : State :=
  match armFrom k l s 0 l.binds with
  | .inl (b, why) => rejectLaunch s k 3 (b + why * 4)
  | .inr s1 =>
    match fitStatus s1 k l with
    | some st => rejectArmed s1 k st
    | none =>
      let go := fun (s : State) => modLaunch (markRegions s l) k (fun l => { l with stage := .placing, left := true })
      if replay || (usedDeps l.record).isEmpty then go s1
      else
        match takeInTurn s1 k l with
        | some s2 => go s2
        | none => modLaunch s1 k (fun l => { l with stage := .pool, slotHeld := false, met := false })

/-- The record of a launch is read and checked (R328). -/
def startLaunch (s : State) (k : Nat) (replay : Bool) : State :=
  match getLaunch s k with
  | none => s
  | some l =>
    let x := readRecord s l
    let s1 := modLaunch s k (fun _ => x.1)
    match x.2 with
    | some (st, detail) => rejectLaunch s1 k st detail
    | none => enrol s1 k x.1 replay

/-- A launch as the arbiter picks it (R327, R425). -/
def newLaunch (s : State) (queue : Nat) (q : HQueue) (e : BitVec 512) : Launch :=
  { record := blankRecord, pins := [], regions := [], binds := [], fn := queueField q 87 82, queue := queue, level := queueLevel q,
    asid := BitVec.ofNat 16 (queueField q 114 99), tag := BitVec.ofNat 32 (bits e.toNat 127 96), ident := s.nextLaunch,
    lrva := BitVec.ofNat 64 e.toNat, attempts := 1, stage := .completing, nextBed := 0, exited := 0, dropped := false, touched := [],
    snaps := [], fired := [], collFail := none, early := none, killDie := none, claims := [], slotHeld := true,
    order := s.nextLaunch.toNat, left := false, met := false, placed := 0, pickImage := activeImage s 1 }

/-- HEAD or TAIL of a queue as its descriptor in device memory shows it (Table 20.3). -/
def showQueue (s : State) (queue off : Nat) (x : Word) : State :=
  homePuts s (s.hostIf.qdtva.toNat + 32 * queue + off) (natLe 4 x.toNat)

/-- The entry at a queue's head becomes a launch (R327, R425). -/
def takeEntry (s : State) (queue : Nat) : State :=
  let q := getQueue s queue
  let e := headEntry s q
  let f := fresh s
  let l := newLaunch s queue q e
  let s1 := { f.2 with launches := mset f.2.launches f.1 l, nextLaunch := s.nextLaunch + 1#64 }
  let s2 := showQueue (modQueue s1 queue (fun q => { q with
      head := q.head + 1#32, credit := q.credit - 1, busy := some f.1,
      seen := mdel q.seen (q.head.toNat % 2 ^ queueField q 69 65) }))
    queue 16 (q.head + 1#32)
  if !entryOk e then rejectLaunch s2 f.1 0x10 0
  else if bits e.toNat 71 64 = 0 then rejectLaunch s2 f.1 0 0
  else startLaunch s2 f.1 false

/-- ARBITER_PICK (R331): with a launch slot free, the head of the current queue of the level that is served. -/
def execArbiterPick (s : State) : Out :=
  match pickLevel s with
  | none => .next s
  | some level =>
    if 16 ≤ slotsHeld s then .next s
    else
      let others := (readyLevels s).filter (fun l => l != level)
      let x := currentQueue s level
      let s1 := takeEntry x.1 x.2
      let qs := readyQueues s1 level
      let s2 := if ((getQueue s1 x.2).credit == 0 || !qs.contains x.2) && !qs.isEmpty then moveCurrent s1 level qs else s1
      .next (passOver s2 level others)

/-- DEPENDENCE_SATISFIED (R330): a launch of the pool whose dependences all hold takes a free launch slot and leaves the pool. -/
def execDependenceSatisfied (launch : Nat) (s : State) : Out :=
  match getLaunch s launch with
  | none => .next s
  | some l =>
    if l.stage ≠ .pool || decide (16 ≤ slotsHeld s) then .next s
    else
      match takeInTurn s launch l with
      | none => .next s
      | some s1 => .next (modLaunch (markRegions s1 l) launch (fun l => { l with stage := .placing, slotHeld := true, left := true }))

/-! ## Placement (R334, R337) -/

/-- The launches that still have beds to place, as name, level and order of pick. -/
def placing (s : State) : List (Nat × Launch) := s.launches.filter (fun l => l.2.stage == .placing)

/-- One launch comes before another at the dispatcher: by level, then by order of pick. -/
def goesFirst (a b : Launch) : Bool := decide (a.level < b.level) || (a.level == b.level && decide (a.order < b.order))

/-- The groups of pre-empted beds, each by its lowest bed. -/
def savedGroups (s : State) : List (Nat × Bed) := s.beds.filter (fun b => b.2.stage == .preempted && b.2.savedPlot)

/-- Free resources go to a launch's next bed: to no launch that comes first, and to no pre-empted beds of its level or a lower one. -/
def hasTurn (s : State) (l : Launch) : Bool :=
  (placing s).all (fun x => !goesFirst x.2 l || (placeNext s x.1 x.2).isNone) &&
    (savedGroups s).all (fun b => decide (l.level < levelOf s b.1) || (resumeSpot s b.1).isNone)

/-- The launch's next bed or group is placed; with the last one it gives its launch slot back. -/
def afterPlacement (s : State) (k : Nat) (l : Launch) : State :=
  let n := l.nextBed + groupSize l
  let last := decide (bedCount l ≤ n)
  modLaunch s k (fun l => { l with
    nextBed := n, stage := if last then .running else .placing, slotHeld := if last then false else l.slotHeld, placed := s.ticks })

/-- A group of resident beds of a launch on a plot that could be pre-empted now. -/
def mayPreempt (s : State) (launch p : Nat) : Bool :=
  let bs := groupOn s launch p
  !bs.isEmpty && (ensureImages bs s).isSome

/-- The package without a group of beds, whose banks stay in its name (R86, R88). -/
def withoutGroup (s : State) (g : Nat × Nat) : State :=
  let bs := groupOn s g.1 g.2
  bs.foldl (fun s b => modCore (modBed s b.1 (fun x => { x with stage := .preempted })) b.2.core (fun c => { c with
    claim := if c.claim == some b.1 then none else c.claim, bsOwn := c.bsOwn.filter (fun k => k != g.1) })) s

/-- A victim launch comes before another: the higher level, then the one placed most recently (R337). -/
def victimFirst (a b : Nat × Launch) : Bool := decide (b.2.level < a.2.level) || (a.2.level == b.2.level && decide (b.2.placed < a.2.placed))

/-- A launch put in its place among victims. -/
def insertVictim (x : Nat × Launch) : List (Nat × Launch) → List (Nat × Launch)
  | [] => [x]
  | y :: r => if victimFirst x y then x :: y :: r else y :: insertVictim x r

/-- The launches that a launch may pre-empt, in the order of R337, each with its groups of beds: launch and plot. -/
def victimGroups (s : State) (l : Launch) : List (List (Nat × Nat)) :=
  let ls := (s.launches.filter (fun x => decide (l.level + s.hostIf.prethr.toNat ≤ x.2.level))).foldl
    (fun acc x => insertVictim x acc) []
  ls.map (fun x => ((below 64).filter (fun p => mayPreempt s x.1 p)).map (fun p => (x.1, p)))

/-- The launch's next bed fits once some groups are gone. -/
def sufficient (s : State) (k : Nat) (l : Launch) (gs : List (Nat × Nat)) : Bool := (placeNext (gs.foldl withoutGroup s) k l).isSome

/-- Some groups that suffice together, less those without which the rest still do: the later ones in the order of R337 first. -/
def neededOf (s : State) (k : Nat) (l : Launch) (gs : List (Nat × Nat)) : List (Nat × Nat) :=
  gs.reverse.foldl (fun kept g => if sufficient s k l (kept.erase g) then kept.erase g else kept) gs

/-- The first of some groups of which each frees something that the launch's next bed needs, where no one group suffices. -/
def firstNeeded (s : State) (k : Nat) (l : Launch) (gs : List (Nat × Nat)) : Option (Nat × Nat) :=
  if sufficient s k l gs then (neededOf s k l gs).head? else none

/-- Among the groups of one launch, the one that is pre-empted: the first that suffices alone, or the first needed of those that suffice
together. -/
def victimOfLaunch (s : State) (k : Nat) (l : Launch) (gs : List (Nat × Nat)) : Option (Nat × Nat) :=
  match gs.find? (fun g => sufficient s k l [g]) with
  | some g => some g
  | none => firstNeeded s k l gs

/-- The group that is pre-empted for a launch: of the first launch in the order of R337 whose beds free what it needs, or else of the
first one where several launches' beds do. -/
def chooseVictim (s : State) (k : Nat) (l : Launch) : Option (Nat × Nat) :=
  let gs := victimGroups s l
  match gs.findSome? (victimOfLaunch s k l) with
  | some g => some g
  | none => firstNeeded s k l gs.flatten

/-- BED_PLACEMENT (R334): the next bed or group of a launch is placed; or beds of a launch of a far higher level are pre-empted for
it (R337); or a launch that fits nowhere completes (Table 16.6). -/
def execBedPlacement (launch : Nat) (s : State) : Out :=
  match getLaunch s launch with
  | none => .next s
  | some l =>
    if l.stage ≠ .placing then .next s
    else
      match (if l.nextBed = 0 then fitStatus s launch l else none) with
      | some st => .next (rejectArmed s launch st)
      | none =>
        if !hasTurn s l then .next s
        else
          match placeNext s launch l with
          | some s1 => .next (afterPlacement s1 launch l)
          | none =>
            if !pinsReadable s l then .next s
            else
              match chooseVictim s launch l with
              | none => .next s
              | some g =>
                match lowestBed (groupOn s g.1 g.2) with
                | some b => .next (due s (.preemption b.1))
                | none => .next s

/-! ## Completion (R338) -/

/-- The B-store range, the matrix claims and the snapshots of a launch are free. -/
def freeLaunch (s : State) (k : Nat) (l : Launch) : State :=
  let mine := fun (b : Nat) => match getBed s b with
    | some bd => bd.launch == k
    | none => false
  { s with
    cores := s.cores.map (fun c => (c.1, { c.2 with
      bsOwn := c.2.bsOwn.filter (fun x => x != k),
      claim := if l.claims.contains c.1 || (match c.2.claim with
          | some b => mine b
          | none => false) then none else c.2.claim })),
    poolUsed := s.poolUsed.filter (fun p => !l.snaps.any (fun x => x.2 == p)) }

/-- The completion word (R338): written through the launch's address space, or its absence logged.  R338 has no case for a CVA that is not
8-byte aligned: DESIGN CHOICE, the write is skipped and kind 18 logged, as where CVA does not translate (log 131). -/
def writeCompletion (s : State) (l : Launch) (st detail : Nat) : State :=
  let cva : DWord := BitVec.ofNat 64 (recField l.record 959 896)
  let skip := logEvent s 18 0 none (BitVec.ofNat 32 st) l.ident.toNat
  if cva = 0#64 then s
  else if cva.toNat % 8 ≠ 0 then skip
  else (vaWrite l.asid s cva (natLe 8 (st % 2 ^ 16 + l.attempts % 256 * 2 ^ 16 + detail % 256 * 2 ^ 24 + l.tag.toNat * 2 ^ 32))).getD skip

/-- The arrival on the completion barrier. -/
def arriveCompletion (s : State) (l : Launch) : State :=
  let ref : DWord := BitVec.ofNat 64 (recField l.record 1023 960)
  if refSpace ref = 2 then s
  else if !cbarOk ref then logEvent s 15 0 none (BitVec.ofNat 32 (5 + refTag ref * 256)) l.ident.toNat
  else (engineArrive s l.asid 0 ref 1 0 5 0 l.ident.toNat).1

/-- The completion notice (R408). -/
def notify (s : State) (l : Launch) : State :=
  let v := queueField (getQueue s l.queue) 98 88
  if s.hostIf.masked.contains (l.fn, v) then s
  else { s with hostIf := { s.hostIf with notices := s.hostIf.notices ++ [(l.queue, v)] } }

/-- Status and detail of a launch whose beds have all exited.  R34 asks for DROPPED and R389 for COLLFAIL, and no rule says which a launch
with both has: DESIGN CHOICE, COLLFAIL (log 123). -/
def endStatus (l : Launch) : Nat × Nat :=
  match l.collFail with
  | some (b, why) => (3, b + why * 4)
  | none => (if l.dropped then 1 else 0, 0)

/-- With no bed left, no thread can fetch a word as it stood before a running launch wrote it (R170), nor load an early value. -/
def settleCode (s : State) : State := if s.beds.isEmpty then { s with oldCode := [], early := [] } else s

/-- LAUNCH_COMPLETION (R338): after every bound collective has arrived. -/
def execLaunchCompletion (launch : Nat) (s : State) : Out :=
  match getLaunch s launch with
  | none => .next s
  | some l =>
    if l.stage ≠ .completing || !(collsOf s launch).isEmpty then .next s
    else
      let x := l.early.getD (endStatus l)
      let s1 := if l.early.isSome then s else freeLaunch s launch l
      let s2 := notify (arriveCompletion (writeCompletion s1 l x.1 x.2) l) l
      .next (settleCode (modLaunch s2 launch (fun l => { l with stage := .done, slotHeld := false, snaps := [], claims := [] })))

/-! ## Kills (R360, R361) -/

/-- A ticket stands for a page fault of a copy. -/
def ticketOfCopy (id : Nat) (t : Ticket) : Bool :=
  match t with
  | .copy k => k == id
  | _ => false

/-- Copies of a launch end without arrival, and their locks go. -/
def endCopies (s : State) (launch : Nat) : State :=
  (s.copies.filter (fun c => c.2.launch == launch)).foldl (fun s c =>
    let s1 := freeLocks { s with copies := mdel s.copies c.1 } (plotOf c.2.core) c.2.locks
    { s1 with hostIf := { s1.hostIf with tickets := s1.hostIf.tickets.filter (fun t => !ticketOfCopy c.1 t.2) } }) s

/-- A bed is removed without write-back: nothing of it stays on its core and plot (R360, step 3). -/
def removeBed (s : State) (b : Nat) (bd : Bed) : State :=
  let s1 := freeImage s b
  let s2 := if bd.stage = .preempted then
      modPlot s1 (plotOf bd.core) (fun pl => { pl with bankOwner := pl.bankOwner.filter (fun o => o.2 != b) })
    else
      let s2 := match (getCore s1 bd.core).tmm with
        | some t => if t.bed = b then freeLocks s1 (plotOf bd.core) t.locks else s1
        | none => s1
      let s3 := modCore s2 bd.core (fun c => { c with
        tmm := (match c.tmm with
          | some t => if t.bed = b then none else some t
          | none => none),
        gate := c.gate.filter (fun g => match g with
          | .fire _ _ _ x => x != b),
        attempts := c.attempts.filter (fun a => a.2.cur.bed != b),
        claim := if c.claim == some b then none else c.claim,
        frozen := if c.claim == some b then false else c.frozen })
      clearBed s3 b bd
  { s2 with
    beds := mdel s2.beds b,
    hostIf := { s2.hostIf with tickets := s2.hostIf.tickets.filter (fun t => match t.2 with
      | .log x _ _ => x != b
      | .fetch x _ _ => x != b
      | .fetchFail x _ _ => x != b
      | .copy _ => true
      | .snap .. => true) } }

/-- The physical pages that the regions of a launch map to. -/
def regionFrames (s : State) (l : Launch) : List Nat :=
  (launchPages l).filterMap (fun va => (translateAt s l.asid va false).map (fun x => x.1 / 4096))

/-- Cached words of some pages are dropped without write-back. -/
def dropCached (s : State) (pages : List Nat) : State :=
  let keep := fun (w : Nat) => !pages.contains (untag w / 1024)
  { s with
    plots := s.plots.map (fun p => (p.1, { p.2 with l1 := p.2.l1.filter (fun w => keep w.1) })),
    l2 := s.l2.map (fun t => (t.1, t.2.filter (fun w => keep w.1))), home := s.home.filter (fun w => keep w.1) }

/-- Each page on the snapshot list is copied back, and its snapshot page returns to the pool (R360, step 4). -/
def restorePages (s : State) (k : Nat) (l : Launch) : State :=
  let pages := regionFrames s l ++ l.snaps.map (fun x => x.1)
  let s1 := dropCached (dropTlb s l.asid (pageInRegion l)) pages
  let s2 := l.snaps.foldl (fun s x => copyPage s x.2 x.1) s1
  modLaunch { s2 with poolUsed := s2.poolUsed.filter (fun p => !l.snaps.any (fun x => x.2 == p)) } k (fun l => { l with snaps := [] })

/-- One object of the touched list gets the arrival that the killed launch still owed (R361). -/
def abandonArrival (l : Launch) (s : State) (va : DWord) : State :=
  if inRegion l va.toNat then s
  else
    match translateAt s l.asid va true with
    | none => s
    | some (pa, _) =>
      let loc : BarLoc := { scratch := false, plot := 0, loc := pa }
      let b := barAt s loc
      if (decide (0 < b.left) && decide (b.left < b.expect)) || hasWaiters s loc then
        (arriveAt (unsnap s l.asid va) loc b.left 8).getD s
      else s

/-- The kill's event: numbered by die 0, it names the event of the core that raised the cause (R421): its number where the log holds that
event, and a free one where no event kind stands for it.  Table 21.6 gives the failing core no field of the entry: it is kept beside
the log, by the entry's number (R360; log 12). -/
def logKill (s : State) (l : Launch) (cause : Nat) : State :=
  let t := logEvent s 6 0 (l.killDie.map (fun d => (d, l.killSeq.getD (Config.freeWord (salt s 9950))))) (BitVec.ofNat 32 cause)
    l.ident.toNat
  match l.killCore with
  | some c => { t with killCores := t.killCores ++ [((getDie s 0).seq, c)] }
  | none => t

/-- What follows a kill (R362): a replay while there are some left and no bound collective has failed, else completion. -/
def afterKill (s : State) (k : Nat) : State :=
  match getLaunch s k with
  | none => s
  | some l =>
    match l.collFail with
    | some (b, why) => rejectLaunch s k 3 (b + why * 4)
    | none =>
      if l.attempts ≤ recField l.record 218 216 then due (modLaunch s k (fun l => { l with stage := .killed })) (.launchReplay k)
      else rejectLaunch s k 2 0

/-- Fires of a killed launch that no step has taken yet are gone: its replay fires anew (R360, R390). -/
def discardFires (s : State) (launch : Nat) : State :=
  { s with agenda := s.agenda.filter (fun e => match e with
      | .collectiveFire l _ _ _ _ => l != launch
      | _ => true) }

/-- LAUNCH_KILL (R360). -/
def execLaunchKill (launch : Nat) (cause : BitVec 5) (s : State) : Out :=
  match getLaunch s launch with
  | none => .next s
  | some l =>
    if l.early.isSome || !(l.stage == .placing || l.stage == .running || l.stage == .completing) then .next s
    else
      let s1 := discardBatches (abandonSearches (endCopies (stopColls s launch) launch) launch) launch
      let s2 := (s1.beds.filter (fun b => b.2.launch == launch)).foldl (fun s b => removeBed s b.1 b.2) s1
      let s3 := restorePages (freeLaunch s2 launch { l with snaps := [] }) launch ((getLaunch s2 launch).getD l)
      let l3 := (getLaunch s3 launch).getD l
      let s4 := l3.touched.foldl (abandonArrival l3) s3
      .next (afterKill (modLaunch (logKill (discardFires s4 launch) l3 cause.toNat) launch
        (fun l => { l with claims := [], killDie := none, killCore := none, killSeq := none })) launch)

/-- LAUNCH_REPLAY (R362): the record is read again and the launch runs anew, under its identifier. -/
def execLaunchReplay (launch : Nat) (s : State) : Out :=
  match getLaunch s launch with
  | none => .next s
  | some l =>
    if l.stage ≠ .killed then .next s
    else
      let s1 := modLaunch s launch (fun l => { l with
        attempts := l.attempts + 1, nextBed := 0, exited := 0, dropped := false, touched := [], snaps := [], fired := [],
        collFail := none, killDie := none, killCore := none, killSeq := none })
      .next (startLaunch (logEvent s1 7 0 none (BitVec.ofNat 32 (l.attempts + 1)) l.ident.toNat) launch true)

end Sys2Proof.Machine
end

