-- ==== Sys2Proof/Machine/HostEvents.lean ====
section
/-! DEFINITION. What the host does: doorbells and queue commands (R405, R407, R408), register writes (R404, Table 20.2), BAR4 accesses
(R135, R403, R406), INVAL (R357) and the arbitration policy (R333). -/

namespace Sys2Proof.Machine

/-! ## Queues -/

/-- A descriptor keeps to Table 20.3. -/
def descriptorOk (d : BitVec 256) : Bool :=
  let f := fun hi lo => bits d.toNat hi lo
  f 63 0 % 64 == 0 && decide (4 ≤ f 69 65) && decide (f 69 65 ≤ 16) && decide (f 73 70 ≤ 11) && f 81 74 != 0 &&
    f 127 115 == 0 && f 255 192 == 0

/-- The function-table word of a function, as memory holds it now (R406). -/
def functionWord (s : State) (fn : Nat) : Word := (homeWord s ((s.hostIf.fntab.toNat + 4 * fn) / 4)).1

/-- QSTAT of a function. -/
def setQstat (s : State) (fn : Nat) (x : BitVec 2) : State := modFn s fn (fun f => { f with qstat := x })

/-- QCMD_ENABLE (R405 to R407): the descriptor is read now, but for HEAD and TAIL, which are hardware's (R6); one that breaks its table, or
names another ASID than its VF's, gives QSTAT 1; one of another function is refused with QSTAT 2. -/
def execQcmdEnable (fn : Nat) (q : BitVec 16) (s : State) : Out :=
  whenOpen s 0 fn 0
    (let d : BitVec 256 := BitVec.ofNat 256 (leNat (homeBytes s (s.hostIf.qdtva.toNat + 32 * q.toNat) 32))
     let off := modQueue s q.toNat (fun x => { x with enabled := false })
     if bits d.toNat 87 82 ≠ fn then .next (refuse (setQstat s fn 2#2) 0 fn)
     else if !descriptorOk d then .next (setQstat off fn 1#2)
     else
       let w := functionWord s fn
       let s1 := modFn s fn (fun f => { f with word := w })
       if fn ≠ 0 && !(w.getLsbD 16 && w.toNat % 2 ^ 16 == bits d.toNat 114 99) then
         .next (setQstat (modQueue s1 q.toNat (fun x => { x with enabled := false })) fn 1#2)
       else
         .next (setQstat (modQueue s1 q.toNat (fun x => { x with desc := d, enabled := true, seen := [] })) fn 0#2))

/-- The function that owns a queue, by the descriptor last read. -/
def queueOwner (s : State) (q : Nat) : Nat := queueField (getQueue s q) 87 82

/-- QCMD_DISABLE (R408): picks from the queue stop; launches already picked run on. -/
def execQcmdDisable (fn : Nat) (q : BitVec 16) (s : State) : Out :=
  whenOpen s 0 fn 0
    (if queueOwner s q.toNat ≠ fn then .next (refuse (setQstat s fn 2#2) 0 fn)
     else .next (setQstat (modQueue s q.toNat (fun x => { x with enabled := false })) fn 0#2))

/-- A queue notes its entries from one index to another as they stand. -/
def noteEntries (s : State) (q : HQueue) (n : Nat) : HQueue :=
  (below n).foldl (fun x k =>
    let i := x.tail + BitVec.ofNat 32 k
    { x with seen := mset x.seen (i.toNat % 2 ^ queueField x 69 65) (entryAt s x i) }) q

/-- DOORBELL (R408): a new tail, or a write that is discarded and logged; one from another function is refused (R405). -/
def execDoorbell (fn : Nat) (q : BitVec 16) (tail : BitVec 64) (s : State) : Out :=
  whenOpen s 2 fn 0
    (let x := getQueue s q.toNat
     let t : Word := BitVec.ofNat 32 tail.toNat
     let n := 2 ^ queueField x 69 65
     if queueOwner s q.toNat ≠ fn then .next (refuse s 2 fn)
     else if x.enabled && decide (tail.toNat < 2 ^ 32) && decide ((t - x.head).toNat ≤ n) && decide ((t - x.tail).toNat ≤ n) then
       .next (showQueue (modQueue s q.toNat (fun x => { noteEntries s x (t - x.tail).toNat with tail := t })) q.toNat 20 t)
     else .next (discard s 2 fn))

/-! ## Registers (Table 20.2) -/

/-- Entries that a full ring held back are posted as far as there is room now (R405). -/
def flushBacklog (s : State) (fn : Nat) : State :=
  let mine := s.hostIf.backlog.filter (fun e => e.1 == fn)
  let s1 := { s with hostIf := { s.hostIf with backlog := s.hostIf.backlog.filter (fun e => e.1 != fn) } }
  mine.foldl (fun s e => postEntry s fn e.2) s1

/-- The state with the host interface changed. -/
def modHost (s : State) (f : HostIf → HostIf) : State := { s with hostIf := f s.hostIf }

/-- A function has a capability: VFs have queues and faults only (R404). -/
def hasCap (fn id : Nat) : Bool := decide (1 ≤ id) && decide (id ≤ if fn = 0 then 7 else 2)

/-- The capability that has an offset of BAR0 (DESIGN CHOICE, log 90): 1 to 5 stand at 256 × their ID, 7 at 600H, 6 from 700H on. -/
def capIdAt (a : Nat) : Nat := if a < 0x600 then a / 256 else if a < 0x700 then 7 else 6

/-- Where a capability has its header. -/
def capAt (id : Nat) : Nat := if id = 7 then 0x600 else if id = 6 then 0x700 else 256 * id

/-- The part of the identity certificate chain that the identity capability holds (R413). -/
def chainBytes : List Byte := firstN 0xF8F0 Config.certChain

/-- LENGTH of a capability (R404): header, and the registers of Table 20.2, the mailbox, the chain or the event log's (log 90). -/
def capLength (id : Nat) : Nat :=
  match id with
  | 1 => 32
  | 4 => 32
  | 2 => 48
  | 3 => 48
  | 5 => 16 + Config.mailboxLength % 241
  | 6 => 16 + chainBytes.length
  | _ => 64

/-- The capability whose header follows that of another, in a list that ends with 6. -/
def capAfter (id : Nat) : Nat := if id = 5 then 7 else if id = 7 then 6 else id + 1

/-- The header of a capability (R404). -/
def capHeader (fn id : Nat) : BitVec 128 :=
  let next := if id ≠ 6 && hasCap fn (capAfter id) then capAt (capAfter id) else 0
  BitVec.ofNat 128 (id + 2 ^ 16 + capLength id * 2 ^ 32 + next * 2 ^ 64)

/-- Two registers of 32 bits side by side. -/
def twoWords (lo hi : Nat) : DWord := BitVec.ofNat 64 (lo % 2 ^ 32 + hi * 2 ^ 32)

/-- A command of a function's QCMD is under way. -/
def qcmdBusy (s : State) (fn : Nat) : Bool :=
  s.agenda.any (fun e => match e with
    | .qcmdEnable f _ => f == fn
    | .qcmdDisable f _ => f == fn
    | _ => false)

/-- An INVAL is under way. -/
def invalBusy (s : State) : Bool :=
  s.agenda.any (fun e => match e with
    | .inval .. => true
    | _ => false)

/-- Eight bytes of registers from offset 8k after a capability's header, as a read gives them (Table 20.2); write-only fields read as free
values. -/
def capReg (s : State) (fn id k : Nat) : Option DWord :=
  let f := getFn s fn
  let h := s.hostIf
  let any := fun n => (Config.freeWord (salt s (5800 + n))).toNat
  match id, k with
  | 1, 0 => if fn = 0 then some h.qdtva else none
  | 1, 1 => some (twoWords (any 0 % 2 ^ 17 + (if qcmdBusy s fn then 2 ^ 31 else 0)) f.qstat.toNat)
  | 2, 0 => some f.fqbase
  | 2, 1 => some (twoWords f.fqlog f.fqtail.toNat)
  | 2, 2 => some (twoWords f.fqhead.toNat 0)
  | 2, 3 => some (twoWords (any 1) (any 2 % 4))
  | 3, 0 => some h.asidtab
  | 3, 1 => some h.invalva
  | 3, 2 => some (h.invalcmd ||| (if invalBusy s then 0x8000000000000000#64 else 0#64))
  | 3, 3 => some h.fntab
  | 4, 0 => some h.ctxbase
  | 4, 1 => some h.ctxsize
  | 7, 0 => some h.logIndex
  | 7, 1 => some (twoWords s.evlog.length s.evlost)
  | 7, _ => if k < 6 then some (BitVec.ofNat 64 ((lget s.evlog h.logIndex.toNat 0#256).toNat / 2 ^ (64 * (k - 2)))) else none
  | _, _ => none

/-- Byte o after a capability's header: registers, the mailbox's bytes, which no rule gives, the certificate chain (R413). -/
def capByte (s : State) (fn id o : Nat) : Option Byte :=
  if capLength id ≤ 16 + o then none
  else
    match id with
    | 5 => some ((Config.freeWord (salt s (5850 + o))).setWidth 8)
    | 6 => some (lget chainBytes o 0#8)
    | _ => (capReg s fn id (o / 8)).map (fun x => BitVec.ofNat 8 (x.toNat / 2 ^ (8 * (o % 8))))

/-- A byte of a function's BAR0 (R403, R404); none outside what it implements. -/
def bar0Byte (s : State) (fn a : Nat) : Option Byte :=
  let id := capIdAt a
  let o := a - capAt id
  if !hasCap fn id || decide (0x10000 ≤ a) then none
  else if o < 16 then some (BitVec.ofNat 8 ((capHeader fn id).toNat / 2 ^ (8 * o)))
  else capByte s fn id (o - 16)

/-- A read of BAR0 or BAR2 by the host (R403, R404): a doorbell, which no rule gives a value to read, reads as a free one. -/
def readBar (fn bar : Nat) (off : BitVec 64) (size : Nat) (s : State) : Out :=
  whenOpen s bar fn size
    (let bs := (upFrom off.toNat size).filterMap (fun a =>
       if bar = 0 then bar0Byte s fn a
       else if bar = 2 && decide (a < 2 ^ 19) then some ((Config.freeWord (salt s (5900 + a % 8))).setWidth 8) else none)
     .next (if bs.length = size then answer s bs else refused s bar fn size))

/-- REGISTER_WRITE (R404): a register of Table 20.2 at its place in BAR0.  The table gives offsets from the end of a capability's
header only; where a header stands is the model's choice (log 90), and so are the registers of the event log, of which INDEX, the entry
shown, can be written.  Registers with an event of their own raise that event; what a write to the mailbox starts comes as an event. -/
def execRegisterWrite (fn : Nat) (off : BitVec 16) (value : BitVec 64) (s : State) : Out :=
  whenOpen s 0 fn 0
    (let v := value.toNat
     let w : Word := BitVec.ofNat 32 v
     let id := capIdAt off.toNat
     let o := off.toNat - capAt id
     let at_ := (id, o - 16)
     if !hasCap fn id || (fn ≠ 0 && o ≥ 16 && at_ == (1, 0)) || decide (capLength id ≤ o) then .next (refuse s 0 fn)
     else if o < 16 then .next s
     else
       match at_ with
       | (1, 0x00) => .next (modHost s (fun h => { h with qdtva := BitVec.ofNat 64 (v / 4096 * 4096) }))
       | (1, 0x08) =>
         if !w.getLsbD 31 then .next s
         else .next (due s (if w.getLsbD 16 then .qcmdEnable fn (BitVec.ofNat 16 v) else .qcmdDisable fn (BitVec.ofNat 16 v)))
       | (1, 0x0C) => .next s
       | (2, 0x00) => .next (modFn s fn (fun f => { f with fqbase := BitVec.ofNat 64 (v / 4096 * 4096) }))
       | (2, 0x08) =>
         if 5 ≤ v % 32 ∧ v % 32 ≤ 16 then .next (flushBacklog (modFn s fn (fun f => { f with fqlog := v % 32 })) fn) else .next s
       | (2, 0x0C) => .next s
       | (2, 0x10) => .next (flushBacklog (modFn s fn (fun f => { f with fqhead := w })) fn)
       | (2, 0x18) =>
         (match bits v 33 32 with
          | 0 => .next (due s (.resumeRetry fn w))
          | 1 => .next (due s (.resumeFail fn w))
          | _ => .next s)
       | (3, 0x00) => .next (modHost s (fun h => { h with asidtab := value }))
       | (3, 0x08) => .next (modHost s (fun h => { h with invalva := BitVec.ofNat 64 (v / 4096 * 4096) }))
       | (3, 0x10) =>
         let s1 := modHost s (fun h => { h with invalcmd := BitVec.ofNat 64 (v % 2 ^ 48) })
         if !value.getLsbD 63 then .next s1
         else .next (due s1 (.inval (BitVec.ofNat 16 v) s.hostIf.invalva (BitVec.ofNat 32 (bits v 47 16))))
       | (3, 0x18) => .next (modHost s (fun h => { h with fntab := BitVec.ofNat 64 (v / 256 * 256) }))
       | (4, 0x00) => .next (modHost s (fun h => { h with ctxbase := value }))
       | (4, 0x08) => .next (modHost s (fun h => { h with ctxsize := value }))
       | (7, 0x00) => .next (modHost s (fun h => { h with logIndex := value }))
       | (5, _) => .next s
       | (6, _) => .next s
       | (7, _) => .next s
       | _ => .next (refuse s 0 fn))

/-- ARBPOL_WRITE (R333): a field out of range stays as it is. -/
def execArbpolWrite (value : BitVec 32) (s : State) : Out :=
  whenOpen s 0 0 0
    (let t := value.toNat % 16
     let n := bits value.toNat 16 4
     .next (modHost s (fun h => { h with
       prethr := if 1 ≤ t ∧ t ≤ 11 then BitVec.ofNat 4 t else h.prethr,
       starve := if 1 ≤ n ∧ n ≤ 4096 then BitVec.ofNat 13 n else h.starve })))

/-! ## BAR4 (R135, R403, R406) -/

/-- A host access to device memory at the home caches. -/
def bar4At (s : State) (a size : Nat) (wdata : Option (List (BitVec 8))) : State :=
  match wdata with
  | some bs => homePuts ((upFrom (a / 4) ((a % 4 + size + 3) / 4)).foldl noteHome s) a (firstN size bs)
  | none => answer s (homeBytes s a size)

/-- HOST_WRITE (R135): the host stores to its own memory.  What device threads have cached of it stays until an acquire, or until a cache
gives it up (R116, R120); a poisoned word written whole loses its poison. -/
def hostStore (addr : BitVec 64) (bytes : List (BitVec 8)) (s : State) : State :=
  let a := Config.hostBase + addr.toNat
  let n := bytes.length
  let ws := upFrom (a / 4) ((a % 4 + n + 3) / 4)
  let s1 := ws.foldl noteHome s
  { s1 with
    mem := (below n).foldl (fun m k => setByte m (a + k) (lget bytes k 0#8)) s1.mem,
    memPoison := (ws.filter (fun w => decide (a ≤ 4 * w) && decide (4 * w + 4 ≤ a + n))).foldl (fun m w => mput m w false false) s1.memPoison }

/-- Bytes that an access reads. -/
def readSize (size : Nat) (wdata : Option (List (BitVec 8))) : Nat := if wdata.isSome then 0 else size

/-- The word of the function table that an access of a VF uses: the one last read, or, where the driver has changed it since, freely the
present one (R406). -/
def functionNow (s : State) (fn : Nat) : Word :=
  let held := (getFn s fn).word
  if functionWord s fn = held then held else if Config.freeBool (salt s 5950) then held else functionWord s fn

/-- Memory Space Enable of a function is set or cleared; a VF's word is read when it is set (R406). -/
def setMemorySpace (fn : Nat) (on : Bool) (s : State) : State :=
  modFn s fn (fun f => { f with mse := on, word := if on && !f.mse then functionWord s fn else f.word })

/-- A vector of a function is masked or unmasked (R408). -/
def setVectorMask (fn vector : Nat) (on : Bool) (s : State) : State :=
  modHost s (fun h => { h with masked := (h.masked.filter (fun x => x != (fn, vector))) ++ (if on then [(fn, vector)] else []) })

/-- BAR4_ACCESS (R135): the PF window is physical; a VF's is translated through the ASID of its function-table word, and answers only with
Memory Space Enable set (log 90). -/
def execBar4Access (fn : Nat) (off : BitVec 64) (size : Nat) (wdata : Option (List (BitVec 8))) (s : State) : Out :=
  let no := refused s 4 fn (readSize size wdata)
  whenOpen s 4 fn (readSize size wdata)
    (if fn = 0 then .next (if off.toNat + size ≤ Config.deviceBytes then bar4At s off.toNat size wdata else no)
     else
       let w := functionNow s fn
       let asid : BitVec 16 := BitVec.ofNat 16 w.toNat
       if !(getFn s fn).mse || !w.getLsbD 16 || decide (2 ^ 36 < off.toNat + size) then .next no
       else
         match wdata with
         | some bs => .next ((vaWrite asid s off (firstN size bs)).getD no)
         | none =>
           match vaRead s asid size off with
           | some (bs, _) => .next (answer s bs)
           | none => .next no)

/-! ## INVAL (R357) -/

/-- The words of a cache whose tags name an address space and a page of a range (R357). -/
def namedIn (asid : BitVec 16) (hit : Nat → Bool) (m : Map CWord) : List Nat :=
  (m.map (fun x => x.1)).filter (fun k => k / 2 ^ 60 / 2 ^ 37 == asid.toNat && hit (k / 2 ^ 60 % 2 ^ 37))

/-- The lines of a range are written back and dropped from every L1 and L2 slice, by their tags, and from the home caches: their frames,
and some others. -/
def flushPages (s : State) (asid : BitVec 16) (hit : Nat → Bool) (frames : List Nat) : State :=
  let mine := fun (m : Map CWord) => namedIn asid hit m
  let seen := (below 64).flatMap (fun p => mine (getPlot s p).l1) ++ (below 16).flatMap (fun t => mine (l2Of s t))
  let s1 := (below 64).foldl (fun s p => (mine (getPlot s p).l1).foldl (fun s w => l1Revoke s p w) s) s
  let s2 := (below 16).foldl (fun s t => (mine (l2Of s t)).foldl (fun s w => terraceRevoke s t w) s) s1
  let all := frames ++ dedup (seen.map (fun k => untag k / 1024))
  ((s2.home.map (fun x => x.1)).filter (fun w => all.contains (w / 1024))).foldl homeFlush s2

/-- INVAL (R357): translations of the range are dropped, then its cached lines are written back and dropped. -/
def execInval (asid : BitVec 16) (va : BitVec 64) (pages : BitVec 32) (s : State) : Out :=
  whenOpen s 0 0 0
    (let first := va.toNat / 4096 % 2 ^ 37
     let hit := fun (vpn : Nat) => decide ((vpn + 2 ^ 37 - first) % 2 ^ 37 < pages.toNat)
     let old := (s.tlb.filter (fun e => e.1 / 2 ^ 37 % 2 ^ 16 == asid.toNat && hit (e.1 % 2 ^ 37))).map (fun e => tlbFrame (e.1 % 2 ^ 37) e.2)
     let now := (below pages.toNat).filterMap (fun k =>
       (translateAt s asid (va + BitVec.ofNat 64 (4096 * k)) false).map (fun x => x.1 / 4096))
     let range := fun (x : Nat × Nat) => x.1 / 2 ^ 37 == asid.toNat && hit (x.1 % 2 ^ 37)
     let before := (s.oldFrames.filter range).map (fun x => x.2)
     .next (flushPages { dropTlb s asid hit with oldFrames := s.oldFrames.filter (fun x => !range x) } asid hit (old ++ before ++ now)))

end Sys2Proof.Machine
end

