-- ==== Sys2Proof/Machine/Issue.lean ====
section
/-! DEFINITION. Issue: the fetch of an instruction (R170, R343, R351, R355), issue classes (R15), what an instruction reads
and needs (R51, R180, R229, R267), the eligible PC groups of a sheaf (R10), their order (R17) and the sheaf that a slot picks
(R37, R336). -/

namespace Sys2Proof.Machine

/-! ## Issue classes (Table 1.2) -/

/-- The class of a word: 1 A, 2 L, 3 W, 4 M, 5 X, 6 C, 7 G; 0 for a major that has none. -/
def wordClass (w : Word) : Nat :=
  let m := majorOf w.toNat
  if w.getLsbD 31 then (if m ≤ 0x0F then 1 else if 0x16 ≤ m then 7 else 0)
  else if m ≤ 0x0F then 1
  else if m = 0x10 ∨ m = 0x11 ∨ (0x15 ≤ m ∧ m ≤ 0x19) then 2
  else if 0x12 ≤ m ∧ m ≤ 0x14 then 3
  else if (0x1A ≤ m ∧ m ≤ 0x27) ∨ m = 0x2B then 4
  else if (0x28 ≤ m ∧ m ≤ 0x2A) ∨ m = 0x2C then 5
  else if 0x30 ≤ m ∧ m ≤ 0x37 then 6
  else 0

/-- The class of an instruction: an EXT pair takes that of its second word (R15). -/
def issueClass (inst0 inst1 : Word) : Nat := if isExtWord inst0 then wordClass inst1 else wordClass inst0

/-- The classes may issue together (Table 1.3). -/
def mayPair (x y : Nat) : Bool :=
  let one := fun x y => (x == 1 && decide (1 ≤ y) && y != 3 && y != 7) || (x == 2 && (y == 4 || y == 5))
  one x y || one y x

/-! ## What an instruction reads -/

/-- Registers that an instruction reads, and lane registers whose other lanes it keeps. -/
inductive Use where
  /-- n lane registers from vR, in the active lanes -/
  | lane (r n : Nat)
  /-- in every lane -/
  | all (r n : Nat)
  /-- in the lowest active lane -/
  | first (r : Nat)
  /-- by a class-W instruction, which waits for every earlier write (R229) -/
  | whole (r n : Nat)
  /-- n group registers from gR -/
  | group (r n : Nat)
  /-- n lane registers from vR that are written -/
  | dest (r n : Nat)
  /-- a group register that the whole control set reads (R12) -/
  | ctl (r : Nat)
  /-- the tag of a register in the lowest active lane, which needs no line (R49) -/
  | tagOf (r : Nat)
  deriving DecidableEq, Repr

/-- A source of an instruction that has a lane and a group form. -/
def srcUse (sc : Scope) (r : BitVec 7) : Use :=
  match sc with
  | .lane => .lane (rn r) 1
  | .group => .group (rn r) 1

/-- The destination and sources of a form with both scopes. -/
def scopedUse (sc : Scope) (d : BitVec 7) (srcs : List (BitVec 7)) : List Use :=
  (match sc with
   | .lane => [.dest (rn d) 1]
   | .group => []) ++ srcs.map (srcUse sc)

/-- A compare: it keeps the bits of the lanes that are not active (R13, R196). -/
def compareUse (sc : Scope) (d : BitVec 7) (srcs : List (BitVec 7)) : List Use := .group (rn d) 1 :: srcs.map (srcUse sc)

/-- Registers of a CVT operand of a format code: two for FP64 (R224). -/
def cvtCount (code : BitVec 4) : Nat := if code = 12#4 then 2 else 1

/-- What CVT reads and, in the lane form, writes. -/
def cvtUse (sc : Scope) (d a : BitVec 7) (t u : BitVec 4) : List Use :=
  match sc with
  | .lane => [.dest (rn d) (cvtCount t), .lane (rn a) (cvtCount u)]
  | .group => [.group (rn a) (cvtCount u)]

/-- Registers of an access of a size code. -/
def wdqRegs (m : BitVec 2) : Nat := wordCount (sizeWdq m)

/-- Registers of a store of a size code. -/
def bhwdRegs (m : BitVec 2) : Nat := wordCount (sizeBhwd m)

/-- Registers of MVT's operands beyond the first (R276). -/
def mvtUse (h : Word) (d a : Nat) : List Use :=
  match mvtHeader h with
  | some (kk, nn, _, _) => [.lane a kk, .dest d nn]
  | none => [.lane a 1]

/-- Registers of QMM and QMMS beyond the four of A (R271, R273). -/
def quarterUse (sparse : Bool) (ha hb : Word) (a : Nat) : List Use :=
  match headersOk (hdrOf ha) (hdrOf hb) sparse false with
  | some _ => ((if sparse then metaRegs (hdrOf ha).fmt a else []) ++ aScaleRegs (hdrOf ha) sparse a).map (fun r => .lane r 1)
  | none => []

/-- What a word other than EXT reads.  `hdr` gives the group registers that hold headers and counts, `elem` the registers of an
element of the queue at an address. -/
def usesOf (hdr : Nat → Word) (elem : Nat → Nat) (i : Instr) : List Use :=
  match i with
  | .add sc d a b | .sub sc d a b | .mul sc d a b | .mulh sc d a b | .mulhu sc d a b | .min sc d a b | .max sc d a b
  | .minu sc d a b | .maxu sc d a b | .and sc d a b | .or sc d a b | .xor sc d a b | .andn sc d a b | .shl sc d a b
  | .shr sc d a b | .sra sc d a b | .rol sc d a b | .ror sc d a b | .lea1 sc d a b | .lea2 sc d a b | .lea3 sc d a b
  | .addsat sc d a b | .subsat sc d a b | .fadd sc d a b | .fsub sc d a b | .fmul sc d a b | .fmin sc d a b | .fmax sc d a b
  | .fcpys sc d a b => scopedUse sc d [a, b]
  | .div sc d a b _ | .divu sc d a b _ | .rem sc d a b _ | .remu sc d a b _ => scopedUse sc d [a, b]
  | .madd sc d a b | .msub sc d a b | .ffma sc d a b | .ffms sc d a b => scopedUse sc d [a, b, d]
  | .clz sc d a | .popc sc d a | .brev sc d a | .abs sc d a | .neg sc d a | .mov sc d a | .fabs sc d a | .fneg sc d a
  | .fclass sc d a => scopedUse sc d [a]
  | .addi sc d a _ | .muli sc d a _ | .andi sc d a _ | .ori sc d a _ | .xori sc d a _ => scopedUse sc d [a]
  | .shli sc d a _ | .shri sc d a _ | .srai sc d a _ | .roli sc d a _ => scopedUse sc d [a]
  | .cvt sc d a t u _ _ => cvtUse sc d a t u
  | .li sc d _ | .srd sc d _ => scopedUse sc d []
  | .cmp sc d a b _ | .fcmp sc d a b _ => compareUse sc d [a, b]
  | .cmpi sc d a _ _ => compareUse sc d [a]
  | .movgv d a => [.dest (rn d) 1, .group (rn a) 1]
  | .movvg _ a => [.first (rn a)]
  | .tag _ a => [.tagOf (rn a)]
  | .laneid d => [.dest (rn d) 1]
  | .gen d => [.lane (rn d) 1]
  | .sel d a b | .pack4 d a b | .hfma2 d a b | .bfma2 d a b | .dp4a d a b | .dp4au d a b | .dp2h d a b | .dp4q d a b
  | .dp4qe d a b => [.lane (rn a) 1, .lane (rn b) 1, .lane (rn d) 1]
  | .pack2 d a b | .unpk d a b | .hadd2 d a b | .hsub2 d a b | .hmul2 d a b | .hmin2 d a b | .hmax2 d a b | .badd2 d a b
  | .bmul2 d a b => [.dest (rn d) 1, .lane (rn a) 1, .lane (rn b) 1]
  | .mpop _ a | .mffs _ a | .mfls _ a => [.group (rn a) 1]
  | .mnth _ a b => [.group (rn a) 1, .group (rn b) 1]
  | .dadd d a b | .dsub d a b | .dmul d a b | .dmin d a b | .dmax d a b => [.dest (rn d) 2, .lane (rn a) 2, .lane (rn b) 2]
  | .dfma d a b => [.lane (rn d) 2, .lane (rn a) 2, .lane (rn b) 2]
  | .ex2 d a | .lg2 d a | .rcp d a | .rsq d a | .sqrt d a | .sin d a | .cos d a | .tanh d a | .ex2h d a =>
    [.dest (rn d) 1, .lane (rn a) 1]
  | .shfl d a b | .shflx d a b | .shflup d a b | .shfldn d a b | .bcast d a b =>
    [.dest (rn d) 1, .whole (rn a) 1, .whole (rn b) 1]
  | .redadd d a | .redfadd d a | .redmin d a | .redmax d a | .redfmin d a | .redfmax d a | .redand d a | .redor d a
  | .scanadd d a | .scanfadd d a => [.dest (rn d) 1, .whole (rn a) 1]
  | .argmax d a | .argmin d a | .fargmax d a | .fargmin d a => [.dest (rn d) 1, .whole (rn a) 1]
  | .sort32 d a => [.dest (rn d) 2, .whole (rn a) 2]
  | .topk d a b => [.dest (rn d) 2, .whole (rn a) 2, .whole (rn b) 1]
  | .mergek d a b => [.dest (rn d) 4, .whole (rn a) 2, .whole (rn b) 2]
  | .ld d a m _ _ | .ldt d a m _ _ => [.dest (rn d) (wdqRegs m), .lane (rn a) 2]
  | .lda d a m _ _ => [.dest (rn d) (wdqRegs m), .lane (rn a) 2]
  | .ldx d a _ _ _ => [.dest (rn d) 1, .lane (rn a) 2]
  | .st d a m _ => [.lane (rn a) 2, .lane (rn d) (bhwdRegs m)]
  | .stl d a m _ => [.lane (rn a) 2, .lane (rn d) (bhwdRegs m)]
  | .stq d a _ => [.lane (rn a) 2, .lane (rn d) 4]
  | .lds d a m _ _ => [.dest (rn d) (bhwdRegs m), .lane (rn a) 1]
  | .sts d a m _ => [.lane (rn a) 1, .lane (rn d) (bhwdRegs m)]
  | .ldc d a m _ _ => [.dest (rn d) (wdqRegs m), .first (rn a)]
  | .atom .lane d a _ k _ => [.lane (rn a) 2, .lane (rn d) (atomRegs k false (rn d)).length]
  | .atom .group d a _ k _ => [.group (rn a) 2, .group (rn d) (atomRegs k false (rn d)).length]
  | .atom64 d a _ k _ => [.lane (rn a) 2, .lane (rn d) (atomRegs k true (rn d)).length]
  | .atoms d a _ k _ => [.lane (rn a) 1, .lane (rn d) (atomRegs k false (rn d)).length]
  | .ldu _ a _ _ _ => [.group (rn a) 2]
  | .stu d a m _ => [.group (rn a) 2, .group (rn d) (wdqRegs m)]
  | .ldsu _ a _ _ _ => [.group (rn a) 1]
  | .stsu d a m _ => [.group (rn a) 1, .group (rn d) (wdqRegs m)]
  | .qmm _ a b _ => [.group (rn b) 2, .lane (rn a) 4] ++ quarterUse false (hdr (rn b)) (hdr (rn b + 1)) (rn a)
  | .qmms _ a b _ => [.group (rn b) 2, .lane (rn a) 4] ++ quarterUse true (hdr (rn b)) (hdr (rn b + 1)) (rn a)
  | .mvt d a b _ => .group (rn b) 1 :: mvtUse (hdr (rn b)) (rn d) (rn a)
  | .mread d _ => [.dest (rn d) 16]
  | .mwrite _ a => [.lane (rn a) 16]
  | .nmcall d a b => [.group (rn b) 1, .lane (rn a) 2, .dest (rn d) (bits (hdr (rn b)).toNat 20 16)]
  | .br m _ | .brn m _ => [.group (rn m) 1]
  | .call _ => [.dest 127 1]
  | .jmpr a => [.lane (rn a) 1]
  | .pred m => [.ctl (rn m)]
  | .swr .lane a _ => [.first (rn a)]
  | .swr .group a _ => [.group (rn a) 1]
  | .copy _ a b _ => [.group (rn a) 24, .group (rn b) 4]
  | .copyout a b => [.group (rn a) 24, .group (rn b) 4]
  | .tmm _ a b _ => [.group (rn a) 3, .group (rn b) 2]
  | .nmsearch a b => [.group (rn a) 2, .group (rn b) 2]
  | .nmcommit _ a b _ => [.group (rn a) 1, .group (rn b) 1]
  | .collfire a b => [.group (rn a) 1, .group (rn b) 1]
  | .bankcfg _ a b => [.group (rn a) 1, .group (rn b) 1]
  | .binit _ a b | .barrive _ a b | .barriven _ a b | .waitb _ a b => [.group (rn a) 2, .group (rn b) 1]
  | .btest _ a _ => [.group (rn a) 2]
  | .tstate _ a => [.group (rn a) 1]
  | .trel a | .twait a => [.group (rn a) 1]
  | .tclaim a b => [.group (rn a) 1, .group (rn b) 2]
  | .qinit a b => [.group (rn a) 1, .group (rn b) 1]
  | .qpush d a e =>
    [.group (rn a) 1, if e = 0#1 then .group (rn d) (elem (hdr (rn a)).toNat) else .all (rn d) 1]
  | .qpop d a e => .group (rn a) 1 :: (if e = 0#1 then [] else [.dest (rn d) 1])
  | .qcount _ a => [.group (rn a) 1]
  | .mdrain a | .mfill a => [.group (rn a) 2]
  | .jspill _ a | .jfill _ a => [.group (rn a) 2]
  | _ => []

/-- The instruction whose rules an EXT pair follows: its second word (R176). -/
def inner (i : Instr) : Instr :=
  match i with
  | .ext _ _ next => (match decodeWord next 0#32 with
    | .ok j => j
    | .error _ => i)
  | _ => i

/-! ## The scoreboard (R51, R180, R229, R307) -/

/-- Lane i of vN waits for a result that is not written; a thread inside a span is not checked (R307). -/
def laneWaits (sh : Sheaf) (i n : Nat) : Bool :=
  !inSpan sh i && sh.long.any (fun op => op.writes.any (fun w => w.holds (phys sh i n) i))

/-- gN waits so for a control set, one of whose threads is checked; the handler's stream, which has no thread, always is. -/
def groupWaits (sh : Sheaf) (ctl : Mask) (n : Nat) : Bool :=
  (ctl == 0#32 || (lanesOf ctl).any (fun i => !unchecked sh i)) &&
    sh.long.any (fun op => op.writes.any (fun w => (w.group? (gidx sh n)).isSome))

/-- The line of lane i's vN is present, where the name is in the thread's budget (R50). -/
def lineHere (sh : Sheaf) (i n : Nat) : Bool := !inBudget sh i n || lineState sh (phys sh i n) == .present

/-- Lane i of vN can be read. -/
def laneReady (sh : Sheaf) (i n : Nat) : Bool := lineHere sh i n && !laneWaits sh i n

/-- A use is ready under the scoreboard (R51). -/
def useReady (sh : Sheaf) (ctl m : Mask) (u : Use) : Bool :=
  match u with
  | .lane r n => (lanesOf m).all (fun i => (upFrom r n).all (laneReady sh i))
  | .all r n => m == 0#32 || lanes.all (fun i => (upFrom r n).all (laneReady sh i))
  | .first r =>
    (match lowest m with
     | some i => laneReady sh i r
     | none => true)
  | .whole r n => m == 0#32 || lanes.all (fun i => (upFrom r n).all (fun k => lineHere sh i k && !pendingOn sh (phys sh i k)))
  | .group r n => m == 0#32 || (upFrom r n).all (fun k => k == 0 || !groupWaits sh ctl k)
  | .dest r n =>
    (upFrom r n).all (fun k =>
      let whole := m == Mask.full && oneWindow sh Mask.full k
      (lanesOf m).all (fun i => !inBudget sh i k ||
        (match lineState sh (phys sh i k) with
         | .present => true
         | .drowsy => false
         | .absent => whole)))
  | .ctl r => ctl == 0#32 || r == 0 || !groupWaits sh ctl r
  | .tagOf r =>
    (match lowest m with
     | some i => !laneWaits sh i r
     | none => true)

/-! ## Units and waits -/

/-- The instruction is of class X or a TMM. -/
def isMatrixOp (i : Instr) : Bool :=
  match i with
  | .qmm .. | .qmms .. | .mvt .. | .mread .. | .mwrite .. | .mzero .. | .tmm .. => true
  | _ => false

/-- MACC: MREAD, MWRITE and MZERO, with the tile each names. -/
def maccTile (i : Instr) : Option Nat :=
  match i with
  | .mread _ t => some t.toNat
  | .mwrite t _ => some t.toNat
  | .mzero t => some t.toNat
  | _ => none

/-- The tile that QMM, QMMS or MREAD reads. -/
def tileRead (i : Instr) : Option Nat :=
  match i with
  | .qmm t _ _ _ => some t.toNat
  | .qmms t _ _ _ => some t.toNat
  | .mread _ t => some t.toNat
  | _ => none

/-- A tile that QMM or QMMS accumulates into. -/
def tileAdd (i : Instr) : Option Nat :=
  match i with
  | .qmm t _ _ _ => some t.toNat
  | .qmms t _ _ _ => some t.toNat
  | _ => none

/-- A lane's row of a tile is being formed again after a late transition (R379): an accumulation into it follows (R266). -/
def rowReplays (sh : Sheaf) (m : Mask) (t : Nat) : Bool :=
  (lanesOf m).any (fun i => sh.long.any (fun op =>
    !op.ready && op.writes.any (fun w => (w.row? (unitOf sh i) t (i % 8)).isSome)))

/-- A lane's row of a tile waits for a result that is not written, as a register does (R307). -/
def rowWaits (sh : Sheaf) (m : Mask) (t : Nat) : Bool :=
  (lanesOf m).any (fun i => !inSpan sh i && sh.long.any (fun op =>
    op.writes.any (fun w => (w.row? (unitOf sh i) t (i % 8)).isSome)))

/-- The matrix units and the token let the instruction issue (R29, R267, R281). -/
def matrixFree (s : State) (b w : Nat) (sh : Sheaf) (m : Mask) (i : Instr) : Bool :=
  let k := getCore s sh.place.core
  if !isMatrixOp i then true
  else
    (match k.token with
     | some t => t == (b, w)
     | none => true) &&
    (!k.frozen || (sh.handler && (maccTile i).isSome)) &&
    (match maccTile i with
     | some t => k.tmm.isNone || t != 7
     | none => k.tmm.isNone) &&
    (match tileRead i with
     | some t => !rowWaits sh m t
     | none => true) &&
    (match tileAdd i with
     | some t => !rowReplays sh m t
     | none => true)

/-- A global access (R352). -/
def isGlobalAccess (i : Instr) : Bool :=
  match i with
  | .ld .. | .ldx .. | .st .. | .stq .. | .lda .. | .stl .. | .ldt .. | .atom .. | .atom64 .. | .ldu .. | .stu .. => true
  | .jspill .. | .jfill .. | .mdrain .. | .mfill .. => true
  | .binit .. | .barrive .. | .barriven .. | .btest .. | .waitb .. => true
  | .nmcall .. => true
  | _ => false

/-- A memory instruction (R352). -/
def isMemory (i : Instr) : Bool :=
  isGlobalAccess i ||
  (match i with
   | .lds .. | .sts .. | .ldc .. | .atoms .. | .fence .. | .ldsu .. | .stsu .. => true
   | .copy .. | .copyout .. | .tmm .. | .nmsearch .. | .nmcommit .. | .collfire .. => true
   | .tstate .. | .trel .. | .twait .. | .tclaim .. | .qinit .. | .qpush .. | .qpop .. | .qcount .. => true
   | _ => false)

/-- A memory instruction that stores nothing and releases nothing. -/
def readsOnly (i : Instr) : Bool :=
  match i with
  | .ld .. | .ldx .. | .lda .. | .ldt .. | .ldu .. | .lds .. | .ldc .. | .ldsu .. | .jfill .. | .mfill .. => true
  | .btest .. | .tstate .. | .qcount .. => true
  | .fence _ _ kind => kind != 3#2
  | _ => false

/-- An instruction before which its threads make the releases that their fences owe (R114, R122). -/
def paysFirst (i : Instr) : Bool := isMemory i && !readsOnly i

/-- An engine command that waits for every earlier access of its sheaf (R131). -/
def waitsForAccesses (i : Instr) : Bool :=
  match i with
  | .copy .. | .copyout .. | .tmm .. => true
  | _ => false

/-- A long-latency instruction: one whose results are written after issue (R180, R348). -/
def isLong (i : Instr) : Bool :=
  match i with
  | .dadd .. | .dsub .. | .dmul .. | .dfma .. | .dmin .. | .dmax .. => true
  | .ex2 .. | .lg2 .. | .rcp .. | .rsq .. | .sqrt .. | .sin .. | .cos .. | .tanh .. | .ex2h .. => true
  | .dp4a .. | .dp4au .. | .dp2h .. | .dp4q .. | .dp4qe .. | .div .. | .divu .. | .rem .. | .remu .. => true
  | .ld .. | .ldx .. | .lds .. | .ldc .. | .lda .. | .atom .. | .atom64 .. | .atoms .. | .ldt .. | .ldu .. | .ldsu .. => true
  | .qmm .. | .qmms .. | .mvt .. | .copy .. | .tmm .. | .nmcommit .. => true
  | _ => false

/-- A pending result is that of a long-latency instruction: BANKCFG is none (Table 8.1). -/
def countsLong (o : LongOp) : Bool :=
  match decodeWord o.inst0 o.inst1 with
  | .ok i => isLong (inner i)
  | .error _ => true

/-- A sheaf has room for one more long-latency instruction (R348). -/
def roomForLong (sh : Sheaf) : Bool := decide ((dedup ((sh.long.filter countsLong).map (fun o => o.instr))).length < 8)

/-- The operand log and the limits of a sheaf let the instruction issue (R131, R204, R220, R348, R352). -/
def logFree (sh : Sheaf) (ctl : Mask) (i : Instr) : Bool :=
  let mine := fun (m : Mask) (h : Bool) => if sh.handler then h else m &&& ctl != 0#32
  (!isMemory i || sh.oplog.all (fun e => !mine e.2.mask e.2.handler)) &&
  (!isGlobalAccess i || decide (sh.oplog.length < 4)) &&
  (!waitsForAccesses i || sh.oplog.isEmpty) &&
  (!isLong i || roomForLong sh) &&
  (!sh.precfp || sh.long.all (fun o => !(o.tested && mine o.ctl o.handler))) &&
  (match i with
   | .region => sh.long.all (fun o => o.ctl &&& ctl == 0#32) && sh.oplog.all (fun e => e.2.ctl &&& ctl == 0#32)
   | _ => true)

/-! ## PC groups (R10) -/

/-- A PC group as a slot sees it: what issues, the fetch, and the instruction where the words are one. -/
structure Group where
  cur : Cur
  got : Fetched
  /-- 0, or 1 for threads that fetch another word than others at their address (R170) -/
  part : Nat
  ins : Option Instr
  cls : Nat
  threads : Nat
  skip : Nat
  deriving DecidableEq, Repr

/-- The control set of an address (R10). -/
def controlSet (sh : Sheaf) (pc : DWord) : Mask := runMask sh &&& maskOf (fun i => lget sh.pcs i 0#64 == pc)

/-- What issues at an address of a sheaf, for a control set. -/
def curAt (b w : Nat) (pc : DWord) (ctl : Mask) (f : Fetched) : Cur :=
  match f with
  | .word x y n => { bed := b, sheaf := w, pc := pc, ctl := ctl, len := n, inst0 := x, inst1 := y, before := none }
  | .violation x => { bed := b, sheaf := w, pc := pc, ctl := ctl, len := 4, inst0 := x, inst1 := 0#32, before := none }
  | _ => { bed := b, sheaf := w, pc := pc, ctl := ctl, len := 4, inst0 := 0#32, inst1 := 0#32, before := none }

/-- An enabled address breakpoint stands at a PC, and which (R364). -/
def breakAt (sh : Sheaf) (pc : DWord) : Option Nat :=
  if sh.handler then none else (below 4).find? (fun k => sh.bpen.getLsbD k && mget sh.bp k 0#64 &&& ~~~(3#64) == pc)

/-- The PC group of some threads at an address; one at a breakpoint is in no class. -/
def groupAtPc (s : State) (b w : Nat) (sh : Sheaf) (pc : DWord) (ctl : Mask) (part : Nat) : Group :=
  let f := if sh.handler then handlerFetch s sh.himg pc.toNat else (fetchAt s sh.place.core part (asidOf s b) pc).1
  let c := curAt b w pc ctl f
  { cur := c, got := f, part := part,
    ins := match f with
      | .word x y _ => (match decodeWord x y with
        | .ok i => some i
        | .error _ => none)
      | _ => none,
    cls := if (breakAt sh pc).isSome then 0
      else match f with
        | .word x y _ => issueClass x y
        | _ => 0,
    threads := countLanes c.ctl,
    skip := (lanesOf c.ctl).foldl (fun n i => Nat.max n (lget sh.skip i 0)) 0 }

/-- The addresses at which threads of a sheaf run, each once. -/
def runningPcs (sh : Sheaf) : List DWord :=
  (lanesOf (runMask sh)).foldl (fun l i => if l.contains (lget sh.pcs i 0#64) then l else l ++ [lget sh.pcs i 0#64]) []

/-- The PC groups at an address: one, or two where running launches have changed the code and some threads fetch the old word, others the
new one, free which (R170). -/
def groupsAt (s : State) (b w : Nat) (sh : Sheaf) (pc : DWord) : List Group :=
  let ctl := controlSet sh pc
  let one := groupAtPc s b w sh pc ctl 0
  if s.oldCode.isEmpty then [one]
  else
    let two := groupAtPc s b w sh pc ctl 1
    let m := ctl &&& maskOf (fun i => Config.freeBool (salt s (4100 + i)))
    if one.got = two.got || m == ctl then [one]
    else if m = 0#32 then [two]
    else [groupAtPc s b w sh pc m 0, groupAtPc s b w sh pc (ctl &&& ~~~m) 1]

/-- The PC groups of a sheaf: the handler's own stream in handler mode (R343). -/
def pcGroups (s : State) (b w : Nat) (sh : Sheaf) : List Group :=
  if sh.handler then [groupAtPc s b w sh sh.hpc 0#32 0] else (runningPcs sh).flatMap (groupsAt s b w sh)

/-- The threads at an address wait for their fetch to be served (R351). -/
def fetchPending (s : State) (b w : Nat) (pc : DWord) : Bool :=
  s.hostIf.tickets.any (fun t => t.2 == .fetch b w pc)

/-- Registers of an element of the queue at a scratch address. -/
def queueRegs (s : State) (core a : Nat) : Nat := (queueAt s (plotOf core) a).size / 4

/-- The queue that an instruction pops, with the registers that its first attempt read. -/
def popAddr (c : Cur) (sh : Sheaf) : Option Nat :=
  match decodeWord c.inst0 c.inst1 with
  | .ok (.qpop _ a _) => some (mget sh.g (gidx sh (rn a)) 0#32).toNat
  | _ => none

/-- The element at the head of a queue is reserved by a QPOP whose attempt runs again (R377). -/
def queueReserved (s : State) (p addr : Nat) : Bool :=
  (upFrom (4 * p) 4).any (fun k => (getCore s k).attempts.any (fun a =>
    a.2.op.isNone && a.2.cur.before.any (fun sh => popAddr a.2.cur sh == some addr)))

/-- What came of an engine operation's issue was only to wait for range-lock entries (R127). -/
def waitedLocks (core : Nat) (before : State) (r : Out) : Bool :=
  match r with
  | .next t => mget (getCore t core).perf 13 0#32 != mget (getCore before core).perf 13 0#32
  | _ => false

/-- An engine operation would only wait for range-lock entries, so it is not eligible (R127). -/
def locksWait (s : State) (c : Cur) (sh : Sheaf) (i : Instr) : Bool :=
  let s1 := { s with agent := .sheaf c }
  match i with
  | .copy d a b l => waitedLocks sh.place.core s1 (execCopy d a b l s1)
  | .copyout a b => waitedLocks sh.place.core s1 (execCopyout a b s1)
  | .tmm d a b l => waitedLocks sh.place.core s1 (execTmm d a b l s1)
  | _ => false

/-- A group that is otherwise eligible waits for range-lock entries (R127). -/
def locksHold (s : State) (sh : Sheaf) (g : Group) : Bool :=
  (breakAt sh g.cur.pc).isNone && g.ins.any (fun i => locksWait s g.cur sh (inner i))

/-- A PC group is eligible but for range-lock entries (R10): its fetch is not under way, its sources are ready and what it needs is free.
One that will trap before it reads anything needs nothing. -/
def eligibleBut (s : State) (sh : Sheaf) (g : Group) : Bool :=
  let c := g.cur
  if fetchPending s c.bed c.sheaf c.pc then false
  else if (breakAt sh c.pc).isSome then true
  else
    match g.ins with
    | none => true
    | some x =>
      let i := inner x
      let m := exm c sh
      (usesOf (fun r => (groupView (salt s 0) c.ctl sh r).1) (queueRegs s sh.place.core) i).all (useReady sh c.ctl m) &&
        matrixFree s c.bed c.sheaf sh m i && logFree sh c.ctl i &&
        (match i with
         | .qpop _ a _ => !queueReserved s (plotOf sh.place.core) (groupView (salt s 0) c.ctl sh (rn a)).1.toNat
         | _ => true)

/-- A PC group is eligible (R10, R127). -/
def eligible (s : State) (sh : Sheaf) (g : Group) : Bool := eligibleBut s sh g && !locksHold s sh g

/-- One group comes before another in the order of R17. -/
def groupBefore (a b : Group) : Bool :=
  let pcLt := decide (a.cur.pc.toNat < b.cur.pc.toNat)
  let aged := fun (g : Group) => g.skip == 32
  if aged a != aged b then aged a
  else if aged a then pcLt
  else decide (b.threads < a.threads) || (a.threads == b.threads && pcLt)

/-- A group put in its place. -/
def insertGroup (x : Group) : List Group → List Group
  | [] => [x]
  | y :: r => if groupBefore x y then x :: y :: r else y :: insertGroup x r

/-- The eligible groups of a sheaf in the order of R17. -/
def rankedGroups (s : State) (b w : Nat) (sh : Sheaf) : List Group :=
  ((pcGroups s b w sh).filter (eligible s sh)).foldl (fun l g => insertGroup g l) []

/-! ## The sheaf that a slot picks (R37, R336) -/

/-- What a sheaf would do if its slot picked it. -/
inductive Ready where
  /-- what a debugger wrote to the image of the stopped sheaf takes effect (R366) -/
  | refill
  /-- a record held back is delivered before the sheaf issues (R349, R364) -/
  | deliver
  /-- the trap of a restore that found no sheaf's tag vector, at a group's first issue (R62) -/
  | badTags (g : Group)
  /-- the watchdog trap (R38) -/
  | watchdog
  /-- its eligible groups, first pick first -/
  | groups (gs : List Group)
  deriving DecidableEq, Repr

/-- What a sheaf would do; none where nothing of it is eligible. -/
def readyOf (s : State) (b w : Nat) (sh : Sheaf) : Option Ready :=
  if !sh.flushed.isEmpty && !heldInStop sh then some .refill
  else if !hasRunnable sh then none
  else if !sh.handler && !sh.pend.isEmpty then some .deliver
  else
    match rankedGroups s b w sh with
    | [] => none
    | g :: gs => if sh.badTags then some (.badTags g) else if sh.wdDue then some .watchdog else some (.groups (g :: gs))

/-- Bit e of a sheaf's boosted roles: some watcher of the bed boosts its role entry (R335). -/
def boosted (s : State) (b : Nat) (sh : Sheaf) : Bool :=
  match getBed s b with
  | some bd => bd.boosts.any (fun x => x.2.contains sh.place.roleEntry)
  | none => false

/-- RSHARE of a role entry (Table 16.2). -/
def roleShare (l : Launch) (e : Nat) : Nat := recField l.record (1671 + 8 * e) (1664 + 8 * e)

/-- The credits left to a sheaf's role in its slot; without roles there are none to count (R336). -/
def creditOf (s : State) (b : Nat) (sh : Sheaf) : Nat :=
  match launchOf s b with
  | none => 1
  | some l =>
    if noRoles l.record then 1
    else mget (mget (getCore s sh.place.core).credits (launchKey s b) []) (sh.place.slot * 16 + sh.place.roleEntry)
      (roleShare l sh.place.roleEntry)

/-- The key of a sheaf (R336), compared from its first number on. -/
def sheafKey (s : State) (b : Nat) (sh : Sheaf) : List Nat :=
  [levelOf s b, if boosted s b sh then 0 else 1, if 0 < creditOf s b sh then 0 else 1, sh.lastIssue, sh.place.pos]

/-- One list of numbers comes before another. -/
def keyLt : List Nat → List Nat → Bool
  | a :: r, b :: t => decide (a < b) || (a == b && keyLt r t)
  | _, _ => false

/-- A sheaf of a slot with what it would do. -/
structure Cand where
  bed : Nat
  sheaf : Nat
  sh : Sheaf
  ready : Ready
  deriving DecidableEq, Repr

/-- The eligible sheaves of a slot; a quarantined core issues nothing (R373). -/
def slotCands (s : State) (core slot : Nat) : List Cand :=
  if (getCore s core).margin.quar then [] else
  (slotSheaves s core slot).filterMap (fun x =>
    (readyOf s x.1 x.2.1 x.2.2).map (fun r => { bed := x.1, sheaf := x.2.1, sh := x.2.2, ready := r }))

/-- A sheaf has yielded to one that is still eligible (R37). -/
def heldByYield (cs : List Cand) (c : Cand) : Bool :=
  c.sh.yieldFor.any (fun y => cs.any (fun d => (d.bed, d.sheaf) == y))

/-- The smallest candidate by a key. -/
def leastCand (s : State) (cs : List Cand) : Option Cand :=
  match cs with
  | [] => none
  | c :: r => some (r.foldl (fun a b => if keyLt (sheafKey s b.bed b.sh) (sheafKey s a.bed a.sh) then b else a) c)

/-- The sheaf that a slot picks: R37 before R336. -/
def pickSheaf (s : State) (cs : List Cand) : Option Cand :=
  match leastCand s (cs.filter (fun c => !heldByYield cs c)) with
  | some c => some c
  | none => leastCand s cs

/-- The second pick of a sheaf's groups (R17). -/
def secondOf (gs : List Group) : Option Group :=
  match gs with
  | g :: h :: _ => if mayPair g.cls h.cls then some h else none
  | _ => none

end Sys2Proof.Machine
end

