-- ==== Sys2Proof/Machine/Margin.lean ====
section
/-! DEFINITION. Late transitions and replays (R369 to R371), windows, automatic raises and quarantine (R368, R372, R373), and
the margin commands of the management processor (R374, R414 to R418). -/

namespace Sys2Proof.Machine

/-! ## Attempts (R370, R371) -/

/-- An attempt that runs again, if any: key slot for the first pick, 8 + slot for a second pick, 16 + its pending result's name for a
unit operation. -/
def getAttempt (s : State) (core key : Nat) : Option Attempt := mfind (getCore s core).attempts key

/-- An attempt kept for a replay. -/
def putAttempt (s : State) (core key : Nat) (a : Attempt) : State :=
  modCore s core (fun c => { c with attempts := mset c.attempts key a })

/-- An attempt that is over. -/
def dropAttempt (s : State) (core key : Nat) : State := modCore s core (fun c => { c with attempts := mdel c.attempts key })

/-- The threads of an attempt, or the handler's stream, still stand where its first attempt issued. -/
def attemptStands (c : Cur) (held sh : Sheaf) : Bool :=
  sh.handler == held.handler &&
    (if sh.handler then sh.hpc == c.pc
     else c.ctl != 0#32 && (lanesOf c.ctl).all (fun i => parkOf sh i == .run && lget sh.pcs i 0#64 == c.pc))

/-- The sheaf and the PC group of an attempt, with the words that its first attempt fetched, while it stands where it issued. -/
def attemptGroup (s : State) (core slot : Nat) (a : Attempt) : Option (Sheaf × Group) :=
  match getSheaf s a.cur.bed a.cur.sheaf with
  | none => none
  | some sh =>
    if isResident s a.cur.bed && sh.place.core == core && sh.place.slot == slot && attemptStands a.cur (a.cur.before.getD sh) sh then
      match decodeWord a.cur.inst0 a.cur.inst1 with
      | .ok i =>
        some (sh, { cur := { a.cur with before := none }, got := .word a.cur.inst0 a.cur.inst1 a.cur.len, part := 0, ins := some i,
                    cls := issueClass a.cur.inst0 a.cur.inst1, threads := countLanes a.cur.ctl, skip := 0 })
      | .error _ => none
    else none

/-- An attempt of an instruction on the issue, ALU or register-read path is late (R370): it is discarded, and replays from the sources
that its first attempt read; after RLIM replays it raises the margin trap (R371). -/
def lateIssue (s : State) (core slot key : Nat) (sh : Sheaf) (g : Group) (path : Nat) (inj : Bool) (replays late : Nat) (held : Sheaf)
    (left : List (Nat × Mask)) : Out :=
  if replays < (getCore s core).margin.rlim.toNat then
    let a : Attempt := { cur := { g.cur with before := some held }, slot := slot, replays := replays + 1, late := late,
                         ready := false, op := none, left := left }
    .next (due (countReplay (putAttempt s core key a) core) (.attemptReplay core slot))
  else
    let detail := marginDetail s core path inj 0
    trap (countMarginTrap (dropAttempt s core key) core detail) g.cur sh (marginTrap detail)

/-- A pending result of a sheaf changed. -/
def modOp (s : State) (b w id : Nat) (f : LongOp → LongOp) : State :=
  modSheaf s b w (fun sh => { sh with long := sh.long.map (fun o => if o.id == id then f o else o) })

/-- A unit operation is late (R369): it is discarded and replays; after RLIM replays its instruction raises the margin trap, with the
precision of R342. -/
def lateUnit (s : State) (core slot : Nat) (b w : Nat) (o : LongOp) (path : Nat) : State :=
  if o.replays < (getCore s core).margin.rlim.toNat then
    let c : Cur := { bed := b, sheaf := w, pc := o.pc, ctl := o.ctl, len := 4, inst0 := o.inst0, inst1 := o.inst1, before := none }
    let a : Attempt := { cur := c, slot := slot, replays := o.replays + 1, late := 0, ready := false, op := some o.id, left := [] }
    modOp (due (countReplay (putAttempt s core (16 + o.id) a) core) (.attemptReplay core slot)) b w o.id
      (fun x => { x with ready := false, replays := x.replays + 1 })
  else
    let detail := marginDetail s core path false 0
    modOp (countMarginTrap s core detail) b w o.id (fun x => { x with trap := some (marginTrap detail) })

/-- The unit of a path runs the instruction: 2 SFU and DALU, 4 the matrix units (Table 18.1). -/
def onPath (path : Nat) (i : Instr) : Bool :=
  match i with
  | .dadd .. | .dsub .. | .dmul .. | .dfma .. | .dmin .. | .dmax .. => path == 2
  | .ex2 .. | .lg2 .. | .rcp .. | .rsq .. | .sqrt .. | .sin .. | .cos .. | .tanh .. | .ex2h .. => path == 2
  | .qmm .. | .qmms .. | .mvt .. => path == 4
  | _ => false

/-- A younger accumulation of a sheaf includes a row that an operation forms: that operation's step is over and its check passed
(R266, R379). -/
def builtOn (sh : Sheaf) (o : LongOp) : Bool :=
  o.writes.any (fun w => match w with
    | .row u t r _ => sh.long.any (fun y => decide (o.id < y.id) && y.writes.any (fun x => (x.row? u t r).isSome))
    | _ => false)

/-- The oldest formed result of a slot whose unit operation is on a path and can still be late. -/
def unitOnPath (s : State) (core slot path : Nat) : Option (Nat × Nat × LongOp) :=
  (slotSheaves s core slot).findSome? (fun x =>
    (x.2.2.long.find? (fun o => o.ready && o.trap.isNone && !builtOn x.2.2 o &&
      (match decodeWord o.inst0 o.inst1 with
       | .ok i => onPath path i
       | .error _ => false))).map (fun o => (x.1, x.2.1, o)))

/-- The running TMM that a slot issued, unless its units are frozen. -/
def runningTmm (s : State) (core slot : Nat) : Option Tmm :=
  match (getCore s core).tmm with
  | some t => if t.slot = slot ∧ (getCore s core).frozen = false ∧ tmmOver t = false then some t else none
  | none => none

/-- LATE_TRANSITION (R369, R370): a check finds a late transition on a path of Table 18.2 in what a slot runs: on the issue, ALU or
register-read path the slot's next attempt meets it; by path code 5 it is in a register-cache write, which is repeated and only counted
(R371).  On a core that is quarantined the self-test meets it (R415). -/
def execLateTransition (core slot : Nat) (path : BitVec 3) (s : State) : Out :=
  if (getCore s core).margin.quar then .next (modCore s core (fun c => { c with testEvent := true }))
  else if path = 5#3 then .next (countReplay s core)
  else if path = 2#3 ∨ path = 4#3 then
    match (if path = 4#3 then runningTmm s core slot else none) with
    | some t => .next (lateTmm s core t false)
    | none =>
      match unitOnPath s core slot path.toNat with
      | some (b, w, o) => .next (lateUnit s core slot b w o path.toNat)
      | none => .next s
  else if path = 6#3 ∨ path = 7#3 then .next s
  else .next (modCore s core (fun c => { c with lateNext := mset c.lateNext slot path.toNat }))

/-- An attempt may start again: a unit operation does at once. -/
def wakeAttempt (core : Nat) (s : State) (x : Nat × Attempt) : State :=
  match x.2.op with
  | some id => dropAttempt (modOp s x.2.cur.bed x.2.cur.sheaf id (fun o => { o with ready := true })) core x.1
  | none => putAttempt s core x.1 { x.2 with ready := true }

/-- ATTEMPT_REPLAY (R370): the bubbles of a slot are over, and its discarded attempts may start again. -/
def execAttemptReplay (core slot : Nat) (s : State) : Out :=
  .next (((getCore s core).attempts.filter (fun a => a.2.slot == slot)).foldl (wakeAttempt core) s)

/-! ## Windows (R368, R414) -/

/-- A margin profile (Table 21.1): the cap for a FLOOR, RLIM, WEXP, RTHR, QLIM, n and INJEN. -/
structure Profile where
  cap : Nat
  wexp : Nat
  rthr : Nat
  qlim : Nat
  n : Nat
  injen : Bool
  deriving DecidableEq, Repr

/-- The profile of a code on a core with a FLOOR; RLIM is 3 in each. -/
def profileOf (code floor : Nat) : Option Profile :=
  match code with
  | 0 => some { cap := 0, wexp := 6, rthr := 256, qlim := 4, n := 1, injen := false }
  | 1 => some { cap := floor - 4, wexp := 6, rthr := 256, qlim := 4, n := 2, injen := false }
  | 2 => some { cap := floor, wexp := 8, rthr := 1024, qlim := 4, n := 2, injen := false }
  | 3 => some { cap := floor, wexp := 8, rthr := 1024, qlim := 15, n := 2, injen := true }
  | _ => none

/-- The regulator of a core moves; its settling is due (R368). -/
def startRamp (s : State) (core : Nat) : State := due (modMargin s core (fun g => { g with ramp := true })) (.regulatorSettled core)

/-- The profile's fields written at a window boundary; TARGET goes one step towards the cap (R414). -/
def applyProfile (s : State) (core : Nat) : State :=
  let k := getCore s core
  if k.margin.quar then s
  else
    match profileOf k.profile.toNat (Config.floor core).toNat with
    | none => s
    | some p =>
      let s1 := modMargin s core (fun g => { g with
        rlim := 3#3, wexp := BitVec.ofNat 4 p.wexp, rthr := BitVec.ofNat 12 p.rthr, qlim := BitVec.ofNat 4 p.qlim,
        injen := p.injen })
      setTarget s1 core (Nat.min (k.margin.target.toNat + 1) p.cap)

/-- WINDOW_BOUNDARY (R368): the step lowers by one where the window had no raise and no margin trap, the window counters return
to zero, and the firmware writes the profile. -/
def execWindowBoundary (core : Nat) (s : State) : Out :=
  let g := (getCore s core).margin
  let lower := decide (g.cur.toNat < g.target.toNat) && !g.raised && !g.quar
  let s1 := if lower then startRamp (modMargin s core (fun g => { g with cur := g.cur + 1#4 })) core else s
  let s2 := modMargin s1 core (fun g => { g with wrepl := 0#16, wtrap := 0#4, raised := false })
  .next (applyProfile s2 core)

/-- REGULATOR_SETTLED (R368). -/
def execRegulatorSettled (core : Nat) (s : State) : Out := .next (modMargin s core (fun g => { g with ramp := false }))

/-! ## Escalation (R372, R373) -/

/-- The resident beds on a core. -/
def bedsOnCore (s : State) (core : Nat) : List Nat :=
  (s.beds.filter (fun b => b.2.stage == .resident && b.2.core == core)).map (fun b => b.1)

/-- Beds pre-empted one after another. -/
def preemptAll (o : Out) (bs : List Nat) : Out := bs.foldl (fun o b => Out.andThen o (execPreemption b)) o

/-- Quarantine in the order of R373: the mark, pre-emption of the resident beds, the step, the log. -/
def quarantineCore (s : State) (core : Nat) (why : BitVec 2) : Out :=
  if (getCore s core).margin.quar then .next s
  else
    let s1 := modMargin s core (fun g => { g with quar := true, qwhy := why, qcnt := satInc g.qcnt })
    Out.andThen (preemptAll (.next s1) (bedsOnCore s1 core)) (fun s2 =>
      let s3 := modMargin s2 core (fun g => { g with target := 0#4, cur := 0#4 })
      let s4 := if (getCore s2 core).margin.cur = 0#4 then s3 else startRamp s3 core
      .next (logEvent s4 3 (dieOf core) none (why.setWidth 32) core))

/-- AUTOMATIC_RAISE (R372): CUR drops by one step, or at step 0 the core is quarantined with reason 2. -/
def execAutomaticRaise (core : Nat) (s : State) : Out :=
  let g := (getCore s core).margin
  if g.wrepl.toNat < g.rthr.toNat || g.quar then .next s
  else if g.cur = 0#4 then quarantineCore s core 2#2
  else
    let cur := g.cur - 1#4
    let s1 := modMargin s core (fun g => { g with
      cur := cur, target := if cur.toNat < g.target.toNat then cur else g.target, raise := satInc g.raise, raised := true })
    .next (logEvent (startRamp s1 core) 1 (dieOf core) none (cur.setWidth 32) core)

/-- QUARANTINE (R373), for the reason given. -/
def execQuarantine (core : Nat) (why : BitVec 2) (s : State) : Out := quarantineCore s core why

/-- QUARANTINE_COMMAND (R373): reason 3. -/
def execQuarantineCommand (core : Nat) (s : State) : Out := quarantineCore s core 3#2

/-! ## Commands of the management processor (R374, R414 to R418) -/

/-- The raise count reaches the trap-handler firmware of every sheaf on a core (R414). -/
def handRaise (s : State) (core n : Nat) : State :=
  { s with beds := s.beds.map (fun b => (b.1,
      if b.2.core = core ∧ b.2.stage ≠ .preempted then { b.2 with sheaves := b.2.sheaves.map (fun w => (w.1, raiseTo n w.2)) } else b.2)) }

/-- MARGIN_PROFILE (R414): a reserved code is refused. -/
def execMarginProfile (core : Nat) (code : BitVec 8) (s : State) : Out :=
  match profileOf code.toNat (Config.floor core).toNat with
  | none => .next s
  | some p => .next (handRaise (modCore s core (fun c => { c with profile := code, raiseN := p.n })) core p.n)

/-- The bits of LREMAP that are written (Table 21.3), with TWOPASS as they make it. -/
def remapValue (v : Word) : Word := (v &&& 0x3FFF#32) ||| (if v.getLsbD 6 && v.getLsbD 13 then 0x4000#32 else 0#32)

/-- LREMAP of a slot as it is in force: until it is written, the fused first bad lane, and no second one (Table 21.3). -/
def remapOf (s : State) (core slot : Nat) : Word := mget (getCore s core).lremap slot (remapValue (Config.remapFuse core slot &&& 0x7F#32))

/-- The bad lanes that a value names. -/
def badLanes (v : Word) : List Nat :=
  (if v.getLsbD 6 then [bits v.toNat 5 0] else []) ++ (if v.getLsbD 13 then [bits v.toNat 12 7] else [])

/-- A value for LREMAP is acceptable: lanes 0 to 32, VB only with VA (Table 21.3); ones in reserved bits are ignored (R6). -/
def remapOk (v : Word) : Bool :=
  (badLanes v).all (fun l => decide (l ≤ 32)) && (v.getLsbD 6 || !v.getLsbD 13)

/-- LREMAP_WRITE (R418): pending while the core is quarantined; in service it is ignored and logged; a third bad lane takes the slot
out of service. -/
def execLremapWrite (core slot : Nat) (value : BitVec 32) (s : State) : Out :=
  let k := getCore s core
  if !k.margin.quar then .next (logEvent s 5 0 none (remapOf s core slot) core)
  else if !remapOk value then .next s
  else
    let old := mget k.pendingRemap slot (remapOf s core slot)
    if 2 < (dedup (badLanes old ++ badLanes value)).length then
      .next (modCore s core (fun c => { c with slotDead := if c.slotDead.contains slot then c.slotDead else c.slotDead ++ [slot] }))
    else .next (modCore s core (fun c => { c with pendingRemap := mset c.pendingRemap slot (remapValue value) }))

/-- One pending lane remap takes effect and is logged. -/
def applyRemap (core : Nat) (s : State) (x : Nat × Word) : State :=
  logEvent (modCore s core (fun c => { c with lremap := mset c.lremap x.1 x.2 })) 5 0 none x.2 core

/-- RELEASE (R415): the self-test at step 0, then pending remaps and service; a core that fails it, or was quarantined three times,
stays quarantined until die reset. -/
def execRelease (core : Nat) (s : State) : Out :=
  let k := getCore s core
  if !k.margin.quar then .next s
  else if k.testEvent || !Config.selfTest core s.ticks then .next (modCore s core (fun c => { c with testEvent := true }))
  else if 3 ≤ k.margin.qcnt.toNat then .next s
  else
    let s1 := k.pendingRemap.foldl (applyRemap core) s
    let s2 := modCore s1 core (fun c => { c with
      pendingRemap := [], margin := { c.margin with quar := false, qwhy := 0#2, target := 0#4, cur := 0#4 } })
    .next (logEvent s2 4 0 none (k.margin.qcnt.setWidth 32) core)

/-- POWER_BUDGET (R416): refused whole beyond 3,000 W or below a plane's minimum. -/
def execPowerBudget (matrix near links : Nat) (s : State) : Out :=
  if 3000 < matrix + near + links ∨ matrix < 400 ∨ near < 300 ∨ links < 150 then .next s
  else .next { s with mgmt := { s.mgmt with budgetMatrix := matrix, budgetNear := near, budgetLinks := links } }

/-- PLANE_BUDGET_REACHED (R416): a plane (0 matrix, 1 near memory, 2 links) is paced, or no longer.  Pacing changes timing only. -/
def execPlaneBudgetReached (plane : Nat) (reached : Bool) (s : State) : Out :=
  if 2 < plane then .next s
  else
    let rest := s.mgmt.paced.filter (fun p => p != plane)
    .next { s with mgmt := { s.mgmt with paced := if reached then plane :: rest else rest } }

/-- A mailbox answer. -/
def mailboxAnswer (s : State) (bs : List Byte) : State := { s with mgmt := { s.mgmt with replies := s.mgmt.replies ++ [bs] } }

/-- READ_AND_CLEAR (R374, R59): the management processor reads a margin register, and clears the RC fields it read. -/
def execReadAndClear (core : Nat) (index : BitVec 10) (s : State) : Out :=
  if index.toNat < 0x100 ∨ 0x106 < index.toNat then .next (mailboxAnswer s [])
  else
    let s1 := mailboxAnswer s (natLe 4 (marginReg s core index.toNat).toNat)
    .next (if index = 0x102#10 then modMargin s1 core (fun g => { g with repl := 0#16, mtrap := 0#8, raise := 0#8 }) else s1)

/-- A write of a margin register by the management processor (R374): it changes RW fields and INJEN.  Once it writes MRGCTL or INJEN itself,
no profile is applied to the core until one is chosen again (log 93). -/
def manageMargin (core : Nat) (index : BitVec 10) (v : Word) (s : State) : State :=
  let own := fun (s : State) => modCore s core (fun k => { k with profile := 0xFF#8 })
  match index.toNat with
  | 0x100 => own (writeMargin s core v)
  | 0x104 => modMargin s core (fun g => { g with inj0 := v &&& injBits })
  | 0x105 => modMargin s core (fun g => { g with inj1 := v &&& injBits })
  | 0x106 => own (modMargin s core (fun g => { g with injen := v.getLsbD 3 }))
  | _ => s

end Sys2Proof.Machine
end

