-- ==== Sys2Proof/Machine/Sha.lean ====
section
/-! DEFINITION. SHA-512 over bytes (R410 to R413: image digests, measurements and attestation). -/

namespace Sys2Proof.Machine

/-- A rotation to the right. -/
def rotr (x : DWord) (n : Nat) : DWord := x.rotateRight n

/-- Round constants 0 to 9. -/
def shaK0 : List DWord :=
  [0x428a2f98d728ae22#64, 0x7137449123ef65cd#64, 0xb5c0fbcfec4d3b2f#64, 0xe9b5dba58189dbbc#64, 0x3956c25bf348b538#64,
   0x59f111f1b605d019#64, 0x923f82a4af194f9b#64, 0xab1c5ed5da6d8118#64, 0xd807aa98a3030242#64, 0x12835b0145706fbe#64]

/-- Round constants 10 to 19. -/
def shaK1 : List DWord :=
  [0x243185be4ee4b28c#64, 0x550c7dc3d5ffb4e2#64, 0x72be5d74f27b896f#64, 0x80deb1fe3b1696b1#64, 0x9bdc06a725c71235#64,
   0xc19bf174cf692694#64, 0xe49b69c19ef14ad2#64, 0xefbe4786384f25e3#64, 0x0fc19dc68b8cd5b5#64, 0x240ca1cc77ac9c65#64]

/-- Round constants 20 to 29. -/
def shaK2 : List DWord :=
  [0x2de92c6f592b0275#64, 0x4a7484aa6ea6e483#64, 0x5cb0a9dcbd41fbd4#64, 0x76f988da831153b5#64, 0x983e5152ee66dfab#64,
   0xa831c66d2db43210#64, 0xb00327c898fb213f#64, 0xbf597fc7beef0ee4#64, 0xc6e00bf33da88fc2#64, 0xd5a79147930aa725#64]

/-- Round constants 30 to 39. -/
def shaK3 : List DWord :=
  [0x06ca6351e003826f#64, 0x142929670a0e6e70#64, 0x27b70a8546d22ffc#64, 0x2e1b21385c26c926#64, 0x4d2c6dfc5ac42aed#64,
   0x53380d139d95b3df#64, 0x650a73548baf63de#64, 0x766a0abb3c77b2a8#64, 0x81c2c92e47edaee6#64, 0x92722c851482353b#64]

/-- Round constants 40 to 49. -/
def shaK4 : List DWord :=
  [0xa2bfe8a14cf10364#64, 0xa81a664bbc423001#64, 0xc24b8b70d0f89791#64, 0xc76c51a30654be30#64, 0xd192e819d6ef5218#64,
   0xd69906245565a910#64, 0xf40e35855771202a#64, 0x106aa07032bbd1b8#64, 0x19a4c116b8d2d0c8#64, 0x1e376c085141ab53#64]

/-- Round constants 50 to 59. -/
def shaK5 : List DWord :=
  [0x2748774cdf8eeb99#64, 0x34b0bcb5e19b48a8#64, 0x391c0cb3c5c95a63#64, 0x4ed8aa4ae3418acb#64, 0x5b9cca4f7763e373#64,
   0x682e6ff3d6b2b8a3#64, 0x748f82ee5defb2fc#64, 0x78a5636f43172f60#64, 0x84c87814a1f0ab72#64, 0x8cc702081a6439ec#64]

/-- Round constants 60 to 69. -/
def shaK6 : List DWord :=
  [0x90befffa23631e28#64, 0xa4506cebde82bde9#64, 0xbef9a3f7b2c67915#64, 0xc67178f2e372532b#64, 0xca273eceea26619c#64,
   0xd186b8c721c0c207#64, 0xeada7dd6cde0eb1e#64, 0xf57d4f7fee6ed178#64, 0x06f067aa72176fba#64, 0x0a637dc5a2c898a6#64]

/-- Round constants 70 to 79. -/
def shaK7 : List DWord :=
  [0x113f9804bef90dae#64, 0x1b710b35131c471b#64, 0x28db77f523047d84#64, 0x32caab7b40c72493#64, 0x3c9ebe0a15c9bebc#64,
   0x431d67c49c100d4c#64, 0x4cc5d4becb3e42b6#64, 0x597f299cfc657e2a#64, 0x5fcb6fab3ad6faec#64, 0x6c44198c4a475817#64]

/-- The round constants of SHA-512. -/
def shaK : List DWord := shaK0 ++ shaK1 ++ shaK2 ++ shaK3 ++ shaK4 ++ shaK5 ++ shaK6 ++ shaK7

/-- The initial hash value of SHA-512. -/
def shaInit : List DWord :=
  [0x6a09e667f3bcc908#64, 0xbb67ae8584caa73b#64, 0x3c6ef372fe94f82b#64, 0xa54ff53a5f1d36f1#64,
   0x510e527fade682d1#64, 0x9b05688c2b3e6c1f#64, 0x1f83d9abfb41bd6b#64, 0x5be0cd19137e2179#64]

/-- A 64-bit word from eight bytes, the highest first. -/
def beWord (bs : List Byte) : DWord := BitVec.ofNat 64 (leNat bs.reverse)

/-- The words of a block, in eights of bytes. -/
def beWords : Nat → List Byte → List DWord
  | 0, _ => []
  | n + 1, bs => beWord (firstN 8 bs) :: beWords n (bs.drop 8)

/-- The message schedule: the sixteen last words, newest first, and how many words are still to come. -/
def shaSchedule : Nat → List DWord → List DWord
  | 0, _ => []
  | n + 1, ws =>
    let g := fun k => lget ws k 0#64
    let s0 := rotr (g 14) 1 ^^^ rotr (g 14) 8 ^^^ (g 14 >>> 7)
    let s1 := rotr (g 1) 19 ^^^ rotr (g 1) 61 ^^^ (g 1 >>> 6)
    let w := g 15 + s0 + g 6 + s1
    w :: shaSchedule n (w :: firstN 15 ws)

/-- One round on the eight working values. -/
def shaRound (v : List DWord) (kw : DWord × DWord) : List DWord :=
  let g := fun k => lget v k 0#64
  let s1 := rotr (g 4) 14 ^^^ rotr (g 4) 18 ^^^ rotr (g 4) 41
  let ch := (g 4 &&& g 5) ^^^ (~~~(g 4) &&& g 6)
  let t1 := g 7 + s1 + ch + kw.1 + kw.2
  let s0 := rotr (g 0) 28 ^^^ rotr (g 0) 34 ^^^ rotr (g 0) 39
  let maj := (g 0 &&& g 1) ^^^ (g 0 &&& g 2) ^^^ (g 1 &&& g 2)
  [t1 + s0 + maj, g 0, g 1, g 2, g 3 + t1, g 4, g 5, g 6]

/-- One block of 128 bytes. -/
def shaBlock (h : List DWord) (block : List Byte) : List DWord :=
  let ws := beWords 16 block
  let all := ws ++ shaSchedule 64 ws.reverse
  let v := (List.zip shaK all).foldl shaRound h
  (List.zip h v).map (fun x => x.1 + x.2)

/-- Blocks one after another. -/
def shaBlocks : Nat → List DWord → List Byte → List DWord
  | 0, h, _ => h
  | n + 1, h, bs => shaBlocks n (shaBlock h (firstN 128 bs)) (bs.drop 128)

/-- The padding after a message of n bytes. -/
def shaPad (n : Nat) : List Byte :=
  0x80#8 :: copies ((239 - n % 128) % 128) 0#8 ++ (natLe 16 (8 * n)).reverse

/-- SHA-512 of some bytes, in the order in which the digest is written. -/
def sha512 (bs : List Byte) : List Byte :=
  let m := bs ++ shaPad bs.length
  (shaBlocks (m.length / 128) shaInit m).flatMap (fun w => (natLe 8 w.toNat).reverse)

end Sys2Proof.Machine
end

