-- ==== Sys2Proof/Machine/Manage.lean ====
section
/-! DEFINITION. The management plane: Salnor images and boot (R409 to R413, R422), library checks (R143), and the resets of a
die and of the package (R61, R85, R374, R421, R425). -/

namespace Sys2Proof.Machine

/-! ## Checks of an image (R143, R410, R411) -/

/-- Bits [hi:lo] of a header. -/
def imageField (img : List Byte) (hi lo : Nat) : Nat := bits (leNat (firstN 256 img)) hi lo

/-- KIND of an image. -/
def imageKind (img : List Byte) : Nat := imageField img 39 32

/-- The payload that follows an image's header. -/
def imagePayload (img : List Byte) : List Byte := img.drop 256

/-- DIGEST, as its bytes stand in the header. -/
def imageDigest (img : List Byte) : List Byte := firstN 64 (img.drop 24)

/-- Check 1 of R411: MAGIC, KIND, SIZE and the reserved fields. -/
def headerOk (img : List Byte) : Bool :=
  let f := imageField img
  decide (256 ≤ img.length) && f 31 0 == 0x534C4E31 && decide (1 ≤ f 39 32) && decide (f 39 32 ≤ 6) && f 63 40 == 0 &&
    f 159 128 % 64 == 0 && f 191 160 == 0 && f 2047 1760 == 0

/-- The fused minimum SVN of a kind, as raised since (R411). -/
def svnMinimum (s : State) (kind : Nat) : Word := mget s.mgmt.svnMin kind (Config.svnFuse kind)

/-- Check 3: DIGEST and SIZE fit the payload. -/
def digestOk (img : List Byte) : Bool :=
  let p := imagePayload img
  p.length == imageField img 159 128 && sha512 p == imageDigest img

/-- A code offset that an entry may name. -/
def entryOffset (size off : Nat) : Bool := off % 4 == 0 && decide (off < size)

/-- A routine entry keeps to Table 6.13 and to R143. -/
def routineOk (img : List Byte) (i : Nat) : Bool :=
  let a := (payloadWord img 8).toNat + 32 * i
  let w := fun k => (payloadWord img (a + k)).toNat
  let size := libSize img
  let kind := bits (w 0) 1 0
  kind != 3 && (i != 0 || kind == 2) && (i != 1 || kind == 1) && bits (w 0) 15 2 == 0 && decide (bits (w 0) 31 16 ≤ 16) &&
    entryOffset size (w 4) && entryOffset size (if w 8 = 0xFFFFFFFF then w 4 + 4 else w 8) &&
    (if kind = 1 then entryOffset size (w 12) else w 12 == 0xFFFFFFFF) && (below 4).all (fun k => w (16 + 4 * k) == 0)

/-- The payload of a KIND 6 image is a library (R143, Table 6.12). -/
def libraryOk (img : List Byte) : Bool :=
  let w := fun k => (payloadWord img k).toNat
  let n := (imagePayload img).length
  let routines := bits (w 4) 15 0
  let tab := w 8
  let code := w 12
  let size := w 16
  let tabEnd := tab + 32 * routines
  let codeEnd := code + size
  decide (64 ≤ n) && w 0 == 0x4E504C42 && decide (2 ≤ routines) && decide (routines ≤ 4096) && bits (w 4) 31 16 == 0 &&
    tab % 64 == 0 && code % 64 == 0 && size % 4 == 0 && decide (size ≤ 262144) && (upFrom 5 11).all (fun k => w (4 * k) == 0) &&
    decide (64 ≤ tab) && decide (64 ≤ code) && decide (tabEnd ≤ n) && decide (codeEnd ≤ n) &&
    (decide (tabEnd ≤ code) || decide (codeEnd ≤ tab)) && (below routines).all (routineOk img)

/-- The check of R411 that an image fails; 0 where it passes all. -/
def failedCheck (s : State) (img : List Byte) : Nat :=
  if !headerOk img then 1
  else if imageField img 127 96 < (svnMinimum s (imageKind img)).toNat then 2
  else if !digestOk img then 3
  else if !Config.imageSigned (firstN 256 img) then 4
  else if imageKind img = 6 ∧ libraryOk img = false then 5
  else 0

/-! ## Activation (R412) -/

/-- A measurement register. -/
def measOf (m : Mgmt) (k : Nat) : BitVec 512 := mget m.meas k 0#512

/-- MEASk extended with an image's DIGEST (R412). -/
def extendMeas (m : Mgmt) (img : List Byte) : Mgmt :=
  let k := imageKind img
  { m with meas := mput m.meas k (BitVec.ofNat 512 (leNat (sha512 (natLe 64 (measOf m k).toNat ++ imageDigest img)))) 0#512 }

/-- Every kind has an active image. -/
def allActive (m : Mgmt) : Bool := (upFrom 1 6).all (fun k => (mfind m.active k).isSome)

/-- The device offers more than its mailbox once every kind has a valid image (R411). -/
def openDevice (m : Mgmt) : Mgmt := { m with mailboxOnly := !allActive m }

/-- IMAGE_LOAD (R411, R412): a failure keeps the active image and logs the check; otherwise the image is measured and activated at its
boundary. -/
def execImageLoad (image : List (BitVec 8)) (s : State) : Out :=
  let bad := failedCheck s image
  let kind := imageKind image
  let s1 := if bad ≠ 0 then s
    else
      let m := extendMeas s.mgmt image
      let n := m.images.length + 1
      let m1 := { m with images := mset m.images n image }
      let m2 := if kind = 2 then { m1 with next2 := some n } else { m1 with active := mset m1.active kind n }
      { s with mgmt := openDevice m2 }
  .next (logEvent s1 11 0 none (BitVec.ofNat 32 (kind + bad * 256)) 0)

/-- MANAGEMENT_RESTART (R412): a KIND 2 image that waits takes effect. -/
def execManagementRestart (s : State) : Out :=
  match s.mgmt.next2 with
  | none => .next s
  | some n => .next { s with mgmt := openDevice { s.mgmt with active := mset s.mgmt.active 2 n, next2 := none } }

/-- SVN_MINIMUM_RAISE (R411, R422): a kind's minimum rises to its active image's SVN, and never falls. -/
def execSvnMinimumRaise (kind : BitVec 8) (s : State) : Out :=
  match mfind s.mgmt.active kind.toNat with
  | none => .next s
  | some n =>
    let svn := BitVec.ofNat 32 (imageField (imageOf s n) 127 96)
    if svn.toNat ≤ (svnMinimum s kind.toNat).toNat then .next s
    else .next { s with mgmt := { s.mgmt with svnMin := mset s.mgmt.svnMin kind.toNat svn } }

/-- The fields of an attestation reply (R413): MEAS0 to MEAS6, the six SVN minima, the serial number. -/
def attestFields (s : State) : List Byte :=
  (below 7).flatMap (fun k => natLe 64 (measOf s.mgmt k).toNat) ++
    (upFrom 1 6).flatMap (fun k => natLe 4 (svnMinimum s k).toNat) ++ natLe 16 Config.serial.toNat

/-- ATTESTATION (R413). -/
def execAttestation (nonce : BitVec 512) (s : State) : Out :=
  let fields := attestFields s
  let digest := sha512 (natLe 64 nonce.toNat ++ fields)
  .next (mailboxAnswer s (fields ++ Config.identitySign (BitVec.ofNat 512 (leNat digest))))

/-! ## Resets (R61, R85, R374, R421, R425) -/

/-- The entries of a map whose key passes a test. -/
def mkeep {α : Type} (m : Map α) (p : Nat → Bool) : Map α := m.filter (fun x => p x.1)

/-- A die as it is after its reset: beds, cores, plots, slices, translations, counters and engines (R61, R85, R374, R421). -/
def resetDie (s : State) (die : Nat) : State :=
  let s1 := (s.beds.filter (fun b => b.2.stage == .resident && dieOf b.2.core == die)).foldl (fun s b => removeBed s b.1 b.2) s
  { s1 with
    cores := mkeep s1.cores (fun k => dieOf k != die),
    plots := mkeep s1.plots (fun p => p / 16 != die),
    l2 := mkeep s1.l2 (fun t => t / 4 != die),
    tlb := mkeep s1.tlb (fun k => dieOf (k / 2 ^ 53) != die),
    early := s1.early.filter (fun e => dieOf e.core != die),
    copies := s1.copies.filter (fun c => dieOf c.2.core != die),
    bwait := s1.bwait.filter (fun w => (getBed s1 w.bed).isSome),
    engines := mkeep s1.engines (fun e => dieOfEngine e != die),
    searches := s1.searches.filter (fun x => dieOfEngine x.2.home != die),
    batches := s1.batches.filter (fun b => dieOfEngine b.2.engine != die),
    dies := mdel s1.dies die }

/-- DIE_RESET (R85). -/
def execDieReset (die : Nat) (s : State) : Out := if die < 4 then .next (resetDie s die) else .next s

/-- What a package keeps over a reset or without power: its flash, its fuses, and what the model itself counts. -/
def keepOver (s : State) (m : Mgmt) : State :=
  { State.reset with
    mgmt := { m with images := s.mgmt.images, active := s.mgmt.active, svnMin := s.mgmt.svnMin, next2 := s.mgmt.next2 },
    ticks := s.ticks, nextKey := s.nextKey, agent := s.agent }

/-- PACKAGE_RESET (R425): memory and the measurements stay; everything else is as after reset. -/
def execPackageReset (s : State) : Out :=
  if !s.powered then .next s
  else
    let s1 := keepOver s { Mgmt.reset with meas := s.mgmt.meas }
    .next { s1 with mgmt := openDevice s1.mgmt, mem := s.mem, memPoison := s.memPoison, home := s.home }

/-- POWER_OFF (R409): no part stays powered, and no measurement is kept; host memory is the host's. -/
def execPowerOff (s : State) : Out :=
  let s1 := keepOver s { Mgmt.reset with meas := [] }
  .next { s1 with
    powered := false, mem := s.mem.filter (fun x => decide (Config.hostBase ≤ x.1)),
    memPoison := s.memPoison.filter (fun x => decide (Config.hostBase ≤ 4 * x.1)) }

/-- At boot, the image of a kind is checked and measured again, or the kind has none (R411, R412). -/
def bootKind (s : State) (kind : Nat) : State :=
  let pick := if kind = 2 ∧ s.mgmt.next2.isSome = true then s.mgmt.next2 else mfind s.mgmt.active kind
  match pick with
  | none => s
  | some n =>
    let img := imageOf s n
    let bad := failedCheck s img
    let m := if bad = 0 then { extendMeas s.mgmt img with active := mset s.mgmt.active kind n }
      else { s.mgmt with active := mdel s.mgmt.active kind }
    logEvent { s with mgmt := if kind = 2 then { m with next2 := none } else m } 11 0 none (BitVec.ofNat 32 (kind + bad * 256)) 0

/-- POWER_ON (R412): measurements are zero but for the boot ROM's own, and the images of the flash are booted. -/
def execPowerOn (rom : BitVec 512) (s : State) : Out :=
  if s.powered then .next s
  else
    let s1 := { s with powered := true, mgmt := { s.mgmt with meas := mput [] 0 rom 0#512 } }
    let s2 := (upFrom 1 6).foldl bootKind s1
    .next { s2 with mgmt := openDevice s2.mgmt }

end Sys2Proof.Machine
end

