-- ==== Sys2Proof/Machine/Search.lean ====
section
/-! DEFINITION. NMSEARCH (R284) and the events of a search (R154 to R165). -/

namespace Sys2Proof.Machine

/-- NMSEARCH (R284): the card and the barrier go to the search controller of the card's stack, whose page may fault (Table 11.1).  The
address of its reference is checked as R249 and R239 say.  Until it has a home engine, the search's `home` stands for the controller that
has its command: the first engine of that controller's stack. -/
def execNmsearch (a b : BitVec 7) (s : State) : Out :=
  groupOp s (fun c sh m =>
    let va := rdG64 s c sh (rn a)
    let ref := rdG64 s c sh (rn b)
    let core := sh.place.core
    if poisonG s c sh [rn a, rn a + 1, rn b, rn b + 1] then poisonUse s c sh m
    else if va.toNat % 64 ≠ 0 then misaligned s c sh m (firstLane m) va
    else if !canonical va then violation s c sh m (firstLane m) va
    else if !refOk ref false then queueFault s c sh
    else withRef s c sh m ref (withPage s c sh m va false (fun s pa _ =>
      let x : Search :=
        { launch := launchKey s c.bed, asid := asidOf s c.bed, plot := plotOf core, cardVa := va, ref := ref, card := 0#512,
          desc := 0#1024, descPa := 0, snap := 0#32, stage := .sent, lib := 0, home := 64 * stackOf pa, heap0 := 0, heapn := 0, visited := [],
          entries := [], spawned := 0, endedW := 0, handed := 0, dreqs := 0, waiters := [], holding := 0, query := [],
          qpages := [], rpages := [], spent := false, poison := false, engFault := false, hold := Hold.reset }
      let f := fresh (touchBy s c.bed core ref)
      done { f.2 with searches := mset f.2.searches f.1 x } c sh)))

/-! ## Registration (R154, R156) -/

/-- Bytes of device memory as an engine reads them, and whether a word of them is poisoned (R132, R133). -/
def dramBytes (s : State) (as : List Nat) : List Byte × Bool :=
  (as.map (fun a => byteOf (engineWord s (a / 4)).1 (a % 4)), as.any (fun a => (engineWord s (a / 4)).2))

/-- Physical addresses of the pages that n bytes at a VA fall in; none where one is not valid, lies in host memory, or may not be
written where it must be. -/
def pagesOf (s : State) (asid : BitVec 16) (va : DWord) (n : Nat) (write : Bool) : Option (List Nat) :=
  (upFrom (va.toNat / 4096) ((va.toNat % 4096 + n + 4095) / 4096)).foldr
    (fun p acc =>
      match translateAt s asid (BitVec.ofNat 64 (4096 * p)) write, acc with
      | some (pa, false), some r => some (pa :: r)
      | _, _ => none) (some [])

/-- A VA of a card is canonical and 64-byte aligned (Table 6.5). -/
def cardVaOk (va : DWord) : Bool := canonical va && decide (va.toNat % 64 = 0)

/-- A card keeps the rules of Table 6.5 that concern neither the result list nor the index. -/
def cardOk (x : Search) : Bool :=
  let k := cardK x
  decide (1 ≤ k) && decide (k ≤ 1024) && decide (k ≤ cardField x 63 48) && decide (cardField x 63 48 ≤ 1024) &&
    decide (1 ≤ cardField x 127 96) && cardVaOk (BitVec.ofNat 64 (cardField x 191 128)) &&
    decide (1 ≤ cardField x 259 256) && decide (cardField x 259 256 ≤ 8) && cardField x 511 260 == 0

/-- The identifier that stands for no entry node (Table 6.4). -/
def unusedEntry : Nat := 0xFFFFFFFFFFFFFFFF

/-- ENTRY0 to ENTRY3 of a descriptor. -/
def entryFields (d : BitVec 1024) : List Nat := (below 4).map (fun k => descField d (319 + 64 * k) (256 + 64 * k))

/-- A descriptor keeps the rules of Table 6.4. -/
def descOk (d : BitVec 1024) : Bool :=
  let metric := descField d 66 64
  let fmt := descField d 75 72
  let fmtOk := if metric = 3 then true else if metric = 4 then fmt == 10
    else fmt == 1 || fmt == 2 || fmt == 3 || fmt == 4 || fmt == 9
  decide (metric ≤ 4) && fmtOk && descField d 71 67 == 0 && descField d 79 76 == 0 &&
    decide (1 ≤ descField d 111 96) && decide (descField d 111 96 ≤ 256) && descField d 127 112 == 0 &&
    descField d 191 128 % 16 == 0 && descField d 255 240 == 0 && descField d 1023 512 == 0 &&
    lget (entryFields d) 0 unusedEntry != unusedEntry &&
    (entryFields d).all (fun j => j == unusedEntry || decide (j < descField d 239 192))

/-- Bytes of the query of a descriptor. -/
def descQueryBytes (d : BitVec 1024) : Nat := queryBytes (descField d 66 64) (descField d 75 72) (descField d 95 80)

/-- A card fault (Table 6.7). -/
def cardFault (poison write : Bool) : Ending :=
  { emptyEnding 2 with truncated := true, poison := poison, write := write, registered := false }

/-- The card's checks against its index, once its result list is known to be good; then the snapshot registers. -/
def registerIndex (s : State) (q : Nat) (x : Search) : State :=
  let s0 := { s with searches := mset s.searches q x }
  let h := cardField x 31 0
  match mfind s.indexes h with
  | none => endSearch s0 q (cardFault false true)
  | some i =>
    let d := dramBytes s (upFrom i.descPa 128)
    let desc := BitVec.ofNat 1024 (leNat d.1)
    let comm := committed s i
    let low := (engineWord s (i.descPa / 4 + 1)).1
    let snap := if x.snap = 0xFFFFFFFF#32 then comm else x.snap
    let qva : DWord := BitVec.ofNat 64 (cardField x 191 128)
    let y := { x with desc := desc, descPa := i.descPa, snap := snap, home := 64 * stackOf i.descPa }
    let s1 := { s with searches := mset s.searches q y }
    if d.2 then endSearch s1 q (cardFault true true)
    else if !descOk desc || !cardOk y then endSearch s1 q (cardFault false true)
    else
      match pagesOf s x.asid qva (descQueryBytes desc) false with
      | none => endSearch s1 q (cardFault false true)
      | some ps =>
        if comm.toNat < snap.toNat then endSearch s1 q (cardFault false true)
        else if snap.toNat < low.toNat then
          endSearch s1 q { emptyEnding 5 with retired := true, registered := false }
        else
          registerSnap { s with searches := mset s.searches q { y with qpages := ps, stage := .registered } } h snap

/-- SEARCH_REGISTRATION (R154, R156). -/
def execSearchRegistration (qid : Nat) (s : State) : Out :=
  match getSearch s qid with
  | none => .next s
  | some x =>
    if x.stage ≠ .sent then .next s
    else
      match nearAddrs s x.asid false 64 x.cardVa with
      | none => .next (endSearch s qid (cardFault false false))
      | some as =>
        let c := dramBytes s as
        let y := { x with card := BitVec.ofNat 512 (leNat c.1), snap := BitVec.ofNat 32 (bits (leNat c.1) 95 64),
                          ctl := activeImage s 3 }
        let rva : DWord := BitVec.ofNat 64 (cardField y 255 192)
        let k := if 1 ≤ cardK y ∧ cardK y ≤ 1024 then cardK y else 0
        let s1 := { s with searches := mset s.searches qid y }
        if c.2 then .next (endSearch s1 qid (cardFault true false))
        else if !cardVaOk rva then .next (endSearch s1 qid (cardFault false false))
        else
          match pagesOf s x.asid rva (32 + 16 * k) true with
          | none => .next (endSearch s1 qid (cardFault false false))
          | some ps => .next (registerIndex s qid { y with rpages := ps })

/-! ## Nodes at a snapshot (R151, R152) -/

/-- What a walk finds. -/
inductive Found where
  /-- the VA of the vector of a visible record -/
  | vector (va : DWord)
  | absent
  /-- an address does not translate -/
  | fault
  deriving DecidableEq, Repr

/-- A field of bytes, little-endian. -/
def leField (bs : List Byte) (k n : Nat) : Nat := leNat (firstN n (afterN k bs))

/-- A node is taken as absent for its index structure: kind 17 (R421). -/
def absentEvent (s : State) (e j why : Nat) : State :=
  logEvent s 17 (dieOfEngine e) none (BitVec.ofNat 32 (why + j % 2 ^ 28 * 16)) e

/-- Poison met by a search. -/
def poisonSearch (s : State) (q : Nat) : State := modSearch s q (fun x => { x with poison := true })

/-- The VA of the vector of a node's visible record, and the record's stack. -/
def recordOf (s : State) (q j : Nat) (x : Search) : Found × Nat × State :=
  match nearRead s (.walker q) 8 (BitVec.ofNat 64 (descField x.desc 191 128 + 16 * j)) with
  | (none, s1) => (.fault, 0, s1)
  | (some (t, tq), s1) =>
    let va : DWord := BitVec.ofNat 64 (leNat t)
    if tq then (.absent, 0, poisonSearch s1 q)
    else if leNat t = 0 || decide (descField x.desc 239 192 ≤ j) then (.absent, 0, s1)
    else
      match nearRead s1 (.walker q) 16 va, nearAddrs s1 x.asid false 1 va with
      | (some (h, hq), s2), some (pa :: _) =>
        let tomb := leField h 4 4
        if hq then (.absent, stackOf pa, poisonSearch s2 q)
        else if leField h 0 4 ≤ x.snap.toNat ∧ (tomb = 0 ∨ x.snap.toNat < tomb) then (.vector (va + 16#64), stackOf pa, s2)
        else (.absent, stackOf pa, s2)
      | (_, s2), _ => (.fault, 0, s2)

/-- The walk of an adjacency chain (R152): whether a block is visible.  `last` is the version of the newer block. -/
def chainWalk (q j e stack : Nat) (x : Search) : Nat → Option Nat → Nat → State → Option Bool × State
  | 0, _, va, s => if va = 0 then (some false, s) else (some false, absentEvent s e j 2)
  | n + 1, last, va, s =>
    if va = 0 then (some false, s)
    else
      match nearRead s (.walker q) 16 (BitVec.ofNat 64 va), nearAddrs s x.asid false 1 (BitVec.ofNat 64 va) with
      | (some (h, hq), s1), some (pa :: _) =>
        let v := leField h 0 4
        let older := match last with
          | some w => decide (w < v)
          | none => false
        if stackOf pa ≠ stack then (some false, absentEvent s1 e j 0)
        else if hq then (some false, poisonSearch s1 q)
        else if older then (some false, absentEvent s1 e j 2)
        else if v ≤ x.snap.toNat then
          if descField x.desc 111 96 < leField h 4 2 then (some false, absentEvent s1 e j 1) else (some true, s1)
        else chainWalk q j e stack x n (some v) (leField h 8 8) s1
      | (_, s1), _ => (none, s1)

/-- A node at the snapshot: its record and its adjacency must both be visible (R152). -/
def nodeOf (s : State) (q j e : Nat) (x : Search) : Found × State :=
  match recordOf s q j x with
  | (.vector va, stack, s1) =>
    (match nearRead s1 (.walker q) 8 (BitVec.ofNat 64 (descField x.desc 191 128 + 16 * j + 8)) with
     | (none, s2) => (.fault, s2)
     | (some (t, tq), s2) =>
       if tq then (.absent, poisonSearch s2 q)
       else
         match chainWalk q j e stack x 65536 none (leNat t) s2 with
         | (none, s3) => (.fault, s3)
         | (some true, s3) => (.vector va, s3)
         | (some false, s3) => (.absent, s3))
  | (f, _, s1) => (f, s1)

/-- The key of a vector for a search: its distance, an inner product negated (R149); none where its data are poisoned (R165). -/
def keyOf (s : State) (q : Nat) (x : Search) (va : DWord) : Option (Option Word) × State :=
  let metric := descField x.desc 66 64
  let fmt := descField x.desc 75 72
  let n := descField x.desc 95 80
  match nearRead s (.walker q) (vectorBytes metric fmt n) va with
  | (none, s1) => (none, s1)
  | (some (bs, p), s1) =>
    if p then (some none, poisonSearch s1 q)
    else
      let d : Word := BitVec.ofNat 32 (distance metric fmt n x.query bs).code
      (some (some (if metric = 1 then d ^^^ 0x80000000#32 else d)), s1)

/-! ## Setup (R159) -/

/-- Entry nodes with a visible record: identifier, vector and stack; none where an address does not translate. -/
def entryNodes (q : Nat) (x : Search) : State → List Nat → Option (List (Nat × DWord × Nat)) × State
  | s, [] => (some [], s)
  | s, j :: r =>
    match recordOf s q j x with
    | (.fault, _, s1) => (none, s1)
    | (f, stack, s1) =>
      let rest := entryNodes q x s1 r
      match f, rest.1 with
      | .vector va, some l => (some ((j, va, stack) :: l), rest.2)
      | _, l => (l, rest.2)

/-- Engines of a stack that have free heaps in a row and a free context. -/
def homeEngines (s : State) (stack n : Nat) : List Nat :=
  (upFrom (64 * stack) 64).filter (fun e => (freeHeaps (getEngine s e) n).isSome && (freeCtx (getEngine s e)).isSome)

/-- Entry nodes pushed with their distances; none where a vector does not translate.  R159 pushes every entry node with a visible record,
R152 no node that is absent: DESIGN CHOICE, an entry node whose record is visible and whose adjacency is absent is pushed (log 124). -/
def pushEntries (q home : Nat) (x : Search) : State → List (Nat × DWord × Nat) → Option State
  | s, [] => some s
  | s, n :: r =>
    match keyOf s q x n.2.1 with
    | (none, _) => none
    | (some none, s1) => pushEntries q home x s1 r
    | (some (some k), s1) =>
      pushEntries q home x (modChain s1 q home (fun c => { c with ents := heapPush c.capacity c.ents k n.1 })) r

/-- The walker record that a setup routine starts from (Table 6.8). -/
def walkerRecord (q : Nat) (x : Search) (node : Nat) : BitVec 512 :=
  BitVec.ofNat 512 (q % 65536 + x.home % 1024 * 2 ^ 16 + x.heap0 % 4 * 2 ^ 26 + (x.heapn - 1) % 4 * 2 ^ 28 + x.snap.toNat * 2 ^ 32 +
    node % 2 ^ 48 * 2 ^ 64 + cardField x 31 0 * 2 ^ 160)

/-- A search ends by an engine fault before its walkers start. -/
def setupFault (s : State) (q e code : Nat) : State :=
  let s1 := logEvent s 10 (dieOfEngine e) none (BitVec.ofNat 32 code) e
  checkSearch (modSearch s1 q (fun x => { x with stage := .running, engFault := true, home := e })) q

/-- First registers of a context of a search with its engine in g3 and its own number in g4, which a POPREQ names (Table 6.10;
log 55). -/
def contextNames (g : Map DWord) (e ctx : Nat) : Map DWord := mput (mput g 3 (BitVec.ofNat 64 e) 0#64) 4 (BitVec.ofNat 64 ctx) 0#64

/-- The home controller has an engine: chain, query, entry nodes, and the setup routine's context (R159, R143).  R167 does not say
whether the controller's reads of the card, the descriptor and the query block enter the search's read signature: DESIGN CHOICE, they do
not (log 125). -/
def placeSearch (s : State) (q : Nat) (x : Search) (nodes : List (Nat × DWord × Nat)) (home first ctx : Nat) : State :=
  let qs := dramBytes s ((below (descQueryBytes x.desc)).map (pagedByte x.qpages (BitVec.ofNat 64 (cardField x 191 128))))
  if qs.2 then endSearch (modSearch s q (fun x => { x with home := 64 * (home / 64) })) q { emptyEnding 4 with poison := true, truncated := true }
  else
    let y := { x with query := qs.1, home := home, heap0 := first, heapn := chainHeaps x, stage := .running, visited := [],
                      lib := activeImage s 6, entries := nodes.map (fun n => n.1) }
    let s1 := modEngine { s with searches := mset s.searches q y } home (fun en =>
      { en with chains := en.chains ++ [{ first := first, heaps := chainHeaps x, ctx := none, qid := some q, ents := [] }] })
    match pushEntries q home y s1 nodes, routineAt (imageOf s y.lib) 0 with
    | some s2, some r =>
      let v := vecOf (walkerRecord q y (lget (nodes.map (fun n => n.1)) 0 0))
      startCtx s2 home ctx (.setup q) y.lib r r.fetch r.math
        (contextNames [(1, BitVec.ofNat 64 (cardField x 259 256))] home ctx) [(0, v)] [] false 0
    | none, _ => setupFault s1 q home 2
    | _, none => setupFault s1 q home 1

/-- SEARCH_SETUP (R159): the search waits while no engine of its stack has enough free heaps, in order of arrival. -/
def execSearchSetup (qid : Nat) (s : State) : Out :=
  match getSearch s qid with
  | none => .next s
  | some x =>
    if x.stage ≠ .registered ∧ x.stage ≠ .waiting then .next s
    else
      match entryNodes qid x s ((entryFields x.desc).filter (fun j => j != unusedEntry)) with
      | (none, s1) => .next (setupFault s1 qid (64 * stackOf x.descPa) 2)
      | (some [], s1) =>
        (match getSearch s1 qid with
         | some y => .next (endSearch (modSearch s1 qid (fun y => { y with home := 64 * stackOf y.descPa })) qid
             { emptyEnding 0 with poison := y.poison })
         | none => .next s1)
      | (some (n :: r), s1) =>
        match getSearch s1 qid with
        | none => .next s1
        | some y =>
          let stack := n.2.2
          let before := s.searches.any (fun z => z.2.stage == .waiting && decide (z.2.home / 64 = stack) &&
            (y.stage != .waiting || decide (z.2.arrived < y.arrived)))
          let es := homeEngines s1 stack (chainHeaps x)
          let e := lget es (Config.freeNat (salt s 5400) % es.length) 0
          match (if before then none else if es.isEmpty then none else freeHeaps (getEngine s1 e) (chainHeaps x)),
            freeCtx (getEngine s1 e) with
          | some first, some ctx => .next (placeSearch s1 qid y (n :: r) e first ctx)
          | _, _ =>
            .next (if y.stage = .waiting then s1
              else modSearch (fresh s1).2 qid (fun x => { x with stage := .waiting, home := 64 * stack, arrived := (fresh s1).1 }))

/-! ## Walkers (R159, R160, R161) -/

/-- The slots of an engine's query buffer that hold or can take a query of n slots, lowest first. -/
def querySlot (en : Engine) (q n : Nat) : Option Nat :=
  let own := (en.qslot.filter (fun x => x.2 == q)).map (fun x => x.1)
  match own with
  | k :: _ => some k
  | [] => (below 16).find? (fun k => decide (k + n ≤ 16) && (upFrom k n).all (fun j => (mfind en.qslot j).isNone))

/-- The query stands in an engine's buffer (R147, R159); its first slot, or none where it waits for room. -/
def loadQuery (s : State) (e q : Nat) (x : Search) : Option (Nat × State) :=
  let n := (x.query.length + 4095) / 4096
  if 4 < n ∨ n = 0 then some (0, s)
  else
    match querySlot (getEngine s e) q n with
    | none => none
    | some k =>
      some (k, modEngine s e (fun en =>
        { en with
          qslot := (upFrom k n).foldl (fun m j => mset m j q) en.qslot,
          qbuf := (below x.query.length).foldl (fun m j => mput m (4096 * k + j) (lget x.query j 0#8) 0#8) en.qbuf }))

/-- A walker message of a kind starts a context (R143): SPAWN at the routine's entries, WALKER at its hop entry.  It waits outside the
receive queue while no context is free, or no room for its query (R159, R162). -/
def startWalker (s : State) (e kind : Nat) : State :=
  match headMsg s e kind with
  | none => s
  | some m =>
    match searchOfQid s (headField m.header 47 32) with
    | none => takeMsg s e m
    | some q =>
      match getSearch s q with
      | none => takeMsg s e m
      | some x =>
        match freeCtx (getEngine s e), loadQuery s e q x, routineAt (imageOf s x.lib) 1 with
        | some c, some (slot, s1), some r =>
          let pcs := if kind = 6 then (r.fetch, r.math) else (r.hop, r.hop + 4)
          startCtx (takeMsg s1 e m) e c (.walker q) x.lib r pcs.1 pcs.2
            (contextNames (if slot = 0 then [] else [(2, BitVec.ofNat 64 slot)]) e c) [(0, vecOf m.body)] [] (kind == 1 && m.holds)
            (if kind = 1 then m.dreqs else 0)
        | _, _, _ => parkMsgs s e kind

/-- SPAWN (R161). -/
def execSpawn (engine : Nat) (s : State) : Out := .next (startWalker s engine 6)

/-- WALKER (R160). -/
def execWalker (engine : Nat) (s : State) : Out := .next (startWalker s engine 1)

/-! ## The heap unit (R163, R164) -/

/-- The hash of an identifier in the visited bitmap (R301). -/
def visitedHash (j : Nat) : Nat := Nat.xor (Nat.xor (bits j 15 0) (bits j 31 16)) (bits j 47 32) % 65536

/-- The best unexpanded entry holds rank K or better. -/
def bestInK (ents : List HeapEnt) (k : Nat) : Bool := (firstN k ents).any (fun e => !e.expanded)

/-- One waiting POPREQ is tested (R164): the state after an answer, or none while it waits. -/
def servePop (s : State) (q : Nat) (w : Nat × Nat) : Option State :=
  match getSearch s q with
  | none => none
  | some x =>
    let reply := fun (s : State) (node : Nat) => hardMsg s x.home w.1 4 1 false q x.snap [node, w.2] (node != noIdent) 0
    let gone := { x with waiters := x.waiters.erase w }
    let ents := match chainOf s q x.home with
      | some c => c.ents
      | none => []
    if x.handed = cardField x 127 96 then
      some (reply { s with searches := mset s.searches q { gone with spent := true } } noIdent)
    else if bestInK ents (cardK x) then
      let p := heapPop ents
      let s1 := modChain s q x.home (fun c => { c with ents := p.2 })
      some (reply { s1 with searches := mset s1.searches q { gone with handed := x.handed + 1, holding := x.holding + 1 } } p.1.1)
    else if 0 < x.dreqs ∨ 0 < x.holding then none
    else some (reply { s with searches := mset s.searches q gone } noIdent)

/-- Every waiting POPREQ is tested in order, and the search ends if it is over (R164). -/
def serveHeap (s : State) (q : Nat) : State :=
  match getSearch s q with
  | none => s
  | some x => checkSearch (x.waiters.foldl (fun s w => (servePop s q w).getD s) s) q

/-- The search whose heap unit stands at an engine and that a message names. -/
def homeSearch (s : State) (e : Nat) (m : Msg) : Option (Nat × Search) :=
  match searchOfQid s (headField m.header 47 32) with
  | none => none
  | some q =>
    match getSearch s q with
    | some x => if x.stage = .running ∧ x.home = e then some (q, x) else none
    | none => none

/-- One candidate filtered through the visited bitmap and pushed (R163). -/
def takeCand (q home : Nat) (s : State) (c : Word × Nat) : State :=
  match getSearch s q with
  | none => s
  | some x =>
    let h := visitedHash c.2
    if mget x.visited h false then s
    else
      modChain (modSearch s q (fun x => { x with visited := mset x.visited h true })) q home
        (fun k => { k with ents := heapPush k.capacity k.ents c.1 c.2 })

/-- The candidates of a CANDS message. -/
def candsOf (m : Msg) : List (Word × Nat) :=
  (below (if headField m.header 27 24 < 4 then headField m.header 27 24 else 4)).map (fun k =>
    (BitVec.ofNat 32 (bodyItem m.body (2 * k)), bodyItem m.body (2 * k + 1) % 2 ^ 48))

/-- CANDS (R163). -/
def execCands (engine : Nat) (s : State) : Out :=
  match headMsg s engine 2 with
  | none => .next s
  | some m =>
    let s1 := takeMsg s engine m
    match homeSearch s1 engine m with
    | none => .next s1
    | some (q, _) =>
      let s2 := (candsOf m).foldl (takeCand q engine) s1
      .next (serveHeap (if m.header.getLsbD 28 then modSearch s2 q (fun x => { x with dreqs := x.dreqs - 1 }) else s2) q)

/-- A walker gives up its node and reports its DREQs. -/
def reportWalker (x : Search) (m : Msg) (dreqs : Nat) : Search :=
  { x with dreqs := x.dreqs + dreqs, holding := if m.holds then x.holding - 1 else x.holding }

/-- POPREQ (R164): engine, context and DREQs are the body's items. -/
def execPopreq (engine : Nat) (s : State) : Out :=
  match headMsg s engine 3 with
  | none => .next s
  | some m =>
    let s1 := takeMsg s engine m
    match homeSearch s1 engine m with
    | none => .next s1
    | some (q, _) =>
      .next (serveHeap (modSearch s1 q (fun x =>
        let y := reportWalker x m (bodyItem m.body 2 % 256)
        { y with waiters := y.waiters ++ [(bodyItem m.body 0 % 1024, bodyItem m.body 1 % 16)] })) q)

/-- The registers of a MSG.RECV that a thread waits in. -/
def recvRegs (w : NWait) : Option (Nat × Nat) :=
  match w with
  | .recv h a => some (h, a)
  | _ => none

/-- A thread takes a message (R291). -/
def takeRecv (t : NThr) (m : Msg) (r : Nat × Nat) : NThr :=
  let t1 := nearPutG (nearPutG t r.1 (m.header.setWidth 64)) (r.1 + 1) (BitVec.ofNat 64 (m.header.toNat / 2 ^ 64))
  { nearPutV t1 r.2 (vecOf m.body) with pc := t.pc + 4, wait := .ready }

/-- The context that a POPREP is routed to: the one its body names, where it runs for the message's search (R291). -/
def popTarget (s : State) (e : Nat) (m : Msg) : Option Ctx :=
  match mfind (getEngine s e).ctxs (bodyItem m.body 1 % 16) with
  | some c =>
    (match c.kind with
     | .walker q => if q % 65536 = headField m.header 47 32 then some c else none
     | _ => none)
  | none => none

/-- The POPREP can be taken: its context waits in a MSG.RECV, or is gone. -/
def popReady (s : State) (e : Nat) (m : Msg) : Bool :=
  m.kind == 4 && (match popTarget s e m with
    | some c => (recvRegs c.fetch.wait).isSome || (recvRegs c.math.wait).isSome
    | none => true)

/-- POPREP (R291): routed to the context that waits; the node of a context that is gone is given up. -/
def execPoprep (engine : Nat) (s : State) : Out :=
  match (getEngine s engine).rx.find? (popReady s engine) with
  | none => .next s
  | some m =>
    let s1 := takeMsg s engine m
    match popTarget s engine m with
    | none =>
      (match searchOfQid s1 (headField m.header 47 32) with
       | some q => .next (serveHeap (modSearch s1 q (fun x => reportWalker x m 0)) q)
       | none => .next s1)
    | some c =>
      let x := bodyItem m.body 1 % 16
      let math := (recvRegs c.fetch.wait).isNone
      let n : NCur := { engine := engine, ctx := x, math := math }
      match recvRegs (if math then c.math.wait else c.fetch.wait) with
      | none => .next s
      | some r => .next (modCtx (putThr s1 n (takeRecv (thrOf n c) m r)) engine x (fun c => { c with holds := m.holds }))

/-! ## Distance requests and the end of walkers (R163, R164) -/

/-- The candidates of some nodes; none where an address does not translate. -/
def answerNodes (q e : Nat) (x : Search) : State → List Nat → Option (List (Word × Nat)) × State
  | s, [] => (some [], s)
  | s, j :: r =>
    match nodeOf s q j e x with
    | (.fault, s1) => (none, s1)
    | (.absent, s1) => answerNodes q e x s1 r
    | (.vector va, s1) =>
      match keyOf s1 q x va with
      | (none, s2) => (none, s2)
      | (some none, s2) => answerNodes q e x s2 r
      | (some (some k), s2) =>
        let y := answerNodes q e x s2 r
        (y.1.map (fun l => (k, j) :: l), y.2)

/-- One CANDS message to HOME. -/
def sendCands (s : State) (e q : Nat) (x : Search) (cs : List (Word × Nat)) (last : Bool) : State :=
  hardMsg s e x.home 2 cs.length last q x.snap (cs.flatMap (fun c => [c.1.toNat, c.2])) false 0

/-- The context of a distance request with the CANDS that answer it: one with at most 4 candidates, else two (R163). -/
def requestCtx (x : Search) (q : Nat) (cs : List (Word × Nat)) : Ctx :=
  { kind := .request q, lib := x.lib, fetch := startThr 0 [] [], math := startThr 0 [] [], fwd := [], ret := [], grant := [],
    grantSize := 0, status := 0#64, holds := false, dreqs := 0, endSent := false, wrote := [],
    answers := if cs.length ≤ 4 then [cs] else [firstN 4 cs, afterN 4 cs] }

/-- DREQ (R163, R169): a free context takes the request and works out its answers; a fault is logged and still answered.  It waits
outside the receive queue while no context is free (R162). -/
def execDreq (engine : Nat) (s : State) : Out :=
  match headMsg s engine 5 with
  | none => .next s
  | some m =>
    match searchOfQid s (headField m.header 47 32) with
    | none => .next (takeMsg s engine m)
    | some q =>
      match getSearch s q, freeCtx (getEngine s engine) with
      | some x, some k =>
        let n := headField m.header 27 24
        let nodes := (below (if n < 8 then n else 8)).map (fun k => bodyItem m.body k % 2 ^ 48)
        let s1 := takeMsg s engine m
        let put := fun (s : State) (c : Ctx) => modEngine s engine (fun en => { en with ctxs := mset en.ctxs k c })
        (match answerNodes q engine x s1 nodes with
         | (none, s2) => .next (faultCtx (put s2 (requestCtx x q [])) engine k 2)
         | (some cs, s2) => .next (put s2 (requestCtx x q cs)))
      | _, _ => .next (parkMsgs s engine 5)

/-- A distance request sends its next CANDS once HOME has room for it; its context ends with the last (R162, R163). -/
def answerRequest (engine ctx : Nat) (s : State) : State :=
  match mfind (getEngine s engine).ctxs ctx with
  | none => s
  | some c =>
    match c.kind, c.answers with
    | .request q, cs :: rest =>
      (match getSearch s q with
       | none => endCtx s engine ctx
       | some x =>
         if !maySendNow s engine x.home then s
         else
           let s1 := sendCands s engine q x cs rest.isEmpty
           if rest.isEmpty then endCtx s1 engine ctx else modCtx s1 engine ctx (fun c => { c with answers := rest }))
    | _, _ => s

/-- ENDW (R164): a walker has ended. -/
def execEndw (engine : Nat) (s : State) : Out :=
  match headMsg s engine 7 with
  | none => .next s
  | some m =>
    let s1 := takeMsg s engine m
    match homeSearch s1 engine m with
    | none => .next s1
    | some (q, _) =>
      .next (serveHeap (modSearch s1 q (fun x =>
        let y := reportWalker x m (bodyItem m.body 1)
        { y with endedW := y.endedW + 1 })) q)

end Sys2Proof.Machine
end

