-- ==== Sys2Proof/Machine/Dispatch.lean ====
section
/-! DEFINITION. The meaning of each instruction and event: one arm per constructor of Instr. -/

namespace Sys2Proof.Machine

def exec (i : Instr) (s : State) : Host.Outcome State Fault Refusal :=
  match i with
  | .add sc d a b => Sys2Proof.Machine.execAdd sc d a b s
  | .sub sc d a b => Sys2Proof.Machine.execSub sc d a b s
  | .mul sc d a b => Sys2Proof.Machine.execMul sc d a b s
  | .mulh sc d a b => Sys2Proof.Machine.execMulh sc d a b s
  | .mulhu sc d a b => Sys2Proof.Machine.execMulhu sc d a b s
  | .min sc d a b => Sys2Proof.Machine.execMin sc d a b s
  | .max sc d a b => Sys2Proof.Machine.execMax sc d a b s
  | .minu sc d a b => Sys2Proof.Machine.execMinu sc d a b s
  | .maxu sc d a b => Sys2Proof.Machine.execMaxu sc d a b s
  | .and sc d a b => Sys2Proof.Machine.execAnd sc d a b s
  | .or sc d a b => Sys2Proof.Machine.execOr sc d a b s
  | .xor sc d a b => Sys2Proof.Machine.execXor sc d a b s
  | .andn sc d a b => Sys2Proof.Machine.execAndn sc d a b s
  | .shl sc d a b => Sys2Proof.Machine.execShl sc d a b s
  | .shr sc d a b => Sys2Proof.Machine.execShr sc d a b s
  | .sra sc d a b => Sys2Proof.Machine.execSra sc d a b s
  | .rol sc d a b => Sys2Proof.Machine.execRol sc d a b s
  | .ror sc d a b => Sys2Proof.Machine.execRor sc d a b s
  | .clz sc d a => Sys2Proof.Machine.execClz sc d a s
  | .popc sc d a => Sys2Proof.Machine.execPopc sc d a s
  | .brev sc d a => Sys2Proof.Machine.execBrev sc d a s
  | .abs sc d a => Sys2Proof.Machine.execAbs sc d a s
  | .neg sc d a => Sys2Proof.Machine.execNeg sc d a s
  | .madd sc d a b => Sys2Proof.Machine.execMadd sc d a b s
  | .msub sc d a b => Sys2Proof.Machine.execMsub sc d a b s
  | .lea1 sc d a b => Sys2Proof.Machine.execLea1 sc d a b s
  | .lea2 sc d a b => Sys2Proof.Machine.execLea2 sc d a b s
  | .lea3 sc d a b => Sys2Proof.Machine.execLea3 sc d a b s
  | .addsat sc d a b => Sys2Proof.Machine.execAddsat sc d a b s
  | .subsat sc d a b => Sys2Proof.Machine.execSubsat sc d a b s
  | .addi sc d a imm => Sys2Proof.Machine.execAddi sc d a imm s
  | .muli sc d a imm => Sys2Proof.Machine.execMuli sc d a imm s
  | .andi sc d a imm => Sys2Proof.Machine.execAndi sc d a imm s
  | .ori sc d a imm => Sys2Proof.Machine.execOri sc d a imm s
  | .xori sc d a imm => Sys2Proof.Machine.execXori sc d a imm s
  | .shli sc d a n => Sys2Proof.Machine.execShli sc d a n s
  | .shri sc d a n => Sys2Proof.Machine.execShri sc d a n s
  | .srai sc d a n => Sys2Proof.Machine.execSrai sc d a n s
  | .roli sc d a n => Sys2Proof.Machine.execRoli sc d a n s
  | .li sc d imm => Sys2Proof.Machine.execLi sc d imm s
  | .cmp sc d a b c => Sys2Proof.Machine.execCmp sc d a b c s
  | .cmpi sc d a c imm => Sys2Proof.Machine.execCmpi sc d a c imm s
  | .mov sc d a => Sys2Proof.Machine.execMov sc d a s
  | .movgv d a => Sys2Proof.Machine.execMovgv d a s
  | .movvg d a => Sys2Proof.Machine.execMovvg d a s
  | .laneid d => Sys2Proof.Machine.execLaneid d s
  | .tag d a => Sys2Proof.Machine.execTag d a s
  | .gen d => Sys2Proof.Machine.execGen d s
  | .sel d a b => Sys2Proof.Machine.execSel d a b s
  | .pack2 d a b => Sys2Proof.Machine.execPack2 d a b s
  | .pack4 d a b => Sys2Proof.Machine.execPack4 d a b s
  | .unpk d a b => Sys2Proof.Machine.execUnpk d a b s
  | .movj d k e => Sys2Proof.Machine.execMovj d k e s
  | .mpop d a => Sys2Proof.Machine.execMpop d a s
  | .mffs d a => Sys2Proof.Machine.execMffs d a s
  | .mfls d a => Sys2Proof.Machine.execMfls d a s
  | .mnth d a b => Sys2Proof.Machine.execMnth d a b s
  | .fadd sc d a b => Sys2Proof.Machine.execFadd sc d a b s
  | .fsub sc d a b => Sys2Proof.Machine.execFsub sc d a b s
  | .fmul sc d a b => Sys2Proof.Machine.execFmul sc d a b s
  | .ffma sc d a b => Sys2Proof.Machine.execFfma sc d a b s
  | .ffms sc d a b => Sys2Proof.Machine.execFfms sc d a b s
  | .fmin sc d a b => Sys2Proof.Machine.execFmin sc d a b s
  | .fmax sc d a b => Sys2Proof.Machine.execFmax sc d a b s
  | .fabs sc d a => Sys2Proof.Machine.execFabs sc d a s
  | .fneg sc d a => Sys2Proof.Machine.execFneg sc d a s
  | .fcpys sc d a b => Sys2Proof.Machine.execFcpys sc d a b s
  | .fclass sc d a => Sys2Proof.Machine.execFclass sc d a s
  | .fcmp sc d a b c => Sys2Proof.Machine.execFcmp sc d a b c s
  | .cvt sc d a t u r x => Sys2Proof.Machine.execCvt sc d a t u r x s
  | .hadd2 d a b => Sys2Proof.Machine.execHadd2 d a b s
  | .hsub2 d a b => Sys2Proof.Machine.execHsub2 d a b s
  | .hmul2 d a b => Sys2Proof.Machine.execHmul2 d a b s
  | .hfma2 d a b => Sys2Proof.Machine.execHfma2 d a b s
  | .hmin2 d a b => Sys2Proof.Machine.execHmin2 d a b s
  | .hmax2 d a b => Sys2Proof.Machine.execHmax2 d a b s
  | .badd2 d a b => Sys2Proof.Machine.execBadd2 d a b s
  | .bmul2 d a b => Sys2Proof.Machine.execBmul2 d a b s
  | .bfma2 d a b => Sys2Proof.Machine.execBfma2 d a b s
  | .dadd d a b => Sys2Proof.Machine.execDadd d a b s
  | .dsub d a b => Sys2Proof.Machine.execDsub d a b s
  | .dmul d a b => Sys2Proof.Machine.execDmul d a b s
  | .dfma d a b => Sys2Proof.Machine.execDfma d a b s
  | .dmin d a b => Sys2Proof.Machine.execDmin d a b s
  | .dmax d a b => Sys2Proof.Machine.execDmax d a b s
  | .ex2 d a => Sys2Proof.Machine.execEx2 d a s
  | .lg2 d a => Sys2Proof.Machine.execLg2 d a s
  | .rcp d a => Sys2Proof.Machine.execRcp d a s
  | .rsq d a => Sys2Proof.Machine.execRsq d a s
  | .sqrt d a => Sys2Proof.Machine.execSqrt d a s
  | .sin d a => Sys2Proof.Machine.execSin d a s
  | .cos d a => Sys2Proof.Machine.execCos d a s
  | .tanh d a => Sys2Proof.Machine.execTanh d a s
  | .ex2h d a => Sys2Proof.Machine.execEx2h d a s
  | .shfl d a b => Sys2Proof.Machine.execShfl d a b s
  | .shflx d a b => Sys2Proof.Machine.execShflx d a b s
  | .shflup d a b => Sys2Proof.Machine.execShflup d a b s
  | .shfldn d a b => Sys2Proof.Machine.execShfldn d a b s
  | .bcast d a b => Sys2Proof.Machine.execBcast d a b s
  | .redadd d a => Sys2Proof.Machine.execRedadd d a s
  | .redfadd d a => Sys2Proof.Machine.execRedfadd d a s
  | .redmin d a => Sys2Proof.Machine.execRedmin d a s
  | .redmax d a => Sys2Proof.Machine.execRedmax d a s
  | .redfmin d a => Sys2Proof.Machine.execRedfmin d a s
  | .redfmax d a => Sys2Proof.Machine.execRedfmax d a s
  | .redand d a => Sys2Proof.Machine.execRedand d a s
  | .redor d a => Sys2Proof.Machine.execRedor d a s
  | .scanadd d a => Sys2Proof.Machine.execScanadd d a s
  | .scanfadd d a => Sys2Proof.Machine.execScanfadd d a s
  | .argmax d a => Sys2Proof.Machine.execArgmax d a s
  | .argmin d a => Sys2Proof.Machine.execArgmin d a s
  | .fargmax d a => Sys2Proof.Machine.execFargmax d a s
  | .fargmin d a => Sys2Proof.Machine.execFargmin d a s
  | .sort32 d a => Sys2Proof.Machine.execSort32 d a s
  | .topk d a b => Sys2Proof.Machine.execTopk d a b s
  | .mergek d a b => Sys2Proof.Machine.execMergek d a b s
  | .dp4a d a b => Sys2Proof.Machine.execDp4a d a b s
  | .dp4au d a b => Sys2Proof.Machine.execDp4au d a b s
  | .dp2h d a b => Sys2Proof.Machine.execDp2h d a b s
  | .dp4q d a b => Sys2Proof.Machine.execDp4q d a b s
  | .dp4qe d a b => Sys2Proof.Machine.execDp4qe d a b s
  | .div sc d a b l => Sys2Proof.Machine.execDiv sc d a b l s
  | .divu sc d a b l => Sys2Proof.Machine.execDivu sc d a b l s
  | .rem sc d a b l => Sys2Proof.Machine.execRem sc d a b l s
  | .remu sc d a b l => Sys2Proof.Machine.execRemu sc d a b l s
  | .ld d a m o l => Sys2Proof.Machine.execLd d a m o l s
  | .ldx d a m o l => Sys2Proof.Machine.execLdx d a m o l s
  | .st d a m o => Sys2Proof.Machine.execSt d a m o s
  | .stq d a o => Sys2Proof.Machine.execStq d a o s
  | .lds d a m o l => Sys2Proof.Machine.execLds d a m o l s
  | .sts d a m o => Sys2Proof.Machine.execSts d a m o s
  | .ldc d a m o l => Sys2Proof.Machine.execLdc d a m o l s
  | .lda d a m c l => Sys2Proof.Machine.execLda d a m c l s
  | .stl d a m c => Sys2Proof.Machine.execStl d a m c s
  | .atom sc d a m k l => Sys2Proof.Machine.execAtom sc d a m k l s
  | .atom64 d a m k l => Sys2Proof.Machine.execAtom64 d a m k l s
  | .atoms d a m k l => Sys2Proof.Machine.execAtoms d a m k l s
  | .fence sc c k => Sys2Proof.Machine.execFence sc c k s
  | .ldt d a m o l => Sys2Proof.Machine.execLdt d a m o l s
  | .ldu d a m o l => Sys2Proof.Machine.execLdu d a m o l s
  | .stu d a m o => Sys2Proof.Machine.execStu d a m o s
  | .ldsu d a m o l => Sys2Proof.Machine.execLdsu d a m o l s
  | .stsu d a m o => Sys2Proof.Machine.execStsu d a m o s
  | .qmm d a b l => Sys2Proof.Machine.execQmm d a b l s
  | .qmms d a b l => Sys2Proof.Machine.execQmms d a b l s
  | .mvt d a b l => Sys2Proof.Machine.execMvt d a b l s
  | .nmcall d a b => Sys2Proof.Machine.execNmcall d a b s
  | .mread d t => Sys2Proof.Machine.execMread d t s
  | .mwrite t a => Sys2Proof.Machine.execMwrite t a s
  | .mzero t => Sys2Proof.Machine.execMzero t s
  | .br m j => Sys2Proof.Machine.execBr m j s
  | .brn m j => Sys2Proof.Machine.execBrn m j s
  | .bra j => Sys2Proof.Machine.execBra j s
  | .call j => Sys2Proof.Machine.execCall j s
  | .jmpr a => Sys2Proof.Machine.execJmpr a s
  | .exit => Sys2Proof.Machine.execExit s
  | .yield => Sys2Proof.Machine.execYield s
  | .nop => Sys2Proof.Machine.execNop s
  | .bkpt => Sys2Proof.Machine.execBkpt s
  | .pred m => Sys2Proof.Machine.execPred m s
  | .unpred => Sys2Proof.Machine.execUnpred s
  | .setj k => Sys2Proof.Machine.execSetj k s
  | .join k => Sys2Proof.Machine.execJoin k s
  | .jleave k => Sys2Proof.Machine.execJleave k s
  | .region => Sys2Proof.Machine.execRegion s
  | .trap n => Sys2Proof.Machine.execTrap n s
  | .hret => Sys2Proof.Machine.execHret s
  | .wbase n => Sys2Proof.Machine.execWbase n s
  | .wbaseRel r => Sys2Proof.Machine.execWbaseRel r s
  | .srd sc d x => Sys2Proof.Machine.execSrd sc d x s
  | .swr sc a x => Sys2Proof.Machine.execSwr sc a x s
  | .ext sc imm next => Sys2Proof.Machine.execExt sc imm next s
  | .copy d a b l => Sys2Proof.Machine.execCopy d a b l s
  | .copyout a b => Sys2Proof.Machine.execCopyout a b s
  | .tmm d a b l => Sys2Proof.Machine.execTmm d a b l s
  | .nmsearch a b => Sys2Proof.Machine.execNmsearch a b s
  | .nmcommit d a b l => Sys2Proof.Machine.execNmcommit d a b l s
  | .collfire a b => Sys2Proof.Machine.execCollfire a b s
  | .binit d a b => Sys2Proof.Machine.execBinit d a b s
  | .barrive d a b => Sys2Proof.Machine.execBarrive d a b s
  | .barriven d a b => Sys2Proof.Machine.execBarriven d a b s
  | .btest d a e => Sys2Proof.Machine.execBtest d a e s
  | .waitb d a b => Sys2Proof.Machine.execWaitb d a b s
  | .tstate d a => Sys2Proof.Machine.execTstate d a s
  | .trel a => Sys2Proof.Machine.execTrel a s
  | .twait a => Sys2Proof.Machine.execTwait a s
  | .tclaim a b => Sys2Proof.Machine.execTclaim a b s
  | .qinit a b => Sys2Proof.Machine.execQinit a b s
  | .qpush d a e => Sys2Proof.Machine.execQpush d a e s
  | .qpop d a e => Sys2Proof.Machine.execQpop d a e s
  | .qcount d a => Sys2Proof.Machine.execQcount d a s
  | .mtokTake => Sys2Proof.Machine.execMtokTake s
  | .mtokPass => Sys2Proof.Machine.execMtokPass s
  | .mtokTest d => Sys2Proof.Machine.execMtokTest d s
  | .mdrain a => Sys2Proof.Machine.execMdrain a s
  | .mfill a => Sys2Proof.Machine.execMfill a s
  | .tnext d => Sys2Proof.Machine.execTnext d s
  | .tdone => Sys2Proof.Machine.execTdone s
  | .tgrain d => Sys2Proof.Machine.execTgrain d s
  | .bexit => Sys2Proof.Machine.execBexit s
  | .jspill k a => Sys2Proof.Machine.execJspill k a s
  | .jfill k a => Sys2Proof.Machine.execJfill k a s
  | .yieldG => Sys2Proof.Machine.execYieldG s
  | .bankcfg d a b => Sys2Proof.Machine.execBankcfg d a b s
  | .ldb d a m o => Sys2Proof.Machine.execLdb d a m o s
  | .stb d a m o => Sys2Proof.Machine.execStb d a m o s
  | .dist d a b c => Sys2Proof.Machine.execDist d a b c s
  | .hpush h k imm => Sys2Proof.Machine.execHpush h k imm s
  | .hpop d h => Sys2Proof.Machine.execHpop d h s
  | .htop d h r => Sys2Proof.Machine.execHtop d h r s
  | .hchain d n => Sys2Proof.Machine.execHchain d n s
  | .msgSend h a => Sys2Proof.Machine.execMsgSend h a s
  | .msgRecv h a => Sys2Proof.Machine.execMsgRecv h a s
  | .whop a e => Sys2Proof.Machine.execWhop a e s
  | .wspawn a e => Sys2Proof.Machine.execWspawn a e s
  | .wend => Sys2Proof.Machine.execWend s
  | .nmret a t => Sys2Proof.Machine.execNmret a t s
  | .nearQpush d q e => Sys2Proof.Machine.execNearQpush d q e s
  | .nearQpop d q e => Sys2Proof.Machine.execNearQpop d q e s
  | .instructionCompletion bed sheaf op => Sys2Proof.Machine.execInstructionCompletion bed sheaf op s
  | .attemptReplay core slot => Sys2Proof.Machine.execAttemptReplay core slot s
  | .lateTransition core slot path => Sys2Proof.Machine.execLateTransition core slot path s
  | .commitGatePass core => Sys2Proof.Machine.execCommitGatePass core s
  | .takeTrap bed sheaf cause pc tmask detail => Sys2Proof.Machine.execTakeTrap bed sheaf cause pc tmask detail s
  | .watchdogTrap bed sheaf => Sys2Proof.Machine.execWatchdogTrap bed sheaf s
  | .nmcallReply batch call => Sys2Proof.Machine.execNmcallReply batch call s
  | .barrierWake bed sheaf => Sys2Proof.Machine.execBarrierWake bed sheaf s
  | .tileWake bed sheaf => Sys2Proof.Machine.execTileWake bed sheaf s
  | .queueWake plot addr => Sys2Proof.Machine.execQueueWake plot addr s
  | .splitGrant bed => Sys2Proof.Machine.execSplitGrant bed s
  | .pageFault bed sheaf entry => Sys2Proof.Machine.execPageFault bed sheaf entry s
  | .fetchPageFault bed sheaf va => Sys2Proof.Machine.execFetchPageFault bed sheaf va s
  | .protectionViolation bed sheaf entry => Sys2Proof.Machine.execProtectionViolation bed sheaf entry s
  | .resumeRetry fn token => Sys2Proof.Machine.execResumeRetry fn token s
  | .resumeFail fn token => Sys2Proof.Machine.execResumeFail fn token s
  | .snapshotCopy asid va => Sys2Proof.Machine.execSnapshotCopy asid va s
  | .registerLineFill bed sheaf reg => Sys2Proof.Machine.execRegisterLineFill bed sheaf reg s
  | .lineDrowsy bed sheaf reg => Sys2Proof.Machine.execLineDrowsy bed sheaf reg s
  | .lineWake bed sheaf reg => Sys2Proof.Machine.execLineWake bed sheaf reg s
  | .copyCompletion copy => Sys2Proof.Machine.execCopyCompletion copy s
  | .copyTransferFailure copy hostError => Sys2Proof.Machine.execCopyTransferFailure copy hostError s
  | .copyPageFault copy => Sys2Proof.Machine.execCopyPageFault copy s
  | .tmmKStep core => Sys2Proof.Machine.execTmmKStep core s
  | .tmmCompletion core => Sys2Proof.Machine.execTmmCompletion core s
  | .bankSwitchCompletion bed sheaf op bank mode => Sys2Proof.Machine.execBankSwitchCompletion bed sheaf op bank mode s
  | .barrierArrival asid plot ref count status => Sys2Proof.Machine.execBarrierArrival asid plot ref count status s
  | .bedExit bed => Sys2Proof.Machine.execBedExit bed s
  | .waveStart bed => Sys2Proof.Machine.execWaveStart bed s
  | .preemption bed => Sys2Proof.Machine.execPreemption bed s
  | .bedResume bed => Sys2Proof.Machine.execBedResume bed s
  | .launchKill launch cause => Sys2Proof.Machine.execLaunchKill launch cause s
  | .launchReplay launch => Sys2Proof.Machine.execLaunchReplay launch s
  | .doorbell fn q tail => Sys2Proof.Machine.execDoorbell fn q tail s
  | .qcmdEnable fn q => Sys2Proof.Machine.execQcmdEnable fn q s
  | .qcmdDisable fn q => Sys2Proof.Machine.execQcmdDisable fn q s
  | .arbiterPick => Sys2Proof.Machine.execArbiterPick s
  | .dependenceSatisfied launch => Sys2Proof.Machine.execDependenceSatisfied launch s
  | .bedPlacement launch => Sys2Proof.Machine.execBedPlacement launch s
  | .launchCompletion launch => Sys2Proof.Machine.execLaunchCompletion launch s
  | .inval asid va pages => Sys2Proof.Machine.execInval asid va pages s
  | .bar4Access fn off size wdata => Sys2Proof.Machine.execBar4Access fn off size wdata s
  | .registerWrite fn off value => Sys2Proof.Machine.execRegisterWrite fn off value s
  | .arbpolWrite value => Sys2Proof.Machine.execArbpolWrite value s
  | .debugFlush bed sheaf reg => Sys2Proof.Machine.execDebugFlush bed sheaf reg s
  | .debuggerRelease bed sheaf => Sys2Proof.Machine.execDebuggerRelease bed sheaf s
  | .windowBoundary core => Sys2Proof.Machine.execWindowBoundary core s
  | .automaticRaise core => Sys2Proof.Machine.execAutomaticRaise core s
  | .quarantine core why => Sys2Proof.Machine.execQuarantine core why s
  | .quarantineCommand core => Sys2Proof.Machine.execQuarantineCommand core s
  | .release core => Sys2Proof.Machine.execRelease core s
  | .marginProfile core code => Sys2Proof.Machine.execMarginProfile core code s
  | .powerBudget matrix near links => Sys2Proof.Machine.execPowerBudget matrix near links s
  | .lremapWrite core slot value => Sys2Proof.Machine.execLremapWrite core slot value s
  | .pdtestWrite port value => Sys2Proof.Machine.execPdtestWrite port value s
  | .imageLoad image => Sys2Proof.Machine.execImageLoad image s
  | .svnMinimumRaise kind => Sys2Proof.Machine.execSvnMinimumRaise kind s
  | .attestation nonce => Sys2Proof.Machine.execAttestation nonce s
  | .amsanKeyInstall port out key salt => Sys2Proof.Machine.execAmsanKeyInstall port out key salt s
  | .amsanFrame port frame => Sys2Proof.Machine.execAmsanFrame port frame s
  | .peerGroupRegistration handle ranks ports mcast inSwitch endToEnd => Sys2Proof.Machine.execPeerGroupRegistration handle ranks ports mcast inSwitch endToEnd s
  | .indexRegistration asid va => Sys2Proof.Machine.execIndexRegistration asid va s
  | .searchRegistration qid => Sys2Proof.Machine.execSearchRegistration qid s
  | .searchSetup qid => Sys2Proof.Machine.execSearchSetup qid s
  | .spawn engine => Sys2Proof.Machine.execSpawn engine s
  | .walker engine => Sys2Proof.Machine.execWalker engine s
  | .cands engine => Sys2Proof.Machine.execCands engine s
  | .popreq engine => Sys2Proof.Machine.execPopreq engine s
  | .poprep engine => Sys2Proof.Machine.execPoprep engine s
  | .dreq engine => Sys2Proof.Machine.execDreq engine s
  | .endw engine => Sys2Proof.Machine.execEndw engine s
  | .versionCommit bed sheaf op handle expected => Sys2Proof.Machine.execVersionCommit bed sheaf op handle expected s
  | .queueDeadlockFault engine ctx => Sys2Proof.Machine.execQueueDeadlockFault engine ctx s
  | .engineFault engine ctx code => Sys2Proof.Machine.execEngineFault engine ctx code s
  | .collectiveFire launch binding index bed sheaf => Sys2Proof.Machine.execCollectiveFire launch binding index bed sheaf s
  | .stepStart coll => Sys2Proof.Machine.execStepStart coll s
  | .packetForming coll => Sys2Proof.Machine.execPacketForming coll s
  | .data pkt => Sys2Proof.Machine.execData pkt s
  | .coded pkt port => Sys2Proof.Machine.execCoded pkt port s
  | .ack pkt => Sys2Proof.Machine.execAck pkt s
  | .nack pkt => Sys2Proof.Machine.execNack pkt s
  | .stepTimeout coll => Sys2Proof.Machine.execStepTimeout coll s
  | .dieReset die => Sys2Proof.Machine.execDieReset die s
  | .packageReset => Sys2Proof.Machine.execPackageReset s
  | .powerOn rom => Sys2Proof.Machine.execPowerOn rom s
  | .nmcallBatch batch => Sys2Proof.Machine.execNmcallBatch batch s
  | .regulatorSettled core => Sys2Proof.Machine.execRegulatorSettled core s
  | .managementRestart => Sys2Proof.Machine.execManagementRestart s
  | .powerOff => Sys2Proof.Machine.execPowerOff s
  | .damagedFlit pkt => Sys2Proof.Machine.execDamagedFlit pkt s
  | .planeBudgetReached plane reached => Sys2Proof.Machine.execPlaneBudgetReached plane reached s
  | .readAndClear core index => Sys2Proof.Machine.execReadAndClear core index s

end Sys2Proof.Machine
end

