-- ==== Sys2Proof/Machine/Due.lean ====
section
/-! DEFINITION. The events: what each does when it runs, and which are due in a state although nothing has put them in the
agenda: results that are ready, beds that may start, resume or exit, launches that may be picked or placed, work of the search and
collective engines. -/

namespace Sys2Proof.Machine

/-- An event runs: the meaning of the constructor of Instr that has its name and arguments. -/
def runEvent (e : Event) (s : State) : Out :=
  match e with
  | .instructionCompletion bed sheaf op => execInstructionCompletion bed sheaf op s
  | .attemptReplay core slot => execAttemptReplay core slot s
  | .lateTransition core slot path => execLateTransition core slot path s
  | .commitGatePass core => execCommitGatePass core s
  | .takeTrap bed sheaf cause pc tmask detail => execTakeTrap bed sheaf cause pc tmask detail s
  | .watchdogTrap bed sheaf => execWatchdogTrap bed sheaf s
  | .nmcallReply batch call => execNmcallReply batch call s
  | .barrierWake bed sheaf => execBarrierWake bed sheaf s
  | .tileWake bed sheaf => execTileWake bed sheaf s
  | .queueWake plot addr => execQueueWake plot addr s
  | .splitGrant bed => execSplitGrant bed s
  | .pageFault bed sheaf entry => execPageFault bed sheaf entry s
  | .fetchPageFault bed sheaf va => execFetchPageFault bed sheaf va s
  | .protectionViolation bed sheaf entry => execProtectionViolation bed sheaf entry s
  | .resumeRetry fn token => execResumeRetry fn token s
  | .resumeFail fn token => execResumeFail fn token s
  | .snapshotCopy asid va => execSnapshotCopy asid va s
  | .registerLineFill bed sheaf reg => execRegisterLineFill bed sheaf reg s
  | .lineDrowsy bed sheaf reg => execLineDrowsy bed sheaf reg s
  | .lineWake bed sheaf reg => execLineWake bed sheaf reg s
  | .copyCompletion copy => execCopyCompletion copy s
  | .copyTransferFailure copy hostError => execCopyTransferFailure copy hostError s
  | .copyPageFault copy => execCopyPageFault copy s
  | .tmmKStep core => execTmmKStep core s
  | .tmmCompletion core => execTmmCompletion core s
  | .bankSwitchCompletion bed sheaf op bank mode => execBankSwitchCompletion bed sheaf op bank mode s
  | .barrierArrival asid plot ref count status => execBarrierArrival asid plot ref count status s
  | .bedExit bed => execBedExit bed s
  | .waveStart bed => execWaveStart bed s
  | .preemption bed => execPreemption bed s
  | .bedResume bed => execBedResume bed s
  | .launchKill launch cause => execLaunchKill launch cause s
  | .launchReplay launch => execLaunchReplay launch s
  | .doorbell fn q tail => execDoorbell fn q tail s
  | .qcmdEnable fn q => execQcmdEnable fn q s
  | .qcmdDisable fn q => execQcmdDisable fn q s
  | .arbiterPick => execArbiterPick s
  | .dependenceSatisfied launch => execDependenceSatisfied launch s
  | .bedPlacement launch => execBedPlacement launch s
  | .launchCompletion launch => execLaunchCompletion launch s
  | .inval asid va pages => execInval asid va pages s
  | .bar4Access fn off size wdata => execBar4Access fn off size wdata s
  | .registerWrite fn off value => execRegisterWrite fn off value s
  | .arbpolWrite value => execArbpolWrite value s
  | .debugFlush bed sheaf reg => execDebugFlush bed sheaf reg s
  | .debuggerRelease bed sheaf => execDebuggerRelease bed sheaf s
  | .windowBoundary core => execWindowBoundary core s
  | .automaticRaise core => execAutomaticRaise core s
  | .quarantine core why => execQuarantine core why s
  | .quarantineCommand core => execQuarantineCommand core s
  | .release core => execRelease core s
  | .marginProfile core code => execMarginProfile core code s
  | .powerBudget matrix near links => execPowerBudget matrix near links s
  | .lremapWrite core slot value => execLremapWrite core slot value s
  | .pdtestWrite port value => execPdtestWrite port value s
  | .imageLoad image => execImageLoad image s
  | .svnMinimumRaise kind => execSvnMinimumRaise kind s
  | .attestation nonce => execAttestation nonce s
  | .amsanKeyInstall port out key salt => execAmsanKeyInstall port out key salt s
  | .amsanFrame port frame => execAmsanFrame port frame s
  | .peerGroupRegistration handle ranks ports mcast inSwitch endToEnd => execPeerGroupRegistration handle ranks ports mcast inSwitch endToEnd s
  | .indexRegistration asid va => execIndexRegistration asid va s
  | .searchRegistration qid => execSearchRegistration qid s
  | .searchSetup qid => execSearchSetup qid s
  | .spawn engine => execSpawn engine s
  | .walker engine => execWalker engine s
  | .cands engine => execCands engine s
  | .popreq engine => execPopreq engine s
  | .poprep engine => execPoprep engine s
  | .dreq engine => execDreq engine s
  | .endw engine => execEndw engine s
  | .versionCommit bed sheaf op handle expected => execVersionCommit bed sheaf op handle expected s
  | .queueDeadlockFault engine ctx => execQueueDeadlockFault engine ctx s
  | .engineFault engine ctx code => execEngineFault engine ctx code s
  | .collectiveFire launch binding index bed sheaf => execCollectiveFire launch binding index bed sheaf s
  | .stepStart coll => execStepStart coll s
  | .packetForming coll => execPacketForming coll s
  | .data pkt => execData pkt s
  | .coded pkt port => execCoded pkt port s
  | .ack pkt => execAck pkt s
  | .nack pkt => execNack pkt s
  | .stepTimeout coll => execStepTimeout coll s
  | .dieReset die => execDieReset die s
  | .packageReset => execPackageReset s
  | .powerOn rom => execPowerOn rom s
  | .nmcallBatch batch => execNmcallBatch batch s
  | .regulatorSettled core => execRegulatorSettled core s
  | .managementRestart => execManagementRestart s
  | .powerOff => execPowerOff s
  | .damagedFlit pkt => execDamagedFlit pkt s
  | .planeBudgetReached plane reached => execPlaneBudgetReached plane reached s
  | .readAndClear core index => execReadAndClear core index s
  | .marginWrite core index value => .next (manageMargin core index value s)
  | .barRead fn bar off size => readBar fn bar off size s
  | .hostWrite addr bytes => .next (hostStore addr bytes s)
  | .heldAccess bed sheaf entry => makeHeld bed sheaf entry s
  | .memorySpace fn on => .next (setMemorySpace fn on s)
  | .vectorMask fn vector on => .next (setVectorMask fn vector on s)
  | .messageSend engine => .next (sendWaiting engine s)
  | .requestAnswer engine ctx => .next (answerRequest engine ctx s)

/-- Running an event now changes something. -/
def effective (s : State) (e : Event) : Bool :=
  match runEvent e s with
  | .next t => decide (t ≠ s)
  | _ => true

/-! ## Sheaves and beds -/

/-- Formed results of a sheaf that can be written or whose traps can be taken (R180, R307). -/
def dueResults (b : Nat) (w : Nat × Sheaf) : List Event :=
  (w.2.long.filter (fun o => o.ready)).map (fun o => .instructionCompletion b w.1 o.id)

/-- The lane registers of a use, with their lanes. -/
def useLanes (m : Mask) (u : Use) : List (Nat × Nat) :=
  let at_ := fun (ls : List Nat) r n => ls.flatMap (fun i => (upFrom r n).map (fun k => (i, k)))
  match u with
  | .lane r n => at_ (lanesOf m) r n
  | .all r n => if m = 0#32 then [] else at_ lanes r n
  | .first r => (match lowest m with
    | some i => [(i, r)]
    | none => [])
  | .whole r n => if m = 0#32 then [] else at_ lanes r n
  | .dest r n => at_ (lanesOf m) r n
  | .group .. | .ctl .. | .tagOf .. => []

/-- Those whose lines it needs: an absent one that is written whole needs none (R51). -/
def lineLanes (sh : Sheaf) (m : Mask) (u : Use) : List (Nat × Nat) :=
  match u with
  | .dest .. => (useLanes m u).filter (fun x =>
      !(m == Mask.full && oneWindow sh Mask.full x.2 && lineState sh (phys sh x.1 x.2) == .absent))
  | _ => useLanes m u

/-- Every register of a sheaf's budget is in the register cache. -/
def allPresent (sh : Sheaf) : Bool :=
  decide (sh.place.budget ≤ (sh.v.filter (fun r => decide (r.1 < 512))).length) && sh.v.all (fun r => r.2.line == .present)

/-- Lines that the next instructions of a sheaf need and that are not present: absent ones are filled, drowsy ones wake (R50, R51). -/
def dueLines (s : State) (b : Nat) (w : Nat × Sheaf) : List Event :=
  let sh := w.2
  if !hasRunnable sh || allPresent sh then []
  else
    let names := (pcGroups s b w.1 sh).flatMap (fun g =>
      match g.ins with
      | some x => (usesOf (fun r => (groupView (salt s 0) g.cur.ctl sh r).1) (queueRegs s sh.place.core) (inner x)).flatMap
          (lineLanes sh (exm g.cur sh))
      | none => [])
    let regs := dedup ((names.filter (fun x => inBudget sh x.1 x.2)).map (fun x => phys sh x.1 x.2))
    regs.flatMap (fun p =>
      match lineState sh p with
      | .present => []
      | .drowsy => [.lineWake b w.1 p]
      | .absent => [.registerLineFill b w.1 p])

/-- Ordered accesses of a sheaf whose releases an exclusive batch held back (R168). -/
def dueHeld (b : Nat) (w : Nat × Sheaf) : List Event :=
  (w.2.oplog.filter (fun e => e.2.kind == 8)).map (fun e => .heldAccess b w.1 e.1)

/-- An attempt of a sheaf's instruction runs again. -/
def replaysOf (s : State) (core b w : Nat) : Bool := (getCore s core).attempts.any (fun a => a.2.cur.bed == b && a.2.cur.sheaf == w)

/-- The single-step trap, once the stepped instruction has completed and its results are written (R365). -/
def dueStep (s : State) (b : Nat) (w : Nat × Sheaf) : List Event :=
  let sh := w.2
  match sh.stepping with
  | some (m, pc) =>
    if !sh.handler && sh.stopM == Mask.full && sh.long.isEmpty && sh.oplog.isEmpty && !sheafEnded sh &&
        !replaysOf s sh.place.core b w.1 &&
        (lanesOf m).all (fun i => match parkOf sh i with
          | .wait _ => false
          | .pool => false
          | _ => true) then [.takeTrap b w.1 17#5 pc m 0#32]
    else []
  | none => []

/-- Sheaves of a bed have ended and others can start in the freed slots (R36). -/
def waveReady (s : State) (bd : Bed) : Bool :=
  decide (bd.sheaves.length < bd.total) && !bd.bexit && bd.sheaves.any (fun w => sheafEnded w.2) && (slotFor s bd.core).isSome

/-- The events of a bed. -/
def dueOfBed (s : State) (x : Nat × Bed) : List Event :=
  let b := x.1
  let bd := x.2
  match bd.stage with
  | .resident =>
    bd.sheaves.flatMap (fun w => dueResults b w ++ dueHeld b w ++ dueLines s b w ++ dueStep s b w) ++
      (if bedQuiet s b bd then [.bedExit b] else []) ++ (if waveReady s bd then [.waveStart b] else []) ++
      (if (getCore s bd.core).margin.quar then [.preemption b] else [])
  | .exited => if firesUnderWay s b bd.core then [] else [.bedExit b]
  | .preempted =>
    if bd.savedPlot && (resumeSpot s b).isSome && (placing s).all (fun l => decide (levelOf s b ≤ l.2.level) ||
        (placeNext s l.1 l.2).isNone) then [.bedResume b] else []

/-- The events of a core: its commit gate and its TMM (R278, R376). -/
def dueOfCore (c : Nat × Core) : List Event :=
  (if c.2.gate.isEmpty then [] else [.commitGatePass c.1]) ++
    (match c.2.tmm with
     | some t => if tmmOver t then [.tmmCompletion c.1] else if c.2.frozen then [] else [.tmmKStep c.1]
     | none => [])

/-! ## Launches -/

/-- The events of a launch. -/
def dueOfLaunch (s : State) (x : Nat × Launch) : List Event :=
  match x.2.stage with
  | .pool => [.dependenceSatisfied x.1]
  | .placing =>
    if s.agenda.any (fun e => match e with
      | .preemption _ => true
      | _ => false) then [] else [.bedPlacement x.1]
  | .completing => if (collsOf s x.1).isEmpty then [.launchCompletion x.1] else []
  | _ => []

/-- The arbiter can take an entry (R331). -/
def dueArbiter (s : State) : List Event := if (pickLevel s).isSome && decide (slotsHeld s < 16) then [.arbiterPick] else []

/-! ## Engines -/

/-- The events of a search. -/
def dueOfSearch (x : Nat × Search) : List Event :=
  match x.2.stage with
  | .sent => [.searchRegistration x.1]
  | .registered => [.searchSetup x.1]
  | .waiting => [.searchSetup x.1]
  | _ => []

/-- Messages at the head of an engine's receive queue, and pairs whose threads both stay blocked (R139, R161). -/
def dueOfEngine (s : State) (x : Nat × Engine) : List Event :=
  let e := x.1
  let has := fun k => (headMsg s e k).isSome
  (if has 6 then [.spawn e] else []) ++ (if has 1 then [.walker e] else []) ++ (if has 2 then [.cands e] else []) ++
    (if has 3 then [.popreq e] else []) ++ (if x.2.rx.any (popReady s e) then [.poprep e] else []) ++
    (if has 5 then [.dreq e] else []) ++ (if has 7 then [.endw e] else []) ++
    (if (sendable s e).isSome then [.messageSend e] else []) ++
    (x.2.ctxs.filter (fun c => !c.2.answers.isEmpty)).map (fun c => .requestAnswer e c.1) ++
    (x.2.ctxs.filter (fun c => c.2.fetch.wait.onQueue && c.2.math.wait.onQueue && !queueReady c.2 c.2.fetch.wait &&
      !queueReady c.2 c.2.math.wait)).map (fun c => .queueDeadlockFault e c.1)

/-- The events of an NMCALL batch. -/
def dueOfBatch (x : Nat × Batch) : List Event :=
  if x.2.replied then (below x.2.calls.length).map (fun k => .nmcallReply x.1 k)
  else if x.2.started then [] else [.nmcallBatch x.1]

/-! ## Collectives -/

/-- The events of an armed collective: a step's start, packet forming, or, with nothing of it under way, the time-out. -/
def dueOfColl (s : State) (x : Nat × Coll) : List Event :=
  if stepReady s x.2 then [.stepStart x.1]
  else if x.2.running && !x.2.formed then [.packetForming x.1]
  else if x.2.running && s.pkts.all (fun p => !carries x.1 p.2) then [.stepTimeout x.1]
  else []

/-- The arrival of a packet at its ports, in order on each channel (R383). -/
def dueOfPkt (s : State) (x : Nat × Pkt) : List Event :=
  let first := lget x.2.dst 0 0
  match pktField x.2 3 0 with
  | 1 => if pktDue s x.1 first x.2 then [.data x.1] else []
  | 2 => (x.2.dst.filter (fun p => pktDue s x.1 p x.2)).map (fun p => .coded x.1 p)
  | 3 => if pktDue s x.1 first x.2 then [.ack x.1] else []
  | 4 => if pktDue s x.1 first x.2 then [.nack x.1] else []
  | _ => []

/-- The events that are due in a state. -/
def derived (s : State) : List Event :=
  (s.beds.flatMap (dueOfBed s) ++ s.cores.flatMap dueOfCore ++ s.launches.flatMap (dueOfLaunch s) ++ dueArbiter s ++
    s.searches.flatMap dueOfSearch ++ s.engines.flatMap (dueOfEngine s) ++ s.batches.flatMap dueOfBatch ++
    s.colls.flatMap (dueOfColl s) ++ s.pkts.flatMap (dueOfPkt s)).filter (effective s)

end Sys2Proof.Machine
end

