-- ==== Sys2Proof/Machine/Turn.lean ====
section
/-! DEFINITION. What acts next (R15 to R19, R37, R38, R336, R365, R370, R375): the actions that a state allows, and what each does. -/

namespace Sys2Proof.Machine

/-! ## One instruction of a PC group -/

/-- The releases that the threads of a mask owe are made (R122). -/
def payRelease (s : State) (sh : Sheaf) (b w : Nat) (m : Mask) : State :=
  let scope := ((lanesOf m).map (fun i => lget sh.owed i 0)).foldl Nat.max 0
  if scope = 0 then s
  else
    modSheaf (releaseAt s sh.place.core (scope - 1)) b w (fun sh =>
      { sh with owed := lanes.map (fun i => if bit m i then 0 else lget sh.owed i 0) })

/-- The state in which a group's instruction runs: its fetch has set A bits, releases owed before a store are made, and the group issues. -/
def issuing (s : State) (sh : Sheaf) (g : Group) (held : Option Sheaf) : State :=
  let f := if sh.handler then s else (fetchAt s sh.place.core g.part (asidOf s g.cur.bed) g.cur.pc).2
  let f := match g.ins with
    | some i => if paysFirst (inner i) then payRelease f sh g.cur.bed g.cur.sheaf (exm g.cur sh) else f
    | none => f
  { f with agent := .sheaf { g.cur with before := held } }

/-- The trap of an address breakpoint, before the instruction issues (R364). -/
def breakTrap (k : Nat) : LateTrap := detailTrap 16 (1 + 2 * k)

/-- A PC group runs its instruction; or a breakpoint, the fetch or the decoding ends it before (R172, R351, R355, R364). -/
def runGroup (s : State) (sh : Sheaf) (g : Group) (held : Option Sheaf) : Out :=
  let s1 := issuing s sh g held
  let c := { g.cur with before := held }
  match breakAt sh c.pc with
  | some k => trap s1 c sh (breakTrap k)
  | none =>
    match g.got, g.ins with
    | .fault va, _ => execFetchPageFault c.bed c.sheaf va s1
    | .violation _, _ => violation s1 c sh c.ctl (lowestD c.ctl) c.pc
    | .hole, _ => .fault .noSuchAddress
    | .word .., none => illegal s1 c sh
    | .word .., some i => exec i s1

/-- The group has an instruction that issues. -/
def hasIssue (sh : Sheaf) (g : Group) : Bool := g.ins.isSome && (breakAt sh g.cur.pc).isNone

/-- The instruction is one that may wait for range-lock entries. -/
def mayWait (i : Instr) : Bool :=
  match i with
  | .copy .. => true
  | .copyout .. => true
  | .tmm .. => true
  | _ => false

/-- The state after an engine operation that only waited for lock entries (R127), some cycles long (R61). -/
def lockWait (s : State) (core : Nat) : State := count s core 13 (1 + Config.freeNat (salt s 5202))

/-- A TMM that an injector selected: the attempts of its first K step are late (R375). -/
def delayTmm (s : State) (core n : Nat) : State :=
  modCore s core (fun c => { c with tmm := c.tmm.map (fun t => { t with late := n }) })

/-- A pick runs: what it did, and whether it issued. -/
structure Picked where
  out : Out
  went : Bool

/-- A state without what an injector or a late transition added: an instruction ran, and its TMM's first K step is late n times. -/
def withLateTmm (core n : Nat) (o : Out) : Out := if n = 0 then o else o.andThen (fun t => .next (delayTmm t core n))

/-- The instruction is TMM. -/
def isTmm (i : Option Instr) : Bool :=
  match i with
  | some (.tmm ..) => true
  | _ => false

/-- The first attempt of a pick (R370, R375): a late transition that has been found, on path `late`, or an injector makes it late. -/
def firstRun (s : State) (core slot key : Nat) (sh : Sheaf) (g : Group) (held : Option Sheaf) (late : Option Nat) : Picked :=
  let counts := hasIssue sh g
  let n := if sh.handler || !counts then (s, 0) else inject s core g.cls
  let wait := match g.ins with
    | some i => mayWait i && waitedLocks core s (runGroup s sh g held)
    | none => false
  if wait then { out := .next (lockWait s core), went := false }
  else
    match (if counts then late else none) with
    | some path => { out := lateIssue n.1 core slot key sh g path false 0 n.2 (held.getD sh) [], went := true }
    | none =>
      if isTmm g.ins then { out := withLateTmm core n.2 (runGroup n.1 sh g held), went := true }
      else if n.2 = 0 then { out := runGroup n.1 sh g held, went := true }
      else { out := lateIssue n.1 core slot key sh g 0 true 0 (n.2 - 1) (held.getD sh) [], went := true }

/-! ## Group registers that a pair writes (R19) -/

/-- The group registers that an instruction writes, and the bits, where its control set's lanes `m` are active. -/
def groupDests (m : Mask) (i : Instr) : List (Nat × Mask) :=
  let all := fun (d : BitVec 7) n => (upFrom (rn d) n).map (fun k => (k, Mask.full))
  match i with
  | .add .group d _ _ | .sub .group d _ _ | .mul .group d _ _ | .mulh .group d _ _ | .mulhu .group d _ _ | .min .group d _ _
  | .max .group d _ _ | .minu .group d _ _ | .maxu .group d _ _ | .and .group d _ _ | .or .group d _ _ | .xor .group d _ _
  | .andn .group d _ _ | .shl .group d _ _ | .shr .group d _ _ | .sra .group d _ _ | .rol .group d _ _ | .ror .group d _ _
  | .lea1 .group d _ _ | .lea2 .group d _ _ | .lea3 .group d _ _ | .addsat .group d _ _ | .subsat .group d _ _
  | .fadd .group d _ _ | .fsub .group d _ _ | .fmul .group d _ _ | .fmin .group d _ _ | .fmax .group d _ _ | .fcpys .group d _ _
  | .madd .group d _ _ | .msub .group d _ _ | .ffma .group d _ _ | .ffms .group d _ _ => all d 1
  | .clz .group d _ | .popc .group d _ | .brev .group d _ | .abs .group d _ | .neg .group d _ | .mov .group d _ | .fabs .group d _
  | .fneg .group d _ | .fclass .group d _ => all d 1
  | .addi .group d _ _ | .muli .group d _ _ | .andi .group d _ _ | .ori .group d _ _ | .xori .group d _ _ => all d 1
  | .shli .group d _ _ | .shri .group d _ _ | .srai .group d _ _ | .roli .group d _ _ => all d 1
  | .li .group d _ | .srd .group d _ => all d 1
  | .div .group d _ _ _ | .divu .group d _ _ _ | .rem .group d _ _ _ | .remu .group d _ _ _ => all d 1
  | .cvt .group d _ t _ _ _ => all d (cvtCount t)
  | .cmp _ d _ _ _ | .fcmp _ d _ _ _ | .cmpi _ d _ _ _ => [(rn d, m)]
  | .movvg d _ | .tag d _ | .mpop d _ | .mffs d _ | .mfls d _ | .mnth d _ _ => all d 1
  | .ldu d _ w _ _ | .ldsu d _ w _ _ => all d (wdqRegs w)
  | .atom .group d _ _ k _ => (atomRegs k false (rn d)).map (fun r => (r, Mask.full))
  | .btest d _ _ | .tstate d _ | .qcount d _ => all d 1
  | _ => []

/-- What a second pick wrote to group registers (R19). -/
def overOf (sh : Sheaf) (h : Group) : List (Nat × Mask) :=
  match h.ins with
  | some x => ((groupDests (exm h.cur sh) (inner x)).filter (fun r => r.1 != 0)).map (fun r => (gidx sh r.1, r.2))
  | none => []

/-- A first pick that runs again keeps to its attempt what its partner wrote. -/
def noteOver (s : State) (core slot : Nat) (left : List (Nat × Mask)) : State :=
  match getAttempt s core slot with
  | some a => putAttempt s core slot { a with left := left }
  | none => s

/-- What a second pick wrote to one group register, as it stands in `old`, remains beside what the first pick wrote since (R19). -/
def keepPartner (old sh : Sheaf) (x : Nat × Mask) : Sheaf :=
  let k := x.1
  let value := (mget sh.g k 0#32 &&& ~~~x.2) ||| (mget old.g k 0#32 &&& x.2)
  let poison := mget old.gp k false || (x.2 != Mask.full && mget sh.gp k false)
  { sh with
    g := mput sh.g k value 0#32, gp := mput sh.gp k poison false,
    long := sh.long.map (fun o =>
      if o.writes.any (fun w => (w.group? k).isSome) then o
      else { o with writes := o.writes ++ ((old.long.filter (fun p => p.id == o.id)).flatMap (fun p =>
        p.writes.filter (fun w => (w.group? k).isSome))) }) }

/-! ## What an issue leaves behind (R18, R24, R61, R180, R220, R365) -/

/-- Pending results of the issuing threads' older instructions: something younger has issued, and their spans shrink. -/
def ageOps (next : Nat) (ctl : Mask) (handler inHandler : Bool) (ops : List LongOp) : List LongOp :=
  ops.map (fun o =>
    if o.id < next && (if handler then o.handler else o.ctl &&& ctl != 0#32) then
      { o with
        younger := true,
        spans := if inHandler then o.spans
          else lanes.map (fun i => if bit ctl i then lget o.spans i 0 - 1 else lget o.spans i 0) }
    else o)

/-- Log entries that stood before an issue of their threads: something younger has issued (R240). -/
def ageLog (before : Map LogEnt) (ctl : Mask) (handler : Bool) (log : Map LogEnt) : Map LogEnt :=
  log.map (fun e =>
    match mfind before e.1 with
    | some o =>
      if (if handler then o.handler else o.ctl &&& ctl != 0#32) && o.pc == e.2.pc then (e.1, { e.2 with younger := true }) else e
    | none => e)

/-- The skip counters after an issue (R18). -/
def skips (issued others : List Group) (sh : Sheaf) : List Nat :=
  let inAny := fun (gs : List Group) i => gs.any (fun g => bit g.cur.ctl i)
  lanes.map (fun i =>
    if inAny issued i then 0
    else if inAny others i then Nat.min 32 (lget sh.skip i 0 + 1)
    else lget sh.skip i 0)

/-- A single step is over: its threads and their PC are noted, and the sheaf's threads are held until its trap (R365).  An instruction
that waits for a tile, or for a page that makes it issue again, goes on. -/
def holdStep (ctl : Mask) (pc : DWord) (sh : Sheaf) : Sheaf :=
  if sh.stepping.isNone || sh.handler then sh
  else
    let again := sh.oplog.any (fun e => e.2.pc == pc && e.2.ctl &&& ctl != 0#32 && (match e.2.acc.op with
      | .reissue _ => true
      | _ => false))
    let tile := waitMask sh (fun w => match w with
      | .tile _ => true
      | _ => false)
    { sh with stepping := some (ctl, pc), stopM := if again || tile &&& ctl != 0#32 then ~~~ctl else Mask.full }

/-- Registers that some groups name: what they read and write. -/
def usedRegs (s : State) (sh : Sheaf) (gs : List Group) : List Nat :=
  dedup (gs.flatMap (fun g =>
    match g.ins with
    | some x => ((usesOf (fun r => (groupView (salt s 0) g.cur.ctl sh r).1) (queueRegs s sh.place.core) (inner x)).flatMap
        (useLanes (exm g.cur sh))).map (fun y => phys sh y.1 y.2)
    | none => []))

/-- The sheaf after its slot issued some of its groups and passed over others. -/
def afterSheaf (next now : Nat) (regs : List Nat) (old : Sheaf) (issued others : List Group) (sh : Sheaf) : Sheaf :=
  let ctl := issued.foldl (fun m g => m ||| g.cur.ctl) 0#32
  let entered := sh.handler && !old.handler
  let sh1 := useRegs now regs { sh with
    long := ageOps next ctl old.handler entered sh.long,
    span := lanes.map (fun i => if bit ctl i then lget sh.span i 0 - 1 else lget sh.span i 0),
    oplog := ageLog old.oplog ctl old.handler sh.oplog,
    skip := skips issued others sh }
  match issued with
  | g :: _ => if old.stepping.isSome then holdStep g.cur.ctl g.cur.pc sh1 else sh1
  | [] => sh

/-- A JOIN whose control set parks yields where its group was the sheaf's only eligible one (R24). -/
def joinYields (alone : Bool) (old sh : Sheaf) (g : Group) : Bool :=
  alone && decide (runMask sh ≠ 0#32) && !old.handler &&
    (match g.ins with
     | some (.join k) => g.cur.ctl &&& ~~~joinMask sh k == 0#32
     | _ => false)

/-- The yield of a JOIN, if it takes one. -/
def joinYield (alone : Bool) (old : Sheaf) (g : Group) (t : State) : State :=
  match getSheaf t g.cur.bed g.cur.sheaf with
  | some sh => if joinYields alone old sh g then yieldSheaf t g.cur.bed g.cur.sheaf else t
  | none => t

/-- The record of a trap that a first pick raised notes that its partner took no effect (R19). -/
def notePaired (s : State) (b w : Nat) : State :=
  modSheaf s b w (fun sh => { sh with record := { sh.record with paired := true } })

/-- The books of an issue: the sheaf, the issue counters (R61) and a JOIN's yield.  A fetch that faults, or a breakpoint, issues nothing
(R351, R364). -/
def afterIssue (core slot : Nat) (s : State) (old : Sheaf) (picked others : List Group) (b w : Nat) (t : State) : State :=
  let issued := picked.filter (hasIssue old)
  let t1 := modSheaf t b w (afterSheaf s.nextKey s.ticks (usedRegs s old issued) old issued others)
  let t2 := count t1 core slot issued.length
  let t3 := if issued.length = 2 then count t2 core 4 1 else t2
  match issued, others with
  | [g], [] => joinYield true old g t3
  | _, _ => t3

/-- A sheaf entered handler mode since it stood as `old`. -/
def entered (t : State) (b w : Nat) (old : Sheaf) : Bool :=
  match getSheaf t b w with
  | some sh => sh.handler && !old.handler
  | none => true

/-- The second pick of a sheaf, which single step has none of (R365). -/
def partnerOf (sh : Sheaf) (gs : List Group) : Option Group := if sh.stepping.isSome then none else secondOf gs

/-- A second pick that traps while its first pick runs again (R19, R341): its trap waits until the first has completed, and comes from the
values that both read. -/
def laterTrap (t u : State) (core slot : Nat) (old : Sheaf) (h : Group) : State :=
  modCore (putAttempt t core (8 + slot)
    { cur := { h.cur with before := some old }, slot := slot, replays := 0, late := 0, ready := false, op := none, left := [] }) core
    (fun k => { k with margin := (getCore u core).margin })

/-- The sheaf's pending results let a second pick issue beside the first (R348). -/
def roomBeside (sh : Sheaf) (h : Group) : Bool := h.ins.all (fun i => !isLong (inner i) || roomForLong sh)

/-- The picks of a sheaf issue (R17, R19): the first, then its partner, which reads what stood before both and takes no effect where
the first traps.  A late transition that has been found is in either pick. -/
def issueGroups (s : State) (core slot : Nat) (sh : Sheaf) (g : Group) (rest : List Group) (late : Option Nat) : Out :=
  let b := g.cur.bed
  let w := g.cur.sheaf
  let second := partnerOf sh (g :: rest)
  let inSecond := second.isSome && Config.freeBool (salt s 7000)
  let p := firstRun s core slot slot sh g none (if inSecond then none else late)
  if !p.went then p.out
  else
    match second with
    | none => p.out.andThen (fun t => .next (afterIssue core slot s sh [g] rest b w t))
    | some h =>
      p.out.andThen (fun t =>
        match getSheaf t b w with
        | none => .next t
        | some sh1 =>
          if entered t b w sh then .next (afterIssue core slot s sh [g] rest b w (notePaired t b w))
          else if !roomBeside sh1 h then .next (afterIssue core slot s sh [g] rest b w t)
          else
            let q := firstRun t core slot (8 + slot) sh1 h (some sh) (if inSecond then late else none)
            q.out.andThen (fun u =>
              .next (if !q.went then afterIssue core slot s sh [g] rest b w u
                else if (getAttempt t core slot).isSome && entered u b w sh then
                  afterIssue core slot s sh [g, h] (rest.drop 1) b w (laterTrap t u core slot sh h)
                else afterIssue core slot s sh [g, h] (rest.drop 1) b w (noteOver u core slot (overOf sh h)))))

/-! ## An issue slot -/

/-- Every credit of a launch on a slot is reloaded where each of its eligible sheaves there has none (R336). -/
def reloadCredits (s : State) (core slot : Nat) (cs : List Cand) : State :=
  let out := cs.filter (fun c => creditOf s c.bed c.sh == 0 &&
    (cs.filter (fun d => launchKey s d.bed == launchKey s c.bed)).all (fun d => creditOf s d.bed d.sh == 0))
  (dedup (out.map (fun c => launchKey s c.bed))).foldl (fun s l =>
    modCore s core (fun k =>
      { k with credits := mset k.credits l ((mget k.credits l []).filter (fun x => x.1 / 16 != slot)) })) s

/-- An issue takes a credit from the sheaf's role (R336). -/
def takeCredit (s : State) (core slot : Nat) (c : Cand) : State :=
  match launchOf s c.bed with
  | none => s
  | some l =>
    if noRoles l.record then s
    else
      let n := creditOf s c.bed c.sh - 1
      modCore s core (fun k =>
        let table := mset (mget k.credits (launchKey s c.bed) []) (slot * 16 + c.sh.place.roleEntry) n
        { k with credits := mset k.credits (launchKey s c.bed) table })

/-- A pick issues instructions of the sheaf: its first pick is one that issues (R336, R351, R364). -/
def issuesNow (c : Cand) : Bool :=
  match c.ready with
  | .groups (g :: _) => hasIssue c.sh g
  | _ => false

/-- A sheaf of a slot as a pick leaves it: sheaves it has yielded to and that were picked or are no longer eligible no longer hold it
(R37), and its watchdog counts a pick of another where a sheaf of another bed was eligible too (R38). -/
def notePick (s : State) (cs : List Cand) (c : Cand) (x : Nat × Nat) (sh : Sheaf) : Sheaf :=
  let pick := (c.bed, c.sheaf)
  let starved := cs.any (fun d => d.bed != x.1 && (d.bed, d.sheaf) != pick)
  let n := sh.wdcnt + if starved then 1 else 0
  let full := decide (watchdogLimit s x.1 ≤ n)
  { sh with
    yieldFor := sh.yieldFor.filter (fun y => y != pick && cs.any (fun d => (d.bed, d.sheaf) == y)),
    wdcnt := if full then 0 else n,
    wdDue := sh.wdDue || full,
    lastIssue := if x = pick ∧ issuesNow c = true then s.ticks else sh.lastIssue }

/-- The books of a pick, before the sheaf issues. -/
def picked (s : State) (core slot : Nat) (cs : List Cand) (c : Cand) : State :=
  let s1 := if issuesNow c then takeCredit s core slot c else s
  (slotSheaves s core slot).foldl (fun t x => modSheaf t x.1 x.2.1 (notePick s cs c (x.1, x.2.1))) s1

/-- A sheaf that yielded as it issued waits for those that were eligible then (R37). -/
def keepEligible (cs : List Cand) (b w : Nat) (t : State) : State :=
  modSheaf t b w (fun sh => { sh with yieldFor := sh.yieldFor.filter (fun y => cs.any (fun d => (d.bed, d.sheaf) == y)) })

/-- An engine operation whose issue would only wait for lock entries waits, and nothing else of the pick stands (R127). -/
def orWait (s s1 : State) (core : Nat) (g : Group) (r : Out) : Out :=
  match g.ins with
  | some i => if mayWait i && waitedLocks core s1 r then .next (lockWait s core) else r
  | none => r

/-- The trap of a restore that found no sheaf's tag vector (R62), by the group that would have issued first. -/
def takeBadTags (s : State) (g : Group) : State :=
  match getSheaf s g.cur.bed g.cur.sheaf with
  | none => s
  | some sh =>
    let t : LateTrap := { plainTrap 4 with lanes := g.cur.ctl, detail := BitVec.ofNat 32 (lowestD g.cur.ctl) }
    takeTrap (setSheaf s g.cur.bed g.cur.sheaf { sh with badTags := false }) g.cur.bed g.cur.sheaf (curRecord g.cur sh t g.cur.pc false)

/-- The first attempt of whatever a slot picks. -/
def issueNew (s0 : State) (core slot : Nat) (late : Option Nat) : Out :=
  let s := reloadCredits s0 core slot (slotCands s0 core slot)
  let cs := slotCands s core slot
  match pickSheaf s cs with
  | none => .next s
  | some c =>
    let s1 := picked s core slot cs c
    match c.ready, getSheaf s1 c.bed c.sheaf with
    | .refill, _ => .next (refillFlushed s1 c.bed c.sheaf)
    | .deliver, _ => .next (deliverPending s1 c.bed c.sheaf)
    | .badTags g, _ => .next (takeBadTags s1 g)
    | .watchdog, _ => execWatchdogTrap c.bed c.sheaf s1
    | .groups (g :: rest), some sh =>
      orWait s s1 core g ((issueGroups s1 core slot sh g rest late).andThen (fun t => .next (keepEligible cs c.bed c.sheaf t)))
    | _, _ => .next s

/-- What a replayed instruction leaves: the group registers that its partner wrote (R19), and the yield of a JOIN (R24). -/
def afterReplay (s : State) (sh : Sheaf) (g : Group) (left : List (Nat × Mask)) (t : State) : State :=
  let others := (rankedGroups s g.cur.bed g.cur.sheaf sh).filter (fun x => x.cur.pc != g.cur.pc)
  let t1 := modSheaf t g.cur.bed g.cur.sheaf (fun x => left.foldl (keepPartner sh) x)
  joinYield others.isEmpty sh g t1

/-- A discarded attempt starts again, with the values that its first attempt read (R370). -/
def issueAgain (s : State) (core slot key : Nat) (a : Attempt) (late : Option Nat) : Out :=
  match attemptGroup s core slot a with
  | none => .next (dropAttempt s core key)
  | some (sh, g) =>
    let held := a.cur.before.getD sh
    match late with
    | some path => lateIssue s core slot key sh g path false a.replays (if isTmm g.ins then a.late else a.late - 1) held a.left
    | none =>
      if 0 < a.late && !isTmm g.ins then lateIssue s core slot key sh g 0 true a.replays (a.late - 1) held a.left
      else
        let s1 := dropAttempt s core key
        let r := withLateTmm core a.late (runGroup s1 sh g a.cur.before)
        orWait s s1 core g (r.andThen (fun t =>
          .next (keepEligible (slotCands s core slot) g.cur.bed g.cur.sheaf (afterReplay s sh g a.left t))))

/-- The slot stands in the bubbles of a discarded attempt (R370). -/
def slotBlocked (s : State) (core slot : Nat) : Bool := (getCore s core).attempts.any (fun a => a.2.slot == slot && !a.2.ready)

/-- The key of an attempt of a slot that may start again. -/
def againKey (s : State) (core slot : Nat) : Option Nat := [slot, 8 + slot].find? (fun k => (getAttempt s core k).isSome)

/-- A late transition that a slot's next attempt meets, and the state that has noted it. -/
def takeLate (s : State) (core slot : Nat) : Option Nat × State :=
  match mfind (getCore s core).lateNext slot with
  | some path => (some path, modCore s core (fun c => { c with lateNext := mdel c.lateNext slot }))
  | none => (none, s)

/-- An issue slot's cycle. -/
def issueSlot (s : State) (core slot : Nat) : Out :=
  let x := takeLate s core slot
  match againKey s core slot with
  | some key =>
    (match getAttempt x.2 core key with
     | some a => issueAgain x.2 core slot key a x.1
     | none => .next x.2)
  | none => issueNew x.2 core slot x.1

/-- The slot has something to issue. -/
def slotReady (s : State) (core slot : Nat) : Bool :=
  !slotBlocked s core slot && ((againKey s core slot).isSome || (pickSheaf s (slotCands s core slot)).isSome)

/-! ## Pairs in the memory stacks (R137, R142) -/

/-- The thread of a pair may run: it is not blocked, or what it waits for has come. -/
def pairReady (x : Ctx) (t : NThr) : Bool :=
  match t.wait with
  | .ready => true
  | .send => true
  | w => queueReady x w

/-- A pair thread runs its next instruction: a PC outside the library's code or off a word boundary, or a word that is no instruction,
is fault code 1 (R142). -/
def runPair (s : State) (n : NCur) : Out :=
  match ctxOf s n with
  | none => .next s
  | some x =>
    let t := thrOf n x
    let img := imageOf s x.lib
    if t.pc % 4 ≠ 0 || decide (libSize img ≤ t.pc) then nearFault s n 1
    else
      match decodeNear (libCode img t.pc) with
      | .error _ => nearFault s n 1
      | .ok i => exec i { s with agent := .pair n }

/-- A thread of a pair is ready (R137); one blocked on a send only where it can now be made.  A distance request has no thread. -/
def threadReady (s : State) (e : Nat) (math : Bool) (c : Nat × Ctx) : Bool :=
  let n : NCur := { engine := e, ctx := c.1, math := math }
  match c.2.kind, (thrOf n c.2).wait with
  | .request _, _ => false
  | _, .send =>
    (match runPair s n with
     | .next u => decide (({ u with agent := .idle } : State) ≠ { s with agent := .idle })
     | _ => true)
  | _, _ => pairReady c.2 (thrOf n c.2)

/-- The first of some contexts after the one that issued last, round robin (R137). -/
def nextCtx (last : Nat) (xs : List Nat) : Option Nat := ((below 16).map (fun k => (last + 1 + k) % 16)).find? (fun x => xs.contains x)

/-- The two threads that an engine issues next: a fetch thread and a math thread, round robin over the ready ones, of different contexts
where that is possible (R137). -/
def engineThreads (s : State) (e : Nat × Engine) : List NCur :=
  let ready := fun math => (e.2.ctxs.filter (threadReady s e.1 math)).map (fun c => c.1)
  let fetch := nextCtx e.2.lastFetch (ready false)
  let maths := ready true
  let others := maths.filter (fun x => fetch != some x)
  let math := nextCtx e.2.lastMath (if others.isEmpty then maths else others)
  ((fetch.map (fun x => { engine := e.1, ctx := x, math := false })).toList : List NCur) ++
    (math.map (fun x => { engine := e.1, ctx := x, math := true })).toList

/-- The pair threads that may run. -/
def pairThreads (s : State) : List NCur := s.engines.flatMap (engineThreads s)

/-- The round robin of an engine notes a thread that issues. -/
def notePair (s : State) (n : NCur) : State :=
  modEngine s n.engine (fun en => if n.math then { en with lastMath := n.ctx } else { en with lastFetch := n.ctx })

/-! ## The next action -/

/-- An action of the machine. -/
inductive Act where
  /-- an entry of the agenda -/
  | agenda (k : Nat)
  | derived (e : Event)
  | issue (core slot : Nat)
  | pair (n : NCur)
  deriving DecidableEq, Repr

/-- The cores that hold a resident bed, each once. -/
def busyCores (s : State) : List Nat :=
  dedup ((s.beds.filter (fun b => b.2.stage == .resident)).map (fun b => b.2.core))

/-- The issue slots that have something to issue. -/
def issues (s : State) : List Act :=
  (busyCores s).flatMap (fun core => (below 4).filterMap (fun slot => if slotReady s core slot then some (.issue core slot) else none))

/-- An event that nothing comes before (R372, R373). -/
def urgent (e : Event) : Bool :=
  match e with
  | .automaticRaise _ => true
  | .quarantine _ _ => true
  | _ => false

/-- An event that a package without power takes; the host's own memory is not the package's. -/
def wakes (e : Event) : Bool :=
  match e with
  | .powerOn _ => true
  | .hostWrite .. => true
  | _ => false

/-- A request that reaches the management processor, through the mailbox or over MCTP (R409). -/
def isRequest (e : Event) : Bool :=
  match e with
  | .quarantineCommand .. | .release .. | .marginProfile .. | .marginWrite .. | .readAndClear .. | .powerBudget .. | .lremapWrite ..
  | .pdtestWrite .. | .imageLoad .. | .svnMinimumRaise .. | .attestation .. | .managementRestart | .dieReset .. | .packageReset
  | .powerOff => true
  | _ => false

/-- Two inputs that take effect in the order they arrive in: BAR4 accesses (R135), doorbells of one queue (R408), requests to the management
processor (R409). -/
def inLine (a b : Event) : Bool :=
  match a, b with
  | .bar4Access .., .bar4Access .. => true
  | .doorbell _ q _, .doorbell _ r _ => q == r
  | a, b => isRequest a && isRequest b

/-- The agenda's entries that satisfy a test and that none before them comes first. -/
def agendaActs (s : State) (p : Event → Bool) : List Act :=
  (below s.agenda.length).filterMap (fun k =>
    match lget (s.agenda.map some) k none with
    | some e => if p e && !(s.agenda.take k).any (inLine e) then some (.agenda k) else none
    | none => none)

/-- Instructions of a core's sheaves that run again (R370). -/
def rerunning (s : State) (core : Nat) : Bool := (getCore s core).attempts.any (fun a => a.2.op.isNone)

/-- The core that an event quarantines. -/
def quarantines (s : State) (e : Event) : Option Nat :=
  match e with
  | .quarantine k _ => some k
  | .automaticRaise k => if (getCore s k).margin.cur = 0#4 then some k else none
  | _ => none

/-- Cores whose quarantine waits for instructions that run again: issued instructions complete before a pre-emption (R349, R373). -/
def waitingCores (s : State) : List Nat := (s.agenda.filterMap (quarantines s)).filter (rerunning s)

/-- What lets them complete. -/
def replayActs (s : State) (core : Nat) : List Act :=
  agendaActs s (fun e => match e with
    | .attemptReplay k _ => k == core
    | _ => false) ++
  (below 4).filterMap (fun slot =>
    if !slotBlocked s core slot && (againKey s core slot).isSome then some (.issue core slot) else none)

/-- What comes before everything else: an automatic raise or a quarantine, or what a quarantine waits for. -/
def urgentActs (s : State) : List Act :=
  match agendaActs s (fun e => urgent e && !(quarantines s e).any (rerunning s)) ++ (waitingCores s).flatMap (replayActs s) with
  | [] => agendaActs s urgent
  | as => as

/-- Everything that may act next (log 3). -/
def candidates (s : State) : List Act :=
  if !s.powered then agendaActs s wakes
  else if s.agenda.any urgent then urgentActs s
  else
    agendaActs s (fun _ => true) ++ (derived s).map .derived ++ issues s ++ (pairThreads s).map .pair

/-- An action is done. -/
def act (a : Act) (s : State) : Out :=
  match a with
  | .agenda k =>
    (match lget (s.agenda.map some) k none with
     | some e => runEvent e { s with agenda := s.agenda.take k ++ s.agenda.drop (k + 1) }
     | none => .next s)
  | .derived e => runEvent e s
  | .issue core slot => issueSlot s core slot
  | .pair n => runPair (notePair s n) n

/-- The action that comes next: none where nothing can act, else one of the candidates, free which (log 3). -/
def nextAct (s : State) : Option Act :=
  match candidates s with
  | [] => none
  | [a] => some a
  | a :: r => some (lget (a :: r) (Config.turn s.ticks % (r.length + 1)) a)

/-- The cores of the plots whose range locks an engine operation waits for, though it could issue otherwise (R127). -/
def lockWaiters (s : State) : List Nat :=
  let blocked := fun (core : Nat) => (below 4).any (fun slot => (slotSheaves s core slot).any (fun x =>
    hasRunnable x.2.2 && (pcGroups s x.1 x.2.1 x.2.2).any (fun g => locksHold s x.2.2 g && eligibleBut s x.2.2 g)))
  ((s.plots.filter (fun p => p.2.locks.any (fun l => l.2.valid))).flatMap (fun p => upFrom (4 * p.1) 4)).filter blocked

/-- RLWAIT of those cores counts the cycles that a step took (R61). -/
def countLockWaits (s : State) : State := (lockWaiters s).foldl (fun s k => count s k 13 (Config.freeNat (salt s (5206 + k)))) s

/-- What a step leaves to be noticed: lines pushed out of full caches (R311, R52, R2), dependences that hold (R329), queues that are no
longer ready (R331), operations that wait for range locks (R61).  A line whose write-back an exclusive batch holds back stays (R168). -/
def notice (s t : State) : State :=
  let t1 := trimLines t
  let t2 := trimCaches t1
  countLockWaits (noteQueues (noteDeps (if heldBack s t2 then t1 else t2)))

/-- The instructions of a sheaf that run again (R370). -/
def attemptsOf (s : State) (core b w : Nat) : Nat :=
  ((getCore s core).attempts.filter (fun a => a.2.op.isNone && a.2.cur.bed == b && a.2.cur.sheaf == w)).length

/-- A step takes a trap for a sheaf, or pre-empts its bed, while an instruction of it still runs again: the step must wait, since issued
instructions complete first (R341, step 2; R349, step 1). -/
def cutsAttempt (s t : State) : Bool :=
  s.cores.any (fun c => c.2.attempts.any (fun a =>
    let b := a.2.cur.bed
    let w := a.2.cur.sheaf
    a.2.op.isNone && (match getSheaf s b w, getSheaf t b w with
      | some x, some y =>
        (!x.handler && y.handler && attemptsOf t c.1 b w == attemptsOf s c.1 b w) ||
          (isResident s b && (getBed t b).any (fun bd => bd.stage == .preempted))
      | _, _ => false)))

/-- A step that is put off: only the free values move on. -/
def putOff (s : State) : Out := .next { s with ticks := s.ticks + 1 }

/-- A step that is made: nobody issues any more, and the free values move on. -/
def made (s t : State) : State := { notice s t with ticks := s.ticks + 1, agent := .idle, holdRelease := false }

/-- What comes of an action that would leave a state.  It is put off where it writes a page while no page of the snapshot pool is free
(R359) or would cut short an instruction that runs again (R341, R349).  Where an exclusive batch must not see its write-backs yet (R168),
an ordered access leaves its release, and what that orders, in the operand log and the rest goes on; any other action is put off. -/
def settle (a : Act) (s t : State) : Out :=
  match t.snapStall with
  | some x => .next { waitSnap s x.1 x.2 with ticks := s.ticks + 1 }
  | none =>
    if cutsAttempt s t then putOff s
    else if !heldBack s t then .next (made s t)
    else (act a { s with holdRelease := true }).andThen (fun u =>
      if u.snapStall.isSome || cutsAttempt s u || heldBack s u then putOff s else .next (made s u))

end Sys2Proof.Machine
end

