-- ==== Sys2Proof/Machine/Step.lean ====
section
/-! DEFINITION. One step of the package, and the placing of an instruction where the next step runs it. -/

namespace Sys2Proof.Machine

/-- One step: the action that comes next is done; a package in which nothing can act stays as it is. -/
def step (s : State) : Host.Outcome State Fault Refusal :=
  match nextAct s with
  | none => .next s
  | some a => (act a s).andThen (settle a s)

/-- The launch record of the placed program, which keeps Table 16.2: one bed of one sheaf, 512 lane registers and 512 lines, the longest
watchdog, any die, code at VA 4000H, no barrier. -/
def placedRecord : BitVec 2048 :=
  BitVec.ofNat 2048 (0x4000 + 2 ^ 112 + 31 * 2 ^ 208 + 512 * 2 ^ 224 + 32 * 2 ^ 336 + 15 * 2 ^ 352 + 2 * 2 ^ 960)

/-- The launch of the placed program. -/
def placedLaunch : Launch :=
  { record := placedRecord, pins := [], regions := [], binds := [], fn := 0, queue := 0, level := 0, asid := 0#16, tag := 0#32,
    ident := 0#64, lrva := 0#64, attempts := 1, stage := .running, nextBed := 1, exited := 0, dropped := false, touched := [],
    snaps := [], fired := [], collFail := none, early := none, killDie := none, claims := [], slotHeld := false, order := 0, left := true,
    met := false, placed := 0 }

/-- Its sheaf at its start, with the lines of the registers that an instruction can name from a window base of 0 already filled, so that
its first instruction issues at once (R51). -/
def placedSheaf : Sheaf :=
  { newSheaf placedLaunch 0 0 0 0 with v := (below 160).map (fun p => (p, { VReg.reset with line := .present })) }

/-- The bed of the placed program, on core 0, with its one sheaf in issue slot 0 at its start (R41, R334). -/
def placedBed : Bed :=
  { launch := 0, linear := 0, x := 0, y := 0, z := 0, core := 0, posn := 0, lo := 0#32, hi := 0#32, total := 1,
    sheaves := [(0, placedSheaf)], stage := .resident, image := none, bexit := false, boosts := [],
    stopper := none, savedPlot := false, group := 0, banks := [], tmm := none, claimed := false }

/-- Bytes of memory that map the first GiB of address space 0 to itself (Table 17.7, R406), and the program's words at 4000H. -/
def placedBytes (asidtab : Nat) (code : List Byte) : List (Nat × List Byte) :=
  [(asidtab, natLe 8 0x1000), (0x1000, natLe 8 0x2011), (0x2000, natLe 8 0x3F), (0x4000, code)]

/-- A pair on engine 0 whose fetch thread starts at the first word of a library; its math thread has ended. -/
def placedCtx : Ctx :=
  { kind := .nmcall 0, lib := 0, fetch := startThr 0 [] [], math := { startThr 0 [] [] with wait := .ended }, fwd := [], ret := [],
    grant := [], grantSize := 0, status := 0#64, holds := false, dreqs := 0, endSent := false, wrote := [], answers := [] }

/-- The batch whose routine that pair runs (R166). -/
def placedBatch : Batch :=
  { engine := 0, launch := 0, bed := 0, sheaf := 0, pc := 0#64, inst0 := 0#32, d := 0, routine := 0, count := 1, calls := [],
    asid := 0#16, started := true, replied := false, hold := Hold.reset, handler := false }

/-- A near-profile library image of some words, as image number 0 (Table 20.7). -/
def placedLib (code : List Byte) : List Byte :=
  copies 256 0#8 ++ copies 12 0#8 ++ natLe 4 64 ++ natLe 4 code.length ++ copies 44 0#8 ++ code

/-- The state with nothing else in the package that can act. -/
def quiet (s : State) : State :=
  { s with
    home := [], l2 := [], tlb := [], oldFrames := [], early := [], oldCode := [], plots := [], cores := [], beds := [], launches := [], copies := [], bwait := [], engines := [],
    searches := [], batches := [], colls := [], pkts := [], pins := [], powered := true, agenda := [], snapStall := none, holdRelease := false, agent := .idle,
    hostIf := { s.hostIf with queues := [], tickets := [] } }

/-- The state in which the next step runs the instruction of a table word: a program of one instruction is placed on core 0 as a
launch would place it, or, for a word that only a bank engine runs, in a pair of engine 0 (log 2). -/
def State.withFetchWord (s : State) (nbits w : Nat) : State :=
  let v := w % 2 ^ nbits
  let code := wordBytes (BitVec.ofNat 32 v) ++ wordBytes (BitVec.ofNat 32 (v / 2 ^ 32))
  let q := quiet s
  let mem := (placedBytes q.hostIf.asidtab.toNat code).foldl
    (fun m x => (below x.2.length).foldl (fun m k => setByte m (x.1 + k) (lget x.2 k 0#8)) m) q.mem
  match decodeBytes code with
  | some (.ok _, _) => { q with mem := mem, launches := [(0, placedLaunch)], beds := [(0, placedBed)] }
  | _ =>
    { q with
      mem := mem, batches := [(0, placedBatch)], mgmt := { q.mgmt with images := mset q.mgmt.images 0 (placedLib code) },
      engines := [(0, { Engine.reset with ctxs := [(0, placedCtx)] })] }

end Sys2Proof.Machine
end

