-- ==== Sys2Proof/Safety.lean ====
section
/-! DEFINITION. What counts as a safe run: the terms in which claims speak of whole runs and of reachable states. -/

namespace Sys2Proof

open Sys2Proof.Machine

/-- A step goes on: it ends neither in a fault nor in a refusal. -/
def goesOn (s : State) : Prop := ∃ t, step s = .next t

/-- Between steps no instruction is in the middle of issuing. -/
def atRest (s : State) : Prop := s.agent = .idle

/-- Memory is held in its one canonical form: addresses rise strictly, and no listed byte is 0, what an unlisted byte reads as. -/
def memoryCanonical (s : State) : Prop := Memory.wf s.mem

/-- A state that some number of steps leads to. -/
inductive Reaches : State → State → Prop where
  | refl (s : State) : Reaches s s
  | step {s t u : State} (h : Reaches s t) (hu : Sys2Proof.Machine.step t = .next u) : Reaches s u

/-- A run of k steps goes on throughout. -/
def safeFor : Nat → State → Prop
  | 0, _ => True
  | k + 1, s => ∃ t, step s = .next t ∧ safeFor k t

/-! ## An instruction of a sheaf -/

/-- Cursor `c` issues, and its sheaf is `sh`. -/
def Issues (s : State) (c : Cur) (sh : Sheaf) : Prop := s.agent = .sheaf c ∧ getSheaf s c.bed c.sheaf = some sh

/-- A thread of the control set is switched on (R10, R11). -/
def Active (c : Cur) (sh : Sheaf) : Prop := exm c sh ≠ 0#32

/-- Each active lane's window names the lane registers within its budget (R27, R42). -/
def InBudget (c : Cur) (sh : Sheaf) (regs : List Nat) : Prop :=
  ∀ i, i < 32 → bit (exm c sh) i = true → ∀ n ∈ regs, inBudget (src c sh) i n = true

/-- What software can read of every store other than registers is the same in both states: memory with its caches and poison,
scratch, the B-stores and the accumulators. -/
structure StoresNothing (s t : State) : Prop where
  memory : ∀ a, memByte t.mem a = memByte s.mem a
  poison : t.memPoison = s.memPoison
  home : t.home = s.home
  l2 : t.l2 = s.l2
  l1 : ∀ p, (getPlot t p).l1 = (getPlot s p).l1
  scratch : ∀ p a, memByte (getPlot t p).scratch a = memByte (getPlot s p).scratch a
  marks : ∀ p, (getPlot t p).marks = (getPlot s p).marks
  bstore : ∀ k a, memByte (getCore t k).bstore a = memByte (getCore s k).bstore a
  accumulators : ∀ k, (getCore t k).acc = (getCore s k).acc

/-- `t` is `s` with the issuing sheaf replaced by `sh'`, moved on to the next instruction; no store has changed. -/
structure MovesOn (s t : State) (c : Cur) (sh' : Sheaf) : Prop where
  only : t = putSheaf s c (advance c sh')
  stores : StoresNothing s t

/-- The lanes of a mask read a value and a poison bit in vN. -/
def LanesHold (m : Mask) (sh : Sheaf) (n : Nat) (val : Nat → Word) (poison : Nat → Bool) : Prop :=
  ∀ u i, i < 32 → bit m i = true → laneView u sh i n = (val i, poison i)

/-- gN reads a value and a poison bit; g0 reads zero whatever is written (R44). -/
def GroupHolds (sh : Sheaf) (n : Nat) (val : Word) (poison : Bool) : Prop :=
  ∀ u k, groupView u k sh n = if n = 0 then (0#32, false) else (val, poison)

/-- Rows of accumulators that wait to be written read the same. -/
def SameRows (sh sh' : Sheaf) : Prop :=
  ∀ u t r best, pendingRow sh'.long u t r best = pendingRow sh.long u t r best

/-- An issued instruction apart from the results that it still has to write. -/
def opHead (o : LongOp) : LongOp := { o with writes := [] }

/-- The frame of an instruction that writes lane registers `ds` in the lanes of a mask: every other lane and register, every group
register, every accumulator row, the instructions in flight and the rest of the sheaf are as they were. -/
structure LaneFrame (m : Mask) (ds : List Nat) (sh sh' : Sheaf) : Prop where
  lanes : ∀ u i n, i < 32 → (bit m i = false ∨ ∀ d ∈ ds, phys sh i n ≠ phys sh i d) → laneView u sh' i n = laneView u sh i n
  groups : ∀ u k n, groupView u k sh' n = groupView u k sh n
  rows : SameRows sh sh'
  pending : sh'.long.map opHead = sh.long.map opHead
  rest : sh' = { sh with v := sh'.v, long := sh'.long }

/-- The frame of an instruction that writes group registers `ds`. -/
structure GroupFrame (ds : List Nat) (sh sh' : Sheaf) : Prop where
  lanes : ∀ u i n, i < 32 → laneView u sh' i n = laneView u sh i n
  groups : ∀ u k n, n < 128 → (∀ d ∈ ds, d ≠ 0 → n ≠ d) → groupView u k sh' n = groupView u k sh n
  rows : SameRows sh sh'
  pending : sh'.long.map opHead = sh.long.map opHead
  rest : sh' = { sh with g := sh'.g, gp := sh'.gp, long := sh'.long }

end Sys2Proof
end

