-- ==== Sys2Proof/Certificates/Slice0/Obligations.lean ====
section
/-! DEFINITION. The statements for the provers: what the spec's rules say of this model, one `Obligations.<Name>` each, with the
terms that only they use.  A hypothesis `Issues s c sh` says that cursor `c` of sheaf `sh` issues in `s`; `Active` and `InBudget`
say that a lane is active and that the active lanes' windows reach the registers (R11, R27). -/

open Sys2Proof Sys2Proof.Machine
/-! ## Integer instructions (chapter 8) -/

namespace Sys2Proof.Claim

/-- The instruction of an ALU or ALU2 function (Tables 8.2 and 8.3); a function of A alone has no B. -/
def aluInstr (op : AluOp) (sc : Scope) (d a b : BitVec 7) : Instr :=
  match op with
  | .add => .add sc d a b
  | .sub => .sub sc d a b
  | .mul => .mul sc d a b
  | .mulh => .mulh sc d a b
  | .mulhu => .mulhu sc d a b
  | .min => .min sc d a b
  | .max => .max sc d a b
  | .minu => .minu sc d a b
  | .maxu => .maxu sc d a b
  | .and => .and sc d a b
  | .or => .or sc d a b
  | .xor => .xor sc d a b
  | .andn => .andn sc d a b
  | .shl => .shl sc d a b
  | .shr => .shr sc d a b
  | .sra => .sra sc d a b
  | .rol => .rol sc d a b
  | .ror => .ror sc d a b
  | .clz => .clz sc d a
  | .popc => .popc sc d a
  | .brev => .brev sc d a
  | .abs => .abs sc d a
  | .neg => .neg sc d a
  | .madd => .madd sc d a b
  | .msub => .msub sc d a b
  | .lea1 => .lea1 sc d a b
  | .lea2 => .lea2 sc d a b
  | .lea3 => .lea3 sc d a b
  | .addsat => .addsat sc d a b
  | .subsat => .subsat sc d a b

/-- The register that stands in for B: A where the function has no B. -/
def second (op : AluOp) (a b : BitVec 7) : BitVec 7 := if op.unary then a else b

/-- The immediate forms: the function, and the 32-bit and 64-bit values of the immediate (R191, R192). -/
inductive ImmForm where
  | addi (i : BitVec 11) | muli (i : BitVec 11) | andi (i : BitVec 11) | ori (i : BitVec 11) | xori (i : BitVec 11)
  | shli (n : BitVec 5) | shri (n : BitVec 5) | srai (n : BitVec 5) | roli (n : BitVec 5)

/-- The instruction of an immediate form. -/
def ImmForm.instr : ImmForm → Scope → BitVec 7 → BitVec 7 → Instr
  | .addi i, sc, d, a => .addi sc d a i
  | .muli i, sc, d, a => .muli sc d a i
  | .andi i, sc, d, a => .andi sc d a i
  | .ori i, sc, d, a => .ori sc d a i
  | .xori i, sc, d, a => .xori sc d a i
  | .shli n, sc, d, a => .shli sc d a n
  | .shri n, sc, d, a => .shri sc d a n
  | .srai n, sc, d, a => .srai sc d a n
  | .roli n, sc, d, a => .roli sc d a n

/-- What an immediate form computes of a value of w bits: ADDI and MULI read a signed immediate, ANDI, ORI and XORI an unsigned one,
and the shifts an amount (R191, R192). -/
def ImmForm.result {w : Nat} : ImmForm → BitVec w → BitVec w
  | .addi i, x => x + i.signExtend w
  | .muli i, x => x * i.signExtend w
  | .andi i, x => x &&& i.setWidth w
  | .ori i, x => x ||| i.setWidth w
  | .xori i, x => x ^^^ i.setWidth w
  | .shli n, x => x <<< n.toNat
  | .shri n, x => x >>> n.toNat
  | .srai n, x => BitVec.sshiftRight x n.toNat
  | .roli n, x => x.rotateLeft n.toNat

/-- The instruction of a division (R194). -/
def divInstr (op : DivOp) (sc : Scope) (d a b : BitVec 7) (l : BitVec 4) : Instr :=
  match op with
  | .div => .div sc d a b l
  | .divu => .divu sc d a b l
  | .rem => .rem sc d a b l
  | .remu => .remu sc d a b l

/-- An instruction issued whose results wait to be written (R180): entry `o` joins the instructions in flight, with its lookahead span
`la` for each thread of its control set; the files of registers are as they were. -/
structure Waits (s t : State) (c : Cur) (sh sh' : Sheaf) (o : LongOp) (la : Nat) : Prop where
  only : t = putSheaf { s with nextKey := s.nextKey + 1 } c (advance c sh')
  stores : StoresNothing s t
  rest : sh' = { sh with long := sh.long ++ [o] }
  name : o.id = s.nextKey ∧ o.instr = s.nextKey
  place : o.pc = c.pc ∧ o.ctl = c.ctl ∧ o.exm = exm c sh ∧ o.inst0 = c.inst0 ∧ o.inst1 = c.inst1 ∧ o.handler = sh.handler
  formed : o.ready = true ∧ o.younger = false
  spans : o.spans = lanes.map (fun i => if bit c.ctl i then la else 0)

/-- The scoreboard checks no thread of a mask: each is inside a lookahead span or has no pending result, so that a group register they read
may be the one before another thread's pending result (R180, R307). -/
def openSpan (k : Mask) (sh : Sheaf) : Bool := (lanesOf k).all (unchecked sh) && decide (k ≠ 0#32)

/-- A result of an issued instruction waits to be written to gN. -/
def groupPending (sh : Sheaf) (n : Nat) : Bool := sh.long.any (fun o => o.writes.any (fun w => (w.group? (gidx sh n)).isSome))

/-- Lane i reads vN as it did, unless a lookahead span has opened for it and some result waits to be written there (R180, R307). -/
def SameLane (sh sh' : Sheaf) (i n : Nat) : Prop :=
  (inSpan sh' i = inSpan sh i ∨ pendingOn sh (phys sh i n) = false) → ∀ u, laneView u sh' i n = laneView u sh i n

/-- Threads of a mask read gN as they did, with the same exception. -/
def SameGroup (sh sh' : Sheaf) (k : Mask) (n : Nat) : Prop :=
  (openSpan k sh' = openSpan k sh ∨ groupPending sh n = false) → ∀ u, groupView u k sh' n = groupView u k sh n

/-- Every lane and register reads as before but registers `ds` in the lanes of a mask; group registers and accumulator rows read as
before. -/
structure OtherLanes (m : Mask) (ds : List Nat) (sh sh' : Sheaf) : Prop where
  lanes : ∀ i n, i < 32 → (bit m i = false ∨ ∀ d ∈ ds, phys sh i n ≠ phys sh i d) → SameLane sh sh' i n
  groups : ∀ k n, SameGroup sh sh' k n
  rows : SameRows sh sh'

/-- The same for an instruction that will write group registers `ds`. -/
structure OtherGroups (ds : List Nat) (sh sh' : Sheaf) : Prop where
  lanes : ∀ i n, i < 32 → SameLane sh sh' i n
  groups : ∀ k n, n < 128 → (∀ d ∈ ds, d ≠ 0 → n ≠ d) → SameGroup sh sh' k n
  rows : SameRows sh sh'

/-- Results that wait to be written to vN: a lane of the mask outside every lookahead span reads them (R180). -/
def LanesAwait (m : Mask) (sh : Sheaf) (n : Nat) (val : Nat → Word) (poison : Nat → Bool) : Prop :=
  ∀ u i, i < 32 → bit m i = true → inSpan sh i = false → laneView u sh i n = (val i, poison i)

/-- A result that waits to be written to gN: threads of which one is checked read it (R180, R307); g0 reads zero. -/
def GroupAwaits (sh : Sheaf) (n : Nat) (val : Word × Bool) : Prop :=
  ∀ u k, openSpan k sh = false → groupView u k sh n = if n = 0 then (0#32, false) else val

end Sys2Proof.Claim

open Sys2Proof.Claim

/-- R189 and R190 on lanes, for all thirty functions: every active lane of vD takes r of its a, b and old d, poisoned where a source is,
and nothing else changes; with every lane active the register stores the form that Table 2.2 gives (R47). -/
def Sys2Proof.Claim.IntegerLanes : Prop :=
  ∀ (op : AluOp) (d a b : BitVec 7) (s : State) (c : Cur) (sh : Sheaf),
    Issues s c sh → Active c sh → InBudget c sh [rn d, rn a, rn (second op a b)] →
    ∃ sh' t, exec (aluInstr op .lane d a b) s = .next t ∧ MovesOn s t c sh' ∧
      LanesHold (exm c sh) sh' (rn d)
        (fun i => alu op (rdV s c sh i (rn a)) (rdV s c sh i (rn (second op a b))) (rdV s c sh i (rn d)))
        (fun i => rdVP s c sh i (rn a) || rdVP s c sh i (rn (second op a b)) || (op.readsD && rdVP s c sh i (rn d))) ∧
      (exm c sh = Mask.full → oneWindow sh Mask.full (rn d) = true →
        (vreg sh' (phys sh 0 (rn d))).form = aluForm op (rdForm s c sh (rn a)) (rdForm s c sh (rn (second op a b))) (rdForm s c sh (rn d))) ∧
      LaneFrame (exm c sh) [rn d] sh sh'

/-- R189 and R190 in group scope: gD takes r of the group registers, once; a write of g0 is discarded. -/
def Sys2Proof.Claim.IntegerGroups : Prop :=
  ∀ (op : AluOp) (d a b : BitVec 7) (s : State) (c : Cur) (sh : Sheaf), Issues s c sh → Active c sh →
    ∃ sh' t, exec (aluInstr op .group d a b) s = .next t ∧ MovesOn s t c sh' ∧
      GroupHolds sh' (rn d) (alu op (rdG s c sh (rn a)) (rdG s c sh (rn (second op a b))) (rdG s c sh (rn d)))
        (rdGP s c sh (rn a) || rdGP s c sh (rn (second op a b)) || (op.readsD && rdGP s c sh (rn d))) ∧
      GroupFrame [rn d] sh sh'

/-- The functions of Tables 8.2 and 8.3 as numbers: sums, products, shifts, comparisons, counts and saturation (R189, R190). -/
def Sys2Proof.Claim.AluTable : Prop :=
  ∀ (a b d : Word),
    (alu .add a b d).toNat = (a.toNat + b.toNat) % 2 ^ 32 ∧
    (alu .sub a b d).toNat = (a.toNat + 2 ^ 32 - b.toNat) % 2 ^ 32 ∧
    (alu .mul a b d).toNat = a.toNat * b.toNat % 2 ^ 32 ∧
    (alu .mulhu a b d).toNat = a.toNat * b.toNat / 2 ^ 32 ∧
    (alu .mulh a b d).toInt = a.toInt * b.toInt / 2 ^ 32 ∧
    (alu .min a b d).toInt = min a.toInt b.toInt ∧
    (alu .max a b d).toInt = max a.toInt b.toInt ∧
    (alu .minu a b d).toNat = min a.toNat b.toNat ∧
    (alu .maxu a b d).toNat = max a.toNat b.toNat ∧
    (∀ i, i < 32 → (alu .and a b d).getLsbD i = (a.getLsbD i && b.getLsbD i) ∧
      (alu .or a b d).getLsbD i = (a.getLsbD i || b.getLsbD i) ∧
      (alu .xor a b d).getLsbD i = (a.getLsbD i ^^ b.getLsbD i) ∧
      (alu .andn a b d).getLsbD i = (a.getLsbD i && !b.getLsbD i) ∧
      (alu .brev a b d).getLsbD i = a.getLsbD (31 - i) ∧
      (alu .rol a b d).getLsbD ((i + b.toNat) % 32) = a.getLsbD i ∧
      (alu .ror a b d).getLsbD i = a.getLsbD ((i + b.toNat) % 32)) ∧
    (alu .shl a b d).toNat = a.toNat * 2 ^ (b.toNat % 256) % 2 ^ 32 ∧
    (alu .shr a b d).toNat = a.toNat / 2 ^ (b.toNat % 256) ∧
    (alu .sra a b d).toInt = a.toInt / 2 ^ (b.toNat % 256) ∧
    (a.toNat < 2 ^ (32 - (alu .clz a b d).toNat) ∧ (a ≠ 0#32 → 2 ^ (31 - (alu .clz a b d).toNat) ≤ a.toNat)) ∧
    (alu .popc a b d).toNat = ((List.range 32).filter (fun i => a.getLsbD i)).length ∧
    (alu .abs a b d).toNat = a.toInt.natAbs ∧
    (alu .neg a b d).toNat = (2 ^ 32 - a.toNat) % 2 ^ 32 ∧
    (alu .madd a b d).toNat = (d.toNat + a.toNat * b.toNat) % 2 ^ 32 ∧
    alu .msub a b d = d - a * b ∧
    (alu .lea1 a b d).toNat = (a.toNat + 2 * b.toNat) % 2 ^ 32 ∧
    (alu .lea2 a b d).toNat = (a.toNat + 4 * b.toNat) % 2 ^ 32 ∧
    (alu .lea3 a b d).toNat = (a.toNat + 8 * b.toNat) % 2 ^ 32 ∧
    (alu .addsat a b d).toInt = max (-2 ^ 31) (min (2 ^ 31 - 1) (a.toInt + b.toInt)) ∧
    (alu .subsat a b d).toInt = max (-2 ^ 31) (min (2 ^ 31 - 1) (a.toInt - b.toInt))

/-- R47 changes no value: the form that an ALU instruction stores under its result tag gives each lane r of the lane's own operands. -/
def Sys2Proof.Claim.TagSound : Prop :=
  ∀ (op : AluOp) (fa fb fd : Form) (i : Nat), i < 32 →
    formLane (aluForm op fa fb fd) i = alu op (formLane fa i) (formLane fb i) (formLane fd i)

/-- R46: what a lane reads under each tag; the value is the same whatever reads it. -/
def Sys2Proof.Claim.TagForms : Prop :=
  ∀ (x b t : Word) (vs : List Word) (i : Nat), i < 32 →
    formLane (.u x) i = x ∧ (formLane (.a b t) i).toNat = (b.toNat + i * t.toNat) % 2 ^ 32 ∧ formLane (.g vs) i = lget vs i 0#32 ∧
    ∀ (u n : Nat) (sh : Sheaf), sh.long = [] →
      laneView u sh i n = (formLane (vreg sh (phys sh i n)).form i, bit (vreg sh (phys sh i n)).poison i)

/-- R191 to R193: the immediate forms and LI, on lanes and in group scope. -/
def Obligations.Immediates : Prop :=
  ∀ (f : ImmForm) (x : BitVec 18) (d a : BitVec 7) (s : State) (c : Cur) (sh : Sheaf), Issues s c sh → Active c sh →
    (InBudget c sh [rn d, rn a] →
      (∃ sh' t, exec (f.instr .lane d a) s = .next t ∧ MovesOn s t c sh' ∧
        LanesHold (exm c sh) sh' (rn d) (fun i => f.result (rdV s c sh i (rn a))) (fun i => rdVP s c sh i (rn a)) ∧
        LaneFrame (exm c sh) [rn d] sh sh') ∧
      (∃ sh' t, exec (.li .lane d x) s = .next t ∧ MovesOn s t c sh' ∧
        LanesHold (exm c sh) sh' (rn d) (fun _ => x.signExtend 32) (fun _ => false) ∧ LaneFrame (exm c sh) [rn d] sh sh')) ∧
    (∃ sh' t, exec (f.instr .group d a) s = .next t ∧ MovesOn s t c sh' ∧
      GroupHolds sh' (rn d) (f.result (rdG s c sh (rn a))) (rdGP s c sh (rn a)) ∧ GroupFrame [rn d] sh sh') ∧
    (∃ sh' t, exec (.li .group d x) s = .next t ∧ MovesOn s t c sh' ∧
      GroupHolds sh' (rn d) (x.signExtend 32) false ∧ GroupFrame [rn d] sh sh')

/-- R194 on lanes: the quotient or remainder waits to be written in every active lane, and a reader outside every lookahead span reads
it (R180). -/
def Sys2Proof.Claim.DivisionLanes : Prop :=
  ∀ (op : DivOp) (d a b : BitVec 7) (l : BitVec 4) (s : State) (c : Cur) (sh : Sheaf),
    Issues s c sh → Active c sh → InBudget c sh [rn d, rn a, rn b] →
    ∃ sh' t o, exec (divInstr op .lane d a b l) s = .next t ∧ Waits s t c sh sh' o l.toNat ∧ o.trap = none ∧
      LanesAwait (exm c sh) sh' (rn d) (fun i => divide op (rdV s c sh i (rn a)) (rdV s c sh i (rn b)))
        (fun i => rdVP s c sh i (rn a) || rdVP s c sh i (rn b)) ∧
      OtherLanes (exm c sh) [rn d] sh sh'

/-- R194 in group scope. -/
def Sys2Proof.Claim.DivisionGroups : Prop :=
  ∀ (op : DivOp) (d a b : BitVec 7) (l : BitVec 4) (s : State) (c : Cur) (sh : Sheaf), Issues s c sh → Active c sh →
    ∃ sh' t o, exec (divInstr op .group d a b l) s = .next t ∧ Waits s t c sh sh' o l.toNat ∧ o.trap = none ∧
      GroupAwaits sh' (rn d) (divide op (rdG s c sh (rn a)) (rdG s c sh (rn b)), rdGP s c sh (rn a) || rdGP s c sh (rn b)) ∧
      OtherGroups [rn d] sh sh'

/-- R194: division truncates towards zero, the remainder has the dividend's sign, a zero divisor gives all ones and the dividend, and the
most negative number over −1 gives itself and 0. -/
def Sys2Proof.Claim.DivisionTable : Prop :=
  ∀ (a b : Word),
    (b = 0#32 → divide .div a b = BitVec.allOnes 32 ∧ divide .divu a b = BitVec.allOnes 32 ∧
      divide .rem a b = a ∧ divide .remu a b = a) ∧
    (b ≠ 0#32 → (divide .divu a b).toNat = a.toNat / b.toNat ∧ (divide .remu a b).toNat = a.toNat % b.toNat ∧
      (divide .rem a b).toInt = Int.tmod a.toInt b.toInt ∧
      (¬(a = 0x80000000#32 ∧ b = 0xFFFFFFFF#32) → (divide .div a b).toInt = Int.tdiv a.toInt b.toInt)) ∧
    (divide .div 0x80000000#32 0xFFFFFFFF#32 = 0x80000000#32 ∧ divide .rem 0x80000000#32 0xFFFFFFFF#32 = 0#32)

/-- ALU and ALU2 on lanes and in group scope: result, poison, tag form and frame. -/
def Obligations.IntegerArithmetic : Prop := IntegerLanes ∧ IntegerGroups

/-- What a lane reads under each tag, and the tag of a result changes no value. -/
def Obligations.LaneTags : Prop := TagForms ∧ TagSound

/-- DIV, DIVU, REM and REMU: what waits to be written. -/
def Obligations.Divisions : Prop := DivisionLanes ∧ DivisionGroups

/-! ## Floating formats as numbers (R64 to R70, R74) -/

namespace Sys2Proof.Claim

/-- A floating format of Table 3.2: width, mantissa bits, bias, the magnitude code of its largest finite value, its canonical NaN, and
whether it has infinities. -/
structure Row where
  w : Nat
  man : Nat
  bias : Nat
  top : Nat
  nan : Nat
  infs : Bool

/-- The formats of Tables 3.1 and 3.2 by code; 12 and the rest are FP64. -/
def rowOf : Nat → Row
  | 0 => ⟨32, 23, 127, 0x7F7FFFFF, 0x7FC00000, true⟩
  | 1 => ⟨16, 10, 15, 0x7BFF, 0x7E00, true⟩
  | 2 => ⟨16, 7, 127, 0x7F7F, 0x7FC0, true⟩
  | 3 => ⟨8, 3, 7, 0x7E, 0x7F, false⟩
  | 4 => ⟨8, 2, 15, 0x7B, 0x7E, true⟩
  | 5 => ⟨4, 1, 1, 7, 0, false⟩
  | _ => ⟨64, 52, 1023, 0x7FEFFFFFFFFFFFFF, 0x7FF8000000000000, true⟩

/-- The model's names of these formats. -/
def formatOf : Nat → Fmt
  | 0 => fp32 | 1 => fp16 | 2 => bf16 | 3 => e4m3 | 4 => e5m2 | 5 => e2m1 | _ => fp64

/-- The codes of the floating formats (Table 3.1). -/
def floatCodes : List Nat := [0, 1, 2, 3, 4, 5, 12]

/-- A floating datum as a number: a finite one has a sign beside it, for zeros. -/
inductive Num where
  | nan
  | inf (neg : Bool)
  | fin (neg : Bool) (q : ℚ)

/-- The number whose magnitude is that of a finite code (R66). -/
def Row.mag (f : Row) (x : Nat) : ℚ :=
  let e := x % 2 ^ (f.w - 1) / 2 ^ f.man
  let m := x % 2 ^ f.man
  if e = 0 then (m : ℚ) * 2 ^ (1 - (f.bias : Int) - f.man) else ((2 ^ f.man + m : Nat) : ℚ) * 2 ^ ((e : Int) - f.bias - f.man)

/-- What a code stands for (R66, Table 3.2). -/
def Row.num (f : Row) (x : Nat) : Num :=
  let neg := decide (2 ^ (f.w - 1) ≤ x)
  let mag := x % 2 ^ (f.w - 1)
  if mag ≤ f.top then .fin neg (if neg then -f.mag x else f.mag x)
  else if f.infs && mag == f.top + 1 then .inf neg else .nan

/-- −v. -/
def Num.neg : Num → Num
  | .nan => .nan
  | .inf s => .inf (!s)
  | .fin s q => .fin (!s) (-q)

/-- The exact product (R74). -/
def Num.mul : Num → Num → Num
  | .fin s q, .fin t r => .fin (s != t) (q * r)
  | .inf s, .inf t => .inf (s != t)
  | .inf s, .fin t r => if r = 0 then .nan else .inf (s != t)
  | .fin s q, .inf t => if q = 0 then .nan else .inf (s != t)
  | _, _ => .nan

/-- The exact sum: a zero sum is −0 only of operands that are all −0 (R67, R74). -/
def Num.add : Num → Num → Num
  | .fin s q, .fin t r => .fin (if q + r = 0 then s && t else decide (q + r < 0)) (q + r)
  | .inf s, .inf t => if s = t then .inf s else .nan
  | .inf s, .fin _ _ => .inf s
  | .fin _ _, .inf t => .inf t
  | _, _ => .nan

/-- One number lies below another: −∞ < every finite value < +∞ (R223). -/
def Num.lt : Num → Num → Prop
  | .fin _ q, .fin _ r => q < r
  | .inf s, .inf t => s = true ∧ t = false
  | .inf s, .fin _ _ => s = true
  | .fin _ _, .inf t => t = false
  | _, _ => False

/-- Two numbers are equal: −0 equals +0 (R223). -/
def Num.same : Num → Num → Prop
  | .fin _ q, .fin _ r => q = r
  | .inf s, .inf t => s = t
  | _, _ => False

/-- A number is NaN. -/
def Num.isNan : Num → Prop
  | .nan => True
  | _ => False

/-- n units u are a magnitude p rounded under a mode, in a number of a sign (R68). -/
def RoundsMag (mode : Nat) (neg : Bool) (p u : ℚ) (n : Nat) : Prop :=
  let down := n * u ≤ p ∧ p < (n + 1) * u
  let up := p ≤ n * u ∧ n * u < p + u
  match mode with
  | 0 => |n * u - p| ≤ u / 2 ∧ (|n * u - p| = u / 2 → n % 2 = 0)
  | 1 => down
  | 2 => if neg then up else down
  | _ => if neg then down else up

/-- The code of an overflow, or of an infinite source (Tables 3.4 and 3.5): the largest finite value where the mode or `sat` gives it or
the format has nothing above it. -/
def Row.beyond (f : Row) (neg toMax : Bool) : Nat :=
  let s := if neg then 2 ^ (f.w - 1) else 0
  if toMax || f.nan == 0 then s + f.top else if f.infs then s + (f.top + 1) else f.nan

/-- Code r is a number rounded once to a format under a mode (R67 to R70): u = 2^k is the last place of the number's binade, or of the
subnormals, and n units of it are the rounded magnitude, which overflows where it exceeds the largest finite one. -/
def Row.Rounds (f : Row) (mode : Nat) (sat : Bool) (v : Num) (r : Nat) : Prop :=
  match v with
  | .nan => r = f.nan
  | .inf neg => r = f.beyond neg sat
  | .fin neg q =>
    ∃ (k : Int) (n : Nat), 1 - (f.bias : Int) - f.man ≤ k ∧ |q| < 2 ^ (f.man + 1) * (2 : ℚ) ^ k ∧
      (k = 1 - (f.bias : Int) - f.man ∨ 2 ^ f.man * (2 : ℚ) ^ k ≤ |q|) ∧ RoundsMag mode neg |q| ((2 : ℚ) ^ k) n ∧
      if n * (2 : ℚ) ^ k ≤ f.mag f.top then
        r < 2 ^ f.w ∧ r % 2 ^ (f.w - 1) ≤ f.top ∧ f.mag r = n * (2 : ℚ) ^ k ∧ (2 ^ (f.w - 1) ≤ r ↔ neg = true)
      else r = f.beyond neg (sat || mode == 1 || (mode == 2 && !neg) || (mode == 3 && neg))

/-- The integer formats of Table 3.1: signed or not, and their width. -/
def intRow : Nat → Bool × Nat
  | 6 => (true, 32) | 7 => (false, 32) | 8 => (true, 16) | 9 => (true, 8) | 10 => (false, 8) | _ => (true, 4)

/-- The number that the low bits of a register hold in an integer format. -/
def intRead (t x : Nat) : Int := if (intRow t).1 then (BitVec.ofNat (intRow t).2 x).toInt else (x % 2 ^ (intRow t).2 : Nat)

/-- The 32 bits that CVT writes of the low bits of a number (R65). -/
def intWrite (t : Nat) (n : Int) : Nat :=
  if (intRow t).1 then ((BitVec.ofInt (intRow t).2 n).signExtend 32).toNat else (BitVec.ofInt (intRow t).2 n).toNat

/-- The range of an integer format. -/
def intRange (t : Nat) : Int × Int :=
  let w := (intRow t).2
  if (intRow t).1 then (-2 ^ (w - 1), 2 ^ (w - 1) - 1) else (0, 2 ^ w - 1)

/-- A number clamped to the range of an integer format. -/
def intClamp (t : Nat) (n : Int) : Int := if n < (intRange t).1 then (intRange t).1 else if (intRange t).2 < n then (intRange t).2 else n

/-- The indefinite value (R70). -/
def indefinite (t : Nat) : Int := if (intRow t).1 then (intRange t).1 else (intRange t).2

/-- What the source of a CVT holds, in a floating or integer format or as an E8M0 scale. -/
def cvtNum (u x : Nat) : Num :=
  if u ∈ floatCodes then (rowOf u).num (x % 2 ^ (rowOf u).w)
  else if u = 13 then (if x % 256 = 255 then .nan else .fin false ((2 : ℚ) ^ ((x % 256 : Nat) - (127 : Int))))
  else .fin (decide (intRead u x < 0)) (intRead u x)

/-- A floating result of CVT from a number, as an integer (R70, Table 3.5). -/
def ToInteger (t mode : Nat) (sat : Bool) (v : Num) (r : Nat) : Prop :=
  match v with
  | .nan => r = if sat then 0 else intWrite t (indefinite t)
  | .inf neg => r = intWrite t (if sat then (if neg then (intRange t).1 else (intRange t).2) else indefinite t)
  | .fin neg q =>
    ∃ n : Nat, RoundsMag mode neg |q| 1 n ∧
      let i : Int := if neg then -(n : Int) else n
      r = intWrite t (if (intRange t).1 ≤ i ∧ i ≤ (intRange t).2 then i else if sat then intClamp t i else indefinite t)

/-- A scale from a number (R70, Table 3.5): 2^p is its magnitude rounded to a power of two. -/
def ToScale (mode : Nat) (sat : Bool) (v : Num) (r : Nat) : Prop :=
  match v with
  | .nan => r = 255
  | .inf _ => r = if sat then 254 else 255
  | .fin _ q =>
    (q = 0 → r = 0) ∧
    ∀ k : Int, (2 : ℚ) ^ k ≤ |q| → |q| < (2 : ℚ) ^ (k + 1) →
      let up : Prop := (mode = 0 ∧ 3 * (2 : ℚ) ^ k ≤ 2 * |q|) ∨ (mode = 3 ∧ |q| ≠ (2 : ℚ) ^ k)
      ∃ p : Int, (up → p = k + 1) ∧ (¬up → p = k) ∧
        r = if p < -127 then 0 else if 127 < p then (if sat then 254 else 255) else (p + 127).toNat

/-- The number of an exact value of the model. -/
def valNum : Val → Num
  | .nan => .nan
  | .inf s => .inf s
  | .fin s m e => .fin s (if s then -((m : ℚ) * 2 ^ e) else (m : ℚ) * 2 ^ e)

end Sys2Proof.Claim

/-- Table 9.4: each floating condition code holds when the table says, of the numbers that the codes stand for. -/
def Sys2Proof.Claim.FloatConditions : Prop :=
  ∀ (a b : Word),
    let x := (rowOf 0).num a.toNat
    let y := (rowOf 0).num b.toNat
    let un : Prop := x.isNan ∨ y.isNan
    (floatCond 0 a b = true ↔ x.same y) ∧ (floatCond 1 a b = true ↔ ¬x.same y) ∧ (floatCond 2 a b = true ↔ x.lt y) ∧
    (floatCond 3 a b = true ↔ y.lt x ∨ x.same y) ∧ (floatCond 4 a b = true ↔ x.lt y ∨ x.same y) ∧ (floatCond 5 a b = true ↔ y.lt x) ∧
    (floatCond 6 a b = true ↔ x.lt y ∨ un) ∧ (floatCond 7 a b = true ↔ y.lt x ∨ x.same y ∨ un) ∧
    (floatCond 8 a b = true ↔ x.lt y ∨ x.same y ∨ un) ∧ (floatCond 9 a b = true ↔ y.lt x ∨ un) ∧
    (floatCond 10 a b = true ↔ un) ∧ (floatCond 11 a b = true ↔ ¬un)

/-- R66 to R69, R74 and Table 9.2: what a code stands for, and each function of FALU, HALU and DALU as one rounding, to nearest with ties
to even, of the exact result on those numbers; FMIN and FMAX give the source that is the lower or the higher one, −0 below +0. -/
def Sys2Proof.Claim.FloatTable : Prop :=
  (∀ c, c ∈ floatCodes →
    (∀ x : Nat, x < 2 ^ (rowOf c).w → valNum (fdec (formatOf c) x) = (rowOf c).num x) ∧
    (∀ v : Val, (rowOf c).Rounds 0 false (valNum v) (fround (formatOf c) v))) ∧
  (∀ c, c ∈ [0, 1, 2, 12] → ∀ (a b d : Nat), a < 2 ^ (rowOf c).w → b < 2 ^ (rowOf c).w → d < 2 ^ (rowOf c).w →
    let f := formatOf c
    let x := (rowOf c).num a
    let y := (rowOf c).num b
    let z := (rowOf c).num d
    let gives := fun (op : FOp) (v : Num) => (rowOf c).Rounds 0 false v (fop f op a b d)
    gives .add (x.add y) ∧ gives .sub (x.add y.neg) ∧ gives .mul (x.mul y) ∧ gives .fma ((x.mul y).add z) ∧
    gives .fms (z.add (x.mul y).neg) ∧
    (x.isNan ∨ y.isNan → fop f .min a b d = (rowOf c).nan ∧ fop f .max a b d = (rowOf c).nan) ∧
    (¬(x.isNan ∨ y.isNan) →
      (x.lt y → fop f .min a b d = a ∧ fop f .max a b d = b) ∧ (y.lt x → fop f .min a b d = b ∧ fop f .max a b d = a) ∧
      (x.same y → 2 ^ ((rowOf c).w - 1) ≤ a → fop f .min a b d = a ∧ fop f .max a b d = b) ∧
      (x.same y → a < 2 ^ ((rowOf c).w - 1) → fop f .min a b d = b ∧ fop f .max a b d = a)))

/-- R65 and R68 to R70: CVT between any two formats of Table 3.1 in every mode, with saturation and without, and the conditions it
meets (R224). -/
def Sys2Proof.Claim.CvtTable : Prop :=
  ∀ (u mode x : Nat) (sat : Bool), u ≤ 13 → mode ≤ 3 →
    let v := cvtNum u x
    let isInt : Prop := 6 ≤ u ∧ u ≤ 11
    let bad : Prop := match v with
      | .fin _ _ => False
      | _ => True
    (∀ t, t ∈ floatCodes →
      let r := cvt t u mode sat x
      (rowOf t).Rounds mode sat v r.val ∧ (r.nfin = true ↔ bad) ∧
      (r.nfout = true ↔ ¬bad ∧ (rowOf t).top < r.val % 2 ^ ((rowOf t).w - 1))) ∧
    (∀ t, 6 ≤ t → t ≤ 11 →
      let r := cvt t u mode sat x
      (isInt → r.val = intWrite t (if sat then intClamp t (intRead u x) else intRead u x)) ∧
      (¬isInt → ToInteger t mode sat v r.val) ∧ (r.nfin = true ↔ bad) ∧ r.nfout = false) ∧
    (let r := cvt 13 u mode sat x
     ToScale mode sat v r.val ∧ (r.nfin = true ↔ bad) ∧ (r.nfout = true ↔ ¬bad ∧ r.val = 255))

/-! ## Compares, moves and masks (R195 to R199, R223) -/

namespace Sys2Proof.Claim

/-- An FP32 code is NaN or infinite: its exponent field is all ones (R67). -/
def nonFinite (x : Word) : Bool := x.toNat / 2 ^ 23 % 256 == 255

/-- A sheaf with the SEEN bits of conditions met (R79). -/
def sees (sh : Sheaf) (inp out : Bool) : Sheaf := { sh with seenin := sh.seenin || inp, seenout := sh.seenout || out }

/-- Some active lane satisfies p. -/
def someLane (m : Mask) (p : Nat → Bool) : Bool := (List.range 32).any (fun i => bit m i && p i)

/-- What a compare leaves in gD (R196): the active lanes' bits replaced, the others and their poison kept. -/
def CompareHolds (s : State) (c : Cur) (sh sh' : Sheaf) (d : BitVec 7) (cond : Nat → Bool) (poison : Bool) : Prop :=
  let old := groupView (salt s 0) c.ctl sh (rn d)
  ∃ x, GroupHolds sh' (rn d) x (poison || (old.2 && exm c sh != Mask.full)) ∧
    ∀ i, i < 32 → bit x i = if bit (exm c sh) i then cond i else bit old.1 i

/-- The lane moves that compute a value of each lane's own sources (Table 8.6). -/
inductive LaneMove where
  | mov | sel | pack2 | pack4 | unpk

/-- Their instructions. -/
def LaneMove.instr : LaneMove → BitVec 7 → BitVec 7 → BitVec 7 → Instr
  | .mov, d, a, _ => .mov .lane d a
  | .sel, d, a, b => .sel d a b
  | .pack2, d, a, b => .pack2 d a b
  | .pack4, d, a, b => .pack4 d a b
  | .unpk, d, a, b => .unpk d a b

/-- The register that stands in for B. -/
def LaneMove.second : LaneMove → BitVec 7 → BitVec 7 → BitVec 7
  | .mov, a, _ => a
  | _, _, b => b

/-- They read the old destination. -/
def LaneMove.readsD : LaneMove → Bool
  | .sel => true
  | .pack4 => true
  | _ => false

/-- Byte or halfword k of a word, extended as UNPK's control asks. -/
def piece (x : Word) (width k : Nat) (signed : Bool) : Word :=
  let v : Nat := x.toNat / 2 ^ (width * k) % 2 ^ width
  if signed && decide (2 ^ (width - 1) ≤ v) then BitVec.ofNat 32 (v + 2 ^ 32 - 2 ^ width) else BitVec.ofNat 32 v

/-- Their results (Table 8.6), from a, b and the old d. -/
def LaneMove.result (f : LaneMove) (x y z : Word) : Word :=
  match f with
  | .mov => x
  | .sel => (x &&& z) ||| (y &&& ~~~z)
  | .pack2 => BitVec.ofNat 32 (y.toNat % 2 ^ 16 * 2 ^ 16 + x.toNat % 2 ^ 16)
  | .pack4 => BitVec.ofNat 32 (y.toNat % 2 ^ 8 * 2 ^ 24 + x.toNat % 2 ^ 8 * 2 ^ 16 + z.toNat / 2 ^ 16)
  | .unpk =>
    if y.getLsbD 2 then piece x 16 (y.toNat % 2) (y.getLsbD 3) else piece x 8 (y.toNat % 4) (y.getLsbD 3)

/-- The lowest active lane. -/
def IsFirst (m : Mask) (l : Nat) : Prop := l < 32 ∧ bit m l = true ∧ ∀ i, i < l → bit m i = false

/-- Set bits below position k of a mask. -/
def bitsBelow (x : Word) (k : Nat) : Nat := ((List.range k).filter (fun i => x.getLsbD i)).length

end Sys2Proof.Claim

/-- Table 8.4: each integer condition code holds when the table says. -/
def Sys2Proof.Claim.IntegerConditions : Prop :=
  ∀ (a b : Word),
    (intCond 0 a b = true ↔ a.toNat = b.toNat) ∧ (intCond 1 a b = true ↔ a.toNat ≠ b.toNat) ∧
    (intCond 2 a b = true ↔ a.toInt < b.toInt) ∧ (intCond 3 a b = true ↔ a.toInt ≥ b.toInt) ∧
    (intCond 4 a b = true ↔ a.toInt ≤ b.toInt) ∧ (intCond 5 a b = true ↔ a.toInt > b.toInt) ∧
    (intCond 6 a b = true ↔ a.toNat < b.toNat) ∧ (intCond 7 a b = true ↔ a.toNat ≥ b.toNat) ∧
    (intCond 8 a b = true ↔ a.toNat ≤ b.toNat) ∧ (intCond 9 a b = true ↔ a.toNat > b.toNat) ∧
    (intCond 10 a b = true ↔ ∃ i, i < 32 ∧ a.getLsbD i = true ∧ b.getLsbD i = true) ∧
    (intCond 11 a b = true ↔ ∀ i, i < 32 → ¬(a.getLsbD i = true ∧ b.getLsbD i = true))

/-- R196 for CMP and CMPI, on lanes and in group scope. -/
def Sys2Proof.Claim.Compares : Prop :=
  ∀ (k : BitVec 4) (x : BitVec 7) (d a b : BitVec 7) (s : State) (c : Cur) (sh : Sheaf), Issues s c sh → Active c sh →
    (InBudget c sh [rn a, rn b] →
      ∃ sh' t, exec (.cmp .lane d a b k) s = .next t ∧ MovesOn s t c sh' ∧ GroupFrame [rn d] sh sh' ∧
        CompareHolds s c sh sh' d (fun i => intCond k.toNat (rdV s c sh i (rn a)) (rdV s c sh i (rn b)))
          (someLane (exm c sh) (fun i => rdVP s c sh i (rn a) || rdVP s c sh i (rn b)))) ∧
    (InBudget c sh [rn a] →
      ∃ sh' t, exec (.cmpi .lane d a k x) s = .next t ∧ MovesOn s t c sh' ∧ GroupFrame [rn d] sh sh' ∧
        CompareHolds s c sh sh' d (fun i => intCond k.toNat (rdV s c sh i (rn a)) (x.signExtend 32))
          (someLane (exm c sh) (fun i => rdVP s c sh i (rn a)))) ∧
    (∃ sh' t, exec (.cmp .group d a b k) s = .next t ∧ MovesOn s t c sh' ∧ GroupFrame [rn d] sh sh' ∧
        CompareHolds s c sh sh' d (fun _ => intCond k.toNat (rdG s c sh (rn a)) (rdG s c sh (rn b)))
          (rdGP s c sh (rn a) || rdGP s c sh (rn b))) ∧
    (∃ sh' t, exec (.cmpi .group d a k x) s = .next t ∧ MovesOn s t c sh' ∧ GroupFrame [rn d] sh sh' ∧
        CompareHolds s c sh sh' d (fun _ => intCond k.toNat (rdG s c sh (rn a)) (x.signExtend 32)) (rdGP s c sh (rn a)))

/-- R223: FCMP writes its bits and notes NF-IN where no enabled condition is met. -/
def Sys2Proof.Claim.FloatCompares : Prop :=
  ∀ (k : BitVec 4) (d a b : BitVec 7) (s : State) (c : Cur) (sh : Sheaf), Issues s c sh → Active c sh →
    (InBudget c sh [rn a, rn b] →
      let met := someLane (exm c sh) (fun i => nonFinite (rdV s c sh i (rn a)) || nonFinite (rdV s c sh i (rn b)))
      (src c sh).nfin = false ∨ met = false →
      ∃ sh' t, exec (.fcmp .lane d a b k) s = .next t ∧ MovesOn s t c sh' ∧ GroupFrame [rn d] (sees sh met false) sh' ∧
        CompareHolds s c sh sh' d (fun i => floatCond k.toNat (rdV s c sh i (rn a)) (rdV s c sh i (rn b)))
          (someLane (exm c sh) (fun i => rdVP s c sh i (rn a) || rdVP s c sh i (rn b)))) ∧
    (let met := nonFinite (rdG s c sh (rn a)) || nonFinite (rdG s c sh (rn b))
     (src c sh).nfin = false ∨ met = false →
      ∃ sh' t, exec (.fcmp .group d a b k) s = .next t ∧ MovesOn s t c sh' ∧ GroupFrame [rn d] (sees sh met false) sh' ∧
        CompareHolds s c sh sh' d (fun _ => floatCond k.toNat (rdG s c sh (rn a)) (rdG s c sh (rn b)))
          (rdGP s c sh (rn a) || rdGP s c sh (rn b)))

/-- R198 and R49 on lanes: MOV, SEL, PACK2, PACK4, UNPK, MOVGV and LANEID write vD; GEN changes no value and no poison bit, and leaves
every register that an active lane's window names in tag G. -/
def Sys2Proof.Claim.LaneMoves : Prop :=
  ∀ (f : LaneMove) (d a b : BitVec 7) (s : State) (c : Cur) (sh : Sheaf), Issues s c sh → Active c sh →
    (InBudget c sh [rn d, rn a, rn (f.second a b)] →
      ∃ sh' t, exec (f.instr d a b) s = .next t ∧ MovesOn s t c sh' ∧ LaneFrame (exm c sh) [rn d] sh sh' ∧
        LanesHold (exm c sh) sh' (rn d)
          (fun i => f.result (rdV s c sh i (rn a)) (rdV s c sh i (rn (f.second a b))) (rdV s c sh i (rn d)))
          (fun i => rdVP s c sh i (rn a) || rdVP s c sh i (rn (f.second a b)) || (f.readsD && rdVP s c sh i (rn d)))) ∧
    (InBudget c sh [rn d] →
      (∃ sh' t, exec (.movgv d a) s = .next t ∧ MovesOn s t c sh' ∧ LaneFrame (exm c sh) [rn d] sh sh' ∧
        LanesHold (exm c sh) sh' (rn d) (fun _ => rdG s c sh (rn a)) (fun _ => rdGP s c sh (rn a))) ∧
      (∃ sh' t, exec (.laneid d) s = .next t ∧ MovesOn s t c sh' ∧ LaneFrame (exm c sh) [rn d] sh sh' ∧
        LanesHold (exm c sh) sh' (rn d) (fun i => BitVec.ofNat 32 i) (fun _ => false)) ∧
      (∃ sh' t, exec (.gen d) s = .next t ∧ MovesOn s t c sh' ∧ LaneFrame (exm c sh) [rn d] sh sh' ∧
        LanesHold (exm c sh) sh' (rn d) (fun i => rdV s c sh i (rn d)) (fun i => rdVP s c sh i (rn d)) ∧
        ∀ i, i < 32 → bit (exm c sh) i = true → formCode (vreg sh' (phys sh i (rn d))).form = 2))

/-- R197 to R199 and R49 in group scope: MOV, MPOP, MFFS, MFLS, MNTH, MOVJ, MOVVG and TAG write gD. -/
def Sys2Proof.Claim.GroupMoves : Prop :=
  ∀ (d a b : BitVec 7) (k : BitVec 4) (e : BitVec 1) (s : State) (c : Cur) (sh : Sheaf), Issues s c sh → Active c sh →
    let x := rdG s c sh (rn a)
    let n := rdG s c sh (rn b)
    (∃ sh' t, exec (.mov .group d a) s = .next t ∧ MovesOn s t c sh' ∧ GroupFrame [rn d] sh sh' ∧
      GroupHolds sh' (rn d) x (rdGP s c sh (rn a))) ∧
    (∃ sh' t, exec (.mpop d a) s = .next t ∧ MovesOn s t c sh' ∧ GroupFrame [rn d] sh sh' ∧
      GroupHolds sh' (rn d) (BitVec.ofNat 32 (bitsBelow x 32)) (rdGP s c sh (rn a))) ∧
    (∃ sh' t r, exec (.mffs d a) s = .next t ∧ MovesOn s t c sh' ∧ GroupFrame [rn d] sh sh' ∧
      GroupHolds sh' (rn d) (BitVec.ofNat 32 r) (rdGP s c sh (rn a)) ∧
      r ≤ 32 ∧ (∀ i, i < r → x.getLsbD i = false) ∧ (r < 32 → x.getLsbD r = true)) ∧
    (∃ sh' t r, exec (.mfls d a) s = .next t ∧ MovesOn s t c sh' ∧ GroupFrame [rn d] sh sh' ∧
      GroupHolds sh' (rn d) (BitVec.ofNat 32 r) (rdGP s c sh (rn a)) ∧
      (r = 32 ∧ x = 0#32 ∨ r < 32 ∧ x.getLsbD r = true ∧ ∀ i, r < i → x.getLsbD i = false)) ∧
    (∃ sh' t r, exec (.mnth d a b) s = .next t ∧ MovesOn s t c sh' ∧ GroupFrame [rn d] sh sh' ∧
      GroupHolds sh' (rn d) (BitVec.ofNat 32 r) (rdGP s c sh (rn a) || rdGP s c sh (rn b)) ∧
      (r = 32 ∧ bitsBelow x 32 ≤ n.toNat ∨ r < 32 ∧ x.getLsbD r = true ∧ bitsBelow x r = n.toNat)) ∧
    (∃ sh' t, exec (.movj d k e) s = .next t ∧ MovesOn s t c sh' ∧ GroupFrame [rn d] sh sh' ∧
      GroupHolds sh' (rn d) (if e = 0#1 then mget (src c sh).je k.toNat 0#32 else mget (src c sh).ja k.toNat 0#32) false) ∧
    (∀ l, IsFirst (exm c sh) l → inBudget (src c sh) l (rn a) = true →
      (∃ sh' t, exec (.movvg d a) s = .next t ∧ MovesOn s t c sh' ∧ GroupFrame [rn d] sh sh' ∧
        GroupHolds sh' (rn d) (rdV s c sh l (rn a)) (rdVP s c sh l (rn a))) ∧
      (∃ sh' t r, exec (.tag d a) s = .next t ∧ MovesOn s t c sh' ∧ GroupFrame [rn d] sh sh' ∧
        GroupHolds sh' (rn d) (BitVec.ofNat 32 r) false ∧
        let p := phys (src c sh) l (rn a)
        (r = formCode (vreg (src c sh) p).form ∨ pendingOn (src c sh) p = true ∧ r = 2)))

/-- The integer functions, divisions and conditions as numbers. -/
def Obligations.IntegerTables : Prop := AluTable ∧ DivisionTable ∧ IntegerConditions

/-- CMP, CMPI and FCMP write the active bits of a group register; the floating conditions as numbers. -/
def Obligations.ComparesAndMasks : Prop := Compares ∧ FloatCompares ∧ FloatConditions

/-! ## Floating point on lanes and groups (chapter 9) -/

namespace Sys2Proof.Claim

/-- The instructions of class A whose results the non-finite conditions test (Table 3.9): FALU, and HALU on pairs of halves. -/
inductive Tested where
  | fadd | fsub | fmul | ffma | ffms | fmin | fmax
  | hadd2 | hsub2 | hmul2 | hfma2 | hmin2 | hmax2 | badd2 | bmul2 | bfma2

/-- Their lane instructions. -/
def Tested.instr : Tested → BitVec 7 → BitVec 7 → BitVec 7 → Instr
  | .fadd, d, a, b => .fadd .lane d a b
  | .fsub, d, a, b => .fsub .lane d a b
  | .fmul, d, a, b => .fmul .lane d a b
  | .ffma, d, a, b => .ffma .lane d a b
  | .ffms, d, a, b => .ffms .lane d a b
  | .fmin, d, a, b => .fmin .lane d a b
  | .fmax, d, a, b => .fmax .lane d a b
  | .hadd2, d, a, b => .hadd2 d a b
  | .hsub2, d, a, b => .hsub2 d a b
  | .hmul2, d, a, b => .hmul2 d a b
  | .hfma2, d, a, b => .hfma2 d a b
  | .hmin2, d, a, b => .hmin2 d a b
  | .hmax2, d, a, b => .hmax2 d a b
  | .badd2, d, a, b => .badd2 d a b
  | .bmul2, d, a, b => .bmul2 d a b
  | .bfma2, d, a, b => .bfma2 d a b

/-- The function each computes (R221, R225). -/
def Tested.op : Tested → FOp
  | .fadd => .add | .fsub => .sub | .fmul => .mul | .ffma => .fma | .ffms => .fms | .fmin => .min | .fmax => .max
  | .hadd2 => .add | .hsub2 => .sub | .hmul2 => .mul | .hfma2 => .fma | .hmin2 => .min | .hmax2 => .max
  | .badd2 => .add | .bmul2 => .mul | .bfma2 => .fma

/-- The number format of its elements. -/
def Tested.format : Tested → Fmt
  | .hadd2 => fp16 | .hsub2 => fp16 | .hmul2 => fp16 | .hfma2 => fp16 | .hmin2 => fp16 | .hmax2 => fp16
  | .badd2 => bf16 | .bmul2 => bf16 | .bfma2 => bf16
  | _ => fp32

/-- It works on the two 16-bit halves of each lane. -/
def Tested.packed : Tested → Bool
  | .fadd => false | .fsub => false | .fmul => false | .ffma => false | .ffms => false | .fmin => false | .fmax => false
  | _ => true

/-- It reads the old destination. -/
def Tested.readsD (f : Tested) : Bool := f.op.readsD

/-- Its result from a, b and the old d: each element rounded once (R221, R225). -/
def Tested.result (f : Tested) (a b d : Word) : Word :=
  if f.packed then
    BitVec.ofNat 32 (fop f.format f.op (a.toNat % 2 ^ 16) (b.toNat % 2 ^ 16) (d.toNat % 2 ^ 16) +
      2 ^ 16 * fop f.format f.op (a.toNat / 2 ^ 16) (b.toNat / 2 ^ 16) (d.toNat / 2 ^ 16))
  else BitVec.ofNat 32 (fop fp32 f.op a.toNat b.toNat d.toNat)

/-- An element of a source or a result is NaN or infinite (R67, R78). -/
def badElement (f : Fmt) (x : Nat) : Bool := (fdec f x).nonfinite

/-- NF-IN of one element's operands (R78). -/
def badIn (f : Fmt) (readsD : Bool) (a b d : Nat) : Bool := badElement f a || badElement f b || (readsD && badElement f d)

/-- NF-IN of a lane: in either half for a packed form (R78). -/
def Tested.inp (f : Tested) (a b d : Word) : Bool :=
  if f.packed then
    badIn f.format f.readsD (a.toNat % 2 ^ 16) (b.toNat % 2 ^ 16) (d.toNat % 2 ^ 16) ||
      badIn f.format f.readsD (a.toNat / 2 ^ 16) (b.toNat / 2 ^ 16) (d.toNat / 2 ^ 16)
  else badIn fp32 f.readsD a.toNat b.toNat d.toNat

/-- NF-OUT of one element: finite sources and a result that is not finite (R78). -/
def badOut (f : Fmt) (op : FOp) (a b d : Nat) : Bool := !badIn f op.readsD a b d && badElement f (fop f op a b d)

/-- NF-OUT of a lane. -/
def Tested.out (f : Tested) (a b d : Word) : Bool :=
  if f.packed then
    badOut f.format f.op (a.toNat % 2 ^ 16) (b.toNat % 2 ^ 16) (d.toNat % 2 ^ 16) ||
      badOut f.format f.op (a.toNat / 2 ^ 16) (b.toNat / 2 ^ 16) (d.toNat / 2 ^ 16)
  else badOut fp32 f.op a.toNat b.toNat d.toNat

/-- No enabled condition is met (R79), by the enables of a sheaf: those before the issue's picks (R80). -/
def NoTrap (sh : Sheaf) (inp out : Bool) : Prop := ¬(sh.nfin = true ∧ inp = true) ∧ ¬(sh.nfout = true ∧ out = true)

/-- The mask of the active lanes that satisfy p. -/
def activeMask (m : Mask) (p : Nat → Bool) : Mask := maskOf (fun i => bit m i && p i)

/-- The FALU functions that test nothing (R221, R222), on either scope. -/
inductive BitForm where
  | fabs | fneg | fcpys | fclass

/-- Their instructions. -/
def BitForm.instr : BitForm → Scope → BitVec 7 → BitVec 7 → BitVec 7 → Instr
  | .fabs, sc, d, a, _ => .fabs sc d a
  | .fneg, sc, d, a, _ => .fneg sc d a
  | .fcpys, sc, d, a, b => .fcpys sc d a b
  | .fclass, sc, d, a, _ => .fclass sc d a

/-- The register that stands in for B. -/
def BitForm.second : BitForm → BitVec 7 → BitVec 7 → BitVec 7
  | .fcpys, _, b => b
  | _, a, _ => a

/-- The class word of Table 9.3, from the sign, exponent and fraction fields. -/
def classBits (x : Word) : Nat :=
  let sign := x.toNat / 2 ^ 31
  let e := x.toNat / 2 ^ 23 % 256
  let fr := x.toNat % 2 ^ 23
  if e = 255 ∧ fr ≠ 0 then 256
  else if e = 255 then (if sign = 1 then 1 else 128)
  else if e = 0 ∧ fr = 0 then (if sign = 1 then 8 else 16)
  else if e = 0 then (if sign = 1 then 4 else 32)
  else if sign = 1 then 2 else 64

/-- Their results. -/
def BitForm.result (f : BitForm) (x y : Word) : Word :=
  match f with
  | .fabs => BitVec.ofNat 32 (x.toNat % 2 ^ 31)
  | .fneg => x + 0x80000000#32
  | .fcpys => BitVec.ofNat 32 (x.toNat % 2 ^ 31 + y.toNat / 2 ^ 31 * 2 ^ 31)
  | .fclass => BitVec.ofNat 32 (classBits x)

/-- The registers of a CVT operand: a pair for FP64 (R43). -/
def pairOf (n : BitVec 7) (code : BitVec 4) : List Nat := if code = 12#4 then [rn n, rn n + 1] else [rn n]

/-- CVT of the value in a register, or in a pair for FP64 (R224). -/
def convert (t u : BitVec 4) (r : BitVec 2) (x : BitVec 1) (lo hi : Word) : CvtResult :=
  cvt t.toNat u.toNat r.toNat (x == 1#1) (if u = 12#4 then (hi ++ lo).toNat else lo.toNat)

/-- The group instruction of a FALU function. -/
def faluGroup : FOp → BitVec 7 → BitVec 7 → BitVec 7 → Instr
  | .add, d, a, b => .fadd .group d a b
  | .sub, d, a, b => .fsub .group d a b
  | .mul, d, a, b => .fmul .group d a b
  | .fma, d, a, b => .ffma .group d a b
  | .fms, d, a, b => .ffms .group d a b
  | .min, d, a, b => .fmin .group d a b
  | .max, d, a, b => .fmax .group d a b

end Sys2Proof.Claim

/-- R221 and R225 on lanes: where no enabled condition is met, each active lane takes the function's result, rounded once per element,
and the SEEN bits note the conditions met (R78, R79). -/
def Sys2Proof.Claim.FloatLanes : Prop :=
  ∀ (f : Tested) (d a b : BitVec 7) (s : State) (c : Cur) (sh : Sheaf),
    Issues s c sh → Active c sh → InBudget c sh [rn d, rn a, rn b] →
    let x := fun i => rdV s c sh i (rn a)
    let y := fun i => rdV s c sh i (rn b)
    let z := fun i => rdV s c sh i (rn d)
    let inp := someLane (exm c sh) (fun i => f.inp (x i) (y i) (z i))
    let out := someLane (exm c sh) (fun i => f.out (x i) (y i) (z i))
    NoTrap (src c sh) inp out →
    ∃ sh' t, exec (f.instr d a b) s = .next t ∧ MovesOn s t c sh' ∧ LaneFrame (exm c sh) [rn d] (sees sh inp out) sh' ∧
      LanesHold (exm c sh) sh' (rn d) (fun i => f.result (x i) (y i) (z i))
        (fun i => rdVP s c sh i (rn a) || rdVP s c sh i (rn b) || (f.readsD && rdVP s c sh i (rn d)))

/-- R221 in group scope. -/
def Sys2Proof.Claim.FloatGroups : Prop :=
  ∀ (op : FOp) (d a b : BitVec 7) (s : State) (c : Cur) (sh : Sheaf), Issues s c sh → Active c sh →
    let x := (rdG s c sh (rn a)).toNat
    let y := (rdG s c sh (rn b)).toNat
    let z := (rdG s c sh (rn d)).toNat
    let inp := badIn fp32 op.readsD x y z
    let out := badOut fp32 op x y z
    NoTrap (src c sh) inp out →
    ∃ sh' t, exec (faluGroup op d a b) s = .next t ∧ MovesOn s t c sh' ∧ GroupFrame [rn d] (sees sh inp out) sh' ∧
      GroupHolds sh' (rn d) (BitVec.ofNat 32 (fop fp32 op x y z))
        (rdGP s c sh (rn a) || rdGP s c sh (rn b) || (op.readsD && rdGP s c sh (rn d)))

/-- R79 and R220: where an enabled condition is met, an instruction of class A raises the FP non-finite trap with the masks of both
conditions, at its own address, on lanes and in group scope; FCMP tests NF-IN alone, and CVT both. -/
def Sys2Proof.Claim.FloatTraps : Prop :=
  ∀ (f : Tested) (op : FOp) (k tc uc : BitVec 4) (rm : BitVec 2) (e : BitVec 1) (d a b : BitVec 7) (s : State) (c : Cur) (sh : Sheaf),
    Issues s c sh → Active c sh →
    let x := fun i => rdV s c sh i (rn a)
    let y := fun i => rdV s c sh i (rn b)
    let z := fun i => rdV s c sh i (rn d)
    let m := exm c sh
    let inp := fun i => f.inp (x i) (y i) (z i)
    let out := fun i => f.out (x i) (y i) (z i)
    let bad := fun i => nonFinite (x i) || nonFinite (y i)
    let p := (rdG s c sh (rn a)).toNat
    let q := (rdG s c sh (rn b)).toNat
    let r := (rdG s c sh (rn d)).toNat
    (InBudget c sh [rn d, rn a, rn b] → ¬NoTrap (src c sh) (someLane m inp) (someLane m out) →
      exec (f.instr d a b) s =
        trap s c sh { cause := 7, lanes := activeMask m inp, lanes2 := activeMask m out, detail := 0#32, addr := 0#64 }) ∧
    (¬NoTrap (src c sh) (badIn fp32 op.readsD p q r) (badOut fp32 op p q r) →
      exec (faluGroup op d a b) s =
        trap s c sh { cause := 7, lanes := if badIn fp32 op.readsD p q r then m else 0#32,
                      lanes2 := if badOut fp32 op p q r then m else 0#32, detail := 0#32, addr := 0#64 }) ∧
    (InBudget c sh [rn a, rn b] → (src c sh).nfin = true → someLane m bad = true →
      exec (.fcmp .lane d a b k) s =
        trap s c sh { cause := 7, lanes := activeMask m bad, lanes2 := 0#32, detail := 0#32, addr := 0#64 }) ∧
    ((src c sh).nfin = true → nonFinite (rdG s c sh (rn a)) || nonFinite (rdG s c sh (rn b)) →
      exec (.fcmp .group d a b k) s = trap s c sh { cause := 7, lanes := m, lanes2 := 0#32, detail := 0#32, addr := 0#64 }) ∧
    (let v := fun i => convert tc uc rm e (rdV s c sh i (rn a)) (rdV s c sh i (rn a + 1))
     InBudget c sh (pairOf d tc ++ pairOf a uc) →
      ¬NoTrap (src c sh) (someLane m (fun i => (v i).nfin)) (someLane m (fun i => (v i).nfout)) →
      exec (.cvt .lane d a tc uc rm e) s =
        trap s c sh { cause := 7, lanes := activeMask m (fun i => (v i).nfin), lanes2 := activeMask m (fun i => (v i).nfout),
                      detail := 0#32, addr := 0#64 }) ∧
    (let v := convert tc uc rm e (rdG s c sh (rn a)) (rdG s c sh (rn a + 1))
     ¬NoTrap (src c sh) v.nfin v.nfout →
      exec (.cvt .group d a tc uc rm e) s =
        trap s c sh { cause := 7, lanes := if v.nfin then m else 0#32, lanes2 := if v.nfout then m else 0#32,
                      detail := 0#32, addr := 0#64 })

/-- R221 and R222: FABS, FNEG, FCPYS and FCLASS work on the bits of the value and test nothing, on lanes and in group scope. -/
def Sys2Proof.Claim.FloatBits : Prop :=
  ∀ (f : BitForm) (d a b : BitVec 7) (s : State) (c : Cur) (sh : Sheaf), Issues s c sh → Active c sh →
    (InBudget c sh [rn d, rn a, rn (f.second a b)] →
      ∃ sh' t, exec (f.instr .lane d a b) s = .next t ∧ MovesOn s t c sh' ∧ LaneFrame (exm c sh) [rn d] sh sh' ∧
        LanesHold (exm c sh) sh' (rn d) (fun i => f.result (rdV s c sh i (rn a)) (rdV s c sh i (rn (f.second a b))))
          (fun i => rdVP s c sh i (rn a) || rdVP s c sh i (rn (f.second a b)))) ∧
    (∃ sh' t, exec (f.instr .group d a b) s = .next t ∧ MovesOn s t c sh' ∧ GroupFrame [rn d] sh sh' ∧
      GroupHolds sh' (rn d) (f.result (rdG s c sh (rn a)) (rdG s c sh (rn (f.second a b))))
        (rdGP s c sh (rn a) || rdGP s c sh (rn (f.second a b))))

/-- R224: CVT on lanes and in group scope; FP64 sources and results take a pair of registers (R43), and no enabled condition is met. -/
def Sys2Proof.Claim.CvtForms : Prop :=
  ∀ (d a : BitVec 7) (t u : BitVec 4) (r : BitVec 2) (x : BitVec 1) (s : State) (c : Cur) (sh : Sheaf),
    Issues s c sh → Active c sh → Instr.wf (.cvt .lane d a t u r x) = true →
    let v := fun i => convert t u r x (rdV s c sh i (rn a)) (rdV s c sh i (rn a + 1))
    let w := convert t u r x (rdG s c sh (rn a)) (rdG s c sh (rn a + 1))
    let inp := someLane (exm c sh) (fun i => (v i).nfin)
    let out := someLane (exm c sh) (fun i => (v i).nfout)
    let q := fun i => (pairOf a u).any (fun n => rdVP s c sh i n)
    (InBudget c sh (pairOf d t ++ pairOf a u) → NoTrap (src c sh) inp out →
      ∃ sh' s', exec (.cvt .lane d a t u r x) s = .next s' ∧ MovesOn s s' c sh' ∧
        LaneFrame (exm c sh) (pairOf d t) (sees sh inp out) sh' ∧
        LanesHold (exm c sh) sh' (rn d) (fun i => BitVec.ofNat 32 (v i).val) q ∧
        (t = 12#4 → LanesHold (exm c sh) sh' (rn d + 1) (fun i => BitVec.ofNat 32 ((v i).val / 2 ^ 32)) q)) ∧
    (NoTrap (src c sh) w.nfin w.nfout →
      ∃ sh' s', exec (.cvt .group d a t u r x) s = .next s' ∧ MovesOn s s' c sh' ∧
        GroupFrame (pairOf d t) (sees sh w.nfin w.nfout) sh' ∧
        GroupHolds sh' (rn d) (BitVec.ofNat 32 w.val) ((pairOf a u).any (rdGP s c sh)) ∧
        (t = 12#4 → GroupHolds sh' (rn d + 1) (BitVec.ofNat 32 (w.val / 2 ^ 32)) ((pairOf a u).any (rdGP s c sh))))

/-- CVT: its results and conditions as numbers, and its forms. -/
def Obligations.Conversions : Prop := CvtForms ∧ CvtTable

/-- FALU and HALU: results rounded once, SEEN bits, frame; the functions as numbers. -/
def Obligations.FloatArithmetic : Prop := FloatLanes ∧ FloatGroups ∧ FloatTable

/-- Enabled non-finite conditions trap; the bit functions test nothing. -/
def Obligations.FloatBitsAndTraps : Prop := FloatTraps ∧ FloatBits

/-! ## Long-latency arithmetic on lanes (R226 to R228) -/

namespace Sys2Proof.Claim

/-- A condition of the active lanes, as the masks of a trap record (R79). -/
def nfLate (inp out : Mask) : LateTrap := { cause := 7, lanes := inp, lanes2 := out, detail := 0#32, addr := 0#64 }

/-- What a tested instruction with late results carries (R79, R220): the SEEN bits it will set, and the trap it will raise where an
enabled condition is met. -/
structure Carries (sh : Sheaf) (o : LongOp) (inp out : Mask) : Prop where
  seenIn : o.seenIn = (inp != 0#32)
  seenOut : o.seenOut = (out != 0#32)
  tested : o.tested = true
  trap : o.trap = if (sh.nfin = true ∧ inp ≠ 0#32) ∨ (sh.nfout = true ∧ out ≠ 0#32) then some (nfLate inp out) else none

/-- The instruction of a DALU function (R226); DALU has no FFMS. -/
def daluInstr : FOp → BitVec 7 → BitVec 7 → BitVec 7 → Instr
  | .sub, d, a, b => .dsub d a b
  | .mul, d, a, b => .dmul d a b
  | .fma, d, a, b => .dfma d a b
  | .min, d, a, b => .dmin d a b
  | .max, d, a, b => .dmax d a b
  | _, d, a, b => .dadd d a b

/-- The functions of the SFU (R227). -/
inductive SfuForm where
  | ex2 | lg2 | rcp | rsq | sqrt | sin | cos | tanh | ex2h

/-- Their instructions. -/
def SfuForm.instr : SfuForm → BitVec 7 → BitVec 7 → Instr
  | .ex2, d, a => .ex2 d a
  | .lg2, d, a => .lg2 d a
  | .rcp, d, a => .rcp d a
  | .rsq, d, a => .rsq d a
  | .sqrt, d, a => .sqrt d a
  | .sin, d, a => .sin d a
  | .cos, d, a => .cos d a
  | .tanh, d, a => .tanh d a
  | .ex2h, d, a => .ex2h d a

/-- Their function codes (R227). -/
def SfuForm.code : SfuForm → Nat
  | .ex2 => 0 | .lg2 => 1 | .rcp => 2 | .rsq => 3 | .sqrt => 4 | .sin => 5 | .cos => 6 | .tanh => 7 | .ex2h => 8

/-- Their results: two FP16 halves for EX2H, an FP32 value for the others (R227). -/
def SfuForm.result (f : SfuForm) (x : Word) : Word :=
  match f with
  | .ex2h => BitVec.ofNat 32 (ex2hHalf (x.toNat % 2 ^ 16) + 2 ^ 16 * ex2hHalf (x.toNat / 2 ^ 16))
  | _ => BitVec.ofNat 32 (sfu32 f.code x.toNat)

/-- NF-IN and NF-OUT of one lane (R227). -/
def SfuForm.inp (f : SfuForm) (x : Word) : Bool :=
  match f with
  | .ex2h => badElement fp16 (x.toNat % 2 ^ 16) || badElement fp16 (x.toNat / 2 ^ 16)
  | _ => badElement fp32 x.toNat

/-- NF-OUT. -/
def SfuForm.out (f : SfuForm) (x : Word) : Bool :=
  match f with
  | .ex2h =>
    (!badElement fp16 (x.toNat % 2 ^ 16) && badElement fp16 (ex2hHalf (x.toNat % 2 ^ 16))) ||
      (!badElement fp16 (x.toNat / 2 ^ 16) && badElement fp16 (ex2hHalf (x.toNat / 2 ^ 16)))
  | _ => !badElement fp32 x.toNat && badElement fp32 (sfu32 f.code x.toNat)

/-- The floating forms of DOT: element format and elements in a word (Table 9.7). -/
inductive DotForm where
  | dp2h | dp4q | dp4qe

/-- Their instructions. -/
def DotForm.instr : DotForm → BitVec 7 → BitVec 7 → BitVec 7 → Instr
  | .dp2h, d, a, b => .dp2h d a b
  | .dp4q, d, a, b => .dp4q d a b
  | .dp4qe, d, a, b => .dp4qe d a b

/-- Element formats. -/
def DotForm.format : DotForm → Fmt
  | .dp2h => fp16 | .dp4q => e4m3 | .dp4qe => e5m2

/-- Elements in a word. -/
def DotForm.count : DotForm → Nat
  | .dp2h => 2 | .dp4q => 4 | .dp4qe => 4

/-- Element k of a word of elements of w bits. -/
def elem (w : Nat) (x : Word) (k : Nat) : Nat := x.toNat / 2 ^ (w * k) % 2 ^ w

/-- The accumulator and the exact sum of the products, rounded once to FP32 (R72, R228). -/
def DotForm.result (f : DotForm) (a b d : Word) : Word :=
  BitVec.ofNat 32 (fround fp32 ((fdec fp32 d.toNat).add (sumVals ((List.range f.count).map (fun k =>
    (fdec f.format (elem f.format.width a k)).mul (fdec f.format (elem f.format.width b k)))))))

/-- NF-IN: the accumulator or any element (R228). -/
def DotForm.inp (f : DotForm) (a b d : Word) : Bool :=
  badElement fp32 d.toNat || (List.range f.count).any (fun k =>
    badElement f.format (elem f.format.width a k) || badElement f.format (elem f.format.width b k))

/-- NF-OUT. -/
def DotForm.out (f : DotForm) (a b d : Word) : Bool := !f.inp a b d && badElement fp32 (f.result a b d).toNat

/-- Element k of a word of four bytes, signed or unsigned. -/
def byteInt (signed : Bool) (x : Word) (k : Nat) : Int :=
  let v := x.toNat / 2 ^ (8 * k) % 256
  if signed && decide (128 ≤ v) then (v : Int) - 256 else v

/-- DP4A and DP4AU: the accumulator and four products, modulo 2^32 (R73, R228). -/
def dotBytes (signed : Bool) (a b d : Word) : Word :=
  BitVec.ofInt 32 (d.toNat + byteInt signed a 0 * byteInt signed b 0 + byteInt signed a 1 * byteInt signed b 1 +
    byteInt signed a 2 * byteInt signed b 2 + byteInt signed a 3 * byteInt signed b 3)

end Sys2Proof.Claim

/-- R226: a DALU function on the pairs of every active lane; both registers of the destination wait to be written, or the trap is
carried and no lane changes (R79). -/
def Sys2Proof.Claim.DoubleLanes : Prop :=
  ∀ (op : FOp) (d a b : BitVec 7) (s : State) (c : Cur) (sh : Sheaf), op ≠ .fms → d.toNat % 2 = 0 →
    Issues s c sh → Active c sh → InBudget c sh [rn d, rn d + 1, rn a, rn a + 1, rn b, rn b + 1] →
    let x := fun i => (rdV64 s c sh i (rn a)).toNat
    let y := fun i => (rdV64 s c sh i (rn b)).toNat
    let z := fun i => (rdV64 s c sh i (rn d)).toNat
    let v := fun i => fop fp64 op (x i) (y i) (z i)
    let q := fun i => [rn a, rn a + 1, rn b, rn b + 1].any (fun n => rdVP s c sh i n) ||
      (op.readsD && (rdVP s c sh i (rn d) || rdVP s c sh i (rn d + 1)))
    ∃ sh' t o, exec (daluInstr op d a b) s = .next t ∧ Waits s t c sh sh' o 0 ∧
      Carries (src c sh) o (activeMask (exm c sh) (fun i => badIn fp64 op.readsD (x i) (y i) (z i)))
        (activeMask (exm c sh) (fun i => badOut fp64 op (x i) (y i) (z i))) ∧
      (o.trap = none → LanesAwait (exm c sh) sh' (rn d) (fun i => BitVec.ofNat 32 (v i)) q ∧
        LanesAwait (exm c sh) sh' (rn d + 1) (fun i => BitVec.ofNat 32 (v i / 2 ^ 32)) q ∧
        OtherLanes (exm c sh) [rn d, rn d + 1] sh sh') ∧
      (o.trap ≠ none → OtherLanes 0#32 [] sh sh')

/-- R227: an SFU function on every active lane. -/
def Sys2Proof.Claim.SpecialLanes : Prop :=
  ∀ (f : SfuForm) (d a : BitVec 7) (s : State) (c : Cur) (sh : Sheaf),
    Issues s c sh → Active c sh → InBudget c sh [rn d, rn a] →
    let x := fun i => rdV s c sh i (rn a)
    ∃ sh' t o, exec (f.instr d a) s = .next t ∧ Waits s t c sh sh' o 0 ∧
      Carries (src c sh) o (activeMask (exm c sh) (fun i => f.inp (x i))) (activeMask (exm c sh) (fun i => f.out (x i))) ∧
      (o.trap = none → LanesAwait (exm c sh) sh' (rn d) (fun i => f.result (x i)) (fun i => rdVP s c sh i (rn a)) ∧
        OtherLanes (exm c sh) [rn d] sh sh') ∧
      (o.trap ≠ none → OtherLanes 0#32 [] sh sh')

/-- R228: the dot products; DP4A and DP4AU wrap and never trap, the floating forms round once. -/
def Sys2Proof.Claim.DotLanes : Prop :=
  ∀ (f : DotForm) (d a b : BitVec 7) (s : State) (c : Cur) (sh : Sheaf),
    Issues s c sh → Active c sh → InBudget c sh [rn d, rn a, rn b] →
    let x := fun i => rdV s c sh i (rn a)
    let y := fun i => rdV s c sh i (rn b)
    let z := fun i => rdV s c sh i (rn d)
    let q := fun i => rdVP s c sh i (rn a) || rdVP s c sh i (rn b) || rdVP s c sh i (rn d)
    (∃ sh' t o, exec (.dp4a d a b) s = .next t ∧ Waits s t c sh sh' o 0 ∧ o.trap = none ∧
      LanesAwait (exm c sh) sh' (rn d) (fun i => dotBytes true (x i) (y i) (z i)) q ∧ OtherLanes (exm c sh) [rn d] sh sh') ∧
    (∃ sh' t o, exec (.dp4au d a b) s = .next t ∧ Waits s t c sh sh' o 0 ∧ o.trap = none ∧
      LanesAwait (exm c sh) sh' (rn d) (fun i => dotBytes false (x i) (y i) (z i)) q ∧ OtherLanes (exm c sh) [rn d] sh sh') ∧
    (∃ sh' t o, exec (f.instr d a b) s = .next t ∧ Waits s t c sh sh' o 0 ∧
      Carries (src c sh) o (activeMask (exm c sh) (fun i => f.inp (x i) (y i) (z i))) (activeMask (exm c sh) (fun i => f.out (x i) (y i) (z i))) ∧
      (o.trap = none → LanesAwait (exm c sh) sh' (rn d) (fun i => f.result (x i) (y i) (z i)) q ∧
        OtherLanes (exm c sh) [rn d] sh sh') ∧
      (o.trap ≠ none → OtherLanes 0#32 [] sh sh'))

/-- R75 and R76: the special values of Table 3.8, EX2 of whole numbers, and its ends. -/
def Sys2Proof.Claim.SpecialValues : Prop :=
  (∀ f : SfuForm, f ≠ .ex2h → f.result 0x7FC00000#32 = 0x7FC00000#32) ∧
  (SfuForm.ex2.result 0xFF800000#32 = 0#32 ∧ SfuForm.ex2.result 0#32 = 0x3F800000#32 ∧ SfuForm.ex2.result 0x80000000#32 = 0x3F800000#32 ∧
    SfuForm.ex2.result 0x7F800000#32 = 0x7F800000#32) ∧
  (SfuForm.lg2.result 0xFF800000#32 = 0x7FC00000#32 ∧ SfuForm.lg2.result 0#32 = 0xFF800000#32 ∧
    SfuForm.lg2.result 0x80000000#32 = 0xFF800000#32 ∧ SfuForm.lg2.result 0x7F800000#32 = 0x7F800000#32) ∧
  (SfuForm.rcp.result 0xFF800000#32 = 0x80000000#32 ∧ SfuForm.rcp.result 0#32 = 0x7F800000#32 ∧
    SfuForm.rcp.result 0x80000000#32 = 0xFF800000#32 ∧ SfuForm.rcp.result 0x7F800000#32 = 0#32) ∧
  (SfuForm.rsq.result 0xFF800000#32 = 0x7FC00000#32 ∧ SfuForm.rsq.result 0#32 = 0x7F800000#32 ∧
    SfuForm.rsq.result 0x80000000#32 = 0xFF800000#32 ∧ SfuForm.rsq.result 0x7F800000#32 = 0#32) ∧
  (SfuForm.sqrt.result 0xFF800000#32 = 0x7FC00000#32 ∧ SfuForm.sqrt.result 0#32 = 0#32 ∧
    SfuForm.sqrt.result 0x80000000#32 = 0x80000000#32 ∧ SfuForm.sqrt.result 0x7F800000#32 = 0x7F800000#32) ∧
  (SfuForm.sin.result 0xFF800000#32 = 0x7FC00000#32 ∧ SfuForm.sin.result 0#32 = 0#32 ∧
    SfuForm.sin.result 0x80000000#32 = 0x80000000#32 ∧ SfuForm.sin.result 0x7F800000#32 = 0x7FC00000#32) ∧
  (SfuForm.cos.result 0xFF800000#32 = 0x7FC00000#32 ∧ SfuForm.cos.result 0#32 = 0x3F800000#32 ∧
    SfuForm.cos.result 0x80000000#32 = 0x3F800000#32 ∧ SfuForm.cos.result 0x7F800000#32 = 0x7FC00000#32) ∧
  (SfuForm.tanh.result 0xFF800000#32 = 0xBF800000#32 ∧ SfuForm.tanh.result 0#32 = 0#32 ∧
    SfuForm.tanh.result 0x80000000#32 = 0x80000000#32 ∧ SfuForm.tanh.result 0x7F800000#32 = 0x3F800000#32) ∧
  (∀ n : Nat, n < 127 → SfuForm.ex2.result (BitVec.ofNat 32 (fround fp32 (.fin false (n + 1) 0))) = BitVec.ofNat 32 ((n + 128) * 2 ^ 23)) ∧
  SfuForm.ex2.result 0x43000000#32 = 0x7F800000#32 ∧ SfuForm.ex2.result 0xC3160000#32 = 0#32


/-- R76 whole: EX2 of a whole number in [−149, 127] is that power of two, an input at or below −150 gives +0, one of 128 or more gives
+∞ and meets NF-OUT; EX2H does the same on each half with FP16's range. -/
def Sys2Proof.Claim.WholeExponents : Prop :=
  (∀ n : Int, -149 ≤ n → n ≤ 127 →
    (fdec fp32 (SfuForm.ex2.result (BitVec.ofNat 32 (fround fp32 (ofInt n)))).toNat).cmp (.fin false 1 n) = .eq) ∧
  (∀ x : Word, (fdec fp32 x.toNat).isNan = false → (fdec fp32 x.toNat).cmp (ofInt (-150)) ≠ .gt → SfuForm.ex2.result x = 0#32) ∧
  (∀ x : Word, (fdec fp32 x.toNat).isNan = false → (fdec fp32 x.toNat).cmp (ofInt 128) ≠ .lt →
    SfuForm.ex2.result x = 0x7F800000#32 ∧ ((fdec fp32 x.toNat).nonfinite = false → SfuForm.ex2.out x = true)) ∧
  (∀ n : Int, -24 ≤ n → n ≤ 15 → (fdec fp16 (ex2hHalf (fround fp16 (ofInt n)))).cmp (.fin false 1 n) = .eq) ∧
  (∀ x : BitVec 16, (fdec fp16 x.toNat).isNan = false → (fdec fp16 x.toNat).cmp (ofInt (-25)) ≠ .gt → ex2hHalf x.toNat = 0) ∧
  (∀ x : BitVec 16, (fdec fp16 x.toNat).isNan = false → (fdec fp16 x.toNat).cmp (ofInt 16) ≠ .lt → ex2hHalf x.toNat = 0x7C00) ∧
  (∀ x : Word, ((!badElement fp16 (x.toNat % 2 ^ 16) && decide (ex2hHalf (x.toNat % 2 ^ 16) = 0x7C00)) ||
      (!badElement fp16 (x.toNat / 2 ^ 16) && decide (ex2hHalf (x.toNat / 2 ^ 16) = 0x7C00))) = true → SfuForm.ex2h.out x = true)

/-- DALU, SFU and DOT: results that wait to be written, or a carried trap. -/
def Obligations.LongFloat : Prop := DoubleLanes ∧ SpecialLanes ∧ DotLanes

/-- EX2 and EX2H of whole numbers and beyond their ranges, with the special values of Table 3.8. -/
def Obligations.SpecialFunctionValues : Prop := SpecialValues ∧ WholeExponents

/-! ## Cross-lane instructions and selection (R229 to R237) -/

namespace Sys2Proof.Claim

/-- The cross-lane reads (Table 9.8). -/
inductive CrossForm where
  | shfl | shflx | shflup | shfldn | bcast

/-- Their instructions. -/
def CrossForm.instr : CrossForm → BitVec 7 → BitVec 7 → BitVec 7 → Instr
  | .shfl, d, a, b => .shfl d a b
  | .shflx, d, a, b => .shflx d a b
  | .shflup, d, a, b => .shflup d a b
  | .shfldn, d, a, b => .shfldn d a b
  | .bcast, d, a, b => .bcast d a b

/-- The lane whose vB chooses for lane i: the lowest active lane for BCAST. -/
def CrossForm.chooser (f : CrossForm) (first i : Nat) : Nat :=
  match f with
  | .bcast => first
  | _ => i

/-- The lane of vA that lane i reads, from its chooser's value (Table 9.8). -/
def CrossForm.source (f : CrossForm) (i : Nat) (v : Word) : Nat :=
  match f with
  | .shfl => v.toNat % 32
  | .shflx => Nat.xor i (v.toNat % 32)
  | .shflup => if i < v.toNat % 64 then i else i - v.toNat % 64
  | .shfldn => if 31 < i + v.toNat % 64 then i else i + v.toNat % 64
  | .bcast => v.toNat % 32

/-- The reductions and scans (Table 9.9). -/
inductive RedForm where
  | redadd | redfadd | redmin | redmax | redfmin | redfmax | redand | redor | scanadd | scanfadd

/-- Their instructions. -/
def RedForm.instr : RedForm → BitVec 7 → BitVec 7 → Instr
  | .redadd, d, a => .redadd d a
  | .redfadd, d, a => .redfadd d a
  | .redmin, d, a => .redmin d a
  | .redmax, d, a => .redmax d a
  | .redfmin, d, a => .redfmin d a
  | .redfmax, d, a => .redfmax d a
  | .redand, d, a => .redand d a
  | .redor, d, a => .redor d a
  | .scanadd, d, a => .scanadd d a
  | .scanfadd, d, a => .scanfadd d a

/-- A scan combines the active lanes up to the result lane alone. -/
def RedForm.scan : RedForm → Bool
  | .scanadd => true
  | .scanfadd => true
  | _ => false

/-- The forms whose conditions are tested (R232). -/
def RedForm.tested : RedForm → Bool
  | .redfadd => true
  | .redfmin => true
  | .redfmax => true
  | .scanfadd => true
  | _ => false

/-- A function folded over words, from the first. -/
def foldWords (f : Word → Word → Word) : List Word → Word
  | [] => 0#32
  | x :: r => r.foldl f x

/-- The combined value of some lanes' values (Table 9.9): floating sums are exact and rounded once. -/
def RedForm.result (f : RedForm) (xs : List Word) : Word :=
  match f with
  | .redadd | .scanadd => BitVec.ofNat 32 (xs.map (fun x => x.toNat)).sum
  | .redfadd | .scanfadd => BitVec.ofNat 32 (fround fp32 (sumVals (xs.map (fun x => fdec fp32 x.toNat))))
  | .redmin => foldWords (fun x y => if x.toInt ≤ y.toInt then x else y) xs
  | .redmax => foldWords (fun x y => if x.toInt ≤ y.toInt then y else x) xs
  | .redfmin => foldWords (fun x y => BitVec.ofNat 32 (fminCode fp32 x.toNat y.toNat)) xs
  | .redfmax => foldWords (fun x y => BitVec.ofNat 32 (fmaxCode fp32 x.toNat y.toNat)) xs
  | .redand => foldWords (fun x y => x &&& y) xs
  | .redor => foldWords (fun x y => x ||| y) xs

/-- The active lanes that enter lane i's result. -/
def RedForm.entering (f : RedForm) (m : Mask) (i : Nat) : List Nat :=
  (List.range 32).filter (fun j => bit m j && (!f.scan || decide (j ≤ i)))

/-- The lane of the largest or smallest value (R234). -/
inductive ArgForm where
  | argmax | argmin | fargmax | fargmin

/-- Their instructions. -/
def ArgForm.instr : ArgForm → BitVec 7 → BitVec 7 → Instr
  | .argmax, d, a => .argmax d a
  | .argmin, d, a => .argmin d a
  | .fargmax, d, a => .fargmax d a
  | .fargmin, d, a => .fargmin d a

/-- Lane j's value is better than lane l's (R234): a NaN is worse than every number. -/
def ArgForm.better (f : ArgForm) (x y : Word) : Bool :=
  match f with
  | .argmax => decide (y.toInt < x.toInt)
  | .argmin => decide (x.toInt < y.toInt)
  | .fargmax => !(fdec fp32 x.toNat).isNan && ((fdec fp32 y.toNat).isNan || (fdec fp32 y.toNat).cmp (fdec fp32 x.toNat) == .lt)
  | .fargmin => !(fdec fp32 x.toNat).isNan && ((fdec fp32 y.toNat).isNan || (fdec fp32 x.toNat).cmp (fdec fp32 y.toNat) == .lt)

/-- The floating forms test NF-IN. -/
def ArgForm.float : ArgForm → Bool
  | .fargmax => true
  | .fargmin => true
  | _ => false

/-- A list sorted in the selection order, equal entries in source order (R233). -/
def SortedFrom (source es : List Entry) : Prop :=
  es.Pairwise (fun x y => y.before x = false) ∧
    ∀ k p, es.filter (fun e => keyRank e.key == k && e.payload == p) = source.filter (fun e => keyRank e.key == k && e.payload == p)

/-- The entries that some lanes hold in the pair vN, vN+1: key, payload and the payload's poison. -/
def pairEntries (s : State) (c : Cur) (sh : Sheaf) (ls : List Nat) (n : Nat) : List Entry :=
  ls.map (fun i => { key := rdV s c sh i n, payload := rdV s c sh i (n + 1), poison := rdVP s c sh i (n + 1) })

/-- The active lanes, rising. -/
def activeLanes (m : Mask) : List Nat := (List.range 32).filter (fun i => bit m i)

/-- The place of a lane among the active lanes. -/
def place (m : Mask) (i : Nat) : Nat := ((List.range i).filter (fun j => bit m j)).length

/-- The active lanes hold entries in a pair; `all` poisons every lane of both registers (R237). -/
def EntriesHold (m : Mask) (sh : Sheaf) (n : Nat) (e : Nat → Entry) (all : Bool) : Prop :=
  LanesHold m sh n (fun i => (e i).key) (fun _ => all) ∧
    LanesHold m sh (n + 1) (fun i => (e i).payload) (fun i => all || (e i).poison)

/-- The fill of TOPK: key +∞, payload all ones, no poison (R235, R237). -/
def fill : Entry := { key := 0x7F800000#32, payload := 0xFFFFFFFF#32, poison := false }

end Sys2Proof.Claim

/-- R230: each active lane takes the lane of vA that its chooser names, poisoned as that lane or as the value that chose it; all lanes
are read before any is written. -/
def Sys2Proof.Claim.CrossLaneReads : Prop :=
  ∀ (f : CrossForm) (d a b : BitVec 7) (s : State) (c : Cur) (sh : Sheaf) (l : Nat),
    Issues s c sh → IsFirst (exm c sh) l →
    let who := f.chooser l
    let from' := fun i => f.source i (rdV s c sh (who i) (rn b))
    (∀ i, i < 32 → bit (exm c sh) i = true → inBudget (src c sh) i (rn d) = true ∧
      inBudget (src c sh) (who i) (rn b) = true ∧ inBudget (src c sh) (from' i) (rn a) = true) →
    ∃ sh' t, exec (f.instr d a b) s = .next t ∧ MovesOn s t c sh' ∧ LaneFrame (exm c sh) [rn d] sh sh' ∧
      LanesHold (exm c sh) sh' (rn d) (fun i => rdV s c sh (from' i) (rn a))
        (fun i => rdVP s c sh (from' i) (rn a) || rdVP s c sh (who i) (rn b))

/-- R231 and R232: every active lane takes the combination of all active values, or of those up to itself; where an enabled condition is
met the instruction traps instead. -/
def Sys2Proof.Claim.Reductions : Prop :=
  ∀ (f : RedForm) (d a : BitVec 7) (s : State) (c : Cur) (sh : Sheaf),
    Issues s c sh → Active c sh → InBudget c sh [rn d, rn a] →
    let m := exm c sh
    let xs := fun i => (f.entering m i).map (fun j => rdV s c sh j (rn a))
    let inp := fun i => f.tested && (xs i).any nonFinite
    let out := fun i => f.tested && !(xs i).any nonFinite && nonFinite (f.result (xs i))
    (NoTrap (src c sh) (someLane m inp) (someLane m out) →
      ∃ sh' t, exec (f.instr d a) s = .next t ∧ MovesOn s t c sh' ∧
        LaneFrame m [rn d] (sees sh (someLane m inp) (someLane m out)) sh' ∧
        LanesHold m sh' (rn d) (fun i => f.result (xs i)) (fun i => (f.entering m i).any (fun j => rdVP s c sh j (rn a)))) ∧
    (¬NoTrap (src c sh) (someLane m inp) (someLane m out) →
      exec (f.instr d a) s = trap s c sh (nfLate (activeMask m inp) (activeMask m out)))

/-- R234: every active lane takes the number of the first lane that no active lane betters. -/
def Sys2Proof.Claim.ArgLanes : Prop :=
  ∀ (f : ArgForm) (d a : BitVec 7) (s : State) (c : Cur) (sh : Sheaf),
    Issues s c sh → Active c sh → InBudget c sh [rn d, rn a] →
    let m := exm c sh
    let x := fun i => rdV s c sh i (rn a)
    let met := f.float && someLane m (fun i => nonFinite (x i))
    (NoTrap (src c sh) met false →
      ∃ sh' t l, exec (f.instr d a) s = .next t ∧ MovesOn s t c sh' ∧ LaneFrame m [rn d] (sees sh met false) sh' ∧
        LanesHold m sh' (rn d) (fun _ => BitVec.ofNat 32 l) (fun _ => someLane m (fun i => rdVP s c sh i (rn a))) ∧
        l < 32 ∧ bit m l = true ∧
        ∀ j, j < 32 → bit m j = true → f.better (x j) (x l) = false ∧ (j < l → f.better (x l) (x j) = true)) ∧
    (¬NoTrap (src c sh) met false → exec (f.instr d a) s = trap s c sh (nfLate m 0#32))

/-- R233: the rank of a key puts the numbers in their order, the zeros together and every NaN last. -/
def Sys2Proof.Claim.KeyOrder : Prop :=
  ∀ (x y : Word),
    ((fdec fp32 x.toNat).isNan = false → (fdec fp32 y.toNat).isNan = false →
      (keyRank x < keyRank y ↔ (fdec fp32 x.toNat).cmp (fdec fp32 y.toNat) = .lt)) ∧
    ((fdec fp32 x.toNat).isNan = false → (fdec fp32 y.toNat).isNan = true → keyRank x < keyRank y) ∧
    ((fdec fp32 x.toNat).isNan = true → (fdec fp32 y.toNat).isNan = true → keyRank x = keyRank y)

/-- R235 to R237: SORT32, TOPK and MERGEK write the entries in the selection order. -/
def Sys2Proof.Claim.Selection : Prop :=
  ∀ (d a b : BitVec 7) (s : State) (c : Cur) (sh : Sheaf) (l : Nat), Issues s c sh → IsFirst (exm c sh) l →
    let m := exm c sh
    let keysBad := someLane m (fun i => rdVP s c sh i (rn a))
    (InBudget c sh [rn d, rn d + 1, rn a, rn a + 1] →
      (∃ sh' t es, exec (.sort32 d a) s = .next t ∧ MovesOn s t c sh' ∧ LaneFrame m [rn d, rn d + 1] sh sh' ∧
        SortedFrom (pairEntries s c sh (activeLanes m) (rn a)) es ∧
        EntriesHold m sh' (rn d) (fun i => es.getD (place m i) fill) keysBad) ∧
      (inBudget (src c sh) l (rn b) = true →
        ∃ sh' t es, exec (.topk d a b) s = .next t ∧ MovesOn s t c sh' ∧ LaneFrame m [rn d, rn d + 1] sh sh' ∧
          SortedFrom (pairEntries s c sh (activeLanes m) (rn a)) es ∧
          EntriesHold m sh' (rn d)
            (fun i => if place m i < (rdV s c sh l (rn b)).toNat then es.getD (place m i) fill else fill)
            (keysBad || rdVP s c sh l (rn b)))) ∧
    (InBudget c sh [rn d, rn d + 1, rn d + 2, rn d + 3] →
      (∀ i, i < 32 → ∀ n ∈ [rn a, rn a + 1, rn b, rn b + 1], inBudget (src c sh) i n = true) →
      ∃ sh' t es, exec (.mergek d a b) s = .next t ∧ MovesOn s t c sh' ∧
        LaneFrame m [rn d, rn d + 1, rn d + 2, rn d + 3] sh sh' ∧
        SortedFrom (pairEntries s c sh (List.range 32) (rn a) ++ pairEntries s c sh (List.range 32) (rn b)) es ∧
        let bad := (List.range 32).any (fun i => rdVP s c sh i (rn a) || rdVP s c sh i (rn b))
        EntriesHold m sh' (rn d) (fun i => es.getD i fill) bad ∧ EntriesHold m sh' (rn d + 2) (fun i => es.getD (32 + i) fill) bad)

/-- XLANE, RED and the arg functions. -/
def Obligations.CrossLane : Prop := CrossLaneReads ∧ Reductions ∧ ArgLanes

/-- The selection order; SORT32, TOPK and MERGEK. -/
def Obligations.SelectionOrder : Prop := KeyOrder ∧ Selection

/-- R229 to R237: every cross-lane and selection instruction completes, moves its threads on and writes nothing but its destination registers
in the active lanes, where every register it reads or writes lies in its threads' budgets and, for the forms that test their values, no
enabled condition is met. -/
def Sys2Proof.Claim.CrossLaneCompletes : Prop :=
  ∀ (d a b : BitVec 7) (s : State) (c : Cur) (sh : Sheaf) (l : Nat), Issues s c sh → IsFirst (exm c sh) l →
    let m := exm c sh
    let Done := fun (i : Instr) (n : Nat) => ∃ sh' t, exec i s = .next t ∧ MovesOn s t c sh' ∧
      (LaneFrame m ((List.range n).map (fun k => rn d + k)) sh sh' ∨
        ∃ inp out, LaneFrame m ((List.range n).map (fun k => rn d + k)) (sees sh inp out) sh')
    (∀ f : CrossForm,
      (∀ i, i < 32 → bit m i = true → inBudget (src c sh) i (rn d) = true ∧ inBudget (src c sh) (f.chooser l i) (rn b) = true ∧
        inBudget (src c sh) (f.source i (rdV s c sh (f.chooser l i) (rn b))) (rn a) = true) →
      match f with
      | .shfl => Done (.shfl d a b) 1
      | .shflx => Done (.shflx d a b) 1
      | .shflup => Done (.shflup d a b) 1
      | .shfldn => Done (.shfldn d a b) 1
      | .bcast => Done (.bcast d a b) 1) ∧
    (InBudget c sh [rn d, rn a] →
      Done (.redadd d a) 1 ∧ Done (.redmin d a) 1 ∧ Done (.redmax d a) 1 ∧ Done (.redand d a) 1 ∧ Done (.redor d a) 1 ∧
      Done (.scanadd d a) 1 ∧ Done (.argmax d a) 1 ∧ Done (.argmin d a) 1 ∧
      let bad := someLane m (fun i => nonFinite (rdV s c sh i (rn a)))
      (NoTrap (src c sh) bad false → Done (.fargmax d a) 1 ∧ Done (.fargmin d a) 1) ∧
      let meets := fun (f : RedForm) => someLane m (fun i =>
        let xs := (f.entering m i).map (fun j => rdV s c sh j (rn a))
        !xs.any nonFinite && nonFinite (f.result xs))
      (NoTrap (src c sh) bad (meets .redfadd) → Done (.redfadd d a) 1) ∧ (NoTrap (src c sh) bad (meets .redfmin) → Done (.redfmin d a) 1) ∧
      (NoTrap (src c sh) bad (meets .redfmax) → Done (.redfmax d a) 1) ∧ (NoTrap (src c sh) bad (meets .scanfadd) → Done (.scanfadd d a) 1)) ∧
    (InBudget c sh [rn d, rn d + 1, rn a, rn a + 1] →
      Done (.sort32 d a) 2 ∧ (inBudget (src c sh) l (rn b) = true → Done (.topk d a b) 2)) ∧
    (InBudget c sh [rn d, rn d + 1, rn d + 2, rn d + 3] →
      (∀ i, i < 32 → ∀ n ∈ [rn a, rn a + 1, rn b, rn b + 1], inBudget (src c sh) i n = true) → Done (.mergek d a b) 4)

/-- Moves, masks and tags on lanes and in group scope; the cross-lane and selection instructions complete. -/
def Obligations.MovesAndTags : Prop := LaneMoves ∧ GroupMoves ∧ CrossLaneCompletes

/-! ## Global memory (R238 to R248) -/

namespace Sys2Proof.Claim

/-- The lane loads: size code, offset index or scope, lookahead. -/
inductive LoadForm where
  | ld (m : BitVec 2) (o : BitVec 5) (l : BitVec 4)
  | ldx (m : BitVec 2) (o : BitVec 5) (l : BitVec 4)
  | ldt (m : BitVec 2) (o : BitVec 5) (l : BitVec 4)
  | lda (m : BitVec 2) (k : BitVec 3) (l : BitVec 4)

/-- Their instructions. -/
def LoadForm.instr : LoadForm → BitVec 7 → BitVec 7 → Instr
  | .ld m o l, d, a => .ld d a m o l
  | .ldx m o l, d, a => .ldx d a m o l
  | .ldt m o l, d, a => .ldt d a m o l
  | .lda m k l, d, a => .lda d a m k l

/-- Bytes of each lane's access (R242, R246). -/
def LoadForm.size : LoadForm → Nat
  | .ld m _ _ => 4 * 2 ^ m.toNat
  | .ldx m _ _ => if m.toNat < 2 then 1 else 2
  | .ldt m _ _ => 4 * 2 ^ m.toNat
  | .lda m _ _ => 4 * 2 ^ m.toNat

/-- A narrow load extends the sign (R242). -/
def LoadForm.signed : LoadForm → Bool
  | .ldx m _ _ => m.toNat % 2 == 0
  | _ => false

/-- The byte offset: the signed index times the size (R174). -/
def LoadForm.offset (f : LoadForm) : DWord :=
  match f with
  | .ld _ o _ => o.signExtend 64 * BitVec.ofNat 64 f.size
  | .ldx _ o _ => o.signExtend 64 * BitVec.ofNat 64 f.size
  | .ldt _ o _ => o.signExtend 64 * BitVec.ofNat 64 f.size
  | .lda _ _ _ => 0#64

/-- The lookahead. -/
def LoadForm.la : LoadForm → Nat
  | .ld _ _ l => l.toNat
  | .ldx _ _ l => l.toNat
  | .ldt _ _ l => l.toNat
  | .lda _ _ l => l.toNat

/-- The access of a lane load at some addresses, skipping the lanes whose address is poisoned (R55). -/
def LoadForm.access (f : LoadForm) (va : Nat → DWord) (skip : Mask) : Access :=
  { op := .load f.signed, sc := .lane, size := f.size, addrs := lanes.map va, data := [], poisonAddr := skip,
    scope := (match f with
      | .lda _ k _ => k.toNat
      | _ => 0),
    acquire := (match f with
      | .lda _ _ _ => true
      | _ => false),
    release := false,
    transient := (match f with
      | .ldt _ _ _ => true
      | _ => false) }

/-- The lane stores: size code, offset index or scope. -/
inductive StoreForm where
  | st (m : BitVec 2) (o : BitVec 5)
  | stq (o : BitVec 5)
  | stl (m : BitVec 2) (k : BitVec 3)

/-- Their instructions. -/
def StoreForm.instr : StoreForm → BitVec 7 → BitVec 7 → Instr
  | .st m o, d, a => .st d a m o
  | .stq o, d, a => .stq d a o
  | .stl m k, d, a => .stl d a m k

/-- Bytes of each lane's access. -/
def StoreForm.size : StoreForm → Nat
  | .st m _ => 2 ^ m.toNat
  | .stq _ => 16
  | .stl m _ => 4 * 2 ^ m.toNat

/-- The byte offset. -/
def StoreForm.offset (f : StoreForm) : DWord :=
  match f with
  | .st _ o => o.signExtend 64 * BitVec.ofNat 64 f.size
  | .stq o => o.signExtend 64 * 16#64
  | .stl _ _ => 0#64

/-- The access of a lane store. -/
def StoreForm.access (f : StoreForm) (va : Nat → DWord) (data : List (List Word)) : Access :=
  { op := .store, sc := .lane, size := f.size, addrs := lanes.map va, data := data, poisonAddr := 0#32,
    scope := (match f with
      | .stl _ k => k.toNat
      | _ => 0),
    acquire := false,
    release := (match f with
      | .stl _ _ => true
      | _ => false),
    transient := false }

/-- A store with a release (R246). -/
def StoreForm.ordered : StoreForm → Prop
  | .stl _ _ => True
  | _ => False

/-- Registers of an access of some bytes: one for narrow ones. -/
def regsOf (size : Nat) : Nat := if size ≤ 4 then 1 else size / 4

/-- The checks of R239 pass for some lanes: aligned, canonical, and no range lock of the plot in the way. -/
def Passes (s : State) (c : Cur) (sh : Sheaf) (live : Mask) (write : Bool) (size : Nat) (va : Nat → DWord) : Prop :=
  ∀ i, i < 32 → bit live i = true → (va i).toNat % size = 0 ∧ canonical (va i) = true ∧
    lockHit s sh.place.core write 0 (asidOf s c.bed) (va i).toNat size = none

/-- An access met no page fault, no violation and no hole: it took effect in every lane. -/
def Clean (g : Got) : Prop := g.hole = false ∧ g.violated = 0#32 ∧ g.faulted = 0#32

/-- Nothing is accessed. -/
def noAccess (s : State) : Got := { st := s, results := [], faulted := 0#32, violated := 0#32, hole := false, kind := 0 }

/-- Word k of lane i among an access's results. -/
def wordOfLane (g : Got) (i k : Nat) : Word × Bool := (resultOf g.results i).getD k (0#32, false)

/-- An access whose results wait: the state is what the access left, and entry `o` joins the instructions in flight. -/
structure AccessWaits (g : Got) (t : State) (c : Cur) (sh sh' : Sheaf) (o : LongOp) (la : Nat) : Prop where
  only : t = putSheaf { g.st with nextKey := g.st.nextKey + 1 } c (advance c sh')
  rest : sh' = { sh with long := sh.long ++ [o] }
  formed : o.ready = true ∧ o.trap = none ∧ o.id = g.st.nextKey ∧ o.pc = c.pc ∧ o.ctl = c.ctl
  spans : o.spans = lanes.map (fun i => if bit c.ctl i then la else 0)

/-- Registers d to d + n − 1 in each active lane hold what the access gave the lane; a lane whose address is poisoned holds poison (R55).
Readers outside every lookahead span see it (R180). -/
def LoadHolds (c : Cur) (sh sh' : Sheaf) (d n : Nat) (skip : Nat → Bool) (val : Nat → Nat → Word × Bool) : Prop :=
  ∀ u i k, i < 32 → k < n → bit (exm c sh) i = true → inSpan sh' i = false →
    if skip i then (laneView u sh' i (d + k)).2 = true else laneView u sh' i (d + k) = val i k

/-- The atomic of ATOM on lanes or ATOM64. -/
def atomInstr (wide : Bool) (d a : BitVec 7) (m : BitVec 2) (k : BitVec 5) (l : BitVec 4) : Instr :=
  if wide then .atom64 d a m k l else .atom .lane d a m k l

/-- Operand registers of an atomic: CAS has a compare and a new value, and ATOM64 pairs (R248). -/
def atomOperands (wide : Bool) (k : BitVec 5) : Nat := (if wide then 2 else 1) * (if k = 9#5 then 2 else 1)

/-- The access of an atomic at the scope its m field names (R108). -/
def atomAccess (sc : Scope) (wide : Bool) (k : BitVec 5) (m : BitVec 2) (addrs : List DWord) (data : List (List Word)) : Access :=
  { op := .atomic k, sc := sc, size := if wide then 8 else 4, addrs := addrs, data := data, poisonAddr := 0#32,
    scope := m.toNat + 2, acquire := false, release := false, transient := false }

/-- The data words that lanes give to a store or an atomic: n registers from vD. -/
def dataOf (s : State) (c : Cur) (sh : Sheaf) (d n : Nat) : List (List Word) :=
  lanes.map (fun i => (List.range n).map (fun k => rdV s c sh i (d + k)))

/-- No register of a list is poisoned in an active lane. -/
def Unpoisoned (s : State) (c : Cur) (sh : Sheaf) (regs : List Nat) : Prop :=
  ∀ i, i < 32 → bit (exm c sh) i = true → ∀ n ∈ regs, rdVP s c sh i n = false

/-- Registers d to d + n − 1. -/
def regsFrom (d n : Nat) : List Nat := (List.range n).map (fun k => d + k)

end Sys2Proof.Claim

/-- R239 to R243 and R246: a lane load whose checks pass and whose pages are all there gives each active lane its words, LDX extended;
a lane with a poisoned address makes no access and takes poison.  A plain load may take the value that a pair had before a later write (R120;
`withEarly`, log 132). -/
def Sys2Proof.Claim.GlobalLoads : Prop :=
  ∀ (f : LoadForm) (d a : BitVec 7) (s : State) (c : Cur) (sh : Sheaf),
    Issues s c sh → Active c sh → InBudget c sh ([rn a, rn a + 1] ++ regsFrom (rn d) (regsOf f.size)) →
    let m := exm c sh
    let va := fun i => rdV64 s c sh i (rn a) + f.offset
    let skip := fun i => rdVP s c sh i (rn a) || rdVP s c sh i (rn a + 1)
    let live := activeMask m (fun i => !skip i)
    let acc := f.access va (activeMask m skip)
    let g := if live = 0#32 then noAccess s
      else withEarly s c (asidOf s c.bed) acc (runAccess s sh.place.core (asidOf s c.bed) acc live)
    f.size ≤ 16 → Passes s c sh live false f.size va → Clean g →
    ∃ sh' t o, exec (f.instr d a) s = .next t ∧ AccessWaits g t c sh sh' o f.la ∧
      LoadHolds c sh sh' (rn d) (regsOf f.size) skip (wordOfLane g) ∧
      OtherLanes m (regsFrom (rn d) (regsOf f.size)) sh sh'

/-- R241, R242 and R246: a lane store whose checks pass and whose pages are all there leaves what the access leaves, and nothing else.  The
model's choice (log 116): an STL issued while its write-backs are held back has no effect yet; it stands in the operand log under kind 8. -/
def Sys2Proof.Claim.GlobalStores : Prop :=
  ∀ (f : StoreForm) (d a : BitVec 7) (s : State) (c : Cur) (sh : Sheaf),
    Issues s c sh → Active c sh → InBudget c sh ([rn a, rn a + 1] ++ regsFrom (rn d) (regsOf f.size)) →
    Unpoisoned s c sh ([rn a, rn a + 1] ++ regsFrom (rn d) (regsOf f.size)) →
    let va := fun i => rdV64 s c sh i (rn a) + f.offset
    let g := runAccess s sh.place.core (asidOf s c.bed) (f.access va (dataOf s c sh (rn d) (regsOf f.size))) (exm c sh)
    Passes s c sh (exm c sh) true f.size va →
    (Clean g → (f.ordered → s.holdRelease = false) → exec (f.instr d a) s = .next (putSheaf g.st c (advance c sh))) ∧
    (f.ordered → s.holdRelease = true →
      ∃ t sh' e, exec (f.instr d a) s = .next t ∧ getSheaf t c.bed c.sheaf = some sh' ∧ t.mem = s.mem ∧ t.home = s.home ∧ t.l2 = s.l2 ∧
        t.plots = s.plots ∧ mfind sh'.oplog (freeLog sh) = some e ∧ e.kind = 8 ∧ e.mask = exm c sh ∧ e.token = 0#32 ∧
        e.acc = f.access va (dataOf s c sh (rn d) (regsOf f.size)))

/-- R248: an atomic returns each lane's old word or words. -/
def Obligations.GlobalAtomics : Prop :=
  ∀ (wide : Bool) (m : BitVec 2) (k : BitVec 5) (l : BitVec 4) (d a : BitVec 7) (s : State) (c : Cur) (sh : Sheaf),
    Issues s c sh → Active c sh →
    let n := if wide then 2 else 1
    (InBudget c sh ([rn a, rn a + 1] ++ regsFrom (rn d) (atomOperands wide k)) →
      Unpoisoned s c sh ([rn a, rn a + 1] ++ regsFrom (rn d) (atomOperands wide k)) →
      let va := fun i => rdV64 s c sh i (rn a)
      let g := runAccess s sh.place.core (asidOf s c.bed)
        (atomAccess .lane wide k m (lanes.map va) (dataOf s c sh (rn d) (atomOperands wide k))) (exm c sh)
      Passes s c sh (exm c sh) true (if wide then 8 else 4) va → Clean g →
      ∃ sh' t o, exec (atomInstr wide d a m k l) s = .next t ∧ AccessWaits g t c sh sh' o l.toNat ∧
        LoadHolds c sh sh' (rn d) n (fun _ => false) (wordOfLane g) ∧ OtherLanes (exm c sh) (regsFrom (rn d) n) sh sh') ∧
    ((∀ r ∈ [rn a, rn a + 1] ++ regsFrom (rn d) (atomOperands false k), rdGP s c sh r = false) →
      let va := rdG64 s c sh (rn a)
      let g := runAccess s sh.place.core (asidOf s c.bed)
        (atomAccess .group false k m [va] [(List.range (atomOperands false k)).map (fun j => rdG s c sh (rn d + j))]) 1#32
      (va.toNat % 4 = 0 ∧ canonical va = true ∧ lockHit s sh.place.core true 0 (asidOf s c.bed) va.toNat 4 = none) → Clean g →
      ∃ sh' t o, exec (.atom .group d a m k l) s = .next t ∧ AccessWaits g t c sh sh' o l.toNat ∧
        GroupAwaits sh' (rn d) (wordOfLane g 0 0) ∧
        OtherGroups [rn d] sh sh')

/-- R245: the group load and store. -/
def Sys2Proof.Claim.GroupAccesses : Prop :=
  ∀ (m : BitVec 2) (o : BitVec 5) (l : BitVec 4) (d a : BitVec 7) (s : State) (c : Cur) (sh : Sheaf),
    Issues s c sh → Active c sh → d.toNat + 4 ≤ 128 → d.toNat % 2 ^ m.toNat = 0 → m.toNat < 3 →
    let size := 4 * 2 ^ m.toNat
    let n := 2 ^ m.toNat
    let va := rdG64 s c sh (rn a) + o.signExtend 64 * BitVec.ofNat 64 size
    let acc := fun (op : AccOp) (data : List (List Word)) =>
      ({ op := op, sc := .group, size := size, addrs := [va], data := data, poisonAddr := 0#32, scope := 0, acquire := false,
         release := false, transient := false } : Access)
    va.toNat % size = 0 → canonical va = true → rdGP s c sh (rn a) = false → rdGP s c sh (rn a + 1) = false →
    (let g := withEarly s c (asidOf s c.bed) (acc (.load false) [])
       (runAccess s sh.place.core (asidOf s c.bed) (acc (.load false) []) 1#32)
     lockHit s sh.place.core false 0 (asidOf s c.bed) va.toNat size = none → Clean g →
      ∃ sh' t p, exec (.ldu d a m o l) s = .next t ∧ AccessWaits g t c sh sh' p l.toNat ∧
        (∀ k, k < n → GroupAwaits sh' (rn d + k) (wordOfLane g 0 k)) ∧
        OtherGroups (regsFrom (rn d) n) sh sh') ∧
    (let g := runAccess s sh.place.core (asidOf s c.bed) (acc .store [(List.range n).map (fun k => rdG s c sh (rn d + k))]) 1#32
     lockHit s sh.place.core true 0 (asidOf s c.bed) va.toNat size = none →
      (∀ k, k < n → rdGP s c sh (rn d + k) = false) → Clean g →
      exec (.stu d a m o) s = .next (putSheaf g.st c (advance c sh)))

/-- Global loads and stores, on lanes and for the group. -/
def Obligations.GlobalAccesses : Prop := GlobalLoads ∧ GlobalStores ∧ GroupAccesses

namespace Sys2Proof.Claim

/-- Every store that may hold word w agrees on it: each L1 and each L2 slice that lists it, under whatever name, holds what the home
gives. -/
def Agreed (s : State) (w : Nat) : Prop :=
  (∀ p n e, untag n = w → mfind (getPlot s p).l1 n = some e → (e.data, e.poison) = homeWord s w) ∧
    (∀ t n e, untag n = w → mfind (l2Of s t) n = some e → (e.data, e.poison) = homeWord s w)

/-- No cache of the package lists word w. -/
def Uncached (s : State) (w : Nat) : Prop :=
  (∀ p n, untag n = w → mfind (getPlot s p).l1 n = none) ∧ (∀ t n, untag n = w → mfind (l2Of s t) n = none) ∧ mfind s.home w = none

/-- Every place that may hold a word holds of it what it held. -/
def SameWord (s t : State) (w : Nat) : Prop :=
  (∀ p n, untag n = w → mfind (getPlot t p).l1 n = mfind (getPlot s p).l1 n) ∧
    (∀ k n, untag n = w → mfind (l2Of t k) n = mfind (l2Of s k) n) ∧
    mfind t.home w = mfind s.home w ∧ dramWord t w = dramWord s w

/-- The same for all words but those that share an aligned 8 bytes with one of a list, which caches move with it (R110). -/
def OtherWords (ws : List Nat) (s t : State) : Prop := ∀ w, (∀ v ∈ ws, w ∉ pairWords (untag v)) → SameWord s t w

/-- A VA maps to a physical address for a kind of access, with every A bit on the way set, D too for a write, no SNAP, and the TLB
holding nothing older (R355 to R359). -/
def Maps (s : State) (core : Nat) (asid : BitVec 16) (va : DWord) (kind : AccKind) (pa : Nat) (syn : Bool) : Prop :=
  ∃ e level path leafAt, walk s asid va = .leaf e level (leafAt :: path) ∧
    (∀ a ∈ leafAt :: path, pteBit (homeDWord s a) 4 = true) ∧
    (kind = .write → pteBit e 2 = true ∧ pteBit e 9 = false ∧ pteBit (homeDWord s leafAt) 5 = true) ∧
    (kind = .fetch → pteBit e 3 = true) ∧
    (mfind s.tlb (tlbKey core asid va) = none ∨ mfind s.tlb (tlbKey core asid va) = some (e, level)) ∧
    syn = pteBit e 6 ∧
    let off := ptePa e + va.toNat % leafBytes level (pteBit e 7 && level == 3)
    if pteBit e 8 then pa = Config.hostBase + off else pa = off ∧ off < Config.deviceBytes

/-- The words that an access of some bytes touches. -/
def wordsAt (pa size : Nat) : List Nat := if size ≤ 4 then [pa / 4] else (List.range (size / 4)).map (fun k => pa / 4 + k)

/-- A load's result word: itself, or the byte or halfword at the address, extended (R242). -/
def loaded (size : Nat) (signed : Bool) (pa : Nat) (x : Word) : Word :=
  if size < 4 then piece x (8 * size) (pa % 4 / size) signed else x

/-- The new value of an atomic kind on 32-bit words (Table 10.3), for the integer kinds; CAS writes where the old value matches. -/
def atomTable (k : Nat) (old x : Word) : Option Word :=
  match k with
  | 0 => some (BitVec.ofNat 32 (old.toNat + x.toNat))
  | 1 => some (old &&& x)
  | 2 => some (old ||| x)
  | 3 => some (old ^^^ x)
  | 4 => some (if old.toInt ≤ x.toInt then old else x)
  | 5 => some (if old.toInt ≤ x.toInt then x else old)
  | 6 => some (if old.toNat ≤ x.toNat then old else x)
  | 7 => some (if old.toNat ≤ x.toNat then x else old)
  | 8 => some x
  | 10 => some (if x.toNat ≤ old.toNat then 0#32 else BitVec.ofNat 32 (old.toNat + 1))
  | 11 => some (if old.toNat = 0 ∨ x.toNat < old.toNat then x else BitVec.ofNat 32 (old.toNat + 2 ^ 32 - 1))
  | _ => none

end Sys2Proof.Claim

/-- R355 to R359: where a VA maps with its A and D bits set, translation gives the physical address and changes only the TLB. -/
def Obligations.Translation : Prop :=
  ∀ (s : State) (core : Nat) (asid : BitVec 16) (va : DWord) (kind : AccKind) (pa : Nat) (syn : Bool),
    Maps s core asid va kind pa syn →
    ∃ x, translate s core asid va kind = (.ok pa syn, { s with tlb := mset s.tlb (tlbKey core asid va) x })

/-- R116, R121 and R242: a load whose words, with those that share their aligned 8 bytes, every store agrees on, and whose pages are mapped, gives each lane the words at its address
and leaves all stores agreeing with what was there, for any number of lanes. -/
def Sys2Proof.Claim.LoadsReadMemory : Prop :=
  ∀ (s : State) (core : Nat) (asid : BitVec 16) (acc : Access) (m : Mask) (signed : Bool) (pa : Nat → Nat) (syn : Nat → Bool),
    acc.op = .load signed → acc.size ∈ [1, 2, 4, 8, 16] →
    (∀ i, i < 32 → bit m i = true → Maps s core asid (lget acc.addrs i 0#64) .read (pa i) (syn i) ∧ pa i % acc.size = 0 ∧
      ∀ w ∈ wordsAt (pa i) acc.size, ∀ v ∈ pairWords w, Agreed s v) →
    let g := performLanes s core asid acc m
    Clean g ∧
      (∀ i, i < 32 → bit m i = true → ∀ k, k < regsOf acc.size →
        wordOfLane g i k = (loaded acc.size signed (pa i) (homeWord s (pa i / 4 + k)).1, (homeWord s (pa i / 4 + k)).2)) ∧
      (∀ w, homeWord g.st w = homeWord s w) ∧ (∀ w, Agreed s w → Agreed g.st w)

/-- R121 and R125: a core's write of a word, under the name that it has in caches (R87), changes nothing elsewhere, and its own next read of
the word gives the written bytes; an uncached word keeps the others. -/
def Sys2Proof.Claim.WordWrites : Prop :=
  ∀ (s : State) (core w : Nat) (syn alloc first : Bool) (be : BitVec 4) (x : PWord) (t : Nat), core < 256 → be ≠ 0#4 →
    OtherWords [w] s (writeWord s core w syn be x) ∧
      (be = 15#4 → (readWord (writeWord s core w syn be x) core w syn alloc first t).1 = x) ∧
      (Uncached s (untag w) →
        (readWord (writeWord s core w syn be x) core w syn alloc first t).1.1 = mergeBytes (dramWord s (untag w)).1 x.1 be)

/-- R242: a lane's store writes the data's bytes at its address, and no word elsewhere. -/
def Sys2Proof.Claim.LaneStores : Prop :=
  ∀ (s : State) (core : Nat) (asid : BitVec 16) (acc : Access) (i pa : Nat) (syn : Bool), core < 256 →
    acc.op = .store → acc.size ∈ [1, 2, 4, 8, 16] → Maps s core asid (lget acc.addrs i 0#64) .write pa syn → pa % acc.size = 0 →
    let w := nameOf asid (lget acc.addrs i 0#64) pa
    ∃ t, performLane s core asid acc i = (.done [], t) ∧ OtherWords (wordsAt pa acc.size) s t ∧
      (∀ k u alloc first, 4 ≤ acc.size → k < regsOf acc.size →
        (readWord t core (w + k) syn alloc first u).1 = (lget (lget acc.data i []) k 0#32, false)) ∧
      (∀ u alloc first, acc.size < 4 → Uncached s (pa / 4) →
        (readWord t core w syn alloc first u).1.1 =
          mergeBytes (dramWord s (pa / 4)).1 (BitVec.ofNat 32 ((lget (lget acc.data i []) 0 0#32).toNat * 2 ^ (8 * (pa % 4))))
            (BitVec.ofNat 4 ((2 ^ acc.size - 1) * 2 ^ (pa % 4))))

/-- R248 and Table 10.3: an atomic on an uncached word returns the old word and leaves the new one for the next reader; CAS writes only
where the old value equals the compare value. -/
def Sys2Proof.Claim.LaneAtomics : Prop :=
  ∀ (s : State) (core : Nat) (asid : BitVec 16) (acc : Access) (i pa : Nat) (syn : Bool) (k : BitVec 5), core < 256 →
    acc.op = .atomic k → acc.size = 4 → k.toNat ≤ 11 → Maps s core asid (lget acc.addrs i 0#64) .write pa syn → pa < Config.hostBase →
    pa % 4 = 0 → Uncached s (pa / 4) →
    let old := dramWord s (pa / 4)
    let x := lget (lget acc.data i []) 0 0#32
    let new := if k = 9#5 then (if old.1 = x then some (lget (lget acc.data i []) 1 0#32) else none) else atomTable k.toNat old.1 x
    ∃ t, performLane s core asid acc i = (.done [old], t) ∧ OtherWords [pa / 4] s t ∧
      ∀ u alloc first, (readWord t core (nameOf asid (lget acc.addrs i 0#64) pa) syn alloc first u).1.1 = new.getD old.1

/-- R239: what stops a lane access before it acts, in order: poison consumed by a store, a misaligned address, one that is not
canonical, a range lock; the trap names the lowest lane. -/
def Sys2Proof.Claim.AccessTraps : Prop :=
  ∀ (f : LoadForm) (g : StoreForm) (d a : BitVec 7) (s : State) (c : Cur) (sh : Sheaf) (l : Nat), Issues s c sh → Active c sh →
    let m := exm c sh
    (InBudget c sh ([rn a, rn a + 1] ++ regsFrom (rn d) (regsOf g.size)) →
      let va := fun i => rdV64 s c sh i (rn a) + g.offset
      let bad := activeMask m (fun i => ([rn a, rn a + 1] ++ regsFrom (rn d) (regsOf g.size)).any (fun n => rdVP s c sh i n))
      let off := activeMask m (fun i => decide ((va i).toNat % g.size ≠ 0))
      let far := activeMask m (fun i => !canonical (va i))
      (bad ≠ 0#32 → exec (g.instr d a) s = trap s c sh { plainTrap 6 with lanes := bad }) ∧
      (bad = 0#32 → IsFirst off l →
        exec (g.instr d a) s = trap s c sh { cause := 3, lanes := m, lanes2 := 0#32, detail := BitVec.ofNat 32 l, addr := va l }) ∧
      (bad = 0#32 → off = 0#32 → IsFirst far l →
        exec (g.instr d a) s = trap s c sh { cause := 4, lanes := m, lanes2 := 0#32, detail := BitVec.ofNat 32 l, addr := va l }) ∧
      (bad = 0#32 → off = 0#32 → far = 0#32 → ∀ e, l < 32 → bit m l = true →
        lockHit s sh.place.core true 0 (asidOf s c.bed) (va l).toNat g.size = some e →
        (∀ i, i < l → bit m i = true → lockHit s sh.place.core true 0 (asidOf s c.bed) (va i).toNat g.size = none) →
        exec (g.instr d a) s =
          trap s c sh { cause := 5, lanes := 0#32, lanes2 := 0#32, detail := BitVec.ofNat 32 (l + e * 256), addr := va l })) ∧
    (InBudget c sh ([rn a, rn a + 1] ++ regsFrom (rn d) (regsOf f.size)) →
      let va := fun i => rdV64 s c sh i (rn a) + f.offset
      let live := fun i => !(rdVP s c sh i (rn a) || rdVP s c sh i (rn a + 1))
      let off := activeMask m (fun i => live i && decide ((va i).toNat % f.size ≠ 0))
      let far := activeMask m (fun i => live i && !canonical (va i))
      (IsFirst off l →
        exec (f.instr d a) s = trap s c sh { cause := 3, lanes := m, lanes2 := 0#32, detail := BitVec.ofNat 32 l, addr := va l }) ∧
      (off = 0#32 → IsFirst far l →
        exec (f.instr d a) s = trap s c sh { cause := 4, lanes := m, lanes2 := 0#32, detail := BitVec.ofNat 32 l, addr := va l }))

/-- What loads, stores and atomics read and leave in memory. -/
def Obligations.MemoryWords : Prop := LoadsReadMemory ∧ WordWrites ∧ LaneStores ∧ LaneAtomics

namespace Sys2Proof.Claim

/-- The checks of R239 pass for some lanes of a scratch access: aligned, legal (R83), and no range lock in the way. -/
def ScratchPasses (s : State) (c : Cur) (sh : Sheaf) (live : Nat → Bool) (write : Bool) (size : Nat) (ad : Nat → Int) : Prop :=
  ∀ i, i < 32 → live i = true → ad i % (size : Int) = 0 ∧ 0 ≤ ad i ∧
    scratchOk s (plotOf sh.place.core) (launchKey s c.bed) (ad i).toNat size = true ∧
    lockHit s sh.place.core write 1 (asidOf s c.bed) (ad i).toNat size = none

/-- The number that n bytes hold, lowest first. -/
def bytesNat (f : Nat → Byte) (a : Nat) : Nat → Nat
  | 0 => 0
  | n + 1 => bytesNat f a n + (f (a + n)).toNat * 256 ^ n

/-- A byte of a plot's scratch. -/
def scratchAt (s : State) (p a : Nat) : Byte := memByte (getPlot s p).scratch a

/-- The poison mark of the granule that holds a scratch byte (R97). -/
def scratchMark (s : State) (p a : Nat) : Bool := mget (getPlot s p).marks (a / 32) false

/-- The word that a scratch read of some bytes at a gives register k: its bytes, zero above them, with its granule's mark. -/
def scratchGives (s : State) (p a size k : Nat) : Word × Bool :=
  (BitVec.ofNat 32 (bytesNat (scratchAt s p) (a + 4 * k) (min size 4)), scratchMark s p (a + 4 * k))

/-- The word that a scratch load gives register k: what stands there, or what its aligned 8 bytes held before a later write, where the load
may have been made early (R120, R124). -/
def scratchTakes (s : State) (c : Cur) (p a size k : Nat) : Word × Bool :=
  match takesEarly s c true ((a + 4 * k) / 8) with
  | some e =>
    let x := if (a / 4 + k) % 2 = 0 then e.lo else e.hi
    (if size < 4 then piece x.1 (8 * size) (a % 4 / size) false else x.1, x.2)
  | none => scratchGives s p a size k

/-- A scratch load waits: nothing else changes but the values that loads may have taken early, of which some are gone. -/
def ScratchWaits (s t : State) (c : Cur) (sh sh' : Sheaf) (o : LongOp) (la : Nat) : Prop :=
  ∃ es, (∀ e ∈ es, e ∈ s.early) ∧ Waits { s with early := es } t c sh sh' o la

/-- The issuing sheaf moves on and one plot's scratch and marks become `pl`'s; nothing else changes but the values that loads may have
taken early. -/
def ScratchMoves (s t : State) (c : Cur) (sh : Sheaf) (p : Nat) : Prop :=
  ∃ pl es, t = putSheaf { s with plots := mset s.plots p pl, early := es } c (advance c sh) ∧
    pl = { getPlot s p with scratch := pl.scratch, marks := pl.marks }

/-- Byte j of the data that a lane stores. -/
def dataByte (ws : List Word) (j : Nat) : Byte := byteOf (lget ws (j / 4) 0#32) (j % 4)

/-- Scratch words after the atomics of some lanes, in order (R111, R248). -/
def chained (kind : BitVec 5) (ad : Nat → Nat) (x n : Nat → Word) : List Nat → (Nat → Word) → (Nat → Word)
  | [], f => f
  | i :: r, f =>
    chained kind ad x n r (fun w =>
      if w = ad i / 4 then (atomicNew fp32 kind.toNat (f w) (x i) (n i)).getD (f w) else f w)

/-- A group load whose results wait: registers d to d + n − 1. -/
def groupReads (sh' : Sheaf) (d n : Nat) (val : Nat → Word × Bool) : Prop := ∀ k, k < n → GroupAwaits sh' (d + k) (val k)

end Sys2Proof.Claim

/-- R242, R245 and R97: scratch loads, on lanes and for the group; narrow ones extend with zeros, and a marked granule gives poison.  A load
may take what an aligned 8 bytes held before a later write by another sheaf (R120, R124; the model's way of it is log 132). -/
def Sys2Proof.Claim.ScratchLoads : Prop :=
  ∀ (m : BitVec 2) (o : BitVec 5) (l : BitVec 4) (d a : BitVec 7) (s : State) (c : Cur) (sh : Sheaf), Issues s c sh → Active c sh →
    let p := plotOf sh.place.core
    (let size : Nat := 2 ^ m.toNat
     let ad := fun i => ((rdV s c sh i (rn a)).toNat : Int) + o.toInt * size
     let skip := fun i => rdVP s c sh i (rn a)
     InBudget c sh (rn a :: regsFrom (rn d) (regsOf size)) →
      ScratchPasses s c sh (fun i => bit (exm c sh) i && !skip i) false size ad →
      ∃ sh' t w, exec (.lds d a m o l) s = .next t ∧ ScratchWaits s t c sh sh' w l.toNat ∧ w.trap = none ∧
        LoadHolds c sh sh' (rn d) (regsOf size) skip (fun i k => scratchTakes s c p (ad i).toNat size k) ∧
        OtherLanes (exm c sh) (regsFrom (rn d) (regsOf size)) sh sh') ∧
    (let size : Nat := 4 * 2 ^ m.toNat
     let ad := ((rdG s c sh (rn a)).toNat : Int) + o.toInt * size
     m ≠ 3#2 → d.toNat + 4 ≤ 128 → rdGP s c sh (rn a) = false → ScratchPasses s c sh (bit (exm c sh)) false size (fun _ => ad) →
      ∃ sh' t w, exec (.ldsu d a m o l) s = .next t ∧ ScratchWaits s t c sh sh' w l.toNat ∧ w.trap = none ∧
        groupReads sh' (rn d) (2 ^ m.toNat) (fun k => scratchTakes s c p ad.toNat size k) ∧
        OtherGroups (regsFrom (rn d) (2 ^ m.toNat)) sh sh')

/-- R242, R245, R111 and R97: scratch stores write the data's bytes, the highest lane last, and no other byte; a granule that one
instruction covers whole loses its mark, and every other mark stays. -/
def Sys2Proof.Claim.ScratchStores : Prop :=
  ∀ (m : BitVec 2) (o : BitVec 5) (d a : BitVec 7) (s : State) (c : Cur) (sh : Sheaf), Issues s c sh → Active c sh →
    let p := plotOf sh.place.core
    (let size : Nat := 2 ^ m.toNat
     let ad := fun i => ((rdV s c sh i (rn a)).toNat : Int) + o.toInt * size
     let covers := fun i b => bit (exm c sh) i = true ∧ (ad i).toNat ≤ b ∧ b < (ad i).toNat + size
     InBudget c sh (rn a :: regsFrom (rn d) (regsOf size)) → Unpoisoned s c sh (rn a :: regsFrom (rn d) (regsOf size)) →
      ScratchPasses s c sh (bit (exm c sh)) true size ad →
      ∃ t, exec (.sts d a m o) s = .next t ∧ ScratchMoves s t c sh p ∧
        (∀ b, (∀ i, i < 32 → ¬covers i b) → scratchAt t p b = scratchAt s p b) ∧
        (∀ b i, i < 32 → covers i b → (∀ j, j < 32 → i < j → ¬covers j b) →
          scratchAt t p b = dataByte (lget (dataOf s c sh (rn d) (regsOf size)) i []) (b - (ad i).toNat)) ∧
        (∀ g, scratchMark t p (32 * g) =
          if (List.range 32).all (fun k => (List.range 32).any (fun i => bit (exm c sh) i && decide ((ad i).toNat ≤ 32 * g + k) &&
            decide (32 * g + k < (ad i).toNat + size))) then false else scratchMark s p (32 * g))) ∧
    (let size : Nat := 4 * 2 ^ m.toNat
     let ad := ((rdG s c sh (rn a)).toNat : Int) + o.toInt * size
     let n := 2 ^ m.toNat
     m ≠ 3#2 → d.toNat + 4 ≤ 128 → (∀ r ∈ rn a :: regsFrom (rn d) n, rdGP s c sh r = false) →
      ScratchPasses s c sh (bit (exm c sh)) true size (fun _ => ad) →
      ∃ t, exec (.stsu d a m o) s = .next t ∧ ScratchMoves s t c sh p ∧ (getPlot t p).marks = (getPlot s p).marks ∧
        ∀ b, scratchAt t p b =
          if ad.toNat ≤ b ∧ b < ad.toNat + size then
            dataByte ((List.range n).map (fun k => rdG s c sh (rn d + k))) (b - ad.toNat)
          else scratchAt s p b)

/-- R248 and R111: scratch atomics of the active lanes chain in ascending order; each lane's register takes the old word. -/
def Sys2Proof.Claim.ScratchAtomics : Prop :=
  ∀ (m : BitVec 2) (k : BitVec 5) (l : BitVec 4) (d a : BitVec 7) (s : State) (c : Cur) (sh : Sheaf), Issues s c sh → Active c sh →
    let p := plotOf sh.place.core
    let ad := fun i => ((rdV s c sh i (rn a)).toNat : Int)
    let word := fun w => memWord (getPlot s p).scratch w
    let after := chained k (fun i => (ad i).toNat) (fun i => rdV s c sh i (rn d)) (fun i => rdV s c sh i (rn d + 1))
    InBudget c sh (rn a :: regsFrom (rn d) (atomOperands false k)) →
    Unpoisoned s c sh (rn a :: regsFrom (rn d) (atomOperands false k)) →
    ScratchPasses s c sh (bit (exm c sh)) true 4 ad →
    ∃ t sh' w pl es, exec (.atoms d a m k l) s = .next t ∧
      t = putSheaf { s with plots := pl, early := es, nextKey := s.nextKey + 1 } c (advance c sh') ∧
      sh' = { sh with long := sh.long ++ [w] } ∧ w.trap = none ∧
      (∀ q, q ≠ p → getPlot t q = getPlot s q) ∧ getPlot t p = { getPlot s p with scratch := (getPlot t p).scratch } ∧
      (∀ x, memWord (getPlot t p).scratch x = after (activeLanes (exm c sh)) word x) ∧
      LoadHolds c sh sh' (rn d) 1 (fun _ => false)
        (fun i _ => (after ((activeLanes (exm c sh)).filter (fun j => decide (j < i))) word ((ad i).toNat / 4), scratchMark s p (ad i).toNat)) ∧
      OtherLanes (exm c sh) [rn d] sh sh'

/-- R244: LDC gives every active lane the words at the lowest active lane's address in the B-store. -/
def Sys2Proof.Claim.ConstLoads : Prop :=
  ∀ (m : BitVec 2) (o : BitVec 5) (l : BitVec 4) (d a : BitVec 7) (s : State) (c : Cur) (sh : Sheaf) (f : Nat),
    Issues s c sh → IsFirst (exm c sh) f → m ≠ 3#2 →
    let size : Nat := 4 * 2 ^ m.toNat
    let n := 2 ^ m.toNat
    let ad := ((rdV s c sh f (rn a)).toNat : Int) + o.toInt * size
    let b := (getCore s sh.place.core).bstore
    InBudget c sh (regsFrom (rn d) n) → inBudget (src c sh) f (rn a) = true → rdVP s c sh f (rn a) = false →
    (ad % (size : Int) = 0 ∧ 0 ≤ ad ∧ bsOk s c.bed ad.toNat size = true ∧
      lockHit s sh.place.core false 2 (asidOf s c.bed) ad.toNat size = none) →
    ∃ sh' t w, exec (.ldc d a m o l) s = .next t ∧ Waits s t c sh sh' w l.toNat ∧ w.trap = none ∧
      LoadHolds c sh sh' (rn d) n (fun _ => false)
        (fun _ k => (BitVec.ofNat 32 (bytesNat (memByte b) (ad.toNat + 4 * k) 4),
          mget (getCore s sh.place.core).bsPoison ((ad.toNat + 4 * k) / 64) false)) ∧
      OtherLanes (exm c sh) (regsFrom (rn d) n) sh sh'

/-- R247, R114, R122 and Table 5.3: an acquiring fence drops what its scope asks for; FENCE.sc writes back first, and FENCE.rel and
FENCE.ar owe the release to the next store of each active lane's thread.  A release writes back, and an acquire drops, what its scope asks
for; host words, whose coherence point is host memory, at every scope (Table 5.1); no load of the core after an acquire takes a value from
before it.  The model's choice (log 116): a FENCE.sc whose write-backs are held back waits in the operand log under kind 8. -/
def Sys2Proof.Claim.Fences : Prop :=
  ∀ (sc : Scope) (k : BitVec 3) (kind : BitVec 2) (s : State) (c : Cur) (sh : Sheaf), Issues s c sh → Active c sh →
    let core := sh.place.core
    let l1 := fun u => (getPlot u (plotOf core)).l1
    let l2 := fun u => l2Of u (terraceOf core)
    let host := fun (n : Nat) => Config.hostBase / 4 ≤ untag n
    let rel := if kind = 3#2 then releaseAt s core k.toNat else s
    let acq := if kind = 1#2 then rel else acquireAt rel core k.toNat
    ((kind = 3#2 → s.holdRelease = false) →
      ∃ sh', exec (.fence sc k kind) s = .next (putSheaf acq c (advance c sh')) ∧ sh' = { sh with owed := sh'.owed } ∧
      (kind = 0#2 ∨ kind = 3#2 → sh' = sh) ∧
      (kind = 1#2 ∨ kind = 2#2 → ∀ i, i < 32 → lget sh'.owed i 0 =
        if bit (exm c sh) i then max (lget sh.owed i 0) (k.toNat + 1) else lget sh.owed i 0)) ∧
    (kind = 3#2 → s.holdRelease = true →
      ∃ t sh' e, exec (.fence sc k kind) s = .next t ∧ getSheaf t c.bed c.sheaf = some sh' ∧ t.mem = s.mem ∧ t.home = s.home ∧ t.l2 = s.l2 ∧
        t.plots = s.plots ∧ mfind sh'.oplog (freeLog sh) = some e ∧ e.kind = 8 ∧ e.mask = exm c sh ∧ e.token = 0#32 ∧
        e.acc.scope = k.toNat ∧ e.acc.acquire = true ∧ e.acc.release = true) ∧
    (let t := releaseAt s core k.toNat
     (k.toNat < 3 → ∀ w, w < Config.hostBase / 4 → SameWord s t w) ∧
      (∀ n e, host n ∨ 3 ≤ k.toNat → mfind (l1 t) n = some e → e.dirty = 0#4) ∧
      (∀ n e, host n ∨ 3 ≤ k.toNat → mfind (l1 s) n = some e → e.dirty ≠ 0#4 →
        ∃ x, mfind (l2 t) n = some x ∧ x.data = e.data ∧ x.poison = e.poison) ∧
      (∀ n e, host n ∨ 4 ≤ k.toNat → mfind (l2 t) n = some e → e.dirty = 0#4) ∧
      (∀ n e, host n → mfind (l1 s) n = some e → e.dirty = 15#4 →
        (∀ v x, v ≠ n → untag v = untag n → mfind (l1 s) v = some x ∨ mfind (l2 s) v = some x → x.dirty = 0#4) →
        dramWord t (untag n) = (e.data, e.poison)) ∧
      (5 ≤ k.toNat → ∀ w e n, mfind t.home w = some (e, n) → n ≠ terraceOf core)) ∧
    (let t := acquireAt s core k.toNat
     (k.toNat < 3 → ∀ w, w < Config.hostBase / 4 → SameWord s t w) ∧ (∀ e ∈ t.early, e.core ≠ core ∧ e ∈ s.early) ∧
      (∀ n e, (host n ∨ 3 ≤ k.toNat → mfind (l1 t) n = some e → e.dirty ≠ 0#4) ∧
        (mfind (l1 s) n = some e → e.dirty ≠ 0#4 → mfind (l1 t) n = some e)) ∧
      (∀ n e, (host n ∨ 4 ≤ k.toNat → mfind (l2 t) n = some e → e.dirty ≠ 0#4) ∧
        (mfind (l2 s) n = some e → e.dirty ≠ 0#4 → mfind (l2 t) n = some e)))

/-- R240, R241 and R351: a lane store that meets a page fault goes on with its faulting lanes in the operand log, their fault due to be
posted; one that meets a violation traps with every lane that had no effect.  The rules do not say it of an instruction with lanes of both
kinds: that the trap is then precise, names the lowest lane without effect and leaves no lane in the log is the model's choice (log 24). -/
def Sys2Proof.Claim.AccessFaults : Prop :=
  ∀ (f : StoreForm) (d a : BitVec 7) (s : State) (c : Cur) (sh : Sheaf),
    Issues s c sh → Active c sh → InBudget c sh ([rn a, rn a + 1] ++ regsFrom (rn d) (regsOf f.size)) →
    Unpoisoned s c sh ([rn a, rn a + 1] ++ regsFrom (rn d) (regsOf f.size)) →
    let va := fun i => rdV64 s c sh i (rn a) + f.offset
    let acc := f.access va (dataOf s c sh (rn d) (regsOf f.size))
    let g := runAccess s sh.place.core (asidOf s c.bed) acc (exm c sh)
    Passes s c sh (exm c sh) true f.size va → g.hole = false → (f.ordered → s.holdRelease = false) →
    (g.violated = 0#32 → g.faulted ≠ 0#32 → (∃ k, k < 4 ∧ mfind sh.oplog k = none) →
      ∃ t sh' k e, exec (f.instr d a) s = .next t ∧ getSheaf t c.bed c.sheaf = some sh' ∧
        sh' = { advance c sh with oplog := mset sh.oplog k e } ∧ k < 4 ∧ mfind sh.oplog k = none ∧
        e.acc = acc ∧ e.mask = g.faulted ∧ e.pc = c.pc ∧ e.ctl = c.ctl ∧ e.op = none ∧ e.token = 0#32 ∧ e.kind = g.kind ∧
        t.agenda = g.st.agenda ++ [.pageFault c.bed c.sheaf k]) ∧
    (∀ l, IsFirst (g.violated ||| g.faulted) l → g.violated ≠ 0#32 →
      exec (f.instr d a) s = trap g.st c sh
        { cause := 4, lanes := g.violated ||| g.faulted, lanes2 := 0#32, detail := BitVec.ofNat 32 l, addr := va l })

/-- What stops an access, in order; faulting and violating lanes. -/
def Obligations.AccessChecks : Prop := AccessTraps ∧ AccessFaults

/-- Scratch loads, stores and atomics, with their poison marks. -/
def Obligations.Scratch : Prop := ScratchLoads ∧ ScratchStores ∧ ScratchAtomics

/-- LDC and FENCE. -/
def Obligations.ConstantsAndFences : Prop := ConstLoads ∧ Fences

/-! ## The matrix engine (R265 to R276) -/

namespace Sys2Proof.Claim

/-- The bytes of a B operand lie in the launch's range, in units without poison (R84, R265). -/
def BClean (s : State) (c : Cur) (sh : Sheaf) (rs : List (Nat × Nat)) : Prop :=
  ∀ r ∈ rs, bsOk s c.bed r.1 r.2 = true ∧
    ∀ u, r.1 / 64 ≤ u → u ≤ (r.1 + r.2 - 1) / 64 → mget (getCore s sh.place.core).bsPoison u false = false

/-- The same, and outside every range lock (R128). -/
def BReadable (s : State) (c : Cur) (sh : Sheaf) (rs : List (Nat × Nat)) : Prop :=
  BClean s c sh rs ∧ ∀ r ∈ rs, lockHit s sh.place.core false 2 0#16 r.1 r.2 = none

/-- QMM or QMMS. -/
def quarterInstr (sparse : Bool) (t : BitVec 3) (a b : BitVec 7) (l : BitVec 4) : Instr :=
  if sparse then .qmms t a b l else .qmm t a b l

/-- The registers that QMM and QMMS read beside vA to vA+3: metadata and the A scale (R271, R273). -/
def moreRegs (sparse : Bool) (ha : Hdr) (a : Nat) : List Nat :=
  (if sparse then metaRegs ha.fmt a else []) ++ aScaleRegs ha sparse a

/-- In every group of an active lane the first index is below the second (R273). -/
def MetaOk (s : State) (c : Cur) (sh : Sheaf) (a groups : Nat) : Prop :=
  ∀ i, i < 32 → bit (exm c sh) i = true → ∀ g, g < groups → metaIdx s c sh a i (2 * g) < metaIdx s c sh a i (2 * g + 1)

/-- The row of a tile that the core's accumulators hold, apart from pending results. -/
def tileRow (s : State) (core u t r : Nat) : List Word := mget (getCore s core).acc (accKey u t r) zeroRow

/-- No instruction issued before name `id` still has a row to write, in any sheaf of a bed. -/
def RowSettled (s : State) (b id u t r : Nat) : Prop :=
  ∀ bd, getBed s b = some bd → ∀ w ∈ bd.sheaves, ∀ o ∈ w.2.long, o.id < id → ∀ x ∈ o.writes, x.row? u t r = none

/-- What an instruction that writes rows at once leaves: `new i` in the row of each active lane, every other row and all else as it was;
rows that older instructions would still write into those places are dropped (R266). -/
structure RowsWritten (s t : State) (c : Cur) (sh : Sheaf) (tile : Nat) (new : Nat → List Word) : Prop where
  rows : ∀ i, i < 32 → bit (exm c sh) i = true → tileRow t sh.place.core (unitOf sh i) tile (i % 8) = new i ∧
    RowSettled t c.bed s.nextKey (unitOf sh i) tile (i % 8)
  others : ∀ u y r, y < 8 → r < 8 → (∀ i, i < 32 → bit (exm c sh) i = true → ¬(u = unitOf sh i ∧ y = tile ∧ r = i % 8)) →
    tileRow t sh.place.core u y r = tileRow s sh.place.core u y r
  sheaf : ∃ sh', getSheaf t c.bed c.sheaf = some sh' ∧ (∀ u i n, i < 32 → laneView u sh' i n = laneView u (advance c sh) i n) ∧
    (∀ u k n, groupView u k sh' n = groupView u k (advance c sh) n) ∧ sh' = { advance c sh with long := sh'.long }
  memory : t.mem = s.mem ∧ t.home = s.home ∧ t.l2 = s.l2 ∧ t.plots = s.plots ∧ ∀ k, (getCore t k).bstore = (getCore s k).bstore

end Sys2Proof.Claim

/-- R265, R272 and R273: a QMM or QMMS whose checks pass owes each active lane's row the accumulators of R72 to R74 over its K range, or
carries the FP trap; no lane or group register changes. -/
def Sys2Proof.Claim.QuarterProducts : Prop :=
  ∀ (sparse : Bool) (t : BitVec 3) (a b : BitVec 7) (l : BitVec 4) (s : State) (c : Cur) (sh : Sheaf) (row : PairRow),
    Issues s c sh → Active c sh →
    let core := sh.place.core
    let ha := hdrOf (rdG s c sh (rn b))
    let hb := hdrOf (rdG s c sh (rn b + 1))
    let ks := List.range (row.kw * (ha.kext + 1))
    let d : Dot := { ha := ha, hb := hb, row := row, ks := below (row.kw * (ha.kext + 1)), rd := bsByte s core }
    let old := fun i => accRow s core (unitOf sh i) t.toNat (i % 8)
    let arow := fun i => laneRow s c sh ha hb row.kw sparse (rn a) i
    let new := fun i => d.accs (arow i) (old i)
    let inp := fun i => d.nfIn (arow i)
    let out := fun i => !inp i && !intMode ha hb && (new i).any nonFinite
    holdsClaim s c.bed core = true → rdGP s c sh (rn b) = false → rdGP s c sh (rn b + 1) = false →
    headersOk ha hb sparse false = some row →
    InBudget c sh (regsFrom (rn a) 4 ++ moreRegs sparse ha (rn a)) →
    Unpoisoned s c sh (regsFrom (rn a) 4 ++ moreRegs sparse ha (rn a)) →
    (sparse = true → MetaOk s c sh (rn a) (ks.length / 4)) → BReadable s c sh (bRanges hb row.kw (below (hb.kext + 1))) →
    ∃ sh' u o, exec (quarterInstr sparse t a b l) s = .next u ∧ getSheaf u c.bed c.sheaf = some (advance c sh') ∧
      sh' = { sh with long := sh.long ++ [o] } ∧ o.id = s.nextKey ∧
      o.spans = lanes.map (fun i => if bit c.ctl i ∧ sh.precfp = false then l.toNat else 0) ∧
      Carries (src c sh) o (activeMask (exm c sh) inp) (activeMask (exm c sh) out) ∧
      (∀ w, w ∈ o.writes ↔ ∃ i, i < 32 ∧ bit (exm c sh) i = true ∧ w = .row (unitOf sh i) t.toNat (i % 8) (new i)) ∧
      (∀ i n, i < 32 → SameLane sh sh' i n) ∧ (∀ k n, SameGroup sh sh' k n) ∧ StoresNothing s u

/-- R265: what stops a QMM or QMMS, in order: no claim, poisoned operands, headers that are no pair of Table 11.3, metadata whose indices
do not rise. -/
def Sys2Proof.Claim.QuarterTraps : Prop :=
  ∀ (sparse : Bool) (t : BitVec 3) (a b : BitVec 7) (l : BitVec 4) (s : State) (c : Cur) (sh : Sheaf) (f : Nat),
    Issues s c sh → IsFirst (exm c sh) f → InBudget c sh (regsFrom (rn a) 4) →
    let i := quarterInstr sparse t a b l
    let m := exm c sh
    let ha := hdrOf (rdG s c sh (rn b))
    let hb := hdrOf (rdG s c sh (rn b + 1))
    (holdsClaim s c.bed sh.place.core = false →
      exec i s = trap s c sh { cause := 4, lanes := m, lanes2 := 0#32, detail := BitVec.ofNat 32 f, addr := 0#64 }) ∧
    (holdsClaim s c.bed sh.place.core = true →
      ((rdGP s c sh (rn b) || rdGP s c sh (rn b + 1)) = true → exec i s = trap s c sh { plainTrap 6 with lanes := m }) ∧
      (rdGP s c sh (rn b) = false → rdGP s c sh (rn b + 1) = false → Unpoisoned s c sh (regsFrom (rn a) 4) →
        headersOk ha hb sparse false = none → exec i s = trap s c sh (plainTrap 9)) ∧
      (rdGP s c sh (rn b) = false → rdGP s c sh (rn b + 1) = false → ∀ row, headersOk ha hb sparse false = some row →
        InBudget c sh (moreRegs sparse ha (rn a)) →
        Unpoisoned s c sh (regsFrom (rn a) 4 ++ moreRegs sparse ha (rn a)) → ∀ x g, sparse = true →
        IsFirst (activeMask m (fun i => (List.range (row.kw * (ha.kext + 1) / 4)).any (fun g =>
          decide (¬ metaIdx s c sh (rn a) i (2 * g) < metaIdx s c sh (rn a) i (2 * g + 1))))) x →
        g < row.kw * (ha.kext + 1) / 4 → ¬ metaIdx s c sh (rn a) x (2 * g) < metaIdx s c sh (rn a) x (2 * g + 1) →
        (∀ j, j < g → metaIdx s c sh (rn a) x (2 * j) < metaIdx s c sh (rn a) x (2 * j + 1)) →
        exec i s = trap s c sh { plainTrap 8 with detail := BitVec.ofNat 32 (x + g * 256) }))

/-- R276: MVT gives each active lane N dot products, started from −0 in groups of eight and rounded under R72, or carries the FP trap. -/
def Sys2Proof.Claim.ThreadVector : Prop :=
  ∀ (d a b : BitVec 7) (l : BitVec 4) (s : State) (c : Cur) (sh : Sheaf) (kk nn es lo : Nat), Issues s c sh → Active c sh →
    let core := sh.place.core
    let w := fun k j => mvtW (bsByte s core) lo nn es k j
    let x := fun i k => mvtVal es (rdV s c sh i (rn a + k)).toNat
    let y := fun i j => dotAcc 3 8 0x80000000 ((List.range kk).map (fun k => (x i k).mul (w k j)))
    let inp := fun i => (List.range kk).any (fun k => (x i k).nonfinite || (List.range nn).any (fun j => (w k j).nonfinite))
    let out := fun i => !inp i && (List.range nn).any (fun j => badElement fp32 (y i j))
    mvtHeader (rdG s c sh (rn b)) = some (kk, nn, es, lo) → holdsClaim s c.bed core = true → rdGP s c sh (rn b) = false →
    InBudget c sh (rn d :: regsFrom (rn a) kk ++ regsFrom (rn d) nn) → Unpoisoned s c sh (regsFrom (rn a) kk) →
    (rn d + nn ≤ rn a ∨ rn a + kk ≤ rn d) → BReadable s c sh [(lo, kk * nn * es)] →
    ∃ sh' u o, exec (.mvt d a b l) s = .next u ∧ getSheaf u c.bed c.sheaf = some (advance c sh') ∧
      sh' = { sh with long := sh.long ++ [o] } ∧ o.id = s.nextKey ∧ StoresNothing s u ∧
      Carries (src c sh) o (activeMask (exm c sh) inp) (activeMask (exm c sh) out) ∧
      (o.trap = none →
        LoadHolds c sh sh' (rn d) nn (fun _ => false) (fun i j => (BitVec.ofNat 32 (y i j), false)) ∧
        OtherLanes (exm c sh) (regsFrom (rn d) nn) sh sh') ∧
      (o.trap ≠ none → OtherLanes 0#32 [] sh sh')

/-- R275: MREAD gives vD to vD+15 the sixteen elements of each active lane's row, never poisoned; outside every lookahead span it sees
every issued accumulation. -/
def Sys2Proof.Claim.TileReads : Prop :=
  ∀ (d : BitVec 7) (t : BitVec 3) (s : State) (c : Cur) (sh : Sheaf), Issues s c sh → Active c sh → d.toNat % 16 = 0 →
    InBudget c sh (regsFrom (rn d) 16) → holdsClaim s c.bed sh.place.core = true →
    ∃ sh' u, exec (.mread d t) s = .next u ∧ MovesOn s u c sh' ∧ LaneFrame (exm c sh) (regsFrom (rn d) 16) sh sh' ∧
      (∀ x i k, i < 32 → k < 16 → bit (exm c sh) i = true → (laneView x sh' i (rn d + k)).2 = false) ∧
      (∀ x i k, i < 32 → k < 16 → bit (exm c sh) i = true →
        (∀ bd, getBed s c.bed = some bd → ∀ w ∈ bd.sheaves, w.1 = c.sheaf → inSpan w.2 i = false) →
        (laneView x sh' i (rn d + k)).1 = lget (accRow s sh.place.core (unitOf sh i) t.toNat (i % 8)) k 0#32)

/-- R275: MWRITE writes each active lane's row from vA to vA+15, and MZERO with +0.0, after every issued accumulation (R266). -/
def Sys2Proof.Claim.TileWrites : Prop :=
  ∀ (t : BitVec 3) (a : BitVec 7) (s : State) (c : Cur) (sh : Sheaf), Issues s c sh → Active c sh → holdsClaim s c.bed sh.place.core = true →
    (InBudget c sh (regsFrom (rn a) 16) → Unpoisoned s c sh (regsFrom (rn a) 16) →
      ∃ u, exec (.mwrite t a) s = .next u ∧
        RowsWritten s u c sh t.toNat (fun i => (List.range 16).map (fun k => rdV s c sh i (rn a + k)))) ∧
    (∃ u, exec (.mzero t) s = .next u ∧ RowsWritten s u c sh t.toNat (fun _ => List.replicate 16 0#32))

/-- QMM and QMMS: what they owe, and what stops them. -/
def Obligations.QuarterMatrix : Prop := QuarterProducts ∧ QuarterTraps

/-- MVT, MREAD, MWRITE and MZERO. -/
def Obligations.VectorAndTiles : Prop := ThreadVector ∧ TileReads ∧ TileWrites

/-! ## Branches, threads and windows (chapters 1 and 8) -/

namespace Sys2Proof.Claim

/-- Threads of the control set go to their targets where a mask holds them and to the next instruction otherwise; every other thread,
register and store is as it was (R11, R200). -/
structure Goes (s t : State) (c : Cur) (sh sh' : Sheaf) (m : Mask) (target : Nat → DWord) : Prop where
  only : t = putSheaf s c sh'
  stores : StoresNothing s t
  pcs : ∀ i, i < 32 → lget sh'.pcs i 0#64 =
    if bit c.ctl i then (if bit m i then target i else c.pc + BitVec.ofNat 64 c.len) else lget sh.pcs i 0#64

/-- Nothing of the sheaf but its program counters differs. -/
def OnlyPcs (sh sh' : Sheaf) : Prop := sh' = { sh with pcs := sh'.pcs }

/-- The target of a register jump: the region of P, and the lane's word (R202). -/
def jumpTarget (s : State) (c : Cur) (sh : Sheaf) (a : BitVec 7) (i : Nat) : DWord :=
  BitVec.ofNat 64 (c.pc.toNat / 2 ^ 32 * 2 ^ 32 + (rdV s c sh i (rn a)).toNat)

/-- A poison-use trap of some lanes is taken, and nothing else happens (R56). -/
def TrapsPoison (i : Instr) (s : State) (c : Cur) (sh : Sheaf) (m : Mask) : Prop :=
  exec i s = .next (takeTrap s c.bed c.sheaf
    (trapRecord sh { cause := 6, lanes := m, lanes2 := 0#32, detail := 0#32, addr := 0#64 } c.pc c.pc c.ctl c.inst0 c.inst1 true false
      false))

/-- A trap with a TDETAIL is taken at P, and nothing else happens. -/
def TrapsWith (i : Instr) (s : State) (c : Cur) (sh : Sheaf) (cause detail : Nat) (resume : DWord) : Prop :=
  exec i s = .next (takeTrap s c.bed c.sheaf
    (trapRecord sh { cause := cause, lanes := 0#32, lanes2 := 0#32, detail := BitVec.ofNat 32 detail, addr := 0#64 } c.pc resume c.ctl
      c.inst0 c.inst1 true false false))

/-- The sheaf goes on to the next instruction with a new content. -/
def Becomes (i : Instr) (s : State) (c : Cur) (sh' : Sheaf) : Prop := ∃ t, exec i s = .next t ∧ MovesOn s t c sh'

/-- Control fields in which two contents of a sheaf agree: registers, tags, windows, traps and everything else but program counters, park
states, rejoin registers, lookahead spans (instructions in flight are the same but for theirs) and the yield. -/
def SameButThreads (sh sh' : Sheaf) : Prop :=
  sh' = { sh with
    pcs := sh'.pcs, park := sh'.park, je := sh'.je, ja := sh'.ja, long := sh'.long, span := sh'.span, yieldFor := sh'.yieldFor,
    wdcnt := sh'.wdcnt } ∧
  sh'.long.map (fun o => { o with spans := [] }) = sh.long.map (fun o => { o with spans := [] })

/-- The threads of a mask are in a park state and the others where they were. -/
def Parked (sh sh' : Sheaf) (m : Mask) (p : Park) : Prop :=
  ∀ i, i < 32 → parkOf sh' i = if bit m i then p else parkOf sh i

/-- Threads parked on jK that are counted in A run again; no other park state changes (R22, R208). -/
def Released (sh sh' : Sheaf) (k : BitVec 4) (a : Word) : Prop :=
  ∀ i, i < 32 → parkOf sh' i = if parkOf sh i = .join k ∧ bit a i = true then .run else parkOf sh i

/-- Register jK holds E and A, and every other rejoin register is as it was. -/
def JoinHolds (sh sh' : Sheaf) (k : BitVec 4) (e a : Word) : Prop :=
  (jE sh' k.toNat = e ∧ jA sh' k.toNat = a) ∧ ∀ j, j ≠ k.toNat → jE sh' j = jE sh j ∧ jA sh' j = jA sh j

/-- The part of a sheaf that a yield by itself changes (R37): the sheaves that go first are the other runnable ones of its slot whose
priority is not lower. -/
def Yielded (s t : State) (c : Cur) (sh' : Sheaf) : Prop :=
  ∃ fs, getSheaf t c.bed c.sheaf = some { sh' with yieldFor := fs, wdcnt := 0 } ∧
    (∀ x, x ∈ fs ↔ x ∈ yieldOthers s c.bed c.sheaf sh') ∧ StoresNothing s t

/-- jK releases once the threads of a mask are taken out of its expected set (R23). -/
def LeaveReleases (sh : Sheaf) (m : Mask) (k : Nat) : Prop :=
  jE sh k &&& ~~~m ≠ 0#32 ∧ jE sh k &&& ~~~m &&& ~~~(jA sh k) = 0#32

end Sys2Proof.Claim

/-- R200 to R202 and R175: BR, BRN, BRA, CALL and JMPR in normal mode.  Active threads whose condition holds go to P + 4 × disp, or where
their lane says; the others of the control set fall through.  A poisoned mask or target traps, and poison comes before misalignment. -/
def Sys2Proof.Claim.NormalBranches : Prop :=
  ∀ (m a : BitVec 7) (j : BitVec 18) (k : BitVec 25) (s : State) (c : Cur) (sh : Sheaf), Issues s c sh → sh.handler = false →
    (rdGP s c sh (rn m) = false ∨ exm c sh = 0#32 →
      (∃ sh' t, exec (.br m j) s = .next t ∧ OnlyPcs sh sh' ∧
        Goes s t c sh sh' (exm c sh &&& rdG s c sh (rn m)) (fun _ => BitVec.ofInt 64 (c.pc.toInt + 4 * j.toInt))) ∧
      (∃ sh' t, exec (.brn m j) s = .next t ∧ OnlyPcs sh sh' ∧
        Goes s t c sh sh' (exm c sh &&& ~~~(rdG s c sh (rn m))) (fun _ => BitVec.ofInt 64 (c.pc.toInt + 4 * j.toInt)))) ∧
    (rdGP s c sh (rn m) = true → exm c sh ≠ 0#32 →
      TrapsPoison (.br m j) s c sh (exm c sh) ∧ TrapsPoison (.brn m j) s c sh (exm c sh)) ∧
    (∃ sh' t, exec (.bra k) s = .next t ∧ OnlyPcs sh sh' ∧
      Goes s t c sh sh' (exm c sh) (fun _ => BitVec.ofInt 64 (c.pc.toInt + 4 * k.toInt))) ∧
    (InBudget c sh [127] →
      ∃ sh1 sh' t, exec (.call k) s = .next t ∧
        LanesHold (exm c sh) sh1 127 (fun _ => BitVec.ofNat 32 (c.pc.toNat + c.len)) (fun _ => false) ∧
        LaneFrame (exm c sh) [127] sh sh1 ∧ OnlyPcs sh1 sh' ∧
        Goes s t c sh1 sh' (exm c sh) (fun _ => BitVec.ofInt 64 (c.pc.toInt + 4 * k.toInt))) ∧
    (InBudget c sh [rn a] →
      ((∀ i, i < 32 → bit (exm c sh) i = true → rdVP s c sh i (rn a) = false ∧ (rdV s c sh i (rn a)).toNat % 4 = 0) →
        ∃ sh' t, exec (.jmpr a) s = .next t ∧ OnlyPcs sh sh' ∧ Goes s t c sh sh' (exm c sh) (jumpTarget s c sh a)) ∧
      ((∃ i, i < 32 ∧ bit (exm c sh) i = true ∧ rdVP s c sh i (rn a) = true) →
        TrapsPoison (.jmpr a) s c sh (maskOf (fun i => bit (exm c sh) i && rdVP s c sh i (rn a)))))

/-- R343: in handler mode every lane acts, no thread moves, and BRA, or a BR or BRN whose mask agrees in every lane, moves the
handler's own stream. -/
def Sys2Proof.Claim.HandlerBranches : Prop :=
  ∀ (m : BitVec 7) (j : BitVec 18) (k : BitVec 25) (s : State) (c : Cur) (sh : Sheaf), Issues s c sh → sh.handler = true →
    exec (.bra k) s = .next (putSheaf s c { sh with hpc := BitVec.ofInt 64 (c.pc.toInt + 4 * k.toInt) }) ∧
    (rdGP s c sh (rn m) = false → rdG s c sh (rn m) = 0xFFFFFFFF#32 →
      exec (.br m j) s = .next (putSheaf s c { sh with hpc := BitVec.ofInt 64 (c.pc.toInt + 4 * j.toInt) }) ∧
      exec (.brn m j) s = .next (putSheaf s c { sh with hpc := c.pc + BitVec.ofNat 64 c.len })) ∧
    (rdGP s c sh (rn m) = false → rdG s c sh (rn m) = 0#32 →
      exec (.brn m j) s = .next (putSheaf s c { sh with hpc := BitVec.ofInt 64 (c.pc.toInt + 4 * j.toInt) }) ∧
      exec (.br m j) s = .next (putSheaf s c { sh with hpc := c.pc + BitVec.ofNat 64 c.len }))

/-- R12, R21, R203 to R205, R212: NOP, PRED, UNPRED, SETJ, REGION, WBASE, WBASE.rel, BKPT and TRAP act on the whole control set. -/
def Obligations.ControlWords : Prop :=
  ∀ (m n : BitVec 7) (k : BitVec 4) (w : BitVec 5) (r : BitVec 6) (s : State) (c : Cur) (sh : Sheaf), Issues s c sh →
    Becomes .nop s c sh ∧
    (rdGP s c sh (rn m) = false ∨ c.ctl = 0#32 →
      ∃ on', Becomes (.pred m) s c { sh with on := on' } ∧
        ∀ i, i < 32 → bit on' i = if bit c.ctl i then bit (rdG s c sh (rn m)) i else bit sh.on i) ∧
    (∃ on', Becomes .unpred s c { sh with on := on' } ∧ ∀ i, i < 32 → bit on' i = (bit c.ctl i || bit sh.on i)) ∧
    (jE sh k.toNat = 0#32 → ∃ sh', Becomes (.setj k) s c sh' ∧ sh' = { sh with je := sh'.je, ja := sh'.ja } ∧
      JoinHolds sh sh' k c.ctl 0#32) ∧
    (∃ ps, Becomes .region s c { sh with regionPc := ps, regionCnt := sh.regionCnt + 1#32 } ∧
      ∀ i, i < 32 → lget ps i 0#64 = if bit c.ctl i then c.pc else lget sh.regionPc i 0#64) ∧
    (w.toNat ≤ 24 → ∃ wb', Becomes (.wbase w) s c { sh with wb := wb' } ∧
      ∀ i, i < 32 → lget wb' i 0 = if bit c.ctl i then w.toNat else lget sh.wb i 0) ∧
    ((∀ i, i < 32 → bit c.ctl i = true → 0 ≤ ((lget sh.wb i 0 : Nat) : Int) + r.toInt ∧ ((lget sh.wb i 0 : Nat) : Int) + r.toInt ≤ 24) →
      ∃ wb', Becomes (.wbaseRel r) s c { sh with wb := wb' } ∧
        ∀ i, i < 32 → ((lget wb' i 0 : Nat) : Int) = if bit c.ctl i then ((lget sh.wb i 0 : Nat) : Int) + r.toInt else ((lget sh.wb i 0 : Nat) : Int)) ∧
    (sh.handler = false → TrapsWith .bkpt s c sh 16 0 c.pc ∧ TrapsWith (.trap n) s c sh 15 n.toNat (c.pc + BitVec.ofNat 64 c.len) ∧
      (jE sh k.toNat ≠ 0#32 → TrapsWith (.setj k) s c sh 13 k.toNat c.pc) ∧ TrapsWith .hret s c sh 2 0 c.pc ∧
      (rdGP s c sh (rn m) = true → c.ctl ≠ 0#32 → TrapsPoison (.pred m) s c sh c.ctl))

/-- R22 to R24, R37 and R211: JOIN parks the threads that jK expects, or releases them all when the last has come; JLEAVE takes threads out
of it; with levels of jK spilled JOIN holds the threads that jK does not expect, and JOIN and JLEAVE raise a rejoin overflow where the
spilled level is needed; YIELD and YIELD.g move on and give the slot away. -/
def Sys2Proof.Claim.Joins : Prop :=
  ∀ (k : BitVec 4) (s : State) (c : Cur) (sh : Sheaf), Issues s c sh →
    (sh.handler = false → (∀ i, i < 32 → bit c.ctl i = true → parkOf sh i = .run) → spill sh k.toNat = 0 ∨ jE sh k.toNat ≠ 0#32 →
      ∃ t sh', exec (.join k) s = .next t ∧ getSheaf t c.bed c.sheaf = some sh' ∧ StoresNothing s t ∧ SameButThreads sh sh' ∧
        (∀ i, i < 32 → lget sh'.pcs i 0#64 = if bit c.ctl i then c.pc + BitVec.ofNat 64 c.len else lget sh.pcs i 0#64) ∧
        (jE sh k.toNat ≠ 0#32 → jE sh k.toNat &&& ~~~(jA sh k.toNat ||| c.ctl) = 0#32 → JoinHolds sh sh' k 0#32 0#32 ∧
          (spill sh k.toNat = 0 → Released sh sh' k (jA sh k.toNat)) ∧
          (spill sh k.toNat ≠ 0 → ∀ i, i < 32 → parkOf sh' i =
            if bit (c.ctl &&& ~~~(jE sh k.toNat) &&& ~~~(jA sh k.toNat)) i then .join k
            else if parkOf sh i = .join k ∧ bit (jA sh k.toNat) i = true then .run else parkOf sh i)) ∧
        (jE sh k.toNat &&& ~~~(jA sh k.toNat ||| c.ctl) ≠ 0#32 →
          JoinHolds sh sh' k (jE sh k.toNat) (jA sh k.toNat ||| (c.ctl &&& jE sh k.toNat)) ∧
          Parked sh sh' (if spill sh k.toNat = 0 then c.ctl &&& jE sh k.toNat else c.ctl) (.join k)) ∧
        (jE sh k.toNat = 0#32 → jA sh k.toNat = 0#32 → JoinHolds sh sh' k 0#32 0#32 ∧ Parked sh sh' 0#32 .run)) ∧
    (sh.handler = false → spill sh k.toNat ≠ 0 →
      (jE sh k.toNat = 0#32 → TrapsWith (.join k) s c sh 13 (k.toNat + 16) c.pc) ∧
      (jE sh k.toNat = 0#32 ∨ c.ctl &&& ~~~(jE sh k.toNat) ≠ 0#32 → TrapsWith (.jleave k) s c sh 13 (k.toNat + 32) c.pc)) ∧
    (spill sh k.toNat = 0 ∨ jE sh k.toNat ≠ 0#32 ∧ c.ctl &&& ~~~(jE sh k.toNat) = 0#32 → ∃ sh', Becomes (.jleave k) s c sh' ∧
      (jE sh k.toNat &&& ~~~c.ctl &&& ~~~(jA sh k.toNat) ≠ 0#32 →
        sh' = { sh with je := sh'.je, ja := sh'.ja } ∧ JoinHolds sh sh' k (jE sh k.toNat &&& ~~~c.ctl) (jA sh k.toNat)) ∧
      (LeaveReleases sh c.ctl k.toNat →
        sh' = { sh with je := sh'.je, ja := sh'.ja, park := sh'.park } ∧ JoinHolds sh sh' k 0#32 0#32 ∧
        Released sh sh' k (jA sh k.toNat)) ∧
      (jE sh k.toNat &&& ~~~c.ctl = 0#32 → (∀ i, i < 32 → parkOf sh i = .join k → bit (jA sh k.toNat) i = false) →
        sh' = { sh with je := sh'.je, ja := sh'.ja } ∧ JoinHolds sh sh' k 0#32 0#32)) ∧
    (∀ i ∈ [Instr.yield, Instr.yieldG], ∃ t sh', exec i s = .next t ∧ SameButThreads sh sh' ∧ sh'.park = sh.park ∧
      sh'.pcs = sh.pcs ∧ sh'.je = sh.je ∧ sh'.ja = sh.ja ∧ Yielded s t c (advance c sh'))

/-- R23 and R39: EXIT ends the threads of its control set and takes them out of every rejoin register, which releases its threads where all
that it still expects have come; the others stand where they stood. -/
def Sys2Proof.Claim.ThreadEnds : Prop :=
  ∀ (s : State) (c : Cur) (sh : Sheaf), Issues s c sh → sh.handler = false → (∀ i, i < 32 → bit c.ctl i = true → parkOf sh i = .run) →
    ∃ t sh', exec .exit s = .next t ∧ getSheaf t c.bed c.sheaf = some sh' ∧ StoresNothing s t ∧ SameButThreads sh sh' ∧
      (∀ i, i < 32 →
        (bit c.ctl i = true → parkOf sh' i = .done) ∧
        ((∃ k : BitVec 4, parkOf sh i = .join k ∧ bit (jA sh k.toNat) i = true ∧ LeaveReleases sh c.ctl k.toNat) → parkOf sh' i = .run) ∧
        (bit c.ctl i = false →
          (∀ k : BitVec 4, parkOf sh i = .join k → bit (jA sh k.toNat) i = true → ¬LeaveReleases sh c.ctl k.toNat) →
          parkOf sh' i = parkOf sh i)) ∧
      sh'.pcs = sh.pcs ∧
      (∀ k, k < 16 →
        (jE sh k = 0#32 → jE sh' k = 0#32 ∧ jA sh' k = jA sh k) ∧
        (jE sh k &&& ~~~c.ctl &&& ~~~(jA sh k) ≠ 0#32 → jE sh' k = jE sh k &&& ~~~c.ctl ∧ jA sh' k = jA sh k) ∧
        (LeaveReleases sh c.ctl k → jE sh' k = 0#32 ∧ jA sh' k = 0#32) ∧
        (jE sh k ≠ 0#32 → jE sh k &&& ~~~c.ctl = 0#32 → (∀ i, i < 32 → parkOf sh i = .join (BitVec.ofNat 4 k) → bit (jA sh k) i = false) →
          jE sh' k = 0#32 ∧ jA sh' k = 0#32)) ∧
      ((∃ i, i < 32 ∧ parkOf sh' i ≠ .done) → t = putSheaf s c sh')

/-- Branches, calls and JMPR, in normal and in handler mode. -/
def Obligations.Branches : Prop := NormalBranches ∧ HandlerBranches

/-- JOIN, JLEAVE, YIELD and EXIT. -/
def Obligations.JoinsAndEnds : Prop := Joins ∧ ThreadEnds

/-! ## Barriers (R249 to R258) -/

namespace Sys2Proof.Claim

/-- A barrier instruction's reference is clean and sound, and its object is reached at `l` without a trap (R239, R249): in the plot's
scratch, or at a mapped VA, whose object the launch then names (R361).  `s1` is the state once the object is reached. -/
def ObjectAt (s : State) (c : Cur) (sh : Sheaf) (a : BitVec 7) (write : Bool) (l : BarLoc) (s1 : State) : Prop :=
  let ref := rdG64 s c sh (rn a)
  let core := sh.place.core
  rdGP s c sh (rn a) = false ∧ rdGP s c sh (rn a + 1) = false ∧ ref.toNat / 4 % 4 = 0 ∧
  ((ref.toNat % 4 = 1 ∧ ref.toNat < 2 ^ 32 ∧ scratchOk s (plotOf core) (launchKey s c.bed) (refScratch ref) 16 = true ∧
      lockHit s core write 1 (asidOf s c.bed) (refScratch ref) 16 = none ∧
      l = { scratch := true, plot := plotOf core, loc := refScratch ref } ∧ s1 = s) ∨
    (ref.toNat % 4 = 0 ∧ canonical (refVa ref) = true ∧ lockHit s core write 0 (asidOf s c.bed) (refVa ref).toNat 16 = none ∧
      ∃ pa syn x, Maps s core (asidOf s c.bed) (refVa ref) (if write then .write else .read) pa syn ∧
        l = { scratch := false, plot := 0, loc := pa } ∧
        s1 = (let u := { s with tlb := mset s.tlb (tlbKey core (asidOf s c.bed) (refVa ref)) x }
              if write then touchBy u c.bed core ref else u)))

/-- Only the four words of an object at a location differ in memory and scratch. -/
def OnlyObject (s t : State) (l : BarLoc) : Prop :=
  (if l.scratch then OtherWords [] s t else OtherWords ((List.range 4).map (fun k => l.loc / 4 + k)) s t) ∧
  (∀ p b, (l.scratch = true → p = l.plot → b < l.loc / 4 * 4 ∨ l.loc / 4 * 4 + 16 ≤ b) → scratchAt t p b = scratchAt s p b) ∧
  (∀ p, (getPlot t p).marks = (getPlot s p).marks)

/-- An instruction of a group completes: its destination takes a value, its threads move on, and the rest of the sheaf is as it was. -/
def Gives (i : Instr) (s t : State) (c : Cur) (sh : Sheaf) (d : BitVec 7) (val : Word) : Prop :=
  exec i s = .next t ∧ ∃ sh', getSheaf t c.bed c.sheaf = some (advance c sh') ∧ GroupHolds sh' (rn d) val false ∧ GroupFrame [rn d] sh sh'

/-- What an arrival of n with status bits makes of an object (R254): the phase goes on, or ends with the union of its status bits, 64 added
where more than the expected number came. -/
def Arrived (o o' : Bar) (n st : Nat) : Prop :=
  if n < o.left then o' = { o with left := o.left - n, pend := Nat.lor o.pend st }
  else o' = { o with
    gen := o.gen + 1#32, left := o.expect, pend := 0,
    status := if o.left < n then Nat.lor (Nat.lor o.pend st) 64 else Nat.lor o.pend st }

/-- The object is sound (R250). -/
def Sound (o : Bar) : Prop := 1 ≤ o.expect ∧ o.left ≤ o.expect ∧ o.scope ≤ 5 ∧ o.reservedZero = true

/-- The arrival instructions. -/
def arriveInstr (counted : Bool) (d a b : BitVec 7) : Instr := if counted then .barriven d a b else .barrive d a b

end Sys2Proof.Claim

/-- R252 and R253: BINIT makes a fresh object and gives 0, or gives 1 and changes nothing where waiters are registered or a phase has
begun. -/
def Sys2Proof.Claim.BarrierInit : Prop :=
  ∀ (d a b : BitVec 7) (s s1 : State) (c : Cur) (sh : Sheaf) (l : BarLoc), Issues s c sh → Active c sh →
    ObjectAt s c sh a true l s1 → rdGP s c sh (rn b) = false →
    let w := (rdG s c sh (rn b)).toNat
    let busy := (∃ x ∈ s.bwait, x.isAt l = true ∧ x.woken = false) ∨ (0 < (barAt s l).left ∧ (barAt s l).left < (barAt s l).expect)
    (w % 2 ^ 16 = 0 ∨ 5 < w / 2 ^ 16 % 8 ∨ w / 2 ^ 19 ≠ 0 → exec (.binit d a b) s = trap s c sh (plainTrap 12)) ∧
    (w % 2 ^ 16 ≠ 0 → w / 2 ^ 16 % 8 ≤ 5 → w / 2 ^ 19 = 0 →
      (busy → ∃ t, Gives (.binit d a b) s t c sh d 1#32 ∧ OnlyObject s1 t l ∧ barAt t l = barAt s l) ∧
      (¬busy → ∃ t, Gives (.binit d a b) s t c sh d 0#32 ∧ OnlyObject s1 t l ∧ barWord t l 3 = 0#32 ∧
        barAt t l = { gen := 0#32, expect := w % 2 ^ 16, left := w % 2 ^ 16, scope := w / 2 ^ 16 % 8, status := 0, pend := 0,
                      reservedZero := true }))

/-- R254 and R257: BARRIVE and BARRIVEN release at their scope, give the generation they arrived in, and wake the waiters of a phase
that ends; BTEST reads the object. -/
def Sys2Proof.Claim.BarrierArrivals : Prop :=
  ∀ (counted : Bool) (d a b : BitVec 7) (e : BitVec 1) (s s1 : State) (c : Cur) (sh : Sheaf) (l : BarLoc), Issues s c sh → Active c sh →
    (ObjectAt s c sh a true l s1 → rdGP s c sh (rn b) = false → arriveOk (rdG s c sh (rn b)) counted = true →
      let w := (rdG s c sh (rn b)).toNat
      let n := if counted then w / 2 ^ 16 else 1
      let s2 := releaseAt s1 sh.place.core (w % 8)
      let o := barAt s2 l
      (Sound o → ∃ t, Gives (arriveInstr counted d a b) s t c sh d o.gen ∧ OnlyObject s2 t l ∧
        Arrived o (barAt t l) n (w / 2 ^ 8 % 64) ∧
        (o.left ≤ n → ∀ x ∈ t.bwait, x.isAt l = true → x.woken = true) ∧ (n < o.left → t.bwait = s.bwait)) ∧
      (¬Sound o → exec (arriveInstr counted d a b) s = trap s2 c sh (plainTrap 12))) ∧
    (ObjectAt s c sh a false l s1 →
      let o := barAt s l
      (Sound o → Gives (.btest d a e) s
          (putSheaf s1 c (advance c (writeGroup sh (rn d)
            (if e = 0#1 then o.gen else BitVec.ofNat 32 (o.left + 2 ^ 16 * o.status + 2 ^ 24 * o.pend)) false))) c sh d
          (if e = 0#1 then o.gen else BitVec.ofNat 32 (o.left + 2 ^ 16 * o.status + 2 ^ 24 * o.pend))) ∧
      (¬Sound o → exec (.btest d a e) s = trap s1 c sh (plainTrap 12)))

/-- R256: WAITB parks the active threads while the generation stands; after it, it gives the phase's status with the new generation above it
and yields; and the wake of a registered waiter does the same for the threads that it parked.  A handler's WAITB, which may change no
thread (R343), stands at its instruction, registers nothing and yields: the model's choice (log 27). -/
def Sys2Proof.Claim.BarrierWaiting : Prop :=
  ∀ (d a b : BitVec 7) (s s1 : State) (c : Cur) (sh : Sheaf) (l : BarLoc), Issues s c sh → Active c sh → ObjectAt s c sh a true l s1 →
    rdGP s c sh (rn b) = false → Sound (barAt s l) →
    ((barAt s l).gen = rdG s c sh (rn b) → sh.handler = true → ∃ t, exec (.waitb d a b) s = .next t ∧ Yielded s1 t c sh) ∧
    ((barAt s l).gen = rdG s c sh (rn b) → sh.handler = false →
      ∃ t sh', exec (.waitb d a b) s = .next t ∧ getSheaf t c.bed c.sheaf = some sh' ∧ Parked sh sh' (exm c sh) (.wait .barrier) ∧
        SameButThreads sh sh' ∧ OnlyObject s1 t l ∧ barAt t l = barAt s l ∧
        (∃ x ∈ t.bwait, x.isAt l = true ∧ x.bed = c.bed ∧ x.sheaf = c.sheaf ∧ x.pc = c.pc ∧ x.mask = exm c sh ∧ x.d = d ∧
          x.woken = false) ∧
        (∀ i, i < 32 → bit (exm c sh) i = true → lget sh'.pcs i 0#64 = lget sh.pcs i 0#64)) ∧
    ((barAt s l).gen ≠ rdG s c sh (rn b) →
      let val := BitVec.ofNat 32 ((barAt s l).status + 256 * ((barAt s l).gen.toNat % 2 ^ 24))
      ∃ t sh', exec (.waitb d a b) s = .next t ∧ GroupHolds sh' (rn d) val false ∧ sh'.park = sh.park ∧
        (∀ u i n, i < 32 → (bit c.ctl i = false → laneView u sh' i n = laneView u sh i n)) ∧
        Yielded (acquireAt s1 sh.place.core (barAt s l).scope) t c (advance c sh'))

/-- R254 to R256: the events of barriers.  A woken waiter's threads run on with the status of their phase; an engine's arrival reaches a
scratch object of its plot as an instruction's would, is nothing in space 2, and is logged where the object is not sound; the event names no
engine and no die, and those of the entry are free (the model's choice, log 35). -/
def Sys2Proof.Claim.BarrierEvents : Prop :=
  (∀ (bed sheaf : Nat) (s : State) (sh : Sheaf) (w : BWait), getSheaf s bed sheaf = some sh →
    s.bwait.find? (fun x => x.bed == bed && x.sheaf == sheaf && x.woken) = some w →
    let o := barAt s { scratch := w.scratch, plot := w.plot, loc := w.loc }
    let m := maskOf (fun i => bit w.mask i && decide (parkOf sh i = .wait .barrier))
    ∃ t sh', exec (.barrierWake bed sheaf) s = .next t ∧ getSheaf t bed sheaf = some sh' ∧ w ∉ t.bwait ∧
      Parked sh sh' m .run ∧ GroupHolds { sh' with handler := false } (rn w.d) (BitVec.ofNat 32 (o.status + 256 * (o.gen.toNat % 2 ^ 24))) false ∧
      (∀ i, i < 32 → lget sh'.pcs i 0#64 = if bit m i then w.pc + 4#64 else lget sh.pcs i 0#64)) ∧
  (∀ (bed sheaf : Nat) (s : State), (∀ x ∈ s.bwait, ¬(x.bed = bed ∧ x.sheaf = sheaf ∧ x.woken = true)) →
    exec (.barrierWake bed sheaf) s = .next s) ∧
  (∀ (asid : BitVec 16) (plot : Nat) (ref : BitVec 64) (count : BitVec 16) (st : BitVec 8) (s : State),
    (ref.toNat % 4 = 2 → exec (.barrierArrival asid plot ref count st) s = .next s) ∧
    (ref.toNat % 4 = 1 → ref.toNat / 16 * 16 < 2 ^ 21 →
      let l : BarLoc := { scratch := true, plot := plot, loc := ref.toNat / 16 * 16 }
      (Sound (barAt s l) → ∃ t, exec (.barrierArrival asid plot ref count st) s = .next t ∧ OnlyObject s t l ∧
        Arrived (barAt s l) (barAt t l) count.toNat st.toNat) ∧
      (¬Sound (barAt s l) → ∃ die detail subject, die < 4 ∧ exec (.barrierArrival asid plot ref count st) s =
        .next (logEvent s 15 die none detail subject))))

/-- BINIT whole; BARRIVE, BARRIVEN and BTEST. -/
def Obligations.BarrierObjects : Prop := BarrierInit ∧ BarrierArrivals

/-- WAITB, the wake of a waiter and the arrival of an engine. -/
def Obligations.BarrierWaits : Prop := BarrierWaiting ∧ BarrierEvents

/-! ## Tiles and queues (R92 to R102, R259, R260) -/

namespace Sys2Proof.Claim

/-- An instruction names, by a handle below the launch's count, a tile bound to entry `e` of its plot (R92, R95). -/
def TileAt (s : State) (c : Cur) (sh : Sheaf) (h e : Nat) (t : Tile) : Prop :=
  h < 32 ∧ h < tilesDeclared s c.bed ∧ tileOf (getPlot s (plotOf sh.place.core)) (posnOf s c.bed) h = some (e, t)

/-- Entry `e` of a plot's tile table becomes `x`; nothing else of any plot changes, and the sheaf moves on. -/
def TileBecomes (s t : State) (c : Cur) (sh : Sheaf) (e : Nat) (x : Tile) : Prop :=
  getSheaf t c.bed c.sheaf = some (advance c sh) ∧ StoresNothing s t ∧
  ∀ p, (getPlot t p) = if p = plotOf sh.place.core then { getPlot s p with tiles := mset (getPlot s p).tiles e x } else getPlot s p

/-- A wait parks the active threads where they stand; the handler's stream, which changes no thread, stands at its instruction (R343). -/
def Waiting (i : Instr) (s t : State) (c : Cur) (sh : Sheaf) (w : WaitFor) : Prop :=
  exec i s = .next t ∧ StoresNothing s t ∧ ∃ sh', getSheaf t c.bed c.sheaf = some sh' ∧ SameButThreads sh sh' ∧
    Parked sh sh' (if sh.handler then 0#32 else exm c sh) (.wait w) ∧
    ∀ i, i < 32 → bit (exm c sh) i = true → lget sh'.pcs i 0#64 = lget sh.pcs i 0#64

/-- The regions of a new tile and of an entry of the table meet. -/
def Meets (base size : Nat) (t : Tile) : Prop :=
  t.bound = true ∧ t.base.toNat * 128 < base + size ∧ base < t.base.toNat * 128 + (t.sizem1.toNat + 1) * 128

/-- A queue instruction reaches the control word at scratch address `ad`: operands clean, aligned, in a legal place, no range lock in the
way (R101). -/
def QueueAt (s : State) (c : Cur) (sh : Sheaf) (a : BitVec 7) (write : Bool) (ad : Nat) : Prop :=
  rdGP s c sh (rn a) = false ∧ ad = (rdG s c sh (rn a)).toNat ∧ ad % 32 = 0 ∧
    scratchOk s (plotOf sh.place.core) (launchKey s c.bed) ad 32 = true ∧ lockHit s sh.place.core write 1 0#16 ad 32 = none

/-- The control word there is sound for the launch (R100). -/
def QueueSound (s : State) (c : Cur) (sh : Sheaf) (ad : Nat) : Prop :=
  queueWordOk s (plotOf sh.place.core) (launchKey s c.bed) (scratchWord s (plotOf sh.place.core) (ad / 4)).1 = true

/-- The element a push gives: group registers from gD, or the lanes of vD. -/
def pushed (s : State) (c : Cur) (sh : Sheaf) (lane : Bool) (d k : Nat) : Word × Bool :=
  if lane then (rdV s c sh k d, rdVP s c sh k d) else (rdG s c sh (d + k), rdGP s c sh (d + k))

/-- Waiters of a kind at a queue. -/
def waiting (s : State) (p ad : Nat) (push : Bool) : List QWait := (getPlot s p).qwait.filter (fun w => w.addr == ad && w.push == push)

/-- Nobody waits at a queue. -/
def NoWaiters (s : State) (p ad : Nat) : Prop := ∀ w ∈ (getPlot s p).qwait, w.addr ≠ ad

/-- The form of an element fits the queue's element size (R101, R260). -/
def Fits (q : Queue) (lane : Bool) (d : Nat) : Prop := if lane then q.size = 128 else d + q.size / 4 ≤ 128

/-- Memory, its caches and every other plot are as they were. -/
def OnlyPlot (s t : State) (p : Nat) : Prop :=
  t.mem = s.mem ∧ t.memPoison = s.memPoison ∧ t.home = s.home ∧ t.l2 = s.l2 ∧ ∀ k, k ≠ p → getPlot t k = getPlot s k

/-- A bit of an instruction as a Boolean operand. -/
def flag (b : Bool) : BitVec 1 := if b then 1#1 else 0#1

end Sys2Proof.Claim

/-- R259, R94 and R95: TSTATE reads a tile's state, TREL empties a READY tile and traps on any other, TWAIT goes on where it is READY and
waits where it is not; an unbound handle traps.  A handler's TWAIT parks no thread and stands: the model's choice (log 27). -/
def Sys2Proof.Claim.TileInstructions : Prop :=
  ∀ (d a : BitVec 7) (s : State) (c : Cur) (sh : Sheaf) (e : Nat) (t : Tile), Issues s c sh → Active c sh →
    rdGP s c sh (rn a) = false →
    let h := (rdG s c sh (rn a)).toNat
    (TileAt s c sh h e t →
      (∃ u, Gives (.tstate d a) s u c sh d (BitVec.ofNat 32 (t.state.toNat + if t.poison then 4 else 0)) ∧ StoresNothing s u) ∧
      (t.state = 2#2 → ∃ u, exec (.trel a) s = .next u ∧ TileBecomes s u c sh e { t with state := 0#2, poison := false }) ∧
      (t.state ≠ 2#2 → exec (.trel a) s = trap s c sh { plainTrap 11 with detail := BitVec.ofNat 32 h }) ∧
      (t.state = 2#2 → ∃ u sh', exec (.twait a) s = .next u ∧ SameButThreads sh sh' ∧ sh'.park = sh.park ∧
        Yielded s u c (advance c sh')) ∧
      (t.state ≠ 2#2 → ∃ u, Waiting (.twait a) s u c sh (.tile h))) ∧
    (tileOf (getPlot s (plotOf sh.place.core)) (posnOf s c.bed) h = none →
      ∀ i ∈ [Instr.tstate d a, .trel a, .twait a],
        exec i s = trap s c sh { plainTrap 11 with detail := BitVec.ofNat 32 (h % 32) })

/-- R93: TCLAIM binds an EMPTY or unbound handle to a region of the launch's scratch that meets no other tile, in the handle's own entry or,
the model's choice (log 138), the lowest that is free; every failure that R93 lists traps. -/
def Sys2Proof.Claim.TileClaims : Prop :=
  ∀ (a b : BitVec 7) (s : State) (c : Cur) (sh : Sheaf) (e : Nat), Issues s c sh → Active c sh →
    rdGP s c sh (rn a) = false → rdGP s c sh (rn b) = false → rdGP s c sh (rn b + 1) = false →
    let h := (rdG s c sh (rn a)).toNat
    let base := (rdG s c sh (rn b)).toNat
    let size := (rdG s c sh (rn b + 1)).toNat
    let pl := getPlot s (plotOf sh.place.core)
    let at_ : LateTrap → Prop := fun r => exec (.tclaim a b) s = trap s c sh r
    let tileState : LateTrap := { plainTrap 11 with detail := BitVec.ofNat 32 (h % 32) }
    let region (cause : Nat) : LateTrap :=
      { plainTrap cause with lanes := exm c sh, detail := BitVec.ofNat 32 (lowestD (exm c sh)), addr := BitVec.ofNat 64 base }
    (32 ≤ h ∨ tilesDeclared s c.bed ≤ h → at_ tileState) ∧
    (h < 32 → h < tilesDeclared s c.bed →
      (base % 128 ≠ 0 → at_ (region 3)) ∧
      (base % 128 = 0 → size = 0 ∨ size % 128 ≠ 0 ∨ scratchOk s (plotOf sh.place.core) (launchKey s c.bed) base size = false → at_ (region 4)) ∧
      (base % 128 = 0 → size % 128 = 0 → size ≠ 0 → scratchOk s (plotOf sh.place.core) (launchKey s c.bed) base size = true →
        (∀ k t, tileOf pl (posnOf s c.bed) h = some (k, t) → t.state ≠ 0#2 ∨ (∃ x ∈ pl.tiles, x.1 ≠ k ∧ Meets base size x.2) → at_ tileState) ∧
        (tileOf pl (posnOf s c.bed) h = none → (∃ x ∈ pl.tiles, x.1 < 256 ∧ Meets base size x.2) → at_ tileState) ∧
        ((match tileOf pl (posnOf s c.bed) h with
          | some (k, t) => k = e ∧ t.state = 0#2
          | none => e < 256 ∧ (mget pl.tiles e Tile.reset).bound = false ∧ ∀ k, k < e → (mget pl.tiles k Tile.reset).bound = true) →
        (∀ x ∈ pl.tiles, x.1 ≠ e ∨ tileOf pl (posnOf s c.bed) h = none → ¬Meets base size x.2) →
        ∃ u, exec (.tclaim a b) s = .next u ∧
          TileBecomes s u c sh e { Tile.reset with
            bound := true, bed := BitVec.ofNat 2 (posnOf s c.bed), handle := BitVec.ofNat 5 h, base := BitVec.ofNat 14 (base / 128),
            sizem1 := BitVec.ofNat 14 (size / 128 - 1) })))

/-- R260 and R100 to R102: QINIT makes an empty queue; QCOUNT counts it; QPUSH fills the slot at TAIL and QPOP empties the one at HEAD, with
the poison of each 32-byte granule; where the free or the filled elements go to those that wait already, the threads park in the queue's
order (a handler's stream enters no queue and only yields: the model's choice, log 27). -/
def Sys2Proof.Claim.Queues : Prop :=
  ∀ (lane : Bool) (d a b : BitVec 7) (s : State) (c : Cur) (sh : Sheaf) (ad : Nat), Issues s c sh → Active c sh →
    let p := plotOf sh.place.core
    let q := queueAt s p ad
    (QueueAt s c sh a true ad → rdGP s c sh (rn b) = false → NoWaiters s p ad →
      (queueWordOk s p (launchKey s c.bed) (rdG s c sh (rn b)) = true →
        ∃ t, exec (.qinit a b) s = .next t ∧ ScratchMoves s t c sh p ∧
          (∀ k, k < 8 → scratchWord t p (ad / 4 + k) = (if k = 0 then rdG s c sh (rn b) else 0#32, false)) ∧
          (∀ g, g ≠ ad / 32 → scratchMark t p (32 * g) = scratchMark s p (32 * g)) ∧
          (∀ x, x < ad ∨ ad + 32 ≤ x → scratchAt t p x = scratchAt s p x)) ∧
      (queueWordOk s p (launchKey s c.bed) (rdG s c sh (rn b)) = false → exec (.qinit a b) s = trap s c sh (plainTrap 12))) ∧
    (QueueAt s c sh a true ad → rdGP s c sh (rn b) = false → ¬NoWaiters s p ad → exec (.qinit a b) s = trap s c sh (plainTrap 12)) ∧
    (QueueAt s c sh a false ad → QueueSound s c sh ad →
      ∃ t, Gives (.qcount d a) s t c sh d (BitVec.ofNat 32 q.held) ∧ StoresNothing s t) ∧
    (QueueAt s c sh a true ad → QueueSound s c sh ad → Fits q lane (rn d) →
      (lane = true → ∀ i, i < 32 → inBudget (src c sh) i (rn d) = true) →
      (q.held + (waiting s p ad true).length < q.depth →
        ∃ t, exec (.qpush d a (flag lane)) s = .next t ∧ getSheaf t c.bed c.sheaf = some (advance c sh) ∧
          queueAt t p ad = { q with tail := (q.tail + 1) % q.modulus } ∧
          (∀ k, k < q.size / 4 → (scratchWord t p (q.slotAt q.tail / 4 + k)).1 = (pushed s c sh lane (rn d) k).1) ∧
          (∀ g, g < q.size / 32 → scratchMark t p (q.slotAt q.tail + 32 * g) =
            (List.range 8).any (fun k => (pushed s c sh lane (rn d) (8 * g + k)).2)) ∧
          OnlyPlot s t p ∧ (∀ x, (x < q.slotAt q.tail ∨ q.slotAt q.tail + q.size ≤ x) → scratchMark t p x = scratchMark s p x ∧
            ((x < ad + 8 ∨ ad + 12 ≤ x) → scratchAt t p x = scratchAt s p x))) ∧
      (q.depth ≤ q.held + (waiting s p ad true).length → sh.handler = true → ∃ t, exec (.qpush d a (flag lane)) s = .next t ∧ Yielded s t c sh) ∧
      (q.depth ≤ q.held + (waiting s p ad true).length → sh.handler = false → ∃ t sh', exec (.qpush d a (flag lane)) s = .next t ∧ getSheaf t c.bed c.sheaf = some sh' ∧
        Parked sh sh' (exm c sh) (.wait (.push ad)) ∧ SameButThreads sh sh' ∧ queueAt t p ad = q ∧ OnlyPlot s t p ∧
        (getPlot t p).qwait = (getPlot s p).qwait ++
          [{ addr := ad, push := true, bed := c.bed, sheaf := c.sheaf, pc := c.pc, mask := exm c sh, d := d, lane := lane }]) ∧
      ((waiting s p ad false).length < q.held →
        ∃ t sh', exec (.qpop d a (flag lane)) s = .next t ∧ getSheaf t c.bed c.sheaf = some (advance c sh') ∧
          queueAt t p ad = { q with head := (q.head + 1) % q.modulus } ∧
          (lane = true → LanesHold (exm c sh) sh' (rn d) (fun i => (scratchWord s p (q.slotAt q.head / 4 + i)).1)
              (fun i => (scratchWord s p (q.slotAt q.head / 4 + i)).2) ∧ LaneFrame (exm c sh) [rn d] sh sh') ∧
          (lane = false → (∀ k, k < q.size / 4 → GroupHolds sh' (rn d + k) (scratchWord s p (q.slotAt q.head / 4 + k)).1
              (scratchWord s p (q.slotAt q.head / 4 + k)).2) ∧ GroupFrame (regsFrom (rn d) (q.size / 4)) sh sh') ∧
          OnlyPlot s t p ∧ (∀ x, scratchMark t p x = scratchMark s p x ∧
            ((x < ad + 4 ∨ ad + 8 ≤ x) → scratchAt t p x = scratchAt s p x))) ∧
      (q.held ≤ (waiting s p ad false).length → sh.handler = true → ∃ t, exec (.qpop d a (flag lane)) s = .next t ∧ Yielded s t c sh) ∧
      (q.held ≤ (waiting s p ad false).length → sh.handler = false → ∃ t sh', exec (.qpop d a (flag lane)) s = .next t ∧ getSheaf t c.bed c.sheaf = some sh' ∧
        Parked sh sh' (exm c sh) (.wait (.pop ad)) ∧ SameButThreads sh sh' ∧ queueAt t p ad = q ∧ OnlyPlot s t p ∧
        (getPlot t p).qwait = (getPlot s p).qwait ++
          [{ addr := ad, push := false, bed := c.bed, sheaf := c.sheaf, pc := c.pc, mask := exm c sh, d := d, lane := lane }]))

/-- R95 and R101: the wakes.  Threads that wait for a READY tile run again; the first of a queue's waiters takes the element that is filled,
or fills the one that is freed, the others keep their order, and its threads go on behind their instruction. -/
def Sys2Proof.Claim.TileAndQueueWakes : Prop :=
  (∀ (bed sheaf : Nat) (s : State) (sh : Sheaf), getSheaf s bed sheaf = some sh →
    ∃ t sh', exec (.tileWake bed sheaf) s = .next t ∧ getSheaf t bed sheaf = some sh' ∧ StoresNothing s t ∧
      sh' = { sh with park := sh'.park } ∧
      (∀ i h e x, i < 32 → parkOf sh i = .wait (.tile h) →
        tileOf (getPlot s (plotOf sh.place.core)) (posnOf s bed) h = some (e, x) →
        parkOf sh' i = if x.state = 2#2 then .run else .wait (.tile h)) ∧
      (∀ i, i < 32 → (∀ h, parkOf sh i ≠ .wait (.tile h)) → parkOf sh' i = parkOf sh i)) ∧
  (∀ (p : Nat) (addr : BitVec 32) (s : State), NoWaiters s p addr.toNat → exec (.queueWake p addr) s = .next s) ∧
  (∀ (p : Nat) (addr : BitVec 32) (s : State) (push : Bool) (w : QWait) (ws : List QWait) (sh : Sheaf),
    waiting s p addr.toNat push = w :: ws → waiting s p addr.toNat (!push) = [] → getSheaf s w.bed w.sheaf = some sh →
    addr.toNat % 32 = 0 →
    let q := queueAt s p addr.toNat
    let m := maskOf (fun i => bit w.mask i && decide (parkOf sh i = .wait (if push then .push addr.toNat else .pop addr.toNat)))
    let slot := q.slotAt (if push then q.tail else q.head)
    slot + q.size ≤ addr.toNat ∨ addr.toNat + 32 ≤ slot →
    ((if push then q.held < q.depth else 0 < q.held) →
      ∃ t sh', exec (.queueWake p addr) s = .next t ∧ getSheaf t w.bed w.sheaf = some sh' ∧
        (getPlot t p).qwait = (getPlot s p).qwait.erase w ∧ Parked sh sh' m .run ∧
        (∀ i, i < 32 → lget sh'.pcs i 0#64 = if bit m i then w.pc + 4#64 else lget sh.pcs i 0#64) ∧
        (push = false → queueAt t p addr.toNat = { q with head := (q.head + 1) % q.modulus } ∧
          (w.lane = false → rn w.d + q.size / 4 ≤ 128 → ∀ k, k < q.size / 4 →
            GroupHolds { sh' with handler := false } (rn w.d + k) (scratchWord s p (slot / 4 + k)).1 (scratchWord s p (slot / 4 + k)).2)) ∧
        (push = true → (w.lane = true → q.size = 128) → queueAt t p addr.toNat = { q with tail := (q.tail + 1) % q.modulus } ∧
          let x : Nat → Word × Bool := fun k =>
            if w.lane then laneView (salt s 0) { sh with handler := false } k (rn w.d)
            else groupView (salt s 0) m { sh with handler := false } (rn w.d + k)
          (∀ k, k < q.size / 4 → (scratchWord t p (slot / 4 + k)).1 = (x k).1) ∧
          (∀ g, g < q.size / 32 → scratchMark t p (slot + 32 * g) = (List.range 8).any (fun k => (x (8 * g + k)).2)))) ∧
    ((if push then q.depth ≤ q.held else q.held = 0) → exec (.queueWake p addr) s = .next s))

/-- TSTATE, TREL, TWAIT and TCLAIM. -/
def Obligations.TileTable : Prop := TileInstructions ∧ TileClaims

/-- QINIT, QPUSH, QPOP and QCOUNT, and the wakes of tiles and queues. -/
def Obligations.QueuesAndWakes : Prop := Queues ∧ TileAndQueueWakes

/-! ## The matrix token, TMM, drains and fills (R29, R30, R277 to R282) -/

namespace Sys2Proof.Claim

/-- A core of the state is as it was but for one change. -/
def CoreBecomes (s t : State) (core : Nat) (f : Core → Core) : Prop :=
  getCore t core = f (getCore s core) ∧ ∀ k, k ≠ core → getCore t k = getCore s k

/-- The pages of a range map: page j of it starts at `pageStarts`, and its physical address and SYN stand at j of the list. -/
def PagesMap (s : State) (core : Nat) (asid : BitVec 16) (va : DWord) (n : Nat) (write : Bool) (ps : List (Nat × Bool)) : Prop :=
  ps.length = (pageStarts va n).length ∧
    ∀ j, j < ps.length → Maps s core asid (lget (pageStarts va n) j 0#64) (if write then .write else .read) (lget ps j (0, false)).1
      (lget ps j (0, false)).2

/-- What MDRAIN and MFILL ask for: handler mode, frozen units, no TMM that only has to end, the claim, a clean address, 256-byte
alignment, canonical ends, no range lock, and mapped pages (R282). -/
def FrozenAt (s : State) (c : Cur) (sh : Sheaf) (a : BitVec 7) (write : Bool) (ps : List (Nat × Bool)) : Prop :=
  let core := sh.place.core
  let va := rdG64 s c sh (rn a)
  sh.handler = true ∧ (getCore s core).frozen = true ∧ (∀ t, (getCore s core).tmm = some t → tmmOver t = false) ∧
    holdsClaim s c.bed core = true ∧ rdGP s c sh (rn a) = false ∧ rdGP s c sh (rn a + 1) = false ∧ va.toNat % 256 = 0 ∧
    canonical va = true ∧ canonical (va + 65791#64) = true ∧ lockHit s core write 0 (asidOf s c.bed) va.toNat 65792 = none ∧
    PagesMap s core (asidOf s c.bed) va 65792 write ps

/-- Word k of the block that MDRAIN stores: rows in order of unit, tile and row, then the sequencer's state (Table 11.5). -/
def drainWord (s : State) (core k : Nat) : Word :=
  if k < 16384 then lget (accRow s core (k / 1024) (k / 128 % 8) (k / 16 % 8)) (k % 16) 0#32 else lget (seqWords s core) (k - 16384) 0#32

/-- A TMM stops in a step that met a condition whose enable is set: its locks are free, no block of C is written, its status is 0x20 and
its sheaf takes the FP non-finite trap, with the block and the step (R279). -/
def TmmFails (core : Nat) (s : State) (t : Tmm) (o : LongOp) (inp : Bool) : Prop :=
  ∃ v shv sv o', exec (.tmmKStep core) s = .next (takeTrap v t.bed t.sheaf (lateRecord shv o'
      { cause := 7, lanes := if inp then o.exm else 0#32, lanes2 := if inp then 0#32 else o.exm,
        detail := BitVec.ofNat 32 (t.step + t.block * 64), addr := 0#64 })) ∧
    o' = { o with ready := true, writes := o'.writes, seenIn := o'.seenIn } ∧ (getCore v core).tmm = none ∧
    (getPlot v (plotOf core)).scratch = (getPlot s (plotOf core)).scratch ∧
    (∀ x, (lockAt (getPlot v (plotOf core)) x).valid = (!(t.locks.contains x) && (lockAt (getPlot s (plotOf core)) x).valid)) ∧
    getSheaf v t.bed t.sheaf = some sv ∧ (∀ p ∈ sv.long, p.id ≠ o.id) ∧
    ∀ n y q, o.writes = [.group n y q] → n ≠ 0 → mget sv.g n 0#32 = 32#32 ∧ mget sv.gp n false = false

/-- A barrier reference of an engine's operation names a place that the launch may name (R239, R249). -/
def RefReaches (s : State) (c : Cur) (sh : Sheaf) (ref : DWord) : Prop :=
  (ref.toNat % 4 = 0 → canonical (refVa ref) = true) ∧
    (ref.toNat % 4 = 1 → scratchOk s (plotOf sh.place.core) (launchKey s c.bed) (refScratch ref) 16 = true)

/-- No instruction in flight still owes tile 7 a row. -/
def NoRowsDue (s : State) (core : Nat) : Prop :=
  ∀ sh ∈ claimSheaves s core, ∀ o ∈ sh.long, ∀ w ∈ o.writes, ∀ u r, w.row? u 7 r = none

/-- The pending result of an instruction is formed with a value; every other is as it was. -/
def Formed (sh sh' : Sheaf) (k : Nat) (val : Word) : Prop :=
  sh'.long = sh.long.map (fun o =>
    if o.id = k then { o with ready := true, writes := o.writes.map (fun w => match w with
      | .group n _ _ => .group n val false
      | x => x) } else o)

/-- The launch of the bed declares roles and this sheaf's is not the matrix role (R28). -/
def Barred (s : State) (c : Cur) (sh : Sheaf) : Prop := rolesDeclared s c.bed = true ∧ sh.place.roleCode ≠ 2#8

end Sys2Proof.Claim

/-- R28 to R30 and R280: TAKE takes a free token or waits in its queue, PASS gives it to the first waiter, whose threads go on, and TEST reads
it; a sheaf of another role and a sheaf without the token trap.  The model's choices: a sheaf has one entry in the list however often it
asks (log 100), and a handler's TAKE enters the list, parks no thread and stands (log 27). -/
def Obligations.MatrixToken : Prop :=
  ∀ (d : BitVec 7) (s : State) (c : Cur) (sh : Sheaf), Issues s c sh → Active c sh →
    let core := sh.place.core
    let k := getCore s core
    (∃ t, Gives (.mtokTest d) s t c sh d (BitVec.ofNat 32
      ((if k.token = none then 0 else if k.token = some (c.bed, c.sheaf) then 1 else 2) + 256 * (k.tokQ.length % 256))) ∧
      StoresNothing s t) ∧
    (Barred s c sh → exec .mtokTake s = trap s c sh (plainTrap 0) ∧ exec .mtokPass s = trap s c sh (plainTrap 0)) ∧
    (¬Barred s c sh →
      (k.token = none → ∃ t, exec .mtokTake s = .next t ∧ getSheaf t c.bed c.sheaf = some (advance c sh) ∧
        CoreBecomes s t core (fun x => { x with token := some (c.bed, c.sheaf) })) ∧
      (k.token = some (c.bed, c.sheaf) → exec .mtokTake s = .next (putSheaf s c (advance c sh))) ∧
      (∀ x, k.token = some x → x ≠ (c.bed, c.sheaf) →
        ∃ t, Waiting .mtokTake s t c sh .token ∧ (getCore t core).token = some x ∧
          ((c.bed, c.sheaf) ∉ k.tokQ → (getCore t core).tokQ = k.tokQ ++ [(c.bed, c.sheaf)]) ∧
          ((c.bed, c.sheaf) ∈ k.tokQ → (getCore t core).tokQ = k.tokQ)) ∧
      (k.token ≠ some (c.bed, c.sheaf) → exec .mtokPass s = trap s c sh (plainTrap 12)) ∧
      (k.token = some (c.bed, c.sheaf) → k.tokQ = [] → ∃ t, exec .mtokPass s = .next t ∧
        getSheaf t c.bed c.sheaf = some (advance c sh) ∧ CoreBecomes s t core (fun x => { x with token := none })) ∧
      (∀ b w r shw, k.token = some (c.bed, c.sheaf) → k.tokQ = (b, w) :: r → (b, w) ∉ r → (b, w) ≠ (c.bed, c.sheaf) →
        getSheaf s b w = some shw →
        let m := maskOf (fun i => decide (parkOf shw i = .wait .token))
        ∃ t shw' pf, exec .mtokPass s = .next t ∧ getSheaf t c.bed c.sheaf = some (advance c sh) ∧
          CoreBecomes s t core (fun x => { x with token := some (b, w), tokQ := r, perf := pf }) ∧ getSheaf t b w = some shw' ∧
          Parked shw shw' m .run ∧
          ∀ i, i < 32 → lget shw'.pcs i 0#64 = if bit m i then lget shw.pcs i 0#64 + 4#64 else lget shw.pcs i 0#64))

/-- R277 and R127: a TMM whose operands are sound and whose tiles are READY takes its range locks and hands its operands to the sequencer
with the enables of its sheaf (R80); its status waits to be written.  It waits for a tile that is not READY, and where its locks are
taken.  That it waits for its tiles before its reference and its B bytes are checked is the model's reading (log 41). -/
def Sys2Proof.Claim.TmmIssue : Prop :=
  ∀ (d a b : BitVec 7) (l : BitVec 4) (s : State) (c : Cur) (sh : Sheaf) (g : TmmArgs) (ai ci : Nat) (at_ ct : Tile),
    Issues s c sh → Active c sh → ¬Barred s c sh →
    let core := sh.place.core
    let ref := rdG64 s c sh (rn b)
    holdsClaim s c.bed core = true → (∀ r ∈ [rn a, rn a + 1, rn a + 2, rn b, rn b + 1], rdGP s c sh r = false) →
    tmmArgs (rdG s c sh (rn a)) (rdG s c sh (rn a + 1)) (rdG s c sh (rn a + 2)) = some g →
    TileAt s c sh g.ah ai at_ → TileAt s c sh g.ch ci ct → g.aBytes ≤ tileBytes at_ → g.cBytes ≤ tileBytes ct →
    (at_.state ≠ 2#2 → ∃ t, Waiting (.tmm d a b l) s t c sh (.tile g.ah)) ∧
    (at_.state = 2#2 → ct.state ≠ 2#2 → ∃ t, Waiting (.tmm d a b l) s t c sh (.tile g.ch)) ∧
    (at_.state = 2#2 → ct.state = 2#2 → refOk ref true = true → RefReaches s c sh ref →
      scratchOk s (plotOf core) (launchKey s c.bed) (tileBase at_) g.aBytes = true →
      scratchOk s (plotOf core) (launchKey s c.bed) (tileBase ct) g.cBytes = true →
      BClean s c sh g.bAll → at_.poison = false → ct.poison = false →
      (lockTmm s core (posnOf s c.bed) g (ai, at_) (ci, ct) = none → exec (.tmm d a b l) s = .next (count s core 13 1)) ∧
      (∀ ks s1, lockTmm s core (posnOf s c.bed) g (ai, at_) (ci, ct) = some (ks, s1) →
        ∃ t sh' o, exec (.tmm d a b l) s = .next t ∧ getSheaf t c.bed c.sheaf = some (advance c sh') ∧
          sh' = { sh with long := sh.long ++ [o] } ∧ o.ready = false ∧ o.writes = [.group (gidx sh (rn d)) 0#32 false] ∧
          o.spans = lanes.map (fun i => if bit c.ctl i then (if sh.precfp then 0 else l.toNat) else 0) ∧
          getPlot t (plotOf core) = getPlot s1 (plotOf core) ∧
          CoreBecomes s t core (fun x => { x with tmm := some {
            bed := c.bed, sheaf := c.sheaf, slot := sh.place.slot, pos := sh.place.pos, hdrA := rdG s c sh (rn a),
            hdrB := rdG s c sh (rn a + 1), hdrC := rdG s c sh (rn a + 2), d := d, ref := ref, pc := c.pc, step := 0, block := 0,
            loaded := false, locks := ks, op := some o.id, replays := 0, late := 0, nfin := (src c sh).nfin,
            nfout := (src c sh).nfout } })))

/-- R278, R279 and R281: the sequencer runs one K step on the 16 × M block in tile 7 at a time, but none while the units are frozen; the last
step of a block writes its rows of C and goes on to the next block; a condition whose enable is set stops the TMM with its trap; after
the last block the TMM releases its locks and its status is written. -/
def Sys2Proof.Claim.TmmSequencer : Prop :=
  ∀ (core : Nat) (s : State),
    ((getCore s core).tmm = none → exec (.tmmKStep core) s = .next s ∧ exec (.tmmCompletion core) s = .next s) ∧
    ∀ t, (getCore s core).tmm = some t →
      ((getCore s core).frozen = true → exec (.tmmKStep core) s = .next s) ∧
      (∀ g, tmmHeld t = some g → tmmOver t = false → (getCore s core).frozen = false → t.locks ≠ [] → t.late = 0 →
        t.step ≤ g.ha.kext → NoRowsDue s core →
        let p := plotOf core
        let old := fun r => if t.loaded then tileRow s core (r / 8) 7 (r % 8)
          else cRow s p (tileBase (tmmTile s core t g.ch).2) g.n t.block r
        let dot : Dot := { ha := g.ha, hb := g.bHdr t.block, row := g.row, ks := upFrom (t.step * g.row.kw) g.row.kw,
                           rd := bsByte s core }
        let a := fun r => g.aRow (fun a => scratchByte s p (tileBase (tmmTile s core t g.ah).2 + a)) r
        let new := fun r => dot.accs (a r) (old r)
        let inp := (List.range g.m).any (fun r => dot.nfIn (a r))
        let last := decide (t.step = g.ha.kext)
        let out := last && !intMode g.ha g.hb &&
          (List.range g.m).any (fun r => rowBad (new r) && !({ dot with ks := List.range g.k } : Dot).nfIn (a r))
        let cAt := fun r => tileBase (tmmTile s core t g.ch).2 + 4 * (r * g.n + 16 * t.block)
        ((inp && t.nfin) = false → (out && t.nfout) = false →
          ∃ u, exec (.tmmKStep core) s = .next u ∧
            (last = false → (getCore u core).tmm = some { t.met inp false with step := t.step + 1, loaded := true, replays := 0 }) ∧
            (last = true →
              (getCore u core).tmm = some { t.met inp out with step := 0, block := t.block + 1, loaded := false, replays := 0 } ∧
              (∀ r k, r < g.m → k < 16 → scratchWord u p (cAt r / 4 + k) = (lget (new r) k 0#32, false))) ∧
            (∀ x, last = false ∨ (∀ r, r < g.m → x < cAt r ∨ cAt r + 64 ≤ x) →
              scratchAt u p x = scratchAt s p x ∧ scratchMark u p x = scratchMark s p x) ∧
            (∀ r, r < g.m → tileRow u core (r / 8) 7 (r % 8) = new r) ∧
            (∀ v y r, y < 7 → r < 8 → tileRow u core v y r = tileRow s core v y r)) ∧
        (t.ref.toNat % 4 = 2 → ∀ k sh o, t.op = some k → getSheaf s t.bed t.sheaf = some sh → sheafEnded sh = false →
          sh.long.find? (fun o => o.id == k) = some o →
          ((inp && t.nfin) = true → TmmFails core s t o true) ∧
          ((inp && t.nfin) = false → (out && t.nfout) = true → TmmFails core s t o false))) ∧
      (tmmOver t = true → t.ref.toNat % 4 = 2 → ∀ k sh, t.op = some k → getSheaf s t.bed t.sheaf = some sh →
        ∃ u sh', exec (.tmmCompletion core) s = .next u ∧ (getCore u core).tmm = none ∧ getSheaf u t.bed t.sheaf = some sh' ∧
          Formed sh sh' k 0#32 ∧ sh' = { sh with long := sh'.long } ∧
          (∀ x, (lockAt (getPlot u (plotOf core)) x).valid = (!(t.locks.contains x) && (lockAt (getPlot s (plotOf core)) x).valid))) ∧
      (tmmOver t = false → exec (.tmmCompletion core) s = .next s)

/-- R282 and Table 11.5: in handler mode with the units frozen, MDRAIN stores the accumulator block and the sequencer's state, and MFILL
of a block with no TMM in it puts its rows back; neither runs in normal mode or unfrozen. -/
def Obligations.DrainAndFill : Prop :=
  ∀ (a : BitVec 7) (s : State) (c : Cur) (sh : Sheaf), Issues s c sh →
    let core := sh.place.core
    (sh.handler = false → ∀ i ∈ [Instr.mdrain a, .mfill a], TrapsWith i s c sh 2 0 c.pc) ∧
    (sh.handler = true → (getCore s core).frozen = false → ∀ i ∈ [Instr.mdrain a, .mfill a], exec i s = trap s c sh (plainTrap 0)) ∧
    (∀ ps, FrozenAt s c sh a true ps →
      (∀ u y r, u < 16 → y < 8 → r < 8 → (accRow s core u y r).length = 16) → ∃ tlb,
      exec (.mdrain a) s = .next (putSheaf ((List.range 16448).foldl (fun u k =>
        let x := pageWord (asidOf s c.bed) ps (rdG64 s c sh (rn a)) (4 * k)
        writeWord u core x.1 x.2 15#4 (drainWord s core k, false)) { s with tlb := tlb }) c (advance c sh))) ∧
    (∀ ps (w : Nat → Word), FrozenAt s c sh a false ps →
      (∀ k, k < 16448 → let x := pageWord (asidOf s c.bed) ps (rdG64 s c sh (rn a)) (4 * k)
        Agreed s (untag x.1) ∧ homeWord s (untag x.1) = (w k, false)) →
      (∀ k, 16384 ≤ k → k < 16448 → w k = 0#32) →
      ∃ t sh', exec (.mfill a) s = .next t ∧ getSheaf t c.bed c.sheaf = some (advance c sh') ∧ sh' = { sh with long := sh'.long } ∧
        (getCore t core).tmm = none ∧
        ∀ u y r, u < 16 → y < 8 → r < 8 →
          tileRow t core u y r = (List.range 16).map (fun k => w (u * 1024 + y * 128 + r * 16 + k)))

/-- TMM: its issue and its sequencer. -/
def Obligations.TiledMatrix : Prop := TmmIssue ∧ TmmSequencer

/-! ## Range tasks, bank modes, the end of a bed and spills (R31 to R34, R40, R86, R208 to R211, R215, R217) -/

namespace Sys2Proof.Claim

/-- A bed of the state is as it was but for its interval and the sheaf that issued. -/
def IntervalBecomes (s t : State) (b : Nat) (lo hi : Word) : Prop :=
  ∀ bd, getBed s b = some bd → ∃ bd', getBed t b = some bd' ∧ bd' = { bd with lo := lo, hi := hi, sheaves := bd'.sheaves }

/-- A pending result of the sheaf, not formed yet, for one group register. -/
def AwaitsGroup (sh sh' : Sheaf) (id d : Nat) : Prop :=
  ∃ o, sh' = { sh with long := sh.long ++ [o] } ∧ o.id = id ∧ o.ready = false ∧ o.trap = none ∧ o.writes = [.group (gidx sh d) 0#32 false]

/-- JSPILL and JFILL reach their 8 bytes: clean, aligned, canonical, unlocked, mapped. -/
def SpillAt (s : State) (c : Cur) (sh : Sheaf) (a : BitVec 7) (write : Bool) (pa : Nat) (syn : Bool) : Prop :=
  let va := rdG64 s c sh (rn a)
  rdGP s c sh (rn a) = false ∧ rdGP s c sh (rn a + 1) = false ∧ va.toNat % 8 = 0 ∧ canonical va = true ∧
    lockHit s sh.place.core write 0 (asidOf s c.bed) va.toNat 8 = none ∧
    Maps s sh.place.core (asidOf s c.bed) va (if write then .write else .read) pa syn

/-- The spill count of one rejoin register changes, and those of the others do not (R208). -/
def SpillBecomes (sh sh' : Sheaf) (k : BitVec 4) (n : Nat) : Prop :=
  spill sh' k.toNat = n ∧ ∀ j, j ≠ k.toNat → spill sh' j = spill sh j

end Sys2Proof.Claim

/-- R31 to R34 and R215: in a range-task launch TNEXT takes a grain of the bed's interval or waits for a split, TDONE empties the interval and
TGRAIN gives the grain; elsewhere all three are illegal.  A handler's TNEXT, whose stream parks no thread (R343), completes at once, or stands
while a request of another bed comes first: that is the model's choice (log 109). -/
def Sys2Proof.Claim.RangeInstructions : Prop :=
  ∀ (d : BitVec 7) (s : State) (c : Cur) (sh : Sheaf) (bd : Bed), Issues s c sh → Active c sh → getBed s c.bed = some bd → d.toNat < 127 →
    (grainOf s c.bed = none → ∀ i ∈ [Instr.tnext d, .tdone, .tgrain d], exec i s = trap s c sh (plainTrap 0)) ∧
    (∀ g, grainOf s c.bed = some g →
      (bd.lo.toNat < bd.hi.toNat → d ≠ 0#7 →
        ∃ t sh', exec (.tnext d) s = .next t ∧ getSheaf t c.bed c.sheaf = some (advance c sh') ∧ StoresNothing s t ∧
          IntervalBecomes s t c.bed (BitVec.ofNat 32 (min (bd.lo.toNat + g) bd.hi.toNat)) bd.hi ∧
          GroupHolds sh' (rn d) bd.lo false ∧ GroupHolds sh' (rn d + 1) (BitVec.ofNat 32 (min (bd.lo.toNat + g) bd.hi.toNat)) false ∧
          GroupFrame [rn d, rn d + 1] sh sh') ∧
      (bd.hi.toNat ≤ bd.lo.toNat → sh.handler = false →
        ∃ t, Waiting (.tnext d) s t c sh (.split (rn d) s.nextKey) ∧ Event.splitGrant c.bed ∈ t.agenda) ∧
      (bd.hi.toNat ≤ bd.lo.toNat → sh.handler = true → firstAsker s c.bed bd ≠ c.bed →
        ∃ t, exec (.tnext d) s = .next t ∧ Yielded s t c sh) ∧
      (bd.hi.toNat ≤ bd.lo.toNat → sh.handler = true → firstAsker s c.bed bd = c.bed → victimOf s bd g = none → d ≠ 0#7 →
        ∃ t sh', exec (.tnext d) s = .next t ∧ getSheaf t c.bed c.sheaf = some (advance c sh') ∧ GroupFrame [rn d, rn d + 1] sh sh' ∧
          GroupHolds sh' (rn d) 0xFFFFFFFF#32 false ∧ GroupHolds sh' (rn d + 1) 0xFFFFFFFF#32 false) ∧
      (∃ t, exec .tdone s = .next t ∧ getSheaf t c.bed c.sheaf = some (advance c sh) ∧ StoresNothing s t ∧
        IntervalBecomes s t c.bed bd.hi bd.hi) ∧
      (∃ t, Gives (.tgrain d) s t c sh d (BitVec.ofNat 32 g) ∧ StoresNothing s t))

/-- A resident bed of the launch with an empty interval, whose sheaves wait for a split from one victim (R33). -/
def Sys2Proof.Claim.Asks (s : State) (g : Nat) (bd x : Bed) : Prop :=
  x.launch = bd.launch ∧ x.stage = .resident ∧ splitSheaves x ≠ [] ∧ x.hi.toNat ≤ x.lo.toNat ∧
    (victimOf s x g).map (fun v => v.1) = (victimOf s bd g).map (fun v => v.1)

/-- The tier that two cores share: plot, terrace, orchard or estate (R3). -/
def Sys2Proof.Claim.apart (a b : Nat) : Nat := if a / 4 = b / 4 then 0 else if a / 16 = b / 16 then 1 else if a / 64 = b / 64 then 2 else 3

/-- A bed of the launch that may be split, of grain g: it holds two grains (R33). -/
def Sys2Proof.Claim.MaySplit (bd x : Bed) (g : Nat) : Prop :=
  x.launch = bd.launch ∧ x.stage ≠ .exited ∧ x.lo.toNat < x.hi.toNat ∧ 2 ≤ (x.hi.toNat - x.lo.toNat + g - 1) / g

/-- For a bed on a core, victim x comes no later than y: the nearer tier, then the more grains, the lower core, the lower bed (R33). -/
def Sys2Proof.Claim.NoLater (core g : Nat) (x y : Bed) : Prop :=
  apart core x.core < apart core y.core ∨ apart core x.core = apart core y.core ∧
    ((y.hi.toNat - y.lo.toNat + g - 1) / g < (x.hi.toNat - x.lo.toNat + g - 1) / g ∨
      (x.hi.toNat - x.lo.toNat + g - 1) / g = (y.hi.toNat - y.lo.toNat + g - 1) / g ∧
        (x.core < y.core ∨ x.core = y.core ∧ x.linear ≤ y.linear))

/-- R32 and R33: a split takes from the bed of the launch that comes first in R33's order of victims; of the beds that ask one victim, the
one on the lowest core is served first.  A waiting TNEXT is served with a grain of its
bed's interval; with an empty interval it takes the upper part of a victim's, half of its grains; where no bed of the launch holds two
grains, both registers take 0xFFFFFFFF. -/
def Sys2Proof.Claim.RangeSplits : Prop :=
  ∀ (s : State) (b w : Nat) (bd : Bed) (sh : Sheaf) (g d l k : Nat), getBed s b = some bd → bd.stage = .resident → grainOf s b = some g →
    (∀ v x, victimOf s bd g = some (v, x) → (v, x) ∈ s.beds ∧ MaySplit bd x g ∧
      ∀ y ∈ s.beds, MaySplit bd y.2 g → NoLater bd.core g x y.2) ∧
    (victimOf s bd g = none → ∀ y ∈ s.beds, ¬MaySplit bd y.2 g) ∧
    (splitSheaves bd = [] → exec (.splitGrant b) s = .next s) ∧
    (∀ x ∈ s.beds, Asks s g bd x.2 → ∃ y, firstAsker s b bd = y.1 ∧ (y = (b, bd) ∨ y ∈ s.beds) ∧ y.2.core ≤ x.2.core) ∧
    (∀ rest, splitSheaves bd = (w, sh) :: rest → getSheaf s b w = some sh → splitWaiter sh = some (l, d, k) → d ≠ 0 → d < 127 →
      firstAsker s b bd = b →
      (bd.lo.toNat < bd.hi.toNat → ∃ t sh', exec (.splitGrant b) s = .next t ∧ getSheaf t b w = some sh' ∧ parkOf sh' l = .run ∧
        GroupHolds { sh' with handler := false } d bd.lo false ∧ GroupHolds { sh' with handler := false } (d + 1) (BitVec.ofNat 32 (min (bd.lo.toNat + g) bd.hi.toNat)) false ∧
        IntervalBecomes s t b (BitVec.ofNat 32 (min (bd.lo.toNat + g) bd.hi.toNat)) bd.hi) ∧
      (bd.hi.toNat ≤ bd.lo.toNat → victimOf s bd g = none → ∃ t sh', exec (.splitGrant b) s = .next t ∧ getSheaf t b w = some sh' ∧
        parkOf sh' l = .run ∧ GroupHolds { sh' with handler := false } d 0xFFFFFFFF#32 false ∧ GroupHolds { sh' with handler := false } (d + 1) 0xFFFFFFFF#32 false) ∧
      (∀ v x, bd.hi.toNat ≤ bd.lo.toNat → victimOf s bd g = some (v, x) → v ≠ b → getBed s v = some x →
        let cut := x.lo.toNat + g * ((grainsLeft x g + 1) / 2)
        cut < x.hi.toNat → ∃ t, exec (.splitGrant b) s = .next t ∧ IntervalBecomes s t v x.lo (BitVec.ofNat 32 cut) ∧
          IntervalBecomes s t b (BitVec.ofNat 32 (min (cut + g) x.hi.toNat)) x.hi))

/-- No other switch of the bank is under way on the plot whose sheaf comes before, by core position and then by issue slot (R217). -/
def Sys2Proof.Claim.FirstSwitch (s : State) (b w : Nat) (bank : BitVec 9) : Prop :=
  ∀ b' w' o m, Event.bankSwitchCompletion b' w' o bank m ∈ s.agenda → (switchSeat s b' w').1 = (switchSeat s b w).1 →
    (switchSeat s b w).2 ≤ (switchSeat s b' w').2

/-- R86 and R217: BANKCFG starts a switch of a bank's mode, in handler mode only; at its end, in the order of R217, an owned bank gives BUSY
and stays, another takes the mode, reads as zero where its mode changed, and gives 0.  That an owned bank gives BUSY also where it has the
named mode already is the model's choice (log 46), and so is the order of its traps (log 120). -/
def Sys2Proof.Claim.BankModes : Prop :=
  (∀ (d a b : BitVec 7) (s : State) (c : Cur) (sh : Sheaf), Issues s c sh →
    (sh.handler = false → TrapsWith (.bankcfg d a b) s c sh 2 0 c.pc) ∧
    (sh.handler = true → rdGP s c sh (rn a) = false → rdGP s c sh (rn b) = false → (rdG s c sh (rn a)).toNat ≤ 511 →
      (rdG s c sh (rn b)).toNat ≤ 2 →
      ∃ t sh', exec (.bankcfg d a b) s = .next t ∧ getSheaf t c.bed c.sheaf = some (advance c sh') ∧
        AwaitsGroup sh sh' s.nextKey (rn d) ∧ StoresNothing s t ∧
        t.agenda = s.agenda ++ [.bankSwitchCompletion c.bed c.sheaf s.nextKey (BitVec.ofNat 9 (rdG s c sh (rn a)).toNat)
          (BitVec.ofNat 2 (rdG s c sh (rn b)).toNat)]) ∧
    (sh.handler = true → rdGP s c sh (rn a) = false → rdGP s c sh (rn b) = false → (rdG s c sh (rn a)).toNat ≤ 511 →
      2 < (rdG s c sh (rn b)).toNat → exec (.bankcfg d a b) s = trap s c sh (plainTrap 0))) ∧
  (∀ (b w op : Nat) (bank : BitVec 9) (mode : BitVec 2) (s : State) (bd : Bed) (sh : Sheaf), getBed s b = some bd → getSheaf s b w = some sh →
    FirstSwitch s b w bank →
    let p := plotOf bd.core
    (bankBusy s p bank.toNat = true → ∃ t sh', exec (.bankSwitchCompletion b w op bank mode) s = .next t ∧ getSheaf t b w = some sh' ∧
      Formed sh sh' op 1#32 ∧ ∀ k, getPlot t k = getPlot s k) ∧
    (bankBusy s p bank.toNat = false → ∃ t sh', exec (.bankSwitchCompletion b w op bank mode) s = .next t ∧ getSheaf t b w = some sh' ∧
      Formed sh sh' op 0#32 ∧ bankModeOf t p bank.toNat = mode ∧ (∀ k, k ≠ bank.toNat → bankModeOf t p k = bankModeOf s p k) ∧
      ∀ x, scratchAt t p x = if x / 4096 = bank.toNat ∧ bankModeOf s p bank.toNat ≠ mode then 0#8 else scratchAt s p x))

/-- R40, R343 and R208 to R210: BEXIT ends every thread of the bed and its later waves (a handler's, which may change no thread of its own
sheaf, ends those of the others: the model's choice, log 27); JSPILL stores a rejoin register and counts it, JFILL loads it back without
the threads that have ended; both are privileged, and the order of their traps is the model's (log 120). -/
def Sys2Proof.Claim.BedExitAndSpills : Prop :=
  ∀ (k : BitVec 4) (a : BitVec 7) (s : State) (c : Cur) (sh : Sheaf), Issues s c sh →
    (sh.handler = true → (∀ n, (c.bed, c.sheaf) ∉ (getCore s n).tokQ) →
      ∃ t bd, exec .bexit s = .next t ∧ getBed t c.bed = some bd ∧ bd.bexit = true ∧ StoresNothing s t ∧
        getSheaf t c.bed c.sheaf = some (advance c sh) ∧ (∀ w ∈ bd.sheaves, w.1 ≠ c.sheaf → ∀ i, i < 32 → parkOf w.2 i = .done) ∧
        (∀ x ∈ t.bwait, x.bed = c.bed → x.sheaf = c.sheaf)) ∧
    (sh.handler = false → ∃ t bd, exec .bexit s = .next t ∧ getBed t c.bed = some bd ∧ bd.bexit = true ∧ StoresNothing s t ∧
      (∀ w ∈ bd.sheaves, ∀ i, i < 32 → parkOf w.2 i = .done) ∧ (∀ x ∈ t.bwait, x.bed ≠ c.bed)) ∧
    (sh.handler = false → TrapsWith (.jspill k a) s c sh 2 0 c.pc ∧ TrapsWith (.jfill k a) s c sh 2 0 c.pc) ∧
    (sh.handler = true →
      (∀ pa syn, spill sh k.toNat < 255 → SpillAt s c sh a true pa syn →
        let w := nameOf (asidOf s c.bed) (rdG64 s c sh (rn a)) pa
        ∃ tlb sh', exec (.jspill k a) s = .next (putSheaf (writeWord (writeWord { s with tlb := tlb } sh.place.core w syn 15#4
            (jE sh k.toNat, false)) sh.place.core (w + 1) syn 15#4 (jA sh k.toNat, false)) c (advance c sh')) ∧
          JoinHolds sh sh' k 0#32 0#32 ∧ SpillBecomes sh sh' k (spill sh k.toNat + 1) ∧
          sh' = { sh with je := sh'.je, ja := sh'.ja, spc := sh'.spc }) ∧
      (spill sh k.toNat = 255 → exec (.jspill k a) s = trap s c sh (plainTrap 0)) ∧
      (∀ pa syn e x, jE sh k.toNat = 0#32 → 0 < spill sh k.toNat → SpillAt s c sh a false pa syn → Agreed s (pa / 4) →
        Agreed s (pa / 4 + 1) → homeWord s (pa / 4) = (e, false) → homeWord s (pa / 4 + 1) = (x, false) →
        let live := maskOf (fun i => bit e i && decide (parkOf sh i ≠ .done))
        let came := maskOf (fun i => bit x i || (bit live i && decide (parkOf sh i = .join k)))
        ∃ t sh', exec (.jfill k a) s = .next t ∧ getSheaf t c.bed c.sheaf = some (advance c sh') ∧
          SpillBecomes sh sh' k (spill sh k.toNat - 1) ∧ sh' = { sh with je := sh'.je, ja := sh'.ja, spc := sh'.spc, park := sh'.park } ∧
          (live &&& ~~~came ≠ 0#32 → JoinHolds sh sh' k live came ∧ Parked sh sh' 0#32 .run)) ∧
      (jE sh k.toNat ≠ 0#32 → exec (.jfill k a) s = trap s c sh { plainTrap 13 with detail := BitVec.ofNat 32 (k.toNat + 48) }) ∧
      (jE sh k.toNat = 0#32 → spill sh k.toNat = 0 → exec (.jfill k a) s = trap s c sh (plainTrap 0)))

/-- TNEXT, TDONE and TGRAIN, and the split of an interval. -/
def Obligations.RangeTasks : Prop := RangeInstructions ∧ RangeSplits

/-- BANKCFG, BEXIT, JSPILL and JFILL. -/
def Obligations.BedSystem : Prop := BankModes ∧ BedExitAndSpills

/-! ## Special registers, EXT pairs, copies and memory-side calls (chapters 2, 8, 10 and 12) -/

namespace Sys2Proof.Claim

/-- A bit as a number. -/
def bnat (b : Bool) : Nat := if b then 1 else 0

/-- Low and high half of a 64-bit register. -/
def lowWord (x : DWord) : Word := BitVec.ofNat 32 x.toNat

/-- High half. -/
def highWord (x : DWord) : Word := BitVec.ofNat 32 (x.toNat / 2 ^ 32)

/-- What special registers read, by index (Tables 2.5 and 17.2): identity, floating point as `held` when the SRD issued, trap record. -/
def readTable (held sh : Sheaf) : List (Nat × Word) :=
  [(0x000, BitVec.ofNat 32 sh.place.core), (0x001, BitVec.ofNat 32 (sh.place.slot + 4 * sh.place.pos)),
   (0x002, BitVec.ofNat 32 sh.place.index), (0x031, sh.cychi),
   (0x040, BitVec.ofNat 32 (bnat held.nfin + 2 * bnat held.nfout + 4 * bnat held.precfp)),
   (0x041, BitVec.ofNat 32 (bnat held.seenin + 2 * bnat held.seenout)),
   (0x060, sh.record.cause), (0x062, lowWord sh.record.tpc), (0x063, highWord sh.record.tpc), (0x064, lowWord sh.record.trpc),
   (0x065, highWord sh.record.trpc),
   (0x066, BitVec.ofNat 32 (bnat sh.record.prec + 2 * bnat sh.record.restart + 4 * bnat sh.record.keep + 8 * bnat sh.record.handler +
     16 * bnat sh.record.paired + 32 * bnat sh.record.lost + 256 * sh.record.hact.toNat)),
   (0x067, lowWord sh.record.treg), (0x068, highWord sh.record.treg), (0x069, sh.record.tregcnt), (0x06A, sh.record.tmask),
   (0x06B, sh.record.tlanes), (0x06C, sh.record.tlanes2), (0x06D, sh.record.tdetail), (0x06E, lowWord sh.record.taddr),
   (0x06F, highWord sh.record.taddr), (0x070, sh.record.tinst0), (0x071, sh.record.tinst1),
   (0x072, BitVec.ofNat 32 sh.pend.length), (0x073, sh.tdrop)]

/-- What an SWR of a sheaf's own register changes (R59, Tables 2.5 and 17.2). -/
def written (sh : Sheaf) (x : Nat) (v : Word) : Option Sheaf :=
  match x with
  | 0x40 => some { sh with nfin := v.getLsbD 0, nfout := v.getLsbD 1 }
  | 0x61 => some { sh with pend := sh.pend.filter (fun p => p.cause &&& v = 0#32) }
  | 0x64 => some { sh with record := { sh.record with trpc := highWord sh.record.trpc ++ v } }
  | 0x65 => some { sh with record := { sh.record with trpc := v ++ lowWord sh.record.trpc } }
  | 0x66 => some { sh with record := { sh.record with
      restart := v.getLsbD 1, keep := v.getLsbD 2,
      hact := if v.toNat / 2 ^ 8 % 4 = 3 then sh.record.hact else BitVec.ofNat 2 (v.toNat / 2 ^ 8) } }
  | 0x73 => some { sh with tdrop := sh.tdrop &&& ~~~v }
  | _ => none

/-- An index of the ranges that only the handler reaches (Table 2.4). -/
def Guarded (x : Nat) : Prop := (0x60 ≤ x ∧ x < 0x140) ∨ (0x1C0 ≤ x ∧ x < 0x240)

/-- An access that the mode and the map allow (R58 to R60). -/
def Readable (sh : Sheaf) (sc : Scope) (x : Nat) : Prop :=
  listedReg x = true ∧ (Guarded x → sh.handler = true) ∧ ¬(sc = .group ∧ 0x20 ≤ x ∧ x ≤ 0x2F)

/-- The register that a read of it clears or latches. -/
def AfterRead (t : State) (held sh sh' : Sheaf) (x : Nat) : Prop :=
  (x = 0x41 → sh'.seenin = (sh.seenin && !held.seenin) ∧ sh'.seenout = (sh.seenout && !held.seenout)) ∧
  (x = 0x102 → (getCore t sh.place.core).margin.repl = 0#16 ∧ (getCore t sh.place.core).margin.mtrap = 0#8 ∧
    (getCore t sh.place.core).margin.raise = 0#8) ∧
  (x = 0x30 → sh'.cychi = highWord (getDie t (dieOf sh.place.core)).cycle) ∧
  sh' = { sh with v := sh'.v, g := sh'.g, gp := sh'.gp, long := sh'.long, seenin := sh'.seenin, seenout := sh'.seenout,
                  cychi := sh'.cychi } ∧
  (x ≠ 0x41 → sh'.seenin = sh.seenin ∧ sh'.seenout = sh.seenout) ∧ (x ≠ 0x30 → sh'.cychi = sh.cychi)

/-- The immediate forms that EXT widens. -/
inductive WideForm where
  | addi | muli | andi | ori | xori

/-- Their function. -/
def WideForm.op : WideForm → AluOp
  | .addi => .add
  | .muli => .mul
  | .andi => .and
  | .ori => .or
  | .xori => .xor

/-- Their instruction. -/
def WideForm.instr : WideForm → Scope → BitVec 7 → BitVec 7 → BitVec 11 → Instr
  | .addi => .addi
  | .muli => .muli
  | .andi => .andi
  | .ori => .ori
  | .xori => .xori

/-- The memory forms that EXT widens, with their scope. -/
def widened (d a : BitVec 7) (m : BitVec 2) (o : BitVec 5) (l : BitVec 4) : List (Scope × Instr) :=
  [(.lane, .ld d a m o l), (.lane, .ldx d a m o l), (.lane, .st d a m o), (.lane, .stq d a o), (.lane, .lds d a m o l),
   (.lane, .sts d a m o), (.lane, .ldc d a m o l), (.lane, .ldt d a m o l), (.group, .ldu d a m o l), (.group, .stu d a m o),
   (.group, .ldsu d a m o l), (.group, .stsu d a m o)]

/-- The operands of COPY and COPYOUT are clean and sound, and its place passes the checks of R262: an EMPTY tile for COPY, a READY one for
COPYOUT, the launch's B-store away from its pins, or an aligned canonical VA. -/
def CopyReady (s : State) (c : Cur) (sh : Sheaf) (out : Bool) (a b : BitVec 7) (tile : Option (Nat × Tile)) : Prop :=
  let l := layoutOf ((List.range 24).map (fun k => rdG s c sh (rn a + k)))
  let q := rdG64 s c sh (rn b)
  (∀ k, k < 24 → rdGP s c sh (rn a + k) = false) ∧ (∀ k, k < 4 → rdGP s c sh (rn b + k) = false) ∧ l.ok = true ∧
    (out = true → l.kind = 0) ∧ (l.kind ≠ 2 → rdG s c sh (rn b + 1) = 0#32) ∧
    packedFits s c sh l (rdG s c sh (rn b)).toNat = true ∧ refOk (rdG64 s c sh (rn b + 2)) true = true ∧
    RefReaches s c sh (rdG64 s c sh (rn b + 2)) ∧
    ((l.kind = 0 ∧ ∃ e t, tile = some (e, t) ∧ TileAt s c sh (rdG s c sh (rn b)).toNat e t ∧ t.state = if out then 2#2 else 0#2) ∨
     (l.kind = 1 ∧ tile = none ∧ bsOk s c.bed (rdG s c sh (rn b)).toNat l.packed = true ∧
       pinnedHit s c.bed (rdG s c sh (rn b)).toNat l.packed = false) ∨
     (l.kind = 2 ∧ tile = none ∧ q.toNat % l.esize = 0 ∧ canonical q = true))

/-- Where a tile is locked, it is by an entry of a list, and no other entry of scratch covers it (Table 4.4). -/
def Unlocks (pl : Plot) (ks : List Nat) (t : Tile) : Prop :=
  t.lockv = true → t.lock.toNat ∈ ks ∧ ∀ x ∈ pl.locks, x.1 ∉ ks → x.2.valid = true → x.2.space = 1#2 →
    tileBase t + tileBytes t ≤ x.2.lo ∨ x.2.hi ≤ tileBase t

/-- A copy is over: it is gone, its locks are free, and its result, if it has one, is formed. -/
def CopyOver (u t : State) (id : Nat) (cp : CopyOp) (val : Nat) : Prop :=
  mfind t.copies id = none ∧ (∀ j, j ∈ cp.locks → (lockAt (getPlot t (plotOf cp.core)) j).valid = false) ∧
    ∀ sh, getSheaf u cp.bed cp.sheaf = some sh → ∃ sh', getSheaf t cp.bed cp.sheaf = some sh' ∧
      (∀ k, cp.op = some k → Formed sh sh' k (BitVec.ofNat 32 val)) ∧ (cp.op = none → sh' = sh)

/-- The bytes that a copy writes to memory, by VA. -/
def toMemory (cp : CopyOp) (x : Xfer) : Map Piece :=
  if cp.out then x.bytes else x.bytes.map (fun b => (b.1 + cp.packed.toNat, b.2))

/-- The state once they are written, word by word. -/
def memoryWritten (cp : CopyOp) (x : Xfer) : State :=
  ((vaWords (toMemory cp x)).foldl (putVaWord cp.core (launchAsid x.st cp.launch) (toMemory cp x)) { x with bytes := [] }).st

/-- COPY or COPYOUT. -/
def copyInstr (out : Bool) (d a b : BitVec 7) (l : BitVec 4) : Instr := if out then .copyout a b else .copy d a b l

end Sys2Proof.Claim

/-- R58 to R60, R213 and R214: SRD gives the register's value, in every active lane or in gD, and clears or latches what the register's read
changes; indices of the handler's ranges are privileged, unlisted ones illegal, and per-thread ones in group scope illegal.  That a read
and a write take effect in their step, in program order, is the model's reading (log 28). -/
def Sys2Proof.Claim.SpecialReads : Prop :=
  ∀ (d : BitVec 7) (x : BitVec 10) (s : State) (c : Cur) (sh : Sheaf), Issues s c sh →
    (Guarded x.toNat → sh.handler = false → ∀ sc, exec (.srd sc d x) s = trap s c sh (plainTrap 2)) ∧
    (listedReg x.toNat = false → (Guarded x.toNat → sh.handler = true) → ∀ sc, exec (.srd sc d x) s = trap s c sh (plainTrap 0)) ∧
    (0x20 ≤ x.toNat → x.toNat ≤ 0x2F → exec (.srd .group d x) s = trap s c sh (plainTrap 0)) ∧
    (Readable sh .group x.toNat → Active c sh →
      ∃ t sh' v, exec (.srd .group d x) s = .next t ∧ getSheaf t c.bed c.sheaf = some (advance c sh') ∧ GroupHolds sh' (rn d) v false ∧
        OtherGroups [rn d] sh sh' ∧ AfterRead t (src c sh) sh sh' x.toNat ∧ StoresNothing s t ∧
        ∀ w, (x.toNat, w) ∈ readTable (src c sh) sh → v = w) ∧
    (Readable sh .lane x.toNat → Active c sh → InBudget c sh [rn d] →
      ∃ t sh' v, exec (.srd .lane d x) s = .next t ∧ getSheaf t c.bed c.sheaf = some (advance c sh') ∧
        LanesHold (exm c sh) sh' (rn d) v (fun _ => false) ∧ OtherLanes (exm c sh) [rn d] sh sh' ∧ AfterRead t (src c sh) sh sh' x.toNat ∧
        StoresNothing s t ∧ (x = 0x20#10 → ∀ i, v i = BitVec.ofNat 32 (lget sh.wb i 0)) ∧
        ∀ w, (x.toNat, w) ∈ readTable (src c sh) sh → ∀ i, v i = w)

/-- R59, R213 and R374: SWR writes the lowest active lane's value, or the group register's, into the writable fields; a register with none is
illegal, an injector without INJEN is privileged, and a poisoned value traps.  It takes effect in its step (the model's reading, log 28). -/
def Sys2Proof.Claim.SpecialWrites : Prop :=
  ∀ (a : BitVec 7) (x : BitVec 10) (s : State) (c : Cur) (sh : Sheaf) (f : Nat), Issues s c sh → IsFirst (exm c sh) f →
    (Guarded x.toNat → sh.handler = false → ∀ sc, exec (.swr sc a x) s = trap s c sh (plainTrap 2)) ∧
    ((Guarded x.toNat → sh.handler = true) → x.toNat ∈ [0x00, 0x41, 0x60, 0x62, 0x6A, 0x101, 0x102, 0x106, 0x140, 0x14F, 0x240, 0x3FF] →
      ∀ sc, exec (.swr sc a x) s = trap s c sh (plainTrap 0)) ∧
    (∀ sh', (Guarded x.toNat → sh.handler = true) →
      (written sh x.toNat (rdG s c sh (rn a)) = some sh' → rdGP s c sh (rn a) = false →
        exec (.swr .group a x) s = .next (putSheaf s c (advance c sh'))) ∧
      (written sh x.toNat (rdV s c sh f (rn a)) = some sh' → inBudget (src c sh) f (rn a) = true → rdVP s c sh f (rn a) = false →
        exec (.swr .lane a x) s = .next (putSheaf s c (advance c sh')))) ∧
    (sh.handler = true → x = 0x104#10 ∨ x = 0x105#10 →
      ((getCore s sh.place.core).margin.injen = false → ∀ sc, exec (.swr sc a x) s = trap s c sh (plainTrap 2)) ∧
      ((getCore s sh.place.core).margin.injen = true → rdGP s c sh (rn a) = false →
        ∃ t, exec (.swr .group a x) s = .next t ∧ getSheaf t c.bed c.sheaf = some (advance c sh) ∧
          CoreBecomes s t sh.place.core (fun k =>
            let v := rdG s c sh (rn a) &&& 0x00FFFF77#32
            { k with margin := if x = 0x104#10 then { k.margin with inj0 := v } else { k.margin with inj1 := v } }))) ∧
    (sh.handler = true → rdGP s c sh (rn a) = false → ∀ k b, k < 4 → b < 4 → x.toNat = 0x78 + k →
      ∃ sh', exec (.swr .group a x) s = .next (putSheaf s c (advance c sh')) ∧ sh' = { sh with spc := sh'.spc } ∧
        spill sh' (4 * k + b) = (rdG s c sh (rn a)).toNat / 256 ^ b % 256 ∧ ∀ j, j < 4 * k ∨ 4 * k + 4 ≤ j → spill sh' j = spill sh j) ∧
    ((Guarded x.toNat → sh.handler = true) → x = 0x40#10 → rdGP s c sh (rn a) = true →
      exec (.swr .group a x) s = trap s c sh { plainTrap 6 with lanes := exm c sh })

/-- R173, R174 and R176: EXT gives the word behind it a wide immediate; an index that fits the short form means the same in both.  A word
that takes no prefix is an orphan's, and an immediate that does not fit 32 bits is illegal.  That the scopes are compared before the fit is the
model's reading (log 30). -/
def Sys2Proof.Claim.ExtPairs : Prop :=
  ∀ (f : WideForm) (i : BitVec 25) (x : BitVec 11) (d a : BitVec 7) (m : BitVec 2) (o : BitVec 5) (l : BitVec 4) (w : BitVec 32)
    (s : State) (c : Cur) (sh : Sheaf), Issues s c sh →
    let n := i.toNat * 2 ^ 11 + x.toNat
    (decodeWord w 0#32 = .ok (f.instr .lane d a x) → n / 2 ^ 32 = 0 ∨ n / 2 ^ 31 = 31 → Active c sh → InBudget c sh [rn d, rn a] →
      ∃ sh' t, exec (.ext .lane i w) s = .next t ∧ MovesOn s t c sh' ∧
        LanesHold (exm c sh) sh' (rn d) (fun k => alu f.op (rdV s c sh k (rn a)) (BitVec.ofNat 32 n) 0#32) (fun k => rdVP s c sh k (rn a)) ∧
        LaneFrame (exm c sh) [rn d] sh sh') ∧
    (decodeWord w 0#32 = .ok (f.instr .group d a x) → n / 2 ^ 32 = 0 ∨ n / 2 ^ 31 = 31 → Active c sh →
      ∃ sh' t, exec (.ext .group i w) s = .next t ∧ MovesOn s t c sh' ∧
        GroupHolds sh' (rn d) (alu f.op (rdG s c sh (rn a)) (BitVec.ofNat 32 n) 0#32) (rdGP s c sh (rn a)) ∧ GroupFrame [rn d] sh sh') ∧
    (decodeWord w 0#32 = .ok (f.instr .lane d a x) → ¬(n / 2 ^ 32 = 0 ∨ n / 2 ^ 31 = 31) →
      exec (.ext .lane i w) s = trap s c sh (plainTrap 0)) ∧
    (decodeWord w 0#32 = .ok (f.instr .lane d a x) → exec (.ext .group i w) s = trap s c sh (plainTrap 1)) ∧
    (decodeWord w 0#32 = .ok .nop → ∀ sc, exec (.ext sc i w) s = trap s c sh (plainTrap 1)) ∧
    (∀ r, decodeWord w 0#32 = .error r → ∀ sc, exec (.ext sc i w) s = trap s c sh (plainTrap 0)) ∧
    (∀ sc j, (sc, j) ∈ widened d a m o l → decodeWord w 0#32 = .ok j → i = 0#25 → o.toNat < 16 → exec (.ext sc i w) s = exec j s)

/-- R261, R262, R127 and R98: a COPY or COPYOUT whose checks pass takes its range locks, moves its tile to FILL or DRAIN, and its transfer
is under way; COPYOUT goes on at once and COPY's result waits.  Without its locks nothing happens. -/
def Sys2Proof.Claim.CopyIssue : Prop :=
  ∀ (out : Bool) (d a b : BitVec 7) (la : BitVec 4) (s : State) (c : Cur) (sh : Sheaf) (tile : Option (Nat × Tile)),
    Issues s c sh → Active c sh → CopyReady s c sh out a b tile →
    let p := plotOf sh.place.core
    let ws := (List.range 24).map (fun k => rdG s c sh (rn a + k))
    let l := layoutOf ws
    let locks := takeLocks s p (posnOf s c.bed) (if out then 1 else 0)
      (copyLocks s c sh l out (rdG64 s c sh (rn b)) (tile.map (fun t => t.2)))
    (locks = none → exec (copyInstr out d a b la) s = .next (count s sh.place.core 13 1)) ∧
    (∀ ks s1, locks = some (ks, s1) →
      ∃ t sh' id cp, exec (copyInstr out d a b la) s = .next t ∧ getSheaf t c.bed c.sheaf = some (advance c sh') ∧
        mfind t.copies id = some cp ∧ cp.bed = c.bed ∧ cp.sheaf = c.sheaf ∧ cp.core = sh.place.core ∧ cp.out = out ∧ cp.record = ws ∧
        cp.packed = rdG64 s c sh (rn b) ∧ cp.ref = rdG64 s c sh (rn b + 2) ∧ cp.locks = ks ∧ cp.stalled = none ∧ cp.failed = false ∧
        cp.tile = tile.map (fun t => t.1) ∧ Event.copyCompletion id ∈ t.agenda ∧ StoresNothing s t ∧
        (∀ e x, tile = some (e, x) → ∃ y, mfind (getPlot t p).tiles e = some y ∧ y.state = (if out then 3#2 else 1#2) ∧ y.lockv = true) ∧
        (out = true → sh' = sh) ∧
        (out = false → ∃ o, sh' = { sh with long := sh.long ++ [o] } ∧ o.ready = false ∧ cp.op = some o.id ∧
          o.writes = [.group (gidx sh (rn d)) 0#32 false]))

/-- R262: a tile in the wrong state: COPYOUT waits for one that is not READY, and COPY to one that is not EMPTY traps. -/
def Sys2Proof.Claim.CopyTiles : Prop :=
  ∀ (d a b : BitVec 7) (la : BitVec 4) (s : State) (c : Cur) (sh : Sheaf) (e : Nat) (x : Tile), Issues s c sh → Active c sh →
    let h := (rdG s c sh (rn b)).toNat
    let l := layoutOf ((List.range 24).map (fun k => rdG s c sh (rn a + k)))
    (∀ k, k < 24 → rdGP s c sh (rn a + k) = false) → (∀ k, k < 4 → rdGP s c sh (rn b + k) = false) →
    TileAt s c sh h e x → l.ok = true → l.kind = 0 → rdG s c sh (rn b + 1) = 0#32 →
    packedFits s c sh l h = true →
    (x.state ≠ 0#2 → exec (.copy d a b la) s = trap s c sh { plainTrap 11 with detail := BitVec.ofNat 32 h }) ∧
    (x.state ≠ 2#2 → ∃ t, Waiting (.copyout a b) s t c sh (.tile h))

/-- R263: the word of memory that a copy writes holds, for its core, the bytes that it gathered for it, poisoned where one of them is. -/
def Sys2Proof.Claim.CopyWords : Prop :=
  ∀ (core w pa : Nat) (asid : BitVec 16) (m : Map Piece) (y : Xfer) (syn : Bool), core < 256 → msorted m = true →
    Maps y.st core asid (BitVec.ofNat 64 (4 * w)) .write pa syn →
    let z := putVaWord core asid m y w
    (∀ k, k < 4 → ∃ b, mfind m (4 * w + k) = some b ∧ b.lo = true ∧ b.hi = true) →
    OtherWords [pa / 4] y.st z.st ∧ ∀ u alloc first,
      let r := (readWord z.st core (nameOf asid (BitVec.ofNat 64 (4 * w)) pa) syn alloc first u).1
      (∀ k b, k < 4 → mfind m (4 * w + k) = some b → r.1.toNat / 256 ^ k % 256 = b.val % 256) ∧
      (r.2 = true ↔ ∃ k b, k < 4 ∧ mfind m (4 * w + k) = some b ∧ b.poison = true)

/-- R96 and R263: a copy whose transfer met neither a fault nor a violation writes its bytes to its tile, to the B-store or to memory,
releases its locks, leaves a COPY's tile READY and a COPYOUT's EMPTY, makes its arrival, and forms its result.  That a transfer probes its
pages first, that a violation comes before a fault and that a transfer that faults has moved nothing is the model's choice (logs 38
and 39). -/
def Sys2Proof.Claim.CopyEnds : Prop :=
  (∀ (id : Nat) (s : State), mfind s.copies id = none →
    exec (.copyCompletion id) s = .next s ∧ exec (.copyPageFault id) s = .next s ∧ ∀ h, exec (.copyTransferFailure id h) s = .next s) ∧
  (∀ (id : Nat) (s : State) (cp : CopyOp), mfind s.copies id = some cp → cp.stalled = none →
    let x := gather s cp
    let p := plotOf cp.core
    let kind := (layoutOf cp.record).kind
    let val := if x.poison then 2 else 0
    (x.violated = false → x.fault = none → backingOf x.st cp.bed = none → bsBacking x.st cp.bed = none →
      (cp.ref.toNat % 4 = 2 →
        (∀ e, cp.out = false → kind = 0 → cp.tile = some e →
          let base := tileBase (mget (getPlot x.st p).tiles e Tile.reset)
          Unlocks (getPlot x.st p) cp.locks (mget (getPlot x.st p).tiles e Tile.reset) →
          ∃ t y, exec (.copyCompletion id) s = .next t ∧ CopyOver x.st t id cp val ∧ mfind (getPlot t p).tiles e = some y ∧
            y.state = 2#2 ∧ y.lockv = false ∧
            (∀ j, mfind x.bytes j = none → scratchAt t p (base + j) = scratchAt x.st p (base + j)) ∧
            (∀ j b, (j, b) ∈ x.bytes → (∀ z ∈ x.bytes, z.1 = j → z.2 = b) → b.lo = true → b.hi = true →
              scratchAt t p (base + j) = BitVec.ofNat 8 b.val)) ∧
        (cp.out = false → kind = 1 → cp.tile = none →
          ∃ t, exec (.copyCompletion id) s = .next t ∧ CopyOver x.st t id cp val ∧
            (∀ j, mfind x.bytes j = none → memByte (getCore t cp.core).bstore (cp.packed.toNat + j) =
              memByte (getCore x.st cp.core).bstore (cp.packed.toNat + j)) ∧
            (∀ j b, (j, b) ∈ x.bytes → (∀ z ∈ x.bytes, z.1 = j → z.2 = b) → b.lo = true → b.hi = true →
              memByte (getCore t cp.core).bstore (cp.packed.toNat + j) = BitVec.ofNat 8 b.val)) ∧
        (cp.out = false → kind = 2 → cp.tile = none → backingOf (memoryWritten cp x) cp.bed = none →
          ∃ t, exec (.copyCompletion id) s = .next t ∧ CopyOver (memoryWritten cp x) t id cp val ∧ StoresNothing (memoryWritten cp x) t) ∧
        (∀ e, cp.out = true → cp.tile = some e → cp.op = none → backingOf (memoryWritten cp x) cp.bed = none →
          Unlocks (getPlot (memoryWritten cp x) p) cp.locks (mget (getPlot (memoryWritten cp x) p).tiles e Tile.reset) →
          ∃ t y, exec (.copyCompletion id) s = .next t ∧ CopyOver (memoryWritten cp x) t id cp val ∧
            mfind (getPlot t p).tiles e = some y ∧ y.state = 0#2 ∧ y.lockv = false ∧ StoresNothing (memoryWritten cp x) t)) ∧
      (cp.ref.toNat % 4 = 1 → cp.ref.toNat / 16 * 16 < 2 ^ 21 → backingOf (deliver x cp) cp.bed = none →
        let u := deliver x cp
        let l : BarLoc := { scratch := true, plot := p, loc := cp.ref.toNat / 16 * 16 }
        (Sound (barAt u l) → ∃ t, exec (.copyCompletion id) s = .next t ∧ CopyOver u t id cp val ∧ Arrived (barAt u l) (barAt t l) 1 val) ∧
        (¬Sound (barAt u l) → ∃ t, exec (.copyCompletion id) s = .next t ∧ CopyOver u t id cp (val + 128) ∧ barAt t l = barAt u l))) ∧
    (x.violated = true → exec (.copyCompletion id) s = .next (due s (.copyTransferFailure id false))) ∧
    (x.violated = false → x.fault ≠ none → exec (.copyCompletion id) s = .next (due s (.copyPageFault id))) ∧
    (x.violated = true → ∃ t, exec (.copyTransferFailure id false) s = .next t ∧ mfind t.copies id = none) ∧
    (∀ va kind, x.fault = some (va, kind) → cp.failed = false →
      ∃ t y, exec (.copyPageFault id) s = .next t ∧ mfind t.copies id = some y ∧ y.stalled ≠ none))

/-- SRD, SWR and the EXT prefix. -/
def Obligations.SpecialRegisters : Prop := SpecialReads ∧ SpecialWrites ∧ ExtPairs

/-- COPY and COPYOUT: issue, tiles and completion. -/
def Obligations.Copies : Prop := CopyIssue ∧ CopyTiles ∧ CopyWords ∧ CopyEnds

/-! ## Memory-side calls (R25, R26, R150 to R154, R166, R283 to R285) -/

namespace Sys2Proof.Claim

/-- The blocks that the active lanes of an NMCALL name are clean, 64-byte aligned, canonical, unlocked, and mapped in device memory. -/
def ArgsAt (s : State) (c : Cur) (sh : Sheaf) (a : BitVec 7) (pa : Nat → Nat) : Prop :=
  ∀ i, i < 32 → bit (exm c sh) i = true →
    rdVP s c sh i (rn a) = false ∧ rdVP s c sh i (rn a + 1) = false ∧ (rdV64 s c sh i (rn a)).toNat % 64 = 0 ∧
    canonical (rdV64 s c sh i (rn a)) = true ∧ lockHit s sh.place.core false 0 (asidOf s c.bed) (rdV64 s c sh i (rn a)).toNat 64 = none ∧
    (∃ syn, Maps s sh.place.core (asidOf s c.bed) (rdV64 s c sh i (rn a)) .read (pa i) syn) ∧ pa i < Config.hostBase

/-- A result of some operation is owed to a group register. -/
def Owes (i : Instr) (s t : State) (c : Cur) (sh : Sheaf) (id d la : Nat) : Prop :=
  exec i s = .next t ∧ ∃ o, getSheaf t c.bed c.sheaf = some (advance c { sh with long := sh.long ++ [o] }) ∧ o.id = id ∧ o.ready = false ∧
    o.trap = none ∧ o.writes = [.group (gidx sh d) 0#32 false] ∧ o.spans = lanes.map (fun i => if bit c.ctl i then la else 0)

end Sys2Proof.Claim

/-- R25, R166 and R283: NMCALL parks its active threads in POOL and gives each bank engine one batch of the calls whose blocks it serves; a
count that is none of 1 to 16 is illegal, and a poisoned operand traps.  The model's choices: a handler's stream stands at it with its
lanes noted (log 27), and the trap of a bad G[B] comes after the poison of its other operands (log 130). -/
def Sys2Proof.Claim.MemoryCalls : Prop :=
  ∀ (d a b : BitVec 7) (s : State) (c : Cur) (sh : Sheaf) (pa : Nat → Nat), Issues s c sh → Active c sh →
    let w := (rdG s c sh (rn b)).toNat
    let n := w / 2 ^ 16 % 32
    (InBudget c sh [rn a, rn a + 1, rn d] →
      (rdGP s c sh (rn b) = true → exec (.nmcall d a b) s = trap s c sh { plainTrap 6 with lanes := exm c sh }) ∧
      (rdGP s c sh (rn b) = false →
        (∀ i, i < 32 → bit (exm c sh) i = true → rdVP s c sh i (rn a) = false ∧ rdVP s c sh i (rn a + 1) = false) →
        n = 0 ∨ 16 < n ∨ w / 2 ^ 21 ≠ 0 → exec (.nmcall d a b) s = trap s c sh (plainTrap 0))) ∧
    (rdGP s c sh (rn b) = false → 1 ≤ n → n ≤ 16 → w / 2 ^ 21 = 0 → InBudget c sh ([rn a, rn a + 1] ++ regsFrom (rn d) n) →
      ArgsAt s c sh a pa →
      ∃ (t : State) (sh' : Sheaf) (key : Nat → Nat), exec (.nmcall d a b) s = .next t ∧ getSheaf t c.bed c.sheaf = some sh' ∧ StoresNothing s t ∧
        (sh.handler = false → SameButThreads sh sh' ∧ Parked sh sh' (exm c sh) .pool ∧
          ∀ i, i < 32 → lget sh'.pcs i 0#64 =
            if bit c.ctl i = true ∧ bit (exm c sh) i = false then c.pc + BitVec.ofNat 64 c.len else lget sh.pcs i 0#64) ∧
        (sh.handler = true → sh' = { sh with hpool := exm c sh, yieldFor := sh'.yieldFor, wdcnt := sh'.wdcnt }) ∧
        (∀ i, i < 32 → bit (exm c sh) i = true → ∃ bt, mfind t.batches (key (engineOf (pa i))) = some bt ∧ bt.engine = engineOf (pa i) ∧
          bt.bed = c.bed ∧ bt.sheaf = c.sheaf ∧ bt.pc = c.pc ∧ bt.d = rn d ∧ bt.routine = w % 2 ^ 16 ∧ bt.count = n ∧ bt.handler = sh.handler ∧
          bt.asid = asidOf s c.bed ∧ bt.started = false ∧ bt.replied = false ∧
          bt.calls = ((List.range 32).filter (fun k => bit (exm c sh) k && decide (engineOf (pa k) = engineOf (pa i)))).map
            (fun k => { lane := k, arg := rdV64 s c sh k (rn a), reply := none })))

/-- R25, R142 and R283: a batch waits for a free context, is refused where its library has no such routine, and a committed reply is
written to its thread's registers, which run on behind the call. -/
def Sys2Proof.Claim.CallReplies : Prop :=
  (∀ (k : Nat) (s : State), getBatch s k = none → exec (.nmcallBatch k) s = .next s ∧ ∀ j, exec (.nmcallReply k j) s = .next s) ∧
  (∀ (k : Nat) (s : State) (b : Batch), getBatch s k = some b → b.started = false →
    (routineAt (imageOf s (activeImage s 6)) b.routine = none → ∃ t, exec (.nmcallBatch k) s = .next t ∧ getBatch t k = none) ∧
    (∀ r, routineAt (imageOf s (activeImage s 6)) b.routine = some r → r.rkind = 0 → freeCtx (getEngine s b.engine) = none →
      exec (.nmcallBatch k) s = .next s) ∧
    (∀ r x g q u, routineAt (imageOf s (activeImage s 6)) b.routine = some r → r.rkind = 0 → freeCtx (getEngine s b.engine) = some x →
      batchArgs k s 0 b.calls [] false = (some (g, q), u) →
      ∃ t y, exec (.nmcallBatch k) s = .next t ∧ mfind (getEngine t b.engine).ctxs x = some y ∧ y.kind = .nmcall k ∧
        y.fetch.pc = r.fetch ∧ y.math.pc = r.math ∧ nearG y.fetch 1 = BitVec.ofNat 64 b.calls.length ∧
        y.grant = g ∧ y.grantSize = r.grant * 4096 ∧ y.status = (if q then 1#64 else 0#64) ∧
        ∃ b', getBatch t k = some b' ∧ b'.started = true)) ∧
  (∀ (k : Nat) (s : State) (b : Batch) (sh : Sheaf) (l : NCall) (ws : List Word) (q : Bool), getBatch s k = some b → b.replied = true →
    b.calls = [l] → l.reply = some (ws, q) → getSheaf s b.bed b.sheaf = some sh → l.lane < 32 → parkOf sh l.lane = .pool →
    lget sh.pcs l.lane 0#64 = b.pc → (∀ bd, getBed s b.bed = some bd → bd.stage = .resident) → sh.handler = false → b.handler = false →
    sh.pcs.length = 32 → b.d + ws.length ≤ 128 → (∀ j, j < ws.length → lineState sh (phys sh l.lane (b.d + j)) ≠ .absent) →
    ∃ t sh', exec (.nmcallReply k 0) s = .next t ∧ getSheaf t b.bed b.sheaf = some sh' ∧ getBatch t k = none ∧
      Parked sh sh' (1#32 <<< l.lane) .run ∧ lget sh'.pcs l.lane 0#64 = b.pc + 4#64 ∧
      (∀ u j, j < ws.length → laneView u sh' l.lane (b.d + j) = (lget ws j 0#32, q)) ∧
      (∀ u i n, i < 32 → i ≠ l.lane → laneView u sh' i n = laneView u sh i n) ∧ (∀ u m n, groupView u m sh' n = groupView u m sh n))

/-- R150, R153 and R285: NMCOMMIT releases at system scope and waits for the controller, which moves COMMITTED on only from the expected
value; an unknown handle gives 2, an exhausted number 3, another value 1.  A registration answers a handle, one above the number of those
before it (the model's choice, log 108); none is answered while only the mailbox is. -/
def Sys2Proof.Claim.VersionCommits : Prop :=
  (∀ (d a b : BitVec 7) (l : BitVec 4) (s : State) (c : Cur) (sh : Sheaf), Issues s c sh → Active c sh →
    ((rdGP s c sh (rn a) || rdGP s c sh (rn b)) = true → exec (.nmcommit d a b l) s = trap s c sh { plainTrap 6 with lanes := exm c sh }) ∧
    (rdGP s c sh (rn a) = false → rdGP s c sh (rn b) = false →
      ∃ t, Owes (.nmcommit d a b l) s t c sh s.nextKey (rn d) l.toNat ∧ StoresNothing (releaseAt s sh.place.core 5) t ∧
        t.agenda = s.agenda ++ [.versionCommit c.bed c.sheaf s.nextKey (rdG s c sh (rn a)) (rdG s c sh (rn b))])) ∧
  (∀ (bed sheaf op : Nat) (h e : BitVec 32) (s : State) (sh : Sheaf), getSheaf s bed sheaf = some sh →
    ∃ t sh' v, exec (.versionCommit bed sheaf op h e) s = .next t ∧ getSheaf t bed sheaf = some sh' ∧ Formed sh sh' op v ∧
      (mfind s.indexes h.toNat = none → v = 2#32 ∧ t.mem = s.mem) ∧
      (∀ x, mfind s.indexes h.toNat = some x →
        (2 ^ 32 - 2 ≤ e.toNat → v = 3#32 ∧ t.mem = s.mem) ∧
        (e.toNat < 2 ^ 32 - 2 → committed s x ≠ e → v = 1#32 ∧ t.mem = s.mem) ∧
        (e.toNat < 2 ^ 32 - 2 → committed s x = e → v = 0#32 ∧
          (homeWord t (x.descPa / 4)).1 = BitVec.ofNat 32 (e.toNat + 1)))) ∧
  (∀ (asid : BitVec 16) (va : BitVec 64) (s : State), hostOpen s = false → exec (.indexRegistration asid va) s = .next s) ∧
  (∀ (asid : BitVec 16) (va : BitVec 64) (s : State), hostOpen s = true →
    (∀ pa, translateAt s asid va false = some (pa, false) → va.toNat % 128 = 0 →
      ∃ t, exec (.indexRegistration asid va) s = .next t ∧
        t.indexes = mset s.indexes (s.indexes.length + 1) { descPa := pa, asid := asid, snaps := [] } ∧
        t.hostIf.out = s.hostIf.out ++ [(false, natLe 4 (s.indexes.length + 1))]) ∧
    (translateAt s asid va false = none ∨ va.toNat % 128 ≠ 0 →
      ∃ t, exec (.indexRegistration asid va) s = .next t ∧ t.indexes = s.indexes ∧ t.hostIf.out = s.hostIf.out ++ [(false, [])]))

/-- NMCALL, its replies, and NMCOMMIT. -/
def Obligations.CallsAndCommits : Prop := MemoryCalls ∧ CallReplies ∧ VersionCommits

/-! ## Bank engines (chapters 6 and 11) -/

namespace Sys2Proof.Claim

/-- Pair thread `t` of context `x` issues on a bank engine; its g31 is the context's status register (R287). -/
def Runs (s : State) (n : NCur) (x : Ctx) (t : NThr) : Prop :=
  s.agent = .pair n ∧ mfind (getEngine s n.engine).ctxs n.ctx = some x ∧ t = thrOf n x

/-- In `u` the thread holds the registers of `t'` and stands at the next instruction. -/
def ThreadIs (u : State) (n : NCur) (t' : NThr) : Prop :=
  ∃ x', mfind (getEngine u n.engine).ctxs n.ctx = some x' ∧ (thrOf n x').pc = t'.pc + 4 ∧ (thrOf n x').wait = t'.wait ∧
    (∀ r, nearG (thrOf n x') r = nearG t' r) ∧ ∀ r, nearV (thrOf n x') r = nearV t' r

/-- An instruction of a pair only changes its thread: the thread becomes `t'` and moves on. -/
def Moves (i : Instr) (s : State) (n : NCur) (t' : NThr) : Prop := exec i s = .next (putThr s n { t' with pc := t'.pc + 4 })

/-- Memory and its poison are as they were. -/
def SameMemory (s u : State) : Prop := u.mem = s.mem ∧ u.memPoison = s.memPoison ∧ u.home = s.home

/-- The batch or search of a context exists. -/
def Live (s : State) (k : CtxKind) : Prop :=
  match k with
  | .nmcall b => (getBatch s b).isSome = true
  | .setup q => (getSearch s q).isSome = true
  | .walker q => (getSearch s q).isSome = true
  | .request q => (getSearch s q).isSome = true

/-- An instruction ends its context with a fault code (R142). -/
def Faults (i : Instr) (s : State) (n : NCur) (code : Nat) : Prop := exec i s = .next (faultCtx s n.engine n.ctx code)

/-- Every near-only instruction. -/
def nearOnlyInstrs (d a b : BitVec 7) (m : BitVec 2) (o : BitVec 5) (k : BitVec 4) (q e : BitVec 1) : List Instr :=
  [.ldb d a m o, .stb d a m o, .dist d a b k, .hpush d a b, .hpop d a, .htop d a b, .hchain d a, .msgSend d a, .msgRecv d a, .whop a b,
   .wspawn a b, .wend, .nmret a b, .nearQpush d q e, .nearQpop d q e]

/-- Element i of a vector of a pair. -/
def elemOf (t : NThr) (r i : Nat) : Word := lget (nearV t r) i 0#32

/-- The vector of a function of the element number. -/
def sixteen (f : Nat → Word) : List Word := (List.range 16).map f

/-- A message that the context of a search may send to an engine with room (R136, R291), with no earlier one for it still waiting (R162). -/
def Sendable (s : State) (n : NCur) (x : Ctx) (dest : Nat) : Prop :=
  maySend s x dest = true ∧ (getEngine s dest).rx.length < 64 ∧ ∀ m ∈ (getEngine s n.engine).tx, headField m.header 13 4 ≠ dest

/-- A near-profile branch target (R175): P + 4·disp in 64 bits. -/
def nearAt (pc : Nat) (disp : Int) : Nat := (BitVec.ofInt 64 ((pc : Int) + 4 * disp)).toNat

end Sys2Proof.Claim

/-- R140, R141 and Table 6.1: the core instructions of the near profile on a pair's 64-bit scalars and sixteen-element vectors, and its
branches; a write of g0 is discarded. -/
def Sys2Proof.Claim.NearCoreForms : Prop :=
  ∀ (op : AluOp) (v : DivOp) (f : ImmForm) (d a b : BitVec 7) (l k : BitVec 4) (x : BitVec 18) (y : BitVec 25) (s : State) (n : NCur) (c : Ctx)
    (t : NThr), Runs s n c t →
    Moves (aluInstr op .group d a b) s n
      (nearPutG t (rn d) (alu op (nearG t (rn a)) (nearG t (rn (second op a b))) (nearG t (rn d)))) ∧
    Moves (aluInstr op .lane d a b) s n (nearPutV t (rn d)
      (sixteen (fun i => alu op (elemOf t (rn a) i) (elemOf t (rn (second op a b)) i) (elemOf t (rn d) i)))) ∧
    Moves (f.instr .group d a) s n (nearPutG t (rn d) (f.result (nearG t (rn a)))) ∧
    Moves (.li .group d x) s n (nearPutG t (rn d) (x.signExtend 64)) ∧
    Moves (divInstr v .group d a b l) s n (nearPutG t (rn d) (divide v (nearG t (rn a)) (nearG t (rn b)))) ∧
    Moves (.cmp .group d a b k) s n (nearPutG t (rn d) (if intCond k.toNat (nearG t (rn a)) (nearG t (rn b)) then 1#64 else 0#64)) ∧
    Moves (.fadd .lane d a b) s n (nearPutV t (rn d) (sixteen (fun i =>
      BitVec.ofNat 32 (fop fp32 .add (elemOf t (rn a) i).toNat (elemOf t (rn b) i).toNat (elemOf t (rn d) i).toNat)))) ∧
    Moves (.ffma .lane d a b) s n (nearPutV t (rn d) (sixteen (fun i =>
      BitVec.ofNat 32 (fop fp32 .fma (elemOf t (rn a) i).toNat (elemOf t (rn b) i).toNat (elemOf t (rn d) i).toNat)))) ∧
    (exec (.br a x) s = .next (putThr s n { t with
      pc := if nearG t (rn a) ≠ 0#64 then nearAt t.pc x.toInt else t.pc + 4 })) ∧
    (exec (.brn a x) s = .next (putThr s n { t with
      pc := if nearG t (rn a) = 0#64 then nearAt t.pc x.toInt else t.pc + 4 })) ∧
    (exec (.bra y) s = .next (putThr s n { t with pc := nearAt t.pc y.toInt })) ∧
    (exec (.jmpr a) s = .next (putThr s n { t with pc := (nearG t (rn a)).toNat }))

/-- R287: on a core every near-only word is an illegal instruction. -/
def Sys2Proof.Claim.NearOnlyOnCores : Prop :=
  ∀ (d a b : BitVec 7) (m : BitVec 2) (o : BitVec 5) (k : BitVec 4) (q e : BitVec 1) (s : State) (c : Cur) (sh : Sheaf), Issues s c sh →
    ∀ i ∈ nearOnlyInstrs d a b m o k q e, exec i s = trap s c sh (plainTrap 0)

/-- R288: LDB and STB of 8 or 64 bytes: the bank-local grant, or device memory as the batch sees it, with writes held; a misaligned address
is fault 1, and one outside the grant or one that does not translate fault 2. -/
def Obligations.NearMemory : Prop :=
  ∀ (d a : BitVec 7) (vec : Bool) (o : BitVec 5) (s : State) (n : NCur) (x : Ctx) (t : NThr), Runs s n x t →
    let size := if vec then 64 else 8
    let ad : DWord := nearG t (rn a) + o.signExtend 64 * BitVec.ofNat 64 size
    let local_ : BitVec 2 := if vec then 3#2 else 2#2
    let far : BitVec 2 := if vec then 1#2 else 0#2
    let load := fun (bs : List Byte) (t : NThr) => if vec then
        nearPutV t (rn d) (sixteen (fun k => BitVec.ofNat 32 (leNat (((bs.drop (4 * k)).take 4)))))
      else nearPutG t (rn d) (BitVec.ofNat 64 (leNat bs))
    let data := fun k => if vec then byteOf (elemOf t (rn d) (k / 4)) (k % 4) else BitVec.ofNat 8 ((nearG t (rn d)).toNat / 256 ^ k)
    (ad.toNat % size ≠ 0 → ∀ i ∈ [Instr.ldb d a local_ o, .ldb d a far o, .stb d a local_ o, .stb d a far o], Faults i s n 1) ∧
    (ad.toNat % size = 0 →
      (x.grantSize < ad.toNat + size → Faults (.ldb d a local_ o) s n 2 ∧ Faults (.stb d a local_ o) s n 2) ∧
      (ad.toNat + size ≤ x.grantSize →
        Moves (.ldb d a local_ o) s n (load ((List.range size).map (fun k => mget x.grant (ad.toNat + k) 0#8)) t)) ∧
      (ad.toNat + size ≤ x.grantSize → (vec = true → (nearV t (rn d)).length = 16) →
        ∃ u x', exec (.stb d a local_ o) s = .next u ∧ mfind (getEngine u n.engine).ctxs n.ctx = some x' ∧ ThreadIs u n t ∧
          SameMemory s u ∧ ∀ z, mget x'.grant z 0#8 = if ad.toNat ≤ z ∧ z < ad.toNat + size then data (z - ad.toNat) else mget x.grant z 0#8) ∧
      (nearAddrs s (ctxAsid s x.kind) false size ad = none → Faults (.ldb d a far o) s n 2) ∧
      (nearAddrs s (ctxAsid s x.kind) true size ad = none → Faults (.stb d a far o) s n 2) ∧
      (∀ ps, nearAddrs s (ctxAsid s x.kind) false size ad = some ps → Live s x.kind →
        let got := ps.map (nearByte s (holdOf s x.kind))
        let t1 := if got.any (fun b => b.2) then nearPutG t 31 (nearG t 31 ||| 1#64) else t
        ∃ u, exec (.ldb d a far o) s = .next u ∧ ThreadIs u n (load (got.map (fun b => b.1)) t1) ∧ SameMemory s u ∧
          (holdOf u x.kind).writes = (holdOf s x.kind).writes ∧ ∀ p ∈ ps, granuleOf p ∈ (holdOf u x.kind).reads) ∧
      (∀ ps, nearAddrs s (ctxAsid s x.kind) true size ad = some ps → Live s x.kind → ps.Nodup → x.wrote.length + size ≤ 16384 →
        (vec = true → (nearV t (rn d)).length = 16) →
        ∃ u, exec (.stb d a far o) s = .next u ∧ ThreadIs u n t ∧ SameMemory (unsnap s (ctxAsid s x.kind) ad) u ∧ (∀ p ∈ ps, granuleOf p ∈ (holdOf u x.kind).wgran) ∧
          (∀ k, k < size → mfind (holdOf u x.kind).writes (lget ps k 0) = some (data k)) ∧
          ∀ p, p ∉ ps → mfind (holdOf u x.kind).writes p = mfind (holdOf s x.kind).writes p))

/-- R144 to R149, R289 and R290: DIST gives the distance with its status above it; HPUSH, HPOP and HTOP work on a chain that the context owns,
and HCHAIN makes and frees one; a handle of none is fault 4. -/
def Sys2Proof.Claim.NearDistancesAndHeaps : Prop :=
  (∀ (d a b : BitVec 7) (k : BitVec 4) (s : State) (n : NCur) (x : Ctx) (t : NThr), Runs s n x t →
    let w := (nearG t (rn b)).toNat
    let len := w % 2 ^ 16
    let fmt := w / 2 ^ 20 % 16
    (distOk k.toNat (nearG t (rn b)) = false → Faults (.dist d a b k) s n 1) ∧
    (distOk k.toNat (nearG t (rn b)) = true →
      ∀ ps, nearAddrs s (ctxAsid s x.kind) false (vectorBytes k.toNat fmt len) (nearG t (rn a)) = some ps →
      let got := ps.map (nearByte s (holdOf s x.kind))
      let r := distance k.toNat fmt len (queryAt s n x (w / 2 ^ 16 % 16) (queryBytes k.toNat fmt len)) (got.map (fun b => b.1))
      got.any (fun b => b.2) = false →
      ∃ u, exec (.dist d a b k) s = .next u ∧ ThreadIs u n (nearPutG t (rn d) (BitVec.ofNat 64 (r.code + 2 ^ 32 * r.status))) ∧
        SameMemory s u)) ∧
  (∀ (fmt : Nat) (q v : List Byte), distance 0 fmt 0 q v = { code := 0, status := 1 } ∧ distance 1 fmt 0 q v = { code := 0, status := 1 } ∧
    distance 2 fmt 0 q v = { code := one32, status := 3 } ∧ distance 4 fmt 0 q v = { code := 0, status := 1 }) ∧
  (∀ (h d r : BitVec 7) (s : State) (n : NCur) (x : Ctx) (t : NThr) (c : Chain), Runs s n x t →
    (chainAt s n x (nearG t (rn h)) = none → Faults (.hpush h d r) s n 4 ∧ Faults (.hpop d h) s n 4 ∧ Faults (.htop d h r) s n 4) ∧
    (chainAt s n x (nearG t (rn h)) = some c →
      (∃ u, exec (.hpush h d r) s = .next u ∧ ThreadIs u n t ∧
        (getEngine u n.engine).chains = (getEngine s n.engine).chains.map (fun y => if y.first = c.first then
          { y with ents := heapPush (256 * c.heaps) c.ents (BitVec.ofNat 32 (nearG t (rn d)).toNat) ((nearG t (rn r)).toNat % 2 ^ 48) }
          else y)) ∧
      (∃ u, exec (.hpop d h) s = .next u ∧ ThreadIs u n (putEntry t d (heapPop c.ents).1) ∧
        (getEngine u n.engine).chains = (getEngine s n.engine).chains.map (fun y => if y.first = c.first then
          { y with ents := (heapPop c.ents).2 } else y)) ∧
      Moves (.htop d h r) s n (putEntry t d (heapTop c.ents (nearG t (rn r)).toNat)))) ∧
  (∀ (d h : BitVec 7) (s : State) (n : NCur) (x : Ctx) (t : NThr), Runs s n x t →
    let k := (nearG t (rn h)).toNat
    (4 < k → Faults (.hchain d h) s n 1) ∧
    (1 ≤ k → k ≤ 4 → freeHeaps (getEngine s n.engine) k = none → Moves (.hchain d h) s n (nearPutG t (rn d) (BitVec.allOnes 64))) ∧
    (∀ f, 1 ≤ k → k ≤ 4 → freeHeaps (getEngine s n.engine) k = some f →
      ∃ u, exec (.hchain d h) s = .next u ∧
        ThreadIs u n (nearPutG t (rn d) (BitVec.ofNat 64 (n.engine + 2 ^ 10 * f + 2 ^ 12 * (k - 1)))) ∧
        (getEngine u n.engine).chains = (getEngine s n.engine).chains ++
          [{ first := f, heaps := k, ctx := some n.ctx, qid := none, ents := [] }]) ∧
    (∀ c, k = 0 → chainAt s n x (nearG t (rn d)) = some c → ∃ u, exec (.hchain d h) s = .next u ∧ ThreadIs u n (nearPutG t (rn d) 0#64) ∧
      (getEngine u n.engine).chains = (getEngine s n.engine).chains.filter (fun y => y.first != c.first))) ∧
  (∀ (cap : Nat) (ents : List HeapEnt) (key : Word) (ident : Nat),
    ((fdec fp32 key.toNat).isNan = true → heapPush cap ents key ident = ents) ∧
    ((∃ e ∈ ents, e.ident = ident) → heapPush cap ents key ident = ents) ∧
    ((heapPush cap ents key ident).length ≤ max cap ents.length) ∧
    (∀ e ∈ heapPush cap ents key ident, e ∈ ents ∨ e = { key := key, ident := ident, expanded := false }))

/-- R138, R161, R162, R291 to R294: messages, whose reserved header bits go out as 0, and walkers, NMRET, and the two queues of a pair: the fetch thread fills the forward queue of sixteen
elements and the math thread the return queue of eight; a full or empty queue blocks the thread where it stands. -/
def Sys2Proof.Claim.NearMessagesAndQueues : Prop :=
  ∀ (d a b : BitVec 7) (s : State) (n : NCur) (x : Ctx) (t : NThr), Runs s n x t →
    exec (.msgRecv d a) s = .next (putThr s n { t with wait := .recv (rn d) (rn a) }) ∧
    (let header := (nearG t (rn d + 1)).toNat * 2 ^ 64 + (nearG t (rn d)).toNat
     let kind := header % 16
     let dest := header / 2 ^ 4 % 1024
     (kind = 0 ∨ 8 ≤ kind ∨ header / 2 ^ 14 % 1024 ≠ 0 ∨ header / 2 ^ 48 % 2 ^ 16 ≠ 0 → Faults (.msgSend d a) s n 1) ∧
     (1 ≤ kind → kind ≤ 7 → header / 2 ^ 14 % 1024 = 0 → header / 2 ^ 48 % 2 ^ 16 = 0 →
       (maySend s x dest = false → Faults (.msgSend d a) s n 5) ∧
       (maySend s x dest = true → (64 ≤ (getEngine s dest).rx.length ∨ ∃ m ∈ (getEngine s n.engine).tx, headField m.header 13 4 = dest) →
         exec (.msgSend d a) s = .next (putThr s n { t with wait := .send })) ∧
       (Sendable s n x dest → ∃ u m, exec (.msgSend d a) s = .next u ∧ ThreadIs u n { t with wait := .ready } ∧
         (getEngine u dest).rx = (getEngine s dest).rx ++ [m] ∧ m.body = ofVec (nearV t (rn a)) ∧ m.kind = kind ∧
         m.holds = x.holds ∧
         (n.engine < 1024 → m.header.toNat = header % 2 ^ 28 + (if kind = 2 then header / 2 ^ 28 % 2 * 2 ^ 28 else 0) +
           header / 2 ^ 32 % 2 ^ 16 * 2 ^ 32 + header / 2 ^ 64 % 2 ^ 32 * 2 ^ 64 +
           n.engine * 2 ^ 14 + (getEngine s n.engine).seq.toNat * 2 ^ 48)))) ∧
    (let dest := (nearG t (rn b)).toNat % 1024
     Sendable s n x dest →
       (∃ u m, exec (.whop a b) s = .next u ∧ mfind (getEngine u n.engine).ctxs n.ctx = none ∧ m.body = ofVec (nearV t (rn a)) ∧
         (getEngine u dest).rx = (getEngine s dest).rx ++ [m]) ∧
       (∃ u m, exec (.wspawn a b) s = .next u ∧ ThreadIs u n { t with wait := .ready } ∧ m.body = ofVec (nearV t (rn a)) ∧
         (getEngine u dest).rx = (getEngine s dest).rx ++ [m] ∧
         ∀ q y, x.kind.qid = some q → getSearch s q = some y → ∃ y', getSearch u q = some y' ∧ y'.spawned = y.spawned + 1)) ∧
    (∀ k y, x.kind = .nmcall k → getBatch s k = some y →
      ((∀ c ∈ y.calls, c.reply.isSome = true) → exec .wend s = .next (endBatch s n.engine n.ctx k)) ∧
      ((∃ c ∈ y.calls, c.reply = none) → Faults .wend s n 1) ∧
      (∀ c, (nearG t (rn b)).toNat < y.calls.length → lget (y.calls.map some) (nearG t (rn b)).toNat none = some c → c.reply = none →
        ∃ u y', exec (.nmret a b) s = .next u ∧ ThreadIs u n t ∧ getBatch u k = some y' ∧ y'.calls.length = y.calls.length ∧
          ∀ j, lget (y'.calls.map some) j none = if j = (nearG t (rn b)).toNat then
            some { c with reply := some ((nearV t (rn a)).take y.count, (nearG t 31).getLsbD 0) } else lget (y.calls.map some) j none)) ∧
    (x.kind.qid ≠ none → ∃ q, x.kind.qid = some q ∧ exec .wend s = .next (checkSearch (endCtx s n.engine n.ctx) q) ∧ Faults (.nmret a b) s n 1) ∧
    (n.math = false →
      (16 ≤ x.fwd.length → exec (.nearQpush d 0#1 1#1) s = .next (putThr s n { t with wait := .push 0 })) ∧
      (x.fwd.length < 16 → ∃ u x', exec (.nearQpush d 0#1 1#1) s = .next u ∧ ThreadIs u n { t with wait := .ready } ∧
        mfind (getEngine u n.engine).ctxs n.ctx = some x' ∧ x'.fwd = x.fwd ++ [nearV t (rn d)] ∧ x'.ret = x.ret) ∧
      (x.ret = [] → exec (.nearQpop d 1#1 1#1) s = .next (putThr s n { t with wait := .pop 1 })) ∧
      (∀ v r, x.ret = v :: r → ∃ u x', exec (.nearQpop d 1#1 1#1) s = .next u ∧ mfind (getEngine u n.engine).ctxs n.ctx = some x' ∧
        ThreadIs u n (nearPutG (nearPutG { t with wait := .ready } (rn d) (BitVec.ofNat 64 v.toNat)) (rn d + 1)
          (BitVec.ofNat 64 (v.toNat / 2 ^ 64))) ∧ x'.ret = r ∧ x'.fwd = x.fwd) ∧
      Faults (.nearQpush d 1#1 1#1) s n 1 ∧ Faults (.nearQpop d 0#1 1#1) s n 1) ∧
    (n.math = true →
      (8 ≤ x.ret.length → exec (.nearQpush d 1#1 1#1) s = .next (putThr s n { t with wait := .push 1 })) ∧
      (x.ret.length < 8 → ∃ u x', exec (.nearQpush d 1#1 1#1) s = .next u ∧ ThreadIs u n { t with wait := .ready } ∧
        mfind (getEngine u n.engine).ctxs n.ctx = some x' ∧ x'.ret = x.ret ++ [nearG t (rn d + 1) ++ nearG t (rn d)] ∧ x'.fwd = x.fwd) ∧
      (x.fwd = [] → exec (.nearQpop d 0#1 1#1) s = .next (putThr s n { t with wait := .pop 0 })) ∧
      (∀ v r, x.fwd = v :: r → ∃ u x', exec (.nearQpop d 0#1 1#1) s = .next u ∧ mfind (getEngine u n.engine).ctxs n.ctx = some x' ∧
        ThreadIs u n (nearPutV { t with wait := .ready } (rn d) v) ∧ x'.fwd = r ∧ x'.ret = x.ret) ∧
      Faults (.nearQpush d 0#1 1#1) s n 1 ∧ Faults (.nearQpop d 1#1 1#1) s n 1)

/-- The near profile on a bank engine; near-only words on a core. -/
def Obligations.NearForms : Prop := NearCoreForms ∧ NearOnlyOnCores

/-- DIST, heaps, messages, walkers, NMRET and the queues of a pair. -/
def Obligations.NearUnits : Prop := NearDistancesAndHeaps ∧ NearMessagesAndQueues


/-! ## Searches (R154 to R165, R169, R284) -/

namespace Sys2Proof.Claim

/-- A search ends: its record and its contexts are gone, and its barrier takes one arrival with status bits (R158). -/
def SearchEnds (s t : State) (q status : Nat) : Prop :=
  ∃ (x : Search) (u : State) (die ident : Nat), getSearch s q = some x ∧ getSearch u q = none ∧
    (∀ e ∈ u.engines, ∀ y ∈ e.2.ctxs, y.2.kind.qid ≠ some q) ∧ t = (arriveFor u x.launch x.asid x.plot x.ref 1 status 3 die ident).1

/-- A byte as a search controller reads it (R132, R133). -/
def engineByte (s : State) (a : Nat) : Byte := byteOf (engineWord s (a / 4)).1 (a % 4)

/-- The card as the controller reads it, and a search that has read it. -/
def withCard (s : State) (x : Search) (as : List Nat) : Search :=
  { x with card := BitVec.ofNat 512 (leNat (as.map (engineByte s))),
           snap := BitVec.ofNat 32 (bits (leNat (as.map (engineByte s))) 95 64), ctl := activeImage s 3 }

/-- None of the words that hold some bytes of device memory reads as poisoned. -/
def CleanAt (s : State) (as : List Nat) : Prop := ∀ a ∈ as, (engineWord s (a / 4)).2 = false

/-- A message is taken: from those that wait for a context where it is one of them, else from the receive queue (R162). -/
def Taken (s t : State) (e : Nat) (m : Msg) : Prop :=
  if m ∈ (getEngine s e).waits then (getEngine t e).waits = (getEngine s e).waits.erase m ∧ (getEngine t e).rx = (getEngine s e).rx
  else (getEngine t e).waits = (getEngine s e).waits ∧ (getEngine t e).rx = (getEngine s e).rx.erase m

/-- The messages of one server leave the receive queue in their order and wait for a context, so that they block none behind them (R162). -/
def SetAside (s t : State) (e server : Nat) : Prop :=
  (getEngine t e).ctxs = (getEngine s e).ctxs ∧
    (getEngine t e).rx = (getEngine s e).rx.filter (fun m => serverOf m.kind != server) ∧
    (getEngine t e).waits = (getEngine s e).waits ++ (getEngine s e).rx.filter (fun m => serverOf m.kind == server)

/-- A running search whose heap unit stands at an engine takes a message of some kind there; walkers of it still run. -/
def AtHome (s : State) (e q kind : Nat) (m : Msg) (x : Search) : Prop :=
  headMsg s e kind = some m ∧ searchOfQid s (headField m.header 47 32) = some q ∧ getSearch s q = some x ∧ x.stage = .running ∧
    x.home = e ∧ x.waiters = []

/-- The entries of a search's chain. -/
def heapOf (s : State) (q e : Nat) : List HeapEnt := ((chainOf s q e).map (fun c => c.ents)).getD []

/-- A message of a kind with given first items came behind those that an engine had, or waits at its source for room there (R162). -/
def Sent (s t : State) (src dest kind : Nat) (items : List Nat) : Prop :=
  ∃ m : Msg, (if maySendNow s src dest then (getEngine t dest).rx = (getEngine s dest).rx ++ [m]
      else (getEngine t src).tx = (getEngine s src).tx ++ [m]) ∧
    m.kind = kind ∧ ∀ k, k < items.length → bodyItem m.body k = lget items k 0 % 2 ^ 64

end Sys2Proof.Claim

/-- R156, R249 and R284: NMSEARCH sends the card's address and the barrier to the controllers and writes no register; a poisoned operand, a
misaligned card, a card that is not canonical, a barrier in space 2 and one where the launch may name none trap. -/
def Sys2Proof.Claim.SearchCommands : Prop :=
  ∀ (a b : BitVec 7) (s : State) (c : Cur) (sh : Sheaf), Issues s c sh → Active c sh →
    let va := rdG64 s c sh (rn a)
    let ref := rdG64 s c sh (rn b)
    let dirty := rdGP s c sh (rn a) || rdGP s c sh (rn a + 1) || rdGP s c sh (rn b) || rdGP s c sh (rn b + 1)
    let at_ := fun (cause : Nat) => trap s c sh { plainTrap cause with
      lanes := exm c sh, detail := BitVec.ofNat 32 (firstLane (exm c sh)), addr := va }
    (dirty = true → exec (.nmsearch a b) s = trap s c sh { plainTrap 6 with lanes := exm c sh }) ∧
    (dirty = false → va.toNat % 64 ≠ 0 → exec (.nmsearch a b) s = at_ 3) ∧
    (dirty = false → va.toNat % 64 = 0 → canonical va = false → exec (.nmsearch a b) s = at_ 4) ∧
    (dirty = false → va.toNat % 64 = 0 → canonical va = true → refOk ref false = false →
      exec (.nmsearch a b) s = trap s c sh (plainTrap 12)) ∧
    (dirty = false → va.toNat % 64 = 0 → canonical va = true → refOk ref false = true → ¬RefReaches s c sh ref →
      exec (.nmsearch a b) s = trap s c sh { plainTrap 4 with
        lanes := exm c sh, detail := BitVec.ofNat 32 (firstLane (exm c sh)), addr := refVa ref }) ∧
    (∀ pa syn, dirty = false → va.toNat % 64 = 0 → canonical va = true → refOk ref false = true → RefReaches s c sh ref →
      Maps s sh.place.core (asidOf s c.bed) va .read pa syn →
      ∃ t k x, exec (.nmsearch a b) s = .next t ∧ getSheaf t c.bed c.sheaf = some (advance c sh) ∧ StoresNothing s t ∧
        getSearch t k = some x ∧ x.stage = .sent ∧ x.cardVa = va ∧ x.ref = ref ∧ x.asid = asidOf s c.bed ∧
        x.launch = launchKey s c.bed ∧ x.plot = plotOf sh.place.core)

/-- R154, R156 and R158: registration reads the card and its descriptor; a card that cannot be read, is poisoned, names no index or asks for
a snapshot not yet committed is a card fault, and one below LOWWATER is retired; otherwise the snapshot is registered, and LOWWATER is
the smallest registered one. -/
def Sys2Proof.Claim.SearchRegistrations : Prop :=
  (∀ (q : Nat) (s : State), (∀ x, getSearch s q = some x → x.stage ≠ .sent) → exec (.searchRegistration q) s = .next s) ∧
  (∀ (q : Nat) (s : State) (x : Search), getSearch s q = some x → x.stage = .sent →
    (nearAddrs s x.asid false 64 x.cardVa = none → ∃ t, exec (.searchRegistration q) s = .next t ∧ SearchEnds s t q 1) ∧
    (∀ as, nearAddrs s x.asid false 64 x.cardVa = some as → ¬CleanAt s as →
      ∃ t, exec (.searchRegistration q) s = .next t ∧ SearchEnds s t q 3) ∧
    (∀ as ps, nearAddrs s x.asid false 64 x.cardVa = some as → CleanAt s as →
      let y := withCard s x as
      let rva : DWord := BitVec.ofNat 64 (cardField y 255 192)
      let k := if 1 ≤ cardK y ∧ cardK y ≤ 1024 then cardK y else 0
      cardVaOk rva = true → pagesOf s x.asid rva (32 + 16 * k) true = some ps →
      (mfind s.indexes (cardField y 31 0) = none → ∃ t, exec (.searchRegistration q) s = .next t ∧ SearchEnds s t q 1) ∧
      (∀ i qs, mfind s.indexes (cardField y 31 0) = some i → CleanAt s ((List.range 128).map (fun n => i.descPa + n)) →
        let desc := BitVec.ofNat 1024 (leNat ((List.range 128).map (fun n => engineByte s (i.descPa + n))))
        let comm := (engineWord s (i.descPa / 4)).1
        let low := (engineWord s (i.descPa / 4 + 1)).1
        let snap := if y.snap = 0xFFFFFFFF#32 then comm else y.snap
        descOk desc = true → cardOk y = true →
        pagesOf s x.asid (BitVec.ofNat 64 (cardField y 191 128)) (descQueryBytes desc) false = some qs →
        (comm < snap → ∃ t, exec (.searchRegistration q) s = .next t ∧ SearchEnds s t q 1) ∧
        (snap ≤ comm → snap < low → ∃ t, exec (.searchRegistration q) s = .next t ∧ SearchEnds s t q 4) ∧
        (snap ≤ comm → low ≤ snap → ∃ t z x', exec (.searchRegistration q) s = .next t ∧ getSearch t q = some x' ∧
          { x' with hold := y.hold } =
            { y with stage := .registered, desc := desc, descPa := i.descPa, snap := snap, qpages := qs, rpages := ps,
                     home := 64 * stackOf i.descPa } ∧
          mfind t.indexes (cardField y 31 0) = some { i with snaps := i.snaps ++ [snap] } ∧
          z ∈ i.snaps ++ [snap] ∧ (∀ v ∈ i.snaps ++ [snap], z ≤ v) ∧ (z = low → SameMemory s t) ∧
          (z ≠ low → (homeWord t (i.descPa / 4 + 1)).1 = z)))))

/-- R159: a registered search without a visible entry node ends as converged, marked where poison kept one out (the model's choice, log 59);
it waits while no engine of its first entry node's stack has the heaps free; otherwise its chain and its setup routine are placed on one
with the heaps and, the model's choice (log 62), a context free. -/
def Sys2Proof.Claim.SearchSetups : Prop :=
  (∀ (q : Nat) (s : State), (∀ x, getSearch s q = some x → x.stage ≠ .registered ∧ x.stage ≠ .waiting) →
    exec (.searchSetup q) s = .next s) ∧
  (∀ (q : Nat) (s : State) (x : Search), getSearch s q = some x → (x.stage = .registered ∨ x.stage = .waiting) →
    let nodes := entryNodes q x s ((entryFields x.desc).filter (fun j => j != unusedEntry))
    (∀ s1 y, nodes = (some [], s1) → getSearch s1 q = some y →
      ∃ t, exec (.searchSetup q) s = .next t ∧ SearchEnds s1 t q (if y.poison then 2 else 0)) ∧
    (∀ n r s1, nodes = (some (n :: r), s1) → (∀ e, e / 64 = n.2.2 → freeHeaps (getEngine s e) (chainHeaps x) = none) →
      ∃ t y, exec (.searchSetup q) s = .next t ∧ getSearch t q = some y ∧ y.stage = .waiting ∧ t.engines = s.engines) ∧
    (∀ n r s1 e f k rt, nodes = (some (n :: r), s1) → e / 64 = n.2.2 → freeHeaps (getEngine s e) (chainHeaps x) = some f →
      freeCtx (getEngine s e) = some k → (∀ z ∈ s.searches, z.2.stage ≠ .waiting ∨ z = (q, x)) →
      routineAt (imageOf s (activeImage s 6)) 0 = some rt →
      CleanAt s ((List.range (descQueryBytes x.desc)).map (pagedByte x.qpages (BitVec.ofNat 64 (cardField x 191 128)))) →
      (∀ z ∈ n :: r, ∃ as, nearAddrs s x.asid false
        (vectorBytes (descField x.desc 66 64) (descField x.desc 75 72) (descField x.desc 95 80)) z.2.1 = some as) →
      ∃ t y h j c, exec (.searchSetup q) s = .next t ∧ getSearch t q = some y ∧ y.stage = .running ∧ y.home / 64 = n.2.2 ∧
        h ∈ (getEngine t y.home).chains ∧ h.qid = some q ∧ h.heaps = chainHeaps x ∧
        mfind (getEngine t y.home).ctxs j = some c ∧ c.kind = .setup q ∧ c.fetch.pc = rt.fetch ∧ c.math.pc = rt.math ∧
        nearG c.fetch 1 = BitVec.ofNat 64 (cardField x 259 256)))

/-- R143, R160 and R162: a SPAWN starts a context at the walker routine's entries and a WALKER at its hop entry; both wait outside the receive
queue while no context is free, and one for a search that is gone is dropped. -/
def Sys2Proof.Claim.Walkers : Prop :=
  ∀ (e : Nat) (hop : Bool) (s : State),
    let i : Instr := if hop then .walker e else .spawn e
    let kind := if hop then 1 else 6
    (headMsg s e kind = none → exec i s = .next s) ∧
    (∀ m, headMsg s e kind = some m → searchOfQid s (headField m.header 47 32) = none →
      ∃ t, exec i s = .next t ∧ Taken s t e m ∧ (getEngine t e).ctxs = (getEngine s e).ctxs) ∧
    (∀ m q x, headMsg s e kind = some m → searchOfQid s (headField m.header 47 32) = some q → getSearch s q = some x →
      (freeCtx (getEngine s e) = none → ∃ t, exec i s = .next t ∧ SetAside s t e 0) ∧
      (∀ k slot s1 r, freeCtx (getEngine s e) = some k → loadQuery s e q x = some (slot, s1) → routineAt (imageOf s x.lib) 1 = some r →
        ∃ t c, exec i s = .next t ∧ mfind (getEngine t e).ctxs k = some c ∧ c.kind = .walker q ∧ c.lib = x.lib ∧
          c.fetch.pc = (if hop then r.hop else r.fetch) ∧ c.math.pc = (if hop then r.hop + 4 else r.math) ∧
          nearV c.fetch 0 = vecOf m.body ∧ Taken s t e m))

/-- R163 and R164: the heap unit.  A candidate seen before is dropped, another is marked and pushed; a request is answered with STOP when the
budget is spent, with the best unexpanded entry of rank K or better, waits while a DREQ or a node is out, and is answered with STOP
otherwise; an ENDW counts its walker out. -/
def Sys2Proof.Claim.HeapUnit : Prop :=
  (∀ (e : Nat) (s : State),
    (headMsg s e 2 = none → exec (.cands e) s = .next s) ∧ (headMsg s e 3 = none → exec (.popreq e) s = .next s) ∧
    (headMsg s e 7 = none → exec (.endw e) s = .next s)) ∧
  (∀ (e q : Nat) (s : State) (m : Msg) (x : Search) (ch : Chain), AtHome s e q 2 m x → x.endedW ≠ x.spawned → chainOf s q e = some ch →
    headField m.header 27 24 = 1 → headField m.header 28 28 = 0 →
    let key : Word := BitVec.ofNat 32 (bodyItem m.body 0)
    let id := bodyItem m.body 1 % 2 ^ 48
    let h := Nat.xor (Nat.xor (id % 2 ^ 16) (id / 2 ^ 16 % 2 ^ 16)) (id / 2 ^ 32 % 2 ^ 16) % 65536
    ∃ t y, exec (.cands e) s = .next t ∧ getSearch t q = some y ∧ mget y.visited h false = true ∧
      (∀ k, k ≠ h → mget y.visited k false = mget x.visited k false) ∧
      heapOf t q e = (if mget x.visited h false then heapOf s q e else heapPush (256 * ch.heaps) (heapOf s q e) key id)) ∧
  (∀ (e q : Nat) (s : State) (m : Msg) (x : Search), AtHome s e q 3 m x → x.endedW ≠ x.spawned →
    let w := (bodyItem m.body 0 % 1024, bodyItem m.body 1 % 16)
    let out := x.dreqs + (bodyItem m.body 2 % 256 : Nat)
    let held := if m.holds then x.holding - 1 else x.holding
    let stop := 0xFFFFFFFFFFFF
    ∃ t y, exec (.popreq e) s = .next t ∧ getSearch t q = some y ∧ y.dreqs = out ∧
      (x.handed = cardField x 127 96 → Sent (takeMsg s e m) t e w.1 4 [stop, w.2] ∧ y.spent = true ∧ y.waiters = []) ∧
      (x.handed ≠ cardField x 127 96 → bestInK (heapOf s q e) (cardK x) = true →
        Sent (takeMsg s e m) t e w.1 4 [(heapPop (heapOf s q e)).1.1, w.2] ∧ y.handed = x.handed + 1 ∧ y.holding = held + 1 ∧
        heapOf t q e = (heapPop (heapOf s q e)).2) ∧
      (x.handed ≠ cardField x 127 96 → bestInK (heapOf s q e) (cardK x) = false → (0 < out ∨ 0 < held) →
        y.waiters = [w] ∧ Taken s t e m) ∧
      (x.handed ≠ cardField x 127 96 → bestInK (heapOf s q e) (cardK x) = false → out ≤ 0 → held = 0 →
        Sent (takeMsg s e m) t e w.1 4 [stop, w.2] ∧ y.spent = x.spent ∧ y.waiters = [])) ∧
  (∀ (e q : Nat) (s : State) (m : Msg) (x : Search), AtHome s e q 7 m x →
    let out := x.dreqs + (bodyItem m.body 1 : Nat)
    (x.endedW + 1 ≠ x.spawned → ∃ t y, exec (.endw e) s = .next t ∧ getSearch t q = some y ∧ y.endedW = x.endedW + 1 ∧ y.dreqs = out) ∧
    (x.endedW + 1 = x.spawned → out = 0 → conflicts s x.hold = false →
      (∀ en ∈ (takeMsg s e m).engines, ∀ c ∈ en.2.ctxs, c.2.kind ≠ .setup q) →
      ∃ t, exec (.endw e) s = .next t ∧
        SearchEnds s t q ((if x.spent || x.engFault then 1 else 0) + (if x.poison then 2 else 0))))

/-- R136, R162 to R164 and R291: a POPREP goes to the context of its search that waits for it, whose MSG.RECV completes; a DREQ occupies a
free context, or waits for one outside the receive queue; the context owes one CANDS, or two where more than four candidates come back, and
sends each once HOME has room for it.  That a DREQ's answers are worked out at once, and that a POPREP's own body names its context, is the
model's choice (log 56). -/
def Sys2Proof.Claim.WalkerMessages : Prop :=
  (∀ (e : Nat) (s : State),
    ((∀ m ∈ (getEngine s e).rx, m.kind ≠ 4) → exec (.poprep e) s = .next s) ∧ (headMsg s e 5 = none → exec (.dreq e) s = .next s)) ∧
  (∀ (e : Nat) (s : State) (m : Msg) (c : Ctx) (q h a : Nat), (getEngine s e).rx = [m] → m ∉ (getEngine s e).waits → m.kind = 4 →
    mfind (getEngine s e).ctxs (bodyItem m.body 1 % 16) = some c → c.kind = .walker q → q % 65536 = headField m.header 47 32 →
    c.fetch.wait = .recv h a → 1 ≤ h → h < 30 → a < 32 →
    ∃ t c', exec (.poprep e) s = .next t ∧ (getEngine t e).rx = [] ∧ mfind (getEngine t e).ctxs (bodyItem m.body 1 % 16) = some c' ∧
      c'.fetch.wait = .ready ∧ c'.fetch.pc = c.fetch.pc + 4 ∧ nearV c'.fetch a = vecOf m.body ∧ c'.holds = m.holds ∧
      nearG c'.fetch h = m.header.setWidth 64 ∧ nearG c'.fetch (h + 1) = BitVec.ofNat 64 (m.header.toNat / 2 ^ 64)) ∧
  (∀ (e q : Nat) (s : State) (m : Msg), headMsg s e 5 = some m → searchOfQid s (headField m.header 47 32) = some q →
    freeCtx (getEngine s e) = none → ∃ t, exec (.dreq e) s = .next t ∧ SetAside s t e 5) ∧
  (∀ (e q k : Nat) (s s2 : State) (m : Msg) (x : Search) (cs : List (Word × Nat)), headMsg s e 5 = some m →
    searchOfQid s (headField m.header 47 32) = some q → getSearch s q = some x → freeCtx (getEngine s e) = some k →
    answerNodes q e x (takeMsg s e m)
      ((List.range (min (headField m.header 27 24) 8)).map (fun j => bodyItem m.body j % 2 ^ 48)) = (some cs, s2) →
    ∃ t c, exec (.dreq e) s = .next t ∧ Taken s t e m ∧ mfind (getEngine t e).ctxs k = some c ∧
      c.kind = .request q ∧ c.answers = (if cs.length ≤ 4 then [cs] else [cs.take 4, cs.drop 4])) ∧
  (∀ (e q k : Nat) (s : State) (c : Ctx) (x : Search) (cs : List (Word × Nat)) (rest : List (List (Word × Nat))),
    mfind (getEngine s e).ctxs k = some c → c.kind = .request q → c.answers = cs :: rest → getSearch s q = some x → cs.length ≤ 4 →
    (maySendNow s e x.home = false → runEvent (.requestAnswer e k) s = .next s) ∧
    (maySendNow s e x.home = true → ∃ (t : State) (m : Msg), runEvent (.requestAnswer e k) s = .next t ∧
      (getEngine t x.home).rx = (getEngine s x.home).rx ++ [m] ∧ m.kind = 2 ∧ headField m.header 27 24 = cs.length ∧
      headField m.header 28 28 = (if rest = [] then 1 else 0) ∧
      (∀ j key id, cs[j]? = some (key, id) → bodyItem m.body (2 * j) = key.toNat ∧ bodyItem m.body (2 * j + 1) = id % 2 ^ 64) ∧
      (rest = [] → mfind (getEngine t e).ctxs k = none) ∧
      (rest ≠ [] → ∃ c', mfind (getEngine t e).ctxs k = some c' ∧ c' = { c with answers := rest })))

/-- R139, R142 and R169: a fault ends its context with an event of kind 10, whose DETAIL holds the code and, the model's choice (log 113),
the context above it; what its routine owed is sent; two pair threads that both stay blocked on their queues are
fault 3, and a pair of which one can go on is not. -/
def Sys2Proof.Claim.EngineFaults : Prop :=
  (∀ (e k : Nat) (code : BitVec 8) (s : State), mfind (getEngine s e).ctxs k = none →
    exec (.engineFault e k code) s = .next s ∧ exec (.queueDeadlockFault e k) s = .next s) ∧
  (∀ (e k : Nat) (code : BitVec 8) (s : State) (c : Ctx), mfind (getEngine s e).ctxs k = some c →
    (∃ t, exec (.engineFault e k code) s = .next t ∧ mfind (getEngine t e).ctxs k = none ∧
      (let u := logEvent (endCtx s e k) 10 (dieOfEngine e) none (BitVec.ofNat 32 (code.toNat + 2 ^ 8 * k)) e
       (∀ b, c.kind = .nmcall b → t = failBatch u b code.toNat) ∧
       (∀ q x, c.kind = .walker q → getSearch s q = some x → c.endSent = false →
         Sent u t e x.home 7 [0, c.dreqs] ∧ ∃ y, getSearch t q = some y ∧ y.engFault = true) ∧
       (∀ q x, c.kind = .request q → getSearch s q = some x →
         Sent u t e x.home 2 [] ∧ ∃ y, getSearch t q = some y ∧ y.engFault = true))) ∧
    (c.fetch.wait.onQueue = true → c.math.wait.onQueue = true → queueReady c c.fetch.wait = false → queueReady c c.math.wait = false →
      exec (.queueDeadlockFault e k) s = exec (.engineFault e k 3#8) s) ∧
    (c.fetch.wait.onQueue = false ∨ c.math.wait.onQueue = false ∨ queueReady c c.fetch.wait = true ∨ queueReady c c.math.wait = true →
      exec (.queueDeadlockFault e k) s = .next s))

/-- NMSEARCH, registration and setup of a search. -/
def Obligations.SearchStart : Prop := SearchCommands ∧ SearchRegistrations ∧ SearchSetups

/-- Walkers, the heap unit, their messages, and engine faults. -/
def Obligations.SearchEngines : Prop := Walkers ∧ HeapUnit ∧ WalkerMessages ∧ EngineFaults


/-! ## Collectives (R286, R382 to R399) -/

namespace Sys2Proof.Claim

/-- A launch has a binding, and a fire index lies within it. -/
def Fireable (s : State) (launch binding index : Nat) (l : Launch) (e : BitVec 512) : Prop :=
  getLaunch s launch = some l ∧ l.binds[binding]? = some e ∧ index < fireCount s e

/-- Chunk `index` of a binding is marked as fired, and no other mark of the launch differs (R286). -/
def Marked (t : State) (launch binding index : Nat) (l : Launch) : Prop :=
  ∃ l', getLaunch t launch = some l' ∧ isFired l' binding index = true ∧
    ∀ k, k ≠ fireKey binding index → mget l'.fired k false = mget l.fired k false

/-- The source of a chunk holds poison (R390). -/
def PoisonedChunk (s : State) (l : Launch) (e : BitVec 512) (index : Nat) : Prop :=
  ∃ bs, vaRead s l.asid (4096 * chunkBlocks e) (srcVa e (index / chunkCount e) (index % chunkCount e * chunkBlocks e)) = some (bs, true)

/-- A launch is about to be killed, and no chunk of it is marked that was not (R390). -/
def KilledUnmarked (t : State) (launch : Nat) (l : Launch) : Prop :=
  (∃ d, Event.launchKill launch d ∈ t.agenda) ∧ ∃ l', getLaunch t launch = some l' ∧ l'.fired = l.fired

/-- What identifies a block of a step. -/
def blockId (b : Block) : Nat × Nat × Nat × List Byte := (b.rank, b.block, b.dest, b.data)

/-- Two blocks may travel in one coded packet (R393). -/
def Codable (c : Coll) (x y : Block) : Prop :=
  x.dest ≠ y.dest ∧ rankHolds c y.dest x.rank x.block = true ∧ rankHolds c x.dest y.rank y.block = true

/-- The one packet under way, of a kind, at its one port; its first tag names a block of a collective for that port. -/
def Arrives (s : State) (k kind : Nat) (p : Pkt) (port id : Nat) (c : Coll) : Prop :=
  s.pkts = [(k, p)] ∧ p.dst = [port] ∧ pktField p 3 0 = kind ∧ (pktTag p 0).1 = id ∧ getColl s id = some c ∧
    c.version = (pktTag p 0).2.2.2 ∧ c.running = true

end Sys2Proof.Claim

/-- R286, R390: COLLFIRE releases at system scope and fires one chunk; an absent binding, an index outside the map and a chunk already fired
are a queue fault, a collective that has ended discards the fire with an event of kind 13, and a poisoned source kills the launch without a
fire.  That a binding with bits [31:2] set is an absent one is the model's choice (log 66), and so is that the source is looked at as the
chunk fires (log 70). -/
def Sys2Proof.Claim.CollfireForms : Prop :=
  ∀ (a b : BitVec 7) (s : State) (c : Cur) (sh : Sheaf), Issues s c sh → Active c sh →
    let s1 := releaseAt s sh.place.core 5
    let k := launchKey s c.bed
    let bind := (rdG s c sh (rn a)).toNat
    let idx := (rdG s c sh (rn b)).toNat
    ((rdGP s c sh (rn a) || rdGP s c sh (rn b)) = true → exec (.collfire a b) s = trap s c sh { plainTrap 6 with lanes := exm c sh }) ∧
    (rdGP s c sh (rn a) = false → rdGP s c sh (rn b) = false →
      ((∀ l e, Fireable s1 k bind idx l e → isFired l bind idx = true) → exec (.collfire a b) s = trap s1 c sh (plainTrap 12)) ∧
      (∀ l e, Fireable s1 k bind idx l e → isFired l bind idx = false →
        (collOfBind s1 k bind = none →
          exec (.collfire a b) s =
            .next (putSheaf (logEvent s1 13 0 none (rdG s c sh (rn b)) (identOf s1 k)) c (advance c sh))) ∧
        (collOfBind s1 k bind ≠ none →
          ∃ t, exec (.collfire a b) s = .next t ∧ getSheaf t c.bed c.sheaf = some (advance c sh) ∧
            (¬PoisonedChunk s1 l e idx → Marked t k bind idx l) ∧ (PoisonedChunk s1 l e idx → KilledUnmarked t k l))))

/-- R286, R387 and R390: a fire of a bed's exit skips a chunk already fired and marks another; one outside the map or after the end of the
collective is discarded with an event of kind 13; one that reaches the record for a COLLFIRE and is refused traps its sheaf; a chunk with
a poisoned source is not fired and kills the launch.  That the source is looked at as the chunk fires is the model's choice (log 70). -/
def Sys2Proof.Claim.FireRecord : Prop :=
  ∀ (k bind bed : Nat) (w : Option Nat) (i : BitVec 32) (s : State),
    (getLaunch s k = none → exec (.collectiveFire k bind i bed none) s = .next s) ∧
    (∀ l e, getLaunch s k = some l → l.binds[bind]? = some e →
      (fireCount s e ≤ i.toNat →
        exec (.collectiveFire k bind i bed none) s = .next (logEvent s 13 0 none i (identOf s k)) ∧
        ∀ n sh, w = some n → getSheaf s bed n = some sh →
          ∃ r, exec (.collectiveFire k bind i bed w) s = .next (takeTrap s bed n r) ∧ r.cause = 1#32 <<< 12) ∧
      (i.toNat < fireCount s e →
        (isFired l bind i.toNat = true → exec (.collectiveFire k bind i bed none) s = .next s) ∧
        (isFired l bind i.toNat = false → collOfBind s k bind = none →
          exec (.collectiveFire k bind i bed w) s = .next (logEvent s 13 0 none i (identOf s k))) ∧
        (isFired l bind i.toNat = false → collOfBind s k bind ≠ none →
          ∃ t, exec (.collectiveFire k bind i bed w) s = .next t ∧
            (¬PoisonedChunk s l e i.toNat → Marked t k bind i.toNat l) ∧ (PoisonedChunk s l e i.toNat → KilledUnmarked t k l))))

/-- R388 and R393: a step starts once its fires are made and its blocks fit, with the bytes its sources then hold; the coding switch forms its
packets once, in groups of at most four blocks that R393 allows together and that carry every block; a poisoned source kills the launch
(R390), which the model looks for when the step starts (log 70). -/
def Sys2Proof.Claim.StepsAndPackets : Prop :=
  (∀ (k : Nat) (s : State), getColl s k = none → ∀ i ∈ [Instr.stepStart k, .packetForming k, .stepTimeout k], exec i s = .next s) ∧
  (∀ (k : Nat) (s : State) (c : Coll), getColl s k = some c →
    let xs := (stepBlocks c c.stepNo).map (loadBlock s c)
    let bs := xs.map (fun x => x.1)
    (stepReady s c = false → exec (.stepStart k) s = .next s) ∧
    (stepReady s c = true → (∃ x ∈ xs, x.2 = true) → exec (.stepStart k) s = .next (killLaunch s c.launch 6 none)) ∧
    (stepReady s c = true → (∀ x ∈ xs, x.2 = false) → pinStep s k c bs = none → exec (.stepStart k) s = .next s) ∧
    (∀ u, stepReady s c = true → (∀ x ∈ xs, x.2 = false) → pinStep s k c bs = some u → (∃ b ∈ bs, isSent c b = true) →
      ∃ t y, exec (.stepStart k) s = .next t ∧ getColl t k = some y ∧ y.running = true ∧ y.formed = decide (c.mode ≠ .coded) ∧
        y.stepNo = c.stepNo ∧ y.blocks.map blockId = bs.map blockId) ∧
    (c.running = false ∨ c.formed = true → exec (.packetForming k) s = .next s) ∧
    (c.running = true → c.formed = false →
      ∃ t y, exec (.packetForming k) s = .next t ∧ getColl t k = some y ∧ y.formed = true ∧ y.blocks = c.blocks ∧
        (c.down = true → y.cpkt = c.cpkt ∧
          y.upkt = c.upkt + (c.blocks.filter (fun b => isSent c b && !b.data.isEmpty && isLocal (portOf c b.dest))).length))) ∧
  (∀ (c : Coll) (bs : List Block), (∀ x ∈ bs, ∃ g ∈ groupsOf c bs.length bs, x ∈ g) ∧
    ∀ g ∈ groupsOf c bs.length bs, g.length ≤ 4 ∧ (∀ x ∈ g, x ∈ bs) ∧ g.Pairwise (Codable c))

/-- R385, R386 and R388: where a block goes.  A block of a kind that reduces nothing, and a result of an external tree, is a write to its place
in the destination slice; an operand of a reduction is held until the operands of all ranks are there, and then their reduction is written. -/
def Sys2Proof.Claim.BlockPlaces : Prop :=
  ∀ (s : State) (id q b d : Nat) (data : List Byte) (c : Coll), getColl s id = some c →
    let e := c.entry
    let p := c.ranks.length
    let n := chunkBlocks e
    (∀ va, (if c.mode = .inSwitch then va = dstVa e p d b
        else if bindKind e = 2 then va = dstVa e p d (q * sliceBlocks e + b)
        else bindKind e = 3 ∧ va = dstVa e p d ((q * (chunkCount e / p) + b / n / p) * n + b % n)) →
      (vaWrite c.asid s va data ≠ none → ∃ u, placeBlock s id q b d data = some u ∧ u = { s with colls := u.colls } ∧
        getColl u id = some { c with writes := c.writes ++ [(va, data)] }) ∧
      (vaWrite c.asid s va data = none → placeBlock s id q b d data = none)) ∧
    (∀ y, c.mode ≠ .inSwitch → bindKind e = 0 ∨ bindKind e = 1 → getColl (stageBlock s id q b d data) id = some y →
      ((∃ r, r < p ∧ stagedOf y d r b = none) → placeBlock s id q b d data = some (stageBlock s id q b d data)) ∧
      (∀ f : Nat → List Byte, (∀ r, r < p → stagedOf y d r b = some (f r)) →
        let u0 := dropStaged (stageBlock s id q b d data) id (fun x => x.dest == d && x.block == b)
        let res := reduceBlocks e ((List.range p).map f)
        vaWrite c.asid u0 (dstVa e p d b) res ≠ none →
          ∃ u z, placeBlock s id q b d data = some u ∧ getColl u id = some z ∧ z.writes = c.writes ++ [(dstVa e p d b, res)] ∧
            stagedOf z d q b = none)) ∧
    (stagedOf c d q b = none → c.mode ≠ .inSwitch → bindKind e = 0 ∨ bindKind e = 1 →
      ∃ y, getColl (stageBlock s id q b d data) id = some y ∧ stagedOf y d q b = some data ∧ y.writes = c.writes ∧
        y.accepted = c.accepted ∧ y.blocks = c.blocks)

/-- R388: a block of the step in progress that is not accepted yet goes to its place, is accepted and is acknowledged to the port it came
from, under its own tag; the sender's record is marked by that ACK, or at once where the sender is in another package; a block accepted
before is only acknowledged again; a block whose destination page takes no write has no effect. -/
def Sys2Proof.Claim.BlocksAccepted : Prop :=
  ∀ (s : State) (id q b d back : Nat) (data : List Byte) (c : Coll), getColl s id = some c → inStep c q b d = true →
    let t := acceptBlock s id q b d back data
    ((q, b, d) ∈ c.accepted → t = sendAnswer s id 3 q b (portOf c d) back) ∧
    ((q, b, d) ∉ c.accepted → placeBlock s id q b d data = none → t = s) ∧
    (∀ u z, (q, b, d) ∉ c.accepted → placeBlock s id q b d data = some u → getColl u id = some z →
      (∃ x ∈ c.blocks, x.acked = false ∧ ¬(x.block = b ∧ x.dest = d)) →
      ∃ y, getColl t id = some y ∧ y.accepted = (q, b, d) :: c.accepted ∧ y.writes = z.writes ∧ y.staged = z.staged ∧ y.stepNo = c.stepNo ∧
        (isLocal (portOf c q) = true → c.mode ≠ .inSwitch → y.blocks = c.blocks) ∧
        (isLocal (portOf c q) = false ∨ c.mode = .inSwitch → ∀ x ∈ y.blocks, x.rank = q → x.block = b → x.dest = d → x.acked = true) ∧
        (isLocal back = true → ∃ x ∈ t.pkts, pktField x.2 3 0 = 3 ∧ x.2.dst = [back] ∧
          (id < 65536 → q < 256 → b < 2 ^ 24 → c.version < 65536 → portOf c d < 24 → pktTag x.2 0 = (id, q, b, c.version))))

/-- R383, R388 and R396: what packets do.  A DATA packet's block is accepted at the destination its tag and port name, and one of a step that is
over is acknowledged again to another package; a CODED packet gives the block that is left when the pinned ones are cancelled, and where one
of those is not pinned it is a decode miss, counted and answered with a NACK; an ACK marks its block, a NACK has it sent again, acknowledged
or not; a DATA block accepted before changes no destination.  A damaged flit leaves everything as it is: the model's choice (log 97). -/
def Sys2Proof.Claim.PacketArrivals : Prop :=
  (∀ (k port : Nat) (s : State), exec (.damagedFlit k) s = .next s ∧
    (mfind s.pkts k = none → ∀ i ∈ [Instr.data k, .coded k port, .ack k, .nack k], exec i s = .next s)) ∧
  (∀ (k port id : Nat) (s : State) (p : Pkt) (c : Coll) (b : Block), Arrives s k 1 p port id c → c.mode ≠ .inSwitch → c.blocks = [b] →
    (pktTag p 0).2.1 = b.rank → (pktTag p 0).2.2.1 = b.block → portOf c b.dest = port → (b.rank, b.block, b.dest) ∈ c.accepted →
    ∃ t, exec (.data k) s = .next t ∧ t.mem = s.mem ∧ t.home = s.home ∧ getColl t id = some c) ∧
  (∀ (k port id : Nat) (s : State) (p : Pkt) (c : Coll), Arrives s k 1 p port id c →
    let q := (pktTag p 0).2.1
    let b := (pktTag p 0).2.2.1
    let back := pktField p 12 8
    (∀ d, destAt c q b port = some d →
      exec (.data k) s = .next (acceptBlock { s with pkts := [] } id (if c.mode = .inSwitch then d else q) b d back p.payload)) ∧
    (destAt c q b port = none → c.mode ≠ .inSwitch →
      ((∃ x ∈ firstN (1024 * c.stepNo) (everyBlock c), x.1 = q ∧ x.2.1 = b ∧ portOf c x.2.2 = port) →
        exec (.data k) s = .next (answerOf { s with pkts := [] } id c (pktField p 31 16) 3 q b port back)) ∧
      ((∀ x ∈ firstN (1024 * c.stepNo) (everyBlock c), ¬(x.1 = q ∧ x.2.1 = b ∧ portOf c x.2.2 = port)) →
        exec (.data k) s = .next { s with pkts := [] }))) ∧
  (∀ (k port id d : Nat) (s : State) (p : Pkt) (c : Coll) (z : Pin), Arrives s k 2 p port id c → pktDest p 0 = port → pktField p 5 4 = 1 →
    destAt c (pktTag p 0).2.1 (pktTag p 0).2.2.1 port = some d → bits (mget s.pdtest port 0#64).toNat 32 32 = 0 → s.pins = [z] →
    z.port = port → z.coll = id → z.rank = (pktTag p 1).2.1 → z.block = (pktTag p 1).2.2.1 →
    exec (.coded k port) s =
      .next (acceptBlock { s with pkts := [] } id (pktTag p 0).2.1 (pktTag p 0).2.2.1 d (portOf c (pktTag p 0).2.1) (xorBytes p.payload z.data))) ∧
  (∀ (k port id d : Nat) (s : State) (p : Pkt) (c : Coll), Arrives s k 2 p port id c → pktDest p 0 = port →
    destAt c (pktTag p 0).2.1 (pktTag p 0).2.2.1 port = some d → bits (mget s.pdtest port 0#64).toNat 32 32 = 0 →
    (∃ j, 1 ≤ j ∧ j < pktField p 5 4 + 1 ∧
      ∀ x ∈ s.pins, ¬(x.port = port ∧ x.coll = id ∧ x.rank = (pktTag p j).2.1 ∧ x.block = (pktTag p j).2.2.1)) →
    ∃ t y, exec (.coded k port) s = .next t ∧ t.mem = s.mem ∧ getColl t id = some y ∧ y.misses = c.misses + 1 ∧ y.blocks = c.blocks ∧
      y.down = (c.down || decide (c.missLim < c.misses + 1)) ∧
      (isLocal (portOf c (pktTag p 0).2.1) = true → ∃ x ∈ t.pkts, pktField x.2 3 0 = 4 ∧ x.2.dst = [portOf c (pktTag p 0).2.1])) ∧
  (∀ (k port id : Nat) (s : State) (p : Pkt) (c : Coll) (b z : Block), Arrives s k 3 p port id c → c.blocks = [b, z] → z.acked = false →
    b.acked = false → (pktTag p 0).2.1 = b.rank → (pktTag p 0).2.2.1 = b.block → comesFrom c b.dest (pktField p 12 8) = true →
    c.mode ≠ .inSwitch → (z.rank, z.block, z.dest) ≠ (b.rank, b.block, b.dest) →
    ∃ t, exec (.ack k) s = .next t ∧ t.pkts = [] ∧ getColl t id = some { c with blocks := [{ b with acked := true }, z] }) ∧
  (∀ (k port id : Nat) (s : State) (p : Pkt) (c : Coll) (b : Block), Arrives s k 4 p port id c → c.blocks = [b] →
    (pktTag p 0).2.1 = b.rank → (pktTag p 0).2.2.1 = b.block → comesFrom c b.dest (pktField p 12 8) = true →
    ∃ t, exec (.nack k) s = .next t ∧
      getColl t id = some { c with resends := c.resends + 1, upkt := c.upkt + (if isLocal (portOf c b.dest) then 1 else 0) } ∧
      (c.mode ≠ .inSwitch → b.data ≠ [] → isLocal (portOf c b.dest) = true →
        ∃ x, t.pkts = [x] ∧ pktField x.2 3 0 = 1 ∧ x.2.payload = b.data ∧ x.2.dst = [portOf c b.dest]))

/-- R388 and R389: a step timeout sends what is not acknowledged again and counts a try; once the tries reach RETRY the collective fails: it
is gone, its launch keeps reason 2, and it has arrived with FAILED and TRUNCATED. -/
def Sys2Proof.Claim.StepTimeouts : Prop :=
  ∀ (k : Nat) (s : State) (c : Coll), getColl s k = some c →
    (c.running = false → exec (.stepTimeout k) s = .next s) ∧
    (c.running = true → c.tries < bindField c.entry 27 24 → (∃ b ∈ c.blocks, isSent c b = true ∧ b.acked = false) →
      ∃ t y, exec (.stepTimeout k) s = .next t ∧ getColl t k = some y ∧ y.tries = c.tries + 1 ∧ y.formed = true ∧
        y.blocks.map blockId = c.blocks.map blockId) ∧
    (∀ l, c.running = true → bindField c.entry 27 24 ≤ c.tries → getLaunch s c.launch = some l → l.collFail = none →
      ∃ (t u : State) (l' : Launch), exec (.stepTimeout k) s = .next t ∧ getColl t k = none ∧ (∀ p ∈ t.pins, p.coll ≠ k) ∧
        getLaunch t c.launch = some l' ∧ l'.collFail = some (c.binding, 2) ∧
        t = (engineArrive u c.asid 0 (bindRef c.entry) 1 33 4 (collDie c) (identOf u c.launch)).1)

/-- R397 to R399: PDTEST of a die port; a peer group under a handle other than 0 with 1 to 256 ranks, which replaces one under the same handle
(the model's choice, log 97), and no registration while only the mailbox answers (R411; log 91); a new Amsan key starts its counter at
0 and lets traffic that waited go; a frame that fails authentication is dropped, counted and logged, and the packet of one that passes
goes on, but for one whose header breaks Table 19.6, as one with a reserved SRCP (R382), which is dropped and logged; a frame opens to the
packet that was sealed in it, under its key, salt and counter, in the byte order of the model's choice (log 115). -/
def Sys2Proof.Claim.PortsAndLinks : Prop :=
  (∀ (port : Nat) (v : BitVec 64) (s : State),
    (4 ≤ port → exec (.pdtestWrite port v) s = .next s) ∧
    (port < 4 → ∃ t, exec (.pdtestWrite port v) s = .next t ∧ t = { s with pdtest := t.pdtest } ∧
      mget t.pdtest port 0#64 = v &&& 0x1FFFFFFFF#64 ∧ ∀ q, q ≠ port → mget t.pdtest q 0#64 = mget s.pdtest q 0#64)) ∧
  (∀ (h : BitVec 16) (rs : List (BitVec 8)) (ps : BitVec 8) (mc : BitVec 32) (tree end_ : Bool) (s : State),
    (s.powered = false ∨ s.mgmt.mailboxOnly = true → exec (.peerGroupRegistration h rs ps mc tree end_) s = .next s) ∧
    (h = 0#16 ∨ rs = [] ∨ 256 < rs.length → exec (.peerGroupRegistration h rs ps mc tree end_) s = .next s) ∧
    (s.powered = true → s.mgmt.mailboxOnly = false → h ≠ 0#16 → rs ≠ [] → rs.length ≤ 256 →
      ∃ t, exec (.peerGroupRegistration h rs ps mc tree end_) s = .next t ∧ t = { s with groups := t.groups } ∧
        mfind t.groups h.toNat = some { ranks := rs, ports := ps, mcast := mc, inSwitch := tree, endToEnd := end_ })) ∧
  (∀ (port : Nat) (out : Bool) (key : BitVec 256) (salt : BitVec 32) (s : State),
    (8 ≤ port → exec (.amsanKeyInstall port out key salt) s = .next s) ∧
    (port < 8 → (out = true → ∀ h ∈ s.held, h.1 ≠ port) → ∃ t, exec (.amsanKeyInstall port out key salt) s = .next t ∧
      getAmsan t port out = { getAmsan s port out with keyed := true, key := key, salt := salt, counter := 0#64, stopped := false } ∧
      t.held = s.held ∧ t.frames = s.frames) ∧
    (∀ g bs, port < 8 → s.held = [(port, g, bs)] → ∃ t, exec (.amsanKeyInstall port true key salt) s = .next t ∧ t.held = [] ∧
      t.frames = s.frames ++ [(port, g, amsanSeal key salt 0#64 bs)] ∧ (getAmsan t port true).counter = 1#64)) ∧
  (∀ (port : Nat) (f : List (BitVec 8)) (s : State),
    let a := getAmsan s port false
    (8 ≤ port → exec (.amsanFrame port f) s = .next s) ∧
    (port < 8 → a.keyed = true → a.stopped = false → amsanOpen a.key a.salt a.counter f = none →
      ∃ t, exec (.amsanFrame port f) s = .next t ∧ (getAmsan t port false).failed = a.failed + 1 ∧
        (getAmsan t port false).counter = a.counter + 1#64 ∧ t.pkts = s.pkts) ∧
    (∀ bs, port < 8 → a.keyed = true → a.stopped = false → amsanOpen a.key a.salt a.counter f = some bs → 64 ≤ bs.length →
      ∃ t, exec (.amsanFrame port f) s = .next t ∧ (getAmsan t port false).counter = a.counter + 1#64 ∧
        (getAmsan t port false).failed = a.failed ∧
        let p := pktOfBytes bs
        let dst := ((List.range (pktField p 5 4 + 1)).map (pktDest p)).filter isLocal
        (24 ≤ pktField p 12 8 → pktOk p = false) ∧ (pktOk p = false → t = dropFrame (stepCounter s port false) port) ∧
        (pktOk p = true → dst ≠ [] → ∃ x ∈ t.pkts, x.2.payload = bs.drop 64 ∧ x.2.dst = dst ∧ pktTag x.2 0 = pktTag p 0))) ∧
  (∀ (key : BitVec 256) (salt : BitVec 32) (counter : BitVec 64) (packet : List Byte),
    amsanOpen key salt counter (amsanSeal key salt counter packet) = some packet)

/-- COLLFIRE and the fire record of a collective. -/
def Obligations.CollectiveFires : Prop := CollfireForms ∧ FireRecord

/-- Steps, packets, timeouts and links of a collective. -/
def Obligations.CollectiveSteps : Prop := StepsAndPackets ∧ BlockPlaces ∧ BlocksAccepted ∧ PacketArrivals ∧ StepTimeouts ∧ PortsAndLinks


/-! ## Traps, page faults and lines (chapters 2 and 17) -/

namespace Sys2Proof.Claim

/-- No thread's PC, ON bit, window, park state, skip count, region entry or rejoin register differs (R341, R343). -/
structure KeepsThreads (sh sh' : Sheaf) : Prop where
  pcs : sh'.pcs = sh.pcs
  state : sh'.on = sh.on ∧ sh'.park = sh.park ∧ sh'.wb = sh.wb ∧ sh'.skip = sh.skip
  regions : sh'.regionPc = sh.regionPc ∧ sh'.regionCnt = sh.regionCnt
  joins : sh'.je = sh.je ∧ sh'.ja = sh.ja ∧ sh'.spc = sh.spc

/-- A sheaf and its new content differ in trap state only: the mode, the record and its queue, the handler's place and the debugger's
stops, and in PCs. -/
def TrapState (sh sh' : Sheaf) : Prop :=
  sh' = { sh with
    pcs := sh'.pcs, handler := sh'.handler, record := sh'.record, pend := sh'.pend, hpc := sh'.hpc, himg := sh'.himg,
    stopM := sh'.stopM, stepping := sh'.stepping }

/-- Where HRET sends a thread (R346). -/
def returnPc (sh : Sheaf) (i : Nat) : DWord :=
  if sh.record.keep = false ∧ bit sh.record.tmask i = true then
    (if sh.record.restart then lget sh.regionPc i 0#64 else sh.record.trpc &&& ~~~(3#64))
  else lget sh.pcs i 0#64

/-- A trap of a cause is taken by a sheaf at a PC, with the threads it stopped, from a state. -/
def Takes (i : Instr) (s u : State) (b w cause : Nat) (pc : DWord) (tmask : Mask) (keep handler : Bool) : Prop :=
  ∃ r, exec i s = .next (takeTrap u b w r) ∧ r.cause = 1#32 <<< cause ∧ r.tpc = pc ∧ r.trpc = pc ∧ r.tmask = tmask ∧ r.keep = keep ∧
    r.handler = handler ∧ r.prec = true ∧ r.restart = false

/-- A fault is posted to a function under the next token (R353, R405): in its ring, or in the backlog while the ring is full. -/
def Posts (s t : State) (fn : Nat) (k : Ticket) : Prop :=
  mfind t.hostIf.tickets s.hostIf.nextToken.toNat = some k ∧ t.hostIf.nextToken = s.hostIf.nextToken + 1#32 ∧
    (((getFn s fn).fqtail - (getFn s fn).fqhead).toNat < 2 ^ (getFn s fn).fqlog →
      (getFn t fn).fqtail = (getFn s fn).fqtail + 1#32 ∧ t.hostIf.backlog = s.hostIf.backlog) ∧
    (2 ^ (getFn s fn).fqlog ≤ ((getFn s fn).fqtail - (getFn s fn).fqhead).toNat →
      (getFn t fn).fqtail = (getFn s fn).fqtail ∧ ∃ e, t.hostIf.backlog = s.hostIf.backlog ++ [(fn, e)])

end Sys2Proof.Claim

/-- R281, R341, R347 and R364: taking a trap.  In handler mode the record joins the queue of eight, or is dropped and noted; otherwise
formed results and those of unit operations that run again are written, no thread changes, the record is the current one, the handler stands at offset 0 of the active image, the
units of a claiming bed freeze, and with STOPBED set a trap of cause 15 or 16 stops the bed's other sheaves. -/
def Sys2Proof.Claim.TrapEntry : Prop :=
  ∀ (b w : Nat) (r : TrapRec) (s : State) (sh : Sheaf), getSheaf s b w = some sh →
    let t := takeTrap s b w r
    (sh.handler = true → sh.pend.length < 8 → getSheaf t b w = some { sh with pend := sh.pend ++ [r] }) ∧
    (sh.handler = true → 8 ≤ sh.pend.length →
      getSheaf t b w = some { sh with record := { sh.record with lost := true }, tdrop := sh.tdrop ||| r.cause }) ∧
    (sh.handler = false → ∃ sh', getSheaf t b w = some sh' ∧ sh'.handler = true ∧ sh'.hpc = 0#64 ∧ sh'.himg = activeImage s 5 ∧
      KeepsThreads sh sh' ∧ (∀ o ∈ sh'.long, o.ready = false) ∧
      ((∀ o ∈ sh.long, o.trap = none) → sh'.record = { r with lost := false } ∧ sh'.pend = sh.pend) ∧
      (holdsClaim s b sh.place.core = true → (getCore t sh.place.core).frozen = true) ∧
      (sh.stopBed = true → r.cause = 1#32 <<< 15 ∨ r.cause = 1#32 <<< 16 → ∀ n x, n ≠ w → getSheaf s b n = some x →
        ∃ y, getSheaf t b n = some y ∧ y.bedStop = true))

/-- R346 and R365: HRET in handler mode asks for the kill of the launch, stops for the debugger, goes on with the oldest pending record, or
leaves handler mode; the threads of TMASK go to TRPC or to their region entries, unless KEEP is set, and nothing else of a thread
changes.  A pending record of TRAP or of a breakpoint stops the bed's other sheaves as it is delivered, where STOPBED is set (R205).  That
bits [1:0] of TRPC are masked off is the model's choice (log 37). -/
def Sys2Proof.Claim.TrapReturn : Prop :=
  ∀ (s : State) (c : Cur) (sh : Sheaf), Issues s c sh → sh.handler = true →
    let kill := sh.record.hact = 1#2 ∨ sh.record.cause = 1#32 <<< 6 ∨ sh.record.cause = 1#32 <<< 20
    (kill → ∃ t k, exec .hret s = .next t ∧ Event.launchKill (launchKey s c.bed) k ∈ t.agenda ∧ getSheaf t c.bed c.sheaf = some sh) ∧
    (¬kill → ∃ t sh', exec .hret s = .next t ∧ getSheaf t c.bed c.sheaf = some sh' ∧ TrapState sh sh' ∧ StoresNothing s t ∧
      (∀ i, i < 32 → lget sh'.pcs i 0#64 = returnPc sh i) ∧
      (sh.record.hact = 2#2 → sh'.handler = false ∧ sh'.stopM = Mask.full ∧ sh'.pend = sh.pend) ∧
      (∀ r rest, sh.record.hact ≠ 2#2 → sh.pend = r :: rest →
        sh'.handler = true ∧ sh'.record = r ∧ sh'.pend = rest ∧ sh'.hpc = 0#64 ∧ sh'.himg = activeImage s 5 ∧ sh'.stopM = sh.stopM ∧
        (sh.stopBed = true → r.cause = 1#32 <<< 15 ∨ r.cause = 1#32 <<< 16 → ∀ n x, n ≠ c.sheaf → getSheaf s c.bed n = some x →
          ∃ y, getSheaf t c.bed n = some y ∧ y.bedStop = true)) ∧
      (sh.record.hact ≠ 2#2 → sh.pend = [] → sh'.handler = false ∧
        (sh.sstep = false → sh'.stopM = sh.stopM ∧ sh'.stepping = sh.stepping) ∧
        (sh.sstep = true → sh'.stopM = ~~~sh.record.tmask)))

/-- R38, R180, R307 and R341: results that were formed are written once, or the trap found with them is taken; a trap that no issuing
instruction raises is taken at its PC, and a shadow mismatch only where a protected launch stands at a gated instruction (R420); the
watchdog's trap keeps every PC.  Which threads it names, those at the lowest runnable one's PC, is the model's choice (log 51). -/
def Sys2Proof.Claim.LateTraps : Prop :=
  (∀ (b w op : Nat) (s : State),
    ((∀ sh, getSheaf s b w = some sh → ∀ o ∈ sh.long, o.id ≠ op) → exec (.instructionCompletion b w op) s = .next s) ∧
    (∀ sh o, getSheaf s b w = some sh → sh.long = [o] → o.id = op →
      (o.ready = false → exec (.instructionCompletion b w op) s = .next s) ∧
      (isResident s b = true → o.ready = true → o.trap = none →
        ∃ t sh', exec (.instructionCompletion b w op) s = .next t ∧ getSheaf t b w = some sh' ∧ sh'.long = [] ∧ KeepsThreads sh sh' ∧
          ∀ n v q, o.writes = [.group n v q] → n < 96 → GroupHolds sh' n v q) ∧
      (∀ x, isResident s b = true → o.ready = true → o.trap = some x → sheafEnded sh = false →
        ∃ u r, exec (.instructionCompletion b w op) s = .next (takeTrap u b w r) ∧ getSheaf u b w = some { sh with long := [] } ∧
          r.cause = 1#32 <<< x.cause ∧ r.tpc = o.pc ∧ r.trpc = o.pc ∧ r.prec = (!o.younger) ∧ r.restart = o.younger ∧ r.tlanes = x.lanes ∧
          r.tdetail = x.detail ∧ r.taddr = x.addr))) ∧
  (∀ (b w : Nat) (cause : BitVec 5) (pc : BitVec 64) (m d : BitVec 32) (s : State),
    (getSheaf s b w = none → exec (.takeTrap b w cause pc m d) s = .next s ∧ exec (.watchdogTrap b w) s = .next s) ∧
    (∀ sh, getSheaf s b w = some sh →
      (cause ≠ 20#5 ∨ shadowAt s b sh pc m = true →
        Takes (.takeTrap b w cause pc m d) s s b w cause.toNat pc m (decide (cause = 17#5 ∨ cause = 18#5)) false) ∧
      (cause = 20#5 → (shadowAt s b sh pc m = false ∨ sh.handler = true ∨ ∀ l, launchOf s b = some l → l.record.getLsbD 111 = false) →
        exec (.takeTrap b w cause pc m d) s = .next s) ∧
      (sh.wdDue = false → sh.wdcnt < watchdogLimit s b → exec (.watchdogTrap b w) s = .next s) ∧
      (sh.wdDue = true ∨ watchdogLimit s b ≤ sh.wdcnt →
        ∃ u, getSheaf u b w = some { sh with wdDue := false, wdcnt := 0 } ∧
          (sh.handler = true → Takes (.watchdogTrap b w) s u b w 18 sh.hpc 0#32 true true) ∧
          (sh.handler = false → ∃ pc m, Takes (.watchdogTrap b w) s u b w 18 pc m true false ∧
            (runMask sh ≠ 0#32 → m ≠ 0#32) ∧ ∀ i, i < 32 → (bit m i = true ↔ bit (runMask sh) i = true ∧ lget sh.pcs i 0#64 = pc)))))

/-- R351, R353 and R405: a logged access and a fetch of a page that is not valid are posted once, each under a token of its own; the threads
that wait for the second word of an EXT pair stand four bytes before it.  The tokens' numbers are the model's choice (log 108). -/
def Sys2Proof.Claim.FaultPosts : Prop :=
  ∀ (b w k : Nat) (va : BitVec 64) (s : State),
    (getLog s b w k = none → exec (.pageFault b w k) s = .next s) ∧
    (∀ e, getLog s b w k = some e →
      (e.token ≠ 0#32 → exec (.pageFault b w k) s = .next s) ∧
      (e.token = 0#32 → ∃ t, exec (.pageFault b w k) s = .next t ∧ Posts s t (bedIdent s b).2 (.log b w k) ∧
        getLog t b w k = some { e with token := s.hostIf.nextToken })) ∧
    (∀ sh, getSheaf s b w = some sh →
      ((∀ i, i < 32 → bit (runMask sh) i = true → lget sh.pcs i 0#64 ≠ va ∧ lget sh.pcs i 0#64 ≠ va - 4#64) →
        exec (.fetchPageFault b w va) s = .next s) ∧
      ((∃ i, i < 32 ∧ bit (runMask sh) i = true ∧ lget sh.pcs i 0#64 = va) → (∀ x ∈ s.hostIf.tickets, x.2 ≠ .fetch b w va) →
        ∃ t, exec (.fetchPageFault b w va) s = .next t ∧ Posts s t (bedIdent s b).2 (.fetch b w va) ∧ getSheaf t b w = some sh) ∧
      ((∃ i, i < 32 ∧ bit (runMask sh) i = true ∧ lget sh.pcs i 0#64 = va - 4#64) →
        (∀ i, i < 32 → bit (runMask sh) i = true → lget sh.pcs i 0#64 ≠ va) →
        ∃ t, exec (.fetchPageFault b w va) s = .next t ∧ Posts s t (bedIdent s b).2 (.fetch b w (va - 4#64)) ∧ getSheaf t b w = some sh))

/-- R354: what RETRY does to a logged access that is no whole instruction to issue again, in a state without its token: its lanes run as
an access of its sheaf.  Where none faults or violates the entry is freed, and a pending instruction has their results; lanes that fault
again are posted again; lanes that violate are left to the late trap (the model's choice, log 25). -/
def Sys2Proof.Claim.Retried (u : State) (b w j : Nat) (e : LogEnt) (sh : Sheaf) (t : State) : Prop :=
  let g := logAccess u b w sh.place.core (asidOf u b) e (accLanes e.acc e.mask)
  let rest := match e.acc.sc with
    | .lane => g.violated ||| g.faulted
    | .group => e.mask
  ((g.violated ||| g.faulted) = 0#32 → getLog t b w j = none ∧ t.mem = g.st.mem ∧ t.home = g.st.home ∧
    (e.op = none → ∀ x, getSheaf g.st b w = some x → getSheaf t b w = some { x with oplog := mdel x.oplog j }) ∧
    (∀ id o x, e.op = some id → getSheaf g.st b w = some x → x.long = [o] → o.id = id →
      ∃ y, getSheaf t b w = some y ∧ y.long = [{ o with writes := fillWrites g.results e.mask 0 o.writes, ready := true }])) ∧
  (e.mask ≠ 0#32 → g.violated = 0#32 → g.faulted ≠ 0#32 → getSheaf g.st b w ≠ none →
    getLog t b w j = some { e with mask := rest, token := 0#32, kind := g.kind, resumed := none } ∧ Event.pageFault b w j ∈ t.agenda) ∧
  (e.mask ≠ 0#32 → g.violated ≠ 0#32 → getSheaf g.st b w ≠ none →
    getLog t b w j = some { e with mask := rest, resumed := some 0#2 } ∧ Event.protectionViolation b w j ∈ t.agenda)

/-- R354, R359 and R405: RESUME spends its token.  An unknown token is discarded and another function's refused, both logged; a write that
waits for the pool is then tried again (the ticket of such a write is the model's, logs 80 and 114); for a logged access FAIL raises
the access violation and RETRY tries it again, at once or when a pre-empted bed resumes; for a fetch FAIL traps at the PC, at once or when a
pre-empted bed resumes; a copy goes on or fails.  A device that offers only its mailbox refuses RESUME (R411). -/
def Sys2Proof.Claim.Resumes : Prop :=
  ∀ (fn : Nat) (tok : BitVec 32) (fail : Bool) (s : State),
    let i : Instr := if fail then .resumeFail fn tok else .resumeRetry fn tok
    (hostOpen s = false → exec i s = .next (if s.powered then refused s 0 fn 0 else s)) ∧
    (hostOpen s = true →
    (mfind s.hostIf.tickets tok.toNat = none → ∃ d, exec i s = .next (logEvent s 12 0 none d fn)) ∧
    (∀ k, mfind s.hostIf.tickets tok.toNat = some k →
      let u := { s with hostIf := { s.hostIf with tickets := mdel s.hostIf.tickets tok.toNat } }
      (ticketFn s k ≠ fn → ∃ d, let v := logEvent s 12 0 none d fn
        exec i s = .next { v with hostIf := { v.hostIf with out := v.hostIf.out ++ [(true, [])] } }) ∧
      (∀ a page, k = .snap a page → ticketFn s k = fn → exec i s = .next u) ∧
      (∀ b w pc, k = .fetch b w pc → ticketFn s k = fn →
        (fail = false → exec i s = .next u) ∧
        (fail = true → isResident s b = false → ∃ t, exec i s = .next t ∧ t = { s with hostIf := t.hostIf } ∧
          mfind t.hostIf.tickets tok.toNat = some (.fetchFail b w pc)) ∧
        (∀ sh, fail = true → isResident s b = true → getSheaf s b w = some sh → ∃ m, Takes i s u b w 4 pc m false false ∧
          ∀ j, j < 32 → (bit m j = true ↔ bit (runMask sh) j = true ∧ lget sh.pcs j 0#64 = pc))) ∧
      (∀ id c, k = .copy id → mfind s.copies id = some c → ticketFn s k = fn →
        ∃ t, exec i s = .next t ∧ mfind t.copies id = some { c with stalled := none, failed := fail } ∧
          t.agenda = s.agenda ++ [if fail then .copyTransferFailure id false else .copyCompletion id]) ∧
      (∀ b w j e, k = .log b w j → getLog s b w j = some e → ticketFn s k = fn →
        (isResident s b = false →
          ∃ t, exec i s = .next t ∧ getLog t b w j = some { e with resumed := some (if fail then 1#2 else 0#2) }) ∧
        (isResident s b = true → ∀ x, e.acc.op = .reissue x → fail = false → ∃ t, exec i s = .next t ∧ getLog t b w j = none) ∧
        (isResident s b = true → (∀ x, e.acc.op ≠ .reissue x) → fail = false → ∀ sh, getSheaf s b w = some sh →
          lockLane u sh.place.core (e.acc.op != .load false && e.acc.op != .load true) 0 (asidOf u b) e.acc.size
            (fun n => (lget e.acc.addrs n 0#64).toNat) (lanesOf (accLanes e.acc e.mask)) = none →
          (logAccess u b w sh.place.core (asidOf u b) e (accLanes e.acc e.mask)).hole = false →
          ∃ t, exec i s = .next t ∧ Retried u b w j e sh t) ∧
        (isResident s b = true → e.op = none → fail = true → ∀ sh, getSheaf s b w = some sh → sheafEnded sh = false →
          ∃ v r, exec i s = .next (takeTrap v b w r) ∧ getLog v b w j = none ∧ r.cause = 1#32 <<< 4 ∧ r.tpc = e.pc ∧
            r.tlanes = e.mask ∧ r.prec = (!e.younger)) ∧
        (∀ id o sh, isResident s b = true → e.op = some id → fail = true → getSheaf s b w = some sh → sh.long = [o] → o.id = id →
          ∃ t sh', exec i s = .next t ∧ getLog t b w j = none ∧ getSheaf t b w = some sh' ∧
            sh'.long = [{ o with trap := some (accessTrap e.acc e.mask), ready := true, writes := [] }]))))

/-- R240: a logged access that was tried again and met a violation raises its trap with the lanes it still had; another entry waits.  That
the lanes that violate at the retry trap late is the model's choice (log 25). -/
def Sys2Proof.Claim.LateViolations : Prop :=
  ∀ (b w k : Nat) (s : State),
    (getLog s b w k = none → exec (.protectionViolation b w k) s = .next s) ∧
    (∀ e, getLog s b w k = some e →
      (e.resumed ≠ some 0#2 ∨ isResident s b = false → exec (.protectionViolation b w k) s = .next s) ∧
      (e.resumed = some 0#2 → isResident s b = true → e.op = none → ∀ sh, getSheaf s b w = some sh → sheafEnded sh = false →
        ∃ v r, exec (.protectionViolation b w k) s = .next (takeTrap v b w r) ∧ getLog v b w k = none ∧ r.cause = 1#32 <<< 4 ∧
          r.tpc = e.pc ∧ r.tlanes = e.mask ∧ r.prec = (!e.younger)) ∧
      (∀ id o, e.resumed = some 0#2 → isResident s b = true → e.op = some id → ∀ sh, getSheaf s b w = some sh → sh.long = [o] → o.id = id →
        ∃ t sh', exec (.protectionViolation b w k) s = .next t ∧ getSheaf t b w = some sh' ∧
          sh'.long = [{ o with trap := some (accessTrap e.acc e.mask), ready := true, writes := [] }]))

/-- R359: a page whose SNAP bit stands is saved once to a free page of the pool for the launch whose region holds it, and its bit is
cleared, at once where no launch needs it; without a free page nothing happens.  That a page which several launches keep is saved for each of
them is the model's choice (log 80). -/
def Sys2Proof.Claim.SnapshotCopies : Prop :=
  ∀ (asid : BitVec 16) (va : BitVec 64) (s : State),
    (∀ e level at_ up, walk s asid va = .leaf e level (at_ :: up) →
      let owners := snapOwners s asid va (leafBytes level (pteBit e 7 && level == 3))
      let page := ((if pteBit e 8 then Config.hostBase else 0) + ptePa e) / 4096
      (pteBit e 9 = false → exec (.snapshotCopy asid va) s = .next s) ∧
      (pteBit e 9 = true → owners = [] →
        exec (.snapshotCopy asid va) s = .next (setHomeDWord s at_ (homeDWord s at_ &&& ~~~(0x200#64)))) ∧
      (∀ k l, pteBit e 9 = true → leafBytes level (pteBit e 7 && level == 3) = 4096 → owners = [k] → getLaunch s k = some l →
        (∀ x ∈ l.snaps, x.1 ≠ page) →
        (freePoolPage s = none → exec (.snapshotCopy asid va) s = .next s) ∧
        (∀ p, freePoolPage s = some p →
          ∃ t l', exec (.snapshotCopy asid va) s = .next t ∧ getLaunch t k = some l' ∧ l'.snaps = l.snaps ++ [(page, p)] ∧
            t.poolUsed = p :: s.poolUsed))) ∧
    ((∀ e level up, walk s asid va ≠ .leaf e level up) → exec (.snapshotCopy asid va) s = .next s)

/-- The line of a register is the one with a key, and present or drowsy. -/
def Sys2Proof.Claim.InLine (key p : Nat) (x : VReg) : Prop := x.line ≠ .absent ∧ lineKey p x = key

/-- R50 and R51: a fill brings an absent register from the bed image, with every other absent register of its line, and leaves the others. -/
def Sys2Proof.Claim.FilledLine : Prop :=
  ∀ (b w p : Nat) (s : State) (bd : Bed) (sh : Sheaf) (img : Nat) (r : VReg), getBed s b = some bd → getSheaf s b w = some sh →
    bd.image = some img → (vreg sh p).line = .absent → p < sh.place.budget → loadReg s (laneBlock s b w img) sh.place.budget p = some r →
    ∃ y, getSheaf (fillLine s b w p) b w = some y ∧ y = { sh with v := y.v } ∧ (vreg y p).form = r.form ∧ (vreg y p).poison = r.poison ∧
      (vreg y p).line = .present ∧ (∀ q, q ∉ absentMates sh p → mfind y.v q = mfind sh.v q) ∧
      ∀ q z, (vreg sh p).row ≠ 0 → mfind sh.v q = some z → z.row = (vreg sh p).row → z.line = .absent → (vreg y q).line = .present

/-- R50 and R51: a present line goes drowsy and a drowsy one wakes, with every register of the line as it was; an absent register of a
resident bed is filled with its line, at once where the bed's reservation and the register cache have room for the line, and otherwise after
other lines have left (R311); which lines a fill spares is the model's choice (log 75). -/
def Sys2Proof.Claim.RegisterLines : Prop :=
  ∀ (b w p : Nat) (s : State),
    (getSheaf s b w = none → ∀ i ∈ [Instr.registerLineFill b w p, .lineDrowsy b w p, .lineWake b w p], exec i s = .next s) ∧
    (∀ sh, getSheaf s b w = some sh →
      let x := vreg sh p
      let becomes := fun (i : Instr) (st : LineState) => ∃ t sh', exec i s = .next t ∧ getSheaf t b w = some sh' ∧
        sh' = { sh with v := sh'.v } ∧ (∀ r, mfind sh.v r = none → mfind sh'.v r = none) ∧
        ∀ r y, mfind sh.v r = some y → (InLine (lineKey p x) r y → mfind sh'.v r = some { y with line := st }) ∧
          (¬InLine (lineKey p x) r y → mfind sh'.v r = some y)
      (x.line ≠ .present ∨ mfind sh.v p = none → exec (.lineDrowsy b w p) s = .next s) ∧
      (x.line ≠ .drowsy → exec (.lineWake b w p) s = .next s) ∧
      (x.line ≠ .absent ∨ 512 ≤ p → exec (.registerLineFill b w p) s = .next s) ∧
      (x.line = .present → p < 512 → mfind sh.v p ≠ none → becomes (.lineDrowsy b w p) .drowsy) ∧
      (x.line = .drowsy → becomes (.lineWake b w p) .present) ∧
      (∀ bd, x.line = .absent → p < 512 → getBed s b = some bd → bd.stage = .resident →
        let n := (lineKeys (bringLine s b w p sh)).length - (lineKeys sh).length
        exec (.registerLineFill b w p) s =
            .next (fillLine (keepCapacity (keepReserved s b n (fun x => !busyLine s x)) sh.place.core n) b w p) ∧
          ((bedLines b bd).length + n ≤ reserved s bd → (coreLines s sh.place.core).length + n ≤ 16384 →
            exec (.registerLineFill b w p) s = .next (fillLine s b w p))))

/-- R364 and R366: a debugger's flush writes a register to the bed image, drops a lane register's line from the cache, and is answered;
what the debugger then writes for a stopped sheaf's group register is taken before the sheaf issues, and a group register it did not
write keeps its value.  Releasing a stopped sheaf ends its stop, its oldest pending record first.  How a request names a register, group
register n as 512 + n, rejoin register n as 640 + n and the slot state from 656 on, is the model's choice (log 76), and so is what is taken
back from the image (log 75). -/
def Sys2Proof.Claim.Debugging : Prop :=
  (∀ (b w p : Nat) (s : State) (bd : Bed) (sh : Sheaf) (img : Nat), getBed s b = some bd → getSheaf s b w = some sh → bd.image = some img →
    (bd.stage ≠ .resident → exec (.debugFlush b w p) s = .next s) ∧
    (bd.stage = .resident → ∃ t sh', exec (.debugFlush b w p) s = .next t ∧ t.hostIf.out = s.hostIf.out ++ [(false, [])] ∧
      getSheaf t b w = some sh' ∧ KeepsThreads sh sh' ∧
      (p < 512 → p < sh.place.budget → (vreg sh' p).line = .absent) ∧
      (512 ≤ p → p < 640 → imgRead t (groupAt s b img w + 4 * (p - 512)) = mget sh.g (p - 512) 0#32) ∧
      (512 ≤ p → p < 640 → heldInStop sh = true → mfind sh'.flushed (2 * (p - 512)) = some (mget sh.g (p - 512) 0#32)) ∧
      (640 ≤ p → p < 656 → imgRead t (groupAt s b img w + 0x210 + 8 * (p - 640)) = jE sh (p - 640) ∧
        imgRead t (groupAt s b img w + 0x214 + 8 * (p - 640)) = jA sh (p - 640)) ∧
      (640 ≤ p → p < 656 → heldInStop sh = true → mfind sh'.flushed (2 * (p - 512)) = some (jE sh (p - 640)) ∧
        mfind sh'.flushed (2 * (p - 512) + 1) = some (jA sh (p - 640))) ∧
      (656 ≤ p → heldInStop sh = true → mfind sh'.flushed 4096 ≠ none) ∧
      (512 ≤ p → heldInStop sh = false → sh'.flushed = sh.flushed))) ∧
  (∀ (b w n : Nat) (s : State) (sh : Sheaf) (old q : Word), getSheaf s b w = some sh → sh.flushed = [(2 * n, old), (2 * n + 1, q)] →
    1 ≤ n → n < 128 → let now := imgRead s (groupAt s b (imageAt s b) w + 4 * n)
    ∃ sh', getSheaf (refillFlushed s b w) b w = some sh' ∧ sh'.flushed = [] ∧ sh' = { sh with g := sh'.g, gp := sh'.gp, flushed := [] } ∧
      (now = old → sh'.g = sh.g) ∧ (now ≠ old → mget sh'.g n 0#32 = now) ∧ ∀ k, k ≠ n → mget sh'.g k 0#32 = mget sh.g k 0#32) ∧
  (∀ (b w k : Nat) (s : State) (sh : Sheaf) (e a : Word), getSheaf s b w = some sh → k < 16 →
    sh.flushed = [(2 * (128 + k), e), (2 * (128 + k) + 1, a)] →
    let at_ := groupAt s b (imageAt s b) w + 0x210 + 8 * k
    ∃ sh', getSheaf (refillFlushed s b w) b w = some sh' ∧ sh' = { sh with je := sh'.je, ja := sh'.ja, flushed := [] } ∧
      jE sh' k = (if imgRead s at_ = e then jE sh k else imgRead s at_) ∧
      jA sh' k = (if imgRead s (at_ + 4) = a then jA sh k else imgRead s (at_ + 4)) ∧
      ∀ n, n ≠ k → jE sh' n = jE sh n ∧ jA sh' n = jA sh n) ∧
  (∀ (b w : Nat) (s : State), getBed s b = none → exec (.debugFlush b w 0) s = .next s ∧ exec (.debuggerRelease b none) s = .next s) ∧
  (∀ (b w : Nat) (s : State) (bd : Bed) (sh : Sheaf) (whole : Bool), getBed s b = some bd → getSheaf s b w = some sh →
    sh.stepping = none → (whole = false → sh.bedStop = false) →
    ∃ t sh', exec (.debuggerRelease b (if whole then none else some w)) s = .next t ∧ getSheaf t b w = some sh' ∧
      sh' = { sh with stopM := 0#32, bedStop := false } ∧
      (sh.flushed ≠ [] → readyOf t b w sh' = some .refill) ∧
      (sh.flushed = [] → sh.handler = false → sh.pend ≠ [] → runMask sh' ≠ 0#32 → readyOf t b w sh' = some .deliver)) ∧
  (∀ (b w : Nat) (s : State) (sh : Sheaf) (r : TrapRec) (rest : List TrapRec), getSheaf s b w = some sh → sh.handler = false →
    sh.pend = r :: rest → ∃ sh', getSheaf (deliverPending s b w) b w = some sh' ∧ sh'.handler = true ∧ sh'.record = r ∧ sh'.pend = rest ∧
      sh'.hpc = 0#64 ∧ KeepsThreads sh sh')

/-- Taking a trap, returning from it, and traps found late. -/
def Obligations.Traps : Prop := TrapEntry ∧ TrapReturn ∧ LateTraps

/-- Posting faults, RESUME, late violations and snapshot copies. -/
def Obligations.PageFaults : Prop := FaultPosts ∧ Resumes ∧ LateViolations ∧ SnapshotCopies

/-- Register lines and the debugger. -/
def Obligations.LinesAndDebugger : Prop := FilledLine ∧ RegisterLines ∧ Debugging


/-! ## Beds, launches and the host (chapters 1, 16, 17 and 20) -/

namespace Sys2Proof.Claim

/-- A host write by a function is discarded: it is logged with kind 12, and nothing else happens (R408). -/
def Discards (i : Instr) (s u : State) (fn : Nat) : Prop := ∃ d, exec i s = .next (logEvent u 12 0 none d fn)

/-- A host access to a BAR by a function that reads n bytes, or writes, is refused: it is logged with kind 12 and completes with
Unsupported Request, a read with all ones (R403, R404). -/
def Refuses (i : Instr) (s u : State) (fn n : Nat) : Prop :=
  ∃ d, let v := logEvent u 12 0 none d fn
    exec i s = .next { v with hostIf := { v.hostIf with out := v.hostIf.out ++ [(true, List.replicate n 0xFF#8)] } }

/-- A launch completes without running, with a status and a detail (Table 16.6). -/
def Rejected (t : State) (k st detail : Nat) : Prop :=
  ∃ l, getLaunch t k = some l ∧ l.early = some (st, detail) ∧ l.stage = .completing

/-- Only the host interface differs, and there only the registers of one function and what `f` changes. -/
def HostBecomes (i : Instr) (s : State) (f : HostIf → HostIf) : Prop := exec i s = .next { s with hostIf := f s.hostIf }

end Sys2Proof.Claim

/-- R60: a sheaf at its start: every thread at KPC with its ON bit set, no lane register written, the argument's address, the launch
parameters and the enables of the record; with PROT set threads 16 to 31 are in DONE (R420).  Its handler finds HPOL, MARKVA and the raise
count of R380 in handler registers, whose places are the model's choice (log 144). -/
def Sys2Proof.Claim.NewSheaves : Prop :=
  ∀ (l : Launch) (core slot pos index n : Nat),
    let sh := raiseTo n (newSheaf l core slot pos index)
    let f := recField l.record
    (∀ i, i < 32 → lget sh.pcs i 0#64 = BitVec.ofNat 64 (f 63 0) ∧ lget sh.regionPc i 0#64 = BitVec.ofNat 64 (f 63 0) ∧
      parkOf sh i = (if l.record.getLsbD 111 = true ∧ 16 ≤ i then .done else .run)) ∧
    sh.on = Mask.full ∧ sh.v = [] ∧ sh.handler = false ∧ sh.precfp = l.record.getLsbD 106 ∧ sh.nfin = l.record.getLsbD 107 ∧
    sh.nfout = l.record.getLsbD 108 ∧
    (f 207 192 = 0 → mget sh.g 1 0#32 = 0#32 ∧ mget sh.g 2 0#32 = 0#32) ∧
    (f 207 192 ≠ 0 → mget sh.g 1 0#32 = BitVec.ofNat 32 (f 191 128) ∧ mget sh.g 2 0#32 = BitVec.ofNat 32 (f 191 128 / 2 ^ 32)) ∧
    mget sh.g 3 0#32 = BitVec.ofNat 32 (f 287 256) ∧ mget sh.g 4 0#32 = BitVec.ofNat 32 (f 319 288) ∧
    mget sh.g 5 0#32 = BitVec.ofNat 32 (16 * f 335 320) ∧ (∀ k, 6 ≤ k → k < 128 → mget sh.g k 0#32 = 0#32) ∧
    mget sh.g 156 0#32 = BitVec.ofNat 32 (f 1703 1696) ∧ mget sh.g 157 0#32 = BitVec.ofNat 32 n ∧
    mget sh.g 158 0#32 = BitVec.ofNat 32 (f 1791 1728) ∧ mget sh.g 159 0#32 = BitVec.ofNat 32 (f 1791 1760)

/-- R36, R39 and R376: a wave starts the next sheaf in a freed slot; a bed that has ended and owes nothing exits, its fires pass the core's
gate one by one, and then its place is free and its launch counts it.  That the exit also waits for a handler and for pending results is the
model's choice (log 49).  A fire whose index does not fit 32 bits is discarded at the gate and logged with the index's low bits (R387;
log 140). -/
def Sys2Proof.Claim.WavesAndExits : Prop :=
  (∀ (b : Nat) (s : State), getBed s b = none → exec (.waveStart b) s = .next s ∧ exec (.bedExit b) s = .next s) ∧
  (∀ (b : Nat) (s : State) (bd : Bed), getBed s b = some bd →
    (bd.stage ≠ .resident ∨ bd.bexit = true ∨ (∀ w ∈ bd.sheaves, sheafEnded w.2 = false) → exec (.waveStart b) s = .next s) ∧
    (∀ l slot pos, bd.stage = .resident → bd.bexit = false → (∃ w ∈ bd.sheaves, sheafEnded w.2 = true) → launchOf s b = some l →
      bd.sheaves.length < bd.total → slotFor s bd.core = some (slot, pos) →
      ∃ t, exec (.waveStart b) s = .next t ∧
        getSheaf t b bd.sheaves.length = some (raiseTo (getCore s bd.core).raiseN (newSheaf l bd.core slot pos bd.sheaves.length))) ∧
    (bd.stage = .preempted → exec (.bedExit b) s = .next s) ∧
    (bd.stage = .resident → bedQuiet s b bd = false → exec (.bedExit b) s = .next s) ∧
    (bd.stage = .exited → firesUnderWay s b bd.core = true → exec (.bedExit b) s = .next s) ∧
    (∀ l, getLaunch s bd.launch = some l →
      (bd.stage = .resident ∧ bedQuiet s b bd = true ∧ l.binds = [] ∨ bd.stage = .exited ∧ firesUnderWay s b bd.core = false →
        ∃ t l', exec (.bedExit b) s = .next t ∧ getBed t b = none ∧ getLaunch t bd.launch = some l' ∧ l'.exited = l.exited + 1 ∧
          (bedCount l ≤ l.exited + 1 → l'.stage = .completing) ∧ (l.exited + 1 < bedCount l → l'.stage = l.stage)) ∧
      (bd.stage = .resident → bedQuiet s b bd = true → l.binds ≠ [] →
        ∃ t bd' ops, exec (.bedExit b) s = .next t ∧ getBed t b = some bd' ∧ bd'.stage = .exited ∧
          (getCore t bd.core).gate = (getCore s bd.core).gate ++ ops ∧ ops.length = l.binds.length))) ∧
  (∀ (core : Nat) (s : State),
    ((getCore s core).gate = [] → exec (.commitGatePass core) s = .next s) ∧
    (∀ k n x b r, (getCore s core).gate = .fire k n x b :: r → 2 ^ 32 ≤ x →
      exec (.commitGatePass core) s =
        .next (logEvent (modCore s core (fun c => { c with gate := r })) 13 0 none (BitVec.ofNat 32 x) (identOf s k))) ∧
    (∀ k n x b r, (getCore s core).gate = .fire k n x b :: r → x < 2 ^ 32 →
      ∃ t, exec (.commitGatePass core) s = .next t ∧ (getCore t core).gate = r ∧
        t.agenda = s.agenda ++ [.collectiveFire k n (BitVec.ofNat 32 x) b none]))

/-- R89, R349 and R334: a bed is pre-empted with all beds of its launch on the plot, into images of the context pool, or not at all where the
pool has no room (the model's choice, log 77); the beds that were pre-empted together resume together, on one plot, where they fit; that they
do, and where, is the model's choice (log 71). -/
def Sys2Proof.Claim.Preemptions : Prop :=
  ∀ (b : Nat) (s : State),
    (getBed s b = none → exec (.preemption b) s = .next s ∧ exec (.bedResume b) s = .next s) ∧
    (resumeSpot s b = none → exec (.bedResume b) s = .next s) ∧
    (∀ bd l, getBed s b = some bd → launchOf s b = some l →
      (bd.stage ≠ .resident ∨ ensureImages (groupOn s bd.launch (plotOf bd.core)) s = none → exec (.preemption b) s = .next s) ∧
      (bd.stage = .resident → ensureImages (groupOn s bd.launch (plotOf bd.core)) s ≠ none →
        ∃ t g, exec (.preemption b) s = .next t ∧ ∀ x ∈ groupOn s bd.launch (plotOf bd.core),
          ∃ y, getBed t x.1 = some y ∧ y.stage = .preempted ∧ y.image.isSome = true ∧ y.group = g) ∧
      (∀ l' bs p m u, resumeSpot s b = some (l', bs, p, m, u) → bs = savedOn s bd.group ∧ ((∀ x ∈ bs, ∀ w ∈ x.2.sheaves, w.2.oplog = []) →
        ∃ t, exec (.bedResume b) s = .next t ∧ ∀ x ∈ bs, ∃ y, getBed t x.1 = some y ∧ y.stage = .resident ∧ plotOf y.core = p ∧
          y.savedPlot = false)))

/-- R327 to R332 and R425: the arbiter takes the head of a ready queue of the level that it serves while a launch slot is free;
the entry becomes the next launch, or completes at once with BADENTRY or as a NOP; a launch leaves the dependence pool once its
dependences have held together, or with its takes made in one step, after earlier takers of the same words.  The moment at which
dependences are looked at, and that NOP and BADENTRY entries have no launch to complete, is the model's choice (log 85). -/
def Sys2Proof.Claim.Arbitration : Prop :=
  (∀ s : State, (pickLevel s = none → exec .arbiterPick s = .next s) ∧ (16 ≤ slotsHeld s → exec .arbiterPick s = .next s) ∧
    (∀ v, pickLevel s = some v → slotsHeld s < 16 →
      ∃ t k l, exec .arbiterPick s = .next t ∧ k ∈ readyQueues s v ∧ (getQueue t k).head = (getQueue s k).head + 1#32 ∧
        getLaunch t s.nextKey = some l ∧ l.queue = k ∧ l.ident = s.nextLaunch ∧ t.nextLaunch = s.nextLaunch + 1#64 ∧
        (entryOk (headEntry s (getQueue s k)) = false → l.early = some (0x10, 0)) ∧
        (entryOk (headEntry s (getQueue s k)) = true → bits (headEntry s (getQueue s k)).toNat 71 64 = 0 → l.early = some (0, 0)))) ∧
  (∀ (k : Nat) (s : State),
    (getLaunch s k = none → exec (.dependenceSatisfied k) s = .next s ∧ exec (.bedPlacement k) s = .next s ∧
      exec (.launchCompletion k) s = .next s ∧ exec (.launchKill k 0#5) s = .next s ∧ exec (.launchReplay k) s = .next s) ∧
    (∀ l, getLaunch s k = some l →
      let takes := ∃ d ∈ usedDeps l.record, depKind d = 3
      (l.stage ≠ .pool ∨ 16 ≤ slotsHeld s → exec (.dependenceSatisfied k) s = .next s) ∧
      (takes → (takeDeps s l = none ∨ earlierTaker s k l = true) → exec (.dependenceSatisfied k) s = .next s) ∧
      (¬takes → l.met = false → (∃ d ∈ usedDeps l.record, depHolds s l.asid d = false) → exec (.dependenceSatisfied k) s = .next s) ∧
      (l.stage = .pool → slotsHeld s < 16 →
        (takes ∧ (∃ u, takeDeps s l = some u) ∧ earlierTaker s k l = false ∨
         ¬takes ∧ (l.met = true ∨ ∀ d ∈ usedDeps l.record, depHolds s l.asid d = true)) →
        ∃ t l', exec (.dependenceSatisfied k) s = .next t ∧ getLaunch t k = some l' ∧ l'.stage = .placing ∧ l'.slotHeld = true ∧
          l'.left = true ∧ l'.record = l.record ∧ l'.ident = l.ident)))

/-- R334, R337 and Table 16.6: a launch in turn has its next bed or group placed, and gives its launch slot back with the last; one that no
core or no instance could ever hold completes with NOFIT or NOGROUP; otherwise the victim that R337 chooses is pre-empted, if any: a group
of beds of a launch whose level is PRETHR or more above, one of those that together free what the bed needs.  What a group of victims is,
and the order among launches that R337 leaves equal, is the model's choice (log 78), and so is that a launch that fits nowhere is judged
after arming, against an empty package (log 86). -/
def Sys2Proof.Claim.Placements : Prop :=
  ∀ (k : Nat) (s : State) (l : Launch), getLaunch s k = some l →
    (l.stage ≠ .placing → exec (.bedPlacement k) s = .next s) ∧
    (∀ st, l.stage = .placing → l.nextBed = 0 → fitStatus s k l = some st →
      ∃ t, exec (.bedPlacement k) s = .next t ∧ Rejected t k st 0 ∧ (st = 0x13 ∨ st = 0x14)) ∧
    (l.stage = .placing → (l.nextBed ≠ 0 ∨ fitStatus s k l = none) →
      (hasTurn s l = false → exec (.bedPlacement k) s = .next s) ∧
      (∀ u, hasTurn s l = true → placeNext s k l = some u →
        ∃ t l', exec (.bedPlacement k) s = .next t ∧ t.beds = u.beds ∧ getLaunch t k = some l' ∧ l'.nextBed = l.nextBed + groupSize l ∧
          (bedCount l ≤ l.nextBed + groupSize l → l'.stage = .running ∧ l'.slotHeld = false) ∧
          (l.nextBed + groupSize l < bedCount l → l'.stage = .placing ∧ l'.slotHeld = l.slotHeld)) ∧
      (∀ g, chooseVictim s k l = some g → (∃ x ∈ s.launches, x.1 = g.1 ∧ l.level + s.hostIf.prethr.toNat ≤ x.2.level) ∧
        mayPreempt s g.1 g.2 = true ∧ ∃ gs, g ∈ gs ∧ sufficient s k l gs = true) ∧
      (hasTurn s l = true → placeNext s k l = none → (chooseVictim s k l = none ∨ pinsReadable s l = false) →
        exec (.bedPlacement k) s = .next s) ∧
      (∀ g b, hasTurn s l = true → placeNext s k l = none → pinsReadable s l = true → chooseVictim s k l = some g →
        lowestBed (groupOn s g.1 g.2) = some b →
        exec (.bedPlacement k) s = .next { s with agenda := s.agenda ++ [.preemption b.1] }))

/-- R338 and R408: a launch completes once, after its collectives: the completion word goes through its address space, then the completion
barrier, where it has one, gets one arrival, the notice goes to its queue's vector unless that is masked, and its slot is free.  COLLFAIL
before DROPPED is the model's choice (log 123), and so is that no word is written at a CVA that is not 8-byte aligned (log 131). -/
def Sys2Proof.Claim.Completions : Prop :=
  ∀ (k : Nat) (s : State) (l : Launch), getLaunch s k = some l →
    (l.stage ≠ .completing ∨ collsOf s k ≠ [] → exec (.launchCompletion k) s = .next s) ∧
    (l.stage = .completing → collsOf s k = [] →
      let v := queueField (getQueue s l.queue) 98 88
      let end_ := l.early.getD (match l.collFail with
        | some (b, why) => (3, b + why * 4)
        | none => (if l.dropped then 1 else 0, 0))
      let cva : DWord := BitVec.ofNat 64 (recField l.record 959 896)
      ∃ t l', exec (.launchCompletion k) s = .next t ∧ getLaunch t k = some l' ∧ l'.stage = .done ∧ l'.slotHeld = false ∧
        t.hostIf.notices = (if (l.fn, v) ∈ s.hostIf.masked then s.hostIf.notices else s.hostIf.notices ++ [(l.queue, v)]) ∧
        ∀ u, (let v := if l.early.isSome then s else freeLaunch s k l
            if cva = 0#64 then u = v
            else if cva.toNat % 8 ≠ 0 then u = logEvent v 18 0 none (BitVec.ofNat 32 end_.1) l.ident.toNat
            else vaWrite l.asid v cva
              (natLe 8 (end_.1 % 2 ^ 16 + l.attempts % 256 * 2 ^ 16 + end_.2 % 256 * 2 ^ 24 + l.tag.toNat * 2 ^ 32)) = some u) →
          let bar : DWord := BitVec.ofNat 64 (recField l.record 1023 960)
          (refSpace bar = 2 → t.mem = u.mem ∧ t.home = u.home) ∧
          (refSpace bar ≠ 2 → cbarOk bar = true →
            let a := (engineArrive u l.asid 0 bar 1 0 5 0 l.ident.toNat).1
            t.mem = a.mem ∧ t.home = a.home ∧ t.bwait = a.bwait ∧ t.beds = a.beds ∧ t.evlog = a.evlog))

/-- R360 to R362 and R390: a killed launch loses its beds, copies, searches, batches and collectives, and its fires under way; it is replayed
under its identifier while replays are left and no collective has failed, and completes otherwise.  The failing core is kept beside the log
(log 12); that a replay keeps the launch slot is the model's choice (log 88). -/
def Sys2Proof.Claim.Kills : Prop :=
  ∀ (k : Nat) (cause : BitVec 5) (s : State) (l : Launch), getLaunch s k = some l →
    (l.early.isSome = true ∨ (l.stage ≠ .placing ∧ l.stage ≠ .running ∧ l.stage ≠ .completing) → exec (.launchKill k cause) s = .next s) ∧
    (l.early = none → (l.stage = .placing ∨ l.stage = .running ∨ l.stage = .completing) →
      ∃ t l', exec (.launchKill k cause) s = .next t ∧ (∀ b ∈ t.beds, b.2.launch ≠ k) ∧ (∀ c ∈ t.copies, c.2.launch ≠ k) ∧
        (∀ x ∈ t.searches, x.2.launch ≠ k) ∧ (∀ b ∈ t.batches, b.2.launch ≠ k) ∧ collsOf t k = [] ∧ getLaunch t k = some l' ∧
        l'.attempts = l.attempts ∧ l'.ident = l.ident ∧ l'.slotHeld = l.slotHeld ∧ (∀ n x b w, Event.collectiveFire k n x b w ∉ t.agenda) ∧
        (l.killCore = none → t.killCores = s.killCores) ∧ (∀ c, l.killCore = some c → ∃ n, t.killCores = s.killCores ++ [(n, c)]) ∧
        (∀ x, l.collFail = some x → l'.early = some (3, x.1 + x.2 * 4) ∧ l'.stage = .completing) ∧
        (l.collFail = none → l.attempts ≤ recField l.record 218 216 →
          l'.stage = .killed ∧ l'.early = none ∧ Event.launchReplay k ∈ t.agenda) ∧
        (l.collFail = none → recField l.record 218 216 < l.attempts → l'.early = some (2, 0) ∧ l'.stage = .completing)) ∧
    (l.stage ≠ .killed → exec (.launchReplay k) s = .next s) ∧
    (l.stage = .killed → ∃ t l', exec (.launchReplay k) s = .next t ∧ getLaunch t k = some l' ∧ l'.attempts = l.attempts + 1 ∧
      l'.ident = l.ident ∧ l'.fired = [] ∧ l'.nextBed = 0 ∧ l'.exited = 0)

/-- R403 to R409: while the device is not open every host access is refused.  A doorbell moves the tail of its owner's enabled queue, by no
more than the ring, and makes entries visible as they stand; QCMD reads the descriptor then, but for HEAD and TAIL, which are the
hardware's, and answers in QSTAT.  QSTAT 2 for a function that does not own the queue, HEAD and TAIL that begin at 0, when the function word
is read, and that host events are refused while only the mailbox answers, is the model's choice (log 91). -/
def Sys2Proof.Claim.HostQueues : Prop :=
  ∀ (fn : Nat) (q : BitVec 16) (tail : BitVec 64) (s : State),
    let x := getQueue s q.toNat
    let n := 2 ^ queueField x 69 65
    let t32 : Word := BitVec.ofNat 32 tail.toNat
    let d : BitVec 256 := BitVec.ofNat 256 (leNat (homeBytes s (s.hostIf.qdtva.toNat + 32 * q.toNat) 32))
    (s.powered = true → s.mgmt.mailboxOnly = true → ∀ i ∈ [Instr.doorbell fn q tail, .qcmdEnable fn q, .qcmdDisable fn q], Refuses i s s fn 0) ∧
    (s.powered = true → s.mgmt.mailboxOnly = false →
      (queueField x 87 82 ≠ fn → Refuses (.doorbell fn q tail) s s fn 0) ∧
      (queueField x 87 82 = fn →
        x.enabled = false ∨ 2 ^ 32 ≤ tail.toNat ∨ n < (t32 - x.head).toNat ∨ n < (t32 - x.tail).toNat →
        Discards (.doorbell fn q tail) s s fn) ∧
      (queueField x 87 82 = fn → x.enabled = true → tail.toNat < 2 ^ 32 → (t32 - x.head).toNat ≤ n → (t32 - x.tail).toNat ≤ n →
        ∃ t y, exec (.doorbell fn q tail) s = .next t ∧ getQueue t q.toNat = y ∧ y = { x with tail := t32, seen := y.seen } ∧
          ∀ k, k < (t32 - x.tail).toNat → mfind y.seen ((x.tail + BitVec.ofNat 32 k).toNat % n) =
            some (entryAt s x (x.tail + BitVec.ofNat 32 k))) ∧
      (queueField x 87 82 ≠ fn → ∃ u, Refuses (.qcmdDisable fn q) s u fn 0 ∧ (getFn u fn).qstat = 2#2 ∧ getQueue u q.toNat = x) ∧
      (queueField x 87 82 = fn → ∃ t, exec (.qcmdDisable fn q) s = .next t ∧ (getFn t fn).qstat = 0#2 ∧
        getQueue t q.toNat = { x with enabled := false }) ∧
      (bits d.toNat 87 82 ≠ fn → ∃ u, Refuses (.qcmdEnable fn q) s u fn 0 ∧ (getFn u fn).qstat = 2#2 ∧ getQueue u q.toNat = x) ∧
      (bits d.toNat 87 82 = fn → descriptorOk d = false → ∃ t, exec (.qcmdEnable fn q) s = .next t ∧ (getFn t fn).qstat = 1#2 ∧
        getQueue t q.toNat = { x with enabled := false }) ∧
      (bits d.toNat 87 82 = fn → descriptorOk d = true →
        (fn = 0 ∨ (functionWord s fn).getLsbD 16 = true ∧ (functionWord s fn).toNat % 2 ^ 16 = bits d.toNat 114 99) →
        ∃ t, exec (.qcmdEnable fn q) s = .next t ∧ (getFn t fn).qstat = 0#2 ∧ getQueue t q.toNat =
          { x with desc := d, enabled := true, seen := [] }) ∧
      (bits d.toNat 87 82 = fn → descriptorOk d = true → fn ≠ 0 →
        ((functionWord s fn).getLsbD 16 = false ∨ (functionWord s fn).toNat % 2 ^ 16 ≠ bits d.toNat 114 99) →
        ∃ t, exec (.qcmdEnable fn q) s = .next t ∧ (getFn t fn).qstat = 1#2 ∧ (getQueue t q.toNat).enabled = false))

/-- R333, R404, R408, R421, Tables 16.5 and 20.2: the host registers as they are written, at the offsets of log 90; a register with an event of
its own raises it, a place that holds none is refused, a capability's header is read-only and begins with its ID and version 1, its LENGTH
includes the header, the event log's entries are read through capability 7 (the registers of which are log 90's), and fields of the
arbitration policy out of range stay.  A device that offers only its mailbox refuses every one of them (R411; log 91). -/
def Sys2Proof.Claim.HostRegisters : Prop :=
  ∀ (v : BitVec 64) (p : BitVec 32) (s : State), s.powered = true →
    (s.mgmt.mailboxOnly = false → HostBecomes (.arbpolWrite p) s (fun h => { h with
      prethr := if 1 ≤ p.toNat % 16 ∧ p.toNat % 16 ≤ 11 then BitVec.ofNat 4 (p.toNat % 16) else h.prethr,
      starve := if 1 ≤ p.toNat / 16 % 2 ^ 13 ∧ p.toNat / 16 % 2 ^ 13 ≤ 4096 then BitVec.ofNat 13 (p.toNat / 16 % 2 ^ 13) else h.starve })) ∧
    (s.mgmt.mailboxOnly = true → Refuses (.arbpolWrite p) s s 0 0 ∧ ∀ off, Refuses (.registerWrite 0 off v) s s 0 0) ∧
    (s.mgmt.mailboxOnly = false →
      HostBecomes (.registerWrite 0 0x110#16 v) s (fun h => { h with qdtva := v &&& ~~~(0xFFF#64) }) ∧
      HostBecomes (.registerWrite 0 0x310#16 v) s (fun h => { h with asidtab := v }) ∧
      HostBecomes (.registerWrite 0 0x318#16 v) s (fun h => { h with invalva := v &&& ~~~(0xFFF#64) }) ∧
      HostBecomes (.registerWrite 0 0x328#16 v) s (fun h => { h with fntab := v &&& ~~~(0xFF#64) }) ∧
      HostBecomes (.registerWrite 0 0x410#16 v) s (fun h => { h with ctxbase := v }) ∧
      HostBecomes (.registerWrite 0 0x418#16 v) s (fun h => { h with ctxsize := v }) ∧
      (∀ fn q, fn ≠ 0 → Refuses (.registerWrite fn 0x310#16 v) s s fn 0 ∧ Refuses (.registerWrite fn 0x110#16 v) s s fn 0 ∧
        Refuses (.registerWrite q 0x138#16 v) s s q 0 ∧ exec (.registerWrite q 0x104#16 v) s = .next s) ∧
      (∀ fn id, hasCap fn id = true → ∃ t, runEvent (.barRead fn 0 (BitVec.ofNat 64 (capAt id)) 4) s = .next t ∧
        t = { s with hostIf := { s.hostIf with out := s.hostIf.out ++ [(false, [BitVec.ofNat 8 id, 0#8, 1#8, 0#8])] } } ∧
        16 ≤ capLength id) ∧
      HostBecomes (.registerWrite 0 0x610#16 v) s (fun h => { h with logIndex := v }) ∧
      runEvent (.barRead 0 0 0x620#64 32) s = .next { s with hostIf := { s.hostIf with
        out := s.hostIf.out ++ [(false, natLe 32 (lget s.evlog s.hostIf.logIndex.toNat 0#256).toNat)] } } ∧
      (∀ fn n on, ∃ t, runEvent (.vectorMask fn n on) s = .next t ∧ t = { s with hostIf := t.hostIf } ∧
        ((fn, n) ∈ t.hostIf.masked ↔ on = true)) ∧
      (∀ fn, ∃ t, exec (.registerWrite fn 0x210#16 v) s = .next t ∧ (getFn t fn).fqbase = v &&& ~~~(0xFFF#64)) ∧
      (∀ fn, ∃ t, exec (.registerWrite fn 0x228#16 v) s = .next t ∧
        t.agenda = s.agenda ++ (if v.toNat / 2 ^ 32 % 4 = 0 then [.resumeRetry fn (v.setWidth 32)]
          else if v.toNat / 2 ^ 32 % 4 = 1 then [.resumeFail fn (v.setWidth 32)] else [])) ∧
      (∃ t, exec (.registerWrite 0 0x320#16 v) s = .next t ∧ t.hostIf.invalcmd = v &&& 0xFFFFFFFFFFFF#64 ∧
        t.agenda = s.agenda ++ (if v.getLsbD 63 then
          [.inval (v.setWidth 16) s.hostIf.invalva (BitVec.ofNat 32 (v.toNat / 2 ^ 16 % 2 ^ 32))] else [])))

/-- R135, R357, R403 and R406: the PF's BAR4 window is device memory at the home caches, and refused beyond its end; a VF's is its address
space, while its word names one and Memory Space Enable is set (as PCIe has it, log 90); a function word that the driver has not changed
since it was read is the one used (log 91).  The host's stores to its own memory change it byte for byte.  INVAL drops the translations
of its range and leaves the others, and is refused while only the mailbox answers. -/
def Sys2Proof.Claim.HostMemory : Prop :=
  (∀ (off : BitVec 64) (size : Nat) (bs : List (BitVec 8)) (s : State), s.powered = true → s.mgmt.mailboxOnly = false →
    (off.toNat + size ≤ Config.deviceBytes →
      (∃ t, exec (.bar4Access 0 off size none) s = .next t ∧ t = { s with hostIf := t.hostIf } ∧
        t.hostIf.out = s.hostIf.out ++ [(false, (List.range size).map (fun k => homeByte s (off.toNat + k)))]) ∧
      (bs.length = size → ∃ t, exec (.bar4Access 0 off size (some bs)) s = .next t ∧
        ∀ a, homeByte t a = if off.toNat ≤ a ∧ a < off.toNat + size then lget bs (a - off.toNat) 0#8 else homeByte s a)) ∧
    (Config.deviceBytes < off.toNat + size →
      Refuses (.bar4Access 0 off size (some bs)) s s 0 0 ∧ Refuses (.bar4Access 0 off size none) s s 0 size)) ∧
  (∀ (fn : Nat) (off : BitVec 64) (size : Nat) (bs : List (BitVec 8)) (s : State), fn ≠ 0 → hostOpen s = true →
    functionWord s fn = (getFn s fn).word →
    let w := functionWord s fn
    let asid : BitVec 16 := w.setWidth 16
    let open_ := (getFn s fn).mse = true ∧ w.getLsbD 16 = true ∧ off.toNat + size ≤ 2 ^ 36
    (¬open_ → Refuses (.bar4Access fn off size (some bs)) s s fn 0 ∧ Refuses (.bar4Access fn off size none) s s fn size) ∧
    (open_ → bs.length = size →
      (∀ u, vaWrite asid s off bs = some u → exec (.bar4Access fn off size (some bs)) s = .next u) ∧
      (vaWrite asid s off bs = none → Refuses (.bar4Access fn off size (some bs)) s s fn 0) ∧
      (∀ xs q, vaRead s asid size off = some (xs, q) → exec (.bar4Access fn off size none) s =
        .next { s with hostIf := { s.hostIf with out := s.hostIf.out ++ [(false, xs)] } }) ∧
      (vaRead s asid size off = none → Refuses (.bar4Access fn off size none) s s fn size))) ∧
  (∀ (addr : BitVec 64) (bs : List (BitVec 8)) (s : State), ∃ t, runEvent (.hostWrite addr bs) s = .next t ∧ t.home = s.home ∧
    ∀ a, memByte t.mem a = if Config.hostBase + addr.toNat ≤ a ∧ a < Config.hostBase + addr.toNat + bs.length
      then lget bs (a - (Config.hostBase + addr.toNat)) 0#8 else memByte s.mem a) ∧
  (∀ (asid : BitVec 16) (va : BitVec 64) (n : BitVec 32) (s : State),
    let hit := fun (vpn : Nat) => (vpn + 2 ^ 37 - va.toNat / 4096 % 2 ^ 37) % 2 ^ 37 < n.toNat
    (s.powered = true → s.mgmt.mailboxOnly = true → Refuses (.inval asid va n) s s 0 0) ∧
    (hostOpen s = true → ∃ t, exec (.inval asid va n) s = .next t ∧
      ∀ e, e ∈ t.tlb ↔ e ∈ s.tlb ∧ ¬(e.1 / 2 ^ 37 % 2 ^ 16 = asid.toNat ∧ hit (e.1 % 2 ^ 37))))

/-- Waves, bed exits, pre-emption and resume. -/
def Obligations.BedLife : Prop := NewSheaves ∧ WavesAndExits ∧ Preemptions

/-- Picks, placement, completion, kills and replays of launches. -/
def Obligations.LaunchLife : Prop := Arbitration ∧ Placements ∧ Completions ∧ Kills

/-- Doorbells, queues, host registers and host memory. -/
def Obligations.HostInterface : Prop := HostQueues ∧ HostRegisters ∧ HostMemory


/-! ## The voltage margin and the management plane (chapters 18 and 21) -/

namespace Sys2Proof.Claim

/-- A counter that saturates took one more. -/
def Counted {w : Nat} (x y : BitVec w) : Prop := y.toNat = min (x.toNat + 1) (2 ^ w - 1)

/-- Nothing but the margin registers of a core differs, apart from events that are due and logged. -/
def MarginOnly (s t : State) (core : Nat) (g : Margin) : Prop :=
  (getCore t core).margin = g ∧ getCore t core = { getCore s core with margin := g } ∧ (∀ k, k ≠ core → getCore t k = getCore s k) ∧
    t.beds = s.beds ∧ t.mem = s.mem

/-- A program keeps nothing of the package: no bed, launch, copy, search, batch, collective, queue or event is there (R425). -/
def Fresh (t : State) : Prop :=
  t.beds = [] ∧ t.launches = [] ∧ t.copies = [] ∧ t.searches = [] ∧ t.batches = [] ∧ t.colls = [] ∧ t.cores = [] ∧ t.plots = [] ∧
    t.engines = [] ∧ t.l2 = [] ∧ t.tlb = [] ∧ t.oldFrames = [] ∧ t.indexes = [] ∧ t.pkts = [] ∧ t.pins = [] ∧ t.frames = [] ∧
    t.held = [] ∧ t.early = [] ∧ t.oldCode = [] ∧ t.ctlSram = [] ∧ t.endedColls = [] ∧ t.killCores = [] ∧ t.snapStall = none ∧ t.poolUsed = [] ∧ t.agenda = [] ∧ t.evlog = [] ∧ t.nextLaunch = 0#64 ∧ t.hostIf = HostIf.reset

/-- A sheaf whose result of one name is changed. -/
def OpBecomes (sh : Sheaf) (k : Nat) (f : LongOp → LongOp) : Sheaf :=
  { sh with long := sh.long.map (fun o => if o.id = k then f o else o) }

end Sys2Proof.Claim

/-- R369, R371 and R415: what a late transition that a check finds does.  On the issue, ALU or register-read path the slot's next attempt
is late; in a unit operation that operation replays, and after RLIM replays it carries the margin trap, which is logged (R380); a TMM's step
runs again, and after RLIM replays its sheaf takes the margin trap; in a register-cache write it is only counted; on a quarantined core the
self-test meets it.  That the event comes as an input with a path, and what it meets, is the model's choice (log 92). -/
def Sys2Proof.Claim.LateTransitions : Prop :=
  ∀ (core slot : Nat) (path : BitVec 3) (s : State),
    ((getCore s core).margin.quar = true →
      ∃ t, exec (.lateTransition core slot path) s = .next t ∧ getCore t core = { getCore s core with testEvent := true } ∧ t.beds = s.beds) ∧
    ((getCore s core).margin.quar = false →
      (∃ t, exec (.lateTransition core slot 5#3) s = .next t ∧ t.beds = s.beds ∧
        Counted (getCore s core).margin.repl (getCore t core).margin.repl ∧ Counted (getCore s core).margin.wrepl (getCore t core).margin.wrepl) ∧
      exec (.lateTransition core slot 6#3) s = .next s ∧ exec (.lateTransition core slot 7#3) s = .next s ∧
      (unitOnPath s core slot 2 = none → exec (.lateTransition core slot 2#3) s = .next s) ∧
      (runningTmm s core slot = none → unitOnPath s core slot 4 = none → exec (.lateTransition core slot 4#3) s = .next s) ∧
      (∀ b w sh o, (path = 2#3 ∨ path = 4#3) → (path = 4#3 → runningTmm s core slot = none) →
        unitOnPath s core slot path.toNat = some (b, w, o) → getSheaf s b w = some sh →
        (o.replays < (getCore s core).margin.rlim.toNat → ∃ t, exec (.lateTransition core slot path) s = .next t ∧
          getSheaf t b w = some (OpBecomes sh o.id (fun x => { x with ready := false, replays := x.replays + 1 })) ∧
          (∃ a, getAttempt t core (16 + o.id) = some a ∧ a.op = some o.id ∧ a.slot = slot ∧ a.replays = o.replays + 1 ∧ a.ready = false) ∧
          Counted (getCore s core).margin.repl (getCore t core).margin.repl ∧ Event.attemptReplay core slot ∈ t.agenda) ∧
        ((getCore s core).margin.rlim.toNat ≤ o.replays → ∃ t x, exec (.lateTransition core slot path) s = .next t ∧
          getSheaf t b w = some (OpBecomes sh o.id (fun y => { y with trap := some x })) ∧ x.cause = 19 ∧
          x.detail.toNat = path.toNat + 16 * (getCore s core).margin.cur.toNat ∧
          Counted (getCore s core).margin.mtrap (getCore t core).margin.mtrap ∧
          t.evlog = (logEvent s 2 (dieOf core) none x.detail core).evlog)) ∧
      (∀ x sh, runningTmm s core slot = some x → (getCore s core).margin.rlim.toNat ≤ x.replays → getSheaf s x.bed x.sheaf = some sh →
        sheafEnded sh = false → ∃ u r, exec (.lateTransition core slot 4#3) s = .next (takeTrap u x.bed x.sheaf r) ∧ r.cause = 1#32 <<< 19 ∧
          (getCore u core).tmm = some { x with late := x.late - 1, replays := 0 } ∧
          Counted (getCore s core).margin.mtrap (getCore u core).margin.mtrap ∧ u.evlog = (logEvent s 2 (dieOf core) none r.tdetail core).evlog) ∧
      (∀ x, runningTmm s core slot = some x → x.replays < (getCore s core).margin.rlim.toNat →
        ∃ t, exec (.lateTransition core slot 4#3) s = .next t ∧
          (getCore t core).tmm = some { x with late := x.late - 1, replays := x.replays + 1 } ∧ t.beds = s.beds ∧
          Counted (getCore s core).margin.repl (getCore t core).margin.repl) ∧
      (path = 0#3 ∨ path = 1#3 ∨ path = 3#3 → ∃ t, exec (.lateTransition core slot path) s = .next t ∧
        getCore t core = { getCore s core with lateNext := mset (getCore s core).lateNext slot path.toNat } ∧ t.beds = s.beds))

/-- R370 and R371: a discarded attempt that stands where it issued replays when the slot's bubbles are over; one that is late again is
discarded and counted again, and after RLIM replays it is a margin trap, which is logged (R380), and is given up.  That RLIM acts at equality
is the model's choice (log 92). -/
def Sys2Proof.Claim.Replays : Prop :=
  (∀ (core slot : Nat) (s : State), ((getCore s core).attempts.map Prod.fst).Nodup →
    ∃ t, exec (.attemptReplay core slot) s = .next t ∧
      ∀ k a, getAttempt s core k = some a →
        (a.slot ≠ slot → getAttempt t core k = some a) ∧
        (a.slot = slot → a.op = none → getAttempt t core k = some { a with ready := true }) ∧
        (a.slot = slot → ∀ n, a.op = some n → getAttempt t core k = none ∧
          ∀ sh, getSheaf s a.cur.bed a.cur.sheaf = some sh → ∃ sh', getSheaf t a.cur.bed a.cur.sheaf = some sh' ∧
            ∀ o ∈ sh'.long, o.id = n → o.ready = true)) ∧
  ∀ (core slot key path : Nat) (s : State) (a : Attempt) (sh : Sheaf) (g : Group), againKey s core slot = some key →
    getAttempt s core key = some a → attemptGroup s core slot a = some (sh, g) → mfind (getCore s core).lateNext slot = some path →
    (a.replays < (getCore s core).margin.rlim.toNat → ∃ t y, act (.issue core slot) s = .next t ∧ getAttempt t core key = some y ∧
      y.replays = a.replays + 1 ∧ y.ready = false ∧ y.cur.pc = a.cur.pc ∧ y.left = a.left ∧ t.beds = s.beds ∧
      mfind (getCore t core).lateNext slot = none ∧ Counted (getCore s core).margin.repl (getCore t core).margin.repl) ∧
    ((getCore s core).margin.rlim.toNat ≤ a.replays → ∃ u x, act (.issue core slot) s = trap u g.cur sh x ∧ x.cause = 19 ∧
      getAttempt u core key = none ∧ u.beds = s.beds ∧ Counted (getCore s core).margin.mtrap (getCore u core).margin.mtrap ∧
      u.evlog = (logEvent s 2 (dieOf core) none x.detail core).evlog)

/-- R368 and R414: at a window boundary the step goes down by one where the window was clean and TARGET allows it, the window counters return
to zero and the profile's fields are written, TARGET going one step towards its cap; where the management processor has written the
registers itself since a profile was chosen, none is applied (the model's choice, log 93). -/
def Sys2Proof.Claim.MarginWindows : Prop :=
  ∀ (core : Nat) (s : State),
    let k := getCore s core
    let g := k.margin
    (∃ t, exec (.regulatorSettled core) s = .next t ∧ MarginOnly s t core { g with ramp := false }) ∧
    (g.quar = true → ∃ t, exec (.windowBoundary core) s = .next t ∧ MarginOnly s t core { g with wrepl := 0#16, wtrap := 0#4, raised := false }) ∧
    (∀ p, g.quar = false → profileOf k.profile.toNat (Config.floor core).toNat = some p →
      let cur := if g.cur.toNat < g.target.toNat ∧ g.raised = false then g.cur.toNat + 1 else g.cur.toNat
      let target := min (min (g.target.toNat + 1) p.cap) (Config.floor core).toNat
      ∃ t y, exec (.windowBoundary core) s = .next t ∧ MarginOnly s t core y ∧ y.wrepl = 0#16 ∧ y.wtrap = 0#4 ∧ y.raised = false ∧
        y.target.toNat = target ∧ y.cur.toNat = min cur target ∧ y.rlim = 3#3 ∧ y.wexp.toNat = p.wexp ∧ y.rthr.toNat = p.rthr ∧
        y.qlim.toNat = p.qlim ∧ y.injen = p.injen ∧ y.repl = g.repl ∧ y.mtrap = g.mtrap ∧ y.quar = false) ∧
    (g.quar = false → profileOf k.profile.toNat (Config.floor core).toNat = none →
      ∃ t y, exec (.windowBoundary core) s = .next t ∧ MarginOnly s t core y ∧
        y = { g with wrepl := 0#16, wtrap := 0#4, raised := false, cur := y.cur, ramp := y.ramp } ∧
        y.cur.toNat = if g.cur.toNat < g.target.toNat ∧ g.raised = false then g.cur.toNat + 1 else g.cur.toNat)

/-- R372 and R373: an automatic raise takes the core one step up and TARGET no lower, and is logged; at step 0, as by a command or by QLIM
traps, the core is quarantined: it leaves service, every bed resident on it is pre-empted in turn, the step is 0 and the event gives the
reason.  Only a context pool without room for a bed's image leaves the bed resident on the core, where it issues nothing (the model's choice,
log 77); that RTHR and QLIM act at equality is one too (log 92). -/
def Sys2Proof.Claim.Escalation : Prop :=
  ∀ (core : Nat) (why : BitVec 2) (s : State),
    let g := (getCore s core).margin
    (g.quar = true → ∀ i ∈ [Instr.automaticRaise core, .quarantine core why, .quarantineCommand core], exec i s = .next s) ∧
    (g.wrepl.toNat < g.rthr.toNat → exec (.automaticRaise core) s = .next s) ∧
    (g.quar = false → g.rthr.toNat ≤ g.wrepl.toNat →
      (g.cur = 0#4 → exec (.automaticRaise core) s = exec (.quarantine core 2#2) s) ∧
      (g.cur ≠ 0#4 → ∃ t u y, exec (.automaticRaise core) s = .next t ∧ MarginOnly s t core y ∧ y.cur = g.cur - 1#4 ∧
        y.target.toNat = min g.target.toNat (g.cur.toNat - 1) ∧ Counted g.raise y.raise ∧ y.raised = true ∧ y.quar = false ∧
        t = logEvent u 1 (dieOf core) none ((g.cur - 1#4).setWidth 32) core)) ∧
    (g.quar = false → ∀ p ∈ [(Instr.quarantine core why, why), (.quarantineCommand core, 3#2)],
      ∃ t u v, exec p.1 s = .next t ∧ t = logEvent u 3 (dieOf core) none (p.2.setWidth 32) core ∧
        preemptAll (.next (modMargin s core (fun g => { g with quar := true, qwhy := p.2, qcnt := satInc g.qcnt }))) (bedsOnCore s core) =
          .next v ∧ t.beds = v.beds ∧ t.mem = v.mem ∧
        ((∀ x ∈ s.beds, x.2.image.isSome = true ∧ (getLaunch s x.2.launch).isSome = true) →
          ∀ b bd, getBed s b = some bd → bd.stage = .resident → bd.core = core → ∃ y, getBed t b = some y ∧ y.stage = .preempted) ∧
        (getCore t core).margin.quar = true ∧ (getCore t core).margin.qwhy = p.2 ∧ Counted g.qcnt (getCore t core).margin.qcnt ∧
        (getCore t core).margin.target = 0#4 ∧ (getCore t core).margin.cur = 0#4)

/-- R374, R414 to R416 and R418: the commands of the management processor.  A reserved profile is refused; RELEASE returns a core that
passes its self-test and was quarantined less than three times; a remap waits for it, is ignored in service, and retires a slot with
three bad lanes; a budget is taken whole or not at all; a read of MRGCNT clears it; a write changes RW fields and INJEN only.  A profile
hands its raise count to the handlers of the core's sheaves, in a register of the model's choice (log 144); that a failed self-test stays,
and that a remap waits for RELEASE, is the model's choice too (log 94). -/
def Sys2Proof.Claim.MarginCommands : Prop :=
  ∀ (core : Nat) (s : State),
    let k := getCore s core
    (∀ code : BitVec 8, (3 < code.toNat → exec (.marginProfile core code) s = .next s) ∧
      (code.toNat ≤ 3 → ∃ t, exec (.marginProfile core code) s = .next t ∧
        getCore t core = { k with profile := code, raiseN := if code.toNat ≤ 0 then 1 else 2 } ∧
        ∀ b w bd sh, getBed s b = some bd → getSheaf s b w = some sh →
          getSheaf t b w = some (if bd.core = core ∧ bd.stage ≠ .preempted then raiseTo (if code.toNat ≤ 0 then 1 else 2) sh else sh))) ∧
    (k.margin.quar = false → exec (.release core) s = .next s) ∧
    (k.margin.quar = true → (k.testEvent = true ∨ Config.selfTest core s.ticks = false) →
      ∃ t, exec (.release core) s = .next t ∧ getCore t core = { k with testEvent := true }) ∧
    (k.margin.quar = true → k.testEvent = false → Config.selfTest core s.ticks = true → 3 ≤ k.margin.qcnt.toNat →
      exec (.release core) s = .next s) ∧
    (k.margin.quar = true → k.testEvent = false → Config.selfTest core s.ticks = true → k.margin.qcnt.toNat < 3 →
      ∃ t y, exec (.release core) s = .next t ∧ getCore t core = y ∧ y.margin.quar = false ∧ y.margin.qwhy = 0#2 ∧ y.margin.target = 0#4 ∧
        y.margin.cur = 0#4 ∧ y.margin.qcnt = k.margin.qcnt ∧ y.pendingRemap = [] ∧
        ∀ slot x, k.pendingRemap = [(slot, x)] → mfind y.lremap slot = some x) ∧
    (∀ (slot : Nat) (v : BitVec 32),
      (k.margin.quar = false → ∃ t, exec (.lremapWrite core slot v) s = .next t ∧ t.cores = s.cores) ∧
      (k.margin.quar = true → remapOk v = false → exec (.lremapWrite core slot v) s = .next s) ∧
      (k.margin.quar = true → remapOk v = true →
        let bad := dedup (badLanes (mget k.pendingRemap slot (remapOf s core slot)) ++ badLanes v)
        (2 < bad.length → ∃ t, exec (.lremapWrite core slot v) s = .next t ∧ slot ∈ (getCore t core).slotDead) ∧
        (bad.length ≤ 2 → ∃ t, exec (.lremapWrite core slot v) s = .next t ∧
          mfind (getCore t core).pendingRemap slot = some (remapValue v) ∧ (getCore t core).slotDead = k.slotDead))) ∧
    (∀ m n l : Nat,
      (3000 < m + n + l ∨ m < 400 ∨ n < 300 ∨ l < 150 → exec (.powerBudget m n l) s = .next s) ∧
      (m + n + l ≤ 3000 → 400 ≤ m → 300 ≤ n → 150 ≤ l →
        exec (.powerBudget m n l) s = .next { s with mgmt := { s.mgmt with budgetMatrix := m, budgetNear := n, budgetLinks := l } })) ∧
    (∀ (plane : Nat) (on : Bool),
      (2 < plane → exec (.planeBudgetReached plane on) s = .next s) ∧
      (plane ≤ 2 → ∃ t, exec (.planeBudgetReached plane on) s = .next t ∧ (plane ∈ t.mgmt.paced ↔ on = true) ∧
        (∀ p, p ≠ plane → (p ∈ t.mgmt.paced ↔ p ∈ s.mgmt.paced)) ∧ t = { s with mgmt := { s.mgmt with paced := t.mgmt.paced } })) ∧
    (∀ i : BitVec 10, (i.toNat < 0x100 ∨ 0x106 < i.toNat →
        ∃ t, exec (.readAndClear core i) s = .next t ∧ t.mgmt.replies = s.mgmt.replies ++ [[]] ∧ t.cores = s.cores) ∧
      (0x100 ≤ i.toNat → i.toNat ≤ 0x106 →
        ∃ t, exec (.readAndClear core i) s = .next t ∧ t.mgmt.replies = s.mgmt.replies ++ [natLe 4 (marginReg s core i.toNat).toNat] ∧
          (i ≠ 0x102#10 → t.cores = s.cores) ∧
          (i = 0x102#10 → MarginOnly s t core { k.margin with repl := 0#16, mtrap := 0#8, raise := 0#8 }))) ∧
    (∀ v : BitVec 32,
      (∀ i ∈ [0x101#10, 0x102#10, 0x103#10, 0x107#10], runEvent (.marginWrite core i v) s = .next s) ∧
      (∃ t, runEvent (.marginWrite core 0x104#10 v) s = .next t ∧ MarginOnly s t core { k.margin with inj0 := v &&& 0x00FFFF77#32 }) ∧
      (∃ t, runEvent (.marginWrite core 0x105#10 v) s = .next t ∧ MarginOnly s t core { k.margin with inj1 := v &&& 0x00FFFF77#32 }) ∧
      (∃ t, runEvent (.marginWrite core 0x106#10 v) s = .next t ∧ t.beds = s.beds ∧ t.mem = s.mem ∧
        getCore t core = { k with profile := (getCore t core).profile, margin := { k.margin with injen := v.getLsbD 3 } }) ∧
      (∃ t y, runEvent (.marginWrite core 0x100#10 v) s = .next t ∧ t.beds = s.beds ∧ t.mem = s.mem ∧
        getCore t core = { k with profile := (getCore t core).profile, margin := y } ∧
        y.rlim = (if bits v.toNat 6 4 = 0 then k.margin.rlim else BitVec.ofNat 3 (bits v.toNat 6 4)) ∧
        y.wexp.toNat = bits v.toNat 11 8 ∧
        y.rthr = (if bits v.toNat 23 12 = 0 then k.margin.rthr else BitVec.ofNat 12 (bits v.toNat 23 12)) ∧
        y.qlim = (if bits v.toNat 27 24 = 0 then k.margin.qlim else BitVec.ofNat 4 (bits v.toNat 27 24)) ∧
        y.injen = k.margin.injen ∧ y.inj0 = k.margin.inj0 ∧ y.inj1 = k.margin.inj1 ∧ y.repl = k.margin.repl ∧ y.wrepl = k.margin.wrepl ∧
        (k.margin.quar = true → y.target = k.margin.target ∧ y.cur = k.margin.cur) ∧
        (k.margin.quar = false → y.target.toNat = min (bits v.toNat 3 0) (Config.floor core).toNat)))

/-- R410 to R413 and R422: an image that fails a check changes nothing but the log; one that passes extends the measurement of its kind and is
activated, one of KIND 2 at the management processor's next restart; a minimum SVN only rises; an attestation answers for the measurements.
That an image's number is one above the count of images seen is the model's choice (log 95). -/
def Sys2Proof.Claim.Images : Prop :=
  (∀ (img : List (BitVec 8)) (s : State),
    let bad := failedCheck s img
    let kind := imageKind img
    ∃ t, exec (.imageLoad img) s = .next t ∧
      (∃ u, t = logEvent u 11 0 none (BitVec.ofNat 32 (kind + bad * 256)) 0 ∧ (bad ≠ 0 → u = s)) ∧
      (bad = 0 →
        measOf t.mgmt kind = BitVec.ofNat 512 (leNat (sha512 (natLe 64 (measOf s.mgmt kind).toNat ++ imageDigest img))) ∧
        (∀ k, k ≠ kind → measOf t.mgmt k = measOf s.mgmt k) ∧ mget t.mgmt.images (s.mgmt.images.length + 1) [] = img ∧
        (kind ≠ 2 → mfind t.mgmt.active kind = some (s.mgmt.images.length + 1)) ∧
        (kind = 2 → t.mgmt.next2 = some (s.mgmt.images.length + 1) ∧ t.mgmt.active = s.mgmt.active) ∧
        (t.mgmt.mailboxOnly = false ↔ ∀ k, 1 ≤ k → k ≤ 6 → (mfind t.mgmt.active k).isSome = true))) ∧
  (∀ s : State, (s.mgmt.next2 = none → exec .managementRestart s = .next s) ∧
    (∀ n, s.mgmt.next2 = some n → ∃ t, exec .managementRestart s = .next t ∧ mfind t.mgmt.active 2 = some n ∧ t.mgmt.next2 = none)) ∧
  (∀ (kind : BitVec 8) (s : State),
    ∃ t, exec (.svnMinimumRaise kind) s = .next t ∧ t = { s with mgmt := { s.mgmt with svnMin := t.mgmt.svnMin } } ∧
      (∀ k, k ≠ kind.toNat → svnMinimum t k = svnMinimum s k) ∧
      (mfind s.mgmt.active kind.toNat = none → svnMinimum t kind.toNat = svnMinimum s kind.toNat) ∧
      ∀ n, mfind s.mgmt.active kind.toNat = some n → (svnMinimum t kind.toNat).toNat =
        max (svnMinimum s kind.toNat).toNat (imageField (imageOf s n) 127 96 % 2 ^ 32)) ∧
  (∀ (nonce : BitVec 512) (s : State),
    ∃ t sig, exec (.attestation nonce) s = .next t ∧ t = { s with mgmt := { s.mgmt with replies := t.mgmt.replies } } ∧
      t.mgmt.replies = s.mgmt.replies ++ [attestFields s ++ sig] ∧
      sig = Config.identitySign (BitVec.ofNat 512 (leNat (sha512 (natLe 64 nonce.toNat ++ attestFields s)))))

/-- R61, R85, R409, R412, R421, R422 and R425: resets.  A die reset clears its cores, plots, slices, translations, engines and counters; a
package reset keeps memory, measurements and the flash; without power device memory is lost, and power-on boots the flash with
measurements from zero.  What each of them keeps where the rules say nothing is the model's choice (log 96). -/
def Sys2Proof.Claim.Resets : Prop :=
  (∀ (die : Nat) (s : State), (4 ≤ die → exec (.dieReset die) s = .next s) ∧
    (die < 4 → ∃ t, exec (.dieReset die) s = .next t ∧ (∀ k, dieOf k = die → getCore t k = Core.reset) ∧
      (∀ p, p / 16 = die → getPlot t p = Plot.reset) ∧ (∀ b ∈ t.beds, b.2.stage = .resident → dieOf b.2.core ≠ die) ∧
      (∀ e, dieOfEngine e = die → getEngine t e = Engine.reset) ∧ getDie t die = { cycle := 0#64, seq := 0#32 } ∧
      (∀ k, k / 4 = die → l2Of t k = []) ∧ (∀ e ∈ t.tlb, dieOf (e.1 / 2 ^ 53) ≠ die) ∧ (∀ e ∈ t.early, dieOf e.core ≠ die) ∧
      (∀ x ∈ t.searches, dieOfEngine x.2.home ≠ die) ∧ (∀ b ∈ t.batches, dieOfEngine b.2.engine ≠ die) ∧
      (∀ c ∈ t.copies, dieOf c.2.core ≠ die))) ∧
  (∀ s : State,
    (s.powered = false → exec .packageReset s = .next s) ∧ (s.powered = true → ∀ rom, exec (.powerOn rom) s = .next s) ∧
    (s.powered = true → ∃ t, exec .packageReset s = .next t ∧ Fresh t ∧ t.powered = true ∧ t.mem = s.mem ∧ t.memPoison = s.memPoison ∧
      t.home = s.home ∧ t.mgmt.meas = s.mgmt.meas ∧ t.mgmt.active = s.mgmt.active ∧ t.mgmt.images = s.mgmt.images ∧
      t.mgmt.svnMin = s.mgmt.svnMin ∧ t.mgmt.budgetMatrix = 1650 ∧ t.mgmt.budgetNear = 950 ∧ t.mgmt.budgetLinks = 400) ∧
    (∃ t, exec .powerOff s = .next t ∧ Fresh t ∧ t.powered = false ∧ (∀ a, a < Config.hostBase → memByte t.mem a = 0#8) ∧ t.home = [] ∧
      t.mgmt.images = s.mgmt.images ∧ t.mgmt.svnMin = s.mgmt.svnMin ∧ ∀ k, measOf t.mgmt k = 0#512) ∧
    (∀ rom, s.powered = false → ∃ t, exec (.powerOn rom) s = .next t ∧ t.powered = true ∧ measOf t.mgmt 0 = rom ∧
      (s.mgmt.active = [] → s.mgmt.next2 = none → t.mgmt.mailboxOnly = true ∧ ∀ k, k ≠ 0 → measOf t.mgmt k = 0#512)))

/-- Late transitions, windows, escalation and commands of the margin. -/
def Obligations.MarginOperation : Prop := LateTransitions ∧ Replays ∧ MarginWindows ∧ Escalation ∧ MarginCommands

/-- Images, attestation and resets. -/
def Obligations.ImagesAndResets : Prop := Images ∧ Resets


/-! ## The whole machine (chapters 1, 7, 14) -/

namespace Sys2Proof.Claim

/-- The instructions that act on every thread of the control set or are checked for privilege before they see the execute mask, the
branches, and the EXT pairs (R11, R177). -/
def unmasked (i : Instr) : Bool :=
  match i with
  | .exit .. => true
  | .yield .. => true
  | .nop .. => true
  | .bkpt .. => true
  | .pred .. => true
  | .unpred .. => true
  | .setj .. => true
  | .join .. => true
  | .jleave .. => true
  | .region .. => true
  | .trap .. => true
  | .hret .. => true
  | .wbase .. => true
  | .wbaseRel .. => true
  | .br .. => true
  | .brn .. => true
  | .bra .. => true
  | .call .. => true
  | .jmpr .. => true
  | .ext .. => true
  | .srd .. => true
  | .swr .. => true
  | .mdrain .. => true
  | .mfill .. => true
  | .bexit .. => true
  | .jspill .. => true
  | .jfill .. => true
  | .yieldG .. => true
  | .bankcfg .. => true
  | _ => false

/-- The instructions that only a handler may run (R177); SRD and SWR are privileged by their index. -/
inductive HandlerForm where
  | hret | mdrain (a : BitVec 7) | mfill (a : BitVec 7) | jspill (k : BitVec 4) (a : BitVec 7) | jfill (k : BitVec 4) (a : BitVec 7)
  | bankcfg (d a b : BitVec 7)

/-- The instruction of such a form. -/
def HandlerForm.instr : HandlerForm → Instr
  | .hret => .hret
  | .mdrain a => .mdrain a
  | .mfill a => .mfill a
  | .jspill k a => .jspill k a
  | .jfill k a => .jfill k a
  | .bankcfg d a b => .bankcfg d a b

/-- Lane i may not access some of the registers: its window base plus the number reaches its budget (R27, R42). -/
def beyond (c : Cur) (sh : Sheaf) (regs : List Nat) (i : Nat) : Bool :=
  regs.any (fun n => decide ((src c sh).place.budget ≤ 16 * lget (src c sh).wb i 0 + n))

/-- A word as memory holds it, and the instruction that it stands for. -/
def readsAs (w : Word) (i : Instr) : Prop := decodeBytes (wordBytes w) = some (.ok i, [])

end Sys2Proof.Claim

/-- R11 and R14: where no thread of the control set is switched on, an instruction of a core has no effect but that its PC group moves on
to the next one: no register, no memory, no unit and no trap. -/
def Obligations.MaskedOff : Prop :=
  ∀ (i : Instr) (s : State) (c : Cur) (sh : Sheaf), i.wf = true → unmasked i = false → Issues s c sh → exm c sh = 0#32 →
    ∃ t, exec i s = .next t ∧ MovesOn s t c sh

/-- R27: a lane access beyond the thread's budget traps, with the active lanes without effect and the lowest of the lanes that reach it. -/
def Sys2Proof.Claim.BudgetTraps : Prop :=
  ∀ (op : AluOp) (f : ImmForm) (x : BitVec 18) (d a b : BitVec 7) (s : State) (c : Cur) (sh : Sheaf) (l : Nat), Issues s c sh → Active c sh →
    (src c sh).handler = false →
    let past := fun regs => activeMask (exm c sh) (beyond c sh regs)
    let t : LateTrap := { cause := 4, lanes := exm c sh, lanes2 := 0#32, detail := BitVec.ofNat 32 l, addr := 0#64 }
    (IsFirst (past [rn d, rn a, rn (second op a b)]) l → exec (aluInstr op .lane d a b) s = trap s c sh t) ∧
    (IsFirst (past [rn d, rn a]) l → exec (f.instr .lane d a) s = trap s c sh t) ∧
    (IsFirst (past [rn d]) l → exec (.li .lane d x) s = trap s c sh t) ∧
    (IsFirst (past [rn d, rn a]) l → exec (.mov .lane d a) s = trap s c sh t) ∧
    (IsFirst (past [rn d]) l → exec (.movgv d a) s = trap s c sh t)

/-- R177, item 3: in normal mode HRET, MDRAIN, MFILL, JSPILL, JFILL and BANKCFG take the privilege trap at their own address and nothing
else; the record has no detail. -/
def Sys2Proof.Claim.HandlerOnly : Prop :=
  ∀ (f : HandlerForm) (s : State) (c : Cur) (sh : Sheaf), Issues s c sh → sh.handler = false →
    exec f.instr s = trap s c sh { cause := 2, lanes := 0#32, lanes2 := 0#32, detail := 0#32, addr := 0#64 }

/-- R170 to R178: a core's decoder reads back every well-formed instruction from its bytes, with every operand at every value, and leaves
the bytes after it; and it accepts no other word for an instruction (an EXT pair: no other first word). -/
def Obligations.RoundTripCore : Prop :=
  (∀ (i : Instr) (rest : List Byte), i.wf = true → decodeBytes (encode i ++ rest) = some (.ok i, rest)) ∧
  (∀ (w next : Word) (i : Instr), decodeWord w next = .ok i → i.wf = true ∧ encodeWord i = w)

/-- R140 and R141: the same of a bank engine's decoder. -/
def Obligations.RoundTripNear : Prop :=
  (∀ i : Instr, i.nearWf = true → decodeNear (encodeWord i) = .ok i) ∧
  (∀ (w : Word) (i : Instr), decodeNear w = .ok i → i.nearWf = true ∧ encodeWord i = w)

/-- Words that the spec writes out decode to what it says they are, a word of zeros is an ADD, and a reserved word is none. -/
def Obligations.DecodeWords : Prop :=
  readsAs 0x0000_0000#32 (.add .lane 0#7 0#7 0#7) ∧ readsAs 0x0420_2001#32 (.addi .lane 8#7 4#7 1#11) ∧
  readsAs 0x0E28_2002#32 (.shli .lane 10#7 4#7 2#5) ∧ readsAs 0x2C14_3072#32 (.div .lane 5#7 6#7 7#7 2#4) ∧
  readsAs 0x1804_1033#32 (.ffma .lane 1#7 2#7 3#7) ∧ readsAs 0x2010_3080#32 (.dadd 4#7 6#7 8#7) ∧
  readsAs 0x2A14_3070#32 (.dp4a 5#7 6#7 7#7) ∧ readsAs 0x2440_4181#32 (.shflx 16#7 8#7 24#7) ∧
  readsAs 0x2830_3086#32 (.mergek 12#7 6#7 8#7) ∧ readsAs 0x3428_2222#32 (.ld 10#7 4#7 1#2 2#5 2#4) ∧
  readsAs 0x3E1C_1C30#32 (.sts 7#7 3#7 2#2 3#5) ∧ readsAs 0xB660_A450#32 (.stu 24#7 20#7 2#2 5#5) ∧
  readsAs 0x5008_20A0#32 (.qmm 2#3 4#7 10#7 0#4) ∧ readsAs 0x6A00_0000#32 .exit ∧ readsAs 0x6A0C_0006#32 (.setj 3#4) ∧
  readsAs 0x6E0C_0030#32 (.srd .lane 3#7 0x30#10) ∧ readsAs 0xEE00_1440#32 (.swr .group 2#7 0x40#10) ∧
  readsAs 0xD111_4400#32 (.copy 68#7 40#7 64#7 0#4) ∧ readsAs 0xE400_0001#32 .mtokPass ∧ readsAs 0xE828_0000#32 (.tnext 10#7) ∧
  readsAs 0xDF1A_1450#32 (.waitb 70#7 66#7 69#7) ∧ readsAs 0xD600_A160#32 (.nmsearch 20#7 22#7) ∧
  readsAs 0xDA00_2050#32 (.collfire 4#7 5#7) ∧
  readsAs 0x6A00_0003#32 .bkpt ∧ (∀ i, ¬readsAs 0x7E00_0000#32 i)

/-- A group at an address is what its fetched word decodes to, for its control set (R10, R170), which is all threads there unless running
launches have changed the code; where nothing stops it before, running it is running that instruction in the state in which it issues, a
word that is none traps as illegal (R177), and a step whose action is an issue of one group is that run, the books of the issue around it,
and the end of the step.  A pair's step is its library's word.  A step ends with what it leaves to be noticed, unless it is put off. -/
def Obligations.StepRunsDecoded : Prop :=
  (∀ (s : State) (b w : Nat) (sh : Sheaf) (g : Group), g ∈ rankedGroups s b w sh →
    g = groupAtPc s b w sh g.cur.pc g.cur.ctl g.part ∧
      (if sh.handler then g.cur.pc = sh.hpc ∧ g.cur.ctl = 0#32
       else (∃ k, k < 32 ∧ bit (runMask sh) k = true ∧ lget sh.pcs k 0#64 = g.cur.pc) ∧
         g.cur.ctl &&& ~~~controlSet sh g.cur.pc = 0#32 ∧ (s.oldCode = [] → g.cur.ctl = controlSet sh g.cur.pc ∧ g.part = 0))) ∧
  (∀ (s : State) (b w n part : Nat) (sh : Sheaf) (pc : DWord) (ctl : Mask) (x y : Word) (held : Option Sheaf),
    (if sh.handler then handlerFetch s sh.himg pc.toNat else (fetchAt s sh.place.core part (asidOf s b) pc).1) = .word x y n →
    let g := groupAtPc s b w sh pc ctl part
    let c : Cur := { bed := b, sheaf := w, pc := pc, ctl := ctl, len := n, inst0 := x, inst1 := y, before := held }
    { g.cur with before := held } = c ∧ (issuing s sh g held).agent = .sheaf c ∧
    (breakAt sh pc = none →
      (∀ i, decodeWord x y = .ok i → g.ins = some i ∧ runGroup s sh g held = exec i (issuing s sh g held)) ∧
      (∀ e, decodeWord x y = .error e → runGroup s sh g held = trap (issuing s sh g held) c sh (plainTrap 0)))) ∧
  (∀ (s : State) (core slot : Nat) (k : Cand) (g : Group) (i : Instr) (sh : Sheaf),
    nextAct s = some (.issue core slot) → againKey s core slot = none → mfind (getCore s core).lateNext slot = none →
    let s0 := reloadCredits s core slot (slotCands s core slot)
    let cs := slotCands s0 core slot
    pickSheaf s0 cs = some k → k.ready = .groups [g] → breakAt sh g.cur.pc = none → (∃ x y n, g.got = .word x y n) → g.ins = some i →
    mayWait i = false →
    let s1 := picked s0 core slot cs k
    getSheaf s1 k.bed k.sheaf = some sh → (sh.handler = true ∨ inject s1 core g.cls = (s1, 0)) →
    step s = Out.andThen (exec i (issuing s1 sh g none)) (fun t =>
      settle (.issue core slot) s (keepEligible cs k.bed k.sheaf (afterIssue core slot s1 sh [g] [] g.cur.bed g.cur.sheaf t)))) ∧
  (∀ (s : State) (n : NCur) (x : Ctx) (i : Instr), nextAct s = some (.pair n) →
    let s1 := notePair s n
    ctxOf s1 n = some x → (thrOf n x).pc % 4 = 0 → (thrOf n x).pc < libSize (imageOf s x.lib) →
    decodeNear (libCode (imageOf s x.lib) (thrOf n x).pc) = .ok i →
    step s = Out.andThen (exec i { s1 with agent := .pair n }) (fun t => settle (.pair n) s t)) ∧
  (∀ (s : State) (e : Event), nextAct s = some (.derived e) → step s = Out.andThen (runEvent e s) (fun t => settle (.derived e) s t)) ∧
  (∀ (s : State) (k : Nat) (e : Event), nextAct s = some (.agenda k) → s.agenda[k]? = some e →
    step s = Out.andThen (runEvent e { s with agenda := s.agenda.take k ++ s.agenda.drop (k + 1) }) (fun t => settle (.agenda k) s t)) ∧
  (∀ (a : Act) (s t : State), t.snapStall = none → cutsAttempt s t = false → heldBack s t = false →
    settle a s t = .next { notice s t with ticks := s.ticks + 1, agent := .idle, holdRelease := false }) ∧
  (∀ s : State, candidates s = [] → step s = .next s)

/-- What reset leaves, as the spec gives it: every bank in CACHE mode and unowned (R85), the margin registers of Table 18.3, free tile
and lock entries (Tables 4.4 and 5.5), the registers of the host interface and the power budgets (Tables 20.2, 16.5 and 21.2), sequence
numbers from 0 (R421), identifiers from 0 (R425), no image active and nothing resident; MEAS0 holds the measure that the boot ROM took of
itself (R412), any value (log 136). -/
def Sys2Proof.Claim.Reset : Prop :=
  let s := State.reset
  (∀ p, (getPlot s p).bankMode = [] ∧ (getPlot s p).bankOwner = [] ∧ (getPlot s p).tiles = [] ∧ (getPlot s p).locks = []) ∧
  (∀ k, (getCore s k).margin = Margin.reset ∧ (getCore s k).token = none ∧ (getCore s k).claim = none ∧ (getCore s k).frozen = false) ∧
  (Margin.reset.target = 0#4 ∧ Margin.reset.rlim = 3#3 ∧ Margin.reset.wexp = 6#4 ∧ Margin.reset.rthr = 256#12 ∧
    Margin.reset.qlim = 4#4 ∧ Margin.reset.cur = 0#4 ∧ Margin.reset.quar = false ∧ Margin.reset.injen = false) ∧
  (∀ d, (getDie s d).seq = 0#32) ∧ s.nextLaunch = 0#64 ∧
  s.hostIf.queues = [] ∧ s.hostIf.prethr = 2#4 ∧ s.hostIf.starve = 4096#13 ∧
  s.mgmt.budgetMatrix = 1650 ∧ s.mgmt.budgetNear = 950 ∧ s.mgmt.budgetLinks = 400 ∧ s.mgmt.active = [] ∧
  (∀ k, k ≠ 0 → measOf s.mgmt k = 0#512) ∧ measOf s.mgmt 0 = Config.romMeasure ∧
  s.beds = [] ∧ s.launches = [] ∧ s.engines = [] ∧ s.searches = [] ∧ s.colls = [] ∧
  s.agent = .idle ∧ memoryCanonical s

/-- What every step keeps: memory stands in its one canonical form, and between steps nobody is in the middle of issuing.  Each step
that does something also draws new free values, so that no two such steps share one. -/
def Sys2Proof.Claim.StepInvariant : Prop :=
  ∀ (s t : State), memoryCanonical s → atRest s → step s = .next t →
    memoryCanonical t ∧ atRest t ∧ ((candidates s = [] ∧ t = s) ∨ t.ticks = s.ticks + 1)

/-- Accesses beyond the budget, and handler-only instructions in normal mode. -/
def Obligations.DecodeAndBudgetTraps : Prop := BudgetTraps ∧ HandlerOnly

/-- What reset leaves, and what every step keeps: canonical memory and rest. -/
def Obligations.ResetAndSteps : Prop := Reset ∧ StepInvariant
end

