-- ==== Sys2Proof/Laws/Amsan.lean ====
section
/-! SUPPORT. What an Amsan frame gives when it is opened under the key, salt and counter that sealed it (R399). -/

namespace Sys2Proof.Machine

theorem xorBytes_twice (a k : List Byte) (h : a.length ≤ k.length) : xorBytes (xorBytes a k) k = a := by
  induction a generalizing k with
  | nil => rfl
  | cons x r ih =>
    cases k with
    | nil => simp at h
    | cons y t =>
      have hr : r.length ≤ t.length := by simpa using h
      simp only [xorBytes, List.zipWith_cons_cons] at ih ⊢
      rw [ih t hr, BitVec.xor_assoc, BitVec.xor_self, BitVec.xor_zero]

@[simp] theorem length_xorBytes (a k : List Byte) : (xorBytes a k).length = min a.length k.length := by
  simp [xorBytes]

theorem length_upFrom' (a n : Nat) : (upFrom a n).length = n := by
  induction n generalizing a with
  | zero => rfl
  | succ n ih => simp [upFrom, ih]

@[simp] theorem length_below' (n : Nat) : (below n).length = n := length_upFrom' 0 n

@[simp] theorem length_aesAdd (x k : List Byte) : (aesAdd x k).length = 16 := by simp [aesAdd]

theorem length_aesRounds (ks : List (List Byte)) (x : List Byte) (h : x.length = 16) : (aesRounds ks x).length = 16 := by
  fun_induction aesRounds ks x with
  | case1 => exact h
  | case2 => simp
  | case3 _ _ _ _ ih => exact ih (by simp)

@[simp] theorem length_aesBlock (ks : List (List Byte)) (x : List Byte) : (aesBlock ks x).length = 16 :=
  length_aesRounds _ _ (by simp)

/-- The key stream covers what it ciphers. -/
theorem length_stream (ks : List (List Byte)) (f : Nat → List Byte) (n : Nat) :
    ((below n).flatMap (fun k => aesBlock ks (f k))).length = 16 * n := by
  have h : ∀ a, ((upFrom a n).flatMap (fun k => aesBlock ks (f k))).length = 16 * n := by
    induction n with
    | zero => intro a; rfl
    | succ n ih =>
      intro a
      rw [upFrom, List.flatMap_cons, List.length_append, length_aesBlock, ih]
      omega
  exact h 0

@[simp] theorem length_gcmStream (ks : List (List Byte)) (nonce x : List Byte) : (gcmStream ks nonce x).length = x.length := by
  unfold gcmStream
  rw [length_xorBytes, length_stream, gcmBlocks]
  omega

/-- Deciphering undoes ciphering. -/
theorem gcmStream_twice (ks : List (List Byte)) (nonce x : List Byte) : gcmStream ks nonce (gcmStream ks nonce x) = x := by
  have hb : gcmBlocks (gcmStream ks nonce x) = gcmBlocks x := by simp [gcmBlocks]
  rw [gcmStream, hb, gcmStream]
  refine xorBytes_twice _ _ ?_
  rw [length_stream, gcmBlocks]
  omega

@[simp] theorem length_natLe' (n x : Nat) : (natLe n x).length = n := by
  induction n generalizing x with
  | zero => rfl
  | succ n ih => simp [natLe, ih]

@[simp] theorem length_gcmTag (ks : List (List Byte)) (nonce c : List Byte) : (gcmTag ks nonce c).length = 16 := by
  simp [gcmTag, natBe]

theorem firstN_append {α : Type} (a b : List α) : firstN a.length (a ++ b) = a := by
  induction a with
  | nil => cases b <;> rfl
  | cons x r ih => simp [firstN, ih]

theorem afterN_append {α : Type} (a b : List α) : afterN a.length (a ++ b) = b := by
  induction a with
  | nil => cases b <;> rfl
  | cons x r ih => simp [afterN, ih]

/-- A frame is 16 bytes longer than its packet (R399). -/
theorem length_amsanSeal (key : BitVec 256) (salt : Word) (n : DWord) (p : List Byte) :
    (amsanSeal key salt n p).length = p.length + 16 := by simp [amsanSeal]

/-- A frame opens, under the key, salt and counter that sealed it, as its packet. -/
theorem amsanOpen_amsanSeal (key : BitVec 256) (salt : Word) (n : DWord) (p : List Byte) :
    amsanOpen key salt n (amsanSeal key salt n p) = some p := by
  have hl : (amsanSeal key salt n p).length - 16 = (gcmStream (aesKeys (natLe 32 key.toNat)) (amsanNonce salt n) p).length := by
    rw [length_amsanSeal, length_gcmStream]; omega
  unfold amsanOpen
  dsimp only
  rw [hl]
  unfold amsanSeal
  dsimp only
  rw [firstN_append, afterN_append, if_neg, gcmStream_twice]
  simp

end Sys2Proof.Machine
end

