-- ==== Sys2Proof/Laws/Exec.lean ====
section
/-! SUPPORT. What the dispatch does with each instruction and event, so that no proof unfolds the dispatch. -/

namespace Sys2Proof.Machine

@[simp] theorem exec_add (sc) (d) (a) (b) (s : State) : exec (.add sc d a b) s = execAdd sc d a b s := rfl
@[simp] theorem exec_sub (sc) (d) (a) (b) (s : State) : exec (.sub sc d a b) s = execSub sc d a b s := rfl
@[simp] theorem exec_mul (sc) (d) (a) (b) (s : State) : exec (.mul sc d a b) s = execMul sc d a b s := rfl
@[simp] theorem exec_mulh (sc) (d) (a) (b) (s : State) : exec (.mulh sc d a b) s = execMulh sc d a b s := rfl
@[simp] theorem exec_mulhu (sc) (d) (a) (b) (s : State) : exec (.mulhu sc d a b) s = execMulhu sc d a b s := rfl
@[simp] theorem exec_min (sc) (d) (a) (b) (s : State) : exec (.min sc d a b) s = execMin sc d a b s := rfl
@[simp] theorem exec_max (sc) (d) (a) (b) (s : State) : exec (.max sc d a b) s = execMax sc d a b s := rfl
@[simp] theorem exec_minu (sc) (d) (a) (b) (s : State) : exec (.minu sc d a b) s = execMinu sc d a b s := rfl
@[simp] theorem exec_maxu (sc) (d) (a) (b) (s : State) : exec (.maxu sc d a b) s = execMaxu sc d a b s := rfl
@[simp] theorem exec_and (sc) (d) (a) (b) (s : State) : exec (.and sc d a b) s = execAnd sc d a b s := rfl
@[simp] theorem exec_or (sc) (d) (a) (b) (s : State) : exec (.or sc d a b) s = execOr sc d a b s := rfl
@[simp] theorem exec_xor (sc) (d) (a) (b) (s : State) : exec (.xor sc d a b) s = execXor sc d a b s := rfl
@[simp] theorem exec_andn (sc) (d) (a) (b) (s : State) : exec (.andn sc d a b) s = execAndn sc d a b s := rfl
@[simp] theorem exec_shl (sc) (d) (a) (b) (s : State) : exec (.shl sc d a b) s = execShl sc d a b s := rfl
@[simp] theorem exec_shr (sc) (d) (a) (b) (s : State) : exec (.shr sc d a b) s = execShr sc d a b s := rfl
@[simp] theorem exec_sra (sc) (d) (a) (b) (s : State) : exec (.sra sc d a b) s = execSra sc d a b s := rfl
@[simp] theorem exec_rol (sc) (d) (a) (b) (s : State) : exec (.rol sc d a b) s = execRol sc d a b s := rfl
@[simp] theorem exec_ror (sc) (d) (a) (b) (s : State) : exec (.ror sc d a b) s = execRor sc d a b s := rfl
@[simp] theorem exec_clz (sc) (d) (a) (s : State) : exec (.clz sc d a) s = execClz sc d a s := rfl
@[simp] theorem exec_popc (sc) (d) (a) (s : State) : exec (.popc sc d a) s = execPopc sc d a s := rfl
@[simp] theorem exec_brev (sc) (d) (a) (s : State) : exec (.brev sc d a) s = execBrev sc d a s := rfl
@[simp] theorem exec_abs (sc) (d) (a) (s : State) : exec (.abs sc d a) s = execAbs sc d a s := rfl
@[simp] theorem exec_neg (sc) (d) (a) (s : State) : exec (.neg sc d a) s = execNeg sc d a s := rfl
@[simp] theorem exec_madd (sc) (d) (a) (b) (s : State) : exec (.madd sc d a b) s = execMadd sc d a b s := rfl
@[simp] theorem exec_msub (sc) (d) (a) (b) (s : State) : exec (.msub sc d a b) s = execMsub sc d a b s := rfl
@[simp] theorem exec_lea1 (sc) (d) (a) (b) (s : State) : exec (.lea1 sc d a b) s = execLea1 sc d a b s := rfl
@[simp] theorem exec_lea2 (sc) (d) (a) (b) (s : State) : exec (.lea2 sc d a b) s = execLea2 sc d a b s := rfl
@[simp] theorem exec_lea3 (sc) (d) (a) (b) (s : State) : exec (.lea3 sc d a b) s = execLea3 sc d a b s := rfl
@[simp] theorem exec_addsat (sc) (d) (a) (b) (s : State) : exec (.addsat sc d a b) s = execAddsat sc d a b s := rfl
@[simp] theorem exec_subsat (sc) (d) (a) (b) (s : State) : exec (.subsat sc d a b) s = execSubsat sc d a b s := rfl
@[simp] theorem exec_addi (sc) (d) (a) (imm) (s : State) : exec (.addi sc d a imm) s = execAddi sc d a imm s := rfl
@[simp] theorem exec_muli (sc) (d) (a) (imm) (s : State) : exec (.muli sc d a imm) s = execMuli sc d a imm s := rfl
@[simp] theorem exec_andi (sc) (d) (a) (imm) (s : State) : exec (.andi sc d a imm) s = execAndi sc d a imm s := rfl
@[simp] theorem exec_ori (sc) (d) (a) (imm) (s : State) : exec (.ori sc d a imm) s = execOri sc d a imm s := rfl
@[simp] theorem exec_xori (sc) (d) (a) (imm) (s : State) : exec (.xori sc d a imm) s = execXori sc d a imm s := rfl
@[simp] theorem exec_shli (sc) (d) (a) (n) (s : State) : exec (.shli sc d a n) s = execShli sc d a n s := rfl
@[simp] theorem exec_shri (sc) (d) (a) (n) (s : State) : exec (.shri sc d a n) s = execShri sc d a n s := rfl
@[simp] theorem exec_srai (sc) (d) (a) (n) (s : State) : exec (.srai sc d a n) s = execSrai sc d a n s := rfl
@[simp] theorem exec_roli (sc) (d) (a) (n) (s : State) : exec (.roli sc d a n) s = execRoli sc d a n s := rfl
@[simp] theorem exec_li (sc) (d) (imm) (s : State) : exec (.li sc d imm) s = execLi sc d imm s := rfl
@[simp] theorem exec_cmp (sc) (d) (a) (b) (c) (s : State) : exec (.cmp sc d a b c) s = execCmp sc d a b c s := rfl
@[simp] theorem exec_cmpi (sc) (d) (a) (c) (imm) (s : State) : exec (.cmpi sc d a c imm) s = execCmpi sc d a c imm s := rfl
@[simp] theorem exec_mov (sc) (d) (a) (s : State) : exec (.mov sc d a) s = execMov sc d a s := rfl
@[simp] theorem exec_movgv (d) (a) (s : State) : exec (.movgv d a) s = execMovgv d a s := rfl
@[simp] theorem exec_movvg (d) (a) (s : State) : exec (.movvg d a) s = execMovvg d a s := rfl
@[simp] theorem exec_laneid (d) (s : State) : exec (.laneid d) s = execLaneid d s := rfl
@[simp] theorem exec_tag (d) (a) (s : State) : exec (.tag d a) s = execTag d a s := rfl
@[simp] theorem exec_gen (d) (s : State) : exec (.gen d) s = execGen d s := rfl
@[simp] theorem exec_sel (d) (a) (b) (s : State) : exec (.sel d a b) s = execSel d a b s := rfl
@[simp] theorem exec_pack2 (d) (a) (b) (s : State) : exec (.pack2 d a b) s = execPack2 d a b s := rfl
@[simp] theorem exec_pack4 (d) (a) (b) (s : State) : exec (.pack4 d a b) s = execPack4 d a b s := rfl
@[simp] theorem exec_unpk (d) (a) (b) (s : State) : exec (.unpk d a b) s = execUnpk d a b s := rfl
@[simp] theorem exec_movj (d) (k) (e) (s : State) : exec (.movj d k e) s = execMovj d k e s := rfl
@[simp] theorem exec_mpop (d) (a) (s : State) : exec (.mpop d a) s = execMpop d a s := rfl
@[simp] theorem exec_mffs (d) (a) (s : State) : exec (.mffs d a) s = execMffs d a s := rfl
@[simp] theorem exec_mfls (d) (a) (s : State) : exec (.mfls d a) s = execMfls d a s := rfl
@[simp] theorem exec_mnth (d) (a) (b) (s : State) : exec (.mnth d a b) s = execMnth d a b s := rfl
@[simp] theorem exec_fadd (sc) (d) (a) (b) (s : State) : exec (.fadd sc d a b) s = execFadd sc d a b s := rfl
@[simp] theorem exec_fsub (sc) (d) (a) (b) (s : State) : exec (.fsub sc d a b) s = execFsub sc d a b s := rfl
@[simp] theorem exec_fmul (sc) (d) (a) (b) (s : State) : exec (.fmul sc d a b) s = execFmul sc d a b s := rfl
@[simp] theorem exec_ffma (sc) (d) (a) (b) (s : State) : exec (.ffma sc d a b) s = execFfma sc d a b s := rfl
@[simp] theorem exec_ffms (sc) (d) (a) (b) (s : State) : exec (.ffms sc d a b) s = execFfms sc d a b s := rfl
@[simp] theorem exec_fmin (sc) (d) (a) (b) (s : State) : exec (.fmin sc d a b) s = execFmin sc d a b s := rfl
@[simp] theorem exec_fmax (sc) (d) (a) (b) (s : State) : exec (.fmax sc d a b) s = execFmax sc d a b s := rfl
@[simp] theorem exec_fabs (sc) (d) (a) (s : State) : exec (.fabs sc d a) s = execFabs sc d a s := rfl
@[simp] theorem exec_fneg (sc) (d) (a) (s : State) : exec (.fneg sc d a) s = execFneg sc d a s := rfl
@[simp] theorem exec_fcpys (sc) (d) (a) (b) (s : State) : exec (.fcpys sc d a b) s = execFcpys sc d a b s := rfl
@[simp] theorem exec_fclass (sc) (d) (a) (s : State) : exec (.fclass sc d a) s = execFclass sc d a s := rfl
@[simp] theorem exec_fcmp (sc) (d) (a) (b) (c) (s : State) : exec (.fcmp sc d a b c) s = execFcmp sc d a b c s := rfl
@[simp] theorem exec_cvt (sc) (d) (a) (t) (u) (r) (x) (s : State) : exec (.cvt sc d a t u r x) s = execCvt sc d a t u r x s := rfl
@[simp] theorem exec_hadd2 (d) (a) (b) (s : State) : exec (.hadd2 d a b) s = execHadd2 d a b s := rfl
@[simp] theorem exec_hsub2 (d) (a) (b) (s : State) : exec (.hsub2 d a b) s = execHsub2 d a b s := rfl
@[simp] theorem exec_hmul2 (d) (a) (b) (s : State) : exec (.hmul2 d a b) s = execHmul2 d a b s := rfl
@[simp] theorem exec_hfma2 (d) (a) (b) (s : State) : exec (.hfma2 d a b) s = execHfma2 d a b s := rfl
@[simp] theorem exec_hmin2 (d) (a) (b) (s : State) : exec (.hmin2 d a b) s = execHmin2 d a b s := rfl
@[simp] theorem exec_hmax2 (d) (a) (b) (s : State) : exec (.hmax2 d a b) s = execHmax2 d a b s := rfl
@[simp] theorem exec_badd2 (d) (a) (b) (s : State) : exec (.badd2 d a b) s = execBadd2 d a b s := rfl
@[simp] theorem exec_bmul2 (d) (a) (b) (s : State) : exec (.bmul2 d a b) s = execBmul2 d a b s := rfl
@[simp] theorem exec_bfma2 (d) (a) (b) (s : State) : exec (.bfma2 d a b) s = execBfma2 d a b s := rfl
@[simp] theorem exec_dadd (d) (a) (b) (s : State) : exec (.dadd d a b) s = execDadd d a b s := rfl
@[simp] theorem exec_dsub (d) (a) (b) (s : State) : exec (.dsub d a b) s = execDsub d a b s := rfl
@[simp] theorem exec_dmul (d) (a) (b) (s : State) : exec (.dmul d a b) s = execDmul d a b s := rfl
@[simp] theorem exec_dfma (d) (a) (b) (s : State) : exec (.dfma d a b) s = execDfma d a b s := rfl
@[simp] theorem exec_dmin (d) (a) (b) (s : State) : exec (.dmin d a b) s = execDmin d a b s := rfl
@[simp] theorem exec_dmax (d) (a) (b) (s : State) : exec (.dmax d a b) s = execDmax d a b s := rfl
@[simp] theorem exec_ex2 (d) (a) (s : State) : exec (.ex2 d a) s = execEx2 d a s := rfl
@[simp] theorem exec_lg2 (d) (a) (s : State) : exec (.lg2 d a) s = execLg2 d a s := rfl
@[simp] theorem exec_rcp (d) (a) (s : State) : exec (.rcp d a) s = execRcp d a s := rfl
@[simp] theorem exec_rsq (d) (a) (s : State) : exec (.rsq d a) s = execRsq d a s := rfl
@[simp] theorem exec_sqrt (d) (a) (s : State) : exec (.sqrt d a) s = execSqrt d a s := rfl
@[simp] theorem exec_sin (d) (a) (s : State) : exec (.sin d a) s = execSin d a s := rfl
@[simp] theorem exec_cos (d) (a) (s : State) : exec (.cos d a) s = execCos d a s := rfl
@[simp] theorem exec_tanh (d) (a) (s : State) : exec (.tanh d a) s = execTanh d a s := rfl
@[simp] theorem exec_ex2h (d) (a) (s : State) : exec (.ex2h d a) s = execEx2h d a s := rfl
@[simp] theorem exec_shfl (d) (a) (b) (s : State) : exec (.shfl d a b) s = execShfl d a b s := rfl
@[simp] theorem exec_shflx (d) (a) (b) (s : State) : exec (.shflx d a b) s = execShflx d a b s := rfl
@[simp] theorem exec_shflup (d) (a) (b) (s : State) : exec (.shflup d a b) s = execShflup d a b s := rfl
@[simp] theorem exec_shfldn (d) (a) (b) (s : State) : exec (.shfldn d a b) s = execShfldn d a b s := rfl
@[simp] theorem exec_bcast (d) (a) (b) (s : State) : exec (.bcast d a b) s = execBcast d a b s := rfl
@[simp] theorem exec_redadd (d) (a) (s : State) : exec (.redadd d a) s = execRedadd d a s := rfl
@[simp] theorem exec_redfadd (d) (a) (s : State) : exec (.redfadd d a) s = execRedfadd d a s := rfl
@[simp] theorem exec_redmin (d) (a) (s : State) : exec (.redmin d a) s = execRedmin d a s := rfl
@[simp] theorem exec_redmax (d) (a) (s : State) : exec (.redmax d a) s = execRedmax d a s := rfl
@[simp] theorem exec_redfmin (d) (a) (s : State) : exec (.redfmin d a) s = execRedfmin d a s := rfl
@[simp] theorem exec_redfmax (d) (a) (s : State) : exec (.redfmax d a) s = execRedfmax d a s := rfl
@[simp] theorem exec_redand (d) (a) (s : State) : exec (.redand d a) s = execRedand d a s := rfl
@[simp] theorem exec_redor (d) (a) (s : State) : exec (.redor d a) s = execRedor d a s := rfl
@[simp] theorem exec_scanadd (d) (a) (s : State) : exec (.scanadd d a) s = execScanadd d a s := rfl
@[simp] theorem exec_scanfadd (d) (a) (s : State) : exec (.scanfadd d a) s = execScanfadd d a s := rfl
@[simp] theorem exec_argmax (d) (a) (s : State) : exec (.argmax d a) s = execArgmax d a s := rfl
@[simp] theorem exec_argmin (d) (a) (s : State) : exec (.argmin d a) s = execArgmin d a s := rfl
@[simp] theorem exec_fargmax (d) (a) (s : State) : exec (.fargmax d a) s = execFargmax d a s := rfl
@[simp] theorem exec_fargmin (d) (a) (s : State) : exec (.fargmin d a) s = execFargmin d a s := rfl
@[simp] theorem exec_sort32 (d) (a) (s : State) : exec (.sort32 d a) s = execSort32 d a s := rfl
@[simp] theorem exec_topk (d) (a) (b) (s : State) : exec (.topk d a b) s = execTopk d a b s := rfl
@[simp] theorem exec_mergek (d) (a) (b) (s : State) : exec (.mergek d a b) s = execMergek d a b s := rfl
@[simp] theorem exec_dp4a (d) (a) (b) (s : State) : exec (.dp4a d a b) s = execDp4a d a b s := rfl
@[simp] theorem exec_dp4au (d) (a) (b) (s : State) : exec (.dp4au d a b) s = execDp4au d a b s := rfl
@[simp] theorem exec_dp2h (d) (a) (b) (s : State) : exec (.dp2h d a b) s = execDp2h d a b s := rfl
@[simp] theorem exec_dp4q (d) (a) (b) (s : State) : exec (.dp4q d a b) s = execDp4q d a b s := rfl
@[simp] theorem exec_dp4qe (d) (a) (b) (s : State) : exec (.dp4qe d a b) s = execDp4qe d a b s := rfl
@[simp] theorem exec_div (sc) (d) (a) (b) (l) (s : State) : exec (.div sc d a b l) s = execDiv sc d a b l s := rfl
@[simp] theorem exec_divu (sc) (d) (a) (b) (l) (s : State) : exec (.divu sc d a b l) s = execDivu sc d a b l s := rfl
@[simp] theorem exec_rem (sc) (d) (a) (b) (l) (s : State) : exec (.rem sc d a b l) s = execRem sc d a b l s := rfl
@[simp] theorem exec_remu (sc) (d) (a) (b) (l) (s : State) : exec (.remu sc d a b l) s = execRemu sc d a b l s := rfl
@[simp] theorem exec_ld (d) (a) (m) (o) (l) (s : State) : exec (.ld d a m o l) s = execLd d a m o l s := rfl
@[simp] theorem exec_ldx (d) (a) (m) (o) (l) (s : State) : exec (.ldx d a m o l) s = execLdx d a m o l s := rfl
@[simp] theorem exec_st (d) (a) (m) (o) (s : State) : exec (.st d a m o) s = execSt d a m o s := rfl
@[simp] theorem exec_stq (d) (a) (o) (s : State) : exec (.stq d a o) s = execStq d a o s := rfl
@[simp] theorem exec_lds (d) (a) (m) (o) (l) (s : State) : exec (.lds d a m o l) s = execLds d a m o l s := rfl
@[simp] theorem exec_sts (d) (a) (m) (o) (s : State) : exec (.sts d a m o) s = execSts d a m o s := rfl
@[simp] theorem exec_ldc (d) (a) (m) (o) (l) (s : State) : exec (.ldc d a m o l) s = execLdc d a m o l s := rfl
@[simp] theorem exec_lda (d) (a) (m) (c) (l) (s : State) : exec (.lda d a m c l) s = execLda d a m c l s := rfl
@[simp] theorem exec_stl (d) (a) (m) (c) (s : State) : exec (.stl d a m c) s = execStl d a m c s := rfl
@[simp] theorem exec_atom (sc) (d) (a) (m) (k) (l) (s : State) : exec (.atom sc d a m k l) s = execAtom sc d a m k l s := rfl
@[simp] theorem exec_atom64 (d) (a) (m) (k) (l) (s : State) : exec (.atom64 d a m k l) s = execAtom64 d a m k l s := rfl
@[simp] theorem exec_atoms (d) (a) (m) (k) (l) (s : State) : exec (.atoms d a m k l) s = execAtoms d a m k l s := rfl
@[simp] theorem exec_fence (sc) (c) (k) (s : State) : exec (.fence sc c k) s = execFence sc c k s := rfl
@[simp] theorem exec_ldt (d) (a) (m) (o) (l) (s : State) : exec (.ldt d a m o l) s = execLdt d a m o l s := rfl
@[simp] theorem exec_ldu (d) (a) (m) (o) (l) (s : State) : exec (.ldu d a m o l) s = execLdu d a m o l s := rfl
@[simp] theorem exec_stu (d) (a) (m) (o) (s : State) : exec (.stu d a m o) s = execStu d a m o s := rfl
@[simp] theorem exec_ldsu (d) (a) (m) (o) (l) (s : State) : exec (.ldsu d a m o l) s = execLdsu d a m o l s := rfl
@[simp] theorem exec_stsu (d) (a) (m) (o) (s : State) : exec (.stsu d a m o) s = execStsu d a m o s := rfl
@[simp] theorem exec_qmm (d) (a) (b) (l) (s : State) : exec (.qmm d a b l) s = execQmm d a b l s := rfl
@[simp] theorem exec_qmms (d) (a) (b) (l) (s : State) : exec (.qmms d a b l) s = execQmms d a b l s := rfl
@[simp] theorem exec_mvt (d) (a) (b) (l) (s : State) : exec (.mvt d a b l) s = execMvt d a b l s := rfl
@[simp] theorem exec_nmcall (d) (a) (b) (s : State) : exec (.nmcall d a b) s = execNmcall d a b s := rfl
@[simp] theorem exec_mread (d) (t) (s : State) : exec (.mread d t) s = execMread d t s := rfl
@[simp] theorem exec_mwrite (t) (a) (s : State) : exec (.mwrite t a) s = execMwrite t a s := rfl
@[simp] theorem exec_mzero (t) (s : State) : exec (.mzero t) s = execMzero t s := rfl
@[simp] theorem exec_br (m) (j) (s : State) : exec (.br m j) s = execBr m j s := rfl
@[simp] theorem exec_brn (m) (j) (s : State) : exec (.brn m j) s = execBrn m j s := rfl
@[simp] theorem exec_bra (j) (s : State) : exec (.bra j) s = execBra j s := rfl
@[simp] theorem exec_call (j) (s : State) : exec (.call j) s = execCall j s := rfl
@[simp] theorem exec_jmpr (a) (s : State) : exec (.jmpr a) s = execJmpr a s := rfl
@[simp] theorem exec_exit (s : State) : exec (.exit) s = execExit s := rfl
@[simp] theorem exec_yield (s : State) : exec (.yield) s = execYield s := rfl
@[simp] theorem exec_nop (s : State) : exec (.nop) s = execNop s := rfl
@[simp] theorem exec_bkpt (s : State) : exec (.bkpt) s = execBkpt s := rfl
@[simp] theorem exec_pred (m) (s : State) : exec (.pred m) s = execPred m s := rfl
@[simp] theorem exec_unpred (s : State) : exec (.unpred) s = execUnpred s := rfl
@[simp] theorem exec_setj (k) (s : State) : exec (.setj k) s = execSetj k s := rfl
@[simp] theorem exec_join (k) (s : State) : exec (.join k) s = execJoin k s := rfl
@[simp] theorem exec_jleave (k) (s : State) : exec (.jleave k) s = execJleave k s := rfl
@[simp] theorem exec_region (s : State) : exec (.region) s = execRegion s := rfl
@[simp] theorem exec_trap (n) (s : State) : exec (.trap n) s = execTrap n s := rfl
@[simp] theorem exec_hret (s : State) : exec (.hret) s = execHret s := rfl
@[simp] theorem exec_wbase (n) (s : State) : exec (.wbase n) s = execWbase n s := rfl
@[simp] theorem exec_wbaseRel (r) (s : State) : exec (.wbaseRel r) s = execWbaseRel r s := rfl
@[simp] theorem exec_srd (sc) (d) (x) (s : State) : exec (.srd sc d x) s = execSrd sc d x s := rfl
@[simp] theorem exec_swr (sc) (a) (x) (s : State) : exec (.swr sc a x) s = execSwr sc a x s := rfl
@[simp] theorem exec_ext (sc) (imm) (next) (s : State) : exec (.ext sc imm next) s = execExt sc imm next s := rfl
@[simp] theorem exec_copy (d) (a) (b) (l) (s : State) : exec (.copy d a b l) s = execCopy d a b l s := rfl
@[simp] theorem exec_copyout (a) (b) (s : State) : exec (.copyout a b) s = execCopyout a b s := rfl
@[simp] theorem exec_tmm (d) (a) (b) (l) (s : State) : exec (.tmm d a b l) s = execTmm d a b l s := rfl
@[simp] theorem exec_nmsearch (a) (b) (s : State) : exec (.nmsearch a b) s = execNmsearch a b s := rfl
@[simp] theorem exec_nmcommit (d) (a) (b) (l) (s : State) : exec (.nmcommit d a b l) s = execNmcommit d a b l s := rfl
@[simp] theorem exec_collfire (a) (b) (s : State) : exec (.collfire a b) s = execCollfire a b s := rfl
@[simp] theorem exec_binit (d) (a) (b) (s : State) : exec (.binit d a b) s = execBinit d a b s := rfl
@[simp] theorem exec_barrive (d) (a) (b) (s : State) : exec (.barrive d a b) s = execBarrive d a b s := rfl
@[simp] theorem exec_barriven (d) (a) (b) (s : State) : exec (.barriven d a b) s = execBarriven d a b s := rfl
@[simp] theorem exec_btest (d) (a) (e) (s : State) : exec (.btest d a e) s = execBtest d a e s := rfl
@[simp] theorem exec_waitb (d) (a) (b) (s : State) : exec (.waitb d a b) s = execWaitb d a b s := rfl
@[simp] theorem exec_tstate (d) (a) (s : State) : exec (.tstate d a) s = execTstate d a s := rfl
@[simp] theorem exec_trel (a) (s : State) : exec (.trel a) s = execTrel a s := rfl
@[simp] theorem exec_twait (a) (s : State) : exec (.twait a) s = execTwait a s := rfl
@[simp] theorem exec_tclaim (a) (b) (s : State) : exec (.tclaim a b) s = execTclaim a b s := rfl
@[simp] theorem exec_qinit (a) (b) (s : State) : exec (.qinit a b) s = execQinit a b s := rfl
@[simp] theorem exec_qpush (d) (a) (e) (s : State) : exec (.qpush d a e) s = execQpush d a e s := rfl
@[simp] theorem exec_qpop (d) (a) (e) (s : State) : exec (.qpop d a e) s = execQpop d a e s := rfl
@[simp] theorem exec_qcount (d) (a) (s : State) : exec (.qcount d a) s = execQcount d a s := rfl
@[simp] theorem exec_mtokTake (s : State) : exec (.mtokTake) s = execMtokTake s := rfl
@[simp] theorem exec_mtokPass (s : State) : exec (.mtokPass) s = execMtokPass s := rfl
@[simp] theorem exec_mtokTest (d) (s : State) : exec (.mtokTest d) s = execMtokTest d s := rfl
@[simp] theorem exec_mdrain (a) (s : State) : exec (.mdrain a) s = execMdrain a s := rfl
@[simp] theorem exec_mfill (a) (s : State) : exec (.mfill a) s = execMfill a s := rfl
@[simp] theorem exec_tnext (d) (s : State) : exec (.tnext d) s = execTnext d s := rfl
@[simp] theorem exec_tdone (s : State) : exec (.tdone) s = execTdone s := rfl
@[simp] theorem exec_tgrain (d) (s : State) : exec (.tgrain d) s = execTgrain d s := rfl
@[simp] theorem exec_bexit (s : State) : exec (.bexit) s = execBexit s := rfl
@[simp] theorem exec_jspill (k) (a) (s : State) : exec (.jspill k a) s = execJspill k a s := rfl
@[simp] theorem exec_jfill (k) (a) (s : State) : exec (.jfill k a) s = execJfill k a s := rfl
@[simp] theorem exec_yieldG (s : State) : exec (.yieldG) s = execYieldG s := rfl
@[simp] theorem exec_bankcfg (d) (a) (b) (s : State) : exec (.bankcfg d a b) s = execBankcfg d a b s := rfl
@[simp] theorem exec_ldb (d) (a) (m) (o) (s : State) : exec (.ldb d a m o) s = execLdb d a m o s := rfl
@[simp] theorem exec_stb (d) (a) (m) (o) (s : State) : exec (.stb d a m o) s = execStb d a m o s := rfl
@[simp] theorem exec_dist (d) (a) (b) (c) (s : State) : exec (.dist d a b c) s = execDist d a b c s := rfl
@[simp] theorem exec_hpush (h) (k) (imm) (s : State) : exec (.hpush h k imm) s = execHpush h k imm s := rfl
@[simp] theorem exec_hpop (d) (h) (s : State) : exec (.hpop d h) s = execHpop d h s := rfl
@[simp] theorem exec_htop (d) (h) (r) (s : State) : exec (.htop d h r) s = execHtop d h r s := rfl
@[simp] theorem exec_hchain (d) (n) (s : State) : exec (.hchain d n) s = execHchain d n s := rfl
@[simp] theorem exec_msgSend (h) (a) (s : State) : exec (.msgSend h a) s = execMsgSend h a s := rfl
@[simp] theorem exec_msgRecv (h) (a) (s : State) : exec (.msgRecv h a) s = execMsgRecv h a s := rfl
@[simp] theorem exec_whop (a) (e) (s : State) : exec (.whop a e) s = execWhop a e s := rfl
@[simp] theorem exec_wspawn (a) (e) (s : State) : exec (.wspawn a e) s = execWspawn a e s := rfl
@[simp] theorem exec_wend (s : State) : exec (.wend) s = execWend s := rfl
@[simp] theorem exec_nmret (a) (t) (s : State) : exec (.nmret a t) s = execNmret a t s := rfl
@[simp] theorem exec_nearQpush (d) (q) (e) (s : State) : exec (.nearQpush d q e) s = execNearQpush d q e s := rfl
@[simp] theorem exec_nearQpop (d) (q) (e) (s : State) : exec (.nearQpop d q e) s = execNearQpop d q e s := rfl
@[simp] theorem exec_instructionCompletion (bed) (sheaf) (op) (s : State) : exec (.instructionCompletion bed sheaf op) s = execInstructionCompletion bed sheaf op s := rfl
@[simp] theorem exec_attemptReplay (core) (slot) (s : State) : exec (.attemptReplay core slot) s = execAttemptReplay core slot s := rfl
@[simp] theorem exec_lateTransition (core) (slot) (path) (s : State) : exec (.lateTransition core slot path) s = execLateTransition core slot path s := rfl
@[simp] theorem exec_commitGatePass (core) (s : State) : exec (.commitGatePass core) s = execCommitGatePass core s := rfl
@[simp] theorem exec_takeTrap (bed) (sheaf) (cause) (pc) (tmask) (detail) (s : State) : exec (.takeTrap bed sheaf cause pc tmask detail) s = execTakeTrap bed sheaf cause pc tmask detail s := rfl
@[simp] theorem exec_watchdogTrap (bed) (sheaf) (s : State) : exec (.watchdogTrap bed sheaf) s = execWatchdogTrap bed sheaf s := rfl
@[simp] theorem exec_nmcallReply (batch) (call) (s : State) : exec (.nmcallReply batch call) s = execNmcallReply batch call s := rfl
@[simp] theorem exec_barrierWake (bed) (sheaf) (s : State) : exec (.barrierWake bed sheaf) s = execBarrierWake bed sheaf s := rfl
@[simp] theorem exec_tileWake (bed) (sheaf) (s : State) : exec (.tileWake bed sheaf) s = execTileWake bed sheaf s := rfl
@[simp] theorem exec_queueWake (plot) (addr) (s : State) : exec (.queueWake plot addr) s = execQueueWake plot addr s := rfl
@[simp] theorem exec_splitGrant (bed) (s : State) : exec (.splitGrant bed) s = execSplitGrant bed s := rfl
@[simp] theorem exec_pageFault (bed) (sheaf) (entry) (s : State) : exec (.pageFault bed sheaf entry) s = execPageFault bed sheaf entry s := rfl
@[simp] theorem exec_fetchPageFault (bed) (sheaf) (va) (s : State) : exec (.fetchPageFault bed sheaf va) s = execFetchPageFault bed sheaf va s := rfl
@[simp] theorem exec_protectionViolation (bed) (sheaf) (entry) (s : State) : exec (.protectionViolation bed sheaf entry) s = execProtectionViolation bed sheaf entry s := rfl
@[simp] theorem exec_resumeRetry (fn) (token) (s : State) : exec (.resumeRetry fn token) s = execResumeRetry fn token s := rfl
@[simp] theorem exec_resumeFail (fn) (token) (s : State) : exec (.resumeFail fn token) s = execResumeFail fn token s := rfl
@[simp] theorem exec_snapshotCopy (asid) (va) (s : State) : exec (.snapshotCopy asid va) s = execSnapshotCopy asid va s := rfl
@[simp] theorem exec_registerLineFill (bed) (sheaf) (reg) (s : State) : exec (.registerLineFill bed sheaf reg) s = execRegisterLineFill bed sheaf reg s := rfl
@[simp] theorem exec_lineDrowsy (bed) (sheaf) (reg) (s : State) : exec (.lineDrowsy bed sheaf reg) s = execLineDrowsy bed sheaf reg s := rfl
@[simp] theorem exec_lineWake (bed) (sheaf) (reg) (s : State) : exec (.lineWake bed sheaf reg) s = execLineWake bed sheaf reg s := rfl
@[simp] theorem exec_copyCompletion (copy) (s : State) : exec (.copyCompletion copy) s = execCopyCompletion copy s := rfl
@[simp] theorem exec_copyTransferFailure (copy) (hostError) (s : State) : exec (.copyTransferFailure copy hostError) s = execCopyTransferFailure copy hostError s := rfl
@[simp] theorem exec_copyPageFault (copy) (s : State) : exec (.copyPageFault copy) s = execCopyPageFault copy s := rfl
@[simp] theorem exec_tmmKStep (core) (s : State) : exec (.tmmKStep core) s = execTmmKStep core s := rfl
@[simp] theorem exec_tmmCompletion (core) (s : State) : exec (.tmmCompletion core) s = execTmmCompletion core s := rfl
@[simp] theorem exec_bankSwitchCompletion (bed) (sheaf) (op) (bank) (mode) (s : State) : exec (.bankSwitchCompletion bed sheaf op bank mode) s = execBankSwitchCompletion bed sheaf op bank mode s := rfl
@[simp] theorem exec_barrierArrival (asid) (plot) (ref) (count) (status) (s : State) : exec (.barrierArrival asid plot ref count status) s = execBarrierArrival asid plot ref count status s := rfl
@[simp] theorem exec_bedExit (bed) (s : State) : exec (.bedExit bed) s = execBedExit bed s := rfl
@[simp] theorem exec_waveStart (bed) (s : State) : exec (.waveStart bed) s = execWaveStart bed s := rfl
@[simp] theorem exec_preemption (bed) (s : State) : exec (.preemption bed) s = execPreemption bed s := rfl
@[simp] theorem exec_bedResume (bed) (s : State) : exec (.bedResume bed) s = execBedResume bed s := rfl
@[simp] theorem exec_launchKill (launch) (cause) (s : State) : exec (.launchKill launch cause) s = execLaunchKill launch cause s := rfl
@[simp] theorem exec_launchReplay (launch) (s : State) : exec (.launchReplay launch) s = execLaunchReplay launch s := rfl
@[simp] theorem exec_doorbell (fn) (q) (tail) (s : State) : exec (.doorbell fn q tail) s = execDoorbell fn q tail s := rfl
@[simp] theorem exec_qcmdEnable (fn) (q) (s : State) : exec (.qcmdEnable fn q) s = execQcmdEnable fn q s := rfl
@[simp] theorem exec_qcmdDisable (fn) (q) (s : State) : exec (.qcmdDisable fn q) s = execQcmdDisable fn q s := rfl
@[simp] theorem exec_arbiterPick (s : State) : exec (.arbiterPick) s = execArbiterPick s := rfl
@[simp] theorem exec_dependenceSatisfied (launch) (s : State) : exec (.dependenceSatisfied launch) s = execDependenceSatisfied launch s := rfl
@[simp] theorem exec_bedPlacement (launch) (s : State) : exec (.bedPlacement launch) s = execBedPlacement launch s := rfl
@[simp] theorem exec_launchCompletion (launch) (s : State) : exec (.launchCompletion launch) s = execLaunchCompletion launch s := rfl
@[simp] theorem exec_inval (asid) (va) (pages) (s : State) : exec (.inval asid va pages) s = execInval asid va pages s := rfl
@[simp] theorem exec_bar4Access (fn) (off) (size) (wdata) (s : State) : exec (.bar4Access fn off size wdata) s = execBar4Access fn off size wdata s := rfl
@[simp] theorem exec_registerWrite (fn) (off) (value) (s : State) : exec (.registerWrite fn off value) s = execRegisterWrite fn off value s := rfl
@[simp] theorem exec_arbpolWrite (value) (s : State) : exec (.arbpolWrite value) s = execArbpolWrite value s := rfl
@[simp] theorem exec_debugFlush (bed) (sheaf) (reg) (s : State) : exec (.debugFlush bed sheaf reg) s = execDebugFlush bed sheaf reg s := rfl
@[simp] theorem exec_debuggerRelease (bed) (sheaf) (s : State) : exec (.debuggerRelease bed sheaf) s = execDebuggerRelease bed sheaf s := rfl
@[simp] theorem exec_windowBoundary (core) (s : State) : exec (.windowBoundary core) s = execWindowBoundary core s := rfl
@[simp] theorem exec_automaticRaise (core) (s : State) : exec (.automaticRaise core) s = execAutomaticRaise core s := rfl
@[simp] theorem exec_quarantine (core) (why) (s : State) : exec (.quarantine core why) s = execQuarantine core why s := rfl
@[simp] theorem exec_quarantineCommand (core) (s : State) : exec (.quarantineCommand core) s = execQuarantineCommand core s := rfl
@[simp] theorem exec_release (core) (s : State) : exec (.release core) s = execRelease core s := rfl
@[simp] theorem exec_marginProfile (core) (code) (s : State) : exec (.marginProfile core code) s = execMarginProfile core code s := rfl
@[simp] theorem exec_powerBudget (matrix) (near) (links) (s : State) : exec (.powerBudget matrix near links) s = execPowerBudget matrix near links s := rfl
@[simp] theorem exec_lremapWrite (core) (slot) (value) (s : State) : exec (.lremapWrite core slot value) s = execLremapWrite core slot value s := rfl
@[simp] theorem exec_pdtestWrite (port) (value) (s : State) : exec (.pdtestWrite port value) s = execPdtestWrite port value s := rfl
@[simp] theorem exec_imageLoad (image) (s : State) : exec (.imageLoad image) s = execImageLoad image s := rfl
@[simp] theorem exec_svnMinimumRaise (kind) (s : State) : exec (.svnMinimumRaise kind) s = execSvnMinimumRaise kind s := rfl
@[simp] theorem exec_attestation (nonce) (s : State) : exec (.attestation nonce) s = execAttestation nonce s := rfl
@[simp] theorem exec_amsanKeyInstall (port) (out) (key) (salt) (s : State) : exec (.amsanKeyInstall port out key salt) s = execAmsanKeyInstall port out key salt s := rfl
@[simp] theorem exec_amsanFrame (port) (frame) (s : State) : exec (.amsanFrame port frame) s = execAmsanFrame port frame s := rfl
@[simp] theorem exec_peerGroupRegistration (handle) (ranks) (ports) (mcast) (inSwitch) (endToEnd) (s : State) : exec (.peerGroupRegistration handle ranks ports mcast inSwitch endToEnd) s = execPeerGroupRegistration handle ranks ports mcast inSwitch endToEnd s := rfl
@[simp] theorem exec_indexRegistration (asid) (va) (s : State) : exec (.indexRegistration asid va) s = execIndexRegistration asid va s := rfl
@[simp] theorem exec_searchRegistration (qid) (s : State) : exec (.searchRegistration qid) s = execSearchRegistration qid s := rfl
@[simp] theorem exec_searchSetup (qid) (s : State) : exec (.searchSetup qid) s = execSearchSetup qid s := rfl
@[simp] theorem exec_spawn (engine) (s : State) : exec (.spawn engine) s = execSpawn engine s := rfl
@[simp] theorem exec_walker (engine) (s : State) : exec (.walker engine) s = execWalker engine s := rfl
@[simp] theorem exec_cands (engine) (s : State) : exec (.cands engine) s = execCands engine s := rfl
@[simp] theorem exec_popreq (engine) (s : State) : exec (.popreq engine) s = execPopreq engine s := rfl
@[simp] theorem exec_poprep (engine) (s : State) : exec (.poprep engine) s = execPoprep engine s := rfl
@[simp] theorem exec_dreq (engine) (s : State) : exec (.dreq engine) s = execDreq engine s := rfl
@[simp] theorem exec_endw (engine) (s : State) : exec (.endw engine) s = execEndw engine s := rfl
@[simp] theorem exec_versionCommit (bed) (sheaf) (op) (handle) (expected) (s : State) : exec (.versionCommit bed sheaf op handle expected) s = execVersionCommit bed sheaf op handle expected s := rfl
@[simp] theorem exec_queueDeadlockFault (engine) (ctx) (s : State) : exec (.queueDeadlockFault engine ctx) s = execQueueDeadlockFault engine ctx s := rfl
@[simp] theorem exec_engineFault (engine) (ctx) (code) (s : State) : exec (.engineFault engine ctx code) s = execEngineFault engine ctx code s := rfl
@[simp] theorem exec_collectiveFire (launch) (binding) (index) (bed) (sheaf) (s : State) : exec (.collectiveFire launch binding index bed sheaf) s = execCollectiveFire launch binding index bed sheaf s := rfl
@[simp] theorem exec_stepStart (coll) (s : State) : exec (.stepStart coll) s = execStepStart coll s := rfl
@[simp] theorem exec_packetForming (coll) (s : State) : exec (.packetForming coll) s = execPacketForming coll s := rfl
@[simp] theorem exec_data (pkt) (s : State) : exec (.data pkt) s = execData pkt s := rfl
@[simp] theorem exec_coded (pkt) (port) (s : State) : exec (.coded pkt port) s = execCoded pkt port s := rfl
@[simp] theorem exec_ack (pkt) (s : State) : exec (.ack pkt) s = execAck pkt s := rfl
@[simp] theorem exec_nack (pkt) (s : State) : exec (.nack pkt) s = execNack pkt s := rfl
@[simp] theorem exec_stepTimeout (coll) (s : State) : exec (.stepTimeout coll) s = execStepTimeout coll s := rfl
@[simp] theorem exec_dieReset (die) (s : State) : exec (.dieReset die) s = execDieReset die s := rfl
@[simp] theorem exec_packageReset (s : State) : exec (.packageReset) s = execPackageReset s := rfl
@[simp] theorem exec_powerOn (rom) (s : State) : exec (.powerOn rom) s = execPowerOn rom s := rfl
@[simp] theorem exec_nmcallBatch (batch) (s : State) : exec (.nmcallBatch batch) s = execNmcallBatch batch s := rfl
@[simp] theorem exec_regulatorSettled (core) (s : State) : exec (.regulatorSettled core) s = execRegulatorSettled core s := rfl
@[simp] theorem exec_managementRestart (s : State) : exec (.managementRestart) s = execManagementRestart s := rfl
@[simp] theorem exec_powerOff (s : State) : exec (.powerOff) s = execPowerOff s := rfl
@[simp] theorem exec_damagedFlit (pkt) (s : State) : exec (.damagedFlit pkt) s = execDamagedFlit pkt s := rfl
@[simp] theorem exec_planeBudgetReached (plane) (reached) (s : State) : exec (.planeBudgetReached plane reached) s = execPlaneBudgetReached plane reached s := rfl
@[simp] theorem exec_readAndClear (core) (index) (s : State) : exec (.readAndClear core index) s = execReadAndClear core index s := rfl

end Sys2Proof.Machine
end

