-- ==== Sys2Proof/Laws/Sparse.lean ====
section
/-! SUPPORT. Laws of sparse data: what a read gives after a write, and that every operation keeps the canonical form. -/

namespace Sys2Proof.Machine

variable {α : Type}

@[simp] theorem mget_nil (k : Nat) (d : α) : mget ([] : Map α) k d = d := rfl

@[simp] theorem mfind_nil (k : Nat) : mfind ([] : Map α) k = none := rfl

theorem mget_mset (m : Map α) (k j : Nat) (v d : α) : mget (mset m k v) j d = if j = k then v else mget m j d := by
  induction m with
  | nil => simp [mset, mget, eq_comm]
  | cons x r ih =>
    obtain ⟨i, w⟩ := x
    simp only [mset]
    split
    · simp [mget, eq_comm]
    · split
      · subst_vars; by_cases h : j = i <;> simp [mget, h, eq_comm]
      · simp only [mget, ih]
        by_cases h : i = j
        · subst h; simp [*]
        · simp [h]

@[simp] theorem mget_mset_self (m : Map α) (k : Nat) (v d : α) : mget (mset m k v) k d = v := by simp [mget_mset]

theorem mget_mset_ne (m : Map α) {k j : Nat} (v d : α) (h : j ≠ k) : mget (mset m k v) j d = mget m j d := by
  simp [mget_mset, h]

theorem mfind_mset (m : Map α) (k j : Nat) (v : α) : mfind (mset m k v) j = if j = k then some v else mfind m j := by
  induction m with
  | nil => simp [mset, mfind, eq_comm]
  | cons x r ih =>
    obtain ⟨i, w⟩ := x
    simp only [mset]
    split
    · simp [mfind, eq_comm]
    · split
      · subst_vars; by_cases h : j = i <;> simp [mfind, h, eq_comm]
      · simp only [mfind, ih]
        by_cases h : i = j
        · subst h; simp [*]
        · simp [h]

@[simp] theorem mfind_mset_self (m : Map α) (k : Nat) (v : α) : mfind (mset m k v) k = some v := by simp [mfind_mset]

theorem mfind_mset_ne (m : Map α) {k j : Nat} (v : α) (h : j ≠ k) : mfind (mset m k v) j = mfind m j := by
  simp [mfind_mset, h]

theorem mget_mdel (m : Map α) (k j : Nat) (d : α) : mget (mdel m k) j d = if j = k then d else mget m j d := by
  induction m with
  | nil => simp [mdel, mget]
  | cons x r ih =>
    obtain ⟨i, w⟩ := x
    simp only [mdel]
    split
    · subst_vars
      rw [ih]
      by_cases h : j = i
      · simp [h]
      · simp [h, mget, Ne.symm h]
    · simp only [mget, ih]
      by_cases h : i = j
      · subst h; simp [*]
      · simp [h]

theorem mfind_mdel (m : Map α) (k j : Nat) : mfind (mdel m k) j = if j = k then none else mfind m j := by
  induction m with
  | nil => simp [mdel, mfind]
  | cons x r ih =>
    obtain ⟨i, w⟩ := x
    simp only [mdel]
    split
    · subst_vars
      rw [ih]
      by_cases h : j = i
      · simp [h]
      · simp [h, mfind, Ne.symm h]
    · simp only [mfind, ih]
      by_cases h : i = j
      · subst h; simp [*]
      · simp [h]

theorem mget_mput [DecidableEq α] (m : Map α) (k j : Nat) (v d : α) :
    mget (mput m k v d) j d = if j = k then v else mget m j d := by
  unfold mput
  split
  · subst_vars; rw [mget_mdel]
  · rw [mget_mset]

@[simp] theorem mget_mput_self [DecidableEq α] (m : Map α) (k : Nat) (v d : α) : mget (mput m k v d) k d = v := by
  simp [mget_mput]

theorem mget_mput_ne [DecidableEq α] (m : Map α) {k j : Nat} (v d : α) (h : j ≠ k) :
    mget (mput m k v d) j d = mget m j d := by simp [mget_mput, h]

/-! ## The canonical form -/

/-- Every key of a map exceeds a bound. -/
def keysAbove (b : Nat) (m : Map α) : Prop := ∀ x ∈ m, b < x.1

theorem msorted_cons (i : Nat) (w : α) (r : Map α) : msorted ((i, w) :: r) = true ↔ keysAbove i r ∧ msorted r = true := by
  induction r generalizing i w with
  | nil => simp [msorted, keysAbove]
  | cons y r ih =>
    obtain ⟨j, v⟩ := y
    rw [show msorted ((i, w) :: (j, v) :: r) = (decide (i < j) && msorted ((j, v) :: r)) from rfl]
    simp only [Bool.and_eq_true, decide_eq_true_eq]
    constructor
    · rintro ⟨hij, h⟩
      refine ⟨?_, h⟩
      have := ((ih j v).1 h).1
      intro x hx
      rcases List.mem_cons.1 hx with rfl | hx
      · exact hij
      · exact lt_trans hij (this x hx)
    · rintro ⟨h, h'⟩
      exact ⟨h (j, v) (by simp), h'⟩

theorem keysAbove_mset {b : Nat} {m : Map α} {k : Nat} {v : α} (h : keysAbove b m) (hk : b < k) : keysAbove b (mset m k v) := by
  induction m with
  | nil => intro x hx; simp [mset] at hx; subst hx; exact hk
  | cons y r ih =>
    obtain ⟨i, w⟩ := y
    have hi : b < i := h (i, w) (by simp)
    have hr : keysAbove b r := fun x hx => h x (List.mem_cons_of_mem _ hx)
    simp only [mset]
    split
    · intro x hx
      rcases List.mem_cons.1 hx with rfl | hx
      · exact hk
      · exact h x hx
    · split
      · intro x hx
        rcases List.mem_cons.1 hx with rfl | hx
        · exact hk
        · exact hr x hx
      · intro x hx
        rcases List.mem_cons.1 hx with rfl | hx
        · exact hi
        · exact ih hr x hx

theorem keysAbove_mdel {b : Nat} {m : Map α} {k : Nat} (h : keysAbove b m) : keysAbove b (mdel m k) := by
  induction m with
  | nil => exact h
  | cons y r ih =>
    obtain ⟨i, w⟩ := y
    have hr : keysAbove b r := fun x hx => h x (List.mem_cons_of_mem _ hx)
    simp only [mdel]
    split
    · exact ih hr
    · intro x hx
      rcases List.mem_cons.1 hx with rfl | hx
      · exact h _ (by simp)
      · exact ih hr x hx

theorem msorted_mset {m : Map α} (h : msorted m = true) (k : Nat) (v : α) : msorted (mset m k v) = true := by
  induction m with
  | nil => rfl
  | cons y r ih =>
    obtain ⟨i, w⟩ := y
    have hh := (msorted_cons i w r).1 h
    simp only [mset]
    split
    · refine (msorted_cons _ _ _).2 ⟨?_, h⟩
      intro x hx
      rcases List.mem_cons.1 hx with rfl | hx
      · assumption
      · exact lt_trans ‹k < i› (hh.1 x hx)
    · split
      · subst_vars; exact (msorted_cons _ _ _).2 hh
      · exact (msorted_cons _ _ _).2 ⟨keysAbove_mset hh.1 (by omega), ih hh.2⟩

theorem msorted_mdel {m : Map α} (h : msorted m = true) (k : Nat) : msorted (mdel m k) = true := by
  induction m with
  | nil => rfl
  | cons y r ih =>
    obtain ⟨i, w⟩ := y
    have hh := (msorted_cons i w r).1 h
    simp only [mdel]
    split
    · exact ih hh.2
    · exact (msorted_cons _ _ _).2 ⟨keysAbove_mdel hh.1, ih hh.2⟩

theorem mem_mset {m : Map α} {k : Nat} {v : α} {x : Nat × α} (h : x ∈ mset m k v) : x = (k, v) ∨ x ∈ m := by
  induction m with
  | nil => simpa [mset] using h
  | cons y r ih =>
    obtain ⟨i, w⟩ := y
    simp only [mset] at h
    split at h
    · simpa using h
    · split at h
      · rcases List.mem_cons.1 h with h | h
        · exact .inl h
        · exact .inr (List.mem_cons_of_mem _ h)
      · rcases List.mem_cons.1 h with h | h
        · exact .inr (by simp [h])
        · rcases ih h with h | h
          · exact .inl h
          · exact .inr (List.mem_cons_of_mem _ h)

theorem mem_mdel {m : Map α} {k : Nat} {x : Nat × α} (h : x ∈ mdel m k) : x ∈ m := by
  induction m with
  | nil => exact h
  | cons y r ih =>
    obtain ⟨i, w⟩ := y
    simp only [mdel] at h
    split at h
    · exact List.mem_cons_of_mem _ (ih h)
    · rcases List.mem_cons.1 h with h | h
      · simp [h]
      · exact List.mem_cons_of_mem _ (ih h)

/-- A write keeps the canonical form. -/
theorem mcanon_mput [DecidableEq α] {m : Map α} {d : α} (h : mcanon d m = true) (k : Nat) (v : α) :
    mcanon d (mput m k v d) = true := by
  simp only [mcanon, Bool.and_eq_true, List.all_eq_true, decide_eq_true_eq] at h ⊢
  unfold mput
  split
  · exact ⟨msorted_mdel h.1 k, fun x hx => h.2 x (mem_mdel hx)⟩
  · refine ⟨msorted_mset h.1 k v, fun x hx => ?_⟩
    rcases mem_mset hx with rfl | hx
    · assumption
    · exact h.2 x hx

/-- A byte written keeps memory canonical. -/
theorem setByte_wf {m : List Host.Cell} (h : Memory.wf m) (a : Nat) (x : Byte) : Memory.wf (setByte m a x) := mcanon_mput h a x

/-- A byte reads as written, and every other byte as before. -/
theorem memByte_setByte (m : List Host.Cell) (a b : Nat) (x : Byte) :
    memByte (setByte m a x) b = if b = a then x else memByte m b := mget_mput m a b x 0#8

/-- A word written keeps memory canonical. -/
theorem setWord_wf {m : List Host.Cell} (h : Memory.wf m) (w : Nat) (x : Word) : Memory.wf (setWord m w x) := by
  unfold setWord
  exact setByte_wf (setByte_wf (setByte_wf (setByte_wf h _ _) _ _) _ _) _ _

end Sys2Proof.Machine
end

