-- ==== Sys2Proof/Laws/Regs.lean ====
section
/-! SUPPORT. Laws of masks, of the lane and group registers (what a read gives after a write) and of the records that hold a sheaf. -/

namespace Sys2Proof.Machine

/-! ## Lists and masks -/

theorem mem_lanes (i : Nat) : i ∈ lanes ↔ i < 32 := by
  constructor
  · intro h; fin_cases h <;> decide
  · intro h; interval_cases i <;> decide

theorem lget_map {α β : Type} (f : α → β) (l : List α) (i : Nat) (d : β) (d' : α) (h : i < l.length) :
    lget (l.map f) i d = f (lget l i d') := by
  induction l generalizing i with
  | nil => simp at h
  | cons a r ih =>
    cases i with
    | zero => rfl
    | succ n => simpa [lget] using ih n (by simpa using h)

theorem lget_lanes {i : Nat} (h : i < 32) (d : Nat) : lget lanes i d = i := by interval_cases i <;> rfl

@[simp] theorem lget_lanes_map {β : Type} (f : Nat → β) {i : Nat} (h : i < 32) (d : β) : lget (lanes.map f) i d = f i := by
  rw [lget_map f lanes i d 0 (by simpa [lanes] using h), lget_lanes h]

theorem length_lanes : lanes.length = 32 := rfl

theorem lget_lset {α : Type} (l : List α) (i j : Nat) (v d : α) (h : i < l.length) :
    lget (lset l i v) j d = if j = i then v else lget l j d := by
  induction l generalizing i j with
  | nil => simp at h
  | cons a r ih =>
    cases i with
    | zero => cases j <;> simp [lset, lget]
    | succ n =>
      cases j with
      | zero => simp [lset, lget]
      | succ m => simpa [lset, lget] using ih n m (by simpa using h)

theorem getLsbD_one_shift {i j : Nat} (hj : j < 32) : (1#32 <<< i).getLsbD j = decide (i = j) := by
  simp only [BitVec.getLsbD_shiftLeft, BitVec.getLsbD_one]
  by_cases h : i = j
  · subst h; simp [hj]
  · by_cases h2 : j < i
    · simp [h2, h]
    · have : j - i ≠ 0 := by omega
      simp [h, hj, this]

theorem bit_foldl (p : Nat → Bool) (l : List Nat) (acc : Mask) {i : Nat} (hi : i < 32) :
    bit (l.foldl (fun m i => if p i then m ||| (1#32 <<< i) else m) acc) i = (bit acc i || (decide (i ∈ l) && p i)) := by
  induction l generalizing acc with
  | nil => simp
  | cons a r ih =>
    rw [List.foldl_cons, ih]
    by_cases hp : p a = true
    · simp only [hp, if_true]
      simp only [bit, BitVec.getLsbD_or, getLsbD_one_shift hi]
      by_cases ha : a = i
      · subst ha; simp [hp]
      · simp [ha, Ne.symm ha]
    · simp only [hp]
      by_cases ha : a = i
      · subst ha; simp [hp]
      · simp [Ne.symm ha]

/-- A mask made from a test has the bits that pass it. -/
@[simp] theorem bit_maskOf (p : Nat → Bool) {i : Nat} (hi : i < 32) : bit (maskOf p) i = p i := by
  have h := bit_foldl p lanes 0#32 hi
  have hz : bit (0#32) i = false := by simp [bit]
  rw [hz] at h
  simpa [maskOf, (mem_lanes i).2 hi] using h

@[simp] theorem bit_or (a b : Mask) (i : Nat) : bit (a ||| b) i = (bit a i || bit b i) := by simp [bit]

@[simp] theorem bit_and (a b : Mask) (i : Nat) : bit (a &&& b) i = (bit a i && bit b i) := by simp [bit]

theorem bit_not (a : Mask) {i : Nat} (hi : i < 32) : bit (~~~a) i = !bit a i := by simp [bit, hi]

@[simp] theorem bit_zero (i : Nat) : bit 0#32 i = false := by simp [bit]

theorem bit_full {i : Nat} (hi : i < 32) : bit Mask.full i = true := by
  interval_cases i <;> rfl

/-- Two masks with the same bits are equal. -/
theorem mask_ext {a b : Mask} (h : ∀ i, i < 32 → bit a i = bit b i) : a = b :=
  BitVec.eq_of_getLsbD_eq (fun i hi => h i hi)

theorem lowest_some {m : Mask} {l : Nat} (h : lowest m = some l) : l < 32 ∧ bit m l = true := by
  unfold lowest at h
  have h1 := List.mem_of_find?_eq_some h
  have h2 := List.find?_some h
  exact ⟨(mem_lanes l).1 h1, by simpa using h2⟩

theorem lowest_full : lowest Mask.full = some 0 := by decide

/-! ## Lane registers -/

theorem formLane_formVals (f : Form) {i : Nat} (hi : i < 32) : lget (formVals f) i 0#32 = formLane f i := by
  simp [formVals, hi]

theorem formLane_setLane (r : VReg) (i j : Nat) (x : Word) (q : Bool) (hi : i < 32) (hj : j < 32) :
    formLane (setLane r i x q).form j = if j = i then x else formLane r.form j := by
  have hl : (formVals r.form).length = 32 := by simp [formVals, length_lanes]
  simp only [setLane, formLane]
  rw [lget_lset _ _ _ _ _ (by omega)]
  by_cases h : j = i
  · simp [h]
  · rw [if_neg h, if_neg h]; exact formLane_formVals r.form hj

theorem poison_setLane (r : VReg) (i j : Nat) (x : Word) (q : Bool) (hj : j < 32) :
    bit (setLane r i x q).poison j = if j = i then q else bit r.poison j := by
  have h1 : bit (1#32 <<< i) j = decide (i = j) := getLsbD_one_shift hj
  cases q
  · simp only [setLane, Bool.false_eq_true, if_false, bit_and, bit_not _ hj, h1]
    by_cases h : j = i
    · simp [h]
    · simp [h, Ne.symm h]
  · simp only [setLane, if_true, bit_or, h1]
    by_cases h : j = i
    · simp [h]
    · simp [h, Ne.symm h]

/-- The value and poison that the file holds for lane i of physical register p. -/
def fileLane (sh : Sheaf) (p i : Nat) : Word × Bool := (formLane (vreg sh p).form i, bit (vreg sh p).poison i)

theorem writePhys_fold (ph : List Nat) (m : Mask) (vals : List Word) (q : Mask) (l : List Nat) (hl : l.Nodup)
    (h32 : ∀ x ∈ l, x < 32) (v : Map VReg) (p i : Nat) (hi : i < 32) :
    (let r := mget (l.foldl (fun v i =>
        if bit m i then mset v (lget ph i 0) (setLane (mget v (lget ph i 0) VReg.reset) i (lget vals i 0#32) (bit q i)) else v) v)
        p VReg.reset
     (formLane r.form i, bit r.poison i)) =
    if i ∈ l ∧ bit m i = true ∧ lget ph i 0 = p then (lget vals i 0#32, bit q i)
    else (formLane (mget v p VReg.reset).form i, bit (mget v p VReg.reset).poison i) := by
  induction l generalizing v with
  | nil => simp
  | cons a r ih =>
    have hr := (List.nodup_cons.1 hl).2
    have har := (List.nodup_cons.1 hl).1
    have ha : a < 32 := h32 a (by simp)
    rw [List.foldl_cons]
    have := ih hr (fun x hx => h32 x (List.mem_cons_of_mem _ hx))
      (if bit m a then mset v (lget ph a 0) (setLane (mget v (lget ph a 0) VReg.reset) a (lget vals a 0#32) (bit q a)) else v)
    simp only at this ⊢
    rw [this]
    by_cases hir : i ∈ r
    · have hia : i ≠ a := by rintro rfl; exact har hir
      simp only [hir, true_and, List.mem_cons, or_true]
      split
      · rfl
      · by_cases hm : bit m a = true
        · simp only [hm, if_true]
          rw [mget_mset]
          split
          · subst_vars; simp [formLane_setLane _ _ _ _ _ ha hi, poison_setLane _ _ _ _ _ hi, hia]
          · rfl
        · simp [hm]
    · simp only [hir, false_and, if_false, List.mem_cons, or_false]
      by_cases hm : bit m a = true
      · simp only [hm, if_true]
        rw [mget_mset]
        by_cases hia : i = a
        · subst hia
          by_cases hp : p = lget ph i 0
          · subst hp; simp [formLane_setLane _ _ _ _ _ ha hi, poison_setLane _ _ _ _ _ hi, hm]
          · simp [hp, Ne.symm hp]
        · simp only [hia, false_and, if_false]
          split
          · subst_vars; simp [formLane_setLane _ _ _ _ _ ha hi, poison_setLane _ _ _ _ _ hi, hia]
          · rfl
      · by_cases hia : i = a
        · subst hia; simp [hm]
        · simp [hm, hia]

theorem nodup_lanes : lanes.Nodup := by decide

/-- The file after writes of single lanes. -/
theorem fileLane_writePhys (sh : Sheaf) (ph : List Nat) (m : Mask) (vals : List Word) (q : Mask) (p : Nat) {i : Nat} (hi : i < 32) :
    fileLane (writePhys sh ph m vals q) p i =
      if bit m i = true ∧ lget ph i 0 = p then (lget vals i 0#32, bit q i) else fileLane sh p i := by
  have h := writePhys_fold ph m vals q lanes nodup_lanes (fun x hx => (mem_lanes x).1 hx) sh.v p i hi
  simpa [(mem_lanes i).2 hi, fileLane, vreg, writePhys] using h

theorem lget_physList (sh : Sheaf) (n : Nat) {i : Nat} (hi : i < 32) (d : Nat) : lget (physList sh n) i d = phys sh i n := by
  simp [physList, hi]

theorem oneWindow_full {sh : Sheaf} {n : Nat} (h : oneWindow sh Mask.full n = true) {i : Nat} (hi : i < 32) :
    phys sh i n = phys sh 0 n := by
  unfold oneWindow at h
  rw [lowest_full] at h
  have := List.all_eq_true.1 h i ((mem_lanes i).2 hi)
  simpa [bit_full hi] using this

/-- A write of lanes does not move any register name. -/
@[simp] theorem phys_writeLanes (sh : Sheaf) (n : Nat) (m : Mask) (f : Form) (q : Mask) (i k : Nat) :
    phys (writeLanes sh n m f q) i k = phys sh i k := by
  unfold writeLanes
  split
  · rfl
  · split <;> rfl

theorem fileLane_putForm (sh : Sheaf) (p k : Nat) (f : Form) (q : Mask) (i : Nat) :
    fileLane (putForm sh p f q) k i = if k = p then (formLane f i, bit q i) else fileLane sh k i := by
  unfold fileLane vreg putForm
  simp only [mget_mset]
  split <;> rfl

@[simp] theorem fileLane_dropOlder (sh : Sheaf) (n : Nat) (m : Mask) (p i : Nat) :
    fileLane (dropOlder sh n m) p i = fileLane sh p i := rfl

/-- The file after a write of lanes. -/
theorem fileLane_writeLanes (sh : Sheaf) (n : Nat) (m : Mask) (f : Form) (q : Mask) (p : Nat) {i : Nat} (hi : i < 32) :
    fileLane (writeLanes sh n m f q) p i =
      if bit m i = true ∧ phys sh i n = p then (formLane f i, bit q i) else fileLane sh p i := by
  unfold writeLanes
  split
  · subst_vars; simp
  · split
    · rename_i h
      have hp : phys sh i n = phys sh 0 n := oneWindow_full h.2 hi
      have hm : bit m i = true := by rw [h.1]; exact bit_full hi
      rw [fileLane_putForm, hp, fileLane_dropOlder]
      simp only [hm, true_and, eq_comm]
    · rw [fileLane_writePhys _ _ _ _ _ _ hi, lget_physList _ _ hi, formLane_formVals _ hi, fileLane_dropOlder]

/-! ## What a reader sees: the file and the pending results -/

theorem holds_without (w : PWrite) (ph : List Nat) (m : Mask) (p : Nat) {i : Nat} (hi : i < 32) :
    (w.without ph m).holds p i = (w.holds p i && !(bit m i && lget ph i 1024 == p)) := by
  cases w with
  | lanes a k vs q =>
    simp only [PWrite.without, PWrite.holds, bit_maskOf _ hi]
    by_cases h : lget a i 1024 = p
    · subst h; cases bit k i <;> simp
    · have : (lget a i 1024 == p) = false := by simpa using h
      simp [this]
  | group => rfl
  | row => rfl

@[simp] theorem laneVal_without (w : PWrite) (ph : List Nat) (m : Mask) (i : Nat) : (w.without ph m).laneVal i = w.laneVal i := by
  cases w <;> rfl

@[simp] theorem group_without (w : PWrite) (ph : List Nat) (m : Mask) (k : Nat) : (w.without ph m).group? k = w.group? k := by
  cases w <;> rfl

@[simp] theorem row_without (w : PWrite) (ph : List Nat) (m : Mask) (u t r : Nat) : (w.without ph m).row? u t r = w.row? u t r := by
  cases w <;> rfl

/-- A write of lanes opens and closes no span. -/
@[simp] theorem inSpan_writeLanes (sh : Sheaf) (n : Nat) (m : Mask) (f : Form) (q : Mask) :
    inSpan (writeLanes sh n m f q) = inSpan sh := by
  funext i
  unfold writeLanes
  split
  · rfl
  · split <;> simp [inSpan, putForm, writePhys, dropOlder, supersede, List.any_map, Function.comp_def] <;> rfl

/-- A write of a group register opens and closes no span. -/
@[simp] theorem inSpan_writeGroup (sh : Sheaf) (n : Nat) (x : Word) (q : Bool) : inSpan (writeGroup sh n x q) = inSpan sh := by
  funext i
  unfold writeGroup
  split
  · rfl
  · simp [inSpan, supersedeGroup, List.any_map, Function.comp_def]

/-- The threads that the scoreboard does not check stay so when a write drops older pending results. -/
theorem unchecked_of_long {sh sh' : Sheaf} (h : inSpan sh' = inSpan sh) (hl : sh'.long.map (fun o => o.ctl) = sh.long.map (fun o => o.ctl)) :
    unchecked sh' = unchecked sh := by
  funext i
  have : ∀ l : List LongOp, l.all (fun o => !bit o.ctl i) = (l.map (fun o => o.ctl)).all (fun c => !bit c i) := fun l => by
    simp [List.all_map, Function.comp_def]
  simp only [unchecked, h, this, hl]

@[simp] theorem unchecked_writeLanes (sh : Sheaf) (n : Nat) (m : Mask) (f : Form) (q : Mask) :
    unchecked (writeLanes sh n m f q) = unchecked sh := by
  refine unchecked_of_long (inSpan_writeLanes sh n m f q) ?_
  unfold writeLanes
  split
  · rfl
  · split <;> simp [dropOlder, putForm, writePhys, supersede, List.map_map, Function.comp_def]

@[simp] theorem unchecked_writeGroup (sh : Sheaf) (n : Nat) (x : Word) (q : Bool) : unchecked (writeGroup sh n x q) = unchecked sh := by
  refine unchecked_of_long (inSpan_writeGroup sh n x q) ?_
  unfold writeGroup
  split
  · rfl
  · simp [supersedeGroup, List.map_map, Function.comp_def]

/-- One pending instruction in the view of a lane; `sp` tells that its thread is inside a span. -/
def seeOp (t : Nat) (sp : Bool) (i n p : Nat) (acc : Word × Bool) (op : LongOp) : Word × Bool :=
  op.writes.foldl
    (fun acc w =>
      if op.ready && op.trap.isNone && w.holds p i then
        (if sp && Config.freeBool (t + op.id * 4096 + i * 128 + n) then acc else w.laneVal i)
      else acc) acc

theorem laneView_eq (t : Nat) (sh : Sheaf) (i n : Nat) :
    laneView t sh i n = sh.long.foldl (seeOp t (inSpan sh i) i n (phys sh i n)) (fileLane sh (phys sh i n) i) := rfl

theorem foldl_congr' {α β : Type} {f g : β → α → β} (l : List α) (b : β) (h : ∀ x ∈ l, ∀ b, f b x = g b x) :
    l.foldl f b = l.foldl g b := by
  induction l generalizing b with
  | nil => rfl
  | cons a r ih => rw [List.foldl_cons, List.foldl_cons, h a (by simp), ih _ (fun x hx => h x (List.mem_cons_of_mem _ hx))]

theorem foldl_id {α β : Type} {f : β → α → β} (l : List α) (b : β) (h : ∀ x ∈ l, ∀ b, f b x = b) : l.foldl f b = b := by
  induction l generalizing b with
  | nil => rfl
  | cons a r ih => rw [List.foldl_cons, h a (by simp), ih _ (fun x hx => h x (List.mem_cons_of_mem _ hx))]

theorem seeOp_supersede_hit (t : Nat) (sp : Bool) (i n p : Nat) (acc : Word × Bool) (op : LongOp) (ph : List Nat) (m : Mask) (hi : i < 32)
    (hm : bit m i = true) (hp : lget ph i 1024 = p) :
    seeOp t sp i n p acc { op with writes := op.writes.map (fun w => w.without ph m) } = acc := by
  unfold seeOp
  rw [List.foldl_map]
  refine foldl_id _ _ (fun w _ b => ?_)
  rw [holds_without _ _ _ _ hi]
  simp [hm, hp]

theorem seeOp_supersede_miss (t : Nat) (sp : Bool) (i n p : Nat) (acc : Word × Bool) (op : LongOp) (ph : List Nat) (m : Mask) (hi : i < 32)
    (h : bit m i = false ∨ lget ph i 1024 ≠ p) :
    seeOp t sp i n p acc { op with writes := op.writes.map (fun w => w.without ph m) } = seeOp t sp i n p acc op := by
  unfold seeOp
  rw [List.foldl_map]
  refine foldl_congr' _ _ (fun w _ b => ?_)
  rw [holds_without _ _ _ _ hi, laneVal_without]
  rcases h with h | h <;> simp [h]

/-- A lane that a write covers reads what was written: no older pending result hides it. -/
theorem laneView_writeLanes_hit (t : Nat) (sh : Sheaf) (n : Nat) (m : Mask) (f : Form) (q : Mask) {i : Nat} (hi : i < 32)
    (hm : bit m i = true) : laneView t (writeLanes sh n m f q) i n = (formLane f i, bit q i) := by
  rw [laneView_eq, phys_writeLanes, inSpan_writeLanes, fileLane_writeLanes _ _ _ _ _ _ hi]
  simp only [hm, true_and, if_true]
  have hl : (writeLanes sh n m f q).long = supersede sh.long (physList sh n) m := by
    unfold writeLanes
    have : m ≠ 0#32 := by rintro rfl; simp at hm
    rw [if_neg this]
    split <;> rfl
  rw [hl, supersede, List.foldl_map]
  exact foldl_id _ _ (fun op _ b => seeOp_supersede_hit _ _ _ _ _ _ _ _ _ hi hm (lget_physList _ _ hi _))

/-- A lane that a write does not cover reads as before. -/
theorem laneView_writeLanes_miss (t : Nat) (sh : Sheaf) (d n : Nat) (m : Mask) (f : Form) (q : Mask) {i : Nat} (hi : i < 32)
    (h : bit m i = false ∨ phys sh i d ≠ phys sh i n) : laneView t (writeLanes sh d m f q) i n = laneView t sh i n := by
  by_cases hm : m = 0#32
  · simp [writeLanes, hm]
  rw [laneView_eq, laneView_eq, phys_writeLanes, inSpan_writeLanes, fileLane_writeLanes _ _ _ _ _ _ hi]
  have h1 : ¬ (bit m i = true ∧ phys sh i d = phys sh i n) := by rcases h with h | h <;> simp [h]
  rw [if_neg h1]
  have hl : (writeLanes sh d m f q).long = supersede sh.long (physList sh d) m := by
    unfold writeLanes
    rw [if_neg hm]
    split <;> rfl
  rw [hl, supersede, List.foldl_map]
  refine foldl_congr' _ _ (fun op _ b => seeOp_supersede_miss _ _ _ _ _ _ _ _ _ hi ?_)
  rw [lget_physList _ _ hi]
  exact h

/-- A write of lanes changes the file and what is pending, and nothing else of a sheaf. -/
theorem writeLanes_frame (sh : Sheaf) (n : Nat) (m : Mask) (f : Form) (q : Mask) :
    writeLanes sh n m f q =
      { sh with v := (writeLanes sh n m f q).v, long := (writeLanes sh n m f q).long } := by
  unfold writeLanes
  split
  · rfl
  · split <;> rfl

/-! ## Group registers -/

/-- One pending instruction in the view of a group register; `sp` tells that none of the reading threads is checked. -/
def seeGroupOp (t : Nat) (sp : Bool) (k n : Nat) (acc : Word × Bool) (op : LongOp) : Word × Bool :=
  op.writes.foldl
    (fun acc w =>
      match (if op.ready && op.trap.isNone then w.group? k else none) with
      | some x =>
        if sp && Config.freeBool (t + op.id * 4096 + 4000 + n) then acc else x
      | none => acc) acc

theorem groupView_eq (t : Nat) (ctl : Mask) (sh : Sheaf) (n : Nat) :
    groupView t ctl sh n = if n = 0 then (0#32, false)
      else sh.long.foldl (seeGroupOp t ((lanesOf ctl).all (unchecked sh) && decide (ctl ≠ 0#32)) (gidx sh n) n) (mget sh.g (gidx sh n) 0#32, mget sh.gp (gidx sh n) false) := rfl

/-- g0 reads zero (R44). -/
@[simp] theorem groupView_zero (t : Nat) (ctl : Mask) (sh : Sheaf) : groupView t ctl sh 0 = (0#32, false) := rfl

@[simp] theorem gidx_writeLanes (sh : Sheaf) (n : Nat) (m : Mask) (f : Form) (q : Mask) (k : Nat) :
    gidx (writeLanes sh n m f q) k = gidx sh k := by rw [writeLanes_frame]; rfl

/-- A write of lanes changes no group register. -/
@[simp] theorem groupView_writeLanes (t : Nat) (ctl : Mask) (sh : Sheaf) (d n : Nat) (m : Mask) (f : Form) (q : Mask) :
    groupView t ctl (writeLanes sh d m f q) n = groupView t ctl sh n := by
  by_cases hm : m = 0#32
  · simp [writeLanes, hm]
  rw [groupView_eq, groupView_eq]
  have hl : (writeLanes sh d m f q).long = supersede sh.long (physList sh d) m := by
    unfold writeLanes
    rw [if_neg hm]
    split <;> rfl
  rw [hl, supersede, List.foldl_map, gidx_writeLanes, unchecked_writeLanes]
  rw [show (writeLanes sh d m f q).g = sh.g by rw [writeLanes_frame], show (writeLanes sh d m f q).gp = sh.gp by rw [writeLanes_frame]]
  congr 1
  refine foldl_congr' _ _ (fun op _ b => ?_)
  unfold seeGroupOp
  rw [List.foldl_map]
  exact foldl_congr' _ _ (fun w _ b => by rw [group_without])

theorem foldl_filter_id {α β : Type} {f : β → α → β} (l : List α) (p : α → Bool) (b : β) (h : ∀ x ∈ l, p x = false → ∀ b, f b x = b) :
    (l.filter p).foldl f b = l.foldl f b := by
  induction l generalizing b with
  | nil => rfl
  | cons a r ih =>
    have hr := ih
    by_cases hp : p a = true
    · rw [List.filter_cons_of_pos hp, List.foldl_cons, List.foldl_cons]
      exact ih _ (fun x hx => h x (List.mem_cons_of_mem _ hx))
    · rw [List.filter_cons_of_neg hp, List.foldl_cons, h a (by simp) (by simpa using hp)]
      exact ih _ (fun x hx => h x (List.mem_cons_of_mem _ hx))

@[simp] theorem gidx_writeGroup (sh : Sheaf) (d : Nat) (x : Word) (q : Bool) (n : Nat) :
    gidx (writeGroup sh d x q) n = gidx sh n := by
  unfold writeGroup
  split <;> rfl

/-- A group register reads what was written to it. -/
theorem groupView_writeGroup_hit (t : Nat) (ctl : Mask) (sh : Sheaf) (n : Nat) (x : Word) (q : Bool) (hn : n ≠ 0) :
    groupView t ctl (writeGroup sh n x q) n = (x, q) := by
  rw [groupView_eq, gidx_writeGroup, unchecked_writeGroup]
  simp only [hn, if_false, writeGroup]
  rw [mget_mput_self, mget_mput_self, supersedeGroup, List.foldl_map]
  refine foldl_id _ _ (fun op _ b => ?_)
  unfold seeGroupOp
  refine foldl_id _ _ (fun w hw b => ?_)
  have := (List.mem_filter.1 hw).2
  have hnone : w.group? (gidx sh n) = none := by simpa using this
  simp [hnone]

/-- Another group register reads as before. -/
theorem groupView_writeGroup_miss (t : Nat) (ctl : Mask) (sh : Sheaf) (d n : Nat) (x : Word) (q : Bool)
    (h : d = 0 ∨ gidx sh n ≠ gidx sh d) : groupView t ctl (writeGroup sh d x q) n = groupView t ctl sh n := by
  by_cases hd : d = 0
  · simp [writeGroup, hd]
  have hne : gidx sh n ≠ gidx sh d := by rcases h with h | h; exacts [absurd h hd, h]
  rw [groupView_eq, groupView_eq, gidx_writeGroup, unchecked_writeGroup]
  simp only [writeGroup, hd, if_false]
  split
  · rfl
  rw [mget_mput_ne _ _ _ hne, mget_mput_ne _ _ _ hne, supersedeGroup, List.foldl_map]
  refine foldl_congr' _ _ (fun op _ b => ?_)
  unfold seeGroupOp
  refine foldl_filter_id _ _ _ (fun w _ hw b => ?_)
  have hsome : (w.group? (gidx sh d)).isSome = true := by
    cases hgg : w.group? (gidx sh d) <;> simp_all
  have : w.group? (gidx sh n) = none := by
    cases w with
    | group a v q =>
      simp only [PWrite.group?] at hsome ⊢
      split at hsome
      · rw [if_neg]; intro h'; exact hne (by omega)
      · simp at hsome
    | lanes => rfl
    | row => rfl
  simp [this]

theorem holds_group (w : PWrite) (k p i : Nat) (h : (w.group? k).isSome = true) : w.holds p i = false := by
  cases w <;> simp_all [PWrite.group?, PWrite.holds]

@[simp] theorem phys_writeGroup (sh : Sheaf) (d : Nat) (x : Word) (q : Bool) (i n : Nat) :
    phys (writeGroup sh d x q) i n = phys sh i n := by
  unfold writeGroup
  split <;> rfl

/-- A write of a group register changes no lane. -/
@[simp] theorem laneView_writeGroup (t : Nat) (sh : Sheaf) (d n i : Nat) (x : Word) (q : Bool) :
    laneView t (writeGroup sh d x q) i n = laneView t sh i n := by
  by_cases hd : d = 0
  · simp [writeGroup, hd]
  rw [laneView_eq, laneView_eq, phys_writeGroup, inSpan_writeGroup]
  simp only [writeGroup, hd, if_false, supersedeGroup, List.foldl_map]
  refine foldl_congr' _ _ (fun op _ b => ?_)
  unfold seeOp
  refine foldl_filter_id _ _ _ (fun w _ hw b => ?_)
  have hsome : (w.group? (gidx sh d)).isSome = true := by
    cases hgg : w.group? (gidx sh d) <;> simp_all
  simp [holds_group w _ _ _ hsome]

/-- A write of a group register changes the group file and what is pending, and nothing else of a sheaf. -/
theorem writeGroup_frame (sh : Sheaf) (n : Nat) (x : Word) (q : Bool) :
    writeGroup sh n x q =
      { sh with g := (writeGroup sh n x q).g, gp := (writeGroup sh n x q).gp, long := (writeGroup sh n x q).long } := by
  unfold writeGroup
  split <;> rfl

/-- What a source's stored form gives in a lane is what that lane reads (R46, R47). -/
theorem formLane_sourceForm (t : Nat) (sh : Sheaf) (n : Nat) {i : Nat} (hi : i < 32) :
    formLane (sourceForm t sh n) i = laneVal t sh i n := by
  unfold sourceForm
  dsimp only
  split
  · rename_i h
    simp only [Bool.and_eq_true, List.all_eq_true] at h
    have hp := oneWindow_full h.1 hi
    have hf := h.2 i ((mem_lanes i).2 hi)
    unfold readsFile at hf
    simp only [List.all_eq_true] at hf
    rw [laneVal, laneView_eq]
    have : sh.long.foldl (seeOp t (inSpan sh i) i n (phys sh i n)) (fileLane sh (phys sh i n) i) = fileLane sh (phys sh i n) i := by
      refine foldl_id _ _ (fun op hop b => ?_)
      unfold seeOp
      refine foldl_id _ _ (fun w hw b => ?_)
      have h3 := hf op hop w hw
      by_cases hb : (op.ready && op.trap.isNone && w.holds (phys sh i n) i) = true
      · rw [hb] at h3
        simp only [Bool.not_true, Bool.false_or] at h3
        rw [if_pos hb, if_pos h3]
      · rw [if_neg hb]
    rw [hp] at this ⊢
    rw [this]
    rfl
  · simp [formLane, hi]

end Sys2Proof.Machine
end

