-- ==== Sys2Proof/Laws/Frame.lean ====
section
/-! SUPPORT. What writing lanes and group registers leaves as it was, and what an instruction that only moves on leaves. -/

namespace Sys2Proof.Machine

theorem stores_refl (s : State) : StoresNothing s s :=
  ⟨fun _ => rfl, rfl, rfl, rfl, fun _ => rfl, fun _ _ => rfl, fun _ => rfl, fun _ _ => rfl, fun _ => rfl⟩

/-- Replacing a bed stores nothing. -/
theorem stores_modBed (s : State) (b : Nat) (f : Bed → Bed) : StoresNothing s (modBed s b f) := by
  unfold modBed
  split <;> exact ⟨fun _ => rfl, rfl, rfl, rfl, fun _ => rfl, fun _ _ => rfl, fun _ => rfl, fun _ _ => rfl, fun _ => rfl⟩

/-- Replacing a sheaf stores nothing. -/
theorem stores_setSheaf (s : State) (b w : Nat) (sh : Sheaf) : StoresNothing s (setSheaf s b w sh) := stores_modBed _ _ _

/-- An instruction that leaves a sheaf and moves on. -/
theorem movesOn_done (s : State) (c : Cur) (sh : Sheaf) : MovesOn s (putSheaf s c (advance c sh)) c sh :=
  ⟨rfl, stores_setSheaf _ _ _ _⟩

/-! ## Rows that wait to be written -/

theorem row?_without (w : PWrite) (ph : List Nat) (m : Mask) (u t r : Nat) : (w.without ph m).row? u t r = w.row? u t r := by
  cases w <;> rfl

theorem rows_supersede (ops : List LongOp) (ph : List Nat) (m : Mask) (u t r : Nat) (best : Nat × List Word) :
    pendingRow (supersede ops ph m) u t r best = pendingRow ops u t r best := by
  unfold pendingRow supersede
  rw [List.foldl_map]
  congr 1
  funext acc op
  simp only [List.foldl_map, row?_without]

theorem row?_group (w : PWrite) (k u t r : Nat) (h : (w.group? k).isSome = true) : w.row? u t r = none := by
  cases w <;> simp [PWrite.group?, PWrite.row?] at h ⊢

theorem rows_supersedeGroup (ops : List LongOp) (k u t r : Nat) (best : Nat × List Word) :
    pendingRow (supersedeGroup ops k) u t r best = pendingRow ops u t r best := by
  unfold pendingRow supersedeGroup
  rw [List.foldl_map]
  congr 1
  funext acc op
  apply foldl_filter_id
  intro w _ hw b
  have : (w.group? k).isSome = true := by
    cases h : w.group? k <;> simp_all
  simp [row?_group w k u t r this]

theorem head_supersede (ops : List LongOp) (ph : List Nat) (m : Mask) :
    (supersede ops ph m).map opHead = ops.map opHead := by
  simp [supersede, opHead, List.map_map, Function.comp_def]

theorem head_supersedeGroup (ops : List LongOp) (k : Nat) : (supersedeGroup ops k).map opHead = ops.map opHead := by
  simp [supersedeGroup, opHead, List.map_map, Function.comp_def]

/-! ## Lanes -/

theorem long_writeLanes (sh : Sheaf) (n : Nat) (m : Mask) (f : Form) (q : Mask) :
    (writeLanes sh n m f q).long = sh.long ∨ (writeLanes sh n m f q).long = supersede sh.long (physList sh n) m := by
  unfold writeLanes
  split
  · exact .inl rfl
  · split
    · exact .inr rfl
    · exact .inr rfl

/-- A write of lanes has the frame of its register. -/
theorem laneFrame_writeLanes (sh : Sheaf) (n : Nat) (m : Mask) (f : Form) (q : Mask) : LaneFrame m [n] sh (writeLanes sh n m f q) where
  lanes u i k hi h := laneView_writeLanes_miss u sh n k m f q hi (h.imp id fun h => fun e => h n (by simp) e.symm)
  groups u k g := groupView_writeLanes u k sh n g m f q
  rows u t r best := by
    rcases long_writeLanes sh n m f q with h | h <;> rw [h]
    exact rows_supersede _ _ _ _ _ _ _
  pending := by
    rcases long_writeLanes sh n m f q with h | h <;> rw [h]
    exact head_supersede _ _ _
  rest := writeLanes_frame sh n m f q

theorem laneFrame_trans {m : Mask} {ds es : List Nat} {a b c : Sheaf} (h1 : LaneFrame m ds a b) (h2 : LaneFrame m es b c)
    (hp : ∀ i n, phys b i n = phys a i n) : LaneFrame m (ds ++ es) a c where
  lanes u i n hi h := by
    rw [h2.lanes u i n hi (h.imp id fun h d hd => by rw [hp, hp]; exact h d (by simp [hd])),
      h1.lanes u i n hi (h.imp id fun h d hd => h d (by simp [hd]))]
  groups u k n := by rw [h2.groups, h1.groups]
  rows u t r best := by rw [h2.rows, h1.rows]
  pending := by rw [h2.pending, h1.pending]
  rest := by
    have e1 := h1.rest
    have e2 := h2.rest
    rw [e2, e1]

/-- A pair of lane registers written. -/
theorem laneFrame_two (sh : Sheaf) (n k : Nat) (m : Mask) (f g : Form) (q r : Mask) :
    LaneFrame m [n, k] sh (writeLanes (writeLanes sh n m f q) k m g r) :=
  laneFrame_trans (laneFrame_writeLanes sh n m f q) (laneFrame_writeLanes _ k m g r) (fun _ _ => phys_writeLanes ..)

/-- The lanes written hold what was written. -/
theorem lanesHold_writeLanes (sh : Sheaf) (n : Nat) (m : Mask) (f : Form) (q : Mask) (val : Nat → Word) (poison : Nat → Bool)
    (hv : ∀ i, i < 32 → bit m i = true → formLane f i = val i) (hq : ∀ i, i < 32 → bit m i = true → bit q i = poison i) :
    LanesHold m (writeLanes sh n m f q) n val poison := by
  intro u i hi hm
  rw [laneView_writeLanes_hit u sh n m f q hi hm, hv i hi hm, hq i hi hm]

/-! ## Group registers -/

theorem long_writeGroup (sh : Sheaf) (n : Nat) (x : Word) (q : Bool) :
    (writeGroup sh n x q).long = sh.long ∨ (writeGroup sh n x q).long = supersedeGroup sh.long (gidx sh n) := by
  unfold writeGroup
  split
  · exact .inl rfl
  · exact .inr rfl

theorem gidx_inj {sh : Sheaf} {n k : Nat} (hn : n < 128) (hk : k < 128) (h : n ≠ k) : gidx sh n ≠ gidx sh k := by
  unfold gidx
  cases sh.handler <;> simp only [Bool.true_and, Bool.false_and] <;> (try split) <;> (try split) <;> simp_all <;> omega

theorem groupFrame_writeGroup (sh : Sheaf) (n : Nat) (hn : n < 128) (x : Word) (q : Bool) : GroupFrame [n] sh (writeGroup sh n x q) where
  lanes u i k hi := laneView_writeGroup u sh n k i x q
  groups u k g hg h := by
    apply groupView_writeGroup_miss
    by_cases h0 : n = 0
    · exact .inl h0
    · exact .inr (gidx_inj hg hn (h n (by simp) h0))
  rows u t r best := by
    rcases long_writeGroup sh n x q with h | h <;> rw [h]
    exact rows_supersedeGroup _ _ _ _ _ _
  pending := by
    rcases long_writeGroup sh n x q with h | h <;> rw [h]
    exact head_supersedeGroup _ _
  rest := writeGroup_frame sh n x q

theorem groupHolds_writeGroup (sh : Sheaf) (n : Nat) (x : Word) (q : Bool) : GroupHolds (writeGroup sh n x q) n x q := by
  intro u k
  by_cases h : n = 0
  · subst h; rfl
  · rw [groupView_writeGroup_hit u k sh n x q h, if_neg h]

theorem groupFrame_trans {ds es : List Nat} {a b c : Sheaf} (h1 : GroupFrame ds a b) (h2 : GroupFrame es b c) : GroupFrame (ds ++ es) a c where
  lanes u i n hi := by rw [h2.lanes u i n hi, h1.lanes u i n hi]
  groups u k n hn h := by
    rw [h2.groups u k n hn (fun d hd => h d (by simp [hd])), h1.groups u k n hn (fun d hd => h d (by simp [hd]))]
  rows u t r best := by rw [h2.rows, h1.rows]
  pending := by rw [h2.pending, h1.pending]
  rest := by
    have e1 := h1.rest
    have e2 := h2.rest
    rw [e2, e1]

/-- Nothing of a sheaf's registers changes. -/
theorem groupFrame_refl (sh : Sheaf) : GroupFrame [] sh sh :=
  ⟨fun _ _ _ _ => rfl, fun _ _ _ _ _ => rfl, fun _ _ _ _ => rfl, rfl, rfl⟩

/-! ## Issuing -/

theorem onSheaf_issues {s : State} {c : Cur} {sh : Sheaf} (h : Issues s c sh) (k : Cur → Sheaf → Out) : onSheaf s k = k c sh := by
  simp [onSheaf, h.1, h.2]

theorem onEngine_issues {s : State} {c : Cur} {sh : Sheaf} (h : Issues s c sh) : onEngine s = false := by
  simp [onEngine, h.1]

theorem whenActive_issues {s : State} {c : Cur} {sh : Sheaf} (h : Issues s c sh) (ha : Active c sh) (k : Cur → Sheaf → Mask → Out) :
    whenActive s k = k c sh (exm c sh) := by
  unfold whenActive
  rw [onSheaf_issues h, if_neg ha]

theorem lowest_none {m : Mask} (h : ∀ i, i < 32 → bit m i = false) : lowest m = none := by
  unfold lowest
  rw [List.find?_eq_none]
  intro i hi
  simp [h i ((mem_lanes i).1 hi)]

theorem overBudget_none {c : Cur} {sh : Sheaf} {regs : List Nat} (h : InBudget c sh regs) : overBudget c sh (exm c sh) regs = none := by
  unfold overBudget
  apply lowest_none
  intro i hi
  rw [bit_maskOf _ hi]
  cases hb : bit (exm c sh) i
  · rfl
  · simp only [Bool.true_and, List.any_eq_false]
    intro n hn
    simp [h i hi hb n hn]

theorem laneOp_issues {s : State} {c : Cur} {sh : Sheaf} {regs : List Nat} (h : Issues s c sh) (ha : Active c sh)
    (hb : InBudget c sh regs) (k : Cur → Sheaf → Mask → Out) : laneOp s regs k = k c sh (exm c sh) := by
  unfold laneOp
  rw [whenActive_issues h ha]
  unfold withBudget
  rw [overBudget_none hb]

theorem groupOp_issues {s : State} {c : Cur} {sh : Sheaf} (h : Issues s c sh) (ha : Active c sh) (k : Cur → Sheaf → Mask → Out) :
    groupOp s k = k c sh (exm c sh) := whenActive_issues h ha k

theorem formLane_rdForm (s : State) (c : Cur) (sh : Sheaf) (n : Nat) {i : Nat} (hi : i < 32) :
    formLane (rdForm s c sh n) i = rdV s c sh i n := formLane_sourceForm _ _ _ hi

theorem bit_poisonMask (s : State) (c : Cur) (sh : Sheaf) (n : Nat) {i : Nat} (hi : i < 32) :
    bit (poisonMask s c sh n) i = rdVP s c sh i n := bit_maskOf _ hi

theorem bit_poisonOf (s : State) (c : Cur) (sh : Sheaf) (regs : List Nat) {i : Nat} (hi : i < 32) :
    bit (poisonOf s c sh regs) i = regs.any (fun n => rdVP s c sh i n) := by
  unfold poisonOf
  suffices h : ∀ (acc : Mask), bit (regs.foldl (fun m n => m ||| poisonMask s c sh n) acc) i = (bit acc i || regs.any (fun n => rdVP s c sh i n)) by
    rw [h]; simp
  induction regs with
  | nil => simp
  | cons n r ih =>
    intro acc
    rw [List.foldl_cons, ih, bit_or, bit_poisonMask _ _ _ _ hi, List.any_cons, Bool.or_assoc]

end Sys2Proof.Machine
end

