-- ==== Sys2Proof/Laws/State.lean ====
section
/-! SUPPORT. What each shared update of the state leaves of every field, and what it gives of the one that it changes. -/

namespace Sys2Proof.Machine


/-! ## A plot -/

@[simp] theorem modPlot_mem (s : State) (p : Nat) (f : Plot → Plot) : (modPlot s p f).mem = s.mem := rfl
@[simp] theorem modPlot_memPoison (s : State) (p : Nat) (f : Plot → Plot) : (modPlot s p f).memPoison = s.memPoison := rfl
@[simp] theorem modPlot_home (s : State) (p : Nat) (f : Plot → Plot) : (modPlot s p f).home = s.home := rfl
@[simp] theorem modPlot_l2 (s : State) (p : Nat) (f : Plot → Plot) : (modPlot s p f).l2 = s.l2 := rfl
@[simp] theorem modPlot_tlb (s : State) (p : Nat) (f : Plot → Plot) : (modPlot s p f).tlb = s.tlb := rfl
@[simp] theorem modPlot_oldFrames (s : State) (p : Nat) (f : Plot → Plot) : (modPlot s p f).oldFrames = s.oldFrames := rfl
@[simp] theorem modPlot_early (s : State) (p : Nat) (f : Plot → Plot) : (modPlot s p f).early = s.early := rfl
@[simp] theorem modPlot_oldCode (s : State) (p : Nat) (f : Plot → Plot) : (modPlot s p f).oldCode = s.oldCode := rfl
@[simp] theorem modPlot_cores (s : State) (p : Nat) (f : Plot → Plot) : (modPlot s p f).cores = s.cores := rfl
@[simp] theorem modPlot_dies (s : State) (p : Nat) (f : Plot → Plot) : (modPlot s p f).dies = s.dies := rfl
@[simp] theorem modPlot_beds (s : State) (p : Nat) (f : Plot → Plot) : (modPlot s p f).beds = s.beds := rfl
@[simp] theorem modPlot_launches (s : State) (p : Nat) (f : Plot → Plot) : (modPlot s p f).launches = s.launches := rfl
@[simp] theorem modPlot_copies (s : State) (p : Nat) (f : Plot → Plot) : (modPlot s p f).copies = s.copies := rfl
@[simp] theorem modPlot_bwait (s : State) (p : Nat) (f : Plot → Plot) : (modPlot s p f).bwait = s.bwait := rfl
@[simp] theorem modPlot_engines (s : State) (p : Nat) (f : Plot → Plot) : (modPlot s p f).engines = s.engines := rfl
@[simp] theorem modPlot_searches (s : State) (p : Nat) (f : Plot → Plot) : (modPlot s p f).searches = s.searches := rfl
@[simp] theorem modPlot_batches (s : State) (p : Nat) (f : Plot → Plot) : (modPlot s p f).batches = s.batches := rfl
@[simp] theorem modPlot_indexes (s : State) (p : Nat) (f : Plot → Plot) : (modPlot s p f).indexes = s.indexes := rfl
@[simp] theorem modPlot_ctlSram (s : State) (p : Nat) (f : Plot → Plot) : (modPlot s p f).ctlSram = s.ctlSram := rfl
@[simp] theorem modPlot_colls (s : State) (p : Nat) (f : Plot → Plot) : (modPlot s p f).colls = s.colls := rfl
@[simp] theorem modPlot_endedColls (s : State) (p : Nat) (f : Plot → Plot) : (modPlot s p f).endedColls = s.endedColls := rfl
@[simp] theorem modPlot_pkts (s : State) (p : Nat) (f : Plot → Plot) : (modPlot s p f).pkts = s.pkts := rfl
@[simp] theorem modPlot_pins (s : State) (p : Nat) (f : Plot → Plot) : (modPlot s p f).pins = s.pins := rfl
@[simp] theorem modPlot_pdtest (s : State) (p : Nat) (f : Plot → Plot) : (modPlot s p f).pdtest = s.pdtest := rfl
@[simp] theorem modPlot_amsan (s : State) (p : Nat) (f : Plot → Plot) : (modPlot s p f).amsan = s.amsan := rfl
@[simp] theorem modPlot_groups (s : State) (p : Nat) (f : Plot → Plot) : (modPlot s p f).groups = s.groups := rfl
@[simp] theorem modPlot_sideUsed (s : State) (p : Nat) (f : Plot → Plot) : (modPlot s p f).sideUsed = s.sideUsed := rfl
@[simp] theorem modPlot_portSeq (s : State) (p : Nat) (f : Plot → Plot) : (modPlot s p f).portSeq = s.portSeq := rfl
@[simp] theorem modPlot_frames (s : State) (p : Nat) (f : Plot → Plot) : (modPlot s p f).frames = s.frames := rfl
@[simp] theorem modPlot_held (s : State) (p : Nat) (f : Plot → Plot) : (modPlot s p f).held = s.held := rfl
@[simp] theorem modPlot_hostIf (s : State) (p : Nat) (f : Plot → Plot) : (modPlot s p f).hostIf = s.hostIf := rfl
@[simp] theorem modPlot_mgmt (s : State) (p : Nat) (f : Plot → Plot) : (modPlot s p f).mgmt = s.mgmt := rfl
@[simp] theorem modPlot_evlog (s : State) (p : Nat) (f : Plot → Plot) : (modPlot s p f).evlog = s.evlog := rfl
@[simp] theorem modPlot_evlost (s : State) (p : Nat) (f : Plot → Plot) : (modPlot s p f).evlost = s.evlost := rfl
@[simp] theorem modPlot_killCores (s : State) (p : Nat) (f : Plot → Plot) : (modPlot s p f).killCores = s.killCores := rfl
@[simp] theorem modPlot_nextLaunch (s : State) (p : Nat) (f : Plot → Plot) : (modPlot s p f).nextLaunch = s.nextLaunch := rfl
@[simp] theorem modPlot_poolUsed (s : State) (p : Nat) (f : Plot → Plot) : (modPlot s p f).poolUsed = s.poolUsed := rfl
@[simp] theorem modPlot_snapStall (s : State) (p : Nat) (f : Plot → Plot) : (modPlot s p f).snapStall = s.snapStall := rfl
@[simp] theorem modPlot_holdRelease (s : State) (p : Nat) (f : Plot → Plot) : (modPlot s p f).holdRelease = s.holdRelease := rfl
@[simp] theorem modPlot_powered (s : State) (p : Nat) (f : Plot → Plot) : (modPlot s p f).powered = s.powered := rfl
@[simp] theorem modPlot_agenda (s : State) (p : Nat) (f : Plot → Plot) : (modPlot s p f).agenda = s.agenda := rfl
@[simp] theorem modPlot_agent (s : State) (p : Nat) (f : Plot → Plot) : (modPlot s p f).agent = s.agent := rfl
@[simp] theorem modPlot_ticks (s : State) (p : Nat) (f : Plot → Plot) : (modPlot s p f).ticks = s.ticks := rfl
@[simp] theorem modPlot_nextKey (s : State) (p : Nat) (f : Plot → Plot) : (modPlot s p f).nextKey = s.nextKey := rfl

theorem getPlot_modPlot (s : State) (p q : Nat) (f : Plot → Plot) :
    getPlot (modPlot s p f) q = if q = p then f (getPlot s p) else getPlot s q := mget_mset ..

@[simp] theorem getPlot_modPlot_self (s : State) (p : Nat) (f : Plot → Plot) : getPlot (modPlot s p f) p = f (getPlot s p) := by
  simp [getPlot_modPlot]

theorem getPlot_modPlot_ne (s : State) {p q : Nat} (f : Plot → Plot) (h : q ≠ p) : getPlot (modPlot s p f) q = getPlot s q := by
  simp [getPlot_modPlot, h]


/-! ## A core -/

@[simp] theorem modCore_mem (s : State) (k : Nat) (f : Core → Core) : (modCore s k f).mem = s.mem := rfl
@[simp] theorem modCore_memPoison (s : State) (k : Nat) (f : Core → Core) : (modCore s k f).memPoison = s.memPoison := rfl
@[simp] theorem modCore_home (s : State) (k : Nat) (f : Core → Core) : (modCore s k f).home = s.home := rfl
@[simp] theorem modCore_l2 (s : State) (k : Nat) (f : Core → Core) : (modCore s k f).l2 = s.l2 := rfl
@[simp] theorem modCore_tlb (s : State) (k : Nat) (f : Core → Core) : (modCore s k f).tlb = s.tlb := rfl
@[simp] theorem modCore_oldFrames (s : State) (k : Nat) (f : Core → Core) : (modCore s k f).oldFrames = s.oldFrames := rfl
@[simp] theorem modCore_early (s : State) (k : Nat) (f : Core → Core) : (modCore s k f).early = s.early := rfl
@[simp] theorem modCore_oldCode (s : State) (k : Nat) (f : Core → Core) : (modCore s k f).oldCode = s.oldCode := rfl
@[simp] theorem modCore_plots (s : State) (k : Nat) (f : Core → Core) : (modCore s k f).plots = s.plots := rfl
@[simp] theorem modCore_dies (s : State) (k : Nat) (f : Core → Core) : (modCore s k f).dies = s.dies := rfl
@[simp] theorem modCore_beds (s : State) (k : Nat) (f : Core → Core) : (modCore s k f).beds = s.beds := rfl
@[simp] theorem modCore_launches (s : State) (k : Nat) (f : Core → Core) : (modCore s k f).launches = s.launches := rfl
@[simp] theorem modCore_copies (s : State) (k : Nat) (f : Core → Core) : (modCore s k f).copies = s.copies := rfl
@[simp] theorem modCore_bwait (s : State) (k : Nat) (f : Core → Core) : (modCore s k f).bwait = s.bwait := rfl
@[simp] theorem modCore_engines (s : State) (k : Nat) (f : Core → Core) : (modCore s k f).engines = s.engines := rfl
@[simp] theorem modCore_searches (s : State) (k : Nat) (f : Core → Core) : (modCore s k f).searches = s.searches := rfl
@[simp] theorem modCore_batches (s : State) (k : Nat) (f : Core → Core) : (modCore s k f).batches = s.batches := rfl
@[simp] theorem modCore_indexes (s : State) (k : Nat) (f : Core → Core) : (modCore s k f).indexes = s.indexes := rfl
@[simp] theorem modCore_ctlSram (s : State) (k : Nat) (f : Core → Core) : (modCore s k f).ctlSram = s.ctlSram := rfl
@[simp] theorem modCore_colls (s : State) (k : Nat) (f : Core → Core) : (modCore s k f).colls = s.colls := rfl
@[simp] theorem modCore_endedColls (s : State) (k : Nat) (f : Core → Core) : (modCore s k f).endedColls = s.endedColls := rfl
@[simp] theorem modCore_pkts (s : State) (k : Nat) (f : Core → Core) : (modCore s k f).pkts = s.pkts := rfl
@[simp] theorem modCore_pins (s : State) (k : Nat) (f : Core → Core) : (modCore s k f).pins = s.pins := rfl
@[simp] theorem modCore_pdtest (s : State) (k : Nat) (f : Core → Core) : (modCore s k f).pdtest = s.pdtest := rfl
@[simp] theorem modCore_amsan (s : State) (k : Nat) (f : Core → Core) : (modCore s k f).amsan = s.amsan := rfl
@[simp] theorem modCore_groups (s : State) (k : Nat) (f : Core → Core) : (modCore s k f).groups = s.groups := rfl
@[simp] theorem modCore_sideUsed (s : State) (k : Nat) (f : Core → Core) : (modCore s k f).sideUsed = s.sideUsed := rfl
@[simp] theorem modCore_portSeq (s : State) (k : Nat) (f : Core → Core) : (modCore s k f).portSeq = s.portSeq := rfl
@[simp] theorem modCore_frames (s : State) (k : Nat) (f : Core → Core) : (modCore s k f).frames = s.frames := rfl
@[simp] theorem modCore_held (s : State) (k : Nat) (f : Core → Core) : (modCore s k f).held = s.held := rfl
@[simp] theorem modCore_hostIf (s : State) (k : Nat) (f : Core → Core) : (modCore s k f).hostIf = s.hostIf := rfl
@[simp] theorem modCore_mgmt (s : State) (k : Nat) (f : Core → Core) : (modCore s k f).mgmt = s.mgmt := rfl
@[simp] theorem modCore_evlog (s : State) (k : Nat) (f : Core → Core) : (modCore s k f).evlog = s.evlog := rfl
@[simp] theorem modCore_evlost (s : State) (k : Nat) (f : Core → Core) : (modCore s k f).evlost = s.evlost := rfl
@[simp] theorem modCore_killCores (s : State) (k : Nat) (f : Core → Core) : (modCore s k f).killCores = s.killCores := rfl
@[simp] theorem modCore_nextLaunch (s : State) (k : Nat) (f : Core → Core) : (modCore s k f).nextLaunch = s.nextLaunch := rfl
@[simp] theorem modCore_poolUsed (s : State) (k : Nat) (f : Core → Core) : (modCore s k f).poolUsed = s.poolUsed := rfl
@[simp] theorem modCore_snapStall (s : State) (k : Nat) (f : Core → Core) : (modCore s k f).snapStall = s.snapStall := rfl
@[simp] theorem modCore_holdRelease (s : State) (k : Nat) (f : Core → Core) : (modCore s k f).holdRelease = s.holdRelease := rfl
@[simp] theorem modCore_powered (s : State) (k : Nat) (f : Core → Core) : (modCore s k f).powered = s.powered := rfl
@[simp] theorem modCore_agenda (s : State) (k : Nat) (f : Core → Core) : (modCore s k f).agenda = s.agenda := rfl
@[simp] theorem modCore_agent (s : State) (k : Nat) (f : Core → Core) : (modCore s k f).agent = s.agent := rfl
@[simp] theorem modCore_ticks (s : State) (k : Nat) (f : Core → Core) : (modCore s k f).ticks = s.ticks := rfl
@[simp] theorem modCore_nextKey (s : State) (k : Nat) (f : Core → Core) : (modCore s k f).nextKey = s.nextKey := rfl

theorem getCore_modCore (s : State) (k j : Nat) (f : Core → Core) :
    getCore (modCore s k f) j = if j = k then f (getCore s k) else getCore s j := mget_mset ..

@[simp] theorem getCore_modCore_self (s : State) (k : Nat) (f : Core → Core) : getCore (modCore s k f) k = f (getCore s k) := by
  simp [getCore_modCore]

theorem getCore_modCore_ne (s : State) {k j : Nat} (f : Core → Core) (h : j ≠ k) : getCore (modCore s k f) j = getCore s j := by
  simp [getCore_modCore, h]


/-! ## A bank engine -/

@[simp] theorem modEngine_mem (s : State) (e : Nat) (f : Engine → Engine) : (modEngine s e f).mem = s.mem := rfl
@[simp] theorem modEngine_memPoison (s : State) (e : Nat) (f : Engine → Engine) : (modEngine s e f).memPoison = s.memPoison := rfl
@[simp] theorem modEngine_home (s : State) (e : Nat) (f : Engine → Engine) : (modEngine s e f).home = s.home := rfl
@[simp] theorem modEngine_l2 (s : State) (e : Nat) (f : Engine → Engine) : (modEngine s e f).l2 = s.l2 := rfl
@[simp] theorem modEngine_tlb (s : State) (e : Nat) (f : Engine → Engine) : (modEngine s e f).tlb = s.tlb := rfl
@[simp] theorem modEngine_oldFrames (s : State) (e : Nat) (f : Engine → Engine) : (modEngine s e f).oldFrames = s.oldFrames := rfl
@[simp] theorem modEngine_early (s : State) (e : Nat) (f : Engine → Engine) : (modEngine s e f).early = s.early := rfl
@[simp] theorem modEngine_oldCode (s : State) (e : Nat) (f : Engine → Engine) : (modEngine s e f).oldCode = s.oldCode := rfl
@[simp] theorem modEngine_plots (s : State) (e : Nat) (f : Engine → Engine) : (modEngine s e f).plots = s.plots := rfl
@[simp] theorem modEngine_cores (s : State) (e : Nat) (f : Engine → Engine) : (modEngine s e f).cores = s.cores := rfl
@[simp] theorem modEngine_dies (s : State) (e : Nat) (f : Engine → Engine) : (modEngine s e f).dies = s.dies := rfl
@[simp] theorem modEngine_beds (s : State) (e : Nat) (f : Engine → Engine) : (modEngine s e f).beds = s.beds := rfl
@[simp] theorem modEngine_launches (s : State) (e : Nat) (f : Engine → Engine) : (modEngine s e f).launches = s.launches := rfl
@[simp] theorem modEngine_copies (s : State) (e : Nat) (f : Engine → Engine) : (modEngine s e f).copies = s.copies := rfl
@[simp] theorem modEngine_bwait (s : State) (e : Nat) (f : Engine → Engine) : (modEngine s e f).bwait = s.bwait := rfl
@[simp] theorem modEngine_searches (s : State) (e : Nat) (f : Engine → Engine) : (modEngine s e f).searches = s.searches := rfl
@[simp] theorem modEngine_batches (s : State) (e : Nat) (f : Engine → Engine) : (modEngine s e f).batches = s.batches := rfl
@[simp] theorem modEngine_indexes (s : State) (e : Nat) (f : Engine → Engine) : (modEngine s e f).indexes = s.indexes := rfl
@[simp] theorem modEngine_ctlSram (s : State) (e : Nat) (f : Engine → Engine) : (modEngine s e f).ctlSram = s.ctlSram := rfl
@[simp] theorem modEngine_colls (s : State) (e : Nat) (f : Engine → Engine) : (modEngine s e f).colls = s.colls := rfl
@[simp] theorem modEngine_endedColls (s : State) (e : Nat) (f : Engine → Engine) : (modEngine s e f).endedColls = s.endedColls := rfl
@[simp] theorem modEngine_pkts (s : State) (e : Nat) (f : Engine → Engine) : (modEngine s e f).pkts = s.pkts := rfl
@[simp] theorem modEngine_pins (s : State) (e : Nat) (f : Engine → Engine) : (modEngine s e f).pins = s.pins := rfl
@[simp] theorem modEngine_pdtest (s : State) (e : Nat) (f : Engine → Engine) : (modEngine s e f).pdtest = s.pdtest := rfl
@[simp] theorem modEngine_amsan (s : State) (e : Nat) (f : Engine → Engine) : (modEngine s e f).amsan = s.amsan := rfl
@[simp] theorem modEngine_groups (s : State) (e : Nat) (f : Engine → Engine) : (modEngine s e f).groups = s.groups := rfl
@[simp] theorem modEngine_sideUsed (s : State) (e : Nat) (f : Engine → Engine) : (modEngine s e f).sideUsed = s.sideUsed := rfl
@[simp] theorem modEngine_portSeq (s : State) (e : Nat) (f : Engine → Engine) : (modEngine s e f).portSeq = s.portSeq := rfl
@[simp] theorem modEngine_frames (s : State) (e : Nat) (f : Engine → Engine) : (modEngine s e f).frames = s.frames := rfl
@[simp] theorem modEngine_held (s : State) (e : Nat) (f : Engine → Engine) : (modEngine s e f).held = s.held := rfl
@[simp] theorem modEngine_hostIf (s : State) (e : Nat) (f : Engine → Engine) : (modEngine s e f).hostIf = s.hostIf := rfl
@[simp] theorem modEngine_mgmt (s : State) (e : Nat) (f : Engine → Engine) : (modEngine s e f).mgmt = s.mgmt := rfl
@[simp] theorem modEngine_evlog (s : State) (e : Nat) (f : Engine → Engine) : (modEngine s e f).evlog = s.evlog := rfl
@[simp] theorem modEngine_evlost (s : State) (e : Nat) (f : Engine → Engine) : (modEngine s e f).evlost = s.evlost := rfl
@[simp] theorem modEngine_killCores (s : State) (e : Nat) (f : Engine → Engine) : (modEngine s e f).killCores = s.killCores := rfl
@[simp] theorem modEngine_nextLaunch (s : State) (e : Nat) (f : Engine → Engine) : (modEngine s e f).nextLaunch = s.nextLaunch := rfl
@[simp] theorem modEngine_poolUsed (s : State) (e : Nat) (f : Engine → Engine) : (modEngine s e f).poolUsed = s.poolUsed := rfl
@[simp] theorem modEngine_snapStall (s : State) (e : Nat) (f : Engine → Engine) : (modEngine s e f).snapStall = s.snapStall := rfl
@[simp] theorem modEngine_holdRelease (s : State) (e : Nat) (f : Engine → Engine) : (modEngine s e f).holdRelease = s.holdRelease := rfl
@[simp] theorem modEngine_powered (s : State) (e : Nat) (f : Engine → Engine) : (modEngine s e f).powered = s.powered := rfl
@[simp] theorem modEngine_agenda (s : State) (e : Nat) (f : Engine → Engine) : (modEngine s e f).agenda = s.agenda := rfl
@[simp] theorem modEngine_agent (s : State) (e : Nat) (f : Engine → Engine) : (modEngine s e f).agent = s.agent := rfl
@[simp] theorem modEngine_ticks (s : State) (e : Nat) (f : Engine → Engine) : (modEngine s e f).ticks = s.ticks := rfl
@[simp] theorem modEngine_nextKey (s : State) (e : Nat) (f : Engine → Engine) : (modEngine s e f).nextKey = s.nextKey := rfl

theorem getEngine_modEngine (s : State) (e j : Nat) (f : Engine → Engine) :
    getEngine (modEngine s e f) j = if j = e then f (getEngine s e) else getEngine s j := mget_mset ..


/-! ## A bed -/

/-- A bed's change touches only the beds. -/
theorem modBed_only (s : State) (b : Nat) (f : Bed → Bed) : ∃ m, modBed s b f = { s with beds := m } := by
  unfold modBed
  split
  · exact ⟨_, rfl⟩
  · exact ⟨s.beds, rfl⟩

@[simp] theorem modBed_mem (s : State) (b : Nat) (f : Bed → Bed) : (modBed s b f).mem = s.mem := by
  obtain ⟨m, h⟩ := modBed_only s b f
  rw [h]
@[simp] theorem modBed_memPoison (s : State) (b : Nat) (f : Bed → Bed) : (modBed s b f).memPoison = s.memPoison := by
  obtain ⟨m, h⟩ := modBed_only s b f
  rw [h]
@[simp] theorem modBed_home (s : State) (b : Nat) (f : Bed → Bed) : (modBed s b f).home = s.home := by
  obtain ⟨m, h⟩ := modBed_only s b f
  rw [h]
@[simp] theorem modBed_l2 (s : State) (b : Nat) (f : Bed → Bed) : (modBed s b f).l2 = s.l2 := by
  obtain ⟨m, h⟩ := modBed_only s b f
  rw [h]
@[simp] theorem modBed_tlb (s : State) (b : Nat) (f : Bed → Bed) : (modBed s b f).tlb = s.tlb := by
  obtain ⟨m, h⟩ := modBed_only s b f
  rw [h]
@[simp] theorem modBed_oldFrames (s : State) (b : Nat) (f : Bed → Bed) : (modBed s b f).oldFrames = s.oldFrames := by
  obtain ⟨m, h⟩ := modBed_only s b f
  rw [h]
@[simp] theorem modBed_early (s : State) (b : Nat) (f : Bed → Bed) : (modBed s b f).early = s.early := by
  obtain ⟨m, h⟩ := modBed_only s b f
  rw [h]
@[simp] theorem modBed_oldCode (s : State) (b : Nat) (f : Bed → Bed) : (modBed s b f).oldCode = s.oldCode := by
  obtain ⟨m, h⟩ := modBed_only s b f
  rw [h]
@[simp] theorem modBed_plots (s : State) (b : Nat) (f : Bed → Bed) : (modBed s b f).plots = s.plots := by
  obtain ⟨m, h⟩ := modBed_only s b f
  rw [h]
@[simp] theorem modBed_cores (s : State) (b : Nat) (f : Bed → Bed) : (modBed s b f).cores = s.cores := by
  obtain ⟨m, h⟩ := modBed_only s b f
  rw [h]
@[simp] theorem modBed_dies (s : State) (b : Nat) (f : Bed → Bed) : (modBed s b f).dies = s.dies := by
  obtain ⟨m, h⟩ := modBed_only s b f
  rw [h]
@[simp] theorem modBed_launches (s : State) (b : Nat) (f : Bed → Bed) : (modBed s b f).launches = s.launches := by
  obtain ⟨m, h⟩ := modBed_only s b f
  rw [h]
@[simp] theorem modBed_copies (s : State) (b : Nat) (f : Bed → Bed) : (modBed s b f).copies = s.copies := by
  obtain ⟨m, h⟩ := modBed_only s b f
  rw [h]
@[simp] theorem modBed_bwait (s : State) (b : Nat) (f : Bed → Bed) : (modBed s b f).bwait = s.bwait := by
  obtain ⟨m, h⟩ := modBed_only s b f
  rw [h]
@[simp] theorem modBed_engines (s : State) (b : Nat) (f : Bed → Bed) : (modBed s b f).engines = s.engines := by
  obtain ⟨m, h⟩ := modBed_only s b f
  rw [h]
@[simp] theorem modBed_searches (s : State) (b : Nat) (f : Bed → Bed) : (modBed s b f).searches = s.searches := by
  obtain ⟨m, h⟩ := modBed_only s b f
  rw [h]
@[simp] theorem modBed_batches (s : State) (b : Nat) (f : Bed → Bed) : (modBed s b f).batches = s.batches := by
  obtain ⟨m, h⟩ := modBed_only s b f
  rw [h]
@[simp] theorem modBed_indexes (s : State) (b : Nat) (f : Bed → Bed) : (modBed s b f).indexes = s.indexes := by
  obtain ⟨m, h⟩ := modBed_only s b f
  rw [h]
@[simp] theorem modBed_ctlSram (s : State) (b : Nat) (f : Bed → Bed) : (modBed s b f).ctlSram = s.ctlSram := by
  obtain ⟨m, h⟩ := modBed_only s b f
  rw [h]
@[simp] theorem modBed_colls (s : State) (b : Nat) (f : Bed → Bed) : (modBed s b f).colls = s.colls := by
  obtain ⟨m, h⟩ := modBed_only s b f
  rw [h]
@[simp] theorem modBed_endedColls (s : State) (b : Nat) (f : Bed → Bed) : (modBed s b f).endedColls = s.endedColls := by
  obtain ⟨m, h⟩ := modBed_only s b f
  rw [h]
@[simp] theorem modBed_pkts (s : State) (b : Nat) (f : Bed → Bed) : (modBed s b f).pkts = s.pkts := by
  obtain ⟨m, h⟩ := modBed_only s b f
  rw [h]
@[simp] theorem modBed_pins (s : State) (b : Nat) (f : Bed → Bed) : (modBed s b f).pins = s.pins := by
  obtain ⟨m, h⟩ := modBed_only s b f
  rw [h]
@[simp] theorem modBed_pdtest (s : State) (b : Nat) (f : Bed → Bed) : (modBed s b f).pdtest = s.pdtest := by
  obtain ⟨m, h⟩ := modBed_only s b f
  rw [h]
@[simp] theorem modBed_amsan (s : State) (b : Nat) (f : Bed → Bed) : (modBed s b f).amsan = s.amsan := by
  obtain ⟨m, h⟩ := modBed_only s b f
  rw [h]
@[simp] theorem modBed_groups (s : State) (b : Nat) (f : Bed → Bed) : (modBed s b f).groups = s.groups := by
  obtain ⟨m, h⟩ := modBed_only s b f
  rw [h]
@[simp] theorem modBed_sideUsed (s : State) (b : Nat) (f : Bed → Bed) : (modBed s b f).sideUsed = s.sideUsed := by
  obtain ⟨m, h⟩ := modBed_only s b f
  rw [h]
@[simp] theorem modBed_portSeq (s : State) (b : Nat) (f : Bed → Bed) : (modBed s b f).portSeq = s.portSeq := by
  obtain ⟨m, h⟩ := modBed_only s b f
  rw [h]
@[simp] theorem modBed_frames (s : State) (b : Nat) (f : Bed → Bed) : (modBed s b f).frames = s.frames := by
  obtain ⟨m, h⟩ := modBed_only s b f
  rw [h]
@[simp] theorem modBed_held (s : State) (b : Nat) (f : Bed → Bed) : (modBed s b f).held = s.held := by
  obtain ⟨m, h⟩ := modBed_only s b f
  rw [h]
@[simp] theorem modBed_hostIf (s : State) (b : Nat) (f : Bed → Bed) : (modBed s b f).hostIf = s.hostIf := by
  obtain ⟨m, h⟩ := modBed_only s b f
  rw [h]
@[simp] theorem modBed_mgmt (s : State) (b : Nat) (f : Bed → Bed) : (modBed s b f).mgmt = s.mgmt := by
  obtain ⟨m, h⟩ := modBed_only s b f
  rw [h]
@[simp] theorem modBed_evlog (s : State) (b : Nat) (f : Bed → Bed) : (modBed s b f).evlog = s.evlog := by
  obtain ⟨m, h⟩ := modBed_only s b f
  rw [h]
@[simp] theorem modBed_evlost (s : State) (b : Nat) (f : Bed → Bed) : (modBed s b f).evlost = s.evlost := by
  obtain ⟨m, h⟩ := modBed_only s b f
  rw [h]
@[simp] theorem modBed_killCores (s : State) (b : Nat) (f : Bed → Bed) : (modBed s b f).killCores = s.killCores := by
  obtain ⟨m, h⟩ := modBed_only s b f
  rw [h]
@[simp] theorem modBed_nextLaunch (s : State) (b : Nat) (f : Bed → Bed) : (modBed s b f).nextLaunch = s.nextLaunch := by
  obtain ⟨m, h⟩ := modBed_only s b f
  rw [h]
@[simp] theorem modBed_poolUsed (s : State) (b : Nat) (f : Bed → Bed) : (modBed s b f).poolUsed = s.poolUsed := by
  obtain ⟨m, h⟩ := modBed_only s b f
  rw [h]
@[simp] theorem modBed_snapStall (s : State) (b : Nat) (f : Bed → Bed) : (modBed s b f).snapStall = s.snapStall := by
  obtain ⟨m, h⟩ := modBed_only s b f
  rw [h]
@[simp] theorem modBed_holdRelease (s : State) (b : Nat) (f : Bed → Bed) : (modBed s b f).holdRelease = s.holdRelease := by
  obtain ⟨m, h⟩ := modBed_only s b f
  rw [h]
@[simp] theorem modBed_powered (s : State) (b : Nat) (f : Bed → Bed) : (modBed s b f).powered = s.powered := by
  obtain ⟨m, h⟩ := modBed_only s b f
  rw [h]
@[simp] theorem modBed_agenda (s : State) (b : Nat) (f : Bed → Bed) : (modBed s b f).agenda = s.agenda := by
  obtain ⟨m, h⟩ := modBed_only s b f
  rw [h]
@[simp] theorem modBed_agent (s : State) (b : Nat) (f : Bed → Bed) : (modBed s b f).agent = s.agent := by
  obtain ⟨m, h⟩ := modBed_only s b f
  rw [h]
@[simp] theorem modBed_ticks (s : State) (b : Nat) (f : Bed → Bed) : (modBed s b f).ticks = s.ticks := by
  obtain ⟨m, h⟩ := modBed_only s b f
  rw [h]
@[simp] theorem modBed_nextKey (s : State) (b : Nat) (f : Bed → Bed) : (modBed s b f).nextKey = s.nextKey := by
  obtain ⟨m, h⟩ := modBed_only s b f
  rw [h]

theorem getBed_modBed (s : State) (b j : Nat) (f : Bed → Bed) :
    getBed (modBed s b f) j = if j = b then (getBed s b).map f else getBed s j := by
  unfold modBed
  cases h : getBed s b with
  | none =>
    by_cases hj : j = b
    · subst hj; simp [h]
    · simp [hj]
  | some bd => simpa [getBed] using mfind_mset s.beds b j (f bd)


/-! ## A launch -/

/-- A launch's change touches only the launches. -/
theorem modLaunch_only (s : State) (l : Nat) (f : Launch → Launch) : ∃ m, modLaunch s l f = { s with launches := m } := by
  unfold modLaunch
  split
  · exact ⟨_, rfl⟩
  · exact ⟨s.launches, rfl⟩

@[simp] theorem modLaunch_mem (s : State) (l : Nat) (f : Launch → Launch) : (modLaunch s l f).mem = s.mem := by
  obtain ⟨m, h⟩ := modLaunch_only s l f
  rw [h]
@[simp] theorem modLaunch_memPoison (s : State) (l : Nat) (f : Launch → Launch) : (modLaunch s l f).memPoison = s.memPoison := by
  obtain ⟨m, h⟩ := modLaunch_only s l f
  rw [h]
@[simp] theorem modLaunch_home (s : State) (l : Nat) (f : Launch → Launch) : (modLaunch s l f).home = s.home := by
  obtain ⟨m, h⟩ := modLaunch_only s l f
  rw [h]
@[simp] theorem modLaunch_l2 (s : State) (l : Nat) (f : Launch → Launch) : (modLaunch s l f).l2 = s.l2 := by
  obtain ⟨m, h⟩ := modLaunch_only s l f
  rw [h]
@[simp] theorem modLaunch_tlb (s : State) (l : Nat) (f : Launch → Launch) : (modLaunch s l f).tlb = s.tlb := by
  obtain ⟨m, h⟩ := modLaunch_only s l f
  rw [h]
@[simp] theorem modLaunch_oldFrames (s : State) (l : Nat) (f : Launch → Launch) : (modLaunch s l f).oldFrames = s.oldFrames := by
  obtain ⟨m, h⟩ := modLaunch_only s l f
  rw [h]
@[simp] theorem modLaunch_early (s : State) (l : Nat) (f : Launch → Launch) : (modLaunch s l f).early = s.early := by
  obtain ⟨m, h⟩ := modLaunch_only s l f
  rw [h]
@[simp] theorem modLaunch_oldCode (s : State) (l : Nat) (f : Launch → Launch) : (modLaunch s l f).oldCode = s.oldCode := by
  obtain ⟨m, h⟩ := modLaunch_only s l f
  rw [h]
@[simp] theorem modLaunch_plots (s : State) (l : Nat) (f : Launch → Launch) : (modLaunch s l f).plots = s.plots := by
  obtain ⟨m, h⟩ := modLaunch_only s l f
  rw [h]
@[simp] theorem modLaunch_cores (s : State) (l : Nat) (f : Launch → Launch) : (modLaunch s l f).cores = s.cores := by
  obtain ⟨m, h⟩ := modLaunch_only s l f
  rw [h]
@[simp] theorem modLaunch_dies (s : State) (l : Nat) (f : Launch → Launch) : (modLaunch s l f).dies = s.dies := by
  obtain ⟨m, h⟩ := modLaunch_only s l f
  rw [h]
@[simp] theorem modLaunch_beds (s : State) (l : Nat) (f : Launch → Launch) : (modLaunch s l f).beds = s.beds := by
  obtain ⟨m, h⟩ := modLaunch_only s l f
  rw [h]
@[simp] theorem modLaunch_copies (s : State) (l : Nat) (f : Launch → Launch) : (modLaunch s l f).copies = s.copies := by
  obtain ⟨m, h⟩ := modLaunch_only s l f
  rw [h]
@[simp] theorem modLaunch_bwait (s : State) (l : Nat) (f : Launch → Launch) : (modLaunch s l f).bwait = s.bwait := by
  obtain ⟨m, h⟩ := modLaunch_only s l f
  rw [h]
@[simp] theorem modLaunch_engines (s : State) (l : Nat) (f : Launch → Launch) : (modLaunch s l f).engines = s.engines := by
  obtain ⟨m, h⟩ := modLaunch_only s l f
  rw [h]
@[simp] theorem modLaunch_searches (s : State) (l : Nat) (f : Launch → Launch) : (modLaunch s l f).searches = s.searches := by
  obtain ⟨m, h⟩ := modLaunch_only s l f
  rw [h]
@[simp] theorem modLaunch_batches (s : State) (l : Nat) (f : Launch → Launch) : (modLaunch s l f).batches = s.batches := by
  obtain ⟨m, h⟩ := modLaunch_only s l f
  rw [h]
@[simp] theorem modLaunch_indexes (s : State) (l : Nat) (f : Launch → Launch) : (modLaunch s l f).indexes = s.indexes := by
  obtain ⟨m, h⟩ := modLaunch_only s l f
  rw [h]
@[simp] theorem modLaunch_ctlSram (s : State) (l : Nat) (f : Launch → Launch) : (modLaunch s l f).ctlSram = s.ctlSram := by
  obtain ⟨m, h⟩ := modLaunch_only s l f
  rw [h]
@[simp] theorem modLaunch_colls (s : State) (l : Nat) (f : Launch → Launch) : (modLaunch s l f).colls = s.colls := by
  obtain ⟨m, h⟩ := modLaunch_only s l f
  rw [h]
@[simp] theorem modLaunch_endedColls (s : State) (l : Nat) (f : Launch → Launch) : (modLaunch s l f).endedColls = s.endedColls := by
  obtain ⟨m, h⟩ := modLaunch_only s l f
  rw [h]
@[simp] theorem modLaunch_pkts (s : State) (l : Nat) (f : Launch → Launch) : (modLaunch s l f).pkts = s.pkts := by
  obtain ⟨m, h⟩ := modLaunch_only s l f
  rw [h]
@[simp] theorem modLaunch_pins (s : State) (l : Nat) (f : Launch → Launch) : (modLaunch s l f).pins = s.pins := by
  obtain ⟨m, h⟩ := modLaunch_only s l f
  rw [h]
@[simp] theorem modLaunch_pdtest (s : State) (l : Nat) (f : Launch → Launch) : (modLaunch s l f).pdtest = s.pdtest := by
  obtain ⟨m, h⟩ := modLaunch_only s l f
  rw [h]
@[simp] theorem modLaunch_amsan (s : State) (l : Nat) (f : Launch → Launch) : (modLaunch s l f).amsan = s.amsan := by
  obtain ⟨m, h⟩ := modLaunch_only s l f
  rw [h]
@[simp] theorem modLaunch_groups (s : State) (l : Nat) (f : Launch → Launch) : (modLaunch s l f).groups = s.groups := by
  obtain ⟨m, h⟩ := modLaunch_only s l f
  rw [h]
@[simp] theorem modLaunch_sideUsed (s : State) (l : Nat) (f : Launch → Launch) : (modLaunch s l f).sideUsed = s.sideUsed := by
  obtain ⟨m, h⟩ := modLaunch_only s l f
  rw [h]
@[simp] theorem modLaunch_portSeq (s : State) (l : Nat) (f : Launch → Launch) : (modLaunch s l f).portSeq = s.portSeq := by
  obtain ⟨m, h⟩ := modLaunch_only s l f
  rw [h]
@[simp] theorem modLaunch_frames (s : State) (l : Nat) (f : Launch → Launch) : (modLaunch s l f).frames = s.frames := by
  obtain ⟨m, h⟩ := modLaunch_only s l f
  rw [h]
@[simp] theorem modLaunch_held (s : State) (l : Nat) (f : Launch → Launch) : (modLaunch s l f).held = s.held := by
  obtain ⟨m, h⟩ := modLaunch_only s l f
  rw [h]
@[simp] theorem modLaunch_hostIf (s : State) (l : Nat) (f : Launch → Launch) : (modLaunch s l f).hostIf = s.hostIf := by
  obtain ⟨m, h⟩ := modLaunch_only s l f
  rw [h]
@[simp] theorem modLaunch_mgmt (s : State) (l : Nat) (f : Launch → Launch) : (modLaunch s l f).mgmt = s.mgmt := by
  obtain ⟨m, h⟩ := modLaunch_only s l f
  rw [h]
@[simp] theorem modLaunch_evlog (s : State) (l : Nat) (f : Launch → Launch) : (modLaunch s l f).evlog = s.evlog := by
  obtain ⟨m, h⟩ := modLaunch_only s l f
  rw [h]
@[simp] theorem modLaunch_evlost (s : State) (l : Nat) (f : Launch → Launch) : (modLaunch s l f).evlost = s.evlost := by
  obtain ⟨m, h⟩ := modLaunch_only s l f
  rw [h]
@[simp] theorem modLaunch_killCores (s : State) (l : Nat) (f : Launch → Launch) : (modLaunch s l f).killCores = s.killCores := by
  obtain ⟨m, h⟩ := modLaunch_only s l f
  rw [h]
@[simp] theorem modLaunch_nextLaunch (s : State) (l : Nat) (f : Launch → Launch) : (modLaunch s l f).nextLaunch = s.nextLaunch := by
  obtain ⟨m, h⟩ := modLaunch_only s l f
  rw [h]
@[simp] theorem modLaunch_poolUsed (s : State) (l : Nat) (f : Launch → Launch) : (modLaunch s l f).poolUsed = s.poolUsed := by
  obtain ⟨m, h⟩ := modLaunch_only s l f
  rw [h]
@[simp] theorem modLaunch_snapStall (s : State) (l : Nat) (f : Launch → Launch) : (modLaunch s l f).snapStall = s.snapStall := by
  obtain ⟨m, h⟩ := modLaunch_only s l f
  rw [h]
@[simp] theorem modLaunch_holdRelease (s : State) (l : Nat) (f : Launch → Launch) : (modLaunch s l f).holdRelease = s.holdRelease := by
  obtain ⟨m, h⟩ := modLaunch_only s l f
  rw [h]
@[simp] theorem modLaunch_powered (s : State) (l : Nat) (f : Launch → Launch) : (modLaunch s l f).powered = s.powered := by
  obtain ⟨m, h⟩ := modLaunch_only s l f
  rw [h]
@[simp] theorem modLaunch_agenda (s : State) (l : Nat) (f : Launch → Launch) : (modLaunch s l f).agenda = s.agenda := by
  obtain ⟨m, h⟩ := modLaunch_only s l f
  rw [h]
@[simp] theorem modLaunch_agent (s : State) (l : Nat) (f : Launch → Launch) : (modLaunch s l f).agent = s.agent := by
  obtain ⟨m, h⟩ := modLaunch_only s l f
  rw [h]
@[simp] theorem modLaunch_ticks (s : State) (l : Nat) (f : Launch → Launch) : (modLaunch s l f).ticks = s.ticks := by
  obtain ⟨m, h⟩ := modLaunch_only s l f
  rw [h]
@[simp] theorem modLaunch_nextKey (s : State) (l : Nat) (f : Launch → Launch) : (modLaunch s l f).nextKey = s.nextKey := by
  obtain ⟨m, h⟩ := modLaunch_only s l f
  rw [h]

theorem getLaunch_modLaunch (s : State) (l j : Nat) (f : Launch → Launch) :
    getLaunch (modLaunch s l f) j = if j = l then (getLaunch s l).map f else getLaunch s j := by
  unfold modLaunch
  cases h : getLaunch s l with
  | none =>
    by_cases hj : j = l
    · subst hj; simp [h]
    · simp [hj]
  | some x => simpa [getLaunch] using mfind_mset s.launches l j (f x)


/-! ## A sheaf -/

@[simp] theorem setSheaf_mem (s : State) (b w : Nat) (sh : Sheaf) : (setSheaf s b w sh).mem = s.mem := modBed_mem ..
@[simp] theorem setSheaf_memPoison (s : State) (b w : Nat) (sh : Sheaf) : (setSheaf s b w sh).memPoison = s.memPoison := modBed_memPoison ..
@[simp] theorem setSheaf_home (s : State) (b w : Nat) (sh : Sheaf) : (setSheaf s b w sh).home = s.home := modBed_home ..
@[simp] theorem setSheaf_l2 (s : State) (b w : Nat) (sh : Sheaf) : (setSheaf s b w sh).l2 = s.l2 := modBed_l2 ..
@[simp] theorem setSheaf_tlb (s : State) (b w : Nat) (sh : Sheaf) : (setSheaf s b w sh).tlb = s.tlb := modBed_tlb ..
@[simp] theorem setSheaf_oldFrames (s : State) (b w : Nat) (sh : Sheaf) : (setSheaf s b w sh).oldFrames = s.oldFrames := modBed_oldFrames ..
@[simp] theorem setSheaf_early (s : State) (b w : Nat) (sh : Sheaf) : (setSheaf s b w sh).early = s.early := modBed_early ..
@[simp] theorem setSheaf_oldCode (s : State) (b w : Nat) (sh : Sheaf) : (setSheaf s b w sh).oldCode = s.oldCode := modBed_oldCode ..
@[simp] theorem setSheaf_plots (s : State) (b w : Nat) (sh : Sheaf) : (setSheaf s b w sh).plots = s.plots := modBed_plots ..
@[simp] theorem setSheaf_cores (s : State) (b w : Nat) (sh : Sheaf) : (setSheaf s b w sh).cores = s.cores := modBed_cores ..
@[simp] theorem setSheaf_dies (s : State) (b w : Nat) (sh : Sheaf) : (setSheaf s b w sh).dies = s.dies := modBed_dies ..
@[simp] theorem setSheaf_launches (s : State) (b w : Nat) (sh : Sheaf) : (setSheaf s b w sh).launches = s.launches := modBed_launches ..
@[simp] theorem setSheaf_copies (s : State) (b w : Nat) (sh : Sheaf) : (setSheaf s b w sh).copies = s.copies := modBed_copies ..
@[simp] theorem setSheaf_bwait (s : State) (b w : Nat) (sh : Sheaf) : (setSheaf s b w sh).bwait = s.bwait := modBed_bwait ..
@[simp] theorem setSheaf_engines (s : State) (b w : Nat) (sh : Sheaf) : (setSheaf s b w sh).engines = s.engines := modBed_engines ..
@[simp] theorem setSheaf_searches (s : State) (b w : Nat) (sh : Sheaf) : (setSheaf s b w sh).searches = s.searches := modBed_searches ..
@[simp] theorem setSheaf_batches (s : State) (b w : Nat) (sh : Sheaf) : (setSheaf s b w sh).batches = s.batches := modBed_batches ..
@[simp] theorem setSheaf_indexes (s : State) (b w : Nat) (sh : Sheaf) : (setSheaf s b w sh).indexes = s.indexes := modBed_indexes ..
@[simp] theorem setSheaf_ctlSram (s : State) (b w : Nat) (sh : Sheaf) : (setSheaf s b w sh).ctlSram = s.ctlSram := modBed_ctlSram ..
@[simp] theorem setSheaf_colls (s : State) (b w : Nat) (sh : Sheaf) : (setSheaf s b w sh).colls = s.colls := modBed_colls ..
@[simp] theorem setSheaf_endedColls (s : State) (b w : Nat) (sh : Sheaf) : (setSheaf s b w sh).endedColls = s.endedColls := modBed_endedColls ..
@[simp] theorem setSheaf_pkts (s : State) (b w : Nat) (sh : Sheaf) : (setSheaf s b w sh).pkts = s.pkts := modBed_pkts ..
@[simp] theorem setSheaf_pins (s : State) (b w : Nat) (sh : Sheaf) : (setSheaf s b w sh).pins = s.pins := modBed_pins ..
@[simp] theorem setSheaf_pdtest (s : State) (b w : Nat) (sh : Sheaf) : (setSheaf s b w sh).pdtest = s.pdtest := modBed_pdtest ..
@[simp] theorem setSheaf_amsan (s : State) (b w : Nat) (sh : Sheaf) : (setSheaf s b w sh).amsan = s.amsan := modBed_amsan ..
@[simp] theorem setSheaf_groups (s : State) (b w : Nat) (sh : Sheaf) : (setSheaf s b w sh).groups = s.groups := modBed_groups ..
@[simp] theorem setSheaf_sideUsed (s : State) (b w : Nat) (sh : Sheaf) : (setSheaf s b w sh).sideUsed = s.sideUsed := modBed_sideUsed ..
@[simp] theorem setSheaf_portSeq (s : State) (b w : Nat) (sh : Sheaf) : (setSheaf s b w sh).portSeq = s.portSeq := modBed_portSeq ..
@[simp] theorem setSheaf_frames (s : State) (b w : Nat) (sh : Sheaf) : (setSheaf s b w sh).frames = s.frames := modBed_frames ..
@[simp] theorem setSheaf_held (s : State) (b w : Nat) (sh : Sheaf) : (setSheaf s b w sh).held = s.held := modBed_held ..
@[simp] theorem setSheaf_hostIf (s : State) (b w : Nat) (sh : Sheaf) : (setSheaf s b w sh).hostIf = s.hostIf := modBed_hostIf ..
@[simp] theorem setSheaf_mgmt (s : State) (b w : Nat) (sh : Sheaf) : (setSheaf s b w sh).mgmt = s.mgmt := modBed_mgmt ..
@[simp] theorem setSheaf_evlog (s : State) (b w : Nat) (sh : Sheaf) : (setSheaf s b w sh).evlog = s.evlog := modBed_evlog ..
@[simp] theorem setSheaf_evlost (s : State) (b w : Nat) (sh : Sheaf) : (setSheaf s b w sh).evlost = s.evlost := modBed_evlost ..
@[simp] theorem setSheaf_killCores (s : State) (b w : Nat) (sh : Sheaf) : (setSheaf s b w sh).killCores = s.killCores := modBed_killCores ..
@[simp] theorem setSheaf_nextLaunch (s : State) (b w : Nat) (sh : Sheaf) : (setSheaf s b w sh).nextLaunch = s.nextLaunch := modBed_nextLaunch ..
@[simp] theorem setSheaf_poolUsed (s : State) (b w : Nat) (sh : Sheaf) : (setSheaf s b w sh).poolUsed = s.poolUsed := modBed_poolUsed ..
@[simp] theorem setSheaf_snapStall (s : State) (b w : Nat) (sh : Sheaf) : (setSheaf s b w sh).snapStall = s.snapStall := modBed_snapStall ..
@[simp] theorem setSheaf_holdRelease (s : State) (b w : Nat) (sh : Sheaf) : (setSheaf s b w sh).holdRelease = s.holdRelease := modBed_holdRelease ..
@[simp] theorem setSheaf_powered (s : State) (b w : Nat) (sh : Sheaf) : (setSheaf s b w sh).powered = s.powered := modBed_powered ..
@[simp] theorem setSheaf_agenda (s : State) (b w : Nat) (sh : Sheaf) : (setSheaf s b w sh).agenda = s.agenda := modBed_agenda ..
@[simp] theorem setSheaf_agent (s : State) (b w : Nat) (sh : Sheaf) : (setSheaf s b w sh).agent = s.agent := modBed_agent ..
@[simp] theorem setSheaf_ticks (s : State) (b w : Nat) (sh : Sheaf) : (setSheaf s b w sh).ticks = s.ticks := modBed_ticks ..
@[simp] theorem setSheaf_nextKey (s : State) (b w : Nat) (sh : Sheaf) : (setSheaf s b w sh).nextKey = s.nextKey := modBed_nextKey ..

/-- A replaced sheaf reads as it was put; every other sheaf reads as before.  There is a bed to put it into. -/
theorem getSheaf_setSheaf {s : State} {b : Nat} {bd : Bed} (h : getBed s b = some bd) (w : Nat) (sh : Sheaf) (b' w' : Nat) :
    getSheaf (setSheaf s b w sh) b' w' = if b' = b ∧ w' = w then some sh else getSheaf s b' w' := by
  unfold getSheaf setSheaf
  rw [getBed_modBed]
  by_cases hb : b' = b
  · subst hb
    simp only [if_true, h, Option.map_some, true_and, mfind_mset]
  · simp [hb]

theorem getBed_of_getSheaf {s : State} {b w : Nat} {sh : Sheaf} (h : getSheaf s b w = some sh) : ∃ bd, getBed s b = some bd := by
  unfold getSheaf at h
  cases hb : getBed s b with
  | none => simp [hb] at h
  | some bd => exact ⟨bd, rfl⟩

/-- A sheaf's change touches only the beds. -/
theorem modSheaf_only (s : State) (b w : Nat) (f : Sheaf → Sheaf) : ∃ m, modSheaf s b w f = { s with beds := m } := by
  unfold modSheaf
  split
  · exact modBed_only ..
  · exact ⟨s.beds, rfl⟩

@[simp] theorem modSheaf_mem (s : State) (b w : Nat) (f : Sheaf → Sheaf) : (modSheaf s b w f).mem = s.mem := by
  obtain ⟨m, h⟩ := modSheaf_only s b w f
  rw [h]
@[simp] theorem modSheaf_memPoison (s : State) (b w : Nat) (f : Sheaf → Sheaf) : (modSheaf s b w f).memPoison = s.memPoison := by
  obtain ⟨m, h⟩ := modSheaf_only s b w f
  rw [h]
@[simp] theorem modSheaf_home (s : State) (b w : Nat) (f : Sheaf → Sheaf) : (modSheaf s b w f).home = s.home := by
  obtain ⟨m, h⟩ := modSheaf_only s b w f
  rw [h]
@[simp] theorem modSheaf_l2 (s : State) (b w : Nat) (f : Sheaf → Sheaf) : (modSheaf s b w f).l2 = s.l2 := by
  obtain ⟨m, h⟩ := modSheaf_only s b w f
  rw [h]
@[simp] theorem modSheaf_tlb (s : State) (b w : Nat) (f : Sheaf → Sheaf) : (modSheaf s b w f).tlb = s.tlb := by
  obtain ⟨m, h⟩ := modSheaf_only s b w f
  rw [h]
@[simp] theorem modSheaf_oldFrames (s : State) (b w : Nat) (f : Sheaf → Sheaf) : (modSheaf s b w f).oldFrames = s.oldFrames := by
  obtain ⟨m, h⟩ := modSheaf_only s b w f
  rw [h]
@[simp] theorem modSheaf_early (s : State) (b w : Nat) (f : Sheaf → Sheaf) : (modSheaf s b w f).early = s.early := by
  obtain ⟨m, h⟩ := modSheaf_only s b w f
  rw [h]
@[simp] theorem modSheaf_oldCode (s : State) (b w : Nat) (f : Sheaf → Sheaf) : (modSheaf s b w f).oldCode = s.oldCode := by
  obtain ⟨m, h⟩ := modSheaf_only s b w f
  rw [h]
@[simp] theorem modSheaf_plots (s : State) (b w : Nat) (f : Sheaf → Sheaf) : (modSheaf s b w f).plots = s.plots := by
  obtain ⟨m, h⟩ := modSheaf_only s b w f
  rw [h]
@[simp] theorem modSheaf_cores (s : State) (b w : Nat) (f : Sheaf → Sheaf) : (modSheaf s b w f).cores = s.cores := by
  obtain ⟨m, h⟩ := modSheaf_only s b w f
  rw [h]
@[simp] theorem modSheaf_dies (s : State) (b w : Nat) (f : Sheaf → Sheaf) : (modSheaf s b w f).dies = s.dies := by
  obtain ⟨m, h⟩ := modSheaf_only s b w f
  rw [h]
@[simp] theorem modSheaf_launches (s : State) (b w : Nat) (f : Sheaf → Sheaf) : (modSheaf s b w f).launches = s.launches := by
  obtain ⟨m, h⟩ := modSheaf_only s b w f
  rw [h]
@[simp] theorem modSheaf_copies (s : State) (b w : Nat) (f : Sheaf → Sheaf) : (modSheaf s b w f).copies = s.copies := by
  obtain ⟨m, h⟩ := modSheaf_only s b w f
  rw [h]
@[simp] theorem modSheaf_bwait (s : State) (b w : Nat) (f : Sheaf → Sheaf) : (modSheaf s b w f).bwait = s.bwait := by
  obtain ⟨m, h⟩ := modSheaf_only s b w f
  rw [h]
@[simp] theorem modSheaf_engines (s : State) (b w : Nat) (f : Sheaf → Sheaf) : (modSheaf s b w f).engines = s.engines := by
  obtain ⟨m, h⟩ := modSheaf_only s b w f
  rw [h]
@[simp] theorem modSheaf_searches (s : State) (b w : Nat) (f : Sheaf → Sheaf) : (modSheaf s b w f).searches = s.searches := by
  obtain ⟨m, h⟩ := modSheaf_only s b w f
  rw [h]
@[simp] theorem modSheaf_batches (s : State) (b w : Nat) (f : Sheaf → Sheaf) : (modSheaf s b w f).batches = s.batches := by
  obtain ⟨m, h⟩ := modSheaf_only s b w f
  rw [h]
@[simp] theorem modSheaf_indexes (s : State) (b w : Nat) (f : Sheaf → Sheaf) : (modSheaf s b w f).indexes = s.indexes := by
  obtain ⟨m, h⟩ := modSheaf_only s b w f
  rw [h]
@[simp] theorem modSheaf_ctlSram (s : State) (b w : Nat) (f : Sheaf → Sheaf) : (modSheaf s b w f).ctlSram = s.ctlSram := by
  obtain ⟨m, h⟩ := modSheaf_only s b w f
  rw [h]
@[simp] theorem modSheaf_colls (s : State) (b w : Nat) (f : Sheaf → Sheaf) : (modSheaf s b w f).colls = s.colls := by
  obtain ⟨m, h⟩ := modSheaf_only s b w f
  rw [h]
@[simp] theorem modSheaf_endedColls (s : State) (b w : Nat) (f : Sheaf → Sheaf) : (modSheaf s b w f).endedColls = s.endedColls := by
  obtain ⟨m, h⟩ := modSheaf_only s b w f
  rw [h]
@[simp] theorem modSheaf_pkts (s : State) (b w : Nat) (f : Sheaf → Sheaf) : (modSheaf s b w f).pkts = s.pkts := by
  obtain ⟨m, h⟩ := modSheaf_only s b w f
  rw [h]
@[simp] theorem modSheaf_pins (s : State) (b w : Nat) (f : Sheaf → Sheaf) : (modSheaf s b w f).pins = s.pins := by
  obtain ⟨m, h⟩ := modSheaf_only s b w f
  rw [h]
@[simp] theorem modSheaf_pdtest (s : State) (b w : Nat) (f : Sheaf → Sheaf) : (modSheaf s b w f).pdtest = s.pdtest := by
  obtain ⟨m, h⟩ := modSheaf_only s b w f
  rw [h]
@[simp] theorem modSheaf_amsan (s : State) (b w : Nat) (f : Sheaf → Sheaf) : (modSheaf s b w f).amsan = s.amsan := by
  obtain ⟨m, h⟩ := modSheaf_only s b w f
  rw [h]
@[simp] theorem modSheaf_groups (s : State) (b w : Nat) (f : Sheaf → Sheaf) : (modSheaf s b w f).groups = s.groups := by
  obtain ⟨m, h⟩ := modSheaf_only s b w f
  rw [h]
@[simp] theorem modSheaf_sideUsed (s : State) (b w : Nat) (f : Sheaf → Sheaf) : (modSheaf s b w f).sideUsed = s.sideUsed := by
  obtain ⟨m, h⟩ := modSheaf_only s b w f
  rw [h]
@[simp] theorem modSheaf_portSeq (s : State) (b w : Nat) (f : Sheaf → Sheaf) : (modSheaf s b w f).portSeq = s.portSeq := by
  obtain ⟨m, h⟩ := modSheaf_only s b w f
  rw [h]
@[simp] theorem modSheaf_frames (s : State) (b w : Nat) (f : Sheaf → Sheaf) : (modSheaf s b w f).frames = s.frames := by
  obtain ⟨m, h⟩ := modSheaf_only s b w f
  rw [h]
@[simp] theorem modSheaf_held (s : State) (b w : Nat) (f : Sheaf → Sheaf) : (modSheaf s b w f).held = s.held := by
  obtain ⟨m, h⟩ := modSheaf_only s b w f
  rw [h]
@[simp] theorem modSheaf_hostIf (s : State) (b w : Nat) (f : Sheaf → Sheaf) : (modSheaf s b w f).hostIf = s.hostIf := by
  obtain ⟨m, h⟩ := modSheaf_only s b w f
  rw [h]
@[simp] theorem modSheaf_mgmt (s : State) (b w : Nat) (f : Sheaf → Sheaf) : (modSheaf s b w f).mgmt = s.mgmt := by
  obtain ⟨m, h⟩ := modSheaf_only s b w f
  rw [h]
@[simp] theorem modSheaf_evlog (s : State) (b w : Nat) (f : Sheaf → Sheaf) : (modSheaf s b w f).evlog = s.evlog := by
  obtain ⟨m, h⟩ := modSheaf_only s b w f
  rw [h]
@[simp] theorem modSheaf_evlost (s : State) (b w : Nat) (f : Sheaf → Sheaf) : (modSheaf s b w f).evlost = s.evlost := by
  obtain ⟨m, h⟩ := modSheaf_only s b w f
  rw [h]
@[simp] theorem modSheaf_killCores (s : State) (b w : Nat) (f : Sheaf → Sheaf) : (modSheaf s b w f).killCores = s.killCores := by
  obtain ⟨m, h⟩ := modSheaf_only s b w f
  rw [h]
@[simp] theorem modSheaf_nextLaunch (s : State) (b w : Nat) (f : Sheaf → Sheaf) : (modSheaf s b w f).nextLaunch = s.nextLaunch := by
  obtain ⟨m, h⟩ := modSheaf_only s b w f
  rw [h]
@[simp] theorem modSheaf_poolUsed (s : State) (b w : Nat) (f : Sheaf → Sheaf) : (modSheaf s b w f).poolUsed = s.poolUsed := by
  obtain ⟨m, h⟩ := modSheaf_only s b w f
  rw [h]
@[simp] theorem modSheaf_snapStall (s : State) (b w : Nat) (f : Sheaf → Sheaf) : (modSheaf s b w f).snapStall = s.snapStall := by
  obtain ⟨m, h⟩ := modSheaf_only s b w f
  rw [h]
@[simp] theorem modSheaf_holdRelease (s : State) (b w : Nat) (f : Sheaf → Sheaf) : (modSheaf s b w f).holdRelease = s.holdRelease := by
  obtain ⟨m, h⟩ := modSheaf_only s b w f
  rw [h]
@[simp] theorem modSheaf_powered (s : State) (b w : Nat) (f : Sheaf → Sheaf) : (modSheaf s b w f).powered = s.powered := by
  obtain ⟨m, h⟩ := modSheaf_only s b w f
  rw [h]
@[simp] theorem modSheaf_agenda (s : State) (b w : Nat) (f : Sheaf → Sheaf) : (modSheaf s b w f).agenda = s.agenda := by
  obtain ⟨m, h⟩ := modSheaf_only s b w f
  rw [h]
@[simp] theorem modSheaf_agent (s : State) (b w : Nat) (f : Sheaf → Sheaf) : (modSheaf s b w f).agent = s.agent := by
  obtain ⟨m, h⟩ := modSheaf_only s b w f
  rw [h]
@[simp] theorem modSheaf_ticks (s : State) (b w : Nat) (f : Sheaf → Sheaf) : (modSheaf s b w f).ticks = s.ticks := by
  obtain ⟨m, h⟩ := modSheaf_only s b w f
  rw [h]
@[simp] theorem modSheaf_nextKey (s : State) (b w : Nat) (f : Sheaf → Sheaf) : (modSheaf s b w f).nextKey = s.nextKey := by
  obtain ⟨m, h⟩ := modSheaf_only s b w f
  rw [h]

theorem getSheaf_modSheaf (s : State) (b w : Nat) (f : Sheaf → Sheaf) (b' w' : Nat) :
    getSheaf (modSheaf s b w f) b' w' = if b' = b ∧ w' = w then (getSheaf s b w).map f else getSheaf s b' w' := by
  unfold modSheaf
  cases h : getSheaf s b w with
  | none =>
    by_cases hj : b' = b ∧ w' = w
    · obtain ⟨rfl, rfl⟩ := hj; simp [h]
    · simp [hj]
  | some sh =>
    obtain ⟨bd, hb⟩ := getBed_of_getSheaf h
    simp [getSheaf_setSheaf hb]

@[simp] theorem putSheaf_mem (s : State) (c : Cur) (sh : Sheaf) : (putSheaf s c sh).mem = s.mem := setSheaf_mem ..
@[simp] theorem putSheaf_memPoison (s : State) (c : Cur) (sh : Sheaf) : (putSheaf s c sh).memPoison = s.memPoison := setSheaf_memPoison ..
@[simp] theorem putSheaf_home (s : State) (c : Cur) (sh : Sheaf) : (putSheaf s c sh).home = s.home := setSheaf_home ..
@[simp] theorem putSheaf_l2 (s : State) (c : Cur) (sh : Sheaf) : (putSheaf s c sh).l2 = s.l2 := setSheaf_l2 ..
@[simp] theorem putSheaf_tlb (s : State) (c : Cur) (sh : Sheaf) : (putSheaf s c sh).tlb = s.tlb := setSheaf_tlb ..
@[simp] theorem putSheaf_oldFrames (s : State) (c : Cur) (sh : Sheaf) : (putSheaf s c sh).oldFrames = s.oldFrames := setSheaf_oldFrames ..
@[simp] theorem putSheaf_early (s : State) (c : Cur) (sh : Sheaf) : (putSheaf s c sh).early = s.early := setSheaf_early ..
@[simp] theorem putSheaf_oldCode (s : State) (c : Cur) (sh : Sheaf) : (putSheaf s c sh).oldCode = s.oldCode := setSheaf_oldCode ..
@[simp] theorem putSheaf_plots (s : State) (c : Cur) (sh : Sheaf) : (putSheaf s c sh).plots = s.plots := setSheaf_plots ..
@[simp] theorem putSheaf_cores (s : State) (c : Cur) (sh : Sheaf) : (putSheaf s c sh).cores = s.cores := setSheaf_cores ..
@[simp] theorem putSheaf_dies (s : State) (c : Cur) (sh : Sheaf) : (putSheaf s c sh).dies = s.dies := setSheaf_dies ..
@[simp] theorem putSheaf_launches (s : State) (c : Cur) (sh : Sheaf) : (putSheaf s c sh).launches = s.launches := setSheaf_launches ..
@[simp] theorem putSheaf_copies (s : State) (c : Cur) (sh : Sheaf) : (putSheaf s c sh).copies = s.copies := setSheaf_copies ..
@[simp] theorem putSheaf_bwait (s : State) (c : Cur) (sh : Sheaf) : (putSheaf s c sh).bwait = s.bwait := setSheaf_bwait ..
@[simp] theorem putSheaf_engines (s : State) (c : Cur) (sh : Sheaf) : (putSheaf s c sh).engines = s.engines := setSheaf_engines ..
@[simp] theorem putSheaf_searches (s : State) (c : Cur) (sh : Sheaf) : (putSheaf s c sh).searches = s.searches := setSheaf_searches ..
@[simp] theorem putSheaf_batches (s : State) (c : Cur) (sh : Sheaf) : (putSheaf s c sh).batches = s.batches := setSheaf_batches ..
@[simp] theorem putSheaf_indexes (s : State) (c : Cur) (sh : Sheaf) : (putSheaf s c sh).indexes = s.indexes := setSheaf_indexes ..
@[simp] theorem putSheaf_ctlSram (s : State) (c : Cur) (sh : Sheaf) : (putSheaf s c sh).ctlSram = s.ctlSram := setSheaf_ctlSram ..
@[simp] theorem putSheaf_colls (s : State) (c : Cur) (sh : Sheaf) : (putSheaf s c sh).colls = s.colls := setSheaf_colls ..
@[simp] theorem putSheaf_endedColls (s : State) (c : Cur) (sh : Sheaf) : (putSheaf s c sh).endedColls = s.endedColls := setSheaf_endedColls ..
@[simp] theorem putSheaf_pkts (s : State) (c : Cur) (sh : Sheaf) : (putSheaf s c sh).pkts = s.pkts := setSheaf_pkts ..
@[simp] theorem putSheaf_pins (s : State) (c : Cur) (sh : Sheaf) : (putSheaf s c sh).pins = s.pins := setSheaf_pins ..
@[simp] theorem putSheaf_pdtest (s : State) (c : Cur) (sh : Sheaf) : (putSheaf s c sh).pdtest = s.pdtest := setSheaf_pdtest ..
@[simp] theorem putSheaf_amsan (s : State) (c : Cur) (sh : Sheaf) : (putSheaf s c sh).amsan = s.amsan := setSheaf_amsan ..
@[simp] theorem putSheaf_groups (s : State) (c : Cur) (sh : Sheaf) : (putSheaf s c sh).groups = s.groups := setSheaf_groups ..
@[simp] theorem putSheaf_sideUsed (s : State) (c : Cur) (sh : Sheaf) : (putSheaf s c sh).sideUsed = s.sideUsed := setSheaf_sideUsed ..
@[simp] theorem putSheaf_portSeq (s : State) (c : Cur) (sh : Sheaf) : (putSheaf s c sh).portSeq = s.portSeq := setSheaf_portSeq ..
@[simp] theorem putSheaf_frames (s : State) (c : Cur) (sh : Sheaf) : (putSheaf s c sh).frames = s.frames := setSheaf_frames ..
@[simp] theorem putSheaf_held (s : State) (c : Cur) (sh : Sheaf) : (putSheaf s c sh).held = s.held := setSheaf_held ..
@[simp] theorem putSheaf_hostIf (s : State) (c : Cur) (sh : Sheaf) : (putSheaf s c sh).hostIf = s.hostIf := setSheaf_hostIf ..
@[simp] theorem putSheaf_mgmt (s : State) (c : Cur) (sh : Sheaf) : (putSheaf s c sh).mgmt = s.mgmt := setSheaf_mgmt ..
@[simp] theorem putSheaf_evlog (s : State) (c : Cur) (sh : Sheaf) : (putSheaf s c sh).evlog = s.evlog := setSheaf_evlog ..
@[simp] theorem putSheaf_evlost (s : State) (c : Cur) (sh : Sheaf) : (putSheaf s c sh).evlost = s.evlost := setSheaf_evlost ..
@[simp] theorem putSheaf_killCores (s : State) (c : Cur) (sh : Sheaf) : (putSheaf s c sh).killCores = s.killCores := setSheaf_killCores ..
@[simp] theorem putSheaf_nextLaunch (s : State) (c : Cur) (sh : Sheaf) : (putSheaf s c sh).nextLaunch = s.nextLaunch := setSheaf_nextLaunch ..
@[simp] theorem putSheaf_poolUsed (s : State) (c : Cur) (sh : Sheaf) : (putSheaf s c sh).poolUsed = s.poolUsed := setSheaf_poolUsed ..
@[simp] theorem putSheaf_snapStall (s : State) (c : Cur) (sh : Sheaf) : (putSheaf s c sh).snapStall = s.snapStall := setSheaf_snapStall ..
@[simp] theorem putSheaf_holdRelease (s : State) (c : Cur) (sh : Sheaf) : (putSheaf s c sh).holdRelease = s.holdRelease := setSheaf_holdRelease ..
@[simp] theorem putSheaf_powered (s : State) (c : Cur) (sh : Sheaf) : (putSheaf s c sh).powered = s.powered := setSheaf_powered ..
@[simp] theorem putSheaf_agenda (s : State) (c : Cur) (sh : Sheaf) : (putSheaf s c sh).agenda = s.agenda := setSheaf_agenda ..
@[simp] theorem putSheaf_agent (s : State) (c : Cur) (sh : Sheaf) : (putSheaf s c sh).agent = s.agent := setSheaf_agent ..
@[simp] theorem putSheaf_ticks (s : State) (c : Cur) (sh : Sheaf) : (putSheaf s c sh).ticks = s.ticks := setSheaf_ticks ..
@[simp] theorem putSheaf_nextKey (s : State) (c : Cur) (sh : Sheaf) : (putSheaf s c sh).nextKey = s.nextKey := setSheaf_nextKey ..

/-! ## Memory and caches -/

@[simp] theorem setDram_home (s : State) (w : Nat) (x : PWord) : (setDram s w x).home = s.home := rfl
@[simp] theorem setDram_l2 (s : State) (w : Nat) (x : PWord) : (setDram s w x).l2 = s.l2 := rfl
@[simp] theorem setDram_tlb (s : State) (w : Nat) (x : PWord) : (setDram s w x).tlb = s.tlb := rfl
@[simp] theorem setDram_oldFrames (s : State) (w : Nat) (x : PWord) : (setDram s w x).oldFrames = s.oldFrames := rfl
@[simp] theorem setDram_early (s : State) (w : Nat) (x : PWord) : (setDram s w x).early = s.early := rfl
@[simp] theorem setDram_oldCode (s : State) (w : Nat) (x : PWord) : (setDram s w x).oldCode = s.oldCode := rfl
@[simp] theorem setDram_plots (s : State) (w : Nat) (x : PWord) : (setDram s w x).plots = s.plots := rfl
@[simp] theorem setDram_cores (s : State) (w : Nat) (x : PWord) : (setDram s w x).cores = s.cores := rfl
@[simp] theorem setDram_dies (s : State) (w : Nat) (x : PWord) : (setDram s w x).dies = s.dies := rfl
@[simp] theorem setDram_beds (s : State) (w : Nat) (x : PWord) : (setDram s w x).beds = s.beds := rfl
@[simp] theorem setDram_launches (s : State) (w : Nat) (x : PWord) : (setDram s w x).launches = s.launches := rfl
@[simp] theorem setDram_copies (s : State) (w : Nat) (x : PWord) : (setDram s w x).copies = s.copies := rfl
@[simp] theorem setDram_bwait (s : State) (w : Nat) (x : PWord) : (setDram s w x).bwait = s.bwait := rfl
@[simp] theorem setDram_engines (s : State) (w : Nat) (x : PWord) : (setDram s w x).engines = s.engines := rfl
@[simp] theorem setDram_searches (s : State) (w : Nat) (x : PWord) : (setDram s w x).searches = s.searches := rfl
@[simp] theorem setDram_batches (s : State) (w : Nat) (x : PWord) : (setDram s w x).batches = s.batches := rfl
@[simp] theorem setDram_indexes (s : State) (w : Nat) (x : PWord) : (setDram s w x).indexes = s.indexes := rfl
@[simp] theorem setDram_ctlSram (s : State) (w : Nat) (x : PWord) : (setDram s w x).ctlSram = s.ctlSram := rfl
@[simp] theorem setDram_colls (s : State) (w : Nat) (x : PWord) : (setDram s w x).colls = s.colls := rfl
@[simp] theorem setDram_endedColls (s : State) (w : Nat) (x : PWord) : (setDram s w x).endedColls = s.endedColls := rfl
@[simp] theorem setDram_pkts (s : State) (w : Nat) (x : PWord) : (setDram s w x).pkts = s.pkts := rfl
@[simp] theorem setDram_pins (s : State) (w : Nat) (x : PWord) : (setDram s w x).pins = s.pins := rfl
@[simp] theorem setDram_pdtest (s : State) (w : Nat) (x : PWord) : (setDram s w x).pdtest = s.pdtest := rfl
@[simp] theorem setDram_amsan (s : State) (w : Nat) (x : PWord) : (setDram s w x).amsan = s.amsan := rfl
@[simp] theorem setDram_groups (s : State) (w : Nat) (x : PWord) : (setDram s w x).groups = s.groups := rfl
@[simp] theorem setDram_sideUsed (s : State) (w : Nat) (x : PWord) : (setDram s w x).sideUsed = s.sideUsed := rfl
@[simp] theorem setDram_portSeq (s : State) (w : Nat) (x : PWord) : (setDram s w x).portSeq = s.portSeq := rfl
@[simp] theorem setDram_frames (s : State) (w : Nat) (x : PWord) : (setDram s w x).frames = s.frames := rfl
@[simp] theorem setDram_held (s : State) (w : Nat) (x : PWord) : (setDram s w x).held = s.held := rfl
@[simp] theorem setDram_hostIf (s : State) (w : Nat) (x : PWord) : (setDram s w x).hostIf = s.hostIf := rfl
@[simp] theorem setDram_mgmt (s : State) (w : Nat) (x : PWord) : (setDram s w x).mgmt = s.mgmt := rfl
@[simp] theorem setDram_evlog (s : State) (w : Nat) (x : PWord) : (setDram s w x).evlog = s.evlog := rfl
@[simp] theorem setDram_evlost (s : State) (w : Nat) (x : PWord) : (setDram s w x).evlost = s.evlost := rfl
@[simp] theorem setDram_killCores (s : State) (w : Nat) (x : PWord) : (setDram s w x).killCores = s.killCores := rfl
@[simp] theorem setDram_nextLaunch (s : State) (w : Nat) (x : PWord) : (setDram s w x).nextLaunch = s.nextLaunch := rfl
@[simp] theorem setDram_poolUsed (s : State) (w : Nat) (x : PWord) : (setDram s w x).poolUsed = s.poolUsed := rfl
@[simp] theorem setDram_snapStall (s : State) (w : Nat) (x : PWord) : (setDram s w x).snapStall = s.snapStall := rfl
@[simp] theorem setDram_holdRelease (s : State) (w : Nat) (x : PWord) : (setDram s w x).holdRelease = s.holdRelease := rfl
@[simp] theorem setDram_powered (s : State) (w : Nat) (x : PWord) : (setDram s w x).powered = s.powered := rfl
@[simp] theorem setDram_agenda (s : State) (w : Nat) (x : PWord) : (setDram s w x).agenda = s.agenda := rfl
@[simp] theorem setDram_agent (s : State) (w : Nat) (x : PWord) : (setDram s w x).agent = s.agent := rfl
@[simp] theorem setDram_ticks (s : State) (w : Nat) (x : PWord) : (setDram s w x).ticks = s.ticks := rfl
@[simp] theorem setDram_nextKey (s : State) (w : Nat) (x : PWord) : (setDram s w x).nextKey = s.nextKey := rfl
@[simp] theorem setDram_mem (s : State) (w : Nat) (x : PWord) : (setDram s w x).mem = setWord s.mem w x.1 := rfl
@[simp] theorem setDram_memPoison (s : State) (w : Nat) (x : PWord) : (setDram s w x).memPoison = mput s.memPoison w x.2 false := rfl

@[simp] theorem setL2_mem (s : State) (t : Nat) (m : Map CWord) : (setL2 s t m).mem = s.mem := rfl
@[simp] theorem setL2_memPoison (s : State) (t : Nat) (m : Map CWord) : (setL2 s t m).memPoison = s.memPoison := rfl
@[simp] theorem setL2_home (s : State) (t : Nat) (m : Map CWord) : (setL2 s t m).home = s.home := rfl
@[simp] theorem setL2_tlb (s : State) (t : Nat) (m : Map CWord) : (setL2 s t m).tlb = s.tlb := rfl
@[simp] theorem setL2_oldFrames (s : State) (t : Nat) (m : Map CWord) : (setL2 s t m).oldFrames = s.oldFrames := rfl
@[simp] theorem setL2_early (s : State) (t : Nat) (m : Map CWord) : (setL2 s t m).early = s.early := rfl
@[simp] theorem setL2_oldCode (s : State) (t : Nat) (m : Map CWord) : (setL2 s t m).oldCode = s.oldCode := rfl
@[simp] theorem setL2_plots (s : State) (t : Nat) (m : Map CWord) : (setL2 s t m).plots = s.plots := rfl
@[simp] theorem setL2_cores (s : State) (t : Nat) (m : Map CWord) : (setL2 s t m).cores = s.cores := rfl
@[simp] theorem setL2_dies (s : State) (t : Nat) (m : Map CWord) : (setL2 s t m).dies = s.dies := rfl
@[simp] theorem setL2_beds (s : State) (t : Nat) (m : Map CWord) : (setL2 s t m).beds = s.beds := rfl
@[simp] theorem setL2_launches (s : State) (t : Nat) (m : Map CWord) : (setL2 s t m).launches = s.launches := rfl
@[simp] theorem setL2_copies (s : State) (t : Nat) (m : Map CWord) : (setL2 s t m).copies = s.copies := rfl
@[simp] theorem setL2_bwait (s : State) (t : Nat) (m : Map CWord) : (setL2 s t m).bwait = s.bwait := rfl
@[simp] theorem setL2_engines (s : State) (t : Nat) (m : Map CWord) : (setL2 s t m).engines = s.engines := rfl
@[simp] theorem setL2_searches (s : State) (t : Nat) (m : Map CWord) : (setL2 s t m).searches = s.searches := rfl
@[simp] theorem setL2_batches (s : State) (t : Nat) (m : Map CWord) : (setL2 s t m).batches = s.batches := rfl
@[simp] theorem setL2_indexes (s : State) (t : Nat) (m : Map CWord) : (setL2 s t m).indexes = s.indexes := rfl
@[simp] theorem setL2_ctlSram (s : State) (t : Nat) (m : Map CWord) : (setL2 s t m).ctlSram = s.ctlSram := rfl
@[simp] theorem setL2_colls (s : State) (t : Nat) (m : Map CWord) : (setL2 s t m).colls = s.colls := rfl
@[simp] theorem setL2_endedColls (s : State) (t : Nat) (m : Map CWord) : (setL2 s t m).endedColls = s.endedColls := rfl
@[simp] theorem setL2_pkts (s : State) (t : Nat) (m : Map CWord) : (setL2 s t m).pkts = s.pkts := rfl
@[simp] theorem setL2_pins (s : State) (t : Nat) (m : Map CWord) : (setL2 s t m).pins = s.pins := rfl
@[simp] theorem setL2_pdtest (s : State) (t : Nat) (m : Map CWord) : (setL2 s t m).pdtest = s.pdtest := rfl
@[simp] theorem setL2_amsan (s : State) (t : Nat) (m : Map CWord) : (setL2 s t m).amsan = s.amsan := rfl
@[simp] theorem setL2_groups (s : State) (t : Nat) (m : Map CWord) : (setL2 s t m).groups = s.groups := rfl
@[simp] theorem setL2_sideUsed (s : State) (t : Nat) (m : Map CWord) : (setL2 s t m).sideUsed = s.sideUsed := rfl
@[simp] theorem setL2_portSeq (s : State) (t : Nat) (m : Map CWord) : (setL2 s t m).portSeq = s.portSeq := rfl
@[simp] theorem setL2_frames (s : State) (t : Nat) (m : Map CWord) : (setL2 s t m).frames = s.frames := rfl
@[simp] theorem setL2_held (s : State) (t : Nat) (m : Map CWord) : (setL2 s t m).held = s.held := rfl
@[simp] theorem setL2_hostIf (s : State) (t : Nat) (m : Map CWord) : (setL2 s t m).hostIf = s.hostIf := rfl
@[simp] theorem setL2_mgmt (s : State) (t : Nat) (m : Map CWord) : (setL2 s t m).mgmt = s.mgmt := rfl
@[simp] theorem setL2_evlog (s : State) (t : Nat) (m : Map CWord) : (setL2 s t m).evlog = s.evlog := rfl
@[simp] theorem setL2_evlost (s : State) (t : Nat) (m : Map CWord) : (setL2 s t m).evlost = s.evlost := rfl
@[simp] theorem setL2_killCores (s : State) (t : Nat) (m : Map CWord) : (setL2 s t m).killCores = s.killCores := rfl
@[simp] theorem setL2_nextLaunch (s : State) (t : Nat) (m : Map CWord) : (setL2 s t m).nextLaunch = s.nextLaunch := rfl
@[simp] theorem setL2_poolUsed (s : State) (t : Nat) (m : Map CWord) : (setL2 s t m).poolUsed = s.poolUsed := rfl
@[simp] theorem setL2_snapStall (s : State) (t : Nat) (m : Map CWord) : (setL2 s t m).snapStall = s.snapStall := rfl
@[simp] theorem setL2_holdRelease (s : State) (t : Nat) (m : Map CWord) : (setL2 s t m).holdRelease = s.holdRelease := rfl
@[simp] theorem setL2_powered (s : State) (t : Nat) (m : Map CWord) : (setL2 s t m).powered = s.powered := rfl
@[simp] theorem setL2_agenda (s : State) (t : Nat) (m : Map CWord) : (setL2 s t m).agenda = s.agenda := rfl
@[simp] theorem setL2_agent (s : State) (t : Nat) (m : Map CWord) : (setL2 s t m).agent = s.agent := rfl
@[simp] theorem setL2_ticks (s : State) (t : Nat) (m : Map CWord) : (setL2 s t m).ticks = s.ticks := rfl
@[simp] theorem setL2_nextKey (s : State) (t : Nat) (m : Map CWord) : (setL2 s t m).nextKey = s.nextKey := rfl

theorem l2Of_setL2 (s : State) (t u : Nat) (m : Map CWord) : l2Of (setL2 s t m) u = if u = t then m else l2Of s u := mget_mset ..

@[simp] theorem setL1_mem (s : State) (p : Nat) (m : Map CWord) : (setL1 s p m).mem = s.mem := rfl
@[simp] theorem setL1_memPoison (s : State) (p : Nat) (m : Map CWord) : (setL1 s p m).memPoison = s.memPoison := rfl
@[simp] theorem setL1_home (s : State) (p : Nat) (m : Map CWord) : (setL1 s p m).home = s.home := rfl
@[simp] theorem setL1_l2 (s : State) (p : Nat) (m : Map CWord) : (setL1 s p m).l2 = s.l2 := rfl
@[simp] theorem setL1_tlb (s : State) (p : Nat) (m : Map CWord) : (setL1 s p m).tlb = s.tlb := rfl
@[simp] theorem setL1_oldFrames (s : State) (p : Nat) (m : Map CWord) : (setL1 s p m).oldFrames = s.oldFrames := rfl
@[simp] theorem setL1_early (s : State) (p : Nat) (m : Map CWord) : (setL1 s p m).early = s.early := rfl
@[simp] theorem setL1_oldCode (s : State) (p : Nat) (m : Map CWord) : (setL1 s p m).oldCode = s.oldCode := rfl
@[simp] theorem setL1_cores (s : State) (p : Nat) (m : Map CWord) : (setL1 s p m).cores = s.cores := rfl
@[simp] theorem setL1_dies (s : State) (p : Nat) (m : Map CWord) : (setL1 s p m).dies = s.dies := rfl
@[simp] theorem setL1_beds (s : State) (p : Nat) (m : Map CWord) : (setL1 s p m).beds = s.beds := rfl
@[simp] theorem setL1_launches (s : State) (p : Nat) (m : Map CWord) : (setL1 s p m).launches = s.launches := rfl
@[simp] theorem setL1_copies (s : State) (p : Nat) (m : Map CWord) : (setL1 s p m).copies = s.copies := rfl
@[simp] theorem setL1_bwait (s : State) (p : Nat) (m : Map CWord) : (setL1 s p m).bwait = s.bwait := rfl
@[simp] theorem setL1_engines (s : State) (p : Nat) (m : Map CWord) : (setL1 s p m).engines = s.engines := rfl
@[simp] theorem setL1_searches (s : State) (p : Nat) (m : Map CWord) : (setL1 s p m).searches = s.searches := rfl
@[simp] theorem setL1_batches (s : State) (p : Nat) (m : Map CWord) : (setL1 s p m).batches = s.batches := rfl
@[simp] theorem setL1_indexes (s : State) (p : Nat) (m : Map CWord) : (setL1 s p m).indexes = s.indexes := rfl
@[simp] theorem setL1_ctlSram (s : State) (p : Nat) (m : Map CWord) : (setL1 s p m).ctlSram = s.ctlSram := rfl
@[simp] theorem setL1_colls (s : State) (p : Nat) (m : Map CWord) : (setL1 s p m).colls = s.colls := rfl
@[simp] theorem setL1_endedColls (s : State) (p : Nat) (m : Map CWord) : (setL1 s p m).endedColls = s.endedColls := rfl
@[simp] theorem setL1_pkts (s : State) (p : Nat) (m : Map CWord) : (setL1 s p m).pkts = s.pkts := rfl
@[simp] theorem setL1_pins (s : State) (p : Nat) (m : Map CWord) : (setL1 s p m).pins = s.pins := rfl
@[simp] theorem setL1_pdtest (s : State) (p : Nat) (m : Map CWord) : (setL1 s p m).pdtest = s.pdtest := rfl
@[simp] theorem setL1_amsan (s : State) (p : Nat) (m : Map CWord) : (setL1 s p m).amsan = s.amsan := rfl
@[simp] theorem setL1_groups (s : State) (p : Nat) (m : Map CWord) : (setL1 s p m).groups = s.groups := rfl
@[simp] theorem setL1_sideUsed (s : State) (p : Nat) (m : Map CWord) : (setL1 s p m).sideUsed = s.sideUsed := rfl
@[simp] theorem setL1_portSeq (s : State) (p : Nat) (m : Map CWord) : (setL1 s p m).portSeq = s.portSeq := rfl
@[simp] theorem setL1_frames (s : State) (p : Nat) (m : Map CWord) : (setL1 s p m).frames = s.frames := rfl
@[simp] theorem setL1_held (s : State) (p : Nat) (m : Map CWord) : (setL1 s p m).held = s.held := rfl
@[simp] theorem setL1_hostIf (s : State) (p : Nat) (m : Map CWord) : (setL1 s p m).hostIf = s.hostIf := rfl
@[simp] theorem setL1_mgmt (s : State) (p : Nat) (m : Map CWord) : (setL1 s p m).mgmt = s.mgmt := rfl
@[simp] theorem setL1_evlog (s : State) (p : Nat) (m : Map CWord) : (setL1 s p m).evlog = s.evlog := rfl
@[simp] theorem setL1_evlost (s : State) (p : Nat) (m : Map CWord) : (setL1 s p m).evlost = s.evlost := rfl
@[simp] theorem setL1_killCores (s : State) (p : Nat) (m : Map CWord) : (setL1 s p m).killCores = s.killCores := rfl
@[simp] theorem setL1_nextLaunch (s : State) (p : Nat) (m : Map CWord) : (setL1 s p m).nextLaunch = s.nextLaunch := rfl
@[simp] theorem setL1_poolUsed (s : State) (p : Nat) (m : Map CWord) : (setL1 s p m).poolUsed = s.poolUsed := rfl
@[simp] theorem setL1_snapStall (s : State) (p : Nat) (m : Map CWord) : (setL1 s p m).snapStall = s.snapStall := rfl
@[simp] theorem setL1_holdRelease (s : State) (p : Nat) (m : Map CWord) : (setL1 s p m).holdRelease = s.holdRelease := rfl
@[simp] theorem setL1_powered (s : State) (p : Nat) (m : Map CWord) : (setL1 s p m).powered = s.powered := rfl
@[simp] theorem setL1_agenda (s : State) (p : Nat) (m : Map CWord) : (setL1 s p m).agenda = s.agenda := rfl
@[simp] theorem setL1_agent (s : State) (p : Nat) (m : Map CWord) : (setL1 s p m).agent = s.agent := rfl
@[simp] theorem setL1_ticks (s : State) (p : Nat) (m : Map CWord) : (setL1 s p m).ticks = s.ticks := rfl
@[simp] theorem setL1_nextKey (s : State) (p : Nat) (m : Map CWord) : (setL1 s p m).nextKey = s.nextKey := rfl
@[simp] theorem homeThrough_l2 (s : State) (w : Nat) (be : BitVec 4) (x : PWord) : (homeThrough s w be x).l2 = s.l2 := rfl
@[simp] theorem homeThrough_tlb (s : State) (w : Nat) (be : BitVec 4) (x : PWord) : (homeThrough s w be x).tlb = s.tlb := rfl
@[simp] theorem homeThrough_oldFrames (s : State) (w : Nat) (be : BitVec 4) (x : PWord) : (homeThrough s w be x).oldFrames = s.oldFrames := rfl
@[simp] theorem homeThrough_early (s : State) (w : Nat) (be : BitVec 4) (x : PWord) : (homeThrough s w be x).early = s.early := rfl
@[simp] theorem homeThrough_oldCode (s : State) (w : Nat) (be : BitVec 4) (x : PWord) : (homeThrough s w be x).oldCode = s.oldCode := rfl
@[simp] theorem homeThrough_plots (s : State) (w : Nat) (be : BitVec 4) (x : PWord) : (homeThrough s w be x).plots = s.plots := rfl
@[simp] theorem homeThrough_cores (s : State) (w : Nat) (be : BitVec 4) (x : PWord) : (homeThrough s w be x).cores = s.cores := rfl
@[simp] theorem homeThrough_dies (s : State) (w : Nat) (be : BitVec 4) (x : PWord) : (homeThrough s w be x).dies = s.dies := rfl
@[simp] theorem homeThrough_beds (s : State) (w : Nat) (be : BitVec 4) (x : PWord) : (homeThrough s w be x).beds = s.beds := rfl
@[simp] theorem homeThrough_launches (s : State) (w : Nat) (be : BitVec 4) (x : PWord) : (homeThrough s w be x).launches = s.launches := rfl
@[simp] theorem homeThrough_copies (s : State) (w : Nat) (be : BitVec 4) (x : PWord) : (homeThrough s w be x).copies = s.copies := rfl
@[simp] theorem homeThrough_bwait (s : State) (w : Nat) (be : BitVec 4) (x : PWord) : (homeThrough s w be x).bwait = s.bwait := rfl
@[simp] theorem homeThrough_engines (s : State) (w : Nat) (be : BitVec 4) (x : PWord) : (homeThrough s w be x).engines = s.engines := rfl
@[simp] theorem homeThrough_searches (s : State) (w : Nat) (be : BitVec 4) (x : PWord) : (homeThrough s w be x).searches = s.searches := rfl
@[simp] theorem homeThrough_batches (s : State) (w : Nat) (be : BitVec 4) (x : PWord) : (homeThrough s w be x).batches = s.batches := rfl
@[simp] theorem homeThrough_indexes (s : State) (w : Nat) (be : BitVec 4) (x : PWord) : (homeThrough s w be x).indexes = s.indexes := rfl
@[simp] theorem homeThrough_ctlSram (s : State) (w : Nat) (be : BitVec 4) (x : PWord) : (homeThrough s w be x).ctlSram = s.ctlSram := rfl
@[simp] theorem homeThrough_colls (s : State) (w : Nat) (be : BitVec 4) (x : PWord) : (homeThrough s w be x).colls = s.colls := rfl
@[simp] theorem homeThrough_endedColls (s : State) (w : Nat) (be : BitVec 4) (x : PWord) : (homeThrough s w be x).endedColls = s.endedColls := rfl
@[simp] theorem homeThrough_pkts (s : State) (w : Nat) (be : BitVec 4) (x : PWord) : (homeThrough s w be x).pkts = s.pkts := rfl
@[simp] theorem homeThrough_pins (s : State) (w : Nat) (be : BitVec 4) (x : PWord) : (homeThrough s w be x).pins = s.pins := rfl
@[simp] theorem homeThrough_pdtest (s : State) (w : Nat) (be : BitVec 4) (x : PWord) : (homeThrough s w be x).pdtest = s.pdtest := rfl
@[simp] theorem homeThrough_amsan (s : State) (w : Nat) (be : BitVec 4) (x : PWord) : (homeThrough s w be x).amsan = s.amsan := rfl
@[simp] theorem homeThrough_groups (s : State) (w : Nat) (be : BitVec 4) (x : PWord) : (homeThrough s w be x).groups = s.groups := rfl
@[simp] theorem homeThrough_sideUsed (s : State) (w : Nat) (be : BitVec 4) (x : PWord) : (homeThrough s w be x).sideUsed = s.sideUsed := rfl
@[simp] theorem homeThrough_portSeq (s : State) (w : Nat) (be : BitVec 4) (x : PWord) : (homeThrough s w be x).portSeq = s.portSeq := rfl
@[simp] theorem homeThrough_frames (s : State) (w : Nat) (be : BitVec 4) (x : PWord) : (homeThrough s w be x).frames = s.frames := rfl
@[simp] theorem homeThrough_held (s : State) (w : Nat) (be : BitVec 4) (x : PWord) : (homeThrough s w be x).held = s.held := rfl
@[simp] theorem homeThrough_hostIf (s : State) (w : Nat) (be : BitVec 4) (x : PWord) : (homeThrough s w be x).hostIf = s.hostIf := rfl
@[simp] theorem homeThrough_mgmt (s : State) (w : Nat) (be : BitVec 4) (x : PWord) : (homeThrough s w be x).mgmt = s.mgmt := rfl
@[simp] theorem homeThrough_evlog (s : State) (w : Nat) (be : BitVec 4) (x : PWord) : (homeThrough s w be x).evlog = s.evlog := rfl
@[simp] theorem homeThrough_evlost (s : State) (w : Nat) (be : BitVec 4) (x : PWord) : (homeThrough s w be x).evlost = s.evlost := rfl
@[simp] theorem homeThrough_killCores (s : State) (w : Nat) (be : BitVec 4) (x : PWord) : (homeThrough s w be x).killCores = s.killCores := rfl
@[simp] theorem homeThrough_nextLaunch (s : State) (w : Nat) (be : BitVec 4) (x : PWord) : (homeThrough s w be x).nextLaunch = s.nextLaunch := rfl
@[simp] theorem homeThrough_poolUsed (s : State) (w : Nat) (be : BitVec 4) (x : PWord) : (homeThrough s w be x).poolUsed = s.poolUsed := rfl
@[simp] theorem homeThrough_snapStall (s : State) (w : Nat) (be : BitVec 4) (x : PWord) : (homeThrough s w be x).snapStall = s.snapStall := rfl
@[simp] theorem homeThrough_holdRelease (s : State) (w : Nat) (be : BitVec 4) (x : PWord) : (homeThrough s w be x).holdRelease = s.holdRelease := rfl
@[simp] theorem homeThrough_powered (s : State) (w : Nat) (be : BitVec 4) (x : PWord) : (homeThrough s w be x).powered = s.powered := rfl
@[simp] theorem homeThrough_agenda (s : State) (w : Nat) (be : BitVec 4) (x : PWord) : (homeThrough s w be x).agenda = s.agenda := rfl
@[simp] theorem homeThrough_agent (s : State) (w : Nat) (be : BitVec 4) (x : PWord) : (homeThrough s w be x).agent = s.agent := rfl
@[simp] theorem homeThrough_ticks (s : State) (w : Nat) (be : BitVec 4) (x : PWord) : (homeThrough s w be x).ticks = s.ticks := rfl
@[simp] theorem homeThrough_nextKey (s : State) (w : Nat) (be : BitVec 4) (x : PWord) : (homeThrough s w be x).nextKey = s.nextKey := rfl

/-! ## Due events and names -/

@[simp] theorem due_mem (s : State) (e : Event) : (due s e).mem = s.mem := rfl
@[simp] theorem due_memPoison (s : State) (e : Event) : (due s e).memPoison = s.memPoison := rfl
@[simp] theorem due_home (s : State) (e : Event) : (due s e).home = s.home := rfl
@[simp] theorem due_l2 (s : State) (e : Event) : (due s e).l2 = s.l2 := rfl
@[simp] theorem due_tlb (s : State) (e : Event) : (due s e).tlb = s.tlb := rfl
@[simp] theorem due_oldFrames (s : State) (e : Event) : (due s e).oldFrames = s.oldFrames := rfl
@[simp] theorem due_early (s : State) (e : Event) : (due s e).early = s.early := rfl
@[simp] theorem due_oldCode (s : State) (e : Event) : (due s e).oldCode = s.oldCode := rfl
@[simp] theorem due_plots (s : State) (e : Event) : (due s e).plots = s.plots := rfl
@[simp] theorem due_cores (s : State) (e : Event) : (due s e).cores = s.cores := rfl
@[simp] theorem due_dies (s : State) (e : Event) : (due s e).dies = s.dies := rfl
@[simp] theorem due_beds (s : State) (e : Event) : (due s e).beds = s.beds := rfl
@[simp] theorem due_launches (s : State) (e : Event) : (due s e).launches = s.launches := rfl
@[simp] theorem due_copies (s : State) (e : Event) : (due s e).copies = s.copies := rfl
@[simp] theorem due_bwait (s : State) (e : Event) : (due s e).bwait = s.bwait := rfl
@[simp] theorem due_engines (s : State) (e : Event) : (due s e).engines = s.engines := rfl
@[simp] theorem due_searches (s : State) (e : Event) : (due s e).searches = s.searches := rfl
@[simp] theorem due_batches (s : State) (e : Event) : (due s e).batches = s.batches := rfl
@[simp] theorem due_indexes (s : State) (e : Event) : (due s e).indexes = s.indexes := rfl
@[simp] theorem due_ctlSram (s : State) (e : Event) : (due s e).ctlSram = s.ctlSram := rfl
@[simp] theorem due_colls (s : State) (e : Event) : (due s e).colls = s.colls := rfl
@[simp] theorem due_endedColls (s : State) (e : Event) : (due s e).endedColls = s.endedColls := rfl
@[simp] theorem due_pkts (s : State) (e : Event) : (due s e).pkts = s.pkts := rfl
@[simp] theorem due_pins (s : State) (e : Event) : (due s e).pins = s.pins := rfl
@[simp] theorem due_pdtest (s : State) (e : Event) : (due s e).pdtest = s.pdtest := rfl
@[simp] theorem due_amsan (s : State) (e : Event) : (due s e).amsan = s.amsan := rfl
@[simp] theorem due_groups (s : State) (e : Event) : (due s e).groups = s.groups := rfl
@[simp] theorem due_sideUsed (s : State) (e : Event) : (due s e).sideUsed = s.sideUsed := rfl
@[simp] theorem due_portSeq (s : State) (e : Event) : (due s e).portSeq = s.portSeq := rfl
@[simp] theorem due_frames (s : State) (e : Event) : (due s e).frames = s.frames := rfl
@[simp] theorem due_held (s : State) (e : Event) : (due s e).held = s.held := rfl
@[simp] theorem due_hostIf (s : State) (e : Event) : (due s e).hostIf = s.hostIf := rfl
@[simp] theorem due_mgmt (s : State) (e : Event) : (due s e).mgmt = s.mgmt := rfl
@[simp] theorem due_evlog (s : State) (e : Event) : (due s e).evlog = s.evlog := rfl
@[simp] theorem due_evlost (s : State) (e : Event) : (due s e).evlost = s.evlost := rfl
@[simp] theorem due_killCores (s : State) (e : Event) : (due s e).killCores = s.killCores := rfl
@[simp] theorem due_nextLaunch (s : State) (e : Event) : (due s e).nextLaunch = s.nextLaunch := rfl
@[simp] theorem due_poolUsed (s : State) (e : Event) : (due s e).poolUsed = s.poolUsed := rfl
@[simp] theorem due_snapStall (s : State) (e : Event) : (due s e).snapStall = s.snapStall := rfl
@[simp] theorem due_holdRelease (s : State) (e : Event) : (due s e).holdRelease = s.holdRelease := rfl
@[simp] theorem due_powered (s : State) (e : Event) : (due s e).powered = s.powered := rfl
@[simp] theorem due_agent (s : State) (e : Event) : (due s e).agent = s.agent := rfl
@[simp] theorem due_ticks (s : State) (e : Event) : (due s e).ticks = s.ticks := rfl
@[simp] theorem due_nextKey (s : State) (e : Event) : (due s e).nextKey = s.nextKey := rfl
@[simp] theorem due_agenda (s : State) (e : Event) : (due s e).agenda = s.agenda ++ [e] := rfl
@[simp] theorem fresh_fst (s : State) : (fresh s).1 = s.nextKey := rfl
@[simp] theorem fresh_nextKey (s : State) : (fresh s).2.nextKey = s.nextKey + 1 := rfl

@[simp] theorem logEvent_mem (s : State) (kind die : Nat) (cause : Option (Nat × Word)) (detail : Word) (subject : Nat) : (logEvent s kind die cause detail subject).mem = s.mem := rfl
@[simp] theorem logEvent_memPoison (s : State) (kind die : Nat) (cause : Option (Nat × Word)) (detail : Word) (subject : Nat) : (logEvent s kind die cause detail subject).memPoison = s.memPoison := rfl
@[simp] theorem logEvent_home (s : State) (kind die : Nat) (cause : Option (Nat × Word)) (detail : Word) (subject : Nat) : (logEvent s kind die cause detail subject).home = s.home := rfl
@[simp] theorem logEvent_l2 (s : State) (kind die : Nat) (cause : Option (Nat × Word)) (detail : Word) (subject : Nat) : (logEvent s kind die cause detail subject).l2 = s.l2 := rfl
@[simp] theorem logEvent_tlb (s : State) (kind die : Nat) (cause : Option (Nat × Word)) (detail : Word) (subject : Nat) : (logEvent s kind die cause detail subject).tlb = s.tlb := rfl
@[simp] theorem logEvent_oldFrames (s : State) (kind die : Nat) (cause : Option (Nat × Word)) (detail : Word) (subject : Nat) : (logEvent s kind die cause detail subject).oldFrames = s.oldFrames := rfl
@[simp] theorem logEvent_early (s : State) (kind die : Nat) (cause : Option (Nat × Word)) (detail : Word) (subject : Nat) : (logEvent s kind die cause detail subject).early = s.early := rfl
@[simp] theorem logEvent_oldCode (s : State) (kind die : Nat) (cause : Option (Nat × Word)) (detail : Word) (subject : Nat) : (logEvent s kind die cause detail subject).oldCode = s.oldCode := rfl
@[simp] theorem logEvent_plots (s : State) (kind die : Nat) (cause : Option (Nat × Word)) (detail : Word) (subject : Nat) : (logEvent s kind die cause detail subject).plots = s.plots := rfl
@[simp] theorem logEvent_cores (s : State) (kind die : Nat) (cause : Option (Nat × Word)) (detail : Word) (subject : Nat) : (logEvent s kind die cause detail subject).cores = s.cores := rfl
@[simp] theorem logEvent_beds (s : State) (kind die : Nat) (cause : Option (Nat × Word)) (detail : Word) (subject : Nat) : (logEvent s kind die cause detail subject).beds = s.beds := rfl
@[simp] theorem logEvent_launches (s : State) (kind die : Nat) (cause : Option (Nat × Word)) (detail : Word) (subject : Nat) : (logEvent s kind die cause detail subject).launches = s.launches := rfl
@[simp] theorem logEvent_copies (s : State) (kind die : Nat) (cause : Option (Nat × Word)) (detail : Word) (subject : Nat) : (logEvent s kind die cause detail subject).copies = s.copies := rfl
@[simp] theorem logEvent_bwait (s : State) (kind die : Nat) (cause : Option (Nat × Word)) (detail : Word) (subject : Nat) : (logEvent s kind die cause detail subject).bwait = s.bwait := rfl
@[simp] theorem logEvent_engines (s : State) (kind die : Nat) (cause : Option (Nat × Word)) (detail : Word) (subject : Nat) : (logEvent s kind die cause detail subject).engines = s.engines := rfl
@[simp] theorem logEvent_searches (s : State) (kind die : Nat) (cause : Option (Nat × Word)) (detail : Word) (subject : Nat) : (logEvent s kind die cause detail subject).searches = s.searches := rfl
@[simp] theorem logEvent_batches (s : State) (kind die : Nat) (cause : Option (Nat × Word)) (detail : Word) (subject : Nat) : (logEvent s kind die cause detail subject).batches = s.batches := rfl
@[simp] theorem logEvent_indexes (s : State) (kind die : Nat) (cause : Option (Nat × Word)) (detail : Word) (subject : Nat) : (logEvent s kind die cause detail subject).indexes = s.indexes := rfl
@[simp] theorem logEvent_ctlSram (s : State) (kind die : Nat) (cause : Option (Nat × Word)) (detail : Word) (subject : Nat) : (logEvent s kind die cause detail subject).ctlSram = s.ctlSram := rfl
@[simp] theorem logEvent_colls (s : State) (kind die : Nat) (cause : Option (Nat × Word)) (detail : Word) (subject : Nat) : (logEvent s kind die cause detail subject).colls = s.colls := rfl
@[simp] theorem logEvent_endedColls (s : State) (kind die : Nat) (cause : Option (Nat × Word)) (detail : Word) (subject : Nat) : (logEvent s kind die cause detail subject).endedColls = s.endedColls := rfl
@[simp] theorem logEvent_pkts (s : State) (kind die : Nat) (cause : Option (Nat × Word)) (detail : Word) (subject : Nat) : (logEvent s kind die cause detail subject).pkts = s.pkts := rfl
@[simp] theorem logEvent_pins (s : State) (kind die : Nat) (cause : Option (Nat × Word)) (detail : Word) (subject : Nat) : (logEvent s kind die cause detail subject).pins = s.pins := rfl
@[simp] theorem logEvent_pdtest (s : State) (kind die : Nat) (cause : Option (Nat × Word)) (detail : Word) (subject : Nat) : (logEvent s kind die cause detail subject).pdtest = s.pdtest := rfl
@[simp] theorem logEvent_amsan (s : State) (kind die : Nat) (cause : Option (Nat × Word)) (detail : Word) (subject : Nat) : (logEvent s kind die cause detail subject).amsan = s.amsan := rfl
@[simp] theorem logEvent_groups (s : State) (kind die : Nat) (cause : Option (Nat × Word)) (detail : Word) (subject : Nat) : (logEvent s kind die cause detail subject).groups = s.groups := rfl
@[simp] theorem logEvent_sideUsed (s : State) (kind die : Nat) (cause : Option (Nat × Word)) (detail : Word) (subject : Nat) : (logEvent s kind die cause detail subject).sideUsed = s.sideUsed := rfl
@[simp] theorem logEvent_portSeq (s : State) (kind die : Nat) (cause : Option (Nat × Word)) (detail : Word) (subject : Nat) : (logEvent s kind die cause detail subject).portSeq = s.portSeq := rfl
@[simp] theorem logEvent_frames (s : State) (kind die : Nat) (cause : Option (Nat × Word)) (detail : Word) (subject : Nat) : (logEvent s kind die cause detail subject).frames = s.frames := rfl
@[simp] theorem logEvent_held (s : State) (kind die : Nat) (cause : Option (Nat × Word)) (detail : Word) (subject : Nat) : (logEvent s kind die cause detail subject).held = s.held := rfl
@[simp] theorem logEvent_hostIf (s : State) (kind die : Nat) (cause : Option (Nat × Word)) (detail : Word) (subject : Nat) : (logEvent s kind die cause detail subject).hostIf = s.hostIf := rfl
@[simp] theorem logEvent_mgmt (s : State) (kind die : Nat) (cause : Option (Nat × Word)) (detail : Word) (subject : Nat) : (logEvent s kind die cause detail subject).mgmt = s.mgmt := rfl
@[simp] theorem logEvent_killCores (s : State) (kind die : Nat) (cause : Option (Nat × Word)) (detail : Word) (subject : Nat) : (logEvent s kind die cause detail subject).killCores = s.killCores := rfl
@[simp] theorem logEvent_nextLaunch (s : State) (kind die : Nat) (cause : Option (Nat × Word)) (detail : Word) (subject : Nat) : (logEvent s kind die cause detail subject).nextLaunch = s.nextLaunch := rfl
@[simp] theorem logEvent_poolUsed (s : State) (kind die : Nat) (cause : Option (Nat × Word)) (detail : Word) (subject : Nat) : (logEvent s kind die cause detail subject).poolUsed = s.poolUsed := rfl
@[simp] theorem logEvent_snapStall (s : State) (kind die : Nat) (cause : Option (Nat × Word)) (detail : Word) (subject : Nat) : (logEvent s kind die cause detail subject).snapStall = s.snapStall := rfl
@[simp] theorem logEvent_holdRelease (s : State) (kind die : Nat) (cause : Option (Nat × Word)) (detail : Word) (subject : Nat) : (logEvent s kind die cause detail subject).holdRelease = s.holdRelease := rfl
@[simp] theorem logEvent_powered (s : State) (kind die : Nat) (cause : Option (Nat × Word)) (detail : Word) (subject : Nat) : (logEvent s kind die cause detail subject).powered = s.powered := rfl
@[simp] theorem logEvent_agenda (s : State) (kind die : Nat) (cause : Option (Nat × Word)) (detail : Word) (subject : Nat) : (logEvent s kind die cause detail subject).agenda = s.agenda := rfl
@[simp] theorem logEvent_agent (s : State) (kind die : Nat) (cause : Option (Nat × Word)) (detail : Word) (subject : Nat) : (logEvent s kind die cause detail subject).agent = s.agent := rfl
@[simp] theorem logEvent_ticks (s : State) (kind die : Nat) (cause : Option (Nat × Word)) (detail : Word) (subject : Nat) : (logEvent s kind die cause detail subject).ticks = s.ticks := rfl
@[simp] theorem logEvent_nextKey (s : State) (kind die : Nat) (cause : Option (Nat × Word)) (detail : Word) (subject : Nat) : (logEvent s kind die cause detail subject).nextKey = s.nextKey := rfl
@[simp] theorem count_mem (s : State) (core k n : Nat) : (count s core k n).mem = s.mem := rfl
@[simp] theorem count_memPoison (s : State) (core k n : Nat) : (count s core k n).memPoison = s.memPoison := rfl
@[simp] theorem count_home (s : State) (core k n : Nat) : (count s core k n).home = s.home := rfl
@[simp] theorem count_l2 (s : State) (core k n : Nat) : (count s core k n).l2 = s.l2 := rfl
@[simp] theorem count_tlb (s : State) (core k n : Nat) : (count s core k n).tlb = s.tlb := rfl
@[simp] theorem count_oldFrames (s : State) (core k n : Nat) : (count s core k n).oldFrames = s.oldFrames := rfl
@[simp] theorem count_early (s : State) (core k n : Nat) : (count s core k n).early = s.early := rfl
@[simp] theorem count_oldCode (s : State) (core k n : Nat) : (count s core k n).oldCode = s.oldCode := rfl
@[simp] theorem count_plots (s : State) (core k n : Nat) : (count s core k n).plots = s.plots := rfl
@[simp] theorem count_dies (s : State) (core k n : Nat) : (count s core k n).dies = s.dies := rfl
@[simp] theorem count_beds (s : State) (core k n : Nat) : (count s core k n).beds = s.beds := rfl
@[simp] theorem count_launches (s : State) (core k n : Nat) : (count s core k n).launches = s.launches := rfl
@[simp] theorem count_copies (s : State) (core k n : Nat) : (count s core k n).copies = s.copies := rfl
@[simp] theorem count_bwait (s : State) (core k n : Nat) : (count s core k n).bwait = s.bwait := rfl
@[simp] theorem count_engines (s : State) (core k n : Nat) : (count s core k n).engines = s.engines := rfl
@[simp] theorem count_searches (s : State) (core k n : Nat) : (count s core k n).searches = s.searches := rfl
@[simp] theorem count_batches (s : State) (core k n : Nat) : (count s core k n).batches = s.batches := rfl
@[simp] theorem count_indexes (s : State) (core k n : Nat) : (count s core k n).indexes = s.indexes := rfl
@[simp] theorem count_ctlSram (s : State) (core k n : Nat) : (count s core k n).ctlSram = s.ctlSram := rfl
@[simp] theorem count_colls (s : State) (core k n : Nat) : (count s core k n).colls = s.colls := rfl
@[simp] theorem count_endedColls (s : State) (core k n : Nat) : (count s core k n).endedColls = s.endedColls := rfl
@[simp] theorem count_pkts (s : State) (core k n : Nat) : (count s core k n).pkts = s.pkts := rfl
@[simp] theorem count_pins (s : State) (core k n : Nat) : (count s core k n).pins = s.pins := rfl
@[simp] theorem count_pdtest (s : State) (core k n : Nat) : (count s core k n).pdtest = s.pdtest := rfl
@[simp] theorem count_amsan (s : State) (core k n : Nat) : (count s core k n).amsan = s.amsan := rfl
@[simp] theorem count_groups (s : State) (core k n : Nat) : (count s core k n).groups = s.groups := rfl
@[simp] theorem count_sideUsed (s : State) (core k n : Nat) : (count s core k n).sideUsed = s.sideUsed := rfl
@[simp] theorem count_portSeq (s : State) (core k n : Nat) : (count s core k n).portSeq = s.portSeq := rfl
@[simp] theorem count_frames (s : State) (core k n : Nat) : (count s core k n).frames = s.frames := rfl
@[simp] theorem count_held (s : State) (core k n : Nat) : (count s core k n).held = s.held := rfl
@[simp] theorem count_hostIf (s : State) (core k n : Nat) : (count s core k n).hostIf = s.hostIf := rfl
@[simp] theorem count_mgmt (s : State) (core k n : Nat) : (count s core k n).mgmt = s.mgmt := rfl
@[simp] theorem count_evlog (s : State) (core k n : Nat) : (count s core k n).evlog = s.evlog := rfl
@[simp] theorem count_evlost (s : State) (core k n : Nat) : (count s core k n).evlost = s.evlost := rfl
@[simp] theorem count_killCores (s : State) (core k n : Nat) : (count s core k n).killCores = s.killCores := rfl
@[simp] theorem count_nextLaunch (s : State) (core k n : Nat) : (count s core k n).nextLaunch = s.nextLaunch := rfl
@[simp] theorem count_poolUsed (s : State) (core k n : Nat) : (count s core k n).poolUsed = s.poolUsed := rfl
@[simp] theorem count_snapStall (s : State) (core k n : Nat) : (count s core k n).snapStall = s.snapStall := rfl
@[simp] theorem count_holdRelease (s : State) (core k n : Nat) : (count s core k n).holdRelease = s.holdRelease := rfl
@[simp] theorem count_powered (s : State) (core k n : Nat) : (count s core k n).powered = s.powered := rfl
@[simp] theorem count_agenda (s : State) (core k n : Nat) : (count s core k n).agenda = s.agenda := rfl
@[simp] theorem count_agent (s : State) (core k n : Nat) : (count s core k n).agent = s.agent := rfl
@[simp] theorem count_ticks (s : State) (core k n : Nat) : (count s core k n).ticks = s.ticks := rfl
@[simp] theorem count_nextKey (s : State) (core k n : Nat) : (count s core k n).nextKey = s.nextKey := rfl

end Sys2Proof.Machine
end

