-- ==== Sys2Proof/Laws/Memory.lean ====
section
/-! SUPPORT. Every operation over memory and its caches keeps memory in its canonical form, or does not touch it; what a word
written at its home reads afterwards. -/

namespace Sys2Proof.Machine

/-- What holds of the start and is kept by every turn holds at the end of a fold. -/
theorem foldl_keeps {α β : Type} {P : β → Prop} (f : β → α → β) (hf : ∀ b a, P b → P (f b a)) (l : List α) {b : β} (h : P b) :
    P (l.foldl f b) := by
  induction l generalizing b with
  | nil => exact h
  | cons a r ih => exact ih (hf _ _ h)

/-- Memory of a state is in its canonical form. -/
def memOk (s : State) : Prop := Memory.wf s.mem

theorem setL1_wf {s : State} (h : memOk s) (p : Nat) (m : Map CWord) : memOk (setL1 s p m) := by
  unfold memOk; rw [setL1_mem]; exact h

theorem setL2_wf {s : State} (h : memOk s) (t : Nat) (m : Map CWord) : memOk (setL2 s t m) := by
  unfold memOk; rw [setL2_mem]; exact h

theorem setDram_wf {s : State} (h : memOk s) (w : Nat) (x : PWord) : memOk (setDram s w x) := setWord_wf h w x.1

theorem homeThrough_wf {s : State} (h : memOk s) (w : Nat) (be : BitVec 4) (x : PWord) : memOk (homeThrough s w be x) :=
  setDram_wf h _ _

theorem homeBack_wf {s : State} (h : memOk s) (t w : Nat) (be : BitVec 4) (x : PWord) : memOk (homeBack s t w be x) := by
  unfold homeBack
  dsimp only
  split
  · exact setDram_wf h _ _
  · exact h

theorem homeFlush_wf {s : State} (h : memOk s) (w : Nat) : memOk (homeFlush s w) := by
  unfold homeFlush
  split
  · exact setDram_wf (s := s) h _ _
  · exact h

/-- A fold of steps that each keep the form of memory keeps it. -/
theorem fold_wf {α : Type} {f : State → α → State} (hf : ∀ s a, memOk s → memOk (f s a)) (l : List α) {s : State} (h : memOk s) :
    memOk (l.foldl f s) := foldl_keeps (P := memOk) f hf l h

theorem l1BackWord_wf {s : State} (h : memOk s) (p w : Nat) : memOk (l1BackWord s p w) := by
  unfold l1BackWord
  split
  · split
    · exact h
    · exact setL1_wf (setL2_wf h _ _) _ _
  · exact h

theorem fillL2_wf {s : State} (h : memOk s) (t w : Nat) : memOk (fillL2 s t w) := setL2_wf h _ _

theorem fillL1_wf {s : State} (h : memOk s) (p w : Nat) : memOk (fillL1 s p w) := setL1_wf h _ _

/-- One of two states that are both in order. -/
theorem ite_wf {c : Prop} [Decidable c] {a b : State} (ha : memOk a) (hb : memOk b) : memOk (if c then a else b) := by
  split
  · exact ha
  · exact hb

theorem l1Back_wf {s : State} (h : memOk s) (p w : Nat) : memOk (l1Back s p w) :=
  ite_wf (fillL1_wf (fillL2_wf (fold_wf (fun _ _ h => l1BackWord_wf h _ _) _ h) _ _) _ _) h

theorem l2BackWord_wf {s : State} (h : memOk s) (t w : Nat) : memOk (l2BackWord s t w) := by
  unfold l2BackWord
  split
  · split
    · exact h
    · exact setL2_wf (homeBack_wf h _ _ _ _) _ _
  · exact h

theorem l2Back_wf {s : State} (h : memOk s) (t w : Nat) : memOk (l2Back s t w) :=
  ite_wf (fillL2_wf (fold_wf (fun _ _ h => l2BackWord_wf h _ _) _ h) _ _) h

theorem dropL1_wf {s : State} (h : memOk s) (p w : Nat) : memOk (dropL1 s p w) := by
  unfold dropL1
  split
  · exact setL1_wf h _ _
  · exact h

theorem dropL2_wf {s : State} (h : memOk s) (t w : Nat) : memOk (dropL2 s t w) := by
  unfold dropL2
  split
  · exact setL2_wf h _ _
  · exact h

theorem l1Revoke_wf {s : State} (h : memOk s) (p w : Nat) : memOk (l1Revoke s p w) := dropL1_wf (l1Back_wf h _ _) _ _

theorem terraceRevoke_wf {s : State} (h : memOk s) (t w : Nat) : memOk (terraceRevoke s t w) :=
  dropL2_wf (l2Back_wf (fold_wf (fun _ _ h => l1Revoke_wf h _ _) _ h) _ _) _ _

theorem terraceGive_wf {s : State} (h : memOk s) (t w : Nat) : memOk (terraceGive s t w) :=
  fold_wf (fun _ _ h => terraceRevoke_wf h _ _) _ h

theorem revokeOthers_wf {s : State} (h : memOk s) (t : Nat) (p : Option Nat) (w : Nat) : memOk (revokeOthers s t p w) :=
  fold_wf (fun _ _ h => ite_wf (l1Revoke_wf h _ _) h) _ (fold_wf (fun _ _ h => ite_wf (terraceGive_wf h _ _) h) _ h)

theorem revokeAll_wf {s : State} (h : memOk s) (w : Nat) : memOk (revokeAll s w) := fold_wf (fun _ _ h => terraceGive_wf h _ _) _ h

theorem beforeRead_wf {s : State} (h : memOk s) (t p : Nat) (cache : Bool) (w n : Nat) : memOk (beforeRead s t p cache w n) := by
  have h1 : ∀ q, memOk (revokeOthers s t q w) := fun q => revokeOthers_wf h t q w
  unfold beforeRead
  exact ite_wf (dropL2_wf (ite_wf (dropL1_wf (ite_wf (h1 _) h) _ _) (ite_wf (h1 _) h)) _ _)
    (ite_wf (dropL1_wf (ite_wf (h1 _) h) _ _) (ite_wf (h1 _) h))

theorem fillPath_wf {s : State} (h : memOk s) (p : Nat) (cache : Bool) (w : Nat) : memOk (fillPath s p cache w) :=
  ite_wf (fillL1_wf (fillL2_wf h _ _) _ _) (fillL2_wf h _ _)

/-- A read leaves memory in order: it may have an owner write back, and caches take the value. -/
theorem readWord_wf {s : State} (h : memOk s) (core w : Nat) (syn alloc first : Bool) (t : Nat) :
    memOk (readWord s core w syn alloc first t).2 := by
  have h1 := beforeRead_wf h (terraceOf core) (plotOf core) (hasCache s (plotOf core)) w (t * 4)
  unfold readWord
  dsimp only
  generalize beforeRead s (terraceOf core) (plotOf core) (hasCache s (plotOf core)) w (t * 4) = b at *
  have h2 : memOk (if first = true then b else s) := ite_wf h1 h
  generalize (if first = true then b else s) = r at *
  split
  · exact h
  · split
    · exact h2
    · exact ite_wf (fillPath_wf h2 _ _ _) h2

theorem dropStale_wf {s : State} (h : memOk s) (core w : Nat) : memOk (dropStale s core w) := dropL2_wf (dropL1_wf h _ _) _ _

theorem register_wf {s : State} (h : memOk s) (core w : Nat) : memOk (register s core w) := dropStale_wf (revokeOthers_wf h _ _ _) _ _

/-- What a store notes of older values is no byte of memory. -/
@[simp] theorem noteWord_mem (s : State) (w : Nat) (view : Nat → PWord) : (noteWord s w view).mem = s.mem := rfl

@[simp] theorem seePair_mem (s : State) (scratch : Bool) (pair : Nat) : (seePair s scratch pair).mem = s.mem := rfl

theorem noteWord_wf {s : State} (h : memOk s) (w : Nat) (view : Nat → PWord) : memOk (noteWord s w view) := h

theorem writeWord_wf {s : State} (h : memOk s) (core w : Nat) (syn : Bool) (be : BitVec 4) (x : PWord) :
    memOk (writeWord s core w syn be x) := by
  have h1 := register_wf h core w
  unfold writeWord
  generalize register s core w = r at *
  dsimp only
  refine ite_wf (homeThrough_wf (noteWord_wf h _ _) _ _ _) ?_
  have h2 : ∀ v, memOk (noteWord r w v) := fun _ => h1
  exact ite_wf (setL1_wf (h2 _) _ _) (setL2_wf (h2 _) _ _)

theorem atomicView_wf {s : State} (h : memOk s) (core w : Nat) (syn plot : Bool) : memOk (atomicView s core w syn plot).2 := by
  have h1 := register_wf h core w
  have h2 := dropStale_wf (revokeAll_wf h w) core w
  unfold atomicView
  split
  · exact h1
  · exact (ite_wf (c := syn = true) h h2 : _)

theorem atomicWrite_wf {s : State} (h : memOk s) (core w : Nat) (syn plot : Bool) (x : PWord) : memOk (atomicWrite s core w syn plot x) :=
  ite_wf (writeWord_wf h _ _ _ _ _) (homeThrough_wf (noteWord_wf h _ _) _ _ _)

theorem releaseHost_wf {s : State} (h : memOk s) (p : Nat) : memOk (releaseHost s p) := by
  unfold releaseHost
  exact fold_wf (fun _ _ h => l2Back_wf h _ _) _ (fold_wf (fun _ _ h => l1Back_wf h _ _) _ h)

theorem releaseAt_wf {s : State} (h : memOk s) (core scope : Nat) : memOk (releaseAt s core scope) := by
  have h1 := releaseHost_wf h (plotOf core)
  unfold releaseAt
  dsimp only
  generalize releaseHost s (plotOf core) = r at *
  have h2 : ∀ l : List Nat, memOk (l.foldl (fun s w => l1Back s (plotOf core) w) r) := fun l => fold_wf (fun _ _ h => l1Back_wf h _ _) _ h1
  have h3 : ∀ (l : List Nat) (u : State), memOk u → memOk (l.foldl (fun s w => l2Back s (terraceOf core) w) u) :=
    fun l u h => fold_wf (fun _ _ h => l2Back_wf h _ _) _ h
  exact ite_wf h1 (ite_wf (h2 _) (ite_wf (h3 _ _ (h2 _)) (fold_wf (fun _ _ h => homeFlush_wf h _) _ (h3 _ _ (h2 _)))))

/-- An acquire only drops cached words. -/
theorem acquireAt_wf {s : State} (h : memOk s) (core scope : Nat) : memOk (acquireAt s core scope) := by
  have h0 : memOk (forgetEarly s core) := h
  unfold acquireAt
  generalize forgetEarly s core = r at *
  have h1 : ∀ (n : Nat) (m : Map CWord), memOk (if m.length = n then r else setL1 r (plotOf core) m) := fun _ _ => ite_wf h0 (setL1_wf h0 _ _)
  exact ite_wf (h1 _ _) (setL2_wf (h1 _ _) _ _)

theorem evictL1_wf {s : State} (h : memOk s) (p line : Nat) : memOk (evictL1 s p line) := by
  unfold evictL1
  exact fold_wf (fun _ _ h => l1Revoke_wf h _ _) _ h

theorem trimL1_wf {s : State} (h : memOk s) (p : Nat) : memOk (trimL1 s p) := fold_wf (fun _ _ h => evictL1_wf h _ _) _ h

theorem trimL2_wf {s : State} (h : memOk s) (t : Nat) : memOk (trimL2 s t) := by
  unfold trimL2
  dsimp only
  refine fold_wf (fun s x h => ?_) _ h
  refine fold_wf (fun s w h => ?_) _ h
  exact dropL2_wf (l2Back_wf h _ _) _ _

theorem trimHome_wf {s : State} (h : memOk s) : memOk (trimHome s) := by
  unfold trimHome
  dsimp only
  refine fold_wf (fun s k h => ?_) _ h
  refine fold_wf (fun s x h => ?_) _ h
  refine fold_wf (fun s w h => ?_) _ h
  exact homeFlush_wf h _

/-- Lines that leave full caches leave memory in order. -/
theorem trimCaches_wf {s : State} (h : memOk s) : memOk (trimCaches s) := by
  unfold trimCaches
  have h1 : ∀ l : List (Nat × Plot), memOk (l.foldl (fun s x => trimL1 s x.1) s) := fun l => fold_wf (fun _ _ h => trimL1_wf h _) _ h
  have h2 : ∀ (l : List (Nat × Map CWord)) (u : State), memOk u → memOk (l.foldl (fun s x => trimL2 s x.1) u) :=
    fun l u h => fold_wf (fun _ _ h => trimL2_wf h _) _ h
  exact ite_wf (h2 _ _ (h1 _)) (trimHome_wf (h2 _ _ (h1 _)))

theorem putHome_wf {s : State} (h : memOk s) (w : Nat) (be : BitVec 4) (x : PWord) : memOk (putHome s w be x) :=
  homeThrough_wf (revokeAll_wf h _) _ _ _

theorem homePut_wf {s : State} (h : memOk s) (a : Nat) (x : Byte) : memOk (homePut s a x) := putHome_wf h _ _ _

theorem homePuts_wf {s : State} (h : memOk s) (a : Nat) (l : List Byte) : memOk (homePuts s a l) := by
  induction l generalizing s a with
  | nil => exact h
  | cons x r ih => exact ih (homePut_wf h _ _) _

theorem setHomeDWord_wf {s : State} (h : memOk s) (a : Nat) (x : DWord) : memOk (setHomeDWord s a x) :=
  putHome_wf (putHome_wf h _ _ _) _ _ _

theorem setPteBit_wf {s : State} (h : memOk s) (a k : Nat) : memOk (setPteBit s a k) := by
  unfold setPteBit
  dsimp only
  split
  · exact h
  · exact setHomeDWord_wf h _ _

theorem putTlb_wf {s : State} (h : memOk s) (k : Nat) (x : DWord × Nat) : memOk (putTlb s k x) := by
  unfold putTlb
  have h1 : memOk (match mfind s.tlb k with
    | some o => if tlbFrame (k % 2 ^ 37) o = tlbFrame (k % 2 ^ 37) x then s else noteFrame s k o
    | none => s) := by
    split
    · exact ite_wf h (by unfold noteFrame; exact ite_wf h h)
    · exact h
  exact h1

/-- A translation touches memory only to set bits of page-table entries. -/
theorem translate_wf {s : State} (h : memOk s) (core : Nat) (asid : BitVec 16) (va : DWord) (kind : AccKind) :
    memOk (translate s core asid va kind).2 := by
  unfold translate
  split
  · exact h
  · exact h
  · rename_i e level path _
    have h0 : memOk (path.foldl (fun s a => setPteBit s a 4) s) := fold_wf (fun _ _ h => setPteBit_wf h _ _) _ h
    have h1 := fun k x => putTlb_wf h0 k x
    dsimp only
    generalize putTlb (path.foldl (fun s a => setPteBit s a 4) s) = q at *
    split
    · exact h
    · split
      · exact h1 _ _
      · split
        · split
          · exact h1 _ _
          · exact ite_wf (setPteBit_wf (h1 _ _) _ _) (h1 _ _)
        · exact h1 _ _

@[simp] theorem setScratch_mem (s : State) (p w : Nat) (be : BitVec 4) (x : Word) : (setScratch s p w be x).mem = s.mem := rfl

@[simp] theorem setMark_mem (s : State) (p g : Nat) (q : Bool) : (setMark s p g q).mem = s.mem := rfl

@[simp] theorem scratchPuts_mem (s : State) (p a : Nat) (l : List Byte) : (scratchPuts s p a l).mem = s.mem := by
  induction l generalizing s a with
  | nil => rfl
  | cons x r ih => rw [scratchPuts, ih]; rfl

/-! ## Words at their home -/

theorem memByte_setWord_ne (m : List Host.Cell) (w : Nat) (x : Word) (a : Nat) (h : a / 4 ≠ w) :
    memByte (setWord m w x) a = memByte m a := by
  unfold setWord
  rw [memByte_setByte, memByte_setByte, memByte_setByte, memByte_setByte]
  have h0 : a ≠ 4 * w := by omega
  have h1 : a ≠ 4 * w + 1 := by omega
  have h2 : a ≠ 4 * w + 2 := by omega
  have h3 : a ≠ 4 * w + 3 := by omega
  simp [h0, h1, h2, h3]

theorem wordOf_byteOf (x : Word) : wordOf (byteOf x 0) (byteOf x 1) (byteOf x 2) (byteOf x 3) = x := by
  apply BitVec.eq_of_toNat_eq
  simp only [wordOf, byteOf, BitVec.toNat_append, BitVec.toNat_ofNat]
  have := x.isLt
  rw [← Nat.shiftLeft_add_eq_or_of_lt (by omega), ← Nat.shiftLeft_add_eq_or_of_lt (by omega), ← Nat.shiftLeft_add_eq_or_of_lt (by omega)]
  simp only [Nat.shiftLeft_eq]
  omega

/-- A word reads as it was written. -/
theorem memWord_setWord_self (m : List Host.Cell) (w : Nat) (x : Word) : memWord (setWord m w x) w = x := by
  unfold memWord setWord
  simp only [memByte_setByte]
  simp [wordOf_byteOf]

/-- Other words read as before. -/
theorem memWord_setWord_ne (m : List Host.Cell) {w v : Nat} (x : Word) (h : v ≠ w) : memWord (setWord m w x) v = memWord m v := by
  unfold memWord
  rw [memByte_setWord_ne, memByte_setWord_ne, memByte_setWord_ne, memByte_setWord_ne] <;> omega

/-- A word written through its home cache reads as the bytes written over the old ones. -/
theorem homeWord_homeThrough_self (s : State) (w : Nat) (be : BitVec 4) (x : PWord) :
    homeWord (homeThrough s w be x) w =
      (mergeBytes (homeWord s w).1 x.1 be, if be = 15#4 then x.2 else x.2 || (homeWord s w).2) := by
  conv_lhs => unfold homeWord
  simp only [homeThrough]
  rw [mfind_mdel, if_pos rfl]
  simp [dramWord, memWord_setWord_self]

/-- A word written through its home cache leaves every other word. -/
theorem homeWord_homeThrough_ne (s : State) {w v : Nat} (be : BitVec 4) (x : PWord) (h : v ≠ w) :
    homeWord (homeThrough s w be x) v = homeWord s v := by
  unfold homeWord
  simp only [homeThrough]
  rw [mfind_mdel, if_neg h]
  simp [dramWord, memWord_setWord_ne _ _ h, mget_mput_ne _ _ _ h, setDram]

end Sys2Proof.Machine
end

