-- ==== Sys2Proof/Laws/PerInstr.lean ====
section
/-! SUPPORT. Laws stated for every instruction, one lemma for each constructor.  Word: the encoder's fields never overflow a word, so
that cutting its number to 32 bits loses nothing (R171). -/

namespace Sys2Proof.Laws.Word

set_option Elab.async false

/-- The encoding of the instruction fits in 32 bits. -/
def Statement (i : Instr) : Prop := encodeNat i < 2 ^ 32

theorem scope_bit_le (s : Scope) : s.bit ≤ 0x80000000 := by cases s <;> decide

theorem add (a0 : Scope) (a1 : BitVec 7) (a2 : BitVec 7) (a3 : BitVec 7) : Statement (.add a0 a1 a2 a3) := by
  have h0 := scope_bit_le a0; have h1 := a1.isLt; have h2 := a2.isLt; have h3 := a3.isLt
  simp only [Statement, encodeNat, put]; omega

theorem sub (a0 : Scope) (a1 : BitVec 7) (a2 : BitVec 7) (a3 : BitVec 7) : Statement (.sub a0 a1 a2 a3) := by
  have h0 := scope_bit_le a0; have h1 := a1.isLt; have h2 := a2.isLt; have h3 := a3.isLt
  simp only [Statement, encodeNat, put]; omega

theorem mul (a0 : Scope) (a1 : BitVec 7) (a2 : BitVec 7) (a3 : BitVec 7) : Statement (.mul a0 a1 a2 a3) := by
  have h0 := scope_bit_le a0; have h1 := a1.isLt; have h2 := a2.isLt; have h3 := a3.isLt
  simp only [Statement, encodeNat, put]; omega

theorem mulh (a0 : Scope) (a1 : BitVec 7) (a2 : BitVec 7) (a3 : BitVec 7) : Statement (.mulh a0 a1 a2 a3) := by
  have h0 := scope_bit_le a0; have h1 := a1.isLt; have h2 := a2.isLt; have h3 := a3.isLt
  simp only [Statement, encodeNat, put]; omega

theorem mulhu (a0 : Scope) (a1 : BitVec 7) (a2 : BitVec 7) (a3 : BitVec 7) : Statement (.mulhu a0 a1 a2 a3) := by
  have h0 := scope_bit_le a0; have h1 := a1.isLt; have h2 := a2.isLt; have h3 := a3.isLt
  simp only [Statement, encodeNat, put]; omega

theorem min (a0 : Scope) (a1 : BitVec 7) (a2 : BitVec 7) (a3 : BitVec 7) : Statement (.min a0 a1 a2 a3) := by
  have h0 := scope_bit_le a0; have h1 := a1.isLt; have h2 := a2.isLt; have h3 := a3.isLt
  simp only [Statement, encodeNat, put]; omega

theorem max (a0 : Scope) (a1 : BitVec 7) (a2 : BitVec 7) (a3 : BitVec 7) : Statement (.max a0 a1 a2 a3) := by
  have h0 := scope_bit_le a0; have h1 := a1.isLt; have h2 := a2.isLt; have h3 := a3.isLt
  simp only [Statement, encodeNat, put]; omega

theorem minu (a0 : Scope) (a1 : BitVec 7) (a2 : BitVec 7) (a3 : BitVec 7) : Statement (.minu a0 a1 a2 a3) := by
  have h0 := scope_bit_le a0; have h1 := a1.isLt; have h2 := a2.isLt; have h3 := a3.isLt
  simp only [Statement, encodeNat, put]; omega

theorem maxu (a0 : Scope) (a1 : BitVec 7) (a2 : BitVec 7) (a3 : BitVec 7) : Statement (.maxu a0 a1 a2 a3) := by
  have h0 := scope_bit_le a0; have h1 := a1.isLt; have h2 := a2.isLt; have h3 := a3.isLt
  simp only [Statement, encodeNat, put]; omega

theorem and (a0 : Scope) (a1 : BitVec 7) (a2 : BitVec 7) (a3 : BitVec 7) : Statement (.and a0 a1 a2 a3) := by
  have h0 := scope_bit_le a0; have h1 := a1.isLt; have h2 := a2.isLt; have h3 := a3.isLt
  simp only [Statement, encodeNat, put]; omega

theorem or (a0 : Scope) (a1 : BitVec 7) (a2 : BitVec 7) (a3 : BitVec 7) : Statement (.or a0 a1 a2 a3) := by
  have h0 := scope_bit_le a0; have h1 := a1.isLt; have h2 := a2.isLt; have h3 := a3.isLt
  simp only [Statement, encodeNat, put]; omega

theorem xor (a0 : Scope) (a1 : BitVec 7) (a2 : BitVec 7) (a3 : BitVec 7) : Statement (.xor a0 a1 a2 a3) := by
  have h0 := scope_bit_le a0; have h1 := a1.isLt; have h2 := a2.isLt; have h3 := a3.isLt
  simp only [Statement, encodeNat, put]; omega

theorem andn (a0 : Scope) (a1 : BitVec 7) (a2 : BitVec 7) (a3 : BitVec 7) : Statement (.andn a0 a1 a2 a3) := by
  have h0 := scope_bit_le a0; have h1 := a1.isLt; have h2 := a2.isLt; have h3 := a3.isLt
  simp only [Statement, encodeNat, put]; omega

theorem shl (a0 : Scope) (a1 : BitVec 7) (a2 : BitVec 7) (a3 : BitVec 7) : Statement (.shl a0 a1 a2 a3) := by
  have h0 := scope_bit_le a0; have h1 := a1.isLt; have h2 := a2.isLt; have h3 := a3.isLt
  simp only [Statement, encodeNat, put]; omega

theorem shr (a0 : Scope) (a1 : BitVec 7) (a2 : BitVec 7) (a3 : BitVec 7) : Statement (.shr a0 a1 a2 a3) := by
  have h0 := scope_bit_le a0; have h1 := a1.isLt; have h2 := a2.isLt; have h3 := a3.isLt
  simp only [Statement, encodeNat, put]; omega

theorem sra (a0 : Scope) (a1 : BitVec 7) (a2 : BitVec 7) (a3 : BitVec 7) : Statement (.sra a0 a1 a2 a3) := by
  have h0 := scope_bit_le a0; have h1 := a1.isLt; have h2 := a2.isLt; have h3 := a3.isLt
  simp only [Statement, encodeNat, put]; omega

theorem rol (a0 : Scope) (a1 : BitVec 7) (a2 : BitVec 7) (a3 : BitVec 7) : Statement (.rol a0 a1 a2 a3) := by
  have h0 := scope_bit_le a0; have h1 := a1.isLt; have h2 := a2.isLt; have h3 := a3.isLt
  simp only [Statement, encodeNat, put]; omega

theorem ror (a0 : Scope) (a1 : BitVec 7) (a2 : BitVec 7) (a3 : BitVec 7) : Statement (.ror a0 a1 a2 a3) := by
  have h0 := scope_bit_le a0; have h1 := a1.isLt; have h2 := a2.isLt; have h3 := a3.isLt
  simp only [Statement, encodeNat, put]; omega

theorem clz (a0 : Scope) (a1 : BitVec 7) (a2 : BitVec 7) : Statement (.clz a0 a1 a2) := by
  have h0 := scope_bit_le a0; have h1 := a1.isLt; have h2 := a2.isLt
  simp only [Statement, encodeNat, put]; omega

theorem popc (a0 : Scope) (a1 : BitVec 7) (a2 : BitVec 7) : Statement (.popc a0 a1 a2) := by
  have h0 := scope_bit_le a0; have h1 := a1.isLt; have h2 := a2.isLt
  simp only [Statement, encodeNat, put]; omega

theorem brev (a0 : Scope) (a1 : BitVec 7) (a2 : BitVec 7) : Statement (.brev a0 a1 a2) := by
  have h0 := scope_bit_le a0; have h1 := a1.isLt; have h2 := a2.isLt
  simp only [Statement, encodeNat, put]; omega

theorem abs (a0 : Scope) (a1 : BitVec 7) (a2 : BitVec 7) : Statement (.abs a0 a1 a2) := by
  have h0 := scope_bit_le a0; have h1 := a1.isLt; have h2 := a2.isLt
  simp only [Statement, encodeNat, put]; omega

theorem neg (a0 : Scope) (a1 : BitVec 7) (a2 : BitVec 7) : Statement (.neg a0 a1 a2) := by
  have h0 := scope_bit_le a0; have h1 := a1.isLt; have h2 := a2.isLt
  simp only [Statement, encodeNat, put]; omega

theorem madd (a0 : Scope) (a1 : BitVec 7) (a2 : BitVec 7) (a3 : BitVec 7) : Statement (.madd a0 a1 a2 a3) := by
  have h0 := scope_bit_le a0; have h1 := a1.isLt; have h2 := a2.isLt; have h3 := a3.isLt
  simp only [Statement, encodeNat, put]; omega

theorem msub (a0 : Scope) (a1 : BitVec 7) (a2 : BitVec 7) (a3 : BitVec 7) : Statement (.msub a0 a1 a2 a3) := by
  have h0 := scope_bit_le a0; have h1 := a1.isLt; have h2 := a2.isLt; have h3 := a3.isLt
  simp only [Statement, encodeNat, put]; omega

theorem lea1 (a0 : Scope) (a1 : BitVec 7) (a2 : BitVec 7) (a3 : BitVec 7) : Statement (.lea1 a0 a1 a2 a3) := by
  have h0 := scope_bit_le a0; have h1 := a1.isLt; have h2 := a2.isLt; have h3 := a3.isLt
  simp only [Statement, encodeNat, put]; omega

theorem lea2 (a0 : Scope) (a1 : BitVec 7) (a2 : BitVec 7) (a3 : BitVec 7) : Statement (.lea2 a0 a1 a2 a3) := by
  have h0 := scope_bit_le a0; have h1 := a1.isLt; have h2 := a2.isLt; have h3 := a3.isLt
  simp only [Statement, encodeNat, put]; omega

theorem lea3 (a0 : Scope) (a1 : BitVec 7) (a2 : BitVec 7) (a3 : BitVec 7) : Statement (.lea3 a0 a1 a2 a3) := by
  have h0 := scope_bit_le a0; have h1 := a1.isLt; have h2 := a2.isLt; have h3 := a3.isLt
  simp only [Statement, encodeNat, put]; omega

theorem addsat (a0 : Scope) (a1 : BitVec 7) (a2 : BitVec 7) (a3 : BitVec 7) : Statement (.addsat a0 a1 a2 a3) := by
  have h0 := scope_bit_le a0; have h1 := a1.isLt; have h2 := a2.isLt; have h3 := a3.isLt
  simp only [Statement, encodeNat, put]; omega

theorem subsat (a0 : Scope) (a1 : BitVec 7) (a2 : BitVec 7) (a3 : BitVec 7) : Statement (.subsat a0 a1 a2 a3) := by
  have h0 := scope_bit_le a0; have h1 := a1.isLt; have h2 := a2.isLt; have h3 := a3.isLt
  simp only [Statement, encodeNat, put]; omega

theorem addi (a0 : Scope) (a1 : BitVec 7) (a2 : BitVec 7) (a3 : BitVec 11) : Statement (.addi a0 a1 a2 a3) := by
  have h0 := scope_bit_le a0; have h1 := a1.isLt; have h2 := a2.isLt; have h3 := a3.isLt
  simp only [Statement, encodeNat, put]; omega

theorem muli (a0 : Scope) (a1 : BitVec 7) (a2 : BitVec 7) (a3 : BitVec 11) : Statement (.muli a0 a1 a2 a3) := by
  have h0 := scope_bit_le a0; have h1 := a1.isLt; have h2 := a2.isLt; have h3 := a3.isLt
  simp only [Statement, encodeNat, put]; omega

theorem andi (a0 : Scope) (a1 : BitVec 7) (a2 : BitVec 7) (a3 : BitVec 11) : Statement (.andi a0 a1 a2 a3) := by
  have h0 := scope_bit_le a0; have h1 := a1.isLt; have h2 := a2.isLt; have h3 := a3.isLt
  simp only [Statement, encodeNat, put]; omega

theorem ori (a0 : Scope) (a1 : BitVec 7) (a2 : BitVec 7) (a3 : BitVec 11) : Statement (.ori a0 a1 a2 a3) := by
  have h0 := scope_bit_le a0; have h1 := a1.isLt; have h2 := a2.isLt; have h3 := a3.isLt
  simp only [Statement, encodeNat, put]; omega

theorem xori (a0 : Scope) (a1 : BitVec 7) (a2 : BitVec 7) (a3 : BitVec 11) : Statement (.xori a0 a1 a2 a3) := by
  have h0 := scope_bit_le a0; have h1 := a1.isLt; have h2 := a2.isLt; have h3 := a3.isLt
  simp only [Statement, encodeNat, put]; omega

theorem shli (a0 : Scope) (a1 : BitVec 7) (a2 : BitVec 7) (a3 : BitVec 5) : Statement (.shli a0 a1 a2 a3) := by
  have h0 := scope_bit_le a0; have h1 := a1.isLt; have h2 := a2.isLt; have h3 := a3.isLt
  simp only [Statement, encodeNat, put]; omega

theorem shri (a0 : Scope) (a1 : BitVec 7) (a2 : BitVec 7) (a3 : BitVec 5) : Statement (.shri a0 a1 a2 a3) := by
  have h0 := scope_bit_le a0; have h1 := a1.isLt; have h2 := a2.isLt; have h3 := a3.isLt
  simp only [Statement, encodeNat, put]; omega

theorem srai (a0 : Scope) (a1 : BitVec 7) (a2 : BitVec 7) (a3 : BitVec 5) : Statement (.srai a0 a1 a2 a3) := by
  have h0 := scope_bit_le a0; have h1 := a1.isLt; have h2 := a2.isLt; have h3 := a3.isLt
  simp only [Statement, encodeNat, put]; omega

theorem roli (a0 : Scope) (a1 : BitVec 7) (a2 : BitVec 7) (a3 : BitVec 5) : Statement (.roli a0 a1 a2 a3) := by
  have h0 := scope_bit_le a0; have h1 := a1.isLt; have h2 := a2.isLt; have h3 := a3.isLt
  simp only [Statement, encodeNat, put]; omega

theorem li (a0 : Scope) (a1 : BitVec 7) (a2 : BitVec 18) : Statement (.li a0 a1 a2) := by
  have h0 := scope_bit_le a0; have h1 := a1.isLt; have h2 := a2.isLt
  simp only [Statement, encodeNat, put]; omega

theorem cmp (a0 : Scope) (a1 : BitVec 7) (a2 : BitVec 7) (a3 : BitVec 7) (a4 : BitVec 4) : Statement (.cmp a0 a1 a2 a3 a4) := by
  have h0 := scope_bit_le a0; have h1 := a1.isLt; have h2 := a2.isLt; have h3 := a3.isLt; have h4 := a4.isLt
  simp only [Statement, encodeNat, put]; omega

theorem cmpi (a0 : Scope) (a1 : BitVec 7) (a2 : BitVec 7) (a3 : BitVec 4) (a4 : BitVec 7) : Statement (.cmpi a0 a1 a2 a3 a4) := by
  have h0 := scope_bit_le a0; have h1 := a1.isLt; have h2 := a2.isLt; have h3 := a3.isLt; have h4 := a4.isLt
  simp only [Statement, encodeNat, put]; omega

theorem mov (a0 : Scope) (a1 : BitVec 7) (a2 : BitVec 7) : Statement (.mov a0 a1 a2) := by
  have h0 := scope_bit_le a0; have h1 := a1.isLt; have h2 := a2.isLt
  simp only [Statement, encodeNat, put]; omega

theorem movgv (a0 : BitVec 7) (a1 : BitVec 7) : Statement (.movgv a0 a1) := by
  have h0 := a0.isLt; have h1 := a1.isLt
  simp only [Statement, encodeNat, put]; omega

theorem movvg (a0 : BitVec 7) (a1 : BitVec 7) : Statement (.movvg a0 a1) := by
  have h0 := a0.isLt; have h1 := a1.isLt
  simp only [Statement, encodeNat, put]; omega

theorem laneid (a0 : BitVec 7) : Statement (.laneid a0) := by
  have h0 := a0.isLt
  simp only [Statement, encodeNat, put]; omega

theorem tag (a0 : BitVec 7) (a1 : BitVec 7) : Statement (.tag a0 a1) := by
  have h0 := a0.isLt; have h1 := a1.isLt
  simp only [Statement, encodeNat, put]; omega

theorem gen (a0 : BitVec 7) : Statement (.gen a0) := by
  have h0 := a0.isLt
  simp only [Statement, encodeNat, put]; omega

theorem sel (a0 : BitVec 7) (a1 : BitVec 7) (a2 : BitVec 7) : Statement (.sel a0 a1 a2) := by
  have h0 := a0.isLt; have h1 := a1.isLt; have h2 := a2.isLt
  simp only [Statement, encodeNat, put]; omega

theorem pack2 (a0 : BitVec 7) (a1 : BitVec 7) (a2 : BitVec 7) : Statement (.pack2 a0 a1 a2) := by
  have h0 := a0.isLt; have h1 := a1.isLt; have h2 := a2.isLt
  simp only [Statement, encodeNat, put]; omega

theorem pack4 (a0 : BitVec 7) (a1 : BitVec 7) (a2 : BitVec 7) : Statement (.pack4 a0 a1 a2) := by
  have h0 := a0.isLt; have h1 := a1.isLt; have h2 := a2.isLt
  simp only [Statement, encodeNat, put]; omega

theorem unpk (a0 : BitVec 7) (a1 : BitVec 7) (a2 : BitVec 7) : Statement (.unpk a0 a1 a2) := by
  have h0 := a0.isLt; have h1 := a1.isLt; have h2 := a2.isLt
  simp only [Statement, encodeNat, put]; omega

theorem movj (a0 : BitVec 7) (a1 : BitVec 4) (a2 : BitVec 1) : Statement (.movj a0 a1 a2) := by
  have h0 := a0.isLt; have h1 := a1.isLt; have h2 := a2.isLt
  simp only [Statement, encodeNat, put]; omega

theorem mpop (a0 : BitVec 7) (a1 : BitVec 7) : Statement (.mpop a0 a1) := by
  have h0 := a0.isLt; have h1 := a1.isLt
  simp only [Statement, encodeNat, put]; omega

theorem mffs (a0 : BitVec 7) (a1 : BitVec 7) : Statement (.mffs a0 a1) := by
  have h0 := a0.isLt; have h1 := a1.isLt
  simp only [Statement, encodeNat, put]; omega

theorem mfls (a0 : BitVec 7) (a1 : BitVec 7) : Statement (.mfls a0 a1) := by
  have h0 := a0.isLt; have h1 := a1.isLt
  simp only [Statement, encodeNat, put]; omega

theorem mnth (a0 : BitVec 7) (a1 : BitVec 7) (a2 : BitVec 7) : Statement (.mnth a0 a1 a2) := by
  have h0 := a0.isLt; have h1 := a1.isLt; have h2 := a2.isLt
  simp only [Statement, encodeNat, put]; omega

theorem fadd (a0 : Scope) (a1 : BitVec 7) (a2 : BitVec 7) (a3 : BitVec 7) : Statement (.fadd a0 a1 a2 a3) := by
  have h0 := scope_bit_le a0; have h1 := a1.isLt; have h2 := a2.isLt; have h3 := a3.isLt
  simp only [Statement, encodeNat, put]; omega

theorem fsub (a0 : Scope) (a1 : BitVec 7) (a2 : BitVec 7) (a3 : BitVec 7) : Statement (.fsub a0 a1 a2 a3) := by
  have h0 := scope_bit_le a0; have h1 := a1.isLt; have h2 := a2.isLt; have h3 := a3.isLt
  simp only [Statement, encodeNat, put]; omega

theorem fmul (a0 : Scope) (a1 : BitVec 7) (a2 : BitVec 7) (a3 : BitVec 7) : Statement (.fmul a0 a1 a2 a3) := by
  have h0 := scope_bit_le a0; have h1 := a1.isLt; have h2 := a2.isLt; have h3 := a3.isLt
  simp only [Statement, encodeNat, put]; omega

theorem ffma (a0 : Scope) (a1 : BitVec 7) (a2 : BitVec 7) (a3 : BitVec 7) : Statement (.ffma a0 a1 a2 a3) := by
  have h0 := scope_bit_le a0; have h1 := a1.isLt; have h2 := a2.isLt; have h3 := a3.isLt
  simp only [Statement, encodeNat, put]; omega

theorem ffms (a0 : Scope) (a1 : BitVec 7) (a2 : BitVec 7) (a3 : BitVec 7) : Statement (.ffms a0 a1 a2 a3) := by
  have h0 := scope_bit_le a0; have h1 := a1.isLt; have h2 := a2.isLt; have h3 := a3.isLt
  simp only [Statement, encodeNat, put]; omega

theorem fmin (a0 : Scope) (a1 : BitVec 7) (a2 : BitVec 7) (a3 : BitVec 7) : Statement (.fmin a0 a1 a2 a3) := by
  have h0 := scope_bit_le a0; have h1 := a1.isLt; have h2 := a2.isLt; have h3 := a3.isLt
  simp only [Statement, encodeNat, put]; omega

theorem fmax (a0 : Scope) (a1 : BitVec 7) (a2 : BitVec 7) (a3 : BitVec 7) : Statement (.fmax a0 a1 a2 a3) := by
  have h0 := scope_bit_le a0; have h1 := a1.isLt; have h2 := a2.isLt; have h3 := a3.isLt
  simp only [Statement, encodeNat, put]; omega

theorem fabs (a0 : Scope) (a1 : BitVec 7) (a2 : BitVec 7) : Statement (.fabs a0 a1 a2) := by
  have h0 := scope_bit_le a0; have h1 := a1.isLt; have h2 := a2.isLt
  simp only [Statement, encodeNat, put]; omega

theorem fneg (a0 : Scope) (a1 : BitVec 7) (a2 : BitVec 7) : Statement (.fneg a0 a1 a2) := by
  have h0 := scope_bit_le a0; have h1 := a1.isLt; have h2 := a2.isLt
  simp only [Statement, encodeNat, put]; omega

theorem fcpys (a0 : Scope) (a1 : BitVec 7) (a2 : BitVec 7) (a3 : BitVec 7) : Statement (.fcpys a0 a1 a2 a3) := by
  have h0 := scope_bit_le a0; have h1 := a1.isLt; have h2 := a2.isLt; have h3 := a3.isLt
  simp only [Statement, encodeNat, put]; omega

theorem fclass (a0 : Scope) (a1 : BitVec 7) (a2 : BitVec 7) : Statement (.fclass a0 a1 a2) := by
  have h0 := scope_bit_le a0; have h1 := a1.isLt; have h2 := a2.isLt
  simp only [Statement, encodeNat, put]; omega

theorem fcmp (a0 : Scope) (a1 : BitVec 7) (a2 : BitVec 7) (a3 : BitVec 7) (a4 : BitVec 4) : Statement (.fcmp a0 a1 a2 a3 a4) := by
  have h0 := scope_bit_le a0; have h1 := a1.isLt; have h2 := a2.isLt; have h3 := a3.isLt; have h4 := a4.isLt
  simp only [Statement, encodeNat, put]; omega

theorem cvt (a0 : Scope) (a1 : BitVec 7) (a2 : BitVec 7) (a3 : BitVec 4) (a4 : BitVec 4) (a5 : BitVec 2) (a6 : BitVec 1) : Statement (.cvt a0 a1 a2 a3 a4 a5 a6) := by
  have h0 := scope_bit_le a0; have h1 := a1.isLt; have h2 := a2.isLt; have h3 := a3.isLt; have h4 := a4.isLt; have h5 := a5.isLt; have h6 := a6.isLt
  simp only [Statement, encodeNat, put]; omega

theorem hadd2 (a0 : BitVec 7) (a1 : BitVec 7) (a2 : BitVec 7) : Statement (.hadd2 a0 a1 a2) := by
  have h0 := a0.isLt; have h1 := a1.isLt; have h2 := a2.isLt
  simp only [Statement, encodeNat, put]; omega

theorem hsub2 (a0 : BitVec 7) (a1 : BitVec 7) (a2 : BitVec 7) : Statement (.hsub2 a0 a1 a2) := by
  have h0 := a0.isLt; have h1 := a1.isLt; have h2 := a2.isLt
  simp only [Statement, encodeNat, put]; omega

theorem hmul2 (a0 : BitVec 7) (a1 : BitVec 7) (a2 : BitVec 7) : Statement (.hmul2 a0 a1 a2) := by
  have h0 := a0.isLt; have h1 := a1.isLt; have h2 := a2.isLt
  simp only [Statement, encodeNat, put]; omega

theorem hfma2 (a0 : BitVec 7) (a1 : BitVec 7) (a2 : BitVec 7) : Statement (.hfma2 a0 a1 a2) := by
  have h0 := a0.isLt; have h1 := a1.isLt; have h2 := a2.isLt
  simp only [Statement, encodeNat, put]; omega

theorem hmin2 (a0 : BitVec 7) (a1 : BitVec 7) (a2 : BitVec 7) : Statement (.hmin2 a0 a1 a2) := by
  have h0 := a0.isLt; have h1 := a1.isLt; have h2 := a2.isLt
  simp only [Statement, encodeNat, put]; omega

theorem hmax2 (a0 : BitVec 7) (a1 : BitVec 7) (a2 : BitVec 7) : Statement (.hmax2 a0 a1 a2) := by
  have h0 := a0.isLt; have h1 := a1.isLt; have h2 := a2.isLt
  simp only [Statement, encodeNat, put]; omega

theorem badd2 (a0 : BitVec 7) (a1 : BitVec 7) (a2 : BitVec 7) : Statement (.badd2 a0 a1 a2) := by
  have h0 := a0.isLt; have h1 := a1.isLt; have h2 := a2.isLt
  simp only [Statement, encodeNat, put]; omega

theorem bmul2 (a0 : BitVec 7) (a1 : BitVec 7) (a2 : BitVec 7) : Statement (.bmul2 a0 a1 a2) := by
  have h0 := a0.isLt; have h1 := a1.isLt; have h2 := a2.isLt
  simp only [Statement, encodeNat, put]; omega

theorem bfma2 (a0 : BitVec 7) (a1 : BitVec 7) (a2 : BitVec 7) : Statement (.bfma2 a0 a1 a2) := by
  have h0 := a0.isLt; have h1 := a1.isLt; have h2 := a2.isLt
  simp only [Statement, encodeNat, put]; omega

theorem dadd (a0 : BitVec 7) (a1 : BitVec 7) (a2 : BitVec 7) : Statement (.dadd a0 a1 a2) := by
  have h0 := a0.isLt; have h1 := a1.isLt; have h2 := a2.isLt
  simp only [Statement, encodeNat, put]; omega

theorem dsub (a0 : BitVec 7) (a1 : BitVec 7) (a2 : BitVec 7) : Statement (.dsub a0 a1 a2) := by
  have h0 := a0.isLt; have h1 := a1.isLt; have h2 := a2.isLt
  simp only [Statement, encodeNat, put]; omega

theorem dmul (a0 : BitVec 7) (a1 : BitVec 7) (a2 : BitVec 7) : Statement (.dmul a0 a1 a2) := by
  have h0 := a0.isLt; have h1 := a1.isLt; have h2 := a2.isLt
  simp only [Statement, encodeNat, put]; omega

theorem dfma (a0 : BitVec 7) (a1 : BitVec 7) (a2 : BitVec 7) : Statement (.dfma a0 a1 a2) := by
  have h0 := a0.isLt; have h1 := a1.isLt; have h2 := a2.isLt
  simp only [Statement, encodeNat, put]; omega

theorem dmin (a0 : BitVec 7) (a1 : BitVec 7) (a2 : BitVec 7) : Statement (.dmin a0 a1 a2) := by
  have h0 := a0.isLt; have h1 := a1.isLt; have h2 := a2.isLt
  simp only [Statement, encodeNat, put]; omega

theorem dmax (a0 : BitVec 7) (a1 : BitVec 7) (a2 : BitVec 7) : Statement (.dmax a0 a1 a2) := by
  have h0 := a0.isLt; have h1 := a1.isLt; have h2 := a2.isLt
  simp only [Statement, encodeNat, put]; omega

theorem ex2 (a0 : BitVec 7) (a1 : BitVec 7) : Statement (.ex2 a0 a1) := by
  have h0 := a0.isLt; have h1 := a1.isLt
  simp only [Statement, encodeNat, put]; omega

theorem lg2 (a0 : BitVec 7) (a1 : BitVec 7) : Statement (.lg2 a0 a1) := by
  have h0 := a0.isLt; have h1 := a1.isLt
  simp only [Statement, encodeNat, put]; omega

theorem rcp (a0 : BitVec 7) (a1 : BitVec 7) : Statement (.rcp a0 a1) := by
  have h0 := a0.isLt; have h1 := a1.isLt
  simp only [Statement, encodeNat, put]; omega

theorem rsq (a0 : BitVec 7) (a1 : BitVec 7) : Statement (.rsq a0 a1) := by
  have h0 := a0.isLt; have h1 := a1.isLt
  simp only [Statement, encodeNat, put]; omega

theorem sqrt (a0 : BitVec 7) (a1 : BitVec 7) : Statement (.sqrt a0 a1) := by
  have h0 := a0.isLt; have h1 := a1.isLt
  simp only [Statement, encodeNat, put]; omega

theorem sin (a0 : BitVec 7) (a1 : BitVec 7) : Statement (.sin a0 a1) := by
  have h0 := a0.isLt; have h1 := a1.isLt
  simp only [Statement, encodeNat, put]; omega

theorem cos (a0 : BitVec 7) (a1 : BitVec 7) : Statement (.cos a0 a1) := by
  have h0 := a0.isLt; have h1 := a1.isLt
  simp only [Statement, encodeNat, put]; omega

theorem tanh (a0 : BitVec 7) (a1 : BitVec 7) : Statement (.tanh a0 a1) := by
  have h0 := a0.isLt; have h1 := a1.isLt
  simp only [Statement, encodeNat, put]; omega

theorem ex2h (a0 : BitVec 7) (a1 : BitVec 7) : Statement (.ex2h a0 a1) := by
  have h0 := a0.isLt; have h1 := a1.isLt
  simp only [Statement, encodeNat, put]; omega

theorem shfl (a0 : BitVec 7) (a1 : BitVec 7) (a2 : BitVec 7) : Statement (.shfl a0 a1 a2) := by
  have h0 := a0.isLt; have h1 := a1.isLt; have h2 := a2.isLt
  simp only [Statement, encodeNat, put]; omega

theorem shflx (a0 : BitVec 7) (a1 : BitVec 7) (a2 : BitVec 7) : Statement (.shflx a0 a1 a2) := by
  have h0 := a0.isLt; have h1 := a1.isLt; have h2 := a2.isLt
  simp only [Statement, encodeNat, put]; omega

theorem shflup (a0 : BitVec 7) (a1 : BitVec 7) (a2 : BitVec 7) : Statement (.shflup a0 a1 a2) := by
  have h0 := a0.isLt; have h1 := a1.isLt; have h2 := a2.isLt
  simp only [Statement, encodeNat, put]; omega

theorem shfldn (a0 : BitVec 7) (a1 : BitVec 7) (a2 : BitVec 7) : Statement (.shfldn a0 a1 a2) := by
  have h0 := a0.isLt; have h1 := a1.isLt; have h2 := a2.isLt
  simp only [Statement, encodeNat, put]; omega

theorem bcast (a0 : BitVec 7) (a1 : BitVec 7) (a2 : BitVec 7) : Statement (.bcast a0 a1 a2) := by
  have h0 := a0.isLt; have h1 := a1.isLt; have h2 := a2.isLt
  simp only [Statement, encodeNat, put]; omega

theorem redadd (a0 : BitVec 7) (a1 : BitVec 7) : Statement (.redadd a0 a1) := by
  have h0 := a0.isLt; have h1 := a1.isLt
  simp only [Statement, encodeNat, put]; omega

theorem redfadd (a0 : BitVec 7) (a1 : BitVec 7) : Statement (.redfadd a0 a1) := by
  have h0 := a0.isLt; have h1 := a1.isLt
  simp only [Statement, encodeNat, put]; omega

theorem redmin (a0 : BitVec 7) (a1 : BitVec 7) : Statement (.redmin a0 a1) := by
  have h0 := a0.isLt; have h1 := a1.isLt
  simp only [Statement, encodeNat, put]; omega

theorem redmax (a0 : BitVec 7) (a1 : BitVec 7) : Statement (.redmax a0 a1) := by
  have h0 := a0.isLt; have h1 := a1.isLt
  simp only [Statement, encodeNat, put]; omega

theorem redfmin (a0 : BitVec 7) (a1 : BitVec 7) : Statement (.redfmin a0 a1) := by
  have h0 := a0.isLt; have h1 := a1.isLt
  simp only [Statement, encodeNat, put]; omega

theorem redfmax (a0 : BitVec 7) (a1 : BitVec 7) : Statement (.redfmax a0 a1) := by
  have h0 := a0.isLt; have h1 := a1.isLt
  simp only [Statement, encodeNat, put]; omega

theorem redand (a0 : BitVec 7) (a1 : BitVec 7) : Statement (.redand a0 a1) := by
  have h0 := a0.isLt; have h1 := a1.isLt
  simp only [Statement, encodeNat, put]; omega

theorem redor (a0 : BitVec 7) (a1 : BitVec 7) : Statement (.redor a0 a1) := by
  have h0 := a0.isLt; have h1 := a1.isLt
  simp only [Statement, encodeNat, put]; omega

theorem scanadd (a0 : BitVec 7) (a1 : BitVec 7) : Statement (.scanadd a0 a1) := by
  have h0 := a0.isLt; have h1 := a1.isLt
  simp only [Statement, encodeNat, put]; omega

theorem scanfadd (a0 : BitVec 7) (a1 : BitVec 7) : Statement (.scanfadd a0 a1) := by
  have h0 := a0.isLt; have h1 := a1.isLt
  simp only [Statement, encodeNat, put]; omega

theorem argmax (a0 : BitVec 7) (a1 : BitVec 7) : Statement (.argmax a0 a1) := by
  have h0 := a0.isLt; have h1 := a1.isLt
  simp only [Statement, encodeNat, put]; omega

theorem argmin (a0 : BitVec 7) (a1 : BitVec 7) : Statement (.argmin a0 a1) := by
  have h0 := a0.isLt; have h1 := a1.isLt
  simp only [Statement, encodeNat, put]; omega

theorem fargmax (a0 : BitVec 7) (a1 : BitVec 7) : Statement (.fargmax a0 a1) := by
  have h0 := a0.isLt; have h1 := a1.isLt
  simp only [Statement, encodeNat, put]; omega

theorem fargmin (a0 : BitVec 7) (a1 : BitVec 7) : Statement (.fargmin a0 a1) := by
  have h0 := a0.isLt; have h1 := a1.isLt
  simp only [Statement, encodeNat, put]; omega

theorem sort32 (a0 : BitVec 7) (a1 : BitVec 7) : Statement (.sort32 a0 a1) := by
  have h0 := a0.isLt; have h1 := a1.isLt
  simp only [Statement, encodeNat, put]; omega

theorem topk (a0 : BitVec 7) (a1 : BitVec 7) (a2 : BitVec 7) : Statement (.topk a0 a1 a2) := by
  have h0 := a0.isLt; have h1 := a1.isLt; have h2 := a2.isLt
  simp only [Statement, encodeNat, put]; omega

theorem mergek (a0 : BitVec 7) (a1 : BitVec 7) (a2 : BitVec 7) : Statement (.mergek a0 a1 a2) := by
  have h0 := a0.isLt; have h1 := a1.isLt; have h2 := a2.isLt
  simp only [Statement, encodeNat, put]; omega

theorem dp4a (a0 : BitVec 7) (a1 : BitVec 7) (a2 : BitVec 7) : Statement (.dp4a a0 a1 a2) := by
  have h0 := a0.isLt; have h1 := a1.isLt; have h2 := a2.isLt
  simp only [Statement, encodeNat, put]; omega

theorem dp4au (a0 : BitVec 7) (a1 : BitVec 7) (a2 : BitVec 7) : Statement (.dp4au a0 a1 a2) := by
  have h0 := a0.isLt; have h1 := a1.isLt; have h2 := a2.isLt
  simp only [Statement, encodeNat, put]; omega

theorem dp2h (a0 : BitVec 7) (a1 : BitVec 7) (a2 : BitVec 7) : Statement (.dp2h a0 a1 a2) := by
  have h0 := a0.isLt; have h1 := a1.isLt; have h2 := a2.isLt
  simp only [Statement, encodeNat, put]; omega

theorem dp4q (a0 : BitVec 7) (a1 : BitVec 7) (a2 : BitVec 7) : Statement (.dp4q a0 a1 a2) := by
  have h0 := a0.isLt; have h1 := a1.isLt; have h2 := a2.isLt
  simp only [Statement, encodeNat, put]; omega

theorem dp4qe (a0 : BitVec 7) (a1 : BitVec 7) (a2 : BitVec 7) : Statement (.dp4qe a0 a1 a2) := by
  have h0 := a0.isLt; have h1 := a1.isLt; have h2 := a2.isLt
  simp only [Statement, encodeNat, put]; omega

theorem div (a0 : Scope) (a1 : BitVec 7) (a2 : BitVec 7) (a3 : BitVec 7) (a4 : BitVec 4) : Statement (.div a0 a1 a2 a3 a4) := by
  have h0 := scope_bit_le a0; have h1 := a1.isLt; have h2 := a2.isLt; have h3 := a3.isLt; have h4 := a4.isLt
  simp only [Statement, encodeNat, put]; omega

theorem divu (a0 : Scope) (a1 : BitVec 7) (a2 : BitVec 7) (a3 : BitVec 7) (a4 : BitVec 4) : Statement (.divu a0 a1 a2 a3 a4) := by
  have h0 := scope_bit_le a0; have h1 := a1.isLt; have h2 := a2.isLt; have h3 := a3.isLt; have h4 := a4.isLt
  simp only [Statement, encodeNat, put]; omega

theorem rem (a0 : Scope) (a1 : BitVec 7) (a2 : BitVec 7) (a3 : BitVec 7) (a4 : BitVec 4) : Statement (.rem a0 a1 a2 a3 a4) := by
  have h0 := scope_bit_le a0; have h1 := a1.isLt; have h2 := a2.isLt; have h3 := a3.isLt; have h4 := a4.isLt
  simp only [Statement, encodeNat, put]; omega

theorem remu (a0 : Scope) (a1 : BitVec 7) (a2 : BitVec 7) (a3 : BitVec 7) (a4 : BitVec 4) : Statement (.remu a0 a1 a2 a3 a4) := by
  have h0 := scope_bit_le a0; have h1 := a1.isLt; have h2 := a2.isLt; have h3 := a3.isLt; have h4 := a4.isLt
  simp only [Statement, encodeNat, put]; omega

theorem ld (a0 : BitVec 7) (a1 : BitVec 7) (a2 : BitVec 2) (a3 : BitVec 5) (a4 : BitVec 4) : Statement (.ld a0 a1 a2 a3 a4) := by
  have h0 := a0.isLt; have h1 := a1.isLt; have h2 := a2.isLt; have h3 := a3.isLt; have h4 := a4.isLt
  simp only [Statement, encodeNat, put]; omega

theorem ldx (a0 : BitVec 7) (a1 : BitVec 7) (a2 : BitVec 2) (a3 : BitVec 5) (a4 : BitVec 4) : Statement (.ldx a0 a1 a2 a3 a4) := by
  have h0 := a0.isLt; have h1 := a1.isLt; have h2 := a2.isLt; have h3 := a3.isLt; have h4 := a4.isLt
  simp only [Statement, encodeNat, put]; omega

theorem st (a0 : BitVec 7) (a1 : BitVec 7) (a2 : BitVec 2) (a3 : BitVec 5) : Statement (.st a0 a1 a2 a3) := by
  have h0 := a0.isLt; have h1 := a1.isLt; have h2 := a2.isLt; have h3 := a3.isLt
  simp only [Statement, encodeNat, put]; omega

theorem stq (a0 : BitVec 7) (a1 : BitVec 7) (a2 : BitVec 5) : Statement (.stq a0 a1 a2) := by
  have h0 := a0.isLt; have h1 := a1.isLt; have h2 := a2.isLt
  simp only [Statement, encodeNat, put]; omega

theorem lds (a0 : BitVec 7) (a1 : BitVec 7) (a2 : BitVec 2) (a3 : BitVec 5) (a4 : BitVec 4) : Statement (.lds a0 a1 a2 a3 a4) := by
  have h0 := a0.isLt; have h1 := a1.isLt; have h2 := a2.isLt; have h3 := a3.isLt; have h4 := a4.isLt
  simp only [Statement, encodeNat, put]; omega

theorem sts (a0 : BitVec 7) (a1 : BitVec 7) (a2 : BitVec 2) (a3 : BitVec 5) : Statement (.sts a0 a1 a2 a3) := by
  have h0 := a0.isLt; have h1 := a1.isLt; have h2 := a2.isLt; have h3 := a3.isLt
  simp only [Statement, encodeNat, put]; omega

theorem ldc (a0 : BitVec 7) (a1 : BitVec 7) (a2 : BitVec 2) (a3 : BitVec 5) (a4 : BitVec 4) : Statement (.ldc a0 a1 a2 a3 a4) := by
  have h0 := a0.isLt; have h1 := a1.isLt; have h2 := a2.isLt; have h3 := a3.isLt; have h4 := a4.isLt
  simp only [Statement, encodeNat, put]; omega

theorem lda (a0 : BitVec 7) (a1 : BitVec 7) (a2 : BitVec 2) (a3 : BitVec 3) (a4 : BitVec 4) : Statement (.lda a0 a1 a2 a3 a4) := by
  have h0 := a0.isLt; have h1 := a1.isLt; have h2 := a2.isLt; have h3 := a3.isLt; have h4 := a4.isLt
  simp only [Statement, encodeNat, put]; omega

theorem stl (a0 : BitVec 7) (a1 : BitVec 7) (a2 : BitVec 2) (a3 : BitVec 3) : Statement (.stl a0 a1 a2 a3) := by
  have h0 := a0.isLt; have h1 := a1.isLt; have h2 := a2.isLt; have h3 := a3.isLt
  simp only [Statement, encodeNat, put]; omega

theorem atom (a0 : Scope) (a1 : BitVec 7) (a2 : BitVec 7) (a3 : BitVec 2) (a4 : BitVec 5) (a5 : BitVec 4) : Statement (.atom a0 a1 a2 a3 a4 a5) := by
  have h0 := scope_bit_le a0; have h1 := a1.isLt; have h2 := a2.isLt; have h3 := a3.isLt; have h4 := a4.isLt; have h5 := a5.isLt
  simp only [Statement, encodeNat, put]; omega

theorem atom64 (a0 : BitVec 7) (a1 : BitVec 7) (a2 : BitVec 2) (a3 : BitVec 5) (a4 : BitVec 4) : Statement (.atom64 a0 a1 a2 a3 a4) := by
  have h0 := a0.isLt; have h1 := a1.isLt; have h2 := a2.isLt; have h3 := a3.isLt; have h4 := a4.isLt
  simp only [Statement, encodeNat, put]; omega

theorem atoms (a0 : BitVec 7) (a1 : BitVec 7) (a2 : BitVec 2) (a3 : BitVec 5) (a4 : BitVec 4) : Statement (.atoms a0 a1 a2 a3 a4) := by
  have h0 := a0.isLt; have h1 := a1.isLt; have h2 := a2.isLt; have h3 := a3.isLt; have h4 := a4.isLt
  simp only [Statement, encodeNat, put]; omega

theorem fence (a0 : Scope) (a1 : BitVec 3) (a2 : BitVec 2) : Statement (.fence a0 a1 a2) := by
  have h0 := scope_bit_le a0; have h1 := a1.isLt; have h2 := a2.isLt
  simp only [Statement, encodeNat, put]; omega

theorem ldt (a0 : BitVec 7) (a1 : BitVec 7) (a2 : BitVec 2) (a3 : BitVec 5) (a4 : BitVec 4) : Statement (.ldt a0 a1 a2 a3 a4) := by
  have h0 := a0.isLt; have h1 := a1.isLt; have h2 := a2.isLt; have h3 := a3.isLt; have h4 := a4.isLt
  simp only [Statement, encodeNat, put]; omega

theorem ldu (a0 : BitVec 7) (a1 : BitVec 7) (a2 : BitVec 2) (a3 : BitVec 5) (a4 : BitVec 4) : Statement (.ldu a0 a1 a2 a3 a4) := by
  have h0 := a0.isLt; have h1 := a1.isLt; have h2 := a2.isLt; have h3 := a3.isLt; have h4 := a4.isLt
  simp only [Statement, encodeNat, put]; omega

theorem stu (a0 : BitVec 7) (a1 : BitVec 7) (a2 : BitVec 2) (a3 : BitVec 5) : Statement (.stu a0 a1 a2 a3) := by
  have h0 := a0.isLt; have h1 := a1.isLt; have h2 := a2.isLt; have h3 := a3.isLt
  simp only [Statement, encodeNat, put]; omega

theorem ldsu (a0 : BitVec 7) (a1 : BitVec 7) (a2 : BitVec 2) (a3 : BitVec 5) (a4 : BitVec 4) : Statement (.ldsu a0 a1 a2 a3 a4) := by
  have h0 := a0.isLt; have h1 := a1.isLt; have h2 := a2.isLt; have h3 := a3.isLt; have h4 := a4.isLt
  simp only [Statement, encodeNat, put]; omega

theorem stsu (a0 : BitVec 7) (a1 : BitVec 7) (a2 : BitVec 2) (a3 : BitVec 5) : Statement (.stsu a0 a1 a2 a3) := by
  have h0 := a0.isLt; have h1 := a1.isLt; have h2 := a2.isLt; have h3 := a3.isLt
  simp only [Statement, encodeNat, put]; omega

theorem qmm (a0 : BitVec 3) (a1 : BitVec 7) (a2 : BitVec 7) (a3 : BitVec 4) : Statement (.qmm a0 a1 a2 a3) := by
  have h0 := a0.isLt; have h1 := a1.isLt; have h2 := a2.isLt; have h3 := a3.isLt
  simp only [Statement, encodeNat, put]; omega

theorem qmms (a0 : BitVec 3) (a1 : BitVec 7) (a2 : BitVec 7) (a3 : BitVec 4) : Statement (.qmms a0 a1 a2 a3) := by
  have h0 := a0.isLt; have h1 := a1.isLt; have h2 := a2.isLt; have h3 := a3.isLt
  simp only [Statement, encodeNat, put]; omega

theorem mvt (a0 : BitVec 7) (a1 : BitVec 7) (a2 : BitVec 7) (a3 : BitVec 4) : Statement (.mvt a0 a1 a2 a3) := by
  have h0 := a0.isLt; have h1 := a1.isLt; have h2 := a2.isLt; have h3 := a3.isLt
  simp only [Statement, encodeNat, put]; omega

theorem nmcall (a0 : BitVec 7) (a1 : BitVec 7) (a2 : BitVec 7) : Statement (.nmcall a0 a1 a2) := by
  have h0 := a0.isLt; have h1 := a1.isLt; have h2 := a2.isLt
  simp only [Statement, encodeNat, put]; omega

theorem mread (a0 : BitVec 7) (a1 : BitVec 3) : Statement (.mread a0 a1) := by
  have h0 := a0.isLt; have h1 := a1.isLt
  simp only [Statement, encodeNat, put]; omega

theorem mwrite (a0 : BitVec 3) (a1 : BitVec 7) : Statement (.mwrite a0 a1) := by
  have h0 := a0.isLt; have h1 := a1.isLt
  simp only [Statement, encodeNat, put]; omega

theorem mzero (a0 : BitVec 3) : Statement (.mzero a0) := by
  have h0 := a0.isLt
  simp only [Statement, encodeNat, put]; omega

theorem br (a0 : BitVec 7) (a1 : BitVec 18) : Statement (.br a0 a1) := by
  have h0 := a0.isLt; have h1 := a1.isLt
  simp only [Statement, encodeNat, put]; omega

theorem brn (a0 : BitVec 7) (a1 : BitVec 18) : Statement (.brn a0 a1) := by
  have h0 := a0.isLt; have h1 := a1.isLt
  simp only [Statement, encodeNat, put]; omega

theorem bra (a0 : BitVec 25) : Statement (.bra a0) := by
  have h0 := a0.isLt
  simp only [Statement, encodeNat, put]; omega

theorem call (a0 : BitVec 25) : Statement (.call a0) := by
  have h0 := a0.isLt
  simp only [Statement, encodeNat, put]; omega

theorem jmpr (a0 : BitVec 7) : Statement (.jmpr a0) := by
  have h0 := a0.isLt
  simp only [Statement, encodeNat, put]; omega

theorem exit : Statement (.exit) := (by decide : encodeNat .exit < 2 ^ 32)

theorem yield : Statement (.yield) := (by decide : encodeNat .yield < 2 ^ 32)

theorem nop : Statement (.nop) := (by decide : encodeNat .nop < 2 ^ 32)

theorem bkpt : Statement (.bkpt) := (by decide : encodeNat .bkpt < 2 ^ 32)

theorem pred (a0 : BitVec 7) : Statement (.pred a0) := by
  have h0 := a0.isLt
  simp only [Statement, encodeNat, put]; omega

theorem unpred : Statement (.unpred) := (by decide : encodeNat .unpred < 2 ^ 32)

theorem setj (a0 : BitVec 4) : Statement (.setj a0) := by
  have h0 := a0.isLt
  simp only [Statement, encodeNat, put]; omega

theorem join (a0 : BitVec 4) : Statement (.join a0) := by
  have h0 := a0.isLt
  simp only [Statement, encodeNat, put]; omega

theorem jleave (a0 : BitVec 4) : Statement (.jleave a0) := by
  have h0 := a0.isLt
  simp only [Statement, encodeNat, put]; omega

theorem region : Statement (.region) := (by decide : encodeNat .region < 2 ^ 32)

theorem trap (a0 : BitVec 7) : Statement (.trap a0) := by
  have h0 := a0.isLt
  simp only [Statement, encodeNat, put]; omega

theorem hret : Statement (.hret) := (by decide : encodeNat .hret < 2 ^ 32)

theorem wbase (a0 : BitVec 5) : Statement (.wbase a0) := by
  have h0 := a0.isLt
  simp only [Statement, encodeNat, put]; omega

theorem wbaseRel (a0 : BitVec 6) : Statement (.wbaseRel a0) := by
  have h0 := a0.isLt
  simp only [Statement, encodeNat, put]; omega

theorem srd (a0 : Scope) (a1 : BitVec 7) (a2 : BitVec 10) : Statement (.srd a0 a1 a2) := by
  have h0 := scope_bit_le a0; have h1 := a1.isLt; have h2 := a2.isLt
  simp only [Statement, encodeNat, put]; omega

theorem swr (a0 : Scope) (a1 : BitVec 7) (a2 : BitVec 10) : Statement (.swr a0 a1 a2) := by
  have h0 := scope_bit_le a0; have h1 := a1.isLt; have h2 := a2.isLt
  simp only [Statement, encodeNat, put]; omega

theorem ext (a0 : Scope) (a1 : BitVec 25) (a2 : BitVec 32) : Statement (.ext a0 a1 a2) := by
  have h0 := scope_bit_le a0; have h1 := a1.isLt; have h2 := a2.isLt
  simp only [Statement, encodeNat, put]; omega

theorem copy (a0 : BitVec 7) (a1 : BitVec 7) (a2 : BitVec 7) (a3 : BitVec 4) : Statement (.copy a0 a1 a2 a3) := by
  have h0 := a0.isLt; have h1 := a1.isLt; have h2 := a2.isLt; have h3 := a3.isLt
  simp only [Statement, encodeNat, put]; omega

theorem copyout (a0 : BitVec 7) (a1 : BitVec 7) : Statement (.copyout a0 a1) := by
  have h0 := a0.isLt; have h1 := a1.isLt
  simp only [Statement, encodeNat, put]; omega

theorem tmm (a0 : BitVec 7) (a1 : BitVec 7) (a2 : BitVec 7) (a3 : BitVec 4) : Statement (.tmm a0 a1 a2 a3) := by
  have h0 := a0.isLt; have h1 := a1.isLt; have h2 := a2.isLt; have h3 := a3.isLt
  simp only [Statement, encodeNat, put]; omega

theorem nmsearch (a0 : BitVec 7) (a1 : BitVec 7) : Statement (.nmsearch a0 a1) := by
  have h0 := a0.isLt; have h1 := a1.isLt
  simp only [Statement, encodeNat, put]; omega

theorem nmcommit (a0 : BitVec 7) (a1 : BitVec 7) (a2 : BitVec 7) (a3 : BitVec 4) : Statement (.nmcommit a0 a1 a2 a3) := by
  have h0 := a0.isLt; have h1 := a1.isLt; have h2 := a2.isLt; have h3 := a3.isLt
  simp only [Statement, encodeNat, put]; omega

theorem collfire (a0 : BitVec 7) (a1 : BitVec 7) : Statement (.collfire a0 a1) := by
  have h0 := a0.isLt; have h1 := a1.isLt
  simp only [Statement, encodeNat, put]; omega

theorem binit (a0 : BitVec 7) (a1 : BitVec 7) (a2 : BitVec 7) : Statement (.binit a0 a1 a2) := by
  have h0 := a0.isLt; have h1 := a1.isLt; have h2 := a2.isLt
  simp only [Statement, encodeNat, put]; omega

theorem barrive (a0 : BitVec 7) (a1 : BitVec 7) (a2 : BitVec 7) : Statement (.barrive a0 a1 a2) := by
  have h0 := a0.isLt; have h1 := a1.isLt; have h2 := a2.isLt
  simp only [Statement, encodeNat, put]; omega

theorem barriven (a0 : BitVec 7) (a1 : BitVec 7) (a2 : BitVec 7) : Statement (.barriven a0 a1 a2) := by
  have h0 := a0.isLt; have h1 := a1.isLt; have h2 := a2.isLt
  simp only [Statement, encodeNat, put]; omega

theorem btest (a0 : BitVec 7) (a1 : BitVec 7) (a2 : BitVec 1) : Statement (.btest a0 a1 a2) := by
  have h0 := a0.isLt; have h1 := a1.isLt; have h2 := a2.isLt
  simp only [Statement, encodeNat, put]; omega

theorem waitb (a0 : BitVec 7) (a1 : BitVec 7) (a2 : BitVec 7) : Statement (.waitb a0 a1 a2) := by
  have h0 := a0.isLt; have h1 := a1.isLt; have h2 := a2.isLt
  simp only [Statement, encodeNat, put]; omega

theorem tstate (a0 : BitVec 7) (a1 : BitVec 7) : Statement (.tstate a0 a1) := by
  have h0 := a0.isLt; have h1 := a1.isLt
  simp only [Statement, encodeNat, put]; omega

theorem trel (a0 : BitVec 7) : Statement (.trel a0) := by
  have h0 := a0.isLt
  simp only [Statement, encodeNat, put]; omega

theorem twait (a0 : BitVec 7) : Statement (.twait a0) := by
  have h0 := a0.isLt
  simp only [Statement, encodeNat, put]; omega

theorem tclaim (a0 : BitVec 7) (a1 : BitVec 7) : Statement (.tclaim a0 a1) := by
  have h0 := a0.isLt; have h1 := a1.isLt
  simp only [Statement, encodeNat, put]; omega

theorem qinit (a0 : BitVec 7) (a1 : BitVec 7) : Statement (.qinit a0 a1) := by
  have h0 := a0.isLt; have h1 := a1.isLt
  simp only [Statement, encodeNat, put]; omega

theorem qpush (a0 : BitVec 7) (a1 : BitVec 7) (a2 : BitVec 1) : Statement (.qpush a0 a1 a2) := by
  have h0 := a0.isLt; have h1 := a1.isLt; have h2 := a2.isLt
  simp only [Statement, encodeNat, put]; omega

theorem qpop (a0 : BitVec 7) (a1 : BitVec 7) (a2 : BitVec 1) : Statement (.qpop a0 a1 a2) := by
  have h0 := a0.isLt; have h1 := a1.isLt; have h2 := a2.isLt
  simp only [Statement, encodeNat, put]; omega

theorem qcount (a0 : BitVec 7) (a1 : BitVec 7) : Statement (.qcount a0 a1) := by
  have h0 := a0.isLt; have h1 := a1.isLt
  simp only [Statement, encodeNat, put]; omega

theorem mtokTake : Statement (.mtokTake) := (by decide : encodeNat .mtokTake < 2 ^ 32)

theorem mtokPass : Statement (.mtokPass) := (by decide : encodeNat .mtokPass < 2 ^ 32)

theorem mtokTest (a0 : BitVec 7) : Statement (.mtokTest a0) := by
  have h0 := a0.isLt
  simp only [Statement, encodeNat, put]; omega

theorem mdrain (a0 : BitVec 7) : Statement (.mdrain a0) := by
  have h0 := a0.isLt
  simp only [Statement, encodeNat, put]; omega

theorem mfill (a0 : BitVec 7) : Statement (.mfill a0) := by
  have h0 := a0.isLt
  simp only [Statement, encodeNat, put]; omega

theorem tnext (a0 : BitVec 7) : Statement (.tnext a0) := by
  have h0 := a0.isLt
  simp only [Statement, encodeNat, put]; omega

theorem tdone : Statement (.tdone) := (by decide : encodeNat .tdone < 2 ^ 32)

theorem tgrain (a0 : BitVec 7) : Statement (.tgrain a0) := by
  have h0 := a0.isLt
  simp only [Statement, encodeNat, put]; omega

theorem bexit : Statement (.bexit) := (by decide : encodeNat .bexit < 2 ^ 32)

theorem jspill (a0 : BitVec 4) (a1 : BitVec 7) : Statement (.jspill a0 a1) := by
  have h0 := a0.isLt; have h1 := a1.isLt
  simp only [Statement, encodeNat, put]; omega

theorem jfill (a0 : BitVec 4) (a1 : BitVec 7) : Statement (.jfill a0 a1) := by
  have h0 := a0.isLt; have h1 := a1.isLt
  simp only [Statement, encodeNat, put]; omega

theorem yieldG : Statement (.yieldG) := (by decide : encodeNat .yieldG < 2 ^ 32)

theorem bankcfg (a0 : BitVec 7) (a1 : BitVec 7) (a2 : BitVec 7) : Statement (.bankcfg a0 a1 a2) := by
  have h0 := a0.isLt; have h1 := a1.isLt; have h2 := a2.isLt
  simp only [Statement, encodeNat, put]; omega

theorem ldb (a0 : BitVec 7) (a1 : BitVec 7) (a2 : BitVec 2) (a3 : BitVec 5) : Statement (.ldb a0 a1 a2 a3) := by
  have h0 := a0.isLt; have h1 := a1.isLt; have h2 := a2.isLt; have h3 := a3.isLt
  simp only [Statement, encodeNat, put]; omega

theorem stb (a0 : BitVec 7) (a1 : BitVec 7) (a2 : BitVec 2) (a3 : BitVec 5) : Statement (.stb a0 a1 a2 a3) := by
  have h0 := a0.isLt; have h1 := a1.isLt; have h2 := a2.isLt; have h3 := a3.isLt
  simp only [Statement, encodeNat, put]; omega

theorem dist (a0 : BitVec 7) (a1 : BitVec 7) (a2 : BitVec 7) (a3 : BitVec 4) : Statement (.dist a0 a1 a2 a3) := by
  have h0 := a0.isLt; have h1 := a1.isLt; have h2 := a2.isLt; have h3 := a3.isLt
  simp only [Statement, encodeNat, put]; omega

theorem hpush (a0 : BitVec 7) (a1 : BitVec 7) (a2 : BitVec 7) : Statement (.hpush a0 a1 a2) := by
  have h0 := a0.isLt; have h1 := a1.isLt; have h2 := a2.isLt
  simp only [Statement, encodeNat, put]; omega

theorem hpop (a0 : BitVec 7) (a1 : BitVec 7) : Statement (.hpop a0 a1) := by
  have h0 := a0.isLt; have h1 := a1.isLt
  simp only [Statement, encodeNat, put]; omega

theorem htop (a0 : BitVec 7) (a1 : BitVec 7) (a2 : BitVec 7) : Statement (.htop a0 a1 a2) := by
  have h0 := a0.isLt; have h1 := a1.isLt; have h2 := a2.isLt
  simp only [Statement, encodeNat, put]; omega

theorem hchain (a0 : BitVec 7) (a1 : BitVec 7) : Statement (.hchain a0 a1) := by
  have h0 := a0.isLt; have h1 := a1.isLt
  simp only [Statement, encodeNat, put]; omega

theorem msgSend (a0 : BitVec 7) (a1 : BitVec 7) : Statement (.msgSend a0 a1) := by
  have h0 := a0.isLt; have h1 := a1.isLt
  simp only [Statement, encodeNat, put]; omega

theorem msgRecv (a0 : BitVec 7) (a1 : BitVec 7) : Statement (.msgRecv a0 a1) := by
  have h0 := a0.isLt; have h1 := a1.isLt
  simp only [Statement, encodeNat, put]; omega

theorem whop (a0 : BitVec 7) (a1 : BitVec 7) : Statement (.whop a0 a1) := by
  have h0 := a0.isLt; have h1 := a1.isLt
  simp only [Statement, encodeNat, put]; omega

theorem wspawn (a0 : BitVec 7) (a1 : BitVec 7) : Statement (.wspawn a0 a1) := by
  have h0 := a0.isLt; have h1 := a1.isLt
  simp only [Statement, encodeNat, put]; omega

theorem wend : Statement (.wend) := (by decide : encodeNat .wend < 2 ^ 32)

theorem nmret (a0 : BitVec 7) (a1 : BitVec 7) : Statement (.nmret a0 a1) := by
  have h0 := a0.isLt; have h1 := a1.isLt
  simp only [Statement, encodeNat, put]; omega

theorem nearQpush (a0 : BitVec 7) (a1 : BitVec 1) (a2 : BitVec 1) : Statement (.nearQpush a0 a1 a2) := by
  have h0 := a0.isLt; have h1 := a1.isLt; have h2 := a2.isLt
  simp only [Statement, encodeNat, put]; omega

theorem nearQpop (a0 : BitVec 7) (a1 : BitVec 1) (a2 : BitVec 1) : Statement (.nearQpop a0 a1 a2) := by
  have h0 := a0.isLt; have h1 := a1.isLt; have h2 := a2.isLt
  simp only [Statement, encodeNat, put]; omega

theorem instructionCompletion (a0 : Nat) (a1 : Nat) (a2 : Nat) : Statement (.instructionCompletion a0 a1 a2) := Nat.two_pow_pos 32

theorem attemptReplay (a0 : Nat) (a1 : Nat) : Statement (.attemptReplay a0 a1) := Nat.two_pow_pos 32

theorem lateTransition (a0 : Nat) (a1 : Nat) (a2 : BitVec 3) : Statement (.lateTransition a0 a1 a2) := Nat.two_pow_pos 32

theorem commitGatePass (a0 : Nat) : Statement (.commitGatePass a0) := Nat.two_pow_pos 32

theorem takeTrap (a0 : Nat) (a1 : Nat) (a2 : BitVec 5) (a3 : BitVec 64) (a4 : BitVec 32) (a5 : BitVec 32) : Statement (.takeTrap a0 a1 a2 a3 a4 a5) := Nat.two_pow_pos 32

theorem watchdogTrap (a0 : Nat) (a1 : Nat) : Statement (.watchdogTrap a0 a1) := Nat.two_pow_pos 32

theorem nmcallReply (a0 : Nat) (a1 : Nat) : Statement (.nmcallReply a0 a1) := Nat.two_pow_pos 32

theorem barrierWake (a0 : Nat) (a1 : Nat) : Statement (.barrierWake a0 a1) := Nat.two_pow_pos 32

theorem tileWake (a0 : Nat) (a1 : Nat) : Statement (.tileWake a0 a1) := Nat.two_pow_pos 32

theorem queueWake (a0 : Nat) (a1 : BitVec 32) : Statement (.queueWake a0 a1) := Nat.two_pow_pos 32

theorem splitGrant (a0 : Nat) : Statement (.splitGrant a0) := Nat.two_pow_pos 32

theorem pageFault (a0 : Nat) (a1 : Nat) (a2 : Nat) : Statement (.pageFault a0 a1 a2) := Nat.two_pow_pos 32

theorem fetchPageFault (a0 : Nat) (a1 : Nat) (a2 : BitVec 64) : Statement (.fetchPageFault a0 a1 a2) := Nat.two_pow_pos 32

theorem protectionViolation (a0 : Nat) (a1 : Nat) (a2 : Nat) : Statement (.protectionViolation a0 a1 a2) := Nat.two_pow_pos 32

theorem resumeRetry (a0 : Nat) (a1 : BitVec 32) : Statement (.resumeRetry a0 a1) := Nat.two_pow_pos 32

theorem resumeFail (a0 : Nat) (a1 : BitVec 32) : Statement (.resumeFail a0 a1) := Nat.two_pow_pos 32

theorem snapshotCopy (a0 : BitVec 16) (a1 : BitVec 64) : Statement (.snapshotCopy a0 a1) := Nat.two_pow_pos 32

theorem registerLineFill (a0 : Nat) (a1 : Nat) (a2 : Nat) : Statement (.registerLineFill a0 a1 a2) := Nat.two_pow_pos 32

theorem lineDrowsy (a0 : Nat) (a1 : Nat) (a2 : Nat) : Statement (.lineDrowsy a0 a1 a2) := Nat.two_pow_pos 32

theorem lineWake (a0 : Nat) (a1 : Nat) (a2 : Nat) : Statement (.lineWake a0 a1 a2) := Nat.two_pow_pos 32

theorem copyCompletion (a0 : Nat) : Statement (.copyCompletion a0) := Nat.two_pow_pos 32

theorem copyTransferFailure (a0 : Nat) (a1 : Bool) : Statement (.copyTransferFailure a0 a1) := Nat.two_pow_pos 32

theorem copyPageFault (a0 : Nat) : Statement (.copyPageFault a0) := Nat.two_pow_pos 32

theorem tmmKStep (a0 : Nat) : Statement (.tmmKStep a0) := Nat.two_pow_pos 32

theorem tmmCompletion (a0 : Nat) : Statement (.tmmCompletion a0) := Nat.two_pow_pos 32

theorem bankSwitchCompletion (a0 : Nat) (a1 : Nat) (a2 : Nat) (a3 : BitVec 9) (a4 : BitVec 2) : Statement (.bankSwitchCompletion a0 a1 a2 a3 a4) := Nat.two_pow_pos 32

theorem barrierArrival (a0 : BitVec 16) (a1 : Nat) (a2 : BitVec 64) (a3 : BitVec 16) (a4 : BitVec 8) : Statement (.barrierArrival a0 a1 a2 a3 a4) := Nat.two_pow_pos 32

theorem bedExit (a0 : Nat) : Statement (.bedExit a0) := Nat.two_pow_pos 32

theorem waveStart (a0 : Nat) : Statement (.waveStart a0) := Nat.two_pow_pos 32

theorem preemption (a0 : Nat) : Statement (.preemption a0) := Nat.two_pow_pos 32

theorem bedResume (a0 : Nat) : Statement (.bedResume a0) := Nat.two_pow_pos 32

theorem launchKill (a0 : Nat) (a1 : BitVec 5) : Statement (.launchKill a0 a1) := Nat.two_pow_pos 32

theorem launchReplay (a0 : Nat) : Statement (.launchReplay a0) := Nat.two_pow_pos 32

theorem doorbell (a0 : Nat) (a1 : BitVec 16) (a2 : BitVec 64) : Statement (.doorbell a0 a1 a2) := Nat.two_pow_pos 32

theorem qcmdEnable (a0 : Nat) (a1 : BitVec 16) : Statement (.qcmdEnable a0 a1) := Nat.two_pow_pos 32

theorem qcmdDisable (a0 : Nat) (a1 : BitVec 16) : Statement (.qcmdDisable a0 a1) := Nat.two_pow_pos 32

theorem arbiterPick : Statement (.arbiterPick) := (by decide : encodeNat .arbiterPick < 2 ^ 32)

theorem dependenceSatisfied (a0 : Nat) : Statement (.dependenceSatisfied a0) := Nat.two_pow_pos 32

theorem bedPlacement (a0 : Nat) : Statement (.bedPlacement a0) := Nat.two_pow_pos 32

theorem launchCompletion (a0 : Nat) : Statement (.launchCompletion a0) := Nat.two_pow_pos 32

theorem inval (a0 : BitVec 16) (a1 : BitVec 64) (a2 : BitVec 32) : Statement (.inval a0 a1 a2) := Nat.two_pow_pos 32

theorem bar4Access (a0 : Nat) (a1 : BitVec 64) (a2 : Nat) (a3 : Option (List (BitVec 8))) : Statement (.bar4Access a0 a1 a2 a3) := Nat.two_pow_pos 32

theorem registerWrite (a0 : Nat) (a1 : BitVec 16) (a2 : BitVec 64) : Statement (.registerWrite a0 a1 a2) := Nat.two_pow_pos 32

theorem arbpolWrite (a0 : BitVec 32) : Statement (.arbpolWrite a0) := Nat.two_pow_pos 32

theorem debugFlush (a0 : Nat) (a1 : Nat) (a2 : Nat) : Statement (.debugFlush a0 a1 a2) := Nat.two_pow_pos 32

theorem debuggerRelease (a0 : Nat) (a1 : Option Nat) : Statement (.debuggerRelease a0 a1) := Nat.two_pow_pos 32

theorem windowBoundary (a0 : Nat) : Statement (.windowBoundary a0) := Nat.two_pow_pos 32

theorem automaticRaise (a0 : Nat) : Statement (.automaticRaise a0) := Nat.two_pow_pos 32

theorem quarantine (a0 : Nat) (a1 : BitVec 2) : Statement (.quarantine a0 a1) := Nat.two_pow_pos 32

theorem quarantineCommand (a0 : Nat) : Statement (.quarantineCommand a0) := Nat.two_pow_pos 32

theorem release (a0 : Nat) : Statement (.release a0) := Nat.two_pow_pos 32

theorem marginProfile (a0 : Nat) (a1 : BitVec 8) : Statement (.marginProfile a0 a1) := Nat.two_pow_pos 32

theorem powerBudget (a0 : Nat) (a1 : Nat) (a2 : Nat) : Statement (.powerBudget a0 a1 a2) := Nat.two_pow_pos 32

theorem lremapWrite (a0 : Nat) (a1 : Nat) (a2 : BitVec 32) : Statement (.lremapWrite a0 a1 a2) := Nat.two_pow_pos 32

theorem pdtestWrite (a0 : Nat) (a1 : BitVec 64) : Statement (.pdtestWrite a0 a1) := Nat.two_pow_pos 32

theorem imageLoad (a0 : List (BitVec 8)) : Statement (.imageLoad a0) := Nat.two_pow_pos 32

theorem svnMinimumRaise (a0 : BitVec 8) : Statement (.svnMinimumRaise a0) := Nat.two_pow_pos 32

theorem attestation (a0 : BitVec 512) : Statement (.attestation a0) := Nat.two_pow_pos 32

theorem amsanKeyInstall (a0 : Nat) (a1 : Bool) (a2 : BitVec 256) (a3 : BitVec 32) : Statement (.amsanKeyInstall a0 a1 a2 a3) := Nat.two_pow_pos 32

theorem amsanFrame (a0 : Nat) (a1 : List (BitVec 8)) : Statement (.amsanFrame a0 a1) := Nat.two_pow_pos 32

theorem peerGroupRegistration (a0 : BitVec 16) (a1 : List (BitVec 8)) (a2 : BitVec 8) (a3 : BitVec 32) (a4 : Bool) (a5 : Bool) : Statement (.peerGroupRegistration a0 a1 a2 a3 a4 a5) := Nat.two_pow_pos 32

theorem indexRegistration (a0 : BitVec 16) (a1 : BitVec 64) : Statement (.indexRegistration a0 a1) := Nat.two_pow_pos 32

theorem searchRegistration (a0 : Nat) : Statement (.searchRegistration a0) := Nat.two_pow_pos 32

theorem searchSetup (a0 : Nat) : Statement (.searchSetup a0) := Nat.two_pow_pos 32

theorem spawn (a0 : Nat) : Statement (.spawn a0) := Nat.two_pow_pos 32

theorem walker (a0 : Nat) : Statement (.walker a0) := Nat.two_pow_pos 32

theorem cands (a0 : Nat) : Statement (.cands a0) := Nat.two_pow_pos 32

theorem popreq (a0 : Nat) : Statement (.popreq a0) := Nat.two_pow_pos 32

theorem poprep (a0 : Nat) : Statement (.poprep a0) := Nat.two_pow_pos 32

theorem dreq (a0 : Nat) : Statement (.dreq a0) := Nat.two_pow_pos 32

theorem endw (a0 : Nat) : Statement (.endw a0) := Nat.two_pow_pos 32

theorem versionCommit (a0 : Nat) (a1 : Nat) (a2 : Nat) (a3 : BitVec 32) (a4 : BitVec 32) : Statement (.versionCommit a0 a1 a2 a3 a4) := Nat.two_pow_pos 32

theorem queueDeadlockFault (a0 : Nat) (a1 : Nat) : Statement (.queueDeadlockFault a0 a1) := Nat.two_pow_pos 32

theorem engineFault (a0 : Nat) (a1 : Nat) (a2 : BitVec 8) : Statement (.engineFault a0 a1 a2) := Nat.two_pow_pos 32

theorem collectiveFire (a0 : Nat) (a1 : Nat) (a2 : BitVec 32) (a3 : Nat) (a4 : Option Nat) : Statement (.collectiveFire a0 a1 a2 a3 a4) := Nat.two_pow_pos 32

theorem stepStart (a0 : Nat) : Statement (.stepStart a0) := Nat.two_pow_pos 32

theorem packetForming (a0 : Nat) : Statement (.packetForming a0) := Nat.two_pow_pos 32

theorem data (a0 : Nat) : Statement (.data a0) := Nat.two_pow_pos 32

theorem coded (a0 : Nat) (a1 : Nat) : Statement (.coded a0 a1) := Nat.two_pow_pos 32

theorem ack (a0 : Nat) : Statement (.ack a0) := Nat.two_pow_pos 32

theorem nack (a0 : Nat) : Statement (.nack a0) := Nat.two_pow_pos 32

theorem stepTimeout (a0 : Nat) : Statement (.stepTimeout a0) := Nat.two_pow_pos 32

theorem dieReset (a0 : Nat) : Statement (.dieReset a0) := Nat.two_pow_pos 32

theorem packageReset : Statement (.packageReset) := (by decide : encodeNat .packageReset < 2 ^ 32)

theorem powerOn (a0 : BitVec 512) : Statement (.powerOn a0) := Nat.two_pow_pos 32

theorem nmcallBatch (a0 : Nat) : Statement (.nmcallBatch a0) := Nat.two_pow_pos 32

theorem regulatorSettled (a0 : Nat) : Statement (.regulatorSettled a0) := Nat.two_pow_pos 32

theorem managementRestart : Statement (.managementRestart) := (by decide : encodeNat .managementRestart < 2 ^ 32)

theorem powerOff : Statement (.powerOff) := (by decide : encodeNat .powerOff < 2 ^ 32)

theorem damagedFlit (a0 : Nat) : Statement (.damagedFlit a0) := Nat.two_pow_pos 32

theorem planeBudgetReached (a0 : Nat) (a1 : Bool) : Statement (.planeBudgetReached a0 a1) := Nat.two_pow_pos 32

theorem readAndClear (a0 : Nat) (a1 : BitVec 10) : Statement (.readAndClear a0 a1) := Nat.two_pow_pos 32

end Sys2Proof.Laws.Word
end

