-- ==== Sys2Proof/Laws/Shared.lean ====
section
/-! SUPPORT. What the shared operations can do: the ways in which a form of an instruction can answer a next state, and what
finishing results, taking a trap and leaving the handler leave alone. -/

namespace Sys2Proof.Machine

/-! ## How a form answers -/

theorem done_next {s t : State} {c : Cur} {sh : Sheaf} : done s c sh = .next t ↔ t = putSheaf s c (advance c sh) := by
  unfold done
  constructor
  · intro h; injection h with h; exact h.symm
  · rintro rfl; rfl

theorem onSheaf_next {s t : State} {k : Cur → Sheaf → Out} (h : onSheaf s k = .next t) : ∃ c sh, Issues s c sh ∧ k c sh = .next t := by
  unfold onSheaf at h
  split at h
  · rename_i c hc
    split at h
    · exact ⟨c, _, ⟨hc, ‹_›⟩, h⟩
    · cases h
  · cases h

/-- A form that needs a thread: none is switched on and the threads move on, or the form runs. -/
theorem whenActive_next {s t : State} {k : Cur → Sheaf → Mask → Out} (h : whenActive s k = .next t) :
    ∃ c sh, Issues s c sh ∧ ((exm c sh = 0#32 ∧ t = putSheaf s c (advance c sh)) ∨ (Active c sh ∧ k c sh (exm c sh) = .next t)) := by
  obtain ⟨c, sh, hi, h⟩ := onSheaf_next h
  refine ⟨c, sh, hi, ?_⟩
  split at h
  · exact .inl ⟨‹_›, done_next.1 h⟩
  · exact .inr ⟨‹_›, h⟩

/-- A lane form: no thread switched on, a register beyond a lane's budget (R27), or the form runs. -/
theorem laneOp_next {s t : State} {regs : List Nat} {k : Cur → Sheaf → Mask → Out} (h : laneOp s regs k = .next t) :
    ∃ c sh, Issues s c sh ∧ ((exm c sh = 0#32 ∧ t = putSheaf s c (advance c sh)) ∨
      (∃ l, overBudget c sh (exm c sh) regs = some l ∧ violation s c sh (exm c sh) l 0#64 = .next t) ∨
      (Active c sh ∧ overBudget c sh (exm c sh) regs = none ∧ k c sh (exm c sh) = .next t)) := by
  obtain ⟨c, sh, hi, h⟩ := whenActive_next h
  refine ⟨c, sh, hi, ?_⟩
  rcases h with h | ⟨ha, h⟩
  · exact .inl h
  · unfold withBudget at h
    split at h
    · exact .inr (.inl ⟨_, ‹_›, h⟩)
    · exact .inr (.inr ⟨ha, ‹_›, h⟩)

/-- A trap always answers a next state. -/
theorem trapWith_next (s : State) (c : Cur) (sh : Sheaf) (x : LateTrap) (resume : DWord) (keep : Bool) :
    ∃ t, trapWith s c sh x resume keep = .next t := ⟨_, rfl⟩

/-! ## What finishing, trapping and returning leave alone -/

/-- Only beds and cores differ. -/
def OnlyBedsCores (s t : State) : Prop := ∃ b c, t = { s with beds := b, cores := c }

theorem onlyBedsCores_refl (s : State) : OnlyBedsCores s s := ⟨s.beds, s.cores, rfl⟩

theorem onlyBedsCores_trans {s t u : State} (h : OnlyBedsCores s t) (k : OnlyBedsCores t u) : OnlyBedsCores s u := by
  obtain ⟨b, c, rfl⟩ := h
  obtain ⟨d, e, rfl⟩ := k
  exact ⟨d, e, rfl⟩

theorem only_modBed (s : State) (b : Nat) (f : Bed → Bed) : OnlyBedsCores s (modBed s b f) := by
  obtain ⟨m, h⟩ := modBed_only s b f
  rw [h]
  exact ⟨m, s.cores, rfl⟩

theorem only_setSheaf (s : State) (b w : Nat) (sh : Sheaf) : OnlyBedsCores s (setSheaf s b w sh) := only_modBed ..

theorem only_modSheaf (s : State) (b w : Nat) (f : Sheaf → Sheaf) : OnlyBedsCores s (modSheaf s b w f) := by
  obtain ⟨m, h⟩ := modSheaf_only s b w f
  rw [h]
  exact ⟨m, s.cores, rfl⟩

theorem only_modCore (s : State) (k : Nat) (f : Core → Core) : OnlyBedsCores s (modCore s k f) := ⟨s.beds, _, rfl⟩

theorem only_fold {α : Type} (f : State → α → State) (hf : ∀ s a, OnlyBedsCores s (f s a)) (l : List α) (s : State) :
    OnlyBedsCores s (l.foldl f s) := by
  induction l generalizing s with
  | nil => exact onlyBedsCores_refl s
  | cons a r ih => exact onlyBedsCores_trans (hf s a) (ih _)

theorem only_wakeLines (s : State) (b w : Nat) (regs : List Nat) : OnlyBedsCores s (wakeLines s b w regs) := by
  unfold wakeLines
  split
  · exact onlyBedsCores_refl s
  · dsimp only
    split
    · exact onlyBedsCores_refl s
    · exact onlyBedsCores_trans (only_setSheaf ..) (only_modCore ..)

theorem only_count (s : State) (core i n : Nat) : OnlyBedsCores s (count s core i n) := only_modCore ..

/-- One of two states that both change only beds and cores. -/
theorem only_ite {s a b : State} {c : Prop} [Decidable c] (ha : OnlyBedsCores s a) (hb : OnlyBedsCores s b) :
    OnlyBedsCores s (if c then a else b) := by
  split
  · exact ha
  · exact hb

theorem only_fillLine (s : State) (b w p : Nat) : OnlyBedsCores s (fillLine s b w p) := by
  unfold fillLine
  split
  · exact onlyBedsCores_refl s
  · exact onlyBedsCores_trans (only_setSheaf ..) (only_count ..)

theorem only_fillLines (s : State) (b w : Nat) (ps : List Nat) : OnlyBedsCores s (fillLines s b w ps) := by
  refine only_fold _ (fun s p => ?_) _ _
  split
  · exact only_ite (only_fillLine ..) (onlyBedsCores_refl s)
  · exact onlyBedsCores_refl s

theorem only_applyWrite (s : State) (b w core id : Nat) (p : PWrite) : OnlyBedsCores s (applyWrite s b w core id p) := by
  unfold applyWrite
  split
  · split
    · exact onlyBedsCores_refl s
    · exact only_ite (onlyBedsCores_trans (only_wakeLines ..) (only_modSheaf ..))
        (onlyBedsCores_trans (onlyBedsCores_trans (only_wakeLines ..) (only_fillLines ..)) (only_modSheaf ..))
  · split
    · exact onlyBedsCores_refl s
    · exact only_modSheaf ..
  · unfold setRow
    dsimp only
    split
    · exact onlyBedsCores_trans (only_modCore ..) (only_modBed ..)
    · exact only_modCore ..

/-- Finishing an instruction writes registers and accumulator rows only. -/
theorem only_finishOp (s : State) (b w : Nat) (op : LongOp) : OnlyBedsCores s (finishOp s b w op) := by
  unfold finishOp
  split
  · exact onlyBedsCores_refl s
  · exact onlyBedsCores_trans (only_fold _ (fun _ _ => only_applyWrite ..) _ _) (only_modSheaf ..)

theorem only_drain (s : State) (b w : Nat) : OnlyBedsCores s (drain s b w) := by
  unfold drain
  split
  · exact onlyBedsCores_refl s
  · refine only_fold _ (fun s op => ?_) _ _
    split
    · exact only_modSheaf ..
    · exact only_finishOp ..

theorem only_endReplays (s : State) (b w core : Nat) : OnlyBedsCores s (endReplays s b w core) :=
  only_ite (onlyBedsCores_refl s) (onlyBedsCores_trans (only_modSheaf ..) (only_modCore ..))

theorem only_endBedReplays (s : State) (b core : Nat) : OnlyBedsCores s (endBedReplays s b core) := by
  unfold endBedReplays
  split
  · exact only_fold _ (fun _ _ => only_endReplays ..) _ _
  · exact onlyBedsCores_refl s

theorem only_freezeFor (s : State) (b core : Nat) : OnlyBedsCores s (freezeFor s b core) :=
  only_ite (onlyBedsCores_trans (only_endBedReplays ..) (only_modCore ..)) (onlyBedsCores_refl s)

theorem only_stopAsked (s : State) (b w : Nat) (sh : Sheaf) (r : TrapRec) : OnlyBedsCores s (stopAsked s b w sh r) :=
  only_ite (only_modBed ..) (onlyBedsCores_refl s)

theorem only_thawFor (s : State) (b core : Nat) : OnlyBedsCores s (thawFor s b core) := by
  unfold thawFor
  split
  · exact only_modCore ..
  · exact onlyBedsCores_refl s

/-- Taking a trap changes sheaves and the frozen state of a core's units, and nothing else. -/
theorem only_takeTrap (s : State) (b w : Nat) (r : TrapRec) : OnlyBedsCores s (takeTrap s b w r) := by
  unfold takeTrap
  split
  · exact onlyBedsCores_refl s
  · split
    · exact only_modSheaf ..
    · exact onlyBedsCores_trans (onlyBedsCores_trans (onlyBedsCores_trans (onlyBedsCores_trans (onlyBedsCores_trans (only_setSheaf ..)
        (only_endReplays ..)) (only_drain ..)) (only_modSheaf ..)) (only_freezeFor ..)) (only_stopAsked ..)

theorem only_trapWith {s t : State} {c : Cur} {sh : Sheaf} {x : LateTrap} {resume : DWord} {keep : Bool}
    (h : trapWith s c sh x resume keep = .next t) : OnlyBedsCores s t := by
  unfold trapWith at h
  injection h with h
  subst h
  refine onlyBedsCores_trans ?_ (only_takeTrap ..)
  split
  · exact only_setSheaf ..
  · exact onlyBedsCores_refl s

theorem only_deliverPending (s : State) (b w : Nat) : OnlyBedsCores s (deliverPending s b w) := by
  unfold deliverPending
  split
  · exact onlyBedsCores_refl s
  · split
    · exact onlyBedsCores_trans (onlyBedsCores_trans (only_setSheaf ..) (only_freezeFor ..)) (only_stopAsked ..)
    · exact onlyBedsCores_refl s

/-- What only beds and cores change leaves memory as it is. -/
theorem OnlyBedsCores.mem {s t : State} (h : OnlyBedsCores s t) : t.mem = s.mem := by
  obtain ⟨b, c, rfl⟩ := h
  rfl

end Sys2Proof.Machine
end

