-- ==== Sys2Proof/Tests/Slice0.lean ====
section
/-! SUPPORT. The model's own tests.  Words that the spec writes out decode to their instructions; ill-formed instructions are refused; for
each statement a small state and operands that meet its hypotheses together (and, where a statement has clauses, each clause's). -/

namespace Sys2Proof.Tests

-- One theorem at a time: each kernel evaluation has the memory to itself.
set_option Elab.async false

open Sys2Proof Sys2Proof.Machine Sys2Proof.Claim

/-! ## A small package -/

/-- The sheaf of the tests: 512 lane registers, every thread on and running at 4000H. -/
def base : Sheaf :=
  { pcs := copies 32 0x4000#64, on := Mask.full, park := copies 32 .run, stopM := 0#32, wb := copies 32 0, regionPc := copies 32 0x4000#64,
    skip := copies 32 0, v := [], g := [], gp := [], je := [], ja := [], spc := [], regionCnt := 0#32, nfin := false, nfout := false,
    precfp := false, seenin := false, seenout := false, cychi := 0#32, handler := false, hpc := 0#64, himg := 0, record := TrapRec.reset,
    pend := [], tdrop := 0#32, sstep := false, stopBed := false, bpen := 0#4, bp := [], stepping := none, long := [], oplog := [],
    place := { core := 0, slot := 0, pos := 0, index := 0, roleCode := 0#8, roleEntry := 0, budget := 512 },
    wdcnt := 0, wdDue := false, lastIssue := 0, yieldFor := [], tokSaved := false, flushed := [], bedStop := false,
    hpool := 0#32, badTags := false, span := [], owed := [] }

/-- A lane register that holds one value in every lane, some of them poisoned, in a line of some state. -/
def vr (x : Word) (poison : Mask) (l : LineState) : VReg := { VReg.reset with form := .u x, poison := poison, line := l }

/-- Lane registers that hold one value in every lane. -/
def uni (l : List (Nat × Word)) : Map VReg := l.map (fun x => (x.1, vr x.2 0#32 .present))

/-- The sheaf with some lane registers, in rising order, and some group registers. -/
def with_ (v : List (Nat × Word)) (g : List (Nat × Word)) : Sheaf := { base with v := uni v, g := g }

/-- Threads 0 and 1 issue at 4000H. -/
def cur : Cur := { bed := 0, sheaf := 0, pc := 0x4000#64, ctl := 3#32, len := 4, inst0 := 0#32, inst1 := 0#32, before := none }

/-- All threads issue. -/
def curAll : Cur := { cur with ctl := Mask.full }

/-- A package with one bed of one sheaf, the first GiB of address space 0 mapped to itself (log 2), and nothing else. -/
def plain : State :=
  let q := quiet State.reset
  { q with mem := (placedBytes 0 []).foldl (fun m x => (below x.2.length).foldl (fun m k => setByte m (x.1 + k) (lget x.2 k 0#8)) m) [],
           launches := [(0, placedLaunch)] }

/-- The package with that sheaf issuing under a cursor. -/
def run (c : Cur) (sh : Sheaf) : State := { plain with beds := [(0, { placedBed with sheaves := [(0, sh)] })], agent := .sheaf c }

theorem issues (sh : Sheaf) : Issues (run cur sh) cur sh := ⟨rfl, rfl⟩

theorem issuesAll (sh : Sheaf) : Issues (run curAll sh) curAll sh := ⟨rfl, rfl⟩

theorem budget : ∀ i, i < 32 → ∀ n, n < 128 → inBudget base i n = true := by
  intro i hi n hn
  have h : lget base.wb i 0 = 0 := by interval_cases i <;> rfl
  have p : base.place.budget = 512 := by decide
  simp [inBudget, h, p, hn]
  exact Or.inr (by omega)

/-- Every register is within the budget of a sheaf that differs from the tests' only in registers and modes. -/
theorem inAll (c : Cur) (sh : Sheaf) (regs : List Nat) (hc : c.before = none) (h : sh.handler = false) (hw : sh.wb = base.wb)
    (hp : sh.place = base.place) (hr : ∀ n ∈ regs, n < 128) : InBudget c sh regs := by
  intro i hi _ n hn
  have := budget i hi n (hr n hn)
  simpa [src, hc, inBudget, h, hw, hp, show base.handler = false from rfl] using this

theorem active (sh : Sheaf) (h : sh.handler = false) (ho : sh.on = Mask.full) : Active cur sh := by
  simp [Active, exm, h, ho, cur, Mask.full]

/-! ## Witnesses: registers -/

/-- The hypotheses of the register statements: lane registers within the budget and an active lane. -/
theorem witness_IntegerArithmetic : Issues (run cur base) cur base ∧ Active cur base ∧ InBudget cur base [1, 2, 3] :=
  ⟨issues _, active _ rfl rfl, inAll _ _ _ rfl rfl rfl rfl (by decide)⟩

/-- Its clause on tags: every lane active and one window. -/
theorem witness_IntegerArithmetic_full : Issues (run curAll base) curAll base ∧ exm curAll base = Mask.full ∧
    oneWindow base Mask.full 1 = true := ⟨issuesAll _, by decide, by decide⟩

theorem witness_IntegerTables : (0x80000000#32 : Word) ≠ 0#32 ∧ ¬(0x80000000#32 = 0x80000000#32 ∧ (1#32 : Word) = 0xFFFFFFFF#32) := by
  decide

theorem witness_LaneTags : 31 < 32 ∧ base.long = [] := by decide

theorem witness_Immediates : Issues (run cur base) cur base ∧ Active cur base ∧ InBudget cur base [127, 0] :=
  ⟨issues _, active _ rfl rfl, inAll _ _ _ rfl rfl rfl rfl (by decide)⟩

/-- A lane outside the control set reads past the span; with a span of 0 every lane does. -/
theorem witness_Divisions : Issues (run cur base) cur base ∧ Active cur base ∧ InBudget cur base [5, 6, 7] ∧ bit cur.ctl 2 = false :=
  ⟨issues _, active _ rfl rfl, inAll _ _ _ rfl rfl rfl rfl (by decide), by decide⟩

/-- FCMP with NF-IN disabled, and enabled with no condition met. -/
theorem witness_ComparesAndMasks : Issues (run cur base) cur base ∧ Active cur base ∧ InBudget cur base [2, 3] ∧ base.nfin = false ∧
    someLane (exm cur base) (fun i => nonFinite (rdV (run cur base) cur base i 2) || nonFinite (rdV (run cur base) cur base i 3)) = false :=
  ⟨issues _, active _ rfl rfl, inAll _ _ _ rfl rfl rfl rfl (by decide), rfl, by decide⟩

/-- MOVVG and TAG read the lowest active lane. -/
theorem witness_MovesAndTags : Issues (run cur base) cur base ∧ Active cur base ∧ IsFirst (exm cur base) 0 ∧
    inBudget (src cur base) 0 127 = true :=
  ⟨issues _, active _ rfl rfl, ⟨by decide, by decide, by decide⟩, by decide⟩

/-- 1.0 + 1.0 meets no condition. -/
def ones : Sheaf := with_ [(1, 0x3F800000#32), (2, 0x3F800000#32)] []

/-- +∞ in v1 meets NF-IN; both conditions are enabled. -/
def infs : Sheaf := { with_ [(1, 0x7F800000#32), (2, 0x3F800000#32)] [(1, 0x7F800000#32)] with nfin := true, nfout := true }

theorem witness_FloatArithmetic : Issues (run cur ones) cur ones ∧ Active cur ones ∧ InBudget cur ones [3, 1, 2] ∧
    NoTrap ones false false :=
  ⟨issues _, active _ rfl rfl, inAll _ _ _ rfl rfl rfl rfl (by decide), by decide, by decide⟩

/-- FADD and FCMP of an infinite source, in lanes 0 and 1 and in group scope. -/
theorem witness_FloatBitsAndTraps : Issues (run cur infs) cur infs ∧ Active cur infs ∧ InBudget cur infs [3, 1, 2] ∧
    ¬NoTrap infs (someLane (exm cur infs) (fun i => Tested.fadd.inp (rdV (run cur infs) cur infs i 1) (rdV (run cur infs) cur infs i 2)
      (rdV (run cur infs) cur infs i 3))) false ∧
    someLane (exm cur infs) (fun i => nonFinite (rdV (run cur infs) cur infs i 1)) = true ∧
    nonFinite (rdG (run cur infs) cur infs 1) = true ∧
    ¬NoTrap infs (badIn fp32 false (rdG (run cur infs) cur infs 1).toNat 0 0) false :=
  ⟨issues _, active _ rfl rfl, inAll _ _ _ rfl rfl rfl rfl (by decide), by unfold NoTrap; decide +kernel, by decide +kernel,
    by decide +kernel, by unfold NoTrap; decide +kernel⟩

/-- CVT of +∞ to a whole number meets NF-IN. -/
theorem witness_FloatBitsAndTraps_convert :
    ¬NoTrap infs (convert 6#4 0#4 0#2 0#1 (rdV (run cur infs) cur infs 0 1) 0#32).nfin false := by
  unfold NoTrap; decide +kernel

/-- A conversion of FP32 to FP64, which takes a pair. -/
theorem witness_Conversions : Issues (run cur ones) cur ones ∧ Active cur ones ∧ Instr.wf (.cvt .lane 4#7 1#7 12#4 0#4 0#2 0#1) = true ∧
    InBudget cur ones (pairOf 4#7 12#4 ++ pairOf 1#7 0#4) ∧ NoTrap ones false false :=
  ⟨issues _, active _ rfl rfl, by decide, inAll _ _ _ rfl rfl rfl rfl (by decide), by decide, by decide⟩

theorem witness_LongFloat : Issues (run cur ones) cur ones ∧ Active cur ones ∧ InBudget cur ones [4, 5, 6, 7, 8, 9] :=
  ⟨issues _, active _ rfl rfl, inAll _ _ _ rfl rfl rfl rfl (by decide)⟩

/-- The ends of the ranges of EX2. -/
theorem witness_SpecialFunctionValues : (fdec fp32 0xC3160000).cmp (ofInt (-150)) ≠ .gt ∧ (fdec fp32 0x43000000).cmp (ofInt 128) ≠ .lt ∧
    (fdec fp16 0xCE40).cmp (ofInt (-25)) ≠ .gt ∧ (fdec fp16 0x4C00).cmp (ofInt 16) ≠ .lt ∧
    ((!badElement fp16 (0x4C00 % 2 ^ 16) && decide (ex2hHalf (0x4C00 % 2 ^ 16) = 0x7C00)) ||
      (!badElement fp16 (0x4C00 / 2 ^ 16) && decide (ex2hHalf (0x4C00 / 2 ^ 16) = 0x7C00))) = true := by
  decide +kernel

/-- Lane 0 chooses; each lane reads lane 31 and itself within the budget. -/
theorem witness_CrossLane : Issues (run cur base) cur base ∧ IsFirst (exm cur base) 0 ∧
    (∀ i, i < 32 → inBudget (src cur base) i 1 = true) ∧ NoTrap base false false ∧ InBudget cur base [1, 2] :=
  ⟨issues _, ⟨by decide, by decide, by decide⟩, fun i hi => budget i hi 1 (by decide), ⟨by decide, by decide⟩,
    inAll _ _ _ rfl rfl rfl rfl (by decide)⟩

/-- The completion of the cross-lane forms: no active value is infinite, and each lane that a form names is within the budget. -/
theorem witness_MovesAndTags_completes : Issues (run cur base) cur base ∧ IsFirst (exm cur base) 0 ∧ InBudget cur base [4, 5, 6, 7, 8, 9] ∧
    someLane (exm cur base) (fun i => nonFinite (rdV (run cur base) cur base i 1)) = false ∧ base.nfout = false :=
  ⟨issues _, ⟨by decide, by decide, by decide⟩, inAll _ _ _ rfl rfl rfl rfl (by decide), by decide, rfl⟩

/-- A reduction over an infinite value with NF-IN enabled. -/
theorem witness_CrossLane_trap : Issues (run cur infs) cur infs ∧ Active cur infs ∧ ¬NoTrap infs (someLane (exm cur infs) (fun i =>
    RedForm.redfadd.tested && ((RedForm.redfadd.entering (exm cur infs) i).map
      (fun j => rdV (run cur infs) cur infs j 1)).any nonFinite)) false :=
  ⟨issues _, active _ rfl rfl, by unfold NoTrap; decide +kernel⟩

theorem witness_SelectionOrder : Issues (run cur base) cur base ∧ IsFirst (exm cur base) 0 ∧ InBudget cur base [4, 5, 6, 7] ∧
    inBudget (src cur base) 0 11 = true ∧ (∀ i, i < 32 → ∀ n ∈ [8, 9, 10, 11], inBudget (src cur base) i n = true) ∧
    (fdec fp32 0x3F800000).isNan = false ∧ (fdec fp32 0x7FC00000).isNan = true :=
  ⟨issues _, ⟨by decide, by decide, by decide⟩, inAll _ _ _ rfl rfl rfl rfl (by decide), by decide,
    fun i hi n hn => budget i hi n (by revert hn; revert n; decide), by decide, by decide⟩
/-! ## Witnesses: memory -/

/-- A word of device memory at 5000H in every lane's address pair v2:v3, and 5000H in g2:g3. -/
def at5000 : Sheaf := with_ [(2, 0x5000#32), (4, 7#32)] [(2, 0x5000#32)]

/-- Its address is not mapped (GiB 1). -/
def unmapped : Sheaf := with_ [(2, 0x40000000#32)] []

/-- A misaligned address. -/
def odd : Sheaf := with_ [(2, 0x5001#32)] []

/-- An address that is not canonical. -/
def wild : Sheaf := with_ [(3, 0x80000000#32)] []

theorem clean_iff (g : Got) : Clean g ↔ (g.hole = false ∧ g.violated = 0#32 ∧ g.faulted = 0#32) := Iff.rfl

/-- A load and a store of a word in lanes 0 and 1, and the group's, of a mapped page. -/
theorem witness_GlobalAccesses : Issues (run cur at5000) cur at5000 ∧ Active cur at5000 ∧ InBudget cur at5000 [2, 3, 4] ∧
    Unpoisoned (run cur at5000) cur at5000 [2, 3, 4] ∧
    Passes (run cur at5000) cur at5000 3#32 true 4 (fun i => rdV64 (run cur at5000) cur at5000 i 2) ∧
    Clean (runAccess (run cur at5000) 0 0#16 ((LoadForm.ld 0#2 0#5 0#4).access (fun _ => 0x5000#64) 0#32) 3#32) ∧
    Clean (runAccess (run cur at5000) 0 0#16 ((StoreForm.st 2#2 0#5).access (fun _ => 0x5000#64) (copies 32 [7#32])) 3#32) ∧
    rdG64 (run cur at5000) cur at5000 2 = 0x5000#64 :=
  ⟨issues _, active _ rfl rfl, inAll _ _ _ rfl rfl rfl rfl (by decide), by unfold Unpoisoned; decide +kernel,
    by unfold Passes; decide +kernel, by unfold Clean; decide +kernel, by unfold Clean; decide +kernel, by decide +kernel⟩

/-- An atomic add of a word in lanes 0 and 1, and in group scope. -/
theorem witness_GlobalAtomics :
    Clean (runAccess (run cur at5000) 0 0#16 (atomAccess .lane false 0#5 0#2 (copies 32 0x5000#64) (copies 32 [7#32])) 3#32) ∧
    Clean (runAccess (run cur at5000) 0 0#16 (atomAccess .group false 0#5 0#2 [0x5000#64] [[7#32]]) 1#32) ∧
    (∀ r ∈ [2, 3, 4], rdGP (run cur at5000) cur at5000 r = false) := by
  unfold Clean; decide +kernel

/-- A mapped page for a read, and for a write and a fetch with D and X set. -/
theorem maps5000 (kind : AccKind) : Maps plain 0 0#16 0x5000#64 kind 0x5000 false :=
  ⟨0x3F#64, 1, [0x1000], 0x2000, by decide +kernel, by decide +kernel, fun _ => by decide +kernel, fun _ => by decide, .inl rfl, by decide,
    by decide +kernel⟩

theorem witness_Translation : Maps plain 0 0#16 0x5000#64 .write 0x5000 false := maps5000 .write

/-- The access of one lane to the word at 5000H. -/
def word (op : AccOp) (data : List (List Word)) : Access :=
  { op := op, sc := .lane, size := 4, addrs := [0x5000#64], data := data, poisonAddr := 0#32, scope := 0, acquire := false,
    release := false, transient := false }

theorem uncached (w : Nat) : Uncached plain w := ⟨fun _ _ _ => rfl, fun _ _ _ => rfl, rfl⟩

theorem witness_MemoryWords : Maps plain 0 0#16 (lget (word (.load false) []).addrs 0 0#64) .read 0x5000 false ∧
    (∀ w ∈ wordsAt 0x5000 4, ∀ v ∈ pairWords w, Agreed plain v) ∧ Uncached plain (0x5000 / 4) ∧
    Maps plain 0 0#16 (lget (word .store [[7#32]]).addrs 0 0#64) .write 0x5000 false ∧ 0x5000 < Config.hostBase :=
  ⟨maps5000 _, fun _ _ w _ => ⟨fun p n _ u h => absurd h (by rw [(uncached w).1 p n u]; simp), fun t n _ u h => absurd h (by rw [(uncached w).2.1 t n u]; simp)⟩,
    uncached _, maps5000 _, by decide⟩

/-- What stops a store in lane 0: a poisoned address, a misaligned one, one that is not canonical. -/
theorem witness_AccessChecks :
    activeMask 3#32 (fun i => decide ((rdV64 (run cur odd) cur odd i 2).toNat % 4 ≠ 0)) = 3#32 ∧
    activeMask 3#32 (fun i => !canonical (rdV64 (run cur wild) cur wild i 2)) = 3#32 ∧
    activeMask 3#32 (fun i => rdVP (run cur { at5000 with v := [(2, vr 0x5000#32 1#32 .present)] }) cur
      { at5000 with v := [(2, vr 0x5000#32 1#32 .present)] } i 2) = 1#32 := by
  decide +kernel

/-- A range lock of the plot on the source of a transfer in the way of a store. -/
theorem witness_AccessChecks_lock :
    lockHit { run cur at5000 with plots := [(0, { Plot.reset with
        locks := [(0, { Lock.reset with valid := true, lo := 0x5000, hi := 0x5100 })] })] } 0 true 0 0#16 0x5000 4 = some 0 := by
  decide +kernel

/-- A page that is not there: both lanes fault, and the log has a free entry. -/
theorem witness_AccessChecks_fault :
    (runAccess (run cur unmapped) 0 0#16 ((StoreForm.st 2#2 0#5).access (fun _ => 0x40000000#64) (copies 32 [7#32])) 3#32).faulted = 3#32 ∧
    mfind unmapped.oplog 3 = none := by
  decide +kernel

/-- A page that may not be written. -/
theorem witness_AccessChecks_violation :
    (runAccess { run cur at5000 with mem := setByte plain.mem 0x2000 0x1B#8 } 0 0#16
      ((StoreForm.st 2#2 0#5).access (fun _ => 0x5000#64) (copies 32 [7#32])) 3#32).violated = 3#32 := by
  decide +kernel

/-- The plot of core 0 with bank 0 in SCRATCH mode for the launch. -/
def scratchRun (sh : Sheaf) : State :=
  { run cur sh with plots := [(0, { Plot.reset with bankMode := [(0, 1#2)], bankOwner := [(0, 0)] })] }

theorem witness_Scratch : Issues (scratchRun (with_ [] [])) cur (with_ [] []) ∧
    ScratchPasses (scratchRun (with_ [] [])) cur (with_ [] []) (fun i => bit 3#32 i) true 4
      (fun i => ((rdV (scratchRun (with_ [] [])) cur (with_ [] []) i 1).toNat : Int)) ∧
    Unpoisoned (scratchRun (with_ [] [])) cur (with_ [] []) [1, 4] :=
  ⟨⟨rfl, rfl⟩, by unfold ScratchPasses; decide +kernel, by unfold Unpoisoned; decide +kernel⟩

/-- The launch record with more bits set. -/
def recorded (bits : Nat) (s : State) : State :=
  { s with launches := [(0, { placedLaunch with record := BitVec.ofNat 2048 (placedRecord.toNat + bits) })] }

/-- The launch owns bytes 0 to 1023 of core 0's B-store. -/
def bstored (sh : Sheaf) : State := recorded (1024 * 2 ^ 608) (run cur sh)

theorem witness_ConstantsAndFences : Issues (bstored base) cur base ∧ Active cur base ∧ IsFirst (exm cur base) 0 ∧
    InBudget cur base [4, 5] ∧ inBudget (src cur base) 0 3 = true ∧ rdVP (bstored base) cur base 0 3 = false ∧
    bsOk (bstored base) 0 16 8 = true ∧ lockHit (bstored base) 0 false 2 (asidOf (bstored base) 0) 16 8 = none :=
  ⟨⟨rfl, rfl⟩, active _ rfl rfl, by unfold IsFirst; decide, inAll _ _ _ rfl rfl rfl rfl (by decide), by decide, by decide +kernel,
    by decide +kernel, by decide +kernel⟩

/-! ## Witnesses: the matrix engine -/

/-- Headers of bf16 operands in g10 and g11, and a row of MVT in g12. -/
def headed : Sheaf := with_ [(1, 0x3F803F80#32)] [(10, 2#32), (11, 2#32), (12, 2#32)]

/-- The bed holds the claim of core 0. -/
def claims (s : State) : State := { s with cores := [(0, { Core.reset with claim := some 0 })] }

theorem witness_QuarterMatrix :
    holdsClaim (claims (bstored headed)) 0 0 = true ∧ (∃ row, headersOk (hdrOf 2#32) (hdrOf 2#32) false false = some row ∧
      bRanges (hdrOf 2#32) row.kw (below 1) ≠ [] ∧ ∀ r ∈ bRanges (hdrOf 2#32) row.kw (below 1),
        bsOk (claims (bstored headed)) 0 r.1 r.2 = true ∧ lockHit (claims (bstored headed)) 0 false 2 0#16 r.1 r.2 = none) ∧
    Unpoisoned (claims (bstored headed)) cur headed (regsFrom 1 4) ∧ rdG (claims (bstored headed)) cur headed 10 = 2#32 ∧
    holdsClaim (bstored headed) 0 0 = false ∧ headersOk (hdrOf 2#32) (hdrOf 0x40#32) false false = none := by
  refine ⟨by decide +kernel, ⟨_, rfl, by decide +kernel, by decide +kernel⟩, by unfold Unpoisoned; decide +kernel, by decide +kernel,
    by decide +kernel, by decide +kernel⟩

/-- The same for a sparse A, whose indices rise in every group (headers with kext 1). -/
theorem witness_QuarterMatrix_sparse :
    (headersOk (hdrOf 0x400043#32) (hdrOf 0x400003#32) true false).isSome = true ∧
    MetaOk (run cur (with_ [(5, 0x44444444#32)] [])) cur (with_ [(5, 0x44444444#32)] []) 1 8 := by
  exact ⟨by decide +kernel, by unfold MetaOk; decide +kernel⟩

theorem witness_VectorAndTiles : (∃ x, mvtHeader 2#32 = some x) ∧ rdG (claims (bstored headed)) cur headed 12 = 2#32 ∧
    holdsClaim (claims (bstored headed)) 0 0 = true ∧ bsOk (claims (bstored headed)) 0 0 2 = true ∧
    lockHit (claims (bstored headed)) 0 false 2 0#16 0 2 = none ∧
    Unpoisoned (claims (bstored headed)) cur headed (regsFrom 1 16) ∧ InBudget cur headed (regsFrom 16 16) :=
  ⟨⟨_, rfl⟩, by decide +kernel, by decide +kernel, by decide +kernel, by decide +kernel, by unfold Unpoisoned; decide +kernel,
    inAll _ _ _ rfl rfl rfl rfl (by decide)⟩

/-! ## Witnesses: branches, threads and windows -/

/-- A mask in g9, clean; jumps to 5000H in v2. -/
def jumps : Sheaf := with_ [(2, 0x5000#32)] [(9, 1#32)]

theorem witness_Branches : Issues (run cur jumps) cur jumps ∧ jumps.handler = false ∧ rdGP (run cur jumps) cur jumps 9 = false ∧
    InBudget cur jumps [127] ∧ InBudget cur jumps [2] ∧
    (∀ i, i < 32 → bit (exm cur jumps) i = true → rdVP (run cur jumps) cur jumps i 2 = false ∧
      (rdV (run cur jumps) cur jumps i 2).toNat % 4 = 0) :=
  ⟨⟨rfl, rfl⟩, rfl, by decide +kernel, inAll _ _ _ rfl rfl rfl rfl (by decide), inAll _ _ _ rfl rfl rfl rfl (by decide), by decide +kernel⟩

/-- A poisoned mask in g9 and a poisoned target in v2. -/
def tainted : Sheaf := { jumps with v := [(2, vr 0x5000#32 1#32 .present)], gp := [9] }

theorem witness_Branches_poison : rdGP (run cur tainted) cur tainted 9 = true ∧ exm cur tainted ≠ 0#32 ∧
    rdVP (run cur tainted) cur tainted 0 2 = true ∧ bit (exm cur tainted) 0 = true := by decide +kernel

/-- A handler's masks: all ones in g9, zero in g8. -/
def handling : Sheaf := { with_ [] [(9, 0xFFFFFFFF#32)] with handler := true }

theorem witness_Branches_handler : Issues (run cur handling) cur handling ∧ handling.handler = true ∧
    rdGP (run cur handling) cur handling 9 = false ∧ rdG (run cur handling) cur handling 9 = 0xFFFFFFFF#32 ∧
    rdGP (run cur handling) cur handling 8 = false ∧ rdG (run cur handling) cur handling 8 = 0#32 :=
  ⟨⟨rfl, rfl⟩, rfl, by decide +kernel⟩

theorem witness_ControlWords : Issues (run cur jumps) cur jumps ∧ rdGP (run cur jumps) cur jumps 9 = false ∧ jE jumps 3 = 0#32 ∧
    (∀ i, i < 32 → bit cur.ctl i = true → 0 ≤ ((lget jumps.wb i 0 : Nat) : Int) + 24 ∧ ((lget jumps.wb i 0 : Nat) : Int) + 24 ≤ 24) ∧
    jumps.handler = false ∧ rdGP (run cur tainted) cur tainted 9 = true ∧ cur.ctl ≠ 0#32 ∧ jE { jumps with je := [(3, 1#32)] } 3 ≠ 0#32 :=
  ⟨⟨rfl, rfl⟩, by decide +kernel⟩

/-- j3 expects threads 0 to 2, and thread 2 has come. -/
def joining : Sheaf := { base with je := [(3, 7#32)], ja := [(3, 4#32)] }

/-- j4 expects threads 0 to 3, and none has come. -/
def waiting : Sheaf := { base with je := [(4, 15#32)] }

theorem witness_JoinsAndEnds : Issues (run cur joining) cur joining ∧ spill joining 3 = 0 ∧ joining.handler = false ∧
    (∀ i, i < 32 → bit cur.ctl i = true → parkOf joining i = .run) ∧
    (jE joining 3 ≠ 0#32 ∧ jE joining 3 &&& ~~~(jA joining 3 ||| cur.ctl) = 0#32) ∧
    jE waiting 4 &&& ~~~(jA waiting 4 ||| cur.ctl) ≠ 0#32 ∧ jE waiting 4 &&& ~~~cur.ctl &&& ~~~(jA waiting 4) ≠ 0#32 ∧
    (jE joining 3 &&& ~~~cur.ctl ≠ 0#32 ∧ jE joining 3 &&& ~~~cur.ctl &&& ~~~(jA joining 3) = 0#32) ∧
    (jE waiting 5 = 0#32 ∧ jA waiting 5 = 0#32) ∧ (∀ k, k < 16 → jE waiting k = 0#32 ∨ jE waiting k &&& ~~~cur.ctl &&& ~~~(jA waiting k) ≠ 0#32) ∧
    ∃ i, i < 32 ∧ parkOf waiting i ≠ .done :=
  ⟨⟨rfl, rfl⟩, by decide, rfl, by decide, by decide, by decide, by decide, by decide, by decide, by decide, ⟨2, by decide, by decide⟩⟩

/-! ## Witnesses: barriers -/

/-- Bytes stored in a memory. -/
def bytes (l : List (Nat × Byte)) (m : List Host.Cell) : List Host.Cell := l.foldl (fun m x => setByte m x.1 x.2) m

/-- References to 5000H in g2:g3 and to scratch byte 0 in g6:g7; 1 arrival expected in g4, the generation 1 in g8. -/
def refs : Sheaf := with_ [] [(2, 0x5000#32), (4, 1#32), (6, 1#32), (8, 1#32)]

/-- A barrier of two, of which none has come, at 5000H and at scratch byte 0. -/
def barred : State :=
  { scratchRun refs with
    mem := bytes [(0x5004, 2#8), (0x5006, 2#8)] plain.mem,
    plots := [(0, { Plot.reset with bankMode := [(0, 1#2)], bankOwner := [(0, 0)], scratch := bytes [(4, 2#8), (6, 2#8)] [] })] }

theorem mapsBarred (kind : AccKind) : Maps barred 0 0#16 0x5000#64 kind 0x5000 false :=
  ⟨0x3F#64, 1, [0x1000], 0x2000, by decide +kernel, by decide +kernel, fun _ => by decide +kernel, fun _ => by decide, .inl rfl, by decide,
    by decide +kernel⟩

/-- The object in memory, and the object in scratch. -/
theorem witness_BarrierObjects : Issues barred cur refs ∧ Active cur refs ∧
    (∃ s1, ObjectAt barred cur refs 2#7 true { scratch := false, plot := 0, loc := 0x5000 } s1) ∧
    ObjectAt barred cur refs 6#7 true { scratch := true, plot := 0, loc := 0 } barred ∧
    (∃ s1, ObjectAt barred cur refs 2#7 false { scratch := false, plot := 0, loc := 0x5000 } s1) ∧
    rdGP barred cur refs 4 = false ∧ rdG barred cur refs 4 = 1#32 ∧ arriveOk (rdG barred cur refs 1) false = true ∧
    barAt barred { scratch := true, plot := 0, loc := 0 } =
      { gen := 0#32, expect := 2, left := 2, scope := 0, status := 0, pend := 0, reservedZero := true } :=
  ⟨⟨rfl, rfl⟩, active _ rfl rfl, ⟨_, by decide +kernel, by decide +kernel, by decide +kernel, .inr ⟨by decide +kernel, by decide +kernel, by decide +kernel, _, _, (0#64, 0), mapsBarred .write, rfl, rfl⟩⟩,
    ⟨by decide +kernel, by decide +kernel, by decide +kernel, .inl ⟨by decide +kernel, by decide +kernel, by decide +kernel, by decide +kernel, by decide +kernel, rfl⟩⟩,
    ⟨_, by decide +kernel, by decide +kernel, by decide +kernel, .inr ⟨by decide +kernel, by decide +kernel, by decide +kernel, _, _, (0#64, 0), mapsBarred .read, rfl, rfl⟩⟩,
    by decide +kernel, by decide +kernel, by decide +kernel, by decide +kernel⟩

/-- An object that is sound, whose generation is and is not the one awaited; a waiter that is woken. -/
theorem witness_BarrierWaits : Sound (barAt barred { scratch := true, plot := 0, loc := 0 }) ∧
    (barAt barred { scratch := true, plot := 0, loc := 0 }).gen = rdG barred cur refs 4 + 0xFFFFFFFF#32 ∧
    (barAt barred { scratch := true, plot := 0, loc := 0 }).gen ≠ rdG barred cur refs 8 ∧
    ¬Sound (barAt barred { scratch := true, plot := 0, loc := 64 }) := by
  unfold Sound; decide +kernel

/-- A waiter of scratch byte 0 that has been woken. -/
def waiter : BWait := { scratch := true, plot := 0, loc := 0, asid := 0#16, bed := 0, sheaf := 0, pc := 0x4000#64, mask := 3#32, d := 5#7, woken := true }

theorem witness_BarrierWaits_wake :
    { barred with bwait := [waiter] }.bwait.find? (fun x => x.bed == 0 && x.sheaf == 0 && x.woken) = some waiter ∧
    getSheaf { barred with bwait := [waiter] } 0 0 = some refs ∧ (∀ x ∈ barred.bwait, ¬(x.bed = 0 ∧ x.sheaf = 0 ∧ x.woken = true)) :=
  ⟨rfl, rfl, by decide +kernel⟩

/-- A handler awaits the generation that stands (in g20). -/
def refsHandled : Sheaf := { refs with handler := true }

theorem witness_BarrierWaits_handler :
    let s := { barred with beds := [(0, { placedBed with sheaves := [(0, refsHandled)] })] }
    Issues s cur refsHandled ∧ Active cur refsHandled ∧ refsHandled.handler = true ∧
      ObjectAt s cur refsHandled 6#7 true { scratch := true, plot := 0, loc := 0 } s ∧
      (barAt s { scratch := true, plot := 0, loc := 0 }).gen = rdG s cur refsHandled 20 :=
  ⟨⟨rfl, rfl⟩, by unfold Active; decide, rfl,
    ⟨by decide +kernel, by decide +kernel, by decide +kernel, .inl ⟨by decide +kernel, by decide +kernel, by decide +kernel, by decide +kernel,
      by decide +kernel, rfl⟩⟩, by decide +kernel⟩

/-! ## Witnesses: tiles, queues and the matrix token -/

/-- A bound tile of 1 KiB of the first bed of plot 0. -/
def tile (h : Nat) (st : Nat) (base : Nat) : Tile :=
  { Tile.reset with state := BitVec.ofNat 2 st, bound := true, handle := BitVec.ofNat 5 h, base := BitVec.ofNat 14 (base / 128),
                    sizem1 := 7#14 }

/-- Scratch of the launch in bank 0, tiles 0 to 3 declared and, of them, 0 and 1 READY and 2 EMPTY; 1 KiB of B-store; the claim. -/
def tiled (sh : Sheaf) : State :=
  let s := recorded (4 * 2 ^ 544 + 1024 * 2 ^ 608) (run cur sh)
  { s with plots := [(0, { Plot.reset with bankMode := [(0, 1#2)], bankOwner := [(0, 0)],
                                           tiles := [(0, tile 0 2 0), (1, tile 1 2 1024), (2, tile 2 0 2048)] })],
           cores := [(0, { Core.reset with claim := some 0 })] }

/-- Handles 0, 2 and 3 in g4 to g6, a free region in g8:g9. -/
def handles : Sheaf := with_ [] [(5, 2#32), (6, 3#32), (8, 3072#32), (9, 256#32)]

theorem witness_TileTable : Issues (tiled handles) cur handles ∧ Active cur handles ∧ rdGP (tiled handles) cur handles 4 = false ∧
    TileAt (tiled handles) cur handles (rdG (tiled handles) cur handles 4).toNat 0 (tile 0 2 0) ∧
    TileAt (tiled handles) cur handles (rdG (tiled handles) cur handles 5).toNat 2 (tile 2 0 2048) ∧
    tileOf (getPlot (tiled handles) 0) (posnOf (tiled handles) 0) (rdG (tiled handles) cur handles 6).toNat = none :=
  ⟨⟨rfl, rfl⟩, active _ rfl rfl, by decide +kernel, by unfold TileAt; decide +kernel, by unfold TileAt; decide +kernel, by decide +kernel⟩

/-- TCLAIM of handle 3 into entry 3. -/
theorem witness_TileTable_claim : (rdG (tiled handles) cur handles 6).toNat < tilesDeclared (tiled handles) 0 ∧
    scratchOk (tiled handles) 0 (launchKey (tiled handles) 0) (rdG (tiled handles) cur handles 8).toNat
      (rdG (tiled handles) cur handles 9).toNat = true ∧
    (mget (getPlot (tiled handles) 0).tiles 3 Tile.reset).bound = false ∧
    (∀ k, k < 3 → (mget (getPlot (tiled handles) 0).tiles k Tile.reset).bound = true) ∧
    (∀ x ∈ (getPlot (tiled handles) 0).tiles, ¬Meets 3072 256 x.2) := by
  unfold Meets; decide +kernel

/-- A queue of two 128-byte elements in bank 1 of the plot, its control word at scratch byte 64; it holds `held`. -/
def queued (held : Nat) (sh : Sheaf) : State :=
  { run cur sh with plots := [(0, { Plot.reset with
      bankMode := [(0, 1#2), (1, 2#2)], bankOwner := [(0, 0), (1, 0)],
      scratch := bytes [(64, 1#8), (65, 4#8), (66, 2#8), (72, BitVec.ofNat 8 held)] [] })] }

/-- The control word's address in g4, its first word in g5. -/
def queueing : Sheaf := with_ [] [(4, 64#32), (5, 0x20401#32)]

theorem witness_QueuesAndWakes : Issues (queued 1 queueing) cur queueing ∧ Active cur queueing ∧
    QueueAt (queued 1 queueing) cur queueing 4#7 true 64 ∧ QueueAt (queued 1 queueing) cur queueing 4#7 false 64 ∧
    rdGP (queued 1 queueing) cur queueing 5 = false ∧ NoWaiters (queued 1 queueing) 0 64 ∧
    queueWordOk (queued 1 queueing) 0 (launchKey (queued 1 queueing) 0) (rdG (queued 1 queueing) cur queueing 5) = true ∧
    QueueSound (queued 1 queueing) cur queueing 64 ∧ Fits (queueAt (queued 1 queueing) 0 64) true 8 ∧
    Fits (queueAt (queued 1 queueing) 0 64) false 8 ∧ (∀ i, i < 32 → inBudget (src cur queueing) i 8 = true) ∧
    (queueAt (queued 1 queueing) 0 64).held = 1 ∧ (queueAt (queued 1 queueing) 0 64).depth = 2 ∧
    (queueAt (queued 0 queueing) 0 64).held = 0 ∧ (queueAt (queued 2 queueing) 0 64).held = 2 :=
  ⟨⟨rfl, rfl⟩, active _ rfl rfl, by unfold QueueAt; decide +kernel, by unfold QueueAt; decide +kernel, by decide +kernel,
    by unfold NoWaiters; decide +kernel, by decide +kernel, by unfold QueueSound; decide +kernel, by unfold Fits; decide +kernel,
    by unfold Fits; decide +kernel, fun i hi => budget i hi 8 (by decide), by decide +kernel⟩

/-- A handler at a full and at an empty queue. -/
theorem witness_QueuesAndWakes_handler :
    let h := { queueing with handler := true }
    Issues (queued 2 h) cur h ∧ QueueAt (queued 2 h) cur h 4#7 true 64 ∧ QueueSound (queued 2 h) cur h 64 ∧ NoWaiters (queued 2 h) 0 64 ∧
      (queueAt (queued 2 h) 0 64).depth ≤ (queueAt (queued 2 h) 0 64).held ∧ (queueAt (queued 0 h) 0 64).held = 0 :=
  ⟨⟨rfl, rfl⟩, by unfold QueueAt; decide +kernel, by unfold QueueSound; decide +kernel, by unfold NoWaiters; decide +kernel,
    by decide +kernel⟩

/-- A sheaf whose threads wait to pop from that queue, and one whose threads wait for tile 0. -/
def popper : QWait := { addr := 64, push := false, bed := 0, sheaf := 0, pc := 0x4000#64, mask := 3#32, d := 8#7, lane := false }

theorem witness_QueuesAndWakes_pop :
    let s := { queued 1 base with plots := mset (queued 1 base).plots 0 { getPlot (queued 1 base) 0 with qwait := [popper] } }
    (getPlot s 0).qwait = [popper] ∧ popper.addr = (64#32).toNat ∧ getSheaf s 0 0 = some base ∧ 0 < (queueAt s 0 64).held ∧
      rn popper.d + (queueAt s 0 64).size / 4 ≤ 128 :=
  by
  decide +kernel

theorem witness_QueuesAndWakes_tile : parkOf { base with park := copies 32 (.wait (.tile 0)) } 5 = .wait (.tile 0) ∧
    tileOf (getPlot (tiled base) 0) (posnOf (tiled base) 0) 0 = some (0, tile 0 2 0) := by decide +kernel

/-- The state with a core of some token and queue. -/
def tokens (t : Option (Nat × Nat)) (q : List (Nat × Nat)) : State :=
  { run cur base with
    beds := [(0, { placedBed with sheaves := [(0, base), (1, { base with park := copies 32 (.wait .token) })] })],
    cores := [(0, { Core.reset with token := t, tokQ := q })] }

theorem witness_MatrixToken : Issues (tokens none []) cur base ∧ Active cur base ∧ ¬Barred (tokens none []) cur base ∧
    ((getCore (tokens (some (0, 1)) []) 0).token = some (0, 1) ∧ (0, 0) ∉ (getCore (tokens (some (0, 1)) []) 0).tokQ) ∧
    ((getCore (tokens (some (0, 0)) [(0, 1)]) 0).tokQ = [(0, 1)] ∧
      getSheaf (tokens (some (0, 0)) [(0, 1)]) 0 1 = some { base with park := copies 32 (.wait .token) }) ∧
    Barred { tokens none [] with launches := [(0, { placedLaunch with record := 0#2048 })] } cur base :=
  ⟨⟨rfl, rfl⟩, active _ rfl rfl, by unfold Barred; decide +kernel, by decide +kernel, ⟨rfl, rfl⟩, by unfold Barred; decide +kernel⟩

/-- A bf16 TMM with K of two steps, M = 8, N = 16: A in tile 0, C in tile 1, B at B-store byte 0; no barrier. -/
def tmming : Sheaf := with_ [] [(10, 0x400002#32), (11, 0x400002#32), (12, 0x80100#32), (14, 2#32)]

/-- Its operands. -/
def tmmOf : Option TmmArgs := tmmArgs 0x400002#32 0x400002#32 0x80100#32

theorem witness_TiledMatrix : Issues (tiled tmming) cur tmming ∧ Active cur tmming ∧ ¬Barred (tiled tmming) cur tmming ∧
    holdsClaim (tiled tmming) 0 0 = true ∧ (∀ r ∈ [10, 11, 12, 14, 15], rdGP (tiled tmming) cur tmming r = false) ∧
    (∃ g, tmmArgs (rdG (tiled tmming) cur tmming 10) (rdG (tiled tmming) cur tmming 11) (rdG (tiled tmming) cur tmming 12) = some g ∧
      TileAt (tiled tmming) cur tmming g.ah 0 (tile 0 2 0) ∧ TileAt (tiled tmming) cur tmming g.ch 1 (tile 1 2 1024) ∧
      g.aBytes ≤ tileBytes (tile 0 2 0) ∧ g.cBytes ≤ tileBytes (tile 1 2 1024) ∧ (∀ r ∈ g.bAll, bsOk (tiled tmming) 0 r.1 r.2 = true) ∧
      ∀ r ∈ g.bAll, lockHit (tiled tmming) 0 false 2 0#16 r.1 r.2 = none) ∧
    refOk (rdG64 (tiled tmming) cur tmming 14) true = true ∧ RefReaches (tiled tmming) cur tmming (rdG64 (tiled tmming) cur tmming 14) ∧
    (∀ b ∈ [0, 1024], scratchOk (tiled tmming) 0 (launchKey (tiled tmming) 0) b 1024 = true) ∧
    BClean (tiled tmming) cur tmming [(0, 64)] := by
  have h : ∃ g, tmmOf = some g := ⟨_, rfl⟩
  obtain ⟨g, hg⟩ := h
  have e : g = (tmmOf).get (by decide +kernel) := by simp [hg]
  have e2 : tmmArgs (rdG (tiled tmming) cur tmming 10) (rdG (tiled tmming) cur tmming 11) (rdG (tiled tmming) cur tmming 12) = tmmOf := by
    decide +kernel
  refine ⟨⟨rfl, rfl⟩, active _ rfl rfl, by unfold Barred; decide +kernel, by decide +kernel, by decide +kernel,
    ⟨g, e2.trans hg, ?_, ?_, ?_, ?_, ?_, ?_⟩, by decide +kernel, by unfold RefReaches; decide +kernel, by decide +kernel, ?_⟩
  rotate_right
  · intro r hr
    obtain rfl : r = (0, 64) := by simpa using hr
    exact ⟨by decide +kernel, fun u h1 h2 => rfl⟩
  all_goals subst e
  · unfold TileAt; decide +kernel
  · unfold TileAt; decide +kernel
  · decide +kernel
  · decide +kernel
  · decide +kernel
  · decide +kernel

/-- The sequencer in the middle of that TMM; block 1 of 1 is over. -/
def running (block : Nat) : Tmm :=
  { bed := 0, sheaf := 0, slot := 0, pos := 0, hdrA := 0x400002#32, hdrB := 0x400002#32, hdrC := 0x80100#32, d := 5#7, ref := 2#64,
    pc := 0x4000#64, step := 0, block := block, loaded := false, locks := [0, 1, 2], op := some 7, replays := 0, late := 0,
    nfin := false, nfout := false }

/-- Core 0 with that sequencer. -/
def sequenced (block : Nat) (frozen : Bool) : State :=
  { tiled tmming with cores := [(0, { Core.reset with claim := some 0, tmm := some (running block), frozen := frozen })] }

theorem witness_TiledMatrix_steps : (getCore (sequenced 0 false) 0).tmm = some (running 0) ∧ tmmHeld (running 0) = tmmOf ∧
    tmmOver (running 0) = false ∧ (getCore (sequenced 0 false) 0).frozen = false ∧ (∀ g ∈ tmmOf, 0 < g.ha.kext) ∧
    ((running 0).nfin, (running 0).nfout) = (false, false) ∧ (getCore (sequenced 0 true) 0).frozen = true ∧
    tmmOver (running 1) = true ∧ getSheaf (sequenced 1 false) 0 0 = some tmming ∧ (∀ sh ∈ claimSheaves (sequenced 0 false) 0, sh.long = []) :=
  ⟨rfl, by decide +kernel, by decide +kernel, rfl, by decide +kernel, by decide +kernel, rfl, by decide +kernel, rfl, by decide +kernel⟩

/-- Memory above the tables of the tests reads as zero. -/
theorem mget_above {α : Type} (m : Map α) (b k : Nat) (d : α) (h : ∀ x ∈ m, x.1 < b) (hk : b ≤ k) : mget m k d = d := by
  induction m with
  | nil => rfl
  | cons x r ih =>
    have h1 : x.1 < b := h x (List.mem_cons_self ..)
    have h2 : x.1 ≠ k := by omega
    simpa [mget, h2] using ih (fun y hy => h y (List.mem_cons_of_mem _ hy))

/-- Frozen units in handler mode; the block at 5000H, in g2:g3. -/
def draining : State :=
  { run cur { at5000 with handler := true } with cores := [(0, { Core.reset with claim := some 0, frozen := true })] }

/-- Physical pages of the block. -/
def drainPages : List (Nat × Bool) := (below 17).map (fun j => (0x5000 + 4096 * j, false))

theorem drain_pages (write : Bool) : PagesMap draining 0 (asidOf draining 0) 0x5000#64 65792 write drainPages := by
  refine ⟨by decide +kernel, fun j hj => ?_⟩
  have hj : j < 17 := hj
  cases write <;> interval_cases j <;>
    exact ⟨0x3F#64, 1, [0x1000], 0x2000, by decide +kernel, by decide +kernel, fun _ => by decide +kernel, fun _ => by decide +kernel,
      .inl rfl, by decide +kernel, by decide +kernel⟩

theorem drain_zero (k : Nat) (hk : 0x4000 ≤ 4 * k) : homeWord draining k = (0#32, false) := by
  have h : ∀ a, 0x4000 ≤ a → memByte draining.mem a = 0#8 := fun a ha =>
    mget_above _ 0x4000 a 0#8 (by decide +kernel) ha
  have e : homeWord draining k = (memWord draining.mem k, false) := rfl
  rw [e, memWord, h _ (by omega), h _ (by omega), h _ (by omega), h _ (by omega)]
  decide

theorem frozen_at (write : Bool) : FrozenAt draining cur { at5000 with handler := true } 2#7 write drainPages := by
  refine ⟨rfl, rfl, ?_, by decide +kernel, by decide +kernel, by decide +kernel, by decide +kernel, by decide +kernel, by decide +kernel,
    by cases write <;> decide +kernel, drain_pages write⟩
  intro t h
  exact absurd (show (none : Option Tmm) = some t from h) (by simp)

theorem drain_word (asid : BitVec 16) (k : Nat) (h : k < 16448) : 0x4000 ≤ 4 * untag (pageWord asid drainPages 0x5000#64 (4 * k)).1 := by
  have hl : ∀ j, j < 17 → lget drainPages j (0, false) = (0x5000 + 4096 * j, false) := by decide
  have h0 : (0x5000#64).toNat % 4096 = 0 := by decide
  simp only [pageWord, nameOf, tagged, untag, h0, Nat.zero_add]
  rw [hl _ (by omega)]
  split <;> simp only [] <;> omega

theorem witness_DrainAndFill : Issues draining cur { at5000 with handler := true } ∧
    FrozenAt draining cur { at5000 with handler := true } 2#7 true drainPages ∧
    FrozenAt draining cur { at5000 with handler := true } 2#7 false drainPages ∧
    (∀ u y r, u < 16 → y < 8 → r < 8 → (accRow draining 0 u y r).length = 16) ∧
    (∀ k, k < 16448 → let x := pageWord (asidOf draining 0) drainPages 0x5000#64 (4 * k)
      Agreed draining (untag x.1) ∧ homeWord draining (untag x.1) = (0#32, false)) ∧
    (getCore (run cur handling) 0).frozen = false := by
  refine ⟨⟨rfl, rfl⟩, frozen_at true, frozen_at false, fun u y r _ _ _ => rfl, fun k hk => ?_, rfl⟩
  exact ⟨⟨fun p n e _ he => absurd he (by simp [show (getPlot draining p).l1 = [] from rfl, mfind]),
    fun t n e _ he => absurd he (by simp [show l2Of draining t = [] from rfl, mfind])⟩, drain_zero _ (drain_word _ k hk)⟩

/-! ## Witnesses: range tasks, spills, special registers -/

/-- A range-task launch with a grain of 4; its bed's interval runs from lo to hi. -/
def ranged (lo hi : Nat) (sh : Sheaf) : State :=
  { recorded (2 ^ 109 + 4 * 2 ^ 736) (run cur sh) with
    beds := [(0, { placedBed with sheaves := [(0, sh)], lo := BitVec.ofNat 32 lo, hi := BitVec.ofNat 32 hi })] }

/-- Thread 0 waits for a grain in g5 and g6. -/
def splitting : Sheaf := { base with park := .wait (.split 5 0) :: copies 31 .run }

theorem witness_RangeTasks : Issues (ranged 0 8 base) cur base ∧ Active cur base ∧ grainOf (ranged 0 8 base) 0 = some 4 ∧
    grainOf (run cur base) 0 = none ∧ (0#32).toNat < (8#32).toNat :=
  ⟨⟨rfl, rfl⟩, active _ rfl rfl, by decide +kernel, by decide +kernel, by decide⟩

/-- Two beds of it: the first has nothing left, the second four grains. -/
def splits : State :=
  { ranged 8 8 splitting with
    beds := [(0, { placedBed with sheaves := [(0, splitting)], lo := 8#32, hi := 8#32 }), (1, { placedBed with core := 1, lo := 8#32, hi := 24#32 })] }

/-- A handler's TNEXT with no victim; the bed that asks first. -/
theorem witness_RangeTasks_handler : Issues (ranged 8 8 handling) cur handling ∧ grainOf (ranged 8 8 handling) 0 = some 4 ∧
    victimOf (ranged 8 8 handling) { placedBed with sheaves := [(0, handling)], lo := 8#32, hi := 8#32 } 4 = none ∧
    Asks splits 4 { placedBed with sheaves := [(0, splitting)], lo := 8#32, hi := 8#32 }
      { placedBed with sheaves := [(0, splitting)], lo := 8#32, hi := 8#32 } ∧
    firstAsker splits 0 { placedBed with sheaves := [(0, splitting)], lo := 8#32, hi := 8#32 } = 0 :=
  ⟨⟨rfl, rfl⟩, by decide +kernel, by decide +kernel, by unfold Asks; decide +kernel, by decide +kernel⟩

theorem witness_RangeTasks_split : grainOf (ranged 0 8 splitting) 0 = some 4 ∧
    splitSheaves { placedBed with sheaves := [(0, splitting)], lo := 0#32, hi := 8#32 } = [(0, splitting)] ∧
    splitWaiter splitting = some (0, 5, 0) ∧ splitSheaves { placedBed with sheaves := [(0, base)] } = [] ∧
    victimOf (ranged 8 8 splitting) { placedBed with sheaves := [(0, splitting)], lo := 8#32, hi := 8#32 } 4 = none ∧
    victimOf splits { placedBed with sheaves := [(0, splitting)], lo := 8#32, hi := 8#32 } 4 =
      some (1, { placedBed with core := 1, lo := 8#32, hi := 24#32 }) ∧
    8 + 4 * ((grainsLeft { placedBed with lo := 8#32, hi := 24#32 } 4 + 1) / 2) < 24 := by
  decide +kernel

/-- BANKCFG of bank 1 to mode 1 in a handler, and the two ends of a switch. -/
def switching : Sheaf := { with_ [] [(4, 1#32), (5, 1#32), (6, 3#32)] with handler := true }

theorem witness_BedSystem : Issues (scratchRun switching) cur switching ∧ switching.handler = true ∧
    (∀ r ∈ [4, 5, 6], rdGP (scratchRun switching) cur switching r = false) ∧ (rdG (scratchRun switching) cur switching 4).toNat ≤ 511 ∧
    (rdG (scratchRun switching) cur switching 5).toNat ≤ 2 ∧ 2 < (rdG (scratchRun switching) cur switching 6).toNat ∧
    bankBusy (scratchRun switching) 0 0 = true ∧ bankBusy (scratchRun switching) 0 1 = false :=
  ⟨⟨rfl, rfl⟩, rfl, by decide +kernel⟩

/-- A handler that spills j3 and fills j5, at 5000H (in g2:g3). -/
def spilling : Sheaf := { at5000 with handler := true, je := [(3, 7#32)], spc := [(5, 1#8), (6, 255#8)] }

theorem witness_BedSystem_first : FirstSwitch (scratchRun switching) 0 0 1#9 ∧ getSheaf (scratchRun switching) 0 0 = some switching :=
  ⟨fun _ _ _ _ h => absurd (show _ ∈ ([] : List Event) from h) (by simp), rfl⟩

theorem witness_BedSystem_spills : Issues (run cur spilling) cur spilling ∧ spill spilling 3 < 255 ∧ spill spilling 6 = 255 ∧
    SpillAt (run cur spilling) cur spilling 2#7 true 0x5000 false ∧ SpillAt (run cur spilling) cur spilling 2#7 false 0x5000 false ∧
    jE spilling 5 = 0#32 ∧ 0 < spill spilling 5 ∧ jE spilling 3 ≠ 0#32 ∧ spill spilling 7 = 0 ∧ jE spilling 7 = 0#32 ∧
    homeWord (run cur spilling) 0x1400 = (0#32, false) := by
  have h (kind : AccKind) : Maps (run cur spilling) 0 (asidOf (run cur spilling) 0) (rdG64 (run cur spilling) cur spilling 2) kind 0x5000 false :=
    ⟨0x3F#64, 1, [0x1000], 0x2000, by decide +kernel, by decide +kernel, fun _ => by decide +kernel, fun _ => by decide, .inl rfl,
      by decide +kernel, by decide +kernel⟩
  exact ⟨⟨rfl, rfl⟩, by decide, by decide,
    ⟨by decide +kernel, by decide +kernel, by decide +kernel, by decide +kernel, by decide +kernel, h .write⟩,
    ⟨by decide +kernel, by decide +kernel, by decide +kernel, by decide +kernel, by decide +kernel, h .read⟩, by decide, by decide, by decide,
    by decide, by decide, by decide +kernel⟩

theorem witness_SpecialRegisters : Readable base .group 0x41 ∧ Readable base .lane 0x30 ∧ Readable base .lane 0x20 ∧
    Readable handling .group 0x62 ∧ ¬Readable base .group 0x62 ∧ Guarded 0x62 ∧ listedReg 0x3FF = false ∧ IsFirst (exm cur base) 0 ∧
    (∃ sh, written base 0x40 3#32 = some sh) ∧ rdGP (run cur tainted) cur tainted 9 = true := by
  refine ⟨?_, ?_, ?_, ?_, ?_, ?_, by decide, ⟨by decide, by decide, by decide⟩, ⟨_, rfl⟩, by decide +kernel⟩ <;>
    simp only [Readable, Guarded] <;> decide

/-- The word behind a prefix that carries the rest of an immediate of ADDI v1, v2, and the ends of its range. -/
theorem witness_SpecialRegisters_ext :
    decodeWord (encodeWord (.addi .lane 1#7 2#7 0#11)) 0#32 = .ok (WideForm.addi.instr .lane 1#7 2#7 0#11) ∧
    decodeWord (encodeWord (.addi .group 1#7 2#7 0#11)) 0#32 = .ok (WideForm.addi.instr .group 1#7 2#7 0#11) ∧
    (1 * 2 ^ 11 + 0) / 2 ^ 32 = 0 ∧ ((2 ^ 25 - 1) * 2 ^ 11 + 0) / 2 ^ 31 = 31 ∧ ¬((2 ^ 24) * 2 ^ 11 / 2 ^ 32 = 0 ∨ (2 ^ 24) * 2 ^ 11 / 2 ^ 31 = 31) ∧
    decodeWord 0x6A000002#32 0#32 = .ok .nop ∧ (∃ r, decodeWord 0x7E000000#32 0#32 = .error r) ∧
    decodeWord (encodeWord (.ld 4#7 2#7 2#2 3#5 0#4)) 0#32 = .ok (.ld 4#7 2#7 2#2 3#5 0#4) ∧
    (Scope.lane, Instr.ld 4#7 2#7 2#2 3#5 0#4) ∈ widened 4#7 2#7 2#2 3#5 0#4 := by
  refine ⟨by decide, by decide, by decide, by decide, by decide, by decide, ⟨_, rfl⟩, by decide, by decide⟩

/-! ## Witnesses: copies and memory-side calls -/

/-- A layout of 16 FP32 elements from 5000H in g20 to g43; packed operands in g44 to g47 (tile 2, EMPTY) and g48 to g51 (tile 0, READY). -/
def copying : Sheaf := with_ [] [(20, 0x5000#32), (23, 16#32), (36, 16#32), (44, 2#32), (46, 2#32), (50, 2#32)]

/-- Its record. -/
def copyRecord : List Word := (List.range 24).map (fun k => rdG (tiled copying) cur copying (20 + k))

theorem witness_Copies : Issues (tiled copying) cur copying ∧ Active cur copying ∧
    CopyReady (tiled copying) cur copying false 20#7 44#7 (some (2, tile 2 0 2048)) ∧
    CopyReady (tiled copying) cur copying true 20#7 48#7 (some (0, tile 0 2 0)) ∧
    (takeLocks (tiled copying) 0 0 0 (copyLocks (tiled copying) cur copying (layoutOf copyRecord) false 0#64 (some (tile 2 0 2048)))).isSome =
      true := by
  refine ⟨⟨rfl, rfl⟩, active _ rfl rfl, ?_, ?_, by decide +kernel⟩
  · exact ⟨by decide +kernel, by decide +kernel, by decide +kernel, by decide +kernel, by decide +kernel, by decide +kernel, by decide +kernel,
      by unfold RefReaches; decide +kernel, .inl ⟨by decide +kernel, _, _, rfl, by unfold TileAt; decide +kernel, by decide +kernel⟩⟩
  · exact ⟨by decide +kernel, by decide +kernel, by decide +kernel, by decide +kernel, by decide +kernel, by decide +kernel, by decide +kernel,
      by unfold RefReaches; decide +kernel, .inl ⟨by decide +kernel, _, _, rfl, by unfold TileAt; decide +kernel, by decide +kernel⟩⟩

/-- COPYOUT of a tile that is not READY, COPY into one that is not EMPTY: their remaining conditions are those of `witness_Copies`. -/
theorem witness_Copies_tiles : TileAt (tiled copying) cur copying (rdG (tiled copying) cur copying 44).toNat 2 (tile 2 0 2048) ∧
    (tile 2 0 2048).state ≠ 2#2 ∧ TileAt (tiled copying) cur copying (rdG (tiled copying) cur copying 48).toNat 0 (tile 0 2 0) ∧
    (tile 0 2 0).state ≠ 0#2 := by
  unfold TileAt; decide +kernel

/-- A transfer under way into tile 2 from some address. -/
def transfer (from_ : Word) : CopyOp :=
  { bed := 0, sheaf := 0, launch := 0, core := 0, posn := 0, out := false, record := from_ :: copyRecord.drop 1, packed := 2#64,
    tile := some 2, ref := 2#64, op := some 7, locks := [0, 1], stalled := none, failed := false }

/-- The state with it; the page carries SYN, so that every element is read at the home. -/
def moving (from_ : Word) : State :=
  { tiled copying with mem := setByte (tiled copying).mem 0x2000 0x7F#8, copies := [(3, transfer from_)] }

theorem witness_Copies_ends : mfind (moving 0x5000#32).copies 3 = some (transfer 0x5000#32) ∧
    (layoutOf (transfer 0x5000#32).record).kind = 0 ∧ backingOf (moving 0x5000#32) 0 = none ∧
    getSheaf (moving 0x5000#32) 0 0 = some copying ∧ (gather (moving 0x5000#32) (transfer 0x5000#32)).violated = false ∧
    (gather (moving 0x5000#32) (transfer 0x5000#32)).fault = none ∧
    backingOf (gather (moving 0x5000#32) (transfer 0x5000#32)).st 0 = none ∧
    getSheaf (gather (moving 0x5000#32) (transfer 0x5000#32)).st 0 0 = some copying ∧
    getPlot (gather (moving 0x5000#32) (transfer 0x5000#32)).st 0 =
      { getPlot (moving 0x5000#32) 0 with l1 := (getPlot (gather (moving 0x5000#32) (transfer 0x5000#32)).st 0).l1 } ∧
    (gather (moving 0x40000000#32) (transfer 0x40000000#32)).fault ≠ none ∧
    (gather (moving 0x40000000#32) (transfer 0x40000000#32)).violated = false ∧
    (gather { moving 0x5000#32 with mem := setByte (moving 0x5000#32).mem 0x2001 4#8 } (transfer 0x5000#32)).violated = true := by
  decide +kernel

/-- One call for routine 0 with one result word, of the block at 5000H. -/
def calling : Sheaf := with_ [(2, 0x5000#32)] [(6, 0x10000#32), (7, 0x200000#32)]

theorem witness_CallsAndCommits : Issues (run cur calling) cur calling ∧ Active cur calling ∧
    rdGP (run cur calling) cur calling 6 = false ∧ (rdG (run cur calling) cur calling 6).toNat / 2 ^ 16 % 32 = 1 ∧
    InBudget cur calling [2, 3, 8] ∧ ArgsAt (run cur calling) cur calling 2#7 (fun _ => 0x5000) ∧
    (rdG (run cur calling) cur calling 7).toNat / 2 ^ 21 ≠ 0 ∧ rdGP (run cur tainted) cur tainted 9 = true := by
  refine ⟨⟨rfl, rfl⟩, active _ rfl rfl, by decide +kernel, by decide +kernel, inAll _ _ _ rfl rfl rfl rfl (by decide), fun i hi hb => ?_,
    by decide +kernel, by decide +kernel⟩
  have : i = 0 ∨ i = 1 := by revert hb; interval_cases i <;> decide
  have h (j : Nat) (hj : rdV64 (run cur calling) cur calling j 2 = 0x5000#64) :
      Maps (run cur calling) 0 (asidOf (run cur calling) 0) (rdV64 (run cur calling) cur calling j 2) .read 0x5000 false :=
    ⟨0x3F#64, 1, [0x1000], 0x2000, by rw [hj]; decide +kernel, by decide +kernel, fun _ => by decide +kernel, fun _ => by decide, .inl (by rw [hj]; rfl),
      by decide +kernel, by rw [hj]; decide +kernel⟩
  rcases this with rfl | rfl
  · exact ⟨by decide +kernel, by decide +kernel, by decide +kernel, by decide +kernel, by decide +kernel, ⟨false, h 0 (by decide +kernel)⟩, by decide⟩
  · exact ⟨by decide +kernel, by decide +kernel, by decide +kernel, by decide +kernel, by decide +kernel, ⟨false, h 1 (by decide +kernel)⟩, by decide⟩

/-- A handler's call. -/
theorem witness_CallsAndCommits_handler : Issues (run cur { calling with handler := true }) cur { calling with handler := true } ∧
    rdGP (run cur { calling with handler := true }) cur { calling with handler := true } 6 = false ∧
    (rdG (run cur { calling with handler := true }) cur { calling with handler := true } 6).toNat / 2 ^ 16 % 32 = 1 :=
  ⟨⟨rfl, rfl⟩, by decide +kernel, by decide +kernel⟩

/-- A library of one batch routine, as the active near library. -/
def libs : State :=
  { run cur base with mgmt := { (run cur base).mgmt with
      images := [(0, copies 256 0#8 ++ copies 4 0#8 ++ natLe 4 1 ++ natLe 4 16 ++ copies 4 0#8 ++ copies 48 0#8)], active := [(6, 0)] } }

/-- A batch that has not begun; one whose only call is answered, of a thread that waits in POOL. -/
def answered : Batch := { placedBatch with
  pc := 0x4000#64, d := 8, started := true, replied := true, calls := [{ lane := 0, arg := 0x5000#64, reply := some ([5#32], false) }] }

/-- Its sheaf. -/
def pooled : Sheaf := { base with park := .pool :: copies 31 .run }

theorem witness_CallsAndCommits_replies :
    getBatch { libs with batches := [(4, { placedBatch with started := false })] } 4 = some { placedBatch with started := false } ∧
    (routineAt (imageOf libs (activeImage libs 6)) 0).isSome = true ∧ routineAt (imageOf libs (activeImage libs 6)) 1 = none ∧
    freeCtx (getEngine libs 0) ≠ none ∧ (batchArgs 4 libs 0 [] [] false).1 = some ([], false) ∧
    getBatch { run cur pooled with batches := [(4, answered)] } 4 = some answered ∧
    getSheaf { run cur pooled with batches := [(4, answered)] } 0 0 = some pooled ∧ parkOf pooled 0 = .pool ∧
    lget pooled.pcs 0 0#64 = answered.pc ∧ pooled.pcs.length = 32 ∧ answered.handler = false ∧ pooled.handler = false ∧ answered.d + 1 ≤ 128 ∧ placedBed.stage = .resident := by
  decide +kernel

/-- A registered index whose descriptor stands at 5000H. -/
def indexed : State := { run cur at5000 with indexes := [(1, { descPa := 0x5000, asid := 0#16, snaps := [] })] }

theorem witness_CallsAndCommits_commit : getSheaf indexed 0 0 = some at5000 ∧ mfind indexed.indexes (1#32).toNat ≠ none ∧
    mfind indexed.indexes (2#32).toNat = none ∧ committed indexed { descPa := 0x5000, asid := 0#16, snaps := [] } = 0#32 ∧
    2 ^ 32 - 2 ≤ (0xFFFFFFFE#32).toNat ∧ translateAt indexed 0#16 0x5000#64 false = some (0x5000, false) ∧ (0x5000#64).toNat % 128 = 0 ∧
    translateAt indexed 0#16 0x40000000#64 false = none := by
  decide +kernel

/-! ## Witnesses: bank engines -/

/-- A pair of a batch, with some scalar registers. -/
def pair (g : List (Nat × DWord)) : Ctx :=
  { placedCtx with fetch := { startThr 0 g [] with wait := .ready }, math := startThr 0 g [], grant := [], grantSize := 4096 }

/-- It issues on engine 0, its fetch thread or its math thread; the batch has one call, answered or not. -/
def near (math answered_ : Bool) (x : Ctx) : State :=
  { plain with
    engines := [(0, { Engine.reset with ctxs := [(0, x)], chains := [{ first := 0, heaps := 1, ctx := some 0, qid := none, ents := [] }] })],
    batches := [(0, { placedBatch with calls := [{ lane := 0, arg := 0#64, reply := if answered_ then some ([], false) else none }] })],
    agent := .pair { engine := 0, ctx := 0, math := math } }

/-- The cursor of its fetch thread and of its math thread. -/
def nc (math : Bool) : NCur := { engine := 0, ctx := 0, math := math }

theorem runs (math a : Bool) (x : Ctx) : Runs (near math a x) (nc math) x (thrOf (nc math) x) := ⟨rfl, rfl, rfl⟩

theorem witness_NearForms : Runs (near false false (pair [])) (nc false) (pair []) (thrOf (nc false) (pair [])) ∧
    Issues (run cur base) cur base := ⟨runs _ _ _, issues _⟩

/-- 5000H in g2, a misaligned address in g3, one that does not translate in g4; g5 a count of heaps. -/
def nearRegs : List (Nat × DWord) := [(2, 0x5000#64), (3, 0x5001#64), (4, 0x40000000#64), (5, 1#64)]

theorem witness_NearMemory : Live (near false false (pair nearRegs)) (pair nearRegs).kind ∧
    (∃ ps, nearAddrs (near false false (pair nearRegs)) (ctxAsid (near false false (pair nearRegs)) (pair nearRegs).kind) true 8 0x5000#64 = some ps ∧
      ps.Nodup) ∧
    (∃ ps, nearAddrs (near false false (pair nearRegs)) (ctxAsid (near false false (pair nearRegs)) (pair nearRegs).kind) false 64 0x5000#64 =
      some ps) ∧
    nearAddrs (near false false (pair nearRegs)) (ctxAsid (near false false (pair nearRegs)) (pair nearRegs).kind) false 8 0x40000000#64 = none ∧
    (pair nearRegs).wrote.length + 64 ≤ 16384 ∧ (0#64).toNat + 64 ≤ (pair nearRegs).grantSize ∧
    (pair nearRegs).grantSize < (0x5000#64).toNat + 8 ∧ (0x5001#64).toNat % 8 ≠ 0 := by
  refine ⟨by show (getBatch (near false false (pair nearRegs)) 0).isSome = true; decide +kernel, ⟨(List.range 8).map (fun k => 0x5000 + k), by decide +kernel, by decide +kernel⟩,
    ⟨(List.range 64).map (fun k => 0x5000 + k), by decide +kernel⟩, by decide +kernel, by decide, by decide, by decide, by decide⟩

theorem witness_NearMemory_vectors : (nearV { startThr 0 [] [] with v := [(4, copies 16 0#32)] } 4).length = 16 := by decide

/-- DIST of two FP32 elements at 5000H, a bad metric word, and chains. -/
theorem witness_NearUnits : distOk 0 0x100002#64 = true ∧ distOk 0 0x1000000#64 = false ∧
    nearAddrs (near false false (pair nearRegs)) (ctxAsid (near false false (pair nearRegs)) (pair nearRegs).kind) false (vectorBytes 0 1 2) 0x5000#64 =
      some ((List.range (vectorBytes 0 1 2)).map (fun k => 0x5000 + k)) ∧
    chainAt (near false false (pair nearRegs)) (nc false) (pair nearRegs) 0#64 = some { first := 0, heaps := 1, ctx := some 0, qid := none, ents := [] } ∧
    chainAt (near false false (pair nearRegs)) (nc false) (pair nearRegs) 1#64 = none ∧
    freeHeaps (getEngine (near false false (pair nearRegs)) 0) 1 = some 1 ∧ freeHeaps (getEngine (near false false (pair nearRegs)) 0) 4 = none ∧
    4 < (0x5000#64).toNat ∧ (fdec fp32 0x7FC00000).isNan = true := by
  decide +kernel

/-- Queues of a pair with an element, full, and empty; calls that are answered and that are not. -/
theorem witness_NearUnits_queues :
    Runs (near true false { pair [] with fwd := [copies 16 0#32] }) (nc true) { pair [] with fwd := [copies 16 0#32] }
      (thrOf (nc true) { pair [] with fwd := [copies 16 0#32] }) ∧
    Runs (near false false { pair [] with ret := [0#128], fwd := copies 16 (copies 16 0#32) }) (nc false)
      { pair [] with ret := [0#128], fwd := copies 16 (copies 16 0#32) }
      (thrOf (nc false) { pair [] with ret := [0#128], fwd := copies 16 (copies 16 0#32) }) ∧
    Runs (near true false { pair [] with ret := copies 8 0#128 }) (nc true) { pair [] with ret := copies 8 0#128 }
      (thrOf (nc true) { pair [] with ret := copies 8 0#128 }) ∧
    (∃ y, getBatch (near false true (pair [])) 0 = some y ∧ ∀ c ∈ y.calls, c.reply.isSome = true) ∧
    (∃ y, getBatch (near false false (pair [])) 0 = some y ∧ (nearG (startThr 0 [] []) 3).toNat < y.calls.length ∧ ∃ c ∈ y.calls, c.reply = none) :=
  ⟨runs _ _ _, runs _ _ _, runs _ _ _, ⟨_, rfl, by decide⟩, ⟨_, rfl, by decide, _, List.mem_singleton.mpr rfl, rfl⟩⟩

/-! ## Witnesses: searches -/

/-- Memory with an index of one node at 5000H (FP32, one element), its table at 6000H, its record at 6100H, its adjacency at 6200H, and a
search card at 5800H for one result. -/
def indexMem : List Host.Cell :=
  bytes ([(0x5009, 1#8), (0x500A, 1#8), (0x500C, 1#8), (0x5011, 0x60#8), (0x5018, 1#8)] ++ (below 24).map (fun k => (0x5028 + k, 0xFF#8)) ++
    [(0x5800, 1#8), (0x5804, 1#8), (0x5806, 1#8), (0x580C, 1#8), (0x5811, 0x59#8), (0x5819, 0x5A#8), (0x5820, 1#8),
     (0x6001, 0x61#8), (0x6009, 0x62#8)]) plain.mem

/-- Bytes of it as a number. -/
def memNat (a n : Nat) : Nat := leNat ((List.range n).map (fun k => memByte indexMem (a + k)))

/-- The search of that card at a stage, its heap unit at engine 0. -/
def search (st : SearchStage) (handed : Nat) : Search :=
  { launch := 0, asid := 0#16, plot := 0, cardVa := 0x5800#64, ref := 2#64, card := BitVec.ofNat 512 (memNat 0x5800 64),
    desc := BitVec.ofNat 1024 (memNat 0x5000 128), descPa := 0x5000, snap := 0#32, stage := st, lib := 0, home := 0, heap0 := 0, heapn := 1,
    visited := [], entries := [], spawned := 2, endedW := 1, handed := handed, dreqs := 0, waiters := [], holding := 0, query := [],
    qpages := [0x5000], rpages := [0x5000], spent := false, poison := false, engFault := false, hold := Hold.reset }

/-- The package with that search, a library of two routines, and engine 0's receive queue. -/
def searching (x : Search) (rx : List Msg) : State :=
  { plain with
    mem := indexMem, searches := [(5, x)], indexes := [(1, { descPa := 0x5000, asid := 0#16, snaps := [] })],
    engines := [(0, { Engine.reset with rx := rx, chains := [{ first := 0, heaps := 1, ctx := none, qid := some 5, ents := [] }] })],
    mgmt := { plain.mgmt with
      images := [(0, copies 256 0#8 ++ copies 4 0#8 ++ natLe 4 2 ++ natLe 4 16 ++ copies 4 0#8 ++ copies 96 0#8)], active := [(6, 0)] } }

/-- A message of a kind from engine 0 to engine 0 for search 5, with some items. -/
def message (kind count : Nat) (items : List Nat) : Msg :=
  { header := msgHeader kind 0 0 count false 5 0 0#32, body := bodyOf items, holds := false, dreqs := 0 }

/-- NMSEARCH of the card at 5000H with a barrier in memory; a poisoned, a misaligned and a wild operand; a barrier in space 2. -/
theorem witness_SearchStart : Issues (run cur at5000) cur at5000 ∧ Active cur at5000 ∧
    (∀ r ∈ [2, 3, 4, 5], rdGP (run cur at5000) cur at5000 r = false) ∧ rdG64 (run cur at5000) cur at5000 2 = 0x5000#64 ∧
    refOk (rdG64 (run cur at5000) cur at5000 4) false = true ∧ refOk 2#64 false = false ∧ (0x5001#64).toNat % 64 ≠ 0 ∧
    canonical 0x8000000000000000#64 = false ∧ rdGP (run cur tainted) cur tainted 9 = true :=
  ⟨issues _, active _ rfl rfl, by decide +kernel⟩

theorem witness_SearchStart_maps : Maps (run cur at5000) 0 (asidOf (run cur at5000) 0) 0x5000#64 .read 0x5000 false :=
  ⟨0x3F#64, 1, [0x1000], 0x2000, by decide +kernel, by decide +kernel, fun _ => by decide +kernel, fun _ => by decide, .inl rfl,
    by decide +kernel, by decide +kernel⟩

/-- Registration of that card. -/
theorem witness_SearchStart_registration :
    getSearch (searching (search .sent 0) []) 5 = some (search .sent 0) ∧
    nearAddrs (searching (search .sent 0) []) 0#16 false 64 0x5800#64 = some ((List.range 64).map (fun k => 0x5800 + k)) ∧
    CleanAt (searching (search .sent 0) []) ((List.range 64).map (fun k => 0x5800 + k)) ∧
    withCard (searching (search .sent 0) []) (search .sent 0) ((List.range 64).map (fun k => 0x5800 + k)) = search .sent 0 ∧
    cardVaOk (BitVec.ofNat 64 (cardField (search .sent 0) 255 192)) = true ∧ cardK (search .sent 0) = 1 ∧
    pagesOf (searching (search .sent 0) []) 0#16 (BitVec.ofNat 64 (cardField (search .sent 0) 255 192)) 48 true = some [0x5000] ∧
    mfind (searching (search .sent 0) []).indexes (cardField (search .sent 0) 31 0) = some { descPa := 0x5000, asid := 0#16, snaps := [] } ∧
    descOk (search .sent 0).desc = true ∧ cardOk (search .sent 0) = true ∧
    pagesOf (searching (search .sent 0) []) 0#16 (BitVec.ofNat 64 (cardField (search .sent 0) 191 128)) (descQueryBytes (search .sent 0).desc) false =
      some [0x5000] ∧
    (engineWord (searching (search .sent 0) []) (0x5000 / 4)).1 = 0#32 ∧ (engineWord (searching (search .sent 0) []) (0x5000 / 4 + 1)).1 = 0#32 ∧
    nearAddrs (searching (search .sent 0) []) 0#16 false 64 0x40000000#64 = none ∧
    ¬CleanAt { searching (search .sent 0) [] with memPoison := [(0x5800 / 4, true)] } ((List.range 64).map (fun k => 0x5800 + k)) := by
  unfold CleanAt; decide +kernel

theorem with_first {α β : Type} {p : α × β} {a : α} (h : p.1 = a) : p = (a, p.2) := by rw [← h]

/-- Setup: the node is visible and engine 0's stack has room; without its table entry there is none; with every chain taken it waits. -/
theorem witness_SearchStart_setup :
    (∃ n s1, entryNodes 5 (search .registered 0) (searching (search .registered 0) [])
        ((entryFields (search .registered 0).desc).filter (fun j => j != unusedEntry)) = (some [n], s1) ∧ n.2.2 = 0 ∧
      ∃ as, nearAddrs (searching (search .registered 0) []) 0#16 false (vectorBytes 0 1 1) n.2.1 = some as) ∧
    freeHeaps (getEngine (searching (search .registered 0) []) 0) (chainHeaps (search .registered 0)) = some 1 ∧
    freeCtx (getEngine (searching (search .registered 0) []) 0) = some 0 ∧
    (routineAt (imageOf (searching (search .registered 0) []) (activeImage (searching (search .registered 0) []) 6)) 0).isSome = true ∧
    CleanAt (searching (search .registered 0) []) ((List.range (descQueryBytes (search .registered 0).desc)).map
      (pagedByte [0x5000] (BitVec.ofNat 64 (cardField (search .registered 0) 191 128)))) := by
  refine ⟨⟨(0, 0x6110#64, 0), _, with_first (by decide +kernel), rfl,
    ⟨(List.range (vectorBytes 0 1 1)).map (fun k => 0x6110 + k), by decide +kernel⟩⟩, by decide +kernel, by decide +kernel, by decide +kernel,
    by unfold CleanAt; decide +kernel⟩

theorem witness_SearchStart_absent :
    (entryNodes 5 (search .registered 0) { searching (search .registered 0) [] with mem := setByte indexMem 0x6001 0#8 } [0]).1 = some [] ∧
    (below 64).all (fun e => freeHeaps (getEngine { searching (search .registered 0) [] with
      engines := (below 64).map (fun e => (e, { Engine.reset with chains := [{ first := 0, heaps := 4, ctx := none, qid := none, ents := [] }] })) } e)
        (chainHeaps (search .registered 0)) == none) = true := by
  decide +kernel

/-- A SPAWN and a WALKER of a live search, and one of a search that is gone. -/
theorem witness_SearchEngines :
    headMsg (searching (search .running 0) [message 6 0 []]) 0 6 = some (message 6 0 []) ∧
    headMsg (searching (search .running 0) [message 1 0 []]) 0 1 = some (message 1 0 []) ∧
    searchOfQid (searching (search .running 0) []) (headField (message 1 0 []).header 47 32) = some 5 ∧
    searchOfQid { searching (search .running 0) [] with searches := [] } (headField (message 1 0 []).header 47 32) = none ∧
    freeCtx (getEngine (searching (search .running 0) []) 0) = some 0 ∧
    (loadQuery (searching (search .running 0) []) 0 5 (search .running 0)).isSome = true ∧
    (routineAt (imageOf (searching (search .running 0) []) 0) 1).isSome = true := by
  decide +kernel

/-- The heap unit's messages: CANDS of one, POPREQ within and beyond the budget, the last ENDW and one before it. -/
theorem witness_SearchEngines_heap :
    AtHome (searching (search .running 0) [message 2 1 [0x3F800000, 7]]) 0 5 2 (message 2 1 [0x3F800000, 7]) (search .running 0) ∧
    AtHome (searching (search .running 0) [message 3 0 [0, 0, 0]]) 0 5 3 (message 3 0 [0, 0, 0]) (search .running 0) ∧
    AtHome (searching (search .running 0) [message 7 0 [0, 0]]) 0 5 7 (message 7 0 [0, 0]) (search .running 0) ∧
    (chainOf (searching (search .running 0) []) 5 0).isSome = true ∧ headField (message 2 1 []).header 27 24 = 1 ∧
    headField (message 2 1 []).header 28 28 = 0 ∧ (search .running 0).endedW ≠ (search .running 0).spawned ∧
    (search .running 1).handed = cardField (search .running 1) 127 96 ∧ (search .running 0).handed ≠ cardField (search .running 0) 127 96 ∧
    bestInK (heapOf (searching (search .running 0) []) 5 0) (cardK (search .running 0)) = false ∧
    bestInK [{ key := 0#32, ident := 0, expanded := false }] (cardK (search .running 0)) = true ∧
    (search .running 0).endedW + 1 = (search .running 0).spawned ∧ conflicts (searching (search .running 0) []) (search .running 0).hold = false := by
  unfold AtHome; decide +kernel

/-- A context of that search that waits for a POPREP, and a DREQ of one node. -/
theorem witness_SearchEngines_messages :
    let c : Ctx := { placedCtx with kind := .walker 5, fetch := { startThr 0 [] [] with wait := .recv 2 3 } }
    let s := { searching (search .running 0) [] with engines := [(0, { Engine.reset with rx := [message 4 0 [7, 0]], ctxs := [(0, c)] })] }
    (getEngine s 0).rx = [message 4 0 [7, 0]] ∧ (message 4 0 [7, 0]).kind = 4 ∧
    mfind (getEngine s 0).ctxs (bodyItem (message 4 0 [7, 0]).body 1 % 16) = some c ∧ 5 % 65536 = headField (message 4 0 [7, 0]).header 47 32 ∧
    headMsg (searching (search .running 0) [message 5 1 [0]]) 0 5 = some (message 5 1 [0]) ∧
    (answerNodes 5 0 (search .running 0) (takeMsg (searching (search .running 0) [message 5 1 [0]]) 0 (message 5 1 [0]))
      ((List.range (min (headField (message 5 1 [0]).header 27 24) 8)).map (fun j => bodyItem (message 5 1 [0]).body j % 2 ^ 48))).1 =
        some [(0#32, 0)] := by
  decide +kernel

/-- A context that serves a request with two CANDS or one to send, to an engine with room and to one without. -/
def requesting (answers : List (List (Word × Nat))) (rx : List Msg) : State :=
  { searching (search .running 0) [] with
    engines := [(0, { Engine.reset with rx := rx, ctxs := [(3, { placedCtx with kind := .request 5, answers := answers })] })] }

theorem witness_SearchEngines_requests :
    mfind (getEngine (requesting [[(0#32, 0)], []] []) 0).ctxs 3 = some { placedCtx with kind := .request 5, answers := [[(0#32, 0)], []] } ∧
    getSearch (requesting [[]] []) 5 = some (search .running 0) ∧ maySendNow (requesting [[]] []) 0 0 = true ∧
    maySendNow (requesting [[]] (copies 64 (message 1 0 []))) 0 0 = false ∧
    freeCtx (getEngine (searching (search .running 0) [message 5 1 [0]]) 0) = some 0 := by
  decide +kernel

/-- A walker of that search that may send to engine 0, which has room or has none. -/
theorem witness_NearUnits_messages :
    let c : Ctx := { placedCtx with kind := .walker 5 }
    let s := fun rx => { searching (search .running 0) [] with
      engines := [(0, { Engine.reset with rx := rx, ctxs := [(0, c)] })], agent := .pair (nc false) }
    Runs (s []) (nc false) c (thrOf (nc false) c) ∧ Sendable (s []) (nc false) c 0 ∧ maySend (s []) c 0 = true ∧ maySend (s []) c 64 = false ∧
      64 ≤ (getEngine (s (copies 64 (message 1 0 []))) 0).rx.length ∧ c.kind.qid ≠ none ∧ c.endSent = false := by
  refine ⟨⟨rfl, rfl, rfl⟩, ?_, by decide +kernel, by decide +kernel, by decide +kernel, by decide, rfl⟩
  unfold Sendable
  decide +kernel

/-- A pair whose threads both block on their queues, and one of which only one does. -/
theorem witness_SearchEngines_faults :
    let x : Ctx := { pair [] with fetch := { startThr 0 [] [] with wait := .pop 1 }, math := { startThr 0 [] [] with wait := .pop 0 } }
    mfind (getEngine (near false false x) 0).ctxs 0 = some x ∧ x.fetch.wait.onQueue = true ∧ x.math.wait.onQueue = true ∧
    queueReady x x.fetch.wait = false ∧ queueReady x x.math.wait = false ∧ (pair []).fetch.wait.onQueue = false ∧
    mfind (getEngine (near false false x) 0).ctxs 1 = none := by
  decide +kernel

/-! ## Witnesses: collectives -/

/-- A binding of a shuffle of one 4 KiB chunk for each of dies 0 and 1 (two fire indices of one chunk each): sources at 40000000H, where no
page is, destinations at 20000H, two tries, no barrier. -/
def binding : BitVec 512 :=
  BitVec.ofNat 512 (2 + 3 * 2 ^ 32 + 2 * 2 ^ 24 + 0x40000000 * 2 ^ 64 + 0x20000 * 2 ^ 128 + 4096 * 2 ^ 192 + 1 * 2 ^ 224 + 2 * 2 ^ 384)

/-- A collective of it. -/
def coll (running : Bool) (bs : List Block) : Coll :=
  { launch := 0, binding := 0, entry := binding, asid := 0#16, level := 0, version := 1, ranks := [0, 1], dies := [0, 1], mode := .coded,
    links := [], mcast := 0#32, stepNo := 0, running := running, formed := false, blocks := bs, tries := 0, accepted := [], staged := [], writes := [], sides := [],
    missLim := 4, misses := 0, resends := 0, cpkt := 0, upkt := 0, down := false, downgraded := false }

/-- The package with it; `fired` holds the fired chunks. -/
def collecting (c : Coll) (fired : List (Nat × Bool)) (pkts : List (Nat × Pkt)) : State :=
  { run cur (with_ [] [(5, 1#32)]) with
    launches := [(0, { placedLaunch with binds := [binding], fired := fired })], colls := [(9, c)], pkts := pkts }

theorem witness_CollectiveFires : Issues (collecting (coll false []) [] []) cur (with_ [] [(5, 1#32)]) ∧
    Active cur (with_ [] [(5, 1#32)]) ∧
    (∀ r ∈ [4, 5], rdGP (collecting (coll false []) [] []) cur (with_ [] [(5, 1#32)]) r = false) ∧
    Fireable (releaseAt (collecting (coll false []) [] []) 0 5) 0 0 1 { placedLaunch with binds := [binding] } binding ∧
    isFired { placedLaunch with binds := [binding] } 0 1 = false ∧
    collOfBind (releaseAt (collecting (coll false []) [] []) 0 5) 0 0 ≠ none ∧
    collOfBind { collecting (coll false []) [] [] with colls := [] } 0 0 = none ∧
    isFired { placedLaunch with binds := [binding], fired := [(1, true)] } 0 1 = true ∧
    fireCount (collecting (coll false []) [] []) binding ≤ (2#32).toNat := by
  refine ⟨⟨rfl, rfl⟩, active _ rfl rfl, by decide +kernel, by unfold Fireable; decide +kernel, by decide +kernel, by decide +kernel,
    by decide +kernel, by decide +kernel, by decide +kernel⟩

/-- A step that may start, and one that is running, with a block to send; a block as a packet carries it. -/
def block : Block := { rank := 0, block := 0, dest := 1, data := [], acked := false }

/-- Another. -/
def block2 : Block := { rank := 1, block := 0, dest := 0, data := [], acked := false }

theorem witness_CollectiveSteps :
    stepReady (collecting (coll false []) [(0, true), (1, true)] []) (coll false []) = true ∧
    stepReady (collecting (coll false []) [] []) (coll false []) = false ∧
    (∀ x ∈ (stepBlocks (coll false []) 0).map (loadBlock (collecting (coll false []) [] []) (coll false [])), x.2 = false) ∧
    isSent (coll false []) block = true ∧ bindField (coll false []).entry 27 24 = 2 ∧
    getColl (collecting (coll true [block]) [] []) 9 = some (coll true [block]) ∧
    (pinStep (collecting (coll false []) [] []) 9 (coll false [])
      (((stepBlocks (coll false []) 0).map (loadBlock (collecting (coll false []) [] []) (coll false []))).map (fun x => x.1))).isSome = true := by
  decide +kernel

/-- A packet of a kind for port 1 whose tags name blocks of ranks 0 and 1 of collective 9. -/
def packet (kind : Nat) (srcp : Nat) (n : Nat) : Pkt :=
  { header := header kind srcp 0 0 (firstN n [blockTag 9 (coll true []) 0 0, blockTag 9 (coll true []) 1 0]) (firstN n [1, 0]) 0,
    payload := [], dst := [1] }

theorem witness_CollectiveSteps_packets :
    Arrives (collecting { coll true [block] with accepted := [(0, 0, 1)] } [] [(7, packet 1 0 1)]) 7 1 (packet 1 0 1) 1 9
      { coll true [block] with accepted := [(0, 0, 1)] } ∧
    Arrives (collecting (coll true [block]) [] [(7, packet 2 0 2)]) 7 2 (packet 2 0 2) 1 9 (coll true [block]) ∧
    Arrives (collecting (coll true [block, block2]) [] [(7, packet 3 1 1)]) 7 3 (packet 3 1 1) 1 9 (coll true [block, block2]) ∧
    Arrives (collecting (coll true [block]) [] [(7, packet 4 1 1)]) 7 4 (packet 4 1 1) 1 9 (coll true [block]) ∧
    comesFrom (coll true [block, block2]) block.dest (pktField (packet 3 1 1) 12 8) = true ∧ (coll true [block]).mode ≠ .inSwitch ∧
    comesFrom (coll true [block]) block.dest (pktField (packet 4 1 1) 12 8) = true ∧ pktDest (packet 2 0 2) 0 = 1 ∧
    destAt (coll true [block]) 0 0 1 = some 1 ∧ (1 : Nat) < pktField (packet 2 0 2) 5 4 + 1 ∧ (plain).pins = [] := by
  unfold Arrives; decide +kernel

/-- A keyed direction of an Amsan port, a frame that it opens and one that it does not. -/
def keyed_ : Amsan := { keyed := true, key := 0#256, salt := 0#32, counter := 0#64, stopped := false, failed := 0 }

theorem witness_CollectiveSteps_frames : keyed_.keyed = true ∧ keyed_.stopped = false ∧
    amsanOpen keyed_.key keyed_.salt keyed_.counter [] = none ∧
    amsanOpen keyed_.key keyed_.salt keyed_.counter (amsanSeal 0#256 0#32 0#64 (copies 64 0#8)) = some (copies 64 0#8) ∧
    64 ≤ (copies 64 0#8 : List Byte).length :=
  ⟨rfl, rfl, by decide, amsanOpen_amsanSeal _ _ _ _, by decide⟩

/-- An ACK for port 0, in a frame that opens. -/
def ack : List Byte := 3#8 :: copies 63 0#8

theorem witness_CollectiveSteps_packet : amsanOpen keyed_.key keyed_.salt keyed_.counter (amsanSeal 0#256 0#32 0#64 ack) = some ack ∧
    64 ≤ ack.length ∧ pktOk (pktOfBytes ack) = true ∧
    ((List.range (pktField (pktOfBytes ack) 5 4 + 1)).map (pktDest (pktOfBytes ack))).filter isLocal = [0] :=
  ⟨amsanOpen_amsanSeal _ _ _ _, by decide, by decide +kernel, by decide +kernel⟩

theorem witness_CollectiveSteps_links : (getAmsan { plain with amsan := [] } 0 false).keyed = false ∧
    (∃ a : Amsan, a.keyed = true ∧ a.stopped = false) ∧ { plain with held := [(4, 0#32, [])] }.held = [(4, 0#32, [])] :=
  ⟨by decide +kernel, ⟨{ keyed := true, key := 0#256, salt := 0#32, counter := 0#64, stopped := false, failed := 0 }, rfl, rfl⟩, rfl⟩

/-! ## Witnesses: traps, page faults, lines -/

/-- A formed result, and one with a late trap. -/
def owed (ready : Bool) (tr : Option LateTrap) : LongOp :=
  { id := 7, instr := 7, pc := 0x4000#64, ctl := 3#32, exm := 3#32, inst0 := 0#32, inst1 := 0#32, writes := [.group 5 9#32 false],
    seenIn := false, seenOut := false, trap := tr, ready := ready, younger := false, tested := false, handler := false, spans := copies 32 0,
    replays := 0 }

theorem witness_Traps : getSheaf (run cur base) 0 0 = some base ∧
    getSheaf (run cur handling) 0 0 = some { handling with pend := [] } ∧
    getSheaf (run cur { handling with pend := copies 8 TrapRec.reset }) 0 0 = some { handling with pend := copies 8 TrapRec.reset } ∧
    Issues (run cur handling) cur handling ∧
    ¬(handling.record.hact = 1#2 ∨ handling.record.cause = 1#32 <<< 6 ∨ handling.record.cause = 1#32 <<< 20) ∧
    { base with stopBed := true }.stopBed = true ∧ { TrapRec.reset with cause := 1#32 <<< 15 }.cause = 1#32 <<< 15 ∧ holdsClaim (claims (run cur base)) 0 0 = true := by
  refine ⟨rfl, rfl, rfl, ⟨rfl, rfl⟩, by decide, rfl, rfl, by decide +kernel⟩

theorem witness_Traps_late :
    getSheaf (run cur { base with long := [owed true none] }) 0 0 = some { base with long := [owed true none] } ∧
    isResident (run cur base) 0 = true ∧ (owed true none).ready = true ∧ sheafEnded base = false ∧
    (owed true (some { cause := 9, lanes := 1#32, lanes2 := 0#32, detail := 0#32, addr := 0#64 })).trap ≠ none ∧
    base.wdDue = false ∧ base.wdcnt < watchdogLimit (run cur base) 0 ∧
    watchdogLimit (run cur base) 0 ≤ { base with wdcnt := 2 ^ 31 }.wdcnt := by
  decide +kernel

/-- An entry of the operand log: a store of lane 0 at 40000000H. -/
def logged (token : Word) (resumed : Option (BitVec 2)) : LogEnt :=
  { acc := word .store [[7#32]], pc := 0x4000#64, ctl := 3#32, inst0 := 0#32, inst1 := 0#32, mask := 1#32, token := token, op := none,
    younger := false, handler := false, kind := 1, resumed := resumed }

/-- A sheaf with it. -/
def logging (e : LogEnt) : Sheaf := { base with oplog := [(0, e)] }

theorem witness_PageFaults : getLog (run cur (logging (logged 0#32 none))) 0 0 0 = some (logged 0#32 none) ∧
    getLog (run cur (logging (logged 5#32 none))) 0 0 0 = some (logged 5#32 none) ∧ (logged 5#32 none).token ≠ 0#32 ∧
    bit (runMask base) 0 = true ∧ lget base.pcs 0 0#64 = 0x4000#64 ∧
    (∀ i, i < 32 → bit (runMask base) i = true → lget base.pcs i 0#64 ≠ 0x9000#64 ∧ lget base.pcs i 0#64 ≠ 0x9000#64 - 4#64) := by
  decide +kernel

/-- Tickets of a logged access, of a fetch and of a copy, held by function 0. -/
def ticketed : State :=
  { run cur (logging (logged 1#32 none)) with
    copies := [(3, transfer 0x5000#32)],
    hostIf := { plain.hostIf with tickets := [(1, .log 0 0 0), (2, .fetch 0 0 0x4000#64), (3, .copy 3), (4, .snap 0#16 0x4000#64)], nextToken := 5#32 } }

theorem witness_PageFaults_resumes : mfind ticketed.hostIf.tickets (1#32).toNat = some (.log 0 0 0) ∧ ticketFn ticketed (.log 0 0 0) = 0 ∧
    mfind ticketed.hostIf.tickets (2#32).toNat = some (.fetch 0 0 0x4000#64) ∧ ticketFn ticketed (.fetch 0 0 0x4000#64) = 0 ∧
    mfind ticketed.hostIf.tickets (3#32).toNat = some (.copy 3) ∧ mfind ticketed.copies 3 = some (transfer 0x5000#32) ∧
    ticketFn ticketed (.copy 3) = 0 ∧ mfind ticketed.hostIf.tickets (4#32).toNat = some (.snap 0#16 0x4000#64) ∧
    ticketFn ticketed (.snap 0#16 0x4000#64) = 0 ∧ mfind ticketed.hostIf.tickets (9#32).toNat = none ∧ ticketFn ticketed (.copy 3) ≠ 1 ∧
    isResident ticketed 0 = true ∧ (logged 1#32 (some 0#2)).resumed = some 0#2 ∧ sheafEnded (logging (logged 1#32 (some 0#2))) = false := by
  decide +kernel

/-- A page of 4 KiB at VA 0 with its SNAP bit, in a region of the launch; one free page in the pool. -/
def snapping : State :=
  { plain with
    mem := bytes [(0x2000, 0x11#8), (0x2001, 0x30#8), (0x3000, 0x11#8), (0x3001, 0x60#8), (0x6000, 0x3F#8), (0x6001, 0x72#8)] plain.mem,
    launches := [(0, { placedLaunch with regions := [BitVec.ofNat 128 (2 ^ 64)] })],
    hostIf := { plain.hostIf with ctxbase := 0x9000#64, ctxsize := 4096#64 } }

theorem witness_PageFaults_snapshots :
    (match walk snapping 0#16 0#64 with
     | .leaf e level _ => pteBit e 9 && decide (leafBytes level (pteBit e 7 && level == 3) = 4096)
     | _ => false) = true ∧
    snapOwners snapping 0#16 0#64 4096 = [0] ∧ freePoolPage snapping = some 9 ∧ freePoolPage { snapping with poolUsed := [9] } = none ∧
    snapOwners plain 0#16 0#64 4096 = [] ∧ walk plain 0#16 0x40000000#64 = .fault := by
  decide +kernel

/-- Lines of v5: present, drowsy, absent; a bed image. -/
def lined (l : LineState) : Sheaf := { base with v := [(5, vr 7#32 0#32 l)] }

theorem witness_LinesAndDebugger :
    (vreg (lined .present) 5).line = .present ∧ (vreg (lined .drowsy) 5).line = .drowsy ∧ (vreg (lined .absent) 5).line = .absent ∧
    (let s := { run cur (lined .absent) with beds := [(0, { placedBed with sheaves := [(0, lined .absent)], image := some 0x100000 })] }
     (loadReg s (laneBlock s 0 0 0x100000) 512 5).isSome = true ∧ getSheaf s 0 0 = some (lined .absent) ∧
       (getBed s 0).map (fun b => (b.stage, b.image)) = some (.resident, some 0x100000)) ∧
    { base with stopM := Mask.full }.stopM ≠ 0#32 ∧ base.stepping = none ∧ base.flushed = [] ∧ base.stopM = 0#32 ∧ base.bedStop = false ∧
    heldInStop { base with stopM := Mask.full } = true ∧ heldInStop base = false ∧ runMask base ≠ 0#32 ∧
    { base with flushed := [(2 * 9, 1#32), (2 * 9 + 1, 0#32)] }.flushed = [(2 * 9, 1#32), (2 * 9 + 1, 0#32)] ∧
    { base with pend := [TrapRec.reset] }.pend = [TrapRec.reset] := by
  decide +kernel

/-! ## Witnesses: beds, launches and the host -/

/-- A sheaf that has ended. -/
def over_ : Sheaf := { base with park := copies 32 .done }

/-- A bed of two sheaves whose first has ended; one that is quiet. -/
def waves (total : Nat) (bs : List (BitVec 512)) (gate : List GateOp) (agenda : List Event) : State :=
  { plain with
    launches := [(0, { placedLaunch with binds := bs })], cores := [(0, { Core.reset with gate := gate })], agenda := agenda,
    beds := [(0, { placedBed with sheaves := [(0, over_)], total := total })] }

theorem witness_BedLife : sheafEnded over_ = true ∧ (slotFor (waves 2 [] [] []) 0).isSome = true ∧ (launchOf (waves 2 [] [] []) 0).isSome = true ∧
    bedQuiet (waves 1 [] [] []) 0 { placedBed with sheaves := [(0, over_)] } = true ∧
    bedQuiet (waves 1 [] [] []) 0 { placedBed with sheaves := [(0, base)] } = false ∧
    firesUnderWay (waves 1 [] [.fire 0 0 0 0] []) 0 0 = true ∧ firesUnderWay (waves 1 [] [] []) 0 0 = false ∧
    (getCore (waves 1 [] [.fire 0 0 0 0] []) 0).gate = [.fire 0 0 0 0] ∧ bedCount placedLaunch = 1 := by
  decide +kernel

/-- A resident bed that can be saved, and the same bed saved. -/
def pooled_ (stage : BedStage) : State :=
  { plain with
    beds := [(0, { placedBed with sheaves := [(0, base)], stage := stage, image := some 0x100000, savedPlot := stage == .preempted })],
    hostIf := { plain.hostIf with ctxbase := 0x100000#64, ctxsize := 0x100000#64 } }

theorem witness_BedLife_saving : (groupOn (pooled_ .resident) 0 0).length = 1 ∧
    (ensureImages (groupOn (pooled_ .resident) 0 0) (pooled_ .resident)).isSome = true ∧
    (resumeSpot (pooled_ .preempted) 0).isSome = true ∧ (∀ w ∈ [(0, base)], w.2.oplog = []) ∧
    (ensureImages [(0, placedBed)] { plain with beds := [(0, placedBed)] }).isNone = true := by
  decide +kernel

/-- A queue of level 2 with an entry, a NOP or one that is no entry, at its head. -/
def arbiting (e : Nat) : State :=
  { plain with
    mem := bytes [(0x8008, BitVec.ofNat 8 e)] plain.mem,
    hostIf := { plain.hostIf with queues := [(0, { desc := BitVec.ofNat 256 (0x8000 + 4 * 2 ^ 65 + 2 * 2 ^ 70 + 2 ^ 74), enabled := true, head := 0#32,
                                                   tail := 1#32, credit := 1, busy := none, seen := [] })] } }

theorem witness_LaunchLife : pickLevel (arbiting 0) = some 2 ∧ slotsHeld (arbiting 0) < 16 ∧
    entryOk (headEntry (arbiting 0) (getQueue (arbiting 0) 0)) = true ∧
    entryOk (headEntry (arbiting 5) (getQueue (arbiting 5) 0)) = false ∧
    bits (headEntry (arbiting 0) (getQueue (arbiting 0) 0)).toNat 71 64 = 0 ∧ pickLevel plain = none := by
  decide +kernel

/-- The placed launch at a stage. -/
def staged (st : LaunchStage) : State := { plain with launches := [(0, { placedLaunch with stage := st, nextBed := 0 })] }

theorem witness_LaunchLife_placing : (takeDeps (staged .pool) { placedLaunch with stage := .pool }).isSome = true ∧
    fitStatus (staged .placing) 0 { placedLaunch with stage := .placing, nextBed := 0 } = none ∧
    hasTurn (staged .placing) { placedLaunch with stage := .placing, nextBed := 0 } = true ∧
    (placeNext (staged .placing) 0 { placedLaunch with stage := .placing, nextBed := 0 }).isSome = true ∧
    pinsReadable (staged .placing) placedLaunch = true ∧
    fitStatus plain 0 { placedLaunch with record := 0#2048 } = some 0x13 := by
  decide +kernel

/-- A launch in the pool whose first dependence takes 1 from the word at 5000H, which holds as much. -/
def taking (word : Nat) : State :=
  { recorded (2 ^ 1024 * (0x5000 + 2 ^ 64 + 3 * 2 ^ 96)) plain with mem := bytes [(0x5000, BitVec.ofNat 8 word)] plain.mem }

theorem witness_LaunchLife_takes :
    let l := (getLaunch (taking 1) 0).getD placedLaunch
    (∃ d ∈ usedDeps l.record, depKind d = 3) ∧ (takeDeps (taking 1) l).isSome = true ∧ takeDeps (taking 0) l = none ∧
      earlierTaker (taking 1) 0 l = false ∧ (¬∃ d ∈ usedDeps placedLaunch.record, depKind d = 3) ∧ placedLaunch.met = false := by
  decide +kernel

theorem witness_LaunchLife_ends : collsOf (staged .completing) 0 = [] ∧ placedLaunch.early = none ∧
    placedLaunch.attempts = 1 ∧ recField placedLaunch.record 218 216 < placedLaunch.attempts ∧
    (∃ l, getLaunch (staged .running) 0 = some l ∧ l.stage = .running) ∧ (∃ l, getLaunch (staged .killed) 0 = some l ∧ l.stage = .killed) :=
  ⟨by decide +kernel, rfl, rfl, by decide +kernel, ⟨_, rfl, rfl⟩, ⟨_, rfl, rfl⟩⟩

/-- The package in service. -/
def opened : State := { arbiting 0 with mgmt := { plain.mgmt with mailboxOnly := false } }

theorem witness_HostInterface : opened.powered = true ∧ opened.mgmt.mailboxOnly = false ∧ State.reset.powered = true ∧
    State.reset.mgmt.mailboxOnly = true ∧ queueField (getQueue opened 0) 87 82 = 0 ∧ (getQueue opened 0).enabled = true ∧
    ((2#32 : Word) - (getQueue opened 0).head).toNat ≤ 2 ^ queueField (getQueue opened 0) 69 65 ∧
    2 ^ queueField (getQueue opened 0) 69 65 < ((17#32 : Word) - (getQueue opened 0).head).toNat ∧
    ((2#32 : Word) - (getQueue opened 0).tail).toNat ≤ 2 ^ queueField (getQueue opened 0) 69 65 ∧ hasCap 0 7 = true ∧ hasCap 1 2 = true ∧
    descriptorOk (BitVec.ofNat 256 (0x8000 + 4 * 2 ^ 65 + 2 * 2 ^ 70 + 2 ^ 74)) = true ∧ descriptorOk 0#256 = false ∧
    (functionWord opened 1).getLsbD 16 = false ∧ 0x5000 + 8 ≤ Config.deviceBytes := by
  decide +kernel

/-! ## Witnesses: the margin, management and resets -/

/-- Core 0 at a margin step, in service or quarantined. -/
def margined (quar : Bool) (cur_ wrepl qcnt : Nat) : State :=
  { run cur { base with long := [owed true none] } with
    cores := [(0, { Core.reset with margin := { Margin.reset with
      quar := quar, cur := BitVec.ofNat 4 cur_, wrepl := BitVec.ofNat 16 wrepl, qcnt := BitVec.ofNat 8 qcnt } })] }

/-- A DADD whose unit result is formed. -/
def dadd_ : LongOp := { owed true none with inst0 := 0x20103080#32 }

/-- An attempt of what stands at 4000H. -/
def attempt (replays : Nat) (ready : Bool) : Attempt :=
  { cur := { curAll with inst0 := 0x6A000002#32, before := some base }, slot := 0, replays := replays, late := 0, ready := ready, op := none,
    left := [] }

/-- A NOP at 4000H, and attempts of it. -/
def attempting (a : Attempt) : State :=
  { run cur base with
    mem := bytes [(0x4000, 2#8), (0x4003, 0x6A#8)] plain.mem,
    cores := [(0, { Core.reset with attempts := [(0, a)] })] }

theorem witness_MarginOperation : (getCore (margined true 0 0 0) 0).margin.quar = true ∧ (getCore (margined false 1 256 0) 0).margin.quar = false ∧
    (getCore (margined false 1 256 0) 0).margin.rthr.toNat ≤ (getCore (margined false 1 256 0) 0).margin.wrepl.toNat ∧
    (getCore (margined false 1 256 0) 0).margin.cur ≠ 0#4 ∧ (getCore (margined false 0 256 0) 0).margin.cur = 0#4 ∧
    (getCore (margined false 1 0 0) 0).margin.wrepl.toNat < (getCore (margined false 1 0 0) 0).margin.rthr.toNat ∧
    (∃ p, profileOf 0 15 = some p) ∧ unitOnPath (margined false 1 0 0) 0 0 4 = none ∧ runningTmm (margined false 1 0 0) 0 0 = none :=
  ⟨by decide +kernel, by decide +kernel, by decide +kernel, by decide +kernel, by decide +kernel, by decide +kernel, ⟨_, rfl⟩,
    by decide +kernel, by decide +kernel⟩

/-- The same with a late transition that its next attempt meets. -/
def lateNow (a : Attempt) : State :=
  { attempting a with cores := [(0, { Core.reset with attempts := [(0, a)], lateNext := [(0, 1)] })] }

theorem witness_MarginOperation_attempts : againKey (lateNow (attempt 0 true)) 0 0 = some 0 ∧
    getAttempt (lateNow (attempt 0 true)) 0 0 = some (attempt 0 true) ∧
    (attemptGroup (lateNow (attempt 0 true)) 0 0 (attempt 0 true)).isSome = true ∧
    mfind (getCore (lateNow (attempt 0 true)) 0).lateNext 0 = some 1 ∧
    (attempt 0 true).replays < (getCore (attempting (attempt 0 true)) 0).margin.rlim.toNat ∧
    (getCore (attempting (attempt 3 true)) 0).margin.rlim.toNat ≤ (attempt 3 true).replays ∧
    ((getCore (attempting (attempt 0 false)) 0).attempts.map Prod.fst).Nodup ∧
    getAttempt (attempting (attempt 0 false)) 0 0 = some (attempt 0 false) ∧ (attempt 0 false).op = none ∧
    unitOnPath (run cur { base with long := [dadd_] }) 0 0 2 = some (0, 0, dadd_) ∧ dadd_.replays < 3 := by
  decide +kernel

/-- A TMM under way in core 0, and a unit operation that has replayed RLIM times. -/
theorem witness_MarginOperation_units : (runningTmm (sequenced 0 false) 0 0).isSome = true ∧ (running 0).replays < 3 ∧
    unitOnPath (run cur { base with long := [{ dadd_ with replays := 3 }] }) 0 0 2 = some (0, 0, { dadd_ with replays := 3 }) ∧
    profileOf 255 15 = none := by
  decide +kernel

theorem witness_MarginOperation_commands : (getCore (margined true 0 0 2) 0).margin.qcnt.toNat < 3 ∧
    3 ≤ (getCore (margined true 0 0 3) 0).margin.qcnt.toNat ∧ (getCore (margined true 0 0 2) 0).testEvent = false ∧
    remapOk 0x80000000#32 = true ∧ remapOk 0x2000#32 = false ∧ (badLanes 0x2183#32).length ≤ 2 ∧ ¬(3 < (3#8).toNat) := by
  decide +kernel

theorem witness_ImagesAndResets : failedCheck State.reset [] = 1 ∧ State.reset.mgmt.next2 = none ∧ mfind State.reset.mgmt.active 1 = none ∧
    { State.reset with powered := false }.powered = false ∧ State.reset.mgmt.active = [] := by
  decide +kernel

/-! ## Witnesses of single clauses -/

/-- Table 3.1's formats, a tie, and codes of each kind. -/
theorem witness_FloatTables : 0 ∈ floatCodes ∧ 12 ∈ [0, 1, 2, 12] ∧ (0x3F800000 : Nat) < 2 ^ (rowOf 0).w ∧
    (fdec fp32 0x7FC00000).isNan = true ∧ 13 ≤ 13 ∧ 6 ≤ 6 := by decide

/-- j3 with a level spilled, whose last expected threads come; j4 with a level spilled and nothing expected. -/
def spilled : Sheaf := { base with je := [(3, 7#32)], ja := [(3, 4#32)], spc := [(3, 1#8), (4, 1#8)] }

theorem witness_JoinsAndEnds_spilled : spill spilled 3 ≠ 0 ∧ jE spilled 3 ≠ 0#32 ∧
    jE spilled 3 &&& ~~~(jA spilled 3 ||| cur.ctl) = 0#32 ∧ cur.ctl &&& ~~~(jE spilled 3) = 0#32 ∧ spill spilled 4 ≠ 0 ∧
    jE spilled 4 = 0#32 ∧ LeaveReleases spilled cur.ctl 3 := by
  unfold LeaveReleases; decide

/-- A package whose write-backs are held back, with a FENCE.sc at issue. -/
theorem witness_Fences_held : let s := { run cur base with holdRelease := true }
    Issues s cur base ∧ s.holdRelease = true ∧ (run cur base).holdRelease = false ∧ mfind base.oplog (freeLog base) = none :=
  ⟨⟨rfl, rfl⟩, rfl, rfl, rfl⟩

/-- TCLAIM of a handle beyond those declared, of a misaligned or empty region, of a handle that is READY, and of a region in use. -/
theorem witness_TileTable_failures : tilesDeclared (tiled handles) 0 ≤ 4 ∧ 3073 % 128 ≠ 0 ∧ 3072 % 128 = 0 ∧
    tileOf (getPlot (tiled handles) 0) (posnOf (tiled handles) 0) 0 = some (0, tile 0 2 0) ∧ (tile 0 2 0).state ≠ 0#2 ∧
    scratchOk (tiled handles) 0 (launchKey (tiled handles) 0) 1024 128 = true ∧ Meets 1024 128 (tile 1 2 1024) ∧
    tileOf (getPlot (tiled handles) 0) (posnOf (tiled handles) 0) 3 = none ∧
    ∃ x ∈ (getPlot (tiled handles) 0).tiles, x.1 < 256 ∧ Meets 1024 128 x.2 :=
  ⟨by decide +kernel, by decide, by decide, by decide +kernel, by decide +kernel, by decide +kernel, by unfold Meets; decide +kernel,
    by decide +kernel, (1, tile 1 2 1024), by decide +kernel, by decide, by unfold Meets; decide +kernel⟩

/-- Waiters of a queue: two of a kind, and one before whose push the queue is full. -/
def waitingAt (held : Nat) (push : Bool) : State :=
  let s := queued held { base with park := copies 32 (.wait (if push then .push 64 else .pop 64)) }
  { s with plots := mset s.plots 0 { getPlot s 0 with qwait := [{ popper with push := push }, { popper with push := push, mask := 12#32 }] } }

theorem witness_QueuesAndWakes_order :
    Sys2Proof.Claim.waiting (waitingAt 1 true) 0 64 true = [{ popper with push := true }, { popper with push := true, mask := 12#32 }] ∧
    Sys2Proof.Claim.waiting (waitingAt 1 true) 0 64 false = [] ∧ (getSheaf (waitingAt 1 true) 0 0).isSome = true ∧
    (queueAt (waitingAt 1 true) 0 64).held < (queueAt (waitingAt 1 true) 0 64).depth ∧
    (queueAt (waitingAt 2 true) 0 64).depth ≤ (queueAt (waitingAt 2 true) 0 64).held ∧
    (Sys2Proof.Claim.waiting (waitingAt 1 false) 0 64 false).length = 2 ∧ (queueAt (waitingAt 0 false) 0 64).held = 0 ∧
    ¬NoWaiters (waitingAt 1 false) 0 64 ∧
    64 + 32 ≤ (queueAt (waitingAt 1 true) 0 64).slotAt (queueAt (waitingAt 1 true) 0 64).tail := by
  unfold NoWaiters; decide +kernel

/-- The last K step of the TMM's block; a step of an infinite A with NF-IN enabled, its pending result at the sheaf that issued it. -/
def lastStep : Tmm := { running 0 with step := 1, loaded := true, nfin := true }

def infiniteA : State :=
  let s := tiled { tmming with long := [owed false none] }
  { s with
    plots := mset s.plots 0 { getPlot s 0 with scratch := bytes [(0, 0x80#8), (1, 0x7F#8)] [] },
    cores := [(0, { Core.reset with claim := some 0, tmm := some { running 0 with nfin := true } })] }

theorem witness_TiledMatrix_ends : (∀ g ∈ tmmOf, lastStep.step = g.ha.kext) ∧ tmmOver lastStep = false ∧ lastStep.locks ≠ [] ∧ lastStep.late = 0 ∧
    ((running 0).ref.toNat % 4 = 2) ∧ (∀ g ∈ tmmOf, (List.range g.m).any (fun r =>
      ({ ha := g.ha, hb := g.bHdr 0, row := g.row, ks := upFrom 0 g.row.kw, rd := bsByte infiniteA 0 } : Dot).nfIn
        (g.aRow (fun a => scratchByte infiniteA 0 (tileBase (tmmTile infiniteA 0 (running 0) g.ah).2 + a)) r))) = true ∧
    (getSheaf infiniteA 0 0).any (fun sh => sh.long.any (fun o => o.id == 7)) = true := by
  decide +kernel

/-- The order of victims: of the beds of a launch that hold two grains, the nearest. -/
theorem witness_RangeTasks_order :
    MaySplit placedBed { placedBed with core := 1, lo := 8#32, hi := 24#32 } 4 ∧
    NoLater 0 4 { placedBed with core := 1, lo := 8#32, hi := 24#32 } { placedBed with core := 5, lo := 0#32, hi := 64#32 } ∧
    ¬MaySplit placedBed { placedBed with lo := 8#32, hi := 12#32 } 4 := by
  unfold MaySplit NoLater apart; decide

/-- An injector in a handler, with INJEN and without. -/
theorem witness_SpecialRegisters_injectors :
    let on := { run cur handling with cores := [(0, { Core.reset with margin := { Margin.reset with injen := true } })] }
    Issues on cur handling ∧ (getCore on 0).margin.injen = true ∧ (getCore (run cur handling) 0).margin.injen = false ∧
    rdGP on cur handling 9 = false ∧ IsFirst (exm cur base) 0 :=
  ⟨⟨rfl, rfl⟩, by decide +kernel, by decide +kernel, by decide +kernel, by decide, by decide, by decide⟩

/-- NMCALL with a poisoned G[B], and of no result; a package that answers registrations, and one that does not. -/
theorem witness_CallsAndCommits_traps : InBudget cur tainted [2, 3, 8] ∧ rdGP (run cur tainted) cur tainted 9 = true ∧
    rdGP (run cur calling) cur calling 8 = false ∧ (rdG (run cur calling) cur calling 8).toNat / 2 ^ 16 % 32 = 0 ∧
    (∀ i, i < 32 → bit (exm cur calling) i = true → rdVP (run cur calling) cur calling i 2 = false ∧
      rdVP (run cur calling) cur calling i 3 = false) ∧ hostOpen opened = true ∧ hostOpen plain = false :=
  ⟨inAll _ _ _ rfl rfl rfl rfl (by decide), by decide +kernel, by decide +kernel, by decide +kernel, by decide +kernel, by decide +kernel,
    by decide +kernel⟩

/-- Copies of the kinds 1 and 2, into tile 2, and out of tile 0, with no barrier or one in scratch. -/
def transferOf (out : Bool) (kind : Nat) (ref : DWord) : CopyOp :=
  { transfer 0x5000#32 with
    out := out, record := (0x5000#32 :: copyRecord.drop 1).take 2 ++ [BitVec.ofNat 32 (kind * 2 ^ 16)] ++ copyRecord.drop 3,
    packed := if kind = 2 then 0x6000#64 else 0#64, tile := if kind = 0 then some (if out then 0 else 2) else none, ref := ref,
    op := if out then none else some 7 }

/-- The state with one of them, whose page carries SYN, and a barrier of two at scratch byte 3584. -/
def movingOf (cp : CopyOp) : State :=
  let s := { moving 0x5000#32 with copies := [(3, cp)] }
  { s with plots := mset s.plots 0 { getPlot s 0 with scratch := bytes [(3588, 2#8), (3590, 2#8)] (getPlot s 0).scratch } }

/-- Its transfer meets nothing, and no bed that it would write to stands in an image. -/
def meetsNothing (cp : CopyOp) : Bool :=
  let x := gather (movingOf cp) cp
  !x.violated && x.fault.isNone && (backingOf x.st 0).isNone && (bsBacking x.st 0).isNone && (backingOf (deliver x cp) 0).isNone &&
    (getPlot x.st 0).tiles.all (fun t => !t.2.lockv)

/-- Nor once its words are written. -/
def writesClear (cp : CopyOp) : Bool :=
  let u := memoryWritten cp (gather (movingOf cp) cp)
  (backingOf u 0).isNone && (getPlot u 0).tiles.all (fun t => !t.2.lockv)

theorem witness_Copies_kinds : (layoutOf (transferOf false 1 2#64).record).kind = 1 ∧ (layoutOf (transferOf false 2 2#64).record).kind = 2 ∧
    (layoutOf (transferOf true 0 2#64).record).kind = 0 ∧ meetsNothing (transferOf false 0 2#64) = true ∧
    meetsNothing (transferOf false 1 2#64) = true ∧ meetsNothing (transferOf false 2 2#64) = true ∧
    meetsNothing (transferOf true 0 2#64) = true ∧ writesClear (transferOf false 2 2#64) = true ∧
    writesClear (transferOf true 0 2#64) = true := by
  decide +kernel

/-- The arrival at a barrier that is sound, and at one that is not. -/
theorem witness_Copies_arrival : meetsNothing (transferOf false 0 (3584#64 + 1#64)) = true ∧
    (let cp := transferOf false 0 (3584#64 + 1#64)
     Sound (barAt (deliver (gather (movingOf cp) cp) cp) { scratch := true, plot := 0, loc := 3584 })) ∧
    (let cp := transferOf false 0 1#64
     ¬Sound (barAt (deliver (gather (movingOf cp) cp) cp) { scratch := true, plot := 0, loc := 0 })) := by
  unfold Sound; decide +kernel

/-- A word of memory whose four bytes a copy gathered. -/
theorem witness_Copies_words : msorted ((below 4).map (fun k => (0x5000 + k, ({ val := k, lo := true, hi := true, poison := false } : Piece)))) = true ∧
    Maps plain 0 0#16 (BitVec.ofNat 64 (4 * 0x1400)) .write 0x5000 false :=
  ⟨by decide, maps5000 .write⟩

/-- A chunk whose source holds poison, at 5000H, in a binding otherwise as `binding`. -/
def poisonedBinding : BitVec 512 := BitVec.ofNat 512 (binding.toNat - 0x40000000 * 2 ^ 64 + 0x4000 * 2 ^ 64)

/-- Bytes that all translate read as some bytes. -/
theorem vaRead_some (s : State) (asid : BitVec 16) (n : Nat) : ∀ va : DWord,
    (∀ k, k < n → (translateAt s asid (va + BitVec.ofNat 64 k) false).isSome = true) → ∃ r, vaRead s asid n va = some r := by
  induction n with
  | zero => exact fun _ _ => ⟨_, rfl⟩
  | succ n ih =>
    intro va h
    obtain ⟨r, hr⟩ := ih (va + 1#64) (fun k hk => by
      have e : va + 1#64 + BitVec.ofNat 64 k = va + BitVec.ofNat 64 (k + 1) := by
        rw [BitVec.add_assoc, BitVec.add_comm 1#64, BitVec.ofNat_add]
      rw [e]; exact h (k + 1) (by omega))
    obtain ⟨a, ha⟩ := Option.isSome_iff_exists.mp (h 0 (by omega))
    exact ⟨(homeByte s a.1 :: r.1, (homeWord s (a.1 / 4)).2 || r.2), by
      simp only [vaRead, show translateAt s asid va false = some a by simpa using ha, hr]⟩

/-- Addresses with the same indexes walk alike. -/
theorem walkFrom_index (s : State) {va vb : DWord} (h : ∀ l, vaIndex va l = vaIndex vb l) (f : Nat) :
    ∀ l t p, walkFrom s va f l t p = walkFrom s vb f l t p := by
  induction f with
  | zero => exact fun _ _ _ => rfl
  | succ f ih => intro l t p; simp only [walkFrom, h, ih]

/-- The package with a poisoned word at 4000H. -/
def poisoned : State := { collecting (coll false []) [] [] with memPoison := [(0x1000, true)] }

theorem poisoned_page (k : Nat) (hk : k < 4095) :
    (translateAt poisoned 0#16 (0x4001#64 + BitVec.ofNat 64 k) false).isSome = true := by
  have hn : (0x4001#64 + BitVec.ofNat 64 k).toNat = 0x4001 + k := by simp; omega
  have hi : ∀ l, vaIndex (0x4001#64 + BitVec.ofNat 64 k) l = vaIndex 0x4000#64 l := by
    intro l; unfold vaIndex; rw [hn]; split <;> simp <;> omega
  have hw : walk poisoned 0#16 (0x4001#64 + BitVec.ofNat 64 k) = .leaf 0x3F#64 1 [0x2000, 0x1000] := by
    have h0 : walk poisoned 0#16 0x4000#64 = .leaf 0x3F#64 1 [0x2000, 0x1000] := by decide +kernel
    rw [← h0, walk, walk, walkFrom_index poisoned hi]
  have h2 : pteBit 0x3F#64 8 = false := by decide
  have hd : ¬Config.deviceBytes ≤ ptePa 0x3F#64 + (0x4001 + k) % leafBytes 1 (pteBit 0x3F#64 7 && 1 == 3) := by
    have h1 : leafBytes 1 (pteBit 0x3F#64 7 && 1 == 3) = 2 ^ 30 := rfl
    have h3 : ptePa 0x3F#64 = 0 := by decide
    have h4 : 0x10000 ≤ Config.deviceBytes := by decide
    rw [h1, h3]; omega
  simp only [translateAt, hw, hn, h2, if_neg hd, Bool.false_and, Bool.false_eq_true, if_false, Option.isSome_some]

theorem witness_CollectiveFires_poison :
    PoisonedChunk poisoned { placedLaunch with binds := [poisonedBinding] } poisonedBinding 0 := by
  obtain ⟨r, hr⟩ := vaRead_some poisoned 0#16 4095 0x4001#64 poisoned_page
  have h0 : translateAt poisoned 0#16 0x4000#64 false = some (0x4000, false) := by decide +kernel
  have hp : (homeWord poisoned (0x4000 / 4)).2 = true := by decide +kernel
  have e : vaRead poisoned 0#16 (4095 + 1) 0x4000#64 = some (homeByte poisoned 0x4000 :: r.1, true) := by
    rw [vaRead, h0, show (0x4000#64 : DWord) + 1#64 = 0x4001#64 by decide, hr]
    simp only [hp, Bool.true_or]
  have hn : 4096 * chunkBlocks poisonedBinding = 4095 + 1 := by decide +kernel
  have ha : srcVa poisonedBinding (0 / chunkCount poisonedBinding) (0 % chunkCount poisonedBinding * chunkBlocks poisonedBinding) =
      0x4000#64 := by decide +kernel
  unfold PoisonedChunk
  rw [hn, ha]
  exact ⟨_, e⟩
/-- A running collective with two blocks, a packet of DATA for one of them, and one coded of both beside the pinned block of the other. -/
def stepping_ : State := collecting (coll true [block, block2]) [] [(7, packet 1 0 1)]

theorem witness_CollectiveSteps_accepted : Arrives stepping_ 7 1 (packet 1 0 1) 1 9 (coll true [block, block2]) ∧
    destAt (coll true [block, block2]) 0 0 1 = some 1 ∧ inStep (coll true [block, block2]) 0 0 1 = true ∧
    (0, 0, 1) ∉ (coll true [block, block2]).accepted ∧ (placeBlock stepping_ 9 0 0 1 [5#8]).isSome = true ∧
    (∃ x ∈ (coll true [block, block2]).blocks, x.acked = false ∧ ¬(x.block = 0 ∧ x.dest = 1)) ∧
    isLocal (portOf (coll true [block, block2]) 0) = true ∧ portOf (coll true [block, block2]) 1 < 24 ∧
    destAt (coll true [block, block2]) 5 0 1 = none :=
  ⟨by unfold Arrives; decide +kernel, by decide +kernel, by decide +kernel, by decide, by decide +kernel,
    ⟨block2, by decide, rfl, by decide⟩, by decide +kernel, by decide +kernel, by decide +kernel⟩

theorem witness_CollectiveSteps_coded :
    let s := { collecting (coll true [block]) [] [(7, packet 2 0 2)] with
      pins := [{ port := 1, coll := 9, rank := 1, block := 0, side := false, data := [] }] }
    Arrives s 7 2 (packet 2 0 2) 1 9 (coll true [block]) ∧ pktDest (packet 2 0 2) 0 = 1 ∧ pktField (packet 2 0 2) 5 4 = 1 ∧
    (pktTag (packet 2 0 2) 1).2.1 = 1 ∧ (pktTag (packet 2 0 2) 1).2.2.1 = 0 ∧ destAt (coll true [block]) 0 0 1 = some 1 ∧
    bits (mget s.pdtest 1 0#64).toNat 32 32 = 0 := by
  unfold Arrives; decide +kernel

/-- A reduction of two operands, of which one is held already, or none. -/
def reducing (held : List Staged) : State := collecting { coll true [block, block2] with entry := binding - 2#512, staged := held } [] []

theorem witness_CollectiveSteps_places : bindKind (coll true [block]).entry = 2 ∧
    (vaWrite 0#16 stepping_ 0x20000#64 [5#8]).isSome = true ∧ (vaWrite 0#16 stepping_ 0x40000000#64 [5#8]).isNone = true ∧
    bindKind (binding - 2#512) = 0 ∧ stagedOf { coll true [block, block2] with entry := binding - 2#512 } 1 0 0 = none := by
  decide +kernel

theorem witness_CollectiveSteps_held :
    ((getColl (stageBlock (reducing []) 9 0 0 1 []) 9).map (fun y => (stagedOf y 1 0 0, stagedOf y 1 1 0))) = some (some [], none) := by
  decide +kernel

/-- The last operand: of a format of half a byte, so that the result is no byte and its write stays small. -/
theorem witness_CollectiveSteps_reduced :
    let e : BitVec 512 := binding - 2#512 + 11 * 2 ^ 16
    let s := collecting { coll true [block, block2] with
      entry := e, staged := [{ dest := 1, rank := 1, block := 0, data := [], room := false }] } [] []
    let u := stageBlock s 9 0 0 1 []
    bindKind e = 0 ∧ (getColl u 9).map (fun y => (stagedOf y 1 0 0, stagedOf y 1 1 0)) = some (some [], some []) ∧
      (vaWrite 0#16 (dropStaged u 9 (fun x => x.dest == 1 && x.block == 0)) (dstVa e 2 1 0) (reduceBlocks e [[], []])).isSome = true := by
  decide +kernel

/-- A header whose SRCP is reserved. -/
theorem witness_CollectiveSteps_header : pktOk (pktOfBytes (3#8 :: 24#8 :: copies 62 0#8)) = false ∧
    24 ≤ pktField (pktOfBytes (3#8 :: 24#8 :: copies 62 0#8)) 12 8 := by decide +kernel

/-- A bed of a protected launch before a store, at 4000H. -/
def guarded : State :=
  let code := wordBytes (encodeWord (.st 4#7 2#7 2#2 0#5))
  recorded (2 ^ 111) { run cur base with mem := bytes ((below 4).map (fun k => (0x4000 + k, lget code k 0#8))) plain.mem }

theorem witness_Traps_shadow : shadowAt guarded 0 base 0x4000#64 (runMask base) = true ∧ shadowAt (run cur base) 0 base 0x4000#64 (runMask base) = false := by
  decide +kernel

/-- The lane that waits for the second word of an EXT pair. -/
theorem witness_PageFaults_second : lget base.pcs 0 0#64 = 0x4004#64 - 4#64 ∧
    (∀ i, i < 32 → bit (runMask base) i = true → lget base.pcs i 0#64 ≠ 0x4004#64) ∧ hostOpen ticketed = false ∧
    hostOpen { ticketed with mgmt := { plain.mgmt with mailboxOnly := false } } = true := by
  decide +kernel

/-- A logged store that runs now, one that faults again, and a logged load with its pending operation. -/
def retriedLog (e : LogEnt) (long : List LongOp) : State := run cur { logging e with long := long }

/-- Its entry: an access of lane 0 to 5000H. -/
def logged5000 (op : AccOp) (id : Option Nat) : LogEnt := { logged 1#32 none with acc := word op [[7#32]], op := id }

theorem witness_PageFaults_retries :
    (let s := retriedLog (logged5000 .store none) []
     let g := logAccess s 0 0 0 0#16 (logged5000 .store none) 1#32
     accLanes (logged5000 .store none).acc 1#32 = 1#32 ∧ (g.violated ||| g.faulted) = 0#32 ∧ g.hole = false) ∧
    (let s := { retriedLog (logged5000 (.load false) (some 7)) [owed false none] with mem := setByte plain.mem 0x2000 0x7F#8 }
     let g := logAccess s 0 0 0 0#16 (logged5000 (.load false) (some 7)) 1#32
     (g.violated ||| g.faulted) = 0#32 ∧ g.hole = false ∧ (getSheaf g.st 0 0).any (fun x => x.long == [owed false none]) = true ∧
       (owed false none).id = 7 ∧ isResident s 0 = true) ∧
    (let e := { logged 1#32 none with acc := { word .store [[7#32]] with addrs := [0x40000000#64] } }
     let g := logAccess (retriedLog e []) 0 0 0 0#16 e 1#32
     g.violated = 0#32 ∧ g.faulted ≠ 0#32 ∧ (getSheaf g.st 0 0).isSome = true) ∧
    lockLane (retriedLog (logged5000 .store none) []) 0 true 0 0#16 4 (fun n => (lget [0x5000#64] n 0#64).toNat) [0] = none := by
  decide +kernel

/-- What a debugger wrote for rejoin register 3; a register with a mate in its line, both absent. -/
def mated : Sheaf := { base with v := [(5, { vr 7#32 0#32 .absent with row := 9 }), (6, { vr 7#32 0#32 .absent with row := 9 })] }

theorem witness_LinesAndDebugger_rejoin :
    { base with flushed := [(2 * (128 + 3), 1#32), (2 * (128 + 3) + 1, 0#32)] }.flushed = [(2 * (128 + 3), 1#32), (2 * (128 + 3) + 1, 0#32)] ∧
    (vreg mated 5).line = .absent ∧ 5 < mated.place.budget ∧ absentMates mated 5 = [5, 6] ∧ (vreg mated 5).row ≠ 0 := by
  decide +kernel

/-- A fire whose index does not fit 32 bits. -/
theorem witness_BedLife_wide : (getCore (waves 1 [] [.fire 0 0 (2 ^ 32) 0] []) 0).gate = [.fire 0 0 (2 ^ 32) 0] := by decide +kernel

/-- A launch for die 0 that needs a matrix engine: that of core 0 is held by a bed of a launch five levels above, and the die's
other cores are quarantined. -/
def preempting : State :=
  { pooled_ .resident with
    launches := [(0, { placedLaunch with record := BitVec.ofNat 2048 (placedRecord.toNat + 2 ^ 110 - 14 * 2 ^ 352), stage := .placing, nextBed := 0 }),
                 (1, { placedLaunch with level := 5 })],
    beds := [(0, { placedBed with launch := 1, sheaves := [(0, base)], image := some 0x100000 })],
    cores := (below 64).map (fun k => (k, if k = 0 then { Core.reset with claim := some 0 } else { Core.reset with margin := { Margin.reset with quar := true } })) }

theorem witness_LaunchLife_victim : (getLaunch preempting 0).any (fun l => l.stage == .placing && hasTurn preempting l &&
    (placeNext preempting 0 l).isNone && pinsReadable preempting l && chooseVictim preempting 0 l == some (1, 0)) = true ∧
    (lowestBed (groupOn preempting 1 0)).isSome = true ∧ cbarOk 0x5000#64 = true ∧ refSpace 0x5000#64 ≠ 2 := by
  decide +kernel

/-- A VF whose word names address space 0. -/
def owned : State :=
  { opened with
    mem := bytes [(0x9006, 1#8)] opened.mem,
    hostIf := { opened.hostIf with fntab := 0x9000#64, fns := [(1, { HostFn.reset with word := 0x10000#32, mse := true })] } }

theorem witness_HostInterface_window : hostOpen owned = true ∧ functionWord owned 1 = (getFn owned 1).word ∧ (getFn owned 1).mse = true ∧
    (functionWord owned 1).getLsbD 16 = true ∧ (vaWrite 0#16 owned 0x5000#64 [1#8, 2#8]).isSome = true ∧
    (vaRead owned 0#16 2 0x5000#64).isSome = true ∧ vaRead owned 0#16 2 0x40000000#64 = none ∧
    vaWrite 0#16 owned 0x40000000#64 [1#8, 2#8] = none ∧ (getFn opened 1).mse = false := by
  decide +kernel

/-- A TMM that has replayed RLIM times; a core whose bed has an image. -/
theorem witness_MarginOperation_traps :
    (let s := { sequenced 0 false with cores := [(0, { Core.reset with claim := some 0, tmm := some { running 0 with replays := 3, late := 1 } })] }
     runningTmm s 0 0 = some { running 0 with replays := 3, late := 1 } ∧ (getCore s 0).margin.rlim.toNat ≤ 3 ∧
       (getSheaf s 0 0).any (fun sh => !sheafEnded sh) = true) ∧
    (∀ x ∈ (pooled_ .resident).beds, x.2.image.isSome = true ∧ (getLaunch (pooled_ .resident) x.2.launch).isSome = true) ∧
    (getCore (pooled_ .resident) 0).margin.quar = false ∧ (getBed (pooled_ .resident) 0).any (fun b => b.stage == .resident && b.core == 0) = true := by
  decide +kernel

/-! ## Witnesses: the whole machine -/

/-- No thread is on. -/
def off : Sheaf := { base with on := 0#32 }

theorem witness_MaskedOff : Issues (run cur off) cur off ∧ exm cur off = 0#32 ∧ (Instr.add .lane 1#7 2#7 3#7).wf = true ∧
    unmasked (.add .lane 1#7 2#7 3#7) = false := ⟨⟨rfl, rfl⟩, by decide, by decide, rfl⟩

/-- A budget of 16 registers. -/
def small : Sheaf := { base with place := { base.place with budget := 16 } }

theorem witness_DecodeAndBudgetTraps : Issues (run cur small) cur small ∧ Active cur small ∧ (src cur small).handler = false ∧
    IsFirst (activeMask (exm cur small) (beyond cur small [1, 16, 2])) 0 ∧ Issues (run cur base) cur base ∧ base.handler = false ∧
    (Instr.ld 4#7 2#7 2#2 3#5 0#4).wf = true :=
  ⟨⟨rfl, rfl⟩, by unfold Active; decide, rfl, by unfold IsFirst; decide, ⟨rfl, rfl⟩, rfl, by decide⟩

theorem witness_RoundTrips : (Instr.ffma .lane 1#7 2#7 3#7).wf = true ∧ (Instr.ffma .lane 1#7 2#7 3#7).nearWf = true ∧
    decodeWord 0x18041033#32 0#32 = .ok (.ffma .lane 1#7 2#7 3#7) := by decide

/-- A NOP placed where the next step fetches it, after reset. -/
def nop : State := State.reset.withFetchWord 32 0x6A000002

/-- The state in which its slot picks, and the pick. -/
def nop0 : State := reloadCredits nop 0 0 (slotCands nop 0 0)

theorem inject_off (s : State) (core class_ : Nat) (h : (getCore s core).margin.inj0 = 0#32 ∧ (getCore s core).margin.inj1 = 0#32) :
    inject s core class_ = (s, 0) := by
  simp [inject, injectOne, h.1, h.2, bits]

theorem witness_StepRunsDecoded : nextAct nop = some (.issue 0 0) ∧ againKey nop 0 0 = none ∧ mfind (getCore nop 0).lateNext 0 = none ∧
    (∃ k, pickSheaf nop0 (slotCands nop0 0 0) = some k ∧ (∃ g, k.ready = .groups [g] ∧ breakAt k.sh g.cur.pc = none ∧ g.ins = some .nop ∧
      g.got = .word 0x6A000002#32 0#32 4 ∧ inject (picked nop0 0 0 (slotCands nop0 0 0) k) 0 g.cls = (picked nop0 0 0 (slotCands nop0 0 0) k, 0)) ∧
      (getSheaf (picked nop0 0 0 (slotCands nop0 0 0) k) k.bed k.sheaf).isSome = true) ∧ mayWait .nop = false := by
  have h : (pickSheaf nop0 (slotCands nop0 0 0)).any (fun k => (match k.ready with
    | .groups [g] => (breakAt k.sh g.cur.pc == none) && g.ins == some .nop && g.got == .word 0x6A000002#32 0#32 4 &&
        decide ((getCore (picked nop0 0 0 (slotCands nop0 0 0) k) 0).margin.inj0 = 0#32 ∧
          (getCore (picked nop0 0 0 (slotCands nop0 0 0) k) 0).margin.inj1 = 0#32)
    | _ => false) && (getSheaf (picked nop0 0 0 (slotCands nop0 0 0) k) k.bed k.sheaf).isSome) = true := by decide +kernel
  refine ⟨by decide +kernel, by decide +kernel, by decide +kernel, ?_, rfl⟩
  obtain ⟨k, hk, hp⟩ := Option.any_eq_true .. |>.mp h
  rw [Bool.and_eq_true] at hp
  refine ⟨k, hk, ?_, hp.2⟩
  have hp := hp.1
  split at hp
  · rename_i g hg
    simp only [Bool.and_eq_true, beq_iff_eq, decide_eq_true_eq] at hp
    exact ⟨g, hg, hp.1.1.1, hp.1.1.2, hp.1.2, inject_off _ _ _ hp.2⟩
  · cases hp

/-- A WEND of a bank engine, placed in the same way; and a package in which nothing acts. -/
theorem witness_StepRunsDecoded_pair :
    nextAct (State.reset.withFetchWord 32 (encodeWord .wend).toNat) = some (.pair { engine := 0, ctx := 0, math := false }) ∧
    candidates (quiet State.reset) = [] := by
  decide +kernel

theorem witness_ResetAndSteps : memoryCanonical State.reset ∧ atRest State.reset ∧ (∃ t, step (quiet State.reset) = .next t) := by
  refine ⟨show mcanon 0#8 State.reset.mem = true by decide, rfl, quiet State.reset, ?_⟩
  have h : nextAct (quiet State.reset) = none := by decide +kernel
  simp only [step, h]

/-! ## Decoding: words that the spec writes out -/

/-- The instruction that a word in memory stands for on a core. -/
def reads (w : Word) : Option Instr :=
  match decodeBytes (wordBytes w) with
  | some (.ok i, []) => some i
  | _ => none

theorem test_decode_integer : reads 0x00000000#32 = some (.add .lane 0#7 0#7 0#7) ∧ reads 0x04202001#32 = some (.addi .lane 8#7 4#7 1#11) ∧
    reads 0x2C143072#32 = some (.div .lane 5#7 6#7 7#7 2#4) ∧ reads 0x2A143070#32 = some (.dp4a 5#7 6#7 7#7) ∧
    reads 0x9E242883#32 = some (.mnth 9#7 5#7 8#7) := by decide +kernel

theorem test_decode_control : reads 0x6A000002#32 = some .nop ∧ reads 0x6A002804#32 = some (.pred 5#7) ∧
    reads 0x6A0C0006#32 = some (.setj 3#4) ∧ reads 0x60100004#32 = some (.br 4#7 4#18) ∧
    reads 0x65FFFFFC#32 = some (.bra (BitVec.ofInt 25 (-4))) ∧ reads 0x6C000002#32 = some (.wbase 2#5) := by decide +kernel

theorem test_decode_float : reads 0x18041033#32 = some (.ffma .lane 1#7 2#7 3#7) ∧
    reads 0x1C143181#32 = some (.cvt .lane 5#7 6#7 3#4 0#4 0#2 1#1) ∧ reads 0x20103080#32 = some (.dadd 4#7 6#7 8#7) ∧
    reads 0x22444801#32 = some (.lg2 17#7 9#7) ∧ reads 0x22102007#32 = some (.tanh 4#7 4#7) := by decide +kernel

theorem test_decode_lanes : reads 0x24404181#32 = some (.shflx 16#7 8#7 24#7) ∧ reads 0x28181004#32 = some (.sort32 6#7 2#7) ∧
    reads 0x28303086#32 = some (.mergek 12#7 6#7 8#7) ∧ reads 0x26481001#32 = some (.redfadd 18#7 2#7) ∧
    reads 0x284C0800#32 = some (.argmax 19#7 1#7) ∧ reads 0x284010B5#32 = some (.topk 16#7 2#7 11#7) := by decide +kernel

theorem test_decode_memory : reads 0x34282222#32 = some (.ld 10#7 4#7 1#2 2#5 2#4) ∧ reads 0x3E1C1C30#32 = some (.sts 7#7 3#7 2#2 3#5) ∧
    reads 0xB660A450#32 = some (.stu 24#7 20#7 2#2 5#5) ∧ reads 0x3A502000#32 = some (.stq 20#7 4#7 0#5) ∧
    reads 0xCC000015#32 = some (.fence .group 5#3 1#2) ∧ reads 0xC71E4400#32 = some (.atom .group 71#7 72#7 2#2 0#5 0#4) := by
  decide +kernel

theorem test_decode_units : reads 0x500820A0#32 = some (.qmm 2#3 4#7 10#7 0#4) ∧ reads 0x58080002#32 = some (.mzero 2#3) ∧
    reads 0x58401000#32 = some (.mread 16#7 2#3) ∧ reads 0x541010A0#32 = some (.mvt 4#7 2#7 10#7 0#4) ∧
    reads 0xE4000001#32 = some .mtokPass ∧ reads 0xE8280000#32 = some (.tnext 10#7) ∧
    reads 0xD1114400#32 = some (.copy 68#7 40#7 64#7 0#4) ∧ reads 0xDF1A1450#32 = some (.waitb 70#7 66#7 69#7) ∧
    reads 0xDCAD42A1#32 = some (.barrive 43#7 40#7 42#7) := by decide +kernel

theorem test_decode_memory_side : reads 0x56201060#32 = some (.nmcall 8#7 2#7 6#7) ∧ reads 0xD600A160#32 = some (.nmsearch 20#7 22#7) ∧
    reads 0xDA002050#32 = some (.collfire 4#7 5#7) ∧ reads 0xD8992250#32 = some (.nmcommit 38#7 36#7 37#7 0#4) ∧
    reads 0xEE240041#32 = some (.srd .group 9#7 0x041#10) ∧ reads 0xEE001440#32 = some (.swr .group 2#7 0x40#10) := by decide +kernel

/-- Why a core, or a bank engine, refuses a word. -/
def refusal (near_ : Bool) (w : Word) : Option DecodeError :=
  match if near_ then decodeNear w else decodeWord w 0#32 with
  | .error e => some e
  | .ok _ => none

/-- The instruction that a bank engine reads. -/
def readsNear (w : Word) : Option Instr :=
  match decodeNear w with
  | .ok i => some i
  | .error _ => none

/-- A reserved major, a field that shall be zero, half a word. -/
theorem test_decode_reserved : refusal false 0x7E000000#32 = some .reservedMajor ∧ refusal false 0x6A400002#32 = some .mustBeZero ∧
    (decodeBytes [0#8, 0#8]).isNone = true := by decide +kernel

/-- Near words: legal on an engine, illegal on a core; and a word of the core only. -/
theorem test_decode_near : readsNear (encodeWord (.ldb 4#7 2#7 2#2 1#5)) = some (.ldb 4#7 2#7 2#2 1#5) ∧
    refusal false (encodeWord (.ldb 4#7 2#7 2#2 1#5)) = some .nearOnly ∧ refusal true 0x500820A0#32 = some .notNear ∧
    readsNear 0x18041033#32 = some (.ffma .lane 1#7 2#7 3#7) := by decide +kernel

/-! ## The cipher of Amsan links -/

/-- The AES-256 example of FIPS 197, appendix C.3. -/
theorem test_aes : aesBlock (aesKeys ((below 32).map (BitVec.ofNat 8))) ((below 16).map (fun k => BitVec.ofNat 8 (17 * k))) =
    natBe 16 0x8ea2b7ca516745bfeafc49904b496089 := by decide +kernel

/-! ## Ill-formed instructions -/

/-- One instruction that each check of WellFormed refuses: registers of pairs, quads and sixteens, format codes, kinds, sizes, windows,
handler rows, events. -/
theorem test_illformed : [Instr.dadd 3#7 6#7 8#7, .ld 11#7 4#7 1#2 2#5 2#4, .ld 10#7 4#7 2#2 2#5 2#4, .ld 10#7 4#7 3#2 2#5 2#4,
    .mread 17#7 2#3, .cvt .lane 5#7 6#7 14#4 0#4 0#2 0#1, .cvt .lane 5#7 6#7 15#4 0#4 0#2 0#1, .wbase 25#5, .tileWake 0 0,
    .ldb 0#7 0#7 0#2 0#5].all (fun i => !i.wf) = true := by decide +kernel

/-- The same of a bank engine's checks: register numbers, queue words, words that it has not. -/
theorem test_illformed_near : [Instr.add .group 32#7 0#7 0#7, .add .lane 16#7 0#7 0#7, .nearQpush 1#7 0#1 0#1, .qmm 2#3 4#7 10#7 0#4].all
    (fun i => !i.nearWf) = true := by decide +kernel

end Sys2Proof.Tests
end

section
/-! PROOFS. Instructions that act on the whole control set (R12, R21, R203 to R205, R212). -/

namespace Sys2Proof.Proofs

open Sys2Proof Sys2Proof.Machine Sys2Proof.Claim

/-! ## How an instruction that leaves a sheaf and moves on answers -/

/-- An instruction whose answer is to leave a sheaf and move on. -/
theorem becomes_of_done {i : Instr} {s : State} {c : Cur} {sh' : Sheaf} (h : exec i s = done s c sh') : Becomes i s c sh' :=
  ⟨_, h, movesOn_done s c sh'⟩

theorem bit_mergeMask (old m res : Mask) {i : Nat} (hi : i < 32) :
    bit (mergeMask old m res) i = if bit m i then bit res i else bit old i := by
  unfold mergeMask
  rw [bit_or, bit_and, bit_and, bit_not m hi]
  cases bit m i <;> simp

/-! ## Rejoin registers -/

theorem jE_setJ (sh : Sheaf) (k j : Nat) (e a : Word) : jE (setJ sh k e a) j = if j = k then e else jE sh j := mget_mput ..

theorem jA_setJ (sh : Sheaf) (k j : Nat) (e a : Word) : jA (setJ sh k e a) j = if j = k then a else jA sh j := mget_mput ..

/-- A rejoin register that is set holds what was set, and no other changes. -/
theorem joinHolds_setJ (sh : Sheaf) (k : BitVec 4) (e a : Word) : JoinHolds sh (setJ sh k.toNat e a) k e a :=
  ⟨by simp [jE_setJ, jA_setJ], fun j hj => by simp [jE_setJ, jA_setJ, hj]⟩

theorem setJ_only (sh : Sheaf) (k : Nat) (e a : Word) :
    setJ sh k e a = { sh with je := (setJ sh k e a).je, ja := (setJ sh k e a).ja } := rfl

/-! ## Traps of the issuing instruction in normal mode -/

/-- In normal mode a trap writes its record and nothing else happens before it is taken. -/
theorem trapWith_normal {s : State} {c : Cur} {sh : Sheaf} (h : sh.handler = false) (t : LateTrap) (resume : DWord) (keep : Bool) :
    trapWith s c sh t resume keep =
      .next (takeTrap s c.bed c.sheaf (trapRecord sh t c.pc resume c.ctl c.inst0 c.inst1 true keep false)) := by
  simp [trapWith, curRecord, h]

theorem trapsWith_of_detail {i : Instr} {s : State} {c : Cur} {sh : Sheaf} {cause n : Nat} {resume : DWord} (h : sh.handler = false)
    (he : exec i s = trapWith s c sh (detailTrap cause n) resume false) : TrapsWith i s c sh cause n resume := by
  rw [TrapsWith, he, trapWith_normal h]
  rfl

theorem trapsWith_of_plain {i : Instr} {s : State} {c : Cur} {sh : Sheaf} {cause : Nat} (h : sh.handler = false)
    (he : exec i s = trap s c sh (plainTrap cause)) : TrapsWith i s c sh cause 0 c.pc := by
  rw [TrapsWith, he, trap, trapWith_normal h]
  rfl

theorem trapsPoison_of_use {i : Instr} {s : State} {c : Cur} {sh : Sheaf} {m : Mask} (h : sh.handler = false)
    (he : exec i s = poisonUse s c sh m) : TrapsPoison i s c sh m := by
  rw [TrapsPoison, he, poisonUse, trap, trapWith_normal h]
  rfl

/-! ## Window bases -/

/-- The windows of the control set move where every new base is one of 0 to 24 (R212). -/
theorem setWindows_moves {s : State} {c : Cur} {sh : Sheaf} (hi : Issues s c sh) (f : Nat → Int)
    (h : ∀ i, i < 32 → bit c.ctl i = true → 0 ≤ f (lget sh.wb i 0) ∧ f (lget sh.wb i 0) ≤ 24) :
    setWindows s f =
      done s c { sh with wb := lanes.map (fun i => if bit c.ctl i then (f (lget sh.wb i 0)).toNat else lget sh.wb i 0) } := by
  unfold setWindows
  rw [onSheaf_issues hi]
  dsimp only
  rw [lowest_none]
  intro i hlt
  rw [bit_maskOf _ hlt]
  cases hb : bit c.ctl i
  · rfl
  · have := h i hlt hb
    simp
    omega

section ControlWords

variable {s : State} {c : Cur} {sh : Sheaf}

theorem nop_becomes (hi : Issues s c sh) : Becomes .nop s c sh :=
  becomes_of_done (by rw [exec_nop, execNop, onSheaf_issues hi])

theorem pred_becomes (hi : Issues s c sh) (m : BitVec 7) (h : rdGP s c sh (rn m) = false ∨ c.ctl = 0#32) :
    Becomes (.pred m) s c { sh with on := mergeMask sh.on c.ctl (rdG s c sh (rn m)) } := by
  refine becomes_of_done ?_
  rw [exec_pred, execPred, onSheaf_issues hi, if_neg]
  rintro ⟨h1, h2⟩
  rcases h with h | h
  · simp [h] at h2
  · exact h1 h

theorem unpred_becomes (hi : Issues s c sh) : Becomes .unpred s c { sh with on := sh.on ||| c.ctl } :=
  becomes_of_done (by rw [exec_unpred, execUnpred, onSheaf_issues hi])

theorem setj_becomes (hi : Issues s c sh) (k : BitVec 4) (h : jE sh k.toNat = 0#32) :
    Becomes (.setj k) s c (setJ sh k.toNat c.ctl 0#32) :=
  becomes_of_done (by rw [exec_setj, execSetj, onSheaf_issues hi, if_neg (by simp [h])])

theorem region_becomes (hi : Issues s c sh) :
    Becomes .region s c { sh with
      regionPc := lanes.map (fun i => if bit c.ctl i then c.pc else lget sh.regionPc i 0#64),
      regionCnt := sh.regionCnt + 1#32 } :=
  becomes_of_done (by rw [exec_region, execRegion, onSheaf_issues hi])

theorem wbase_becomes (hi : Issues s c sh) (w : BitVec 5) (h : w.toNat ≤ 24) :
    Becomes (.wbase w) s c { sh with wb := lanes.map (fun i => if bit c.ctl i then w.toNat else lget sh.wb i 0) } :=
  becomes_of_done (by
    rw [exec_wbase, execWbase, setWindows_moves hi (fun _ => (w.toNat : Int)) (fun _ _ _ => by omega)]
    rfl)

theorem wbaseRel_becomes (hi : Issues s c sh) (r : BitVec 6)
    (h : ∀ i, i < 32 → bit c.ctl i = true → 0 ≤ ((lget sh.wb i 0 : Nat) : Int) + r.toInt ∧ ((lget sh.wb i 0 : Nat) : Int) + r.toInt ≤ 24) :
    Becomes (.wbaseRel r) s c
      { sh with wb := lanes.map (fun i => if bit c.ctl i then (((lget sh.wb i 0 : Nat) : Int) + r.toInt).toNat else lget sh.wb i 0) } :=
  becomes_of_done (by rw [exec_wbaseRel, execWbaseRel, setWindows_moves hi _ h])

theorem bkpt_traps (hi : Issues s c sh) (hn : sh.handler = false) : TrapsWith .bkpt s c sh 16 0 c.pc :=
  trapsWith_of_plain hn (by rw [exec_bkpt, execBkpt, onSheaf_issues hi])

theorem trap_traps (hi : Issues s c sh) (hn : sh.handler = false) (n : BitVec 7) :
    TrapsWith (.trap n) s c sh 15 n.toNat (c.pc + BitVec.ofNat 64 c.len) :=
  trapsWith_of_detail hn (by rw [exec_trap, execTrap, onSheaf_issues hi])

theorem setj_overflows (hi : Issues s c sh) (hn : sh.handler = false) (k : BitVec 4) (h : jE sh k.toNat ≠ 0#32) :
    TrapsWith (.setj k) s c sh 13 k.toNat c.pc :=
  trapsWith_of_detail hn (by rw [exec_setj, execSetj, onSheaf_issues hi, if_pos h]; rfl)

theorem hret_privileged (hi : Issues s c sh) (hn : sh.handler = false) : TrapsWith .hret s c sh 2 0 c.pc :=
  trapsWith_of_plain hn (by rw [exec_hret, execHret, onSheaf_issues hi, hn]; rfl)

theorem pred_usesPoison (hi : Issues s c sh) (hn : sh.handler = false) (m : BitVec 7) (hp : rdGP s c sh (rn m) = true) (hc : c.ctl ≠ 0#32) :
    TrapsPoison (.pred m) s c sh c.ctl :=
  trapsPoison_of_use hn (by rw [exec_pred, execPred, onSheaf_issues hi, if_pos ⟨hc, hp⟩])

end ControlWords

/-- Settles O25: each control word leaves one sheaf and moves on, or traps; what it leaves is read bit by bit and lane by lane. -/
theorem controlWords : Obligations.ControlWords := by
  intro m n k w r s c sh hi
  refine ⟨nop_becomes hi, fun h => ⟨_, pred_becomes hi m h, fun i hlt => bit_mergeMask _ _ _ hlt⟩,
    ⟨_, unpred_becomes hi, fun i _ => by rw [bit_or, Bool.or_comm]⟩,
    fun h => ⟨_, setj_becomes hi k h, setJ_only .., joinHolds_setJ ..⟩,
    ⟨_, region_becomes hi, fun i hlt => lget_lanes_map _ hlt _⟩,
    fun h => ⟨_, wbase_becomes hi w h, fun i hlt => lget_lanes_map _ hlt _⟩,
    fun h => ⟨_, wbaseRel_becomes hi r h, fun i hlt => ?_⟩,
    fun hn => ⟨bkpt_traps hi hn, trap_traps hi hn n, setj_overflows hi hn k, hret_privileged hi hn, pred_usesPoison hi hn m⟩⟩
  rw [lget_lanes_map _ hlt]
  split
  · exact Int.toNat_of_nonneg (h i hlt ‹_›).1
  · rfl

end Sys2Proof.Proofs
end

section
/-! PROOFS. Where no thread is switched on, an instruction only moves on (R11, R14). -/

namespace Sys2Proof.Proofs

open Sys2Proof Sys2Proof.Machine Sys2Proof.Claim

section Off

variable {s : State} {c : Cur} {sh : Sheaf}

/-- A form that needs a thread switched on leaves its sheaf as it is where none is. -/
theorem whenActive_off (hi : Issues s c sh) (h0 : exm c sh = 0#32) (k : Cur → Sheaf → Mask → Out) : whenActive s k = done s c sh := by
  rw [whenActive, onSheaf_issues hi, if_pos h0]

theorem laneOp_off (hi : Issues s c sh) (h0 : exm c sh = 0#32) (regs : List Nat) (k : Cur → Sheaf → Mask → Out) :
    laneOp s regs k = done s c sh := whenActive_off hi h0 _

theorem groupOp_off (hi : Issues s c sh) (h0 : exm c sh = 0#32) (k : Cur → Sheaf → Mask → Out) : groupOp s k = done s c sh :=
  whenActive_off hi h0 _

/-! The shared operations are such forms. -/

theorem laneForm3_off (hi : Issues s c sh) (h0 : exm c sh = 0#32) (d a b : BitVec 7) (readsD : Bool) (form : Form → Form → Form → Form) : laneForm3 s d a b readsD form = done s c sh :=
  laneOp_off hi h0 ..

theorem groupForm1_off (hi : Issues s c sh) (h0 : exm c sh = 0#32) (d a : BitVec 7) (f : Word → Word) : groupForm1 s d a f = done s c sh :=
  groupOp_off hi h0 ..

theorem groupForm3_off (hi : Issues s c sh) (h0 : exm c sh = 0#32) (d a b : BitVec 7) (readsD : Bool) (f : Word → Word → Word → Word) : groupForm3 s d a b readsD f = done s c sh :=
  groupOp_off hi h0 ..

theorem testedLane_off (hi : Issues s c sh) (h0 : exm c sh = 0#32) (d a b : BitVec 7) (readsD : Bool) (f : Word → Word → Word → Word) (test : Word → Word → Word → Bool × Bool) : testedLane s d a b readsD f test = done s c sh :=
  laneOp_off hi h0 ..

theorem haluReg_off (hi : Issues s c sh) (h0 : exm c sh = 0#32) (f : Fmt) (op : FOp) (d a b : BitVec 7) : haluReg f op d a b s = done s c sh :=
  testedLane_off hi h0 ..

theorem daluReg_off (hi : Issues s c sh) (h0 : exm c sh = 0#32) (op : FOp) (d a b : BitVec 7) : daluReg op d a b s = done s c sh :=
  laneOp_off hi h0 ..

theorem sfuReg_off (hi : Issues s c sh) (h0 : exm c sh = 0#32) (g : Word → Word) (test : Word → Bool × Bool) (d a : BitVec 7) : sfuReg g test d a s = done s c sh :=
  laneOp_off hi h0 ..

theorem crossLane_off (hi : Issues s c sh) (h0 : exm c sh = 0#32) (d a b : BitVec 7) (pick : (Nat → Word) → Mask → Nat → Nat × Nat) : crossLane d a b pick s = done s c sh :=
  whenActive_off hi h0 ..

theorem reduce_off (hi : Issues s c sh) (h0 : exm c sh = 0#32) (scan tested : Bool) (f : List Word → Word) (d a : BitVec 7) : reduce scan tested f d a s = done s c sh :=
  laneOp_off hi h0 ..

theorem argOp_off (hi : Issues s c sh) (h0 : exm c sh = 0#32) (float most : Bool) (rank : Word → Nat) (d a : BitVec 7) : argOp float most rank d a s = done s c sh :=
  laneOp_off hi h0 ..

theorem dotIntReg_off (hi : Issues s c sh) (h0 : exm c sh = 0#32) (signed : Bool) (d a b : BitVec 7) : dotIntReg signed d a b s = done s c sh :=
  laneOp_off hi h0 ..

theorem dotReg_off (hi : Issues s c sh) (h0 : exm c sh = 0#32) (f : Fmt) (n : Nat) (d a b : BitVec 7) : dotReg f n d a b s = done s c sh :=
  laneOp_off hi h0 ..

theorem globalLoad_off (hi : Issues s c sh) (h0 : exm c sh = 0#32) (d a : BitVec 7) (size : Nat) (signed : Bool) (idx : DWord) (la : Nat) (how : Access → Access) : globalLoad d a size signed idx la how s = done s c sh :=
  laneOp_off hi h0 ..

theorem loadOp_off (hi : Issues s c sh) (h0 : exm c sh = 0#32) (d a : BitVec 7) (m : BitVec 2) (idx : DWord) (l : BitVec 4) : loadOp d a m idx l s = done s c sh :=
  globalLoad_off hi h0 ..

theorem loadNarrowOp_off (hi : Issues s c sh) (h0 : exm c sh = 0#32) (d a : BitVec 7) (m : BitVec 2) (idx : DWord) (l : BitVec 4) : loadNarrowOp d a m idx l s = done s c sh :=
  globalLoad_off hi h0 ..

theorem globalStore_off (hi : Issues s c sh) (h0 : exm c sh = 0#32) (d a : BitVec 7) (size : Nat) (idx : DWord) (how : Access → Access) : globalStore d a size idx how s = done s c sh :=
  laneOp_off hi h0 ..

theorem storeOp_off (hi : Issues s c sh) (h0 : exm c sh = 0#32) (d a : BitVec 7) (m : BitVec 2) (idx : DWord) : storeOp d a m idx s = done s c sh :=
  globalStore_off hi h0 ..

theorem storeQuadOp_off (hi : Issues s c sh) (h0 : exm c sh = 0#32) (d a : BitVec 7) (idx : DWord) : storeQuadOp d a idx s = done s c sh :=
  globalStore_off hi h0 ..

theorem scratchLoadOp_off (hi : Issues s c sh) (h0 : exm c sh = 0#32) (d a : BitVec 7) (m : BitVec 2) (idx : DWord) (l : BitVec 4) : scratchLoadOp d a m idx l s = done s c sh :=
  laneOp_off hi h0 ..

theorem scratchStoreOp_off (hi : Issues s c sh) (h0 : exm c sh = 0#32) (d a : BitVec 7) (m : BitVec 2) (idx : DWord) : scratchStoreOp d a m idx s = done s c sh :=
  laneOp_off hi h0 ..

theorem constLoadOp_off (hi : Issues s c sh) (h0 : exm c sh = 0#32) (d a : BitVec 7) (m : BitVec 2) (idx : DWord) (l : BitVec 4) : constLoadOp d a m idx l s = done s c sh := by
  simp only [constLoadOp]
  exact whenActive_off hi h0 _

theorem globalAtomic_off (hi : Issues s c sh) (h0 : exm c sh = 0#32) (wide : Bool) (d a : BitVec 7) (m : BitVec 2) (kind : BitVec 5) (l : BitVec 4) : globalAtomic wide d a m kind l s = done s c sh :=
  laneOp_off hi h0 ..

theorem loadTransientOp_off (hi : Issues s c sh) (h0 : exm c sh = 0#32) (d a : BitVec 7) (m : BitVec 2) (idx : DWord) (l : BitVec 4) : loadTransientOp d a m idx l s = done s c sh :=
  globalLoad_off hi h0 ..

theorem groupLoadOp_off (hi : Issues s c sh) (h0 : exm c sh = 0#32) (d a : BitVec 7) (m : BitVec 2) (idx : DWord) (l : BitVec 4) : groupLoadOp d a m idx l s = done s c sh :=
  groupOp_off hi h0 ..

theorem groupStoreOp_off (hi : Issues s c sh) (h0 : exm c sh = 0#32) (d a : BitVec 7) (m : BitVec 2) (idx : DWord) : groupStoreOp d a m idx s = done s c sh :=
  groupOp_off hi h0 ..

theorem groupScratchLoadOp_off (hi : Issues s c sh) (h0 : exm c sh = 0#32) (d a : BitVec 7) (m : BitVec 2) (idx : DWord) (l : BitVec 4) : groupScratchLoadOp d a m idx l s = done s c sh :=
  groupOp_off hi h0 ..

theorem groupScratchStoreOp_off (hi : Issues s c sh) (h0 : exm c sh = 0#32) (d a : BitVec 7) (m : BitVec 2) (idx : DWord) : groupScratchStoreOp d a m idx s = done s c sh :=
  groupOp_off hi h0 ..

theorem quarterOp_off (hi : Issues s c sh) (h0 : exm c sh = 0#32) (sparse : Bool) (t : BitVec 3) (a b : BitVec 7) (l : BitVec 4) : quarterOp sparse t a b l s = done s c sh :=
  laneOp_off hi h0 ..

theorem copyOp_off (hi : Issues s c sh) (h0 : exm c sh = 0#32) (out : Bool) (d a b : BitVec 7) (la : Nat) : copyOp out d a b la s = done s c sh :=
  groupOp_off hi h0 ..

theorem arriveOp_off (hi : Issues s c sh) (h0 : exm c sh = 0#32) (counted : Bool) (d a b : BitVec 7) : arriveOp counted d a b s = done s c sh :=
  groupOp_off hi h0 ..

theorem laneForm1_off (hi : Issues s c sh) (h0 : exm c sh = 0#32) (d a : BitVec 7) (form : Form → Form) :
    laneForm1 s d a form = done s c sh :=
  laneOp_off hi h0 ..

theorem cmpLane_off (hi : Issues s c sh) (h0 : exm c sh = 0#32) (d : BitVec 7) (regs : List Nat) (cond : Cur → Sheaf → Nat → Bool) :
    cmpLane s d regs cond = done s c sh :=
  laneOp_off hi h0 ..

theorem cmpGroup_off (hi : Issues s c sh) (h0 : exm c sh = 0#32) (d : BitVec 7) (regs : List Nat) (cond : Cur → Sheaf → Bool) :
    cmpGroup s d regs cond = done s c sh :=
  groupOp_off hi h0 ..

theorem cvtLane_off (hi : Issues s c sh) (h0 : exm c sh = 0#32) (d a : BitVec 7) (t u : BitVec 4) (r : BitVec 2) (x : BitVec 1) :
    cvtLane d a t u r x s = done s c sh :=
  laneOp_off hi h0 ..

theorem cvtGroup_off (hi : Issues s c sh) (h0 : exm c sh = 0#32) (d a : BitVec 7) (t u : BitVec 4) (r : BitVec 2) (x : BitVec 1) :
    cvtGroup d a t u r x s = done s c sh :=
  groupOp_off hi h0 ..

theorem testedGroup_off (hi : Issues s c sh) (h0 : exm c sh = 0#32) (d a b : BitVec 7) (readsD : Bool) (f : Word → Word → Word → Word)
    (test : Word → Word → Word → Bool × Bool) : testedGroup s d a b readsD f test = done s c sh :=
  groupOp_off hi h0 ..

/-! An operation with a lane form, a group form, and maybe one on an engine: on a core both forms need a thread. -/

theorem aluReg_off (hi : Issues s c sh) (h0 : exm c sh = 0#32) (op : AluOp) (sc : Scope) (d a b : BitVec 7) :
    aluReg op sc d a b s = done s c sh := by
  cases sc with
  | lane =>
    simp only [aluReg, onEngine_issues hi]
    exact laneForm3_off hi h0 ..
  | group =>
    simp only [aluReg, onEngine_issues hi]
    exact groupForm3_off hi h0 ..

theorem aluImm_off (hi : Issues s c sh) (h0 : exm c sh = 0#32) (op : AluOp) (sc : Scope) (d a : BitVec 7) (x : Word) (y : DWord) :
    aluImm op sc d a x y s = done s c sh := by
  cases sc with
  | lane =>
    simp only [aluImm, onEngine_issues hi]
    exact laneForm1_off hi h0 ..
  | group =>
    simp only [aluImm, onEngine_issues hi]
    exact groupForm1_off hi h0 ..

theorem loadImm_off (hi : Issues s c sh) (h0 : exm c sh = 0#32) (sc : Scope) (d : BitVec 7) (x : Word) (y : DWord) :
    loadImm sc d x y s = done s c sh := by
  cases sc with
  | lane =>
    simp only [loadImm, onEngine_issues hi]
    exact laneOp_off hi h0 ..
  | group =>
    simp only [loadImm, onEngine_issues hi]
    exact groupOp_off hi h0 ..

theorem cmpReg_off (hi : Issues s c sh) (h0 : exm c sh = 0#32) (sc : Scope) (d a b : BitVec 7) (k : BitVec 4) :
    cmpReg sc d a b k s = done s c sh := by
  cases sc with
  | lane =>
    simp only [cmpReg, onEngine_issues hi]
    exact cmpLane_off hi h0 ..
  | group =>
    simp only [cmpReg, onEngine_issues hi]
    exact cmpGroup_off hi h0 ..

theorem cmpImm_off (hi : Issues s c sh) (h0 : exm c sh = 0#32) (sc : Scope) (d a : BitVec 7) (k : BitVec 4) (i : BitVec 7) :
    cmpImm sc d a k i s = done s c sh := by
  cases sc with
  | lane => exact cmpLane_off hi h0 ..
  | group => exact cmpGroup_off hi h0 ..

theorem divReg_off (hi : Issues s c sh) (h0 : exm c sh = 0#32) (op : DivOp) (sc : Scope) (d a b : BitVec 7) (l : BitVec 4) :
    divReg op sc d a b l s = done s c sh := by
  cases sc with
  | lane =>
    simp only [divReg, onEngine_issues hi]
    exact laneOp_off hi h0 ..
  | group =>
    simp only [divReg, onEngine_issues hi]
    exact groupOp_off hi h0 ..

theorem mov_off (hi : Issues s c sh) (h0 : exm c sh = 0#32) (sc : Scope) (d a : BitVec 7) :
    execMov sc d a s = done s c sh := by
  cases sc with
  | lane =>
    simp only [execMov]
    exact laneForm1_off hi h0 ..
  | group =>
    simp only [execMov]
    exact groupForm1_off hi h0 ..

theorem faluReg_off (hi : Issues s c sh) (h0 : exm c sh = 0#32) (op : FOp) (sc : Scope) (d a b : BitVec 7) :
    faluReg op sc d a b s = done s c sh := by
  cases sc with
  | lane =>
    simp only [faluReg, onEngine_issues hi]
    exact testedLane_off hi h0 ..
  | group =>
    simp only [faluReg, onEngine_issues hi]
    exact testedGroup_off hi h0 ..

theorem faluBits_off (hi : Issues s c sh) (h0 : exm c sh = 0#32) (f : Word → Word → Word) (sc : Scope) (d a b : BitVec 7) :
    faluBits f sc d a b s = done s c sh := by
  cases sc with
  | lane =>
    simp only [faluBits, onEngine_issues hi]
    exact laneForm3_off hi h0 ..
  | group =>
    simp only [faluBits, onEngine_issues hi]
    exact groupForm3_off hi h0 ..

theorem fcmp_off (hi : Issues s c sh) (h0 : exm c sh = 0#32) (sc : Scope) (d a b : BitVec 7) (k : BitVec 4) :
    execFcmp sc d a b k s = done s c sh := by
  cases sc with
  | lane => exact laneOp_off hi h0 ..
  | group => exact groupOp_off hi h0 ..

theorem cvt_off (hi : Issues s c sh) (h0 : exm c sh = 0#32) (sc : Scope) (d a : BitVec 7) (t u : BitVec 4) (r : BitVec 2) (x : BitVec 1) :
    execCvt sc d a t u r x s = done s c sh := by
  cases sc with
  | lane =>
    simp only [execCvt, onEngine_issues hi]
    exact cvtLane_off hi h0 ..
  | group =>
    simp only [execCvt, onEngine_issues hi]
    exact cvtGroup_off hi h0 ..

theorem atom_off (hi : Issues s c sh) (h0 : exm c sh = 0#32) (sc : Scope) (d a : BitVec 7) (m : BitVec 2) (k : BitVec 5) (l : BitVec 4) :
    execAtom sc d a m k l s = done s c sh := by
  cases sc with
  | lane => exact globalAtomic_off hi h0 ..
  | group => exact groupOp_off hi h0 ..

/-- A core's instruction whose effect is its active threads' leaves its sheaf as it is where none is switched on.  The last case is that
of the control words, of the instructions that a core has not, and of the events: the hypothesis excludes them. -/
theorem exec_off (hi : Issues s c sh) (h0 : exm c sh = 0#32) {i : Instr} (h : (!unmasked i && i.wf) = true) :
    exec i s = done s c sh := by
  cases i with
  | add | sub | mul | mulh | mulhu | min | max | minu | maxu | and | or | xor | andn | shl | shr | sra | rol | ror | clz | popc
  | brev | abs | neg | madd | msub | lea1 | lea2 | lea3 | addsat | subsat => exact aluReg_off hi h0 ..
  | addi | muli | andi | ori | xori | shli | shri | srai | roli => exact aluImm_off hi h0 ..
  | li => exact loadImm_off hi h0 ..
  | cmp => exact cmpReg_off hi h0 ..
  | cmpi => exact cmpImm_off hi h0 ..
  | mov => exact mov_off hi h0 ..
  | fadd | fsub | fmul | ffma | ffms | fmin | fmax => exact faluReg_off hi h0 ..
  | fabs | fneg | fcpys | fclass => exact faluBits_off hi h0 ..
  | fcmp => exact fcmp_off hi h0 ..
  | cvt => exact cvt_off hi h0 ..
  | div | divu | rem | remu => exact divReg_off hi h0 ..
  | atom => exact atom_off hi h0 ..
  | movgv => exact (exec_movgv ..).trans (laneOp_off hi h0 ..)
  | movvg => exact (exec_movvg ..).trans (whenActive_off hi h0 ..)
  | laneid => exact (exec_laneid ..).trans (laneOp_off hi h0 ..)
  | tag => exact (exec_tag ..).trans (whenActive_off hi h0 ..)
  | gen => exact (exec_gen ..).trans (laneOp_off hi h0 ..)
  | sel => exact (exec_sel ..).trans (laneForm3_off hi h0 ..)
  | pack2 => exact (exec_pack2 ..).trans (laneForm3_off hi h0 ..)
  | pack4 => exact (exec_pack4 ..).trans (laneForm3_off hi h0 ..)
  | unpk => exact (exec_unpk ..).trans (laneForm3_off hi h0 ..)
  | movj => exact (exec_movj ..).trans (groupOp_off hi h0 ..)
  | mpop => exact (exec_mpop ..).trans (groupForm1_off hi h0 ..)
  | mffs => exact (exec_mffs ..).trans (groupForm1_off hi h0 ..)
  | mfls => exact (exec_mfls ..).trans (groupForm1_off hi h0 ..)
  | mnth => exact (exec_mnth ..).trans (groupForm3_off hi h0 ..)
  | hadd2 => exact (exec_hadd2 ..).trans (haluReg_off hi h0 ..)
  | hsub2 => exact (exec_hsub2 ..).trans (haluReg_off hi h0 ..)
  | hmul2 => exact (exec_hmul2 ..).trans (haluReg_off hi h0 ..)
  | hfma2 => exact (exec_hfma2 ..).trans (haluReg_off hi h0 ..)
  | hmin2 => exact (exec_hmin2 ..).trans (haluReg_off hi h0 ..)
  | hmax2 => exact (exec_hmax2 ..).trans (haluReg_off hi h0 ..)
  | badd2 => exact (exec_badd2 ..).trans (haluReg_off hi h0 ..)
  | bmul2 => exact (exec_bmul2 ..).trans (haluReg_off hi h0 ..)
  | bfma2 => exact (exec_bfma2 ..).trans (haluReg_off hi h0 ..)
  | dadd => exact (exec_dadd ..).trans (daluReg_off hi h0 ..)
  | dsub => exact (exec_dsub ..).trans (daluReg_off hi h0 ..)
  | dmul => exact (exec_dmul ..).trans (daluReg_off hi h0 ..)
  | dfma => exact (exec_dfma ..).trans (daluReg_off hi h0 ..)
  | dmin => exact (exec_dmin ..).trans (daluReg_off hi h0 ..)
  | dmax => exact (exec_dmax ..).trans (daluReg_off hi h0 ..)
  | ex2 => exact (exec_ex2 ..).trans (sfuReg_off hi h0 ..)
  | lg2 => exact (exec_lg2 ..).trans (sfuReg_off hi h0 ..)
  | rcp => exact (exec_rcp ..).trans (sfuReg_off hi h0 ..)
  | rsq => exact (exec_rsq ..).trans (sfuReg_off hi h0 ..)
  | sqrt => exact (exec_sqrt ..).trans (sfuReg_off hi h0 ..)
  | sin => exact (exec_sin ..).trans (sfuReg_off hi h0 ..)
  | cos => exact (exec_cos ..).trans (sfuReg_off hi h0 ..)
  | tanh => exact (exec_tanh ..).trans (sfuReg_off hi h0 ..)
  | ex2h => exact (exec_ex2h ..).trans (sfuReg_off hi h0 ..)
  | shfl => exact (exec_shfl ..).trans (crossLane_off hi h0 ..)
  | shflx => exact (exec_shflx ..).trans (crossLane_off hi h0 ..)
  | shflup => exact (exec_shflup ..).trans (crossLane_off hi h0 ..)
  | shfldn => exact (exec_shfldn ..).trans (crossLane_off hi h0 ..)
  | bcast => exact (exec_bcast ..).trans (crossLane_off hi h0 ..)
  | redadd => exact (exec_redadd ..).trans (reduce_off hi h0 ..)
  | redfadd => exact (exec_redfadd ..).trans (reduce_off hi h0 ..)
  | redmin => exact (exec_redmin ..).trans (reduce_off hi h0 ..)
  | redmax => exact (exec_redmax ..).trans (reduce_off hi h0 ..)
  | redfmin => exact (exec_redfmin ..).trans (reduce_off hi h0 ..)
  | redfmax => exact (exec_redfmax ..).trans (reduce_off hi h0 ..)
  | redand => exact (exec_redand ..).trans (reduce_off hi h0 ..)
  | redor => exact (exec_redor ..).trans (reduce_off hi h0 ..)
  | scanadd => exact (exec_scanadd ..).trans (reduce_off hi h0 ..)
  | scanfadd => exact (exec_scanfadd ..).trans (reduce_off hi h0 ..)
  | argmax => exact (exec_argmax ..).trans (argOp_off hi h0 ..)
  | argmin => exact (exec_argmin ..).trans (argOp_off hi h0 ..)
  | fargmax => exact (exec_fargmax ..).trans (argOp_off hi h0 ..)
  | fargmin => exact (exec_fargmin ..).trans (argOp_off hi h0 ..)
  | sort32 => exact (exec_sort32 ..).trans (laneOp_off hi h0 ..)
  | topk => exact (exec_topk ..).trans (whenActive_off hi h0 ..)
  | mergek => exact (exec_mergek ..).trans (whenActive_off hi h0 ..)
  | dp4a => exact (exec_dp4a ..).trans (dotIntReg_off hi h0 ..)
  | dp4au => exact (exec_dp4au ..).trans (dotIntReg_off hi h0 ..)
  | dp2h => exact (exec_dp2h ..).trans (dotReg_off hi h0 ..)
  | dp4q => exact (exec_dp4q ..).trans (dotReg_off hi h0 ..)
  | dp4qe => exact (exec_dp4qe ..).trans (dotReg_off hi h0 ..)
  | ld => exact (exec_ld ..).trans (loadOp_off hi h0 ..)
  | ldx => exact (exec_ldx ..).trans (loadNarrowOp_off hi h0 ..)
  | st => exact (exec_st ..).trans (storeOp_off hi h0 ..)
  | stq => exact (exec_stq ..).trans (storeQuadOp_off hi h0 ..)
  | lds => exact (exec_lds ..).trans (scratchLoadOp_off hi h0 ..)
  | sts => exact (exec_sts ..).trans (scratchStoreOp_off hi h0 ..)
  | ldc => exact (exec_ldc ..).trans (constLoadOp_off hi h0 ..)
  | lda => exact (exec_lda ..).trans (globalLoad_off hi h0 ..)
  | stl => exact (exec_stl ..).trans (globalStore_off hi h0 ..)
  | atom64 => exact (exec_atom64 ..).trans (globalAtomic_off hi h0 ..)
  | atoms => exact (exec_atoms ..).trans (laneOp_off hi h0 ..)
  | fence => exact (exec_fence ..).trans (whenActive_off hi h0 ..)
  | ldt => exact (exec_ldt ..).trans (loadTransientOp_off hi h0 ..)
  | ldu => exact (exec_ldu ..).trans (groupLoadOp_off hi h0 ..)
  | stu => exact (exec_stu ..).trans (groupStoreOp_off hi h0 ..)
  | ldsu => exact (exec_ldsu ..).trans (groupScratchLoadOp_off hi h0 ..)
  | stsu => exact (exec_stsu ..).trans (groupScratchStoreOp_off hi h0 ..)
  | qmm => exact (exec_qmm ..).trans (quarterOp_off hi h0 ..)
  | qmms => exact (exec_qmms ..).trans (quarterOp_off hi h0 ..)
  | mvt => exact (exec_mvt ..).trans (laneOp_off hi h0 ..)
  | nmcall => exact (exec_nmcall ..).trans (whenActive_off hi h0 ..)
  | mread => exact (exec_mread ..).trans (laneOp_off hi h0 ..)
  | mwrite => exact (exec_mwrite ..).trans (laneOp_off hi h0 ..)
  | mzero => exact (exec_mzero ..).trans (laneOp_off hi h0 ..)
  | copy => exact (exec_copy ..).trans (copyOp_off hi h0 ..)
  | copyout => exact (exec_copyout ..).trans (copyOp_off hi h0 ..)
  | tmm => exact (exec_tmm ..).trans (groupOp_off hi h0 ..)
  | nmsearch => exact (exec_nmsearch ..).trans (groupOp_off hi h0 ..)
  | nmcommit => exact (exec_nmcommit ..).trans (groupOp_off hi h0 ..)
  | collfire => exact (exec_collfire ..).trans (groupOp_off hi h0 ..)
  | binit => exact (exec_binit ..).trans (groupOp_off hi h0 ..)
  | barrive => exact (exec_barrive ..).trans (arriveOp_off hi h0 ..)
  | barriven => exact (exec_barriven ..).trans (arriveOp_off hi h0 ..)
  | btest => exact (exec_btest ..).trans (groupOp_off hi h0 ..)
  | waitb => exact (exec_waitb ..).trans (groupOp_off hi h0 ..)
  | tstate => exact (exec_tstate ..).trans (groupOp_off hi h0 ..)
  | trel => exact (exec_trel ..).trans (groupOp_off hi h0 ..)
  | twait => exact (exec_twait ..).trans (groupOp_off hi h0 ..)
  | tclaim => exact (exec_tclaim ..).trans (groupOp_off hi h0 ..)
  | qinit => exact (exec_qinit ..).trans (groupOp_off hi h0 ..)
  | qpush => exact (exec_qpush ..).trans (groupOp_off hi h0 ..)
  | qpop => exact (exec_qpop ..).trans (groupOp_off hi h0 ..)
  | qcount => exact (exec_qcount ..).trans (groupOp_off hi h0 ..)
  | mtokTake => exact (exec_mtokTake ..).trans (groupOp_off hi h0 ..)
  | mtokPass => exact (exec_mtokPass ..).trans (groupOp_off hi h0 ..)
  | mtokTest => exact (exec_mtokTest ..).trans (groupOp_off hi h0 ..)
  | tnext => exact (exec_tnext ..).trans (groupOp_off hi h0 ..)
  | tdone => exact (exec_tdone ..).trans (groupOp_off hi h0 ..)
  | tgrain => exact (exec_tgrain ..).trans (groupOp_off hi h0 ..)
  | _ => cases h

end Off

/-- Settles O54: such an instruction is in one of the forms that need a thread switched on. -/
theorem maskedOff : Obligations.MaskedOff := by
  intro i s c sh hw hu hi h0
  exact ⟨_, exec_off hi h0 (by rw [hu, hw]; rfl), movesOn_done s c sh⟩

end Sys2Proof.Proofs
end

section
/-! PROOFS. Accesses beyond the budget (R27), and instructions that only a handler may run (R177). -/

namespace Sys2Proof.Proofs

open Sys2Proof Sys2Proof.Machine Sys2Proof.Claim

/-! ## The lowest lane of a mask -/

/-- The lanes: the numbers below one of them, that number, and the rest. -/
theorem lanes_split {l : Nat} (h : l < 32) : lanes = List.range l ++ l :: (List.range (31 - l)).map (fun i => l + 1 + i) := by
  interval_cases l <;> rfl

/-- A mask's first lane is its lowest. -/
theorem lowest_of_isFirst {m : Mask} {l : Nat} (h : IsFirst m l) : lowest m = some l := by
  obtain ⟨hl, hb, hlow⟩ := h
  have hnone : (List.range l).find? (fun i => bit m i) = none :=
    List.find?_eq_none.2 (fun i hi => by simp [hlow i (List.mem_range.1 hi)])
  rw [lowest, lanes_split hl, List.find?_append, hnone, Option.none_or, List.find?_cons_of_pos hb]

section Budget

variable {s : State} {c : Cur} {sh : Sheaf}

/-- A register of the window lies within a thread's budget exactly where the lane does not reach beyond it (R27, R42). -/
theorem not_inBudget_eq (hn : (src c sh).handler = false) {regs : List Nat} (hr : ∀ n ∈ regs, n < 128) (i : Nat) :
    regs.any (fun n => !inBudget (src c sh) i n) = beyond c sh regs i := by
  unfold beyond
  rw [Bool.eq_iff_iff, List.any_eq_true, List.any_eq_true]
  refine exists_congr fun n => and_congr_right fun h => ?_
  simp only [inBudget, hn, hr n h, Bool.not_eq_true', Bool.false_and, Bool.false_or, decide_true, Bool.true_and, decide_eq_false_iff_not,
    not_lt, decide_eq_true_eq, Nat.mul_comm]

theorem overBudget_first (hn : (src c sh).handler = false) {regs : List Nat} (hr : ∀ n ∈ regs, n < 128) {l : Nat}
    (h : IsFirst (activeMask (exm c sh) (beyond c sh regs)) l) : overBudget c sh (exm c sh) regs = some l := by
  have : maskOf (fun i => bit (exm c sh) i && regs.any (fun n => !inBudget (src c sh) i n)) =
      activeMask (exm c sh) (beyond c sh regs) := by
    simp only [activeMask, not_inBudget_eq hn hr]
  rw [overBudget, this, lowest_of_isFirst h]

/-- A lane form that reaches beyond the budget in some active lane traps, whatever it would do (R27). -/
theorem laneOp_beyond (hi : Issues s c sh) (ha : Active c sh) (hn : (src c sh).handler = false) {regs : List Nat} (hr : ∀ n ∈ regs, n < 128)
    {l : Nat} (h : IsFirst (activeMask (exm c sh) (beyond c sh regs)) l) (k : Cur → Sheaf → Mask → Out) :
    laneOp s regs k = violation s c sh (exm c sh) l 0#64 := by
  rw [laneOp, whenActive_issues hi ha, withBudget, overBudget_first hn hr h]

theorem rn_lt (r : BitVec 7) : rn r < 128 := r.isLt

theorem rns_lt (rs : List (BitVec 7)) : ∀ n ∈ rs.map rn, n < 128 := by
  simpa using fun r _ => rn_lt r

theorem exec_aluInstr (op : AluOp) (sc : Scope) (d a b : BitVec 7) (s : State) :
    exec (aluInstr op sc d a b) s = aluReg op sc d a (second op a b) s := by
  cases op <;> rfl

/-- An immediate form is a function of ALU of one register. -/
theorem exec_immInstr (f : ImmForm) (sc : Scope) (d a : BitVec 7) (s : State) :
    ∃ op x y, exec (f.instr sc d a) s = aluImm op sc d a x y s := by
  cases f <;> exact ⟨_, _, _, rfl⟩

/-- R27 for the lane forms of ALU and ALU2, the immediates, LI, MOV and MOVGV: each names its registers before anything else. -/
theorem budgetTraps : BudgetTraps := by
  intro op f x d a b s c sh l hi ha hn
  refine ⟨fun h => ?_, fun h => ?_, fun h => ?_, fun h => ?_, fun h => ?_⟩
  · simp only [exec_aluInstr, aluReg, onEngine_issues hi]
    exact laneOp_beyond hi ha hn (rns_lt [d, a, second op a b]) h _
  · obtain ⟨o, v, w, he⟩ := exec_immInstr f .lane d a s
    simp only [he, aluImm, onEngine_issues hi]
    exact laneOp_beyond hi ha hn (rns_lt [d, a]) h _
  · simp only [exec_li, execLi, loadImm, onEngine_issues hi]
    exact laneOp_beyond hi ha hn (rns_lt [d]) h _
  · rw [exec_mov, execMov]
    exact laneOp_beyond hi ha hn (rns_lt [d, a]) h _
  · rw [exec_movgv, execMovgv]
    exact laneOp_beyond hi ha hn (rns_lt [d]) h _

end Budget

/-- R177, item 3: each handler-only instruction asks for handler mode first. -/
theorem handlerOnly : HandlerOnly := by
  intro f s c sh hi hn
  cases f with
  | hret => rw [HandlerForm.instr, exec_hret, execHret, onSheaf_issues hi, hn]; rfl
  | mdrain a => rw [HandlerForm.instr, exec_mdrain, execMdrain, frozenOp, onSheaf_issues hi, hn]; rfl
  | mfill a => rw [HandlerForm.instr, exec_mfill, execMfill, frozenOp, onSheaf_issues hi, hn]; rfl
  | jspill k a => rw [HandlerForm.instr, exec_jspill, execJspill, onSheaf_issues hi, hn]; rfl
  | jfill k a => rw [HandlerForm.instr, exec_jfill, execJfill, onSheaf_issues hi, hn]; rfl
  | bankcfg d a b => rw [HandlerForm.instr, exec_bankcfg, execBankcfg, onSheaf_issues hi, hn]; rfl

/-- Settles O55: the budget's traps, and those of the handler-only instructions. -/
theorem decodeAndBudgetTraps : Obligations.DecodeAndBudgetTraps := ⟨budgetTraps, handlerOnly⟩

end Sys2Proof.Proofs
end

section
/-! PROOFS. Rules about the shared operations of a sheaf: what stores nothing, what a sheaf reads after an update, park states, rejoin
registers, yields and the end of threads (R22 to R24, R30, R37, R39). -/

namespace Sys2Proof.Proofs

open Sys2Proof Sys2Proof.Machine Sys2Proof.Claim

/-! ## What stores nothing -/

theorem stores_trans {s t u : State} (h : StoresNothing s t) (k : StoresNothing t u) : StoresNothing s u where
  memory a := (k.memory a).trans (h.memory a)
  poison := k.poison.trans h.poison
  home := k.home.trans h.home
  l2 := k.l2.trans h.l2
  l1 p := (k.l1 p).trans (h.l1 p)
  scratch p a := (k.scratch p a).trans (h.scratch p a)
  marks p := (k.marks p).trans (h.marks p)
  bstore n a := (k.bstore n a).trans (h.bstore n a)
  accumulators n := (k.accumulators n).trans (h.accumulators n)

/-- A change that touches no memory, cache, plot or core stores nothing. -/
theorem stores_of_eq {s t : State} (hm : t.mem = s.mem) (hq : t.memPoison = s.memPoison) (hh : t.home = s.home) (h2 : t.l2 = s.l2)
    (hp : t.plots = s.plots) (hc : t.cores = s.cores) : StoresNothing s t := by
  have hgp : ∀ p, getPlot t p = getPlot s p := fun p => by rw [getPlot, hp]; rfl
  have hgc : ∀ k, getCore t k = getCore s k := fun k => by rw [getCore, hc]; rfl
  exact ⟨fun a => by rw [hm], hq, hh, h2, fun p => by rw [hgp], fun p a => by rw [hgp], fun p => by rw [hgp], fun k a => by rw [hgc],
    fun k => by rw [hgc]⟩

/-- A core's change that keeps its B-store and its accumulators stores nothing. -/
theorem stores_modCore (s : State) (k : Nat) (f : Core → Core) (hb : (f (getCore s k)).bstore = (getCore s k).bstore)
    (ha : (f (getCore s k)).acc = (getCore s k).acc) : StoresNothing s (modCore s k f) := by
  refine ⟨fun _ => rfl, rfl, rfl, rfl, fun _ => rfl, fun _ _ => rfl, fun _ => rfl, fun j a => ?_, fun j => ?_⟩ <;>
    rw [getCore_modCore] <;> split
  · subst j; rw [hb]
  · rfl
  · subst j; exact ha
  · rfl

/-- A plot's change that keeps its words in the L1, its scratch bytes and its marks stores nothing. -/
theorem stores_modPlot (s : State) (p : Nat) (f : Plot → Plot) (h1 : (f (getPlot s p)).l1 = (getPlot s p).l1)
    (hs : (f (getPlot s p)).scratch = (getPlot s p).scratch) (hm : (f (getPlot s p)).marks = (getPlot s p).marks) :
    StoresNothing s (modPlot s p f) := by
  refine ⟨fun _ => rfl, rfl, rfl, rfl, fun q => ?_, fun q a => ?_, fun q => ?_, fun _ _ => rfl, fun _ => rfl⟩ <;>
    rw [getPlot_modPlot] <;> split
  · subst q; exact h1
  · rfl
  · subst q; rw [hs]
  · rfl
  · subst q; exact hm
  · rfl

theorem stores_count (s : State) (core k n : Nat) : StoresNothing s (count s core k n) := stores_modCore s core _ rfl rfl

theorem stores_modSheaf (s : State) (b w : Nat) (f : Sheaf → Sheaf) : StoresNothing s (modSheaf s b w f) := by
  unfold modSheaf
  split
  · exact stores_setSheaf ..
  · exact stores_refl s

theorem stores_due (s : State) (e : Event) : StoresNothing s (due s e) := stores_of_eq rfl rfl rfl rfl rfl rfl

theorem stores_putSheaf (s : State) (c : Cur) (sh : Sheaf) : StoresNothing s (putSheaf s c sh) := stores_setSheaf ..

/-! ## What a sheaf reads after an update -/

@[simp] theorem getSheaf_modCore (s : State) (k : Nat) (f : Core → Core) (b w : Nat) : getSheaf (modCore s k f) b w = getSheaf s b w := rfl

@[simp] theorem getSheaf_modPlot (s : State) (p : Nat) (f : Plot → Plot) (b w : Nat) : getSheaf (modPlot s p f) b w = getSheaf s b w := rfl

@[simp] theorem getSheaf_count (s : State) (core k n b w : Nat) : getSheaf (count s core k n) b w = getSheaf s b w := rfl

@[simp] theorem getSheaf_due (s : State) (e : Event) (b w : Nat) : getSheaf (due s e) b w = getSheaf s b w := rfl

@[simp] theorem getBed_modCore (s : State) (k : Nat) (f : Core → Core) (b : Nat) : getBed (modCore s k f) b = getBed s b := rfl

@[simp] theorem getBed_modPlot (s : State) (p : Nat) (f : Plot → Plot) (b : Nat) : getBed (modPlot s p f) b = getBed s b := rfl

@[simp] theorem getBed_count (s : State) (core k n b : Nat) : getBed (count s core k n) b = getBed s b := rfl

@[simp] theorem getBed_due (s : State) (e : Event) (b : Nat) : getBed (due s e) b = getBed s b := rfl

/-- A sheaf that replaces one of its bed is the one that is read. -/
theorem getSheaf_setSheaf_self {s : State} {b w : Nat} {sh : Sheaf} (h : getSheaf s b w = some sh) (sh' : Sheaf) :
    getSheaf (setSheaf s b w sh') b w = some sh' := by
  obtain ⟨bd, hb⟩ := getBed_of_getSheaf h
  rw [getSheaf_setSheaf hb, if_pos ⟨rfl, rfl⟩]

/-- The issuing sheaf reads as it was put. -/
theorem getSheaf_putSheaf {s : State} {c : Cur} {sh : Sheaf} (hi : Issues s c sh) (sh' : Sheaf) :
    getSheaf (putSheaf s c sh') c.bed c.sheaf = some sh' := getSheaf_setSheaf_self hi.2 sh'

/-- A change of another sheaf leaves this one. -/
theorem getSheaf_modSheaf_ne {s : State} {b w b' w' : Nat} (f : Sheaf → Sheaf) (h : (b', w') ≠ (b, w)) :
    getSheaf (modSheaf s b w f) b' w' = getSheaf s b' w' := by
  rw [getSheaf_modSheaf, if_neg (fun e => h (Prod.ext e.1 e.2))]

/-! ## Park states -/

theorem parkOf_setPark (sh : Sheaf) (m : Mask) (p : Park) {i : Nat} (hi : i < 32) :
    parkOf (setPark sh m p) i = if bit m i then p else parkOf sh i := by
  simp only [parkOf, setPark]
  exact lget_lanes_map _ hi _

theorem bit_joinMask (sh : Sheaf) (k : BitVec 4) {i : Nat} (hi : i < 32) : bit (joinMask sh k) i = (parkOf sh i == .join k) := bit_maskOf _ hi

@[simp] theorem parkOf_setJ (sh : Sheaf) (k : Nat) (e a : Word) (i : Nat) : parkOf (setJ sh k e a) i = parkOf sh i := rfl

@[simp] theorem joinMask_setJ (sh : Sheaf) (n : Nat) (e a : Word) (k : BitVec 4) : joinMask (setJ sh n e a) k = joinMask sh k := rfl

@[simp] theorem jE_setPark (sh : Sheaf) (m : Mask) (p : Park) (k : Nat) : jE (setPark sh m p) k = jE sh k := rfl

@[simp] theorem jA_setPark (sh : Sheaf) (m : Mask) (p : Park) (k : Nat) : jA (setPark sh m p) k = jA sh k := rfl

theorem mask_zero_of {m : Mask} (h : ∀ i, i < 32 → bit m i = false) : m = 0#32 := mask_ext fun i hi => by rw [h i hi, bit_zero]

theorem bit_of_mask_zero {m : Mask} (h : m = 0#32) (i : Nat) : bit m i = false := by rw [h, bit_zero]

/-- No thread parked on jK is counted in a mask exactly where the two masks do not meet. -/
theorem joinMask_and_eq_zero (sh : Sheaf) (k : BitVec 4) (a : Mask) :
    joinMask sh k &&& a = 0#32 ↔ ∀ i, i < 32 → parkOf sh i = .join k → bit a i = false := by
  constructor
  · intro h i hi hp
    have := bit_of_mask_zero h i
    rwa [bit_and, bit_joinMask _ _ hi, hp, beq_self_eq_true, Bool.true_and] at this
  · intro h
    refine mask_zero_of fun i hi => ?_
    rw [bit_and, bit_joinMask _ _ hi]
    cases hp : parkOf sh i == .join k
    · rfl
    · exact h i hi (by simpa using hp)

/-! ## The release test of a rejoin register (R22, R23) -/

/-- Every expected thread has come. -/
def Complete (sh : Sheaf) (k : Nat) : Prop := jE sh k ≠ 0#32 ∧ jE sh k &&& ~~~(jA sh k) = 0#32

/-- No thread is expected, and no thread counted in A is parked. -/
def Idle (sh : Sheaf) (k : Nat) : Prop := jE sh k = 0#32 ∧ joinMask sh (BitVec.ofNat 4 k) &&& jA sh k = 0#32

theorem releaseJ_complete {sh : Sheaf} {k : Nat} (h : Complete sh k) :
    releaseJ sh k = setPark (setJ sh k 0#32 0#32) (joinMask sh (BitVec.ofNat 4 k) &&& jA sh k) .run := if_pos h

theorem releaseJ_idle {sh : Sheaf} {k : Nat} (h : Idle sh k) : releaseJ sh k = setJ sh k 0#32 0#32 :=
  (if_neg fun c => c.1 h.1).trans (if_pos h)

theorem releaseJ_waits {sh : Sheaf} {k : Nat} (hc : ¬Complete sh k) (hi : ¬Idle sh k) : releaseJ sh k = sh := (if_neg hc).trans (if_neg hi)

/-- The release test changes park states and rejoin registers, and nothing else of a sheaf. -/
theorem releaseJ_only (sh : Sheaf) (k : Nat) :
    releaseJ sh k = { sh with park := (releaseJ sh k).park, je := (releaseJ sh k).je, ja := (releaseJ sh k).ja } := by
  unfold releaseJ
  dsimp only
  split
  · rfl
  · split <;> rfl

/-- The threads that wait in jK and are counted in A run again where every expected one has come; no other park state changes. -/
theorem parkOf_releaseJ (sh : Sheaf) (k : Nat) {i : Nat} (hi : i < 32) [Decidable (Complete sh k)] :
    parkOf (releaseJ sh k) i =
      if Complete sh k ∧ parkOf sh i = .join (BitVec.ofNat 4 k) ∧ bit (jA sh k) i = true then .run else parkOf sh i := by
  by_cases hc : Complete sh k
  · rw [releaseJ_complete hc, parkOf_setPark _ _ _ hi, bit_and, bit_joinMask _ _ hi]
    simp [hc]
  · have : parkOf (releaseJ sh k) i = parkOf sh i := by
      by_cases hd : Idle sh k
      · rw [releaseJ_idle hd]; rfl
      · rw [releaseJ_waits hc hd]
    rw [this, if_neg fun h => hc h.1]

/-- Another rejoin register is as it was. -/
theorem releaseJ_other (sh : Sheaf) {k j : Nat} (h : j ≠ k) : jE (releaseJ sh k) j = jE sh j ∧ jA (releaseJ sh k) j = jA sh j := by
  by_cases hc : Complete sh k
  · simp [releaseJ_complete hc, jE_setJ, jA_setJ, h]
  · by_cases hd : Idle sh k
    · simp [releaseJ_idle hd, jE_setJ, jA_setJ, h]
    · rw [releaseJ_waits hc hd]; exact ⟨rfl, rfl⟩

/-- A rejoin register that releases, or expects nobody, is clear. -/
theorem releaseJ_clears {sh : Sheaf} {k : Nat} (h : Complete sh k ∨ Idle sh k) : jE (releaseJ sh k) k = 0#32 ∧ jA (releaseJ sh k) k = 0#32 := by
  rcases h with h | h
  · simp [releaseJ_complete h, jE_setJ, jA_setJ]
  · simp [releaseJ_idle h, jE_setJ, jA_setJ]

/-! ## Threads that leave a rejoin register (R23) -/

theorem complete_after_leave (sh : Sheaf) (m : Mask) (k : Nat) :
    Complete (setJ sh k (jE sh k &&& ~~~m) (jA sh k)) k ↔ LeaveReleases sh m k := by
  simp [Complete, LeaveReleases, jE_setJ, jA_setJ]

theorem idle_after_leave (sh : Sheaf) (m : Mask) (k : Nat) :
    Idle (setJ sh k (jE sh k &&& ~~~m) (jA sh k)) k ↔
      jE sh k &&& ~~~m = 0#32 ∧ ∀ i, i < 32 → parkOf sh i = .join (BitVec.ofNat 4 k) → bit (jA sh k) i = false := by
  simp [Idle, jE_setJ, jA_setJ, joinMask_and_eq_zero]

theorem leaveJ_only (sh : Sheaf) (k : Nat) (m : Mask) :
    leaveJ sh k m = { sh with park := (leaveJ sh k m).park, je := (leaveJ sh k m).je, ja := (leaveJ sh k m).ja } := by
  have h := releaseJ_only (setJ sh k (jE sh k &&& ~~~m) (jA sh k)) k
  exact h

/-- The threads that jK held and counted run again where it releases; no other park state changes (R23). -/
theorem parkOf_leaveJ (sh : Sheaf) (k : Nat) (m : Mask) {i : Nat} (hi : i < 32) [Decidable (LeaveReleases sh m k)] :
    parkOf (leaveJ sh k m) i =
      if LeaveReleases sh m k ∧ parkOf sh i = .join (BitVec.ofNat 4 k) ∧ bit (jA sh k) i = true then .run else parkOf sh i := by
  have : Decidable (Complete (setJ sh k (jE sh k &&& ~~~m) (jA sh k)) k) := decidable_of_iff _ (complete_after_leave sh m k).symm
  rw [leaveJ, parkOf_releaseJ _ _ hi]
  simp [complete_after_leave, jA_setJ]

theorem leaveJ_other (sh : Sheaf) (m : Mask) {k j : Nat} (h : j ≠ k) : jE (leaveJ sh k m) j = jE sh j ∧ jA (leaveJ sh k m) j = jA sh j := by
  have := releaseJ_other (setJ sh k (jE sh k &&& ~~~m) (jA sh k)) h
  simpa [leaveJ, jE_setJ, jA_setJ, h] using this

/-- Threads that leave a rejoin register which still waits for others only leave E. -/
theorem leaveJ_waits {sh : Sheaf} {k : Nat} {m : Mask} (h : jE sh k &&& ~~~m &&& ~~~(jA sh k) ≠ 0#32) :
    leaveJ sh k m = setJ sh k (jE sh k &&& ~~~m) (jA sh k) := by
  refine releaseJ_waits (fun c => h ((complete_after_leave sh m k).1 c).2) (fun d => h ?_)
  simp [((idle_after_leave sh m k).1 d).1]

theorem leaveJ_releases {sh : Sheaf} {k : Nat} {m : Mask} (h : LeaveReleases sh m k) :
    jE (leaveJ sh k m) k = 0#32 ∧ jA (leaveJ sh k m) k = 0#32 := releaseJ_clears (.inl ((complete_after_leave sh m k).2 h))

theorem leaveJ_idle {sh : Sheaf} {k : Nat} {m : Mask} (he : jE sh k &&& ~~~m = 0#32)
    (hp : ∀ i, i < 32 → parkOf sh i = .join (BitVec.ofNat 4 k) → bit (jA sh k) i = false) :
    leaveJ sh k m = setJ (setJ sh k (jE sh k &&& ~~~m) (jA sh k)) k 0#32 0#32 := releaseJ_idle ((idle_after_leave sh m k).2 ⟨he, hp⟩)

/-! ## Threads that end (R23) -/

/-- What a thread's end does to jK, which only threads that it expects can have. -/
def endIn (m : Mask) (sh : Sheaf) (k : Nat) : Sheaf := if jE sh k = 0#32 then sh else leaveJ sh k m

theorem endThreads_eq (sh : Sheaf) (m : Mask) : endThreads sh m = (below 16).foldl (endIn m) (setPark (endSpans sh m) m .done) := rfl

theorem jE_ne_zero_of_releases {sh : Sheaf} {m : Mask} {k : Nat} (h : LeaveReleases sh m k) : jE sh k ≠ 0#32 := fun e => h.1 (by simp [e])

theorem endIn_only (m : Mask) (sh : Sheaf) (k : Nat) :
    endIn m sh k = { sh with park := (endIn m sh k).park, je := (endIn m sh k).je, ja := (endIn m sh k).ja } := by
  unfold endIn
  split
  · rfl
  · exact leaveJ_only ..

theorem parkOf_endIn (m : Mask) (sh : Sheaf) (k : Nat) {i : Nat} (hi : i < 32) [Decidable (LeaveReleases sh m k)] :
    parkOf (endIn m sh k) i =
      if LeaveReleases sh m k ∧ parkOf sh i = .join (BitVec.ofNat 4 k) ∧ bit (jA sh k) i = true then .run else parkOf sh i := by
  unfold endIn
  split
  · rw [if_neg fun h => jE_ne_zero_of_releases h.1 ‹_›]
  · exact parkOf_leaveJ _ _ _ hi

theorem endIn_other (m : Mask) (sh : Sheaf) {k j : Nat} (h : j ≠ k) : jE (endIn m sh k) j = jE sh j ∧ jA (endIn m sh k) j = jA sh j := by
  unfold endIn
  split
  · exact ⟨rfl, rfl⟩
  · exact leaveJ_other sh m h

/-- Threads leave the rejoin registers of a list, one after another. -/
theorem foldl_endIn_only (m : Mask) (l : List Nat) (sh : Sheaf) :
    ∃ p e a, l.foldl (endIn m) sh = { sh with park := p, je := e, ja := a } := by
  induction l generalizing sh with
  | nil => exact ⟨sh.park, sh.je, sh.ja, rfl⟩
  | cons k r ih =>
    obtain ⟨p, e, a, h⟩ := ih (endIn m sh k)
    exact ⟨p, e, a, by rw [List.foldl_cons, h, endIn_only m sh k]⟩

/-- A rejoin register outside the list is as it was. -/
theorem foldl_endIn_other (m : Mask) {l : List Nat} {j : Nat} (h : j ∉ l) (sh : Sheaf) :
    jE (l.foldl (endIn m) sh) j = jE sh j ∧ jA (l.foldl (endIn m) sh) j = jA sh j := by
  induction l generalizing sh with
  | nil => exact ⟨rfl, rfl⟩
  | cons k r ih =>
    obtain ⟨hk, hr⟩ := List.ne_and_not_mem_of_not_mem_cons h
    have := endIn_other m sh hk
    rw [List.foldl_cons, (ih hr _).1, (ih hr _).2]
    exact this

/-- A thread runs again or stands as it stood. -/
theorem parkOf_foldl_endIn_or (m : Mask) (l : List Nat) (sh : Sheaf) {i : Nat} (hi : i < 32) :
    parkOf (l.foldl (endIn m) sh) i = .run ∨ parkOf (l.foldl (endIn m) sh) i = parkOf sh i := by
  classical
  induction l generalizing sh with
  | nil => exact .inr rfl
  | cons k r ih =>
    rcases ih (endIn m sh k) with h | h
    · exact .inl h
    · rw [List.foldl_cons, h, parkOf_endIn m sh k hi]
      split
      · exact .inl rfl
      · exact .inr rfl

/-- A thread that no register of the list releases stands as it stood. -/
theorem parkOf_foldl_endIn_stays (m : Mask) {l : List Nat} (hl : l.Nodup) (h16 : ∀ k ∈ l, k < 16) (sh : Sheaf) {i : Nat} (hi : i < 32)
    (h : ∀ k ∈ l, parkOf sh i = .join (BitVec.ofNat 4 k) → bit (jA sh k) i = true → ¬LeaveReleases sh m k) :
    parkOf (l.foldl (endIn m) sh) i = parkOf sh i := by
  classical
  induction l generalizing sh with
  | nil => rfl
  | cons k r ih =>
    obtain ⟨hk, hr⟩ := List.nodup_cons.1 hl
    have hp : parkOf (endIn m sh k) i = parkOf sh i := by
      rw [parkOf_endIn m sh k hi, if_neg fun ⟨hrel, hj, ha⟩ => h k (by simp) hj ha hrel]
    rw [List.foldl_cons, ih hr (fun j hj => h16 j (by simp [hj])), hp]
    intro j hj
    have hne : j ≠ k := fun e => hk (e ▸ hj)
    obtain ⟨he, ha⟩ := endIn_other m sh hne
    rw [hp, LeaveReleases, he, ha]
    exact h j (by simp [hj])

/-- A thread that a register of the list holds and counts runs again where that register releases. -/
theorem parkOf_foldl_endIn_released (m : Mask) {l : List Nat} (hl : l.Nodup) (h16 : ∀ k ∈ l, k < 16) (sh : Sheaf) {i k : Nat} (hi : i < 32)
    (hk : k ∈ l) (hp : parkOf sh i = .join (BitVec.ofNat 4 k)) (ha : bit (jA sh k) i = true) (hrel : LeaveReleases sh m k) :
    parkOf (l.foldl (endIn m) sh) i = .run := by
  classical
  induction l generalizing sh with
  | nil => simp at hk
  | cons n r ih =>
    obtain ⟨hn, hr⟩ := List.nodup_cons.1 hl
    by_cases e : k = n
    · subst e
      rcases parkOf_foldl_endIn_or m r (endIn m sh k) hi with h | h
      · exact h
      · rw [List.foldl_cons, h, parkOf_endIn m sh k hi, if_pos ⟨hrel, hp, ha⟩]
    · obtain ⟨he, hj⟩ := endIn_other m sh e
      have hd : BitVec.ofNat 4 k ≠ BitVec.ofNat 4 n := fun h => e (by
        have := congrArg BitVec.toNat h
        simpa [Nat.mod_eq_of_lt (h16 k hk), Nat.mod_eq_of_lt (h16 n (by simp))] using this)
      refine ih hr (fun j hj => h16 j (by simp [hj])) _ ((List.mem_cons.1 hk).resolve_left e) ?_ (by rw [hj]; exact ha)
        (by rw [LeaveReleases, he, hj]; exact hrel)
      rw [parkOf_endIn m sh n hi, if_neg, hp]
      rintro ⟨-, h, -⟩
      rw [hp] at h
      exact hd (Park.join.inj h)

/-- Of a register of the list: what it was when its turn came, its threads that still wait in it being among those that did. -/
theorem foldl_endIn_at (m : Mask) {l : List Nat} (hl : l.Nodup) (sh : Sheaf) {k : Nat} (hk : k ∈ l) :
    ∃ x, jE x k = jE sh k ∧ jA x k = jA sh k ∧ (∀ i, i < 32 → parkOf x i = .run ∨ parkOf x i = parkOf sh i) ∧
      jE (l.foldl (endIn m) sh) k = jE (endIn m x k) k ∧ jA (l.foldl (endIn m) sh) k = jA (endIn m x k) k := by
  classical
  induction l generalizing sh with
  | nil => simp at hk
  | cons n r ih =>
    obtain ⟨hn, hr⟩ := List.nodup_cons.1 hl
    by_cases e : k = n
    · subst e
      exact ⟨sh, rfl, rfl, fun _ _ => .inr rfl, foldl_endIn_other m hn _⟩
    · obtain ⟨x, he, ha, hp, h⟩ := ih hr (endIn m sh n) ((List.mem_cons.1 hk).resolve_left e)
      obtain ⟨he', ha'⟩ := endIn_other m sh e
      refine ⟨x, he.trans he', ha.trans ha', fun i hi => ?_, h⟩
      rcases hp i hi with h | h
      · exact .inl h
      · rw [h, parkOf_endIn m sh n hi]
        split
        · exact .inl rfl
        · exact .inr rfl

/-- Ended threads leave each rejoin register once: what it waits for, and what it releases (R23). -/
theorem foldl_endIn_join (m : Mask) {l : List Nat} (hl : l.Nodup) (sh : Sheaf) {k : Nat} (hk : k ∈ l) :
    let y := l.foldl (endIn m) sh
    (jE sh k = 0#32 → jE y k = 0#32 ∧ jA y k = jA sh k) ∧
    (jE sh k &&& ~~~m &&& ~~~(jA sh k) ≠ 0#32 → jE y k = jE sh k &&& ~~~m ∧ jA y k = jA sh k) ∧
    (LeaveReleases sh m k → jE y k = 0#32 ∧ jA y k = 0#32) ∧
    (jE sh k ≠ 0#32 → jE sh k &&& ~~~m = 0#32 → (∀ i, i < 32 → parkOf sh i = .join (BitVec.ofNat 4 k) → bit (jA sh k) i = false) →
      jE y k = 0#32 ∧ jA y k = 0#32) := by
  obtain ⟨x, he, ha, hp, h1, h2⟩ := foldl_endIn_at m hl sh hk
  dsimp only
  rw [h1, h2, LeaveReleases, ← he, ← ha]
  refine ⟨fun h => by simp [endIn, h], fun h => ?_, fun h => ?_, fun h0 h hw => ?_⟩
  · rw [endIn, if_neg (fun e => h (by simp [e])), leaveJ_waits h]
    simp [jE_setJ, jA_setJ]
  · rw [endIn, if_neg (jE_ne_zero_of_releases h)]
    exact leaveJ_releases h
  · have hx : ∀ i, i < 32 → parkOf x i = .join (BitVec.ofNat 4 k) → bit (jA x k) i = false := fun i hi hj => by
      rcases hp i hi with e | e
      · rw [e] at hj; cases hj
      · exact hw i hi (e.symm.trans hj)
    rw [endIn, if_neg h0, leaveJ_idle h hx]
    simp [jE_setJ, jA_setJ]

end Sys2Proof.Proofs
end

section
/-! PROOFS. JOIN, JLEAVE, YIELD and EXIT (R22 to R24, R37, R39, R211). -/

namespace Sys2Proof.Proofs

open Sys2Proof Sys2Proof.Machine Sys2Proof.Claim

/-! ## Sparse data: what some entry satisfies after a write -/

theorem mem_of_mfind {α : Type} {m : Map α} {k : Nat} {v : α} (h : mfind m k = some v) : (k, v) ∈ m := by
  induction m with
  | nil => simp at h
  | cons x r ih =>
    obtain ⟨i, w⟩ := x
    simp only [mfind] at h
    split at h
    · subst_vars
      simp only [Option.some.injEq] at h
      simp [h]
    · exact List.mem_cons_of_mem _ (ih h)

/-- Replacing a listed value by one that a test does not tell from it changes nothing of what passes the test. -/
theorem exists_mem_mset {α : Type} {m : Map α} {k : Nat} {v v' : α} (h : mfind m k = some v) (p : Nat → α → Prop)
    (hp : p k v' ↔ p k v) : (∃ x ∈ mset m k v', p x.1 x.2) ↔ ∃ x ∈ m, p x.1 x.2 := by
  have hm := mem_of_mfind h
  induction m with
  | nil => simp at h
  | cons y r ih =>
    obtain ⟨i, w⟩ := y
    simp only [mset]
    by_cases hlt : k < i
    · rw [if_pos hlt]
      constructor
      · rintro ⟨x, hx, hq⟩
        rcases List.mem_cons.1 hx with rfl | hx
        · exact ⟨_, hm, hp.1 hq⟩
        · exact ⟨x, hx, hq⟩
      · rintro ⟨x, hx, hq⟩
        exact ⟨x, List.mem_cons_of_mem _ hx, hq⟩
    · rw [if_neg hlt]
      simp only [mfind] at h
      by_cases hik : i = k
      · subst hik
        rw [if_pos rfl] at h ⊢
        obtain rfl : w = v := Option.some.inj h
        simp [hp]
      · rw [if_neg hik] at h ⊢
        simp [ih h (mem_of_mfind h)]

/-! ## A bed's launch -/

/-- A bed's change that keeps its launch leaves the launch of every bed. -/
theorem launchOf_modBed (s : State) (b : Nat) {f : Bed → Bed} (hf : ∀ bd, (f bd).launch = bd.launch) (k : Nat) :
    launchOf (modBed s b f) k = launchOf s k := by
  unfold launchOf
  rw [getBed_modBed]
  by_cases h : k = b
  · subst h
    cases hb : getBed s k <;> simp [hf, getLaunch]
  · simp [h, getLaunch]

theorem launchOf_setSheaf (s : State) (b w : Nat) (sh : Sheaf) (k : Nat) : launchOf (setSheaf s b w sh) k = launchOf s k := by
  rw [setSheaf, launchOf_modBed]
  exact fun _ => rfl

theorem levelOf_setSheaf (s : State) (b w : Nat) (sh : Sheaf) (k : Nat) : levelOf (setSheaf s b w sh) k = levelOf s k := by
  rw [levelOf, launchOf_setSheaf]; rfl

/-! ## Yields (R37) -/

/-- A runnable sheaf of a slot, other than (b, w), of no lower priority. -/
def GoesBefore (s : State) (b w : Nat) (sh : Sheaf) (x : Nat × Nat) (b' : Nat) (bd : Bed) : Prop :=
  bd.stage = .resident ∧ bd.core = sh.place.core ∧ ∃ y ∈ bd.sheaves, y.2.place.slot = sh.place.slot ∧ (b', y.1) ≠ (b, w) ∧
    hasRunnable y.2 = true ∧ levelOf s b' ≤ levelOf s b ∧ (b', y.1) = x

theorem mem_yieldOthers (s : State) (b w : Nat) (sh : Sheaf) (x : Nat × Nat) :
    x ∈ yieldOthers s b w sh ↔ ∃ e ∈ s.beds, GoesBefore s b w sh x e.1 e.2 := by
  simp only [yieldOthers, slotSheaves, GoesBefore, List.mem_map, List.mem_filter, List.mem_flatMap, Bool.and_eq_true, beq_iff_eq, bne_iff_ne,
    decide_eq_true_eq]
  constructor
  · rintro ⟨_, ⟨⟨e, ⟨he, hst, hc⟩, y, ⟨hy, hs⟩, rfl⟩, ⟨hne, hr⟩, hl⟩, rfl⟩
    exact ⟨e, he, hst, hc, y, hy, hs, hne, hr, hl, rfl⟩
  · rintro ⟨e, he, hst, hc, y, hy, hs, hne, hr, hl, rfl⟩
    exact ⟨(e.1, y.1, y.2), ⟨⟨e, ⟨he, hst, hc⟩, y, ⟨hy, hs⟩, rfl⟩, ⟨hne, hr⟩, hl⟩, rfl⟩

/-- The sheaves that go before a yielding one do not depend on what it holds itself. -/
theorem mem_yieldOthers_setSheaf {s : State} {b w : Nat} {sh0 : Sheaf} (h : getSheaf s b w = some sh0) (sh1 sh : Sheaf) (x : Nat × Nat) :
    x ∈ yieldOthers (setSheaf s b w sh1) b w sh ↔ x ∈ yieldOthers s b w sh := by
  obtain ⟨bd, hb⟩ := getBed_of_getSheaf h
  have hw : mfind bd.sheaves w = some sh0 := by simpa [getSheaf, hb] using h
  have hbeds : (setSheaf s b w sh1).beds = mset s.beds b { bd with sheaves := mset bd.sheaves w sh1 } := by
    rw [setSheaf, modBed, hb]
  rw [mem_yieldOthers, mem_yieldOthers, hbeds]
  have hg : ∀ k d, GoesBefore (setSheaf s b w sh1) b w sh x k d ↔ GoesBefore s b w sh x k d := fun k d => by
    simp only [GoesBefore, levelOf_setSheaf]
  simp only [hg]
  refine exists_mem_mset hb _ ?_
  unfold GoesBefore
  exact and_congr_right fun _ => and_congr_right fun _ => exists_mem_mset hw
    (fun k (d : Sheaf) => d.place.slot = sh.place.slot ∧ (b, k) ≠ (b, w) ∧ hasRunnable d = true ∧ levelOf s b ≤ levelOf s b ∧ (b, k) = x)
    (by simp)

theorem yieldSheaf_eq {s : State} {b w : Nat} {sh : Sheaf} (h : getSheaf s b w = some sh) :
    yieldSheaf s b w = count (setSheaf s b w { sh with yieldFor := yieldOthers s b w sh, wdcnt := 0 }) sh.place.core 14 1 := by
  rw [yieldSheaf, h]

theorem getSheaf_yieldSheaf {s : State} {b w : Nat} {sh : Sheaf} (h : getSheaf s b w = some sh) :
    getSheaf (yieldSheaf s b w) b w = some { sh with yieldFor := yieldOthers s b w sh, wdcnt := 0 } := by
  rw [yieldSheaf_eq h, getSheaf_count, getSheaf_setSheaf_self h]

theorem stores_yieldSheaf (s : State) (b w : Nat) : StoresNothing s (yieldSheaf s b w) := by
  unfold yieldSheaf
  split
  · exact stores_refl s
  · exact stores_trans (stores_setSheaf ..) (stores_count ..)

/-- A sheaf that is put back and yields (R37). -/
theorem yielded_put {s : State} {c : Cur} {sh : Sheaf} (hi : Issues s c sh) (sh' : Sheaf) :
    Yielded s (yieldSheaf (putSheaf s c sh') c.bed c.sheaf) c sh' :=
  ⟨_, getSheaf_yieldSheaf (getSheaf_putSheaf hi sh'), mem_yieldOthers_setSheaf hi.2 sh' sh',
    stores_trans (stores_putSheaf ..) (stores_yieldSheaf ..)⟩

/-! ## Lookahead spans that end, and moving on -/

/-- Ending spans changes spans only. -/
theorem sameButThreads_endSpans (sh : Sheaf) (m : Mask) : SameButThreads sh (endSpans sh m) :=
  ⟨rfl, by simp [endSpans, List.map_map, Function.comp_def]⟩

theorem lget_pcs_advance {c : Cur} {sh : Sheaf} (hn : sh.handler = false) {i : Nat} (hi : i < 32) :
    lget (advance c sh).pcs i 0#64 = if bit c.ctl i then c.pc + BitVec.ofNat 64 c.len else lget sh.pcs i 0#64 := by
  simp [advance, goto, hn, hi]

/-- In normal mode the control set's program counters move, and nothing else of the sheaf changes. -/
theorem advance_only {c : Cur} {sh : Sheaf} (hn : sh.handler = false) : advance c sh = { sh with pcs := (advance c sh).pcs } := by
  simp [advance, goto, hn]

/-! ## JOIN -/

/-- The threads of the control set that park in jK: those that it expects, and with levels spilled all of them (R22, R211). -/
def joinParks (c : Cur) (sh : Sheaf) (k : Nat) : Mask := if 0 < spill sh k then c.ctl else c.ctl &&& jE sh k

/-- The sheaf as they have arrived, before the release test. -/
def arrived (c : Cur) (sh : Sheaf) (k : BitVec 4) : Sheaf :=
  setPark (setJ (advance c (endSpans sh (joinParks c sh k.toNat))) k.toNat (jE sh k.toNat) (jA sh k.toNat ||| (c.ctl &&& jE sh k.toNat)))
    (joinParks c sh k.toNat) (.join k)

/-- The sheaf that a JOIN leaves, but for a yield. -/
def joined (c : Cur) (sh : Sheaf) (k : BitVec 4) : Sheaf := releaseJ (arrived c sh k) k.toNat

section Join

variable {s : State} {c : Cur} {sh : Sheaf}

theorem exec_join_overflow (hi : Issues s c sh) (k : BitVec 4) (hs : spill sh k.toNat ≠ 0) (he : jE sh k.toNat = 0#32) :
    exec (.join k) s = rejoinOverflow s c sh k.toNat 1 := by
  rw [exec_join, execJoin, onSheaf_issues hi]
  exact if_pos ⟨decide_eq_true (Nat.pos_of_ne_zero hs), he⟩

theorem exec_join_parks (hn : sh.handler = false) (hi : Issues s c sh) (k : BitVec 4) (hs : spill sh k.toNat = 0 ∨ jE sh k.toNat ≠ 0#32) :
    exec (.join k) s = .next (if joinParks c sh k.toNat ≠ 0#32 ∧ runMask (joined c sh k) = 0#32
      then yieldSheaf (putSheaf s c (joined c sh k)) c.bed c.sheaf else putSheaf s c (joined c sh k)) := by
  have ha : ∀ m, jA (advance c (endSpans sh m)) k.toNat = jA sh k.toNat := fun m => by
    rw [advance_only (show (endSpans sh m).handler = false from hn)]; rfl
  rw [exec_join, execJoin, onSheaf_issues hi, if_neg]
  · by_cases h : 0 < spill sh k.toNat <;> simp [joined, arrived, joinParks, ha, h]
  · rintro ⟨h1, h2⟩
    have := of_decide_eq_true h1
    exact hs.elim (by omega) (fun h => h h2)

/-- A JOIN that does not overflow leaves its sheaf so, but for what a yield changes, and stores nothing. -/
theorem join_leaves (hn : sh.handler = false) (hi : Issues s c sh) (k : BitVec 4) (hs : spill sh k.toNat = 0 ∨ jE sh k.toNat ≠ 0#32) :
    ∃ t y n, exec (.join k) s = .next t ∧ getSheaf t c.bed c.sheaf = some { joined c sh k with yieldFor := y, wdcnt := n } ∧
      StoresNothing s t := by
  rw [exec_join_parks hn hi k hs]
  split
  · exact ⟨_, _, _, rfl, getSheaf_yieldSheaf (getSheaf_putSheaf hi _), stores_trans (stores_putSheaf ..) (stores_yieldSheaf ..)⟩
  · exact ⟨_, _, _, rfl, getSheaf_putSheaf hi _, stores_putSheaf ..⟩

theorem arrived_only (hn : sh.handler = false) (k : BitVec 4) :
    arrived c sh k = { endSpans sh (joinParks c sh k.toNat) with
      pcs := (arrived c sh k).pcs, park := (arrived c sh k).park, je := (arrived c sh k).je, ja := (arrived c sh k).ja } := by
  rw [arrived, advance_only (show (endSpans sh _).handler = false from hn)]
  rfl

theorem sameButThreads_joined (hn : sh.handler = false) (k : BitVec 4) (y : List (Nat × Nat)) (n : Nat) :
    SameButThreads sh { joined c sh k with yieldFor := y, wdcnt := n } := by
  rw [joined, releaseJ_only, arrived_only hn k]
  exact ⟨rfl, (sameButThreads_endSpans sh (joinParks c sh k.toNat)).2⟩

theorem lget_pcs_joined (hn : sh.handler = false) (k : BitVec 4) {i : Nat} (hi : i < 32) :
    lget (joined c sh k).pcs i 0#64 = if bit c.ctl i then c.pc + BitVec.ofNat 64 c.len else lget sh.pcs i 0#64 := by
  rw [joined, releaseJ_only]
  exact lget_pcs_advance (sh := endSpans sh _) hn hi

theorem jE_arrived (hn : sh.handler = false) (k : BitVec 4) (j : Nat) : jE (arrived c sh k) j = jE sh j := by
  rw [arrived, advance_only (show (endSpans sh _).handler = false from hn), jE_setPark, jE_setJ]
  split
  · subst_vars; rfl
  · rfl

theorem jA_arrived (hn : sh.handler = false) (k : BitVec 4) (j : Nat) :
    jA (arrived c sh k) j = if j = k.toNat then jA sh k.toNat ||| (c.ctl &&& jE sh k.toNat) else jA sh j := by
  rw [arrived, advance_only (show (endSpans sh _).handler = false from hn), jA_setPark, jA_setJ]
  rfl

theorem parkOf_arrived (hn : sh.handler = false) (k : BitVec 4) {i : Nat} (hi : i < 32) :
    parkOf (arrived c sh k) i = if bit (joinParks c sh k.toNat) i then .join k else parkOf sh i := by
  rw [arrived, parkOf_setPark _ _ _ hi, advance_only (show (endSpans sh _).handler = false from hn)]
  rfl

/-- The threads that come count for those that jK expects, and only for them. -/
theorem expected_missing (e a m : Mask) : e &&& ~~~(a ||| (m &&& e)) = e &&& ~~~(a ||| m) := by
  refine mask_ext fun i hi => ?_
  simp only [bit_and, bit_or, bit_not _ hi]
  cases bit e i <;> simp

theorem complete_arrived (hn : sh.handler = false) (k : BitVec 4) :
    Complete (arrived c sh k) k.toNat ↔ jE sh k.toNat ≠ 0#32 ∧ jE sh k.toNat &&& ~~~(jA sh k.toNat ||| c.ctl) = 0#32 := by
  rw [Complete, jE_arrived hn, jA_arrived hn, if_pos rfl, expected_missing]

theorem joinHolds_of_arrived (hn : sh.handler = false) (k : BitVec 4) {e a : Word} {y : List (Nat × Nat)} {n : Nat}
    (h : jE (joined c sh k) k.toNat = e ∧ jA (joined c sh k) k.toNat = a) :
    JoinHolds sh { joined c sh k with yieldFor := y, wdcnt := n } k e a := by
  refine ⟨h, fun j hj => ?_⟩
  have := releaseJ_other (arrived c sh k) hj
  rwa [jE_arrived hn, jA_arrived hn, if_neg hj] at this

end Join

end Sys2Proof.Proofs
end

section
/-! PROOFS. The statements on JOIN, JLEAVE, YIELD and EXIT (R22 to R24, R37, R39, R211), and the matrix token where its holder ends (R30). -/

namespace Sys2Proof.Proofs

open Sys2Proof Sys2Proof.Machine Sys2Proof.Claim

/-! ## The matrix token goes on (R29, R30) -/

theorem passToken_nil {s : State} {core : Nat} (h : (getCore s core).tokQ = []) :
    passToken s core = modCore s core (fun c => { c with token := none }) := by
  rw [passToken, h]

theorem stores_passToken (s : State) (core : Nat) : StoresNothing s (passToken s core) := by
  unfold passToken
  split
  · exact stores_trans (stores_trans (stores_count ..) (stores_modCore _ _ _ rfl rfl)) (stores_modSheaf ..)
  · exact stores_modCore _ _ _ rfl rfl

/-- A sheaf that does not wait for the token is as it was when the token goes on. -/
theorem getSheaf_passToken {s : State} {core b w : Nat} (h : (b, w) ∉ (getCore s core).tokQ) :
    getSheaf (passToken s core) b w = getSheaf s b w := by
  unfold passToken
  split
  · rename_i t rest hq
    refine (getSheaf_modSheaf_ne _ fun e => h ?_).trans rfl
    rw [hq]
    exact List.mem_cons.2 (.inl e)
  · rfl

/-- The state as a sheaf leaves the queue for the token. -/
def offTokenQueue (s : State) (core b w : Nat) : State :=
  modCore (if (getCore s core).tokQ.contains (b, w) then count s core 15 (Config.freeNat (salt s 5204)) else s) core
    (fun c => { c with tokQ := c.tokQ.filter (fun t => t != (b, w)) })

theorem dropToken_eq (s : State) (core b w : Nat) :
    dropToken s core b w = if (getCore (offTokenQueue s core b w) core).token = some (b, w)
      then passToken (offTokenQueue s core b w) core else offTokenQueue s core b w := rfl

theorem stores_offTokenQueue (s : State) (core b w : Nat) : StoresNothing s (offTokenQueue s core b w) := by
  refine stores_trans ?_ (stores_modCore _ _ _ rfl rfl)
  split
  · exact stores_count ..
  · exact stores_refl s

theorem beds_offTokenQueue (s : State) (core b w : Nat) : (offTokenQueue s core b w).beds = s.beds := by
  rw [offTokenQueue, modCore_beds]
  split <;> rfl

theorem getSheaf_offTokenQueue (s : State) (core b w b' w' : Nat) : getSheaf (offTokenQueue s core b w) b' w' = getSheaf s b' w' := by
  rw [getSheaf, getBed, beds_offTokenQueue]; rfl

theorem not_mem_offTokenQueue (s : State) (core b w : Nat) : (b, w) ∉ (getCore (offTokenQueue s core b w) core).tokQ := by
  simp [offTokenQueue]

theorem stores_dropToken (s : State) (core b w : Nat) : StoresNothing s (dropToken s core b w) := by
  rw [dropToken_eq]
  split
  · exact stores_trans (stores_offTokenQueue ..) (stores_passToken ..)
  · exact stores_offTokenQueue ..

theorem getSheaf_dropToken (s : State) (core b w : Nat) : getSheaf (dropToken s core b w) b w = getSheaf s b w := by
  rw [dropToken_eq]
  split
  · rw [getSheaf_passToken (not_mem_offTokenQueue s core b w), getSheaf_offTokenQueue]
  · exact getSheaf_offTokenQueue ..

/-! ## A sheaf that may have ended (R30, R36, R39) -/

/-- What can follow a sheaf's end: nothing, its token going on, and a wave or the bed's exit being due. -/
theorem afterEnd_cases (s : State) (b w : Nat) :
    afterEnd s b w = s ∨ ∃ core, afterEnd s b w = dropToken s core b w ∨ ∃ e, afterEnd s b w = due (dropToken s core b w) e := by
  unfold afterEnd
  cases getSheaf s b w with
  | none => exact .inl rfl
  | some sh =>
    dsimp only
    split
    · refine .inr ⟨sh.place.core, ?_⟩
      split
      · exact .inl rfl
      · split
        · exact .inl rfl
        · split
          · exact .inr ⟨_, rfl⟩
          · split
            · exact .inr ⟨_, rfl⟩
            · exact .inl rfl
    · exact .inl rfl

theorem stores_afterEnd (s : State) (b w : Nat) : StoresNothing s (afterEnd s b w) := by
  rcases afterEnd_cases s b w with h | ⟨core, h | ⟨e, h⟩⟩ <;> rw [h]
  · exact stores_refl s
  · exact stores_dropToken ..
  · exact stores_trans (stores_dropToken ..) (stores_due ..)

/-- What follows a sheaf's end leaves that sheaf. -/
theorem getSheaf_afterEnd (s : State) (b w : Nat) : getSheaf (afterEnd s b w) b w = getSheaf s b w := by
  rcases afterEnd_cases s b w with h | ⟨core, h | ⟨e, h⟩⟩ <;> rw [h]
  · exact getSheaf_dropToken ..
  · exact getSheaf_dropToken ..

/-- Nothing follows while a thread of the sheaf has not ended. -/
theorem afterEnd_of_running {s : State} {b w : Nat} {sh : Sheaf} (h : getSheaf s b w = some sh) (he : sheafEnded sh = false) :
    afterEnd s b w = s := by
  simp [afterEnd, h, he]

theorem not_sheafEnded {sh : Sheaf} {i : Nat} (hi : i < 32) (h : parkOf sh i ≠ .done) : sheafEnded sh = false := by
  refine decide_eq_false fun e => ?_
  have := bit_full hi
  rw [← e, doneMask, bit_maskOf _ hi] at this
  exact h (by simpa using this)

section Statements

variable {s : State} {c : Cur} {sh : Sheaf}

/-- JOIN, with the levels of its register that are in the spill area counted (R22, R211). -/
theorem join_statement (hi : Issues s c sh) (hn : sh.handler = false) (hrun : ∀ i, i < 32 → bit c.ctl i = true → parkOf sh i = .run)
    (k : BitVec 4) (hs : spill sh k.toNat = 0 ∨ jE sh k.toNat ≠ 0#32) :
    ∃ t sh', exec (.join k) s = .next t ∧ getSheaf t c.bed c.sheaf = some sh' ∧ StoresNothing s t ∧ SameButThreads sh sh' ∧
      (∀ i, i < 32 → lget sh'.pcs i 0#64 = if bit c.ctl i then c.pc + BitVec.ofNat 64 c.len else lget sh.pcs i 0#64) ∧
      (jE sh k.toNat ≠ 0#32 → jE sh k.toNat &&& ~~~(jA sh k.toNat ||| c.ctl) = 0#32 → JoinHolds sh sh' k 0#32 0#32 ∧
        (spill sh k.toNat = 0 → Released sh sh' k (jA sh k.toNat)) ∧
        (spill sh k.toNat ≠ 0 → ∀ i, i < 32 → parkOf sh' i =
          if bit (c.ctl &&& ~~~(jE sh k.toNat) &&& ~~~(jA sh k.toNat)) i then .join k
          else if parkOf sh i = .join k ∧ bit (jA sh k.toNat) i = true then .run else parkOf sh i)) ∧
      (jE sh k.toNat &&& ~~~(jA sh k.toNat ||| c.ctl) ≠ 0#32 →
        JoinHolds sh sh' k (jE sh k.toNat) (jA sh k.toNat ||| (c.ctl &&& jE sh k.toNat)) ∧
        Parked sh sh' (if spill sh k.toNat = 0 then c.ctl &&& jE sh k.toNat else c.ctl) (.join k)) ∧
      (jE sh k.toNat = 0#32 → jA sh k.toNat = 0#32 → JoinHolds sh sh' k 0#32 0#32 ∧ Parked sh sh' 0#32 .run) := by
  classical
  obtain ⟨t, y, n, ht, hg, hst⟩ := join_leaves hn hi k hs
  have hk : BitVec.ofNat 4 k.toNat = k := by simp
  have hpark : ∀ i, i < 32 → parkOf (joined c sh k) i =
      if (jE sh k.toNat ≠ 0#32 ∧ jE sh k.toNat &&& ~~~(jA sh k.toNat ||| c.ctl) = 0#32) ∧
          (bit (joinParks c sh k.toNat) i = true ∨ parkOf sh i = .join k) ∧
          (bit (jA sh k.toNat) i || (bit c.ctl i && bit (jE sh k.toNat) i)) = true then .run
      else if bit (joinParks c sh k.toNat) i then .join k else parkOf sh i := fun i hlt => by
    rw [joined, parkOf_releaseJ _ _ hlt, complete_arrived hn, parkOf_arrived hn k hlt, jA_arrived hn, if_pos rfl, hk, bit_or, bit_and]
    cases hb : bit (joinParks c sh k.toNat) i <;> simp
  refine ⟨t, _, ht, hg, hst, sameButThreads_joined hn k y n, fun i hlt => lget_pcs_joined hn k hlt, fun he hc => ?_, fun hc => ?_,
    fun he ha => ?_⟩
  · refine ⟨joinHolds_of_arrived hn k (releaseJ_clears (.inl ((complete_arrived hn k).2 ⟨he, hc⟩))), fun h0 i hlt => ?_, fun h0 i hlt => ?_⟩
    · refine (hpark i hlt).trans ?_
      have := hrun i hlt
      simp only [joinParks, h0, Nat.lt_irrefl, if_false, bit_and]
      cases h1 : bit c.ctl i <;> cases h2 : bit (jE sh k.toNat) i <;> simp_all
    · refine (hpark i hlt).trans ?_
      have := hrun i hlt
      simp only [joinParks, Nat.pos_of_ne_zero h0, if_true, bit_and, bit_not _ hlt]
      cases h1 : bit c.ctl i <;> cases h2 : bit (jE sh k.toNat) i <;> cases h3 : bit (jA sh k.toNat) i <;> simp_all
  · have he : jE sh k.toNat ≠ 0#32 := fun e => hc (by simp [e])
    have hwait : joined c sh k = arrived c sh k :=
      releaseJ_waits (fun h => hc ((complete_arrived hn k).1 h).2) (fun h => he (by rw [← jE_arrived hn k]; exact h.1))
    refine ⟨joinHolds_of_arrived hn k (by rw [hwait, jE_arrived hn, jA_arrived hn, if_pos rfl]; exact ⟨rfl, rfl⟩), fun i hlt => ?_⟩
    refine (hpark i hlt).trans ?_
    rw [if_neg fun h => hc h.1.2]
    by_cases h0 : spill sh k.toNat = 0
    · simp [joinParks, h0]
    · simp [joinParks, h0, Nat.pos_of_ne_zero h0]
  · have h0 : spill sh k.toNat = 0 := hs.resolve_right (fun h => h he)
    have hidle : Idle (arrived c sh k) k.toNat := ⟨by rw [jE_arrived hn, he], by rw [jA_arrived hn, if_pos rfl, he, ha]; simp⟩
    refine ⟨joinHolds_of_arrived hn k (releaseJ_clears (.inr hidle)), fun i hlt => ?_⟩
    refine (hpark i hlt).trans ?_
    simp [joinParks, h0, he]

theorem jleave_overflows (hi : Issues s c sh) (hn : sh.handler = false) (k : BitVec 4) (hs : spill sh k.toNat ≠ 0)
    (h : jE sh k.toNat = 0#32 ∨ c.ctl &&& ~~~(jE sh k.toNat) ≠ 0#32) : TrapsWith (.jleave k) s c sh 13 (k.toNat + 32) c.pc :=
  trapsWith_of_detail hn (by rw [exec_jleave, execJleave, onSheaf_issues hi]; exact if_pos ⟨Nat.pos_of_ne_zero hs, h⟩)

theorem jleave_becomes (hi : Issues s c sh) (k : BitVec 4)
    (h : spill sh k.toNat = 0 ∨ jE sh k.toNat ≠ 0#32 ∧ c.ctl &&& ~~~(jE sh k.toNat) = 0#32) :
    Becomes (.jleave k) s c (leaveJ sh k.toNat c.ctl) := by
  refine becomes_of_done ?_
  rw [exec_jleave, execJleave, onSheaf_issues hi]
  refine if_neg ?_
  rintro ⟨h1, h2⟩
  rcases h with h | ⟨he, hm⟩
  · omega
  · exact h2.elim he (fun h => h hm)

/-- What JLEAVE leaves of a rejoin register (R23). -/
theorem jleave_statement (sh : Sheaf) (m : Mask) (k : BitVec 4) :
    (jE sh k.toNat &&& ~~~m &&& ~~~(jA sh k.toNat) ≠ 0#32 →
      leaveJ sh k.toNat m = { sh with je := (leaveJ sh k.toNat m).je, ja := (leaveJ sh k.toNat m).ja } ∧
      JoinHolds sh (leaveJ sh k.toNat m) k (jE sh k.toNat &&& ~~~m) (jA sh k.toNat)) ∧
    (LeaveReleases sh m k.toNat →
      leaveJ sh k.toNat m =
        { sh with je := (leaveJ sh k.toNat m).je, ja := (leaveJ sh k.toNat m).ja, park := (leaveJ sh k.toNat m).park } ∧
      JoinHolds sh (leaveJ sh k.toNat m) k 0#32 0#32 ∧ Released sh (leaveJ sh k.toNat m) k (jA sh k.toNat)) ∧
    (jE sh k.toNat &&& ~~~m = 0#32 → (∀ i, i < 32 → parkOf sh i = .join k → bit (jA sh k.toNat) i = false) →
      leaveJ sh k.toNat m = { sh with je := (leaveJ sh k.toNat m).je, ja := (leaveJ sh k.toNat m).ja } ∧
      JoinHolds sh (leaveJ sh k.toNat m) k 0#32 0#32) := by
  classical
  have hk : BitVec.ofNat 4 k.toNat = k := by simp
  refine ⟨fun h => ?_, fun h => ⟨leaveJ_only .., ⟨leaveJ_releases h, fun j hj => leaveJ_other sh m hj⟩, fun i hi => ?_⟩, fun he hp => ?_⟩
  · rw [leaveJ_waits h]
    exact ⟨rfl, joinHolds_setJ ..⟩
  · rw [parkOf_leaveJ _ _ _ hi, hk]
    simp [h]
  · rw [leaveJ_idle he (by rwa [hk])]
    exact ⟨rfl, by simp [jE_setJ, jA_setJ], fun j hj => by simp [jE_setJ, jA_setJ, hj]⟩

/-- YIELD and YIELD.g end the spans of their threads, move on, and give the slot away (R37, R180). -/
theorem yieldOp_statement (hi : Issues s c sh) {i : Instr} (he : exec i s = yieldOp s) :
    ∃ t sh', exec i s = .next t ∧ SameButThreads sh sh' ∧ sh'.park = sh.park ∧
      sh'.pcs = sh.pcs ∧ sh'.je = sh.je ∧ sh'.ja = sh.ja ∧ Yielded s t c (advance c sh') := by
  refine ⟨_, endSpans sh c.ctl, ?_, sameButThreads_endSpans .., rfl, rfl, rfl, rfl, yielded_put hi _⟩
  rw [he, yieldOp, onSheaf_issues hi]
  rfl

theorem joins : Joins := by
  intro k s c sh hi
  refine ⟨fun hn hrun hs => join_statement hi hn hrun k hs,
    fun hn hs => ⟨fun he => trapsWith_of_detail hn (exec_join_overflow hi k hs he), fun h => jleave_overflows hi hn k hs h⟩,
    fun h => ⟨_, jleave_becomes hi k h, jleave_statement sh c.ctl k⟩, fun i h => ?_⟩
  rcases List.mem_pair.1 h with rfl | rfl
  · exact yieldOp_statement hi (exec_yield s)
  · exact yieldOp_statement hi (exec_yieldG s)

/-! ## EXIT -/

theorem sixteen_registers : (below 16).Nodup ∧ (∀ k ∈ below 16, k < 16) ∧ ∀ k, k < 16 → k ∈ below 16 := by decide

theorem exec_exit_ends (hi : Issues s c sh) (hn : sh.handler = false) :
    exec .exit s = .next (afterEnd (putSheaf s c (endThreads sh c.ctl)) c.bed c.sheaf) := by
  rw [exec_exit, execExit, onSheaf_issues hi, if_neg (by simp [hn])]

/-- The threads of the mask as their end begins: they stand in DONE, and the others as they stood. -/
theorem parkOf_ending (sh : Sheaf) (m : Mask) {i : Nat} (hi : i < 32) :
    parkOf (setPark (endSpans sh m) m .done) i = if bit m i then .done else parkOf sh i := parkOf_setPark _ _ _ hi

theorem sameButThreads_endThreads (sh : Sheaf) (m : Mask) : SameButThreads sh (endThreads sh m) ∧ (endThreads sh m).pcs = sh.pcs := by
  obtain ⟨p, e, a, h⟩ := foldl_endIn_only m (below 16) (setPark (endSpans sh m) m .done)
  rw [endThreads_eq, h]
  exact ⟨⟨rfl, (sameButThreads_endSpans sh m).2⟩, rfl⟩

/-- The park states that the end of some threads leaves (R23). -/
theorem parkOf_endThreads (sh : Sheaf) (m : Mask) (hrun : ∀ i, i < 32 → bit m i = true → parkOf sh i = .run) {i : Nat} (hi : i < 32) :
    (bit m i = true → parkOf (endThreads sh m) i = .done) ∧
    ((∃ k : BitVec 4, parkOf sh i = .join k ∧ bit (jA sh k.toNat) i = true ∧ LeaveReleases sh m k.toNat) →
      parkOf (endThreads sh m) i = .run) ∧
    (bit m i = false →
      (∀ k : BitVec 4, parkOf sh i = .join k → bit (jA sh k.toNat) i = true → ¬LeaveReleases sh m k.toNat) →
      parkOf (endThreads sh m) i = parkOf sh i) := by
  obtain ⟨hnd, h16, hmem⟩ := sixteen_registers
  have hp := parkOf_ending sh m hi
  rw [endThreads_eq]
  refine ⟨fun hb => ?_, ?_, fun hb h => ?_⟩
  · rw [if_pos hb] at hp
    rw [parkOf_foldl_endIn_stays m hnd h16 _ hi (fun k _ hj => by rw [hp] at hj; cases hj), hp]
  · rintro ⟨k, hj, ha, hrel⟩
    have hb : bit m i = false := by
      cases hb : bit m i
      · rfl
      · rw [hrun i hi hb] at hj; cases hj
    rw [if_neg (by simp [hb])] at hp
    exact parkOf_foldl_endIn_released m hnd h16 _ hi (hmem k.toNat k.isLt) (by rw [hp, hj]; simp) ha hrel
  · rw [if_neg (by simp [hb])] at hp
    rw [parkOf_foldl_endIn_stays m hnd h16 _ hi, hp]
    intro k hk hj ha
    rw [hp] at hj
    have hkk : (BitVec.ofNat 4 k).toNat = k := by simp [Nat.mod_eq_of_lt (h16 k hk)]
    have := h _ hj (by rw [hkk]; exact ha)
    rwa [hkk] at this

theorem joins_endThreads (sh : Sheaf) (m : Mask) {k : Nat} (hk : k < 16) :
    (jE sh k = 0#32 → jE (endThreads sh m) k = 0#32 ∧ jA (endThreads sh m) k = jA sh k) ∧
    (jE sh k &&& ~~~m &&& ~~~(jA sh k) ≠ 0#32 → jE (endThreads sh m) k = jE sh k &&& ~~~m ∧ jA (endThreads sh m) k = jA sh k) ∧
    (LeaveReleases sh m k → jE (endThreads sh m) k = 0#32 ∧ jA (endThreads sh m) k = 0#32) ∧
    (jE sh k ≠ 0#32 → jE sh k &&& ~~~m = 0#32 → (∀ i, i < 32 → parkOf sh i = .join (BitVec.ofNat 4 k) → bit (jA sh k) i = false) →
      jE (endThreads sh m) k = 0#32 ∧ jA (endThreads sh m) k = 0#32) := by
  obtain ⟨hnd, -, hmem⟩ := sixteen_registers
  obtain ⟨h1, h2, h3, h4⟩ := foldl_endIn_join m hnd (setPark (endSpans sh m) m .done) (hmem k hk)
  rw [endThreads_eq]
  refine ⟨h1, h2, h3, fun h0 he hw => h4 h0 he fun i hi hj => hw i hi ?_⟩
  rw [parkOf_ending sh m hi] at hj
  split at hj
  · cases hj
  · exact hj

theorem threadEnds : ThreadEnds := by
  intro s c sh hi hn hrun
  obtain ⟨hsame, hpcs⟩ := sameButThreads_endThreads sh c.ctl
  have hput := getSheaf_putSheaf hi (endThreads sh c.ctl)
  refine ⟨_, endThreads sh c.ctl, exec_exit_ends hi hn, (getSheaf_afterEnd ..).trans hput,
    stores_trans (stores_putSheaf ..) (stores_afterEnd ..), hsame, fun i hlt => parkOf_endThreads sh c.ctl hrun hlt, hpcs,
    fun k hk => joins_endThreads sh c.ctl hk, ?_⟩
  rintro ⟨i, hlt, hne⟩
  exact afterEnd_of_running hput (not_sheafEnded hlt hne)

/-- Settles O26: JOIN, JLEAVE and the yields by the release test of a rejoin register, EXIT by the test of each in turn. -/
theorem joinsAndEnds : Obligations.JoinsAndEnds := ⟨joins, threadEnds⟩

end Statements

end Sys2Proof.Proofs
end

section
/-! PROOFS. Group registers that an instruction gives, waits where the threads stand, and the matrix token (R28 to R30, R280). -/

namespace Sys2Proof.Proofs

open Sys2Proof Sys2Proof.Machine Sys2Proof.Claim

section Forms

variable {s : State} {c : Cur} {sh : Sheaf}

/-- An instruction whose answer is one group register written gives that register's value. -/
theorem gives_of_done {i : Instr} (hi : Issues s c sh) (d : BitVec 7) (x : Word) (h : exec i s = done s c (writeGroup sh (rn d) x false)) :
    ∃ t, Gives i s t c sh d x ∧ StoresNothing s t :=
  ⟨_, ⟨h, _, getSheaf_putSheaf hi _, groupHolds_writeGroup sh (rn d) x false, groupFrame_writeGroup sh (rn d) (rn_lt d) x false⟩, stores_putSheaf ..⟩

/-- Threads that park where they stand: only spans, park states and the program counters of the threads that are off change (R14). -/
theorem sameButThreads_parkHere (c : Cur) (sh : Sheaf) (p : Park) : SameButThreads sh (parkHere c sh p) :=
  ⟨rfl, (sameButThreads_endSpans sh c.ctl).2⟩

theorem parkOf_parkHere (c : Cur) (sh : Sheaf) (p : Park) {i : Nat} (hi : i < 32) :
    parkOf (parkHere c sh p) i = if bit (exm c sh) i then p else parkOf sh i := parkOf_setPark (endSpans sh c.ctl) _ _ hi

theorem lget_pcs_parkHere (c : Cur) (sh : Sheaf) (p : Park) {i : Nat} (hi : i < 32) :
    lget (parkHere c sh p).pcs i 0#64 =
      if bit c.ctl i = true ∧ bit (exm c sh) i = false then c.pc + BitVec.ofNat 64 c.len else lget sh.pcs i 0#64 := by
  simp [parkHere, hi]

theorem stores_parkWait (s : State) (c : Cur) (sh : Sheaf) (w : WaitFor) : StoresNothing s (parkWait s c sh w) := by
  refine stores_trans ?_ (stores_yieldSheaf ..)
  split
  · exact stores_refl s
  · exact stores_putSheaf ..

/-- A sheaf that parks in a wait, or whose handler stands at its instruction. -/
theorem getSheaf_parkWait {u : State} (hu : getSheaf u c.bed c.sheaf = some sh) (w : WaitFor) :
    ∃ y n, getSheaf (parkWait u c sh w) c.bed c.sheaf =
      some { (if sh.handler then sh else parkHere c sh (.wait w)) with yieldFor := y, wdcnt := n } := by
  unfold parkWait
  cases sh.handler
  · exact ⟨_, _, getSheaf_yieldSheaf (getSheaf_setSheaf_self hu _)⟩
  · exact ⟨_, _, getSheaf_yieldSheaf hu⟩

/-- An instruction that waits, in a state where what it does before it waits leaves its sheaf and stores nothing (R14, R343). -/
theorem waiting_of_parkWait {i : Instr} {u : State} (hu : getSheaf u c.bed c.sheaf = some sh) (hs : StoresNothing s u) {w : WaitFor} {t : State}
    (he : exec i s = .next t) (ht : StoresNothing (parkWait u c sh w) t)
    (hg : getSheaf t c.bed c.sheaf = getSheaf (parkWait u c sh w) c.bed c.sheaf) : Waiting i s t c sh w := by
  obtain ⟨y, n, hp⟩ := getSheaf_parkWait hu w
  refine ⟨he, stores_trans (stores_trans hs (stores_parkWait ..)) ht, _, hg.trans hp, ?_⟩
  cases hh : sh.handler
  · refine ⟨⟨rfl, (sameButThreads_parkHere c sh (.wait w)).2⟩, fun i hlt => ?_, fun i hlt hb => ?_⟩
    · exact parkOf_parkHere c sh (.wait w) hlt
    · exact (lget_pcs_parkHere c sh (.wait w) hlt).trans (if_neg fun h => by simp [hb] at h)
  · exact ⟨⟨rfl, rfl⟩, fun i _ => .symm (if_neg (by simp)), fun i _ _ => rfl⟩

end Forms

section Token

variable {s : State} {c : Cur} {sh : Sheaf}

theorem roleBars_iff : roleBars s c.bed sh = true ↔ Barred s c sh := by simp [roleBars, Barred]

theorem coreBecomes_modCore {u : State} (hu : u.cores = s.cores) (core : Nat) (f : Core → Core) : CoreBecomes s (modCore u core f) core f := by
  have hg : ∀ k, getCore u k = getCore s k := fun k => by rw [getCore, hu]; rfl
  exact ⟨by rw [getCore_modCore_self, hg], fun k hk => by rw [getCore_modCore_ne u f hk, hg]⟩

/-- A change that leaves the cores leaves what became of one. -/
theorem coreBecomes_of_cores {t u : State} {core : Nat} {f : Core → Core} (h : CoreBecomes s t core f) (hc : u.cores = t.cores) :
    CoreBecomes s u core f := by
  have hg : ∀ k, getCore u k = getCore t k := fun k => by rw [getCore, hc]; rfl
  exact ⟨by rw [hg, h.1], fun k hk => by rw [hg, h.2 k hk]⟩

/-- Waiting where the threads stand changes no core but for what it counts. -/
theorem getCore_parkWait (u : State) (c : Cur) (sh : Sheaf) (w : WaitFor) (k : Nat) :
    (getCore (parkWait u c sh w) k).token = (getCore u k).token ∧ (getCore (parkWait u c sh w) k).tokQ = (getCore u k).tokQ := by
  have hc : ∀ v : State, (getCore (yieldSheaf v c.bed c.sheaf) k).token = (getCore v k).token ∧
      (getCore (yieldSheaf v c.bed c.sheaf) k).tokQ = (getCore v k).tokQ := fun v => by
    unfold yieldSheaf
    split
    · exact ⟨rfl, rfl⟩
    · rw [count, getCore_modCore]
      simp only [getCore, setSheaf_cores]
      split
      · subst_vars; exact ⟨rfl, rfl⟩
      · exact ⟨rfl, rfl⟩
  rw [parkWait, (hc _).1, (hc _).2]
  split
  · exact ⟨rfl, rfl⟩
  · simp [getCore]

theorem mtokTest_gives (hi : Issues s c sh) (ha : Active c sh) (d : BitVec 7) :
    ∃ t, Gives (.mtokTest d) s t c sh d (BitVec.ofNat 32
      ((if (getCore s sh.place.core).token = none then 0 else if (getCore s sh.place.core).token = some (c.bed, c.sheaf) then 1 else 2) +
        256 * ((getCore s sh.place.core).tokQ.length % 256))) ∧ StoresNothing s t := by
  refine gives_of_done hi d _ ?_
  rw [exec_mtokTest, execMtokTest, groupOp_issues hi ha, Nat.mul_comm 256]
  refine congrArg (fun n => done s c (writeGroup sh (rn d) (BitVec.ofNat 32 (n + _)) false)) ?_
  generalize (getCore s sh.place.core).token = o
  cases o with
  | none => rfl
  | some x => simp

theorem mtok_barred (hi : Issues s c sh) (ha : Active c sh) (hb : Barred s c sh) :
    exec .mtokTake s = trap s c sh (plainTrap 0) ∧ exec .mtokPass s = trap s c sh (plainTrap 0) := by
  have h := roleBars_iff.2 hb
  exact ⟨by rw [exec_mtokTake, execMtokTake, groupOp_issues hi ha]; exact if_pos h,
    by rw [exec_mtokPass, execMtokPass, groupOp_issues hi ha]; exact if_pos h⟩

/-- TAKE of a free token. -/
theorem mtokTake_free (hi : Issues s c sh) (ha : Active c sh) (hb : ¬Barred s c sh) (ht : (getCore s sh.place.core).token = none) :
    ∃ t, exec .mtokTake s = .next t ∧ getSheaf t c.bed c.sheaf = some (advance c sh) ∧
      CoreBecomes s t sh.place.core (fun x => { x with token := some (c.bed, c.sheaf) }) := by
  refine ⟨_, ?_, getSheaf_setSheaf_self (s := modCore s sh.place.core _) hi.2 (advance c sh),
    coreBecomes_of_cores (coreBecomes_modCore rfl sh.place.core _) (setSheaf_cores ..)⟩
  rw [exec_mtokTake, execMtokTake, groupOp_issues hi ha]
  simp only [if_neg (mt roleBars_iff.1 hb), ht]
  rfl

/-- TAKE by the sheaf that holds the token. -/
theorem mtokTake_held (hi : Issues s c sh) (ha : Active c sh) (hb : ¬Barred s c sh)
    (ht : (getCore s sh.place.core).token = some (c.bed, c.sheaf)) : exec .mtokTake s = .next (putSheaf s c (advance c sh)) := by
  rw [exec_mtokTake, execMtokTake, groupOp_issues hi ha]
  simp only [if_neg (mt roleBars_iff.1 hb), ht, if_true]
  rfl

/-- TAKE of a token that another sheaf holds: the sheaf has one entry in the list however often it asks (log 100). -/
theorem mtokTake_waits (hi : Issues s c sh) (ha : Active c sh) (hb : ¬Barred s c sh) {x : Nat × Nat}
    (ht : (getCore s sh.place.core).token = some x) (hx : x ≠ (c.bed, c.sheaf)) :
    ∃ t, Waiting .mtokTake s t c sh .token ∧ (getCore t sh.place.core).token = some x ∧
      ((c.bed, c.sheaf) ∉ (getCore s sh.place.core).tokQ →
        (getCore t sh.place.core).tokQ = (getCore s sh.place.core).tokQ ++ [(c.bed, c.sheaf)]) ∧
      ((c.bed, c.sheaf) ∈ (getCore s sh.place.core).tokQ → (getCore t sh.place.core).tokQ = (getCore s sh.place.core).tokQ) := by
  have he : exec .mtokTake s = .next (parkWait (modCore s sh.place.core (fun k =>
      { k with tokQ := if k.tokQ.contains (c.bed, c.sheaf) then k.tokQ else k.tokQ ++ [(c.bed, c.sheaf)] })) c sh .token) := by
    rw [exec_mtokTake, execMtokTake, groupOp_issues hi ha]
    simp only [if_neg (mt roleBars_iff.1 hb), ht, if_neg hx]
  refine ⟨_, waiting_of_parkWait (s := s) (u := modCore s sh.place.core _) hi.2 (stores_modCore _ _ _ rfl rfl) he (stores_refl _) rfl, ?_⟩
  rw [(getCore_parkWait ..).1, (getCore_parkWait ..).2, getCore_modCore_self]
  exact ⟨ht, fun h => by simp [h], fun h => by simp [h]⟩

theorem mtokPass_without (hi : Issues s c sh) (ha : Active c sh) (hb : ¬Barred s c sh)
    (ht : (getCore s sh.place.core).token ≠ some (c.bed, c.sheaf)) : exec .mtokPass s = trap s c sh (plainTrap 12) := by
  rw [exec_mtokPass, execMtokPass, groupOp_issues hi ha]
  simp only [if_neg (mt roleBars_iff.1 hb), if_neg ht]
  rfl

theorem exec_mtokPass_held (hi : Issues s c sh) (ha : Active c sh) (hb : ¬Barred s c sh)
    (ht : (getCore s sh.place.core).token = some (c.bed, c.sheaf)) :
    exec .mtokPass s = .next (passToken (putSheaf s c (advance c sh)) sh.place.core) := by
  rw [exec_mtokPass, execMtokPass, groupOp_issues hi ha]
  simp only [if_neg (mt roleBars_iff.1 hb), ht, if_true]
  rfl

theorem getCore_putSheaf (s : State) (c : Cur) (sh : Sheaf) (k : Nat) : getCore (putSheaf s c sh) k = getCore s k := by
  rw [getCore, putSheaf_cores]; rfl

/-- PASS with nobody waiting frees the token. -/
theorem mtokPass_frees (hi : Issues s c sh) (ha : Active c sh) (hb : ¬Barred s c sh)
    (ht : (getCore s sh.place.core).token = some (c.bed, c.sheaf)) (hq : (getCore s sh.place.core).tokQ = []) :
    ∃ t, exec .mtokPass s = .next t ∧ getSheaf t c.bed c.sheaf = some (advance c sh) ∧
      CoreBecomes s t sh.place.core (fun x => { x with token := none }) := by
  refine ⟨_, exec_mtokPass_held hi ha hb ht, ?_, ?_⟩ <;> rw [passToken_nil (by rw [getCore_putSheaf, hq])]
  · exact getSheaf_putSheaf hi _
  · exact coreBecomes_modCore (putSheaf_cores ..) ..

/-- The threads of a sheaf that wait for the token. -/
def tokenWaiters (sh : Sheaf) : Mask := maskOf (fun i => decide (parkOf sh i = .wait .token))

theorem waitMask_token (sh : Sheaf) : waitMask sh (fun x => x == .token) = tokenWaiters sh := by
  refine mask_ext fun i hi => ?_
  rw [waitMask, tokenWaiters, bit_maskOf _ hi, bit_maskOf _ hi]
  cases parkOf sh i <;> simp [Bool.beq_eq_decide_eq]

/-- A sheaf whose wait for the token ends: its threads go on behind their TAKE (R29). -/
def tokenServed (sh : Sheaf) : Sheaf :=
  { setPark sh (tokenWaiters sh) .run with
    pcs := lanes.map (fun i => if bit (tokenWaiters sh) i then lget sh.pcs i 0#64 + 4#64 else lget sh.pcs i 0#64) }

theorem parked_tokenServed (sh : Sheaf) : Parked sh (tokenServed sh) (tokenWaiters sh) .run := fun _ hi => parkOf_setPark sh _ _ hi

theorem lget_pcs_tokenServed (sh : Sheaf) {i : Nat} (hi : i < 32) :
    lget (tokenServed sh).pcs i 0#64 = if bit (tokenWaiters sh) i then lget sh.pcs i 0#64 + 4#64 else lget sh.pcs i 0#64 := by
  simp only [tokenServed]
  exact lget_lanes_map _ hi _

theorem passToken_cons {u : State} {core : Nat} {x : Nat × Nat} {r : List (Nat × Nat)} (hq : (getCore u core).tokQ = x :: r) (hr : x ∉ r) :
    passToken u core = modSheaf (modCore (count u core 15 (Config.freeNat (salt u 5203))) core
      (fun k => { k with token := some x, tokQ := r })) x.1 x.2 tokenServed := by
  have hf : r.filter (fun y => y != x) = r :=
    List.filter_eq_self.2 (fun y hy => bne_iff_ne.2 (ne_of_mem_of_not_mem hy hr))
  unfold passToken
  rw [hq]
  simp only [hf, waitMask_token]
  rfl

theorem getSheaf_putSheaf_ne {c : Cur} {b w : Nat} (hc : Issues s c sh) (h : (b, w) ≠ (c.bed, c.sheaf)) (sh' : Sheaf) :
    getSheaf (putSheaf s c sh') b w = getSheaf s b w := by
  obtain ⟨bd, hb⟩ := getBed_of_getSheaf hc.2
  rw [putSheaf, getSheaf_setSheaf hb, if_neg fun e => h (Prod.ext e.1 e.2)]

/-- PASS gives the token to the first waiter, whose threads go on behind their TAKE. -/
theorem mtokPass_gives (hi : Issues s c sh) (ha : Active c sh) (hb : ¬Barred s c sh) {b w : Nat} {r : List (Nat × Nat)} {shw : Sheaf}
    (ht : (getCore s sh.place.core).token = some (c.bed, c.sheaf)) (hq : (getCore s sh.place.core).tokQ = (b, w) :: r) (hr : (b, w) ∉ r)
    (hne : (b, w) ≠ (c.bed, c.sheaf)) (hw : getSheaf s b w = some shw) :
    ∃ t pf, exec .mtokPass s = .next t ∧ getSheaf t c.bed c.sheaf = some (advance c sh) ∧
      CoreBecomes s t sh.place.core (fun x => { x with token := some (b, w), tokQ := r, perf := pf }) ∧
      getSheaf t b w = some (tokenServed shw) := by
  have hq1 : (getCore (putSheaf s c (advance c sh)) sh.place.core).tokQ = (b, w) :: r := by rw [getCore_putSheaf, hq]
  refine ⟨_, (getCore (count s sh.place.core 15 (Config.freeNat (salt (putSheaf s c (advance c sh)) 5203))) sh.place.core).perf,
    (exec_mtokPass_held hi ha hb ht).trans (congrArg _ (passToken_cons hq1 hr)), ?_, ?_, ?_⟩
  · rw [getSheaf_modSheaf_ne _ hne.symm]
    exact getSheaf_putSheaf hi _
  · refine coreBecomes_of_cores ⟨?_, fun k hk => ?_⟩ (modSheaf_cores ..)
    · rw [getCore_modCore_self, count, getCore_modCore_self, getCore_putSheaf, count, getCore_modCore_self]
    · rw [getCore_modCore_ne _ _ hk, count, getCore_modCore_ne _ _ hk, getCore_putSheaf]
  · rw [getSheaf_modSheaf, if_pos ⟨rfl, rfl⟩, getSheaf_modCore, getSheaf_count, getSheaf_putSheaf_ne hi hne, hw]
    rfl

end Token

/-- Settles O31: by the state of the token and of its queue. -/
theorem matrixToken : Obligations.MatrixToken := by
  unfold Obligations.MatrixToken
  intro d s c sh hi ha
  refine ⟨mtokTest_gives hi ha d, mtok_barred hi ha, fun hb => ⟨mtokTake_free hi ha hb, mtokTake_held hi ha hb,
    fun x => mtokTake_waits hi ha hb, mtokPass_without hi ha hb, mtokPass_frees hi ha hb, ?_⟩⟩
  intro b w r shw ht hq hr hne hw
  obtain ⟨t, pf, he, hs, hc, hg⟩ := mtokPass_gives hi ha hb ht hq hr hne hw
  exact ⟨t, _, pf, he, hs, hc, hg, parked_tokenServed shw, fun i hlt => lget_pcs_tokenServed shw hlt⟩

end Sys2Proof.Proofs
end

section
/-! PROOFS. Range tasks: grains of an interval, waits for a split, and the order of the victims (R31 to R34, R215). -/

namespace Sys2Proof.Proofs

open Sys2Proof Sys2Proof.Machine Sys2Proof.Claim

/-! ## A bed's change that keeps its sheaves -/

theorem getSheaf_modBed_kept (s : State) (b : Nat) {f : Bed → Bed} (hf : ∀ bd, (f bd).sheaves = bd.sheaves) (b' w : Nat) :
    getSheaf (modBed s b f) b' w = getSheaf s b' w := by
  unfold getSheaf
  rw [getBed_modBed]
  by_cases h : b' = b
  · subst h
    cases getBed s b' <;> simp [hf]
  · rw [if_neg h]

theorem getBed_modBed_self {s : State} {b : Nat} {bd : Bed} (h : getBed s b = some bd) (f : Bed → Bed) :
    getBed (modBed s b f) b = some (f bd) := by rw [getBed_modBed, if_pos rfl, h]; rfl

/-! ## What becomes of an interval -/

theorem intervalBecomes_of {s t : State} {b : Nat} {bd : Bed} {lo hi : Word} (hb : getBed s b = some bd)
    (ht : getBed t b = some { bd with lo := lo, hi := hi }) : IntervalBecomes s t b lo hi := by
  intro x hx
  obtain rfl : bd = x := Option.some.inj (hb.symm.trans hx)
  exact ⟨_, ht, rfl⟩

theorem intervalBecomes_setSheaf {s t : State} {b : Nat} {lo hi : Word} (h : IntervalBecomes s t b lo hi) (b' w : Nat) (sh : Sheaf) :
    IntervalBecomes s (setSheaf t b' w sh) b lo hi := by
  intro x hx
  obtain ⟨y, hy, he⟩ := h x hx
  rw [setSheaf, getBed_modBed]
  by_cases hb : b = b'
  · subst hb
    rw [if_pos rfl, hy]
    exact ⟨_, rfl, by rw [he]⟩
  · rw [if_neg hb]
    exact ⟨y, hy, he⟩

/-- What becomes of an interval where one step of a change leaves the bed. -/
theorem intervalBecomes_congr {s t u : State} {b : Nat} {lo hi : Word} (h : IntervalBecomes s t b lo hi) (he : getBed u b = getBed t b) :
    IntervalBecomes s u b lo hi := fun x hx => by rw [he]; exact h x hx

/-! ## Two group registers written one after the other -/

theorem pair_written (sh : Sheaf) {d : Nat} (h0 : d ≠ 0) (hd : d < 127) (x y : Word) :
    GroupHolds (writeGroup (writeGroup sh d x false) (d + 1) y false) d x false ∧
    GroupHolds (writeGroup (writeGroup sh d x false) (d + 1) y false) (d + 1) y false ∧
    GroupFrame [d, d + 1] sh (writeGroup (writeGroup sh d x false) (d + 1) y false) := by
  refine ⟨fun u k => ?_, groupHolds_writeGroup _ _ _ _,
    groupFrame_trans (groupFrame_writeGroup sh d (by omega) x false) (groupFrame_writeGroup _ (d + 1) (by omega) y false)⟩
  rw [groupView_writeGroup_miss _ _ _ _ _ _ _ (.inr (gidx_inj (by omega) (by omega) (by omega)))]
  exact groupHolds_writeGroup sh d x false u k

/-! ## The grain of an interval -/

theorem grainEnd_eq (bd : Bed) (g : Nat) : grainEnd bd g = BitVec.ofNat 32 (min (bd.lo.toNat + g) bd.hi.toNat) := by
  rw [grainEnd, Nat.min_def]
  congr 1
  split <;> split <;> omega

section Grain

variable {s : State} {b d g : Nat} {bd : Bed} {sh : Sheaf}

theorem takeGrain_some (hb : getBed s b = some bd) (h : bd.lo.toNat < bd.hi.toNat) :
    takeGrain s b d g sh = (modBed s b (fun bd => { bd with lo := grainEnd bd g }),
      writeGroup (writeGroup sh d bd.lo false) (d + 1) (grainEnd bd g) false) := by
  rw [takeGrain, hb]
  exact if_pos h

theorem takeGrain_empty (hb : getBed s b = some bd) (h : bd.hi.toNat ≤ bd.lo.toNat) :
    takeGrain s b d g sh = (s, writeGroup (writeGroup sh d 0xFFFFFFFF#32 false) (d + 1) 0xFFFFFFFF#32 false) := by
  rw [takeGrain, hb]
  exact if_neg (by omega)

theorem interval_takeGrain (hb : getBed s b = some bd) (h : bd.lo.toNat < bd.hi.toNat) :
    IntervalBecomes s (takeGrain s b d g sh).1 b (BitVec.ofNat 32 (min (bd.lo.toNat + g) bd.hi.toNat)) bd.hi := by
  rw [takeGrain_some hb h, ← grainEnd_eq]
  exact intervalBecomes_of hb (getBed_modBed_self hb _)

theorem getSheaf_takeGrain (s : State) (b d g : Nat) (sh : Sheaf) (b' w : Nat) : getSheaf (takeGrain s b d g sh).1 b' w = getSheaf s b' w := by
  unfold takeGrain
  split
  · split
    · exact getSheaf_modBed_kept s b (f := fun bd => { bd with lo := grainEnd bd g }) (fun _ => rfl) b' w
    · rfl
  · rfl

theorem splitFor_some (hb : getBed s b = some bd) (h : bd.lo.toNat < bd.hi.toNat) : splitFor s b = s := by
  rw [splitFor, hb]
  cases grainOf s b with
  | none => rfl
  | some g => exact if_pos h

theorem splitFor_none (hb : getBed s b = some bd) (hg : grainOf s b = some g) (hv : victimOf s bd g = none) : splitFor s b = s := by
  rw [splitFor, hb, hg]
  simp only [hv, ite_self]

theorem splitFor_victim (hb : getBed s b = some bd) (hg : grainOf s b = some g) {v : Nat} {x : Bed} (h : bd.hi.toNat ≤ bd.lo.toNat)
    (hv : victimOf s bd g = some (v, x)) :
    splitFor s b = modBed (cutInterval s v x (BitVec.ofNat 32 (x.lo.toNat + g * ((grainsLeft x g + 1) / 2)))) b
      (fun y => { y with lo := BitVec.ofNat 32 (x.lo.toNat + g * ((grainsLeft x g + 1) / 2)), hi := x.hi }) := by
  rw [splitFor, hb, hg]
  simp only [hv, if_neg (show ¬bd.lo.toNat < bd.hi.toNat by omega)]

end Grain

/-! ## The instructions -/

section Instructions

variable {s : State} {c : Cur} {sh : Sheaf} {bd : Bed} {g : Nat}

theorem inRange_none (h : grainOf s c.bed = none) (k : Nat → Bed → Out) : inRange s c sh k = trap s c sh (plainTrap 0) := by
  rw [inRange, h]; rfl

theorem inRange_some (h : grainOf s c.bed = some g) (hb : getBed s c.bed = some bd) (k : Nat → Bed → Out) : inRange s c sh k = k g bd := by
  rw [inRange, h, hb]

theorem range_illegal (hi : Issues s c sh) (ha : Active c sh) (h : grainOf s c.bed = none) (d : BitVec 7) :
    ∀ i ∈ [Instr.tnext d, .tdone, .tgrain d], exec i s = trap s c sh (plainTrap 0) := by
  simp only [List.forall_mem_cons, List.not_mem_nil, false_implies, implies_true, and_true]
  refine ⟨?_, ?_, ?_⟩
  · rw [exec_tnext, execTnext, groupOp_issues hi ha, inRange_none h]
  · rw [exec_tdone, execTdone, groupOp_issues hi ha, inRange_none h]
  · rw [exec_tgrain, execTgrain, groupOp_issues hi ha, inRange_none h]

theorem exec_tnext_range (hi : Issues s c sh) (ha : Active c sh) (hb : getBed s c.bed = some bd) (hg : grainOf s c.bed = some g)
    (d : BitVec 7) : exec (.tnext d) s =
      if bd.lo.toNat < bd.hi.toNat then done (takeGrain s c.bed (rn d) g sh).1 c (takeGrain s c.bed (rn d) g sh).2
      else if sh.handler then
        if firstAsker s c.bed bd ≠ c.bed then .next (yieldSheaf s c.bed c.sheaf)
        else done (takeGrain (splitFor s c.bed) c.bed (rn d) g sh).1 c (takeGrain (splitFor s c.bed) c.bed (rn d) g sh).2
      else .next (due (parkWait (fresh s).2 c sh (.split (rn d) (fresh s).1)) (.splitGrant c.bed)) := by
  rw [exec_tnext, execTnext, groupOp_issues hi ha, inRange_some hg hb]

/-- TNEXT with a grain left (R32). -/
theorem tnext_grain (hi : Issues s c sh) (ha : Active c sh) (hb : getBed s c.bed = some bd) (hg : grainOf s c.bed = some g)
    {d : BitVec 7} (hd : d.toNat < 127) (hl : bd.lo.toNat < bd.hi.toNat) (h0 : d ≠ 0#7) :
    ∃ t sh', exec (.tnext d) s = .next t ∧ getSheaf t c.bed c.sheaf = some (advance c sh') ∧ StoresNothing s t ∧
      IntervalBecomes s t c.bed (BitVec.ofNat 32 (min (bd.lo.toNat + g) bd.hi.toNat)) bd.hi ∧
      GroupHolds sh' (rn d) bd.lo false ∧ GroupHolds sh' (rn d + 1) (BitVec.ofNat 32 (min (bd.lo.toNat + g) bd.hi.toNat)) false ∧
      GroupFrame [rn d, rn d + 1] sh sh' := by
  have hr0 : rn d ≠ 0 := fun h => h0 (BitVec.eq_of_toNat_eq h)
  refine ⟨_, _, (exec_tnext_range hi ha hb hg d).trans (if_pos hl),
    getSheaf_setSheaf_self ((getSheaf_takeGrain ..).trans hi.2) _, ?_, intervalBecomes_setSheaf (interval_takeGrain hb hl) _ _ _, ?_⟩
  · rw [takeGrain_some hb hl]
    exact stores_trans (stores_modBed ..) (stores_putSheaf ..)
  · rw [takeGrain_some hb hl, ← grainEnd_eq]
    exact pair_written sh hr0 hd _ _

/-- TNEXT with an empty interval: the threads wait for a split, which is asked for. -/
theorem tnext_waits (hi : Issues s c sh) (ha : Active c sh) (hb : getBed s c.bed = some bd) (hg : grainOf s c.bed = some g)
    (d : BitVec 7) (hl : bd.hi.toNat ≤ bd.lo.toNat) (hh : sh.handler = false) :
    ∃ t, Waiting (.tnext d) s t c sh (.split (rn d) s.nextKey) ∧ Event.splitGrant c.bed ∈ t.agenda := by
  have he : exec (.tnext d) s = .next (due (parkWait (fresh s).2 c sh (.split (rn d) s.nextKey)) (.splitGrant c.bed)) := by
    rw [exec_tnext_range hi ha hb hg, if_neg (by omega), hh]
    rfl
  exact ⟨_, waiting_of_parkWait (s := s) (u := (fresh s).2) hi.2 (stores_of_eq rfl rfl rfl rfl rfl rfl) he (stores_due ..)
    (getSheaf_due ..), List.mem_append_right _ (List.mem_singleton_self _)⟩

/-- A handler's TNEXT stands while a request of another bed comes first (log 109). -/
theorem tnext_stands (hi : Issues s c sh) (ha : Active c sh) (hb : getBed s c.bed = some bd) (hg : grainOf s c.bed = some g)
    (d : BitVec 7) (hl : bd.hi.toNat ≤ bd.lo.toNat) (hh : sh.handler = true) (hf : firstAsker s c.bed bd ≠ c.bed) :
    ∃ t, exec (.tnext d) s = .next t ∧ Yielded s t c sh := by
  refine ⟨yieldSheaf s c.bed c.sheaf, ?_, _, getSheaf_yieldSheaf hi.2, fun _ => Iff.rfl, stores_yieldSheaf ..⟩
  rw [exec_tnext_range hi ha hb hg, if_neg (by omega), if_pos hh, if_pos hf]

/-- A handler's TNEXT where no bed of the launch holds two grains. -/
theorem tnext_over (hi : Issues s c sh) (ha : Active c sh) (hb : getBed s c.bed = some bd) (hg : grainOf s c.bed = some g)
    {d : BitVec 7} (hd : d.toNat < 127) (hl : bd.hi.toNat ≤ bd.lo.toNat) (hh : sh.handler = true) (hf : firstAsker s c.bed bd = c.bed)
    (hv : victimOf s bd g = none) (h0 : d ≠ 0#7) :
    ∃ t sh', exec (.tnext d) s = .next t ∧ getSheaf t c.bed c.sheaf = some (advance c sh') ∧ GroupFrame [rn d, rn d + 1] sh sh' ∧
      GroupHolds sh' (rn d) 0xFFFFFFFF#32 false ∧ GroupHolds sh' (rn d + 1) 0xFFFFFFFF#32 false := by
  have hr0 : rn d ≠ 0 := fun h => h0 (BitVec.eq_of_toNat_eq h)
  have he : exec (.tnext d) s =
      done s c (writeGroup (writeGroup sh (rn d) 0xFFFFFFFF#32 false) (rn d + 1) 0xFFFFFFFF#32 false) := by
    rw [exec_tnext_range hi ha hb hg, if_neg (by omega), if_pos hh, if_neg (not_not.2 hf), splitFor_none hb hg hv, takeGrain_empty hb hl]
  obtain ⟨h1, h2, h3⟩ := pair_written sh hr0 hd 0xFFFFFFFF#32 0xFFFFFFFF#32
  exact ⟨_, _, he, getSheaf_putSheaf hi _, h3, h1, h2⟩

theorem tdone_empties (hi : Issues s c sh) (ha : Active c sh) (hb : getBed s c.bed = some bd) (hg : grainOf s c.bed = some g) :
    ∃ t, exec .tdone s = .next t ∧ getSheaf t c.bed c.sheaf = some (advance c sh) ∧ StoresNothing s t ∧
      IntervalBecomes s t c.bed bd.hi bd.hi := by
  refine ⟨_, ?_, getSheaf_setSheaf_self ((getSheaf_modBed_kept s c.bed (f := fun bd => { bd with lo := bd.hi }) (fun _ => rfl) ..).trans hi.2)
    (advance c sh), stores_trans (stores_modBed ..) (stores_setSheaf ..),
    intervalBecomes_setSheaf (intervalBecomes_of hb (getBed_modBed_self hb _)) _ _ _⟩
  rw [exec_tdone, execTdone, groupOp_issues hi ha, inRange_some hg hb]
  rfl

theorem tgrain_gives (hi : Issues s c sh) (ha : Active c sh) (hb : getBed s c.bed = some bd) (hg : grainOf s c.bed = some g) (d : BitVec 7) :
    ∃ t, Gives (.tgrain d) s t c sh d (BitVec.ofNat 32 g) ∧ StoresNothing s t :=
  gives_of_done hi d _ (by rw [exec_tgrain, execTgrain, groupOp_issues hi ha, inRange_some hg hb])

end Instructions

theorem rangeInstructions : RangeInstructions := by
  unfold RangeInstructions
  intro d s c sh bd hi ha hb hd
  refine ⟨fun h => range_illegal hi ha h d, fun g hg => ⟨tnext_grain hi ha hb hg hd, tnext_waits hi ha hb hg d, ?_, ?_,
    tdone_empties hi ha hb hg, tgrain_gives hi ha hb hg d⟩⟩
  · exact tnext_stands hi ha hb hg d
  · exact tnext_over hi ha hb hg hd

/-! ## The order of the victims (R33) -/

/-- The better of the best so far and the next, where one goes before the other. -/
def betterOf {α : Type} (before : α → α → Bool) (best : Option α) (b : α) : Option α :=
  match best with
  | none => some b
  | some x => if before b x then some b else some x

section Best

variable {α : Type} {before : α → α → Bool} {le : α → α → Prop}

theorem betterOf_spec (hyes : ∀ x y, before x y = true → le x y) (hno : ∀ x y, before y x = false → le x y) (o : Option α) (b : α) :
    ∃ x, betterOf before o b = some x ∧ (x = b ∨ o = some x) ∧ (le x b ∨ x = b) ∧ ∀ z, o = some z → le x z ∨ x = z := by
  cases o with
  | none => exact ⟨b, rfl, .inl rfl, .inr rfl, fun z h => by cases h⟩
  | some z =>
    cases h : before b z with
    | false => exact ⟨z, by simp [betterOf, h], .inr rfl, .inl (hno _ _ h), fun y hy => .inr (Option.some.inj hy)⟩
    | true => exact ⟨b, by simp [betterOf, h], .inl rfl, .inr rfl, fun y hy => .inl (Option.some.inj hy ▸ hyes _ _ h)⟩

/-- A fold that keeps the better one ends with a member that comes no later than any. -/
theorem foldl_betterOf (hyes : ∀ x y, before x y = true → le x y) (hno : ∀ x y, before y x = false → le x y)
    (htrans : ∀ x y z, le x y → le y z → le x z) (hrefl : ∀ x, le x x) (l : List α) (o : Option α) :
    (l.foldl (betterOf before) o = none → l = [] ∧ o = none) ∧
    ∀ x, l.foldl (betterOf before) o = some x → (x ∈ l ∨ o = some x) ∧ (∀ y ∈ l, le x y) ∧ ∀ z, o = some z → le x z := by
  induction l generalizing o with
  | nil =>
    refine ⟨fun h => ⟨rfl, h⟩, fun x h => ⟨.inr h, by simp, fun z hz => ?_⟩⟩
    obtain rfl : z = x := Option.some.inj (hz.symm.trans h)
    exact hrefl z
  | cons b r ih =>
    obtain ⟨y, hy, hmem, hb, hz⟩ := betterOf_spec hyes hno o b
    obtain ⟨hnone, hsome⟩ := ih (some y)
    rw [List.foldl_cons, hy]
    refine ⟨fun h => absurd (hnone h).2 (Option.some_ne_none y), fun x h => ?_⟩
    obtain ⟨hx, hr, hxy⟩ := hsome x h
    have hle : le x y := hxy y rfl
    refine ⟨?_, ?_, fun z hoz => ?_⟩
    · rcases hx with hx | hx
      · exact .inl (List.mem_cons_of_mem _ hx)
      · obtain rfl : y = x := Option.some.inj hx
        exact hmem.imp (fun e => by rw [e]; exact List.mem_cons_self) id
    · simp only [List.forall_mem_cons]
      exact ⟨hb.elim (htrans _ _ _ hle) (fun h => h ▸ hle), hr⟩
    · exact (hz z hoz).elim (htrans _ _ _ hle) (fun h => h ▸ hle)

end Best

section Victims

variable (core g : Nat)

theorem noLater_refl (x : Bed) : NoLater core g x x := by unfold NoLater; omega

theorem noLater_trans (x y z : Bed) (h : NoLater core g x y) (k : NoLater core g y z) : NoLater core g x z := by
  unfold NoLater at *; omega

theorem noLater_iff (x y : Bed) : NoLater core g x y ↔
    tierBetween core x.core < tierBetween core y.core ∨ tierBetween core x.core = tierBetween core y.core ∧
      (grainsLeft y g < grainsLeft x g ∨ grainsLeft x g = grainsLeft y g ∧ (x.core < y.core ∨ x.core = y.core ∧ x.linear ≤ y.linear)) :=
  Iff.rfl

theorem noLater_of_victimBefore (x y : Bed) (h : victimBefore core g x y = true) : NoLater core g x y := by
  rw [noLater_iff]
  simp only [victimBefore] at h
  split_ifs at h <;> simp only [decide_eq_true_eq] at h <;> omega

theorem noLater_of_not_victimBefore (x y : Bed) (h : victimBefore core g y x = false) : NoLater core g x y := by
  rw [noLater_iff]
  simp only [victimBefore] at h
  split_ifs at h <;> simp only [decide_eq_false_iff_not] at h <;> omega

end Victims

/-- The beds of a launch that may be split. -/
def splittable (s : State) (bd : Bed) (g : Nat) : List (Nat × Bed) :=
  s.beds.filter (fun b => b.2.launch == bd.launch && b.2.stage != .exited && decide (2 ≤ grainsLeft b.2 g) &&
    decide (b.2.lo.toNat < b.2.hi.toNat))

theorem mem_splittable {s : State} {bd : Bed} {g : Nat} {y : Nat × Bed} : y ∈ splittable s bd g ↔ y ∈ s.beds ∧ MaySplit bd y.2 g := by
  simp only [splittable, List.mem_filter, Bool.and_eq_true, beq_iff_eq, bne_iff_ne, decide_eq_true_eq]
  unfold MaySplit grainsLeft
  tauto

theorem victimOf_eq (s : State) (bd : Bed) (g : Nat) :
    victimOf s bd g = (splittable s bd g).foldl (betterOf (fun b x => victimBefore bd.core g b.2 x.2)) none := by
  unfold victimOf splittable
  congr 1
  funext o b
  cases o <;> rfl

/-- The victim is first in R33's order, and there is none exactly where no bed of the launch holds two grains. -/
theorem victimOf_spec (s : State) (bd : Bed) (g : Nat) :
    (∀ v x, victimOf s bd g = some (v, x) → (v, x) ∈ s.beds ∧ MaySplit bd x g ∧ ∀ y ∈ s.beds, MaySplit bd y.2 g → NoLater bd.core g x y.2) ∧
    (victimOf s bd g = none → ∀ y ∈ s.beds, ¬MaySplit bd y.2 g) := by
  obtain ⟨hnone, hsome⟩ := foldl_betterOf (before := fun b x : Nat × Bed => victimBefore bd.core g b.2 x.2)
    (le := fun x y => NoLater bd.core g x.2 y.2) (fun x y => noLater_of_victimBefore bd.core g x.2 y.2)
    (fun x y => noLater_of_not_victimBefore bd.core g x.2 y.2) (fun x y z => noLater_trans bd.core g x.2 y.2 z.2)
    (fun x => noLater_refl bd.core g x.2) (splittable s bd g) none
  rw [← victimOf_eq] at hnone hsome
  constructor
  · intro v x h
    obtain ⟨hm, hle, -⟩ := hsome _ h
    obtain ⟨hb, hs⟩ := mem_splittable.1 (hm.resolve_right (fun e => by cases e))
    exact ⟨hb, hs, fun y hy hsy => hle y (mem_splittable.2 ⟨hy, hsy⟩)⟩
  · intro h y hy hs
    have := mem_splittable.2 ⟨hy, hs⟩
    rw [(hnone h).1] at this
    exact List.not_mem_nil this

/-- Of the beds that ask one victim, none is on a lower core than the one that is served first (R33). -/
theorem foldl_lowest (l : List (Nat × Bed)) (z : Nat × Bed) :
    let y := l.foldl (fun (best : Nat × Bed) b => if b.2.core < best.2.core then b else best) z
    (y = z ∨ y ∈ l) ∧ y.2.core ≤ z.2.core ∧ ∀ x ∈ l, y.2.core ≤ x.2.core := by
  induction l generalizing z with
  | nil => simp
  | cons b r ih =>
    simp only [List.foldl_cons, List.forall_mem_cons]
    rw [List.mem_cons]
    split
    · obtain ⟨hm, hb, hr⟩ := ih b
      exact ⟨.inr (hm.imp id id), by omega, hb, hr⟩
    · obtain ⟨hm, hz, hr⟩ := ih z
      exact ⟨hm.imp id .inr, hz, by omega, hr⟩

theorem firstAsker_lowest {s : State} {b g : Nat} {bd : Bed} (hg : grainOf s b = some g) {x : Nat × Bed} (hx : x ∈ s.beds)
    (ha : Asks s g bd x.2) : ∃ y, firstAsker s b bd = y.1 ∧ (y = (b, bd) ∨ y ∈ s.beds) ∧ y.2.core ≤ x.2.core := by
  obtain ⟨hl, hst, hw, hr, hv⟩ := ha
  rw [firstAsker, hg]
  refine ⟨_, rfl, ?_⟩
  obtain ⟨hm, -, hle⟩ := foldl_lowest (s.beds.filter fun b => b.2.launch == bd.launch && b.2.stage == .resident &&
    !(splitSheaves b.2).isEmpty && !decide (b.2.lo.toNat < b.2.hi.toNat) &&
      (victimOf s b.2 g).map (fun v => v.1) == (victimOf s bd g).map (fun v => v.1)) (b, bd)
  refine ⟨hm.imp id (fun h => (List.mem_filter.1 h).1), hle x (List.mem_filter.2 ⟨hx, ?_⟩)⟩
  simp [hl, hst, hw, hr, hv]

/-! ## A split served (R32, R33) -/

section Served

variable {s : State} {b w g d l k : Nat} {bd : Bed} {sh : Sheaf}

theorem grainOf_modBed (s : State) (b : Nat) {f : Bed → Bed} (hf : ∀ bd, (f bd).launch = bd.launch) (k : Nat) :
    grainOf (modBed s b f) k = grainOf s k := by rw [grainOf, launchOf_modBed s b hf]; rfl

/-- The state and the sheaf that a served TNEXT leaves. -/
theorem splitWaiter_spec (h : splitWaiter sh = some (l, d, k)) : l < 32 ∧ parkOf sh l = .wait (.split d k) := by
  obtain ⟨i, hi, he⟩ := List.exists_of_findSome?_eq_some h
  obtain ⟨x, hx, hp⟩ := Option.map_eq_some_iff.1 he
  obtain ⟨rfl, rfl⟩ := Prod.mk.inj hp
  refine ⟨(mem_lanes i).1 hi, ?_⟩
  unfold splitReg at hx
  split at hx
  · rename_i hpk
    simp only [Option.some.injEq, Prod.mk.injEq] at hx
    rw [hpk, hx.1, hx.2]
  · exact nomatch hx

theorem getSheaf_cutInterval (s : State) (v : Nat) (x : Bed) (cut : Word) (b' w' : Nat) :
    getSheaf (cutInterval s v x cut) b' w' = getSheaf s b' w' := by
  unfold cutInterval
  split <;> exact getSheaf_modBed_kept s v (f := fun y => { y with hi := cut }) (fun _ => rfl) b' w'

theorem getBed_cutInterval (s : State) (v : Nat) (x : Bed) (cut : Word) (b' : Nat) :
    getBed (cutInterval s v x cut) b' = getBed (modBed s v (fun y => { y with hi := cut })) b' := by
  unfold cutInterval
  split <;> rfl

theorem grainOf_cutInterval (s : State) (v : Nat) (x : Bed) (cut : Word) (b' : Nat) : grainOf (cutInterval s v x cut) b' = grainOf s b' := by
  refine Eq.trans ?_ (grainOf_modBed s v (f := fun y => { y with hi := cut }) (fun _ => rfl) b')
  unfold cutInterval
  split <;> rfl

/-- A split moves no sheaf. -/
theorem getSheaf_splitFor (s : State) (b b' w' : Nat) : getSheaf (splitFor s b) b' w' = getSheaf s b' w' := by
  unfold splitFor
  split
  · split
    · rfl
    · split
      · rfl
      · exact Eq.trans (getSheaf_modBed_kept _ b (by exact fun _ => rfl) _ _) (getSheaf_cutInterval ..)
  · rfl

theorem grainOf_splitFor (s : State) (b b' : Nat) : grainOf (splitFor s b) b' = grainOf s b' := by
  unfold splitFor
  split
  · split
    · rfl
    · split
      · rfl
      · exact Eq.trans (grainOf_modBed _ b (by exact fun _ => rfl) _) (grainOf_cutInterval ..)
  · rfl

/-- A sheaf whose first waiting TNEXT completes, before it takes its grain. -/
def splitResumed (sh : Sheaf) (l d k : Nat) : Sheaf :=
  { resumeAfter sh (waitMask sh (fun x => x == .split d k)) (lget sh.pcs l 0#64) with handler := false }

theorem parkOf_splitResumed (h : splitWaiter sh = some (l, d, k)) : parkOf (splitResumed sh l d k) l = .run := by
  obtain ⟨hl, hp⟩ := splitWaiter_spec h
  refine (parkOf_setPark sh _ .run hl).trans (if_pos ?_)
  rw [waitMask, bit_maskOf _ hl, hp]
  exact beq_self_eq_true _

theorem serveSplit_eq (hs : getSheaf s b w = some sh) (hg : grainOf s b = some g) (hw : splitWaiter sh = some (l, d, k)) :
    serveSplit s b w = setSheaf (takeGrain (splitFor s b) b d g (splitResumed sh l d k)).1 b w
      { (takeGrain (splitFor s b) b d g (splitResumed sh l d k)).2 with handler := sh.handler } := by
  rw [serveSplit, getSheaf_splitFor, grainOf_splitFor, hs, hg]
  simp only [hw]
  rfl

theorem parkOf_takeGrain (s : State) (b d g : Nat) (sh : Sheaf) (i : Nat) : parkOf (takeGrain s b d g sh).2 i = parkOf sh i := by
  have hw : ∀ (x : Sheaf) n y, parkOf (writeGroup x n y false) i = parkOf x i := fun x n y => by unfold writeGroup; split <;> rfl
  unfold takeGrain
  split
  · split <;> simp only [hw]
  · rfl

theorem handler_writeGroup (sh : Sheaf) (n : Nat) (x : Word) (q : Bool) : (writeGroup sh n x q).handler = sh.handler := by
  unfold writeGroup; split <;> rfl

theorem handler_takeGrain (s : State) (b d g : Nat) (sh : Sheaf) : (takeGrain s b d g sh).2.handler = sh.handler := by
  unfold takeGrain
  split
  · split <;> simp only [handler_writeGroup]
  · rfl

theorem takeGrain_unhandled (s : State) (b d g l k : Nat) (sh : Sheaf) (h : Bool) :
    { { (takeGrain s b d g (splitResumed sh l d k)).2 with handler := h } with handler := false } =
      (takeGrain s b d g (splitResumed sh l d k)).2 := by
  have : (takeGrain s b d g (splitResumed sh l d k)).2.handler = false := handler_takeGrain ..
  rw [← this]

/-- SPLIT_GRANT that finds no sheaf waiting. -/
theorem splitGrant_idle (hb : getBed s b = some bd) (h : splitSheaves bd = []) : exec (.splitGrant b) s = .next s := by
  rw [exec_splitGrant, execSplitGrant, hb]
  exact if_pos (by simp [h])

/-- SPLIT_GRANT of the bed that comes first serves its first sheaf; what it leaves due is an event alone. -/
theorem splitGrant_serves (hb : getBed s b = some bd) (hst : bd.stage = .resident) {rest : List (Nat × Sheaf)}
    (hw : splitSheaves bd = (w, sh) :: rest) (hf : firstAsker s b bd = b) :
    ∃ t, exec (.splitGrant b) s = .next t ∧ (t = serveSplit s b w ∨ t = due (serveSplit s b w) (.splitGrant b)) := by
  have hn : (decide (bd.stage ≠ .resident) || ((w, sh) :: rest).isEmpty) = false := by simp [hst]
  rw [exec_splitGrant, execSplitGrant, hb]
  simp only [hw, hn, hf, hb, Option.map_some, Bool.false_eq_true, if_false]
  cases getBed (serveSplit s b w) b with
  | none => exact ⟨_, rfl, .inl rfl⟩
  | some x =>
    refine ⟨_, rfl, ?_⟩
    split
    · exact .inl rfl
    · exact .inr rfl

/-- What a served TNEXT leaves of its sheaf, for a state that the grant ends in. -/
theorem getSheaf_served (hs : getSheaf s b w = some sh) (hg : grainOf s b = some g) (hw : splitWaiter sh = some (l, d, k)) :
    getSheaf (serveSplit s b w) b w =
      some { (takeGrain (splitFor s b) b d g (splitResumed sh l d k)).2 with handler := sh.handler } := by
  rw [serveSplit_eq hs hg hw]
  exact getSheaf_setSheaf_self ((getSheaf_takeGrain ..).trans ((getSheaf_splitFor ..).trans hs)) _

end Served

section Grants

variable {s : State} {b w g d l k : Nat} {bd : Bed} {sh : Sheaf} {rest : List (Nat × Sheaf)}

/-- What a grant leaves of the sheaf that it serves and of the beds. -/
theorem splitGrant_served (hb : getBed s b = some bd) (hst : bd.stage = .resident) (hg : grainOf s b = some g)
    (hq : splitSheaves bd = (w, sh) :: rest) (hs : getSheaf s b w = some sh) (hw : splitWaiter sh = some (l, d, k)) (hf : firstAsker s b bd = b) :
    ∃ t sh', exec (.splitGrant b) s = .next t ∧ getSheaf t b w = some sh' ∧ parkOf sh' l = .run ∧
      { sh' with handler := false } = (takeGrain (splitFor s b) b d g (splitResumed sh l d k)).2 ∧
      ∀ b' lo hi, IntervalBecomes s (takeGrain (splitFor s b) b d g (splitResumed sh l d k)).1 b' lo hi → IntervalBecomes s t b' lo hi := by
  obtain ⟨t, he, ht⟩ := splitGrant_serves hb hst hq hf
  have ht' : getSheaf t b w = getSheaf (serveSplit s b w) b w ∧ ∀ b', getBed t b' = getBed (serveSplit s b w) b' := by
    rcases ht with rfl | rfl <;> exact ⟨rfl, fun _ => rfl⟩
  refine ⟨t, _, he, ht'.1.trans (getSheaf_served hs hg hw), (parkOf_takeGrain ..).trans (parkOf_splitResumed hw),
    takeGrain_unhandled (splitFor s b) b d g l k sh _, fun b' lo hi h => ?_⟩
  refine intervalBecomes_congr ?_ (ht'.2 b')
  rw [serveSplit_eq hs hg hw]
  exact intervalBecomes_setSheaf h b w _

/-- A request is served with a grain of its bed's interval. -/
theorem splitGrant_grain (hb : getBed s b = some bd) (hst : bd.stage = .resident) (hg : grainOf s b = some g)
    (hq : splitSheaves bd = (w, sh) :: rest) (hs : getSheaf s b w = some sh) (hw : splitWaiter sh = some (l, d, k)) (h0 : d ≠ 0) (hd : d < 127)
    (hf : firstAsker s b bd = b) (hl : bd.lo.toNat < bd.hi.toNat) :
    ∃ t sh', exec (.splitGrant b) s = .next t ∧ getSheaf t b w = some sh' ∧ parkOf sh' l = .run ∧
      GroupHolds { sh' with handler := false } d bd.lo false ∧
      GroupHolds { sh' with handler := false } (d + 1) (BitVec.ofNat 32 (min (bd.lo.toNat + g) bd.hi.toNat)) false ∧
      IntervalBecomes s t b (BitVec.ofNat 32 (min (bd.lo.toNat + g) bd.hi.toNat)) bd.hi := by
  obtain ⟨t, sh', he, hsh, hp, hr, hi⟩ := splitGrant_served hb hst hg hq hs hw hf
  rw [splitFor_some hb hl] at hr hi
  have he2 : (takeGrain s b d g (splitResumed sh l d k)).2 =
      writeGroup (writeGroup (splitResumed sh l d k) d bd.lo false) (d + 1) (grainEnd bd g) false := by rw [takeGrain_some hb hl]
  obtain ⟨h1, h2, -⟩ := pair_written (splitResumed sh l d k) h0 hd bd.lo (grainEnd bd g)
  rw [← he2, ← hr] at h1 h2
  exact ⟨t, sh', he, hsh, hp, h1, grainEnd_eq bd g ▸ h2, hi _ _ _ (interval_takeGrain hb hl)⟩

/-- A request is served with the end of the range. -/
theorem splitGrant_over (hb : getBed s b = some bd) (hst : bd.stage = .resident) (hg : grainOf s b = some g)
    (hq : splitSheaves bd = (w, sh) :: rest) (hs : getSheaf s b w = some sh) (hw : splitWaiter sh = some (l, d, k)) (h0 : d ≠ 0) (hd : d < 127)
    (hf : firstAsker s b bd = b) (hl : bd.hi.toNat ≤ bd.lo.toNat) (hv : victimOf s bd g = none) :
    ∃ t sh', exec (.splitGrant b) s = .next t ∧ getSheaf t b w = some sh' ∧ parkOf sh' l = .run ∧
      GroupHolds { sh' with handler := false } d 0xFFFFFFFF#32 false ∧ GroupHolds { sh' with handler := false } (d + 1) 0xFFFFFFFF#32 false := by
  obtain ⟨t, sh', he, hsh, hp, hr, -⟩ := splitGrant_served hb hst hg hq hs hw hf
  have he2 : (takeGrain (splitFor s b) b d g (splitResumed sh l d k)).2 =
      writeGroup (writeGroup (splitResumed sh l d k) d 0xFFFFFFFF#32 false) (d + 1) 0xFFFFFFFF#32 false := by
    rw [splitFor_none hb hg hv, takeGrain_empty hb hl]
  obtain ⟨h1, h2, -⟩ := pair_written (splitResumed sh l d k) h0 hd 0xFFFFFFFF#32 0xFFFFFFFF#32
  rw [← he2, ← hr] at h1 h2
  exact ⟨t, sh', he, hsh, hp, h1, h2⟩

/-- A bed with an empty interval takes the upper part of its victim's, and its first grain (R33). -/
theorem splitGrant_cut (hb : getBed s b = some bd) (hst : bd.stage = .resident) (hg : grainOf s b = some g)
    (hq : splitSheaves bd = (w, sh) :: rest) (hs : getSheaf s b w = some sh) (hw : splitWaiter sh = some (l, d, k)) (hf : firstAsker s b bd = b)
    {v : Nat} {x : Bed} (hl : bd.hi.toNat ≤ bd.lo.toNat) (hv : victimOf s bd g = some (v, x)) (hne : v ≠ b) (hx : getBed s v = some x)
    (hc : x.lo.toNat + g * ((grainsLeft x g + 1) / 2) < x.hi.toNat) :
    ∃ t, exec (.splitGrant b) s = .next t ∧ IntervalBecomes s t v x.lo (BitVec.ofNat 32 (x.lo.toNat + g * ((grainsLeft x g + 1) / 2))) ∧
      IntervalBecomes s t b (BitVec.ofNat 32 (min (x.lo.toNat + g * ((grainsLeft x g + 1) / 2) + g) x.hi.toNat)) x.hi := by
  obtain ⟨t, sh', he, -, -, -, hi⟩ := splitGrant_served hb hst hg hq hs hw hf
  rw [splitFor_victim hb hg hl hv] at hi
  generalize hcut : x.lo.toNat + g * ((grainsLeft x g + 1) / 2) = cut at hc hi ⊢
  have hlt : cut < 2 ^ 32 := lt_trans hc x.hi.isLt
  have hn : (BitVec.ofNat 32 cut).toNat = cut := by rw [BitVec.toNat_ofNat, Nat.mod_eq_of_lt hlt]
  have hb' : getBed (modBed (cutInterval s v x (BitVec.ofNat 32 cut)) b (fun y => { y with lo := BitVec.ofNat 32 cut, hi := x.hi })) b =
      some { bd with lo := BitVec.ofNat 32 cut, hi := x.hi } := by
    refine getBed_modBed_self ?_ _
    rw [getBed_cutInterval, getBed_modBed, if_neg hne.symm, hb]
  have hg' := interval_takeGrain (d := d) (g := g) (sh := splitResumed sh l d k) hb' (by simpa only [hn] using hc)
  simp only [hn] at hg'
  refine ⟨t, he, hi _ _ _ ?_, hi _ _ _ ?_⟩
  · refine intervalBecomes_of hx ?_
    rw [takeGrain_some hb' (by simpa only [hn] using hc), getBed_modBed, if_neg hne, getBed_modBed, if_neg hne, getBed_cutInterval,
      getBed_modBed_self hx]
  · intro y hy
    obtain rfl : bd = y := Option.some.inj (hb.symm.trans hy)
    obtain ⟨z, hz, e⟩ := hg' _ hb'
    exact ⟨z, hz, e⟩

end Grants

theorem rangeSplits : RangeSplits := by
  unfold RangeSplits
  intro s b w bd sh g d l k hb hst hg
  obtain ⟨hsome, hnone⟩ := victimOf_spec s bd g
  refine ⟨hsome, hnone, splitGrant_idle hb, fun x hx ha => firstAsker_lowest hg hx ha, fun rest hq hs hw h0 hd hf => ⟨?_, ?_, ?_⟩⟩
  · exact splitGrant_grain hb hst hg hq hs hw h0 hd hf
  · exact splitGrant_over hb hst hg hq hs hw h0 hd hf
  · intro v x hl hv hne hx
    exact splitGrant_cut hb hst hg hq hs hw hf hl hv hne hx

/-- Settles O34: the instructions, then the order of the victims and the splits. -/
theorem rangeTasks : Obligations.RangeTasks := ⟨rangeInstructions, rangeSplits⟩

end Sys2Proof.Proofs
end

section
/-! PROOFS. What a cache does on its own: lines move between the L1s, the slices and the home, and no word and no other part of a plot changes
where every copy agrees (R110, R121). -/

namespace Sys2Proof.Proofs

open Sys2Proof Sys2Proof.Machine Sys2Proof.Claim

/-! ## Words that every store agrees on -/

/-- Every store that may hold word w holds h of it. -/
def Holds (s : State) (w : Nat) (h : PWord) : Prop := Agreed s w ∧ homeWord s w = h

/-- A value for a name is what every store holds of its word, where they agree. -/
def Sound (s : State) (n : Nat) (x : PWord) : Prop := ∀ h, Holds s (untag n) h → x = h

theorem sound_home (s : State) (n : Nat) : Sound s n (homeWord s (untag n)) := fun _ h => h.2

theorem sound_l1 {s : State} {p n : Nat} {e : CWord} (he : mfind (getPlot s p).l1 n = some e) : Sound s n (e.data, e.poison) :=
  fun _ h => (h.1.1 p n e rfl he).trans h.2

theorem sound_l2 {s : State} {t n : Nat} {e : CWord} (he : mfind (l2Of s t) n = some e) : Sound s n (e.data, e.poison) :=
  fun _ h => (h.1.2 t n e rfl he).trans h.2

theorem sound_l2View (s : State) (t n : Nat) : Sound s n (l2View s t n) := by
  unfold l2View
  split
  · rename_i c hc
    exact sound_l2 hc
  · exact sound_home s n

/-- Every entry of a cache holds what the stores agree on. -/
def SoundMap (s : State) (m : Map CWord) : Prop := ∀ n e, mfind m n = some e → Sound s n (e.data, e.poison)

theorem soundMap_l1 (s : State) (p : Nat) : SoundMap s (getPlot s p).l1 := fun _ _ he => sound_l1 he

theorem soundMap_l2 (s : State) (t : Nat) : SoundMap s (l2Of s t) := fun _ _ he => sound_l2 he

theorem soundMap_mset {s : State} {m : Map CWord} (h : SoundMap s m) {w : Nat} {c : CWord} (hc : Sound s w (c.data, c.poison)) :
    SoundMap s (mset m w c) := by
  intro n e he
  rw [mfind_mset] at he
  split at he
  · subst_vars
    exact Option.some.inj he ▸ hc
  · exact h n e he

theorem soundMap_takeWord {s : State} {m : Map CWord} (h : SoundMap s m) {w : Nat} {x : PWord} (hx : Sound s w x) :
    SoundMap s (Machine.takeWord m w x) := by
  unfold Machine.takeWord
  split
  · exact h
  · exact soundMap_mset h hx

theorem soundMap_dropWord {s : State} {m : Map CWord} (h : SoundMap s m) (w : Nat) : SoundMap s (dropWord m w) := by
  unfold dropWord
  split
  · intro n e he
    rw [mfind_mdel] at he
    split at he
    · cases he
    · exact h n e he
  · exact h

theorem soundMap_fold {s : State} {f : Map CWord → Nat → Map CWord} (hf : ∀ m w, SoundMap s m → SoundMap s (f m w)) (ws : List Nat)
    {m : Map CWord} (h : SoundMap s m) : SoundMap s (ws.foldl f m) := by
  induction ws generalizing m with
  | nil => exact h
  | cons w r ih => exact ih (hf m w h)

/-! ## Lines that move -/

/-- Only lines moved: nothing changed but the L1s, the slices, the home caches and memory, the batches' notes of write-backs, and no word that
every store agreed on. -/
structure LinesMove (s t : State) : Prop where
  rest : t = { s with mem := t.mem, memPoison := t.memPoison, home := t.home, l2 := t.l2, plots := t.plots, batches := t.batches,
                      searches := t.searches }
  plot : ∀ q, getPlot t q = { getPlot s q with l1 := (getPlot t q).l1 }
  words : ∀ w h, Holds s w h → Holds t w h

theorem linesMove_refl (s : State) : LinesMove s s := ⟨rfl, fun _ => rfl, fun _ _ h => h⟩

theorem linesMove_trans {s t u : State} (h : LinesMove s t) (k : LinesMove t u) : LinesMove s u where
  rest := by rw [k.rest, h.rest]
  plot q := by rw [k.plot q, h.plot q]
  words w x hx := k.words w x (h.words w x hx)

theorem linesMove_fold {α : Type} {f : State → α → State} (hf : ∀ s a, LinesMove s (f s a)) (l : List α) (s : State) :
    LinesMove s (l.foldl f s) := by
  induction l generalizing s with
  | nil => exact linesMove_refl s
  | cons a r ih => exact linesMove_trans (hf s a) (ih _)

theorem linesMove_ite {s a b : State} {c : Prop} [Decidable c] (ha : LinesMove s a) (hb : LinesMove s b) : LinesMove s (if c then a else b) := by
  split
  · exact ha
  · exact hb

/-- An L1 whose entries hold what the stores agree on. -/
theorem linesMove_setL1 (s : State) (p : Nat) {m : Map CWord} (h : SoundMap s m) : LinesMove s (setL1 s p m) where
  rest := rfl
  plot q := by
    rw [setL1, getPlot_modPlot]
    split
    · subst_vars; rfl
    · rfl
  words w x hx := by
    refine ⟨⟨fun q n e hn he => ?_, fun t n e hn he => hx.1.2 t n e hn he⟩, hx.2⟩
    rw [setL1, getPlot_modPlot] at he
    split at he
    · subst hn
      exact (h n e he x hx).trans hx.2.symm
    · exact hx.1.1 q n e hn he

/-- A slice whose entries hold what the stores agree on. -/
theorem linesMove_setL2 (s : State) (t : Nat) {m : Map CWord} (h : SoundMap s m) : LinesMove s (setL2 s t m) where
  rest := rfl
  plot q := rfl
  words w x hx := by
    refine ⟨⟨fun q n e hn he => hx.1.1 q n e hn he, fun u n e hn he => ?_⟩, hx.2⟩
    rw [l2Of_setL2] at he
    split at he
    · subst hn
      exact (h n e he x hx).trans hx.2.symm
    · exact hx.1.2 u n e hn he

theorem mergeBytes_same (x : Word) (be : BitVec 4) : mergeBytes x x be = x := by
  simp only [mergeBytes, ite_self]
  exact wordOf_byteOf x

theorem dramWord_setDram (s : State) (w v : Nat) (x : PWord) : dramWord (setDram s w x) v = if v = w then x else dramWord s v := by
  unfold dramWord setDram
  rw [mget_mput]
  split
  · subst_vars
    rw [memWord_setWord_self]
  · rename_i h
    rw [memWord_setWord_ne _ _ h]

/-- A change of the homes under which every word that the stores agreed on reads as before. -/
theorem linesMove_home {s t : State}
    (hr : t = { s with mem := t.mem, memPoison := t.memPoison, home := t.home, batches := t.batches, searches := t.searches })
    (hw : ∀ v y, Holds s v y → homeWord t v = y) : LinesMove s t := by
  have hp : ∀ q, getPlot t q = getPlot s q := fun q => by rw [hr]; rfl
  have h2 : ∀ k, l2Of t k = l2Of s k := fun k => by rw [hr]; rfl
  refine ⟨by rw [hr], fun q => by rw [hp], fun v y hy => ⟨⟨fun p n e hn he => ?_, fun k n e hn he => ?_⟩, hw v y hy⟩⟩
  · rw [hw v y hy, ← hy.2]
    exact hy.1.1 p n e hn (hp p ▸ he)
  · rw [hw v y hy, ← hy.2]
    exact hy.1.2 k n e hn (h2 k ▸ he)

/-- A home word that takes the bytes of an owner's. -/
def mergedHome (s : State) (w : Nat) (be : BitVec 4) (x : PWord) : PWord :=
  (mergeBytes (homeWord s w).1 x.1 be, if be = 15#4 then x.2 else x.2 || (homeWord s w).2)

theorem mergedHome_same {s : State} {w : Nat} (be : BitVec 4) {x : PWord} (h : homeWord s w = x) : mergedHome s w be x = x := by
  rw [mergedHome, h, mergeBytes_same, Bool.or_self, ite_self]

theorem homeWord_setDram_ne (s : State) {w v : Nat} (x : PWord) (h : v ≠ w) : homeWord (setDram s w x) v = homeWord s v := by
  unfold homeWord
  rw [dramWord_setDram, if_neg h]
  rfl

theorem homeBack_eq (s : State) (t w : Nat) (be : BitVec 4) (x : PWord) : homeBack s t w be x =
    if Config.hostBase / 4 ≤ w then setDram s w (mergedHome s w be x)
    else noteWb { s with home := mset s.home w ({ data := (mergedHome s w be x).1, poison := (mergedHome s w be x).2, dirty := 15#4 }, t) } w :=
  rfl

/-- A word of which the stores agree goes to its home. -/
theorem linesMove_homeBack (s : State) (t w : Nat) (be : BitVec 4) {x : PWord} (h : ∀ y, Holds s w y → x = y) :
    LinesMove s (homeBack s t w be x) := by
  have hval : ∀ y, Holds s w y → mergedHome s w be x = y := fun y hy => by
    obtain rfl := h y hy
    exact mergedHome_same be hy.2
  rw [homeBack_eq]
  split
  · refine linesMove_home (by rfl) fun v y hy => ?_
    by_cases hv : v = w
    · subst hv
      have hd := dramWord_setDram s v v (mergedHome s v be x)
      rw [if_pos rfl, hval y hy] at hd
      rw [homeWord, hval y hy]
      split
      · rename_i c n hc
        have := hy.2
        rw [homeWord, show mfind s.home v = some (c, n) from hc] at this
        exact this
      · exact hd
    · rw [homeWord_setDram_ne s _ hv, hy.2]
  · refine linesMove_home (by rfl) fun v y hy => ?_
    show (match mfind (mset s.home w _) v with
      | some (c, _) => (c.data, c.poison)
      | none => dramWord s v) = y
    rw [mfind_mset]
    by_cases hv : v = w
    · subst hv
      rw [if_pos rfl]
      exact hval y hy
    · rw [if_neg hv]
      exact hy.2

/-! ## The steps of the caches -/

theorem linesMove_fillL2 (s : State) (t w : Nat) : LinesMove s (fillL2 s t w) :=
  linesMove_setL2 s t (soundMap_fold (fun _ v hm => soundMap_takeWord hm (sound_home s v)) _ (soundMap_l2 s t))

theorem linesMove_fillL1 (s : State) (p w : Nat) : LinesMove s (fillL1 s p w) :=
  linesMove_setL1 s p (soundMap_fold (fun _ v hm => soundMap_takeWord hm (sound_l2View s _ v)) _ (soundMap_l1 s p))

theorem linesMove_dropL1 (s : State) (p w : Nat) : LinesMove s (dropL1 s p w) :=
  linesMove_ite (linesMove_setL1 s p (soundMap_fold (fun _ v hm => soundMap_dropWord hm v) _ (soundMap_l1 s p))) (linesMove_refl s)

theorem linesMove_dropL2 (s : State) (t w : Nat) : LinesMove s (dropL2 s t w) :=
  linesMove_ite (linesMove_setL2 s t (soundMap_fold (fun _ v hm => soundMap_dropWord hm v) _ (soundMap_l2 s t))) (linesMove_refl s)

theorem linesMove_l1BackWord (s : State) (p w : Nat) : LinesMove s (l1BackWord s p w) := by
  unfold l1BackWord
  split
  · rename_i c hc
    split
    · exact linesMove_refl s
    · refine linesMove_trans (linesMove_setL2 s (p / 4) ?_) (linesMove_setL1 _ p ?_)
      · exact soundMap_mset (soundMap_l2 s _) (sound_l1 (e := c) hc)
      · exact soundMap_mset (soundMap_l1 _ p) (sound_l1 (p := p) (e := c) hc)
  · exact linesMove_refl s

theorem linesMove_l1Back (s : State) (p w : Nat) : LinesMove s (l1Back s p w) :=
  linesMove_ite (linesMove_trans (linesMove_fold (fun s v => linesMove_l1BackWord s p v) _ s)
    (linesMove_trans (linesMove_fillL2 ..) (linesMove_fillL1 ..))) (linesMove_refl s)

theorem untag_untag (n : Nat) : untag (untag n) = untag n := Nat.mod_mod ..

theorem homeBack_l2Of (s : State) (t w : Nat) (be : BitVec 4) (x : PWord) (u : Nat) : l2Of (homeBack s t w be x) u = l2Of s u := by
  rw [homeBack_eq]
  split <;> rfl

theorem linesMove_l2BackWord (s : State) (t w : Nat) : LinesMove s (l2BackWord s t w) := by
  unfold l2BackWord
  split
  · rename_i c hc
    split
    · exact linesMove_refl s
    · refine linesMove_trans (linesMove_homeBack s t (untag w) c.dirty (sound_l2 hc)) (linesMove_setL2 _ t ?_)
      exact soundMap_mset (soundMap_l2 _ t) (sound_l2 (t := t) (e := c) (by rw [homeBack_l2Of]; exact hc))
  · exact linesMove_refl s

theorem linesMove_l2Back (s : State) (t w : Nat) : LinesMove s (l2Back s t w) :=
  linesMove_ite (linesMove_trans (linesMove_fold (fun s v => linesMove_l2BackWord s t v) _ s) (linesMove_fillL2 ..)) (linesMove_refl s)

theorem linesMove_l1Revoke (s : State) (p w : Nat) : LinesMove s (l1Revoke s p w) :=
  linesMove_trans (linesMove_l1Back ..) (linesMove_dropL1 ..)

theorem linesMove_terraceRevoke (s : State) (t w : Nat) : LinesMove s (terraceRevoke s t w) :=
  linesMove_trans (linesMove_fold (fun s k => linesMove_l1Revoke s (4 * t + k) w) _ s)
    (linesMove_trans (linesMove_l2Back ..) (linesMove_dropL2 ..))

theorem linesMove_terraceGive (s : State) (t w : Nat) : LinesMove s (terraceGive s t w) :=
  linesMove_fold (fun s n => linesMove_terraceRevoke s t n) _ s

theorem linesMove_revokeOthers (s : State) (t : Nat) (p : Option Nat) (w : Nat) : LinesMove s (revokeOthers s t p w) :=
  linesMove_trans (linesMove_fold (fun s u => linesMove_ite (linesMove_terraceGive s u (untag w)) (linesMove_refl s)) _ s)
    (linesMove_fold (fun s k => linesMove_ite (linesMove_l1Revoke s (4 * t + k) w) (linesMove_refl s)) _ _)

theorem linesMove_beforeRead (s : State) (t p : Nat) (cache : Bool) (w n : Nat) : LinesMove s (beforeRead s t p cache w n) :=
  linesMove_trans (linesMove_ite (linesMove_revokeOthers ..) (linesMove_refl s))
    (linesMove_trans (linesMove_ite (linesMove_dropL1 ..) (linesMove_refl _)) (linesMove_ite (linesMove_dropL2 ..) (linesMove_refl _)))

theorem linesMove_fillPath (s : State) (p : Nat) (cache : Bool) (w : Nat) : LinesMove s (fillPath s p cache w) :=
  linesMove_trans (linesMove_fillL2 s (p / 4) w) (linesMove_ite (linesMove_fillL1 ..) (linesMove_refl _))

/-! ## A word read -/

theorem linesMove_readWord (s : State) (core w : Nat) (syn alloc first : Bool) (t : Nat) : LinesMove s (readWord s core w syn alloc first t).2 := by
  unfold readWord
  split
  · exact linesMove_refl s
  · have h : LinesMove s (if first then beforeRead s (terraceOf core) (plotOf core) (hasCache s (plotOf core)) w (t * 4) else s) :=
      linesMove_ite (linesMove_beforeRead ..) (linesMove_refl s)
    simp only
    split
    · exact h
    · exact linesMove_trans h (linesMove_ite (linesMove_fillPath ..) (linesMove_refl _))

/-- A word that every store agrees on reads as they hold it. -/
theorem readWord_holds {s : State} {w : Nat} {h : PWord} (hw : Holds s (untag w) h) (core : Nat) (syn alloc first : Bool) (t : Nat) :
    (readWord s core w syn alloc first t).1 = h := by
  unfold readWord
  split
  · exact hw.2
  · have hm : LinesMove s (if first then beforeRead s (terraceOf core) (plotOf core) (hasCache s (plotOf core)) w (t * 4) else s) :=
      linesMove_ite (linesMove_beforeRead ..) (linesMove_refl s)
    simp only
    generalize (if first then beforeRead s (terraceOf core) (plotOf core) (hasCache s (plotOf core)) w (t * 4) else s) = s1 at hm ⊢
    have h1 := hm.words _ _ hw
    split
    · rename_i c hc
      split at hc
      · exact sound_l1 hc h h1
      · cases hc
    · exact sound_l2View s1 _ w h h1

/-! ## What moving lines leaves -/

theorem getSheaf_linesMove {s t : State} (h : LinesMove s t) (b w : Nat) : getSheaf t b w = getSheaf s b w := by rw [h.rest]; rfl

theorem getBed_linesMove {s t : State} (h : LinesMove s t) (b : Nat) : getBed t b = getBed s b := by rw [h.rest]; rfl

end Sys2Proof.Proofs
end

section
/-! PROOFS. Bank modes (R86, R217). -/

namespace Sys2Proof.Proofs

open Sys2Proof Sys2Proof.Machine Sys2Proof.Claim

/-! ## BANKCFG -/

section Bankcfg

variable {s : State} {c : Cur} {sh : Sheaf}

theorem poisonG_pair {x y : Nat} (hx : rdGP s c sh x = false) (hy : rdGP s c sh y = false) : poisonG s c sh [x, y] = false := by
  simp [poisonG, hx, hy]

theorem exec_bankcfg_handler (hi : Issues s c sh) (hh : sh.handler = true) {a b : BitVec 7} (d : BitVec 7) (ha : rdGP s c sh (rn a) = false)
    (hb : rdGP s c sh (rn b) = false) (hn : (rdG s c sh (rn a)).toNat ≤ 511) : exec (.bankcfg d a b) s =
      if 2 < (rdG s c sh (rn b)).toNat then trap s c sh (plainTrap 0)
      else issueLong (due (fresh s).2 (.bankSwitchCompletion c.bed c.sheaf s.nextKey (BitVec.ofNat 9 (rdG s c sh (rn a)).toNat)
        (BitVec.ofNat 2 (rdG s c sh (rn b)).toNat))) c sh
        { longOp c sh s.nextKey 0 [.group (gidx sh (rn d)) 0#32 false] with ready := false } := by
  rw [exec_bankcfg, execBankcfg, onSheaf_issues hi]
  simp only [hh, poisonG_pair ha hb, Bool.not_true, Bool.false_eq_true, if_false, if_neg (show ¬511 < (rdG s c sh (rn a)).toNat by omega)]
  rfl

theorem bankcfg_starts (hi : Issues s c sh) (hh : sh.handler = true) {a b : BitVec 7} (d : BitVec 7) (ha : rdGP s c sh (rn a) = false)
    (hb : rdGP s c sh (rn b) = false) (hn : (rdG s c sh (rn a)).toNat ≤ 511) (hm : (rdG s c sh (rn b)).toNat ≤ 2) :
    ∃ t sh', exec (.bankcfg d a b) s = .next t ∧ getSheaf t c.bed c.sheaf = some (advance c sh') ∧
      AwaitsGroup sh sh' s.nextKey (rn d) ∧ StoresNothing s t ∧
      t.agenda = s.agenda ++ [.bankSwitchCompletion c.bed c.sheaf s.nextKey (BitVec.ofNat 9 (rdG s c sh (rn a)).toNat)
        (BitVec.ofNat 2 (rdG s c sh (rn b)).toNat)] := by
  refine ⟨_, _, (exec_bankcfg_handler hi hh d ha hb hn).trans (if_neg (by omega)),
    getSheaf_setSheaf_self (s := due (fresh s).2 _) hi.2 _, ⟨_, rfl, rfl, rfl, rfl, rfl⟩, ?_, ?_⟩
  · exact stores_trans (stores_trans (t := (fresh s).2) (stores_of_eq rfl rfl rfl rfl rfl rfl) (stores_due ..)) (stores_putSheaf ..)
  · rw [putSheaf_agenda]
    rfl

theorem bankcfg_illegal (hi : Issues s c sh) (hh : sh.handler = true) {a b : BitVec 7} (d : BitVec 7) (ha : rdGP s c sh (rn a) = false)
    (hb : rdGP s c sh (rn b) = false) (hn : (rdG s c sh (rn a)).toNat ≤ 511) (hm : 2 < (rdG s c sh (rn b)).toNat) :
    exec (.bankcfg d a b) s = trap s c sh (plainTrap 0) := (exec_bankcfg_handler hi hh d ha hb hn).trans (if_pos hm)

end Bankcfg

/-! ## The end of a switch -/

section Order

variable {s : State} {b w : Nat} {bank : BitVec 9}

/-- Folding over events none of which comes before a place finds none. -/
theorem earlierSwitch_none {p key : Nat} (h : ∀ e ∈ s.agenda, ∀ k, switchKey s p bank e = some k → key ≤ k) : earlierSwitch s p bank key = none := by
  have hfold : ∀ l : List Event, (∀ e ∈ l, ∀ k, switchKey s p bank e = some k → key ≤ k) →
      l.foldl (fun (x : Nat × Option Event) e =>
        match switchKey s p bank e with
        | some k => if k < x.1 then (k, some e) else x
        | none => x) (key, none) = (key, none) := by
    intro l hl
    induction l with
    | nil => rfl
    | cons e r ih =>
      rw [List.foldl_cons]
      have hr := ih fun x hx => hl x (List.mem_cons_of_mem _ hx)
      cases hk : switchKey s p bank e with
      | none => exact hr
      | some k =>
        have := hl e List.mem_cons_self k hk
        simp only [if_neg (show ¬k < key by omega)]
        exact hr
  exact congrArg Prod.snd (hfold s.agenda h)

theorem earlierSwitch_first (h : FirstSwitch s b w bank) : earlierSwitch s (switchSeat s b w).1 bank (switchSeat s b w).2 = none := by
  refine earlierSwitch_none fun e he k hk => ?_
  unfold switchKey at hk
  split at hk
  · rename_i b' w' o k' m
    split at hk
    · rename_i hc
      obtain ⟨rfl, hp⟩ := hc
      exact Option.some.inj hk ▸ h b' w' o m he hp
    · cases hk
  · cases hk

theorem exec_switchCompletion_first (h : FirstSwitch s b w bank) (op : Nat) (mode : BitVec 2) :
    exec (.bankSwitchCompletion b w op bank mode) s = .next (endSwitch s b w op bank.toNat mode) := by
  rw [exec_bankSwitchCompletion, execBankSwitchCompletion, earlierSwitch_first h]

end Order

/-- The sheaf as a pending result of it is formed. -/
def withFormed (sh : Sheaf) (op : Nat) (x : Word) : Sheaf :=
  { sh with long := sh.long.map (fun o =>
      if o.id == op then
        { o with ready := true, writes := o.writes.map (fun p => match p with
            | .group n _ _ => .group n x false
            | y => y) }
      else o) }

theorem formed_withFormed (sh : Sheaf) (op : Nat) (x : Word) : Formed sh (withFormed sh op x) op x := by
  unfold Formed withFormed
  refine List.map_congr_left fun o _ => ?_
  by_cases h : o.id = op
  · exact (if_pos (beq_iff_eq.2 h)).trans (if_pos h).symm
  · exact (if_neg (mt beq_iff_eq.1 h)).trans (if_neg h).symm

theorem formGroup_eq (s : State) (b w op : Nat) (x : Word) : formGroup s b w op x = modSheaf s b w (fun sh => withFormed sh op x) := by
  unfold formGroup withFormed
  rfl

theorem getSheaf_formGroup {s : State} {b w : Nat} {sh : Sheaf} (h : getSheaf s b w = some sh) (op : Nat) (x : Word) :
    getSheaf (formGroup s b w op x) b w = some (withFormed sh op x) := by
  rw [formGroup_eq, getSheaf_modSheaf, if_pos ⟨rfl, rfl⟩, h]
  rfl

theorem getPlot_formGroup (s : State) (b w op : Nat) (x : Word) (q : Nat) : getPlot (formGroup s b w op x) q = getPlot s q := by
  rw [formGroup_eq, getPlot, modSheaf_plots]
  rfl

/-! ## A bank takes its mode -/

theorem linesMove_emptyWay (s : State) (p bank : Nat) : LinesMove s (emptyWay s p bank) :=
  linesMove_fold (fun s w => linesMove_l1Revoke s p w) _ s

theorem mget_filter {α : Type} (m : Map α) (q : Nat → Bool) (k : Nat) (d : α) :
    mget (m.filter (fun x => q x.1)) k d = if q k then mget m k d else d := by
  induction m with
  | nil => simp
  | cons x r ih =>
    obtain ⟨i, v⟩ := x
    rw [List.filter_cons]
    by_cases hi : i = k
    · subst hi
      cases hq : q i <;> simp [mget, hq, ih]
    · cases hq : q i <;> simp [mget, hi, ih]

section Switch

variable {s : State} {p bank : Nat} {mode : BitVec 2}

theorem switchBank_same (h : bankModeOf s p bank = mode) : switchBank s p bank mode = s := if_pos h

/-- A bank that changes its mode takes it, reads as zero, and changes no other bank. -/
theorem switchBank_changes (h : bankModeOf s p bank ≠ mode) :
    bankModeOf (switchBank s p bank mode) p bank = mode ∧
    (∀ k, k ≠ bank → bankModeOf (switchBank s p bank mode) p k = bankModeOf s p k) ∧
    (∀ x, scratchAt (switchBank s p bank mode) p x = if x / 4096 = bank then 0#8 else scratchAt s p x) ∧
    ∀ b w, getSheaf (switchBank s p bank mode) b w = getSheaf s b w := by
  let s1 := modPlot s p (fun pl => { pl with bankMode := mput pl.bankMode bank mode 0#2 })
  let s2 := if bankModeOf s p bank = 0#2 then emptyWay s1 p bank else s1
  have h12 : LinesMove s1 s2 := linesMove_ite (linesMove_emptyWay ..) (linesMove_refl _)
  have hp : getPlot s2 p = { getPlot s p with bankMode := mput (getPlot s p).bankMode bank mode 0#2, l1 := (getPlot s2 p).l1 } := by
    rw [h12.plot p]
    simp only [s1, getPlot_modPlot_self]
  have he : switchBank s p bank mode = modPlot s2 p (fun pl =>
      { pl with
        scratch := pl.scratch.filter (fun x => decide (x.1 < bank * 4096) || decide (bank * 4096 + 4096 ≤ x.1)),
        marks := pl.marks.filter (fun x => decide (x.1 < bank * 4096 / 32) || decide (bank * 4096 / 32 + 128 ≤ x.1)) }) := if_neg h
  rw [he]
  refine ⟨?_, fun k hk => ?_, fun x => ?_, fun b w => ?_⟩
  · rw [bankModeOf, getPlot_modPlot_self, hp]
    exact mget_mput_self ..
  · rw [bankModeOf, getPlot_modPlot_self, hp]
    exact mget_mput_ne _ _ _ hk
  · rw [scratchAt, getPlot_modPlot_self, hp]
    refine (mget_filter (getPlot s p).scratch (fun k => decide (k < bank * 4096) || decide (bank * 4096 + 4096 ≤ k)) x 0#8).trans ?_
    by_cases hx : x / 4096 = bank
    · rw [if_pos hx, if_neg]
      simp only [Bool.or_eq_true, decide_eq_true_eq]
      omega
    · rw [if_neg hx, if_pos]
      · rfl
      · simp only [Bool.or_eq_true, decide_eq_true_eq]
        omega
  · rw [getSheaf_modPlot, getSheaf_linesMove h12]
    rfl

end Switch

section Ends

variable {s : State} {b w : Nat} {bank : BitVec 9} {bd : Bed} {sh : Sheaf}

/-- A switch of a bank that has an owner gives BUSY (log 46). -/
theorem switch_busy (hb : getBed s b = some bd) (hs : getSheaf s b w = some sh) (hf : FirstSwitch s b w bank) (op : Nat) (mode : BitVec 2)
    (ho : bankBusy s (plotOf bd.core) bank.toNat = true) :
    ∃ t sh', exec (.bankSwitchCompletion b w op bank mode) s = .next t ∧ getSheaf t b w = some sh' ∧ Formed sh sh' op 1#32 ∧
      ∀ k, getPlot t k = getPlot s k := by
  have he : endSwitch s b w op bank.toNat mode = formGroup s b w op 1#32 := by
    rw [endSwitch, hb]
    exact if_pos ho
  exact ⟨_, _, (exec_switchCompletion_first hf op mode).trans (congrArg _ he), getSheaf_formGroup hs op 1#32, formed_withFormed sh op 1#32,
    fun k => getPlot_formGroup ..⟩

/-- A switch of a bank without an owner gives it the mode. -/
theorem switch_free (hb : getBed s b = some bd) (hs : getSheaf s b w = some sh) (hf : FirstSwitch s b w bank) (op : Nat) (mode : BitVec 2)
    (ho : bankBusy s (plotOf bd.core) bank.toNat = false) :
    let p := plotOf bd.core
    ∃ t sh', exec (.bankSwitchCompletion b w op bank mode) s = .next t ∧ getSheaf t b w = some sh' ∧
      Formed sh sh' op 0#32 ∧ bankModeOf t p bank.toNat = mode ∧ (∀ k, k ≠ bank.toNat → bankModeOf t p k = bankModeOf s p k) ∧
      ∀ x, scratchAt t p x = if x / 4096 = bank.toNat ∧ bankModeOf s p bank.toNat ≠ mode then 0#8 else scratchAt s p x := by
  intro p
  have he : endSwitch s b w op bank.toNat mode = formGroup (switchBank s p bank.toNat mode) b w op 0#32 := by
    rw [endSwitch, hb]
    exact if_neg (by simp [ho])
  have hp : ∀ q, getPlot (endSwitch s b w op bank.toNat mode) q = getPlot (switchBank s p bank.toNat mode) q := fun q => by
    rw [he, getPlot_formGroup]
  refine ⟨endSwitch s b w op bank.toNat mode, withFormed sh op 0#32, exec_switchCompletion_first hf op mode, ?_, formed_withFormed sh op 0#32, ?_⟩
  · rw [he]
    refine getSheaf_formGroup ?_ op 0#32
    by_cases hm : bankModeOf s p bank.toNat = mode
    · rw [switchBank_same hm, hs]
    · rw [(switchBank_changes hm).2.2.2, hs]
  · simp only [bankModeOf, scratchAt, hp]
    by_cases hm : bankModeOf s p bank.toNat = mode
    · rw [switchBank_same hm]
      exact ⟨hm, fun _ _ => rfl, fun x => (if_neg fun h => h.2 hm).symm⟩
    · obtain ⟨h1, h2, h3, -⟩ := switchBank_changes hm
      refine ⟨h1, h2, fun x => (h3 x).trans ?_⟩
      exact if_congr (and_iff_left hm).symm rfl rfl

end Ends

theorem bankModes : BankModes := by
  unfold BankModes
  refine ⟨fun d a b s c sh hi => ⟨fun hn => ?_, fun hh => bankcfg_starts hi hh d, fun hh => bankcfg_illegal hi hh d⟩,
    fun b w op bank mode s bd sh hb hs hf => ⟨switch_busy hb hs hf op mode, switch_free hb hs hf op mode⟩⟩
  exact trapsWith_of_plain hn (handlerOnly (.bankcfg d a b) s c sh hi hn)

end Sys2Proof.Proofs
end

section
/-! PROOFS. The end of a bed by BEXIT (R40, R343). -/

namespace Sys2Proof.Proofs

open Sys2Proof Sys2Proof.Machine Sys2Proof.Claim

/-- Every thread of a sheaf has ended. -/
def AllDone (sh : Sheaf) : Prop := ∀ i, i < 32 → parkOf sh i = .done

/-- No later wave of the bed starts, and every thread of some of its sheaves has ended. -/
def Closed (b : Nat) (p : Nat → Bool) (t : State) : Prop :=
  ∃ bd, getBed t b = some bd ∧ bd.bexit = true ∧ ∀ w ∈ bd.sheaves, p w.1 = true → AllDone w.2

theorem allDone_endThreads (sh : Sheaf) : AllDone (endThreads sh Mask.full) := by
  obtain ⟨hnd, h16, -⟩ := sixteen_registers
  intro i hi
  have hp : parkOf (setPark (endSpans sh Mask.full) Mask.full .done) i = .done := by rw [parkOf_setPark _ _ _ hi, bit_full hi, if_pos rfl]
  rw [endThreads_eq, parkOf_foldl_endIn_stays Mask.full hnd h16 _ hi (fun k _ hj => by rw [hp] at hj; cases hj), hp]

theorem allDone_tokenServed {sh : Sheaf} (h : AllDone sh) : AllDone (tokenServed sh) := by
  intro i hi
  rw [parked_tokenServed sh i hi, tokenWaiters, bit_maskOf _ hi, h i hi]
  rfl

theorem mem_mset {α : Type} {m : Map α} {k : Nat} {v : α} {y : Nat × α} (h : y ∈ mset m k v) : y = (k, v) ∨ y ∈ m := by
  induction m with
  | nil => exact .inl (List.mem_singleton.1 h)
  | cons x r ih =>
    obtain ⟨i, w⟩ := x
    simp only [mset] at h
    split at h
    · exact (List.mem_cons.1 h).imp id id
    · split at h
      · exact (List.mem_cons.1 h).imp id (List.mem_cons_of_mem _)
      · rcases List.mem_cons.1 h with h | h
        · exact .inr (h ▸ List.mem_cons_self)
        · exact (ih h).imp id (List.mem_cons_of_mem _)

/-- A change of a sheaf that leaves its ended threads ended. -/
theorem closed_modSheaf {s : State} {b w : Nat} {f : Sheaf → Sheaf} (hf : ∀ sh, AllDone sh → AllDone (f sh)) {b' : Nat} {p : Nat → Bool}
    (h : Closed b' p s) : Closed b' p (modSheaf s b w f) := by
  unfold modSheaf
  cases hs : getSheaf s b w with
  | none => exact h
  | some sh =>
    obtain ⟨bd, hb, hx, hd⟩ := h
    dsimp only
    rw [Closed, setSheaf, getBed_modBed]
    by_cases e : b' = b
    · subst e
      rw [if_pos rfl, hb]
      have hw : mfind bd.sheaves w = some sh := by simpa [getSheaf, hb] using hs
      refine ⟨_, rfl, hx, fun y hy hp => ?_⟩
      rcases mem_mset hy with rfl | hy
      · exact hf sh (hd _ (mem_of_mfind hw) hp)
      · exact hd y hy hp
    · rw [if_neg e]
      exact ⟨bd, hb, hx, hd⟩

/-! ## What follows the end of sheaves -/

/-- Sheaves ended, and what follows is under way: nothing is stored, no waiter at a barrier goes, no ended thread runs, and a sheaf that does not
wait for a token is as it was. -/
structure Follows (s t : State) : Prop where
  stores : StoresNothing s t
  bwait : t.bwait = s.bwait
  closed : ∀ b p, Closed b p s → Closed b p t
  queue : ∀ n x, x ∈ (getCore t n).tokQ → x ∈ (getCore s n).tokQ
  sheaf : ∀ b w, (∀ n, (b, w) ∉ (getCore s n).tokQ) → getSheaf t b w = getSheaf s b w

theorem follows_refl (s : State) : Follows s s := ⟨stores_refl s, rfl, fun _ _ h => h, fun _ _ h => h, fun _ _ _ => rfl⟩

theorem follows_trans {s t u : State} (h : Follows s t) (k : Follows t u) : Follows s u where
  stores := stores_trans h.stores k.stores
  bwait := k.bwait.trans h.bwait
  closed b p hc := k.closed b p (h.closed b p hc)
  queue n x hx := h.queue n x (k.queue n x hx)
  sheaf b w hn := (k.sheaf b w fun n hm => hn n (h.queue n _ hm)).trans (h.sheaf b w hn)

theorem follows_fold {α : Type} {f : State → α → State} (hf : ∀ s a, Follows s (f s a)) (l : List α) (s : State) : Follows s (l.foldl f s) := by
  induction l generalizing s with
  | nil => exact follows_refl s
  | cons a r ih => exact follows_trans (hf s a) (ih _)

theorem follows_due (s : State) (e : Event) : Follows s (due s e) :=
  ⟨stores_due s e, rfl, fun _ _ h => h, fun _ _ h => h, fun _ _ _ => rfl⟩

/-- A core's change that stores nothing and lets nobody into the queue for its token. -/
theorem follows_modCore (s : State) (k : Nat) {f : Core → Core} (hb : (f (getCore s k)).bstore = (getCore s k).bstore)
    (ha : (f (getCore s k)).acc = (getCore s k).acc) (hq : ∀ x ∈ (f (getCore s k)).tokQ, x ∈ (getCore s k).tokQ) :
    Follows s (modCore s k f) where
  stores := stores_modCore s k f hb ha
  bwait := rfl
  closed _ _ h := h
  queue n x hx := by
    rw [getCore_modCore] at hx
    split at hx
    · subst_vars; exact hq x hx
    · exact hx
  sheaf _ _ _ := rfl

theorem follows_count (s : State) (core k n : Nat) : Follows s (count s core k n) := follows_modCore s core rfl rfl (fun _ h => h)

theorem passToken_head {s : State} {core : Nat} {x : Nat × Nat} {r : List (Nat × Nat)} (hq : (getCore s core).tokQ = x :: r) :
    passToken s core = modSheaf (modCore (count s core 15 (Config.freeNat (salt s 5203))) core
      (fun k => { k with token := some x, tokQ := r.filter (fun y => y != x) })) x.1 x.2 tokenServed := by
  unfold passToken
  rw [hq]
  simp only [waitMask_token]
  rfl

theorem follows_passToken (s : State) (core : Nat) : Follows s (passToken s core) := by
  cases hq : (getCore s core).tokQ with
  | nil =>
    rw [passToken_nil hq]
    exact follows_modCore s core rfl rfl (fun _ h => h)
  | cons x r =>
    have h1 : Follows s (modCore (count s core 15 (Config.freeNat (salt s 5203))) core
        (fun k => { k with token := some x, tokQ := r.filter (fun y => y != x) })) := by
      refine follows_trans (follows_count s core 15 _) (follows_modCore _ core rfl rfl fun y hy => ?_)
      rw [count, getCore_modCore_self, hq]
      exact List.mem_cons_of_mem _ (List.mem_filter.1 hy).1
    rw [passToken_head hq]
    exact {
      stores := stores_trans h1.stores (stores_modSheaf ..)
      bwait := by rw [modSheaf_bwait]; exact h1.bwait
      closed := fun b p hc => closed_modSheaf (fun sh => allDone_tokenServed) (h1.closed b p hc)
      queue := fun n y hy => h1.queue n y (by rwa [getCore, modSheaf_cores] at hy)
      sheaf := fun b w hn => by
        have hne : (b, w) ≠ (x.1, x.2) := fun e => hn core (by rw [hq]; exact List.mem_cons.2 (.inl e))
        rw [getSheaf_modSheaf_ne _ hne]
        exact h1.sheaf b w hn }

theorem follows_offTokenQueue (s : State) (core b w : Nat) : Follows s (offTokenQueue s core b w) := by
  unfold offTokenQueue
  refine follows_trans (t := if (getCore s core).tokQ.contains (b, w) then count s core 15 (Config.freeNat (salt s 5204)) else s) ?_
    (follows_modCore _ core rfl rfl fun y hy => (List.mem_filter.1 hy).1)
  split
  · exact follows_count ..
  · exact follows_refl s

theorem follows_dropToken (s : State) (core b w : Nat) : Follows s (dropToken s core b w) := by
  rw [dropToken_eq]
  split
  · exact follows_trans (follows_offTokenQueue ..) (follows_passToken ..)
  · exact follows_offTokenQueue ..

theorem follows_afterEnd (s : State) (b w : Nat) : Follows s (afterEnd s b w) := by
  rcases afterEnd_cases s b w with h | ⟨core, h | ⟨e, h⟩⟩ <;> rw [h]
  · exact follows_refl s
  · exact follows_dropToken ..
  · exact follows_trans (follows_dropToken ..) (follows_due ..)

/-! ## BEXIT -/

theorem mfind_map {α : Type} (m : Map α) (g : Nat → α → α) (k : Nat) : mfind (m.map (fun x => (x.1, g x.1 x.2))) k = (mfind m k).map (g k) := by
  induction m with
  | nil => rfl
  | cons x r ih =>
    obtain ⟨i, v⟩ := x
    by_cases h : i = k
    · subst h; simp [mfind]
    · simp [mfind, h, ih]

/-- The sheaves that a BEXIT ends: all of the bed, or, of a handler, all but its own (log 27). -/
def endsSheaf (c : Cur) (sh : Sheaf) (w : Nat) : Bool := !(sh.handler && w == c.sheaf)

/-- A sheaf of the bed, as a BEXIT leaves it. -/
def bexitSheaf (c : Cur) (sh : Sheaf) (w : Nat) (x : Sheaf) : Sheaf := if endsSheaf c sh w then endThreads x Mask.full else x

/-- The state of a BEXIT as its sheaves have ended. -/
def bexitState (s : State) (c : Cur) (sh : Sheaf) : State :=
  modBed (dropWaitersOf (putSheaf s c (advance c sh)) c.bed sh.place.core (endsSheaf c sh)) c.bed
    (fun bd => { bd with bexit := true, sheaves := bd.sheaves.map (fun w => (w.1, bexitSheaf c sh w.1 w.2)) })

section Bexit

variable {s : State} {c : Cur} {sh : Sheaf}

theorem exec_bexit_issues (hi : Issues s c sh) : exec .bexit s =
    match getBed (bexitState s c sh) c.bed with
    | some bd => .next (bd.sheaves.foldl (fun s w => afterEnd s c.bed w.1) (bexitState s c sh))
    | none => .next (bexitState s c sh) := by
  rw [exec_bexit, execBexit, onSheaf_issues hi]
  rfl

theorem getBed_dropWaitersOf (s : State) (b core : Nat) (p : Nat → Bool) (k : Nat) : getBed (dropWaitersOf s b core p) k = getBed s k := rfl

theorem stores_dropWaitersOf (s : State) (b core : Nat) (p : Nat → Bool) : StoresNothing s (dropWaitersOf s b core p) := by
  have h1 : StoresNothing s { s with bwait := s.bwait.filter (fun w => !(w.bed == b && p w.sheaf)) } :=
    stores_of_eq rfl rfl rfl rfl rfl rfl
  unfold dropWaitersOf
  exact stores_trans (stores_trans h1 (stores_modPlot _ _ _ rfl rfl rfl)) (stores_modCore _ _ _ rfl rfl)

theorem stores_bexitState (s : State) (c : Cur) (sh : Sheaf) : StoresNothing s (bexitState s c sh) :=
  stores_trans (stores_trans (stores_putSheaf ..) (stores_dropWaitersOf ..)) (stores_modBed ..)

theorem closed_bexitState (hi : Issues s c sh) : Closed c.bed (endsSheaf c sh) (bexitState s c sh) := by
  obtain ⟨bd, hb⟩ := getBed_of_getSheaf (getSheaf_putSheaf hi (advance c sh))
  refine ⟨_, getBed_modBed_self (by rw [getBed_dropWaitersOf]; exact hb) _, rfl, fun w hw hp => ?_⟩
  obtain ⟨x, -, rfl⟩ := List.mem_map.1 hw
  simp only [bexitSheaf, if_pos (show endsSheaf c sh x.1 = true from hp)]
  exact allDone_endThreads x.2

theorem bwait_bexitState (s : State) (c : Cur) (sh : Sheaf) {x : BWait} (hx : x ∈ (bexitState s c sh).bwait) :
    ¬(x.bed = c.bed ∧ endsSheaf c sh x.sheaf = true) := by
  rw [bexitState, modBed_bwait] at hx
  have := (List.mem_filter.1 hx).2
  rintro ⟨hb, he⟩
  simp [hb, he] at this

theorem tokQ_bexitState (s : State) (c : Cur) (sh : Sheaf) (n : Nat) (x : Nat × Nat) (hx : x ∈ (getCore (bexitState s c sh) n).tokQ) :
    x ∈ (getCore s n).tokQ := by
  rw [bexitState, getCore, modBed_cores] at hx
  have h1 : x ∈ (getCore (dropWaitersOf (putSheaf s c (advance c sh)) c.bed sh.place.core (endsSheaf c sh)) n).tokQ := hx
  rw [dropWaitersOf, getCore_modCore] at h1
  split at h1
  · subst_vars
    rw [← getCore_putSheaf s c (advance c sh)]
    exact (List.mem_filter.1 h1).1
  · rw [← getCore_putSheaf s c (advance c sh)]
    exact h1

theorem getSheaf_bexitState (hi : Issues s c sh) (hh : sh.handler = true) :
    getSheaf (bexitState s c sh) c.bed c.sheaf = some (advance c sh) := by
  have hs := getSheaf_putSheaf hi (advance c sh)
  obtain ⟨bd, hb⟩ := getBed_of_getSheaf hs
  have hw : mfind bd.sheaves c.sheaf = some (advance c sh) := by simpa [getSheaf, hb] using hs
  have hb2 : getBed (bexitState s c sh) c.bed = some _ := getBed_modBed_self (by rw [getBed_dropWaitersOf]; exact hb) _
  have hf : endsSheaf c sh c.sheaf = false := by simp [endsSheaf, hh]
  rw [getSheaf, hb2]
  refine (mfind_map bd.sheaves (bexitSheaf c sh) c.sheaf).trans ?_
  rw [hw, Option.map_some, bexitSheaf, hf]
  rfl

/-- BEXIT: the sheaves have ended, and what follows their ends is under way. -/
theorem bexit_follows (hi : Issues s c sh) : ∃ t, exec .bexit s = .next t ∧ Follows (bexitState s c sh) t := by
  rw [exec_bexit_issues hi]
  split
  · exact ⟨_, rfl, follows_fold (fun s (w : Nat × Sheaf) => follows_afterEnd s c.bed w.1) _ _⟩
  · exact ⟨_, rfl, follows_refl _⟩

theorem bexit_handler (hi : Issues s c sh) (hh : sh.handler = true) (hq : ∀ n, (c.bed, c.sheaf) ∉ (getCore s n).tokQ) :
    ∃ t bd, exec .bexit s = .next t ∧ getBed t c.bed = some bd ∧ bd.bexit = true ∧ StoresNothing s t ∧
      getSheaf t c.bed c.sheaf = some (advance c sh) ∧ (∀ w ∈ bd.sheaves, w.1 ≠ c.sheaf → ∀ i, i < 32 → parkOf w.2 i = .done) ∧
      (∀ x ∈ t.bwait, x.bed = c.bed → x.sheaf = c.sheaf) := by
  obtain ⟨t, he, hf⟩ := bexit_follows hi
  obtain ⟨bd, hb, hx, hd⟩ := hf.closed _ _ (closed_bexitState hi)
  refine ⟨t, bd, he, hb, hx, stores_trans (stores_bexitState s c sh) hf.stores,
    (hf.sheaf _ _ fun n hm => hq n (tokQ_bexitState s c sh n _ hm)).trans (getSheaf_bexitState hi hh), ?_, fun x hx hb => ?_⟩
  · exact fun w hw hne => hd w hw (by simp [endsSheaf, hne])
  · have := bwait_bexitState s c sh (hf.bwait ▸ hx)
    simpa [hb, endsSheaf, hh] using this

theorem bexit_normal (hi : Issues s c sh) (hn : sh.handler = false) :
    ∃ t bd, exec .bexit s = .next t ∧ getBed t c.bed = some bd ∧ bd.bexit = true ∧ StoresNothing s t ∧
      (∀ w ∈ bd.sheaves, ∀ i, i < 32 → parkOf w.2 i = .done) ∧ (∀ x ∈ t.bwait, x.bed ≠ c.bed) := by
  obtain ⟨t, he, hf⟩ := bexit_follows hi
  obtain ⟨bd, hb, hx, hd⟩ := hf.closed _ _ (closed_bexitState hi)
  refine ⟨t, bd, he, hb, hx, stores_trans (stores_bexitState s c sh) hf.stores, ?_, fun x hx hb => ?_⟩
  · exact fun w hw => hd w hw (by simp [endsSheaf, hn])
  have := bwait_bexitState s c sh (hf.bwait ▸ hx)
  exact this ⟨hb, by simp [endsSheaf, hn]⟩

end Bexit

end Sys2Proof.Proofs
end

section
/-! PROOFS. A translation that finds its page, and the spill and the fill of a rejoin register (R208 to R210, R355 to R357). -/

namespace Sys2Proof.Proofs

open Sys2Proof Sys2Proof.Machine Sys2Proof.Claim

/-! ## A translation that finds its page -/

section Translation

variable {s : State} {core : Nat} {asid : BitVec 16} {va : DWord}

/-- An entry that enters the TLB where none, or the same, stood changes the TLB alone. -/
theorem putTlb_eq {key level : Nat} {e : BitVec 64} (h : mfind s.tlb key = none ∨ mfind s.tlb key = some (e, level)) :
    putTlb s key (e, level) = { s with tlb := mset s.tlb key (e, level) } := by
  rcases h with h | h
  · simp only [putTlb, h]
  · simp only [putTlb, h, if_true]

theorem or_twoPow_of_bit {e : BitVec 64} {k : Nat} (h : pteBit e k = true) : e ||| BitVec.twoPow 64 k = e := by
  refine BitVec.eq_of_getLsbD_eq fun j _ => ?_
  rw [BitVec.getLsbD_or, BitVec.getLsbD_twoPow]
  by_cases hj : k = j
  · subst hj
    rw [show e.getLsbD k = true from h]
    rfl
  · simp [hj]

/-- An entry whose A bit is set, and D too where a write asks for it, is what the TLB takes. -/
theorem or_marks {e : BitVec 64} {d : Bool} (hA : pteBit e 4 = true) (hD : d = true → pteBit e 5 = true) :
    e ||| (if d then 0x30#64 else 0x10#64) = e := by
  have h16 : (0x10#64 : BitVec 64) = BitVec.twoPow 64 4 := by decide
  have h48 : (0x30#64 : BitVec 64) = BitVec.twoPow 64 4 ||| BitVec.twoPow 64 5 := by decide
  cases d
  · rw [if_neg Bool.false_ne_true, h16, or_twoPow_of_bit hA]
  · rw [if_pos rfl, h48, ← BitVec.or_assoc, or_twoPow_of_bit hA, or_twoPow_of_bit (hD rfl)]

/-- The leaf of a walk is the entry that memory holds at the last address of its path. -/
theorem walkFrom_leaf {fuel level table : Nat} {p path : List Nat} {e : BitVec 64} {l : Nat}
    (h : walkFrom s va fuel level table p = .leaf e l path) : ∃ a r, path = a :: r ∧ e = homeDWord s a := by
  induction fuel generalizing level table p with
  | zero => cases h
  | succ n ih =>
    unfold walkFrom at h
    dsimp only at h
    split at h
    · cases h
    · split at h
      · cases h
      · split at h
        · cases h
        · split at h
          · split at h
            · cases h
            · obtain ⟨rfl, -, rfl⟩ := Walk.leaf.inj h
              exact ⟨_, _, rfl, rfl⟩
          · exact ih h

theorem setPteBit_set {a k : Nat} (h : pteBit (homeDWord s a) k = true) : setPteBit s a k = s := if_pos h

theorem foldl_setPteBit {path : List Nat} (h : ∀ a ∈ path, pteBit (homeDWord s a) 4 = true) :
    path.foldl (fun s a => setPteBit s a 4) s = s := by
  induction path with
  | nil => rfl
  | cons a r ih =>
    rw [List.foldl_cons, setPteBit_set (h a List.mem_cons_self)]
    exact ih fun b hb => h b (List.mem_cons_of_mem _ hb)

/-- A walk that agrees with the TLB is what the access uses. -/
theorem tlbPick_agrees {e : BitVec 64} {level : Nat} {path : List Nat} (write : Bool)
    (h : mfind s.tlb (tlbKey core asid va) = none ∨ mfind s.tlb (tlbKey core asid va) = some (e, level)) :
    tlbPick s core asid va write (.leaf e level path) = .leaf e level path := by
  rcases h with h | h
  · simp only [tlbPick, h]
  · simp [tlbPick, h]

/-- A VA that maps translates, and its entry enters the TLB, which alone changes (R355 to R357). -/
theorem translate_maps_entry {kind : AccKind} {pa : Nat} {syn : Bool} (h : Maps s core asid va kind pa syn) :
    ∃ e level path, walk s asid va = .leaf e level path ∧
      Machine.translate s core asid va kind = (.ok pa syn, { s with tlb := mset s.tlb (tlbKey core asid va) (e, level) }) := by
  obtain ⟨e, level, path, leafAt, hwalk, hA, hw, hf, htlb, rfl, hpa⟩ := h
  obtain ⟨a, r, hpath, he⟩ := walkFrom_leaf hwalk
  obtain ⟨rfl, rfl⟩ := List.cons.inj hpath
  have hmarks : e ||| (if decide (kind = .write) && !pteBit e 9 then 0x30#64 else 0x10#64) = e := by
    refine or_marks (he ▸ hA _ List.mem_cons_self) fun hd => ?_
    rw [Bool.and_eq_true, decide_eq_true_eq] at hd
    exact he ▸ (hw hd.1).2.2
  have hperm : ((decide (kind = .write) && !pteBit e 2) || (decide (kind = .fetch) && !pteBit e 3)) = false := by
    by_cases h1 : kind = .write
    · simp [h1, (hw h1).1]
    · by_cases h2 : kind = .fetch
      · simp [h2, hf h2]
      · simp [h1, h2]
  have hsnap : (decide (kind = .write) && pteBit e 9) = false := by
    by_cases h1 : kind = .write
    · simp [(hw h1).2.1]
    · simp [h1]
  have hhole : (!pteBit e 8 && decide (Config.deviceBytes ≤ ptePa e + va.toNat % leafBytes level (pteBit e 7 && level == 3))) = false := by
    cases h8 : pteBit e 8
    · rw [h8] at hpa
      simpa using hpa.1 ▸ hpa.2
    · rfl
  have ha : (if pteBit e 8 then Config.hostBase + (ptePa e + va.toNat % leafBytes level (pteBit e 7 && level == 3))
      else ptePa e + va.toNat % leafBytes level (pteBit e 7 && level == 3)) = pa := by
    split
    · rename_i h8
      exact (if_pos h8 ▸ hpa).symm
    · rename_i h8
      exact ((if_neg h8).mp hpa).1.symm
  refine ⟨e, level, _, hwalk, ?_⟩
  unfold Machine.translate
  rw [hwalk, tlbPick_agrees _ htlb]
  simp only [hperm, foldl_setPteBit hA, hmarks, putTlb_eq htlb, hhole, hsnap, ha, Bool.false_eq_true, if_false]
  by_cases h1 : kind = .write
  · simp only [h1, decide_true, if_true]
    rw [setPteBit_set]
    exact (hw h1).2.2
  · simp only [h1, decide_false, Bool.false_eq_true, if_false]

/-- A VA that maps translates, and changes the TLB alone. -/
theorem translate_maps {kind : AccKind} {pa : Nat} {syn : Bool} (h : Maps s core asid va kind pa syn) :
    ∃ tlb, Machine.translate s core asid va kind = (.ok pa syn, { s with tlb := tlb }) := by
  obtain ⟨e, level, path, -, ht⟩ := translate_maps_entry h
  exact ⟨_, ht⟩

/-- A VA that maps, with the state in which the access goes on. -/
theorem withPage_maps {c : Cur} {sh : Sheaf} {write : Bool} {pa : Nat} {syn : Bool}
    (h : Maps s sh.place.core (asidOf s c.bed) va (if write then .write else .read) pa syn) (m : Mask) (k : State → Nat → Bool → Out) :
    ∃ tlb, withPage s c sh m va write k = k { s with tlb := tlb } pa syn := by
  obtain ⟨tlb, ht⟩ := translate_maps h
  refine ⟨tlb, ?_⟩
  rw [withPage, translateSaving, accKind, ht]

/-- A mapped address is a word's name's number. -/
theorem maps_lt {kind : AccKind} {pa : Nat} {syn : Bool} (h : Maps s core asid va kind pa syn) : pa < 2 ^ 60 + 2 ^ 53 := by
  obtain ⟨e, level, path, leafAt, -, -, -, -, -, -, hpa⟩ := h
  have hl : leafBytes level (pteBit e 7 && level == 3) ≤ 2 ^ 30 ∧ 0 < leafBytes level (pteBit e 7 && level == 3) := by
    unfold leafBytes
    split
    · decide
    · decide
    · split <;> decide
  have hm : va.toNat % leafBytes level (pteBit e 7 && level == 3) < 2 ^ 30 := lt_of_lt_of_le (Nat.mod_lt _ hl.2) hl.1
  have hp : ptePa e < 2 ^ 52 := by
    unfold ptePa
    omega
  dsimp only at hpa
  split at hpa
  · rw [hpa, Config.hostBase]
    omega
  · omega

theorem untag_nameOf (asid : BitVec 16) (va : DWord) {pa : Nat} (h : pa < 2 ^ 60 + 2 ^ 53) :
    untag (nameOf asid va pa) = pa / 4 ∧ untag (nameOf asid va pa + 1) = pa / 4 + 1 := by
  unfold untag nameOf tagged
  omega

end Translation

/-! ## The checks of a spill (R239) -/

section Spill

variable {s : State} {c : Cur} {sh : Sheaf} {a : BitVec 7} {k : BitVec 4}

theorem lockLane_none {core : Nat} {write : Bool} {space : Nat} {asid : BitVec 16} {n x : Nat} (h : lockHit s core write space asid x n = none)
    (l : List Nat) : lockLane s core write space asid n (fun _ => x) l = none := by
  induction l with
  | nil => rfl
  | cons i r ih => rw [lockLane, h]; exact ih

/-- A spill that reaches its bytes goes on with their address. -/
theorem spillAt_reaches {write : Bool} {pa : Nat} {syn : Bool} (h : SpillAt s c sh a write pa syn) (f : State → Nat → Bool → Out) :
    ∃ tlb, spillAt s c sh a write f = f { s with tlb := tlb } pa syn := by
  obtain ⟨hp0, hp1, hal, hcan, hlock, hmap⟩ := h
  obtain ⟨tlb, ht⟩ := withPage_maps hmap (exm c sh) f
  refine ⟨tlb, ?_⟩
  have hpois : poisonG s c sh [rn a, rn a + 1] = false := poisonG_pair hp0 hp1
  have haln : ((rdG64 s c sh (rn a)).toNat : Int) % ((8 : Nat) : Int) = 0 := by omega
  rw [spillAt]
  simp only [hpois, accessChecks, haln, hcan, ne_eq, not_true, decide_false, Bool.false_eq_true, if_false, Int.toNat_natCast,
    lockLane_none hlock, Bool.not_true]
  rw [lowest_none (fun i hi => (bit_maskOf _ hi).trans (Bool.and_false _))]
  exact ht

/-! ## JSPILL (R209) -/

theorem exec_jspill_handler (hi : Issues s c sh) (hh : sh.handler = true) (k : BitVec 4) (a : BitVec 7) : exec (.jspill k a) s =
    if spill sh k.toNat = 255 then trap s c sh (plainTrap 0)
    else spillAt s c sh a true (fun s1 pa syn =>
      done (writeWord (writeWord s1 sh.place.core (nameOf (asidOf s c.bed) (rdG64 s c sh (rn a)) pa) syn 15#4 (jE sh k.toNat, false))
        sh.place.core (nameOf (asidOf s c.bed) (rdG64 s c sh (rn a)) pa + 1) syn 15#4 (jA sh k.toNat, false)) c
        (setSpill (setJ sh k.toNat 0#32 0#32) k.toNat (spill sh k.toNat + 1))) := by
  rw [exec_jspill, execJspill, onSheaf_issues hi]
  simp only [hh, Bool.not_true, Bool.false_eq_true, if_false]
  rfl

theorem spill_setSpill (sh : Sheaf) (k n j : Nat) : spill (setSpill sh k n) j = if j = k then n % 256 else spill sh j := by
  unfold spill setSpill
  rw [mget_mput]
  split
  · exact BitVec.toNat_ofNat ..
  · rfl

theorem spillBecomes_setSpill {x : Sheaf} (hx : ∀ j, spill x j = spill sh j) (k : BitVec 4) {n : Nat} (hn : n < 256) :
    SpillBecomes sh (setSpill x k.toNat n) k n := by
  refine ⟨?_, fun j hj => ?_⟩
  · rw [spill_setSpill, if_pos rfl, Nat.mod_eq_of_lt hn]
  · rw [spill_setSpill, if_neg hj, hx]

theorem jspill_spills (hi : Issues s c sh) (hh : sh.handler = true) (k : BitVec 4) (a : BitVec 7) {pa : Nat} {syn : Bool}
    (hs : spill sh k.toNat < 255) (h : SpillAt s c sh a true pa syn) :
    let w := nameOf (asidOf s c.bed) (rdG64 s c sh (rn a)) pa
    ∃ tlb sh', exec (.jspill k a) s = .next (putSheaf (writeWord (writeWord { s with tlb := tlb } sh.place.core w syn 15#4
        (jE sh k.toNat, false)) sh.place.core (w + 1) syn 15#4 (jA sh k.toNat, false)) c (advance c sh')) ∧
      JoinHolds sh sh' k 0#32 0#32 ∧ SpillBecomes sh sh' k (spill sh k.toNat + 1) ∧
      sh' = { sh with je := sh'.je, ja := sh'.ja, spc := sh'.spc } := by
  intro w
  obtain ⟨tlb, ht⟩ := spillAt_reaches h (fun s1 pa syn =>
    done (writeWord (writeWord s1 sh.place.core (nameOf (asidOf s c.bed) (rdG64 s c sh (rn a)) pa) syn 15#4 (jE sh k.toNat, false))
      sh.place.core (nameOf (asidOf s c.bed) (rdG64 s c sh (rn a)) pa + 1) syn 15#4 (jA sh k.toNat, false)) c
      (setSpill (setJ sh k.toNat 0#32 0#32) k.toNat (spill sh k.toNat + 1)))
  refine ⟨tlb, _, (exec_jspill_handler hi hh k a).trans ((if_neg (by omega)).trans ht), ?_, ?_, rfl⟩
  · exact joinHolds_setJ sh k 0#32 0#32
  · exact spillBecomes_setSpill (fun _ => rfl) k (by omega)

theorem jspill_full (hi : Issues s c sh) (hh : sh.handler = true) (k : BitVec 4) (a : BitVec 7) (hs : spill sh k.toNat = 255) :
    exec (.jspill k a) s = trap s c sh (plainTrap 0) := (exec_jspill_handler hi hh k a).trans (if_pos hs)

/-! ## JFILL (R210) -/

theorem exec_jfill_handler (hi : Issues s c sh) (hh : sh.handler = true) (k : BitVec 4) (a : BitVec 7) : exec (.jfill k a) s =
    if jE sh k.toNat ≠ 0#32 then rejoinOverflow s c sh k.toNat 3
    else if spill sh k.toNat = 0 then trap s c sh (plainTrap 0)
    else spillAt s c sh a false (fun s1 pa syn =>
      let w := nameOf (asidOf s c.bed) (rdG64 s c sh (rn a)) pa
      let e := readWord s1 sh.place.core w syn true true (salt s1 8101)
      let x := readWord e.2 sh.place.core (w + 1) syn true false (salt s1 8102)
      if e.1.2 || x.1.2 then poisonUse x.2 c sh (exm c sh)
      else done x.2 c (filledJ (setSpill sh k.toNat (spill sh k.toNat - 1)) k.toNat e.1.1 x.1.1)) := by
  rw [exec_jfill, execJfill, onSheaf_issues hi]
  simp only [hh, Bool.not_true, Bool.false_eq_true, if_false]
  rfl

theorem jfill_live (hi : Issues s c sh) (hh : sh.handler = true) (k : BitVec 4) (a : BitVec 7) (h : jE sh k.toNat ≠ 0#32) :
    exec (.jfill k a) s = trap s c sh { plainTrap 13 with detail := BitVec.ofNat 32 (k.toNat + 48) } :=
  (exec_jfill_handler hi hh k a).trans (if_pos h)

theorem jfill_empty (hi : Issues s c sh) (hh : sh.handler = true) (k : BitVec 4) (a : BitVec 7) (h : jE sh k.toNat = 0#32)
    (hs : spill sh k.toNat = 0) : exec (.jfill k a) s = trap s c sh (plainTrap 0) :=
  (exec_jfill_handler hi hh k a).trans ((if_neg (not_not.2 h)).trans (if_pos hs))

/-- The threads that a filled rejoin register expects: those of its spilled E that have not ended. -/
def liveOf (sh : Sheaf) (e : Word) : Mask := maskOf (fun i => bit e i && decide (parkOf sh i ≠ .done))

/-- The threads that have come to a filled rejoin register. -/
def cameOf (sh : Sheaf) (k : BitVec 4) (e x : Word) : Mask :=
  maskOf (fun i => bit x i || (bit (liveOf sh e) i && decide (parkOf sh i = .join k)))

theorem live_eq (sh : Sheaf) (e : Word) : e &&& ~~~(doneMask sh) = liveOf sh e := by
  refine mask_ext fun i hi => ?_
  rw [bit_and, bit_not _ hi, doneMask, bit_maskOf _ hi, liveOf, bit_maskOf _ hi]
  by_cases h : parkOf sh i = .done <;> simp [h]

theorem came_eq (sh : Sheaf) (k : BitVec 4) (e x : Word) : x ||| (joinMask sh k &&& liveOf sh e) = cameOf sh k e x := by
  refine mask_ext fun i hi => ?_
  rw [bit_or, bit_and, bit_joinMask _ _ hi, cameOf, bit_maskOf _ hi, Bool.and_comm]
  by_cases h : parkOf sh i = .join k <;> simp [h]

theorem filledJ_eq (sh : Sheaf) (k : BitVec 4) (e x : Word) :
    filledJ sh k.toNat e x = releaseJ (setJ sh k.toNat (liveOf sh e) (cameOf sh k e x)) k.toNat := by
  have hk : BitVec.ofNat 4 k.toNat = k := by simp
  rw [filledJ, hk]
  simp only [live_eq, came_eq]

/-- A filled register with threads still to come holds what it expects and what has come, and releases nobody. -/
theorem filledJ_waits {sh : Sheaf} {k : BitVec 4} {e x : Word} (h : liveOf sh e &&& ~~~(cameOf sh k e x) ≠ 0#32) :
    filledJ sh k.toNat e x = setJ sh k.toNat (liveOf sh e) (cameOf sh k e x) := by
  have hE : jE (setJ sh k.toNat (liveOf sh e) (cameOf sh k e x)) k.toNat = liveOf sh e := by simp [jE_setJ]
  have hA : jA (setJ sh k.toNat (liveOf sh e) (cameOf sh k e x)) k.toNat = cameOf sh k e x := by simp [jA_setJ]
  rw [filledJ_eq]
  refine releaseJ_waits (fun hc => h ?_) (fun hd => h ?_)
  · have hz := hc.2
    rwa [hE, hA] at hz
  · rw [← hE, hd.1, BitVec.zero_and]

theorem filledJ_only (sh : Sheaf) (k : BitVec 4) (e x : Word) : filledJ sh k.toNat e x =
    { sh with park := (filledJ sh k.toNat e x).park, je := (filledJ sh k.toNat e x).je, ja := (filledJ sh k.toNat e x).ja } := by
  rw [filledJ_eq]
  exact releaseJ_only ..

/-- JFILL of a register whose spilled words every store agrees on. -/
theorem exec_jfill_words (hi : Issues s c sh) (hh : sh.handler = true) (k : BitVec 4) (a : BitVec 7) {pa : Nat} {syn : Bool} {e x : Word}
    (hj : jE sh k.toNat = 0#32) (hs : 0 < spill sh k.toNat) (h : SpillAt s c sh a false pa syn)
    (he : Holds s (pa / 4) (e, false)) (hx : Holds s (pa / 4 + 1) (x, false)) :
    ∃ u, exec (.jfill k a) s = done u c (filledJ (setSpill sh k.toNat (spill sh k.toNat - 1)) k.toNat e x) ∧
      getSheaf u c.bed c.sheaf = some sh := by
  obtain ⟨tlb, ht⟩ := spillAt_reaches h (fun s1 pa syn =>
      let w := nameOf (asidOf s c.bed) (rdG64 s c sh (rn a)) pa
      let e := readWord s1 sh.place.core w syn true true (salt s1 8101)
      let x := readWord e.2 sh.place.core (w + 1) syn true false (salt s1 8102)
      if e.1.2 || x.1.2 then poisonUse x.2 c sh (exm c sh)
      else done x.2 c (filledJ (setSpill sh k.toNat (spill sh k.toNat - 1)) k.toNat e.1.1 x.1.1))
  obtain ⟨-, -, -, -, -, hmap⟩ := h
  obtain ⟨hu0, hu1⟩ := untag_nameOf (asidOf s c.bed) (rdG64 s c sh (rn a)) (maps_lt hmap)
  have hexec := (exec_jfill_handler hi hh k a).trans ((if_neg (not_not.2 hj)).trans ((if_neg (by omega)).trans ht))
  dsimp only at hexec
  generalize hs1 : ({ s with tlb := tlb } : State) = s1 at hexec
  have he1 : Holds s1 (pa / 4) (e, false) := hs1 ▸ he
  have hx1 : Holds s1 (pa / 4 + 1) (x, false) := hs1 ▸ hx
  have hg1 : getSheaf s1 c.bed c.sheaf = some sh := hs1 ▸ hi.2
  have hr0 := readWord_holds (hu0.symm ▸ he1) sh.place.core syn true true (salt s1 8101)
  have hm0 := linesMove_readWord s1 sh.place.core (nameOf (asidOf s c.bed) (rdG64 s c sh (rn a)) pa) syn true true (salt s1 8101)
  generalize readWord s1 sh.place.core (nameOf (asidOf s c.bed) (rdG64 s c sh (rn a)) pa) syn true true (salt s1 8101) = r0 at hexec hr0 hm0
  have hr1 := readWord_holds (hu1.symm ▸ hm0.words _ _ hx1) sh.place.core syn true false (salt s1 8102)
  have hm1 := linesMove_readWord r0.2 sh.place.core (nameOf (asidOf s c.bed) (rdG64 s c sh (rn a)) pa + 1) syn true false (salt s1 8102)
  generalize readWord r0.2 sh.place.core (nameOf (asidOf s c.bed) (rdG64 s c sh (rn a)) pa + 1) syn true false (salt s1 8102) = r1
    at hexec hr1 hm1
  refine ⟨r1.2, ?_, by rw [getSheaf_linesMove hm1, getSheaf_linesMove hm0, hg1]⟩
  rw [hexec, hr0, hr1]
  rfl

theorem jfill_fills (hi : Issues s c sh) (hh : sh.handler = true) (k : BitVec 4) (a : BitVec 7) {pa : Nat} {syn : Bool} {e x : Word}
    (hj : jE sh k.toNat = 0#32) (hs : 0 < spill sh k.toNat) (h : SpillAt s c sh a false pa syn)
    (he : Holds s (pa / 4) (e, false)) (hx : Holds s (pa / 4 + 1) (x, false)) :
    ∃ t sh', exec (.jfill k a) s = .next t ∧ getSheaf t c.bed c.sheaf = some (advance c sh') ∧
      SpillBecomes sh sh' k (spill sh k.toNat - 1) ∧ sh' = { sh with je := sh'.je, ja := sh'.ja, spc := sh'.spc, park := sh'.park } ∧
      (liveOf sh e &&& ~~~(cameOf sh k e x) ≠ 0#32 → JoinHolds sh sh' k (liveOf sh e) (cameOf sh k e x) ∧ Parked sh sh' 0#32 .run) := by
  obtain ⟨u, hu, hg⟩ := exec_jfill_words hi hh k a hj hs h he hx
  have hlt : spill sh k.toNat < 256 := (mget sh.spc k.toNat 0#8).isLt
  have honly := filledJ_only (setSpill sh k.toNat (spill sh k.toNat - 1)) k e x
  refine ⟨_, _, hu, getSheaf_setSheaf_self hg _, ?_, ?_, fun hw => ?_⟩
  · rw [honly]
    exact spillBecomes_setSpill (fun _ => rfl) k (by omega)
  · rw [honly]
    rfl
  · have hfill := filledJ_waits (sh := setSpill sh k.toNat (spill sh k.toNat - 1)) (k := k) (e := e) (x := x) hw
    rw [hfill]
    refine ⟨joinHolds_setJ sh k _ _, fun i hlt => ?_⟩
    rw [bit_zero, if_neg Bool.false_ne_true]
    rfl

end Spill

theorem bedExitAndSpills : BedExitAndSpills := by
  unfold BedExitAndSpills
  intro k a s c sh hi
  refine ⟨bexit_handler hi, bexit_normal hi, fun hn => ⟨?_, ?_⟩, fun hh => ⟨fun pa syn hs h => jspill_spills hi hh k a hs h,
    jspill_full hi hh k a, ?_, jfill_live hi hh k a, jfill_empty hi hh k a⟩⟩
  · exact trapsWith_of_plain hn (handlerOnly (.jspill k a) s c sh hi hn)
  · exact trapsWith_of_plain hn (handlerOnly (.jfill k a) s c sh hi hn)
  · intro pa syn e x hj hs h ha0 ha1 h0 h1
    exact jfill_fills hi hh k a hj hs h ⟨ha0, h0⟩ ⟨ha1, h1⟩

/-- Settles O35: the modes of banks, the end of a bed, and the spills of rejoin registers. -/
theorem bedSystem : Obligations.BedSystem := ⟨bankModes, bedExitAndSpills⟩

end Sys2Proof.Proofs
end

section
/-! PROOFS. What a step runs: the groups of a sheaf, the run of a group, and the step around it (R10, R17, R170, R177, R343). -/

namespace Sys2Proof.Proofs

open Sys2Proof Sys2Proof.Machine Sys2Proof.Claim

/-! ## The groups of a sheaf (R10, R17) -/

section Groups

variable {s : State} {b w : Nat} {sh : Sheaf}

theorem curAt_pc_ctl (b w : Nat) (pc : DWord) (ctl : Mask) (f : Fetched) : (curAt b w pc ctl f).pc = pc ∧ (curAt b w pc ctl f).ctl = ctl := by
  cases f <;> exact ⟨rfl, rfl⟩

/-- A group at an address names its address, its control set and its part. -/
theorem groupAtPc_self (s : State) (b w : Nat) (sh : Sheaf) (pc : DWord) (ctl : Mask) (part : Nat) :
    groupAtPc s b w sh pc ctl part =
      groupAtPc s b w sh (groupAtPc s b w sh pc ctl part).cur.pc (groupAtPc s b w sh pc ctl part).cur.ctl
        (groupAtPc s b w sh pc ctl part).part := by
  have h1 : (groupAtPc s b w sh pc ctl part).cur.pc = pc := (curAt_pc_ctl ..).1
  have h2 : (groupAtPc s b w sh pc ctl part).cur.ctl = ctl := (curAt_pc_ctl ..).2
  have h3 : (groupAtPc s b w sh pc ctl part).part = part := rfl
  rw [h1, h2, h3]

theorem mem_insertGroup {x y : Group} {l : List Group} (h : y ∈ insertGroup x l) : y = x ∨ y ∈ l := by
  induction l with
  | nil => exact .inl (List.mem_singleton.1 h)
  | cons z r ih =>
    unfold insertGroup at h
    split at h
    · exact (List.mem_cons.1 h).imp id id
    · rcases List.mem_cons.1 h with h | h
      · exact .inr (h ▸ List.mem_cons_self)
      · exact (ih h).imp id (List.mem_cons_of_mem _)

theorem mem_foldl_insertGroup {y : Group} {l acc : List Group} (h : y ∈ l.foldl (fun l g => insertGroup g l) acc) : y ∈ l ∨ y ∈ acc := by
  induction l generalizing acc with
  | nil => exact .inr h
  | cons x r ih =>
    rcases ih h with h | h
    · exact .inl (List.mem_cons_of_mem _ h)
    · exact (mem_insertGroup h).imp (fun e => by rw [e]; exact List.mem_cons_self) id

/-- An eligible group is one of the sheaf's groups. -/
theorem mem_pcGroups_of_ranked {g : Group} (h : g ∈ rankedGroups s b w sh) : g ∈ pcGroups s b w sh :=
  (mem_foldl_insertGroup h).elim (fun h => (List.mem_filter.1 h).1) (fun h => absurd h List.not_mem_nil)

/-- An address at which threads of a sheaf run is that of a running thread. -/
theorem mem_runningPcs {pc : DWord} (h : pc ∈ runningPcs sh) : ∃ k, k < 32 ∧ bit (runMask sh) k = true ∧ lget sh.pcs k 0#64 = pc := by
  have hfold : ∀ (l : List Nat) (acc : List DWord),
      pc ∈ l.foldl (fun l i => if l.contains (lget sh.pcs i 0#64) then l else l ++ [lget sh.pcs i 0#64]) acc →
        pc ∈ acc ∨ ∃ k ∈ l, lget sh.pcs k 0#64 = pc := by
    intro l
    induction l with
    | nil => exact fun acc h => .inl h
    | cons i r ih =>
      intro acc h
      rcases ih _ h with h | ⟨k, hk, he⟩
      · dsimp only at h
        split at h
        · exact .inl h
        · rcases List.mem_append.1 h with h | h
          · exact .inl h
          · exact .inr ⟨i, List.mem_cons_self, (List.mem_singleton.1 h).symm⟩
      · exact .inr ⟨k, List.mem_cons_of_mem _ hk, he⟩
  rcases hfold _ _ h with h | ⟨k, hk, he⟩
  · exact absurd h List.not_mem_nil
  · obtain ⟨hl, hb⟩ := List.mem_filter.1 hk
    exact ⟨k, (mem_lanes k).1 hl, hb, he⟩

theorem and_not_self_of_and (x y : Mask) : (x &&& y) &&& ~~~x = 0#32 := by
  refine mask_zero_of fun i hi => ?_
  rw [bit_and, bit_and, bit_not _ hi]
  cases bit x i <;> simp

/-- A group at an address is a part of the control set there, and all of it where no launch has changed the code (R170). -/
theorem mem_groupsAt {pc : DWord} {g : Group} (h : g ∈ groupsAt s b w sh pc) :
    ∃ ctl part, g = groupAtPc s b w sh pc ctl part ∧ ctl &&& ~~~controlSet sh pc = 0#32 ∧
      (s.oldCode = [] → ctl = controlSet sh pc ∧ part = 0) := by
  have hall : controlSet sh pc &&& ~~~controlSet sh pc = 0#32 := BitVec.and_not_self _
  unfold groupsAt at h
  dsimp only at h
  cases hc : s.oldCode with
  | nil =>
    rw [hc, List.isEmpty_nil, if_pos rfl] at h
    exact ⟨_, 0, List.mem_singleton.1 h, hall, fun _ => ⟨rfl, rfl⟩⟩
  | cons x r =>
    rw [hc, List.isEmpty_cons, if_neg Bool.false_ne_true] at h
    split at h
    · exact ⟨_, 0, List.mem_singleton.1 h, hall, fun e => by cases e⟩
    · split at h
      · exact ⟨_, 1, List.mem_singleton.1 h, hall, fun e => by cases e⟩
      · rcases List.mem_cons.1 h with h | h
        · exact ⟨_, 0, h, and_not_self_of_and .., fun e => by cases e⟩
        · exact ⟨_, 1, List.mem_singleton.1 h, and_not_self_of_and .., fun e => by cases e⟩

theorem rankedGroup_at {g : Group} (h : g ∈ rankedGroups s b w sh) :
    g = groupAtPc s b w sh g.cur.pc g.cur.ctl g.part ∧
      (if sh.handler then g.cur.pc = sh.hpc ∧ g.cur.ctl = 0#32
       else (∃ k, k < 32 ∧ bit (runMask sh) k = true ∧ lget sh.pcs k 0#64 = g.cur.pc) ∧
         g.cur.ctl &&& ~~~controlSet sh g.cur.pc = 0#32 ∧ (s.oldCode = [] → g.cur.ctl = controlSet sh g.cur.pc ∧ g.part = 0)) := by
  have hm := mem_pcGroups_of_ranked h
  unfold pcGroups at hm
  cases hh : sh.handler with
  | true =>
    rw [hh, if_pos rfl] at hm
    obtain rfl := List.mem_singleton.1 hm
    exact ⟨groupAtPc_self .., curAt_pc_ctl ..⟩
  | false =>
    rw [hh, if_neg Bool.false_ne_true] at hm
    obtain ⟨pc, hpc, hg⟩ := List.mem_flatMap.1 hm
    obtain ⟨ctl, part, rfl, hsub, hold⟩ := mem_groupsAt hg
    have h1 : (groupAtPc s b w sh pc ctl part).cur.pc = pc := (curAt_pc_ctl ..).1
    have h2 : (groupAtPc s b w sh pc ctl part).cur.ctl = ctl := (curAt_pc_ctl ..).2
    refine ⟨groupAtPc_self .., ?_⟩
    rw [if_neg Bool.false_ne_true, h1, h2]
    exact ⟨mem_runningPcs hpc, hsub, hold⟩

end Groups

/-! ## The run of a group (R170, R177) -/

section Fetched

variable {s : State} {sh : Sheaf} {g : Group} {held : Option Sheaf} {x y : Word} {n : Nat}

/-- A group that was fetched, and that no breakpoint stops, runs its instruction. -/
theorem runGroup_decoded (hb : breakAt sh g.cur.pc = none) (hg : g.got = .word x y n) {i : Instr} (hi : g.ins = some i) :
    runGroup s sh g held = exec i (issuing s sh g held) := by
  unfold runGroup
  simp only [hb, hg, hi]

/-- A fetched word that is no instruction is illegal. -/
theorem runGroup_undecoded (hb : breakAt sh g.cur.pc = none) (hg : g.got = .word x y n) (hi : g.ins = none) :
    runGroup s sh g held = trap (issuing s sh g held) { g.cur with before := held } sh (plainTrap 0) := by
  unfold runGroup
  simp only [hb, hg, hi]
  rfl

end Fetched

theorem runGroup_word (s : State) (b w n part : Nat) (sh : Sheaf) (pc : DWord) (ctl : Mask) (x y : Word) (held : Option Sheaf)
    (hf : (if sh.handler then handlerFetch s sh.himg pc.toNat else (fetchAt s sh.place.core part (asidOf s b) pc).1) = .word x y n) :
    let g := groupAtPc s b w sh pc ctl part
    let c : Cur := { bed := b, sheaf := w, pc := pc, ctl := ctl, len := n, inst0 := x, inst1 := y, before := held }
    { g.cur with before := held } = c ∧ (issuing s sh g held).agent = .sheaf c ∧
    (breakAt sh pc = none →
      (∀ i, decodeWord x y = .ok i → g.ins = some i ∧ runGroup s sh g held = exec i (issuing s sh g held)) ∧
      (∀ e, decodeWord x y = .error e → runGroup s sh g held = trap (issuing s sh g held) c sh (plainTrap 0))) := by
  intro g c
  have hgot : g.got = .word x y n := hf
  have hcur : { g.cur with before := held } = c := by
    have : g.cur = curAt b w pc ctl (.word x y n) := congrArg (curAt b w pc ctl) hf
    rw [this]; rfl
  have hpc : g.cur.pc = pc := (curAt_pc_ctl ..).1
  refine ⟨hcur, congrArg Agent.sheaf hcur, fun hb => ⟨fun i hd => ?_, fun e hd => ?_⟩⟩
  · have hins : g.ins = some i := by simp only [g, groupAtPc, hf, hd]
    exact ⟨hins, runGroup_decoded (hpc.symm ▸ hb) hgot hins⟩
  · have hins : g.ins = none := by simp only [g, groupAtPc, hf, hd]
    exact (runGroup_undecoded (hpc.symm ▸ hb) hgot hins).trans (by rw [hcur])

/-! ## The step -/

theorem step_of {s : State} {a : Act} (h : nextAct s = some a) : step s = (act a s).andThen (settle a s) := by
  rw [step, h]

theorem andThen_andThen (o : Out) (f g : State → Out) : (o.andThen f).andThen g = o.andThen (fun t => (f t).andThen g) := by
  cases o <;> rfl

theorem andThen_next (t : State) (f : State → Out) : Out.andThen (.next t) f = f t := rfl

section Issue

variable {s : State} {core slot : Nat} {k : Cand} {g : Group} {i : Instr} {sh : Sheaf}

theorem partnerOf_single (sh : Sheaf) (g : Group) : partnerOf sh [g] = none := by
  unfold partnerOf secondOf
  split <;> rfl

/-- TMM is one of the operations that may wait for range locks. -/
theorem mayWait_of_isTmm {i : Instr} (h : isTmm (some i) = true) : mayWait i = true := by
  unfold isTmm at h
  split at h
  · rename_i heq
    rw [Option.some.inj heq]
    rfl
  · cases h

/-- A pick that cannot wait for locks, and that no injector makes late, runs its group. -/
theorem firstRun_plain (hb : breakAt sh g.cur.pc = none) (hi : g.ins = some i) (hw : mayWait i = false)
    (hj : sh.handler = true ∨ inject s core g.cls = (s, 0)) (slot key : Nat) (held : Option Sheaf) :
    firstRun s core slot key sh g held none = { out := runGroup s sh g held, went := true } := by
  have hcounts : hasIssue sh g = true := by simp [hasIssue, hi, hb]
  have hn : (if sh.handler || !true then (s, 0) else inject s core g.cls) = (s, 0) := by
    rcases hj with h | h
    · simp [h]
    · rw [h, ite_self]
  have ht : isTmm (some i) = false := Bool.eq_false_iff.2 fun h => by simp [mayWait_of_isTmm h] at hw
  unfold firstRun
  simp only [hcounts, hn, hi, hw, ht, Bool.false_and, Bool.false_eq_true, if_false, if_true]

theorem issueGroups_single (hb : breakAt sh g.cur.pc = none) (hi : g.ins = some i) (hw : mayWait i = false)
    (hj : sh.handler = true ∨ inject s core g.cls = (s, 0)) (slot : Nat) :
    issueGroups s core slot sh g [] none =
      (runGroup s sh g none).andThen (fun t => .next (afterIssue core slot s sh [g] [] g.cur.bed g.cur.sheaf t)) := by
  unfold issueGroups
  simp only [partnerOf_single, Option.isSome_none, Bool.false_and, Bool.false_eq_true, if_false, firstRun_plain hb hi hw hj, Bool.not_true]

theorem takeLate_none (h : mfind (getCore s core).lateNext slot = none) : takeLate s core slot = (none, s) := by
  rw [takeLate, h]

theorem orWait_of_not_mayWait (hi : g.ins = some i) (hw : mayWait i = false) (u v : State) (r : Out) : orWait u v core g r = r := by
  simp [orWait, hi, hw]

/-- A slot that picks one group which nothing delays runs its instruction, keeps the books of the issue and notes who was eligible. -/
theorem issueSlot_single (hagain : againKey s core slot = none) (hlate : mfind (getCore s core).lateNext slot = none)
    (hpick : pickSheaf (reloadCredits s core slot (slotCands s core slot)) (slotCands (reloadCredits s core slot (slotCands s core slot)) core slot) =
      some k)
    (hready : k.ready = .groups [g]) (hb : breakAt sh g.cur.pc = none) (hgot : ∃ x y n, g.got = .word x y n) (hi : g.ins = some i)
    (hw : mayWait i = false) (s1 : State)
    (hs1 : s1 = picked (reloadCredits s core slot (slotCands s core slot)) core slot
      (slotCands (reloadCredits s core slot (slotCands s core slot)) core slot) k)
    (hsh : getSheaf s1 k.bed k.sheaf = some sh) (hj : sh.handler = true ∨ inject s1 core g.cls = (s1, 0)) :
    issueSlot s core slot = Out.andThen (exec i (issuing s1 sh g none)) (fun t =>
      .next (keepEligible (slotCands (reloadCredits s core slot (slotCands s core slot)) core slot) k.bed k.sheaf
        (afterIssue core slot s1 sh [g] [] g.cur.bed g.cur.sheaf t))) := by
  subst hs1
  obtain ⟨x, y, n, hgot⟩ := hgot
  have hrun : ∀ u, runGroup u sh g none = exec i (issuing u sh g none) := fun _ => runGroup_decoded hb hgot hi
  unfold issueSlot
  simp only [hagain, takeLate_none hlate]
  unfold issueNew
  simp only [hpick, hready, hsh, orWait_of_not_mayWait hi hw, issueGroups_single hb hi hw hj, hrun, andThen_andThen,
    andThen_next]

end Issue

theorem step_issue {s : State} {core slot : Nat} {k : Cand} {g : Group} {i : Instr} {sh : Sheaf} (hact : nextAct s = some (.issue core slot))
    (hagain : againKey s core slot = none) (hlate : mfind (getCore s core).lateNext slot = none) :
    let s0 := reloadCredits s core slot (slotCands s core slot)
    let cs := slotCands s0 core slot
    pickSheaf s0 cs = some k → k.ready = .groups [g] → breakAt sh g.cur.pc = none → (∃ x y n, g.got = .word x y n) → g.ins = some i →
    mayWait i = false →
    let s1 := picked s0 core slot cs k
    getSheaf s1 k.bed k.sheaf = some sh → (sh.handler = true ∨ inject s1 core g.cls = (s1, 0)) →
    step s = Out.andThen (exec i (issuing s1 sh g none)) (fun t =>
      settle (.issue core slot) s (keepEligible cs k.bed k.sheaf (afterIssue core slot s1 sh [g] [] g.cur.bed g.cur.sheaf t))) := by
  intro s0 cs hpick hready hb hgot hi hw s1 hsh hj
  have hrun : act (.issue core slot) s = _ := issueSlot_single hagain hlate hpick hready hb hgot hi hw s1 rfl hsh hj
  rw [step_of hact, hrun, andThen_andThen]
  rfl

theorem step_pair {s : State} {n : NCur} {x : Ctx} {i : Instr} (hact : nextAct s = some (.pair n)) (hx : ctxOf (notePair s n) n = some x)
    (hal : (thrOf n x).pc % 4 = 0) (hlt : (thrOf n x).pc < libSize (imageOf s x.lib))
    (hd : decodeNear (libCode (imageOf s x.lib) (thrOf n x).pc) = .ok i) :
    step s = Out.andThen (exec i { notePair s n with agent := .pair n }) (fun t => settle (.pair n) s t) := by
  have himg : imageOf (notePair s n) x.lib = imageOf s x.lib := rfl
  have hin : (decide ((thrOf n x).pc % 4 ≠ 0) || decide (libSize (imageOf s x.lib) ≤ (thrOf n x).pc)) = false := by
    simp [hal, hlt]
  have hrun : act (.pair n) s = exec i { notePair s n with agent := .pair n } := by
    show runPair (notePair s n) n = _
    unfold runPair
    simp only [hx, himg, hin, hd, Bool.false_eq_true, if_false]
  rw [step_of hact, hrun]

theorem lget_map_some {α : Type} (l : List α) (k : Nat) : lget (l.map some) k none = l[k]? := by
  induction l generalizing k with
  | nil => rfl
  | cons a r ih =>
    cases k with
    | zero => rfl
    | succ k => exact ih k

theorem step_agenda {s : State} {k : Nat} {e : Event} (hact : nextAct s = some (.agenda k)) (he : s.agenda[k]? = some e) :
    step s = Out.andThen (runEvent e { s with agenda := s.agenda.take k ++ s.agenda.drop (k + 1) }) (fun t => settle (.agenda k) s t) := by
  have hrun : act (.agenda k) s = runEvent e { s with agenda := s.agenda.take k ++ s.agenda.drop (k + 1) } := by
    unfold act
    simp only [lget_map_some, he]
  rw [step_of hact, hrun]

theorem settle_made {a : Act} {s t : State} (h1 : t.snapStall = none) (h2 : cutsAttempt s t = false) (h3 : heldBack s t = false) :
    settle a s t = .next { notice s t with ticks := s.ticks + 1, agent := .idle, holdRelease := false } := by
  unfold settle
  simp only [h1, h2, h3, Bool.false_eq_true, if_false, Bool.not_false, if_true]
  rfl

theorem step_nothing {s : State} (h : candidates s = []) : step s = .next s := by
  rw [step, nextAct, h]

/-- Settles O59: the groups, their run, and the step around it. -/
theorem stepRunsDecoded : Obligations.StepRunsDecoded := by
  unfold Obligations.StepRunsDecoded
  exact ⟨fun s b w sh g hg => rankedGroup_at hg, runGroup_word, fun s core slot k g i sh => step_issue, fun s n x i => step_pair,
    fun s e h => step_of h, fun s k e => step_agenda, fun a s t => settle_made, fun s => step_nothing⟩

end Sys2Proof.Proofs
end

section
/-! PROOFS. NMCALL: its argument blocks are translated one by one, and each bank engine gets one batch (R25, R166, R283). -/

namespace Sys2Proof.Proofs

open Sys2Proof Sys2Proof.Machine Sys2Proof.Claim

/-! ## A translation leaves what maps mapped -/

section Kept

variable {s : State} {core core' : Nat} {asid asid' : BitVec 16} {va vb : DWord}

theorem walkFrom_congr {t : State} (h : ∀ a, homeDWord t a = homeDWord s a) {va vb : DWord} (hv : va.toNat / 2 ^ 12 % 2 ^ 37 = vb.toNat / 2 ^ 12 % 2 ^ 37)
    (fuel level table : Nat) (p : List Nat) : walkFrom t va fuel level table p = walkFrom s vb fuel level table p := by
  have hx : ∀ l, vaIndex va l = vaIndex vb l := fun l => by
    unfold vaIndex
    split <;> omega
  induction fuel generalizing level table p with
  | zero => rfl
  | succ n ih => simp only [walkFrom, h, hx, ih]

/-- A walk depends on the page tables and on the number of the page alone. -/
theorem walk_congr {t : State} (h : ∀ a, homeDWord t a = homeDWord s a) (hr : t.hostIf = s.hostIf)
    (hv : va.toNat / 2 ^ 12 % 2 ^ 37 = vb.toNat / 2 ^ 12 % 2 ^ 37) (asid : BitVec 16) : walk t asid va = walk s asid vb := by
  unfold walk
  rw [hr, h]
  exact walkFrom_congr h hv ..

theorem tlbKey_inj (h : tlbKey core asid va = tlbKey core' asid' vb) :
    asid = asid' ∧ va.toNat / 2 ^ 12 % 2 ^ 37 = vb.toNat / 2 ^ 12 % 2 ^ 37 := by
  unfold tlbKey at h
  have h1 := asid.isLt
  have h2 := asid'.isLt
  have hv : va.toNat / 2 ^ 12 % 2 ^ 37 = vb.toNat / 2 ^ 12 % 2 ^ 37 := by omega
  exact ⟨BitVec.eq_of_toNat_eq (by omega), hv⟩

/-- A VA that maps still maps as another that maps has been translated. -/
theorem maps_after {e : BitVec 64} {level : Nat} {path : List Nat} (hwalk : walk s asid va = .leaf e level path) {kind : AccKind} {pb : Nat} {syn : Bool}
    (h : Maps s core' asid' vb kind pb syn) : Maps { s with tlb := mset s.tlb (tlbKey core asid va) (e, level) } core' asid' vb kind pb syn := by
  obtain ⟨f, l, r, leafAt, hw, hA, hwr, hf, htlb, rest⟩ := h
  refine ⟨f, l, r, leafAt, (walk_congr (s := s) (fun _ => rfl) rfl rfl asid').trans hw, hA, hwr, hf, ?_, rest⟩
  show mfind (mset s.tlb _ _) _ = none ∨ mfind (mset s.tlb _ _) _ = some _
  rw [mfind_mset]
  by_cases hk : tlbKey core' asid' vb = tlbKey core asid va
  · obtain ⟨rfl, hv⟩ := tlbKey_inj hk
    obtain ⟨rfl, rfl, -⟩ := Walk.leaf.inj (hwalk.symm.trans ((walk_congr (s := s) (fun _ => rfl) rfl hv.symm _).trans hw))
    exact .inr (if_pos hk)
  · rw [if_neg hk]
    exact htlb

end Kept

/-! ## The argument blocks -/

section Arguments

variable {c : Cur} {sh : Sheaf} {va : Nat → DWord} {pa : Nat → Nat}

/-- Blocks that map, in device memory, are all translated, and the TLB alone changes. -/
theorem argAddrs_maps (m : Mask) (k : State → List (Nat × Nat) → Out) (l : List Nat) (s : State) (acc : List (Nat × Nat))
    (h : ∀ i ∈ l, (∃ syn, Maps s sh.place.core (asidOf s c.bed) (va i) .read (pa i) syn) ∧ pa i < Config.hostBase) :
    ∃ tlb, argAddrs s c sh m va k l acc = k { s with tlb := tlb } (acc ++ l.map (fun i => (i, pa i))) := by
  induction l generalizing s acc with
  | nil => exact ⟨s.tlb, by rw [argAddrs, List.map_nil, List.append_nil]⟩
  | cons i r ih =>
    obtain ⟨⟨syn, hmap⟩, hlt⟩ := h i List.mem_cons_self
    obtain ⟨e, level, path, hwalk, ht⟩ := translate_maps_entry hmap
    obtain ⟨tlb, hr⟩ := ih { s with tlb := mset s.tlb (tlbKey sh.place.core (asidOf s c.bed) (va i)) (e, level) } (acc ++ [(i, pa i)])
      (fun j hj => ⟨(h j (List.mem_cons_of_mem _ hj)).1.imp fun syn hm => maps_after hwalk hm, (h j (List.mem_cons_of_mem _ hj)).2⟩)
    refine ⟨tlb, ?_⟩
    rw [argAddrs, translateSaving, accKind]
    simp only [Bool.false_eq_true, if_false, ht, if_neg (show ¬Config.hostBase ≤ pa i by omega)]
    rw [hr, List.append_assoc]
    rfl

end Arguments

/-! ## Batches -/

/-- A new batch of calls of one instruction, for one engine. -/
def IsBatch (c : Cur) (d routine count : Nat) (handler : Bool) (asid : BitVec 16) (va : Nat → DWord) (args : List (Nat × Nat)) (e : Nat)
    (b : Batch) : Prop :=
  b.engine = e ∧ b.bed = c.bed ∧ b.sheaf = c.sheaf ∧ b.pc = c.pc ∧ b.d = d ∧ b.routine = routine ∧ b.count = count ∧ b.handler = handler ∧
    b.asid = asid ∧ b.started = false ∧ b.replied = false ∧
    b.calls = (args.filter (fun x => engineOf x.2 == e)).map (fun x => { lane := x.1, arg := va x.1, reply := none })

section Batches

variable {c : Cur} {d routine count : Nat} {va : Nat → DWord} {args : List (Nat × Nat)}

/-- A batch added takes the next name, and changes nothing else. -/
theorem addBatch_eq (s : State) (e : Nat) :
    ∃ b, addBatch s c d routine count va args e = { s with nextKey := s.nextKey + 1, batches := mset s.batches s.nextKey b } ∧
      IsBatch c d routine count (handlerHere s c) (asidOf s c.bed) va args e b :=
  ⟨_, rfl, rfl, rfl, rfl, rfl, rfl, rfl, rfl, rfl, rfl, rfl, rfl, rfl⟩

/-- The engines of a call get a batch each, under names of its own. -/
theorem foldl_addBatch (es : List Nat) (s : State) :
    ∃ n m, es.foldl (fun s e => addBatch s c d routine count va args e) s = { s with nextKey := n, batches := m } ∧
      (∀ k, k < s.nextKey → mfind m k = mfind s.batches k) ∧
      ∃ key : Nat → Nat, ∀ e ∈ es, ∃ b, mfind m (key e) = some b ∧
        IsBatch c d routine count (handlerHere s c) (asidOf s c.bed) va args e b := by
  induction es generalizing s with
  | nil => exact ⟨_, _, rfl, fun _ _ => rfl, fun e => e, fun e he => absurd he List.not_mem_nil⟩
  | cons e r ih =>
    obtain ⟨b, hb, hbatch⟩ := addBatch_eq (c := c) (d := d) (routine := routine) (count := count) (va := va) (args := args) s e
    obtain ⟨n, m, hm, hkeep, key, hkey⟩ := ih { s with nextKey := s.nextKey + 1, batches := mset s.batches s.nextKey b }
    refine ⟨n, m, by rw [List.foldl_cons, hb, hm], fun k hk => ?_, fun x => if x = e then s.nextKey else key x, fun x hx => ?_⟩
    · rw [hkeep k (by show k < s.nextKey + 1; omega), mfind_mset_ne _ _ (by omega)]
    · by_cases hxe : x = e
      · subst hxe
        refine ⟨b, ?_, hbatch⟩
        simp only [if_true]
        rw [hkeep s.nextKey (Nat.lt_succ_self _), mfind_mset_self]
      · simp only [if_neg hxe]
        exact hkey x ((List.mem_cons.1 hx).resolve_left hxe)

/-- The batches of the calls of one instruction. -/
def addBatches (s : State) (c : Cur) (d routine count : Nat) (va : Nat → DWord) (args : List (Nat × Nat)) : State :=
  (dedup (args.map (fun x => engineOf x.2))).foldl (fun s e => addBatch s c d routine count va args e) s

theorem mem_dedup {xs : List Nat} {x : Nat} : x ∈ dedup xs ↔ x ∈ xs := by
  have h : ∀ (l acc : List Nat), x ∈ l.foldl (fun acc x => if acc.contains x then acc else acc ++ [x]) acc ↔ x ∈ acc ∨ x ∈ l := by
    intro l
    induction l with
    | nil => simp
    | cons y r ih =>
      intro acc
      rw [List.foldl_cons, ih]
      by_cases hy : y ∈ acc
      · rw [if_pos (by simpa using hy), List.mem_cons]
        exact ⟨Or.imp id .inr, fun h => h.elim .inl (fun h => h.elim (fun e => .inl (e ▸ hy)) .inr)⟩
      · rw [if_neg (by simpa using hy), List.mem_append, List.mem_singleton, List.mem_cons, or_assoc]
  rw [dedup, h]
  simp

/-- Each engine that serves a call gets a batch, under a name of its own. -/
theorem addBatches_eq (s : State) :
    ∃ n m, addBatches s c d routine count va args = { s with nextKey := n, batches := m } ∧
      ∃ key : Nat → Nat, ∀ x ∈ args, ∃ b, mfind m (key (engineOf x.2)) = some b ∧
        IsBatch c d routine count (handlerHere s c) (asidOf s c.bed) va args (engineOf x.2) b := by
  obtain ⟨n, m, h, -, key, hkey⟩ := foldl_addBatch (c := c) (d := d) (routine := routine) (count := count) (va := va) (args := args)
    (dedup (args.map (fun x => engineOf x.2))) s
  exact ⟨n, m, h, key, fun x hx => hkey _ (mem_dedup.2 (List.mem_map_of_mem hx))⟩

end Batches

/-! ## NMCALL -/

section Nmcall

variable {s : State} {c : Cur} {sh : Sheaf} {d a b : BitVec 7}

theorem mem_upFrom {a n x : Nat} : x ∈ upFrom a n ↔ ∃ k, k < n ∧ a + k = x := by
  induction n generalizing a with
  | zero => simp [upFrom]
  | succ n ih =>
    rw [upFrom, List.mem_cons, ih]
    constructor
    · rintro (rfl | ⟨k, hk, rfl⟩)
      · exact ⟨0, by omega, rfl⟩
      · exact ⟨k + 1, by omega, by omega⟩
    · rintro ⟨_ | k, hk, rfl⟩
      · exact .inl rfl
      · exact .inr ⟨k, by omega, by omega⟩

theorem withBudget_inBudget {regs : List Nat} (h : InBudget c sh regs) (k : Out) : withBudget s c sh (exm c sh) regs k = k := by
  rw [withBudget, overBudget_none h]

theorem inBudget_mono {xs ys : List Nat} (h : InBudget c sh ys) (hs : ∀ n ∈ xs, n ∈ ys) : InBudget c sh xs :=
  fun i hi hb n hn => h i hi hb n (hs n hn)

/-- The number of reply registers in gB. -/
def callCount (w : Nat) : Nat := w / 2 ^ 16 % 32

theorem bits_callCount (w : Nat) : bits w 20 16 = callCount w := rfl

theorem bits_upper (x : Word) : bits x.toNat 31 21 = x.toNat / 2 ^ 21 := by
  have := x.isLt
  unfold bits
  omega

/-- The clean operands of the active lanes. -/
def CleanArgs (s : State) (c : Cur) (sh : Sheaf) (a : BitVec 7) : Prop :=
  ∀ i, i < 32 → bit (exm c sh) i = true → rdVP s c sh i (rn a) = false ∧ rdVP s c sh i (rn a + 1) = false

theorem poisonOf_clean (h : CleanArgs s c sh a) : poisonOf s c sh [rn a, rn a + 1] &&& exm c sh = 0#32 := by
  refine mask_zero_of fun i hi => ?_
  rw [bit_and, bit_poisonOf _ _ _ _ hi]
  cases hb : bit (exm c sh) i
  · exact Bool.and_false _
  · obtain ⟨h0, h1⟩ := h i hi hb
    simp [h0, h1]

theorem nmcall_poison (hi : Issues s c sh) (ha : Active c sh) (hb : InBudget c sh [rn a, rn a + 1, rn d]) (hp : rdGP s c sh (rn b) = true) :
    exec (.nmcall d a b) s = trap s c sh { plainTrap 6 with lanes := exm c sh } := by
  rw [exec_nmcall, execNmcall, whenActive_issues hi ha]
  simp only [withBudget_inBudget hb, hp, if_true]
  rfl

theorem nmcall_illegal (hi : Issues s c sh) (ha : Active c sh) (hb : InBudget c sh [rn a, rn a + 1, rn d]) (hp : rdGP s c sh (rn b) = false)
    (hq : CleanArgs s c sh a) (h : callCount (rdG s c sh (rn b)).toNat = 0 ∨ 16 < callCount (rdG s c sh (rn b)).toNat ∨
      (rdG s c sh (rn b)).toNat / 2 ^ 21 ≠ 0) : exec (.nmcall d a b) s = trap s c sh (plainTrap 0) := by
  rw [exec_nmcall, execNmcall, whenActive_issues hi ha]
  simp only [withBudget_inBudget hb, hp, poisonOf_clean hq, bits_callCount, bits_upper, if_pos h, ne_eq, not_true, Bool.false_eq_true, if_false]
  rfl

/-- The address of a lane's argument block. -/
theorem laneVa_zero (i : Nat) : laneVa s c sh a 0#64 i = rdV64 s c sh i (rn a) := by rw [laneVa, BitVec.add_zero]

theorem lockLane_lanes {core : Nat} {write : Bool} {space : Nat} {asid : BitVec 16} {n : Nat} {addr : Nat → Nat} {l : List Nat}
    (h : ∀ i ∈ l, lockHit s core write space asid (addr i) n = none) : lockLane s core write space asid n addr l = none := by
  induction l with
  | nil => rfl
  | cons i r ih =>
    rw [lockLane, h i List.mem_cons_self]
    exact ih fun j hj => h j (List.mem_cons_of_mem _ hj)

/-- Accesses that pass the checks of R239. -/
theorem accessChecks_pass {m live : Mask} {size : Nat} {addr : Nat → Int} {legal : Nat → Bool} {write : Bool} {space : Nat}
    (ha : ∀ i, i < 32 → bit live i = true → addr i % (size : Int) = 0) (hl : ∀ i, i < 32 → bit live i = true → legal i = true)
    (hk : ∀ i, i < 32 → bit live i = true → lockHit s sh.place.core write space (asidOf s c.bed) (addr i).toNat size = none) (k : Out) :
    accessChecks s c sh m 0#32 live size addr legal write space k = k := by
  have h1 : lowest (maskOf (fun i => bit live i && decide (addr i % (size : Int) ≠ 0))) = none := by
    refine lowest_none fun i hi => (bit_maskOf _ hi).trans ?_
    cases hb : bit live i
    · rfl
    · simp [ha i hi hb]
  have h2 : lowest (maskOf (fun i => bit live i && !legal i)) = none := by
    refine lowest_none fun i hi => (bit_maskOf _ hi).trans ?_
    cases hb : bit live i
    · rfl
    · simp [hl i hi hb]
  have h3 : lockLane s sh.place.core write space (asidOf s c.bed) size (fun i => (addr i).toNat) (lanesOf live) = none := by
    refine lockLane_lanes fun i hi => ?_
    obtain ⟨hlane, hb⟩ := List.mem_filter.1 hi
    exact hk i ((mem_lanes i).1 hlane) hb
  rw [accessChecks, if_neg (not_not.2 rfl), h1, h2, h3]

/-- The blocks that an NMCALL names pass its checks, and its calls go on with their addresses. -/
theorem exec_nmcall_goes (hi : Issues s c sh) (ha : Active c sh) {pa : Nat → Nat} (hp : rdGP s c sh (rn b) = false)
    (h1 : 1 ≤ callCount (rdG s c sh (rn b)).toNat) (h16 : callCount (rdG s c sh (rn b)).toNat ≤ 16)
    (hup : (rdG s c sh (rn b)).toNat / 2 ^ 21 = 0)
    (hbud : InBudget c sh ([rn a, rn a + 1] ++ regsFrom (rn d) (callCount (rdG s c sh (rn b)).toNat))) (hargs : ArgsAt s c sh a pa) :
    ∃ tlb, exec (.nmcall d a b) s =
      .next (parkPool (addBatches { s with tlb := tlb } c (rn d) (bits (rdG s c sh (rn b)).toNat 15 0) (callCount (rdG s c sh (rn b)).toNat)
        (fun i => rdV64 s c sh i (rn a)) ((lanesOf (exm c sh)).map (fun i => (i, pa i)))) c sh) := by
  have hfrom : ∀ k, k < callCount (rdG s c sh (rn b)).toNat → rn d + k ∈ regsFrom (rn d) (callCount (rdG s c sh (rn b)).toNat) :=
    fun k hk => List.mem_map.2 ⟨k, List.mem_range.2 hk, rfl⟩
  have hb1 : InBudget c sh [rn a, rn a + 1, rn d] := inBudget_mono hbud fun n hn => by
    rcases List.mem_cons.1 hn with rfl | hn
    · exact List.mem_cons_self
    · rcases List.mem_cons.1 hn with rfl | hn
      · exact List.mem_cons_of_mem _ List.mem_cons_self
      · obtain rfl := List.mem_singleton.1 hn
        exact List.mem_append_right _ (hfrom 0 h1)
  have hb2 : InBudget c sh (upFrom (rn d) (callCount (rdG s c sh (rn b)).toNat)) := inBudget_mono hbud fun n hn => by
    obtain ⟨k, hk, rfl⟩ := mem_upFrom.1 hn
    exact List.mem_append_right _ (hfrom k hk)
  have hclean : CleanArgs s c sh a := fun i hlt hon => ⟨(hargs i hlt hon).1, (hargs i hlt hon).2.1⟩
  have hlegal : ¬(callCount (rdG s c sh (rn b)).toNat = 0 ∨ 16 < callCount (rdG s c sh (rn b)).toNat ∨ (rdG s c sh (rn b)).toNat / 2 ^ 21 ≠ 0) := by
    omega
  obtain ⟨tlb, hmaps⟩ := argAddrs_maps (c := c) (sh := sh) (va := fun i => rdV64 s c sh i (rn a)) (pa := pa) (exm c sh)
    (fun s1 args => .next (parkPool (addBatches s1 c (rn d) (bits (rdG s c sh (rn b)).toNat 15 0) (callCount (rdG s c sh (rn b)).toNat)
      (fun i => rdV64 s c sh i (rn a)) args) c sh)) (lanesOf (exm c sh)) s []
    (fun i hm => by
      obtain ⟨hlane, hon⟩ := List.mem_filter.1 hm
      obtain ⟨-, -, -, -, -, hmap, hlt⟩ := hargs i ((mem_lanes i).1 hlane) hon
      exact ⟨hmap, hlt⟩)
  refine ⟨tlb, ?_⟩
  rw [exec_nmcall, execNmcall, whenActive_issues hi ha]
  have hva : laneVa s c sh a 0#64 = fun i => rdV64 s c sh i (rn a) := funext laneVa_zero
  simp only [withBudget_inBudget hb1, withBudget_inBudget hb2, hp, poisonOf_clean hclean, bits_callCount, bits_upper, if_neg hlegal, hva,
    ne_eq, not_true, Bool.false_eq_true, if_false]
  refine (accessChecks_pass (fun i hlt hon => ?_) ?_ ?_ _).trans hmaps
  · obtain ⟨-, -, hal, -⟩ := hargs i hlt hon
    omega
  · intro i hlt hon
    obtain ⟨-, -, -, hc, -⟩ := hargs i hlt hon
    exact hc
  · intro i hlt hon
    obtain ⟨-, -, -, -, hl, -⟩ := hargs i hlt hon
    exact hl

/-- The threads of an NMCALL park in POOL, or its handler's stream stands at it with its lanes noted (R25, log 27). -/
theorem getSheaf_parkPool {u : State} (hu : getSheaf u c.bed c.sheaf = some sh) :
    ∃ y, getSheaf (parkPool u c sh) c.bed c.sheaf =
      some { (if sh.handler then { sh with hpool := exm c sh } else parkHere c sh .pool) with yieldFor := y, wdcnt := 0 } :=
  ⟨_, getSheaf_yieldSheaf (getSheaf_setSheaf_self hu _)⟩

theorem parkPool_batches (u : State) : (parkPool u c sh).batches = u.batches := by
  have hy : ∀ v : State, (yieldSheaf v c.bed c.sheaf).batches = v.batches := fun v => by
    unfold yieldSheaf
    split
    · rfl
    · exact setSheaf_batches ..
  rw [parkPool, hy]
  exact setSheaf_batches ..

theorem stores_parkPool (u : State) : StoresNothing u (parkPool u c sh) := stores_trans (stores_putSheaf ..) (stores_yieldSheaf ..)

/-- The calls of one engine, lane by lane. -/
theorem calls_of_engine (m : Mask) (pa : Nat → Nat) (va : Nat → DWord) (e : Nat) :
    ((((lanesOf m).map (fun i => (i, pa i))).filter (fun x => engineOf x.2 == e)).map (fun x => { lane := x.1, arg := va x.1, reply := none } : _ → NCall)) =
      ((List.range 32).filter (fun k => bit m k && decide (engineOf (pa k) = e))).map (fun k => { lane := k, arg := va k, reply := none }) := by
  rw [List.filter_map, List.map_map, lanesOf, List.filter_filter]
  refine congrArg (List.map _) (List.filter_congr fun k _ => ?_)
  rw [Bool.and_comm]
  rfl

end Nmcall

/-- R25, R166 and R283, NMCALL. -/
theorem memoryCalls : MemoryCalls := by
  intro d a b s c sh pa hi ha
  refine ⟨fun hb => ⟨nmcall_poison hi ha hb, nmcall_illegal hi ha hb⟩, fun hp h1 h16 hup hbud hargs => ?_⟩
  obtain ⟨tlb, he⟩ := exec_nmcall_goes hi ha hp h1 h16 hup hbud hargs
  obtain ⟨n, m, hbs, key, hkey⟩ := addBatches_eq (c := c) (d := rn d) (routine := bits (rdG s c sh (rn b)).toNat 15 0)
    (count := callCount (rdG s c sh (rn b)).toNat) (va := fun i => rdV64 s c sh i (rn a))
    (args := (lanesOf (exm c sh)).map (fun i => (i, pa i))) { s with tlb := tlb }
  rw [hbs] at he
  obtain ⟨y, hsh⟩ := getSheaf_parkPool (c := c) (sh := sh) (u := { s with tlb := tlb, nextKey := n, batches := m }) hi.2
  refine ⟨_, _, key, he, hsh, stores_trans (by constructor <;> intros <;> rfl) (stores_parkPool _), fun hh => ?_, fun hh => ?_, fun i hlt hon => ?_⟩
  · simp only [hh, Bool.false_eq_true, if_false]
    exact ⟨⟨rfl, (sameButThreads_parkHere c sh .pool).2⟩, fun i hlt => parkOf_parkHere c sh .pool hlt, fun i hlt => lget_pcs_parkHere c sh .pool hlt⟩
  · simp only [hh, if_true]
  · obtain ⟨bt, hbt, h⟩ := hkey (i, pa i) (List.mem_map.2 ⟨i, List.mem_filter.2 ⟨(mem_lanes i).2 hlt, hon⟩, rfl⟩)
    obtain ⟨hen, hbed, hsheaf, hpc, hd, hr, hn, hhand, hasid, hst, hrep, hcalls⟩ := h
    refine ⟨bt, ?_, hen, hbed, hsheaf, hpc, hd, ?_, hn, ?_, hasid, hst, hrep, hcalls.trans (calls_of_engine (exm c sh) pa (fun k => rdV64 s c sh k (rn a)) _)⟩
    · rw [parkPool_batches]
      exact hbt
    · rw [hr]
      simp [bits]
    · rw [hhand, handlerHere]
      show (match getSheaf s c.bed c.sheaf with | some sh => sh.handler | none => false) = _
      rw [hi.2]

end Sys2Proof.Proofs
end

section
/-! PROOFS. The batches of NMCALL on their engines, and the replies that their threads take (R25, R142, R166, R283). -/

namespace Sys2Proof.Proofs

open Sys2Proof Sys2Proof.Machine Sys2Proof.Claim

/-! ## The start of a batch -/

section Start

variable {s : State} {k : Nat} {b : Batch}

theorem getBatch_only {t : State} (h : OnlyBedsCores s t) (k : Nat) : getBatch t k = getBatch s k := by
  obtain ⟨bs, cs, rfl⟩ := h
  rfl

theorem getBatch_del (s : State) (k : Nat) : getBatch { s with batches := mdel s.batches k } k = none := by
  rw [getBatch, mfind_mdel, if_pos rfl]

/-- A batch that fails is gone. -/
theorem getBatch_failBatch (s : State) (k code : Nat) : getBatch (failBatch s k code) k = none := by
  unfold failBatch
  split
  next h => exact h
  next b h =>
    dsimp only
    split
    · exact getBatch_del s k
    · split
      · exact getBatch_del s k
      · rw [getBatch_only (onlyBedsCores_trans (only_setSheaf ..) (only_takeTrap ..)), getBatch_del]

/-- A batch whose library has no such routine is refused. -/
theorem nmcallBatch_refused (hb : getBatch s k = some b) (hst : b.started = false)
    (hr : routineAt (imageOf s (activeImage s 6)) b.routine = none) : exec (.nmcallBatch k) s = .next (refuseBatch s k b.engine 1) := by
  rw [exec_nmcallBatch, execNmcallBatch]
  simp only [hb, hst, hr, Bool.false_eq_true, if_false]

/-- A batch waits while its engine has no free context. -/
theorem nmcallBatch_waits (hb : getBatch s k = some b) (hst : b.started = false) {r : Routine}
    (hr : routineAt (imageOf s (activeImage s 6)) b.routine = some r) (hk : r.rkind = 0) (hx : freeCtx (getEngine s b.engine) = none) :
    exec (.nmcallBatch k) s = .next s := by
  rw [exec_nmcallBatch, execNmcallBatch]
  simp only [hb, hst, hr, hk, hx, Bool.false_eq_true, if_false, if_true]

/-- Reading a batch's argument blocks notes them in its hold; no engine changes. -/
theorem batchArgs_keeps (k : Nat) (l : List NCall) (s : State) (i : Nat) (g : Map Byte) (q : Bool) :
    (batchArgs k s i l g q).2.engines = s.engines ∧
      ∀ b, getBatch s k = some b → ∃ h, getBatch (batchArgs k s i l g q).2 k = some { b with hold := h } := by
  induction l generalizing s i g q with
  | nil => exact ⟨rfl, fun b hb => ⟨b.hold, hb⟩⟩
  | cons c r ih =>
    have hread : (nearRead s (.nmcall k) 64 c.arg).2.engines = s.engines ∧
        ∀ b, getBatch s k = some b → ∃ h, getBatch (nearRead s (.nmcall k) 64 c.arg).2 k = some { b with hold := h } := by
      unfold nearRead
      split
      · exact ⟨rfl, fun b hb => ⟨b.hold, hb⟩⟩
      · unfold modHold modBatch
        dsimp only
        split
        next x hx =>
          refine ⟨rfl, fun b hb => ?_⟩
          obtain rfl := Option.some.inj (hb.symm.trans hx)
          exact ⟨_, mfind_mset_self ..⟩
        next hx => exact ⟨rfl, fun b hb => absurd (hb.symm.trans hx) (by simp)⟩
    rw [batchArgs]
    generalize nearRead s (.nmcall k) 64 c.arg = x at hread
    obtain ⟨o, s1⟩ := x
    cases o with
    | none => exact hread
    | some y =>
      obtain ⟨heng, hbat⟩ := hread
      refine ⟨(ih ..).1.trans heng, fun b hb => ?_⟩
      obtain ⟨h, hb1⟩ := hbat b hb
      exact (ih ..).2 { b with hold := h } hb1

theorem getEngine_modEngine_self (s : State) (e : Nat) (f : Engine → Engine) : getEngine (modEngine s e f) e = f (getEngine s e) :=
  mget_mset_self ..

theorem modBatch_eq {f : Batch → Batch} (hb : getBatch s k = some b) : modBatch s k f = { s with batches := mset s.batches k (f b) } := by
  rw [modBatch, hb]

/-- The context in which a batch of n calls begins (R166, R283). -/
def batchCtx (k lib : Nat) (r : Routine) (n : Nat) (g : Map Byte) (q : Bool) : Ctx :=
  { kind := .nmcall k, lib := lib, fetch := startThr r.fetch [(1, BitVec.ofNat 64 n)] [],
    math := startThr r.math [(1, BitVec.ofNat 64 n)] [], fwd := [], ret := [], grant := g, grantSize := r.grant * 4096,
    status := if q then 1#64 else 0#64, holds := false, dreqs := 0, endSent := false, wrote := [], answers := [] }

theorem batchCtx_starts (u : State) (e x k lib : Nat) (r : Routine) (n : Nat) (g : Map Byte) (q : Bool) :
    ∃ m, (if q = true then
        modCtx (startCtx u e x (.nmcall k) lib r r.fetch r.math [(1, BitVec.ofNat 64 n)] [] g false 0) e x (fun c => { c with status := 1#64 })
      else startCtx u e x (.nmcall k) lib r r.fetch r.math [(1, BitVec.ofNat 64 n)] [] g false 0) = { u with engines := m } ∧
      mfind (mget m e Engine.reset).ctxs x = some (batchCtx k lib r n g q) := by
  cases q
  · refine ⟨_, if_neg Bool.false_ne_true, ?_⟩
    rw [mget_mset_self]
    exact mfind_mset_self ..
  · refine ⟨_, if_pos rfl, ?_⟩
    rw [mget_mset_self, startCtx, getEngine_modEngine_self]
    dsimp only
    rw [mfind_mset_self]
    exact mfind_mset_self ..

/-- A batch begins in the free context, at its routine. -/
theorem nmcallBatch_starts (hb : getBatch s k = some b) (hst : b.started = false) {r : Routine} {x : Nat} {g : Map Byte} {q : Bool} {u : State}
    (hr : routineAt (imageOf s (activeImage s 6)) b.routine = some r) (hk : r.rkind = 0) (hx : freeCtx (getEngine s b.engine) = some x)
    (hg : batchArgs k s 0 b.calls [] false = (some (g, q), u)) :
    ∃ t y, exec (.nmcallBatch k) s = .next t ∧ mfind (getEngine t b.engine).ctxs x = some y ∧ y.kind = .nmcall k ∧
      y.fetch.pc = r.fetch ∧ y.math.pc = r.math ∧ nearG y.fetch 1 = BitVec.ofNat 64 b.calls.length ∧
      y.grant = g ∧ y.grantSize = r.grant * 4096 ∧ y.status = (if q then 1#64 else 0#64) ∧ ∃ b', getBatch t k = some b' ∧ b'.started = true := by
  obtain ⟨-, hbat⟩ := batchArgs_keeps k b.calls s 0 [] false
  obtain ⟨h, hu⟩ := hbat b hb
  rw [hg] at hu
  obtain ⟨m, hm, hctx⟩ := batchCtx_starts u b.engine x k (activeImage s 6) r b.calls.length g q
  have hu' : getBatch { u with engines := m } k = some { b with hold := h } := hu
  refine ⟨{ u with engines := m, batches := mset u.batches k { b with hold := h, started := true } },
    batchCtx k (activeImage s 6) r b.calls.length g q, ?_, hctx, rfl, rfl, rfl, rfl, rfl, rfl, rfl,
    { b with hold := h, started := true }, mfind_mset_self .., rfl⟩
  rw [exec_nmcallBatch, execNmcallBatch]
  simp only [hb, hst, hr, hk, hx, hg, Bool.false_eq_true, if_false, if_true]
  rw [hm, modBatch_eq hu']

end Start

end Sys2Proof.Proofs
end

section
/-! PROOFS. A committed reply is written to the registers of its thread, which runs on behind its call (R25, R283). -/

namespace Sys2Proof.Proofs

open Sys2Proof Sys2Proof.Machine Sys2Proof.Claim

/-! ## One word of a reply -/

section Word

variable {sh : Sheaf} {lane n : Nat} {x : Word} {q : Bool}

/-- One register of a call's lane takes a word of its reply. -/
def putWord (sh : Sheaf) (handler : Bool) (lane n : Nat) (x : Word) (q : Bool) : Sheaf :=
  let ph := lanes.map (fun i => callPhys sh handler i n)
  let m : Mask := 1#32 <<< lane
  writePhys { sh with long := supersede sh.long ph m } ph m (copies 32 x) (if q then m else 0#32)

theorem putReply_eq (sh : Sheaf) (handler : Bool) (lane d : Nat) (ws : List Word) (q : Bool) :
    putReply sh handler lane d ws q = (below ws.length).foldl (fun sh k => putWord sh handler lane (d + k) (lget ws k 0#32) q) sh := rfl

/-- A word of a reply changes the file and what is pending, and nothing else of a sheaf. -/
theorem putWord_frame (sh : Sheaf) (handler : Bool) (lane n : Nat) (x : Word) (q : Bool) :
    putWord sh handler lane n x q =
      { sh with v := (putWord sh handler lane n x q).v, long := (putWord sh handler lane n x q).long } := rfl

theorem callPhys_normal (hh : sh.handler = false) (i n : Nat) : callPhys sh false i n = phys sh i n := by rw [callPhys, ← hh]

theorem lget_callPhys (hh : sh.handler = false) (n : Nat) {i : Nat} (hi : i < 32) (d : Nat) :
    lget (lanes.map (fun i => callPhys sh false i n)) i d = phys sh i n := by
  rw [lget_lanes_map _ hi, callPhys_normal hh]

theorem bit_laneMask {i : Nat} (hi : i < 32) : bit (1#32 <<< lane) i = decide (lane = i) := getLsbD_one_shift hi

theorem inSpan_putWord : inSpan (putWord sh false lane n x q) = inSpan sh := by
  funext i
  simp only [inSpan, putWord, writePhys, supersede, List.any_map, Function.comp_def]

theorem unchecked_putWord : unchecked (putWord sh false lane n x q) = unchecked sh := by
  refine unchecked_of_long inSpan_putWord ?_
  simp [putWord, writePhys, supersede, List.map_map, Function.comp_def]

theorem lget_copies {α : Type} (a d : α) {i n : Nat} (h : i < n) : lget (copies n a) i d = a := by
  induction n generalizing i with
  | zero => omega
  | succ n ih =>
    cases i with
    | zero => rfl
    | succ i => exact ih (by omega)

theorem fileLane_putWord (hh : sh.handler = false) (p : Nat) {i : Nat} (hi : i < 32) :
    fileLane (putWord sh false lane n x q) p i = if lane = i ∧ phys sh i n = p then (x, q) else fileLane sh p i := by
  have hm : bit (1#32 <<< lane) i = true ↔ lane = i := by rw [bit_laneMask hi, decide_eq_true_eq]
  rw [putWord, fileLane_writePhys _ _ _ _ _ _ hi, lget_callPhys hh _ hi]
  by_cases h : lane = i ∧ phys sh i n = p
  · rw [if_pos h, if_pos ⟨hm.2 h.1, h.2⟩]
    have hq : bit (if q then 1#32 <<< lane else 0#32) i = q := by
      cases q
      · exact bit_zero i
      · exact hm.2 h.1
    rw [hq, lget_copies _ _ hi]
  · rw [if_neg h, if_neg (fun e => h ⟨hm.1 e.1, e.2⟩)]
    rfl

/-- The lane that takes a word reads it. -/
theorem laneView_putWord_hit (hh : sh.handler = false) (hi : lane < 32) (t : Nat) :
    laneView t (putWord sh false lane n x q) lane n = (x, q) := by
  have hp : phys (putWord sh false lane n x q) lane n = phys sh lane n := rfl
  rw [laneView_eq, hp, fileLane_putWord hh _ hi, if_pos ⟨rfl, rfl⟩]
  show (supersede sh.long _ _).foldl _ _ = _
  rw [supersede, List.foldl_map]
  exact foldl_id _ _ (fun op _ b => seeOp_supersede_hit _ _ _ _ _ _ _ _ _ hi ((bit_laneMask hi).trans (decide_eq_true rfl)) (lget_callPhys hh _ hi _))

/-- Every other register of a lane, and every other lane, reads as before. -/
theorem laneView_putWord_miss (hh : sh.handler = false) {i : Nat} (hi : i < 32) (t k : Nat) (h : lane ≠ i ∨ phys sh i n ≠ phys sh i k) :
    laneView t (putWord sh false lane n x q) i k = laneView t sh i k := by
  have hp : phys (putWord sh false lane n x q) i k = phys sh i k := rfl
  rw [laneView_eq, laneView_eq, hp, inSpan_putWord, fileLane_putWord hh _ hi, if_neg (fun e => h.elim (· e.1) (· e.2))]
  show (supersede sh.long _ _).foldl _ _ = _
  rw [supersede, List.foldl_map]
  refine foldl_congr' _ _ (fun op _ b => seeOp_supersede_miss _ _ _ _ _ _ _ _ _ hi ?_)
  rw [lget_callPhys hh _ hi, bit_laneMask hi, decide_eq_false_iff_not]
  exact h

/-- A word of a reply changes no group register. -/
theorem groupView_putWord (t : Nat) (ctl : Mask) (k : Nat) : groupView t ctl (putWord sh false lane n x q) k = groupView t ctl sh k := by
  rw [groupView_eq, groupView_eq, unchecked_putWord]
  show (if k = 0 then (0#32, false) else (supersede sh.long _ _).foldl _ (mget sh.g (gidx sh k) 0#32, mget sh.gp (gidx sh k) false)) = _
  rw [supersede, List.foldl_map]
  refine if_congr Iff.rfl rfl (foldl_congr' _ _ (fun op _ b => ?_))
  unfold seeGroupOp
  rw [List.foldl_map]
  exact foldl_congr' _ _ (fun w _ b => by rw [group_without]; rfl)

end Word

/-! ## A reply -/

section Reply

variable {lane d : Nat} {ws : List Word} {q : Bool}

/-- What a reply leaves of a sheaf. -/
structure ReplyFrame (lane : Nat) (sh sh' : Sheaf) : Prop where
  rest : sh' = { sh with v := sh'.v, long := sh'.long }
  others : ∀ u i n, i < 32 → i ≠ lane → laneView u sh' i n = laneView u sh i n
  groups : ∀ u m n, groupView u m sh' n = groupView u m sh n

theorem replyFrame_refl (sh : Sheaf) : ReplyFrame lane sh sh := ⟨rfl, fun _ _ _ _ _ => rfl, fun _ _ _ => rfl⟩

theorem ReplyFrame.trans {a b c : Sheaf} (h : ReplyFrame lane a b) (k : ReplyFrame lane b c) : ReplyFrame lane a c := by
  refine ⟨?_, fun u i n hi hn => (k.others u i n hi hn).trans (h.others u i n hi hn), fun u m n => (k.groups u m n).trans (h.groups u m n)⟩
  rw [k.rest, h.rest]

theorem replyFrame_putWord {sh : Sheaf} (hh : sh.handler = false) (n : Nat) (x : Word) : ReplyFrame lane sh (putWord sh false lane n x q) :=
  ⟨putWord_frame .., fun u _ k hi hn => laneView_putWord_miss hh hi u k (.inl hn.symm), fun u m k => groupView_putWord u m k⟩

theorem ReplyFrame.handler {a b : Sheaf} (h : ReplyFrame lane a b) : b.handler = a.handler := by rw [h.rest]

/-- Outside handler mode a window names its registers one to one (R42). -/
theorem phys_inj {sh : Sheaf} (hh : sh.handler = false) {i m n : Nat} (h : phys sh i m = phys sh i n) : m = n := by
  simp only [phys, hh, Bool.false_and, Bool.false_eq_true, if_false] at h
  omega

/-- The words of a reply from the k-th on are read where they were written, and nothing below them changes. -/
theorem foldl_putWord (hlane : lane < 32) (m k : Nat) (sh : Sheaf) (hh : sh.handler = false) :
    let sh' := (upFrom k m).foldl (fun sh k => putWord sh false lane (d + k) (lget ws k 0#32) q) sh
    ReplyFrame lane sh sh' ∧ (∀ u j, k ≤ j → j < k + m → laneView u sh' lane (d + j) = (lget ws j 0#32, q)) ∧
      ∀ u j, j < k → laneView u sh' lane (d + j) = laneView u sh lane (d + j) := by
  induction m generalizing k sh with
  | zero => exact ⟨replyFrame_refl sh, fun u j h1 h2 => absurd h2 (by omega), fun u j _ => rfl⟩
  | succ m ih =>
    have hf := replyFrame_putWord (lane := lane) (q := q) hh (d + k) (lget ws k 0#32)
    obtain ⟨hfr, hin, hout⟩ := ih (k + 1) (putWord sh false lane (d + k) (lget ws k 0#32) q) (hf.handler.trans hh)
    refine ⟨hf.trans hfr, fun u j h1 h2 => ?_, fun u j hj => ?_⟩
    · by_cases hjk : j = k
      · subst hjk
        exact (hout u j (Nat.lt_succ_self j)).trans (laneView_putWord_hit hh hlane u)
      · exact hin u j (by omega) (by omega)
    · refine (hout u j (by omega)).trans (laneView_putWord_miss hh hlane u _ (.inr fun e => ?_))
      have := phys_inj hh e
      omega

theorem putReply_reads (hlane : lane < 32) (sh : Sheaf) (hh : sh.handler = false) (d : Nat) (ws : List Word) (q : Bool) :
    ReplyFrame lane sh (putReply sh false lane d ws q) ∧
      ∀ u j, j < ws.length → laneView u (putReply sh false lane d ws q) lane (d + j) = (lget ws j 0#32, q) := by
  obtain ⟨hf, hin, -⟩ := foldl_putWord (d := d) (ws := ws) (q := q) hlane ws.length 0 sh hh
  rw [putReply_eq]
  exact ⟨hf, fun u j hj => hin u j (Nat.zero_le j) (by omega)⟩

end Reply

/-! ## The lines of a reply's registers -/

section Lines

variable {s : State} {b w : Nat} {sh : Sheaf}

theorem mget_map {α : Type} (m : Map α) (g : Nat → α → α) (k : Nat) (d : α) (hd : g k d = d) :
    mget (m.map (fun x => (x.1, g x.1 x.2))) k d = g k (mget m k d) := by
  induction m with
  | nil => exact hd.symm
  | cons x r ih =>
    obtain ⟨i, v⟩ := x
    by_cases h : i = k
    · subst h; simp [mget]
    · simp [mget, h, ih]

/-- A sheaf some of whose drowsy lines are awake. -/
def wakened (sh : Sheaf) (keys : List Nat) : Sheaf := modLines sh keys (fun r => { r with line := .present })

theorem vreg_wakened (sh : Sheaf) (keys : List Nat) (p : Nat) :
    vreg (wakened sh keys) p =
      if (vreg sh p).line != .absent && keys.contains (lineKey p (vreg sh p)) then { vreg sh p with line := .present } else vreg sh p :=
  mget_map sh.v (fun k r => if r.line != .absent && keys.contains (lineKey k r) then { r with line := .present } else r) p VReg.reset rfl

theorem fileLane_wakened (keys : List Nat) (p i : Nat) : fileLane (wakened sh keys) p i = fileLane sh p i := by
  unfold fileLane
  rw [vreg_wakened]
  split <;> rfl

theorem lineState_wakened (keys : List Nat) {p : Nat} (h : lineState sh p ≠ .absent) : lineState (wakened sh keys) p ≠ .absent := by
  unfold lineState at h ⊢
  rw [vreg_wakened]
  split
  · exact LineState.noConfusion
  · rw [if_neg ‹_›] at h
    split
    · exact LineState.noConfusion
    · exact h

theorem replyFrame_wakened (keys : List Nat) {lane : Nat} : ReplyFrame lane sh (wakened sh keys) :=
  ⟨rfl, fun u i n _ _ => by rw [laneView_eq, laneView_eq, fileLane_wakened]; rfl, fun _ _ _ => rfl⟩

/-- The access to a reply's registers wakes their lines. -/
theorem getSheaf_wakeLines (h : getSheaf s b w = some sh) (regs : List Nat) :
    ∃ sh1, getSheaf (wakeLines s b w regs) b w = some sh1 ∧ (sh1 = sh ∨ ∃ keys, sh1 = wakened sh keys) := by
  unfold wakeLines
  simp only [h]
  split
  · exact ⟨sh, h, .inl rfl⟩
  · exact ⟨_, getSheaf_setSheaf_self h _, .inr ⟨_, rfl⟩⟩

theorem wakeLines_batches (s : State) (b w : Nat) (regs : List Nat) : (wakeLines s b w regs).batches = s.batches := by
  unfold wakeLines
  split
  · rfl
  · dsimp only
    split
    · rfl
    · exact setSheaf_batches ..

/-- Lines that are there are not filled. -/
theorem fillLines_there (h : getSheaf s b w = some sh) {ps : List Nat} (hp : ∀ p ∈ ps, lineState sh p ≠ .absent) : fillLines s b w ps = s := by
  unfold fillLines
  induction ps with
  | nil => rfl
  | cons p r ih =>
    rw [List.foldl_cons]
    simp only [h, if_neg (hp p List.mem_cons_self)]
    simpa only [h] using ih fun x hx => hp x (List.mem_cons_of_mem _ hx)

/-- In a resident bed whose lines are there, a reply reaches its registers at once. -/
theorem writeReply_there (h : getSheaf s b w = some sh) (hres : isResident s b = true) {regs : List Nat}
    (hp : ∀ p ∈ regs, lineState sh p ≠ .absent) (put : Sheaf → Sheaf) :
    writeReply s b w sh regs put = modSheaf (wakeLines s b w regs) b w put := by
  obtain ⟨sh1, h1, hsh1⟩ := getSheaf_wakeLines h regs
  have hp1 : ∀ p ∈ regs, lineState sh1 p ≠ .absent := by
    rcases hsh1 with rfl | ⟨keys, rfl⟩
    · exact hp
    · exact fun p hm => lineState_wakened keys (hp p hm)
  unfold writeReply
  simp only [hres, if_true]
  rw [fillLines_there h1 hp1]

end Lines

/-! ## The end of a call -/

section Given

variable {s : State} {k : Nat} {b : Batch} {sh : Sheaf} {l : NCall} {ws : List Word} {q : Bool}

/-- The thread of a batch's call still waits for its reply. -/
theorem batchWaiting_call (hc : b.calls = [l]) (hn : b.handler = false) (hlane : l.lane < 32) (hpark : parkOf sh l.lane = .pool)
    (hpc : lget sh.pcs l.lane 0#64 = b.pc) : batchWaiting sh b &&& 1#32 <<< l.lane ≠ 0#32 := by
  intro h
  have hb := congrArg (fun m => bit m l.lane) h
  simp [batchWaiting, batchMask, hc, hn, bit_maskOf _ hlane, hpark, hpc, bit_laneMask hlane] at hb

theorem nmcallReply_goes (hb : getBatch s k = some b) (hr : b.replied = true) (hc : b.calls = [l]) (hl : l.reply = some (ws, q))
    (hsh : getSheaf s b.bed b.sheaf = some sh) (hn : b.handler = false) (hlane : l.lane < 32) (hpark : parkOf sh l.lane = .pool)
    (hpc : lget sh.pcs l.lane 0#64 = b.pc) :
    exec (.nmcallReply k 0) s = .next (writeReply { s with batches := mdel s.batches k } b.bed b.sheaf sh
      ((below ws.length).map (fun j => callPhys sh false l.lane (b.d + j)))
      (fun sh => releaseCall (putReply sh false l.lane b.d ws q) b (1#32 <<< l.lane))) := by
  have hdel : getSheaf { s with batches := mdel s.batches k } b.bed b.sheaf = some sh := hsh
  have hall : (lset [l] 0 { l with reply := none }).all (fun c => c.reply.isNone) = true := rfl
  have hget : lget ([l].map some) 0 none = some l := rfl
  rw [exec_nmcallReply, execNmcallReply]
  simp only [hb, hr, hc, hget, hl, hall, if_true, hdel, if_neg (batchWaiting_call hc hn hlane hpark hpc), hn]

/-- The thread whose call has its reply runs on behind it. -/
theorem releaseCall_normal (hn : b.handler = false) (m : Mask) (sh : Sheaf) : releaseCall sh b m = resumeAfter sh m b.pc := by
  rw [releaseCall, hn]
  rfl

theorem nmcallReply_given (hb : getBatch s k = some b) (hr : b.replied = true) (hc : b.calls = [l]) (hl : l.reply = some (ws, q))
    (hsh : getSheaf s b.bed b.sheaf = some sh) (hlane : l.lane < 32) (hpark : parkOf sh l.lane = .pool)
    (hpc : lget sh.pcs l.lane 0#64 = b.pc) (hres : ∀ bd, getBed s b.bed = some bd → bd.stage = .resident) (hh : sh.handler = false)
    (hn : b.handler = false) (hline : ∀ j, j < ws.length → lineState sh (phys sh l.lane (b.d + j)) ≠ .absent) :
    ∃ t sh', exec (.nmcallReply k 0) s = .next t ∧ getSheaf t b.bed b.sheaf = some sh' ∧ getBatch t k = none ∧
      Parked sh sh' (1#32 <<< l.lane) .run ∧ lget sh'.pcs l.lane 0#64 = b.pc + 4#64 ∧
      (∀ u j, j < ws.length → laneView u sh' l.lane (b.d + j) = (lget ws j 0#32, q)) ∧
      (∀ u i n, i < 32 → i ≠ l.lane → laneView u sh' i n = laneView u sh i n) ∧ (∀ u m n, groupView u m sh' n = groupView u m sh n) := by
  have hdel : getSheaf { s with batches := mdel s.batches k } b.bed b.sheaf = some sh := hsh
  obtain ⟨bd, hbd⟩ := getBed_of_getSheaf hsh
  have hr1 : isResident { s with batches := mdel s.batches k } b.bed = true := by
    show (match getBed s b.bed with | some bd => bd.stage == .resident | none => false) = true
    rw [hbd]
    simp [hres bd hbd]
  have hregs : ∀ p ∈ (below ws.length).map (fun j => callPhys sh false l.lane (b.d + j)), lineState sh p ≠ .absent := fun p hp => by
    obtain ⟨j, hj, rfl⟩ := List.mem_map.1 hp
    obtain ⟨j', hj', e⟩ := mem_upFrom.1 hj
    rw [callPhys_normal hh]
    exact hline j (by omega)
  obtain ⟨sh1, h1, hsh1⟩ := getSheaf_wakeLines hdel ((below ws.length).map (fun j => callPhys sh false l.lane (b.d + j)))
  have hwake : ReplyFrame l.lane sh sh1 := by
    rcases hsh1 with rfl | ⟨keys, rfl⟩
    · exact replyFrame_refl _
    · exact replyFrame_wakened keys
  obtain ⟨hput, hreads⟩ := putReply_reads hlane sh1 (hwake.handler.trans hh) b.d ws q
  have hall := hwake.trans hput
  have hpark1 : ∀ i, parkOf (putReply sh1 false l.lane b.d ws q) i = parkOf sh i := fun i => by rw [hall.rest]; rfl
  refine ⟨_, resumeAfter (putReply sh1 false l.lane b.d ws q) (1#32 <<< l.lane) b.pc,
    (nmcallReply_goes hb hr hc hl hsh hn hlane hpark hpc).trans (congrArg _ (writeReply_there hdel hr1 hregs _)), ?_, ?_, fun i hi => ?_, ?_, hreads,
    hall.others, hall.groups⟩
  · rw [getSheaf_modSheaf, if_pos ⟨rfl, rfl⟩, h1, Option.map_some, releaseCall_normal hn]
  · rw [getBatch, modSheaf_batches, wakeLines_batches]
    exact getBatch_del s k
  · refine (parkOf_setPark (putReply sh1 false l.lane b.d ws q) (1#32 <<< l.lane) .run hi).trans ?_
    rw [hpark1]
  · simp only [resumeAfter]
    rw [lget_lanes_map _ hlane, if_pos ((bit_laneMask hlane).trans (decide_eq_true rfl))]

end Given

/-- R25, R142 and R283, the batches and their replies. -/
theorem callReplies : CallReplies := by
  refine ⟨fun k s hb => ⟨?_, fun j => ?_⟩, fun k s b hb hst => ⟨fun hr => ?_, fun r hr hk hx => nmcallBatch_waits hb hst hr hk hx,
    fun r x g q u hr hk hx hg => nmcallBatch_starts hb hst hr hk hx hg⟩, ?_⟩
  · rw [exec_nmcallBatch, execNmcallBatch, hb]
  · rw [exec_nmcallReply, execNmcallReply, hb]
  · exact ⟨_, nmcallBatch_refused hb hst hr, getBatch_failBatch ..⟩
  · intro k s b sh l ws q hb hr hc hl hsh hlane hpark hpc hres hh hn _ _ hline
    exact nmcallReply_given hb hr hc hl hsh hlane hpark hpc hres hh hn hline

end Sys2Proof.Proofs
end

section
/-! PROOFS. What a revocation leaves owned: a terrace that gives a pair up owns no word of it, under any name (R121, R123). -/

namespace Sys2Proof.Proofs

open Sys2Proof Sys2Proof.Machine Sys2Proof.Claim

/-! ## What a terrace owns -/

/-- The bytes of a name that a plot's L1 owns. -/
def l1Dirt (s : State) (p v : Nat) : BitVec 4 := dirtyOf (getPlot s p).l1 v

/-- The bytes of a name that a terrace's slice owns. -/
def l2Dirt (s : State) (t v : Nat) : BitVec 4 := dirtyOf (l2Of s t) v

/-- A terrace owns nothing of a name. -/
def ClearAt (s : State) (t v : Nat) : Prop := l2Dirt s t v = 0#4 ∧ ∀ k, k < 4 → l1Dirt s (4 * t + k) v = 0#4

/-- No terrace owns anything of a word, under any name, and its home holds h. -/
def Still (s : State) (u : Nat) (h : PWord) : Prop := homeWord s u = h ∧ ∀ v, untag v = u → ∀ t, t < 16 → ClearAt s t v

/-- Nothing is owned that was not before, and a word of which nothing is owned stays in its home. -/
structure Calms (s t : State) : Prop where
  l1 : ∀ p v, l1Dirt s p v = 0#4 → l1Dirt t p v = 0#4
  clear : ∀ k v, ClearAt s k v → ClearAt t k v
  home : ∀ u h, Still s u h → homeWord t u = h

theorem Calms.still {s t : State} (h : Calms s t) {u : Nat} {x : PWord} (hx : Still s u x) : Still t u x :=
  ⟨h.home u x hx, fun v hv k hk => h.clear k v (hx.2 v hv k hk)⟩

theorem calms_refl (s : State) : Calms s s := ⟨fun _ _ h => h, fun _ _ h => h, fun _ _ h => h.1⟩

theorem Calms.trans {s t u : State} (h : Calms s t) (k : Calms t u) : Calms s u :=
  ⟨fun p v hv => k.l1 p v (h.l1 p v hv), fun n v hv => k.clear n v (h.clear n v hv), fun w x hx => k.home w x (h.still hx)⟩

theorem calms_fold {α : Type} {f : State → α → State} (l : List α) (hf : ∀ a ∈ l, ∀ s, Calms s (f s a)) (s : State) : Calms s (l.foldl f s) := by
  induction l generalizing s with
  | nil => exact calms_refl s
  | cons a r ih => exact (hf a List.mem_cons_self s).trans (ih (fun x hx => hf x (List.mem_cons_of_mem _ hx)) _)

/-- What one of several steps establishes, and every step keeps, holds after them all. -/
theorem fold_establishes {α : Type} {f : State → α → State} {P : State → Prop} (l : List α) (hk : ∀ a ∈ l, ∀ s, P s → P (f s a)) {a : α} (ha : a ∈ l)
    (he : ∀ s, P (f s a)) (s : State) : P (l.foldl f s) := by
  have hkeep : ∀ (r : List α), (∀ a ∈ r, ∀ s, P s → P (f s a)) → ∀ s, P s → P (r.foldl f s) := by
    intro r
    induction r with
    | nil => exact fun _ s h => h
    | cons b r ih => exact fun hr s h => ih (fun x hx => hr x (List.mem_cons_of_mem _ hx)) _ (hr b List.mem_cons_self s h)
  induction l generalizing s with
  | nil => exact absurd ha List.not_mem_nil
  | cons b r ih =>
    have hr := fun x hx => hk x (List.mem_cons_of_mem b hx)
    rcases List.mem_cons.1 ha with rfl | h
    · exact hkeep r hr _ (he s)
    · exact ih hr h _

theorem dirtyOf_mset (m : Map CWord) (w : Nat) (c : CWord) (v : Nat) : dirtyOf (mset m w c) v = if v = w then c.dirty else dirtyOf m v := by
  unfold dirtyOf
  rw [mfind_mset]
  by_cases h : v = w
  · rw [if_pos h, if_pos h]
  · rw [if_neg h, if_neg h]

theorem dirtyOf_mdel (m : Map CWord) (w v : Nat) : dirtyOf (mdel m w) v = if v = w then 0#4 else dirtyOf m v := by
  unfold dirtyOf
  rw [mfind_mdel]
  by_cases h : v = w
  · rw [if_pos h, if_pos h]
  · rw [if_neg h, if_neg h]

theorem dirtyOf_cleanOf {m : Map CWord} {w : Nat} (h : cleanOf m w = true) : dirtyOf m w = 0#4 := by
  unfold cleanOf at h
  unfold dirtyOf
  cases hm : mfind m w with
  | none => rfl
  | some c =>
    simp only [hm] at h
    exact beq_iff_eq.1 h

theorem dirtyOf_takeWord (m : Map CWord) (w : Nat) (x : PWord) (v : Nat) : dirtyOf (Machine.takeWord m w x) v = dirtyOf m v := by
  unfold Machine.takeWord
  split
  · rfl
  · rename_i h
    rw [dirtyOf_mset]
    split
    · subst_vars
      rw [dirtyOf, Option.not_isSome_iff_eq_none.1 h]
    · rfl

theorem dirtyOf_dropWord (m : Map CWord) (w v : Nat) : dirtyOf (dropWord m w) v = dirtyOf m v := by
  unfold dropWord
  split
  · rename_i h
    rw [dirtyOf_mdel]
    split
    · subst_vars
      exact (dirtyOf_cleanOf h).symm
    · rfl
  · rfl

theorem dirtyOf_fold {f : Map CWord → Nat → Map CWord} (hf : ∀ m w v, dirtyOf (f m w) v = dirtyOf m v) (ws : List Nat) (m : Map CWord) (v : Nat) :
    dirtyOf (ws.foldl f m) v = dirtyOf m v := by
  induction ws generalizing m with
  | nil => rfl
  | cons w r ih => exact (ih _).trans (hf m w v)

theorem l1Dirt_setL1 (s : State) (p : Nat) (m : Map CWord) (q v : Nat) : l1Dirt (setL1 s p m) q v = if q = p then dirtyOf m v else l1Dirt s q v := by
  unfold l1Dirt
  rw [setL1, getPlot_modPlot]
  split <;> rfl

theorem l2Dirt_setL2 (s : State) (t : Nat) (m : Map CWord) (k v : Nat) : l2Dirt (setL2 s t m) k v = if k = t then dirtyOf m v else l2Dirt s k v := by
  unfold l2Dirt
  rw [l2Of_setL2]
  split <;> rfl

/-! ## Steps that own nothing new -/

/-- A step that changes neither what is owned nor a home. -/
theorem calms_of_same {s t : State} (h1 : ∀ p v, l1Dirt t p v = l1Dirt s p v) (h2 : ∀ k v, l2Dirt t k v = l2Dirt s k v)
    (h : ∀ u, homeWord t u = homeWord s u) : Calms s t :=
  ⟨fun p v hv => (h1 p v).trans hv, fun k v hv => ⟨(h2 k v).trans hv.1, fun n hn => (h1 _ v).trans (hv.2 n hn)⟩, fun u _ hx => (h u).trans hx.1⟩

theorem calms_setL1 (s : State) (p : Nat) {m : Map CWord} (h : ∀ v, dirtyOf m v = dirtyOf (getPlot s p).l1 v) : Calms s (setL1 s p m) := by
  refine calms_of_same (fun q v => ?_) (fun _ _ => rfl) (fun _ => rfl)
  rw [l1Dirt_setL1]
  split
  · subst_vars
    exact h v
  · rfl

theorem calms_setL2 (s : State) (t : Nat) {m : Map CWord} (h : ∀ v, dirtyOf m v = dirtyOf (l2Of s t) v) : Calms s (setL2 s t m) := by
  refine calms_of_same (fun _ _ => rfl) (fun k v => ?_) (fun _ => rfl)
  rw [l2Dirt_setL2]
  split
  · subst_vars
    exact h v
  · rfl

theorem calms_fillL2 (s : State) (t w : Nat) : Calms s (fillL2 s t w) := calms_setL2 s t (dirtyOf_fold (fun m v => dirtyOf_takeWord m v _) _ _)

theorem calms_fillL1 (s : State) (p w : Nat) : Calms s (fillL1 s p w) := calms_setL1 s p (dirtyOf_fold (fun m v => dirtyOf_takeWord m v _) _ _)

theorem calms_dropL1 (s : State) (p w : Nat) : Calms s (dropL1 s p w) := by
  unfold dropL1
  split
  · exact calms_setL1 s p (dirtyOf_fold dirtyOf_dropWord _ _)
  · exact calms_refl s

theorem calms_dropL2 (s : State) (t w : Nat) : Calms s (dropL2 s t w) := by
  unfold dropL2
  split
  · exact calms_setL2 s t (dirtyOf_fold dirtyOf_dropWord _ _)
  · exact calms_refl s

theorem mem_below {n x : Nat} : x ∈ below n ↔ x < n := by
  rw [below, mem_upFrom]
  constructor
  · rintro ⟨k, hk, rfl⟩
    omega
  · exact fun h => ⟨x, h, Nat.zero_add x⟩

/-! ## Write-backs -/

theorem l1Dirt_l1BackWord (s : State) (p w q v : Nat) : l1Dirt (l1BackWord s p w) q v = if q = p ∧ v = w then 0#4 else l1Dirt s q v := by
  have hclean : dirtyOf (getPlot s p).l1 w = 0#4 → l1Dirt s q v = if q = p ∧ v = w then 0#4 else l1Dirt s q v := fun h => by
    split
    · rename_i e
      rw [e.1, e.2]
      exact h
    · rfl
  unfold l1BackWord
  split
  · rename_i c hc
    split
    · exact hclean (by rw [dirtyOf, hc]; assumption)
    · rw [l1Dirt_setL1]
      by_cases hq : q = p
      · rw [if_pos hq, dirtyOf_mset]
        by_cases hv : v = w
        · rw [if_pos hv, if_pos ⟨hq, hv⟩]
        · rw [if_neg hv, if_neg (fun e => hv e.2), hq]
          rfl
      · rw [if_neg hq, if_neg (fun e => hq e.1)]
        rfl
  · rename_i hc
    exact hclean (by rw [dirtyOf, hc])

theorem l2Dirt_l1BackWord (s : State) (p w k v : Nat) :
    l2Dirt (l1BackWord s p w) k v = if k = p / 4 ∧ v = w then l2Dirt s k v ||| l1Dirt s p w else l2Dirt s k v := by
  have hclean : dirtyOf (getPlot s p).l1 w = 0#4 → l2Dirt s k v = if k = p / 4 ∧ v = w then l2Dirt s k v ||| l1Dirt s p w else l2Dirt s k v :=
    fun h => by rw [show l1Dirt s p w = 0#4 from h, BitVec.or_zero, ite_self]
  unfold l1BackWord
  split
  · rename_i c hc
    split
    · exact hclean (by rw [dirtyOf, hc]; assumption)
    · show l2Dirt (setL2 s (p / 4) _) k v = _
      rw [l2Dirt_setL2]
      by_cases hk : k = p / 4
      · rw [if_pos hk, dirtyOf_mset]
        by_cases hv : v = w
        · rw [if_pos hv, if_pos ⟨hk, hv⟩, hk, hv, l1Dirt, dirtyOf.eq_1 (getPlot s p).l1, hc]
          rfl
        · rw [if_neg hv, if_neg (fun e => hv e.2), hk]
          rfl
      · rw [if_neg hk, if_neg (fun e => hk e.1)]
  · rename_i hc
    exact hclean (by rw [dirtyOf, hc])

theorem homeWord_l1BackWord (s : State) (p w u : Nat) : homeWord (l1BackWord s p w) u = homeWord s u := by
  unfold l1BackWord
  split
  · split <;> rfl
  · rfl

theorem calms_l1BackWord (s : State) (p w : Nat) : Calms s (l1BackWord s p w) where
  l1 q v hv := by
    rw [l1Dirt_l1BackWord, hv, ite_self]
  clear k v hv := by
    obtain ⟨h2, h1⟩ := hv
    refine ⟨?_, fun n hn => by rw [l1Dirt_l1BackWord, h1 n hn, ite_self]⟩
    rw [l2Dirt_l1BackWord]
    by_cases h : k = p / 4 ∧ v = w
    · obtain ⟨hk, rfl⟩ := h
      have hp : l1Dirt s p v = 0#4 := by
        have := h1 (p % 4) (Nat.mod_lt _ (by decide))
        rwa [show 4 * k + p % 4 = p by omega] at this
      rw [hp, h2, BitVec.or_zero, ite_self]
    · rw [if_neg h, h2]
  home u x hx := (homeWord_l1BackWord ..).trans hx.1

theorem l1Dirt_l1Back (s : State) (p w : Nat) {v : Nat} (hv : v ∈ pairWords w) : l1Dirt (l1Back s p w) p v = 0#4 := by
  unfold l1Back
  split
  · refine (calms_fillL1 ..).l1 p v ((calms_fillL2 ..).l1 p v ?_)
    refine fold_establishes (P := fun s => l1Dirt s p v = 0#4) _ (fun a _ s hs => (calms_l1BackWord s p a).l1 p v hs) hv (fun s => ?_) s
    rw [l1Dirt_l1BackWord, if_pos ⟨rfl, rfl⟩]
  · rename_i h
    by_contra hne
    exact h (List.any_eq_true.2 ⟨v, hv, bne_iff_ne.2 hne⟩)

theorem calms_l1Back (s : State) (p w : Nat) : Calms s (l1Back s p w) := by
  unfold l1Back
  split
  · exact (calms_fold _ (fun v _ s => calms_l1BackWord s p v) s).trans ((calms_fillL2 ..).trans (calms_fillL1 ..))
  · exact calms_refl s

theorem calms_l1Revoke (s : State) (p w : Nat) : Calms s (l1Revoke s p w) := (calms_l1Back ..).trans (calms_dropL1 ..)

theorem l1Dirt_homeBack (s : State) (t w : Nat) (be : BitVec 4) (x : PWord) (p v : Nat) : l1Dirt (homeBack s t w be x) p v = l1Dirt s p v := by
  rw [homeBack_eq]
  split <;> rfl

theorem homeWord_homeBack_ne (s : State) (t : Nat) {w u : Nat} (be : BitVec 4) (x : PWord) (h : u ≠ w) :
    homeWord (homeBack s t w be x) u = homeWord s u := by
  rw [homeBack_eq]
  split
  · exact homeWord_setDram_ne s _ h
  · show (match mfind (mset s.home w _) u with
      | some (c, _) => (c.data, c.poison)
      | none => dramWord s u) = homeWord s u
    rw [mfind_mset_ne _ _ h]
    rfl

theorem l1Dirt_l2BackWord (s : State) (t w p v : Nat) : l1Dirt (l2BackWord s t w) p v = l1Dirt s p v := by
  unfold l2BackWord
  split
  · split
    · rfl
    · exact l1Dirt_homeBack ..
  · rfl

theorem l2Dirt_l2BackWord (s : State) (t w k v : Nat) : l2Dirt (l2BackWord s t w) k v = if k = t ∧ v = w then 0#4 else l2Dirt s k v := by
  have hclean : dirtyOf (l2Of s t) w = 0#4 → l2Dirt s k v = if k = t ∧ v = w then 0#4 else l2Dirt s k v := fun h => by
    split
    · rename_i e
      rw [e.1, e.2]
      exact h
    · rfl
  unfold l2BackWord
  split
  · rename_i c hc
    split
    · exact hclean (by rw [dirtyOf, hc]; assumption)
    · rw [l2Dirt_setL2]
      by_cases hk : k = t
      · rw [if_pos hk, dirtyOf_mset, homeBack_l2Of]
        by_cases hv : v = w
        · rw [if_pos hv, if_pos ⟨hk, hv⟩]
        · rw [if_neg hv, if_neg (fun e => hv e.2), hk]
          rfl
      · rw [if_neg hk, if_neg (fun e => hk e.1), l2Dirt, homeBack_l2Of]
        rfl
  · rename_i hc
    exact hclean (by rw [dirtyOf, hc])

theorem homeWord_l2BackWord (s : State) (t w u : Nat) (h : untag w = u → l2Dirt s t w = 0#4) : homeWord (l2BackWord s t w) u = homeWord s u := by
  unfold l2BackWord
  split
  · rename_i c hc
    split
    · rfl
    · rename_i hd
      have hne : u ≠ untag w := fun e => hd (by
        have := h e.symm
        rwa [l2Dirt, dirtyOf, hc] at this)
      exact homeWord_homeBack_ne s t c.dirty _ hne
  · rfl

theorem calms_l2BackWord (s : State) {t : Nat} (ht : t < 16) (w : Nat) : Calms s (l2BackWord s t w) where
  l1 p v hv := (l1Dirt_l2BackWord ..).trans hv
  clear k v hv := by
    refine ⟨by rw [l2Dirt_l2BackWord, hv.1, ite_self], fun n hn => (l1Dirt_l2BackWord ..).trans (hv.2 n hn)⟩
  home u x hx := (homeWord_l2BackWord s t w u (fun e => (hx.2 w e t ht).1)).trans hx.1

theorem calms_l2Back (s : State) {t : Nat} (ht : t < 16) (w : Nat) : Calms s (l2Back s t w) := by
  unfold l2Back
  split
  · exact (calms_fold _ (fun v _ s => calms_l2BackWord s ht v) s).trans (calms_fillL2 ..)
  · exact calms_refl s

theorem l2Dirt_fillL2 (s : State) (t w k v : Nat) : l2Dirt (fillL2 s t w) k v = l2Dirt s k v := by
  rw [fillL2, l2Dirt_setL2]
  split
  · subst_vars
    exact dirtyOf_fold (fun m v => dirtyOf_takeWord m v _) _ _ _
  · rfl

theorem l2Dirt_dropL2 (s : State) (t w k v : Nat) : l2Dirt (dropL2 s t w) k v = l2Dirt s k v := by
  unfold dropL2
  split
  · rw [l2Dirt_setL2]
    split
    · subst_vars
      exact dirtyOf_fold dirtyOf_dropWord _ _ _
    · rfl
  · rfl

theorem l2Dirt_l2Back (s : State) (t w : Nat) {v : Nat} (hv : v ∈ pairWords w) : l2Dirt (l2Back s t w) t v = 0#4 := by
  unfold l2Back
  split
  · rw [l2Dirt_fillL2]
    refine fold_establishes (P := fun s => l2Dirt s t v = 0#4) _ (fun a _ s hs => ?_) hv (fun s => ?_) s
    · rw [l2Dirt_l2BackWord, hs, ite_self]
    · rw [l2Dirt_l2BackWord, if_pos ⟨rfl, rfl⟩]
  · rename_i h
    by_contra hne
    exact h (List.any_eq_true.2 ⟨v, hv, bne_iff_ne.2 hne⟩)

/-! ## Revocations -/

theorem calms_terraceRevoke (s : State) {t : Nat} (ht : t < 16) (w : Nat) : Calms s (terraceRevoke s t w) :=
  (calms_fold _ (fun k _ s => calms_l1Revoke s (4 * t + k) w) s).trans ((calms_l2Back _ ht w).trans (calms_dropL2 ..))

/-- A terrace that gives a pair up owns no word of it. -/
theorem clearAt_terraceRevoke (s : State) {t : Nat} (ht : t < 16) (w : Nat) {v : Nat} (hv : v ∈ pairWords w) : ClearAt (terraceRevoke s t w) t v := by
  refine ⟨(l2Dirt_dropL2 ..).trans (l2Dirt_l2Back _ t w hv), fun k hk => ?_⟩
  refine ((calms_l2Back _ ht w).trans (calms_dropL2 ..)).l1 _ v ?_
  refine fold_establishes (P := fun s => l1Dirt s (4 * t + k) v = 0#4) (below 4) (fun a _ s hs => (calms_l1Revoke s _ w).l1 _ v hs)
    (mem_below.2 hk) (fun s => ?_) s
  exact (calms_dropL1 ..).l1 _ v (l1Dirt_l1Back s _ w hv)

theorem mem_pairWords (v : Nat) : v ∈ pairWords v := by
  simp only [pairWords, List.mem_cons, List.not_mem_nil, or_false]
  omega

theorem calms_terraceGive (s : State) {t : Nat} (ht : t < 16) (w : Nat) : Calms s (terraceGive s t w) :=
  calms_fold _ (fun n _ s => calms_terraceRevoke s ht n) s

theorem mem_ownNames {m : Map CWord} {w v : Nat} (h : dirtyOf m v ≠ 0#4) (hv : untag v / 2 = w / 2) : v ∈ ownNames m w := by
  unfold dirtyOf at h
  cases hm : mfind m v with
  | none => simp [hm] at h
  | some c =>
    simp only [hm] at h
    refine List.mem_map.2 ⟨(v, c), List.mem_filter.2 ⟨mem_of_mfind hm, ?_⟩, rfl⟩
    simp [h, hv]

/-- The names under which a terrace owns anything of a word's pair are all listed. -/
theorem clearAt_of_unnamed {s : State} {t w v : Nat} (hv : untag v / 2 = w / 2) (h : v ∉ terraceNames s t w) : ClearAt s t v := by
  rw [terraceNames, mem_dedup, List.mem_append, not_or] at h
  refine ⟨by_contra fun hne => h.1 (mem_ownNames hne hv), fun k hk => by_contra fun hne => h.2 ?_⟩
  exact List.mem_flatMap.2 ⟨k, mem_below.2 hk, mem_ownNames hne hv⟩

/-- A terrace that gives a word up owns nothing of its pair, under any name. -/
theorem clearAt_terraceGive (s : State) {t : Nat} (ht : t < 16) (w : Nat) {v : Nat} (hv : untag v / 2 = w / 2) : ClearAt (terraceGive s t w) t v := by
  by_cases h : v ∈ terraceNames s t w
  · exact fold_establishes (P := fun s => ClearAt s t v) _ (fun n _ s hs => (calms_terraceRevoke s ht n).clear t v hs) h
      (fun s => clearAt_terraceRevoke s ht v (mem_pairWords v)) s
  · exact (calms_terraceGive s ht w).clear t v (clearAt_of_unnamed hv h)

theorem calms_revokeAll (s : State) (w : Nat) : Calms s (revokeAll s w) :=
  calms_fold _ (fun _ ht s => calms_terraceGive s (mem_below.1 ht) (untag w)) s

/-- A word that every owner has given up stays in its home (R123). -/
theorem still_revokeAll (s : State) (w : Nat) : Still (revokeAll s w) w (homeWord (revokeAll s w) w) := by
  refine ⟨rfl, fun v hv t ht => ?_⟩
  have hw : untag w = w := by rw [← hv, untag_untag]
  unfold revokeAll
  refine fold_establishes (P := fun s => ClearAt s t v) (below 16)
    (fun u hu s hs => (calms_terraceGive s (mem_below.1 hu) (untag w)).clear t v hs)
    (mem_below.2 ht) (fun s => clearAt_terraceGive s ht (untag w) (by rw [hw, hv])) s

end Sys2Proof.Proofs
end

section
/-! PROOFS. NMCOMMIT, the controller's answer, and the registrations of an index (R150, R153, R285). -/

namespace Sys2Proof.Proofs

open Sys2Proof Sys2Proof.Machine Sys2Proof.Claim

/-! ## A release moves lines -/

theorem linesMove_homeFlush (s : State) (w : Nat) : LinesMove s (homeFlush s w) := by
  unfold homeFlush
  split
  · rename_i c n hc
    refine linesMove_home (by rfl) fun v y hy => ?_
    rw [← hy.2]
    unfold homeWord
    by_cases hv : v = w
    · subst hv
      have hd := dramWord_setDram s v v (c.data, c.poison)
      rw [if_pos rfl] at hd
      rw [mfind_mdel, if_pos rfl, hc]
      exact hd
    · have hd := dramWord_setDram s w v (c.data, c.poison)
      rw [if_neg hv] at hd
      rw [mfind_mdel, if_neg hv]
      split
      · rfl
      · exact hd
  · exact linesMove_refl s

theorem linesMove_releaseHost (s : State) (p : Nat) : LinesMove s (releaseHost s p) :=
  linesMove_trans (linesMove_fold (fun s w => linesMove_l1Back s p w) _ s) (linesMove_fold (fun s w => linesMove_l2Back s (p / 4) w) _ _)

theorem linesMove_releaseAt (s : State) (core scope : Nat) : LinesMove s (releaseAt s core scope) := by
  have h0 := linesMove_releaseHost s (plotOf core)
  unfold releaseAt
  dsimp only
  generalize releaseHost s (plotOf core) = s0 at h0 ⊢
  split
  · exact h0
  · have h1 := linesMove_trans h0 (linesMove_fold (fun s w => linesMove_l1Back s (plotOf core) w) (dirtyWords (getPlot s0 (plotOf core)).l1) s0)
    generalize (dirtyWords (getPlot s0 (plotOf core)).l1).foldl (fun s w => l1Back s (plotOf core) w) s0 = s1 at h1 ⊢
    split
    · exact h1
    · have h2 := linesMove_trans h1 (linesMove_fold (fun s w => linesMove_l2Back s (terraceOf core) w) (dirtyWords (l2Of s1 (terraceOf core))) s1)
      generalize (dirtyWords (l2Of s1 (terraceOf core))).foldl (fun s w => l2Back s (terraceOf core) w) s1 = s2 at h2 ⊢
      split
      · exact h2
      · exact linesMove_trans h2 (linesMove_fold linesMove_homeFlush _ s2)

/-! ## NMCOMMIT -/

section Nmcommit

variable {s : State} {c : Cur} {sh : Sheaf} {a b : BitVec 7}

theorem nmcommit_poison (hi : Issues s c sh) (ha : Active c sh) (d : BitVec 7) (l : BitVec 4)
    (h : (rdGP s c sh (rn a) || rdGP s c sh (rn b)) = true) : exec (.nmcommit d a b l) s = trap s c sh { plainTrap 6 with lanes := exm c sh } := by
  have hp : poisonG s c sh [rn a, rn b] = true := by simpa [poisonG] using h
  rw [exec_nmcommit, execNmcommit, groupOp_issues hi ha, hp]
  rfl

/-- An NMCOMMIT releases at system scope, and its result is owed (R285). -/
theorem nmcommit_owes (hi : Issues s c sh) (ha : Active c sh) (d : BitVec 7) (l : BitVec 4) (hp : rdGP s c sh (rn a) = false)
    (hq : rdGP s c sh (rn b) = false) :
    ∃ t, Owes (.nmcommit d a b l) s t c sh s.nextKey (rn d) l.toNat ∧ StoresNothing (releaseAt s sh.place.core 5) t ∧
      t.agenda = s.agenda ++ [.versionCommit c.bed c.sheaf s.nextKey (rdG s c sh (rn a)) (rdG s c sh (rn b))] := by
  have hm := linesMove_releaseAt s sh.place.core 5
  have he : exec (.nmcommit d a b l) s =
      issueLong (due (fresh (releaseAt s sh.place.core 5)).2
        (.versionCommit c.bed c.sheaf (fresh (releaseAt s sh.place.core 5)).1 (rdG s c sh (rn a)) (rdG s c sh (rn b)))) c sh
        { longOp c sh (fresh (releaseAt s sh.place.core 5)).1 l.toNat [.group (gidx sh (rn d)) 0#32 false] with ready := false } := by
    rw [exec_nmcommit, execNmcommit, groupOp_issues hi ha]
    simp only [poisonG_pair hp hq, Bool.false_eq_true, if_false]
  generalize releaseAt s sh.place.core 5 = r at hm he ⊢
  have hkey : (fresh r).1 = s.nextKey := by rw [hm.rest]; rfl
  have hag : r.agenda = s.agenda := by rw [hm.rest]
  have hsh : getSheaf r c.bed c.sheaf = some sh := (getSheaf_linesMove hm _ _).trans hi.2
  rw [hkey] at he
  refine ⟨_, ⟨he, _, getSheaf_setSheaf_self (s := due (fresh r).2 _) hsh _, rfl, rfl, rfl, rfl, rfl⟩, ?_, ?_⟩
  · exact stores_trans (stores_trans (t := (fresh r).2) (stores_of_eq rfl rfl rfl rfl rfl rfl) (stores_due ..)) (stores_putSheaf ..)
  · rw [putSheaf_agenda, ← hag]
    rfl

end Nmcommit

/-! ## The controller -/

section Controller

variable {s : State}

theorem linesMove_revokeAll (s : State) (w : Nat) : LinesMove s (revokeAll s w) := by
  unfold revokeAll
  exact linesMove_fold (fun s u => linesMove_terraceGive s u (untag w)) _ s

theorem mergeBytes_all (x y : Word) : mergeBytes x y 15#4 = y := wordOf_byteOf y

/-- A whole word written at its home stays there, under no other name. -/
theorem still_putHome (s : State) (w : Nat) (x : PWord) : Still (putHome s w 15#4 x) w x := by
  have h := (still_revokeAll s w).2
  unfold putHome
  generalize revokeAll s w = r at h ⊢
  refine ⟨?_, h⟩
  rw [homeWord_homeThrough_self, mergeBytes_all, if_pos rfl]

theorem getSheaf_putHome (s : State) (w : Nat) (be : BitVec 4) (x : PWord) (b v : Nat) : getSheaf (putHome s w be x) b v = getSheaf s b v := by
  rw [← getSheaf_linesMove (linesMove_revokeAll s w), putHome]
  generalize revokeAll s w = r
  rfl

theorem putHome_indexes (s : State) (w : Nat) (be : BitVec 4) (x : PWord) : (putHome s w be x).indexes = s.indexes := by
  rw [putHome, homeThrough_indexes, (linesMove_revokeAll s w).rest]

/-- A word written at its home leaves every other that nothing owns. -/
theorem homeWord_putHome_ne {w u : Nat} (be : BitVec 4) (x : PWord) {h : PWord} (hs : Still s u h) (hne : u ≠ w) :
    homeWord (putHome s w be x) u = h := by
  rw [putHome, homeWord_homeThrough_ne _ _ _ hne]
  exact (calms_revokeAll s w).home u h hs

theorem getSheaf_settleLow (s : State) (h b w : Nat) : getSheaf (settleLow s h) b w = getSheaf s b w := by
  unfold settleLow
  split
  · rfl
  · dsimp only
    split
    · rfl
    · exact getSheaf_putHome ..

/-- The index's low version is another word than its committed one. -/
theorem homeWord_settleLow {h : Nat} {i : Index} (hi : mfind s.indexes h = some i) {x : PWord} (hs : Still s (i.descPa / 4) x) :
    homeWord (settleLow s h) (i.descPa / 4) = x := by
  unfold settleLow
  simp only [hi]
  split
  · exact hs.1
  · exact homeWord_putHome_ne _ _ hs (by omega)

theorem mem_formGroup (s : State) (b w op : Nat) (x : Word) : (formGroup s b w op x).mem = s.mem := by rw [formGroup_eq, modSheaf_mem]

theorem homeWord_formGroup (s : State) (b w op : Nat) (x : Word) (u : Nat) : homeWord (formGroup s b w op x) u = homeWord s u := by
  rw [formGroup_eq]
  simp only [homeWord, dramWord, modSheaf_mem, modSheaf_home, modSheaf_memPoison]

variable {b w op : Nat} {h e : BitVec 32} {sh : Sheaf}

/-- A commit on an unknown handle. -/
theorem versionCommit_unknown (hi : mfind s.indexes h.toNat = none) : exec (.versionCommit b w op h e) s = .next (formGroup s b w op 2#32) := by
  rw [exec_versionCommit, execVersionCommit, hi]

variable {i : Index}

theorem versionCommit_exhausted (hi : mfind s.indexes h.toNat = some i) (he : 2 ^ 32 - 2 ≤ e.toNat) :
    exec (.versionCommit b w op h e) s = .next (formGroup s b w op 3#32) := by
  rw [exec_versionCommit, execVersionCommit, hi]
  exact if_pos he

theorem versionCommit_refused (hi : mfind s.indexes h.toNat = some i) (he : e.toNat < 2 ^ 32 - 2) (hc : committed s i ≠ e) :
    exec (.versionCommit b w op h e) s = .next (formGroup s b w op 1#32) := by
  rw [exec_versionCommit, execVersionCommit, hi]
  exact (if_neg (by omega)).trans (if_pos hc)

theorem versionCommit_moves (hi : mfind s.indexes h.toNat = some i) (he : e.toNat < 2 ^ 32 - 2) (hc : committed s i = e) :
    exec (.versionCommit b w op h e) s =
      .next (formGroup (settleLow (putHome s (i.descPa / 4) 15#4 (e + 1#32, false)) h.toNat) b w op 0#32) := by
  rw [exec_versionCommit, execVersionCommit, hi]
  exact (if_neg (by omega)).trans (if_neg (not_not.2 hc))

/-- What a commit leaves in its sheaf and in memory, by the index, the number and what is committed. -/
theorem versionCommit_ends (hs : getSheaf s b w = some sh) :
    ∃ t sh' v, exec (.versionCommit b w op h e) s = .next t ∧ getSheaf t b w = some sh' ∧ Formed sh sh' op v ∧
      (mfind s.indexes h.toNat = none → v = 2#32 ∧ t.mem = s.mem) ∧
      (∀ x, mfind s.indexes h.toNat = some x →
        (2 ^ 32 - 2 ≤ e.toNat → v = 3#32 ∧ t.mem = s.mem) ∧
        (e.toNat < 2 ^ 32 - 2 → committed s x ≠ e → v = 1#32 ∧ t.mem = s.mem) ∧
        (e.toNat < 2 ^ 32 - 2 → committed s x = e → v = 0#32 ∧
          (homeWord t (x.descPa / 4)).1 = BitVec.ofNat 32 (e.toNat + 1))) := by
  cases hi : mfind s.indexes h.toNat with
  | none =>
    exact ⟨_, _, 2#32, versionCommit_unknown hi, getSheaf_formGroup hs op _, formed_withFormed .., fun _ => ⟨rfl, mem_formGroup ..⟩,
      fun x hx => nomatch hx⟩
  | some i =>
    by_cases he : 2 ^ 32 - 2 ≤ e.toNat
    · refine ⟨_, _, 3#32, versionCommit_exhausted hi he, getSheaf_formGroup hs op _, formed_withFormed .., (fun hn => nomatch hn), fun x _ => ?_⟩
      exact ⟨fun _ => ⟨rfl, mem_formGroup ..⟩, fun hlt => absurd he (by omega), fun hlt => absurd he (by omega)⟩
    · by_cases hc : committed s i = e
      · have hsh : getSheaf (settleLow (putHome s (i.descPa / 4) 15#4 (e + 1#32, false)) h.toNat) b w = some sh := by
          rw [getSheaf_settleLow, getSheaf_putHome, hs]
        refine ⟨_, _, 0#32, versionCommit_moves hi (by omega) hc, getSheaf_formGroup hsh op _, formed_withFormed .., (fun hn => nomatch hn),
          fun x hx => ?_⟩
        obtain rfl := Option.some.inj hx
        refine ⟨fun h' => absurd h' he, fun _ h' => absurd hc h', fun _ _ => ⟨rfl, ?_⟩⟩
        rw [homeWord_formGroup, homeWord_settleLow (by rw [putHome_indexes, hi]) (still_putHome ..)]
        exact BitVec.eq_of_toNat_eq (by simp)
      · refine ⟨_, _, 1#32, versionCommit_refused hi (by omega) hc, getSheaf_formGroup hs op _, formed_withFormed .., (fun hn => nomatch hn),
          fun x hx => ?_⟩
        obtain rfl := Option.some.inj hx
        exact ⟨fun h' => absurd h' he, fun _ _ => ⟨rfl, mem_formGroup ..⟩, fun _ h' => absurd h' hc⟩

end Controller

/-! ## Registrations -/

section Registrations

variable {s : State} {asid : BitVec 16} {va : BitVec 64}

theorem hostOpen_iff : hostOpen s = true ↔ ¬(!s.powered || s.mgmt.mailboxOnly) = true := by
  simp [hostOpen]

theorem indexRegistration_closed (h : hostOpen s = false) : exec (.indexRegistration asid va) s = .next s := by
  rw [exec_indexRegistration, execIndexRegistration]
  refine if_pos (by_contra fun hn => ?_)
  rw [hostOpen_iff.2 hn] at h
  cases h

theorem indexRegistration_registers (h : hostOpen s = true) {pa : Nat} (ht : translateAt s asid va false = some (pa, false))
    (hal : va.toNat % 128 = 0) : exec (.indexRegistration asid va) s =
      .next (answer { s with indexes := mset s.indexes (s.indexes.length + 1) { descPa := pa, asid := asid, snaps := [] } }
        (natLe 4 (s.indexes.length + 1))) := by
  rw [exec_indexRegistration, execIndexRegistration, if_neg (hostOpen_iff.1 h), ht]
  exact if_neg (not_not.2 hal)

theorem indexRegistration_refuses (h : hostOpen s = true) (ht : translateAt s asid va false = none ∨ va.toNat % 128 ≠ 0) :
    exec (.indexRegistration asid va) s = .next (answer s []) := by
  rw [exec_indexRegistration, execIndexRegistration, if_neg (hostOpen_iff.1 h)]
  rcases ht with ht | hal
  · rw [ht]
  · split
    · exact if_pos hal
    · rfl

end Registrations

/-- R150, R153 and R285, versions. -/
theorem versionCommits : VersionCommits := by
  refine ⟨fun d a b l s c sh hi ha => ⟨nmcommit_poison hi ha d l, nmcommit_owes hi ha d l⟩, fun b w op h e s sh hs => versionCommit_ends hs,
    fun asid va s h => indexRegistration_closed h, fun asid va s h => ⟨fun pa ht hal => ?_, fun ht => ?_⟩⟩
  · exact ⟨_, indexRegistration_registers h ht hal, rfl, rfl⟩
  · exact ⟨_, indexRegistration_refuses h ht, rfl, rfl⟩

/-- Settles O38: NMCALL, its batches and their replies, and NMCOMMIT with the controller's answer. -/
theorem callsAndCommits : Obligations.CallsAndCommits := by
  unfold Obligations.CallsAndCommits
  exact ⟨memoryCalls, callReplies, versionCommits⟩

end Sys2Proof.Proofs
end

section
/-! PROOFS. The resume of a group of pre-empted beds, where one of them has none of a plot's four positions (R88, R89). -/

namespace Sys2Proof.Proofs

open Sys2Proof Sys2Proof.Machine Sys2Proof.Claim

/-- A pre-empted bed of the placed launch, without sheaves, that had a position in its plot. -/
def savedBed (posn : Nat) : Bed := { placedBed with posn := posn, sheaves := [], total := 0, stage := .preempted }

/-- Two beds that were pre-empted together: one had position 0, the other a position 4, which no plot has. -/
def beyondPositions : State :=
  { State.reset with launches := [(0, placedLaunch)], beds := [(0, savedBed 0), (1, savedBed 4)] }

/-- The stage of a bed in the state that an instruction leaves. -/
def stageAfter (o : Out) (b : Nat) : Option BedStage :=
  match o with
  | .next t => (getBed t b).map (fun bd => bd.stage)
  | _ => none

theorem beyondPositions_resumes : (resumeSpot beyondPositions 0).isSome = true := by decide +kernel

/-- Only the beds in positions 0 to 3 take cores: the other bed of the group stays pre-empted. -/
theorem beyondPositions_stays : stageAfter (exec (.bedResume 0) beyondPositions) 1 = some .preempted := by decide +kernel

theorem savedOn_beyondPositions : savedOn beyondPositions (savedBed 0).group = [(0, savedBed 0), (1, savedBed 4)] := rfl

/-- Refutes O49: the last clause of `Preemptions`, that every bed of a group that finds a plot is resident after the resume, does not ask for
positions 0 to 3.  A group is placed again in the order of its beds' positions 0 to 3 (`inPosition`), so the bed of `beyondPositions` at
position 4, which the dispatcher gives to no bed (`freePosn`), takes no core. -/
theorem not_bedLife : ¬ Obligations.BedLife := by
  unfold Obligations.BedLife
  rintro ⟨-, -, hpre⟩
  obtain ⟨⟨l, bs, p, m, u⟩, hspot⟩ := Option.isSome_iff_exists.1 beyondPositions_resumes
  obtain ⟨-, -, hbed⟩ := hpre 0 beyondPositions
  obtain ⟨-, -, hresume⟩ := hbed (savedBed 0) placedLaunch rfl rfl
  obtain ⟨hbs, hall⟩ := hresume l bs p m u hspot
  rw [savedOn_beyondPositions] at hbs
  subst hbs
  obtain ⟨t, he, hres⟩ := hall (by simp [savedBed])
  obtain ⟨y, hy, hstage, -⟩ := hres (1, savedBed 4) (by simp)
  have hstays := beyondPositions_stays
  rw [he] at hstays
  simp [stageAfter, hy, hstage] at hstays

end Sys2Proof.Proofs
end

section
/-! PROOFS. What a lane reads under each tag, and the result tags of ALU and ALU2 (R46, R47, Table 2.2). -/

namespace Sys2Proof.Proofs

open Sys2Proof Sys2Proof.Machine Sys2Proof.Claim

/-! ## What a lane reads -/

/-- Where nothing waits to be written, a lane reads the file. -/
theorem laneView_of_settled {sh : Sheaf} (h : sh.long = []) (u i n : Nat) :
    laneView u sh i n = (formLane (vreg sh (phys sh i n)).form i, bit (vreg sh (phys sh i n)).poison i) := by
  rw [laneView_eq, h]
  rfl

theorem toNat_formLane_a (b t : Word) (i : Nat) : (formLane (.a b t) i).toNat = (b.toNat + i * t.toNat) % 2 ^ 32 := by
  simp [formLane]

/-- R46, tag by tag. -/
theorem tagForms : TagForms :=
  fun _ b t _ i _ => ⟨rfl, toNat_formLane_a b t i, rfl, fun u n _ h => laneView_of_settled h u i n⟩

/-! ## Result tags -/

/-- A form of 32 values gives each lane its own. -/
theorem formLane_each (f : Nat → Word) {i : Nat} (hi : i < 32) : formLane (.g (lanes.map f)) i = f i := lget_lanes_map f hi _

/-- A function that does not read the old destination gives the same for every one. -/
theorem alu_of_not_readsD {op : AluOp} (h : op.readsD = false) (a b d e : Word) : alu op a b d = alu op a b e := by
  cases op with
  | madd | msub => cases h
  | _ => rfl

/-- A function of A alone gives the same for every B. -/
theorem alu_of_unary {op : AluOp} (h : op.unary = true) (a b c d e : Word) : alu op a b d = alu op a c e := by
  cases op with
  | clz | popc | brev | abs | neg => rfl
  | _ => cases h

theorem alu_shl_add_mul (b s k : Word) (y d : Word) : alu .shl (b + k * s) y d = alu .shl b y d + k * alu .shl s y d := by
  simp only [alu]
  split
  · simp only [BitVec.shiftLeft_eq_mul_twoPow]
    ring
  · simp

/-- R47: under its result tag a lane has what the function gives of the lane's own operands.  A form of base and stride comes only from
functions that treat the two alike. -/
theorem formLane_aluForm (op : AluOp) (fa fb fd : Form) {i : Nat} (hi : i < 32) :
    formLane (aluForm op fa fb fd) i = alu op (formLane fa i) (formLane fb i) (formLane fd i) := by
  unfold aluForm
  dsimp only
  split
  case h_10 => exact (alu_shl_add_mul ..).symm
  case h_20 =>
    split
    · exact alu_of_not_readsD ‹_› ..
    · rfl
    · exact formLane_each _ hi
  case h_21 =>
    split
    · exact alu_of_unary ‹_› ..
    · exact formLane_each _ hi
  case h_22 => exact formLane_each _ hi
  all_goals
    simp only [formLane, alu, BitVec.shiftLeft_eq_mul_twoPow, BitVec.zero_sub]
    ring

theorem tagSound : TagSound := fun op fa fb fd _ hi => formLane_aluForm op fa fb fd hi

/-- Settles O3: the values under each tag, then the result tags form by form. -/
theorem laneTags : Obligations.LaneTags := ⟨tagForms, tagSound⟩

end Sys2Proof.Proofs
end

section
/-! PROOFS. Reads of special registers (R58 to R60, R213, R214). -/

namespace Sys2Proof.Proofs

open Sys2Proof Sys2Proof.Machine Sys2Proof.Claim

/-! ## Which accesses trap -/

theorem guarded_iff (x : Nat) : Guarded x ↔ Machine.handlerOnly x = true := by
  simp [Guarded, Machine.handlerOnly]

section Faults

variable {s : State} {sh : Sheaf} {sc : Scope} {write : Bool} {x : Nat}

theorem sysFault_privileged (hg : Guarded x) (hn : sh.handler = false) : sysFault s sh sc write x = some 2 := by
  simp [sysFault, (guarded_iff x).1 hg, hn]

/-- Past the privilege check the map decides. -/
theorem sysFault_reachable (hg : Guarded x → sh.handler = true) : sysFault s sh sc write x =
    if !listedReg x then some 0
    else if write && !writableReg x then some 0
    else if !write && perThreadReg x && sc == .group then some 0
    else if write && (x == 0x104 || x == 0x105) && !(getCore s sh.place.core).margin.injen then some 2
    else none := by
  refine if_neg ?_
  rw [guarded_iff] at hg
  cases h : Machine.handlerOnly x <;> simp_all

theorem sysFault_unlisted (hg : Guarded x → sh.handler = true) (h : listedReg x = false) : sysFault s sh sc write x = some 0 := by
  simp [sysFault_reachable hg, h]

/-- A register of each thread is no register of a sheaf. -/
theorem sysFault_perThread (h1 : 0x20 ≤ x) (h2 : x ≤ 0x2F) : sysFault s sh .group false x = some 0 := by
  have hg : Guarded x → sh.handler = true := fun h => by rcases h with h | h <;> omega
  have hp : perThreadReg x = true := by simp [perThreadReg, h1, h2]
  rw [sysFault_reachable hg, hp]
  cases listedReg x <;> rfl

theorem sysFault_readable (h : Readable sh sc x) : sysFault s sh sc false x = none := by
  obtain ⟨hl, hg, hp⟩ := h
  have hp' : (perThreadReg x && sc == .group) = false := by
    cases sc with
    | lane => simp
    | group => simpa [perThreadReg] using hp
  simp [sysFault_reachable hg, hl, hp']

end Faults

/-! ## The values -/

theorem floatBits : ∀ a b : Bool, bitWord a 0 ||| bitWord b 1 = BitVec.ofNat 32 (bnat a + 2 * bnat b) := by decide

theorem floatBits_precise : ∀ a b c : Bool,
    bitWord a 0 ||| bitWord b 1 ||| bitWord c 2 = BitVec.ofNat 32 (bnat a + 2 * bnat b + 4 * bnat c) := by decide

theorem flagBits : ∀ a b c d e f : Bool, ∀ h : BitVec 2,
    bitWord a 0 ||| bitWord b 1 ||| bitWord c 2 ||| bitWord d 3 ||| bitWord e 4 ||| bitWord f 5 ||| (h.setWidth 32 <<< 8) =
      BitVec.ofNat 32 (bnat a + 2 * bnat b + 4 * bnat c + 8 * bnat d + 16 * bnat e + 32 * bnat f + 256 * h.toNat) := by decide

/-- What an SRD delivers, by the table. -/
theorem specialReg_table (s : State) (c : Cur) (sh : Sheaf) : ∀ p ∈ readTable (src c sh) sh, specialReg s c sh p.1 = p.2 := by
  simp only [readTable, List.forall_mem_cons, List.not_mem_nil, false_imp_iff, implies_true, and_true]
  exact ⟨rfl, congrArg (fun n => BitVec.ofNat 32 (sh.place.slot + n)) (Nat.mul_comm ..), rfl, rfl, floatBits_precise .., floatBits .., rfl,
    rfl, rfl, rfl, rfl, flagBits .., rfl, rfl, rfl, rfl, rfl, rfl, rfl, rfl, rfl, rfl, rfl, rfl, rfl⟩

theorem readTable_sheaf (held sh : Sheaf) : ∀ p ∈ readTable held sh, perThreadReg p.1 = false := by
  simp [readTable, perThreadReg]

/-! ## What a read changes -/

section Reads

variable {s : State} {held sh : Sheaf} {x : Nat}

theorem stores_dies (s : State) (m : Map Die) : StoresNothing s { s with dies := m } := stores_of_eq rfl rfl rfl rfl rfl rfl

/-- The passing of time before a read moves counters only. -/
theorem tickCounters_only (s : State) (sh : Sheaf) (x : Nat) :
    StoresNothing s (tickCounters s sh x) ∧ (tickCounters s sh x).beds = s.beds := by
  unfold tickCounters
  split
  · exact ⟨stores_dies .., rfl⟩
  · split
    · exact ⟨stores_count .., rfl⟩
    · exact ⟨stores_refl s, rfl⟩

/-- A read changes the sticky bits, the latch of the cycle counter or a core's counts, and stores nothing. -/
theorem afterRead_only (s : State) (held sh : Sheaf) (x : Nat) :
    StoresNothing s (afterRead s held sh x).1 ∧ (afterRead s held sh x).1.beds = s.beds ∧
      (afterRead s held sh x).2 = { sh with seenin := (afterRead s held sh x).2.seenin, seenout := (afterRead s held sh x).2.seenout,
                                            cychi := (afterRead s held sh x).2.cychi } := by
  unfold afterRead
  split
  · exact ⟨stores_refl s, rfl, rfl⟩
  · split
    · exact ⟨stores_refl s, rfl, rfl⟩
    · split
      · refine ⟨?_, rfl, rfl⟩
        dsimp only
        apply stores_modCore <;> rfl
      · exact ⟨stores_refl s, rfl, rfl⟩

/-- What the register that was read clears or latches, seen in the state that the read leaves. -/
theorem afterRead_of_read {t : State} {sh' : Sheaf} (hc : t.cores = (afterRead s held sh x).1.cores)
    (hd : t.dies = (afterRead s held sh x).1.dies)
    (hs : sh' = { (afterRead s held sh x).2 with v := sh'.v, g := sh'.g, gp := sh'.gp, long := sh'.long }) : AfterRead t held sh sh' x := by
  have hcore : getCore t sh.place.core = getCore (afterRead s held sh x).1 sh.place.core := by rw [getCore, hc]; rfl
  have hdie : getDie t (dieOf sh.place.core) = getDie (afterRead s held sh x).1 (dieOf sh.place.core) := by rw [getDie, hd]; rfl
  rw [AfterRead, hcore, hdie, hs]
  clear hs hc hd hcore hdie
  unfold afterRead
  split
  · subst x
    exact ⟨fun h => absurd h (by decide), fun h => absurd h (by decide), fun _ => rfl, rfl, fun _ => ⟨rfl, rfl⟩, fun h => absurd rfl h⟩
  · split
    · subst x
      exact ⟨fun _ => ⟨rfl, rfl⟩, fun h => absurd h (by decide), fun h => absurd h (by decide), rfl, fun h => absurd rfl h, fun _ => rfl⟩
    · split
      · subst x
        refine ⟨fun h => absurd h (by decide), fun _ => ?_, fun h => absurd h (by decide), rfl, fun _ => ⟨rfl, rfl⟩, fun _ => rfl⟩
        rw [getCore_modCore_self]
        exact ⟨rfl, rfl, rfl⟩
      · exact ⟨fun h => absurd h ‹_›, fun h => absurd h ‹_›, fun h => absurd h ‹_›, rfl, fun _ => ⟨rfl, rfl⟩, fun _ => rfl⟩

end Reads

/-! ## SRD -/

section Srd

variable {s : State} {c : Cur} {sh : Sheaf} {x : BitVec 10}

theorem srd_traps (hi : Issues s c sh) {sc : Scope} {k : Nat} (h : sysFault s sh sc false x.toNat = some k) (d : BitVec 7) :
    exec (.srd sc d x) s = trap s c sh (plainTrap k) := by
  rw [exec_srd, execSrd, onSheaf_issues hi, h]

/-- The state once the counters have moved and the register that is read has been cleared or latched. -/
def readState (s : State) (c : Cur) (sh : Sheaf) (x : Nat) : State := (afterRead (tickCounters s sh x) (src c sh) sh x).1

/-- The sheaf then. -/
def readSheaf (s : State) (c : Cur) (sh : Sheaf) (x : Nat) : Sheaf := (afterRead (tickCounters s sh x) (src c sh) sh x).2

/-- The value read. -/
def readValue (s : State) (c : Cur) (sh : Sheaf) (x : Nat) : Word := specialReg (tickCounters s sh x) c sh x

theorem readState_only (s : State) (c : Cur) (sh : Sheaf) (x : Nat) :
    StoresNothing s (readState s c sh x) ∧ (readState s c sh x).beds = s.beds := by
  obtain ⟨h1, hb1⟩ := tickCounters_only s sh x
  obtain ⟨h2, hb2, -⟩ := afterRead_only (tickCounters s sh x) (src c sh) sh x
  exact ⟨stores_trans h1 h2, hb2.trans hb1⟩

theorem readSheaf_only (s : State) (c : Cur) (sh : Sheaf) (x : Nat) : readSheaf s c sh x =
    { sh with seenin := (readSheaf s c sh x).seenin, seenout := (readSheaf s c sh x).seenout, cychi := (readSheaf s c sh x).cychi } :=
  (afterRead_only ..).2.2

/-- Per-thread registers cost no time and clear nothing. -/
theorem read_perThread {x : Nat} (h : perThreadReg x = true) (s : State) (c : Cur) (sh : Sheaf) : readState s c sh x = s ∧ readSheaf s c sh x = sh := by
  obtain ⟨h1, h2⟩ : 0x20 ≤ x ∧ x ≤ 0x2F := by simpa [perThreadReg] using h
  have h3 : x ≠ 0x30 ∧ x ≠ 0x41 ∧ x ≠ 0x102 ∧ x ≠ 0x14F := by omega
  simp [readState, readSheaf, afterRead, tickCounters, h3]

/-- Only the register file of a sheaf and the results that wait to be written differ. -/
def OnlyRegisters (sh sh' : Sheaf) : Prop := sh' = { sh with v := sh'.v, g := sh'.g, gp := sh'.gp, long := sh'.long }

theorem onlyRegisters_writeGroup (sh : Sheaf) (n : Nat) (y : Word) (q : Bool) : OnlyRegisters sh (writeGroup sh n y q) := by
  rw [OnlyRegisters, writeGroup_frame]

theorem onlyRegisters_writeLanes (sh : Sheaf) (n : Nat) (m : Mask) (f : Form) (q : Mask) : OnlyRegisters sh (writeLanes sh n m f q) := by
  rw [OnlyRegisters, writeLanes_frame]

/-- What a read leaves, whichever registers take the value. -/
theorem read_leaves (hi : Issues s c sh) (x : Nat) {sh' : Sheaf} (hs : OnlyRegisters (readSheaf s c sh x) sh') :
    getSheaf (putSheaf (readState s c sh x) c (advance c sh')) c.bed c.sheaf = some (advance c sh') ∧
      AfterRead (putSheaf (readState s c sh x) c (advance c sh')) (src c sh) sh sh' x ∧
      StoresNothing s (putSheaf (readState s c sh x) c (advance c sh')) := by
  obtain ⟨hst, hb⟩ := readState_only s c sh x
  have hsh : getSheaf (readState s c sh x) c.bed c.sheaf = some sh := by
    rw [← hi.2, getSheaf, getBed, hb]
    rfl
  exact ⟨getSheaf_setSheaf_self hsh _, afterRead_of_read (putSheaf_cores ..) (putSheaf_dies ..) hs, stores_trans hst (stores_putSheaf ..)⟩

theorem srd_group (hi : Issues s c sh) (ha : Active c sh) (h : Readable sh .group x.toNat) (d : BitVec 7) :
    exec (.srd .group d x) s = done (readState s c sh x.toNat) c
      (writeGroup (readSheaf s c sh x.toNat) (rn d) (readValue s c sh x.toNat) false) := by
  rw [exec_srd, execSrd, onSheaf_issues hi, sysFault_readable h]
  exact if_neg ha

/-- The value that each lane reads: its own of a per-thread register, one for all of another. -/
def laneRead (s : State) (c : Cur) (sh : Sheaf) (x i : Nat) : Word := if perThreadReg x then threadReg sh x i else readValue s c sh x

/-- The form that a lane SRD writes. -/
def readForm (s : State) (c : Cur) (sh : Sheaf) (x : Nat) : Form :=
  if perThreadReg x then .g (perLane (threadReg sh x)) else .u (readValue s c sh x)

theorem formLane_readForm (s : State) (c : Cur) (sh : Sheaf) (x : Nat) {i : Nat} (hi : i < 32) :
    formLane (readForm s c sh x) i = laneRead s c sh x i := by
  unfold readForm laneRead
  split
  · exact formLane_each _ hi
  · rfl

theorem srd_lane (hi : Issues s c sh) (ha : Active c sh) (h : Readable sh .lane x.toNat) (d : BitVec 7) (hb : InBudget c sh [rn d]) :
    exec (.srd .lane d x) s = done (readState s c sh x.toNat) c
      (writeLanes (readSheaf s c sh x.toNat) (rn d) (exm c sh) (readForm s c sh x.toNat) 0#32) := by
  rw [exec_srd, execSrd, onSheaf_issues hi, sysFault_readable h]
  refine (if_neg ha).trans ?_
  simp only [withBudget, overBudget_none hb]
  by_cases hp : perThreadReg x.toNat = true
  · obtain ⟨h1, h2⟩ := read_perThread hp s c sh
    rw [if_pos hp, h1, h2, readForm, if_pos hp]
  · rw [if_neg hp, readForm, if_neg hp]
    rfl

end Srd

/-! ## What a sheaf reads after an SRD -/

section Frames

variable {sh sh1 : Sheaf} {n : Nat}

/-- A sheaf and one that differs in sticky bits and the latch have the same registers and the same pending results. -/
def SameRegisters (sh sh1 : Sheaf) : Prop :=
  sh1 = { sh with seenin := sh1.seenin, seenout := sh1.seenout, cychi := sh1.cychi }

theorem otherGroups_writeGroup (h : SameRegisters sh sh1) (hn : n < 128) (y : Word) (q : Bool) :
    OtherGroups [n] sh (writeGroup sh1 n y q) := by
  have hf := groupFrame_writeGroup sh1 n hn y q
  rw [SameRegisters] at h
  refine ⟨fun i k hi _ u => ?_, fun k g hg hne _ u => ?_, fun u t r best => ?_⟩
  · rw [hf.lanes u i k hi, h]; rfl
  · rw [hf.groups u k g hg hne, h]; rfl
  · rw [hf.rows u t r best, h]

theorem otherLanes_writeLanes (h : SameRegisters sh sh1) (m : Mask) (f : Form) (q : Mask) :
    OtherLanes m [n] sh (writeLanes sh1 n m f q) := by
  have hf := laneFrame_writeLanes sh1 n m f q
  have hp : ∀ i k, phys sh1 i k = phys sh i k := fun i k => by rw [h]; rfl
  rw [SameRegisters] at h
  refine ⟨fun i k hi hne _ u => ?_, fun k g _ u => ?_, fun u t r best => ?_⟩
  · rw [hf.lanes u i k hi (by simpa only [hp] using hne), h]; rfl
  · rw [hf.groups u k g, h]; rfl
  · rw [hf.rows u t r best, h]

end Frames

/-- R58 to R60, R213 and R214. -/
theorem specialReads : SpecialReads := by
  intro d x s c sh hi
  refine ⟨fun hg hn sc => srd_traps hi (sysFault_privileged hg hn) d, fun hl hg sc => srd_traps hi (sysFault_unlisted hg hl) d,
    fun h1 h2 => srd_traps hi (sysFault_perThread h1 h2) d, fun hr ha => ?_, fun hr ha hb => ?_⟩
  · obtain ⟨hget, hafter, hst⟩ := read_leaves hi x.toNat (onlyRegisters_writeGroup _ (rn d) (readValue s c sh x.toNat) false)
    exact ⟨_, _, readValue s c sh x.toNat, srd_group hi ha hr d, hget, groupHolds_writeGroup _ _ _ _,
      otherGroups_writeGroup (readSheaf_only ..) (rn_lt d) .., hafter, hst, fun w hw => specialReg_table _ c sh _ hw⟩
  · obtain ⟨hget, hafter, hst⟩ := read_leaves hi x.toNat (onlyRegisters_writeLanes _ (rn d) (exm c sh) (readForm s c sh x.toNat) 0#32)
    refine ⟨_, _, laneRead s c sh x.toNat, srd_lane hi ha hr d hb, hget, ?_, otherLanes_writeLanes (readSheaf_only ..) .., hafter, hst, ?_,
      fun w hw i => ?_⟩
    · exact lanesHold_writeLanes _ _ _ _ _ _ _ (fun i hlt _ => formLane_readForm s c sh _ hlt) (fun i _ _ => bit_zero i)
    · rintro rfl i
      rfl
    · rw [laneRead, readTable_sheaf _ _ _ hw]
      exact specialReg_table _ c sh _ hw

end Sys2Proof.Proofs
end

section
/-! PROOFS. Writes of special registers (R59, R213, R374). -/

namespace Sys2Proof.Proofs

open Sys2Proof Sys2Proof.Machine Sys2Proof.Claim

/-! ## Which writes trap -/

section Faults

variable {s : State} {sh : Sheaf} {sc : Scope} {x : Nat}

theorem listedReg_of_writable (h : writableReg x = true) : listedReg x = true := by
  simp [writableReg, listedReg] at h ⊢
  omega

theorem sysFault_readOnly (hg : Guarded x → sh.handler = true) (h : writableReg x = false) : sysFault s sh sc true x = some 0 := by
  rw [sysFault_reachable hg, h]
  cases listedReg x <;> rfl

theorem sysFault_writable (hg : Guarded x → sh.handler = true) (h : writableReg x = true) : sysFault s sh sc true x =
    if (x == 0x104 || x == 0x105) && !(getCore s sh.place.core).margin.injen then some 2 else none := by
  rw [sysFault_reachable hg, h, listedReg_of_writable h]
  rfl

theorem sysFault_plain (hg : Guarded x → sh.handler = true) (h : writableReg x = true) (h4 : x ≠ 0x104) (h5 : x ≠ 0x105) :
    sysFault s sh sc true x = none := by
  simp [sysFault_writable hg h, h4, h5]

end Faults

/-! ## What a write changes -/

/-- An index with a field of the sheaf's own that SWR writes. -/
theorem writable_of_written {sh sh' : Sheaf} {x : Nat} {v : Word} (h : written sh x v = some sh') :
    writableReg x = true ∧ x ≠ 0x104 ∧ x ≠ 0x105 := by
  unfold written at h
  split at h
  case h_7 => cases h
  all_goals decide

theorem writeSpecial_written {sh sh' : Sheaf} {x : Nat} {v : Word} (h : written sh x v = some sh') (s : State) :
    writeSpecial s sh x v = (s, sh') := by
  unfold written at h
  split at h
  case h_5 =>
    obtain rfl := Option.some.inj h
    have hbits : bits v.toNat 9 8 = v.toNat / 2 ^ 8 % 4 := rfl
    have hmod : BitVec.ofNat 2 (v.toNat / 2 ^ 8 % 4) = BitVec.ofNat 2 (v.toNat / 2 ^ 8) := BitVec.eq_of_toNat_eq (by simp)
    simp only [writeSpecial, hbits, hmod]
  case h_7 => cases h
  all_goals
    obtain rfl := Option.some.inj h
    rfl

/-- A word of rejoin spill counts (Table 17.2). -/
def writeCounts (sh : Sheaf) (k : Nat) (v : Word) : Sheaf :=
  { sh with spc := (below 4).foldl (fun m b => mput m (4 * k + b) (byteOf v b) 0#8) sh.spc }

theorem writeSpecial_counts {k : Nat} (hk : k < 4) (s : State) (sh : Sheaf) (v : Word) :
    writeSpecial s sh (0x78 + k) v = (s, writeCounts sh k v) := by
  interval_cases k <;> rfl

theorem spill_writeCounts (sh : Sheaf) (k : Nat) (v : Word) (j : Nat) : spill (writeCounts sh k v) j =
    if 4 * k ≤ j ∧ j < 4 * k + 4 then v.toNat / 256 ^ (j - 4 * k) % 256 else spill sh j := by
  have hb : ∀ b, (byteOf v b).toNat = v.toNat / 256 ^ b % 256 := fun b => by
    rw [byteOf, BitVec.toNat_ofNat, show 256 = 2 ^ 8 from rfl, ← Nat.pow_mul]
  split
  · obtain ⟨b, rfl⟩ : ∃ b, j = 4 * k + b := ⟨j - 4 * k, by omega⟩
    have hlt : b < 4 := by omega
    rw [Nat.add_sub_cancel_left, ← hb]
    interval_cases b <;> simp [spill, writeCounts, below, upFrom, mget_mput]
  · have hne : ∀ b, b < 4 → j ≠ 4 * k + b := fun b hb => by omega
    have h0 := hne 0 (by omega)
    have h1 := hne 1 (by omega)
    have h2 := hne 2 (by omega)
    have h3 := hne 3 (by omega)
    simp only [Nat.add_zero] at h0
    simp [spill, writeCounts, below, upFrom, mget_mput, h0, h1, h2, h3]

/-! ## SWR -/

section Swr

variable {s : State} {c : Cur} {sh : Sheaf} {x : BitVec 10} {f : Nat}

theorem active_of_isFirst (h : IsFirst (exm c sh) f) : Active c sh := by
  obtain ⟨-, hb, -⟩ := h
  intro h0
  rw [h0, bit_zero] at hb
  cases hb

theorem firstLane_of_isFirst {m : Mask} (h : IsFirst m f) : firstLane m = f := by
  rw [firstLane, lowestD, lowest_of_isFirst h]
  rfl

theorem swr_traps (hi : Issues s c sh) {sc : Scope} {k : Nat} (h : sysFault s sh sc true x.toNat = some k) (a : BitVec 7) :
    exec (.swr sc a x) s = trap s c sh (plainTrap k) := by
  rw [exec_swr, execSwr, onSheaf_issues hi, h]

theorem swr_group (hi : Issues s c sh) (ha : Active c sh) (h : sysFault s sh .group true x.toNat = none) {a : BitVec 7}
    (hp : rdGP s c sh (rn a) = false) : exec (.swr .group a x) s =
      done (writeSpecial s sh x.toNat (rdG s c sh (rn a))).1 c (writeSpecial s sh x.toNat (rdG s c sh (rn a))).2 := by
  rw [exec_swr, execSwr, onSheaf_issues hi, h]
  refine (if_neg ha).trans ?_
  simp only [hp]
  rfl

theorem swr_group_poison (hi : Issues s c sh) (ha : Active c sh) (h : sysFault s sh .group true x.toNat = none) {a : BitVec 7}
    (hp : rdGP s c sh (rn a) = true) : exec (.swr .group a x) s = trap s c sh { plainTrap 6 with lanes := exm c sh } := by
  rw [exec_swr, execSwr, onSheaf_issues hi, h]
  refine (if_neg ha).trans ?_
  simp only [hp]
  rfl

/-- The one lane that reads is within its budget. -/
theorem overBudget_one {n : Nat} (hb : inBudget (src c sh) f n = true) : overBudget c sh (1#32 <<< f) [n] = none := by
  refine lowest_none fun i hi => ?_
  rw [bit_maskOf _ hi, bit, getLsbD_one_shift hi]
  by_cases h : f = i
  · subst h; simp [hb]
  · simp [h]

theorem swr_lane (hi : Issues s c sh) (hf : IsFirst (exm c sh) f) (h : sysFault s sh .lane true x.toNat = none) {a : BitVec 7}
    (hb : inBudget (src c sh) f (rn a) = true) (hp : rdVP s c sh f (rn a) = false) : exec (.swr .lane a x) s =
      done (writeSpecial s sh x.toNat (rdV s c sh f (rn a))).1 c (writeSpecial s sh x.toNat (rdV s c sh f (rn a))).2 := by
  rw [exec_swr, execSwr, onSheaf_issues hi, h]
  refine (if_neg (active_of_isFirst hf)).trans ?_
  simp only [firstLane_of_isFirst hf, withBudget, overBudget_one hb, hp]
  rfl

/-- A write of an injector changes it alone (Table 18.3). -/
theorem swr_injector (hi : Issues s c sh) (ha : Active c sh) (hh : sh.handler = true) (hx : x = 0x104#10 ∨ x = 0x105#10)
    (hj : (getCore s sh.place.core).margin.injen = true) {a : BitVec 7} (hp : rdGP s c sh (rn a) = false) :
    ∃ t, exec (.swr .group a x) s = .next t ∧ getSheaf t c.bed c.sheaf = some (advance c sh) ∧
      CoreBecomes s t sh.place.core (fun k =>
        let v := rdG s c sh (rn a) &&& 0x00FFFF77#32
        { k with margin := if x = 0x104#10 then { k.margin with inj0 := v } else { k.margin with inj1 := v } }) := by
  have hw : writableReg x.toNat = true := by rcases hx with rfl | rfl <;> rfl
  have hf : sysFault s sh .group true x.toNat = none := by simp [sysFault_writable (fun _ => hh) hw, hj]
  refine ⟨_, swr_group hi ha hf hp, ?_⟩
  rcases hx with rfl | rfl
  all_goals
    refine ⟨getSheaf_setSheaf_self (s := modCore s _ _) hi.2 _, ?_⟩
    exact coreBecomes_of_cores (coreBecomes_modCore rfl _ _) (putSheaf_cores ..)

end Swr

/-- R59, R213 and R374. -/
theorem specialWrites : SpecialWrites := by
  intro a x s c sh f hi hf
  have ha := active_of_isFirst hf
  refine ⟨fun hg hn sc => swr_traps hi (sysFault_privileged hg hn) a, fun hg hx sc => ?_, fun sh' hg => ⟨fun hw hp => ?_, fun hw hb hp => ?_⟩,
    fun hh hx => ⟨fun hj sc => ?_, fun hj hp => swr_injector hi ha hh hx hj hp⟩, fun hh hp k b hk hb hx => ?_, fun hg hx hp => ?_⟩
  · have hro : ∀ y ∈ [0x00, 0x41, 0x60, 0x62, 0x6A, 0x101, 0x102, 0x106, 0x140, 0x14F, 0x240, 0x3FF], writableReg y = false := by decide
    exact swr_traps hi (sysFault_readOnly hg (hro _ hx)) a
  · obtain ⟨hwr, h4, h5⟩ := writable_of_written hw
    rw [swr_group hi ha (sysFault_plain hg hwr h4 h5) hp, writeSpecial_written hw]
    rfl
  · obtain ⟨hwr, h4, h5⟩ := writable_of_written hw
    rw [swr_lane hi hf (sysFault_plain hg hwr h4 h5) hb hp, writeSpecial_written hw]
    rfl
  · have hw : writableReg x.toNat = true := by rcases hx with rfl | rfl <;> rfl
    refine swr_traps hi ?_ a
    rw [sysFault_writable (fun _ => hh) hw, hj]
    rcases hx with rfl | rfl <;> rfl
  · have hw : writableReg x.toNat = true := by rw [hx]; simp [writableReg]; omega
    refine ⟨writeCounts sh k (rdG s c sh (rn a)), ?_, rfl, ?_, fun j hj => ?_⟩
    · rw [swr_group hi ha (sysFault_plain (fun _ => hh) hw (by omega) (by omega)) hp, hx, writeSpecial_counts hk]
      rfl
    · rw [spill_writeCounts, if_pos (by omega), Nat.add_sub_cancel_left]
    · rw [spill_writeCounts, if_neg (by omega)]
  · subst hx
    exact swr_group_poison hi ha (sysFault_plain hg rfl (by decide) (by decide)) hp

end Sys2Proof.Proofs
end

section
/-! PROOFS. ALU functions with an immediate, and the EXT prefix (R173, R174, R176, R191). -/

namespace Sys2Proof.Proofs

open Sys2Proof Sys2Proof.Machine Sys2Proof.Claim

/-! ## ALU functions with an immediate -/

section Immediates

variable {s : State} {c : Cur} {sh : Sheaf}

/-- On lanes each active lane takes the function of its own value. -/
theorem aluImm_lanes (hi : Issues s c sh) (ha : Active c sh) {d a : BitVec 7} (hb : InBudget c sh [rn d, rn a]) (op : AluOp) (x : Word)
    (y : DWord) : ∃ sh' t, aluImm op .lane d a x y s = .next t ∧ MovesOn s t c sh' ∧
      LanesHold (exm c sh) sh' (rn d) (fun k => alu op (rdV s c sh k (rn a)) x 0#32) (fun k => rdVP s c sh k (rn a)) ∧
      LaneFrame (exm c sh) [rn d] sh sh' := by
  have he : aluImm op .lane d a x y s = done s c (writeLanes sh (rn d) (exm c sh) (aluForm op (rdForm s c sh (rn a)) (.u x) (.u 0#32))
      (poisonOf s c sh [rn a])) := by
    simp only [aluImm, onEngine_issues hi, laneForm1, laneOp_issues hi ha hb]
  refine ⟨_, _, he, movesOn_done .., lanesHold_writeLanes _ _ _ _ _ _ _ (fun i hlt _ => ?_) (fun i hlt _ => ?_), laneFrame_writeLanes ..⟩
  · rw [formLane_aluForm _ _ _ _ hlt, formLane_rdForm _ _ _ _ hlt]
    rfl
  · simp [bit_poisonOf _ _ _ _ hlt]

/-- In group scope gD takes the function of a group register. -/
theorem aluImm_group (hi : Issues s c sh) (ha : Active c sh) (d a : BitVec 7) (op : AluOp) (x : Word) (y : DWord) :
    ∃ sh' t, aluImm op .group d a x y s = .next t ∧ MovesOn s t c sh' ∧
      GroupHolds sh' (rn d) (alu op (rdG s c sh (rn a)) x 0#32) (rdGP s c sh (rn a)) ∧ GroupFrame [rn d] sh sh' := by
  have he : aluImm op .group d a x y s = done s c (writeGroup sh (rn d) (alu op (rdG s c sh (rn a)) x 0#32) (rdGP s c sh (rn a))) := by
    simp only [aluImm, onEngine_issues hi, groupForm1, groupOp_issues hi ha, poisonG, List.any_cons, List.any_nil, Bool.or_false]
  exact ⟨_, _, he, movesOn_done .., groupHolds_writeGroup _ _ _ _, groupFrame_writeGroup _ _ (rn_lt d) _ _⟩

end Immediates

/-! ## The immediate of a pair -/

theorem toNat_extImm (i : BitVec 25) (x : BitVec 11) : (extImm i x).toNat = i.toNat * 2 ^ 11 + x.toNat := by
  rw [extImm, BitVec.toNat_append, ← Nat.shiftLeft_add_eq_or_of_lt x.isLt, Nat.shiftLeft_eq]

theorem low32_eq (x : BitVec 36) : low32 x = BitVec.ofNat 32 x.toNat := BitVec.eq_of_toNat_eq (by simp [low32])

theorem fits32_iff (x : BitVec 36) : fits32 x = true ↔ x.toNat / 2 ^ 32 = 0 ∨ x.toNat / 2 ^ 31 = 31 := by simp [fits32]

/-- An index that fits the short form means the same behind an empty prefix (R174). -/
theorem extIdx_short {o : BitVec 5} (h : o.toNat < 16) : extIdx 0#25 o = shortIdx o := by
  have : ∀ o : BitVec 5, o.toNat < 16 → extIdx 0#25 o = shortIdx o := by decide
  exact this o h

/-! ## EXT -/

/-- EXT before an immediate of ALU: a wide one, in its own scope (R176). -/
theorem execExt_wide {f : WideForm} {t : Scope} {d a : BitVec 7} {x : BitVec 11} {w : BitVec 32}
    (h : decodeWord w 0#32 = .ok (f.instr t d a x)) (sc : Scope) (i : BitVec 25) (s : State) :
    exec (.ext sc i w) s = if t = sc then extAlu f.op t d a (extImm i x) s else orphan s := by
  rw [exec_ext, execExt, h]
  cases f <;> rfl

theorem extAlu_fits {n : BitVec 36} (h : fits32 n = true) (op : AluOp) (sc : Scope) (d a : BitVec 7) (s : State) :
    extAlu op sc d a n s = aluImm op sc d a (BitVec.ofNat 32 n.toNat) 0#64 s := by
  rw [extAlu, if_pos h, low32_eq]

section Ext

variable {s : State} {c : Cur} {sh : Sheaf}

theorem orphan_traps (hi : Issues s c sh) : orphan s = trap s c sh (plainTrap 1) := onSheaf_issues hi _

theorem extAlu_unfit (hi : Issues s c sh) {n : BitVec 36} (h : ¬fits32 n = true) (op : AluOp) (sc : Scope) (d a : BitVec 7) :
    extAlu op sc d a n s = trap s c sh (plainTrap 0) := by
  rw [extAlu, if_neg h, onSheaf_issues hi]
  rfl

/-- EXT before a memory form widens its index only. -/
theorem execExt_widened {sc : Scope} {j : Instr} {d a : BitVec 7} {m : BitVec 2} {o : BitVec 5} {l : BitVec 4} {w : BitVec 32}
    (hj : (sc, j) ∈ widened d a m o l) (h : decodeWord w 0#32 = .ok j) (ho : o.toNat < 16) :
    exec (.ext sc 0#25 w) s = exec j s := by
  rw [exec_ext, execExt, h]
  simp only [widened, List.mem_cons, Prod.mk.injEq, List.not_mem_nil, or_false] at hj
  obtain ⟨rfl, rfl⟩ | ⟨rfl, rfl⟩ | ⟨rfl, rfl⟩ | ⟨rfl, rfl⟩ | ⟨rfl, rfl⟩ | ⟨rfl, rfl⟩ | ⟨rfl, rfl⟩ | ⟨rfl, rfl⟩ | ⟨rfl, rfl⟩ | ⟨rfl, rfl⟩ |
    ⟨rfl, rfl⟩ | ⟨rfl, rfl⟩ := hj
  all_goals
    simp only [extIdx_short ho]
    rfl

end Ext

/-- R173, R174 and R176. -/
theorem extPairs : ExtPairs := by
  intro f i x d a m o l w s c sh hi
  have hn := toNat_extImm i x
  simp only [← hn, ← fits32_iff]
  refine ⟨fun h hf ha hb => ?_, fun h hf ha => ?_, fun h hf => ?_, fun h => ?_, fun h sc => ?_, fun r h sc => ?_, fun sc j hj h h0 ho => ?_⟩
  · rw [execExt_wide h, if_pos rfl, extAlu_fits hf]
    exact aluImm_lanes hi ha hb ..
  · rw [execExt_wide h, if_pos rfl, extAlu_fits hf]
    exact aluImm_group hi ha ..
  · rw [execExt_wide h, if_pos rfl, extAlu_unfit hi hf]
  · rw [execExt_wide h, if_neg Scope.noConfusion, orphan_traps hi]
  · rw [exec_ext, execExt, h]
    exact orphan_traps hi
  · rw [exec_ext, execExt, h]
    exact onSheaf_issues hi _
  · subst h0
    exact execExt_widened hj h ho

/-- Settles O36: reads, writes, and the pairs of EXT. -/
theorem specialRegisters : Obligations.SpecialRegisters := ⟨specialReads, specialWrites, extPairs⟩

end Sys2Proof.Proofs
end

section
/-! PROOFS. Lines of the register cache: fills, and the states of a line (R50, R51, R311). -/

namespace Sys2Proof.Proofs

open Sys2Proof Sys2Proof.Machine Sys2Proof.Claim

/-! ## Registers of a file -/

/-- A register that is not as at bed start is listed. -/
theorem mfind_of_vreg {sh : Sheaf} {p : Nat} (h : vreg sh p ≠ VReg.reset) : mfind sh.v p = some (vreg sh p) := by
  unfold vreg at h ⊢
  generalize sh.v = m at h ⊢
  induction m with
  | nil => exact absurd rfl h
  | cons y r ih =>
    simp only [mfind, mget] at h ⊢
    split
    · rfl
    · rw [if_neg ‹_›] at h
      exact ih h

/-! ## A fill -/

section Fill

variable {s : State} {b w : Nat}

/-- A filled register keeps what was filled, whatever line it goes to. -/
theorem vreg_placeFilled (own now : Nat) (sh : Sheaf) (q : Nat) (r : VReg) : (vreg (placeFilled own now sh q r) q).form = r.form ∧
    (vreg (placeFilled own now sh q r) q).poison = r.poison ∧ (vreg (placeFilled own now sh q r) q).line = r.line := by
  simp only [vreg, placeFilled, mget_mset_self, and_self]

theorem mfind_placeFilled_ne (own now : Nat) (sh : Sheaf) {q k : Nat} (r : VReg) (h : k ≠ q) :
    mfind (placeFilled own now sh q r).v k = mfind sh.v k := mfind_mset_ne _ _ h

/-- Registers filled one after another, each with what `f` gives for it. -/
def fillAll (own now : Nat) (f : Nat → VReg) (qs : List Nat) (sh : Sheaf) : Sheaf := qs.foldl (fun x q => placeFilled own now x q (f q)) sh

theorem fillAll_append_one (own now : Nat) (f : Nat → VReg) (qs : List Nat) (q : Nat) (sh : Sheaf) :
    fillAll own now f (qs ++ [q]) sh = placeFilled own now (fillAll own now f qs sh) q (f q) := List.foldl_concat ..

theorem fillAll_only (own now : Nat) (f : Nat → VReg) (qs : List Nat) (sh : Sheaf) :
    fillAll own now f qs sh = { sh with v := (fillAll own now f qs sh).v } := by
  induction qs using List.reverseRecOn with
  | nil => rfl
  | append_singleton qs q ih =>
    rw [fillAll_append_one, placeFilled, ih]

theorem mfind_fillAll_ne (own now : Nat) (f : Nat → VReg) {qs : List Nat} {k : Nat} (h : k ∉ qs) (sh : Sheaf) :
    mfind (fillAll own now f qs sh).v k = mfind sh.v k := by
  induction qs using List.reverseRecOn with
  | nil => rfl
  | append_singleton qs q ih =>
    have hq : k ∉ qs ∧ k ≠ q := by simpa using h
    rw [fillAll_append_one, mfind_placeFilled_ne _ _ _ _ hq.2, ih hq.1]

theorem vreg_fillAll (own now : Nat) (f : Nat → VReg) {qs : List Nat} {k : Nat} (h : k ∈ qs) (sh : Sheaf) :
    (vreg (fillAll own now f qs sh) k).form = (f k).form ∧ (vreg (fillAll own now f qs sh) k).poison = (f k).poison ∧
      (vreg (fillAll own now f qs sh) k).line = (f k).line := by
  induction qs using List.reverseRecOn with
  | nil => cases h
  | append_singleton qs q ih =>
    rw [fillAll_append_one]
    by_cases hk : k = q
    · subst hk
      exact vreg_placeFilled ..
    · have hv : ∀ r, vreg (placeFilled own now (fillAll own now f qs sh) q r) k = vreg (fillAll own now f qs sh) k :=
        fun r => mget_mset_ne _ _ _ hk
      rw [hv]
      exact ih (by simpa [hk] using h)

theorem bringLine_eq (s : State) (b w p : Nat) (sh : Sheaf) :
    bringLine s b w p sh = fillAll (newRow sh) s.ticks (fun q => fillReg s b w q sh) (absentMates sh p) sh := rfl

theorem loadReg_line {lb budget p : Nat} {r : VReg} (h : loadReg s lb budget p = some r) : r.line = .present := by
  obtain ⟨f, -, rfl⟩ := Option.map_eq_some_iff.1 h
  rfl

/-- What is filled is present. -/
theorem fillReg_line (s : State) (b w q : Nat) (sh : Sheaf) : (fillReg s b w q sh).line = .present := by
  unfold fillReg
  dsimp only
  split
  · rename_i img _
    cases h : loadReg s (laneBlock s b w img) sh.place.budget q with
    | none => rfl
    | some r => exact loadReg_line h
  · rfl

theorem fillReg_loads {bd : Bed} {img p : Nat} {sh : Sheaf} {r : VReg} (hb : getBed s b = some bd) (hi : bd.image = some img)
    (hl : loadReg s (laneBlock s b w img) sh.place.budget p = some r) : fillReg s b w p sh = r := by
  simp only [fillReg, hb, Option.bind_some, hi, hl, Option.getD_some]

/-- An absent register is among those that its fill brings. -/
theorem mem_absentMates {sh : Sheaf} {p : Nat} (ha : (vreg sh p).line = .absent) (hp : p < sh.place.budget) : p ∈ absentMates sh p := by
  unfold absentMates
  dsimp only
  split
  · have hf := mfind_of_vreg (sh := sh) (p := p) (fun h => ‹(vreg sh p).row ≠ 0› (by rw [h]; rfl))
    exact List.mem_map.2 ⟨_, List.mem_filter.2 ⟨mem_of_mfind hf, by simp [ha]⟩, rfl⟩
  · split
    · exact List.mem_singleton_self p
    · refine List.mem_filter.2 ⟨mem_upFrom.2 ⟨p % 32, Nat.mod_lt _ (by decide), by omega⟩, ?_⟩
      simpa [hp] using ‹¬(mfind sh.v p).isSome = true›

/-- The absent registers of a narrow line all come with one of them (R50). -/
theorem mate_mem_absentMates {sh : Sheaf} {p q : Nat} {z : VReg} (hr : (vreg sh p).row ≠ 0) (hq : mfind sh.v q = some z)
    (hz : z.row = (vreg sh p).row) (hl : z.line = .absent) : q ∈ absentMates sh p := by
  rw [absentMates, if_pos hr]
  exact List.mem_map.2 ⟨(q, z), List.mem_filter.2 ⟨mem_of_mfind hq, by simp [hz, hl]⟩, rfl⟩

theorem getSheaf_fillLine {sh : Sheaf} (h : getSheaf s b w = some sh) (p : Nat) :
    getSheaf (fillLine s b w p) b w = some (bringLine s b w p sh) := by
  simp only [fillLine, h, getSheaf_count]
  exact getSheaf_setSheaf_self h _

end Fill

/-- R50 and R51, fills. -/
theorem filledLine : FilledLine := by
  intro b w p s bd sh img r hb hs hi ha hp hl
  obtain ⟨hform, hpoison, hline⟩ := vreg_fillAll (newRow sh) s.ticks (fun q => fillReg s b w q sh) (mem_absentMates ha hp) sh
  rw [fillReg_loads hb hi hl] at hform hpoison
  rw [fillReg_line] at hline
  refine ⟨_, getSheaf_fillLine hs p, ?_⟩
  rw [bringLine_eq]
  refine ⟨fillAll_only .., hform, hpoison, hline, fun q hq => mfind_fillAll_ne _ _ _ hq sh, fun q z hr hq hz hza => ?_⟩
  rw [(vreg_fillAll _ _ _ (mate_mem_absentMates hr hq hz hza) sh).2.2]
  exact fillReg_line ..

/-! ## The states of a line -/

section States

variable {s : State} {b w p : Nat} {sh : Sheaf}

/-- A change of some lines reaches every register of them and no other. -/
theorem mfind_modLines (sh : Sheaf) (keys : List Nat) (f : VReg → VReg) (r : Nat) : mfind (modLines sh keys f).v r =
    (mfind sh.v r).map (fun y => if y.line != .absent && keys.contains (lineKey r y) then f y else y) :=
  mfind_map sh.v (fun k y => if y.line != .absent && keys.contains (lineKey k y) then f y else y) r

/-- Every register of a line takes a state, and the others stay. -/
theorem modLines_states (sh : Sheaf) (key : Nat) (st : LineState) :
    let sh' := modLines sh [key] (fun r => { r with line := st })
    sh' = { sh with v := sh'.v } ∧ (∀ r, mfind sh.v r = none → mfind sh'.v r = none) ∧
      ∀ r y, mfind sh.v r = some y → (InLine key r y → mfind sh'.v r = some { y with line := st }) ∧
        (¬InLine key r y → mfind sh'.v r = some y) := by
  refine ⟨rfl, fun r h => by rw [mfind_modLines, h]; rfl, fun r y h => ⟨fun hin => ?_, fun hout => ?_⟩⟩
  · obtain ⟨hl, hk⟩ := hin
    rw [mfind_modLines, h, Option.map_some, if_pos (by simp [hl, hk])]
  · rw [mfind_modLines, h, Option.map_some, if_neg (by simpa [InLine] using hout)]

theorem getSheaf_setLine (h : getSheaf s b w = some sh) (p : Nat) (st : LineState) :
    getSheaf (setLine s b w p st) b w = some (modLines sh [lineOf sh p] (fun r => { r with line := st })) := by
  rw [setLine, getSheaf_modSheaf, if_pos ⟨rfl, rfl⟩, h]
  rfl

theorem lineDrowsy_eq (h : getSheaf s b w = some sh) (p : Nat) : exec (.lineDrowsy b w p) s =
    .next (if decide (p < 512) && (vreg sh p).line == .present then setLine s b w p .drowsy else s) := by
  simp only [exec_lineDrowsy, execLineDrowsy, h]

theorem lineWake_eq (h : getSheaf s b w = some sh) (p : Nat) : exec (.lineWake b w p) s =
    if (vreg sh p).line ≠ .drowsy then .next s else .next (count (setLine s b w p .present) sh.place.core 9 1) := by
  simp only [exec_lineWake, execLineWake, h]

/-- The registers of the lines that a fill adds. -/
def newLines (s : State) (b w p : Nat) (sh : Sheaf) : Nat := (lineKeys (bringLine s b w p sh)).length - (lineKeys sh).length

theorem registerLineFill_eq {bd : Bed} (hb : getBed s b = some bd) (h : getSheaf s b w = some sh) (p : Nat) :
    exec (.registerLineFill b w p) s =
      if bd.stage ≠ .resident || lineState sh p ≠ .absent then .next s
      else .next (fillLine (keepCapacity (keepReserved s b (newLines s b w p sh) (fun x => !busyLine s x)) sh.place.core
        (newLines s b w p sh)) b w p) := by
  simp only [exec_registerLineFill, execRegisterLineFill, hb, h]
  rfl

theorem keepReserved_fits {bd : Bed} (hb : getBed s b = some bd) {n : Nat} (h : (bedLines b bd).length + n ≤ reserved s bd)
    (spare : Line → Bool) : keepReserved s b n spare = s := by
  simp only [keepReserved, hb]
  exact if_pos h

theorem keepCapacity_fits {core n : Nat} (h : (coreLines s core).length + n ≤ 16384) : keepCapacity s core n = s := if_pos h

/-- A line event of a sheaf that is not there does nothing. -/
theorem lineEvents_none (h : getSheaf s b w = none) :
    ∀ i ∈ [Instr.registerLineFill b w p, .lineDrowsy b w p, .lineWake b w p], exec i s = .next s := by
  simp only [List.forall_mem_cons, List.not_mem_nil, false_imp_iff, implies_true, and_true]
  refine ⟨?_, ?_, ?_⟩
  · rw [exec_registerLineFill, execRegisterLineFill, h]
    cases getBed s b <;> rfl
  · rw [exec_lineDrowsy, execLineDrowsy, h]
  · rw [exec_lineWake, execLineWake, h]

theorem lineState_ne_absent (h : (vreg sh p).line ≠ .absent ∨ 512 ≤ p) : lineState sh p ≠ .absent := by
  unfold lineState
  split
  · exact LineState.noConfusion
  · exact h.resolve_right ‹_›

end States

/-- R50 and R51, the states of lines. -/
theorem registerLines : RegisterLines := by
  intro b w p s
  refine ⟨lineEvents_none, fun sh hs => ⟨fun h => ?_, fun h => ?_, fun h => ?_, fun hl hp _ => ?_, fun hl => ?_, fun bd hl hp hb hst => ?_⟩⟩
  · have hno : (vreg sh p).line ≠ .present := h.elim id fun hn hpr => by
      rw [mfind_of_vreg (fun hr => by rw [hr] at hpr; cases hpr)] at hn
      cases hn
    rw [lineDrowsy_eq hs, if_neg (by simp [hno])]
  · rw [lineWake_eq hs, if_pos h]
  · obtain ⟨bd, hb⟩ := getBed_of_getSheaf hs
    rw [registerLineFill_eq hb hs, if_pos (by simp [lineState_ne_absent h])]
  · refine ⟨_, _, lineDrowsy_eq hs p, ?_, modLines_states sh (lineOf sh p) .drowsy⟩
    rw [if_pos (by simp [hl, hp])]
    exact getSheaf_setLine hs p _
  · refine ⟨_, _, (lineWake_eq hs p).trans (if_neg (not_not.2 hl)), ?_, modLines_states sh (lineOf sh p) .present⟩
    exact getSheaf_setLine hs p _
  · have hls : lineState sh p = .absent := (if_neg (by omega)).trans hl
    have he := registerLineFill_eq hb hs p
    rw [if_neg (by simp [hst, hls])] at he
    refine ⟨he, fun hr hc => ?_⟩
    rw [he, keepReserved_fits (n := newLines s b w p sh) hb hr, keepCapacity_fits (n := newLines s b w p sh) hc]

end Sys2Proof.Proofs
end

section
/-! PROOFS. A debugger's flush, what it takes back, and the release of a stopped sheaf (R364, R366). -/

namespace Sys2Proof.Proofs

open Sys2Proof Sys2Proof.Machine Sys2Proof.Claim

/-! ## Words of an image -/

section Images

variable {s : State}

theorem imgRead_imgWord (s : State) (a c : Nat) (x : Word) : imgRead (imgWord s a x) c = if c / 4 = a / 4 then x else imgRead s c := by
  unfold imgRead imgWord
  split
  · rw [‹c / 4 = a / 4›, homeWord_homeThrough_self, mergeBytes_all]
  · rw [homeWord_homeThrough_ne _ _ _ ‹_›]

/-- Only memory and its home caches differ. -/
def MemoryOnly (s t : State) : Prop := ∃ m q h, t = { s with mem := m, memPoison := q, home := h }

theorem memoryOnly_refl (s : State) : MemoryOnly s s := ⟨s.mem, s.memPoison, s.home, rfl⟩

theorem MemoryOnly.trans {s t u : State} (h : MemoryOnly s t) (k : MemoryOnly t u) : MemoryOnly s u := by
  obtain ⟨_, _, _, rfl⟩ := h
  obtain ⟨_, _, _, rfl⟩ := k
  exact ⟨_, _, _, rfl⟩

theorem memoryOnly_fold {α : Type} {f : State → α → State} (hf : ∀ s a, MemoryOnly s (f s a)) (l : List α) (s : State) :
    MemoryOnly s (l.foldl f s) := by
  induction l generalizing s with
  | nil => exact memoryOnly_refl s
  | cons a r ih => exact (hf s a).trans (ih _)

theorem memoryOnly_imgWord (s : State) (a : Nat) (x : Word) : MemoryOnly s (imgWord s a x) := ⟨_, _, _, rfl⟩

theorem memoryOnly_imgWords (s : State) (a : Nat) (xs : List Word) : MemoryOnly s (imgWords s a xs) :=
  memoryOnly_fold (fun _ _ => memoryOnly_imgWord ..) _ s

theorem memoryOnly_saveReg (s : State) (lb : Nat) (sh : Sheaf) (p : Nat) : MemoryOnly s (saveReg s lb sh p) :=
  (((memoryOnly_imgWord ..).trans (memoryOnly_imgWord ..)).trans (memoryOnly_imgWords ..)).trans (memoryOnly_imgWords ..)

theorem memoryOnly_writeLine (s : State) (b w img p : Nat) : MemoryOnly s (writeLine s b w img p) := by
  unfold writeLine
  split
  · exact memoryOnly_refl s
  · exact memoryOnly_fold (fun _ _ => memoryOnly_saveReg ..) _ s

theorem memoryOnly_saveSlot (s : State) (b w img : Nat) (sh : Sheaf) (token : Bool) : MemoryOnly s (saveSlot s b w img sh token) :=
  memoryOnly_fold (fun _ _ => memoryOnly_imgWords ..) _ s

theorem MemoryOnly.getSheaf {t : State} (h : MemoryOnly s t) (b w : Nat) : getSheaf t b w = getSheaf s b w := by
  obtain ⟨_, _, _, rfl⟩ := h
  rfl

theorem MemoryOnly.hostIf {t : State} (h : MemoryOnly s t) : t.hostIf = s.hostIf := by
  obtain ⟨_, _, _, rfl⟩ := h
  rfl

theorem imgRead_modSheaf (s : State) (b w : Nat) (f : Sheaf → Sheaf) (a : Nat) : imgRead (modSheaf s b w f) a = imgRead s a := by
  simp only [imgRead, homeWord, dramWord, modSheaf_mem, modSheaf_home, modSheaf_memPoison]

theorem getSheaf_modSheaf_self {b w : Nat} {sh : Sheaf} (h : getSheaf s b w = some sh) (f : Sheaf → Sheaf) :
    getSheaf (modSheaf s b w f) b w = some (f sh) := by
  rw [getSheaf_modSheaf, if_pos ⟨rfl, rfl⟩, h]
  rfl

end Images

/-! ## A line dropped from the cache -/

section Drop

variable {s : State} {b w : Nat} {sh : Sheaf}

/-- The registers that leave with a register's line. -/
theorem mem_lineRegs {p : Nat} (h : (vreg sh p).line ≠ .absent) : p ∈ lineRegs sh p := by
  have hf := mfind_of_vreg (sh := sh) (p := p) (fun hr => h (by rw [hr]; rfl))
  unfold lineRegs
  split
  · exact List.mem_singleton_self p
  · rename_i hne
    by_cases hr : (vreg sh p).row = 0
    · exact absurd (by simp [rowMates, hr]) hne
    · rw [rowMates, if_neg hr]
      exact List.mem_map.2 ⟨(p, vreg sh p), List.mem_filter.2 ⟨mem_of_mfind hf, by simp [h]⟩, rfl⟩

/-- A file without some registers. -/
def dropRegs (ps : List Nat) (v : Map VReg) : Map VReg := ps.foldl (fun v k => mset v k { mget v k VReg.reset with line := .absent }) v

theorem line_dropRegs {ps : List Nat} {p : Nat} (h : p ∈ ps) (v : Map VReg) : (mget (dropRegs ps v) p VReg.reset).line = .absent := by
  induction ps using List.reverseRecOn with
  | nil => cases h
  | append_singleton ps k ih =>
    rw [dropRegs, List.foldl_concat, mget_mset]
    split
    · rfl
    · exact ih (by simpa [‹¬p = k›] using h)

theorem getSheaf_dropLine (h : getSheaf s b w = some sh) (img p : Nat) :
    getSheaf (dropLine s b w img p) b w = some { sh with v := dropRegs (lineRegs sh p) sh.v } := by
  simp only [dropLine, h]
  exact getSheaf_modSheaf_self (((memoryOnly_writeLine s b w img p).getSheaf b w).trans h) _

theorem dropLine_hostIf (s : State) (b w img p : Nat) : (dropLine s b w img p).hostIf = s.hostIf := by
  unfold dropLine
  split
  · rfl
  · rw [modSheaf_hostIf, (memoryOnly_writeLine ..).hostIf]

end Drop

/-! ## The flush -/

section Flush

variable {s : State} {b w img : Nat} {bd : Bed} {sh : Sheaf}

theorem ensureImage_there (hb : getBed s b = some bd) (hi : bd.image = some img) : ensureImage s b = some (img, s) := by
  simp only [ensureImage, hb, hi]

/-- The flush of a bed that has an image. -/
theorem debugFlush_eq (hb : getBed s b = some bd) (hs : getSheaf s b w = some sh) (hi : bd.image = some img) (p : Nat) :
    exec (.debugFlush b w p) s =
      if bd.stage ≠ .resident then .next s
      else if p < 512 then
        if sh.place.budget ≤ p || (vreg sh p).line == .absent then .next (answer s []) else .next (answer (dropLine s b w img p) [])
      else .next (answer (flushGroup s b w img (p - 512) sh) []) := by
  simp only [exec_debugFlush, execDebugFlush, hb, hs, ensureImage_there hb hi]

theorem answer_out (s : State) (bs : List Byte) : (answer s bs).hostIf.out = s.hostIf.out ++ [(false, bs)] := rfl

theorem getSheaf_answer (s : State) (bs : List Byte) (b w : Nat) : getSheaf (answer s bs) b w = getSheaf s b w := rfl

theorem imgRead_answer (s : State) (bs : List Byte) (a : Nat) : imgRead (answer s bs) a = imgRead s a := rfl

theorem keepsThreads_v (sh : Sheaf) (v : Map VReg) : KeepsThreads sh { sh with v := v } :=
  ⟨rfl, ⟨rfl, rfl, rfl, rfl⟩, ⟨rfl, rfl⟩, rfl, rfl, rfl⟩

theorem keepsThreads_flushed (sh : Sheaf) (m : Map Word) : KeepsThreads sh { sh with flushed := m } :=
  ⟨rfl, ⟨rfl, rfl, rfl, rfl⟩, ⟨rfl, rfl⟩, rfl, rfl, rfl⟩

/-- A lane register's flush leaves its line out of the cache. -/
theorem debugFlush_lane (hb : getBed s b = some bd) (hs : getSheaf s b w = some sh) (hi : bd.image = some img)
    (hst : bd.stage = .resident) {p : Nat} (hp : p < 512) :
    ∃ t sh', exec (.debugFlush b w p) s = .next t ∧ t.hostIf.out = s.hostIf.out ++ [(false, [])] ∧ getSheaf t b w = some sh' ∧
      KeepsThreads sh sh' ∧ (p < sh.place.budget → (vreg sh' p).line = .absent) := by
  have he := debugFlush_eq hb hs hi p
  rw [if_neg (not_not.2 hst), if_pos hp] at he
  by_cases hq : (sh.place.budget ≤ p || (vreg sh p).line == .absent) = true
  · rw [if_pos hq] at he
    refine ⟨_, sh, he, rfl, hs, keepsThreads_v sh sh.v, fun hlt => ?_⟩
    simpa [Nat.not_le.2 hlt] using hq
  · rw [if_neg hq] at he
    have hl : (vreg sh p).line ≠ .absent := fun h => hq (by simp [h])
    refine ⟨_, _, he, by rw [answer, dropLine_hostIf], getSheaf_dropLine hs img p, keepsThreads_v .., fun _ => ?_⟩
    exact line_dropRegs (mem_lineRegs hl) _

theorem groupSlots_register (sh : Sheaf) {n : Nat} (h : n < 128) : (groupSlots n).1 = 4 * n ∧ (groupPair sh n).1 = mget sh.g n 0#32 := by
  rw [groupSlots, groupPair, if_pos h, if_pos h]
  exact ⟨rfl, rfl⟩

theorem groupSlots_rejoin (k : Nat) : groupSlots (128 + k) = (0x210 + 8 * k, 0x214 + 8 * k) := by
  rw [groupSlots, if_neg (by omega), Nat.add_sub_cancel_left]

theorem groupPair_rejoin (sh : Sheaf) (k : Nat) : groupPair sh (128 + k) = (jE sh k, jA sh k) := by
  rw [groupPair, if_neg (by omega), Nat.add_sub_cancel_left]

/-- The two words of a group block that a flush writes stand apart. -/
theorem groupSlots_apart (base : Nat) {n : Nat} (hn : n < 144) : (base + (groupSlots n).1) / 4 ≠ (base + (groupSlots n).2) / 4 := by
  unfold groupSlots
  split <;> dsimp only <;> omega

/-- The state in which a register's two words stand in the group block. -/
def groupFlushed (s : State) (b w img n : Nat) (sh : Sheaf) : State :=
  imgWord (imgWord s (groupAt s b img w + (groupSlots n).1) (groupPair sh n).1) (groupAt s b img w + (groupSlots n).2) (groupPair sh n).2

theorem memoryOnly_groupFlushed (s : State) (b w img n : Nat) (sh : Sheaf) : MemoryOnly s (groupFlushed s b w img n sh) :=
  (memoryOnly_imgWord ..).trans (memoryOnly_imgWord ..)

theorem imgRead_groupFlushed (s : State) (b w img : Nat) (sh : Sheaf) {n : Nat} (hn : n < 144) :
    imgRead (groupFlushed s b w img n sh) (groupAt s b img w + (groupSlots n).1) = (groupPair sh n).1 ∧
      imgRead (groupFlushed s b w img n sh) (groupAt s b img w + (groupSlots n).2) = (groupPair sh n).2 := by
  constructor
  · rw [groupFlushed, imgRead_imgWord, if_neg (groupSlots_apart _ hn), imgRead_imgWord, if_pos rfl]
  · rw [groupFlushed, imgRead_imgWord, if_pos rfl]

/-- What a flush leaves of the slot state in an image. -/
def slotFlushed (s : State) (b w img : Nat) (sh : Sheaf) : State :=
  saveSlot s b w img sh ((getCore s sh.place.core).token == some (b, w))

theorem flushGroup_register (s : State) (b w img : Nat) (sh : Sheaf) {n : Nat} (hn : n < 144) : flushGroup s b w img n sh =
    if heldInStop sh then modSheaf (groupFlushed s b w img n sh) b w (fun y =>
      { y with flushed := mset (mset y.flushed (2 * n) (groupPair sh n).1) (2 * n + 1) (groupPair sh n).2 })
    else groupFlushed s b w img n sh := by
  rw [flushGroup, if_pos hn]
  rfl

theorem flushGroup_slot (s : State) (b w img : Nat) (sh : Sheaf) {n : Nat} (hn : ¬n < 144) : flushGroup s b w img n sh =
    if heldInStop sh then modSheaf (slotFlushed s b w img sh) b w (fun y =>
      { y with flushed := slotOffsets.foldl (fun m o => mset m (4096 + o) (imgRead (slotFlushed s b w img sh) (slotAt img w + o))) y.flushed })
    else slotFlushed s b w img sh := by
  rw [flushGroup, if_neg hn]
  rfl

/-- A register flushed to the group block, and noted where the sheaf is stopped. -/
theorem flushGroup_holds (hs : getSheaf s b w = some sh) (img : Nat) {n : Nat} (hn : n < 144) :
    (flushGroup s b w img n sh).hostIf = s.hostIf ∧
      imgRead (flushGroup s b w img n sh) (groupAt s b img w + (groupSlots n).1) = (groupPair sh n).1 ∧
      imgRead (flushGroup s b w img n sh) (groupAt s b img w + (groupSlots n).2) = (groupPair sh n).2 ∧
      ∃ m, getSheaf (flushGroup s b w img n sh) b w = some { sh with flushed := m } ∧
        (heldInStop sh = true → mfind m (2 * n) = some (groupPair sh n).1 ∧ mfind m (2 * n + 1) = some (groupPair sh n).2) ∧
        (heldInStop sh = false → m = sh.flushed) := by
  have hm := memoryOnly_groupFlushed s b w img n sh
  have hget := (hm.getSheaf b w).trans hs
  obtain ⟨h1, h2⟩ := imgRead_groupFlushed s b w img sh hn
  rw [flushGroup_register s b w img sh hn]
  cases hh : heldInStop sh with
  | false => exact ⟨hm.hostIf, h1, h2, sh.flushed, hget, Bool.noConfusion, fun _ => rfl⟩
  | true =>
    simp only [if_true, modSheaf_hostIf, imgRead_modSheaf]
    refine ⟨hm.hostIf, h1, h2, _, getSheaf_modSheaf_self hget _, fun _ => ⟨?_, mfind_mset_self ..⟩, Bool.noConfusion⟩
    rw [mfind_mset_ne _ _ (by omega), mfind_mset_self]

/-- Every word of a slot state that is noted is listed. -/
theorem mfind_noted (f : Nat → Word) {l : List Nat} {o : Nat} (h : o ∈ l) (m : Map Word) :
    mfind (l.foldl (fun m o => mset m (4096 + o) (f o)) m) (4096 + o) ≠ none := by
  induction l using List.reverseRecOn with
  | nil => cases h
  | append_singleton l k ih =>
    rw [List.foldl_concat, mfind_mset]
    split
    · exact Option.some_ne_none _
    · exact ih ((List.mem_append.1 h).resolve_right fun hk => ‹¬4096 + o = 4096 + k› (by rw [List.mem_singleton.1 hk]))

theorem zero_mem_slotOffsets : 0 ∈ slotOffsets := by
  rw [slotOffsets, List.mem_map]
  exact ⟨0, mem_below.2 (by decide), rfl⟩

theorem flushGroup_slotHolds (hs : getSheaf s b w = some sh) (img : Nat) {n : Nat} (hn : ¬n < 144) :
    (flushGroup s b w img n sh).hostIf = s.hostIf ∧
      ∃ m, getSheaf (flushGroup s b w img n sh) b w = some { sh with flushed := m } ∧
        (heldInStop sh = true → mfind m 4096 ≠ none) ∧ (heldInStop sh = false → m = sh.flushed) := by
  have hm : MemoryOnly s (slotFlushed s b w img sh) := memoryOnly_saveSlot ..
  have hget := (hm.getSheaf b w).trans hs
  rw [flushGroup_slot s b w img sh hn]
  cases hh : heldInStop sh with
  | false => exact ⟨hm.hostIf, sh.flushed, hget, Bool.noConfusion, fun _ => rfl⟩
  | true =>
    simp only [if_true, modSheaf_hostIf]
    exact ⟨hm.hostIf, _, getSheaf_modSheaf_self hget _, fun _ => mfind_noted _ zero_mem_slotOffsets _, Bool.noConfusion⟩

/-- R366: a flush of a resident bed's register. -/
theorem debugFlush_resident (hb : getBed s b = some bd) (hs : getSheaf s b w = some sh) (hi : bd.image = some img)
    (hst : bd.stage = .resident) (p : Nat) :
    ∃ t sh', exec (.debugFlush b w p) s = .next t ∧ t.hostIf.out = s.hostIf.out ++ [(false, [])] ∧
      getSheaf t b w = some sh' ∧ KeepsThreads sh sh' ∧
      (p < 512 → p < sh.place.budget → (vreg sh' p).line = .absent) ∧
      (512 ≤ p → p < 640 → imgRead t (groupAt s b img w + 4 * (p - 512)) = mget sh.g (p - 512) 0#32) ∧
      (512 ≤ p → p < 640 → heldInStop sh = true → mfind sh'.flushed (2 * (p - 512)) = some (mget sh.g (p - 512) 0#32)) ∧
      (640 ≤ p → p < 656 → imgRead t (groupAt s b img w + 0x210 + 8 * (p - 640)) = jE sh (p - 640) ∧
        imgRead t (groupAt s b img w + 0x214 + 8 * (p - 640)) = jA sh (p - 640)) ∧
      (640 ≤ p → p < 656 → heldInStop sh = true → mfind sh'.flushed (2 * (p - 512)) = some (jE sh (p - 640)) ∧
        mfind sh'.flushed (2 * (p - 512) + 1) = some (jA sh (p - 640))) ∧
      (656 ≤ p → heldInStop sh = true → mfind sh'.flushed 4096 ≠ none) ∧
      (512 ≤ p → heldInStop sh = false → sh'.flushed = sh.flushed) := by
  rcases Nat.lt_or_ge p 512 with hp | hp
  · obtain ⟨t, sh', he, hout, hget, hk, hl⟩ := debugFlush_lane hb hs hi hst hp
    exact ⟨t, sh', he, hout, hget, hk, fun _ => hl, by omega, by omega, by omega, by omega, by omega, by omega⟩
  · have he := debugFlush_eq hb hs hi p
    rw [if_neg (not_not.2 hst), if_neg (by omega)] at he
    rcases Nat.lt_or_ge p 656 with hq | hq
    · obtain ⟨hhost, h1, h2, m, hget, hheld, hfree⟩ := flushGroup_holds hs img (n := p - 512) (by omega)
      refine ⟨_, _, he, by rw [answer_out, hhost], (getSheaf_answer ..).trans hget, keepsThreads_flushed .., by omega, fun _ hg => ?_, fun _ hg hh => ?_, fun hj _ => ?_,
        fun hj _ hh => ?_, by omega, fun _ => hfree⟩
      · obtain ⟨hslot, hpair⟩ := groupSlots_register sh (n := p - 512) (by omega)
        rw [imgRead_answer, ← hslot, h1, hpair]
      · rw [(hheld hh).1, (groupSlots_register sh (by omega)).2]
      all_goals
        obtain ⟨k, rfl⟩ : ∃ k, p = 640 + k := ⟨p - 640, by omega⟩
        have hn : 640 + k - 512 = 128 + k := by omega
        simp only [hn, groupPair_rejoin, groupSlots_rejoin, ← Nat.add_assoc] at h1 h2 hheld
        simp only [hn, Nat.add_sub_cancel_left, imgRead_answer]
      · exact ⟨h1, h2⟩
      · exact hheld hh
    · obtain ⟨hhost, m, hget, hheld, hfree⟩ := flushGroup_slotHolds hs img (n := p - 512) (by omega)
      exact ⟨_, _, he, by rw [answer_out, hhost], (getSheaf_answer ..).trans hget, keepsThreads_flushed .., by omega, by omega, by omega, by omega, by omega,
        fun _ => hheld, fun _ => hfree⟩

end Flush

/-! ## What is taken back -/

section Refill

variable {s : State} {b w : Nat} {sh : Sheaf}

theorem getSheaf_refillFlushed (hs : getSheaf s b w = some sh) :
    getSheaf (refillFlushed s b w) b w =
      some { (if (mfind sh.flushed 4096).isSome then
          takeSlot s b w (imageAt s b) (((below 144).filter (fun n => (mfind sh.flushed (2 * n)).isSome)).foldl
            (fun x n => takeGroup s b w (imageAt s b) n x) sh)
        else ((below 144).filter (fun n => (mfind sh.flushed (2 * n)).isSome)).foldl
          (fun x n => takeGroup s b w (imageAt s b) n x) sh) with flushed := [] } := by
  simp only [refillFlushed, hs]
  exact getSheaf_setSheaf_self hs _

/-- The names that a note of one register's two words holds. -/
theorem flushedNames {n : Nat} (hn : n < 144) (x y : Word) :
    (below 144).filter (fun k => (mfind [(2 * n, x), (2 * n + 1, y)] (2 * k)).isSome) = [n] := by
  have hname : ∀ k, (mfind [(2 * n, x), (2 * n + 1, y)] (2 * k)).isSome = (k == n) := fun k => by
    by_cases h : k = n
    · subst h; simp [mfind]
    · have h1 : ¬2 * n = 2 * k := by omega
      have h2 : ¬2 * n + 1 = 2 * k := by omega
      simp [mfind, h, h1, h2]
  simp only [hname]
  clear hname
  interval_cases n <;> rfl

/-- Where one register was flushed, it alone is taken back. -/
theorem refill_one {n : Nat} (hn : n < 144) {x y : Word} (hf : sh.flushed = [(2 * n, x), (2 * n + 1, y)]) (hs : getSheaf s b w = some sh) :
    getSheaf (refillFlushed s b w) b w = some { takeGroup s b w (imageAt s b) n sh with flushed := [] } := by
  have hslot : mfind [(2 * n, x), (2 * n + 1, y)] 4096 = none := by
    have h1 : ¬2 * n = 4096 := by omega
    have h2 : ¬2 * n + 1 = 4096 := by omega
    simp only [mfind, if_neg h1, if_neg h2]
  rw [getSheaf_refillFlushed hs, hf, flushedNames hn, hslot]
  rfl

/-- What a note holds of a register's two words. -/
theorem mget_noted (n : Nat) (x y : Word) :
    mget [(2 * n, x), (2 * n + 1, y)] (2 * n) 0#32 = x ∧ mget [(2 * n, x), (2 * n + 1, y)] (2 * n + 1) 0#32 = y := by
  constructor <;> simp [mget]

/-- A group register that the debugger changed is taken, and no other. -/
theorem refill_group {n : Nat} (h1 : 1 ≤ n) (hn : n < 128) {old q : Word} (hf : sh.flushed = [(2 * n, old), (2 * n + 1, q)])
    (hs : getSheaf s b w = some sh) : let now := imgRead s (groupAt s b (imageAt s b) w + 4 * n)
    ∃ sh', getSheaf (refillFlushed s b w) b w = some sh' ∧ sh'.flushed = [] ∧ sh' = { sh with g := sh'.g, gp := sh'.gp, flushed := [] } ∧
      (now = old → sh'.g = sh.g) ∧ (now ≠ old → mget sh'.g n 0#32 = now) ∧ ∀ k, k ≠ n → mget sh'.g k 0#32 = mget sh.g k 0#32 := by
  intro now
  have hg : (takeGroup s b w (imageAt s b) n sh).g = if now = old then sh.g else mput sh.g n now 0#32 := by
    simp only [takeGroup, if_pos hn, hf, (mget_noted n old q).1, (groupSlots_register sh hn).1, Nat.one_le_iff_ne_zero.1 h1, or_false]
    rfl
  refine ⟨_, refill_one (by omega) hf hs, rfl, ?_, fun h => ?_, fun h => ?_, fun k hk => ?_⟩
  · simp only [takeGroup, if_pos hn]
  · exact hg.trans (if_pos h)
  · dsimp only
    rw [hg, if_neg h, mget_mput_self]
  · dsimp only
    rw [hg]
    split
    · rfl
    · exact mget_mput_ne _ _ _ hk

/-- A rejoin register takes the words that the debugger changed. -/
theorem refill_rejoin {k : Nat} (hk : k < 16) {e a : Word} (hf : sh.flushed = [(2 * (128 + k), e), (2 * (128 + k) + 1, a)])
    (hs : getSheaf s b w = some sh) : let at_ := groupAt s b (imageAt s b) w + 0x210 + 8 * k
    ∃ sh', getSheaf (refillFlushed s b w) b w = some sh' ∧ sh' = { sh with je := sh'.je, ja := sh'.ja, flushed := [] } ∧
      jE sh' k = (if imgRead s at_ = e then jE sh k else imgRead s at_) ∧
      jA sh' k = (if imgRead s (at_ + 4) = a then jA sh k else imgRead s (at_ + 4)) ∧
      ∀ n, n ≠ k → jE sh' n = jE sh n ∧ jA sh' n = jA sh n := by
  intro at_
  obtain ⟨he, ha⟩ := mget_noted (128 + k) e a
  have h1 : groupAt s b (imageAt s b) w + (0x210 + 8 * k) = at_ := (Nat.add_assoc ..).symm
  have h2 : groupAt s b (imageAt s b) w + (0x214 + 8 * k) = at_ + 4 := by omega
  have ht : takeGroup s b w (imageAt s b) (128 + k) sh = setJ sh k (if imgRead s at_ = e then jE sh k else imgRead s at_)
      (if imgRead s (at_ + 4) = a then jA sh k else imgRead s (at_ + 4)) := by
    rw [takeGroup, if_neg (by omega), groupSlots_rejoin, hf, he, ha, Nat.add_sub_cancel_left]
    simp only [h1, h2]
  refine ⟨_, refill_one (by omega) hf hs, ?_⟩
  rw [ht]
  generalize (if imgRead s at_ = e then jE sh k else imgRead s at_) = x
  generalize (if imgRead s (at_ + 4) = a then jA sh k else imgRead s (at_ + 4)) = y
  exact ⟨rfl, (jE_setJ sh k k x y).trans (if_pos rfl), (jA_setJ sh k k x y).trans (if_pos rfl),
    fun n hn => ⟨(jE_setJ sh k n x y).trans (if_neg hn), (jA_setJ sh k n x y).trans (if_neg hn)⟩⟩

end Refill

/-! ## The release -/

section Release

variable {s : State} {b w : Nat} {sh : Sheaf}

/-- A sheaf that no debugger stops and no other sheaf's STOPBED holds. -/
def freed (sh : Sheaf) : Sheaf := { sh with stopM := 0#32, bedStop := false }

theorem getSheaf_releaseSheaf {whole : Bool} (hs : getSheaf s b w = some sh) (hst : sh.stepping = none)
    (hw : whole = false → sh.bedStop = false) : getSheaf (releaseSheaf whole b s w) b w = some (freed sh) := by
  have hstop : (sh.bedStop && !whole) = false := by
    cases whole with
    | false => simp [hw rfl]
    | true => simp
  have hm : (if sh.stepping.isSome then sh.stopM else 0#32) = 0#32 := by rw [hst]; rfl
  rw [releaseSheaf, getSheaf_modSheaf_self hs, hm, hstop]
  rfl

theorem getSheaf_releaseSheaf_ne {whole : Bool} {k : Nat} (hk : k ≠ w) : getSheaf (releaseSheaf whole b s k) b w = getSheaf s b w :=
  getSheaf_modSheaf_ne _ fun h => hk (Prod.ext_iff.1 h).2.symm

/-- Every sheaf of a list is released, each as often as it is named. -/
theorem getSheaf_releaseAll (ws : List Nat) (hs : getSheaf s b w = some sh) (hst : sh.stepping = none) :
    getSheaf (ws.foldl (releaseSheaf true b) s) b w = some (if w ∈ ws then freed sh else sh) := by
  induction ws using List.reverseRecOn with
  | nil => simp [hs]
  | append_singleton ws k ih =>
    rw [List.foldl_concat]
    by_cases hk : k = w
    · subst hk
      have hst' : (if k ∈ ws then freed sh else sh).stepping = none := by split <;> exact hst
      rw [getSheaf_releaseSheaf ih hst' Bool.noConfusion, if_pos (List.mem_append_right _ (List.mem_singleton_self k))]
      split <;> rfl
    · rw [getSheaf_releaseSheaf_ne hk, ih]
      simp [Ne.symm hk]

/-- R364: a released sheaf of the bed. -/
theorem debuggerRelease_frees {bd : Bed} {whole : Bool} (hb : getBed s b = some bd) (hs : getSheaf s b w = some sh)
    (hst : sh.stepping = none) (hw : whole = false → sh.bedStop = false) :
    ∃ t, exec (.debuggerRelease b (if whole then none else some w)) s = .next t ∧ getSheaf t b w = some (freed sh) := by
  have hmem : mfind bd.sheaves w = some sh := by simpa [getSheaf, hb] using hs
  cases whole with
  | false =>
    refine ⟨_, ?_, getSheaf_releaseSheaf hs hst hw⟩
    simp [execDebuggerRelease, hb]
  | true =>
    have hs' : getSheaf (modBed s b (fun x => { x with stopper := none })) b w = some sh := by
      simpa [getSheaf, getBed_modBed, hb] using hmem
    refine ⟨_, ?_, (getSheaf_releaseAll (bd.sheaves.map (fun w => w.1)) hs' hst).trans ?_⟩
    · simp [execDebuggerRelease, hb]
    · rw [if_pos (List.mem_map.2 ⟨_, mem_of_mfind hmem, rfl⟩)]

theorem heldInStop_freed (sh : Sheaf) : heldInStop (freed sh) = false := by simp [heldInStop, freed]

/-- What the debugger wrote is taken before anything else of a sheaf that no stop holds. -/
theorem readyOf_refill (t : State) (b w : Nat) {sh : Sheaf} (hf : sh.flushed ≠ []) (hh : heldInStop sh = false) :
    readyOf t b w sh = some .refill := by
  rw [readyOf, if_pos (by simp [hf, hh])]

/-- Then the oldest pending record is delivered. -/
theorem readyOf_deliver (t : State) (b w : Nat) {sh : Sheaf} (hf : sh.flushed = []) (hn : sh.handler = false) (hp : sh.pend ≠ [])
    (hr : runMask sh ≠ 0#32) : readyOf t b w sh = some .deliver := by
  rw [readyOf, if_neg (by simp [hf]), if_neg (by simp [hasRunnable, hn, hr]), if_pos (by simp [hn, hp])]

end Release

/-! ## The delivery of a pending record -/

section Deliver

variable {s : State} {b w : Nat} {sh : Sheaf}

/-- A sheaf as it was but for its pending results. -/
def LongOnly (s : State) (b w : Nat) (sh : Sheaf) : Prop := ∃ l, getSheaf s b w = some { sh with long := l }

/-- The end of replays forms results of some sheaf and changes nothing else of any. -/
theorem longOnly_endReplays (h : LongOnly s b w sh) (b' w' core : Nat) : LongOnly (endReplays s b' w' core) b w sh := by
  obtain ⟨l, hl⟩ := h
  unfold endReplays
  dsimp only
  split
  · exact ⟨l, hl⟩
  · by_cases hbw : b = b' ∧ w = w'
    · obtain ⟨rfl, rfl⟩ := hbw
      exact ⟨_, getSheaf_modSheaf_self hl _⟩
    · exact ⟨l, (getSheaf_modSheaf ..).trans ((if_neg hbw).trans hl)⟩

theorem longOnly_freezeFor (h : LongOnly s b w sh) (b' core : Nat) : LongOnly (freezeFor s b' core) b w sh := by
  unfold freezeFor
  split
  · rw [LongOnly, getSheaf_modCore]
    unfold endBedReplays
    split
    · exact foldl_keeps (P := fun s => LongOnly s b w sh) _ (fun _ _ h => longOnly_endReplays h ..) _ h
    · exact h
  · exact h

/-- A stop of a bed's other sheaves leaves the sheaf that asks for it (R364). -/
theorem getSheaf_stopAsked (s : State) (b w : Nat) (sh : Sheaf) (r : TrapRec) : getSheaf (stopAsked s b w sh r) b w = getSheaf s b w := by
  unfold stopAsked
  split
  · rw [getSheaf, stopBed, getBed_modBed, if_pos rfl, getSheaf]
    cases getBed s b with
    | none => rfl
    | some bd =>
      have hm : bd.sheaves.map (fun x => if x.1 = w then x else (x.1, { x.2 with bedStop := true })) =
          bd.sheaves.map (fun x => (x.1, if x.1 = w then x.2 else { x.2 with bedStop := true })) :=
        List.map_congr_left fun x _ => by split <;> rfl
      dsimp only [Option.map_some]
      rw [hm, mfind_map bd.sheaves (fun k x => if k = w then x else { x with bedStop := true })]
      simp
  · rfl

/-- A sheaf whose handler starts with a record that was pending. -/
def delivered (s : State) (sh : Sheaf) (r : TrapRec) (rest : List TrapRec) : Sheaf :=
  { endAllSpans sh with handler := true, pend := rest, hpc := 0#64, himg := activeImage s 5, record := r }

/-- The oldest pending record becomes the current one; results that were to be formed again are formed. -/
theorem deliverPending_delivers {r : TrapRec} {rest : List TrapRec} (hs : getSheaf s b w = some sh) (hn : sh.handler = false)
    (hp : sh.pend = r :: rest) : LongOnly (deliverPending s b w) b w (delivered s sh r rest) := by
  have hput : LongOnly (setSheaf s b w (delivered s sh r rest)) b w (delivered s sh r rest) := ⟨_, getSheaf_setSheaf_self hs _⟩
  have he : deliverPending s b w = stopAsked (freezeFor (setSheaf s b w (delivered s sh r rest)) b sh.place.core) b w sh r := by
    simp only [deliverPending, hs, hn, hp]
    rfl
  rw [he, LongOnly, getSheaf_stopAsked]
  exact longOnly_freezeFor hput ..

end Deliver

/-- R364 and R366. -/
theorem debugging : Debugging := by
  refine ⟨fun b w p s bd sh img hb hs hi => ⟨fun hst => ?_, fun hst => debugFlush_resident hb hs hi hst p⟩,
    fun b w n s sh old q hs hf h1 hn => refill_group h1 hn hf hs, fun b w k s sh e a hs hk hf => refill_rejoin hk hf hs,
    fun b w s hb => ⟨?_, ?_⟩, fun b w s bd sh whole hb hs hst hw => ?_, fun b w s sh r rest hs hn hp => ?_⟩
  · rw [debugFlush_eq hb hs hi, if_pos hst]
  · simp only [exec_debugFlush, execDebugFlush, hb]
  · simp only [exec_debuggerRelease, execDebuggerRelease, hb]
  · obtain ⟨t, he, hget⟩ := debuggerRelease_frees hb hs hst hw
    exact ⟨t, freed sh, he, hget, rfl, fun hf => readyOf_refill t b w hf (heldInStop_freed sh),
      fun hf hn hp hr => readyOf_deliver t b w hf hn hp hr⟩
  · obtain ⟨l, hget⟩ := deliverPending_delivers hs hn hp
    exact ⟨_, hget, rfl, rfl, rfl, rfl, rfl, ⟨rfl, rfl, rfl, rfl⟩, ⟨rfl, rfl⟩, rfl, rfl, rfl⟩

/-- Settles O48: fills, the states of lines, and the debugger. -/
theorem linesAndDebugger : Obligations.LinesAndDebugger := ⟨filledLine, registerLines, debugging⟩

end Sys2Proof.Proofs
end

section
/-! PROOFS. The non-finite conditions of floating instructions, and the trap where an enabled one is met (R67, R78, R79, R218 to R225). -/

namespace Sys2Proof.Proofs

open Sys2Proof Sys2Proof.Machine Sys2Proof.Claim

/-! ## Codes of a format with infinities -/

/-- R66 for a format whose top exponent holds infinities and NaNs. -/
theorem fdec_ieee {f : Fmt} (h : f.special = .ieee) (x : Nat) :
    fdec f x =
      if f.maxCode < x % f.signBit then
        (if x % f.signBit = f.infCode then .inf (decide (x / f.signBit % 2 = 1)) else .nan)
      else if x % f.signBit / 2 ^ f.man = 0 then .fin (decide (x / f.signBit % 2 = 1)) (x % f.signBit % 2 ^ f.man) f.emin
      else .fin (decide (x / f.signBit % 2 = 1)) (2 ^ f.man + x % f.signBit % 2 ^ f.man)
        (f.emin + ((x % f.signBit / 2 ^ f.man : Nat) : Int) - 1) := by
  by_cases hm : f.maxCode < x % f.signBit <;> simp only [fdec, h, hm, decide_true, decide_false, if_true, if_false]

/-- Above the largest finite code there are only the infinities and the NaNs (R67). -/
theorem badCode_ieee {f : Fmt} (h : f.special = .ieee) (x : Nat) : badCode f x = decide (f.maxCode < x % f.signBit) := by
  rw [badCode, fdec_ieee h]
  by_cases hm : f.maxCode < x % f.signBit
  · simp only [hm, if_true, decide_true]
    split <;> rfl
  · simp only [hm, if_false, decide_false]
    split <;> rfl

theorem signBit_fp32 : fp32.signBit = 2147483648 := rfl

theorem infCode_fp32 : fp32.infCode = 2139095040 := rfl

theorem maxCode_fp32 : fp32.maxCode = 2139095039 := rfl

/-- An FP32 code is NaN or infinite where its exponent field is all ones. -/
theorem badCode_fp32 (x : Word) : badCode fp32 x.toNat = nonFinite x := by
  rw [badCode_ieee rfl, nonFinite, maxCode_fp32, signBit_fp32, beq_eq_decide]
  exact decide_eq_decide.2 (by omega)

/-! ## Conditions met -/

theorem maskOf_congr {p q : Nat → Bool} (h : ∀ i, i < 32 → p i = q i) : maskOf p = maskOf q :=
  mask_ext fun i hi => by rw [bit_maskOf _ hi, bit_maskOf _ hi, h i hi]

theorem bit_activeMask (m : Mask) (p : Nat → Bool) {i : Nat} (hi : i < 32) : bit (activeMask m p) i = (bit m i && p i) :=
  bit_maskOf _ hi

/-- Some active lane meets a condition where the mask of those that do is not zero. -/
theorem activeMask_bne_zero (m : Mask) (p : Nat → Bool) : (activeMask m p != 0#32) = someLane m p := by
  rw [Bool.eq_iff_iff, bne_iff_ne]
  simp only [someLane, List.any_eq_true, List.mem_range]
  constructor
  · intro h
    by_contra hn
    refine h (mask_ext fun i hi => ?_)
    rw [bit_activeMask _ _ hi, bit_zero, Bool.eq_false_iff]
    exact fun hb => hn ⟨i, hi, hb⟩
  · rintro ⟨i, hi, hb⟩ h0
    rw [← bit_activeMask m p hi, h0, bit_zero] at hb
    cases hb

/-- The enables and the masks of R79 decide a trap. -/
theorem nfTraps_iff (sh : Sheaf) (n : NfMasks) : nfTraps sh n = true ↔ ¬NoTrap sh (n.inp != 0#32) (n.out != 0#32) := by
  unfold nfTraps NoTrap
  rw [Bool.or_eq_true, Bool.and_eq_true, Bool.and_eq_true]
  tauto

section Traps

variable {s : State} {c : Cur} {sh : Sheaf}

theorem testedDone_trap {n : NfMasks} (h : ¬NoTrap (src c sh) (n.inp != 0#32) (n.out != 0#32)) (after : Sheaf) :
    testedDone s c sh n after = trap s c sh (nfLate n.inp n.out) := by
  rw [testedDone, if_pos ((nfTraps_iff _ _).2 h)]
  rfl

/-- On lanes the trap names the active lanes that meet each condition. -/
theorem testedDone_lanes {m : Mask} {test : Nat → Bool × Bool} {inp out : Nat → Bool} (ht : ∀ i, i < 32 → test i = (inp i, out i))
    (h : ¬NoTrap (src c sh) (someLane m inp) (someLane m out)) (after : Sheaf) :
    testedDone s c sh (nfOf m test) after = trap s c sh (nfLate (activeMask m inp) (activeMask m out)) := by
  have he : nfOf m test = { inp := activeMask m inp, out := activeMask m out } := by
    have h1 : maskOf (fun i => bit m i && (test i).1) = activeMask m inp := maskOf_congr fun i hi => by rw [ht i hi]
    have h2 : maskOf (fun i => bit m i && (test i).2) = activeMask m out := maskOf_congr fun i hi => by rw [ht i hi]
    rw [nfOf, h1, h2]
  rw [he]
  rw [← activeMask_bne_zero, ← activeMask_bne_zero] at h
  exact testedDone_trap h after

/-- In group scope it names every thread that runs (R218). -/
theorem testedDone_group (ha : Active c sh) {inp out : Bool} (h : ¬NoTrap (src c sh) inp out) (after : Sheaf) :
    testedDone s c sh (nfGroup (exm c sh) (inp, out)) after =
      trap s c sh (nfLate (if inp then exm c sh else 0#32) (if out then exm c sh else 0#32)) := by
  have hb : ∀ b : Bool, ((if b then exm c sh else 0#32) != 0#32) = b
    | true => bne_iff_ne.2 ha
    | false => rfl
  refine testedDone_trap (n := nfGroup (exm c sh) (inp, out)) ?_ after
  simp only [nfGroup, hb]
  exact h

/-! ## FALU and HALU -/

/-- A tested function on lanes has the results and the conditions of its elements (R221, R225). -/
theorem exec_tested (hi : Issues s c sh) (f : Tested) (d a b : BitVec 7) :
    exec (f.instr d a b) s = testedLane s d a b f.readsD f.result (fun x y z => (f.inp x y z, f.out x y z)) := by
  have he := onEngine_issues hi
  have hf : ∀ op : FOp, faluReg op .lane d a b s = testedLane s d a b op.readsD (fop32 op) (fop32Test op) := fun op => by
    simp only [faluReg, he]
  cases f with
  | fadd | fsub | fmul | ffma | ffms | fmin | fmax => exact hf _
  | hadd2 | hsub2 | hmul2 | hfma2 | hmin2 | hmax2 | badd2 | bmul2 | bfma2 => rfl

/-- A tested function of FALU in group scope. -/
theorem exec_faluGroup (hi : Issues s c sh) (op : FOp) (d a b : BitVec 7) :
    exec (faluGroup op d a b) s = testedGroup s d a b op.readsD (fop32 op) (fop32Test op) := by
  have hf : faluReg op .group d a b s = testedGroup s d a b op.readsD (fop32 op) (fop32Test op) := by
    simp only [faluReg, onEngine_issues hi]
  cases op <;> exact hf

theorem tested_trap (hi : Issues s c sh) (ha : Active c sh) (f : Tested) {d a b : BitVec 7} (hb : InBudget c sh [rn d, rn a, rn b])
    {inp out : Nat → Bool} (hin : inp = fun i => f.inp (rdV s c sh i (rn a)) (rdV s c sh i (rn b)) (rdV s c sh i (rn d)))
    (hout : out = fun i => f.out (rdV s c sh i (rn a)) (rdV s c sh i (rn b)) (rdV s c sh i (rn d)))
    (h : ¬NoTrap (src c sh) (someLane (exm c sh) inp) (someLane (exm c sh) out)) :
    exec (f.instr d a b) s = trap s c sh (nfLate (activeMask (exm c sh) inp) (activeMask (exm c sh) out)) := by
  rw [exec_tested hi, testedLane, laneOp_issues hi ha hb]
  refine testedDone_lanes (fun i hlt => ?_) h _
  simp only [formLane_rdForm _ _ _ _ hlt, hin, hout]

theorem faluGroup_trap (hi : Issues s c sh) (ha : Active c sh) (op : FOp) (d a b : BitVec 7) {p q r : Nat}
    (hp : p = (rdG s c sh (rn a)).toNat) (hq : q = (rdG s c sh (rn b)).toNat) (hr : r = (rdG s c sh (rn d)).toNat)
    (h : ¬NoTrap (src c sh) (badIn fp32 op.readsD p q r) (badOut fp32 op p q r)) :
    exec (faluGroup op d a b) s =
      trap s c sh (nfLate (if badIn fp32 op.readsD p q r then exm c sh else 0#32) (if badOut fp32 op p q r then exm c sh else 0#32)) := by
  subst hp hq hr
  rw [exec_faluGroup hi, testedGroup, groupOp_issues hi ha]
  exact testedDone_group ha h _

/-! ## FCMP -/

/-- FCMP tests NF-IN alone (R223). -/
theorem noTrap_of_nfin {sh : Sheaf} (h : sh.nfin = true) (out : Bool) : ¬NoTrap sh true out := fun hn => hn.1 ⟨h, rfl⟩

theorem activeMask_false (m : Mask) : activeMask m (fun _ => false) = 0#32 :=
  mask_ext fun i hi => by rw [bit_activeMask _ _ hi, Bool.and_false, bit_zero]

theorem fcmp_trap_lanes (hi : Issues s c sh) (ha : Active c sh) {d a b : BitVec 7} (k : BitVec 4) (hb : InBudget c sh [rn a, rn b])
    {bad : Nat → Bool} (hbad : bad = fun i => nonFinite (rdV s c sh i (rn a)) || nonFinite (rdV s c sh i (rn b)))
    (hn : (src c sh).nfin = true) (h : someLane (exm c sh) bad = true) :
    exec (.fcmp .lane d a b k) s = trap s c sh (nfLate (activeMask (exm c sh) bad) 0#32) := by
  rw [exec_fcmp, execFcmp, laneOp_issues hi ha hb, ← activeMask_false (exm c sh)]
  refine testedDone_lanes (fun i _ => ?_) (h ▸ noTrap_of_nfin hn _) _
  simp only [badCode_fp32, hbad]

theorem fcmp_trap_group (hi : Issues s c sh) (ha : Active c sh) {d a b : BitVec 7} (k : BitVec 4) (hn : (src c sh).nfin = true)
    (h : (nonFinite (rdG s c sh (rn a)) || nonFinite (rdG s c sh (rn b))) = true) :
    exec (.fcmp .group d a b k) s = trap s c sh (nfLate (exm c sh) 0#32) := by
  rw [exec_fcmp, execFcmp, groupOp_issues hi ha]
  simp only [badCode_fp32, h]
  exact testedDone_group ha (noTrap_of_nfin hn _) _

/-! ## CVT -/

/-- A source other than FP64 does not look at the second register of a pair (R43, R224). -/
theorem cvtOne_eq_convert (t u : BitVec 4) (r : BitVec 2) (x : BitVec 1) (lo hi : Word) :
    cvtOne t u r x lo (if u = 12#4 then hi else 0#32) = convert t u r x lo hi := by
  unfold cvtOne convert cvtIn
  split <;> rfl

theorem cvt_trap_lanes (hi : Issues s c sh) (ha : Active c sh) {d a : BitVec 7} {t u : BitVec 4} (r : BitVec 2) (x : BitVec 1)
    (hb : InBudget c sh (pairOf d t ++ pairOf a u)) {v : Nat → CvtResult}
    (hv : v = fun i => convert t u r x (rdV s c sh i (rn a)) (rdV s c sh i (rn a + 1)))
    (h : ¬NoTrap (src c sh) (someLane (exm c sh) (fun i => (v i).nfin)) (someLane (exm c sh) (fun i => (v i).nfout))) :
    exec (.cvt .lane d a t u r x) s =
      trap s c sh (nfLate (activeMask (exm c sh) (fun i => (v i).nfin)) (activeMask (exm c sh) (fun i => (v i).nfout))) := by
  have hl : exec (.cvt .lane d a t u r x) s = cvtLane d a t u r x s := by simp only [exec_cvt, execCvt, onEngine_issues hi]
  have hp : ∀ i, i < 32 → formLane (if u = 12#4 then rdForm s c sh (rn a + 1) else .u 0#32) i =
      if u = 12#4 then rdV s c sh i (rn a + 1) else 0#32 := fun i hlt => by
    split
    · exact formLane_rdForm _ _ _ _ hlt
    · rfl
  rw [hl, cvtLane]
  refine (laneOp_issues hi ha hb _).trans (testedDone_lanes (fun i hlt => ?_) h _)
  simp only [formLane_rdForm _ _ _ _ hlt, hp i hlt, cvtOne_eq_convert, hv]

theorem cvt_trap_group (hi : Issues s c sh) (ha : Active c sh) (d a : BitVec 7) (t u : BitVec 4) (r : BitVec 2) (x : BitVec 1)
    {v : CvtResult} (hv : v = convert t u r x (rdG s c sh (rn a)) (rdG s c sh (rn a + 1))) (h : ¬NoTrap (src c sh) v.nfin v.nfout) :
    exec (.cvt .group d a t u r x) s =
      trap s c sh (nfLate (if v.nfin then exm c sh else 0#32) (if v.nfout then exm c sh else 0#32)) := by
  subst hv
  have hg : exec (.cvt .group d a t u r x) s = cvtGroup d a t u r x s := by simp only [exec_cvt, execCvt, onEngine_issues hi]
  rw [hg, cvtGroup, groupOp_issues hi ha]
  exact testedDone_group ha h _

end Traps

/-- R79 and R220. -/
theorem floatTraps : FloatTraps := by
  intro f op k tc uc rm e d a b s c sh hi ha
  exact ⟨fun hb => tested_trap hi ha f hb rfl rfl, faluGroup_trap hi ha op d a b rfl rfl rfl, fun hb => fcmp_trap_lanes hi ha k hb rfl,
    fcmp_trap_group hi ha k, fun hb => cvt_trap_lanes hi ha rm e hb rfl, cvt_trap_group hi ha d a tc uc rm e rfl⟩

end Sys2Proof.Proofs
end

section
/-! PROOFS. The FALU functions of a value's bits, which test nothing (R221, R222). -/

namespace Sys2Proof.Proofs

open Sys2Proof Sys2Proof.Machine Sys2Proof.Claim

/-! ## The bits -/

/-- What the model computes of the bits of a and b. -/
def bitsOf : BitForm → Word → Word → Word
  | .fabs, x, _ => x &&& 0x7FFFFFFF#32
  | .fneg, x, _ => x ^^^ 0x80000000#32
  | .fcpys, x, y => (x &&& 0x7FFFFFFF#32) ||| (y &&& 0x80000000#32)
  | .fclass, x, _ => classWord x

theorem fabs_bits (x : Word) : x &&& 0x7FFFFFFF#32 = BitVec.ofNat 32 (x.toNat % 2 ^ 31) := by
  refine BitVec.eq_of_toNat_eq ?_
  have h : (x &&& 0x7FFFFFFF#32).toNat = x.toNat % 2 ^ 31 := Nat.and_two_pow_sub_one_eq_mod x.toNat 31
  rw [h, BitVec.toNat_ofNat]
  omega

theorem sign_bits (y : Word) : y &&& 0x80000000#32 = BitVec.ofNat 32 (y.toNat / 2 ^ 31 * 2 ^ 31) := by
  refine BitVec.eq_of_toNat_eq ?_
  have h : (y &&& 0x80000000#32).toNat = (y.toNat.testBit 31).toNat * 2 ^ 31 := Nat.and_two_pow y.toNat 31
  rw [h, Nat.toNat_testBit, BitVec.toNat_ofNat]
  omega

/-- Bit 31 has no bit above it for a carry, so that a sum there is the other sign. -/
theorem fneg_bits (x : Word) : x ^^^ 0x80000000#32 = x + 0x80000000#32 := by
  have hb : ∀ n < 2, n ^^^ 1 = 1 - n := by decide
  have hs : (x ^^^ 0x80000000#32).toNat / 2 ^ 31 = x.toNat / 2 ^ 31 ^^^ 1 := Nat.xor_div_two_pow
  have hm : (x ^^^ 0x80000000#32).toNat % 2 ^ 31 = x.toNat % 2 ^ 31 ^^^ 0 := Nat.xor_mod_two_pow
  have ha : (x + 0x80000000#32).toNat = (x.toNat + 2 ^ 31) % 2 ^ 32 := BitVec.toNat_add ..
  rw [hb _ (by omega)] at hs
  rw [Nat.xor_zero] at hm
  exact BitVec.eq_of_toNat_eq (by omega)

theorem fcpys_bits (x y : Word) :
    (x &&& 0x7FFFFFFF#32) ||| (y &&& 0x80000000#32) = BitVec.ofNat 32 (x.toNat % 2 ^ 31 + y.toNat / 2 ^ 31 * 2 ^ 31) := by
  have h0 : (x &&& 0x7FFFFFFF#32) &&& (y &&& 0x80000000#32) = 0#32 := by
    rw [BitVec.and_assoc, BitVec.and_comm y, ← BitVec.and_assoc 0x7FFFFFFF#32]
    simp
  rw [← BitVec.add_eq_or_of_and_eq_zero _ _ h0, fabs_bits, sign_bits, BitVec.ofNat_add]

/-- What an FP32 word stands for, by its sign, exponent and fraction fields (R66). -/
theorem fdec_fp32 (x : Word) :
    fdec fp32 x.toNat =
      if x.toNat / 2 ^ 23 % 256 = 255 then (if x.toNat % 2 ^ 23 = 0 then .inf (decide (x.toNat / 2 ^ 31 = 1)) else .nan)
      else if x.toNat / 2 ^ 23 % 256 = 0 then .fin (decide (x.toNat / 2 ^ 31 = 1)) (x.toNat % 2 ^ 23) fp32.emin
      else .fin (decide (x.toNat / 2 ^ 31 = 1)) (2 ^ 23 + x.toNat % 2 ^ 23) (fp32.emin + ((x.toNat / 2 ^ 23 % 256 : Nat) : Int) - 1) := by
  have hx := x.isLt
  have hs : x.toNat / 2 ^ 31 % 2 = x.toNat / 2 ^ 31 := by omega
  have he : x.toNat % 2 ^ 31 / 2 ^ 23 = x.toNat / 2 ^ 23 % 256 := by omega
  have hf : x.toNat % 2 ^ 31 % 2 ^ 23 = x.toNat % 2 ^ 23 := by omega
  have ht : 2139095039 < x.toNat % 2 ^ 31 ↔ x.toNat / 2 ^ 23 % 256 = 255 := by omega
  rw [fdec_ieee rfl, show fp32.signBit = 2 ^ 31 from rfl, show fp32.man = 23 from rfl, maxCode_fp32, infCode_fp32, hs, he, hf]
  refine ite_congr (propext ht) (fun h => if_congr ?_ rfl rfl) fun _ => rfl
  omega

/-- The class of an FP32 value by its fields (Table 9.3). -/
theorem classWord_eq (x : Word) : classWord x = BitVec.ofNat 32 (classBits x) := by
  unfold classWord classBits
  rw [fdec_fp32]
  generalize x.toNat / 2 ^ 31 = g, x.toNat / 2 ^ 23 % 256 = e, x.toNat % 2 ^ 23 = r
  by_cases h255 : e = 255
  · by_cases hr : r = 0 <;> by_cases hg : g = 1 <;> simp [h255, hr, hg]
  by_cases h0 : e = 0
  · by_cases hr : r = 0 <;> by_cases hg : g = 1 <;> simp [h0, hr, hg]
  · by_cases hg : g = 1 <;> simp [h255, h0, hg]

theorem bitsOf_eq (f : BitForm) (x y : Word) : bitsOf f x y = f.result x y := by
  cases f with
  | fabs => exact fabs_bits x
  | fneg => exact fneg_bits x
  | fcpys => exact fcpys_bits x y
  | fclass => exact classWord_eq x

/-! ## The instructions -/

theorem formLane_mapForm (f : Word → Word → Word → Word) (fa fb fd : Form) {i : Nat} (hi : i < 32) :
    formLane (mapForm f fa fb fd) i = f (formLane fa i) (formLane fb i) (formLane fd i) := by
  unfold mapForm
  split
  · rfl
  · exact formLane_each _ hi

theorem exec_bitForm (f : BitForm) (sc : Scope) (d a b : BitVec 7) (s : State) :
    exec (f.instr sc d a b) s = faluBits (bitsOf f) sc d a (f.second a b) s := by
  cases f <;> rfl

section Bits

variable {s : State} {c : Cur} {sh : Sheaf}

theorem faluBits_lanes (hi : Issues s c sh) (ha : Active c sh) (g : Word → Word → Word) {d a b : BitVec 7}
    (hb : InBudget c sh [rn d, rn a, rn b]) :
    ∃ sh' t, faluBits g .lane d a b s = .next t ∧ MovesOn s t c sh' ∧ LaneFrame (exm c sh) [rn d] sh sh' ∧
      LanesHold (exm c sh) sh' (rn d) (fun i => g (rdV s c sh i (rn a)) (rdV s c sh i (rn b)))
        (fun i => rdVP s c sh i (rn a) || rdVP s c sh i (rn b)) := by
  have he : faluBits g .lane d a b s =
      done s c (writeLanes sh (rn d) (exm c sh)
        (mapForm (fun x y _ => g x y) (rdForm s c sh (rn a)) (rdForm s c sh (rn b)) (rdForm s c sh (rn a)))
        (poisonOf s c sh [rn a, rn b])) := by
    simp only [faluBits, onEngine_issues hi, laneForm3, laneOp_issues hi ha hb]
    rfl
  refine ⟨_, _, he, movesOn_done .., laneFrame_writeLanes ..,
    lanesHold_writeLanes _ _ _ _ _ _ _ (fun i hlt _ => ?_) (fun i hlt _ => ?_)⟩
  · rw [formLane_mapForm _ _ _ _ hlt, formLane_rdForm _ _ _ _ hlt, formLane_rdForm _ _ _ _ hlt]
  · simp [bit_poisonOf _ _ _ _ hlt]

theorem faluBits_group (hi : Issues s c sh) (ha : Active c sh) (g : Word → Word → Word) (d a b : BitVec 7) :
    ∃ sh' t, faluBits g .group d a b s = .next t ∧ MovesOn s t c sh' ∧ GroupFrame [rn d] sh sh' ∧
      GroupHolds sh' (rn d) (g (rdG s c sh (rn a)) (rdG s c sh (rn b))) (rdGP s c sh (rn a) || rdGP s c sh (rn b)) := by
  have he : faluBits g .group d a b s =
      done s c (writeGroup sh (rn d) (g (rdG s c sh (rn a)) (rdG s c sh (rn b))) (rdGP s c sh (rn a) || rdGP s c sh (rn b))) := by
    simp [faluBits, onEngine_issues hi, groupForm3, groupOp_issues hi ha, poisonG]
  exact ⟨_, _, he, movesOn_done .., groupFrame_writeGroup _ _ (rn_lt d) _ _, groupHolds_writeGroup _ _ _ _⟩

end Bits

/-- R221 and R222. -/
theorem floatBitForms : FloatBits := by
  intro f d a b s c sh hi ha
  simp only [exec_bitForm, ← bitsOf_eq]
  exact ⟨faluBits_lanes hi ha _, faluBits_group hi ha _ _ _ _⟩

/-- Settles O9: the traps form by form, then the functions of the bits. -/
theorem floatBitsAndTraps : Obligations.FloatBitsAndTraps := ⟨floatTraps, floatBitForms⟩

end Sys2Proof.Proofs
end

section
/-! PROOFS. Values that a format holds exactly, and how they compare (R66, R68, R223). -/

namespace Sys2Proof.Proofs

open Sys2Proof Sys2Proof.Machine Sys2Proof.Claim

/-! ## Comparisons -/

theorem scaledInt_eq (s : Bool) (m : Nat) (d e : Int) : scaledInt s m d e = (if s then -(m : Int) else m) * 2 ^ (d - e).toNat := by
  cases s <;> simp [scaledInt]

theorem signed_natAbs (n : Int) : (if decide (n < 0) = true then -(n.natAbs : Int) else n.natAbs) = n := by
  by_cases h : n < 0 <;> simp only [h, decide_true, decide_false, if_true, Bool.false_eq_true, if_false] <;> omega

/-- A value compares with a whole number as two whole multiples of one power of two. -/
theorem cmp_ofInt (s : Bool) (m : Nat) (e n : Int) :
    (Val.fin s m e).cmp (ofInt n) = compare (scaledInt s m e (min e 0)) (n * 2 ^ (0 - min e 0).toNat) := by
  have hc : (if e < 0 then e else 0) = min e 0 := by split <;> omega
  simp only [Val.cmp, ofInt, hc, scaledInt_eq _ n.natAbs, signed_natAbs]

theorem cmp_ofInt_gt {s : Bool} {m : Nat} {e lo hi : Int} (h : lo < hi) (hc : (Val.fin s m e).cmp (ofInt hi) ≠ .lt) :
    (Val.fin s m e).cmp (ofInt lo) = .gt := by
  rw [cmp_ofInt] at hc ⊢
  have hle := not_lt.1 (fun hl => hc (compare_lt_iff_lt.2 hl))
  exact compare_gt_iff_gt.2 (lt_of_lt_of_le (mul_lt_mul_of_pos_right h (by positivity)) hle)

theorem compare_mul_pos {p : Int} (h : 0 < p) (a b : Int) : compare (a * p) (b * p) = compare a b := by
  rw [← cmp_eq_compare, cmp_mul_pos_right h, cmp_eq_compare]

theorem cmp_zero (s : Bool) (e n : Int) : (Val.fin s 0 e).cmp (ofInt n) = compare 0 n := by
  rw [cmp_ofInt, show scaledInt s 0 e (min e 0) = 0 * 2 ^ (0 - min e 0).toNat by simp [scaledInt]]
  exact compare_mul_pos (by positivity) _ _

/-- A whole number, at whatever exponent, compares as itself. -/
theorem cmp_whole (n l : Int) (k : Nat) : (Val.fin (decide (n < 0)) (n.natAbs * 2 ^ k) (0 - k)).cmp (ofInt l) = compare n l := by
  have hk : min (0 - (k : Int)) 0 = 0 - k := by omega
  have hn : scaledInt (decide (n < 0)) (n.natAbs * 2 ^ k) (0 - k) (0 - k) = n * 2 ^ k := by
    rw [scaledInt, sub_self, Int.toNat_zero, pow_zero, mul_one]
    conv_rhs => rw [← signed_natAbs n]
    push_cast
    split <;> ring
  rw [cmp_ofInt, hk, hn, show (0 - (0 - (k : Int))).toNat = k by omega]
  exact compare_mul_pos (by positivity) _ _

/-- The same value at a lower exponent compares as equal. -/
theorem cmp_shift (s : Bool) (m k : Nat) (e : Int) : (Val.fin s (m * 2 ^ k) (e - k)).cmp (.fin s m e) = .eq := by
  have hc : (if e - (k : Int) < e then e - (k : Int) else e) = e - k := by split <;> omega
  simp only [Val.cmp, hc, compare_eq_iff_eq, scaledInt, sub_self, Int.toNat_zero, sub_sub_cancel, Int.toNat_natCast, pow_zero, mul_one]

/-! ## Codes of values that a format holds -/

/-- A format of Table 3.2 with infinities: they stand at the exponent above the largest, 2 × bias + 1. -/
structure Ieee (f : Fmt) : Prop where
  special : f.special = .ieee
  infCode : f.infCode = (2 * f.bias + 1) * 2 ^ f.man
  signBit : f.signBit = (2 * f.bias + 2) * 2 ^ f.man
  bias : 0 < f.bias

theorem ieee_fp32 : Ieee fp32 := ⟨rfl, rfl, rfl, by decide⟩

theorem ieee_fp16 : Ieee fp16 := ⟨rfl, rfl, rfl, by decide⟩

theorem withSign_parts {f : Fmt} {c : Nat} (h : c < f.signBit) (s : Bool) :
    withSign f s c % f.signBit = c ∧ decide (withSign f s c / f.signBit % 2 = 1) = s := by
  cases s
  · simp [withSign, Nat.mod_eq_of_lt h, Nat.div_eq_of_lt h]
  · have hp : 0 < f.signBit := by omega
    simp [withSign, Nat.mod_eq_of_lt h, Nat.div_eq_of_lt h, Nat.add_div_left _ hp]

theorem withSign_lt {f : Fmt} {c : Nat} (h : c < f.signBit) (s : Bool) : withSign f s c < 2 * f.signBit := by
  cases s <;> simp only [withSign, if_true, Bool.false_eq_true, if_false] <;> omega

section Codes

variable {f : Fmt}

/-- The magnitude codes of binade j and below are finite. -/
theorem code_lt {m j : Nat} (hm : m < 2 ^ (f.man + 1)) (hb : j < 2 * f.bias) : j * 2 ^ f.man + m < (2 * f.bias + 1) * 2 ^ f.man := by
  have hle : (j + 2) * 2 ^ f.man ≤ (2 * f.bias + 1) * 2 ^ f.man := Nat.mul_le_mul_right _ (by omega)
  rw [pow_succ] at hm
  linarith

/-- Where no bit falls below the last place, the magnitude code counts the value's ulps exactly (R68). -/
theorem roundMag_exact {m j k : Nat} {e : Int} (mode : Nat) (s : Bool) (hm : m ≠ 0) (hlen : Nat.log2 m + k ≤ f.man)
    (he : e = f.emin + j + k) (hj : j = 0 ∨ Nat.log2 m + k = f.man) : roundMag f mode s m e = j * 2 ^ f.man + m * 2 ^ k := by
  have hq : (if e + (((Nat.log2 m : Nat) : Int) + 1) - ((f.man : Int) + 1) < f.emin then f.emin
      else e + (((Nat.log2 m : Nat) : Int) + 1) - ((f.man : Int) + 1)) = f.emin + j := by split <;> omega
  simp only [roundMag, if_neg hm, hq]
  rw [if_pos (by omega), show (f.emin + j - f.emin).toNat = j by omega, show (e - (f.emin + j)).toNat = k by omega]

theorem ulps_lt {m k : Nat} (hlen : Nat.log2 m + k ≤ f.man) : m * 2 ^ k < 2 ^ (f.man + 1) :=
  calc m * 2 ^ k < 2 ^ (Nat.log2 m + 1) * 2 ^ k := Nat.mul_lt_mul_of_pos_right Nat.lt_log2_self (by positivity)
    _ = 2 ^ (Nat.log2 m + k + 1) := by ring
    _ ≤ 2 ^ (f.man + 1) := Nat.pow_le_pow_right (by omega) (by omega)

variable (hf : Ieee f)
include hf

theorem Ieee.maxCode_lt {c : Nat} : f.maxCode < c ↔ (2 * f.bias + 1) * 2 ^ f.man ≤ c := by
  have hp : 0 < (2 * f.bias + 1) * 2 ^ f.man := by positivity
  rw [Fmt.maxCode, hf.special, hf.infCode]
  dsimp only
  omega

theorem Ieee.top_lt : (2 * f.bias + 1) * 2 ^ f.man < f.signBit := by
  rw [hf.signBit]
  exact Nat.mul_lt_mul_of_pos_right (by omega) (by positivity)

/-- The magnitude code of m ulps of binade j, or of the subnormals for j = 0, stands for m × 2^(emin + j) (R66). -/
theorem fdec_code {m j : Nat} (hm : m < 2 ^ (f.man + 1)) (hj : j = 0 ∨ 2 ^ f.man ≤ m) (hb : j < 2 * f.bias) (s : Bool) :
    fdec f (withSign f s (j * 2 ^ f.man + m)) = .fin s m (f.emin + j) := by
  have hc := code_lt hm hb
  obtain ⟨hmod, hneg⟩ := withSign_parts (f := f) (c := j * 2 ^ f.man + m) (hc.trans hf.top_lt) s
  rw [fdec_ieee hf.special, hmod, hneg, if_neg (fun h => absurd (hf.maxCode_lt.1 h) (not_le.2 hc))]
  rcases lt_or_ge m (2 ^ f.man) with hlt | hge
  · obtain rfl := hj.resolve_right (not_le.2 hlt)
    simp [Nat.div_eq_of_lt hlt, Nat.mod_eq_of_lt hlt]
  · obtain ⟨r, rfl⟩ := Nat.exists_eq_add_of_le hge
    have hr : r < 2 ^ f.man := by
      rw [pow_succ] at hm
      omega
    have he : j * 2 ^ f.man + (2 ^ f.man + r) = r + 2 ^ f.man * (j + 1) := by ring
    rw [he, Nat.add_mul_div_left _ _ (by positivity), Nat.add_mul_mod_self_left, Nat.div_eq_of_lt hr, Nat.mod_eq_of_lt hr,
      if_neg (by omega)]
    congr 1
    push_cast
    ring

/-- A value with few enough bits, below the top of the format's range, has a code of its own. -/
theorem fround_code {m j k : Nat} {e : Int} (s : Bool) (hm : m ≠ 0) (hlen : Nat.log2 m + k ≤ f.man) (he : e = f.emin + j + k)
    (hj : j = 0 ∨ Nat.log2 m + k = f.man) (hb : j < 2 * f.bias) :
    fround f (.fin s m e) = withSign f s (j * 2 ^ f.man + m * 2 ^ k) := by
  simp only [fround, fenc, roundMag_exact 0 s hm hlen he hj]
  exact if_neg (fun h => absurd (hf.maxCode_lt.1 h) (not_le.2 (code_lt (ulps_lt hlen) hb)))

/-- That code stands for the value. -/
theorem fdec_fround {m : Nat} {e : Int} (s : Bool) (hlen : Nat.log2 m ≤ f.man) (hmin : f.emin ≤ e)
    (hmax : e + Nat.log2 m ≤ f.bias) :
    ∃ k : Nat, fdec f (fround f (.fin s m e)) = .fin s (m * 2 ^ k) (e - k) := by
  have hbias := hf.bias
  have hemin : f.emin = 1 - (f.bias : Int) - f.man := rfl
  by_cases hm : m = 0
  · subst hm
    have h0 : fround f (.fin s 0 e) = withSign f s (0 * 2 ^ f.man + 0) := by simp [fround, fenc, roundMag]
    refine ⟨(e - f.emin).toNat, ?_⟩
    rw [h0, fdec_code hf (by positivity) (.inl rfl) (by omega)]
    congr 1
    · simp
    · omega
  obtain ⟨j, k, hk, he, hj⟩ : ∃ j k : Nat, Nat.log2 m + k ≤ f.man ∧ e = f.emin + j + k ∧ (j = 0 ∨ Nat.log2 m + k = f.man) := by
    rcases le_total f.emin (e + Nat.log2 m - f.man) with h | h
    · exact ⟨(e + Nat.log2 m - f.man - f.emin).toNat, f.man - Nat.log2 m, by omega, by omega, by omega⟩
    · exact ⟨0, (e - f.emin).toNat, by omega, by omega, .inl rfl⟩
  have hb : j < 2 * f.bias := by omega
  have hge : j = 0 ∨ 2 ^ f.man ≤ m * 2 ^ k := hj.imp_right fun h => by
    rw [← h, pow_add]
    exact Nat.mul_le_mul_right _ (Nat.log2_self_le hm)
  refine ⟨k, ?_⟩
  rw [fround_code hf s hm hk he hj hb, fdec_code hf (ulps_lt hk) hge hb]
  congr 1
  omega

/-- Every rounding gives a code of the format's width. -/
theorem fround_lt (v : Val) : fround f v < 2 * f.signBit := by
  have hinf : f.infCode < f.signBit := hf.infCode ▸ hf.top_lt
  cases v with
  | nan =>
    have hp : 2 ^ (f.man - 1) ≤ 2 ^ f.man := Nat.pow_le_pow_right (by omega) (by omega)
    have hs : f.signBit = f.infCode + 2 ^ f.man := by rw [hf.signBit, hf.infCode]; ring
    simp only [fround, fenc, Fmt.nanCode, hf.special]
    omega
  | inf s =>
    simp only [fround, fenc, infinityCode, hf.special]
    exact withSign_lt hinf s
  | fin s m e =>
    simp only [fround, fenc, overflowCode, hf.special]
    split
    · exact withSign_lt hinf s
    · rename_i h
      exact withSign_lt (lt_trans (not_le.1 (mt hf.maxCode_lt.2 h)) hf.top_lt) s

end Codes

end Sys2Proof.Proofs
end

section
/-! PROOFS. The special-function unit: Table 3.8, and EX2 and EX2H of whole numbers and beyond their ranges (R75, R76). -/

namespace Sys2Proof.Proofs

open Sys2Proof Sys2Proof.Machine Sys2Proof.Claim

/-! ## EX2 by its ranges -/

theorem ex2_low {f : Fmt} {lo hi : Int} {n2 free : Nat} {v : Val} (h0 : lo < 0) (hn : v.isNan = false) (h : v.cmp (ofInt lo) ≠ .gt) :
    ex2 f lo hi n2 free v = 0 := by
  cases v with
  | nan => cases hn
  | inf s =>
    cases s with
    | true => rfl
    | false => exact absurd rfl h
  | fin s m e =>
    have hm : m ≠ 0 := by
      rintro rfl
      exact h ((cmp_zero s e lo).trans (compare_gt_iff_gt.2 h0))
    simp only [ex2, if_neg hm]
    exact if_pos (bne_iff_ne.2 h)

theorem ex2_high {f : Fmt} {lo hi : Int} {n2 free : Nat} {v : Val} (hl : lo < hi) (h0 : 0 < hi) (hn : v.isNan = false)
    (h : v.cmp (ofInt hi) ≠ .lt) : ex2 f lo hi n2 free v = f.infCode := by
  cases v with
  | nan => cases hn
  | inf s =>
    cases s with
    | true => exact absurd rfl h
    | false => rfl
  | fin s m e =>
    have hm : m ≠ 0 := by
      rintro rfl
      exact h ((cmp_zero s e hi).trans (compare_lt_iff_lt.2 h0))
    simp only [ex2, if_neg hm, cmp_ofInt_gt hl h]
    exact (if_neg (by decide)).trans (if_pos (bne_iff_ne.2 h))

/-- Cutting a whole number's exact code to whole units loses nothing. -/
theorem roundInt_whole (n : Int) (k : Nat) : roundInt 1 (decide (n < 0)) (n.natAbs * 2 ^ k) (0 - k) = n := by
  have hk : (-(0 - (k : Int))).toNat = k := by omega
  have hmag : (if 0 ≤ 0 - (k : Int) then n.natAbs * 2 ^ k * 2 ^ (0 - (k : Int)).toNat else n.natAbs * 2 ^ k / 2 ^ k) = n.natAbs := by
    split
    · obtain rfl : k = 0 := by omega
      simp
    · exact Nat.mul_div_cancel _ (by positivity)
  simp only [roundInt, roundsUp, hk, Bool.false_eq_true, if_false, Nat.add_zero, hmag, signed_natAbs]

theorem ex2_whole {f : Fmt} (hf : Ieee f) {lo hi n : Int} (n2 free : Nat) (hlo : lo < n) (hhi : n < hi)
    (hlen : Nat.log2 n.natAbs ≤ f.man) (hmax : Nat.log2 n.natAbs ≤ f.bias) :
    ex2 f lo hi n2 free (fdec f (fround f (ofInt n))) = exp2Code f n := by
  have hbias := hf.bias
  obtain ⟨k, hk⟩ := fdec_fround hf (e := 0) (decide (n < 0)) hlen (by unfold Fmt.emin; omega) (by omega)
  rw [ofInt, hk]
  by_cases h0 : n = 0
  · subst h0
    simp [ex2]
  have hm : n.natAbs * 2 ^ k ≠ 0 := by positivity
  simp only [ex2, if_neg hm, cmp_whole, compare_gt_iff_gt.2 hlo, compare_lt_iff_lt.2 hhi, roundInt_whole, compare_eq_iff_eq.2]
  rfl

/-- The code of a power of two in a format's range, subnormal or not, stands for it. -/
theorem exp2Code_cmp {f : Fmt} (hf : Ieee f) {n : Int} (hmin : f.emin ≤ n) (hmax : n ≤ f.bias) :
    (fdec f (exp2Code f n)).cmp (.fin false 1 n) = .eq := by
  have hlog : Nat.log2 1 = 0 := by decide
  obtain ⟨k, hk⟩ := fdec_fround hf (m := 1) false (by omega) hmin (by omega)
  rw [exp2Code, hk]
  exact cmp_shift ..

theorem log2_le {n k : Nat} (h : n < 2 ^ (k + 1)) : Nat.log2 n ≤ k := by
  by_cases h0 : n = 0
  · subst h0
    exact Nat.zero_le k
  · exact Nat.le_of_lt_succ ((Nat.log2_lt h0).2 h)

/-! ## On words -/

theorem sfu32_ex2 (x : Nat) : sfu32 0 x = ex2 fp32 (-150) 128 3 (Config.sfu 0 (BitVec.ofNat 32 x)).toNat (fdec fp32 x) := rfl

theorem ex2_result (x : Word) : SfuForm.ex2.result x =
    BitVec.ofNat 32 (ex2 fp32 (-150) 128 3 (Config.sfu 0 (BitVec.ofNat 32 x.toNat)).toNat (fdec fp32 x.toNat)) := rfl

theorem toNat_fround (v : Val) : (BitVec.ofNat 32 (fround fp32 v)).toNat = fround fp32 v :=
  Nat.mod_eq_of_lt (fround_lt ieee_fp32 v)

theorem ex2_result_whole {n : Int} (hlo : -150 < n) (hhi : n < 128) :
    SfuForm.ex2.result (BitVec.ofNat 32 (fround fp32 (ofInt n))) = BitVec.ofNat 32 (exp2Code fp32 n) := by
  have hlog : Nat.log2 n.natAbs ≤ 7 := log2_le (by omega)
  rw [ex2_result, toNat_fround, ex2_whole ieee_fp32 _ _ hlo hhi (hlog.trans (by decide)) (hlog.trans (by decide))]

theorem ex2hHalf_whole {n : Int} (hlo : -25 < n) (hhi : n < 16) : ex2hHalf (fround fp16 (ofInt n)) = exp2Code fp16 n := by
  have hlog : Nat.log2 n.natAbs ≤ 4 := log2_le (by omega)
  exact ex2_whole ieee_fp16 2 _ hlo hhi (hlog.trans (by decide)) (hlog.trans (by decide))

/-- A power of two from 1 up has the biased exponent alone in its code. -/
theorem exp2Code_fp32 {n : Nat} (h : n ≤ 127) : exp2Code fp32 n = (n + 127) * 2 ^ 23 := by
  have hlog : Nat.log2 1 + 23 = fp32.man := by decide
  have he : (n : Int) = fp32.emin + (n + 126 : Nat) + (23 : Nat) := by
    rw [show fp32.emin = -149 from rfl]
    omega
  rw [exp2Code, fround_code ieee_fp32 false one_ne_zero hlog.le he (.inr hlog) (by rw [show fp32.bias = 127 from rfl]; omega),
    show fp32.man = 23 from rfl, withSign, if_neg Bool.false_ne_true]
  ring

/-- R75 and Table 3.8; a power of two has its exponent alone in its code. -/
theorem specialValues : SpecialValues := by
  refine ⟨?_, by decide +kernel, by decide +kernel, by decide +kernel, by decide +kernel, by decide +kernel, by decide +kernel,
    by decide +kernel, by decide +kernel, fun n hn => ?_, by decide +kernel, by decide +kernel⟩
  · intro f hf
    cases f with
    | ex2h => exact absurd rfl hf
    | ex2 | lg2 | rcp | rsq | sqrt | sin | cos | tanh => rfl
  · have hv : Val.fin false (n + 1) 0 = ofInt ((n + 1 : Nat) : Int) := by
      rw [ofInt, Int.natAbs_natCast, decide_eq_false (not_lt.2 (Int.natCast_nonneg _))]
    rw [hv, ex2_result_whole (by omega) (by omega), exp2Code_fp32 (by omega)]

/-- R76, the two ends and the whole numbers between. -/
theorem wholeExponents : WholeExponents := by
  refine ⟨fun n hlo hhi => ?_, fun x hn h => ?_, fun x hn h => ?_, fun n hlo hhi => ?_, fun x hn h => ?_, fun x hn h => ?_,
    fun x h => ?_⟩
  · rw [ex2_result_whole (by omega) (by omega), exp2Code, toNat_fround]
    exact exp2Code_cmp ieee_fp32 hlo hhi
  · rw [ex2_result, ex2_low (by decide) hn h]
  · have hi := ex2_high (f := fp32) (lo := -150) (n2 := 3) (free := (Config.sfu 0 (BitVec.ofNat 32 x.toNat)).toNat) (by decide)
      (by decide) hn h
    refine ⟨by rw [ex2_result, hi]; rfl, fun hfin => ?_⟩
    simp only [SfuForm.out, SfuForm.code, sfu32_ex2, hi, badElement, hfin]
    rfl
  · rw [ex2hHalf_whole (by omega) (by omega)]
    exact exp2Code_cmp ieee_fp16 hlo hhi
  · exact ex2_low (by decide) hn h
  · exact ex2_high (by decide) (by decide) hn h
  · simp only [Bool.or_eq_true, Bool.and_eq_true, decide_eq_true_eq] at h
    simp only [SfuForm.out, Bool.or_eq_true, Bool.and_eq_true]
    exact h.imp (fun ⟨hb, he⟩ => ⟨hb, he ▸ by decide⟩) (fun ⟨hb, he⟩ => ⟨hb, he ▸ by decide⟩)

/-- Settles O12: the table's special values, then EX2 by the ranges of its input. -/
theorem specialFunctionValues : Obligations.SpecialFunctionValues := ⟨specialValues, wholeExponents⟩

end Sys2Proof.Proofs
end

section
/-! PROOFS. Canonical memory, the rules: what an outcome, an option or a pair that carries a state keeps, and what writes no memory. -/

namespace Sys2Proof.Proofs

open Sys2Proof Sys2Proof.Machine Sys2Proof.Claim

/-- An outcome leaves memory in canonical form; a fault or a refusal leaves no state. -/
def OutOk (o : Out) : Prop :=
  match o with
  | .next t => memOk t
  | _ => True

/-- What an option holds, if anything, has a property. -/
def SomeOk {α : Type} (P : α → Prop) (o : Option α) : Prop :=
  match o with
  | some x => P x
  | none => True

/-- What the right side holds, if it is that side, has a property. -/
def RightOk {α β : Type} (P : β → Prop) (o : α ⊕ β) : Prop :=
  match o with
  | .inr x => P x
  | .inl _ => True

theorem SomeOk.get {α : Type} {P : α → Prop} {o : Option α} {x : α} (h : SomeOk P o) (e : o = some x) : P x := by
  subst e
  exact h

theorem RightOk.get {α β : Type} {P : β → Prop} {o : α ⊕ β} {x : β} (h : RightOk P o) (e : o = .inr x) : P x := by
  subst e
  exact h

theorem OutOk.get {o : Out} {t : State} (h : OutOk o) (e : o = .next t) : memOk t := by
  subst e
  exact h

/-- For an instruction, where the equation is its arm of `exec`. -/
theorem OutOk.of_eq {o o' : Out} (e : o = o') (h : OutOk o') : OutOk o := by
  rw [e]
  exact h

theorem snd_wf {α : Type} {p : α × State} {a : α} {t : State} (h : memOk p.2) (e : p = (a, t)) : memOk t := by
  subst e
  exact h

theorem fst_wf {α : Type} {p : State × α} {a : α} {t : State} (h : memOk p.1) (e : p = (t, a)) : memOk t := by
  subst e
  exact h

theorem snd_keeps {α β : Type} {P : β → Prop} {p : α × β} {a : α} {b : β} (h : P p.2) (e : p = (a, b)) : P b := by
  subst e
  exact h

theorem third_wf {α β : Type} {p : α × β × State} {a : α} {b : β} {t : State} (h : memOk p.2.2) (e : p = (a, b, t)) : memOk t := by
  subst e
  exact h

/-! ## Parts of the state that are not memory -/

theorem home_wf {s : State} {x : Map (CWord × Nat)} (h : memOk s) : memOk { s with home := x } := h

theorem tlb_wf {s : State} {x : Map (BitVec 64 × Nat)} (h : memOk s) : memOk { s with tlb := x } := h

theorem oldFrames_wf {s : State} {x : List (Nat × Nat)} (h : memOk s) : memOk { s with oldFrames := x } := h

theorem beds_wf {s : State} {x : Map Bed} (h : memOk s) : memOk { s with beds := x } := h

theorem copies_wf {s : State} {x : Map CopyOp} (h : memOk s) : memOk { s with copies := x } := h

theorem bwait_wf {s : State} {x : List BWait} (h : memOk s) : memOk { s with bwait := x } := h

theorem searches_wf {s : State} {x : Map Search} (h : memOk s) : memOk { s with searches := x } := h

theorem hostIf_wf {s : State} {x : HostIf} (h : memOk s) : memOk { s with hostIf := x } := h

theorem mgmt_wf {s : State} {x : Mgmt} (h : memOk s) : memOk { s with mgmt := x } := h

theorem killCores_wf {s : State} {x : List (Word × Nat)} (h : memOk s) : memOk { s with killCores := x } := h

theorem poolUsed_wf {s : State} {x : List Nat} (h : memOk s) : memOk { s with poolUsed := x } := h

/-! ## Choices and sequences -/

theorem ite_fst {α : Type} {c : Prop} [Decidable c] {a b : State × α} (ha : memOk a.1) (hb : memOk b.1) :
    memOk (if c then a else b).1 := by
  split
  · exact ha
  · exact hb

theorem ite_snd {α : Type} {c : Prop} [Decidable c] {a b : α × State} (ha : memOk a.2) (hb : memOk b.2) : memOk (if c then a else b).2 := by
  split
  · exact ha
  · exact hb

theorem ite_out {c : Prop} [Decidable c] {a b : Out} (ha : OutOk a) (hb : OutOk b) : OutOk (if c then a else b) := by
  split
  · exact ha
  · exact hb

theorem ite_right {α β : Type} {P : β → Prop} {c : Prop} [Decidable c] {a b : α ⊕ β} (ha : RightOk P a) (hb : RightOk P b) :
    RightOk P (if c then a else b) := by
  split
  · exact ha
  · exact hb

theorem ite_someOk {α : Type} {P : α → Prop} {c : Prop} [Decidable c] {a b : Option α} (ha : SomeOk P a) (hb : SomeOk P b) :
    SomeOk P (if c then a else b) := by
  split
  · exact ha
  · exact hb

theorem andThen_out {o : Out} {k : State → Out} (h : OutOk o) (hk : ∀ t, memOk t → OutOk (k t)) : OutOk (o.andThen k) := by
  unfold Out.andThen
  split
  · exact hk _ h
  · trivial
  · trivial

/-! ## Functions that write no memory -/

theorem memOk_of_mem {s t : State} (e : t.mem = s.mem) (h : memOk s) : memOk t := by
  unfold memOk
  rw [e]
  exact h

theorem memOk_of_only {s t : State} (o : OnlyBedsCores s t) (h : memOk s) : memOk t := memOk_of_mem o.mem h

/-! ## Options -/

theorem SomeOk.getD {o : Option State} {s : State} (h : SomeOk memOk o) (hs : memOk s) : memOk (o.getD s) := by
  cases o with
  | none => exact hs
  | some x => exact h

theorem SomeOk.map {α β : Type} {P : α → Prop} {Q : β → Prop} {o : Option α} {f : α → β} (h : SomeOk P o) (hf : ∀ x, P x → Q (f x)) :
    SomeOk Q (o.map f) := by
  cases o with
  | none => trivial
  | some x => exact hf x h

theorem SomeOk.bind {α β : Type} {P : α → Prop} {Q : β → Prop} {o : Option α} {f : α → Option β} (h : SomeOk P o)
    (hf : ∀ x, P x → SomeOk Q (f x)) : SomeOk Q (o.bind f) := by
  cases o with
  | none => trivial
  | some x => exact hf x h

theorem someOk_findSome? {α β : Type} {P : β → Prop} {f : α → Option β} {l : List α} (h : ∀ x, SomeOk P (f x)) :
    SomeOk P (l.findSome? f) := by
  induction l with
  | nil => trivial
  | cons x r ih =>
    rw [List.findSome?_cons]
    split
    · rename_i heq
      exact heq ▸ h x
    · exact ih

/-! ## Maps -/

/-- A part of a map in canonical form is in canonical form. -/
theorem mcanon_filter {α : Type} [DecidableEq α] {m : Map α} {d : α} (h : mcanon d m = true) (p : Nat × α → Bool) :
    mcanon d (m.filter p) = true := by
  simp only [mcanon, Bool.and_eq_true, List.all_eq_true] at h ⊢
  refine ⟨?_, fun x hx => h.2 x (List.mem_of_mem_filter hx)⟩
  obtain ⟨hs, -⟩ := h
  induction m with
  | nil => rfl
  | cons y r ih =>
    obtain ⟨ha, hr⟩ := (msorted_cons _ _ _).1 hs
    rw [List.filter_cons]
    split
    · exact (msorted_cons _ _ _).2 ⟨fun x hx => ha x (List.mem_of_mem_filter hx), ih hr⟩
    · exact ih hr

end Sys2Proof.Proofs
end

section
/-! PROOFS. Canonical memory: the parts of the state, the memory operations of a core, pending results and traps (R46, R110, R180, R341, R355). -/

namespace Sys2Proof.Proofs

open Sys2Proof Sys2Proof.Machine Sys2Proof.Claim

variable {s : State} {b w core p k lane : Nat} {sh : Sheaf} {c : Cur} {m : Mask} {addr : DWord}

/-! ## Parts of the package -/

theorem modPlot_wf {f : Plot → Plot} (h : memOk s) : memOk (modPlot s p f) := memOk_of_mem (modPlot_mem ..) h

theorem modCore_wf {f : Core → Core} (h : memOk s) : memOk (modCore s k f) := memOk_of_only (only_modCore ..) h

theorem modEngine_wf {e : Nat} {f : Engine → Engine} (h : memOk s) : memOk (modEngine s e f) := memOk_of_mem (modEngine_mem ..) h

theorem modBed_wf {f : Bed → Bed} (h : memOk s) : memOk (modBed s b f) := memOk_of_only (only_modBed ..) h

theorem modLaunch_wf {l : Nat} {f : Launch → Launch} (h : memOk s) : memOk (modLaunch s l f) := memOk_of_mem (modLaunch_mem ..) h

theorem setSheaf_wf (h : memOk s) : memOk (setSheaf s b w sh) := memOk_of_only (only_setSheaf ..) h

theorem modSheaf_wf {f : Sheaf → Sheaf} (h : memOk s) : memOk (modSheaf s b w f) := memOk_of_only (only_modSheaf ..) h

/-! ## The issuing sheaf -/

theorem onSheaf_wf {k : Cur → Sheaf → Out} (hk : ∀ c sh, OutOk (k c sh)) : OutOk (onSheaf s k) := by
  unfold onSheaf
  split
  · split
    · exact hk _ _
    · trivial
  · trivial

theorem putSheaf_wf (h : memOk s) : memOk (putSheaf s c sh) := memOk_of_mem (putSheaf_mem ..) h

/-! ## Moving on -/

theorem done_wf (h : memOk s) : OutOk (done s c sh) := putSheaf_wf h

/-! ## The home caches -/

theorem noteWb_wf (h : memOk s) : memOk (noteWb s w) := h

/-! ## Values that loads may have taken early (R112, R116, R120) -/

theorem seePair_wf {scratch : Bool} {pair : Nat} (h : memOk s) : memOk (seePair s scratch pair) := memOk_of_mem (seePair_mem ..) h

theorem noteOld_wf {plot : Option Nat} {pair : Nat} {lo hi : Word × Bool} (h : memOk s) : memOk (noteOld s plot pair lo hi) := seePair_wf h

theorem noteHome_wf (h : memOk s) : memOk (noteHome s w) := noteWord_wf h _ _

/-! ## Releases and acquires (Table 5.3) -/

theorem forgetEarly_wf (h : memOk s) : memOk (forgetEarly s core) := h

/-! ## Translation (R355 to R359) -/

theorem noteFrame_wf {key : Nat} {e : BitVec 64 × Nat} (h : memOk s) : memOk (noteFrame s key e) := ite_wf h h

theorem markWrite_wf {asid : BitVec 16} {va : DWord} (h : memOk s) : memOk (markWrite s asid va) := by
  unfold markWrite
  split
  · exact setPteBit_wf (fold_wf (fun _ _ h1 => setPteBit_wf h1 _ _) _ h) _ _
  · exact h

/-! ## Scratch (R83, R97, R124) -/

theorem setScratch_wf {be : BitVec 4} {x : Word} (h : memOk s) : memOk (setScratch s p w be x) := memOk_of_mem (setScratch_mem ..) h

theorem setMark_wf {gran : Nat} {q : Bool} (h : memOk s) : memOk (setMark s p gran q) := memOk_of_mem (setMark_mem ..) h

/-! ## Due events and the event log -/

theorem due_wf {i : Event} (h : memOk s) : memOk (due s i) := memOk_of_mem (due_mem ..) h

theorem logEvent_wf {kind die : Nat} {cause : Option (Nat × Word)} {detail : Word} {subject : Nat} (h : memOk s) :
    memOk (logEvent s kind die cause detail subject) :=
  memOk_of_mem (logEvent_mem ..) h

theorem count_wf {n : Nat} (h : memOk s) : memOk (count s core k n) := memOk_of_only (only_count ..) h

theorem fresh_wf (h : memOk s) : memOk (fresh s).2 := h

/-! ## Pending results (R180, R341) -/

theorem setRow_wf {id unit tile row : Nat} {vs : List Word} (h : memOk s) : memOk (setRow s core id unit tile row vs) := by
  unfold setRow
  dsimp only
  split
  · exact modBed_wf (modCore_wf h)
  · exact modCore_wf h

/-! ## Lines of the register cache (R50) -/

theorem wakeLines_wf {regs : List Nat} (h : memOk s) : memOk (wakeLines s b w regs) := memOk_of_only (only_wakeLines ..) h

theorem fillLine_wf (h : memOk s) : memOk (fillLine s b w p) := memOk_of_only (only_fillLine ..) h

theorem fillLines_wf {ps : List Nat} (h : memOk s) : memOk (fillLines s b w ps) := memOk_of_only (only_fillLines ..) h

theorem applyWrite_wf {id : Nat} {p : PWrite} (h : memOk s) : memOk (applyWrite s b w core id p) := memOk_of_only (only_applyWrite ..) h

theorem finishOp_wf {op : LongOp} (h : memOk s) : memOk (finishOp s b w op) := memOk_of_only (only_finishOp ..) h

theorem drain_wf (h : memOk s) : memOk (drain s b w) := memOk_of_only (only_drain ..) h

/-! ## Unit operations that run again (R281, R341, R349) -/

theorem endReplays_wf (h : memOk s) : memOk (endReplays s b w core) := memOk_of_only (only_endReplays ..) h

theorem endBedReplays_wf (h : memOk s) : memOk (endBedReplays s b core) := memOk_of_only (only_endBedReplays ..) h

/-! ## Taking a trap (R341) -/

theorem freezeFor_wf (h : memOk s) : memOk (freezeFor s b core) := memOk_of_only (only_freezeFor ..) h

theorem thawFor_wf (h : memOk s) : memOk (thawFor s b core) := memOk_of_only (only_thawFor ..) h

theorem stopBed_wf (h : memOk s) : memOk (stopBed s b w) := modBed_wf h

theorem stopAsked_wf {r : TrapRec} (h : memOk s) : memOk (stopAsked s b w sh r) := memOk_of_only (only_stopAsked ..) h

theorem takeTrap_wf {r : TrapRec} (h : memOk s) : memOk (takeTrap s b w r) := memOk_of_only (only_takeTrap ..) h

theorem trapWith_wf {t : LateTrap} {resume : DWord} {keep : Bool} (h : memOk s) : OutOk (trapWith s c sh t resume keep) :=
  takeTrap_wf (ite_wf (putSheaf_wf h) h)

theorem trap_wf {t : LateTrap} (h : memOk s) : OutOk (trap s c sh t) := trapWith_wf h

theorem illegal_wf (h : memOk s) : OutOk (illegal s c sh) := trap_wf h

theorem privilege_wf (h : memOk s) : OutOk (privilege s c sh) := trap_wf h

theorem misaligned_wf (h : memOk s) : OutOk (misaligned s c sh m lane addr) := trap_wf h

theorem violation_wf (h : memOk s) : OutOk (violation s c sh m lane addr) := trap_wf h

theorem rangeTrap_wf {entry : Nat} (h : memOk s) : OutOk (rangeTrap s c sh lane entry addr) := trap_wf h

theorem poisonUse_wf (h : memOk s) : OutOk (poisonUse s c sh m) := trap_wf h

theorem tileTrap_wf {handle : Nat} (h : memOk s) : OutOk (tileTrap s c sh handle) := trap_wf h

theorem queueFault_wf (h : memOk s) : OutOk (queueFault s c sh) := trap_wf h

theorem rejoinOverflow_wf {op : Nat} (h : memOk s) : OutOk (rejoinOverflow s c sh k op) := trap_wf h

/-! ## Leaving the handler (R346) -/

theorem killLaunch_wf {l cause : Nat} {die : Option Nat} (h : memOk s) : memOk (killLaunch s l cause die) :=
  ite_wf h (due_wf (modLaunch_wf h))

theorem requestKill_wf {cause : Nat} (h : memOk s) : memOk (requestKill s b cause) := by
  unfold requestKill
  dsimp only
  split
  · exact killLaunch_wf h
  · exact ite_wf h (modLaunch_wf (killLaunch_wf h))

theorem releaseBed_wf (h : memOk s) : memOk (releaseBed s b w) := modBed_wf h

theorem leaveHandler_wf (h : memOk s) : memOk (leaveHandler s b w) := by
  unfold leaveHandler
  dsimp only
  split
  · exact h
  · refine ite_wf (requestKill_wf h) ?_
    refine ite_wf (thawFor_wf (setSheaf_wf h)) ?_
    split
    · exact stopAsked_wf (setSheaf_wf h)
    · exact thawFor_wf (releaseBed_wf (setSheaf_wf h))

theorem deliverPending_wf (h : memOk s) : memOk (deliverPending s b w) := memOk_of_only (only_deliverPending ..) h

/-! ## Threads, rejoin registers and yields -/

theorem passToken_wf (h : memOk s) : memOk (passToken s core) := by
  unfold passToken
  dsimp only
  split
  · exact modSheaf_wf (modCore_wf (count_wf h))
  · exact modCore_wf h

theorem dropToken_wf (h : memOk s) : memOk (dropToken s core b w) :=
  ite_wf (passToken_wf (modCore_wf (ite_wf (count_wf h) h))) (modCore_wf (ite_wf (count_wf h) h))

theorem afterEnd_wf (h : memOk s) : memOk (afterEnd s b w) := by
  unfold afterEnd
  dsimp only
  split
  · exact h
  · refine ite_wf ?_ h
    split
    · exact dropToken_wf h
    · exact ite_wf (dropToken_wf h) (ite_wf (due_wf (dropToken_wf h)) (ite_wf (due_wf (dropToken_wf h)) (dropToken_wf h)))

theorem yieldSheaf_wf (h : memOk s) : memOk (yieldSheaf s b w) := by
  unfold yieldSheaf
  split
  · exact h
  · exact count_wf (setSheaf_wf h)

theorem parkWait_wf {w : WaitFor} (h : memOk s) : memOk (parkWait s c sh w) := yieldSheaf_wf (ite_wf h (putSheaf_wf h))

/-! ## Issuing a long-latency instruction (R180) -/

theorem issueLong_wf {op : LongOp} (h : memOk s) : OutOk (issueLong s c sh op) := done_wf h

end Sys2Proof.Proofs
end

section
/-! PROOFS. Canonical memory: operand forms, accesses, and the instructions of lanes and groups (R187 to R248, R351, R359). -/

namespace Sys2Proof.Proofs

open Sys2Proof Sys2Proof.Machine Sys2Proof.Claim

variable {s s0 : State} {d a b : BitVec 7} {idx va : DWord} {c : Cur} {m r : BitVec 2} {sc : Scope} {l t u : BitVec 4} {sh : Sheaf}
  {acc : Access} {size core p la : Nat} {asid : BitVec 16} {regs : List Nat} {readsD write : Bool} {f : Word → Word → Word → Word}
  {x : BitVec 1} {k : Cur → Sheaf → Mask → Out} {op : FOp}

/-! ## What every core form has in common -/

theorem whenActive_wf (hs : memOk s) (hk : ∀ c sh m, OutOk (k c sh m)) : OutOk (whenActive s k) :=
  onSheaf_wf (fun _ _ => ite_out (done_wf hs) (hk _ _ _))

theorem withBudget_wf {m : Mask} {k : Out} (hs : memOk s) (hk : OutOk k) : OutOk (withBudget s c sh m regs k) := by
  unfold withBudget
  split
  · exact violation_wf hs
  · exact hk

theorem laneOp_wf (hs : memOk s) (hk : ∀ c sh m, OutOk (k c sh m)) : OutOk (laneOp s regs k) :=
  whenActive_wf hs (fun _ _ _ => withBudget_wf hs (hk _ _ _))

theorem groupOp_wf (hs : memOk s) (hk : ∀ c sh m, OutOk (k c sh m)) : OutOk (groupOp s k) := whenActive_wf hs (fun _ _ _ => hk _ _ _)

theorem testedDone_wf {n : NfMasks} {after : Sheaf} (h : memOk s) : OutOk (testedDone s c sh n after) := ite_out (trap_wf h) (done_wf h)

/-! ## Two and three operand forms -/

theorem laneForm3_wf {form : Form → Form → Form → Form} (h : memOk s) : OutOk (laneForm3 s d a b readsD form) :=
  laneOp_wf h (fun _ _ _ => done_wf h)

theorem laneForm1_wf {form : Form → Form} (h : memOk s) : OutOk (laneForm1 s d a form) := laneOp_wf h (fun _ _ _ => done_wf h)

theorem groupForm3_wf (h : memOk s) : OutOk (groupForm3 s d a b readsD f) := groupOp_wf h (fun _ _ _ => done_wf h)

theorem groupForm1_wf {f : Word → Word} (h : memOk s) : OutOk (groupForm1 s d a f) := groupOp_wf h (fun _ _ _ => done_wf h)

/-! ## The registers of a pair (R140) -/

theorem onPair_wf {k : NCur → Ctx → NThr → Out} (hk : ∀ n x u, OutOk (k n x u)) : OutOk (onPair s k) := by
  unfold onPair
  split
  · split
    · exact hk _ _ _
    · trivial
  · trivial

theorem modCtx_wf {e x : Nat} {f : Ctx → Ctx} (h : memOk s) : memOk (modCtx s e x f) := modEngine_wf h

theorem putThr_wf {n : NCur} {t : NThr} (h : memOk s) : memOk (putThr s n t) := modCtx_wf h

theorem nearDone_wf {n : NCur} {t : NThr} (h : memOk s) : OutOk (nearDone s n t) := putThr_wf h

theorem nearScalar_wf {f : DWord → DWord → DWord → DWord} (h : memOk s) : OutOk (nearScalar s d a b f) :=
  onPair_wf (fun _ _ _ => nearDone_wf h)

theorem nearVector_wf (h : memOk s) : OutOk (nearVector s d a b f) := onPair_wf (fun _ _ _ => nearDone_wf h)

/-! ## Saving a page before its first write (R359) -/

theorem copyPage_wf {from_ dst : Nat} (h : memOk s) : memOk (copyPage s from_ dst) := by
  unfold copyPage
  exact fold_wf (fun _ _ h1 => home_wf (setDram_wf h1 _ _)) _ h

theorem savePages_wf {owner : Nat} {ps : List Nat} (h : memOk s) : SomeOk memOk (savePages s owner ps) := by
  induction ps generalizing s with
  | nil => exact h
  | cons p r ih =>
    unfold savePages
    split
    · exact h
    · split
      · exact ih h
      · split
        · trivial
        · exact ih (modLaunch_wf (poolUsed_wf (copyPage_wf h)))

theorem clearSnap_wf {pte : Nat} (h : memOk s) : memOk (clearSnap s pte) := setHomeDWord_wf h _ _

/-- A page is copied word by word, so memory keeps its form also where the pool ends the copy. -/
theorem snapshotPage_wf {asid : BitVec 16} {va : DWord} {pte base size : Nat} {writer : Option Nat} (h : memOk s) :
    SomeOk memOk (snapshotPage s asid va pte base size writer) :=
  SomeOk.map (foldl_keeps (P := SomeOk memOk) _ (fun _ _ ho => SomeOk.bind ho (fun _ h1 => savePages_wf h1)) _ h)
    (fun _ h1 => ite_wf (clearSnap_wf h1) h1)

theorem unsnap_wf (h : memOk s0) : memOk (unsnap s0 asid va) := by
  unfold unsnap
  dsimp only
  split
  · refine ite_wf h ?_
    refine ite_wf ?_ (markWrite_wf h)
    split
    · rename_i heq
      exact (snapshotPage_wf (markWrite_wf h)).get heq
    · exact markWrite_wf h
  · exact h

/-! ## One lane of a global access -/

theorem acquireWord_wf {w : Nat} {syn : Bool} {scope : Nat} {first : Bool} {t : Nat} (h : memOk s) :
    memOk (acquireWord s core w syn scope first t).2 := by
  unfold acquireWord
  split
  · exact readWord_wf h _ _ _ _ _ _
  · split
    · split <;> exact h
    · exact h

theorem readWords_wf {rd : State → Nat → PWord × State} {ws : List Nat} (hrd : ∀ t, memOk t → ∀ k, memOk (rd t k).2) (hs : memOk s) :
    memOk (readWords rd s ws).2 := by
  induction ws generalizing s with
  | nil => exact hs
  | cons w r ih => exact ih (hrd _ hs _)

theorem performAt_wf {i pa : Nat} {syn : Bool} (h : memOk s) : memOk (performAt s core asid acc i pa syn).2 := by
  unfold performAt
  dsimp only
  split
  · refine readWords_wf (fun _ h1 _ => ?_) h
    split
    · exact acquireWord_wf h1
    · exact readWord_wf h1 _ _ _ _ _ _
  · split
    · exact h
    · split
      · exact readWords_wf (fun _ h1 _ => atomicView_wf h1 _ _ _ _) h
      · exact fold_wf (fun _ _ h1 => atomicWrite_wf h1 _ _ _ _ _) _ (readWords_wf (fun _ h1 _ => atomicView_wf h1 _ _ _ _) h)
  · split
    · exact writeWord_wf h _ _ _ _ _
    · exact fold_wf (fun _ _ h1 => writeWord_wf h1 _ _ _ _ _) _ h

theorem translateSaving_wf {op : AccOp} (h : memOk s) : memOk (translateSaving s core asid va op).2 := by
  unfold translateSaving
  split
  · rename_i heq
    have h1 := snd_wf (translate_wf h _ _ _ _) heq
    split
    · exact h1
    · rename_i heq
      have h2 := (snapshotPage_wf h1).get heq
      split
      · rename_i heq
        exact snd_wf (translate_wf (tlb_wf h2) _ _ _ _) heq
      · rename_i heq
        exact setPteBit_wf (snd_wf (translate_wf (tlb_wf h2) _ _ _ _) heq) _ _
      · rename_i heq
        exact snd_wf (translate_wf (tlb_wf h2) _ _ _ _) heq
  · rename_i heq
    exact snd_wf (translate_wf h _ _ _ _) heq
  · rename_i heq
    exact snd_wf (translate_wf h _ _ _ _) heq

theorem performLane_wf {i : Nat} (h : memOk s) : memOk (performLane s core asid acc i).2 := by
  unfold performLane
  split
  · rename_i heq
    exact snd_wf (translateSaving_wf h) heq
  · rename_i heq
    exact performAt_wf (snd_wf (translateSaving_wf h) heq)
  · rename_i heq
    exact snd_wf (translateSaving_wf h) heq
  · rename_i heq
    exact snd_wf (translateSaving_wf h) heq

theorem performLanes_wf {m : Mask} (h : memOk s) : memOk (performLanes s core asid acc m).st := by
  unfold performLanes
  refine foldl_keeps (P := fun x : Got => memOk x.st) _ (fun _ _ h1 => ?_) _ h
  split
  · rename_i heq
    exact snd_wf (performLane_wf h1) heq
  · rename_i heq
    exact snd_wf (performLane_wf h1) heq
  · rename_i heq
    exact snd_wf (performLane_wf h1) heq
  · rename_i heq
    exact snd_wf (performLane_wf h1) heq

/-- The lanes of an access read and write memory one after another. -/
theorem runAccess_wf {m : Mask} (h : memOk s) : memOk (runAccess s core asid acc m).st := by
  unfold runAccess
  dsimp only
  split
  · exact releaseAt_wf (performLanes_wf (count_wf (releaseAt_wf (ite_wf (acquireAt_wf h _ _) h) _ _))) _ _
  · exact performLanes_wf (count_wf (ite_wf (acquireAt_wf h _ _) h))

/-! ## Values that a load may have taken early (R112, R116, R120) -/

theorem settleEarly_wf {scratch : Bool} {ws : List Nat} (h : memOk s) : memOk (settleEarly s c scratch ws) := h

theorem withEarly_wf {g : Got} (hg : memOk g.st) : memOk (withEarly s c asid acc g).st := by
  unfold withEarly
  split
  · exact hg
  · exact settleEarly_wf hg

/-! ## The operand log (R351) -/

theorem enterLog_wf {m : Mask} {op : Option Nat} {kind : Nat} (h : memOk s) : memOk (enterLog s c core acc m op kind) := by
  unfold enterLog
  dsimp only
  split
  · exact h
  · exact count_wf (due_wf (setSheaf_wf h))

theorem logHeld_wf {m : Mask} (h : memOk s) : memOk (logHeld s c acc m) := modSheaf_wf h

theorem holdWhole_wf {m : Mask} {kind : Nat} (h : memOk s) : OutOk (holdWhole s c sh va write m kind) := enterLog_wf h

theorem withPage_wf {m : Mask} {k : State → Nat → Bool → Out} (hs : memOk s) (hk : ∀ t, memOk t → ∀ n q, OutOk (k t n q)) :
    OutOk (withPage s c sh m va write k) := by
  unfold withPage
  split
  · rename_i heq
    exact holdWhole_wf (snd_wf (translateSaving_wf hs) heq)
  · rename_i heq
    exact hk _ (snd_wf (translateSaving_wf hs) heq) _ _
  · trivial
  · rename_i heq
    exact violation_wf (snd_wf (translateSaving_wf hs) heq)

/-! ## A whole access instruction -/

theorem storeAccess_wf {m : Mask} (h : memOk s) : OutOk (storeAccess s c sh acc m) :=
  ite_out (andThen_out (done_wf h) (fun _ h1 => logHeld_wf h1)) (ite_out trivial
    (ite_out (trap_wf (runAccess_wf h)) (ite_out (andThen_out (done_wf (runAccess_wf h)) (fun _ h1 => enterLog_wf h1))
    (done_wf (runAccess_wf h)))))

theorem loadAccess_wf {m : Mask} {dest : List PWrite} (h : memOk s) : OutOk (loadAccess s c sh acc m la dest) := by
  unfold loadAccess
  extract_lets core run g free rs id s1
  have hg : memOk g.st := by
    unfold g
    split
    · exact h
    · exact withEarly_wf (runAccess_wf h)
  have h1 : memOk s1 := fresh_wf hg
  exact ite_out trivial (ite_out (issueLong_wf h1) (ite_out (issueLong_wf h1)
    (enterLog_wf (modSheaf_wf (putSheaf_wf (fresh_wf h1))))))

/-! ## Shared forms -/

theorem aluReg_wf {op : AluOp} (h : memOk s) : OutOk (aluReg op sc d a b s) := by
  unfold aluReg
  split
  · exact laneForm3_wf h
  · exact groupForm3_wf h
  · exact nearVector_wf h
  · exact nearScalar_wf h

theorem aluImm_wf {op : AluOp} {x : Word} {y : DWord} (h : memOk s) : OutOk (aluImm op sc d a x y s) := by
  unfold aluImm
  split
  · exact laneForm1_wf h
  · exact groupForm1_wf h
  · exact nearVector_wf h
  · exact nearScalar_wf h

theorem loadImm_wf {x : Word} {y : DWord} (h : memOk s) : OutOk (loadImm sc d x y s) := by
  unfold loadImm
  split
  · exact laneOp_wf h (fun _ _ _ => done_wf h)
  · exact groupOp_wf h (fun _ _ _ => done_wf h)
  · exact onPair_wf (fun _ _ _ => nearDone_wf h)

theorem startLong_wf {ws : List PWrite} (h : memOk s) : OutOk (startLong s c sh la ws) := issueLong_wf (fresh_wf h)

theorem divReg_wf {op : DivOp} (h : memOk s) : OutOk (divReg op sc d a b l s) := by
  unfold divReg
  split
  · exact laneOp_wf h (fun _ _ _ => startLong_wf h)
  · exact groupOp_wf h (fun _ _ _ => startLong_wf h)
  · exact nearScalar_wf h

theorem cmpLane_wf {cond : Cur → Sheaf → Nat → Bool} (h : memOk s) : OutOk (cmpLane s d regs cond) := laneOp_wf h (fun _ _ _ => done_wf h)

theorem cmpGroup_wf {cond : Cur → Sheaf → Bool} (h : memOk s) : OutOk (cmpGroup s d regs cond) := groupOp_wf h (fun _ _ _ => done_wf h)

theorem cmpReg_wf {k : BitVec 4} (h : memOk s) : OutOk (cmpReg sc d a b k s) := by
  unfold cmpReg
  split
  · exact cmpLane_wf h
  · exact cmpGroup_wf h
  · exact nearScalar_wf h

theorem cmpImm_wf {k : BitVec 4} {i : BitVec 7} (h : memOk s) : OutOk (cmpImm sc d a k i s) := by
  unfold cmpImm
  split
  · exact cmpLane_wf h
  · exact cmpGroup_wf h

/-! ## Moves and packing (R198, R199) -/

theorem execMov_wf (h : memOk s) : OutOk (execMov sc d a s) := by
  unfold execMov
  split
  · exact laneForm1_wf h
  · exact groupForm1_wf h

/-! ## Shared forms -/

theorem testedLane_wf {test : Word → Word → Word → Bool × Bool} (h : memOk s) : OutOk (testedLane s d a b readsD f test) :=
  laneOp_wf h (fun _ _ _ => testedDone_wf h)

theorem testedGroup_wf {test : Word → Word → Word → Bool × Bool} (h : memOk s) : OutOk (testedGroup s d a b readsD f test) :=
  groupOp_wf h (fun _ _ _ => testedDone_wf h)

theorem faluReg_wf (h : memOk s) : OutOk (faluReg op sc d a b s) := by
  unfold faluReg
  split
  · exact testedLane_wf h
  · exact testedGroup_wf h
  · exact nearVector_wf h

theorem faluBits_wf {f : Word → Word → Word} (h : memOk s) : OutOk (faluBits f sc d a b s) := by
  unfold faluBits
  split
  · exact laneForm3_wf h
  · exact groupForm3_wf h
  · exact nearVector_wf h

theorem haluReg_wf {f : Fmt} (h : memOk s) : OutOk (haluReg f op d a b s) := testedLane_wf h

theorem startTested_wf {n : NfMasks} {ws : List PWrite} (h : memOk s) : OutOk (startTested s c sh la n ws) := issueLong_wf (fresh_wf h)

theorem daluReg_wf (h : memOk s) : OutOk (daluReg op d a b s) := laneOp_wf h (fun _ _ _ => startTested_wf h)

theorem sfuReg_wf {g : Word → Word} {test : Word → Bool × Bool} (h : memOk s) : OutOk (sfuReg g test d a s) :=
  laneOp_wf h (fun _ _ _ => startTested_wf h)

theorem dotIntReg_wf {signed : Bool} (h : memOk s) : OutOk (dotIntReg signed d a b s) := laneOp_wf h (fun _ _ _ => startLong_wf h)

theorem dotReg_wf {f : Fmt} {n : Nat} (h : memOk s) : OutOk (dotReg f n d a b s) := laneOp_wf h (fun _ _ _ => startTested_wf h)

/-! ## FALU (Table 9.2) -/

theorem execFcmp_wf {k : BitVec 4} (h : memOk s) : OutOk (execFcmp sc d a b k s) := by
  unfold execFcmp
  dsimp only
  split
  · exact laneOp_wf h (fun _ _ _ => testedDone_wf h)
  · exact groupOp_wf h (fun _ _ _ => testedDone_wf h)

/-! ## CVT (R224) -/

theorem cvtLane_wf (h : memOk s) : OutOk (cvtLane d a t u r x s) := laneOp_wf h (fun _ _ _ => testedDone_wf h)

theorem cvtGroup_wf (h : memOk s) : OutOk (cvtGroup d a t u r x s) := groupOp_wf h (fun _ _ _ => testedDone_wf h)

theorem cvtNear_wf (h : memOk s) : OutOk (cvtNear d a t u r x s) := onPair_wf (fun _ _ _ => nearDone_wf h)

theorem execCvt_wf (h : memOk s) : OutOk (execCvt sc d a t u r x s) := by
  unfold execCvt
  split
  · exact cvtLane_wf h
  · exact cvtGroup_wf h
  · exact cvtNear_wf h

/-! ## Cross-lane reads (R230) -/

theorem crossLane_wf {pick : (Nat → Word) → Mask → Nat → Nat × Nat} (h : memOk s) : OutOk (crossLane d a b pick s) := by
  unfold crossLane
  dsimp only
  refine whenActive_wf h (fun _ _ _ => ?_)
  split
  · exact violation_wf h
  · exact done_wf h

/-! ## Reductions and scans (R231, R232) -/

theorem reduce_wf {scan tested : Bool} {f : List Word → Word} (h : memOk s) : OutOk (reduce scan tested f d a s) :=
  laneOp_wf h (fun _ _ _ => ite_out (testedDone_wf h) (done_wf h))

/-! ## Selection (R233 to R237) -/

theorem argOp_wf {float most : Bool} {rank : Word → Nat} (h : memOk s) : OutOk (argOp float most rank d a s) :=
  laneOp_wf h (fun _ _ _ => ite_out (testedDone_wf h) (done_wf h))

theorem execTopk_wf (h : memOk s) : OutOk (execTopk d a b s) := by
  unfold execTopk
  dsimp only
  refine whenActive_wf h (fun _ _ _ => ?_)
  split
  · exact violation_wf h
  · exact done_wf h

theorem execMergek_wf (h : memOk s) : OutOk (execMergek d a b s) := by
  unfold execMergek
  dsimp only
  refine whenActive_wf h (fun _ _ _ => ?_)
  split
  · exact violation_wf h
  · exact done_wf h

/-! ## Checks at issue (R239) -/

theorem accessChecks_wf {m consumed live : Mask} {addr : Nat → Int} {legal : Nat → Bool} {space : Nat} {k : Out} (hs : memOk s)
    (hk : OutOk k) :
    OutOk (accessChecks s c sh m consumed live size addr legal write space k) := by
  unfold accessChecks
  refine ite_out (poisonUse_wf hs) ?_
  split
  · exact misaligned_wf hs
  · split
    · exact violation_wf hs
    · split
      · exact rangeTrap_wf hs
      · exact hk

/-! ## Global loads and stores of lanes -/

theorem globalLoad_wf {signed : Bool} {how : Access → Access} (h : memOk s) : OutOk (globalLoad d a size signed idx la how s) :=
  laneOp_wf h (fun _ _ _ => accessChecks_wf h (loadAccess_wf h))

theorem globalStore_wf {how : Access → Access} (h : memOk s) : OutOk (globalStore d a size idx how s) :=
  laneOp_wf h (fun _ _ _ => accessChecks_wf h (storeAccess_wf h))

theorem loadOp_wf (h : memOk s) : OutOk (loadOp d a m idx l s) := globalLoad_wf h

theorem loadNarrowOp_wf (h : memOk s) : OutOk (loadNarrowOp d a m idx l s) := globalLoad_wf h

theorem storeOp_wf (h : memOk s) : OutOk (storeOp d a m idx s) := globalStore_wf h

theorem storeQuadOp_wf (h : memOk s) : OutOk (storeQuadOp d a idx s) := globalStore_wf h

theorem loadTransientOp_wf (h : memOk s) : OutOk (loadTransientOp d a m idx l s) := globalLoad_wf h

/-! ## Scratch loads and stores (R242, R97) -/

theorem noteScratch_wf {a : Nat} (h : memOk s) : memOk (noteScratch s p a size) := fold_wf (fun _ _ h1 => noteOld_wf h1) _ h

theorem scratchSeen_wf {as : List Nat} (h : memOk s) : memOk (scratchSeen s c size as) := ite_wf h (settleEarly_wf h)

theorem scratchWrite_wf {a : Nat} {ws : List Word} (h : memOk s0) : memOk (scratchWrite s0 p a size ws) :=
  ite_wf (setScratch_wf (noteScratch_wf h)) (fold_wf (fun _ _ h1 => setScratch_wf h1) _ (noteScratch_wf h))

theorem settleMarks_wf {as : List Nat} (h : memOk s) : memOk (settleMarks s p size as) :=
  fold_wf (fun _ _ h1 => ite_wf (setMark_wf h1) h1) _ h

theorem scratchLoadOp_wf (h : memOk s) : OutOk (scratchLoadOp d a m idx l s) :=
  laneOp_wf h (fun _ _ _ => accessChecks_wf h (startLong_wf (scratchSeen_wf h)))

theorem scratchStoreOp_wf (h : memOk s) : OutOk (scratchStoreOp d a m idx s) :=
  laneOp_wf h (fun _ _ _ => accessChecks_wf h (done_wf (settleMarks_wf (fold_wf (fun _ _ h1 => scratchWrite_wf h1) _ h))))

/-! ## The B-store (R244) -/

theorem constLoadOp_wf (h : memOk s) : OutOk (constLoadOp d a m idx l s) := by
  unfold constLoadOp
  dsimp only
  refine whenActive_wf h (fun _ _ _ => ?_)
  split
  · exact violation_wf h
  · exact accessChecks_wf h (startLong_wf h)

/-! ## Group loads and stores (R245) -/

theorem groupLoadOp_wf (h : memOk s) : OutOk (groupLoadOp d a m idx l s) := groupOp_wf h (fun _ _ _ => accessChecks_wf h (loadAccess_wf h))

theorem groupStoreOp_wf (h : memOk s) : OutOk (groupStoreOp d a m idx s) := groupOp_wf h (fun _ _ _ => accessChecks_wf h (storeAccess_wf h))

theorem groupScratchLoadOp_wf (h : memOk s) : OutOk (groupScratchLoadOp d a m idx l s) :=
  groupOp_wf h (fun _ _ _ => accessChecks_wf h (startLong_wf (scratchSeen_wf h)))

theorem groupScratchStoreOp_wf (h : memOk s) : OutOk (groupScratchStoreOp d a m idx s) :=
  groupOp_wf h (fun _ _ _ => accessChecks_wf h (done_wf (scratchWrite_wf h)))

/-! ## Fences (R247) -/

theorem execFence_wf {x : Scope} {k : BitVec 3} {kind : BitVec 2} (h : memOk s) : OutOk (execFence x k kind s) :=
  whenActive_wf h (fun _ _ _ => ite_out (andThen_out (done_wf h) (fun _ h1 => logHeld_wf h1))
    (done_wf (ite_wf (ite_wf (releaseAt_wf h _ _) h) (acquireAt_wf (ite_wf (releaseAt_wf h _ _) h) _ _))))

/-! ## Atomics (R248) -/

theorem globalAtomic_wf {wide : Bool} {kind : BitVec 5} (h : memOk s) : OutOk (globalAtomic wide d a m kind l s) :=
  laneOp_wf h (fun _ _ _ => accessChecks_wf h (loadAccess_wf h))

theorem execAtom_wf {k : BitVec 5} (h : memOk s) : OutOk (execAtom sc d a m k l s) := by
  unfold execAtom
  dsimp only
  split
  · exact globalAtomic_wf h
  · exact groupOp_wf h (fun _ _ _ => accessChecks_wf h (loadAccess_wf h))

theorem scratchAtomic_wf {a : Nat} {kind : BitVec 5} {ops : List Word} (h : memOk s0) : memOk (scratchAtomic s0 p a kind ops).2 := by
  unfold scratchAtomic
  dsimp only
  split
  · exact setScratch_wf (noteScratch_wf h)
  · exact noteScratch_wf h

theorem scratchAtomics_wf {p : Nat} {kind : BitVec 5} {ad : Nat → Nat} {ops : Nat → List Word} {ls : List Nat} (h : memOk s) :
    memOk (scratchAtomics p kind ad ops s ls).2 := by
  induction ls generalizing s with
  | nil => exact h
  | cons i r ih => exact ih (scratchAtomic_wf h)

theorem execAtoms_wf {k : BitVec 5} (h : memOk s) : OutOk (execAtoms d a _m k l s) :=
  laneOp_wf h (fun _ _ _ => accessChecks_wf h (startLong_wf (scratchAtomics_wf h)))

end Sys2Proof.Proofs
end

section
/-! PROOFS. Canonical memory: control words, special registers, barriers, replays, tiles and queues (R99 to R102, R200 to R217, R249 to R260). -/

namespace Sys2Proof.Proofs

open Sys2Proof Sys2Proof.Machine Sys2Proof.Claim

variable {s : State} {a d b : BitVec 7} {sh : Sheaf} {p core n x plot : Nat} {c : Cur} {m : Mask} {sc : Scope} {ref : DWord} {l : BarLoc}
  {k : BitVec 4} {e : BitVec 1} {push : Bool}

/-! ## Branches (R200, R201, R202) -/

theorem jump_wf {target : Nat → DWord} (h : memOk s) : OutOk (jump s c sh m target) := ite_out (putSheaf_wf h) (putSheaf_wf h)

theorem nearBranch_wf {cond : NThr → Bool} {disp : Int} (h : memOk s) : OutOk (nearBranch s cond disp) :=
  onPair_wf (fun _ _ _ => putThr_wf h)

theorem branchMask_wf {m : BitVec 7} {j : BitVec 18} {sense : Bool} (h : memOk s) : OutOk (branchMask m j sense s) :=
  ite_out (nearBranch_wf h) (onSheaf_wf (fun _ _ => ite_out (poisonUse_wf h) (jump_wf h)))

theorem execCall_wf {j : BitVec 25} (h : memOk s) : OutOk (execCall j s) :=
  ite_out (onPair_wf (fun _ _ _ => putThr_wf h)) (onSheaf_wf (fun _ _ => withBudget_wf h (jump_wf h)))

theorem execJmpr_wf (h : memOk s) : OutOk (execJmpr a s) := by
  unfold execJmpr
  dsimp only
  refine ite_out (onPair_wf (fun _ _ _ => putThr_wf h)) ?_
  refine onSheaf_wf (fun _ _ => ?_)
  refine withBudget_wf h ?_
  refine ite_out (poisonUse_wf h) ?_
  split
  · exact misaligned_wf h
  · exact jump_wf h

/-! ## Control words (Table 8.7) -/

theorem execExit_wf (h : memOk s) : OutOk (execExit s) := onSheaf_wf (fun _ _ => ite_out (done_wf h) (afterEnd_wf (putSheaf_wf h)))

theorem yieldOp_wf (h : memOk s) : OutOk (yieldOp s) := onSheaf_wf (fun _ _ => andThen_out (done_wf h) (fun _ h1 => yieldSheaf_wf h1))

theorem execSetj_wf (h : memOk s) : OutOk (execSetj k s) := onSheaf_wf (fun _ _ => ite_out (rejoinOverflow_wf h) (done_wf h))

theorem execJoin_wf (h : memOk s) : OutOk (execJoin k s) :=
  onSheaf_wf (fun _ _ => ite_out (rejoinOverflow_wf h) (ite_wf (yieldSheaf_wf (putSheaf_wf h)) (putSheaf_wf h)))

theorem execJleave_wf (h : memOk s) : OutOk (execJleave k s) := onSheaf_wf (fun _ _ => ite_out (rejoinOverflow_wf h) (done_wf h))

theorem execHret_wf (h : memOk s) : OutOk (execHret s) := onSheaf_wf (fun _ _ => ite_out (leaveHandler_wf h) (privilege_wf h))

/-! ## Window base (R212) -/

theorem setWindows_wf {f : Nat → Int} (h : memOk s) : OutOk (setWindows s f) := by
  unfold setWindows
  dsimp only
  refine onSheaf_wf (fun _ _ => ?_)
  split
  · exact violation_wf h
  · exact done_wf h

/-! ## EXT (R173, R174, R176) -/

theorem orphan_wf (h : memOk s) : OutOk (orphan s) := onSheaf_wf (fun _ _ => trap_wf h)

theorem extAlu_wf {op : AluOp} {x : BitVec 36} (h : memOk s) : OutOk (extAlu op sc d a x s) :=
  ite_out (aluImm_wf h) (onSheaf_wf (fun _ _ => illegal_wf h))

theorem execExt_wf {i : BitVec 25} {next : BitVec 32} (h : memOk s) : OutOk (execExt sc i next s) := by
  unfold execExt
  dsimp only
  split
  · exact onSheaf_wf (fun _ _ => illegal_wf h)
  · exact ite_out (extAlu_wf h) (orphan_wf h)
  · exact ite_out (extAlu_wf h) (orphan_wf h)
  · exact ite_out (extAlu_wf h) (orphan_wf h)
  · exact ite_out (extAlu_wf h) (orphan_wf h)
  · exact ite_out (extAlu_wf h) (orphan_wf h)
  · exact ite_out (ite_out (loadImm_wf h) (onSheaf_wf (fun _ _ => illegal_wf h))) (orphan_wf h)
  · exact ite_out (loadOp_wf h) (orphan_wf h)
  · exact ite_out (loadNarrowOp_wf h) (orphan_wf h)
  · exact ite_out (storeOp_wf h) (orphan_wf h)
  · exact ite_out (storeQuadOp_wf h) (orphan_wf h)
  · exact ite_out (scratchLoadOp_wf h) (orphan_wf h)
  · exact ite_out (scratchStoreOp_wf h) (orphan_wf h)
  · exact ite_out (constLoadOp_wf h) (orphan_wf h)
  · exact ite_out (loadTransientOp_wf h) (orphan_wf h)
  · exact ite_out (groupLoadOp_wf h) (orphan_wf h)
  · exact ite_out (groupStoreOp_wf h) (orphan_wf h)
  · exact ite_out (groupScratchLoadOp_wf h) (orphan_wf h)
  · exact ite_out (groupScratchStoreOp_wf h) (orphan_wf h)
  · exact orphan_wf h

/-! ## Reading -/

theorem tickCounters_wf (h : memOk s) : memOk (tickCounters s sh x) := ite_wf h (ite_wf (count_wf h) h)

theorem afterRead_wf {held : Sheaf} (h : memOk s) : memOk (afterRead s held sh x).1 := by
  unfold afterRead
  dsimp only
  split
  · exact h
  · split
    · exact h
    · split
      · exact modCore_wf h
      · exact h

theorem execSrd_wf {x : BitVec 10} (h : memOk s) : OutOk (execSrd sc d x s) := by
  unfold execSrd
  dsimp only
  refine onSheaf_wf (fun _ _ => ?_)
  split
  · exact trap_wf h
  · refine ite_out (done_wf h) ?_
    split
    · exact done_wf (afterRead_wf (tickCounters_wf h))
    · exact withBudget_wf h (ite_out (done_wf h) (done_wf (afterRead_wf (tickCounters_wf h))))

/-! ## Writing -/

theorem setTarget_wf (h : memOk s) : memOk (setTarget s core n) := ite_wf h (ite_wf (due_wf (modCore_wf h)) (modCore_wf h))

theorem writeMargin_wf {v : Word} (h : memOk s) : memOk (writeMargin s core v) := setTarget_wf (modCore_wf h)

theorem writeSpecial_wf {v : Word} (h : memOk s) : memOk (writeSpecial s sh x v).1 := by
  unfold writeSpecial
  dsimp only
  split
  · exact h
  · exact h
  · exact h
  · exact h
  · exact h
  · exact h
  · exact writeMargin_wf h
  · exact modCore_wf h
  · exact modCore_wf h
  · exact h
  · split <;> exact h

theorem execSwr_wf {x : BitVec 10} (h : memOk s) : OutOk (execSwr sc a x s) := by
  unfold execSwr
  dsimp only
  refine onSheaf_wf (fun _ _ => ?_)
  split
  · exact trap_wf h
  · refine ite_out (done_wf h) ?_
    split
    · exact ite_out (poisonUse_wf h) (done_wf (writeSpecial_wf h))
    · exact withBudget_wf h (ite_out (poisonUse_wf h) (done_wf (writeSpecial_wf h)))

/-! ## References and locations (R249) -/

theorem withRef_wf {k : Out} (hs : memOk s) (hk : OutOk k) : OutOk (withRef s c sh m ref k) :=
  ite_out (queueFault_wf hs) (ite_out (violation_wf hs) hk)

/-! ## The object (Table 10.4) -/

theorem setBarWord_wf {k : Nat} {x : Word} (h : memOk s) : memOk (setBarWord s l k x) := ite_wf (setScratch_wf h) (putHome_wf h _ _ _)

theorem setBar_wf {b : Bar} {waiters : Bool} (h : memOk s) : memOk (setBar s l b waiters) :=
  setBarWord_wf (setBarWord_wf (setBarWord_wf (setBarWord_wf h)))

theorem wakeWaiters_wf (h : memOk s) : memOk (wakeWaiters s l) := fold_wf (fun _ _ h1 => due_wf h1) _ h

theorem arriveAt_wf {st : Nat} (h : memOk s) : SomeOk memOk (arriveAt s l n st) := by
  unfold arriveAt
  dsimp only
  split
  · exact ite_wf (wakeWaiters_wf (setBar_wf h)) (setBar_wf h)
  · trivial

/-! ## Naming an object (R361) -/

theorem touch_wf {launch die : Nat} (h : memOk s) : memOk (touch s launch ref die core) := by
  unfold touch
  refine ite_wf h ?_
  split
  · exact h
  · exact ite_wf h (ite_wf (modLaunch_wf h) (logEvent_wf h))

theorem touchBy_wf {bed : Nat} (h : memOk s) : memOk (touchBy s bed core ref) := touch_wf h

/-! ## Engine arrivals (R254, R255) -/

theorem engineArrive_wf {asid : BitVec 16} {st engine die ident : Nat} (h : memOk s) :
    memOk (engineArrive s asid plot ref n st engine die ident).1 := by
  unfold engineArrive
  split
  · exact h
  · split
    · split
      · rename_i heq
        exact (arriveAt_wf (ite_wf (unsnap_wf h) h)).get heq
      · exact logEvent_wf h
    · exact logEvent_wf h

/-! ## Barrier instructions and events (R252 to R258) -/

theorem withBarrier_wf {poisoned layout write : Bool} {k : State → BarLoc → Out} (hs : memOk s) (hk : ∀ t, memOk t → ∀ x, OutOk (k t x)) :
    OutOk (withBarrier s c sh m a poisoned layout write k) :=
  ite_out (poisonUse_wf hs) (ite_out (queueFault_wf hs) (ite_out (accessChecks_wf hs (hk _ (touchBy_wf hs) _))
    (accessChecks_wf hs (withPage_wf hs (fun _ h _ _ => hk _ (ite_wf (touchBy_wf h) h) _)))))

theorem execBinit_wf (h : memOk s) : OutOk (execBinit d a b s) :=
  groupOp_wf h (fun _ _ _ => withBarrier_wf h (fun _ h1 _ => ite_out (done_wf h1) (done_wf (setBar_wf h1))))

theorem arriveOp_wf {counted : Bool} (h : memOk s) : OutOk (arriveOp counted d a b s) := by
  unfold arriveOp
  dsimp only
  refine groupOp_wf h (fun _ _ _ => ?_)
  refine withBarrier_wf h (fun _ h1 _ => ?_)
  split
  · rename_i heq
    exact done_wf ((arriveAt_wf (releaseAt_wf h1 _ _)).get heq)
  · exact queueFault_wf (releaseAt_wf h1 _ _)

theorem execBtest_wf (h : memOk s) : OutOk (execBtest d a e s) :=
  groupOp_wf h (fun _ _ _ => withBarrier_wf h (fun _ h1 _ => ite_out (done_wf h1) (queueFault_wf h1)))

theorem execWaitb_wf (h : memOk s) : OutOk (execWaitb d a b s) :=
  groupOp_wf h (fun _ _ _ => withBarrier_wf h (fun _ h1 _ => ite_out (queueFault_wf h1)
    (ite_out (parkWait_wf (ite_wf h1 (setBar_wf h1))) (andThen_out (done_wf (acquireAt_wf h1 _ _)) (fun _ h2 => yieldSheaf_wf h2)))))

theorem execBarrierWake_wf {sheaf : Nat} (h : memOk s) : OutOk (execBarrierWake bed sheaf s) := by
  unfold execBarrierWake
  dsimp only
  split
  · exact h
  · split
    · exact h
    · exact setSheaf_wf (acquireAt_wf (bwait_wf h) _ _)

theorem execBarrierArrival_wf {asid : BitVec 16} {ref : BitVec 64} {count : BitVec 16} {status : BitVec 8} (h : memOk s) :
    OutOk (execBarrierArrival asid plot ref count status s) :=
  engineArrive_wf h

/-! ## Replays and margin traps (R370 to R372) -/

theorem modMargin_wf {f : Margin → Margin} (h : memOk s) : memOk (modMargin s core f) := modCore_wf h

theorem countReplay_wf (h : memOk s) : memOk (countReplay s core) := ite_wf (due_wf (modMargin_wf h)) (modMargin_wf h)

theorem countMarginTrap_wf {detail : Word} (h : memOk s) : memOk (countMarginTrap s core detail) :=
  ite_wf (due_wf (logEvent_wf (modMargin_wf h))) (logEvent_wf (modMargin_wf h))

/-! ## Injectors (R375) -/

theorem inject_wf {class_ : Nat} (h : memOk s) : memOk (inject s core class_).1 := by
  unfold inject
  dsimp only
  split
  · exact h
  · exact modMargin_wf h

/-! ## The tile table -/

theorem setTile_wf {k : Nat} {t : Tile} (h : memOk s) : memOk (setTile s p k t) := modPlot_wf h

theorem withTile_wf {h : Nat} {k : Nat → Nat → Tile → Out} (hs : memOk s) (hk : ∀ n n' x, OutOk (k n n' x)) :
    OutOk (withTile s c sh h k) := by
  unfold withTile
  dsimp only
  refine ite_out (tileTrap_wf hs) ?_
  split
  · exact hk _ _ _
  · exact tileTrap_wf hs

theorem wakeTiles_wf {b : Nat} (h : memOk s) : memOk (wakeTiles s b) := by
  unfold wakeTiles
  split
  · exact h
  · exact fold_wf (fun _ _ h1 => due_wf h1) _ h

theorem execTileWake_wf {bed sheaf : Nat} (h : memOk s) : OutOk (execTileWake bed sheaf s) := by
  unfold execTileWake
  dsimp only
  split
  · exact h
  · exact setSheaf_wf h

/-! ## TILE (Table 10.7) -/

theorem execTstate_wf (h : memOk s) : OutOk (execTstate d a s) :=
  groupOp_wf h (fun _ _ _ => ite_out (poisonUse_wf h) (withTile_wf h (fun _ _ _ => done_wf h)))

theorem execTrel_wf (h : memOk s) : OutOk (execTrel a s) :=
  groupOp_wf h (fun _ _ _ => ite_out (poisonUse_wf h) (withTile_wf h (fun _ _ _ => ite_out (done_wf (setTile_wf h)) (tileTrap_wf h))))

theorem execTwait_wf (h : memOk s) : OutOk (execTwait a s) :=
  groupOp_wf h (fun _ _ _ => ite_out (poisonUse_wf h) (withTile_wf h (fun _ _ _ => ite_out
    (andThen_out (done_wf (acquireAt_wf h _ _)) (fun _ h1 => yieldSheaf_wf h1)) (parkWait_wf h))))

theorem execTclaim_wf (h : memOk s) : OutOk (execTclaim a b s) := by
  unfold execTclaim
  dsimp only
  refine groupOp_wf h (fun _ _ _ => ?_)
  refine ite_out (poisonUse_wf h) ?_
  refine ite_out (tileTrap_wf h) ?_
  refine ite_out (misaligned_wf h) ?_
  refine ite_out (violation_wf h) ?_
  refine ite_out (tileTrap_wf h) ?_
  split
  · exact tileTrap_wf h
  · exact done_wf (setTile_wf h)

/-! ## Queues -/

theorem withQueue_wf {poisoned write init : Bool} {k : Nat → Nat → Out} (hs : memOk s) (hk : ∀ n n', OutOk (k n n')) :
    OutOk (withQueue s c sh m a poisoned write init k) := by
  unfold withQueue
  dsimp only
  refine ite_out (poisonUse_wf hs) ?_
  refine ite_out (misaligned_wf hs) ?_
  refine ite_out (queueFault_wf hs) ?_
  refine ite_out (queueFault_wf hs) ?_
  split
  · exact rangeTrap_wf hs
  · exact hk _ _

theorem execQinit_wf (h : memOk s) : OutOk (execQinit a b s) :=
  groupOp_wf h (fun _ _ _ => withQueue_wf h (fun _ _ => ite_out (queueFault_wf h)
    (done_wf (setMark_wf (fold_wf (fun _ _ h1 => setScratch_wf h1) _ h)))))

theorem putElement_wf {a : Nat} {ws : List PWord} (h : memOk s) : memOk (putElement s p a ws) :=
  fold_wf (fun _ _ h1 => setMark_wf h1) _ (fold_wf (fun _ _ h1 => setScratch_wf h1) _ h)

theorem forgetScratch_wf {p : Nat → Nat → Bool} (h : memOk s) : memOk (forgetScratch s p) := h

theorem setCount_wf {a k : Nat} (h : memOk s) : memOk (setCount s p a k n) := setScratch_wf (forgetScratch_wf h)

theorem fillPop_wf {b w : Nat} {lane : Bool} {d : Nat} (h : memOk s) : memOk (fillPop s b w sh lane d m) := ite_wf h (fillLines_wf h)

theorem wakeQueue_wf {a : Nat} (h : memOk s) : memOk (wakeQueue s p a push) := ite_wf h (due_wf h)

theorem pushElement_wf {a : Nat} {ws : List PWord} (h : memOk s) : memOk (pushElement s p a ws) :=
  wakeQueue_wf (setCount_wf (putElement_wf h))

theorem popElement_wf {a : Nat} (h : memOk s) : memOk (popElement s p a).2 := wakeQueue_wf (setCount_wf h)

theorem setWaitBits_wf {a : Nat} (h : memOk s) : memOk (setWaitBits s p a) := fold_wf (fun _ _ h1 => setScratch_wf h1) _ h

theorem parkQueue_wf {a : Nat} {lane : Bool} (h : memOk s) : OutOk (parkQueue s c sh m p a push lane d) :=
  parkWait_wf (ite_wf h (setWaitBits_wf (modPlot_wf h)))

theorem sampleQueue_wf {b a : Nat} (h : memOk s) : memOk (sampleQueue s b p a) := by
  unfold sampleQueue
  dsimp only
  split
  · exact h
  · exact fold_wf (fun _ _ h1 => ite_wf (modBed_wf h1) h1) _ h

theorem execQpush_wf (h : memOk s) : OutOk (execQpush d a e s) :=
  groupOp_wf h (fun _ _ _ => withBudget_wf h (withQueue_wf h (fun _ _ => ite_out (queueFault_wf h)
    (ite_out (done_wf (sampleQueue_wf (pushElement_wf h))) (parkQueue_wf h)))))

theorem execQpop_wf (h : memOk s) : OutOk (execQpop d a e s) :=
  groupOp_wf h (fun _ _ _ => withBudget_wf h (withQueue_wf h (fun _ _ => ite_out (queueFault_wf h)
    (ite_out (done_wf (sampleQueue_wf (popElement_wf h))) (parkQueue_wf h)))))

theorem execQcount_wf (h : memOk s) : OutOk (execQcount d a s) := groupOp_wf h (fun _ _ _ => withQueue_wf h (fun _ _ => done_wf h))

theorem serveWaiter_wf {a : Nat} (h : memOk s) : memOk (serveWaiter s p a push) := by
  unfold serveWaiter
  dsimp only
  refine ite_wf ?_ h
  split
  · exact h
  · split
    · exact setWaitBits_wf (modPlot_wf (forgetScratch_wf h))
    · exact ite_wf (setSheaf_wf (sampleQueue_wf (pushElement_wf (setWaitBits_wf (modPlot_wf (forgetScratch_wf h))))))
        (modSheaf_wf (sampleQueue_wf (popElement_wf (fillPop_wf (setWaitBits_wf (modPlot_wf (forgetScratch_wf h)))))))

theorem execQueueWake_wf {addr : BitVec 32} (h : memOk s) : OutOk (execQueueWake plot addr s) := serveWaiter_wf (serveWaiter_wf h)

end Sys2Proof.Proofs
end

section
/-! PROOFS. Canonical memory: the matrix engine, range tasks, rejoin spills and bank modes (R31 to R34, R40, R86, R208 to R211, R265 to R282). -/

namespace Sys2Proof.Proofs

open Sys2Proof Sys2Proof.Machine Sys2Proof.Claim

variable {s : State} {core b p bed bank op : Nat} {sh : Sheaf} {a d : BitVec 7} {c : Cur} {m : Mask} {k : Out} {t : Tmm}
  {rs : List (Nat × Nat)} {l : BitVec 4} {mode : BitVec 2}

/-! ## B operands (R270) -/

theorem withBytes_wf (hs : memOk s) (hk : OutOk k) : OutOk (withBytes s c sh m rs k) := by
  unfold withBytes
  split
  · exact violation_wf hs
  · exact ite_out (poisonUse_wf hs) hk

theorem withB_wf (hs : memOk s) (hk : OutOk k) : OutOk (withB s c sh m rs k) := by
  unfold withB
  dsimp only
  refine withBytes_wf hs ?_
  split
  · exact hk
  · exact rangeTrap_wf hs

/-! ## A operands of lanes (R271, R273) -/

theorem withClaim_wf (hs : memOk s) (hk : OutOk k) : OutOk (withClaim s c sh m k) := ite_out hk (violation_wf hs)

theorem withClean_wf {regs groups : List Nat} (hs : memOk s) (hk : OutOk k) : OutOk (withClean s c sh m regs groups k) :=
  ite_out (poisonUse_wf hs) (ite_out (poisonUse_wf hs) hk)

theorem headerFault_wf (h : memOk s) : OutOk (headerFault s c sh) := trap_wf h

/-! ## QMM and QMMS -/

theorem countB_wf {fused : Bool} (h : memOk s) : memOk (countB s core fused) := count_wf (ite_wf (count_wf h) h)

theorem quarterOp_wf {sparse : Bool} {t : BitVec 3} {b : BitVec 7} (h : memOk s) : OutOk (quarterOp sparse t a b l s) := by
  unfold quarterOp
  dsimp only
  refine laneOp_wf h (fun _ _ _ => ?_)
  refine withClaim_wf h ?_
  refine withClean_wf h ?_
  split
  · exact headerFault_wf h
  · refine withBudget_wf h ?_
    refine withClean_wf h ?_
    split
    · exact trap_wf h
    · exact withB_wf h (startTested_wf (countB_wf h))

/-! ## MVT (R276) -/

theorem execMvt_wf {b : BitVec 7} (h : memOk s) : OutOk (execMvt d a b l s) := by
  unfold execMvt
  dsimp only
  refine laneOp_wf h (fun _ _ _ => ?_)
  refine withClaim_wf h ?_
  refine withClean_wf h ?_
  split
  · exact headerFault_wf h
  · exact withBudget_wf h (ite_out (illegal_wf h) (withClean_wf h (withB_wf h (startTested_wf (countB_wf h)))))

/-! ## MACC (Table 11.4) -/

theorem putRows_wf {t : Nat} {row : Nat → List Word} (h : memOk s) : memOk (putRows s sh m t row) :=
  fold_wf (fun _ _ h1 => setRow_wf h1) _ h

theorem rowsDone_wf (h : memOk s) : OutOk (rowsDone s c) := by
  unfold rowsDone
  split
  · exact done_wf h
  · trivial

theorem execMwrite_wf {t : BitVec 3} (h : memOk s) : OutOk (execMwrite t a s) :=
  laneOp_wf h (fun _ _ _ => withClaim_wf h (withClean_wf h (rowsDone_wf (putRows_wf h))))

theorem execMzero_wf {t : BitVec 3} (h : memOk s) : OutOk (execMzero t s) :=
  laneOp_wf h (fun _ _ _ => withClaim_wf h (rowsDone_wf (putRows_wf h)))

/-! ## Registration of range locks (R127) -/

theorem takeLocks_wf {posn engine : Nat} {rs : List LockReq} (h : memOk s) :
    SomeOk (fun x => memOk x.2) (takeLocks s p posn engine rs) := by
  unfold takeLocks
  dsimp only
  split
  · trivial
  · exact modPlot_wf h

theorem freeLocks_wf {ks : List Nat} (h : memOk s) : memOk (freeLocks s p ks) := modPlot_wf h

theorem lockTile_wf {e k : Nat} (h : memOk s) : memOk (lockTile s p e k) := modPlot_wf h

theorem waitLocks_wf (h : memOk s) : OutOk (waitLocks s core) := count_wf h

/-! ## The matrix token (R29, R280) -/

theorem execMtokTake_wf (h : memOk s) : OutOk (execMtokTake s) := by
  unfold execMtokTake
  dsimp only
  refine groupOp_wf h (fun _ _ _ => ?_)
  refine ite_out (illegal_wf h) ?_
  split
  · exact done_wf (modCore_wf h)
  · exact ite_out (done_wf h) (parkWait_wf (modCore_wf h))

theorem execMtokPass_wf (h : memOk s) : OutOk (execMtokPass s) :=
  groupOp_wf h (fun _ _ _ => ite_out (illegal_wf h) (ite_out (andThen_out (done_wf h) (fun _ h1 => passToken_wf h1)) (queueFault_wf h)))

/-! ## The operands of TMM (R277) -/

theorem lockTmm_wf {posn : Nat} {t : TmmArgs} {ae ce : Nat × Tile} (h : memOk s) :
    SomeOk (fun x => memOk x.2) (lockTmm s core posn t ae ce) := by
  unfold lockTmm
  dsimp only
  split
  · trivial
  · rename_i heq
    exact lockTile_wf (lockTile_wf ((takeLocks_wf h).get heq))

theorem withScratch_wf (hs : memOk s) (hk : OutOk k) : OutOk (withScratch s c sh m rs k) := by
  unfold withScratch
  split
  · exact violation_wf hs
  · exact hk

theorem execTmm_wf {b : BitVec 7} (h : memOk s) : OutOk (execTmm d a b l s) := by
  unfold execTmm
  dsimp only
  refine groupOp_wf h (fun _ _ _ => ?_)
  refine ite_out (illegal_wf h) ?_
  refine withClaim_wf h ?_
  refine withClean_wf h ?_
  split
  · exact headerFault_wf h
  · refine withTile_wf h (fun _ _ _ => ?_)
    refine withTile_wf h (fun _ _ _ => ?_)
    refine ite_out (headerFault_wf h) ?_
    refine ite_out (parkWait_wf h) ?_
    refine ite_out (parkWait_wf h) ?_
    refine withRef_wf h ?_
    refine withScratch_wf h ?_
    refine withBytes_wf h ?_
    refine ite_out (poisonUse_wf h) ?_
    split
    · exact waitLocks_wf h
    · rename_i heq
      exact issueLong_wf (modCore_wf (touchBy_wf (fresh_wf ((lockTmm_wf h).get heq))))

/-! ## The sequencer (R278, R279) -/

theorem putCRow_wf {base n j r : Nat} {vs : List Word} (h : memOk s) : memOk (putCRow s p base n j r vs) :=
  setMark_wf (setMark_wf (fold_wf (fun _ _ h1 => setScratch_wf h1) _ h))

theorem putM7_wf {r : Nat} {vs : List Word} (h : memOk s) : memOk (putM7 s core r vs) := setRow_wf h

theorem noteSeen_wf {inp out : Bool} (h : memOk s) : memOk (noteSeen s t inp out) := by
  unfold noteSeen
  split
  · exact modSheaf_wf h
  · exact h

theorem endTmm_wf {trap_ : Option LateTrap} (h : memOk s) : memOk (endTmm s core t trap_) :=
  modSheaf_wf (engineArrive_wf (modCore_wf (freeLocks_wf h)))

theorem failTmm_wf {inp out : Bool} (h : memOk s) : memOk (failTmm s core t inp out) := by
  unfold failTmm
  dsimp only
  split
  · split
    · exact ite_wf (finishOp_wf (endTmm_wf h)) (takeTrap_wf (finishOp_wf (endTmm_wf h)))
    · exact endTmm_wf h
  · exact endTmm_wf h

theorem tmmStep_wf {g : TmmArgs} (h : memOk s) : memOk (tmmStep s core t g) := by
  unfold tmmStep
  extract_lets p abase cbase rows s1 d ar inp s2 s3 d' all out s4
  have h1 : memOk s1 := ite_wf h (fold_wf (fun _ _ h1 => putM7_wf h1) _ h)
  have h2 : memOk s2 := count_wf (fold_wf (fun _ _ h2 => putM7_wf h2) _ h1)
  have h3 : memOk s3 := noteSeen_wf h2
  have h4 : memOk s4 := noteSeen_wf (fold_wf (fun _ _ h4 => putCRow_wf h4) _ h3)
  exact ite_wf (failTmm_wf h2) (ite_wf (modCore_wf h3) (ite_wf (failTmm_wf h3) (modCore_wf h4)))

theorem relockTmm_wf {g : TmmArgs} (h : memOk s) : SomeOk (fun x => memOk x.1) (relockTmm s core t g) := by
  unfold relockTmm
  split
  · split
    · trivial
    · rename_i heq
      exact (lockTmm_wf h).get heq
  · exact h

theorem lateTmm_wf {inj : Bool} (h : memOk s) : memOk (lateTmm s core t inj) := by
  unfold lateTmm
  dsimp only
  refine ite_wf (modCore_wf (countReplay_wf h)) ?_
  split
  · exact countMarginTrap_wf (modCore_wf h)
  · exact ite_wf (countMarginTrap_wf (modCore_wf h)) (takeTrap_wf (countMarginTrap_wf (modCore_wf h)))

theorem execTmmKStep_wf (h : memOk s) : OutOk (execTmmKStep core s) := by
  unfold execTmmKStep
  split
  · exact h
  · refine ite_out h ?_
    split
    · exact h
    · split
      · exact waitLocks_wf h
      · rename_i heq
        exact ite_out (lateTmm_wf ((relockTmm_wf h).get heq)) (tmmStep_wf ((relockTmm_wf h).get heq))

theorem execTmmCompletion_wf (h : memOk s) : OutOk (execTmmCompletion core s) := by
  unfold execTmmCompletion
  split
  · exact h
  · exact ite_out (endTmm_wf h) h

/-! ## MDRAIN and MFILL (R282) -/

theorem frozenOp_wf {write : Bool} {k : Cur → Sheaf → Mask → DWord → Out} (hs : memOk s) (hk : ∀ c sh m x, OutOk (k c sh m x)) :
    OutOk (frozenOp s a write k) := by
  unfold frozenOp
  dsimp only
  refine onSheaf_wf (fun _ _ => ?_)
  refine ite_out (privilege_wf hs) ?_
  refine ite_out (illegal_wf hs) ?_
  refine ite_out (execTmmCompletion_wf hs) ?_
  refine withClaim_wf hs ?_
  refine withClean_wf hs ?_
  refine ite_out (misaligned_wf hs) ?_
  refine ite_out (violation_wf hs) ?_
  split
  · exact rangeTrap_wf hs
  · exact hk _ _ _ _

/-- The pages of an MDRAIN or an MFILL are translated one by one; the rest runs in the state the last one leaves. -/
theorem withPages_wf {c : Cur} {sh : Sheaf} {m : Mask} {write : Bool} {k : State → List (Nat × Bool) → Out} {vas : List DWord}
    {ps : List (Nat × Bool)} (hs : memOk s) (hk : ∀ t, memOk t → ∀ l, OutOk (k t l)) :
    OutOk (withPages s c sh m write k vas ps) := by
  induction vas generalizing s ps with
  | nil => exact hk _ hs _
  | cons va r ih =>
    unfold withPages
    split
    · rename_i heq
      exact holdWhole_wf (snd_wf (translateSaving_wf hs) heq)
    · rename_i heq
      exact ih (snd_wf (translateSaving_wf hs) heq)
    · trivial
    · rename_i heq
      exact violation_wf (snd_wf (translateSaving_wf hs) heq)

theorem execMdrain_wf (h : memOk s) : OutOk (execMdrain a s) :=
  frozenOp_wf h (fun _ _ _ _ => withPages_wf h (fun _ h1 _ => done_wf (fold_wf (fun _ _ h2 => writeWord_wf h2 _ _ _ _ _) _ h1)))

theorem execMfill_wf {a : BitVec 7} (h : memOk s) : OutOk (execMfill a s) := by
  refine frozenOp_wf h (fun c sh m va => withPages_wf h (fun s1 h1 ps => ?_))
  extract_lets core r ws seq s2 t s3 s4 s5
  have h2 : memOk s2 := readWords_wf (fun _ h2 _ => readWord_wf h2 _ _ _ _ _ _) h1
  have h3 : memOk s3 := by
    unfold s3
    split
    · exact freeLocks_wf h2
    · exact h2
  have h5 : memOk s5 := by
    unfold s5
    exact fold_wf (fun _ _ h4 => setRow_wf h4) (below 1024) (modCore_wf h3)
  clear_value r s5
  exact ite_out (poisonUse_wf h2) (ite_out (headerFault_wf h2) (ite_out (headerFault_wf h2) (rowsDone_wf h5)))

/-! ## Range tasks -/

theorem inRange_wf {k : Nat → Bed → Out} (hs : memOk s) (hk : ∀ n x, OutOk (k n x)) : OutOk (inRange s c sh k) := by
  unfold inRange
  split
  · exact hk _ _
  · exact illegal_wf hs

theorem execTdone_wf (h : memOk s) : OutOk (execTdone s) := groupOp_wf h (fun _ _ _ => inRange_wf h (fun _ _ => done_wf (modBed_wf h)))

theorem cutInterval_wf {v : Nat} {x : Bed} {cut : Word} (h : memOk s) : memOk (cutInterval s v x cut) := by
  unfold cutInterval
  dsimp only
  split
  · exact homeThrough_wf (modBed_wf h) _ _ _
  · exact modBed_wf h

theorem splitFor_wf (h : memOk s) : memOk (splitFor s b) := by
  unfold splitFor
  dsimp only
  split
  · refine ite_wf h ?_
    split
    · exact h
    · exact modBed_wf (cutInterval_wf h)
  · exact h

theorem takeGrain_wf {d g : Nat} (h : memOk s) : memOk (takeGrain s b d g sh).1 := by
  unfold takeGrain
  split
  · split
    · exact modBed_wf h
    · exact h
  · exact h

theorem serveSplit_wf {w : Nat} (h : memOk s) : memOk (serveSplit s b w) := by
  unfold serveSplit
  dsimp only
  split
  · split
    · exact splitFor_wf h
    · exact setSheaf_wf (takeGrain_wf (splitFor_wf h))
  · exact splitFor_wf h

theorem execTnext_wf (h : memOk s) : OutOk (execTnext d s) :=
  groupOp_wf h (fun _ _ _ => inRange_wf h (fun _ _ => ite_out (done_wf (takeGrain_wf h))
    (ite_out (ite_out (yieldSheaf_wf h) (done_wf (takeGrain_wf (splitFor_wf h)))) (due_wf (parkWait_wf (fresh_wf h))))))

theorem execSplitGrant_wf (h : memOk s) : OutOk (execSplitGrant bed s) := by
  unfold execSplitGrant
  dsimp only
  split
  · exact h
  · refine ite_out h ?_
    split
    · split
      · exact ite_wf (serveSplit_wf h) (due_wf (serveSplit_wf h))
      · exact serveSplit_wf h
    · exact h

/-! ## BEXIT (R40) -/

theorem dropWaitersOf_wf {p : Nat → Bool} (h : memOk s) : memOk (dropWaitersOf s b core p) := modCore_wf (modPlot_wf h)

theorem dropWaiters_wf (h : memOk s) : memOk (dropWaiters s b core) := dropWaitersOf_wf h

theorem execBexit_wf (h : memOk s) : OutOk (execBexit s) := by
  unfold execBexit
  dsimp only
  refine onSheaf_wf (fun _ _ => ?_)
  split
  · exact fold_wf (fun _ _ h1 => afterEnd_wf h1) _ (modBed_wf (dropWaitersOf_wf (putSheaf_wf h)))
  · exact modBed_wf (dropWaitersOf_wf (putSheaf_wf h))

/-! ## Rejoin spills (R208 to R211) -/

theorem spillAt_wf {write : Bool} {k : State → Nat → Bool → Out} (hs : memOk s) (hk : ∀ t, memOk t → ∀ n q, OutOk (k t n q)) :
    OutOk (spillAt s c sh a write k) :=
  ite_out (poisonUse_wf hs) (accessChecks_wf hs (withPage_wf hs (fun _ h _ _ => hk _ h _ _)))

theorem execJspill_wf {k : BitVec 4} (h : memOk s) : OutOk (execJspill k a s) :=
  onSheaf_wf (fun _ _ => ite_out (privilege_wf h) (ite_out (illegal_wf h) (spillAt_wf h
    (fun _ h1 _ _ => done_wf (writeWord_wf (writeWord_wf h1 _ _ _ _ _) _ _ _ _ _)))))

theorem execJfill_wf {k : BitVec 4} (h : memOk s) : OutOk (execJfill k a s) :=
  onSheaf_wf (fun _ _ => ite_out (privilege_wf h) (ite_out (rejoinOverflow_wf h)
    (ite_out (illegal_wf h) (spillAt_wf h (fun _ h1 _ _ => ite_out (poisonUse_wf (readWord_wf (readWord_wf h1 _ _ _ _ _ _) _ _ _ _ _ _))
    (done_wf (readWord_wf (readWord_wf h1 _ _ _ _ _ _) _ _ _ _ _ _)))))))

/-! ## Bank modes (R85 to R87) -/

theorem emptyWay_wf (h : memOk s) : memOk (emptyWay s p bank) := fold_wf (fun _ _ h1 => l1Revoke_wf h1 _ _) _ h

theorem switchBank_wf (h : memOk s) : memOk (switchBank s p bank mode) :=
  ite_wf h (modPlot_wf (ite_wf (emptyWay_wf (modPlot_wf h)) (modPlot_wf h)))

theorem execBankcfg_wf {b : BitVec 7} (h : memOk s) : OutOk (execBankcfg d a b s) :=
  onSheaf_wf (fun _ _ => ite_out (privilege_wf h) (ite_out (poisonUse_wf h) (ite_out (violation_wf h)
    (ite_out (illegal_wf h) (issueLong_wf (due_wf (fresh_wf h)))))))

theorem formGroup_wf {w : Nat} {x : Word} (h : memOk s) : memOk (formGroup s b w op x) := modSheaf_wf h

theorem endSwitch_wf {sheaf : Nat} (h : memOk s) : memOk (endSwitch s bed sheaf op bank mode) := by
  unfold endSwitch
  dsimp only
  split
  · exact h
  · exact ite_wf (formGroup_wf h) (formGroup_wf (switchBank_wf h))

theorem execBankSwitchCompletion_wf {sheaf : Nat} {bank : BitVec 9} (h : memOk s) :
    OutOk (execBankSwitchCompletion bed sheaf op bank mode s) := by
  unfold execBankSwitchCompletion
  dsimp only
  split <;> exact endSwitch_wf h

theorem endSwitchOf_wf {e : Event} (h : memOk s) : memOk (endSwitchOf s e) := by
  unfold endSwitchOf
  split
  · exact endSwitch_wf h
  · exact h

theorem endAfterEarlier_wf {n : Nat} {e : Event} (h : memOk s) : memOk (endAfterEarlier n s e) := by
  induction n generalizing s with
  | zero => exact endSwitchOf_wf h
  | succ n ih =>
    unfold endAfterEarlier
    split
    · dsimp only
      split
      · exact ih (endSwitchOf_wf h)
      · exact endSwitchOf_wf h
    · exact h

theorem endSwitches_wf (h : memOk s) : memOk (endSwitches s b) := fold_wf (fun _ _ h1 => ite_wf (endAfterEarlier_wf h1) h1) _ h

end Sys2Proof.Proofs
end

section
/-! PROOFS. Canonical memory: the fault queue, the operand log, copies and the bed image (R261 to R264, R349 to R354, R405). -/

namespace Sys2Proof.Proofs

open Sys2Proof Sys2Proof.Machine Sys2Proof.Claim

variable {s : State} {b w p core bed sheaf fn img base id bar n entry a copy lb : Nat} {asid : BitVec 16} {x : Xfer} {c : CopyOp}
  {va : DWord} {sh : Sheaf} {k : Option Backing} {m : Map Piece} {e : LogEnt}

/-! ## The fault queue (R353, R405) -/

theorem modFn_wf {f : Nat} {g : HostFn → HostFn} (h : memOk s) : memOk (modFn s f g) := h

theorem answer_wf {bs : List Byte} (h : memOk s) : memOk (answer s bs) := h

theorem discard_wf (h : memOk s) : memOk (discard s bar fn) := logEvent_wf h

theorem refused_wf (h : memOk s) : memOk (refused s bar fn n) := hostIf_wf (discard_wf h)

theorem refuse_wf (h : memOk s) : memOk (refuse s bar fn) := refused_wf h

theorem whenOpen_wf {k : Out} (hs : memOk s) (hk : OutOk k) : OutOk (whenOpen s bar fn n k) := ite_out hk (ite_wf (refused_wf hs) hs)

theorem postEntry_wf {e : BitVec 256} (h : memOk s) : memOk (postEntry s fn e) := ite_wf (modFn_wf (homePuts_wf h _ _)) h

theorem newToken_wf {t : Ticket} (h : memOk s) : memOk (newToken s t).2 := h

theorem dropTicket_wf {token : Word} (h : memOk s) : memOk (dropTicket s token) := h

theorem postFault_wf {kind log : Nat} {t : Ticket} (h : memOk s) : memOk (postFault s b w va kind log t).2 := by
  unfold postFault
  dsimp only
  split
  · exact h
  · exact postEntry_wf (newToken_wf h)

/-! ## The operand log -/

theorem setLog_wf {k : Nat} (h : memOk s) : memOk (setLog s b w k e) := modSheaf_wf h

theorem freeLogAt_wf {k : Nat} (h : memOk s) : memOk (freeLogAt s b w k) := modSheaf_wf h

theorem execPageFault_wf (h : memOk s) : OutOk (execPageFault bed sheaf entry s) := by
  unfold execPageFault
  dsimp only
  split
  · exact h
  · exact ite_out h (setLog_wf (postFault_wf h))

theorem logTrap_wf {t : LateTrap} (h : memOk s) : memOk (logTrap s b w e t) := by
  unfold logTrap
  split
  · exact modSheaf_wf h
  · split
    · exact h
    · exact ite_wf h (takeTrap_wf h)

theorem formLogged_wf {k : Nat} {rs : List (Nat × List PWord)} {m rest : Mask} {all : Bool} (h : memOk s) :
    memOk (formLogged s b w k rs m rest all) :=
  modSheaf_wf (fresh_wf h)

theorem logAccess_wf {run : Mask} (h : memOk s) : memOk (logAccess s b w core asid e run).st := runAccess_wf h

theorem retryLog_wf {k : Nat} (h : memOk s) : OutOk (retryLog s b w k) := by
  unfold retryLog
  split
  · extract_lets core asid run g bad okm rest s1
    have hg : memOk g.st := logAccess_wf h
    have h1 : memOk s1 := by
      unfold s1
      split
      · exact formLogged_wf hg
      · exact hg
    split
    · exact freeLogAt_wf h
    · split
      · exact logTrap_wf (freeLogAt_wf h)
      · exact ite_out trivial (ite_out (freeLogAt_wf h1) (ite_out (due_wf (setLog_wf h1)) (due_wf (setLog_wf h1))))
  · exact h

theorem execProtectionViolation_wf (h : memOk s) : OutOk (execProtectionViolation bed sheaf entry s) := by
  unfold execProtectionViolation
  split
  · exact h
  · exact ite_out (logTrap_wf (freeLogAt_wf h)) h

theorem makeHeld_wf (h : memOk s) : OutOk (makeHeld bed sheaf entry s) := by
  unfold makeHeld
  split
  · refine ite_out h ?_
    split
    · exact freeLogAt_wf (acquireAt_wf (releaseAt_wf h _ _) _ _)
    · exact retryLog_wf h
  · exact h

theorem resumeLog_wf {k : Nat} {fail : Bool} (h : memOk s) : OutOk (resumeLog s b w k fail) := by
  unfold resumeLog
  split
  · exact h
  · exact ite_out (logTrap_wf (freeLogAt_wf h)) (retryLog_wf h)

theorem waitSnap_wf (h : memOk s) : memOk (waitSnap s asid va) := ite_wf h (postEntry_wf (newToken_wf h))

theorem failFetch_wf {pc : DWord} (h : memOk s) : memOk (failFetch s b w pc) := by
  unfold failFetch
  dsimp only
  split
  · exact h
  · exact takeTrap_wf h

theorem failFetches_wf (h : memOk s) : memOk (failFetches s b) := by
  unfold failFetches
  refine fold_wf (fun _ _ h1 => ?_) _ h
  split
  · exact ite_wf (failFetch_wf (dropTicket_wf h1)) h1
  · exact h1

theorem resume_wf {token : Word} {fail : Bool} (h : memOk s) : OutOk (resume s fn token fail) := by
  unfold resume
  dsimp only
  split
  · exact discard_wf h
  · refine ite_out (refuse_wf h) ?_
    have h1 : memOk (dropTicket s token) := dropTicket_wf h
    split
    · refine ite_out (resumeLog_wf h1) ?_
      split
      · exact setLog_wf h1
      · exact h1
    · exact ite_out h1 (ite_out (failFetch_wf h1) h)
    · exact h
    · exact h1
    · split
      · exact h1
      · exact due_wf (copies_wf h1)

theorem execResumeRetry_wf {token : BitVec 32} (h : memOk s) : OutOk (execResumeRetry fn token s) := whenOpen_wf h (resume_wf h)

theorem execResumeFail_wf {token : BitVec 32} (h : memOk s) : OutOk (execResumeFail fn token s) := whenOpen_wf h (resume_wf h)

theorem execSnapshotCopy_wf {va : BitVec 64} (h : memOk s) : OutOk (execSnapshotCopy asid va s) := by
  unfold execSnapshotCopy
  dsimp only
  split
  · exact ite_out (SomeOk.getD (snapshotPage_wf h) h) h
  · exact h

/-! ## Fetch (R170, R343, R351, R355) -/

theorem fetchWord_wf {part : Nat} (h : memOk s) : memOk (fetchWord s core part asid va).2 := by
  unfold fetchWord
  split
  · exact h
  · split
    · rename_i heq
      exact snd_wf (translate_wf h _ _ _ _) heq
    · rename_i heq
      exact snd_wf (translate_wf h _ _ _ _) heq
    · rename_i heq
      exact snd_wf (translate_wf h _ _ _ _) heq
    · rename_i heq
      exact snd_wf (translate_wf h _ _ _ _) heq

theorem fetchAt_wf {part : Nat} {pc : DWord} (h : memOk s) : memOk (fetchAt s core part asid pc).2 := by
  unfold fetchAt
  split
  · rename_i heq
    split
    · split
      · rename_i heq'
        exact snd_wf (fetchWord_wf (snd_wf (fetchWord_wf h) heq)) heq'
      · rename_i heq'
        exact snd_wf (fetchWord_wf (snd_wf (fetchWord_wf h) heq)) heq'
      · exact fetchWord_wf (snd_wf (fetchWord_wf h) heq)
    · exact snd_wf (fetchWord_wf h) heq
  · exact fetchWord_wf h

theorem execFetchPageFault_wf {va : BitVec 64} (h : memOk s) : OutOk (execFetchPageFault bed sheaf va s) := by
  unfold execFetchPageFault
  dsimp only
  split
  · exact h
  · split
    · exact h
    · exact postFault_wf h

/-! ## Results and traps after issue -/

theorem execInstructionCompletion_wf {op : Nat} (h : memOk s) : OutOk (execInstructionCompletion bed sheaf op s) := by
  unfold execInstructionCompletion
  dsimp only
  split
  · exact h
  · split
    · exact h
    · refine ite_out h ?_
      split
      · exact finishOp_wf h
      · exact ite_out (modSheaf_wf h) (takeTrap_wf (modSheaf_wf h))

theorem execTakeTrap_wf {cause : BitVec 5} {pc : BitVec 64} {tmask detail : BitVec 32} (h : memOk s) :
    OutOk (execTakeTrap bed sheaf cause pc tmask detail s) := by
  unfold execTakeTrap
  dsimp only
  split
  · exact h
  · exact ite_out h (takeTrap_wf h)

theorem execWatchdogTrap_wf (h : memOk s) : OutOk (execWatchdogTrap bed sheaf s) := by
  unfold execWatchdogTrap
  dsimp only
  split
  · exact h
  · exact ite_out h (ite_out (takeTrap_wf (setSheaf_wf h)) (takeTrap_wf (setSheaf_wf h)))

/-! ## Issue (R261, R262) -/

theorem layoutFault_wf {c : Cur} (h : memOk s) : OutOk (layoutFault s c sh) := trap_wf h

theorem startCopy_wf {c : Cur} {ws : List Word} {l : Layout} {out : Bool} {q ref : DWord} {tile : Option (Nat × Tile)} {d : BitVec 7}
    {la : Nat} (h : memOk s) :
    OutOk (startCopy s c sh ws l out q ref tile d la) := by
  unfold startCopy
  extract_lets core p
  split
  · exact waitLocks_wf h
  · rename_i s1 heq
    have h1 : memOk s1 := (takeLocks_wf h).get heq
    extract_lets packLock s2 s3 id op cp s3' s4
    have h2 : memOk s2 := by
      unfold s2
      split
      · exact lockTile_wf (setTile_wf h1)
      · exact h1
    have h4 : memOk s4 := due_wf (copies_wf (fresh_wf (touchBy_wf h2)))
    exact ite_out (done_wf h4) (issueLong_wf h4)

theorem copyOp_wf {out : Bool} {d a b : BitVec 7} {la : Nat} (h : memOk s) : OutOk (copyOp out d a b la s) := by
  unfold copyOp
  dsimp only
  refine groupOp_wf h (fun _ _ _ => ?_)
  refine ite_out (poisonUse_wf h) ?_
  refine ite_out (layoutFault_wf h) ?_
  split
  · exact withTile_wf h (fun _ _ _ => ite_out (ite_out (withRef_wf h (startCopy_wf h)) (parkWait_wf h))
      (ite_out (withRef_wf h (startCopy_wf h)) (tileTrap_wf h)))
  · exact ite_out (violation_wf h) (withRef_wf h (startCopy_wf h))
  · exact ite_out (misaligned_wf h) (ite_out (violation_wf h) (withRef_wf h (startCopy_wf h)))

/-! ## The tiles of a pre-empted bed (R89, R98, R350) -/

theorem arriveFor_wf {launch plot : Nat} {ref : DWord} {st engine die ident : Nat} (h : memOk s) :
    memOk (arriveFor s launch asid plot ref n st engine die ident).1 := by
  unfold arriveFor
  split
  · split
    · rename_i heq
      exact (arriveAt_wf h).get heq
    · exact logEvent_wf h
  · exact engineArrive_wf h

theorem putPackByte_wf {x : Byte} (h : memOk s) : memOk (putPackByte s k p a x) := by
  unfold putPackByte
  split
  · exact homePut_wf h _ _
  · exact modPlot_wf h

theorem putPackMark_wf {g : Nat} {q : Bool} (h : memOk s) : memOk (putPackMark s k p g q) := by
  unfold putPackMark
  dsimp only
  split
  · exact homePut_wf h _ _
  · exact setMark_wf h

theorem putCopyTile_wf {e : Nat} {t : Tile} (h : memOk s) : memOk (putCopyTile s k p e t) := by
  unfold putCopyTile
  split
  · exact setHomeDWord_wf h _ _
  · exact setTile_wf h

/-! ## The transfer (R263) -/

theorem copyTranslate_wf {op : AccOp} (h : memOk x.st) : memOk (copyTranslate x core asid va op).2.st := by
  unfold copyTranslate
  split
  · rename_i heq
    exact snd_wf (translateSaving_wf h) heq
  · rename_i heq
    exact snd_wf (translateSaving_wf h) heq
  · rename_i heq
    exact snd_wf (translateSaving_wf h) heq

theorem readElement_wf {ebits off nib : Nat} {syn : Bool} {t : Nat} (h : memOk s) :
    memOk (readElement s core ebits w off nib syn t).2.2 := by
  unfold readElement
  dsimp only
  split
  · exact readWord_wf h _ _ _ _ _ _
  · split
    · exact readWord_wf h _ _ _ _ _ _
    · exact readWord_wf (readWord_wf h _ _ _ _ _ _) _ _ _ _ _ _

theorem gatherIn_wf (h : memOk x.st) : memOk (gatherIn l core asid x n).st := by
  unfold gatherIn
  dsimp only
  split
  · split <;> rename_i heq
    · exact readElement_wf (snd_keeps (P := fun x : Xfer => memOk x.st) (copyTranslate_wf h) heq)
    · have h1 := snd_keeps (P := fun x : Xfer => memOk x.st) (copyTranslate_wf h) heq
      exact h1
  · exact h

theorem gatherOut_wf {l : Layout} (h : memOk x.st) : memOk (gatherOut l k p base x n).st := by
  unfold gatherOut
  dsimp only
  split <;> exact h

theorem putScratchBytes_wf (h : memOk s) : memOk (putScratchBytes s k p base m) :=
  fold_wf (fun _ _ h1 => ite_wf (putPackMark_wf h1) (ite_wf (putPackMark_wf h1) h1)) _ (fold_wf (fun _ _ h1 => putPackByte_wf h1) _ h)

theorem putBackedBytes_wf {zero : Int} (h : memOk s) : memOk (putBackedBytes s zero base m) :=
  fold_wf (fun _ _ h1 => putHome_wf h1 _ _ _) _ h

theorem putBstoreBytes_wf (h : memOk s) : memOk (putBstoreBytes s core base m) := modCore_wf (modCore_wf h)

theorem putVaWord_wf (h : memOk x.st) : memOk (putVaWord core asid m x w).st := by
  unfold putVaWord
  dsimp only
  split
  · rename_i heq
    exact snd_keeps (P := fun x : Xfer => memOk x.st) (copyTranslate_wf h) heq
  · rename_i heq
    exact writeWord_wf (snd_keeps (P := fun x : Xfer => memOk x.st) (copyTranslate_wf h) heq) _ _ _ _ _

theorem Xfer_start_wf (h : memOk s) : memOk (Xfer.start s).st := h

theorem probeWords_wf {ws : List Nat} (h : memOk x.st) : memOk (probeWords core asid x ws).st :=
  foldl_keeps (P := fun x : Xfer => memOk x.st) _ (fun _ _ h1 => copyTranslate_wf h1) _ h

theorem gather_wf (h : memOk s) : memOk (gather s c).st := by
  unfold gather
  dsimp only
  split
  · exact probeWords_wf (foldl_keeps (P := fun x : Xfer => memOk x.st) _ (fun _ _ h1 => gatherOut_wf h1) _ (Xfer_start_wf h))
  · split
    · exact probeWords_wf (foldl_keeps (P := fun x : Xfer => memOk x.st) _ (fun _ _ h1 => gatherIn_wf h1) _ (Xfer_start_wf h))
    · exact foldl_keeps (P := fun x : Xfer => memOk x.st) _ (fun _ _ h1 => gatherIn_wf h1) _ (Xfer_start_wf h)

theorem deliver_wf (h : memOk x.st) : memOk (deliver x c) := by
  unfold deliver
  dsimp only
  refine ite_wf (foldl_keeps (P := fun x : Xfer => memOk x.st) _ (fun _ _ h1 => putVaWord_wf h1) _ h) ?_
  split
  · exact putScratchBytes_wf h
  · split
    · exact putBackedBytes_wf h
    · exact putBstoreBytes_wf h
  · exact foldl_keeps (P := fun x : Xfer => memOk x.st) _ (fun _ _ h1 => putVaWord_wf h1) _ h

/-! ## The end of a copy (R263, R264) -/

theorem copyArrive_wf {s0 : State} {st : Nat} (h : memOk s0) : memOk (copyArrive s0 c st).1 := by
  unfold copyArrive
  dsimp only
  split
  · exact h
  · split
    · split
      · rename_i heq
        exact (arriveAt_wf (ite_wf (unsnap_wf (releaseHost_wf h _)) (releaseHost_wf h _))).get heq
      · exact logEvent_wf (releaseHost_wf h _)
    · exact logEvent_wf (releaseHost_wf h _)

theorem endCopy_wf {poison failed : Bool} (h : memOk s) : memOk (endCopy s id c poison failed) := by
  unfold endCopy
  dsimp only
  split
  · refine formGroup_wf ?_
    refine copyArrive_wf ?_
    split
    · exact ite_wf (putCopyTile_wf (freeLocks_wf h)) (wakeTiles_wf (putCopyTile_wf (freeLocks_wf h)))
    · exact freeLocks_wf h
  · refine copyArrive_wf ?_
    split
    · exact ite_wf (putCopyTile_wf (freeLocks_wf h)) (wakeTiles_wf (putCopyTile_wf (freeLocks_wf h)))
    · exact freeLocks_wf h

theorem failCopy_wf {hostError : Bool} (hx : memOk x.st) : memOk (failCopy s id c x hostError) := by
  unfold failCopy
  dsimp only
  refine endCopy_wf ?_
  refine logEvent_wf ?_
  split
  · exact fold_wf (fun _ _ h => putPackMark_wf h) _ (deliver_wf hx)
  · split
    · exact fold_wf (fun _ _ h => setDram_wf h _ _) _ (deliver_wf hx)
    · exact modCore_wf (deliver_wf hx)
  · exact deliver_wf hx

theorem stallCopy_wf {kind : Nat} (h : memOk x.st) : memOk (stallCopy id c x va kind) := postEntry_wf (newToken_wf h)

theorem runCopy_wf (h : memOk s) : memOk (runCopy s id c) := by
  unfold runCopy
  dsimp only
  split
  · exact due_wf h
  · exact due_wf h
  · exact endCopy_wf (deliver_wf (gather_wf h))

theorem execCopyCompletion_wf (h : memOk s) : OutOk (execCopyCompletion copy s) := by
  unfold execCopyCompletion
  split
  · exact h
  · exact ite_out h (runCopy_wf h)

theorem execCopyTransferFailure_wf {hostError : Bool} (h : memOk s) : OutOk (execCopyTransferFailure copy hostError s) := by
  unfold execCopyTransferFailure
  dsimp only
  split
  · exact h
  · exact ite_out (failCopy_wf (gather_wf h)) (ite_wf h (due_wf h))

theorem execCopyPageFault_wf (h : memOk s) : OutOk (execCopyPageFault copy s) := by
  unfold execCopyPageFault
  dsimp only
  split
  · exact h
  · refine ite_out h ?_
    split
    · exact stallCopy_wf (gather_wf h)
    · exact due_wf h

/-! ## Room in the context pool -/

theorem zeroRange_wf {a n : Nat} (h : memOk s) : memOk (zeroRange s a n) := mcanon_filter h _

theorem ensureImage_wf (h : memOk s) : SomeOk (fun x => memOk x.2) (ensureImage s b) := by
  unfold ensureImage
  dsimp only
  split
  · trivial
  · split
    · exact h
    · split
      · trivial
      · exact modBed_wf (zeroRange_wf h)

theorem freeImage_wf (h : memOk s) : memOk (freeImage s b) := by
  unfold freeImage
  dsimp only
  split
  · exact h
  · split
    · exact h
    · exact modBed_wf h

/-! ## Words and registers in the image -/

theorem imgWord_wf {x : Word} (h : memOk s) : memOk (imgWord s a x) := homeThrough_wf h _ _ _

theorem imgWords_wf {xs : List Word} (h : memOk s) : memOk (imgWords s a xs) := fold_wf (fun _ _ h1 => imgWord_wf h1) _ h

theorem putTag_wf {code : Nat} (h : memOk s) : memOk (putTag s lb p code) := imgWord_wf h

theorem saveTags_wf (h : memOk s) : memOk (saveTags s lb sh) :=
  fold_wf (fun _ _ h1 => ite_wf h1 (imgWord_wf h1)) _ (fold_wf (fun _ _ h1 => ite_wf h1 (putTag_wf h1)) _ h)

theorem saveReg_wf (h : memOk s) : memOk (saveReg s lb sh p) := imgWords_wf (imgWords_wf (imgWord_wf (putTag_wf h)))

theorem writeLine_wf (h : memOk s) : memOk (writeLine s b w img p) := by
  unfold writeLine
  split
  · exact h
  · exact fold_wf (fun _ _ h1 => saveReg_wf h1) _ h

theorem dropLine_wf (h : memOk s) : memOk (dropLine s b w img p) := by
  unfold dropLine
  dsimp only
  split
  · exact h
  · exact modSheaf_wf (writeLine_wf h)

theorem evictReg_wf (h : memOk s) : memOk (evictReg s b w img p core) := count_wf (dropLine_wf h)

/-! ## Slot state and group block (Table 17.5, R63) -/

theorem saveSlot_wf {token : Bool} (h : memOk s) : memOk (saveSlot s b w img sh token) := fold_wf (fun _ _ h1 => imgWords_wf h1) _ h

theorem saveGroup_wf (h : memOk s) : memOk (saveGroup s b w img sh) := imgWords_wf h

theorem saveReply_wf {regs : List Nat} (h : memOk s) : memOk (saveReply s b w regs) := by
  unfold saveReply
  split
  · split
    · exact fold_wf (fun _ _ h1 => saveReg_wf h1) _ (imgWords_wf (imgWords_wf h))
    · exact h
  · exact h

theorem saveHead_wf {acc plot : Bool} (h : memOk s) : memOk (saveHead s b img acc plot) := by
  unfold saveHead
  dsimp only
  split
  · exact h
  · exact imgWords_wf (imgWords_wf h)

end Sys2Proof.Proofs
end

section
/-! PROOFS. Canonical memory: collectives (R384 to R402). -/

namespace Sys2Proof.Proofs

open Sys2Proof Sys2Proof.Machine Sys2Proof.Claim

variable {s : State} {id port launch b d q index binding pkt coll : Nat} {c : Coll} {data : List Byte}

/-! ## Reading and writing blocks at the home caches (R384) -/

theorem vaWrite_wf {asid : BitVec 16} {va : DWord} {bs : List Byte} (h : memOk s) : SomeOk memOk (vaWrite asid s va bs) := by
  induction bs generalizing s va with
  | nil => exact h
  | cons x r ih =>
    unfold vaWrite
    split
    · exact ih (homePut_wf (noteHome_wf (unsnap_wf h)) _ _)
    · trivial

/-! ## Side information (R392) -/

theorem putSide_wf (h : memOk s) : memOk (putSide s c) := SomeOk.getD (vaWrite_wf h) h

/-! ## Arming (R389, R393, R398, R400) -/

theorem armOne_wf {l : Launch} {e : BitVec 512} (h : memOk s) : RightOk memOk (armOne s launch binding l e) := by
  unfold armOne
  split
  · trivial
  · refine ite_right trivial ?_
    extract_lets coded tree opaque_ f id used f2
    split
    · trivial
    · extract_lets full c s1 s2 s3
      refine ite_right trivial ?_
      have h1 : memOk s1 := fresh_wf h
      have h2 : memOk s2 := ite_wf (putSide_wf h1) h1
      have h3 : memOk s3 := touch_wf h2
      exact show memOk _ from ite_wf (logEvent_wf h3) h3

theorem armFrom_wf {launch k : Nat} {l : Launch} {es : List (BitVec 512)} (h : memOk s) : RightOk memOk (armFrom launch l s k es) := by
  induction es generalizing s k with
  | nil => exact h
  | cons e r ih =>
    unfold armFrom
    split
    · trivial
    · rename_i heq
      exact ih ((armOne_wf h).get heq)

/-! ## The end of a collective (R389, R390) -/

theorem modColl_wf {f : Coll → Coll} (h : memOk s) : memOk (modColl s id f) := by
  unfold modColl
  split <;> exact h

theorem freeColl_wf (h : memOk s) : memOk (freeColl s id) := by
  unfold freeColl
  dsimp only
  split <;> exact h

theorem stopColl_wf (h : memOk s) : memOk (stopColl s id) := freeColl_wf h

theorem flushColl_wf (h : memOk s) : memOk (flushColl s c) := fold_wf (fun _ _ h1 => SomeOk.getD (vaWrite_wf h1) h1) _ h

theorem collArrive_wf {st : Nat} (h : memOk s) : memOk (collArrive s c st) := engineArrive_wf h

theorem endColl_wf (h : memOk s) : memOk (endColl s id) := by
  unfold endColl
  dsimp only
  split
  · exact h
  · exact collArrive_wf (ite_wf (putSide_wf (flushColl_wf (freeColl_wf h))) (flushColl_wf (freeColl_wf h)))

theorem failColl_wf {why : Nat} (h : memOk s) : memOk (failColl s id why) := by
  unfold failColl
  dsimp only
  split
  · exact h
  · exact collArrive_wf (modLaunch_wf (logEvent_wf (flushColl_wf (stopColl_wf h))))

theorem stopColls_wf (h : memOk s) : memOk (stopColls s launch) := fold_wf (fun _ _ h1 => stopColl_wf h1) _ h

/-! ## The fire record (R286, R387) -/

theorem discardFire_wf (h : memOk s) : memOk (discardFire s launch index) := logEvent_wf h

theorem markFired_wf {e : BitVec 512} (h : memOk s) : memOk (markFired s launch binding index e) := by
  unfold markFired
  dsimp only
  split
  · exact h
  · split
    · exact killLaunch_wf h
    · exact modLaunch_wf h

theorem fireAtExit_wf (h : memOk s) : memOk (fireAtExit s launch binding index) := by
  unfold fireAtExit
  split
  · exact h
  · split
    · exact h
    · exact ite_wf (discardFire_wf h) (ite_wf h (ite_wf (discardFire_wf h) (markFired_wf h)))

theorem fireByWord_wf (h : memOk s) : SomeOk memOk (fireByWord s launch binding index) := by
  unfold fireByWord
  split
  · trivial
  · split
    · trivial
    · split
      · trivial
      · split
        · exact discardFire_wf h
        · exact markFired_wf h

theorem failUnfired_wf (h : memOk s) : memOk (failUnfired s launch) := by
  unfold failUnfired
  refine fold_wf (fun _ _ h1 => ?_) _ h
  split
  · exact ite_wf (failColl_wf h1) h1
  · exact h1

/-! ## Packets and frames (R394, R399) -/

theorem stepCounter_wf {out : Bool} (h : memOk s) : memOk (stepCounter s port out) := ite_wf (logEvent_wf h) h

theorem sendFrame_wf {group : Word} {bytes : List Byte} (h : memOk s) : memOk (sendFrame s port group bytes) := ite_wf h (stepCounter_wf h)

theorem sendPkt_wf {h : BitVec 512} {payload : List Byte} {dst : List Nat} (hs : memOk s) : memOk (sendPkt s c h payload dst) :=
  ite_wf (ite_wf hs (fresh_wf hs)) (sendFrame_wf (ite_wf hs (fresh_wf hs)))

theorem takeSeq_wf (h : memOk s) : memOk (takeSeq s port).2 := h

theorem sendData_wf {b : Block} (h : memOk s) : memOk (sendData s id b) := by
  unfold sendData
  dsimp only
  split
  · exact h
  · exact ite_wf h (ite_wf (fold_wf (fun _ _ h1 => sendPkt_wf (takeSeq_wf h1)) _ h) (sendPkt_wf (takeSeq_wf h)))

theorem answerOf_wf {step kind rank block from_ dst : Nat} (h : memOk s) : memOk (answerOf s id c step kind rank block from_ dst) :=
  sendPkt_wf (takeSeq_wf h)

theorem sendAnswer_wf {kind rank block from_ dst : Nat} (h : memOk s) : memOk (sendAnswer s id kind rank block from_ dst) := by
  unfold sendAnswer
  split
  · exact h
  · exact answerOf_wf h

/-! ## What a received block does (R385, R386, R388) -/

theorem destWrite_wf {id : Nat} {c : Coll} {va : DWord} {data : List Byte} (h : memOk s) : SomeOk memOk (destWrite s id c va data) :=
  SomeOk.map (vaWrite_wf h) (fun _ _ => modColl_wf h)

theorem dropStaged_wf {f : Staged → Bool} (h : memOk s) : memOk (dropStaged s id f) := modColl_wf h

theorem settleStaged_wf (h : memOk s) : SomeOk memOk (settleStaged s id c d b) := by
  unfold settleStaged
  dsimp only
  split
  · split
    · exact destWrite_wf (dropStaged_wf h)
    · exact h
  · split
    · exact destWrite_wf (dropStaged_wf h)
    · exact h

theorem makeRoom_wf {level : Nat} (h : memOk s) : SomeOk memOk (makeRoom s port level) := by
  unfold makeRoom
  dsimp only
  split
  · exact h
  · split
    · exact h
    · trivial

theorem stageBlock_wf (h : memOk s) : memOk (stageBlock s id q b d data) := by
  unfold stageBlock
  dsimp only
  split
  · exact h
  · refine modColl_wf ?_
    refine SomeOk.getD ?_ h
    split
    · trivial
    · exact makeRoom_wf h

theorem placeBlock_wf (h : memOk s) : SomeOk memOk (placeBlock s id q b d data) := by
  unfold placeBlock
  dsimp only
  split
  · trivial
  · split
    · exact destWrite_wf h
    · split
      · exact destWrite_wf h
      · exact destWrite_wf h
      · split
        · exact settleStaged_wf (stageBlock_wf h)
        · trivial

theorem ackBlock_wf (h : memOk s) : memOk (ackBlock s id q b d) := modColl_wf h

theorem checkStep_wf (h : memOk s) : memOk (checkStep s id) := by
  unfold checkStep
  dsimp only
  split
  · exact h
  · exact ite_wf (ite_wf (endColl_wf (modColl_wf h)) (modColl_wf h)) h

theorem acceptBlock_wf {back : Nat} (h : memOk s) : memOk (acceptBlock s id q b d back data) := by
  unfold acceptBlock
  dsimp only
  split
  · exact h
  · refine ite_wf h ?_
    refine ite_wf (sendAnswer_wf h) ?_
    split
    · exact h
    · rename_i heq
      exact ite_wf (sendAnswer_wf (modColl_wf ((placeBlock_wf h).get heq))) (checkStep_wf
          (ackBlock_wf (sendAnswer_wf (modColl_wf ((placeBlock_wf h).get heq)))))

theorem ackAgain_wf {done step back : Nat} (h : memOk s) : memOk (ackAgain s id c done q b port step back) := ite_wf (answerOf_wf h) h

/-! ## Fires -/

theorem execCollfire_wf {a b : BitVec 7} (h : memOk s) : OutOk (execCollfire a b s) := by
  refine groupOp_wf h (fun c sh _ => ?_)
  have h1 : memOk (releaseAt s sh.place.core 5) := releaseAt_wf h _ _
  refine ite_out (poisonUse_wf h) ?_
  dsimp only
  generalize releaseAt s sh.place.core 5 = r at h1 ⊢
  split
  · rename_i heq
    exact done_wf ((fireByWord_wf h1).get heq)
  · exact queueFault_wf h1

theorem execCollectiveFire_wf {index : BitVec 32} {bed : Nat} {sheaf : Option Nat} (h : memOk s) :
    OutOk (execCollectiveFire launch binding index bed sheaf s) := by
  unfold execCollectiveFire
  dsimp only
  split
  · exact fireAtExit_wf h
  · split
    · rename_i heq
      exact (fireByWord_wf h).get heq
    · exact takeTrap_wf h
    · exact h

/-! ## Steps -/

theorem pinBlock_wf {level : Nat} {p : Pin} (h : memOk s) : SomeOk memOk (pinBlock level s p) :=
  SomeOk.map (makeRoom_wf h) (fun _ h1 => h1)

theorem pinStep_wf {id : Nat} {c : Coll} {bs : List Block} (h : memOk s) : SomeOk memOk (pinStep s id c bs) := by
  unfold pinStep
  refine SomeOk.map (P := memOk) (foldl_keeps (P := SomeOk memOk) _ (fun o k ho => ?_) _ h) (fun _ h1 => fold_wf (fun _ x h2 => ?_) _ h1)
  · split
    · exact pinBlock_wf ho
    · trivial
  · split
    · split
      · exact (pinBlock_wf h2).getD h2
      · exact h2
    · exact h2

theorem copyLocal_wf {bs : List Block} (h : memOk s) : memOk (copyLocal s id bs) := by
  unfold copyLocal
  refine fold_wf (fun _ _ h1 => ?_) _ h
  split
  · exact h1
  · refine ite_wf ?_ h1
    split
    · rename_i heq
      exact modColl_wf (ackBlock_wf ((placeBlock_wf h1).get heq))
    · exact h1

theorem execStepStart_wf (h : memOk s) : OutOk (execStepStart coll s) := by
  unfold execStepStart
  dsimp only
  split
  · exact h
  · refine ite_out h ?_
    refine ite_out (killLaunch_wf h) ?_
    split
    · exact h
    · rename_i heq
      exact checkStep_wf (ite_wf (copyLocal_wf (modColl_wf ((pinStep_wf h).get heq)))
          (fold_wf (fun _ _ h1 => sendData_wf h1) _ (copyLocal_wf (modColl_wf ((pinStep_wf h).get heq)))))

/-! ## Coding (R393, R396) -/

theorem sendGroup_wf {g : List Block} (h : memOk s) : memOk (sendGroup s id g) := by
  unfold sendGroup
  dsimp only
  split
  · exact modColl_wf (sendData_wf h)
  · exact modColl_wf (sendPkt_wf (takeSeq_wf h))
  · exact h

theorem execPacketForming_wf (h : memOk s) : OutOk (execPacketForming coll s) := by
  unfold execPacketForming
  dsimp only
  split
  · exact h
  · exact ite_out h (fold_wf (fun _ _ h1 => sendGroup_wf h1) _ (modColl_wf h))

/-! ## Packets that arrive -/

theorem pktReached_wf {k : Nat} {p : Pkt} (h : memOk s) : memOk (pktReached s k port p) := h

theorem execData_wf (h : memOk s) : OutOk (execData pkt s) := by
  unfold execData
  dsimp only
  split
  · exact h
  · refine ite_out h ?_
    split
    · split
      · exact ite_wf (ackAgain_wf (pktReached_wf h)) (pktReached_wf h)
      · exact pktReached_wf h
    · split
      · exact ackAgain_wf (pktReached_wf h)
      · exact acceptBlock_wf (pktReached_wf h)

theorem testEviction_wf {others : List (Nat × Nat × Nat × Nat)} (h : memOk s) : memOk (testEviction s id port c others) := ite_wf h h

theorem countMiss_wf (h : memOk s) : memOk (countMiss s id) := by
  unfold countMiss
  dsimp only
  split
  · exact h
  · exact ite_wf (logEvent_wf (modColl_wf h)) (modColl_wf h)

theorem execCoded_wf (h : memOk s) : OutOk (execCoded pkt port s) := by
  unfold execCoded
  dsimp only
  split
  · exact h
  · refine ite_out h ?_
    split
    · exact pktReached_wf h
    · split
      · exact pktReached_wf h
      · split
        · exact testEviction_wf (pktReached_wf h)
        · split
          · exact acceptBlock_wf (testEviction_wf (pktReached_wf h))
          · exact sendAnswer_wf (countMiss_wf (testEviction_wf (pktReached_wf h)))

theorem execAck_wf (h : memOk s) : OutOk (execAck pkt s) := by
  unfold execAck
  dsimp only
  split
  · exact h
  · refine ite_out h ?_
    split
    · exact pktReached_wf h
    · exact checkStep_wf (ackBlock_wf (pktReached_wf h))

theorem execNack_wf (h : memOk s) : OutOk (execNack pkt s) := by
  unfold execNack
  dsimp only
  split
  · exact h
  · refine ite_out h ?_
    split
    · exact pktReached_wf h
    · exact modColl_wf (sendData_wf (pktReached_wf h))

theorem execStepTimeout_wf (h : memOk s) : OutOk (execStepTimeout coll s) := by
  unfold execStepTimeout
  dsimp only
  split
  · exact h
  · exact ite_out h (ite_out (failColl_wf h) (checkStep_wf (fold_wf (fun _ _ h1 => sendData_wf h1) _ (copyLocal_wf (modColl_wf h)))))

/-! ## Tests, peer groups and links -/

theorem execPdtestWrite_wf {value : BitVec 64} (h : memOk s) : OutOk (execPdtestWrite port value s) := ite_out h h

theorem execPeerGroupRegistration_wf {handle : BitVec 16} {ranks : List (BitVec 8)} {ports : BitVec 8} {mcast : BitVec 32}
    {inSwitch endToEnd : Bool} (h : memOk s) :
    OutOk (execPeerGroupRegistration handle ranks ports mcast inSwitch endToEnd s) :=
  ite_out h (ite_out h h)

theorem execAmsanKeyInstall_wf {out : Bool} {key : BitVec 256} {salt : BitVec 32} (h : memOk s) :
    OutOk (execAmsanKeyInstall port out key salt s) :=
  ite_out h (ite_out (fold_wf (fun _ _ h1 => sendFrame_wf h1) _ h) h)

theorem dropFrame_wf (h : memOk s) : memOk (dropFrame s port) := logEvent_wf h

theorem execAmsanFrame_wf {frame : List (BitVec 8)} (h : memOk s) : OutOk (execAmsanFrame port frame s) := by
  unfold execAmsanFrame
  dsimp only
  refine ite_out h ?_
  split
  · exact dropFrame_wf (ite_wf (stepCounter_wf h) h)
  · exact ite_out (dropFrame_wf (stepCounter_wf h)) (ite_wf (stepCounter_wf h) (fresh_wf (stepCounter_wf h)))

end Sys2Proof.Proofs
end

section
/-! PROOFS. Canonical memory: batches, heaps, messages and the near-only instructions (R142 to R169, R283 to R294). -/

namespace Sys2Proof.Proofs

open Sys2Proof Sys2Proof.Machine Sys2Proof.Claim

variable {s : State} {d a h b : BitVec 7} {e q src x code : Nat} {n : NCur} {k : CtxKind} {snap : Word}

/-! ## Batches: what a context reads and writes (R166, R167) -/

theorem modSearch_wf {f : Search → Search} (h : memOk s) : memOk (modSearch s q f) := by
  unfold modSearch
  split <;> exact h

theorem modBatch_wf {b : Nat} {f : Batch → Batch} (h : memOk s) : memOk (modBatch s b f) := by
  unfold modBatch
  split <;> exact h

theorem modHold_wf {f : Hold → Hold} (h : memOk s) : memOk (modHold s k f) := by
  unfold modHold
  split
  · exact modBatch_wf h
  · exact modSearch_wf h
  · exact modSearch_wf h
  · exact modSearch_wf h

theorem nearRead_wf {n : Nat} {va : DWord} (h : memOk s) : memOk (nearRead s k n va).2 := by
  unfold nearRead
  dsimp only
  split
  · exact h
  · exact modHold_wf h

theorem nearWrite_wf {as : List Nat} {bs : List Byte} (h : memOk s) : memOk (nearWrite s k as bs) := modHold_wf h

/-! ## Heaps (R148, R149) -/

theorem modChain_wf {home : Nat} {f : Chain → Chain} (h : memOk s) : memOk (modChain s q home f) := modEngine_wf h

/-! ## Messages (R161, R162) -/

theorem deliverMsg_wf {dest : Nat} {m : Msg} (h : memOk s) : memOk (deliverMsg s src dest m) := modEngine_wf (modEngine_wf h)

theorem hardMsg_wf {dest kind count : Nat} {last : Bool} {qid : Nat} {items : List Nat} {holds : Bool} {dreqs : Nat} (h : memOk s) :
    memOk (hardMsg s src dest kind count last qid snap items holds dreqs) :=
  ite_wf (deliverMsg_wf h) (modEngine_wf h)

theorem sendWaiting_wf (h : memOk s) : memOk (sendWaiting src s) := by
  unfold sendWaiting
  split
  · exact h
  · exact modEngine_wf (modEngine_wf h)

theorem takeMsg_wf {m : Msg} (h : memOk s) : memOk (takeMsg s e m) := modEngine_wf h

theorem parkMsgs_wf {kind : Nat} (h : memOk s) : memOk (parkMsgs s e kind) := modEngine_wf h

/-! ## Contexts (R136, R143) -/

theorem startCtx_wf {kind : CtxKind} {lib : Nat} {r : Routine} {fetchPc mathPc : Nat} {g : Map DWord} {v : Map (List Word)}
    {grant : Map Byte} {holds : Bool} {dreqs : Nat} (h : memOk s) :
    memOk (startCtx s e x kind lib r fetchPc mathPc g v grant holds dreqs) :=
  modEngine_wf h

theorem endCtx_wf (h : memOk s) : memOk (endCtx s e x) := modEngine_wf h

/-! ## The end of a batch (R168) -/

theorem homeLineFlush_wf {pa : Nat} (h : memOk s) : memOk (homeLineFlush s pa) := fold_wf (fun _ _ h1 => homeFlush_wf h1 _) _ h

theorem commitByte_wf {hd : Hold} {x : Nat × Byte} (h : memOk s) : memOk (commitByte hd s x) :=
  setByte_wf (homeLineFlush_wf (noteHome_wf h)) _ _

theorem commitHold_wf {h : Hold} (hs : memOk s) : memOk (commitHold s h) := fold_wf (fun _ _ h1 => commitByte_wf h1) _ hs

/-! ## Fields of cards and descriptors (Tables 6.4 and 6.5) -/

theorem putPaged_wf {pages : List Nat} {va : DWord} {k : Nat} {bs : List Byte} (h : memOk s) : memOk (putPaged pages va s k bs) := by
  induction bs generalizing s k with
  | nil => exact h
  | cons b r ih => exact ih (homePut_wf (noteHome_wf h) _ _)

/-! ## Registered snapshots (R154) -/

theorem settleLow_wf {h : Nat} (hs : memOk s) : memOk (settleLow s h) := by
  unfold settleLow
  dsimp only
  split
  · exact hs
  · exact ite_wf hs (putHome_wf hs _ _ _)

theorem registerSnap_wf {h : Nat} (hs : memOk s) : memOk (registerSnap s h snap) := by
  unfold registerSnap
  split
  · exact hs
  · exact settleLow_wf hs

theorem deregisterSnap_wf {h : Nat} (hs : memOk s) : memOk (deregisterSnap s h snap) := by
  unfold deregisterSnap
  split
  · exact hs
  · exact settleLow_wf hs

/-! ## Ending and running again -/

theorem purgeSearch_wf (h : memOk s) : memOk (purgeSearch s q) := h

theorem restartSearch_wf {h : Hold} (hs : memOk s) : memOk (restartSearch s q h) := modSearch_wf (purgeSearch_wf hs)

theorem endSearch_wf {e : Ending} (h : memOk s) : memOk (endSearch s q e) := by
  unfold endSearch
  split
  · exact h
  · extract_lets s1 rva s2 s3 ident
    have h1 : memOk s1 := purgeSearch_wf h
    have h2 : memOk s2 := ite_wf (putPaged_wf (fold_wf (fun _ _ h2 => unsnap_wf h2) _ h1)) h1
    have h3 : memOk s3 := ite_wf (deregisterSnap_wf h2) h2
    exact arriveFor_wf (searches_wf h3)

theorem checkSearch_wf (h : memOk s) : memOk (checkSearch s q) := by
  unfold checkSearch
  dsimp only
  refine ite_wf h ?_
  split
  · exact h
  · exact ite_wf (restartSearch_wf h) (endSearch_wf (commitHold_wf h))

theorem abandonSearches_wf {launch : Nat} (h : memOk s) : memOk (abandonSearches s launch) := fold_wf (fun _ _ h1 => endSearch_wf h1) _ h

/-! ## Batches of calls (R166, R168, R169) -/

theorem failBatch_wf {k : Nat} (h : memOk s) : memOk (failBatch s k code) := by
  unfold failBatch
  dsimp only
  split
  · exact h
  · split
    · exact h
    · exact ite_wf h (takeTrap_wf (setSheaf_wf h))

theorem restartBatch_wf {k : Nat} {h : Hold} (hs : memOk s) : memOk (restartBatch s k h) := modBatch_wf hs

theorem endBatch_wf {k : Nat} (h : memOk s) : memOk (endBatch s e x k) := by
  unfold endBatch
  dsimp only
  split
  · exact endCtx_wf h
  · exact ite_wf (restartBatch_wf (endCtx_wf h)) (fold_wf (fun _ _ h1 => due_wf h1) _ (modBatch_wf (commitHold_wf (endCtx_wf h))))

theorem discardBatches_wf {launch : Nat} (h : memOk s) : memOk (discardBatches s launch) := h

/-! ## Faults (R142, R169) -/

theorem faultCtx_wf (h : memOk s) : memOk (faultCtx s e x code) := by
  unfold faultCtx
  split
  · exact h
  · extract_lets s1
    have h1 : memOk s1 := logEvent_wf (endCtx_wf h)
    split
    · exact failBatch_wf h1
    · exact checkSearch_wf (modSearch_wf h1)
    · split
      · exact h1
      · exact hardMsg_wf (modSearch_wf h1)
    · extract_lets s2
      have h2 : memOk s2 := modSearch_wf h1
      split
      · exact h2
      · exact ite_wf h2 (hardMsg_wf h2)

theorem nearFault_wf (h : memOk s) : OutOk (nearFault s n code) := faultCtx_wf h

theorem execEngineFault_wf {engine ctx : Nat} {code : BitVec 8} (h : memOk s) : OutOk (execEngineFault engine ctx code s) := faultCtx_wf h

theorem execQueueDeadlockFault_wf {engine ctx : Nat} (h : memOk s) : OutOk (execQueueDeadlockFault engine ctx s) := by
  unfold execQueueDeadlockFault
  split
  · exact h
  · exact ite_out (faultCtx_wf h) h

/-! ## Near-only instructions (R287) -/

theorem nearOnly_wf {k : NCur → Ctx → NThr → Out} (hs : memOk s) (hk : ∀ n x u, OutOk (k n x u)) : OutOk (nearOnly s k) :=
  ite_out (onPair_wf (fun _ _ _ => hk _ _ _)) (onSheaf_wf (fun _ _ => illegal_wf hs))

/-! ## LDB and STB (R288) -/

theorem markPoison_wf {q : Bool} (h : memOk s) : memOk (markPoison s k q) := by
  unfold markPoison
  split
  · exact ite_wf (modSearch_wf h) h
  · exact h

theorem execLdb_wf {m : BitVec 2} {o : BitVec 5} (h : memOk s) : OutOk (execLdb d a m o s) := by
  unfold execLdb
  dsimp only
  refine nearOnly_wf h (fun _ _ _ => ?_)
  refine ite_out (nearFault_wf h) ?_
  refine ite_out (ite_out (nearFault_wf h) (nearDone_wf h)) ?_
  split
  · exact nearFault_wf h
  · rename_i heq
    exact nearDone_wf (markPoison_wf (snd_wf (nearRead_wf h) heq))

theorem outgrown_wf {x : Ctx} (h : memOk s) : memOk (outgrown s n x) := by
  unfold outgrown
  split
  · exact restartBatch_wf (endCtx_wf h)
  · exact restartSearch_wf h
  · exact restartSearch_wf h
  · exact restartSearch_wf h

theorem execStb_wf {m : BitVec 2} {o : BitVec 5} (h : memOk s) : OutOk (execStb d a m o s) := by
  unfold execStb
  dsimp only
  refine nearOnly_wf h (fun _ _ _ => ?_)
  refine ite_out (nearFault_wf h) ?_
  refine ite_out (ite_out (nearFault_wf h) (andThen_out (nearDone_wf h) (fun _ h1 => modCtx_wf h1))) ?_
  split
  · exact nearFault_wf h
  · exact ite_out (outgrown_wf (unsnap_wf h)) (andThen_out (nearDone_wf (nearWrite_wf (unsnap_wf h))) (fun _ h1 => modCtx_wf h1))

/-! ## DIST (R289) -/

theorem execDist_wf {c : BitVec 4} (h : memOk s) : OutOk (execDist d a b c s) := by
  unfold execDist
  dsimp only
  refine nearOnly_wf h (fun _ _ _ => ?_)
  refine ite_out (nearFault_wf h) ?_
  split
  · exact nearFault_wf h
  · rename_i heq
    exact nearDone_wf (markPoison_wf (snd_wf (nearRead_wf h) heq))

/-! ## Heaps (R290) -/

theorem putChain_wf {c : Chain} {ents : List HeapEnt} (h : memOk s) : memOk (putChain s n c ents) := modEngine_wf h

theorem dropChain_wf {c : Chain} (h : memOk s) : memOk (dropChain s n c) := modEngine_wf h

theorem withChain_wf {x : Ctx} {h : DWord} {k : Chain → Out} (hs : memOk s) (hk : ∀ x, OutOk (k x)) : OutOk (withChain s n x h k) := by
  unfold withChain
  split
  · exact hk _
  · exact nearFault_wf hs

theorem execHpush_wf {k i : BitVec 7} (hs : memOk s) : OutOk (execHpush h k i s) :=
  nearOnly_wf hs (fun _ _ _ => withChain_wf hs (fun _ => nearDone_wf (putChain_wf hs)))

theorem execHpop_wf (hs : memOk s) : OutOk (execHpop d h s) :=
  nearOnly_wf hs (fun _ _ _ => withChain_wf hs (fun _ => nearDone_wf (putChain_wf hs)))

theorem execHtop_wf {r : BitVec 7} (hs : memOk s) : OutOk (execHtop d h r s) :=
  nearOnly_wf hs (fun _ _ _ => withChain_wf hs (fun _ => nearDone_wf hs))

theorem execHchain_wf {n : BitVec 7} (h : memOk s) : OutOk (execHchain d n s) := by
  unfold execHchain
  dsimp only
  refine nearOnly_wf h (fun _ _ _ => ?_)
  refine ite_out (nearFault_wf h) ?_
  refine ite_out (withChain_wf h (fun _ => nearDone_wf (dropChain_wf h))) ?_
  split
  · exact nearDone_wf h
  · exact nearDone_wf (modEngine_wf h)

/-! ## Messages and walkers (R291, R292) -/

theorem block_wf {t : NThr} {w : NWait} (h : memOk s) : OutOk (block s n t w) := putThr_wf h

theorem sendMsg_wf {x : Ctx} {t : NThr} {header : BitVec 128} {body : BitVec 512} {k : State → Out} (hs : memOk s)
    (hk : ∀ t, memOk t → OutOk (k t)) :
    OutOk (sendMsg s n x t header body k) :=
  ite_out (nearFault_wf hs) (ite_out (block_wf hs) (hk _ (modCtx_wf (deliverMsg_wf hs))))

theorem execMsgSend_wf (hs : memOk s) : OutOk (execMsgSend h a s) :=
  nearOnly_wf hs (fun _ _ _ => ite_out (nearFault_wf hs) (sendMsg_wf hs (fun _ h1 => nearDone_wf h1)))

theorem execWhop_wf {e : BitVec 7} (h : memOk s) : OutOk (execWhop a e s) :=
  nearOnly_wf h (fun _ _ _ => sendMsg_wf h (fun _ h1 => endCtx_wf h1))

theorem execWspawn_wf {e : BitVec 7} (h : memOk s) : OutOk (execWspawn a e s) := by
  unfold execWspawn
  dsimp only
  refine nearOnly_wf h (fun _ _ _ => ?_)
  refine sendMsg_wf h (fun _ h1 => ?_)
  refine nearDone_wf ?_
  split
  · exact modSearch_wf h1
  · exact h1

theorem execWend_wf (h : memOk s) : OutOk (execWend s) := by
  unfold execWend
  refine nearOnly_wf h (fun _ _ _ => ?_)
  split
  · split
    · exact endCtx_wf h
    · exact ite_out (endBatch_wf h) (nearFault_wf h)
  · exact checkSearch_wf (endCtx_wf h)
  · exact checkSearch_wf (endCtx_wf h)
  · exact checkSearch_wf (endCtx_wf h)

theorem execNmret_wf {t : BitVec 7} (h : memOk s) : OutOk (execNmret a t s) := by
  unfold execNmret
  dsimp only
  refine nearOnly_wf h (fun _ _ _ => ?_)
  split
  · split
    · exact nearFault_wf h
    · split
      · exact nearFault_wf h
      · exact ite_out (nearFault_wf h) (nearDone_wf (modBatch_wf h))
  · exact nearFault_wf h

/-! ## The queues of a pair (R138, R294) -/

theorem execNearQpush_wf {q e : BitVec 1} (h : memOk s) : OutOk (execNearQpush d q e s) :=
  nearOnly_wf h (fun _ _ _ => ite_out (nearFault_wf h) (ite_out (ite_out (block_wf h) (nearDone_wf (modCtx_wf h)))
    (ite_out (block_wf h) (nearDone_wf (modCtx_wf h)))))

theorem execNearQpop_wf {q e : BitVec 1} (h : memOk s) : OutOk (execNearQpop d q e s) := by
  unfold execNearQpop
  dsimp only
  refine nearOnly_wf h (fun _ _ _ => ?_)
  refine ite_out (nearFault_wf h) ?_
  refine ite_out ?_ ?_
  · split
    · exact block_wf h
    · exact nearDone_wf (modCtx_wf h)
  · split
    · exact block_wf h
    · exact nearDone_wf (modCtx_wf h)

/-! ## NMCALL (R283) -/

theorem argAddrs_wf {c : Cur} {sh : Sheaf} {m : Mask} {va : Nat → DWord} {k : State → List (Nat × Nat) → Out} {ls : List Nat}
    {acc : List (Nat × Nat)} (hs : memOk s) (hk : ∀ t, memOk t → ∀ l, OutOk (k t l)) : OutOk (argAddrs s c sh m va k ls acc) := by
  induction ls generalizing s acc with
  | nil => exact hk _ hs _
  | cons i r ih =>
    unfold argAddrs
    split
    · rename_i heq
      exact holdWhole_wf (snd_wf (translateSaving_wf hs) heq)
    · rename_i heq
      have h1 := snd_wf (translateSaving_wf hs) heq
      exact ite_out (violation_wf h1) (ih h1)
    · trivial
    · rename_i heq
      exact violation_wf (snd_wf (translateSaving_wf hs) heq)

theorem parkPool_wf {c : Cur} {sh : Sheaf} (h : memOk s) : memOk (parkPool s c sh) := yieldSheaf_wf (putSheaf_wf h)

theorem addBatch_wf {c : Cur} {d routine count : Nat} {va : Nat → DWord} {args : List (Nat × Nat)} (h : memOk s) :
    memOk (addBatch s c d routine count va args e) :=
  fresh_wf h

theorem execNmcall_wf (h : memOk s) : OutOk (execNmcall d a b s) :=
  whenActive_wf h (fun _ _ _ => withBudget_wf h (ite_out (poisonUse_wf h) (ite_out (poisonUse_wf h)
    (ite_out (illegal_wf h) (withBudget_wf h (accessChecks_wf h (argAddrs_wf h
    (fun _ h1 _ => parkPool_wf (fold_wf (fun _ _ h2 => addBatch_wf h2) _ h1)))))))))

theorem batchArgs_wf {k i : Nat} {cs : List NCall} {g : Map Byte} {q : Bool} (h : memOk s) : memOk (batchArgs k s i cs g q).2 := by
  induction cs generalizing s i g q with
  | nil => exact h
  | cons c r ih =>
    unfold batchArgs
    split
    · rename_i heq
      exact snd_wf (nearRead_wf h) heq
    · rename_i heq
      exact ih (snd_wf (nearRead_wf h) heq)

theorem refuseBatch_wf {k : Nat} (h : memOk s) : memOk (refuseBatch s k e code) := failBatch_wf (logEvent_wf h)

theorem execNmcallBatch_wf {batch : Nat} (h : memOk s) : OutOk (execNmcallBatch batch s) := by
  unfold execNmcallBatch
  dsimp only
  split
  · exact h
  · refine ite_out h ?_
    split
    · exact refuseBatch_wf h
    · exact h
    · split
      · rename_i heq
        exact refuseBatch_wf (snd_wf (batchArgs_wf h) heq)
      · rename_i heq
        exact modBatch_wf (ite_wf (modCtx_wf (startCtx_wf (snd_wf (batchArgs_wf h) heq))) (startCtx_wf (snd_wf (batchArgs_wf h) heq)))

theorem writeReply_wf {b w : Nat} {sh : Sheaf} {regs : List Nat} {put : Sheaf → Sheaf} (h : memOk s) :
    memOk (writeReply s b w sh regs put) :=
  ite_wf (modSheaf_wf (fillLines_wf (wakeLines_wf h))) (modSheaf_wf (saveReply_wf (modSheaf_wf (wakeLines_wf h))))

theorem execNmcallReply_wf {batch call : Nat} (h : memOk s) : OutOk (execNmcallReply batch call s) := by
  unfold execNmcallReply
  dsimp only
  split
  · exact h
  · split
    · split
      · exact h
      · split
        · exact ite_wf h (modBatch_wf h)
        · exact ite_out (ite_wf h (modBatch_wf h)) (writeReply_wf (ite_wf h (modBatch_wf h)))
    · exact h

/-! ## Versions (R153, R285) -/

theorem execNmcommit_wf {l : BitVec 4} (h : memOk s) : OutOk (execNmcommit d a b l s) :=
  groupOp_wf h (fun _ _ _ => ite_out (poisonUse_wf h) (issueLong_wf (due_wf (fresh_wf (releaseAt_wf h _ _)))))

theorem execVersionCommit_wf {bed sheaf op : Nat} {handle expected : BitVec 32} (h : memOk s) :
    OutOk (execVersionCommit bed sheaf op handle expected s) := by
  unfold execVersionCommit
  split
  · exact formGroup_wf h
  · exact ite_out (formGroup_wf h) (ite_out (formGroup_wf h) (formGroup_wf (settleLow_wf (putHome_wf h _ _ _))))

theorem execIndexRegistration_wf {asid : BitVec 16} {va : BitVec 64} (h : memOk s) : OutOk (execIndexRegistration asid va s) := by
  unfold execIndexRegistration
  dsimp only
  refine ite_out h ?_
  split
  · exact ite_out (answer_wf h) (answer_wf h)
  · exact answer_wf h

end Sys2Proof.Proofs
end

section
/-! PROOFS. Canonical memory: placement, pre-emption, launches and the host (R36, R327 to R338, R349, R357 to R366, R403 to R408). -/

namespace Sys2Proof.Proofs

open Sys2Proof Sys2Proof.Machine Sys2Proof.Claim

variable {s : State} {b launch k fn bed p core w reg sheaf bank n st size : Nat} {l : Launch} {bd : Bed} {bs : List (Nat × Bed)}
  {asid q : BitVec 16}

/-! ## A bed's start (R31, R41, R318, R420) -/

theorem startSheaves_wf (h : memOk s) : memOk (startSheaves s b) := by
  unfold startSheaves
  split
  · refine fold_wf (fun _ _ h1 => ?_) _ h
    split
    · exact ite_wf (setSheaf_wf h1) h1
    · exact h1
  · exact h

theorem takeBank_wf {mode : BitVec 2} (h : memOk s) : memOk (takeBank s p b bank mode) := modBed_wf (modPlot_wf (switchBank_wf h))

theorem takeBanks_wf {mode : BitVec 2} (h : memOk s) : memOk (takeBanks s p b n mode) := fold_wf (fun _ _ h1 => takeBank_wf h1) _ h

theorem loadPin_wf {p : BitVec 128} (h : memOk s) : memOk (loadPin l core s p) := by
  unfold loadPin
  dsimp only
  split
  · exact h
  · exact modCore_wf h

theorem loadBstore_wf (h : memOk s) : memOk (loadBstore s launch l core) :=
  ite_wf h (fold_wf (fun _ _ h1 => loadPin_wf h1) _ (modCore_wf h))

theorem placeBed_wf {linear : Nat} (h : memOk s) : memOk (placeBed s launch l core linear) := by
  have h1 : ∀ bd, memOk (loadBstore (takeBanks (takeBanks { (fresh s).2 with beds := mset (fresh s).2.beds (fresh s).1 bd }
      (plotOf core) (fresh s).1 (recField l.record 527 512) 1#2) (plotOf core) (fresh s).1 (recField l.record 543 528) 2#2) launch l core) :=
    fun _ => loadBstore_wf (takeBanks_wf (takeBanks_wf (beds_wf (fresh_wf h))))
  unfold placeBed
  exact startSheaves_wf (acquireAt_wf (ite_wf (modCore_wf (h1 _)) (h1 _)) _ _)

/-! ## Which core (R334) -/

theorem placeRun_wf {launch n i : Nat} {l : Launch} {ok : Nat → Bool} (h : memOk s) : SomeOk memOk (placeRun launch l ok n i s) := by
  induction n generalizing s i with
  | zero => exact h
  | succ n ih =>
    unfold placeRun
    split
    · trivial
    · exact ih (placeBed_wf h)

theorem placeNext_wf (h : memOk s) : SomeOk memOk (placeNext s launch l) := by
  unfold placeNext
  dsimp only
  split
  · trivial
  · split
    · exact placeRun_wf h
    · split
      · trivial
      · exact placeRun_wf (placeBed_wf h)

theorem emptied_wf (h : memOk s) : memOk (emptied s) := h

/-! ## Waves and exit (R36, R39) -/

theorem execWaveStart_wf (h : memOk s) : OutOk (execWaveStart bed s) := by
  unfold execWaveStart
  split
  · exact h
  · exact ite_out h (startSheaves_wf h)

theorem clearBed_wf (h : memOk s) : memOk (clearBed s b bd) :=
  fold_wf (fun _ _ h1 => dropToken_wf h1) _ (bwait_wf (modPlot_wf h))

theorem finishBed_wf (h : memOk s) : memOk (finishBed s b bd) := by
  unfold finishBed
  dsimp only
  split
  · exact modLaunch_wf (freeImage_wf (clearBed_wf h))
  · exact ite_wf (modLaunch_wf (freeImage_wf (clearBed_wf h))) (failUnfired_wf (modLaunch_wf (modLaunch_wf (freeImage_wf (clearBed_wf h)))))

theorem execBedExit_wf {bed : Nat} (h : memOk s) : OutOk (execBedExit bed s) := by
  unfold execBedExit
  split
  · exact h
  · rename_i bd _
    have h1 : memOk (releaseAt s bd.core 5) := releaseAt_wf h _ _
    split
    · exact h
    · show memOk _
      exact ite_wf h (finishBed_wf h)
    · refine ite_out h ?_
      dsimp only
      generalize releaseAt s bd.core 5 = r at h1 ⊢
      split
      · exact h1
      · exact ite_out (finishBed_wf h1) (modBed_wf (modCore_wf h1))

theorem execCommitGatePass_wf (h : memOk s) : OutOk (execCommitGatePass core s) := by
  unfold execCommitGatePass
  dsimp only
  split
  · exact h
  · exact ite_wf (discardFire_wf (modCore_wf h)) (due_wf (modCore_wf h))

/-! ## Lines of the register cache (R50, R51) -/

theorem evictLine_wf {x : Line} (h : memOk s) : memOk (evictLine s x) := by
  unfold evictLine
  split
  · rename_i heq _
    exact evictReg_wf ((ensureImage_wf h).get heq)
  · exact h

theorem evictOldest_wf {n : Nat} {xs : List Line} (h : memOk s) : memOk (evictOldest n xs s) := by
  induction n generalizing s xs with
  | zero => exact h
  | succ n ih =>
    unfold evictOldest
    split
    · exact ih (evictLine_wf h)
    · exact h

theorem keepReserved_wf {more : Nat} {spare : Line → Bool} (h : memOk s) : memOk (keepReserved s b more spare) := by
  unfold keepReserved
  dsimp only
  split
  · exact h
  · exact ite_wf h (evictOldest_wf h)

theorem keepCapacity_wf {more : Nat} (h : memOk s) : memOk (keepCapacity s core more) := ite_wf h (evictOldest_wf h)

theorem setLine_wf {x : LineState} (h : memOk s) : memOk (setLine s b w reg x) := modSheaf_wf h

theorem execRegisterLineFill_wf (h : memOk s) : OutOk (execRegisterLineFill bed sheaf reg s) := by
  unfold execRegisterLineFill
  dsimp only
  split
  · exact ite_out h (fillLine_wf (keepCapacity_wf (keepReserved_wf h)))
  · exact h

theorem execLineDrowsy_wf (h : memOk s) : OutOk (execLineDrowsy bed sheaf reg s) := by
  unfold execLineDrowsy
  split
  · exact h
  · exact ite_wf (setLine_wf h) h

theorem execLineWake_wf (h : memOk s) : OutOk (execLineWake bed sheaf reg s) := by
  unfold execLineWake
  split
  · exact h
  · exact ite_out h (count_wf (setLine_wf h))

theorem trimLines_wf (h : memOk s) : memOk (trimLines s) := fold_wf (fun _ _ h1 => keepCapacity_wf (keepReserved_wf h1)) _ h

/-! ## What a debugger reads and writes in an image (R366) -/

theorem flushGroup_wf {img : Nat} {sh : Sheaf} (h : memOk s) : memOk (flushGroup s b w img n sh) :=
  ite_wf (ite_wf (modSheaf_wf (imgWord_wf (imgWord_wf h))) (imgWord_wf (imgWord_wf h)))
    (ite_wf (modSheaf_wf (saveSlot_wf h)) (saveSlot_wf h))

theorem execDebugFlush_wf (h : memOk s) : OutOk (execDebugFlush bed sheaf reg s) := by
  unfold execDebugFlush
  split
  · rename_i heq
    exact ite_out h (ite_out (ite_out (answer_wf ((ensureImage_wf h).get heq)) (answer_wf (dropLine_wf ((ensureImage_wf h).get heq))))
        (answer_wf (flushGroup_wf ((ensureImage_wf h).get heq))))
  · exact h

theorem refillFlushed_wf (h : memOk s) : memOk (refillFlushed s b w) := by
  unfold refillFlushed
  dsimp only
  split
  · exact h
  · exact setSheaf_wf h

/-! ## Pre-emption (R349) -/

theorem ensureImages_wf {bs : List (Nat × Bed)} (h : memOk s) : SomeOk memOk (ensureImages bs s) := by
  induction bs generalizing s with
  | nil => exact h
  | cons b r ih =>
    unfold ensureImages
    split
    · rename_i heq
      exact ih ((ensureImage_wf h).get heq)
    · trivial

theorem saveSheaf_wf (h : memOk s) : memOk (saveSheaf b s w) := by
  unfold saveSheaf
  dsimp only
  split
  · exact drain_wf (endReplays_wf (refillFlushed_wf h))
  · exact dropToken_wf (saveTags_wf (saveGroup_wf (saveSlot_wf (setSheaf_wf (drain_wf (endReplays_wf (refillFlushed_wf h)))))))

theorem stopTmm_wf (h : memOk s) : memOk (stopTmm s b core) := by
  unfold stopTmm
  split
  · exact h
  · exact ite_wf h (ite_wf (endTmm_wf h) (modCore_wf (freeLocks_wf h)))

theorem saveMatrix_wf (h : memOk s) : memOk (saveMatrix s b core) := ite_wf h (modCore_wf (modBed_wf (imgWords_wf h)))

theorem zeroBlocks_wf (h : memOk s) : memOk (zeroBlocks s b) := zeroRange_wf h

theorem saveBed_wf (h : memOk s) : memOk (saveBed s b bd) :=
  saveHead_wf (modCore_wf (saveMatrix_wf (fold_wf (fun _ _ h1 => saveSheaf_wf h1) _
    (dropWaiters_wf (stopTmm_wf (zeroBlocks_wf (releaseAt_wf (endSwitches_wf h) _ _)))))))

theorem saveBank_wf {k : Backing} (h : memOk s) : memOk (saveBank p k s bank) := imgWords_wf (imgWords_wf h)

theorem savePlot_wf (h : memOk s) : memOk (savePlot s p bs) := by
  unfold savePlot
  dsimp only
  split
  · exact h
  · exact saveHead_wf (modBed_wf (modPlot_wf (fold_wf (fun _ _ h1 => saveBank_wf h1) _ (imgWords_wf (imgWords_wf h)))))

theorem saveBstore_wf {x : Nat × Nat} (h : memOk s) : memOk (saveBstore launch l s x) :=
  modCore_wf (fold_wf (fun _ _ h1 => homeThrough_wf h1 _ _ _) _ h)

theorem execPreemption_wf (h : memOk s) : OutOk (execPreemption bed s) := by
  unfold execPreemption
  dsimp only
  split
  · refine ite_out h ?_
    split
    · exact h
    · rename_i heq
      exact fold_wf (fun _ _ h1 => modBed_wf h1) _ (fold_wf (fun _ _ h1 => saveBstore_wf h1) _
          (savePlot_wf (fold_wf (fun _ _ h1 => saveBed_wf h1) _ (fresh_wf ((ensureImages_wf h).get heq)))))
  · exact h

/-! ## Where a group resumes (R334) -/

theorem replaceSheaf_wf {same : Bool} {x : Nat × Sheaf} (h : memOk s) : memOk (replaceSheaf b core same s x) := setSheaf_wf h

theorem rehome_wf (h : memOk s) : memOk (rehome s l b bd core) := by
  unfold rehome
  extract_lets p s1 s2 own s3 s4
  have h2 : memOk s2 := fold_wf (fun _ _ h2 => replaceSheaf_wf h2) _ (modBed_wf h)
  have h3 : memOk s3 := fold_wf (fun _ _ h3 => takeBank_wf h3) _ (modPlot_wf h2)
  have h4 : memOk s4 := loadBstore_wf h3
  exact ite_wf (modCore_wf h4) h4

theorem rehomeAll_wf {l : Launch} {p : Nat} {bs : List (Nat × Bed)} {m : Map Nat} (h : memOk s) :
    SomeOk (fun x => memOk x.2) (rehomeAll l p bs m s) := by
  induction bs generalizing s m with
  | nil => exact h
  | cons b r ih =>
    unfold rehomeAll
    split
    · split
      · exact ih (rehome_wf h)
      · trivial
    · refine someOk_findSome? (fun c => ?_)
      split
      · exact ih (rehome_wf h)
      · trivial

theorem findPlot_wf {l : Launch} {bs : List (Nat × Bed)} (h : memOk s) : SomeOk (fun x => memOk x.2.2) (findPlot s l bs) := by
  unfold findPlot
  split
  · trivial
  · exact someOk_findSome? (fun p => SomeOk.map (rehomeAll_wf h) (fun _ h1 => h1))

/-! ## The resume (R349) -/

theorem restoreBank_wf {k : Backing} (h : memOk s) : memOk (restoreBank p k s bank) := modPlot_wf h

theorem restoreTile_wf {t : Tile} (h : memOk s) : memOk (restoreTile p bs s t) := by
  unfold restoreTile
  split
  · exact h
  · split
    · exact h
    · exact setTile_wf h

theorem restoreBstore_wf {img : Nat → Nat} {x : Nat × Nat} (h : memOk s) : memOk (restoreBstore l img s x) := by
  unfold restoreBstore
  dsimp only
  split
  · exact h
  · exact modCore_wf h

theorem restoreMatrix_wf (h : memOk s) : memOk (restoreMatrix s b) := by
  unfold restoreMatrix
  dsimp only
  split
  · exact h
  · exact ite_wf h (modCore_wf (modBed_wf h))

theorem refillGroup_wf {img : Nat} (h : memOk s) : memOk (refillGroup s b w img n) := modSheaf_wf h

theorem resumeSheaf_wf {moved : Option Nat} (h : memOk s) : memOk (resumeSheaf b moved s w) := by
  unfold resumeSheaf
  split
  · exact h
  · extract_lets img lb t bad s1 s2 s3 core s4
    have h1 : memOk s1 := by
      unfold s1
      split
      · exact fold_wf (fun _ _ h1 => evictReg_wf h1) _ h
      · exact h
    have h2 : memOk s2 := fold_wf (fun _ _ h2 => ite_wf (refillGroup_wf h2) h2) _ h1
    have h4 : memOk s4 := modSheaf_wf (modSheaf_wf h2)
    exact ite_wf h4 (modCore_wf h4)

theorem resumeLogs_wf {o : Out} (h : OutOk o) : OutOk (resumeLogs b o w) := by
  unfold resumeLogs
  refine foldl_keeps (P := OutOk) _ (fun _ _ h1 => ?_) _ h
  refine andThen_out h1 (fun _ h2 => ?_)
  split
  · split
    · exact resumeLog_wf h2
    · exact h2
  · exact h2

theorem afterResume_wf (h : memOk s) : memOk (afterResume s b) := by
  unfold afterResume
  split
  · exact h
  · exact ite_wf (due_wf h) (ite_wf (due_wf h) h)

theorem restoreGroup_wf {old : Nat} {k : Option Backing} (h : memOk s) : OutOk (restoreGroup s l launch old p bs k) := by
  unfold restoreGroup
  dsimp only
  refine foldl_keeps (P := OutOk) _ ?_ _ ?_
  · intro _ _ h1
    refine andThen_out h1 (fun _ h2 => ?_)
    split
    · exact modBed_wf (restoreMatrix_wf h2)
    · exact andThen_out (foldl_keeps (P := OutOk) _ (fun _ _ h3 => resumeLogs_wf h3) _
        (fold_wf (fun _ _ h3 => resumeSheaf_wf h3) _ (acquireAt_wf (modBed_wf (restoreMatrix_wf h2)) _ _)))
        (fun _ h3 => afterResume_wf (failFetches_wf h3))
  · refine fold_wf (fun _ _ h1 => restoreBstore_wf h1) _ ?_
    refine fold_wf (fun _ _ h1 => restoreTile_wf h1) _ ?_
    split
    · exact fold_wf (fun _ _ h1 => restoreBank_wf h1) _ h
    · exact h

theorem resumeSpot_wf {bed : Nat} (h : memOk s) : SomeOk (fun x => memOk x.2.2.2.2) (resumeSpot s bed) := by
  unfold resumeSpot
  split
  · split
    · trivial
    · dsimp only
      split
      · trivial
      · exact SomeOk.map (findPlot_wf h) (fun _ h1 => h1)
  · trivial

theorem execBedResume_wf (h : memOk s) : OutOk (execBedResume bed s) := by
  unfold execBedResume
  split
  · rename_i heq
    exact restoreGroup_wf ((resumeSpot_wf h).get heq)
  · exact h

/-! ## The debugger (R364, R366) -/

theorem releaseSheaf_wf {whole : Bool} (h : memOk s) : memOk (releaseSheaf whole b s w) := modSheaf_wf h

theorem execDebuggerRelease_wf {sheaf : Option Nat} (h : memOk s) : OutOk (execDebuggerRelease bed sheaf s) := by
  unfold execDebuggerRelease
  split
  · exact h
  · exact releaseSheaf_wf h
  · exact fold_wf (fun _ _ h1 => releaseSheaf_wf h1) _ (modBed_wf h)

/-! ## Dependences (Table 16.4) -/

theorem takeDep_wf {asid : BitVec 16} {o : Option State} {d : Nat} (h : SomeOk memOk o) : SomeOk memOk (takeDep asid o d) := by
  unfold takeDep
  split
  · trivial
  · rename_i s0
    have h0 : memOk s0 := h
    split
    · exact h0
    · split
      · trivial
      · dsimp only
        split
        · trivial
        · exact homeThrough_wf (revokeAll_wf (unsnap_wf h0) _) _ _ _

theorem takeDeps_wf (h : memOk s) : SomeOk memOk (takeDeps s l) := by
  unfold takeDeps
  dsimp only
  split
  · exact foldl_keeps (P := SomeOk memOk) _ (fun _ _ h1 => takeDep_wf h1) _ h
  · trivial

/-! ## Queues (R331, R332) -/

theorem modQueue_wf {f : HQueue → HQueue} (h : memOk s) : memOk (modQueue s k f) := h

theorem moveCurrent_wf {level : Nat} {qs : List Nat} (h : memOk s) : memOk (moveCurrent s level qs) := hostIf_wf (modQueue_wf h)

theorem currentQueue_wf {level : Nat} (h : memOk s) : memOk (currentQueue s level).1 := by
  unfold currentQueue
  dsimp only
  split
  · exact ite_wf h (moveCurrent_wf h)
  · exact moveCurrent_wf h

theorem passOver_wf {picked : Nat} {others : List Nat} (h : memOk s) : memOk (passOver s picked others) := h

/-! ## From the pick to the cores -/

theorem rejectLaunch_wf {detail : Nat} (h : memOk s) : memOk (rejectLaunch s k st detail) := modLaunch_wf h

theorem markPage_wf {va : DWord} (h : memOk s) : memOk (markPage asid s va) := by
  unfold markPage
  split
  · exact setHomeDWord_wf h _ _
  · exact h

theorem dropTlb_wf {inRange : Nat → Bool} (h : memOk s) : memOk (dropTlb s asid inRange) := fold_wf (fun _ _ h1 => noteFrame_wf h1) _ h

theorem markRegions_wf (h : memOk s) : memOk (markRegions s l) := dropTlb_wf (fold_wf (fun _ _ h1 => markPage_wf h1) _ h)

theorem takeInTurn_wf (h : memOk s) : SomeOk memOk (takeInTurn s k l) := by
  unfold takeInTurn
  split
  · split
    · exact h
    · trivial
  · split
    · trivial
    · exact takeDeps_wf h

theorem noteDeps_wf (h : memOk s) : memOk (noteDeps s) := fold_wf (fun _ _ h1 => modLaunch_wf h1) _ h

theorem noteQueues_wf (h : memOk s) : memOk (noteQueues s) :=
  fold_wf (fun _ _ h1 => ite_wf h1 (ite_wf (modQueue_wf h1) (moveCurrent_wf h1))) _ h

theorem rejectArmed_wf (h : memOk s) : memOk (rejectArmed s k st) := rejectLaunch_wf (stopColls_wf h)

theorem enrol_wf {replay : Bool} (h : memOk s) : memOk (enrol s k l replay) := by
  unfold enrol
  dsimp only
  split
  · exact rejectLaunch_wf h
  · rename_i heq
    split
    · exact rejectArmed_wf ((armFrom_wf h).get heq)
    · refine ite_wf (modLaunch_wf (markRegions_wf ((armFrom_wf h).get heq))) ?_
      split
      · rename_i heq'
        exact modLaunch_wf (markRegions_wf ((takeInTurn_wf ((armFrom_wf h).get heq)).get heq'))
      · exact modLaunch_wf ((armFrom_wf h).get heq)

theorem startLaunch_wf {replay : Bool} (h : memOk s) : memOk (startLaunch s k replay) := by
  unfold startLaunch
  dsimp only
  split
  · exact h
  · split
    · exact rejectLaunch_wf (modLaunch_wf h)
    · exact enrol_wf (modLaunch_wf h)

theorem showQueue_wf {queue off : Nat} {x : Word} (h : memOk s) : memOk (showQueue s queue off x) := homePuts_wf h _ _

theorem takeEntry_wf {queue : Nat} (h : memOk s) : memOk (takeEntry s queue) := by
  unfold takeEntry
  extract_lets q e f l f2 s1 s2
  have h2 : memOk s2 := showQueue_wf (modQueue_wf (fresh_wf h))
  exact ite_wf (rejectLaunch_wf h2) (ite_wf (rejectLaunch_wf h2) (startLaunch_wf h2))

theorem execArbiterPick_wf (h : memOk s) : OutOk (execArbiterPick s) := by
  unfold execArbiterPick
  dsimp only
  split
  · exact h
  · exact ite_out h (passOver_wf (ite_wf (moveCurrent_wf (takeEntry_wf (currentQueue_wf h))) (takeEntry_wf (currentQueue_wf h))))

theorem execDependenceSatisfied_wf (h : memOk s) : OutOk (execDependenceSatisfied launch s) := by
  unfold execDependenceSatisfied
  split
  · exact h
  · refine ite_out h ?_
    split
    · exact h
    · rename_i heq
      exact modLaunch_wf (markRegions_wf ((takeInTurn_wf h).get heq))

/-! ## Placement (R334, R337) -/

theorem afterPlacement_wf (h : memOk s) : memOk (afterPlacement s k l) := modLaunch_wf h

theorem withoutGroup_wf {g : Nat × Nat} (h : memOk s) : memOk (withoutGroup s g) := fold_wf (fun _ _ h1 => modCore_wf (modBed_wf h1)) _ h

theorem execBedPlacement_wf (h : memOk s) : OutOk (execBedPlacement launch s) := by
  unfold execBedPlacement
  split
  · exact h
  · refine ite_out h ?_
    split
    · exact rejectArmed_wf h
    · refine ite_out h ?_
      split
      · rename_i heq
        exact afterPlacement_wf ((placeNext_wf h).get heq)
      · refine ite_out h ?_
        split
        · exact h
        · split
          · exact due_wf h
          · exact h

/-! ## Completion (R338) -/

theorem freeLaunch_wf (h : memOk s) : memOk (freeLaunch s k l) := h

theorem writeCompletion_wf {detail : Nat} (h : memOk s) : memOk (writeCompletion s l st detail) :=
  ite_wf h (ite_wf (logEvent_wf h) (SomeOk.getD (vaWrite_wf h) (logEvent_wf h)))

theorem arriveCompletion_wf (h : memOk s) : memOk (arriveCompletion s l) := ite_wf h (ite_wf (logEvent_wf h) (engineArrive_wf h))

theorem notify_wf (h : memOk s) : memOk (notify s l) := ite_wf h h

theorem settleCode_wf (h : memOk s) : memOk (settleCode s) := ite_wf h h

theorem execLaunchCompletion_wf (h : memOk s) : OutOk (execLaunchCompletion launch s) := by
  unfold execLaunchCompletion
  dsimp only
  split
  · exact h
  · exact ite_out h (settleCode_wf (modLaunch_wf (notify_wf (arriveCompletion_wf (writeCompletion_wf (ite_wf h (freeLaunch_wf h)))))))

/-! ## Kills (R360, R361) -/

theorem endCopies_wf (h : memOk s) : memOk (endCopies s launch) :=
  fold_wf (fun _ _ h1 => hostIf_wf (freeLocks_wf (copies_wf h1))) _ h

theorem removeBed_wf (h : memOk s) : memOk (removeBed s b bd) := by
  unfold removeBed
  dsimp only
  refine ite_wf (modPlot_wf (freeImage_wf h)) ?_
  refine clearBed_wf ?_
  refine modCore_wf ?_
  split
  · exact ite_wf (freeLocks_wf (freeImage_wf h)) (freeImage_wf h)
  · exact freeImage_wf h

theorem dropCached_wf {pages : List Nat} (h : memOk s) : memOk (dropCached s pages) := h

theorem restorePages_wf (h : memOk s) : memOk (restorePages s k l) :=
  modLaunch_wf (fold_wf (fun _ _ h1 => copyPage_wf h1) _ (dropCached_wf (dropTlb_wf h)))

theorem abandonArrival_wf {va : DWord} (h : memOk s) : memOk (abandonArrival l s va) := by
  unfold abandonArrival
  dsimp only
  refine ite_wf h ?_
  split
  · exact h
  · exact ite_wf (SomeOk.getD (arriveAt_wf (unsnap_wf h)) h) h

theorem logKill_wf {cause : Nat} (h : memOk s) : memOk (logKill s l cause) := by
  unfold logKill
  dsimp only
  split
  · exact killCores_wf (logEvent_wf h)
  · exact logEvent_wf h

theorem afterKill_wf (h : memOk s) : memOk (afterKill s k) := by
  unfold afterKill
  split
  · exact h
  · split
    · exact rejectLaunch_wf h
    · exact ite_wf (due_wf (modLaunch_wf h)) (rejectLaunch_wf h)

theorem discardFires_wf (h : memOk s) : memOk (discardFires s launch) := h

theorem execLaunchKill_wf {cause : BitVec 5} (h : memOk s) : OutOk (execLaunchKill launch cause s) := by
  unfold execLaunchKill
  dsimp only
  split
  · exact h
  · exact ite_out h (afterKill_wf (modLaunch_wf (logKill_wf (discardFires_wf (fold_wf (fun _ _ h1 => abandonArrival_wf h1) _
      (restorePages_wf (freeLaunch_wf (fold_wf (fun _ _ h1 => removeBed_wf h1) _
      (discardBatches_wf (abandonSearches_wf (endCopies_wf (stopColls_wf h))))))))))))

theorem execLaunchReplay_wf (h : memOk s) : OutOk (execLaunchReplay launch s) := by
  unfold execLaunchReplay
  dsimp only
  split
  · exact h
  · exact ite_out h (startLaunch_wf (logEvent_wf (modLaunch_wf h)))

/-! ## Queues -/

theorem setQstat_wf {x : BitVec 2} (h : memOk s) : memOk (setQstat s fn x) := modFn_wf h

theorem execQcmdEnable_wf (h : memOk s) : OutOk (execQcmdEnable fn q s) :=
  whenOpen_wf h (ite_out (refuse_wf (setQstat_wf h)) (ite_out (setQstat_wf (modQueue_wf h))
    (ite_out (setQstat_wf (modQueue_wf (modFn_wf h))) (setQstat_wf (modQueue_wf (modFn_wf h))))))

theorem execQcmdDisable_wf (h : memOk s) : OutOk (execQcmdDisable fn q s) :=
  whenOpen_wf h (ite_out (refuse_wf (setQstat_wf h)) (setQstat_wf (modQueue_wf h)))

theorem execDoorbell_wf {tail : BitVec 64} (h : memOk s) : OutOk (execDoorbell fn q tail s) :=
  whenOpen_wf h (ite_out (refuse_wf h) (ite_out (showQueue_wf (modQueue_wf h)) (discard_wf h)))

/-! ## Registers (Table 20.2) -/

theorem flushBacklog_wf (h : memOk s) : memOk (flushBacklog s fn) := fold_wf (fun _ _ h1 => postEntry_wf h1) _ h

theorem modHost_wf {f : HostIf → HostIf} (h : memOk s) : memOk (modHost s f) := h

theorem readBar_wf {bar : Nat} {off : BitVec 64} (h : memOk s) : OutOk (readBar fn bar off size s) :=
  whenOpen_wf h (ite_wf (answer_wf h) (refused_wf h))

theorem execRegisterWrite_wf {off : BitVec 16} {value : BitVec 64} (h : memOk s) : OutOk (execRegisterWrite fn off value s) := by
  unfold execRegisterWrite
  dsimp only
  refine whenOpen_wf h ?_
  refine ite_out (refuse_wf h) ?_
  refine ite_out h ?_
  split
  · exact modHost_wf h
  · exact ite_out h (due_wf h)
  · exact h
  · exact modFn_wf h
  · exact ite_out (flushBacklog_wf (modFn_wf h)) h
  · exact h
  · exact flushBacklog_wf (modFn_wf h)
  · split
    · exact due_wf h
    · exact due_wf h
    · exact h
  · exact modHost_wf h
  · exact modHost_wf h
  · exact ite_out (modHost_wf h) (due_wf (modHost_wf h))
  · exact modHost_wf h
  · exact modHost_wf h
  · exact modHost_wf h
  · exact modHost_wf h
  · exact h
  · exact h
  · exact h
  · exact refuse_wf h

theorem execArbpolWrite_wf {value : BitVec 32} (h : memOk s) : OutOk (execArbpolWrite value s) := whenOpen_wf h (modHost_wf h)

/-! ## BAR4 (R135, R403, R406) -/

theorem bar4At_wf {a : Nat} {wdata : Option (List (BitVec 8))} (h : memOk s) : memOk (bar4At s a size wdata) := by
  unfold bar4At
  split
  · exact homePuts_wf (fold_wf (fun _ _ h1 => noteHome_wf h1) _ h) _ _
  · exact answer_wf h

theorem hostStore_wf {addr : BitVec 64} {bytes : List (BitVec 8)} (h : memOk s) : memOk (hostStore addr bytes s) :=
  foldl_keeps (P := Memory.wf) _ (fun _ _ hm => setByte_wf hm _ _) _ (fold_wf (fun _ _ h1 => noteHome_wf h1) _ h)

theorem setMemorySpace_wf {on : Bool} (h : memOk s) : memOk (setMemorySpace fn on s) := modFn_wf h

theorem setVectorMask_wf {vector : Nat} {on : Bool} (h : memOk s) : memOk (setVectorMask fn vector on s) := modHost_wf h

theorem execBar4Access_wf {off : BitVec 64} {wdata : Option (List (BitVec 8))} (h : memOk s) :
    OutOk (execBar4Access fn off size wdata s) := by
  unfold execBar4Access
  dsimp only
  refine whenOpen_wf h ?_
  refine ite_out (ite_wf (bar4At_wf h) (refused_wf h)) ?_
  refine ite_out (refused_wf h) ?_
  split
  · exact SomeOk.getD (vaWrite_wf h) (refused_wf h)
  · split
    · exact answer_wf h
    · exact refused_wf h

/-! ## INVAL (R357) -/

theorem flushPages_wf {hit : Nat → Bool} {frames : List Nat} (h : memOk s) : memOk (flushPages s asid hit frames) :=
  fold_wf (fun _ _ h1 => homeFlush_wf h1 _) _ (fold_wf (fun _ _ h1 => fold_wf (fun _ _ h2 => terraceRevoke_wf h2 _ _) _ h1) _
    (fold_wf (fun _ _ h1 => fold_wf (fun _ _ h2 => l1Revoke_wf h2 _ _) _ h1) _ h))

theorem execInval_wf {va : BitVec 64} {pages : BitVec 32} (h : memOk s) : OutOk (execInval asid va pages s) :=
  whenOpen_wf h (flushPages_wf (oldFrames_wf (dropTlb_wf h)))

end Sys2Proof.Proofs
end

section
/-! PROOFS. Canonical memory: margins, images, resets and searches (R154 to R165, R368 to R374, R409 to R413). -/

namespace Sys2Proof.Proofs

open Sys2Proof Sys2Proof.Machine Sys2Proof.Claim

variable {s : State} {core q engine slot e key : Nat} {x : Search}

/-! ## Attempts (R370, R371) -/

theorem putAttempt_wf {a : Attempt} (h : memOk s) : memOk (putAttempt s core key a) := modCore_wf h

theorem dropAttempt_wf (h : memOk s) : memOk (dropAttempt s core key) := modCore_wf h

theorem lateIssue_wf {sh : Sheaf} {g : Group} {path : Nat} {inj : Bool} {replays late : Nat} {held : Sheaf} {left : List (Nat × Mask)}
    (h : memOk s) :
    OutOk (lateIssue s core slot key sh g path inj replays late held left) :=
  ite_out (due_wf (countReplay_wf (putAttempt_wf h))) (trap_wf (countMarginTrap_wf (dropAttempt_wf h)))

theorem modOp_wf {b w id : Nat} {f : LongOp → LongOp} (h : memOk s) : memOk (modOp s b w id f) := modSheaf_wf h

theorem lateUnit_wf {b w : Nat} {o : LongOp} {path : Nat} (h : memOk s) : memOk (lateUnit s core slot b w o path) :=
  ite_wf (modOp_wf (due_wf (countReplay_wf (putAttempt_wf h)))) (modOp_wf (countMarginTrap_wf h))

theorem execLateTransition_wf {path : BitVec 3} (h : memOk s) : OutOk (execLateTransition core slot path s) := by
  unfold execLateTransition
  refine ite_out (modCore_wf h) ?_
  refine ite_out (countReplay_wf h) ?_
  refine ite_out ?_ (ite_out h (modCore_wf h))
  split
  · exact lateTmm_wf h
  · split
    · exact lateUnit_wf h
    · exact h

theorem wakeAttempt_wf {x : Nat × Attempt} (h : memOk s) : memOk (wakeAttempt core s x) := by
  unfold wakeAttempt
  dsimp only
  split
  · exact dropAttempt_wf (modOp_wf h)
  · exact putAttempt_wf h

theorem execAttemptReplay_wf (h : memOk s) : OutOk (execAttemptReplay core slot s) := fold_wf (fun _ _ h1 => wakeAttempt_wf h1) _ h

/-! ## Windows (R368, R414) -/

theorem startRamp_wf (h : memOk s) : memOk (startRamp s core) := due_wf (modMargin_wf h)

theorem applyProfile_wf (h : memOk s) : memOk (applyProfile s core) := by
  unfold applyProfile
  dsimp only
  refine ite_wf h ?_
  split
  · exact h
  · exact setTarget_wf (modMargin_wf h)

theorem execWindowBoundary_wf (h : memOk s) : OutOk (execWindowBoundary core s) :=
  applyProfile_wf (modMargin_wf (ite_wf (startRamp_wf (modMargin_wf h)) h))

theorem execRegulatorSettled_wf (h : memOk s) : OutOk (execRegulatorSettled core s) := modMargin_wf h

/-! ## Escalation (R372, R373) -/

theorem preemptAll_wf {o : Out} {bs : List Nat} (h : OutOk o) : OutOk (preemptAll o bs) :=
  foldl_keeps (P := OutOk) _ (fun _ _ h1 => andThen_out h1 (fun _ h2 => execPreemption_wf h2)) _ h

theorem quarantineCore_wf {why : BitVec 2} (h : memOk s) : OutOk (quarantineCore s core why) :=
  ite_out h (andThen_out (preemptAll_wf (modMargin_wf h)) (fun _ h1 => logEvent_wf
    (ite_wf (modMargin_wf h1) (startRamp_wf (modMargin_wf h1)))))

theorem execAutomaticRaise_wf (h : memOk s) : OutOk (execAutomaticRaise core s) :=
  ite_out h (ite_out (quarantineCore_wf h) (logEvent_wf (startRamp_wf (modMargin_wf h))))

theorem execQuarantine_wf {why : BitVec 2} (h : memOk s) : OutOk (execQuarantine core why s) := quarantineCore_wf h

theorem execQuarantineCommand_wf (h : memOk s) : OutOk (execQuarantineCommand core s) := quarantineCore_wf h

/-! ## Commands of the management processor (R374, R414 to R418) -/

theorem handRaise_wf {n : Nat} (h : memOk s) : memOk (handRaise s core n) := h

theorem execMarginProfile_wf {code : BitVec 8} (h : memOk s) : OutOk (execMarginProfile core code s) := by
  unfold execMarginProfile
  split
  · exact h
  · exact handRaise_wf (modCore_wf h)

theorem execLremapWrite_wf {value : BitVec 32} (h : memOk s) : OutOk (execLremapWrite core slot value s) :=
  ite_out (logEvent_wf h) (ite_out h (ite_out (modCore_wf h) (modCore_wf h)))

theorem applyRemap_wf {x : Nat × Word} (h : memOk s) : memOk (applyRemap core s x) := logEvent_wf (modCore_wf h)

theorem execRelease_wf (h : memOk s) : OutOk (execRelease core s) :=
  ite_out h (ite_out (modCore_wf h) (ite_out h (logEvent_wf (modCore_wf (fold_wf (fun _ _ h1 => applyRemap_wf h1) _ h)))))

theorem execPowerBudget_wf {matrix near links : Nat} (h : memOk s) : OutOk (execPowerBudget matrix near links s) := ite_out h h

theorem execPlaneBudgetReached_wf {plane : Nat} {reached : Bool} (h : memOk s) : OutOk (execPlaneBudgetReached plane reached s) :=
  ite_out h h

theorem mailboxAnswer_wf {bs : List Byte} (h : memOk s) : memOk (mailboxAnswer s bs) := h

theorem execReadAndClear_wf {index : BitVec 10} (h : memOk s) : OutOk (execReadAndClear core index s) :=
  ite_out (mailboxAnswer_wf h) (ite_wf (modMargin_wf (mailboxAnswer_wf h)) (mailboxAnswer_wf h))

theorem manageMargin_wf {index : BitVec 10} {v : Word} (h : memOk s) : memOk (manageMargin core index v s) := by
  unfold manageMargin
  dsimp only
  split
  · exact modCore_wf (writeMargin_wf h)
  · exact modMargin_wf h
  · exact modMargin_wf h
  · exact modCore_wf (modMargin_wf h)
  · exact h

/-! ## Activation (R412) -/

theorem execImageLoad_wf {image : List (BitVec 8)} (h : memOk s) : OutOk (execImageLoad image s) := logEvent_wf (ite_wf h h)

theorem execManagementRestart_wf (h : memOk s) : OutOk (execManagementRestart s) := by
  unfold execManagementRestart
  dsimp only
  split <;> exact h

theorem execSvnMinimumRaise_wf {kind : BitVec 8} (h : memOk s) : OutOk (execSvnMinimumRaise kind s) := by
  unfold execSvnMinimumRaise
  dsimp only
  split
  · exact h
  · exact ite_out h h

theorem execAttestation_wf {nonce : BitVec 512} (h : memOk s) : OutOk (execAttestation nonce s) := mailboxAnswer_wf h

/-! ## Resets (R61, R85, R374, R421, R425) -/

theorem resetDie_wf {die : Nat} (h : memOk s) : memOk (resetDie s die) := fold_wf (fun _ _ h1 => removeBed_wf h1) _ h

theorem execDieReset_wf {die : Nat} (h : memOk s) : OutOk (execDieReset die s) := ite_out (resetDie_wf h) h

theorem execPackageReset_wf (h : memOk s) : OutOk (execPackageReset s) := ite_out h h

theorem execPowerOff_wf (h : memOk s) : OutOk (execPowerOff s) := mcanon_filter h _

theorem bootKind_wf {kind : Nat} (h : memOk s) : memOk (bootKind s kind) := by
  unfold bootKind
  dsimp only
  split
  · exact h
  · exact logEvent_wf h

theorem execPowerOn_wf {rom : BitVec 512} (h : memOk s) : OutOk (execPowerOn rom s) := by
  have h1 : ∀ m, memOk { s with powered := true, mgmt := m } := fun _ => h
  unfold execPowerOn
  exact ite_out h (mgmt_wf (fold_wf (fun _ _ h2 => bootKind_wf h2) _ (h1 _)))

/-! ## Searches -/

theorem execNmsearch_wf {a b : BitVec 7} (h : memOk s) : OutOk (execNmsearch a b s) :=
  groupOp_wf h (fun _ _ _ => ite_out (poisonUse_wf h) (ite_out (misaligned_wf h)
    (ite_out (violation_wf h) (ite_out (queueFault_wf h) (withRef_wf h (withPage_wf h
    (fun _ h1 _ _ => done_wf (fresh_wf (touchBy_wf h1)))))))))

/-! ## Registration (R154, R156) -/

theorem registerIndex_wf (h : memOk s) : memOk (registerIndex s q x) := by
  unfold registerIndex
  dsimp only
  split
  · exact endSearch_wf h
  · refine ite_wf (endSearch_wf h) ?_
    refine ite_wf (endSearch_wf h) ?_
    split
    · exact endSearch_wf h
    · exact ite_wf (endSearch_wf h) (ite_wf (endSearch_wf h) (registerSnap_wf h))

theorem execSearchRegistration_wf {qid : Nat} (h : memOk s) : OutOk (execSearchRegistration qid s) := by
  unfold execSearchRegistration
  dsimp only
  split
  · exact h
  · refine ite_out h ?_
    split
    · exact endSearch_wf h
    · refine ite_out (endSearch_wf h) ?_
      refine ite_out (endSearch_wf h) ?_
      split
      · exact endSearch_wf h
      · exact registerIndex_wf h

/-! ## Nodes at a snapshot (R151, R152) -/

theorem absentEvent_wf {j why : Nat} (h : memOk s) : memOk (absentEvent s e j why) := logEvent_wf h

theorem poisonSearch_wf (h : memOk s) : memOk (poisonSearch s q) := modSearch_wf h

theorem recordOf_wf (h : memOk s) : memOk (recordOf s q j x).2.2 := by
  unfold recordOf
  dsimp only
  split
  · rename_i heq
    exact snd_wf (nearRead_wf h) heq
  · rename_i heq
    have h1 := snd_wf (nearRead_wf h) heq
    split
    · exact poisonSearch_wf h1
    · split
      · exact h1
      · split
        · rename_i heq _
          have h2 := snd_wf (nearRead_wf h1) heq
          split
          · exact poisonSearch_wf h2
          · split <;> exact h2
        · rename_i heq _
          exact snd_wf (nearRead_wf h1) heq

theorem chainWalk_wf {q j e stack n va : Nat} {x : Search} {last : Option Nat} (h : memOk s) :
    memOk (chainWalk q j e stack x n last va s).2 := by
  induction n generalizing s last va with
  | zero => exact ite_snd h (absentEvent_wf h)
  | succ n ih =>
    unfold chainWalk
    refine ite_snd h ?_
    split
    · rename_i heq _
      have h1 := snd_wf (nearRead_wf h) heq
      exact ite_snd (absentEvent_wf h1) (ite_snd (poisonSearch_wf h1) (ite_snd (absentEvent_wf h1)
        (ite_snd (ite_snd (absentEvent_wf h1) h1) (ih h1))))
    · rename_i heq _
      exact snd_wf (nearRead_wf h) heq

theorem nodeOf_wf (h : memOk s) : memOk (nodeOf s q j e x).2 := by
  unfold nodeOf
  split
  · rename_i heq
    have h1 := third_wf (recordOf_wf h) heq
    split
    · rename_i heq
      exact snd_wf (nearRead_wf h1) heq
    · rename_i heq
      have h2 := snd_wf (nearRead_wf h1) heq
      refine ite_snd (poisonSearch_wf h2) ?_
      split
      · rename_i heq
        exact snd_wf (chainWalk_wf h2) heq
      · rename_i heq
        exact snd_wf (chainWalk_wf h2) heq
      · rename_i heq
        exact snd_wf (chainWalk_wf h2) heq
  · rename_i heq
    exact third_wf (recordOf_wf h) heq

theorem keyOf_wf {va : DWord} (h : memOk s) : memOk (keyOf s q x va).2 := by
  unfold keyOf
  dsimp only
  split
  · rename_i heq
    exact snd_wf (nearRead_wf h) heq
  · rename_i heq
    split
    · exact poisonSearch_wf (snd_wf (nearRead_wf h) heq)
    · exact snd_wf (nearRead_wf h) heq

/-! ## Setup (R159) -/

theorem entryNodes_wf {q : Nat} {x : Search} {js : List Nat} (h : memOk s) : memOk (entryNodes q x s js).2 := by
  induction js generalizing s with
  | nil => exact h
  | cons j r ih =>
    unfold entryNodes
    have h1 := recordOf_wf (q := q) (j := j) (x := x) h
    split
    · rename_i heq
      rw [heq] at h1
      exact h1
    · rename_i heq
      rw [heq] at h1
      dsimp only
      split <;> exact ih h1

theorem pushEntries_wf {q home : Nat} {x : Search} {ns : List (Nat × DWord × Nat)} (h : memOk s) :
    SomeOk memOk (pushEntries q home x s ns) := by
  induction ns generalizing s with
  | nil => exact h
  | cons n r ih =>
    unfold pushEntries
    split
    · trivial
    · rename_i heq
      exact ih (snd_wf (keyOf_wf h) heq)
    · rename_i heq
      exact ih (modChain_wf (snd_wf (keyOf_wf h) heq))

theorem setupFault_wf {code : Nat} (h : memOk s) : memOk (setupFault s q e code) := checkSearch_wf (modSearch_wf (logEvent_wf h))

theorem placeSearch_wf {nodes : List (Nat × DWord × Nat)} {home first ctx : Nat} (h : memOk s) :
    memOk (placeSearch s q x nodes home first ctx) := by
  unfold placeSearch
  dsimp only
  have h1 : ∀ ss f, memOk (modEngine { s with searches := ss } home f) := fun _ _ => modEngine_wf (searches_wf h)
  split
  · exact endSearch_wf (modSearch_wf h)
  · split
    · rename_i heq _
      exact startCtx_wf ((pushEntries_wf (h1 _ _)).get heq)
    · exact setupFault_wf (h1 _ _)
    · exact setupFault_wf (h1 _ _)

theorem execSearchSetup_wf {qid : Nat} (h : memOk s) : OutOk (execSearchSetup qid s) := by
  unfold execSearchSetup
  dsimp only
  split
  · exact h
  · refine ite_out h ?_
    split
    · rename_i heq
      exact setupFault_wf (snd_wf (entryNodes_wf h) heq)
    · rename_i heq
      split
      · exact endSearch_wf (modSearch_wf (snd_wf (entryNodes_wf h) heq))
      · exact snd_wf (entryNodes_wf h) heq
    · rename_i heq
      split
      · exact snd_wf (entryNodes_wf h) heq
      · split
        · exact placeSearch_wf (snd_wf (entryNodes_wf h) heq)
        · exact ite_wf (snd_wf (entryNodes_wf h) heq) (modSearch_wf (fresh_wf (snd_wf (entryNodes_wf h) heq)))

/-! ## Walkers (R159, R160, R161) -/

theorem loadQuery_wf (h : memOk s) : SomeOk (fun x => memOk x.2) (loadQuery s e q x) := by
  unfold loadQuery
  dsimp only
  split
  · exact h
  · split
    · trivial
    · exact modEngine_wf h

theorem startWalker_wf {kind : Nat} (h : memOk s) : memOk (startWalker s e kind) := by
  unfold startWalker
  dsimp only
  split
  · exact h
  · split
    · exact takeMsg_wf h
    · split
      · exact takeMsg_wf h
      · split
        · rename_i heq _
          exact startCtx_wf (takeMsg_wf ((loadQuery_wf h).get heq))
        · exact parkMsgs_wf h

theorem execSpawn_wf (h : memOk s) : OutOk (execSpawn engine s) := startWalker_wf h

theorem execWalker_wf (h : memOk s) : OutOk (execWalker engine s) := startWalker_wf h

/-! ## The heap unit (R163, R164) -/

theorem servePop_wf {w : Nat × Nat} (h : memOk s) : SomeOk memOk (servePop s q w) := by
  unfold servePop
  split
  · trivial
  · exact ite_someOk (hardMsg_wf (searches_wf h))
      (ite_someOk (hardMsg_wf (searches_wf (modChain_wf h))) (ite_someOk trivial (hardMsg_wf (searches_wf h))))

theorem serveHeap_wf (h : memOk s) : memOk (serveHeap s q) := by
  unfold serveHeap
  split
  · exact h
  · exact checkSearch_wf (fold_wf (fun _ _ h1 => SomeOk.getD (servePop_wf h1) h1) _ h)

theorem takeCand_wf {home : Nat} {c : Word × Nat} (h : memOk s) : memOk (takeCand q home s c) := by
  unfold takeCand
  dsimp only
  split
  · exact h
  · exact ite_wf h (modChain_wf (modSearch_wf h))

theorem execCands_wf (h : memOk s) : OutOk (execCands engine s) := by
  unfold execCands
  dsimp only
  split
  · exact h
  · split
    · exact takeMsg_wf h
    · exact serveHeap_wf (ite_wf (modSearch_wf (fold_wf (fun _ _ h1 => takeCand_wf h1) _ (takeMsg_wf h)))
        (fold_wf (fun _ _ h1 => takeCand_wf h1) _ (takeMsg_wf h)))

theorem execPopreq_wf (h : memOk s) : OutOk (execPopreq engine s) := by
  unfold execPopreq
  dsimp only
  split
  · exact h
  · split
    · exact takeMsg_wf h
    · exact serveHeap_wf (modSearch_wf (takeMsg_wf h))

theorem execPoprep_wf (h : memOk s) : OutOk (execPoprep engine s) := by
  unfold execPoprep
  dsimp only
  split
  · exact h
  · split
    · split
      · exact serveHeap_wf (modSearch_wf (takeMsg_wf h))
      · exact takeMsg_wf h
    · split
      · exact h
      · exact modCtx_wf (putThr_wf (takeMsg_wf h))

/-! ## Distance requests and the end of walkers (R163, R164) -/

theorem answerNodes_wf {q e : Nat} {x : Search} {js : List Nat} (h : memOk s) : memOk (answerNodes q e x s js).2 := by
  induction js generalizing s with
  | nil => exact h
  | cons j r ih =>
    unfold answerNodes
    split
    · rename_i heq
      exact snd_wf (nodeOf_wf h) heq
    · rename_i heq
      exact ih (snd_wf (nodeOf_wf h) heq)
    · rename_i heq
      have h1 := snd_wf (nodeOf_wf h) heq
      split
      · rename_i heq
        exact snd_wf (keyOf_wf h1) heq
      · rename_i heq
        exact ih (snd_wf (keyOf_wf h1) heq)
      · rename_i heq
        exact ih (snd_wf (keyOf_wf h1) heq)

theorem sendCands_wf {cs : List (Word × Nat)} {last : Bool} (h : memOk s) : memOk (sendCands s e q x cs last) := hardMsg_wf h

theorem execDreq_wf (h : memOk s) : OutOk (execDreq engine s) := by
  unfold execDreq
  dsimp only
  split
  · exact h
  · split
    · exact takeMsg_wf h
    · split
      · split
        · rename_i heq
          exact faultCtx_wf (modEngine_wf (snd_wf (answerNodes_wf (takeMsg_wf h)) heq))
        · rename_i heq
          exact modEngine_wf (snd_wf (answerNodes_wf (takeMsg_wf h)) heq)
      · exact parkMsgs_wf h

theorem answerRequest_wf {ctx : Nat} (h : memOk s) : memOk (answerRequest engine ctx s) := by
  unfold answerRequest
  dsimp only
  split
  · exact h
  · split
    · split
      · exact endCtx_wf h
      · exact ite_wf h (ite_wf (endCtx_wf (sendCands_wf h)) (modCtx_wf (sendCands_wf h)))
    · exact h

theorem execEndw_wf (h : memOk s) : OutOk (execEndw engine s) := by
  unfold execEndw
  dsimp only
  split
  · exact h
  · split
    · exact takeMsg_wf h
    · exact serveHeap_wf (modSearch_wf (takeMsg_wf h))

end Sys2Proof.Proofs
end

section
/-! PROOFS. Canonical memory: every instruction, every event, and the step (R15 to R19, R170, R370). -/

namespace Sys2Proof.Proofs

open Sys2Proof Sys2Proof.Machine Sys2Proof.Claim

variable {s t : State} {core slot b w : Nat} {g : Group} {sh old : Sheaf} {late : Option Nat} {cs : List Cand}

/-! ## Instructions -/

/-- Every instruction, and every event that an instruction names, keeps memory in canonical form. -/
theorem exec_wf {i : Instr} (h : memOk s) : OutOk (exec i s) := by
  cases i with
  | add | sub | mul | mulh | mulhu | min | max | minu | maxu | and | or | xor | andn | shl | shr | sra | rol | ror | clz | popc | brev | abs
  | neg | madd | msub | lea1 | lea2 | lea3 | addsat | subsat => exact aluReg_wf h
  | addi | muli | andi | ori | xori | shli | shri | srai | roli => exact aluImm_wf h
  | li => exact loadImm_wf h
  | cmp => exact cmpReg_wf h
  | cmpi => exact cmpImm_wf h
  | mov => exact execMov_wf h
  | movgv => exact laneOp_wf h (fun _ _ _ => done_wf h)
  | movvg => exact .of_eq (exec_movvg ..) (whenActive_wf h (fun _ _ _ => withBudget_wf h (done_wf h)))
  | laneid => exact laneOp_wf h (fun _ _ _ => done_wf h)
  | tag => exact .of_eq (exec_tag ..) (whenActive_wf h (fun _ _ _ => withBudget_wf h (done_wf h)))
  | gen => exact laneOp_wf h (fun _ _ _ => done_wf h)
  | sel => exact laneForm3_wf h
  | pack2 => exact .of_eq (exec_pack2 ..) (laneForm3_wf h)
  | pack4 => exact laneForm3_wf h
  | unpk => exact .of_eq (exec_unpk ..) (laneForm3_wf h)
  | movj => exact groupOp_wf h (fun _ _ _ => done_wf h)
  | mpop => exact .of_eq (exec_mpop ..) (groupForm1_wf h)
  | mffs => exact .of_eq (exec_mffs ..) (groupForm1_wf h)
  | mfls => exact .of_eq (exec_mfls ..) (groupForm1_wf h)
  | mnth => exact .of_eq (exec_mnth ..) (groupForm3_wf h)
  | fadd | fsub | fmul | ffma | ffms | fmin | fmax => exact faluReg_wf h
  | fabs | fneg | fcpys | fclass => exact faluBits_wf h
  | fcmp => exact execFcmp_wf h
  | cvt => exact execCvt_wf h
  | hadd2 | hsub2 | hmul2 | hfma2 | hmin2 | hmax2 | badd2 | bmul2 | bfma2 => exact haluReg_wf h
  | dadd | dsub | dmul | dfma | dmin | dmax => exact daluReg_wf h
  | ex2 | lg2 | rcp | rsq | sqrt | sin | cos | tanh => exact sfuReg_wf h
  | ex2h => exact .of_eq (exec_ex2h ..) (sfuReg_wf h)
  | shfl => exact .of_eq (exec_shfl ..) (crossLane_wf h)
  | shflx => exact .of_eq (exec_shflx ..) (crossLane_wf h)
  | shflup => exact .of_eq (exec_shflup ..) (crossLane_wf h)
  | shfldn => exact .of_eq (exec_shfldn ..) (crossLane_wf h)
  | bcast => exact .of_eq (exec_bcast ..) (crossLane_wf h)
  | redadd | redfadd | redmin | redmax | redfmin | redfmax | redand | redor | scanadd | scanfadd => exact reduce_wf h
  | argmax | argmin | fargmax | fargmin => exact argOp_wf h
  | sort32 => exact laneOp_wf h (fun _ _ _ => done_wf h)
  | topk => exact execTopk_wf h
  | mergek => exact execMergek_wf h
  | dp4a | dp4au => exact dotIntReg_wf h
  | dp2h | dp4q | dp4qe => exact dotReg_wf h
  | div | divu | rem | remu => exact divReg_wf h
  | ld => exact loadOp_wf h
  | ldx => exact loadNarrowOp_wf h
  | st => exact storeOp_wf h
  | stq => exact storeQuadOp_wf h
  | lds => exact scratchLoadOp_wf h
  | sts => exact scratchStoreOp_wf h
  | ldc => exact constLoadOp_wf h
  | lda => exact .of_eq (exec_lda ..) (globalLoad_wf h)
  | stl => exact .of_eq (exec_stl ..) (globalStore_wf h)
  | atom => exact execAtom_wf h
  | atom64 => exact globalAtomic_wf h
  | atoms => exact .of_eq (exec_atoms ..) (execAtoms_wf h)
  | fence => exact .of_eq (exec_fence ..) (execFence_wf h)
  | ldt => exact loadTransientOp_wf h
  | ldu => exact groupLoadOp_wf h
  | stu => exact groupStoreOp_wf h
  | ldsu => exact groupScratchLoadOp_wf h
  | stsu => exact groupScratchStoreOp_wf h
  | qmm | qmms => exact quarterOp_wf h
  | mvt => exact execMvt_wf h
  | nmcall => exact execNmcall_wf h
  | mread => exact .of_eq (exec_mread ..) (laneOp_wf h (fun _ _ _ => withClaim_wf h (done_wf h)))
  | mwrite => exact .of_eq (exec_mwrite ..) (execMwrite_wf h)
  | mzero => exact .of_eq (exec_mzero ..) (execMzero_wf h)
  | br | brn => exact branchMask_wf h
  | bra => exact ite_out (nearBranch_wf h) (onSheaf_wf (fun _ _ => jump_wf h))
  | call => exact execCall_wf h
  | jmpr => exact execJmpr_wf h
  | exit => exact execExit_wf h
  | yield => exact yieldOp_wf h
  | nop => exact onSheaf_wf (fun _ _ => done_wf h)
  | bkpt => exact onSheaf_wf (fun _ _ => trap_wf h)
  | pred => exact onSheaf_wf (fun _ _ => ite_out (poisonUse_wf h) (done_wf h))
  | unpred => exact onSheaf_wf (fun _ _ => done_wf h)
  | setj => exact execSetj_wf h
  | join => exact execJoin_wf h
  | jleave => exact execJleave_wf h
  | region => exact onSheaf_wf (fun _ _ => done_wf h)
  | trap => exact onSheaf_wf (fun _ _ => trapWith_wf h)
  | hret => exact execHret_wf h
  | wbase => exact .of_eq (exec_wbase ..) (setWindows_wf h)
  | wbaseRel => exact .of_eq (exec_wbaseRel ..) (setWindows_wf h)
  | srd => exact execSrd_wf h
  | swr => exact execSwr_wf h
  | ext => exact execExt_wf h
  | copy | copyout => exact copyOp_wf h
  | tmm => exact execTmm_wf h
  | nmsearch => exact execNmsearch_wf h
  | nmcommit => exact .of_eq (exec_nmcommit ..) (execNmcommit_wf h)
  | collfire => exact .of_eq (exec_collfire ..) (execCollfire_wf h)
  | binit => exact .of_eq (exec_binit ..) (execBinit_wf h)
  | barrive | barriven => exact arriveOp_wf h
  | btest => exact .of_eq (exec_btest ..) (execBtest_wf h)
  | waitb => exact execWaitb_wf h
  | tstate => exact .of_eq (exec_tstate ..) (execTstate_wf h)
  | trel => exact .of_eq (exec_trel ..) (execTrel_wf h)
  | twait => exact execTwait_wf h
  | tclaim => exact execTclaim_wf h
  | qinit => exact execQinit_wf h
  | qpush => exact execQpush_wf h
  | qpop => exact execQpop_wf h
  | qcount => exact .of_eq (exec_qcount ..) (execQcount_wf h)
  | mtokTake => exact execMtokTake_wf h
  | mtokPass => exact .of_eq (exec_mtokPass ..) (execMtokPass_wf h)
  | mtokTest => exact groupOp_wf h (fun _ _ _ => done_wf h)
  | mdrain => exact .of_eq (exec_mdrain ..) (execMdrain_wf h)
  | mfill => exact execMfill_wf h
  | tnext => exact execTnext_wf h
  | tdone => exact execTdone_wf h
  | tgrain => exact .of_eq (exec_tgrain ..) (groupOp_wf h (fun _ _ _ => inRange_wf h (fun _ _ => done_wf h)))
  | bexit => exact execBexit_wf h
  | jspill => exact execJspill_wf h
  | jfill => exact execJfill_wf h
  | yieldG => exact yieldOp_wf h
  | bankcfg => exact execBankcfg_wf h
  | ldb => exact execLdb_wf h
  | stb => exact execStb_wf h
  | dist => exact execDist_wf h
  | hpush => exact .of_eq (exec_hpush ..) (execHpush_wf h)
  | hpop => exact .of_eq (exec_hpop ..) (execHpop_wf h)
  | htop => exact .of_eq (exec_htop ..) (execHtop_wf h)
  | hchain => exact execHchain_wf h
  | msgSend => exact .of_eq (exec_msgSend ..) (execMsgSend_wf h)
  | msgRecv => exact .of_eq (exec_msgRecv ..) (nearOnly_wf h (fun _ _ _ => block_wf h))
  | whop => exact execWhop_wf h
  | wspawn => exact execWspawn_wf h
  | wend => exact execWend_wf h
  | nmret => exact execNmret_wf h
  | nearQpush => exact execNearQpush_wf h
  | nearQpop => exact execNearQpop_wf h
  | instructionCompletion => exact execInstructionCompletion_wf h
  | attemptReplay => exact execAttemptReplay_wf h
  | lateTransition => exact execLateTransition_wf h
  | commitGatePass => exact execCommitGatePass_wf h
  | takeTrap => exact execTakeTrap_wf h
  | watchdogTrap => exact execWatchdogTrap_wf h
  | nmcallReply => exact execNmcallReply_wf h
  | barrierWake => exact execBarrierWake_wf h
  | tileWake => exact execTileWake_wf h
  | queueWake => exact execQueueWake_wf h
  | splitGrant => exact execSplitGrant_wf h
  | pageFault => exact execPageFault_wf h
  | fetchPageFault => exact execFetchPageFault_wf h
  | protectionViolation => exact execProtectionViolation_wf h
  | resumeRetry => exact execResumeRetry_wf h
  | resumeFail => exact execResumeFail_wf h
  | snapshotCopy => exact execSnapshotCopy_wf h
  | registerLineFill => exact execRegisterLineFill_wf h
  | lineDrowsy => exact execLineDrowsy_wf h
  | lineWake => exact execLineWake_wf h
  | copyCompletion => exact execCopyCompletion_wf h
  | copyTransferFailure => exact execCopyTransferFailure_wf h
  | copyPageFault => exact execCopyPageFault_wf h
  | tmmKStep => exact execTmmKStep_wf h
  | tmmCompletion => exact execTmmCompletion_wf h
  | bankSwitchCompletion => exact execBankSwitchCompletion_wf h
  | barrierArrival => exact execBarrierArrival_wf h
  | bedExit => exact execBedExit_wf h
  | waveStart => exact execWaveStart_wf h
  | preemption => exact execPreemption_wf h
  | bedResume => exact execBedResume_wf h
  | launchKill => exact execLaunchKill_wf h
  | launchReplay => exact execLaunchReplay_wf h
  | doorbell => exact execDoorbell_wf h
  | qcmdEnable => exact execQcmdEnable_wf h
  | qcmdDisable => exact execQcmdDisable_wf h
  | arbiterPick => exact execArbiterPick_wf h
  | dependenceSatisfied => exact execDependenceSatisfied_wf h
  | bedPlacement => exact execBedPlacement_wf h
  | launchCompletion => exact execLaunchCompletion_wf h
  | inval => exact execInval_wf h
  | bar4Access => exact execBar4Access_wf h
  | registerWrite => exact execRegisterWrite_wf h
  | arbpolWrite => exact execArbpolWrite_wf h
  | debugFlush => exact execDebugFlush_wf h
  | debuggerRelease => exact execDebuggerRelease_wf h
  | windowBoundary => exact execWindowBoundary_wf h
  | automaticRaise => exact execAutomaticRaise_wf h
  | quarantine => exact execQuarantine_wf h
  | quarantineCommand => exact execQuarantineCommand_wf h
  | release => exact execRelease_wf h
  | marginProfile => exact execMarginProfile_wf h
  | powerBudget => exact execPowerBudget_wf h
  | lremapWrite => exact execLremapWrite_wf h
  | pdtestWrite => exact execPdtestWrite_wf h
  | imageLoad => exact execImageLoad_wf h
  | svnMinimumRaise => exact execSvnMinimumRaise_wf h
  | attestation => exact execAttestation_wf h
  | amsanKeyInstall => exact execAmsanKeyInstall_wf h
  | amsanFrame => exact execAmsanFrame_wf h
  | peerGroupRegistration => exact execPeerGroupRegistration_wf h
  | indexRegistration => exact execIndexRegistration_wf h
  | searchRegistration => exact execSearchRegistration_wf h
  | searchSetup => exact execSearchSetup_wf h
  | spawn => exact execSpawn_wf h
  | walker => exact execWalker_wf h
  | cands => exact execCands_wf h
  | popreq => exact execPopreq_wf h
  | poprep => exact execPoprep_wf h
  | dreq => exact execDreq_wf h
  | endw => exact execEndw_wf h
  | versionCommit => exact execVersionCommit_wf h
  | queueDeadlockFault => exact execQueueDeadlockFault_wf h
  | engineFault => exact execEngineFault_wf h
  | collectiveFire => exact execCollectiveFire_wf h
  | stepStart => exact execStepStart_wf h
  | packetForming => exact execPacketForming_wf h
  | data => exact execData_wf h
  | coded => exact execCoded_wf h
  | ack => exact execAck_wf h
  | nack => exact execNack_wf h
  | stepTimeout => exact execStepTimeout_wf h
  | dieReset => exact execDieReset_wf h
  | packageReset => exact execPackageReset_wf h
  | powerOn => exact execPowerOn_wf h
  | nmcallBatch => exact execNmcallBatch_wf h
  | regulatorSettled => exact execRegulatorSettled_wf h
  | managementRestart => exact execManagementRestart_wf h
  | powerOff => exact execPowerOff_wf h
  | damagedFlit => exact (show memOk s from h)
  | planeBudgetReached => exact execPlaneBudgetReached_wf h
  | readAndClear => exact execReadAndClear_wf h

/-! ## Events -/

/-- Every event keeps memory in canonical form. -/
theorem runEvent_wf {e : Event} (h : memOk s) : OutOk (runEvent e s) := by
  cases e with
  | instructionCompletion => exact execInstructionCompletion_wf h
  | attemptReplay => exact execAttemptReplay_wf h
  | lateTransition => exact execLateTransition_wf h
  | commitGatePass => exact execCommitGatePass_wf h
  | takeTrap => exact execTakeTrap_wf h
  | watchdogTrap => exact execWatchdogTrap_wf h
  | nmcallReply => exact execNmcallReply_wf h
  | barrierWake => exact execBarrierWake_wf h
  | tileWake => exact execTileWake_wf h
  | queueWake => exact execQueueWake_wf h
  | splitGrant => exact execSplitGrant_wf h
  | pageFault => exact execPageFault_wf h
  | fetchPageFault => exact execFetchPageFault_wf h
  | protectionViolation => exact execProtectionViolation_wf h
  | resumeRetry => exact execResumeRetry_wf h
  | resumeFail => exact execResumeFail_wf h
  | snapshotCopy => exact execSnapshotCopy_wf h
  | registerLineFill => exact execRegisterLineFill_wf h
  | lineDrowsy => exact execLineDrowsy_wf h
  | lineWake => exact execLineWake_wf h
  | copyCompletion => exact execCopyCompletion_wf h
  | copyTransferFailure => exact execCopyTransferFailure_wf h
  | copyPageFault => exact execCopyPageFault_wf h
  | tmmKStep => exact execTmmKStep_wf h
  | tmmCompletion => exact execTmmCompletion_wf h
  | bankSwitchCompletion => exact execBankSwitchCompletion_wf h
  | barrierArrival => exact execBarrierArrival_wf h
  | bedExit => exact execBedExit_wf h
  | waveStart => exact execWaveStart_wf h
  | preemption => exact execPreemption_wf h
  | bedResume => exact execBedResume_wf h
  | launchKill => exact execLaunchKill_wf h
  | launchReplay => exact execLaunchReplay_wf h
  | doorbell => exact execDoorbell_wf h
  | qcmdEnable => exact execQcmdEnable_wf h
  | qcmdDisable => exact execQcmdDisable_wf h
  | arbiterPick => exact execArbiterPick_wf h
  | dependenceSatisfied => exact execDependenceSatisfied_wf h
  | bedPlacement => exact execBedPlacement_wf h
  | launchCompletion => exact execLaunchCompletion_wf h
  | inval => exact execInval_wf h
  | bar4Access => exact execBar4Access_wf h
  | registerWrite => exact execRegisterWrite_wf h
  | arbpolWrite => exact execArbpolWrite_wf h
  | debugFlush => exact execDebugFlush_wf h
  | debuggerRelease => exact execDebuggerRelease_wf h
  | windowBoundary => exact execWindowBoundary_wf h
  | automaticRaise => exact execAutomaticRaise_wf h
  | quarantine => exact execQuarantine_wf h
  | quarantineCommand => exact execQuarantineCommand_wf h
  | release => exact execRelease_wf h
  | marginProfile => exact execMarginProfile_wf h
  | powerBudget => exact execPowerBudget_wf h
  | lremapWrite => exact execLremapWrite_wf h
  | pdtestWrite => exact execPdtestWrite_wf h
  | imageLoad => exact execImageLoad_wf h
  | svnMinimumRaise => exact execSvnMinimumRaise_wf h
  | attestation => exact execAttestation_wf h
  | amsanKeyInstall => exact execAmsanKeyInstall_wf h
  | amsanFrame => exact execAmsanFrame_wf h
  | peerGroupRegistration => exact execPeerGroupRegistration_wf h
  | indexRegistration => exact execIndexRegistration_wf h
  | searchRegistration => exact execSearchRegistration_wf h
  | searchSetup => exact execSearchSetup_wf h
  | spawn => exact execSpawn_wf h
  | walker => exact execWalker_wf h
  | cands => exact execCands_wf h
  | popreq => exact execPopreq_wf h
  | poprep => exact execPoprep_wf h
  | dreq => exact execDreq_wf h
  | endw => exact execEndw_wf h
  | versionCommit => exact execVersionCommit_wf h
  | queueDeadlockFault => exact execQueueDeadlockFault_wf h
  | engineFault => exact execEngineFault_wf h
  | collectiveFire => exact execCollectiveFire_wf h
  | stepStart => exact execStepStart_wf h
  | packetForming => exact execPacketForming_wf h
  | data => exact execData_wf h
  | coded => exact execCoded_wf h
  | ack => exact execAck_wf h
  | nack => exact execNack_wf h
  | stepTimeout => exact execStepTimeout_wf h
  | dieReset => exact execDieReset_wf h
  | packageReset => exact execPackageReset_wf h
  | powerOn => exact execPowerOn_wf h
  | nmcallBatch => exact execNmcallBatch_wf h
  | regulatorSettled => exact execRegulatorSettled_wf h
  | managementRestart => exact execManagementRestart_wf h
  | powerOff => exact execPowerOff_wf h
  | damagedFlit => exact (show memOk s from h)
  | planeBudgetReached => exact execPlaneBudgetReached_wf h
  | readAndClear => exact execReadAndClear_wf h
  | marginWrite => exact manageMargin_wf h
  | barRead => exact readBar_wf h
  | hostWrite => exact hostStore_wf h
  | heldAccess => exact makeHeld_wf h
  | memorySpace => exact setMemorySpace_wf h
  | vectorMask => exact setVectorMask_wf h
  | messageSend => exact sendWaiting_wf h
  | requestAnswer => exact answerRequest_wf h

/-! ## One instruction of a PC group -/

theorem payRelease_wf {m : Mask} (h : memOk s) : memOk (payRelease s sh b w m) := ite_wf h (modSheaf_wf (releaseAt_wf h _ _))

theorem issuing_wf {held : Option Sheaf} (h : memOk s) : memOk (issuing s sh g held) := by
  unfold issuing
  dsimp only
  split
  · exact ite_wf (payRelease_wf (ite_wf h (fetchAt_wf h))) (ite_wf h (fetchAt_wf h))
  · exact ite_wf h (fetchAt_wf h)

theorem runGroup_wf {held : Option Sheaf} (h : memOk s) : OutOk (runGroup s sh g held) := by
  unfold runGroup
  dsimp only
  split
  · exact trap_wf (issuing_wf h)
  · split
    · exact execFetchPageFault_wf (issuing_wf h)
    · exact violation_wf (issuing_wf h)
    · trivial
    · exact illegal_wf (issuing_wf h)
    · exact exec_wf (issuing_wf h)

theorem lockWait_wf (h : memOk s) : memOk (lockWait s core) := count_wf h

theorem delayTmm_wf {n : Nat} (h : memOk s) : memOk (delayTmm s core n) := modCore_wf h

theorem withLateTmm_wf {n : Nat} {o : Out} (h : OutOk o) : OutOk (withLateTmm core n o) :=
  ite_out h (andThen_out h (fun _ h1 => delayTmm_wf h1))

theorem firstRun_wf {key : Nat} (h : memOk s) : OutOk (firstRun s core slot key sh g held late).out := by
  unfold firstRun
  extract_lets counts n wait
  have hn : memOk n.1 := ite_fst h (inject_wf h)
  split
  · exact lockWait_wf h
  · split
    · exact lateIssue_wf hn
    · split
      · exact withLateTmm_wf (runGroup_wf hn)
      · split
        · exact runGroup_wf hn
        · exact lateIssue_wf hn

/-! ## Group registers that a pair writes (R19) -/

theorem noteOver_wf {left : List (Nat × Mask)} (h : memOk s) : memOk (noteOver s core slot left) := by
  unfold noteOver
  split
  · exact putAttempt_wf h
  · exact h

/-! ## What an issue leaves behind (R18, R24, R61, R180, R220, R365) -/

theorem joinYield_wf {alone : Bool} (h : memOk t) : memOk (joinYield alone old g t) := by
  unfold joinYield
  split
  · exact ite_wf (yieldSheaf_wf h) h
  · exact h

theorem notePaired_wf (h : memOk s) : memOk (notePaired s b w) := modSheaf_wf h

theorem afterIssue_wf {picked others : List Group} (ht : memOk t) : memOk (afterIssue core slot s old picked others b w t) := by
  unfold afterIssue
  dsimp only
  split
  · exact joinYield_wf (ite_wf (count_wf (count_wf (modSheaf_wf ht))) (count_wf (modSheaf_wf ht)))
  · exact ite_wf (count_wf (count_wf (modSheaf_wf ht))) (count_wf (modSheaf_wf ht))

theorem laterTrap_wf {u : State} {h : Group} (ht : memOk t) : memOk (laterTrap t u core slot old h) := modCore_wf (putAttempt_wf ht)

theorem issueGroups_wf {rest : List Group} (h : memOk s) : OutOk (issueGroups s core slot sh g rest late) := by
  unfold issueGroups
  dsimp only
  refine ite_out (firstRun_wf h) ?_
  split
  · exact andThen_out (firstRun_wf h) (fun _ h1 => afterIssue_wf h1)
  · refine andThen_out (firstRun_wf h) (fun _ h1 => ?_)
    split
    · exact h1
    · exact ite_out (afterIssue_wf (notePaired_wf h1)) (ite_out (afterIssue_wf h1)
        (andThen_out (firstRun_wf h1) (fun _ h2 => ite_wf (afterIssue_wf h2) (ite_wf (afterIssue_wf (laterTrap_wf h1))
        (afterIssue_wf (noteOver_wf h2))))))

/-! ## An issue slot -/

theorem reloadCredits_wf (h : memOk s) : memOk (reloadCredits s core slot cs) := fold_wf (fun _ _ h1 => modCore_wf h1) _ h

theorem takeCredit_wf {c : Cand} (h : memOk s) : memOk (takeCredit s core slot c) := by
  unfold takeCredit
  dsimp only
  split
  · exact h
  · exact ite_wf h (modCore_wf h)

theorem picked_wf {c : Cand} (h : memOk s) : memOk (picked s core slot cs c) :=
  fold_wf (fun _ _ h1 => modSheaf_wf h1) _ (ite_wf (takeCredit_wf h) h)

theorem keepEligible_wf (h : memOk t) : memOk (keepEligible cs b w t) := modSheaf_wf h

theorem orWait_wf {s1 : State} {r : Out} (hs : memOk s) (hr : OutOk r) : OutOk (orWait s s1 core g r) := by
  unfold orWait
  split
  · exact ite_out (lockWait_wf hs) hr
  · exact hr

theorem takeBadTags_wf (h : memOk s) : memOk (takeBadTags s g) := by
  unfold takeBadTags
  dsimp only
  split
  · exact h
  · exact takeTrap_wf (setSheaf_wf h)

theorem issueNew_wf {s0 : State} (h : memOk s0) : OutOk (issueNew s0 core slot late) := by
  unfold issueNew
  dsimp only
  split
  · exact reloadCredits_wf h
  · split
    · exact refillFlushed_wf (picked_wf (reloadCredits_wf h))
    · exact deliverPending_wf (picked_wf (reloadCredits_wf h))
    · exact takeBadTags_wf (picked_wf (reloadCredits_wf h))
    · exact execWatchdogTrap_wf (picked_wf (reloadCredits_wf h))
    · exact orWait_wf (reloadCredits_wf h) (andThen_out (issueGroups_wf (picked_wf (reloadCredits_wf h))) (fun _ h1 => keepEligible_wf h1))
    · exact reloadCredits_wf h

theorem afterReplay_wf {left : List (Nat × Mask)} (ht : memOk t) : memOk (afterReplay s sh g left t) := joinYield_wf (modSheaf_wf ht)

theorem issueAgain_wf {key : Nat} {a : Attempt} (h : memOk s) : OutOk (issueAgain s core slot key a late) := by
  unfold issueAgain
  dsimp only
  split
  · exact dropAttempt_wf h
  · split
    · exact lateIssue_wf h
    · exact ite_out (lateIssue_wf h) (orWait_wf h (andThen_out (withLateTmm_wf (runGroup_wf (dropAttempt_wf h)))
        (fun _ h1 => keepEligible_wf (afterReplay_wf h1))))

theorem takeLate_wf (h : memOk s) : memOk (takeLate s core slot).2 := by
  unfold takeLate
  split
  · exact modCore_wf h
  · exact h

theorem issueSlot_wf (h : memOk s) : OutOk (issueSlot s core slot) := by
  unfold issueSlot
  dsimp only
  split
  · split
    · exact issueAgain_wf (takeLate_wf h)
    · exact takeLate_wf h
  · exact issueNew_wf (takeLate_wf h)

/-! ## Pairs in the memory stacks (R137, R142) -/

theorem runPair_wf {n : NCur} (h : memOk s) : OutOk (runPair s n) := by
  unfold runPair
  dsimp only
  split
  · exact h
  · refine ite_out (nearFault_wf h) ?_
    split
    · exact nearFault_wf h
    · exact exec_wf h

theorem notePair_wf {n : NCur} (h : memOk s) : memOk (notePair s n) := modEngine_wf h

/-! ## The next action -/

theorem act_wf {a : Act} (h : memOk s) : OutOk (act a s) := by
  unfold act
  split
  · split
    · exact runEvent_wf h
    · exact h
  · exact runEvent_wf h
  · exact issueSlot_wf h
  · exact runPair_wf (notePair_wf h)

theorem countLockWaits_wf (h : memOk s) : memOk (countLockWaits s) := fold_wf (fun _ _ h1 => count_wf h1) _ h

theorem notice_wf (ht : memOk t) : memOk (notice s t) :=
  countLockWaits_wf (noteQueues_wf (noteDeps_wf (ite_wf (trimLines_wf ht) (trimCaches_wf (trimLines_wf ht)))))

theorem putOff_wf (h : memOk s) : OutOk (putOff s) := h

theorem made_wf (ht : memOk t) : memOk (made s t) := notice_wf ht

/-- An action that is made, put off or waits for a page of the pool: none writes memory beside the action itself. -/
theorem settle_wf {a : Act} (hs : memOk s) (ht : memOk t) : OutOk (settle a s t) := by
  unfold settle
  dsimp only
  split
  · exact waitSnap_wf hs
  · exact ite_out (putOff_wf hs) (ite_out (made_wf ht) (andThen_out (act_wf hs) (fun _ h => ite_out (putOff_wf hs) (made_wf h))))

/-! ## One step -/

/-- One step keeps memory in canonical form: every action does, and what `settle` makes of it. -/
theorem step_wf (h : memOk s) : OutOk (step s) := by
  unfold step
  split
  · exact h
  · exact andThen_out (act_wf h) (fun _ h1 => settle_wf h h1)

end Sys2Proof.Proofs
end

section
/-! PROOFS. What reset leaves, and what every step keeps: canonical memory and rest (R85, R374, R412, R421, R425). -/

namespace Sys2Proof.Proofs

open Sys2Proof Sys2Proof.Machine Sys2Proof.Claim

variable {s t u : State}

/-! ## Who issues, after a fault-queue entry -/

theorem revokeAll_agent (s : State) (w : Nat) : (revokeAll s w).agent = s.agent := by
  rw [(linesMove_revokeAll s w).rest]

theorem homePut_agent (s : State) (a : Nat) (x : Byte) : (homePut s a x).agent = s.agent := by
  unfold homePut putHome
  rw [homeThrough_agent, revokeAll_agent]

theorem homePuts_agent (a : Nat) (l : List Byte) : (homePuts s a l).agent = s.agent := by
  induction l generalizing s a with
  | nil => rfl
  | cons x r ih => rw [homePuts, ih, homePut_agent]

theorem modFn_agent (s : State) (fn : Nat) (f : HostFn → HostFn) : (modFn s fn f).agent = s.agent := rfl

theorem postEntry_agent (s : State) (fn : Nat) (e : BitVec 256) : (postEntry s fn e).agent = s.agent := by
  unfold postEntry
  dsimp only
  split
  · rw [modFn_agent, homePuts_agent]
  · rfl

/-- A step that waits for a page of the snapshot pool leaves everyone where they were (R359). -/
theorem waitSnap_agent (s : State) (asid : BitVec 16) (va : DWord) : (waitSnap s asid va).agent = s.agent := by
  unfold waitSnap
  dsimp only
  split
  · rfl
  · rw [postEntry_agent]
    rfl

/-! ## Rest between steps -/

/-- The state a step leads to stands one tick later, with nobody issuing. -/
def Rested (s t : State) : Prop := t.agent = .idle ∧ t.ticks = s.ticks + 1

theorem rested_made (s t : State) : Rested s (made s t) := ⟨rfl, rfl⟩

theorem rested_of_putOff (hs : atRest s) (h : putOff s = .next t) : Rested s t := by
  cases h
  exact ⟨hs, rfl⟩

/-- `settle` ends in a step that is made, one that is put off, or one that waits: each draws new free values and leaves nobody issuing. -/
theorem rested_of_settle {a : Act} (hs : atRest s) (h : settle a s u = .next t) : Rested s t := by
  unfold settle at h
  dsimp only at h
  split at h
  · cases h
    exact ⟨(waitSnap_agent ..).trans hs, rfl⟩
  · split at h
    · exact rested_of_putOff hs h
    · split at h
      · cases h
        exact rested_made ..
      · unfold Out.andThen at h
        split at h
        · dsimp only at h
          split at h
          · exact rested_of_putOff hs h
          · cases h
            exact rested_made ..
        · cases h
        · cases h

theorem candidates_of_nextAct (h : nextAct s = none) : candidates s = [] := by
  unfold nextAct at h
  split at h
  · assumption
  · cases h
  · cases h

theorem rested_of_step (hs : atRest s) (h : step s = .next t) : (candidates s = [] ∧ t = s) ∨ Rested s t := by
  unfold step at h
  split at h
  · rename_i hn
    cases h
    exact .inl ⟨candidates_of_nextAct hn, rfl⟩
  · unfold Out.andThen at h
    split at h
    · exact .inr (rested_of_settle hs h)
    · cases h
    · cases h

/-- Canonical memory by `step_wf`, rest by `rested_of_step`. -/
theorem stepInvariant : StepInvariant := by
  intro s t hm hs h
  refine ⟨(step_wf hm).get h, ?_⟩
  rcases rested_of_step hs h with ⟨hc, rfl⟩ | ⟨ha, ht⟩
  · exact ⟨hs, .inl ⟨hc, rfl⟩⟩
  · exact ⟨ha, .inr ht⟩

/-! ## Reset -/

theorem measOf_reset {k : Nat} (hk : k ≠ 0) : measOf State.reset.mgmt k = 0#512 := if_neg (Ne.symm hk)

/-- Whatever the boot ROM measured of itself (R412). -/
theorem measOf_reset_zero : measOf State.reset.mgmt 0 = Config.romMeasure := rfl

theorem memoryCanonical_reset : memoryCanonical State.reset := rfl

/-- The registers and tables of reset, in the claim's order. -/
theorem reset : Claim.Reset :=
  ⟨fun _ => ⟨rfl, rfl, rfl, rfl⟩, fun _ => ⟨rfl, rfl, rfl, rfl⟩, ⟨rfl, rfl, rfl, rfl, rfl, rfl, rfl, rfl⟩, fun _ => rfl, rfl, rfl, rfl, rfl,
    rfl, rfl, rfl, rfl, fun _ => measOf_reset, measOf_reset_zero, rfl, rfl, rfl, rfl, rfl, rfl, memoryCanonical_reset⟩

/-- Settles O60: reset by its tables; the invariant by `f_wf` for every function `f` that a step runs, and by the three ends of a step. -/
theorem resetAndSteps : Obligations.ResetAndSteps := ⟨reset, stepInvariant⟩

end Sys2Proof.Proofs
end

section
/-! PROOFS. Decode and encode agree for every instruction of a bank engine (R140, R141). -/

namespace Sys2Proof.Proofs

open Sys2Proof Sys2Proof.Machine Sys2Proof.Claim

/-! ## The fields of a word -/

/-- What a bank engine reads in a word before it checks it (R141). -/
def parseNear (w : Nat) : Except DecodeError Instr :=
  match scopeOf w with
  | .lane => parseNearLane w
  | .group => parseNearGroup w

/-- The word of an instruction holds its encoding, and parses back to it. -/
def ReadsBack (i : Instr) : Prop := encodeNat i < 2 ^ 32 ∧ parseNear (encodeNat i) = .ok i

theorem decodeNear_eq (w : Word) : decodeNear w = checked Instr.nearWf w.toNat (parseNear w.toNat) := rfl

theorem fld_eq {k : Nat} (lo : Nat) {w : Nat} (x : BitVec k) (h : w / 2 ^ lo % 2 ^ k = x.toNat) : fld k lo w = x :=
  BitVec.eq_of_toNat_eq (by rw [fld, BitVec.toNat_ofNat, h])

/-- The scope bit and the major of a word are those of its base word (R171). -/
def SameHead (w base : Nat) : Prop :=
  w / 0x80000000 % 2 = base / 0x80000000 % 2 ∧ w / 0x2000000 % 64 = base / 0x2000000 % 64

/-! ### The forms of a word: the head, the function code and the fields of each (Tables 7.1 and 11.7) -/

section Forms

variable {i : Instr} {base : Nat}

theorem readsBack_dab {d a b : BitVec 7} (hw : encodeNat i = base + put 18 d + put 11 a + put 4 b) (h : base < 2 ^ 32 ∧ base % 2 ^ 25 < 16)
    (hp : ∀ w, SameHead w base → w % 16 = base % 16 → fld 7 18 w = d → fld 7 11 w = a → fld 7 4 w = b → parseNear w = .ok i) :
    ReadsBack i := by
  have hd := d.isLt; have ha := a.isLt; have hb := b.isLt
  simp only [put] at hw
  exact ⟨by omega, hp _ ⟨by omega, by omega⟩ (by omega) (fld_eq 18 d (by omega)) (fld_eq 11 a (by omega)) (fld_eq 4 b (by omega))⟩

theorem readsBack_da {d a : BitVec 7} (hw : encodeNat i = base + put 18 d + put 11 a) (h : base < 2 ^ 32 ∧ base % 2 ^ 25 < 16)
    (hp : ∀ w, SameHead w base → w % 16 = base % 16 → fld 7 18 w = d → fld 7 11 w = a → parseNear w = .ok i) :
    ReadsBack i := by
  have hd := d.isLt; have ha := a.isLt
  simp only [put] at hw
  exact ⟨by omega, hp _ ⟨by omega, by omega⟩ (by omega) (fld_eq 18 d (by omega)) (fld_eq 11 a (by omega))⟩

theorem readsBack_ab {a b : BitVec 7} (hw : encodeNat i = base + put 11 a + put 4 b) (h : base < 2 ^ 32 ∧ base % 2 ^ 25 < 16)
    (hp : ∀ w, SameHead w base → w % 16 = base % 16 → fld 7 11 w = a → fld 7 4 w = b → parseNear w = .ok i) :
    ReadsBack i := by
  have ha := a.isLt; have hb := b.isLt
  simp only [put] at hw
  exact ⟨by omega, hp _ ⟨by omega, by omega⟩ (by omega) (fld_eq 11 a (by omega)) (fld_eq 4 b (by omega))⟩

theorem readsBack_a {a : BitVec 7} (hw : encodeNat i = base + put 11 a) (h : base < 2 ^ 32 ∧ base % 2 ^ 25 < 16)
    (hp : ∀ w, SameHead w base → w % 16 = base % 16 → fld 7 11 w = a → parseNear w = .ok i) : ReadsBack i := by
  have ha := a.isLt
  simp only [put] at hw
  exact ⟨by omega, hp _ ⟨by omega, by omega⟩ (by omega) (fld_eq 11 a (by omega))⟩

theorem readsBack_imm {d a : BitVec 7} {x : BitVec 11} (hw : encodeNat i = base + put 18 d + put 11 a + put 0 x) (h : base < 2 ^ 32 ∧ base % 2 ^ 25 = 0)
    (hp : ∀ w, SameHead w base → fld 7 18 w = d → fld 7 11 w = a → fld 11 0 w = x → parseNear w = .ok i) :
    ReadsBack i := by
  have hd := d.isLt; have ha := a.isLt; have hx := x.isLt
  simp only [put] at hw
  exact ⟨by omega, hp _ ⟨by omega, by omega⟩ (fld_eq 18 d (by omega)) (fld_eq 11 a (by omega)) (fld_eq 0 x (by omega))⟩

theorem readsBack_shift {d a : BitVec 7} {n : BitVec 5} (hw : encodeNat i = base + put 18 d + put 11 a + put 0 n)
    (h : base < 2 ^ 32 ∧ base % 2 ^ 25 / 2 ^ 5 < 4 ∧ base % 2 ^ 5 = 0)
    (hp : ∀ w, SameHead w base → w / 32 % 4 = base / 32 % 4 → fld 7 18 w = d → fld 7 11 w = a → fld 5 0 w = n → parseNear w = .ok i) :
    ReadsBack i := by
  have hd := d.isLt; have ha := a.isLt; have hn := n.isLt
  simp only [put] at hw
  exact ⟨by omega, hp _ ⟨by omega, by omega⟩ (by omega) (fld_eq 18 d (by omega)) (fld_eq 11 a (by omega)) (fld_eq 0 n (by omega))⟩

theorem readsBack_wide {d : BitVec 7} {x : BitVec 18} (hw : encodeNat i = base + put 18 d + put 0 x) (h : base < 2 ^ 32 ∧ base % 2 ^ 25 = 0)
    (hp : ∀ w, SameHead w base → fld 7 18 w = d → fld 18 0 w = x → parseNear w = .ok i) : ReadsBack i := by
  have hd := d.isLt; have hx := x.isLt
  simp only [put] at hw
  exact ⟨by omega, hp _ ⟨by omega, by omega⟩ (fld_eq 18 d (by omega)) (fld_eq 0 x (by omega))⟩

theorem readsBack_jump {x : BitVec 25} (hw : encodeNat i = base + put 0 x) (h : base < 2 ^ 32 ∧ base % 2 ^ 25 = 0)
    (hp : ∀ w, SameHead w base → fld 25 0 w = x → parseNear w = .ok i) : ReadsBack i := by
  have hx := x.isLt
  simp only [put] at hw
  exact ⟨by omega, hp _ ⟨by omega, by omega⟩ (fld_eq 0 x (by omega))⟩

theorem readsBack_coded {d a b : BitVec 7} {c : BitVec 4} (hw : encodeNat i = base + put 18 d + put 11 a + put 4 b + put 0 c)
    (h : base < 2 ^ 32 ∧ base % 2 ^ 25 = 0)
    (hp : ∀ w, SameHead w base → fld 7 18 w = d → fld 7 11 w = a → fld 7 4 w = b → fld 4 0 w = c → parseNear w = .ok i) :
    ReadsBack i := by
  have hd := d.isLt; have ha := a.isLt; have hb := b.isLt; have hc := c.isLt
  simp only [put] at hw
  exact ⟨by omega, hp _ ⟨by omega, by omega⟩ (fld_eq 18 d (by omega)) (fld_eq 11 a (by omega)) (fld_eq 4 b (by omega)) (fld_eq 0 c (by omega))⟩

theorem readsBack_access {d a : BitVec 7} {m : BitVec 2} {o : BitVec 5}
    (hw : encodeNat i = base + put 18 d + put 11 a + put 9 m + put 4 o) (h : base < 2 ^ 32 ∧ base % 2 ^ 25 = 0)
    (hp : ∀ w, SameHead w base → fld 7 18 w = d → fld 7 11 w = a → fld 2 9 w = m → fld 5 4 w = o → parseNear w = .ok i) :
    ReadsBack i := by
  have hd := d.isLt; have ha := a.isLt; have hm := m.isLt; have ho := o.isLt
  simp only [put] at hw
  exact ⟨by omega, hp _ ⟨by omega, by omega⟩ (fld_eq 18 d (by omega)) (fld_eq 11 a (by omega)) (fld_eq 9 m (by omega)) (fld_eq 4 o (by omega))⟩

theorem readsBack_queue {d : BitVec 7} {q e : BitVec 1} (hw : encodeNat i = base + put 18 d + put 11 q + put 4 e) (h : base < 2 ^ 32 ∧ base % 2 ^ 25 < 16)
    (hp : ∀ w, SameHead w base → w % 16 = base % 16 → fld 7 18 w = d → fld 1 11 w = q → fld 1 4 w = e → parseNear w = .ok i) :
    ReadsBack i := by
  have hd := d.isLt; have hq := q.isLt; have he := e.isLt
  simp only [put] at hw
  exact ⟨by omega, hp _ ⟨by omega, by omega⟩ (by omega) (fld_eq 18 d (by omega)) (fld_eq 11 q (by omega)) (fld_eq 4 e (by omega))⟩

theorem readsBack_convert {d a : BitVec 7} {t u : BitVec 4} {r : BitVec 2} {x : BitVec 1}
    (hw : encodeNat i = base + put 18 d + put 11 a + put 7 t + put 3 u + put 1 r + put 0 x) (h : base < 2 ^ 32 ∧ base % 2 ^ 25 = 0)
    (hp : ∀ w, SameHead w base → fld 7 18 w = d → fld 7 11 w = a → fld 4 7 w = t → fld 4 3 w = u → fld 2 1 w = r → fld 1 0 w = x →
      parseNear w = .ok i) : ReadsBack i := by
  have hd := d.isLt; have ha := a.isLt; have ht := t.isLt; have hu := u.isLt; have hr := r.isLt; have hx := x.isLt
  simp only [put] at hw
  exact ⟨by omega, hp _ ⟨by omega, by omega⟩ (fld_eq 18 d (by omega)) (fld_eq 11 a (by omega)) (fld_eq 7 t (by omega)) (fld_eq 3 u (by omega))
    (fld_eq 1 r (by omega)) (fld_eq 0 x (by omega))⟩

end Forms

/-! ## Decode and encode -/

/-- Form by form. -/
theorem readsBack_of_nearWf (i : Instr) (h : i.nearWf = true) : ReadsBack i := by
  cases i
  case add sc d a b | sub sc d a b | mul sc d a b | mulh sc d a b | mulhu sc d a b | min sc d a b | max sc d a b | minu sc d a b
      | maxu sc d a b | and sc d a b | or sc d a b | xor sc d a b | andn sc d a b | shl sc d a b | shr sc d a b | sra sc d a b
      | rol sc d a b | ror sc d a b | madd sc d a b | msub sc d a b | lea1 sc d a b | lea2 sc d a b | lea3 sc d a b | addsat sc d a b
      | subsat sc d a b =>
    cases sc
    all_goals
      refine readsBack_dab rfl (by decide) fun w hs hf hd ha hb => ?_
      simp [parseNear, scopeOf, majorOf, parseNearLane, parseNearGroup, Scope.bit, hs.1, hs.2, hf, hd, ha, hb]
  case clz sc d a | popc sc d a | brev sc d a | abs sc d a | neg sc d a =>
    cases sc
    all_goals
      refine readsBack_da rfl (by decide) fun w hs hf hd ha => ?_
      simp [parseNear, scopeOf, majorOf, parseNearLane, parseNearGroup, Scope.bit, hs.1, hs.2, hf, hd, ha]
  case fadd sc d a b | fsub sc d a b | fmul sc d a b | ffma sc d a b | ffms sc d a b | fmin sc d a b | fmax sc d a b | fcpys sc d a b =>
    obtain _ | _ := sc
    · refine readsBack_dab rfl (by decide) fun w hs hf hd ha hb => ?_
      simp [parseNear, scopeOf, majorOf, parseNearLane, Scope.bit, hs.1, hs.2, hf, hd, ha, hb]
    · cases h
  case fabs sc d a | fneg sc d a | fclass sc d a =>
    obtain _ | _ := sc
    · refine readsBack_da rfl (by decide) fun w hs hf hd ha => ?_
      simp [parseNear, scopeOf, majorOf, parseNearLane, Scope.bit, hs.1, hs.2, hf, hd, ha]
    · cases h
  case cvt sc d a t u r x =>
    obtain _ | _ := sc
    · refine readsBack_convert rfl (by decide) fun w hs hd ha ht hu hr hx => ?_
      simp [parseNear, scopeOf, majorOf, parseNearLane, Scope.bit, hs.1, hs.2, hd, ha, ht, hu, hr, hx]
    · cases h
  case hpush d a b | htop d a b =>
    refine readsBack_dab rfl (by decide) fun w hs hf hd ha hb => ?_
    simp [parseNear, scopeOf, majorOf, parseNearLane, hs.1, hs.2, hf, hd, ha, hb]
  case hpop d a | hchain d a | msgSend d a | msgRecv d a =>
    refine readsBack_da rfl (by decide) fun w hs hf hd ha => ?_
    simp [parseNear, scopeOf, majorOf, parseNearLane, hs.1, hs.2, hf, hd, ha]
  case whop a b | wspawn a b | nmret a b =>
    refine readsBack_ab rfl (by decide) fun w hs hf ha hb => ?_
    simp [parseNear, scopeOf, majorOf, parseNearLane, hs.1, hs.2, hf, ha, hb]
  case jmpr a =>
    refine readsBack_a rfl (by decide) fun w hs hf ha => ?_
    simp [parseNear, scopeOf, majorOf, parseNearLane, hs.1, hs.2, hf, ha]
  case wend => exact ⟨by decide, rfl⟩
  case addi sc d a x | muli sc d a x | andi sc d a x | ori sc d a x | xori sc d a x =>
    obtain _ | _ := sc
    · cases h
    · refine readsBack_imm rfl (by decide) fun w hs hd ha hx => ?_
      simp [parseNear, scopeOf, majorOf, parseNearGroup, Scope.bit, hs.1, hs.2, hd, ha, hx]
  case shli sc d a n | shri sc d a n | srai sc d a n | roli sc d a n =>
    obtain _ | _ := sc
    · cases h
    · refine readsBack_shift rfl (by decide) fun w hs hf hd ha hn => ?_
      simp [parseNear, scopeOf, majorOf, parseNearGroup, Scope.bit, hs.1, hs.2, hf, hd, ha, hn]
  case li sc d x =>
    obtain _ | _ := sc
    · cases h
    · refine readsBack_wide rfl (by decide) fun w hs hd hx => ?_
      simp [parseNear, scopeOf, majorOf, parseNearGroup, Scope.bit, hs.1, hs.2, hd, hx]
  case cmp sc d a b c | div sc d a b c | divu sc d a b c | rem sc d a b c | remu sc d a b c =>
    obtain _ | _ := sc
    · cases h
    · refine readsBack_coded rfl (by decide) fun w hs hd ha hb hc => ?_
      simp [parseNear, scopeOf, majorOf, parseNearGroup, Scope.bit, hs.1, hs.2, hd, ha, hb, hc]
  case br d x | brn d x =>
    refine readsBack_wide rfl (by decide) fun w hs hd hx => ?_
    simp [parseNear, scopeOf, majorOf, parseNearLane, hs.1, hs.2, hd, hx]
  case bra x | call x =>
    refine readsBack_jump rfl (by decide) fun w hs hx => ?_
    simp [parseNear, scopeOf, majorOf, parseNearLane, hs.1, hs.2, hx]
  case ldb d a m o | stb d a m o =>
    refine readsBack_access rfl (by decide) fun w hs hd ha hm ho => ?_
    simp [parseNear, scopeOf, majorOf, parseNearLane, hs.1, hs.2, hd, ha, hm, ho]
  case dist d a b c =>
    refine readsBack_coded rfl (by decide) fun w hs hd ha hb hc => ?_
    simp [parseNear, scopeOf, majorOf, parseNearLane, hs.1, hs.2, hd, ha, hb, hc]
  case nearQpush d q e | nearQpop d q e =>
    refine readsBack_queue rfl (by decide) fun w hs hf hd hq he => ?_
    simp [parseNear, scopeOf, majorOf, parseNearGroup, hs.1, hs.2, hf, hd, hq, he]
  all_goals cases h

theorem decodeNear_encodeWord (i : Instr) (h : i.nearWf = true) : decodeNear (encodeWord i) = .ok i := by
  obtain ⟨hlt, hparse⟩ := readsBack_of_nearWf i h
  rw [decodeNear_eq, encodeWord, BitVec.toNat_ofNat, Nat.mod_eq_of_lt hlt, hparse]
  simp [checked, h]

/-- What a checked reading gives keeps the checks. -/
theorem checked_ok {ok : Instr → Bool} {w : Nat} {r : Except DecodeError Instr} {i : Instr} (h : checked ok w r = .ok i) :
    ok i = true ∧ encodeNat i = w := by
  unfold checked at h
  split at h
  · cases h
  · split at h
    · split at h
      · cases h
        exact ⟨‹_›, ‹_›⟩
      · cases h
    · cases h

/-- Settles O57: a well-formed instruction by the form of its word, a decoded word by the decoder's own checks. -/
theorem roundTripNear : Obligations.RoundTripNear := by
  refine ⟨decodeNear_encodeWord, fun w i h => ?_⟩
  obtain ⟨hwf, hw⟩ := checked_ok h
  exact ⟨hwf, by rw [encodeWord, hw, BitVec.ofNat_toNat, BitVec.setWidth_eq]⟩

end Sys2Proof.Proofs
end

section
/-! PROOFS. The near profile on a bank engine, and near-only words on a core (R140, R141, R287, Table 6.1). -/

namespace Sys2Proof.Proofs

open Sys2Proof Sys2Proof.Machine Sys2Proof.Claim

/-! ## An instruction of a pair -/

section Pair

variable {s : State} {n : NCur} {x : Ctx} {t : NThr}

theorem onPair_runs (h : Runs s n x t) (k : NCur → Ctx → NThr → Out) : onPair s k = k n x t := by
  obtain ⟨ha, hx, rfl⟩ := h
  simp only [onPair, ha, ctxOf, hx]

theorem onEngine_runs (h : Runs s n x t) : onEngine s = true := by
  simp only [onEngine, h.1]

theorem nearScalar_runs (h : Runs s n x t) (d a b : BitVec 7) (f : DWord → DWord → DWord → DWord) :
    nearScalar s d a b f = nearDone s n (nearPutG t (rn d) (f (nearG t (rn a)) (nearG t (rn b)) (nearG t (rn d)))) := onPair_runs h _

theorem nearVector_runs (h : Runs s n x t) (d a b : BitVec 7) (f : Word → Word → Word → Word) :
    nearVector s d a b f = nearDone s n (nearPutV t (rn d) (sixteen (fun i => f (elemOf t (rn a) i) (elemOf t (rn b) i) (elemOf t (rn d) i)))) :=
  onPair_runs h _

/-! ## Functions of ALU, of ALU2 and of an immediate -/

theorem alu_near (h : Runs s n x t) (op : AluOp) (d a b : BitVec 7) : Moves (aluInstr op .group d a b) s n
    (nearPutG t (rn d) (alu op (nearG t (rn a)) (nearG t (rn (second op a b))) (nearG t (rn d)))) := by
  unfold Moves
  rw [exec_aluInstr]
  simp only [aluReg, onEngine_runs h]
  exact nearScalar_runs h ..

theorem alu_near_vector (h : Runs s n x t) (op : AluOp) (d a b : BitVec 7) : Moves (aluInstr op .lane d a b) s n (nearPutV t (rn d)
    (sixteen (fun i => alu op (elemOf t (rn a) i) (elemOf t (rn (second op a b)) i) (elemOf t (rn d) i)))) := by
  unfold Moves
  rw [exec_aluInstr]
  simp only [aluReg, onEngine_runs h]
  exact nearVector_runs h ..

theorem aluImm_near (h : Runs s n x t) (op : AluOp) (d a : BitVec 7) (u : Word) (v : DWord) :
    aluImm op .group d a u v s = nearDone s n (nearPutG t (rn d) (alu op (nearG t (rn a)) v 0#64)) := by
  simp only [aluImm, onEngine_runs h]
  exact nearScalar_runs h ..

/-- A shift amount of five bits is its own low byte, and less than a scalar's width. -/
theorem shift_small (n : BitVec 5) : (n.setWidth 64).toNat = n.toNat ∧ n.toNat % 256 = n.toNat ∧ n.toNat < 64 ∧ n.toNat % 64 = n.toNat := by
  have := n.isLt
  refine ⟨?_, by omega, by omega, by omega⟩
  rw [BitVec.toNat_setWidth]
  omega

theorem imm_near (h : Runs s n x t) (f : ImmForm) (d a : BitVec 7) :
    Moves (f.instr .group d a) s n (nearPutG t (rn d) (f.result (nearG t (rn a)))) := by
  have key : ∀ op u v, exec (f.instr .group d a) s = aluImm op .group d a u v s → alu op (nearG t (rn a)) v 0#64 = f.result (nearG t (rn a)) →
      Moves (f.instr .group d a) s n (nearPutG t (rn d) (f.result (nearG t (rn a)))) := fun op u v he hv => by
    rw [← hv]
    exact he.trans (aluImm_near h ..)
  cases f with
  | addi i | muli i | andi i | ori i | xori i => exact key _ _ _ rfl rfl
  | shli k | shri k | srai k | roli k =>
    refine key _ _ _ rfl ?_
    obtain ⟨h1, h2, h3, h4⟩ := shift_small k
    simp only [alu, ImmForm.result, h1, h2, h3, h4, if_true]

/-! ## Other scalars, and vectors -/

theorem li_near (h : Runs s n x t) (d : BitVec 7) (i : BitVec 18) : Moves (.li .group d i) s n (nearPutG t (rn d) (i.signExtend 64)) := by
  show loadImm .group d (i.signExtend 32) (i.signExtend 64) s = _
  simp only [loadImm, onEngine_runs h]
  exact onPair_runs h _

theorem div_near (h : Runs s n x t) (v : DivOp) (d a b : BitVec 7) (l : BitVec 4) :
    Moves (divInstr v .group d a b l) s n (nearPutG t (rn d) (divide v (nearG t (rn a)) (nearG t (rn b)))) := by
  have he : exec (divInstr v .group d a b l) s = divReg v .group d a b l s := by cases v <;> rfl
  unfold Moves
  rw [he]
  simp only [divReg, onEngine_runs h]
  exact nearScalar_runs h ..

theorem cmp_near (h : Runs s n x t) (d a b : BitVec 7) (k : BitVec 4) : Moves (.cmp .group d a b k) s n
    (nearPutG t (rn d) (if intCond k.toNat (nearG t (rn a)) (nearG t (rn b)) then 1#64 else 0#64)) := by
  show cmpReg .group d a b k s = _
  simp only [cmpReg, onEngine_runs h]
  exact nearScalar_runs h ..

theorem falu_near (h : Runs s n x t) (op : FOp) (d a b : BitVec 7) :
    faluReg op .lane d a b s = nearDone s n (nearPutV t (rn d) (sixteen (fun i =>
      BitVec.ofNat 32 (fop fp32 op (elemOf t (rn a) i).toNat (elemOf t (rn b) i).toNat (elemOf t (rn d) i).toNat)))) := by
  simp only [faluReg, onEngine_runs h]
  exact nearVector_runs h ..

/-! ## Branches -/

theorem nearTarget_eq (pc : Nat) (disp : Int) : nearTarget pc disp = nearAt pc disp := by
  rw [nearTarget, nearAt, BitVec.toNat_ofInt]
  rfl

theorem branchMask_near (h : Runs s n x t) (m : BitVec 7) (j : BitVec 18) (sense : Bool) : branchMask m j sense s =
    .next (putThr s n { t with pc := if (nearG t (rn m) != 0#64) = sense then nearAt t.pc j.toInt else t.pc + 4 }) := by
  rw [branchMask, if_pos (onEngine_runs h), nearBranch, onPair_runs h, nearTarget_eq]
  simp only [beq_iff_eq]

end Pair

/-- R140, R141 and Table 6.1 on a pair. -/
theorem nearCoreForms : NearCoreForms := by
  intro op v f d a b l k x y s n c t h
  refine ⟨alu_near h op d a b, alu_near_vector h op d a b, imm_near h f d a, li_near h d x, div_near h v d a b l, cmp_near h d a b k,
    falu_near h .add d a b, falu_near h .fma d a b, ?_, ?_, ?_, ?_⟩
  · rw [exec_br, execBr, branchMask_near h]
    simp only [bne_iff_ne]
  · rw [exec_brn, execBrn, branchMask_near h]
    simp only [bne_eq_false_iff_eq]
  · rw [exec_bra, execBra, if_pos (onEngine_runs h), nearBranch, onPair_runs h, nearTarget_eq]
    rfl
  · rw [exec_jmpr, execJmpr, if_pos (onEngine_runs h), onPair_runs h]

/-! ## Near-only words on a core -/

/-- R287: what a near-only word does on an engine is never asked. -/
theorem nearOnly_issues {s : State} {c : Cur} {sh : Sheaf} (h : Issues s c sh) (k : NCur → Ctx → NThr → Out) :
    nearOnly s k = trap s c sh (plainTrap 0) := by
  rw [nearOnly, onEngine_issues h, onSheaf_issues h]
  rfl

theorem nearOnlyOnCores : NearOnlyOnCores := by
  intro d a b m o k q e s c sh h i hi
  simp only [nearOnlyInstrs, List.mem_cons, List.not_mem_nil, or_false] at hi
  rcases hi with rfl | rfl | rfl | rfl | rfl | rfl | rfl | rfl | rfl | rfl | rfl | rfl | rfl | rfl | rfl
  all_goals exact nearOnly_issues h _

/-- Settles O39: each form of the near profile by its arm for a pair; a near-only word on a core by `nearOnly_issues`. -/
theorem nearForms : Obligations.NearForms := ⟨nearCoreForms, nearOnlyOnCores⟩

end Sys2Proof.Proofs
end

section
/-! PROOFS. NMSEARCH: what is checked at issue, and the command that goes to the controllers (R156, R249, R284). -/

namespace Sys2Proof.Proofs

open Sys2Proof Sys2Proof.Machine Sys2Proof.Claim

/-! ## A barrier reference (R249) -/

section Reference

variable {s : State} {c : Cur} {sh : Sheaf} {ref : DWord}

theorem refOk_any (h : refOk ref false = true) : refOk ref true = true := by
  unfold refOk at h ⊢
  split at h <;> simp_all

/-- The address check of a reference fails just where it does not reach its object. -/
theorem refReaches_iff : RefReaches s c sh ref ↔ ((refSpace ref == 0 && !canonical (refVa ref)) ||
    (refSpace ref == 1 && !scratchOk s (plotOf sh.place.core) (launchKey s c.bed) (refScratch ref) 16)) = false := by
  simp [RefReaches, refSpace]

theorem withRef_reaches (h : refOk ref true = true) (hr : RefReaches s c sh ref) (m : Mask) (k : Out) : withRef s c sh m ref k = k := by
  rw [withRef, h, refReaches_iff.1 hr]
  rfl

theorem withRef_violates (h : refOk ref true = true) (hr : ¬RefReaches s c sh ref) (m : Mask) (k : Out) :
    withRef s c sh m ref k = violation s c sh m (lowestD m) (refVa ref) := by
  rw [refReaches_iff, Bool.not_eq_false] at hr
  rw [withRef, h, hr]
  rfl

/-! ## An object named (R361) -/

theorem stores_touch (s : State) (launch : Nat) (ref : DWord) (die core : Nat) : StoresNothing s (touch s launch ref die core) := by
  unfold touch
  split
  · exact stores_refl s
  · split
    · exact stores_refl s
    · split
      · exact stores_refl s
      · split
        · exact stores_of_eq (modLaunch_mem ..) (modLaunch_memPoison ..) (modLaunch_home ..) (modLaunch_l2 ..) (modLaunch_plots ..)
            (modLaunch_cores ..)
        · exact stores_of_eq rfl rfl rfl rfl rfl rfl

theorem touch_beds (s : State) (launch : Nat) (ref : DWord) (die core : Nat) : (touch s launch ref die core).beds = s.beds := by
  unfold touch
  split
  · rfl
  · split
    · rfl
    · split
      · rfl
      · split
        · exact modLaunch_beds ..
        · rfl

end Reference

/-! ## NMSEARCH -/

section Nmsearch

variable {s : State} {c : Cur} {sh : Sheaf} {a b : BitVec 7}

/-- A search as its command leaves it at the controller of its card's stack. -/
def sentSearch (s : State) (c : Cur) (sh : Sheaf) (va ref : DWord) (pa : Nat) : Search :=
  { launch := launchKey s c.bed, asid := asidOf s c.bed, plot := plotOf sh.place.core, cardVa := va, ref := ref, card := 0#512,
    desc := 0#1024, descPa := 0, snap := 0#32, stage := .sent, lib := 0, home := 64 * stackOf pa, heap0 := 0, heapn := 0, visited := [],
    entries := [], spawned := 0, endedW := 0, handed := 0, dreqs := 0, waiters := [], holding := 0, query := [],
    qpages := [], rpages := [], spent := false, poison := false, engFault := false, hold := Hold.reset }

/-- A search under a new name. -/
def addSearch (s : State) (x : Search) : State := { (fresh s).2 with searches := mset (fresh s).2.searches (fresh s).1 x }

/-- The command is sent: the search takes a new name, and the thread moves on. -/
def sendSearch (c : Cur) (sh : Sheaf) (va ref : DWord) (s : State) (pa : Nat) : Out :=
  done (addSearch (touchBy s c.bed sh.place.core ref) (sentSearch s c sh va ref pa)) c sh

/-- Any of the registers of two pairs is poisoned. -/
def dirtyPairs (s : State) (c : Cur) (sh : Sheaf) (a b : BitVec 7) : Bool :=
  rdGP s c sh (rn a) || rdGP s c sh (rn a + 1) || rdGP s c sh (rn b) || rdGP s c sh (rn b + 1)

/-- The checks of an NMSEARCH in their order. -/
theorem exec_nmsearch_issues (hi : Issues s c sh) (ha : Active c sh) : exec (.nmsearch a b) s =
    if dirtyPairs s c sh a b then poisonUse s c sh (exm c sh)
    else if (rdG64 s c sh (rn a)).toNat % 64 ≠ 0 then misaligned s c sh (exm c sh) (firstLane (exm c sh)) (rdG64 s c sh (rn a))
    else if !canonical (rdG64 s c sh (rn a)) then violation s c sh (exm c sh) (firstLane (exm c sh)) (rdG64 s c sh (rn a))
    else if !refOk (rdG64 s c sh (rn b)) false then queueFault s c sh
    else withRef s c sh (exm c sh) (rdG64 s c sh (rn b)) (withPage s c sh (exm c sh) (rdG64 s c sh (rn a)) false
      (fun u pa _ => sendSearch c sh (rdG64 s c sh (rn a)) (rdG64 s c sh (rn b)) u pa)) := by
  have hd : poisonG s c sh [rn a, rn a + 1, rn b, rn b + 1] = dirtyPairs s c sh a b := by
    simp [dirtyPairs, poisonG, Bool.or_assoc]
  rw [exec_nmsearch, execNmsearch, groupOp_issues hi ha]
  dsimp only
  rw [hd]
  rfl

/-- What the command leaves. -/
theorem sendSearch_sends (hi : Issues s c sh) (va ref : DWord) (tlb : Map (BitVec 64 × Nat)) (pa : Nat) :
    ∃ t k x, sendSearch c sh va ref { s with tlb := tlb } pa = .next t ∧ getSheaf t c.bed c.sheaf = some (advance c sh) ∧ StoresNothing s t ∧
      getSearch t k = some x ∧ x.stage = .sent ∧ x.cardVa = va ∧ x.ref = ref ∧ x.asid = asidOf s c.bed ∧
      x.launch = launchKey s c.bed ∧ x.plot = plotOf sh.place.core := by
  have hb := touch_beds { s with tlb := tlb } (launchKey s c.bed) ref (dieOf sh.place.core) sh.place.core
  have hst := stores_touch { s with tlb := tlb } (launchKey s c.bed) ref (dieOf sh.place.core) sh.place.core
  have he : sendSearch c sh va ref { s with tlb := tlb } pa = done (addSearch
    (touch { s with tlb := tlb } (launchKey s c.bed) ref (dieOf sh.place.core) sh.place.core) (sentSearch s c sh va ref pa)) c sh := rfl
  generalize touch { s with tlb := tlb } (launchKey s c.bed) ref (dieOf sh.place.core) sh.place.core = u at hb hst he
  have hsh : getSheaf (addSearch u (sentSearch s c sh va ref pa)) c.bed c.sheaf = some sh := by
    rw [← hi.2, getSheaf, getBed, show (addSearch u _).beds = s.beds from hb]
    rfl
  refine ⟨_, (fresh u).1, sentSearch s c sh va ref pa, he, getSheaf_setSheaf_self hsh _, ?_, ?_, rfl, rfl, rfl, rfl, rfl, rfl⟩
  · refine stores_trans (stores_of_eq (t := { s with tlb := tlb }) rfl rfl rfl rfl rfl rfl) (stores_trans hst ?_)
    exact stores_trans (stores_of_eq (t := addSearch u (sentSearch s c sh va ref pa)) rfl rfl rfl rfl rfl rfl) (stores_putSheaf ..)
  · rw [getSearch, putSheaf_searches]
    exact mfind_mset_self ..

end Nmsearch

/-- R156, R249 and R284: the checks in their order, then the command. -/
theorem searchCommands : SearchCommands := by
  intro a b s c sh hi ha va ref dirty at_
  have he := exec_nmsearch_issues (a := a) (b := b) hi ha
  refine ⟨fun hd => ?_, fun hd hal => ?_, fun hd hal hc => ?_, fun hd hal hc hr => ?_, fun hd hal hc hr hn => ?_, fun pa syn hd hal hc hr hn hm => ?_⟩
  · exact he.trans (if_pos hd)
  · rw [he, show dirtyPairs s c sh a b = false from hd]
    exact if_pos hal
  · rw [he, show dirtyPairs s c sh a b = false from hd, if_neg Bool.false_ne_true, if_neg (not_not.2 hal), hc]
    rfl
  · rw [he, show dirtyPairs s c sh a b = false from hd, if_neg Bool.false_ne_true, if_neg (not_not.2 hal), hc, hr]
    rfl
  · rw [he, show dirtyPairs s c sh a b = false from hd, if_neg Bool.false_ne_true, if_neg (not_not.2 hal), hc, hr]
    exact withRef_violates (refOk_any hr) hn ..
  · obtain ⟨tlb, ht⟩ := withPage_maps (write := false) hm (exm c sh) (fun s pa _ => sendSearch c sh va ref s pa)
    obtain ⟨t, k, x, hs, rest⟩ := sendSearch_sends hi va ref tlb pa
    refine ⟨t, k, x, ?_, rest⟩
    rw [he, show dirtyPairs s c sh a b = false from hd, if_neg Bool.false_ne_true, if_neg (not_not.2 hal), hc, hr]
    exact (withRef_reaches (refOk_any hr) hn ..).trans (ht.trans hs)

end Sys2Proof.Proofs
end

section
/-! PROOFS. What memory operations leave of the engines and of the searches (R121, R158, R167, R359, R423). -/

namespace Sys2Proof.Proofs

open Sys2Proof Sys2Proof.Machine Sys2Proof.Claim

/-! ## Operations that leave the engines -/

section Engines

variable (s : State)

theorem engines_fold {α : Type} {f : State → α → State} (hf : ∀ s a, (f s a).engines = s.engines) (l : List α) :
    (l.foldl f s).engines = s.engines := by
  induction l generalizing s with
  | nil => rfl
  | cons a r ih => rw [List.foldl_cons, ih, hf]

@[simp] theorem revokeAll_engines (w : Nat) : (revokeAll s w).engines = s.engines := by rw [(linesMove_revokeAll s w).rest]

@[simp] theorem putHome_engines (w : Nat) (be : BitVec 4) (x : PWord) : (putHome s w be x).engines = s.engines := by
  rw [putHome, homeThrough_engines, revokeAll_engines]

@[simp] theorem homePut_engines (a : Nat) (x : Byte) : (homePut s a x).engines = s.engines := putHome_engines ..

@[simp] theorem noteHome_engines (w : Nat) : (noteHome s w).engines = s.engines := rfl

@[simp] theorem putPaged_engines (pages : List Nat) (va : DWord) (k : Nat) (bs : List Byte) :
    (putPaged pages va s k bs).engines = s.engines := by
  induction bs generalizing s k with
  | nil => rfl
  | cons b r ih => rw [putPaged, ih, homePut_engines, noteHome_engines]

@[simp] theorem setHomeDWord_engines (a : Nat) (x : DWord) : (setHomeDWord s a x).engines = s.engines := by
  rw [setHomeDWord, putHome_engines, putHome_engines]

@[simp] theorem setPteBit_engines (a k : Nat) : (setPteBit s a k).engines = s.engines := by
  rw [setPteBit]
  split
  · rfl
  · exact setHomeDWord_engines ..

@[simp] theorem markWrite_engines (asid : BitVec 16) (va : DWord) : (markWrite s asid va).engines = s.engines := by
  rw [markWrite]
  split
  · exact (setPteBit_engines ..).trans (engines_fold _ (fun _ _ => setPteBit_engines ..) _)
  · rfl

@[simp] theorem copyPage_engines (p q : Nat) : (copyPage s p q).engines = s.engines := by
  unfold copyPage
  generalize below 1024 = l
  refine engines_fold s ?_ l
  intros
  rfl

theorem poolUsed_engines (x : List Nat) : ({ s with poolUsed := x } : State).engines = s.engines := rfl

theorem savePages_engines {owner : Nat} {ps : List Nat} {t : State} (h : savePages s owner ps = some t) : t.engines = s.engines := by
  induction ps generalizing s with
  | nil => exact Option.some.inj h ▸ rfl
  | cons p r ih =>
    rw [savePages] at h
    split at h
    · exact Option.some.inj h ▸ rfl
    · split at h
      · exact ih s h
      · split at h
        · cases h
        · rw [ih _ h, modLaunch_engines, poolUsed_engines, copyPage_engines]

theorem snapshotPage_engines {asid : BitVec 16} {va : DWord} {pte base size : Nat} {writer : Option Nat} {t : State}
    (h : snapshotPage s asid va pte base size writer = some t) : t.engines = s.engines := by
  have hs : ∀ (l : List Nat) (ps : List Nat) (o : Option State), (∀ u, o = some u → u.engines = s.engines) →
      ∀ u, l.foldl (fun o k => o.bind (fun s => savePages s k ps)) o = some u → u.engines = s.engines := by
    intro l ps
    induction l with
    | nil => exact fun o ho => ho
    | cons k r ih =>
      refine fun o ho => ih _ fun u hu => ?_
      obtain ⟨v, hv, hu⟩ := Option.bind_eq_some_iff.1 hu
      rw [savePages_engines v hu, ho v hv]
  obtain ⟨u, hu, rfl⟩ := Option.map_eq_some_iff.1 h
  have h1 := hs _ _ _ (fun v hv => Option.some.inj hv ▸ rfl) u hu
  split
  · rw [clearSnap, setHomeDWord_engines, h1]
  · exact h1

@[simp] theorem unsnap_engines (asid : BitVec 16) (va : DWord) : (unsnap s asid va).engines = s.engines := by
  unfold unsnap
  split
  · dsimp only
    split
    · rfl
    · split
      · split
        next h => rw [snapshotPage_engines _ h, markWrite_engines]
        next => exact markWrite_engines ..
      · exact markWrite_engines ..
  · rfl

@[simp] theorem settleLow_engines (h : Nat) : (settleLow s h).engines = s.engines := by
  rw [settleLow]
  split
  · rfl
  · dsimp only
    split
    · rfl
    · exact putHome_engines ..

@[simp] theorem deregisterSnap_engines (h : Nat) (snap : Word) : (deregisterSnap s h snap).engines = s.engines := by
  rw [deregisterSnap]
  split
  · rfl
  · exact settleLow_engines ..

@[simp] theorem setBarWord_engines (l : BarLoc) (k : Nat) (x : Word) : (setBarWord s l k x).engines = s.engines := by
  rw [setBarWord]
  split
  · rfl
  · exact putHome_engines ..

@[simp] theorem setBar_engines (l : BarLoc) (b : Bar) (w : Bool) : (setBar s l b w).engines = s.engines := by
  rw [setBar]
  simp only [setBarWord_engines]

@[simp] theorem wakeWaiters_engines (l : BarLoc) : (wakeWaiters s l).engines = s.engines := by
  unfold wakeWaiters
  exact (engines_fold _ (fun _ _ => due_engines ..) _).trans rfl

theorem arriveAt_engines {l : BarLoc} {n st : Nat} {t : State} (h : arriveAt s l n st = some t) : t.engines = s.engines := by
  rw [arriveAt] at h
  dsimp only at h
  split at h
  · rw [← Option.some.inj h]
    split
    · rw [wakeWaiters_engines, setBar_engines]
    · exact setBar_engines ..
  · cases h

@[simp] theorem engineArrive_engines (asid : BitVec 16) (plot : Nat) (ref : DWord) (n st engine die ident : Nat) :
    (engineArrive s asid plot ref n st engine die ident).1.engines = s.engines := by
  rw [engineArrive]
  split
  · rfl
  · split
    · split
      next h =>
        rw [arriveAt_engines _ h]
        split
        · exact unsnap_engines ..
        · rfl
      next => rfl
    · rfl

@[simp] theorem arriveFor_engines (launch : Nat) (asid : BitVec 16) (plot : Nat) (ref : DWord) (n st engine die ident : Nat) :
    (arriveFor s launch asid plot ref n st engine die ident).1.engines = s.engines := by
  rw [arriveFor]
  split
  · split
    next h => exact arriveAt_engines _ h
    next => rfl
  · exact engineArrive_engines ..

@[simp] theorem homeFlush_engines (w : Nat) : (homeFlush s w).engines = s.engines := by
  rw [homeFlush]
  split <;> rfl

@[simp] theorem homeLineFlush_engines (a : Nat) : (homeLineFlush s a).engines = s.engines := by
  unfold homeLineFlush
  exact engines_fold s (fun _ _ => homeFlush_engines ..) _

theorem commitByte_engines (h : Hold) (x : Nat × Byte) : (commitByte h s x).engines = s.engines := by
  have hu := (homeLineFlush_engines (noteHome s (x.1 / 4)) x.1).trans (noteHome_engines ..)
  rw [commitByte]
  generalize homeLineFlush (noteHome s (x.1 / 4)) x.1 = u at hu ⊢
  exact hu

@[simp] theorem commitHold_engines (h : Hold) : (commitHold s h).engines = s.engines := by
  unfold commitHold
  exact engines_fold s (fun _ _ => commitByte_engines ..) _

@[simp] theorem failBatch_engines (k code : Nat) : (failBatch s k code).engines = s.engines := by
  rw [failBatch]
  split
  · rfl
  · dsimp only
    split
    · rfl
    · split
      · rfl
      · obtain ⟨bs, cs, he⟩ := onlyBedsCores_trans (only_setSheaf ..) (only_takeTrap ..)
        rw [he]

end Engines

/-! ## The searches, but for their notes of write-backs (R167) -/

/-- A search without what its batch holds. -/
def unheld (x : Search) : Search := { x with hold := Hold.reset }

/-- Every search is as it was but for what its batch holds. -/
structure SearchesKept (s t : State) : Prop where
  kept : ∀ q, (getSearch t q).map unheld = (getSearch s q).map unheld

section Searches

variable (s : State)

theorem searchesKept_refl : SearchesKept s s := ⟨fun _ => rfl⟩

theorem searchesKept_trans {s t u : State} (h : SearchesKept s t) (k : SearchesKept t u) : SearchesKept s u :=
  ⟨fun q => (k.kept q).trans (h.kept q)⟩

theorem searchesKept_of_eq {s t : State} (h : t.searches = s.searches) : SearchesKept s t :=
  ⟨fun q => by rw [getSearch, getSearch, h]⟩

theorem searchesKept_fold {α : Type} {f : State → α → State} (hf : ∀ s a, SearchesKept s (f s a)) (l : List α) :
    SearchesKept s (l.foldl f s) := by
  induction l generalizing s with
  | nil => exact searchesKept_refl s
  | cons a r ih => exact searchesKept_trans (hf s a) (ih _)

theorem searchesKept_ite {s a b : State} {c : Prop} [Decidable c] (ha : SearchesKept s a) (hb : SearchesKept s b) :
    SearchesKept s (if c then a else b) := by
  split
  · exact ha
  · exact hb

/-- A search stands as before under its name, but for what its batch holds. -/
theorem SearchesKept.get {s t : State} (h : SearchesKept s t) {q : Nat} {x : Search} (hx : getSearch s q = some x) :
    ∃ y, getSearch t q = some y ∧ unheld y = unheld x := by
  have := h.kept q
  rw [hx] at this
  exact Option.map_eq_some_iff.1 this

/-- A search that notes a write-back. -/
def notedSearch (w : Nat) (x : Search) : Search := { x with hold := { x.hold with wbs := w / 16 :: x.hold.wbs } }

theorem getSearch_noteWb (w q : Nat) : getSearch (noteWb s w) q = (getSearch s q).map (notedSearch w) :=
  mfind_map s.searches (fun _ => notedSearch w) q

theorem searchesKept_noteWb {s u : State} (h : u.searches = s.searches) (w : Nat) : SearchesKept s (noteWb u w) where
  kept q := by
    rw [getSearch_noteWb, Option.map_map, getSearch, h]
    rfl

theorem searchesKept_homeBack (t w : Nat) (be : BitVec 4) (x : PWord) : SearchesKept s (homeBack s t w be x) := by
  rw [homeBack_eq]
  exact searchesKept_ite (searchesKept_of_eq rfl) (searchesKept_noteWb (by rfl) w)

theorem searchesKept_l1BackWord (p w : Nat) : SearchesKept s (l1BackWord s p w) := by
  rw [l1BackWord]
  split
  · exact searchesKept_ite (searchesKept_refl s) (searchesKept_of_eq rfl)
  · exact searchesKept_refl s

theorem searchesKept_l2BackWord (t w : Nat) : SearchesKept s (l2BackWord s t w) := by
  rw [l2BackWord]
  split
  · exact searchesKept_ite (searchesKept_refl s) (searchesKept_trans (searchesKept_homeBack ..) (searchesKept_of_eq rfl))
  · exact searchesKept_refl s

theorem searchesKept_l1Back (p w : Nat) : SearchesKept s (l1Back s p w) :=
  searchesKept_ite (searchesKept_trans (searchesKept_fold s (fun s v => searchesKept_l1BackWord s p v) _) (searchesKept_of_eq rfl))
    (searchesKept_refl s)

theorem searchesKept_l2Back (t w : Nat) : SearchesKept s (l2Back s t w) :=
  searchesKept_ite (searchesKept_trans (searchesKept_fold s (fun s v => searchesKept_l2BackWord s t v) _) (searchesKept_of_eq rfl))
    (searchesKept_refl s)

theorem searchesKept_dropL1 (p w : Nat) : SearchesKept s (dropL1 s p w) := searchesKept_ite (searchesKept_of_eq rfl) (searchesKept_refl s)

theorem searchesKept_dropL2 (t w : Nat) : SearchesKept s (dropL2 s t w) := searchesKept_ite (searchesKept_of_eq rfl) (searchesKept_refl s)

theorem searchesKept_l1Revoke (p w : Nat) : SearchesKept s (l1Revoke s p w) :=
  searchesKept_trans (searchesKept_l1Back ..) (searchesKept_dropL1 ..)

theorem searchesKept_terraceRevoke (t w : Nat) : SearchesKept s (terraceRevoke s t w) :=
  searchesKept_trans (searchesKept_fold s (fun s k => searchesKept_l1Revoke s (4 * t + k) w) _)
    (searchesKept_trans (searchesKept_l2Back ..) (searchesKept_dropL2 ..))

theorem searchesKept_revokeAll (w : Nat) : SearchesKept s (revokeAll s w) := by
  unfold revokeAll
  exact searchesKept_fold s (fun s u => searchesKept_fold s (fun s n => searchesKept_terraceRevoke s u n) _) _

theorem searchesKept_putHome (w : Nat) (be : BitVec 4) (x : PWord) : SearchesKept s (putHome s w be x) :=
  searchesKept_trans (searchesKept_revokeAll s w) (searchesKept_of_eq (homeThrough_searches ..))

theorem searchesKept_settleLow (h : Nat) : SearchesKept s (settleLow s h) := by
  rw [settleLow]
  split
  · exact searchesKept_refl s
  · exact searchesKept_ite (searchesKept_refl s) (searchesKept_putHome ..)

theorem homeFlush_searches (w : Nat) : (homeFlush s w).searches = s.searches := by
  rw [homeFlush]
  split <;> rfl

theorem searches_fold {α : Type} {f : State → α → State} (hf : ∀ s a, (f s a).searches = s.searches) (l : List α) :
    (l.foldl f s).searches = s.searches := by
  induction l generalizing s with
  | nil => rfl
  | cons a r ih => rw [List.foldl_cons, ih, hf]

theorem homeLineFlush_searches (a : Nat) : (homeLineFlush s a).searches = s.searches := by
  unfold homeLineFlush
  exact searches_fold s (fun _ _ => homeFlush_searches ..) _

theorem noteHome_searches (w : Nat) : (noteHome s w).searches = s.searches := rfl

/-- A commit writes DRAM and drops home lines, which no batch notes (R168). -/
theorem commitByte_searches (h : Hold) (x : Nat × Byte) : (commitByte h s x).searches = s.searches := by
  have hu := (homeLineFlush_searches (noteHome s (x.1 / 4)) x.1).trans (noteHome_searches ..)
  rw [commitByte]
  generalize homeLineFlush (noteHome s (x.1 / 4)) x.1 = u at hu ⊢
  exact hu

@[simp] theorem commitHold_searches (h : Hold) : (commitHold s h).searches = s.searches := by
  unfold commitHold
  exact searches_fold s (fun _ _ => commitByte_searches ..) _

end Searches

end Sys2Proof.Proofs
end

section
/-! PROOFS. How a search ends (R158). -/

namespace Sys2Proof.Proofs

open Sys2Proof Sys2Proof.Machine Sys2Proof.Claim

section Endings

variable {s : State} {q : Nat} {x : Search}

/-- No context of a search that left the engines. -/
theorem purgeSearch_ctxs (s : State) (q : Nat) : ∀ e ∈ (purgeSearch s q).engines, ∀ y ∈ e.2.ctxs, y.2.kind.qid ≠ some q := by
  intro e he y hy
  obtain ⟨e0, -, rfl⟩ := List.mem_map.1 he
  have := (List.mem_filter.1 hy).2
  simpa using this

/-- A search ends: its record goes, what is left is its result list and its deregistration, and the engines stay purged. -/
theorem endSearch_cases (hx : getSearch s q = some x) (e : Ending) : ∃ (u : State) (ident : Nat), u.engines = (purgeSearch s q).engines ∧
    endSearch s q e = (arriveFor { u with searches := mdel u.searches q } x.launch x.asid x.plot x.ref 1
      (searchStatus e.truncated e.poison e.retired e.abandoned) 3 (dieOfEngine x.home) ident).1 := by
  unfold endSearch
  split
  next h => cases h.symm.trans hx
  next y h =>
  obtain rfl := Option.some.inj (h.symm.trans hx)
  extract_lets s1 rva s2 s3 ident
  refine ⟨s3, ident, ?_, rfl⟩
  have h2 : s2.engines = s1.engines := by
    unfold s2
    split
    · exact (putPaged_engines ..).trans (engines_fold s1 (fun _ _ => unsnap_engines ..) _)
    · rfl
  unfold s3
  split
  · rw [deregisterSnap_engines, h2]
  · exact h2

theorem endSearch_engines (hx : getSearch s q = some x) (e : Ending) : (endSearch s q e).engines = (purgeSearch s q).engines := by
  obtain ⟨u, ident, hu, he⟩ := endSearch_cases hx e
  rw [he, arriveFor_engines]
  exact hu

/-- A search under the same barrier of the same launch. -/
def SameBarrier (x y : Search) : Prop := y.launch = x.launch ∧ y.asid = x.asid ∧ y.plot = x.plot ∧ y.ref = x.ref

/-- A search ends by `endSearch`, from a state in which it kept its barrier. -/
theorem endSearch_ends {t : State} {y : Search} (hx : getSearch s q = some x) (hy : getSearch t q = some y) (hb : SameBarrier x y) (e : Ending) :
    SearchEnds s (endSearch t q e) q (searchStatus e.truncated e.poison e.retired e.abandoned) := by
  obtain ⟨u, ident, hu, he⟩ := endSearch_cases hy e
  obtain ⟨hl, ha, hp, hr⟩ := hb
  refine ⟨x, { u with searches := mdel u.searches q }, dieOfEngine y.home, ident, hx, ?_, ?_, ?_⟩
  · rw [getSearch, mfind_mdel, if_pos rfl]
  · intro c hc
    exact purgeSearch_ctxs t q c (hu ▸ hc)
  · rw [he, hl, ha, hp, hr]

end Endings

end Sys2Proof.Proofs
end

section
/-! PROOFS. Registration of a search: its card, its index and its snapshot (R154, R156, R158). -/

namespace Sys2Proof.Proofs

open Sys2Proof Sys2Proof.Machine Sys2Proof.Claim

/-! ## Device memory as a controller reads it (R132) -/

section Bytes

variable {s : State}

theorem upFrom_eq_range (a n : Nat) : upFrom a n = (List.range n).map (fun k => a + k) := by
  rw [← List.range'_eq_map_range]
  induction n generalizing a with
  | zero => rfl
  | succ n ih => rw [upFrom, ih, List.range'_succ]

theorem below_eq_range (n : Nat) : below n = List.range n := by simp [below, upFrom_eq_range]

theorem dramBytes_clean {as : List Nat} (h : CleanAt s as) : (dramBytes s as).2 = false := by
  rw [dramBytes, List.any_eq_false]
  exact fun a ha => by rw [h a ha]; exact Bool.false_ne_true

theorem dramBytes_poisoned {as : List Nat} (h : ¬CleanAt s as) : (dramBytes s as).2 = true := by
  refine Bool.of_not_eq_false fun hf => h fun a ha => ?_
  rw [dramBytes, List.any_eq_false] at hf
  exact Bool.of_not_eq_true (hf a ha)

theorem getSearch_mset (s : State) (q : Nat) (x : Search) : getSearch { s with searches := mset s.searches q x } q = some x :=
  mfind_mset_self ..

end Bytes

/-! ## Registered snapshots (R154) -/

section Snapshots

variable {s : State} {h : Nat} {i : Index} {snap : Word}

/-- The smaller of two words. -/
def lesser (m x : Word) : Word := if x.toNat < m.toNat then x else m

theorem lesser_le (m x : Word) : lesser m x ≤ m ∧ lesser m x ≤ x ∧ (lesser m x = m ∨ lesser m x = x) := by
  unfold lesser
  split <;> simp only [BitVec.le_def, or_true, true_or, and_true] <;> omega

theorem fold_lesser (l : List Word) (m : Word) :
    l.foldl lesser m ≤ m ∧ (∀ v ∈ l, l.foldl lesser m ≤ v) ∧ (l.foldl lesser m = m ∨ l.foldl lesser m ∈ l) := by
  induction l generalizing m with
  | nil => exact ⟨BitVec.le_refl _, by simp, .inl rfl⟩
  | cons x r ih =>
    obtain ⟨hm, hx, hc⟩ := lesser_le m x
    obtain ⟨h1, h2, h3⟩ := ih (lesser m x)
    rw [List.foldl_cons]
    refine ⟨BitVec.le_trans h1 hm, fun v hv => ?_, ?_⟩
    · rcases List.mem_cons.1 hv with rfl | hv
      · exact BitVec.le_trans h1 hx
      · exact h2 v hv
    · rcases h3 with h3 | h3
      · rcases hc with hc | hc
        · exact .inl (h3.trans hc)
        · exact .inr (List.mem_cons.2 (.inl (h3.trans hc)))
      · exact .inr (List.mem_cons_of_mem _ h3)

/-- The smallest of some words. -/
def smallest (l : List Word) (d : Word) : Word := l.foldl lesser (lget l 0 d)

theorem smallest_spec {l : List Word} (hl : l ≠ []) (d : Word) : smallest l d ∈ l ∧ ∀ v ∈ l, smallest l d ≤ v := by
  obtain ⟨x, r, rfl⟩ := List.exists_cons_of_ne_nil hl
  obtain ⟨-, h2, h3⟩ := fold_lesser (x :: r) x
  refine ⟨h3.elim (fun e => ?_) id, h2⟩
  exact List.mem_cons.2 (.inl e)

/-- LOWWATER is written only where it changes. -/
theorem settleLow_eq (hi : mfind s.indexes h = some i) : settleLow s h =
    if (engineWord s (i.descPa / 4 + 1)).1 = smallest i.snaps (committed s i) then s
    else putHome s (i.descPa / 4 + 1) 15#4 (smallest i.snaps (committed s i), false) := by
  rw [settleLow, hi]
  rfl

/-- LOWWATER is the smallest registered snapshot afterwards. -/
theorem settleLow_spec (hi : mfind s.indexes h = some i) (hn : i.snaps ≠ []) : SearchesKept s (settleLow s h) ∧
    (settleLow s h).indexes = s.indexes ∧ ∃ z, z ∈ i.snaps ∧ (∀ v ∈ i.snaps, z ≤ v) ∧
      (z = (engineWord s (i.descPa / 4 + 1)).1 → SameMemory s (settleLow s h)) ∧
      (z ≠ (engineWord s (i.descPa / 4 + 1)).1 → (homeWord (settleLow s h) (i.descPa / 4 + 1)).1 = z) := by
  obtain ⟨hmem, hle⟩ := smallest_spec hn (committed s i)
  refine ⟨searchesKept_settleLow s h, ?_, _, hmem, hle, fun e => ?_, fun e => ?_⟩
  · rw [settleLow_eq hi]
    split
    · rfl
    · exact putHome_indexes ..
  · rw [settleLow_eq hi, if_pos e.symm]
    exact ⟨rfl, rfl, rfl⟩
  · rw [settleLow_eq hi, if_neg (fun h => e h.symm)]
    exact congrArg Prod.fst (still_putHome _ _ _).1

end Snapshots

/-! ## The card's checks against its index -/

section Card

variable {s : State} {q : Nat} {x : Search} {i : Index}

/-- The card's rules are rules on the card. -/
theorem cardOk_congr {x y : Search} (h : y.card = x.card) : cardOk y = cardOk x := by
  unfold cardOk cardK cardField
  rw [h]

theorem registerIndex_unknown (hi : mfind s.indexes (cardField x 31 0) = none) :
    registerIndex s q x = endSearch { s with searches := mset s.searches q x } q (cardFault false true) := by
  rw [registerIndex, hi]

/-- The descriptor of an index as the controller reads it. -/
def descRead (s : State) (i : Index) : BitVec 1024 :=
  BitVec.ofNat 1024 (leNat ((List.range 128).map (fun n => engineByte s (i.descPa + n))))

/-- The snapshot that a card asks for. -/
def askedSnap (s : State) (i : Index) (x : Search) : Word := if x.snap = 0xFFFFFFFF#32 then (engineWord s (i.descPa / 4)).1 else x.snap

/-- A search that has read its descriptor. -/
def withDesc (s : State) (i : Index) (x : Search) : Search :=
  { x with desc := descRead s i, descPa := i.descPa, snap := askedSnap s i x, home := 64 * stackOf i.descPa }

/-- A good card over a good descriptor: its snapshot decides. -/
theorem registerIndex_good {ps : List Nat} (hi : mfind s.indexes (cardField x 31 0) = some i)
    (hc : CleanAt s ((List.range 128).map (fun n => i.descPa + n))) (hd : descOk (descRead s i) = true) (hk : cardOk x = true)
    (hp : pagesOf s x.asid (BitVec.ofNat 64 (cardField x 191 128)) (descQueryBytes (descRead s i)) false = some ps) :
    registerIndex s q x =
      if (engineWord s (i.descPa / 4)).1.toNat < (askedSnap s i x).toNat then
        endSearch { s with searches := mset s.searches q (withDesc s i x) } q (cardFault false true)
      else if (askedSnap s i x).toNat < (engineWord s (i.descPa / 4 + 1)).1.toNat then
        endSearch { s with searches := mset s.searches q (withDesc s i x) } q { emptyEnding 5 with retired := true, registered := false }
      else registerSnap { s with searches := mset s.searches q { withDesc s i x with qpages := ps, stage := .registered } }
        (cardField x 31 0) (askedSnap s i x) := by
  have hb : (dramBytes s (upFrom i.descPa 128)).2 = false := by
    rw [upFrom_eq_range]
    exact dramBytes_clean hc
  have hr : BitVec.ofNat 1024 (leNat (dramBytes s (upFrom i.descPa 128)).1) = descRead s i := by
    rw [upFrom_eq_range, dramBytes, List.map_map]
    rfl
  rw [registerIndex, hi]
  refine (if_neg (by rw [hb]; exact Bool.false_ne_true)).trans ?_
  rw [hr]
  refine (if_neg (fun h => ?_)).trans ?_
  · simp only [hd, Bool.not_true, Bool.false_or, Bool.not_eq_true'] at h
    rw [cardOk_congr (x := x), hk] at h
    · cases h
    · rfl
  · split
    next h => cases h.symm.trans hp
    next p h =>
      obtain rfl := Option.some.inj (h.symm.trans hp)
      rfl

end Card

/-! ## Registration -/

section Registration

variable {s : State} {q : Nat} {x : Search} {as ps : List Nat}

/-- Bytes of a result list that a card asks for. -/
def resultBytes (x : Search) : Nat := 32 + 16 * (if 1 ≤ cardK x ∧ cardK x ≤ 1024 then cardK x else 0)

theorem searchRegistration_unread (hx : getSearch s q = some x) (hs : x.stage = .sent) (hn : nearAddrs s x.asid false 64 x.cardVa = none) :
    exec (.searchRegistration q) s = .next (endSearch s q (cardFault false false)) := by
  rw [exec_searchRegistration, execSearchRegistration, hx]
  refine (if_neg (not_not.2 hs)).trans ?_
  rw [hn]

theorem searchRegistration_poisoned (hx : getSearch s q = some x) (hs : x.stage = .sent)
    (hn : nearAddrs s x.asid false 64 x.cardVa = some as) (hp : ¬CleanAt s as) :
    exec (.searchRegistration q) s =
      .next (endSearch { s with searches := mset s.searches q (withCard s x as) } q (cardFault true false)) := by
  rw [exec_searchRegistration, execSearchRegistration, hx]
  refine (if_neg (not_not.2 hs)).trans ?_
  rw [hn]
  exact if_pos (dramBytes_poisoned hp)

theorem searchRegistration_read (hx : getSearch s q = some x) (hs : x.stage = .sent)
    (hn : nearAddrs s x.asid false 64 x.cardVa = some as) (hc : CleanAt s as)
    (hv : cardVaOk (BitVec.ofNat 64 (cardField (withCard s x as) 255 192)) = true)
    (hp : pagesOf s x.asid (BitVec.ofNat 64 (cardField (withCard s x as) 255 192)) (resultBytes (withCard s x as)) true = some ps) :
    exec (.searchRegistration q) s = .next (registerIndex s q { withCard s x as with rpages := ps }) := by
  have hv' : (!cardVaOk (BitVec.ofNat 64 (cardField (withCard s x as) 255 192))) ≠ true := by simp [hv]
  rw [exec_searchRegistration, execSearchRegistration, hx]
  refine (if_neg (not_not.2 hs)).trans ?_
  rw [hn]
  refine (if_neg (by rw [dramBytes_clean hc]; exact Bool.false_ne_true)).trans ((if_neg hv').trans ?_)
  split
  next h => cases h.symm.trans hp
  next p h =>
    obtain rfl := Option.some.inj (h.symm.trans hp)
    rfl

end Registration

section Registered

variable {s : State} {q : Nat} {x : Search} {i : Index} {qs : List Nat}

/-- A search whose snapshot registers. -/
def withPages (s : State) (i : Index) (x : Search) (qs : List Nat) : Search := { withDesc s i x with qpages := qs, stage := .registered }

/-- The state in which LOWWATER is settled. -/
def registering (s : State) (q : Nat) (x : Search) (h : Nat) (i : Index) (snap : Word) : State :=
  { s with searches := mset s.searches q x, indexes := mset s.indexes h { i with snaps := i.snaps ++ [snap] } }

theorem registerSnap_eq {h : Nat} (hi : mfind s.indexes h = some i) (q : Nat) (x : Search) (snap : Word) :
    registerSnap { s with searches := mset s.searches q x } h snap = settleLow (registering s q x h i snap) h := by
  rw [registerSnap, show mfind ({ s with searches := mset s.searches q x } : State).indexes h = some i from hi]
  rfl

/-- What a registration leaves. -/
theorem registering_spec (s : State) (q : Nat) (x : Search) (h : Nat) (i : Index) (snap : Word) :
    ∃ z x', getSearch (settleLow (registering s q x h i snap) h) q = some x' ∧ unheld x' = unheld x ∧
      mfind (settleLow (registering s q x h i snap) h).indexes h = some { i with snaps := i.snaps ++ [snap] } ∧
      z ∈ i.snaps ++ [snap] ∧ (∀ v ∈ i.snaps ++ [snap], z ≤ v) ∧
      (z = (engineWord s (i.descPa / 4 + 1)).1 → SameMemory s (settleLow (registering s q x h i snap) h)) ∧
      (z ≠ (engineWord s (i.descPa / 4 + 1)).1 →
        (homeWord (settleLow (registering s q x h i snap) h) (i.descPa / 4 + 1)).1 = z) := by
  have hi : mfind (registering s q x h i snap).indexes h = some { i with snaps := i.snaps ++ [snap] } := mfind_mset_self ..
  obtain ⟨hk, hx, z, hz, hle, hsame, hput⟩ := settleLow_spec hi (by simp)
  obtain ⟨x', hx', hu⟩ := hk.get (x := x) (mfind_mset_self ..)
  exact ⟨z, x', hx', hu, hx ▸ hi, hz, hle, hsame, hput⟩

end Registered

/-- R154, R156 and R158: the card, then its index, then its snapshot. -/
theorem searchRegistrations : SearchRegistrations := by
  refine ⟨fun q s h => ?_, fun q s x hx hs => ⟨fun hn => ?_, fun as hn hp => ?_, ?_⟩⟩
  · rw [exec_searchRegistration, execSearchRegistration]
    split
    · rfl
    · exact if_pos (h _ ‹_›)
  · exact ⟨_, searchRegistration_unread hx hs hn, endSearch_ends hx hx ⟨rfl, rfl, rfl, rfl⟩ _⟩
  · exact ⟨_, searchRegistration_poisoned hx hs hn hp, endSearch_ends hx (getSearch_mset s q _) (by exact ⟨rfl, rfl, rfl, rfl⟩) _⟩
  · intro as ps hn hc y rva k hv hp
    have he := searchRegistration_read hx hs hn hc hv hp
    refine ⟨fun hi => ?_, ?_⟩
    · refine ⟨_, he.trans (congrArg _ (registerIndex_unknown hi)), ?_⟩
      exact endSearch_ends hx (getSearch_mset s q _) (by exact ⟨rfl, rfl, rfl, rfl⟩) _
    · intro i qs hi hc' desc comm low snap hd hk hq
      have hg := he.trans (congrArg Host.Outcome.next (registerIndex_good (x := { y with rpages := ps }) hi hc' hd
        ((cardOk_congr rfl).trans hk) hq))
      refine ⟨fun h1 => ?_, fun h1 h2 => ?_, fun h1 h2 => ?_⟩
      · refine ⟨_, hg.trans (congrArg _ (if_pos h1)), ?_⟩
        exact endSearch_ends hx (getSearch_mset s q _) (by exact ⟨rfl, rfl, rfl, rfl⟩) _
      · refine ⟨_, hg.trans (congrArg _ ((if_neg (Nat.not_lt.2 h1)).trans (if_pos h2))), ?_⟩
        exact endSearch_ends hx (getSearch_mset s q _) (by exact ⟨rfl, rfl, rfl, rfl⟩) _
      · obtain ⟨z, x', hx', hu, rest⟩ := registering_spec s q (withPages s i { y with rpages := ps } qs) (cardField y 31 0) i snap
        refine ⟨_, z, x', hg.trans (congrArg _ (((if_neg (Nat.not_lt.2 h1)).trans (if_neg (Nat.not_lt.2 h2))).trans
          (registerSnap_eq hi q (withPages s i { y with rpages := ps } qs) snap))), hx', ?_, rest⟩
        exact congrArg (fun z : Search => { z with hold := y.hold }) hu

end Sys2Proof.Proofs
end

section
/-! PROOFS. What reads of searches mark, and the entry nodes of a search (R151, R152, R159, R167). -/

namespace Sys2Proof.Proofs

open Sys2Proof Sys2Proof.Machine Sys2Proof.Claim

/-! ## Searches and engines under each other's changes -/

section Parts

variable (s : State)

theorem getSearch_modSearch (q k : Nat) (f : Search → Search) :
    getSearch (modSearch s q f) k = if k = q then (getSearch s q).map f else getSearch s k := by
  rw [modSearch]
  split
  next x hx =>
    rw [getSearch, mfind_mset, hx]
    rfl
  next hx =>
    rw [hx]
    split
    · subst_vars
      exact hx
    · rfl

theorem getSearch_modSearch_self {q : Nat} {x : Search} (hx : getSearch s q = some x) (f : Search → Search) :
    getSearch (modSearch s q f) q = some (f x) := by
  rw [getSearch_modSearch, if_pos rfl, hx]
  rfl

@[simp] theorem modSearch_engines (q : Nat) (f : Search → Search) : (modSearch s q f).engines = s.engines := by
  rw [modSearch]
  split <;> rfl

theorem getEngine_of_engines {s t : State} (h : t.engines = s.engines) (e : Nat) : getEngine t e = getEngine s e := by
  rw [getEngine, getEngine, h]

@[simp] theorem getEngine_modSearch (q : Nat) (f : Search → Search) (e : Nat) : getEngine (modSearch s q f) e = getEngine s e :=
  getEngine_of_engines (modSearch_engines ..) e

end Parts

/-! ## What a search reads -/

/-- A search without its marks: poison met, and what its batch holds. -/
def unmarked (x : Search) : Search := { x with hold := Hold.reset, poison := false }

/-- Only marks of searches changed. -/
structure Scanned (s t : State) : Prop where
  rest : t = { s with searches := t.searches }
  marks : ∀ k, (getSearch t k).map unmarked = (getSearch s k).map unmarked

section Scans

variable {s : State} {q : Nat} {x : Search}

theorem scanned_refl (s : State) : Scanned s s := ⟨rfl, fun _ => rfl⟩

theorem scanned_trans {s t u : State} (h : Scanned s t) (k : Scanned t u) : Scanned s u :=
  ⟨by rw [k.rest, h.rest], fun q => (k.marks q).trans (h.marks q)⟩

theorem Scanned.engines {s t : State} (h : Scanned s t) : t.engines = s.engines := by rw [h.rest]

/-- A search stands as before but for its marks. -/
theorem Scanned.get {s t : State} (h : Scanned s t) (hx : getSearch s q = some x) :
    ∃ y, getSearch t q = some y ∧ y = { x with hold := y.hold, poison := y.poison } := by
  have hm := h.marks q
  rw [hx] at hm
  obtain ⟨y, hy, hu⟩ := Option.map_eq_some_iff.1 hm
  exact ⟨y, hy, congrArg (fun z : Search => { z with hold := y.hold, poison := y.poison }) hu⟩

theorem scanned_modSearch (s : State) (q : Nat) {f : Search → Search} (hf : ∀ x, unmarked (f x) = unmarked x) : Scanned s (modSearch s q f) where
  rest := by
    rw [modSearch]
    split <;> rfl
  marks k := by
    rw [getSearch_modSearch]
    split
    next h =>
      rw [h, Option.map_map]
      exact congrArg (fun g => Option.map g (getSearch s q)) (funext hf)
    next => rfl

theorem scanned_poisonSearch (s : State) (q : Nat) : Scanned s (poisonSearch s q) := scanned_modSearch s q (fun _ => rfl)

theorem scanned_nearRead (s : State) (q n : Nat) (va : DWord) : Scanned s (nearRead s (.walker q) n va).2 := by
  rw [nearRead]
  split
  · exact scanned_refl s
  · exact scanned_modSearch s q (fun _ => rfl)

theorem nearRead_snd {q n : Nat} {va : DWord} {o : Option (List Byte × Bool)} {t : State} (h : nearRead s (.walker q) n va = (o, t)) :
    Scanned s t := by
  have := scanned_nearRead s q n va
  rwa [h] at this

theorem scanned_recordOf (s : State) (q j : Nat) (x : Search) : Scanned s (recordOf s q j x).2.2 := by
  unfold recordOf
  split
  next h => exact nearRead_snd h
  next t tq s1 h =>
    have h1 := nearRead_snd h
    dsimp only
    split
    · exact scanned_trans h1 (scanned_poisonSearch ..)
    · split
      · exact h1
      · split
        next h2 _ =>
          have h3 := scanned_trans h1 (nearRead_snd h2)
          split
          · exact scanned_trans h3 (scanned_poisonSearch ..)
          · split <;> exact h3
        next h2 _ => exact scanned_trans h1 (nearRead_snd h2)

theorem recordOf_snd {j : Nat} {f : Found} {k : Nat} {t : State} (h : recordOf s q j x = (f, k, t)) : Scanned s t := by
  have := scanned_recordOf s q j x
  rwa [h] at this

theorem scanned_entryNodes (q : Nat) (x : Search) (s : State) (js : List Nat) : Scanned s (entryNodes q x s js).2 := by
  induction js generalizing s with
  | nil => exact scanned_refl s
  | cons j r ih =>
    rw [entryNodes]
    split
    next h => exact recordOf_snd h
    next h =>
      have h1 := scanned_trans (recordOf_snd h) (ih _)
      dsimp only
      split <;> exact h1

theorem scanned_keyOf (s : State) (q : Nat) (x : Search) (va : DWord) : Scanned s (keyOf s q x va).2 := by
  unfold keyOf
  dsimp only
  split
  next h => exact nearRead_snd h
  next h =>
    split
    · exact scanned_trans (nearRead_snd h) (scanned_poisonSearch ..)
    · exact nearRead_snd h

end Scans

/-! ## The entry nodes pushed -/

section Pushes

variable {s : State} {q home : Nat} {x : Search}

/-- Addresses are translated by the page tables alone. -/
theorem nearAddrs_congr {s t : State} (hw : ∀ a, homeDWord t a = homeDWord s a) (hr : t.hostIf = s.hostIf) (asid : BitVec 16) (write : Bool)
    (n : Nat) (va : DWord) : nearAddrs t asid write n va = nearAddrs s asid write n va := by
  have ht : ∀ va, translateAt t asid va write = translateAt s asid va write := fun va => by
    rw [translateAt, translateAt, walk_congr hw hr rfl]
  induction n generalizing va with
  | zero => rfl
  | succ n ih => rw [nearAddrs, nearAddrs, ht, ih]

theorem Scanned.nearAddrs {s t : State} (h : Scanned s t) (asid : BitVec 16) (write : Bool) (n : Nat) (va : DWord) :
    nearAddrs t asid write n va = nearAddrs s asid write n va := by
  rw [h.rest]
  exact nearAddrs_congr (s := s) (by exact fun _ => rfl) (by rfl) ..

/-- A key comes back, or poison, where the vector translates. -/
theorem keyOf_translated {va : DWord} {y : Search} {as : List Nat} (hy : getSearch s q = some y)
    (ha : nearAddrs s y.asid false (vectorBytes (descField x.desc 66 64) (descField x.desc 75 72) (descField x.desc 95 80)) va = some as) :
    (keyOf s q x va).1 ≠ none := by
  have hr : nearAddrs s (ctxAsid s (.walker q)) false (vectorBytes (descField x.desc 66 64) (descField x.desc 75 72) (descField x.desc 95 80))
      va = some as := by
    rw [ctxAsid, hy]
    exact ha
  unfold keyOf nearRead
  dsimp only
  rw [hr]
  dsimp only
  split <;> exact Option.some_ne_none _

/-- A chain of a search stands at an engine, over some heaps. -/
def HasChain (s : State) (q home n : Nat) : Prop := ∃ h ∈ (getEngine s home).chains, h.qid = some q ∧ h.heaps = n

theorem hasChain_modChain {n : Nat} (h : HasChain s q home n) {f : Chain → Chain} (hq : ∀ c, (f c).qid = c.qid) (hn : ∀ c, (f c).heaps = c.heaps) :
    HasChain (modChain s q home f) q home n := by
  obtain ⟨c, hc, hcq, hcn⟩ := h
  refine ⟨f c, ?_, (hq c).trans hcq, (hn c).trans hcn⟩
  rw [modChain, getEngine_modEngine_self]
  exact List.mem_map.2 ⟨c, hc, if_pos hcq⟩

/-- Entry nodes whose vectors translate are pushed. -/
theorem pushEntries_pushes {n : Nat} {y : Search} (nodes : List (Nat × DWord × Nat))
    (ha : ∀ z ∈ nodes, ∃ as, nearAddrs s y.asid false
      (vectorBytes (descField x.desc 66 64) (descField x.desc 75 72) (descField x.desc 95 80)) z.2.1 = some as)
    (hy : getSearch s q = some y) (hc : HasChain s q home n) :
    ∃ t z, pushEntries q home x s nodes = some t ∧ HasChain t q home n ∧ getSearch t q = some z ∧
      z = { y with hold := z.hold, poison := z.poison } := by
  induction nodes generalizing s y with
  | nil => exact ⟨s, y, rfl, hc, hy, rfl⟩
  | cons z r ih =>
    obtain ⟨as, has⟩ := ha z List.mem_cons_self
    have hk := keyOf_translated hy has
    have hs := scanned_keyOf s q x z.2.1
    rw [pushEntries]
    generalize keyOf s q x z.2.1 = o at hk hs
    obtain ⟨o, s1⟩ := o
    obtain ⟨y1, hy1, he1⟩ := hs.get hy
    have hc1 : HasChain s1 q home n := by
      rw [HasChain, getEngine_of_engines hs.engines]
      exact hc
    have ha1 : ∀ z ∈ r, ∃ as, nearAddrs s1 y1.asid false
        (vectorBytes (descField x.desc 66 64) (descField x.desc 75 72) (descField x.desc 95 80)) z.2.1 = some as := fun z hz => by
      rw [hs.nearAddrs, he1]
      exact ha z (List.mem_cons_of_mem _ hz)
    have last : ∀ {u : State}, (∃ t z, pushEntries q home x u r = some t ∧ HasChain t q home n ∧ getSearch t q = some z ∧
        z = { y1 with hold := z.hold, poison := z.poison }) → ∃ t z, pushEntries q home x u r = some t ∧ HasChain t q home n ∧
        getSearch t q = some z ∧ z = { y with hold := z.hold, poison := z.poison } := by
      rintro u ⟨t, z, hp, hh, hz, he⟩
      exact ⟨t, z, hp, hh, hz, by rw [he, he1]⟩
    match o with
    | none => exact absurd rfl hk
    | some none => exact last (ih ha1 hy1 hc1)
    | some (some k) =>
      refine last (ih (s := modChain s1 q home _) (fun z hz => ?_) hy1 (hasChain_modChain hc1 (fun _ => rfl) (fun _ => rfl)))
      obtain ⟨bs, hb⟩ := ha1 z hz
      exact ⟨bs, (nearAddrs_congr (s := s1) (by exact fun _ => rfl) (by rfl) ..).trans hb⟩

end Pushes

end Sys2Proof.Proofs
end

section
/-! PROOFS. Setup of a search: it ends, waits, or gets an engine (R159). -/

namespace Sys2Proof.Proofs

open Sys2Proof Sys2Proof.Machine Sys2Proof.Claim

/-! ## Engines of a stack -/

section Stack

variable {s : State} {stack n e : Nat}

theorem mem_homeEngines : e ∈ homeEngines s stack n ↔
    e / 64 = stack ∧ (freeHeaps (getEngine s e) n).isSome = true ∧ (freeCtx (getEngine s e)).isSome = true := by
  rw [homeEngines, List.mem_filter, Bool.and_eq_true, mem_upFrom]
  refine and_congr_left fun _ => ⟨?_, fun h => ⟨e % 64, Nat.mod_lt _ (by decide), by omega⟩⟩
  rintro ⟨k, hk, rfl⟩
  omega

theorem homeEngines_nil (h : ∀ e, e / 64 = stack → freeHeaps (getEngine s e) n = none) : homeEngines s stack n = [] := by
  refine List.eq_nil_iff_forall_not_mem.2 fun e he => ?_
  obtain ⟨h1, h2, -⟩ := mem_homeEngines.1 he
  rw [h e h1] at h2
  cases h2

theorem lget_mem {α : Type} {l : List α} {k : Nat} (h : k < l.length) (d : α) : lget l k d ∈ l := by
  induction l generalizing k with
  | nil => cases h
  | cons a r ih =>
    cases k with
    | zero => exact List.mem_cons_self
    | succ k => exact List.mem_cons_of_mem _ (ih (Nat.lt_of_succ_lt_succ h))

end Stack

/-! ## The home engine's chain, query and context -/

section Placement

variable {s : State} {q home first ctx : Nat} {x : Search} {nodes : List (Nat × DWord × Nat)} {rt : Routine}

/-- A search at its home engine. -/
def homed (s : State) (x : Search) (nodes : List (Nat × DWord × Nat)) (home first : Nat) : Search :=
  { x with query := ((List.range (descQueryBytes x.desc)).map (pagedByte x.qpages (BitVec.ofNat 64 (cardField x 191 128)))).map (engineByte s),
           home := home, heap0 := first, heapn := chainHeaps x, stage := .running, visited := [], lib := activeImage s 6,
           entries := nodes.map (fun n => n.1) }

/-- The home engine with the search's chain, empty. -/
def chained (s : State) (q : Nat) (x : Search) (nodes : List (Nat × DWord × Nat)) (home first : Nat) : State :=
  modEngine { s with searches := mset s.searches q (homed s x nodes home first) } home (fun en =>
    { en with chains := en.chains ++ [{ first := first, heaps := chainHeaps x, ctx := none, qid := some q, ents := [] }] })

theorem hasChain_chained : HasChain (chained s q x nodes home first) q home (chainHeaps x) := by
  rw [HasChain, chained, getEngine_modEngine_self]
  exact ⟨_, List.mem_append_right _ List.mem_cons_self, rfl, rfl⟩

theorem placeSearch_clean
    (hc : CleanAt s ((List.range (descQueryBytes x.desc)).map (pagedByte x.qpages (BitVec.ofNat 64 (cardField x 191 128)))))
    (hr : routineAt (imageOf s (activeImage s 6)) 0 = some rt) {t : State}
    (hp : pushEntries q home (homed s x nodes home first) (chained s q x nodes home first) nodes = some t) :
    placeSearch s q x nodes home first ctx =
      startCtx t home ctx (.setup q) (activeImage s 6) rt rt.fetch rt.math
        (contextNames [(1, BitVec.ofNat 64 (cardField x 259 256))] home ctx)
        [(0, vecOf (walkerRecord q (homed s x nodes home first) (lget (nodes.map (fun n => n.1)) 0 0)))] [] false 0 := by
  rw [← below_eq_range] at hc
  have hq := dramBytes_clean hc
  unfold placeSearch
  dsimp only
  rw [if_neg (by rw [hq]; exact Bool.false_ne_true)]
  simp only [homed, chained, ← below_eq_range] at hp ⊢
  split
  next h1 h2 =>
    obtain rfl := Option.some.inj (h1.symm.trans hp)
    obtain rfl := Option.some.inj (h2.symm.trans hr)
    rfl
  next h1 => cases h1.symm.trans hp
  next h2 _ => cases h2.symm.trans hr

/-- The first registers of a context hold the search's walkers in g1. -/
theorem nearG_contextNames (v : DWord) (e k pc : Nat) (vs : Map (List Word)) : nearG (startThr pc (contextNames [(1, v)] e k) vs) 1 = v := by
  show mget (contextNames [(1, v)] e k) 1 0#64 = v
  rw [contextNames, mget_mput_ne _ _ _ (by decide), mget_mput_ne _ _ _ (by decide)]
  rfl

/-- A search whose query and entry vectors translate gets its chain and its setup routine. -/
theorem placeSearch_places
    (hc : CleanAt s ((List.range (descQueryBytes x.desc)).map (pagedByte x.qpages (BitVec.ofNat 64 (cardField x 191 128)))))
    (hr : routineAt (imageOf s (activeImage s 6)) 0 = some rt)
    (ha : ∀ z ∈ nodes, ∃ as, nearAddrs s x.asid false
      (vectorBytes (descField x.desc 66 64) (descField x.desc 75 72) (descField x.desc 95 80)) z.2.1 = some as) :
    ∃ y h c, getSearch (placeSearch s q x nodes home first ctx) q = some y ∧ y.stage = .running ∧ y.home = home ∧
      h ∈ (getEngine (placeSearch s q x nodes home first ctx) home).chains ∧ h.qid = some q ∧ h.heaps = chainHeaps x ∧
      mfind (getEngine (placeSearch s q x nodes home first ctx) home).ctxs ctx = some c ∧ c.kind = .setup q ∧ c.fetch.pc = rt.fetch ∧
      c.math.pc = rt.math ∧ nearG c.fetch 1 = BitVec.ofNat 64 (cardField x 259 256) := by
  obtain ⟨t, y, hp, ⟨h, hh, hq, hn⟩, hy, he⟩ := pushEntries_pushes (s := chained s q x nodes home first) (q := q) (home := home)
    (x := homed s x nodes home first) (n := chainHeaps x) (y := homed s x nodes home first) nodes
    (fun z hz => by
      obtain ⟨as, has⟩ := ha z hz
      exact ⟨as, (nearAddrs_congr (s := s) (by exact fun _ => rfl) (by rfl) ..).trans has⟩)
    (mfind_mset_self ..) hasChain_chained
  rw [placeSearch_clean hc hr hp, startCtx, getEngine_modEngine_self]
  exact ⟨y, h, _, hy, by rw [he]; rfl, by rw [he]; rfl, hh, hq, hn, mfind_mset_self .., rfl, rfl, rfl, nearG_contextNames ..⟩

end Placement

/-! ## Setup -/

section Setup

variable {s s1 : State} {q : Nat} {x y : Search} {n : Nat × DWord × Nat} {r : List (Nat × DWord × Nat)}

/-- The entry nodes that a setup looks at. -/
def setupNodes (q : Nat) (s : State) (x : Search) : Option (List (Nat × DWord × Nat)) × State :=
  entryNodes q x s ((entryFields x.desc).filter (fun j => j != unusedEntry))

theorem searchSetup_empty (hx : getSearch s q = some x) (hs : x.stage = .registered ∨ x.stage = .waiting)
    (hn : setupNodes q s x = (some [], s1)) (hy : getSearch s1 q = some y) :
    exec (.searchSetup q) s = .next (endSearch (modSearch s1 q (fun y => { y with home := 64 * stackOf y.descPa })) q
      { emptyEnding 0 with poison := y.poison }) := by
  unfold setupNodes at hn
  rw [exec_searchSetup, execSearchSetup, hx]
  refine (if_neg (by tauto)).trans ?_
  rw [hn]
  dsimp only
  rw [hy]

/-- An earlier search waits for the same stack. -/
def waitsBefore (s : State) (y : Search) (stack : Nat) : Bool :=
  s.searches.any (fun z => z.2.stage == .waiting && decide (z.2.home / 64 = stack) && (y.stage != .waiting || decide (z.2.arrived < y.arrived)))

/-- The engine that a setup takes of those that can have it. -/
def pickHome (s s1 : State) (x : Search) (stack : Nat) : Nat :=
  lget (homeEngines s1 stack (chainHeaps x)) (Config.freeNat (salt s 5400) % (homeEngines s1 stack (chainHeaps x)).length) 0

/-- A search joins the line for a stack. -/
def joinLine (s1 : State) (q : Nat) (stack : Nat) : State :=
  modSearch (fresh s1).2 q (fun x => { x with stage := .waiting, home := 64 * stack, arrived := (fresh s1).1 })

theorem searchSetup_waits (hx : getSearch s q = some x) (hs : x.stage = .registered ∨ x.stage = .waiting)
    (hn : setupNodes q s x = (some (n :: r), s1)) (hy : getSearch s1 q = some y) (he : homeEngines s1 n.2.2 (chainHeaps x) = []) :
    exec (.searchSetup q) s = .next (if y.stage = .waiting then s1 else joinLine s1 q n.2.2) := by
  unfold setupNodes at hn
  rw [exec_searchSetup, execSearchSetup, hx]
  refine (if_neg (by tauto)).trans ?_
  rw [hn]
  dsimp only
  rw [hy, he]
  dsimp only
  split
  next h _ =>
    split at h
    · cases h
    · cases h
  next => rfl

theorem searchSetup_placed {first ctx : Nat} (hx : getSearch s q = some x) (hs : x.stage = .registered ∨ x.stage = .waiting)
    (hn : setupNodes q s x = (some (n :: r), s1)) (hy : getSearch s1 q = some y) (hb : waitsBefore s y n.2.2 = false)
    (he : homeEngines s1 n.2.2 (chainHeaps x) ≠ [])
    (hf : freeHeaps (getEngine s1 (pickHome s s1 x n.2.2)) (chainHeaps x) = some first)
    (hc : freeCtx (getEngine s1 (pickHome s s1 x n.2.2)) = some ctx) :
    exec (.searchSetup q) s = .next (placeSearch s1 q y (n :: r) (pickHome s s1 x n.2.2) first ctx) := by
  unfold setupNodes at hn
  rw [exec_searchSetup, execSearchSetup, hx]
  refine (if_neg (by tauto)).trans ?_
  rw [hn]
  dsimp only
  rw [hy]
  dsimp only
  rw [if_neg (by rw [show s.searches.any _ = false from hb]; exact Bool.false_ne_true), if_neg (by simpa using he)]
  split
  next h1 h2 =>
    obtain rfl := Option.some.inj (h1.symm.trans hf)
    obtain rfl := Option.some.inj (h2.symm.trans hc)
    rfl
  next h => exact absurd hc (h _ _ hf)

end Setup

/-- No search stands before one that alone may wait. -/
theorem waitsBefore_alone {s : State} {q : Nat} {x y : Search} (h : ∀ z ∈ s.searches, z.2.stage ≠ .waiting ∨ z = (q, x))
    (hst : y.stage = x.stage) (har : y.arrived = x.arrived) (stack : Nat) : waitsBefore s y stack = false := by
  rw [waitsBefore, List.any_eq_false]
  intro z hz
  rcases h z hz with hw | rfl
  · simp [hw]
  · by_cases hx : x.stage = .waiting <;> simp [hst, har, hx]

/-- R159: a search without entry nodes ends, one without an engine waits, another is placed. -/
theorem searchSetups : SearchSetups := by
  refine ⟨fun q s h => ?_, fun q s x hx hs => ⟨fun s1 y hn hy => ?_, fun n r s1 hn hfree => ?_, ?_⟩⟩
  · rw [exec_searchSetup, execSearchSetup]
    split
    · rfl
    · exact if_pos (h _ ‹_›)
  · refine ⟨_, searchSetup_empty hx hs hn hy, ?_⟩
    have he := endSearch_ends hy (getSearch_modSearch_self s1 hy (fun y => { y with home := 64 * stackOf y.descPa })) ⟨rfl, rfl, rfl, rfl⟩
      { emptyEnding 0 with poison := y.poison }
    revert he
    cases y.poison <;> exact id
  · have hk : Scanned s s1 := by
      have := scanned_entryNodes q x s ((entryFields x.desc).filter (fun j => j != unusedEntry))
      rwa [hn] at this
    obtain ⟨y, hy, -⟩ := hk.get hx
    have he : homeEngines s1 n.2.2 (chainHeaps x) = [] :=
      homeEngines_nil fun e h => by rw [getEngine_of_engines hk.engines, hfree e h]
    have hw := searchSetup_waits hx hs hn hy he
    split at hw
    next h => exact ⟨_, y, hw, hy, h, hk.engines⟩
    next => exact ⟨_, _, hw, getSearch_modSearch_self (fresh s1).2 hy _, rfl, (modSearch_engines ..).trans hk.engines⟩
  · intro n r s1 e f k rt hn he hf hk halone hrt hclean hvec
    have hm : Scanned s s1 := by
      have := scanned_entryNodes q x s ((entryFields x.desc).filter (fun j => j != unusedEntry))
      rwa [hn] at this
    obtain ⟨y, hy, hxy⟩ := hm.get hx
    have hen := fun e => getEngine_of_engines hm.engines e
    have hne : homeEngines s1 n.2.2 (chainHeaps x) ≠ [] := by
      refine List.ne_nil_of_mem (mem_homeEngines.2 ⟨he, ?_, ?_⟩)
      · rw [hen, hf]; rfl
      · rw [hen, hk]; rfl
    obtain ⟨hst, hfr, hct⟩ := mem_homeEngines.1 (lget_mem (Nat.mod_lt (Config.freeNat (salt s 5400)) (List.length_pos_of_ne_nil hne)) 0)
    obtain ⟨first, hfirst⟩ := Option.isSome_iff_exists.1 hfr
    obtain ⟨ctx, hctx⟩ := Option.isSome_iff_exists.1 hct
    have hp := searchSetup_placed hx hs hn hy (waitsBefore_alone halone (by rw [hxy]) (by rw [hxy]) _) hne hfirst hctx
    have himg : imageOf s1 (activeImage s1 6) = imageOf s (activeImage s 6) := by rw [hm.rest]; rfl
    obtain ⟨z, h, c, hz, hrun, hhome, hh, hq, hn, hc, rest⟩ := placeSearch_places (s := s1) (q := q) (x := y) (nodes := n :: r)
      (home := pickHome s s1 x n.2.2) (first := first) (ctx := ctx) (rt := rt)
      (by
        rw [hxy, hm.rest]
        exact hclean)
      (himg ▸ hrt)
      (fun w hw => by
        rw [hm.nearAddrs, hxy]
        exact hvec w hw)
    refine ⟨_, z, h, ctx, c, hp, hz, hrun, ?_, ?_, hq, ?_, ?_, ?_⟩
    · rw [hhome]
      exact hst
    · rw [hhome]
      exact hh
    · rw [hn, hxy]
      rfl
    · rw [hhome]
      exact hc
    · rw [hxy] at rest
      exact rest

/-- Settles O42: the command, its registration and its setup. -/
theorem searchStart : Obligations.SearchStart := ⟨searchCommands, searchRegistrations, searchSetups⟩

end Sys2Proof.Proofs
end

section
/-! PROOFS. Messages of the engines (R161, R162), and the contexts that SPAWN and WALKER start (R143, R160). -/

namespace Sys2Proof.Proofs

open Sys2Proof Sys2Proof.Machine Sys2Proof.Claim

/-! ## Headers and bodies (Table 6.9) -/

section Encoding

variable (kind dest src count : Nat) (last : Bool) (qid seq : Nat) (snap : Word)

/-- The number of a header: its fields, lowest first. -/
theorem msgHeader_toNat : ∃ a b c f, (msgHeader kind dest src count last qid seq snap).toNat =
    kind % 16 + 2 ^ 4 * a + 2 ^ 14 * b + 2 ^ 24 * (count % 16) + 2 ^ 28 * f + 2 ^ 32 * c ∧ a < 2 ^ 10 ∧ b < 2 ^ 10 ∧
    f = if last then 1 else 0 := by
  refine ⟨dest % 1024, src % 1024, qid % 65536 + seq % 65536 * 2 ^ 16 + snap.toNat * 2 ^ 32, if last then 1 else 0, ?_, ?_, ?_, rfl⟩
  · have hs := snap.isLt
    have hf : (if last then 2 ^ 28 else 0) = 2 ^ 28 * (if last then 1 else 0) := by cases last <;> rfl
    have hl : (if last then 1 else 0) < 2 := by cases last <;> decide
    rw [msgHeader, hf, BitVec.toNat_ofNat]
    generalize (if last then 1 else 0) = f at hl ⊢
    omega
  · exact Nat.mod_lt _ (by decide)
  · exact Nat.mod_lt _ (by decide)

theorem headField_kind : headField (msgHeader kind dest src count last qid seq snap) 3 0 = kind % 16 := by
  obtain ⟨a, b, c, f, h, -, -, -⟩ := msgHeader_toNat kind dest src count last qid seq snap
  rw [headField, h, bits]
  omega

theorem headField_count : headField (msgHeader kind dest src count last qid seq snap) 27 24 = count % 16 := by
  obtain ⟨a, b, c, f, h, ha, hb, -⟩ := msgHeader_toNat kind dest src count last qid seq snap
  rw [headField, h, bits]
  omega

theorem headField_last : headField (msgHeader kind dest src count last qid seq snap) 28 28 = if last then 1 else 0 := by
  obtain ⟨a, b, c, f, h, ha, hb, hf⟩ := msgHeader_toNat kind dest src count last qid seq snap
  have hl : f < 2 := by rw [hf]; cases last <;> decide
  rw [headField, h, bits, ← hf]
  omega

/-- Items of eight bytes as one number, the first lowest. -/
def itemsNat (items : List Nat) : Nat := (items.map (fun x => x % 2 ^ 64)).foldr (fun x acc => x + acc * 2 ^ 64) 0

theorem itemsNat_cons (x : Nat) (r : List Nat) : itemsNat (x :: r) = x % 2 ^ 64 + itemsNat r * 2 ^ 64 := by
  rw [itemsNat, List.map_cons, List.foldr_cons, itemsNat]

theorem itemsNat_lt (items : List Nat) : itemsNat items < 2 ^ (64 * items.length) := by
  induction items with
  | nil => exact Nat.one_pos
  | cons x r ih =>
    rw [itemsNat_cons, List.length_cons, Nat.mul_succ, Nat.pow_add]
    have : x % 2 ^ 64 < 2 ^ 64 := Nat.mod_lt _ (by decide)
    omega

theorem itemsNat_item {items : List Nat} {k : Nat} (h : k < items.length) :
    itemsNat items / 2 ^ (64 * k) % 2 ^ 64 = lget items k 0 % 2 ^ 64 := by
  induction items generalizing k with
  | nil => cases h
  | cons x r ih =>
    rw [itemsNat_cons]
    cases k with
    | zero =>
      rw [lget, Nat.mul_zero, Nat.pow_zero]
      omega
    | succ k =>
      rw [lget, ← ih (Nat.lt_of_succ_lt_succ h), Nat.mul_succ, Nat.pow_add, Nat.mul_comm (2 ^ (64 * k)), ← Nat.div_div_eq_div_mul]
      congr 2
      omega

/-- A body of at most eight items holds them. -/
theorem bodyItem_bodyOf {items : List Nat} (hl : items.length ≤ 8) {k : Nat} (h : k < items.length) :
    bodyItem (bodyOf items) k = lget items k 0 % 2 ^ 64 := by
  have hn : 64 * items.length ≤ 512 := by omega
  rw [← itemsNat_item h, bodyItem, bodyOf, BitVec.toNat_ofNat, ← itemsNat,
    Nat.mod_eq_of_lt ((itemsNat_lt items).trans_le (pow_le_pow_right₀ one_le_two hn))]

end Encoding

/-! ## A message taken, and messages set aside (R162) -/

section Receive

variable {s t : State} {e : Nat} {m : Msg}

/-- A message is taken where the engine's queues are as they are without it. -/
theorem taken_takeMsg (hw : (getEngine t e).waits = (getEngine (takeMsg s e m) e).waits)
    (hr : (getEngine t e).rx = (getEngine (takeMsg s e m) e).rx) : Taken s t e m := by
  rw [Taken, hw, hr, takeMsg, getEngine_modEngine_self]
  by_cases h : m ∈ (getEngine s e).waits <;> simp [h]

theorem takeMsg_ctxs (s : State) (e : Nat) (m : Msg) : (getEngine (takeMsg s e m) e).ctxs = (getEngine s e).ctxs := by
  rw [takeMsg, getEngine_modEngine_self]
  split <;> rfl

theorem takeMsg_chains (s : State) (e : Nat) (m : Msg) : (getEngine (takeMsg s e m) e).chains = (getEngine s e).chains := by
  rw [takeMsg, getEngine_modEngine_self]
  split <;> rfl

@[simp] theorem getSearch_takeMsg (s : State) (e : Nat) (m : Msg) (q : Nat) : getSearch (takeMsg s e m) q = getSearch s q := rfl

@[simp] theorem searchOfQid_takeMsg (s : State) (e : Nat) (m : Msg) (k : Nat) : searchOfQid (takeMsg s e m) k = searchOfQid s k := rfl

/-- A pair as it starts. -/
def startedCtx (kind : CtxKind) (lib : Nat) (r : Routine) (fetchPc mathPc : Nat) (g : Map DWord) (v : Map (List Word)) (grant : Map Byte)
    (holds : Bool) (dreqs : Nat) : Ctx :=
  { kind := kind, lib := lib, fetch := startThr fetchPc g v, math := startThr mathPc g v, fwd := [], ret := [],
    grant := grant, grantSize := r.grant * 4096, status := 0#64, holds := holds, dreqs := dreqs, endSent := false, wrote := [], answers := [] }

theorem getEngine_startCtx (s : State) (e k : Nat) (kind : CtxKind) (lib : Nat) (r : Routine) (fetchPc mathPc : Nat) (g : Map DWord)
    (v : Map (List Word)) (grant : Map Byte) (holds : Bool) (dreqs : Nat) :
    getEngine (startCtx s e k kind lib r fetchPc mathPc g v grant holds dreqs) e =
      { getEngine s e with ctxs := mset (getEngine s e).ctxs k (startedCtx kind lib r fetchPc mathPc g v grant holds dreqs) } :=
  getEngine_modEngine_self ..

/-- A message is taken where its context starts. -/
theorem taken_startCtx {s s1 : State} {e : Nat} (hw : (getEngine s1 e).waits = (getEngine s e).waits) (hr : (getEngine s1 e).rx = (getEngine s e).rx)
    (m : Msg) (k : Nat) (kind : CtxKind) (lib : Nat) (r : Routine) (fetchPc mathPc : Nat) (g : Map DWord) (v : Map (List Word)) (grant : Map Byte)
    (holds : Bool) (dreqs : Nat) : Taken s (startCtx (takeMsg s1 e m) e k kind lib r fetchPc mathPc g v grant holds dreqs) e m := by
  have ht : Taken s1 (takeMsg s1 e m) e m := taken_takeMsg rfl rfl
  rw [Taken, hw, hr] at ht
  rw [Taken, getEngine_startCtx]
  exact ht

/-- A line of messages set aside. -/
theorem parkMsgs_setAside (s : State) (e kind : Nat) : SetAside s (parkMsgs s e kind) e (serverOf kind) := by
  rw [SetAside, parkMsgs, getEngine_modEngine_self]
  exact ⟨rfl, rfl, rfl⟩

end Receive

/-! ## A message that hardware sends (R162) -/

section Send

variable {s : State} {src dest kind count : Nat} {last : Bool} {qid : Nat} {snap : Word} {items : List Nat} {holds : Bool} {dreqs : Nat}

/-- The message that an engine's hardware makes. -/
def madeMsg (s : State) (src dest kind count : Nat) (last : Bool) (qid : Nat) (snap : Word) (items : List Nat) (holds : Bool) (dreqs : Nat) : Msg :=
  { header := msgHeader kind dest src count last qid (getEngine s src).seq.toNat snap, body := bodyOf items, holds := holds, dreqs := dreqs }

/-- Sent where there is room. -/
theorem hardMsg_now (h : maySendNow s src dest = true) :
    hardMsg s src dest kind count last qid snap items holds dreqs =
      deliverMsg s src dest (madeMsg s src dest kind count last qid snap items holds dreqs) := by
  rw [hardMsg, if_pos h]
  rfl

/-- Kept at its source where there is none. -/
theorem hardMsg_later (h : maySendNow s src dest = false) :
    hardMsg s src dest kind count last qid snap items holds dreqs =
      modEngine s src (fun en => { en with tx := en.tx ++ [madeMsg s src dest kind count last qid snap items holds dreqs], seq := en.seq + 1#16 }) := by
  rw [hardMsg, if_neg (by rw [h]; exact Bool.false_ne_true)]
  rfl

theorem deliverMsg_rx (s : State) (src dest : Nat) (m : Msg) : (getEngine (deliverMsg s src dest m) dest).rx = (getEngine s dest).rx ++ [m] := by
  rw [deliverMsg, getEngine_modEngine]
  split
  · subst_vars
    rw [getEngine_modEngine_self]
  · rw [getEngine_modEngine_self]

theorem deliverMsg_keeps (s : State) (src dest : Nat) (m : Msg) (e : Nat) :
    (getEngine (deliverMsg s src dest m) e).ctxs = (getEngine s e).ctxs ∧ (getEngine (deliverMsg s src dest m) e).chains = (getEngine s e).chains := by
  have hk : ∀ (u : State) (k : Nat) (f : Engine → Engine), (∀ en, (f en).ctxs = en.ctxs ∧ (f en).chains = en.chains) →
      (getEngine (modEngine u k f) e).ctxs = (getEngine u e).ctxs ∧ (getEngine (modEngine u k f) e).chains = (getEngine u e).chains := by
    intro u k f hf
    rw [getEngine_modEngine]
    split
    · subst_vars
      exact hf _
    · exact ⟨rfl, rfl⟩
  obtain ⟨h1, h2⟩ := hk (modEngine s dest (fun en => { en with rx := en.rx ++ [m] })) src (fun en => { en with seq := en.seq + 1#16 })
    (fun _ => ⟨rfl, rfl⟩)
  obtain ⟨h3, h4⟩ := hk s dest (fun en => { en with rx := en.rx ++ [m] }) (fun _ => ⟨rfl, rfl⟩)
  exact ⟨h1.trans h3, h2.trans h4⟩

/-- A message leaves contexts and chains as they are. -/
theorem hardMsg_keeps (e : Nat) :
    (getEngine (hardMsg s src dest kind count last qid snap items holds dreqs) e).ctxs = (getEngine s e).ctxs ∧
    (getEngine (hardMsg s src dest kind count last qid snap items holds dreqs) e).chains = (getEngine s e).chains := by
  cases h : maySendNow s src dest with
  | true =>
    rw [hardMsg_now h]
    exact deliverMsg_keeps ..
  | false =>
    rw [hardMsg_later h, getEngine_modEngine]
    split
    · subst_vars
      exact ⟨rfl, rfl⟩
    · exact ⟨rfl, rfl⟩

@[simp] theorem getSearch_hardMsg (q : Nat) :
    getSearch (hardMsg s src dest kind count last qid snap items holds dreqs) q = getSearch s q := by
  cases h : maySendNow s src dest with
  | true =>
    rw [hardMsg_now h]
    rfl
  | false =>
    rw [hardMsg_later h]
    rfl

/-- Every engine's queues hold the same messages. -/
def SameQueues (s t : State) : Prop := ∀ e, (getEngine t e).rx = (getEngine s e).rx ∧ (getEngine t e).tx = (getEngine s e).tx

theorem maySendNow_congr {u : State} (h : SameQueues u s) (src dest : Nat) : maySendNow s src dest = maySendNow u src dest := by
  rw [maySendNow, maySendNow, hasRoom, hasRoom, owesMsg, owesMsg, (h dest).1, (h src).2]

/-- What hardware sends is behind what the queues held. -/
theorem sent_hardMsg {u : State} (hq : SameQueues u s) (hk : kind < 16) (hl : items.length ≤ 8) :
    Sent u (hardMsg s src dest kind count last qid snap items holds dreqs) src dest kind items := by
  refine ⟨madeMsg s src dest kind count last qid snap items holds dreqs, ?_, ?_, fun k h => bodyItem_bodyOf hl h⟩
  · cases h : maySendNow s src dest with
    | true =>
      rw [hardMsg_now h, maySendNow_congr hq] at *
      rw [if_pos h, deliverMsg_rx, (hq dest).1]
    | false =>
      rw [hardMsg_later h]
      rw [maySendNow_congr hq] at h
      rw [if_neg (by rw [h]; exact Bool.false_ne_true), getEngine_modEngine_self, (hq src).2]
  · exact (headField_kind ..).trans (Nat.mod_eq_of_lt hk)

end Send

/-! ## Walkers (R143, R160, R162) -/

section Walker

variable {s s1 : State} {e kind k slot q : Nat} {m : Msg} {x : Search} {r : Routine}

theorem loadQuery_queues (h : loadQuery s e q x = some (slot, s1)) :
    (getEngine s1 e).waits = (getEngine s e).waits ∧ (getEngine s1 e).rx = (getEngine s e).rx := by
  unfold loadQuery at h
  dsimp only at h
  split at h
  · obtain ⟨-, rfl⟩ := Prod.mk.inj (Option.some.inj h)
    exact ⟨rfl, rfl⟩
  · split at h
    · cases h
    · obtain ⟨-, rfl⟩ := Prod.mk.inj (Option.some.inj h)
      rw [getEngine_modEngine_self]
      exact ⟨rfl, rfl⟩

theorem startWalker_none (hm : headMsg s e kind = none) : startWalker s e kind = s := by rw [startWalker, hm]

theorem startWalker_gone (hm : headMsg s e kind = some m) (hq : searchOfQid s (headField m.header 47 32) = none) :
    startWalker s e kind = takeMsg s e m := by
  rw [startWalker, hm]
  dsimp only
  rw [hq]

theorem startWalker_waits (hm : headMsg s e kind = some m) (hq : searchOfQid s (headField m.header 47 32) = some q)
    (hx : getSearch s q = some x) (hf : freeCtx (getEngine s e) = none) : startWalker s e kind = parkMsgs s e kind := by
  rw [startWalker, hm]
  dsimp only
  rw [hq]
  dsimp only
  rw [hx]
  dsimp only
  rw [hf]

/-- The entries of a walker: the routine's for a SPAWN, the hop entry for a WALKER. -/
def walkerPcs (kind : Nat) (r : Routine) : Nat × Nat := if kind = 6 then (r.fetch, r.math) else (r.hop, r.hop + 4)

theorem startWalker_starts (hm : headMsg s e kind = some m) (hq : searchOfQid s (headField m.header 47 32) = some q)
    (hx : getSearch s q = some x) (hf : freeCtx (getEngine s e) = some k) (hl : loadQuery s e q x = some (slot, s1))
    (hr : routineAt (imageOf s x.lib) 1 = some r) :
    startWalker s e kind = startCtx (takeMsg s1 e m) e k (.walker q) x.lib r (walkerPcs kind r).1 (walkerPcs kind r).2
      (contextNames (if slot = 0 then [] else [(2, BitVec.ofNat 64 slot)]) e k) [(0, vecOf m.body)] [] (kind == 1 && m.holds)
      (if kind = 1 then m.dreqs else 0) := by
  rw [startWalker, hm]
  dsimp only
  rw [hq]
  dsimp only
  rw [hx]
  dsimp only
  rw [hf, hl, hr]
  rfl

end Walker

/-- R143, R160 and R162: a walker's message starts a context, waits for one, or is dropped. -/
theorem walkers : Walkers := by
  intro e hop s i kind
  have hi : exec i s = .next (startWalker s e kind) := by cases hop <;> rfl
  refine ⟨fun hm => ?_, fun m hm hq => ?_, fun m q x hm hq hx => ⟨fun hf => ?_, fun k slot s1 r hf hl hr => ?_⟩⟩
  · rw [hi, startWalker_none hm]
  · exact ⟨_, hi.trans (congrArg _ (startWalker_gone hm hq)), taken_takeMsg rfl rfl, takeMsg_ctxs ..⟩
  · have hk : serverOf kind = 0 := by cases hop <;> rfl
    exact ⟨_, hi.trans (congrArg _ (startWalker_waits hm hq hx hf)), hk ▸ parkMsgs_setAside s e kind⟩
  · have hs := hi.trans (congrArg _ (startWalker_starts hm hq hx hf hl hr))
    have he := getEngine_startCtx (takeMsg s1 e m) e k (.walker q) x.lib r (walkerPcs kind r).1 (walkerPcs kind r).2
      (contextNames (if slot = 0 then [] else [(2, BitVec.ofNat 64 slot)]) e k) [(0, vecOf m.body)] [] (kind == 1 && m.holds)
      (if kind = 1 then m.dreqs else 0)
    obtain ⟨hw, hrx⟩ := loadQuery_queues hl
    refine ⟨_, _, hs, (congrArg (fun en : Engine => mfind en.ctxs k) he).trans (mfind_mset_self ..), rfl, rfl, ?_, ?_, rfl,
      taken_startCtx hw hrx ..⟩
    · cases hop <;> rfl
    · cases hop <;> rfl

end Sys2Proof.Proofs
end

section
/-! PROOFS. The heap unit: CANDS, POPREQ and ENDW (R163, R164). -/

namespace Sys2Proof.Proofs

open Sys2Proof Sys2Proof.Machine Sys2Proof.Claim

/-! ## Searches that go on and searches that are over -/

section Over

variable {s : State} {q : Nat} {x : Search}

/-- A search goes on while a walker of it runs. -/
theorem checkSearch_goesOn (hx : getSearch s q = some x) (h : x.endedW ≠ x.spawned) : checkSearch s q = s := by
  have ho : searchOver s q = false := by
    rw [searchOver, hx]
    simp [h]
  rw [checkSearch, ho]
  rfl

/-- The heap unit serves a search of which none waits. -/
theorem serveHeap_idle (hx : getSearch s q = some x) (hw : x.waiters = []) : serveHeap s q = checkSearch s q := by
  rw [serveHeap, hx]
  dsimp only
  rw [hw]
  rfl

/-- The heap unit serves the only one that waits. -/
theorem serveHeap_one {w : Nat × Nat} {y : Search} (hx : getSearch s q = some x) (hw : x.waiters = [w])
    (hy : getSearch ((servePop s q w).getD s) q = some y) (h : y.endedW ≠ y.spawned) : serveHeap s q = (servePop s q w).getD s := by
  rw [serveHeap, hx]
  dsimp only
  rw [hw]
  exact checkSearch_goesOn hy h

/-- How a search ends whose walkers have all ended (Table 6.7). -/
def walkedEnding (s : State) (q : Nat) (x : Search) : Ending :=
  { emptyEnding (if x.engFault then 3 else if x.spent then 1 else 0) with
    entries := firstN (cardK x) (heapOf s q x.home), truncated := x.spent || x.engFault, poison := x.poison }

/-- A search whose walkers have all ended, and its setup routine, commits and ends. -/
theorem checkSearch_ends (hx : getSearch s q = some x) (hs : x.stage = .running) (hw : x.endedW = x.spawned) (hd : x.dreqs = 0)
    (hn : ∀ en ∈ s.engines, ∀ c ∈ en.2.ctxs, c.2.kind ≠ .setup q) (hc : conflicts s x.hold = false) :
    checkSearch s q = endSearch (commitHold s x.hold) q (walkedEnding s q x) := by
  have hset : (s.engines.any (fun e => e.2.ctxs.any (fun c => c.2.kind == .setup q))) = false := by
    simp only [List.any_eq_false, beq_iff_eq, Bool.not_eq_true]
    exact fun en hen c hcn => hn en hen c hcn
  have ho : searchOver s q = true := by
    rw [searchOver, hx]
    simp [hs, hw, hd, hset]
  rw [checkSearch, ho]
  refine (if_neg (by decide)).trans ?_
  rw [hx]
  refine (if_neg (by rw [hc]; exact Bool.false_ne_true)).trans ?_
  rw [walkedEnding, heapOf]
  cases chainOf s q x.home with
  | none =>
    rw [show firstN (cardK x) ((Option.map (fun c : Chain => c.ents) none).getD []) = [] by cases cardK x <;> rfl]
  | some c => rfl

end Over

/-! ## The home of a message's search -/

section Home

variable {s : State} {e q kind : Nat} {m : Msg} {x : Search} {ch : Chain}

theorem homeSearch_atHome (h : AtHome s e q kind m x) : homeSearch (takeMsg s e m) e m = some (q, x) := by
  obtain ⟨-, hq, hx, hs, hh, -⟩ := h
  rw [homeSearch, searchOfQid_takeMsg, hq]
  dsimp only
  rw [getSearch_takeMsg, hx]
  exact if_pos ⟨hs, hh⟩

theorem chainOf_congr {t : State} (h : (getEngine t e).chains = (getEngine s e).chains) (q : Nat) : chainOf t q e = chainOf s q e := by
  rw [chainOf, chainOf, h]

theorem heapOf_congr {t : State} (h : (getEngine t e).chains = (getEngine s e).chains) (q : Nat) : heapOf t q e = heapOf s q e := by
  rw [heapOf, heapOf, chainOf_congr h]

/-- A chain of a search changed, where its name stays. -/
theorem chainOf_modChain {f : Chain → Chain} (hf : ∀ c, (f c).qid = c.qid) : chainOf (modChain s q e f) q e = (chainOf s q e).map f := by
  rw [chainOf, chainOf, modChain, getEngine_modEngine_self]
  induction (getEngine s e).chains with
  | nil => rfl
  | cons c r ih =>
    dsimp only at ih ⊢
    rw [List.map_cons, List.find?_cons, List.find?_cons]
    by_cases hc : c.qid = some q
    · rw [if_pos hc, hf, hc]
      simp
    · rw [if_neg hc]
      simp only [beq_eq_false_iff_ne.2 hc]
      exact ih

/-- The entries of a chain changed. -/
theorem heapOf_modChain (f : Chain → List HeapEnt) (hc : chainOf s q e = some ch) :
    heapOf (modChain s q e (fun c => { c with ents := f c })) q e = f ch := by
  rw [heapOf, chainOf_modChain (f := fun c => { c with ents := f c }) (fun _ => rfl), hc]
  rfl

theorem heapOf_some (hc : chainOf s q e = some ch) : heapOf s q e = ch.ents := by
  rw [heapOf, hc]
  rfl

end Home

/-! ## CANDS (R163) -/

section Cands

variable {s : State} {e q : Nat} {m : Msg} {x : Search} {ch : Chain}

/-- The hash of the visited bitmap folds the identifier's three pieces (R163). -/
theorem visitedHash_eq (j : Nat) :
    visitedHash j = Nat.xor (Nat.xor (j % 2 ^ 16) (j / 2 ^ 16 % 2 ^ 16)) (j / 2 ^ 32 % 2 ^ 16) % 65536 := by
  rw [visitedHash, bits, bits, bits, Nat.pow_zero, Nat.div_one]

/-- A candidate that was seen is dropped, another is marked and pushed. -/
theorem takeCand_spec (c : Word × Nat) (hx : getSearch s q = some x) (hc : chainOf s q e = some ch) :
    ∃ y, getSearch (takeCand q e s c) q = some y ∧ y = { x with visited := y.visited } ∧ mget y.visited (visitedHash c.2) false = true ∧
      (∀ k, k ≠ visitedHash c.2 → mget y.visited k false = mget x.visited k false) ∧
      heapOf (takeCand q e s c) q e =
        if mget x.visited (visitedHash c.2) false then heapOf s q e else heapPush (256 * ch.heaps) (heapOf s q e) c.1 c.2 := by
  rw [takeCand, hx]
  dsimp only
  cases hv : mget x.visited (visitedHash c.2) false with
  | true =>
    rw [if_pos rfl, if_pos rfl]
    exact ⟨x, hx, rfl, hv, fun _ _ => rfl, rfl⟩
  | false =>
    rw [if_neg Bool.false_ne_true, if_neg Bool.false_ne_true]
    refine ⟨_, getSearch_modSearch_self s hx _, rfl, mget_mset_self .., fun k hk => mget_mset_ne _ _ _ hk, ?_⟩
    have hc' : chainOf (modSearch s q (fun x => { x with visited := mset x.visited (visitedHash c.2) true })) q e = some ch :=
      (chainOf_congr (by rw [getEngine_modSearch]) q).trans hc
    rw [heapOf_modChain (fun k => heapPush k.capacity k.ents c.1 c.2) hc', heapOf_some hc]
    rfl

/-- A message of one candidate. -/
theorem candsOf_one (h : headField m.header 27 24 = 1) : candsOf m = [(BitVec.ofNat 32 (bodyItem m.body 0), bodyItem m.body 1 % 2 ^ 48)] := by
  rw [candsOf, h]
  rfl

/-- A message that is not the last of its request. -/
theorem not_last (h : headField m.header 28 28 = 0) : m.header.getLsbD 28 = false := by
  rw [BitVec.getLsbD, Nat.testBit_eq_decide_div_mod_eq]
  simpa [headField, bits] using h

theorem cands_one (h : AtHome s e q 2 m x) (hl : headField m.header 27 24 = 1) (hn : headField m.header 28 28 = 0) :
    exec (.cands e) s =
      .next (serveHeap (takeCand q e (takeMsg s e m) (BitVec.ofNat 32 (bodyItem m.body 0), bodyItem m.body 1 % 2 ^ 48)) q) := by
  have hh := homeSearch_atHome h
  obtain ⟨hm, -⟩ := h
  rw [exec_cands, execCands, hm]
  dsimp only
  rw [hh]
  dsimp only
  rw [candsOf_one hl, not_last hn]
  rfl

end Cands

/-! ## POPREQ (R164) -/

section Popreq

variable {s : State} {e q : Nat} {m : Msg} {x : Search} {w : Nat × Nat}

/-- A search whose waiting walker is answered. -/
def answeredPop (x : Search) (w : Nat × Nat) : Search := { x with waiters := x.waiters.erase w }

/-- A POPREP with a node, or with the identifier that stands for none. -/
def replyPop (s : State) (q : Nat) (x : Search) (w : Nat × Nat) (node : Nat) : State :=
  hardMsg s x.home w.1 4 1 false q x.snap [node, w.2] (node != noIdent) 0

theorem servePop_spent (hx : getSearch s q = some x) (hb : x.handed = cardField x 127 96) :
    servePop s q w = some (replyPop { s with searches := mset s.searches q { answeredPop x w with spent := true } } q x w noIdent) := by
  rw [servePop, hx]
  exact if_pos hb

/-- The state whose best unexpanded entry is handed to a walker. -/
def poppedState (s : State) (q : Nat) (x : Search) (w : Nat × Nat) : State :=
  { modChain s q x.home (fun c => { c with ents := (heapPop (heapOf s q x.home)).2 }) with
    searches := mset s.searches q { answeredPop x w with handed := x.handed + 1, holding := x.holding + 1 } }

/-- The best unexpanded entry is expanded. -/
theorem heapOf_poppedState (h : x.home = e) : heapOf (poppedState s q x w) q e = (heapPop (heapOf s q e)).2 := by
  subst h
  have hc := chainOf_modChain (s := s) (q := q) (e := x.home) (f := fun c => { c with ents := (heapPop (heapOf s q x.home)).2 }) (fun _ => rfl)
  rw [heapOf, show chainOf (poppedState s q x w) q x.home = _ from hc]
  unfold heapOf
  cases chainOf s q x.home <;> rfl

theorem servePop_best (hx : getSearch s q = some x) (hb : x.handed ≠ cardField x 127 96)
    (hk : bestInK (heapOf s q x.home) (cardK x) = true) :
    servePop s q w = some (replyPop (poppedState s q x w) q x w (heapPop (heapOf s q x.home)).1.1) := by
  rw [servePop, hx]
  unfold poppedState
  unfold heapOf at hk ⊢
  dsimp only
  generalize chainOf s q x.home = o at hk ⊢
  cases o with
  | none => exact (if_neg hb).trans (if_pos hk)
  | some c => exact (if_neg hb).trans (if_pos hk)

theorem servePop_waits (hx : getSearch s q = some x) (hb : x.handed ≠ cardField x 127 96)
    (hk : bestInK (heapOf s q x.home) (cardK x) = false) (hd : 0 < x.dreqs ∨ 0 < x.holding) : servePop s q w = none := by
  have hk' := fun h => Bool.false_ne_true (hk.symm.trans h)
  rw [servePop, hx]
  unfold heapOf at hk'
  dsimp only
  generalize chainOf s q x.home = o at hk' ⊢
  cases o with
  | none => exact (if_neg hb).trans ((if_neg hk').trans (if_pos hd))
  | some c => exact (if_neg hb).trans ((if_neg hk').trans (if_pos hd))

theorem servePop_stops (hx : getSearch s q = some x) (hb : x.handed ≠ cardField x 127 96)
    (hk : bestInK (heapOf s q x.home) (cardK x) = false) (hd : ¬(0 < x.dreqs ∨ 0 < x.holding)) :
    servePop s q w = some (replyPop { s with searches := mset s.searches q (answeredPop x w) } q x w noIdent) := by
  have hk' := fun h => Bool.false_ne_true (hk.symm.trans h)
  rw [servePop, hx]
  unfold heapOf at hk'
  dsimp only
  generalize chainOf s q x.home = o at hk' ⊢
  cases o with
  | none => exact (if_neg hb).trans ((if_neg hk').trans (if_neg hd))
  | some c => exact (if_neg hb).trans ((if_neg hk').trans (if_neg hd))

theorem sameQueues_modChain (s : State) (q e : Nat) (f : Chain → Chain) : SameQueues s (modChain s q e f) := fun k => by
  rw [modChain, getEngine_modEngine]
  split
  · subst_vars
    exact ⟨rfl, rfl⟩
  · exact ⟨rfl, rfl⟩

theorem sameQueues_of_engines {s t : State} (h : t.engines = s.engines) : SameQueues s t := fun k => by
  rw [getEngine_of_engines h]
  exact ⟨rfl, rfl⟩

theorem sameQueues_trans {s t u : State} (h : SameQueues s t) (k : SameQueues t u) : SameQueues s u := fun e =>
  ⟨(k e).1.trans (h e).1, (k e).2.trans (h e).2⟩

theorem sameQueues_poppedState (s : State) (q : Nat) (x : Search) (w : Nat × Nat) : SameQueues s (poppedState s q x w) :=
  sameQueues_modChain s q x.home (fun c => { c with ents := (heapPop (heapOf s q x.home)).2 })

/-- A POPREP is behind what the queues held. -/
theorem sent_replyPop {u : State} (h : SameQueues u s) (hh : x.home = e) (node : Nat) : Sent u (replyPop s q x w node) e w.1 4 [node, w.2] :=
  hh ▸ sent_hardMsg h (by decide) (by simp)

/-- The walker that a POPREQ names: its engine and its context. -/
def popWalker (m : Msg) : Nat × Nat := (bodyItem m.body 0 % 1024, bodyItem m.body 1 % 16)

/-- A search that a POPREQ reached. -/
def popping (x : Search) (m : Msg) : Search :=
  { reportWalker x m (bodyItem m.body 2 % 256) with waiters := x.waiters ++ [popWalker m] }

/-- The state in which a POPREQ waits. -/
def popState (s : State) (e q : Nat) (m : Msg) : State := modSearch (takeMsg s e m) q (fun x => popping x m)

theorem popreq_serves (h : AtHome s e q 3 m x) : exec (.popreq e) s = .next (serveHeap (popState s e q m) q) := by
  have hh := homeSearch_atHome h
  obtain ⟨hm, -⟩ := h
  rw [exec_popreq, execPopreq, hm]
  dsimp only
  rw [hh]
  rfl

theorem getSearch_popState (h : AtHome s e q 3 m x) : getSearch (popState s e q m) q = some (popping x m) := by
  obtain ⟨-, -, hx, -⟩ := h
  exact getSearch_modSearch_self (takeMsg s e m) hx _

theorem popping_waiters (h : AtHome s e q 3 m x) : (popping x m).waiters = [popWalker m] := by
  obtain ⟨-, -, -, -, -, hw⟩ := h
  exact congrArg (· ++ [popWalker m]) hw

theorem answeredPop_waiters (h : AtHome s e q 3 m x) : (answeredPop (popping x m) (popWalker m)).waiters = [] := by
  show (popping x m).waiters.erase (popWalker m) = []
  rw [popping_waiters h]
  simp

theorem popState_engines (s : State) (e q : Nat) (m : Msg) : (popState s e q m).engines = (takeMsg s e m).engines := modSearch_engines ..

/-- The heap of the search is as it was while its POPREQ waits. -/
theorem heapOf_popState (s : State) (e q : Nat) (m : Msg) : heapOf (popState s e q m) q e = heapOf s q e :=
  heapOf_congr ((congrArg Engine.chains (getEngine_of_engines (popState_engines s e q m) e)).trans (takeMsg_chains s e m)) q

/-- A POPREQ that is answered, or that waits. -/
theorem popreq_ends {y : Search} (h : AtHome s e q 3 m x)
    (hy : getSearch ((servePop (popState s e q m) q (popWalker m)).getD (popState s e q m)) q = some y) (hr : y.endedW ≠ y.spawned) :
    exec (.popreq e) s = .next ((servePop (popState s e q m) q (popWalker m)).getD (popState s e q m)) := by
  rw [popreq_serves h, serveHeap_one (getSearch_popState h) (popping_waiters h) hy hr]

/-- A POPREQ that gets its answer. -/
theorem popreq_answered {t : State} {y : Search} (h : AtHome s e q 3 m x) (ht : servePop (popState s e q m) q (popWalker m) = some t)
    (hy : getSearch t q = some y) (hr : y.endedW ≠ y.spawned) : exec (.popreq e) s = .next t := by
  have := popreq_ends (y := y) h (by rw [ht]; exact hy) hr
  rwa [ht] at this

/-- R164: the budget, the best unexpanded entry, what is still out, and STOP. -/
theorem heapUnit_popreq (h : AtHome s e q 3 m x) (hr : x.endedW ≠ x.spawned) :
    let w := popWalker m
    let out := x.dreqs + (bodyItem m.body 2 % 256 : Nat)
    let held := if m.holds then x.holding - 1 else x.holding
    ∃ t y, exec (.popreq e) s = .next t ∧ getSearch t q = some y ∧ y.dreqs = out ∧
      (x.handed = cardField x 127 96 → Sent (takeMsg s e m) t e w.1 4 [noIdent, w.2] ∧ y.spent = true ∧ y.waiters = []) ∧
      (x.handed ≠ cardField x 127 96 → bestInK (heapOf s q e) (cardK x) = true →
        Sent (takeMsg s e m) t e w.1 4 [(heapPop (heapOf s q e)).1.1, w.2] ∧ y.handed = x.handed + 1 ∧ y.holding = held + 1 ∧
        heapOf t q e = (heapPop (heapOf s q e)).2) ∧
      (x.handed ≠ cardField x 127 96 → bestInK (heapOf s q e) (cardK x) = false → (0 < out ∨ 0 < held) →
        y.waiters = [w] ∧ Taken s t e m) ∧
      (x.handed ≠ cardField x 127 96 → bestInK (heapOf s q e) (cardK x) = false → out ≤ 0 → held = 0 →
        Sent (takeMsg s e m) t e w.1 4 [noIdent, w.2] ∧ y.spent = x.spent ∧ y.waiters = []) := by
  intro w out held
  have hx := getSearch_popState h
  have hw := answeredPop_waiters h
  have hq : SameQueues (takeMsg s e m) (popState s e q m) := sameQueues_of_engines (popState_engines ..)
  have hh : (popping x m).home = e := by
    obtain ⟨-, -, -, -, hh, -⟩ := h
    exact hh
  have hheap : heapOf (popState s e q m) q (popping x m).home = heapOf s q e := by rw [hh, heapOf_popState]
  by_cases hb : x.handed = cardField x 127 96
  · have ht := servePop_spent (w := w) hx hb
    have hy := getSearch_mset (popState s e q m) q { answeredPop (popping x m) w with spent := true }
    refine ⟨_, _, popreq_answered h ht ((getSearch_hardMsg ..).trans hy) hr, (getSearch_hardMsg ..).trans hy, rfl,
      fun _ => ⟨?_, rfl, hw⟩, fun k => absurd hb k, fun k => absurd hb k, fun k => absurd hb k⟩
    exact sent_replyPop (sameQueues_trans hq (sameQueues_of_engines (by rfl))) hh noIdent
  · cases hk : bestInK (heapOf s q e) (cardK x) with
    | true =>
      have ht := servePop_best (w := w) hx hb (by rw [hheap]; exact hk)
      rw [hheap] at ht
      have hy : getSearch (poppedState (popState s e q m) q (popping x m) w) q =
          some { answeredPop (popping x m) w with handed := x.handed + 1, holding := (popping x m).holding + 1 } := mfind_mset_self ..
      refine ⟨_, _, popreq_answered h ht ((getSearch_hardMsg ..).trans hy) hr, (getSearch_hardMsg ..).trans hy, rfl,
        fun k => absurd k hb, fun _ _ => ⟨?_, rfl, rfl, ?_⟩, fun _ k => (by cases k),
        fun _ k => (by cases k)⟩
      · exact sent_replyPop (sameQueues_trans hq (sameQueues_poppedState _ _ _ _)) hh _
      · rw [replyPop, heapOf_congr (hardMsg_keeps e).2, heapOf_poppedState hh, heapOf_popState]
    | false =>
      by_cases hd : 0 < out ∨ 0 < held
      · have ht := servePop_waits (w := w) hx hb (by rw [hheap]; exact hk) hd
        have he := popreq_ends (y := popping x m) h (by rw [ht]; exact hx) hr
        rw [ht] at he
        refine ⟨_, _, he, hx, rfl, fun k => absurd k hb, fun _ k => (by cases k),
          fun _ _ _ => ⟨popping_waiters h, ?_⟩, fun _ _ h1 h2 => ?_⟩
        · have hen := getEngine_of_engines (popState_engines s e q m) e
          exact taken_takeMsg (congrArg Engine.waits hen) (congrArg Engine.rx hen)
        · omega
      · have ht := servePop_stops (w := w) hx hb (by rw [hheap]; exact hk) hd
        have hy := getSearch_mset (popState s e q m) q (answeredPop (popping x m) w)
        refine ⟨_, _, popreq_answered h ht ((getSearch_hardMsg ..).trans hy) hr, (getSearch_hardMsg ..).trans hy, rfl,
          fun k => absurd k hb, fun _ k => (by cases k), fun _ _ k => absurd k hd, fun _ _ _ _ => ⟨?_, rfl, hw⟩⟩
        exact sent_replyPop (sameQueues_trans hq (sameQueues_of_engines (by rfl))) hh noIdent

end Popreq

/-! ## ENDW (R164) -/

section Endw

variable {s : State} {e q : Nat} {m : Msg} {x : Search}

/-- A search one of whose walkers has ended. -/
def ending (x : Search) (m : Msg) : Search := { reportWalker x m (bodyItem m.body 1) with endedW := x.endedW + 1 }

/-- The state in which an ENDW is counted. -/
def endwState (s : State) (e q : Nat) (m : Msg) : State := modSearch (takeMsg s e m) q (fun x => ending x m)

theorem getSearch_endwState (h : AtHome s e q 7 m x) : getSearch (endwState s e q m) q = some (ending x m) := by
  obtain ⟨-, -, hx, -⟩ := h
  exact getSearch_modSearch_self (takeMsg s e m) hx _

theorem endw_checks (h : AtHome s e q 7 m x) : exec (.endw e) s = .next (checkSearch (endwState s e q m) q) := by
  have hh := homeSearch_atHome h
  have hy := getSearch_endwState h
  obtain ⟨hm, -, -, -, -, hw⟩ := h
  rw [← serveHeap_idle hy hw, exec_endw, execEndw, hm]
  dsimp only
  rw [hh]
  rfl

/-- A commit keeps every search. -/
theorem getSearch_commitHold (s : State) (h : Hold) (q : Nat) : getSearch (commitHold s h) q = getSearch s q := by
  rw [getSearch, getSearch, commitHold_searches]

/-- The last walker ends its search. -/
theorem endw_ends (h : AtHome s e q 7 m x) (hw : x.endedW + 1 = x.spawned) (hd : x.dreqs + (bodyItem m.body 1 : Nat) = 0)
    (hc : conflicts s x.hold = false) (hn : ∀ en ∈ (takeMsg s e m).engines, ∀ c ∈ en.2.ctxs, c.2.kind ≠ .setup q) :
    ∃ t, exec (.endw e) s = .next t ∧
      SearchEnds s t q ((if x.spent || x.engFault then 1 else 0) + (if x.poison then 2 else 0)) := by
  have hy := getSearch_endwState h
  have hen : (endwState s e q m).engines = (takeMsg s e m).engines := modSearch_engines ..
  have hcf : conflicts (endwState s e q m) x.hold = conflicts s x.hold := by
    rw [endwState, modSearch]
    split <;> rfl
  have hx := endw_checks h
  obtain ⟨-, -, hs, hrun, -⟩ := h
  rw [checkSearch_ends hy hrun hw hd (hen ▸ hn) (hcf.trans hc)] at hx
  exact ⟨_, hx, endSearch_ends hs ((getSearch_commitHold ..).trans hy) ⟨rfl, rfl, rfl, rfl⟩ _⟩

end Endw

/-- R163 and R164: the three messages of the heap unit. -/
theorem heapUnit : HeapUnit := by
  refine ⟨fun e s => ⟨fun hm => ?_, fun hm => ?_, fun hm => ?_⟩, fun e q s m x ch h hr hc hl hn => ?_,
    fun e q s m x h hr => heapUnit_popreq h hr, fun e q s m x h => ⟨fun hr => ?_, fun hw hd hc hn => endw_ends h hw hd hc hn⟩⟩
  · rw [exec_cands, execCands, hm]
  · rw [exec_popreq, execPopreq, hm]
  · rw [exec_endw, execEndw, hm]
  · have he := cands_one h hl hn
    obtain ⟨-, -, hx, -, -, hw⟩ := h
    have hch := (chainOf_congr (takeMsg_chains s e m) q).trans hc
    obtain ⟨y, hy, hyx, hv, hne, hheap⟩ := takeCand_spec (s := takeMsg s e m) (BitVec.ofNat 32 (bodyItem m.body 0), bodyItem m.body 1 % 2 ^ 48) hx hch
    rw [serveHeap_idle hy (by rw [hyx]; exact hw), checkSearch_goesOn hy (by rw [hyx]; exact hr)] at he
    rw [heapOf_congr (takeMsg_chains s e m)] at hheap
    rw [visitedHash_eq] at hv hne hheap
    exact ⟨_, y, he, hy, hv, hne, hheap⟩
  · have hy := getSearch_endwState h
    have hx := endw_checks h
    rw [checkSearch_goesOn hy hr] at hx
    exact ⟨_, _, hx, hy, rfl, rfl⟩

end Sys2Proof.Proofs
end

section
/-! PROOFS. POPREPs, distance requests and their answers (R136, R162 to R164, R291). -/

namespace Sys2Proof.Proofs

open Sys2Proof Sys2Proof.Machine Sys2Proof.Claim

/-! ## Lists in parts -/

section Parts

theorem firstN_eq_take {α : Type} (n : Nat) (l : List α) : firstN n l = l.take n := by
  induction l generalizing n with
  | nil => cases n <;> rfl
  | cons a r ih =>
    cases n with
    | zero => rfl
    | succ n => rw [firstN, ih, List.take_succ_cons]

theorem afterN_eq_drop {α : Type} (n : Nat) (l : List α) : afterN n l = l.drop n := by
  induction l generalizing n with
  | nil => cases n <;> rfl
  | cons a r ih =>
    cases n with
    | zero => rfl
    | succ n => rw [afterN, ih, List.drop_succ_cons]

/-- The items of a CANDS: a key and an identifier for each candidate. -/
def candItems (cs : List (Word × Nat)) : List Nat := cs.flatMap (fun c => [c.1.toNat, c.2])

theorem candItems_length (cs : List (Word × Nat)) : (candItems cs).length = 2 * cs.length := by
  induction cs with
  | nil => rfl
  | cons c r ih =>
    rw [candItems, List.flatMap_cons, List.length_append, ← candItems, ih, List.length_cons]
    simp only [List.length_cons, List.length_nil]
    omega

theorem candItems_get {cs : List (Word × Nat)} {j : Nat} {key : Word} {id : Nat} (h : cs[j]? = some (key, id)) :
    lget (candItems cs) (2 * j) 0 = key.toNat ∧ lget (candItems cs) (2 * j + 1) 0 = id := by
  induction cs generalizing j with
  | nil => cases h
  | cons c r ih =>
    cases j with
    | zero =>
      obtain rfl := Option.some.inj h
      exact ⟨rfl, rfl⟩
    | succ j => exact ih h

end Parts

/-! ## POPREP (R291) -/

section Poprep

variable {s : State} {e q h a : Nat} {m : Msg} {c : Ctx}

theorem popTarget_walker (hc : mfind (getEngine s e).ctxs (bodyItem m.body 1 % 16) = some c) (hk : c.kind = .walker q)
    (hq : q % 65536 = headField m.header 47 32) : popTarget s e m = some c := by
  rw [popTarget, hc]
  dsimp only
  rw [hk]
  exact if_pos hq

theorem modCtx_find {k : Nat} {x : Ctx} (hx : mfind (getEngine s e).ctxs k = some x) (f : Ctx → Ctx) :
    mfind (getEngine (modCtx s e k f) e).ctxs k = some (f x) := by
  rw [modCtx, getEngine_modEngine_self, hx]
  exact mfind_mset_self ..

theorem modCtx_rx (s : State) (e k : Nat) (f : Ctx → Ctx) (j : Nat) : (getEngine (modCtx s e k f) j).rx = (getEngine s j).rx := by
  rw [modCtx, getEngine_modEngine]
  split
  · subst_vars
    split <;> rfl
  · rfl

/-- The fetch thread of a context. -/
def fetchOf (e k : Nat) : NCur := { engine := e, ctx := k, math := false }

/-- A fetch thread that takes a POPREP into registers other than the status register (R291). -/
def poppedThr (e k : Nat) (c : Ctx) (m : Msg) (h a : Nat) : NThr := takeRecv (thrOf (fetchOf e k) c) m (h, a)

/-- The context that takes a POPREP. -/
def poppedCtx (e k : Nat) (c : Ctx) (m : Msg) (h a : Nat) : Ctx :=
  { c with fetch := { poppedThr e k c m h a with g := mdel (poppedThr e k c m h a).g 31 },
           status := mget (poppedThr e k c m h a).g 31 0#64, holds := m.holds }

/-- A POPREP at the head of a queue goes to the context that waits for it. -/
theorem poprep_taken (hr : (getEngine s e).rx = [m]) (hm : m.kind = 4) (hc : mfind (getEngine s e).ctxs (bodyItem m.body 1 % 16) = some c)
    (hk : c.kind = .walker q) (hq : q % 65536 = headField m.header 47 32) (hw : c.fetch.wait = .recv h a) :
    ∃ t, exec (.poprep e) s = .next t ∧ (getEngine t e).rx = (getEngine (takeMsg s e m) e).rx ∧
      mfind (getEngine t e).ctxs (bodyItem m.body 1 % 16) = some (poppedCtx e (bodyItem m.body 1 % 16) c m h a) := by
  have ht := popTarget_walker hc hk hq
  have hready : popReady s e m = true := by
    rw [popReady, hm, ht]
    dsimp only
    rw [hw]
    rfl
  have hfind : (getEngine s e).rx.find? (popReady s e) = some m := by
    rw [hr]
    simp [hready]
  have hc1 : mfind (getEngine (takeMsg s e m) e).ctxs (bodyItem m.body 1 % 16) = some c := by rw [takeMsg_ctxs, hc]
  have hp : exec (.poprep e) s = .next (modCtx (putThr (takeMsg s e m) (fetchOf e (bodyItem m.body 1 % 16))
      (poppedThr e (bodyItem m.body 1 % 16) c m h a)) e (bodyItem m.body 1 % 16) (fun c => { c with holds := m.holds })) := by
    rw [exec_poprep, execPoprep, hfind]
    dsimp only
    rw [ht]
    dsimp only
    rw [hw]
    rfl
  exact ⟨_, hp, (modCtx_rx ..).trans (modCtx_rx ..), modCtx_find (modCtx_find hc1 _) _⟩

/-- The registers that a POPREP leaves: its header in two of them, its body in a vector. -/
theorem poppedCtx_regs (e k : Nat) (c : Ctx) (m : Msg) {h a : Nat} (h1 : 1 ≤ h) (h2 : h < 30) :
    nearV (poppedCtx e k c m h a).fetch a = vecOf m.body ∧ nearG (poppedCtx e k c m h a).fetch h = m.header.setWidth 64 ∧
    nearG (poppedCtx e k c m h a).fetch (h + 1) = BitVec.ofNat 64 (m.header.toNat / 2 ^ 64) := by
  have hg : (poppedThr e k c m h a).g =
      mput (mput (thrOf (fetchOf e k) c).g h (m.header.setWidth 64) 0#64) (h + 1) (BitVec.ofNat 64 (m.header.toNat / 2 ^ 64)) 0#64 := by
    rw [poppedThr, takeRecv, nearPutG, nearPutG, if_neg (by omega), if_neg (by omega)]
    rfl
  refine ⟨mget_mput_self .., ?_, ?_⟩
  · rw [nearG, if_neg (by omega)]
    refine (mget_mdel ..).trans ((if_neg (by omega)).trans ?_)
    rw [hg, mget_mput_ne _ _ _ (by omega), mget_mput_self]
  · rw [nearG, if_neg (by omega)]
    refine (mget_mdel ..).trans ((if_neg (by omega)).trans ?_)
    rw [hg, mget_mput_self]

/-- No POPREP, nothing taken. -/
theorem poprep_none (h : ∀ m ∈ (getEngine s e).rx, m.kind ≠ 4) : exec (.poprep e) s = .next s := by
  have hf : (getEngine s e).rx.find? (popReady s e) = none := by
    rw [List.find?_eq_none]
    intro m hm
    simp [popReady, h m hm]
  rw [exec_poprep, execPoprep, hf]

end Poprep

/-! ## DREQ (R163) -/

section Dreq

variable {s s2 : State} {e q k : Nat} {m : Msg} {x : Search} {cs : List (Word × Nat)}

/-- Working out answers leaves the engines. -/
theorem nearRead_engines {n : Nat} {va : DWord} {o : Option (List Byte × Bool)} {t : State} (h : nearRead s (.walker q) n va = (o, t)) :
    t.engines = s.engines := (nearRead_snd h).engines

theorem ite_engines {α : Type} {c : Prop} [Decidable c] {a b : α × State} (ha : a.2.engines = s.engines) (hb : b.2.engines = s.engines) :
    (if c then a else b).2.engines = s.engines := by
  split
  · exact ha
  · exact hb

theorem chainWalk_engines (q j e stack : Nat) (x : Search) (n : Nat) (last : Option Nat) (va : Nat) (s : State) :
    (chainWalk q j e stack x n last va s).2.engines = s.engines := by
  induction n generalizing last va s with
  | zero =>
    rw [chainWalk]
    exact ite_engines rfl rfl
  | succ n ih =>
    rw [chainWalk]
    refine ite_engines rfl ?_
    split
    next h _ =>
      have h1 := nearRead_engines h
      exact ite_engines h1 (ite_engines ((modSearch_engines ..).trans h1)
        (ite_engines h1 (ite_engines (ite_engines h1 h1) ((ih ..).trans h1))))
    next h _ => exact nearRead_engines h

theorem nodeOf_engines (s : State) (q j e : Nat) (x : Search) : (nodeOf s q j e x).2.engines = s.engines := by
  rw [nodeOf]
  split
  next stack s1 h =>
    have h1 := (recordOf_snd h).engines
    split
    next h2 => exact (nearRead_engines h2).trans h1
    next t tq s2 h2 =>
      have h3 := (nearRead_engines h2).trans h1
      have h4 := (chainWalk_engines q j e stack x 65536 none (leNat t) s2).trans h3
      refine ite_engines ((modSearch_engines ..).trans h3) ?_
      generalize chainWalk q j e stack x 65536 none (leNat t) s2 = o at h4 ⊢
      obtain ⟨o, s3⟩ := o
      match o with
      | none => exact h4
      | some true => exact h4
      | some false => exact h4
  next h => exact (recordOf_snd h).engines

theorem answerNodes_engines (q e : Nat) (x : Search) (s : State) (js : List Nat) : (answerNodes q e x s js).2.engines = s.engines := by
  induction js generalizing s with
  | nil => rfl
  | cons j r ih =>
    have hn := nodeOf_engines s q j e x
    rw [answerNodes]
    generalize nodeOf s q j e x = o at hn ⊢
    obtain ⟨f, s1⟩ := o
    cases f with
    | fault => exact hn
    | absent => exact (ih s1).trans hn
    | vector va =>
      have hk := (scanned_keyOf s1 q x va).engines.trans hn
      dsimp only
      generalize keyOf s1 q x va = o at hk ⊢
      obtain ⟨o, s2⟩ := o
      match o with
      | none => exact hk
      | some none => exact (ih s2).trans hk
      | some (some k) => exact (ih s2).trans hk

/-- The nodes that a DREQ names. -/
theorem dreqNodes_eq (n : Nat) (b : BitVec 512) : (below (if n < 8 then n else 8)).map (fun k => bodyItem b k % 2 ^ 48) =
    (List.range (min n 8)).map (fun j => bodyItem b j % 2 ^ 48) := by
  have hmin : (if n < 8 then n else 8) = min n 8 := by split <;> omega
  rw [below_eq_range, hmin]

theorem dreq_waits (hm : headMsg s e 5 = some m) (hq : searchOfQid s (headField m.header 47 32) = some q)
    (hf : freeCtx (getEngine s e) = none) : exec (.dreq e) s = .next (parkMsgs s e 5) := by
  rw [exec_dreq, execDreq, hm]
  dsimp only
  rw [hq]
  dsimp only
  rw [hf]
  cases getSearch s q <;> rfl

/-- A free context takes the request with its answers. -/
theorem dreq_taken (hm : headMsg s e 5 = some m) (hq : searchOfQid s (headField m.header 47 32) = some q) (hx : getSearch s q = some x)
    (hf : freeCtx (getEngine s e) = some k)
    (ha : answerNodes q e x (takeMsg s e m)
      ((List.range (min (headField m.header 27 24) 8)).map (fun j => bodyItem m.body j % 2 ^ 48)) = (some cs, s2)) :
    exec (.dreq e) s = .next (modEngine s2 e (fun en => { en with ctxs := mset en.ctxs k (requestCtx x q cs) })) := by
  rw [exec_dreq, execDreq, hm]
  dsimp only
  rw [hq]
  dsimp only
  rw [hx, hf]
  dsimp only
  rw [dreqNodes_eq, ha]

end Dreq

/-! ## The answers of a request (R162, R163) -/

section Answers

variable {s : State} {e q k : Nat} {c : Ctx} {x : Search} {cs : List (Word × Nat)} {rest : List (List (Word × Nat))}

theorem requestAnswer_waits (hc : mfind (getEngine s e).ctxs k = some c) (hk : c.kind = .request q) (ha : c.answers = cs :: rest)
    (hx : getSearch s q = some x) (hn : maySendNow s e x.home = false) : runEvent (.requestAnswer e k) s = .next s := by
  rw [runEvent, answerRequest, hc]
  dsimp only
  rw [hk, ha]
  dsimp only
  rw [hx]
  dsimp only
  rw [hn]
  rfl

/-- The CANDS that a request sends next. -/
def candsMsg (s : State) (e q : Nat) (x : Search) (cs : List (Word × Nat)) (rest : List (List (Word × Nat))) : Msg :=
  madeMsg s e x.home 2 cs.length rest.isEmpty q x.snap (candItems cs) false 0

theorem requestAnswer_sends (hc : mfind (getEngine s e).ctxs k = some c) (hk : c.kind = .request q) (ha : c.answers = cs :: rest)
    (hx : getSearch s q = some x) (hn : maySendNow s e x.home = true) : runEvent (.requestAnswer e k) s =
      .next (if rest.isEmpty then endCtx (deliverMsg s e x.home (candsMsg s e q x cs rest)) e k
        else modCtx (deliverMsg s e x.home (candsMsg s e q x cs rest)) e k (fun c => { c with answers := rest })) := by
  rw [runEvent, answerRequest, hc]
  dsimp only
  rw [hk, ha]
  dsimp only
  rw [hx]
  dsimp only
  rw [hn, sendCands, hardMsg_now hn]
  rfl

theorem endCtx_rx (s : State) (e k j : Nat) : (getEngine (endCtx s e k) j).rx = (getEngine s j).rx := by
  rw [endCtx, getEngine_modEngine]
  split
  · subst_vars
    rfl
  · rfl

theorem endCtx_gone (s : State) (e k : Nat) : mfind (getEngine (endCtx s e k) e).ctxs k = none := by
  rw [endCtx, getEngine_modEngine_self]
  exact (mfind_mdel ..).trans (if_pos rfl)

/-- The fields and items of a CANDS. -/
theorem candsMsg_fields (s : State) (e q : Nat) (x : Search) (rest : List (List (Word × Nat))) (hl : cs.length ≤ 4) :
    (candsMsg s e q x cs rest).kind = 2 ∧ headField (candsMsg s e q x cs rest).header 27 24 = cs.length ∧
    headField (candsMsg s e q x cs rest).header 28 28 = (if rest = [] then 1 else 0) ∧
    ∀ j key id, cs[j]? = some (key, id) → bodyItem (candsMsg s e q x cs rest).body (2 * j) = key.toNat ∧
      bodyItem (candsMsg s e q x cs rest).body (2 * j + 1) = id % 2 ^ 64 := by
  have hlen := candItems_length cs
  refine ⟨headField_kind .., (headField_count ..).trans (Nat.mod_eq_of_lt (by omega)), (headField_last ..).trans ?_, fun j key id hj => ?_⟩
  · cases rest <;> rfl
  · obtain ⟨hkey, hid⟩ := candItems_get hj
    have hlt : j < cs.length := (List.getElem?_eq_some_iff.1 hj).1
    have hkl := key.isLt
    refine ⟨(bodyItem_bodyOf (by omega) (by omega)).trans ?_, (bodyItem_bodyOf (by omega) (by omega)).trans ?_⟩
    · rw [hkey, Nat.mod_eq_of_lt (by omega)]
    · rw [hid]

end Answers

/-- R136, R162 to R164 and R291: POPREPs, requests and their answers. -/
theorem walkerMessages : WalkerMessages := by
  refine ⟨fun e s => ⟨poprep_none, fun hm => ?_⟩, fun e s m c q h a hr hw hm hc hk hq hwait h1 h2 _ => ?_, fun e q s m hm hq hf => ?_,
    fun e q k s s2 m x cs hm hq hx hf ha => ?_, fun e q k s c x cs rest hc hk ha hx hl => ⟨requestAnswer_waits hc hk ha hx, fun hn => ?_⟩⟩
  · rw [exec_dreq, execDreq, hm]
  · obtain ⟨t, ht, hrx, hct⟩ := poprep_taken hr hm hc hk hq hwait
    obtain ⟨hv, hlo, hhi⟩ := poppedCtx_regs e (bodyItem m.body 1 % 16) c m h1 h2
    refine ⟨t, _, ht, ?_, hct, rfl, rfl, hv, rfl, hlo, hhi⟩
    rw [hrx, takeMsg, getEngine_modEngine_self]
    simp [hw, hr]
  · exact ⟨_, dreq_waits hm hq hf, parkMsgs_setAside s e 5⟩
  · have hen := getEngine_of_engines ((congrArg (fun p => p.2.engines) ha).symm.trans (answerNodes_engines ..)) e
    refine ⟨_, requestCtx x q cs, dreq_taken hm hq hx hf ha, taken_takeMsg ?_ ?_, ?_, rfl, ?_⟩
    · rw [getEngine_modEngine_self, hen]
    · rw [getEngine_modEngine_self, hen]
    · rw [getEngine_modEngine_self]
      exact mfind_mset_self ..
    · rw [← firstN_eq_take, ← afterN_eq_drop]
      rfl
  · obtain ⟨h1, h2, h3, h4⟩ := candsMsg_fields s e q x rest hl
    have he := requestAnswer_sends hc hk ha hx hn
    have hrx := deliverMsg_rx s e x.home (candsMsg s e q x cs rest)
    have hct := (congrArg (fun m => mfind m k) (deliverMsg_keeps s e x.home (candsMsg s e q x cs rest) e).1).trans hc
    cases rest with
    | nil => exact ⟨_, _, he, (endCtx_rx ..).trans hrx, h1, h2, h3, h4, fun _ => endCtx_gone .., fun h => absurd rfl h⟩
    | cons r l =>
      exact ⟨_, _, he, (modCtx_rx ..).trans hrx, h1, h2, h3, h4, fun h => (by cases h), fun _ => ⟨_, modCtx_find hct _, rfl⟩⟩

end Sys2Proof.Proofs
end

section
/-! PROOFS. Faults of contexts (R139, R142, R169). -/

namespace Sys2Proof.Proofs

open Sys2Proof Sys2Proof.Machine Sys2Proof.Claim

/-! ## A context that is gone stays gone -/

section Gone

variable {s : State} {e k q : Nat}

/-- No context stands at a place of an engine. -/
def NoCtx (s : State) (e k : Nat) : Prop := mfind (getEngine s e).ctxs k = none

theorem noCtx_of_engines {t : State} (h : t.engines = s.engines) (hn : NoCtx s e k) : NoCtx t e k := by
  rw [NoCtx, getEngine_of_engines h]
  exact hn

theorem mfind_filter_none {α : Type} {m : Map α} (h : mfind m k = none) (p : Nat × α → Bool) : mfind (m.filter p) k = none := by
  induction m with
  | nil => rfl
  | cons x r ih =>
    obtain ⟨i, v⟩ := x
    by_cases hi : i = k
    · simp [mfind, hi] at h
    · have hr : mfind r k = none := by simpa [mfind, hi] using h
      rw [List.filter_cons]
      split
      · simpa [mfind, hi] using ih hr
      · exact ih hr

theorem getEngine_purgeSearch (s : State) (q e : Nat) : getEngine (purgeSearch s q) e = purgeEngine q (getEngine s e) :=
  mget_map s.engines (fun _ => purgeEngine q) e Engine.reset rfl

theorem noCtx_purgeSearch (hn : NoCtx s e k) (q : Nat) : NoCtx (purgeSearch s q) e k := by
  rw [NoCtx, getEngine_purgeSearch]
  exact mfind_filter_none hn _

theorem noCtx_endSearch (hn : NoCtx s e k) (q : Nat) (x : Ending) : NoCtx (endSearch s q x) e k := by
  cases hx : getSearch s q with
  | none =>
    rw [endSearch, hx]
    exact hn
  | some y => exact noCtx_of_engines (endSearch_engines hx x) (noCtx_purgeSearch hn q)

/-- The end of a search, or its new start, starts no context. -/
theorem noCtx_checkSearch (hn : NoCtx s e k) (q : Nat) : NoCtx (checkSearch s q) e k := by
  rw [checkSearch]
  split
  · exact hn
  · split
    · exact hn
    · split
      · exact noCtx_of_engines (modSearch_engines ..) (noCtx_purgeSearch hn q)
      · exact noCtx_endSearch (noCtx_of_engines (commitHold_engines ..) hn) ..

end Gone

/-! ## A fault, by what the context ran for -/

section Fault

variable {s : State} {e k code q b : Nat} {c : Ctx}

/-- The state after a faulting context has ended and its event is logged. -/
def faultLogged (s : State) (e k code : Nat) : State :=
  logEvent (endCtx s e k) 10 (dieOfEngine e) none (BitVec.ofNat 32 (code + 256 * k)) e

theorem noCtx_faultLogged (s : State) (e k code : Nat) : NoCtx (faultLogged s e k code) e k := endCtx_gone s e k

theorem getSearch_faultLogged (s : State) (e k code q : Nat) : getSearch (faultLogged s e k code) q = getSearch s q := rfl

theorem faultCtx_none (hc : mfind (getEngine s e).ctxs k = none) (code : Nat) : faultCtx s e k code = s := by rw [faultCtx, hc]

theorem faultCtx_nmcall (hc : mfind (getEngine s e).ctxs k = some c) (hk : c.kind = .nmcall b) :
    faultCtx s e k code = failBatch (faultLogged s e k code) b code := by
  rw [faultCtx, hc]
  dsimp only
  rw [hk]
  rfl

theorem faultCtx_setup (hc : mfind (getEngine s e).ctxs k = some c) (hk : c.kind = .setup q) :
    faultCtx s e k code = checkSearch (modSearch (faultLogged s e k code) q (fun y => { y with engFault := true })) q := by
  rw [faultCtx, hc]
  dsimp only
  rw [hk]
  rfl

/-- A search that met an engine's fault, without the POPREQ of the walker that faulted. -/
def walkerFaulted (e k : Nat) (x : Search) : Search := { x with engFault := true, waiters := x.waiters.erase (e, k) }

/-- The state in which a walker's search knows of its fault. -/
def walkerFaultState (s : State) (e k code q : Nat) : State := modSearch (faultLogged s e k code) q (walkerFaulted e k)

/-- A walker's fault is reported by its ENDW, unless it had sent one. -/
theorem faultCtx_walker {x : Search} (hc : mfind (getEngine s e).ctxs k = some c) (hk : c.kind = .walker q) (hx : getSearch s q = some x) :
    faultCtx s e k code = if c.endSent then walkerFaultState s e k code q
      else hardMsg (walkerFaultState s e k code q) e x.home 7 2 false q x.snap [0, c.dreqs] c.holds c.dreqs := by
  have hy := getSearch_modSearch_self (faultLogged s e k code) hx (walkerFaulted e k)
  rw [faultCtx, hc]
  dsimp only
  rw [hk]
  dsimp only
  split
  next h => cases h.symm.trans hy
  next y h =>
    obtain rfl := Option.some.inj (h.symm.trans hy)
    rfl

/-- A walker without a search leaves nothing. -/
theorem faultCtx_walker_gone (hc : mfind (getEngine s e).ctxs k = some c) (hk : c.kind = .walker q) (hx : getSearch s q = none) :
    faultCtx s e k code = faultLogged s e k code := by
  have hm : walkerFaultState s e k code q = faultLogged s e k code := by
    rw [walkerFaultState, modSearch, getSearch_faultLogged, hx]
  rw [faultCtx, hc]
  dsimp only
  rw [hk]
  dsimp only
  split
  next => exact hm
  next y h =>
    have h' : getSearch (walkerFaultState s e k code q) q = some y := h
    rw [hm, getSearch_faultLogged, hx] at h'
    cases h'

/-- A request's fault is answered by an empty CANDS, the last. -/
theorem faultCtx_request {x : Search} (hc : mfind (getEngine s e).ctxs k = some c) (hk : c.kind = .request q) (hx : getSearch s q = some x) :
    faultCtx s e k code = hardMsg (modSearch (faultLogged s e k code) q (fun y => { y with engFault := true })) e x.home 2 0 true q x.snap []
      false 0 := by
  rw [faultCtx, hc]
  dsimp only
  rw [hk]
  dsimp only
  split
  next h => cases h.symm.trans hx
  next y h =>
    obtain rfl := Option.some.inj (h.symm.trans hx)
    rfl

theorem faultCtx_request_gone (hc : mfind (getEngine s e).ctxs k = some c) (hk : c.kind = .request q) (hx : getSearch s q = none) :
    faultCtx s e k code = faultLogged s e k code := by
  rw [faultCtx, hc]
  dsimp only
  rw [hk]
  dsimp only
  split
  next h => rfl
  next y h => cases h.symm.trans hx

/-- A faulting context is gone. -/
theorem noCtx_faultCtx (hc : mfind (getEngine s e).ctxs k = some c) (code : Nat) : NoCtx (faultCtx s e k code) e k := by
  have hu := noCtx_faultLogged s e k code
  match hk : c.kind with
  | .nmcall b =>
    rw [faultCtx_nmcall hc hk]
    exact noCtx_of_engines (failBatch_engines ..) hu
  | .setup q =>
    rw [faultCtx_setup hc hk]
    exact noCtx_checkSearch (noCtx_of_engines (modSearch_engines ..) hu) q
  | .walker q =>
    have hw : NoCtx (walkerFaultState s e k code q) e k := noCtx_of_engines (modSearch_engines ..) hu
    cases hx : getSearch s q with
    | none => exact (faultCtx_walker_gone (code := code) hc hk hx).symm ▸ hu
    | some x =>
      rw [faultCtx_walker hc hk hx]
      split
      · exact hw
      · exact (congrArg (fun m => mfind m k) (hardMsg_keeps e).1).trans hw
  | .request q =>
    cases hx : getSearch s q with
    | none => exact (faultCtx_request_gone (code := code) hc hk hx).symm ▸ hu
    | some x =>
      rw [faultCtx_request hc hk hx]
      exact (congrArg (fun m => mfind m k) (hardMsg_keeps e).1).trans (noCtx_of_engines (modSearch_engines ..) hu)

end Fault

/-- R139, R142 and R169: what a fault leaves, and which blocked pairs are one. -/
theorem engineFaults : EngineFaults := by
  refine ⟨fun e k code s hc => ⟨?_, ?_⟩, fun e k code s c hc => ⟨⟨_, rfl, noCtx_faultCtx hc _, ?_⟩, fun h1 h2 h3 h4 => ?_, fun h => ?_⟩⟩
  · exact congrArg _ (faultCtx_none hc _)
  · rw [exec_queueDeadlockFault, execQueueDeadlockFault, hc]
  · refine ⟨fun b hk => faultCtx_nmcall hc hk, fun q x hk hx hs => ?_, fun q x hk hx => ?_⟩
    · have hf := faultCtx_walker (code := code.toNat) hc hk hx
      rw [hs] at hf
      rw [hf]
      exact ⟨sent_hardMsg (sameQueues_of_engines (modSearch_engines ..)) (by decide) (by simp), _,
        (getSearch_hardMsg ..).trans (getSearch_modSearch_self (faultLogged s e k code.toNat) hx (walkerFaulted e k)), rfl⟩
    · rw [faultCtx_request (code := code.toNat) hc hk hx]
      exact ⟨sent_hardMsg (sameQueues_of_engines (modSearch_engines ..)) (by decide) (by simp), _,
        (getSearch_hardMsg ..).trans (getSearch_modSearch_self (faultLogged s e k code.toNat) hx (fun y => { y with engFault := true })), rfl⟩
  · rw [exec_queueDeadlockFault, execQueueDeadlockFault, hc]
    exact if_pos (by simp [h1, h2, h3, h4])
  · rw [exec_queueDeadlockFault, execQueueDeadlockFault, hc]
    refine if_neg ?_
    rcases h with h | h | h | h <;> simp [h]

/-- Settles O43: the walkers, the heap unit, their messages, and the faults of engines. -/
theorem searchEngines : Obligations.SearchEngines := ⟨walkers, heapUnit, walkerMessages, engineFaults⟩

end Sys2Proof.Proofs
end
